-- ==== Sys2Proof/Word.lean ====
section
/-! DEFINITION. The word types of the SZ4180 and the shape of its sparse tables. The device is little-endian and addresses
count bytes (R8); a half is 16 bits, a word 32, a dword 64, a quad 128. -/

namespace Sys2Proof

abbrev Byte := BitVec 8
abbrev W32 := BitVec 32
abbrev W64 := BitVec 64
abbrev W128 := BitVec 128
/-- An instruction word (R157): 96 bits. -/
abbrev Insn := BitVec 96
/-- An instruction address (R158): 56 bits. -/
abbrev Pc := BitVec 56
/-- A mask of LANE numbers: bit t stands for LANE t. -/
abbrev Lanes := BitVec 64
/-- Sparse data by key: a list of key and value pairs with the keys strictly rising. -/
abbrev Tab (α : Type) := List (Nat × α)
/-- Bytes by address, in the canonical form of `Tab`, none of them zero: an unlisted address reads as zero. -/
abbrev Mem := Tab Byte

end Sys2Proof
end

