-- ==== Sys2Proof/Config.lean ====
section
/-! DEFINITION. What the SZ4180 fixes in numbers, and the free values: constants with no body, so that no proof can see what
they are. A statement about the model holds for every value they may have. -/

namespace Sys2Proof.Config

/-- Compute cores of the two dies, four to a cluster (R2). -/
def numCores : Nat := 192
/-- Clusters, each with one porter (R3). -/
def numClusters : Nat := 48
/-- Resident gangs of one core (R314). -/
def gangSlots : Nat := 64
/-- Register words of a lane (R15). -/
def laneWords : Nat := 2048
/-- Scratchpad bytes of one core (R33). -/
def scratchBytes : Nat := 0x80000
/-- HBM bytes while no pseudo-channel is retired: 384 GiB (R5, R326). -/
def hbmBytes : Nat := 0x6000000000
/-- Entries of a delivery queue (R311) and records of a launch queue (R346). -/
def queueDepth : Nat := 256
/-- Messages of one porter channel (R319). -/
def channelDepth : Nat := 16
/-- Compute-core clocks in a microsecond at 1.5 GHz (R10). -/
def cyclesPerUs : Nat := 1500

/-! Free values. Each is named in the assumption log. -/

/-- Cycles that a step takes when the agenda names no time (log 8). -/
opaque stepCycles : Nat → Nat
/-- Which of the steps that the device may take by itself comes next, with an empty agenda, and what patrol reads (log 3). -/
opaque pick : Nat → Nat
/-- Which of the patterns inside the bound of R75 a special function delivers: operation, format, source pattern (log 9). -/
opaque sfChoice : Nat → Nat → BitVec 32 → Nat
/-- Elements of a poisoned tile: counter and element number (R289; log 10). -/
opaque tileValue : Nat → Nat → BitVec 32
/-- Bytes of a saved image that R358 does not lay out: counter and offset (log 11). -/
opaque imageByte : Nat → Nat → BitVec 8
/-- The home slice of a line, 0 to 127: R101 publishes no hash (log 12). -/
opaque homeSlice : Nat → Fin 128
/-- Entries of an L2 slice's condition-monitor table: R146 gives no number (log 13). -/
opaque monitorSlots : Nat
/-- Port choice of R374: a hash of the core and the line, taken modulo the number of ports (log 12). -/
opaque portHash : Nat → Nat → Nat
/-- Queue-pair choice of R379: a hash of the frame's addresses, ports and protocol (log 12). -/
opaque flowHash : List (BitVec 8) → Nat
/-- The pseudo-channel and the row that hold an HBM atom, for sparing (R405, R411; log 12). -/
opaque hbmRow : Nat → Nat
opaque hbmChannel : Nat → Fin 256
/-- The HBM row is one of a pseudo-channel's; the atoms of a row (R411; log 12). -/
opaque rowOfAddress : Nat → Nat
/-- What a fetch returns for a store to running text, old or new word (R158; log 14). -/
opaque staleFetch : Nat → Bool
/-- SHA3-256 of FIPS 202, SHA-384 and the signature checks: named by R389 to R397 and given by other standards (log 15). -/
opaque sha3_256 : List (BitVec 8) → BitVec 256
opaque mldsaVerify : List (BitVec 8) → BitVec 256 → List (BitVec 8) → Bool
opaque mldsaSign : BitVec 256 → List (BitVec 8)
/-- The AES-256-GCM tag of a Pamon flit: key, salt, counter, text (R401; log 15). -/
opaque gcmTag : BitVec 256 → BitVec 32 → BitVec 64 → List (BitVec 8) → BitVec 128
/-- The flit CRC of R373, whose polynomial the spec does not give (log 15). -/
opaque flitCrc : List (BitVec 8) → BitVec 32
/-- The bytes that an SPDM answer carries where SPDM 1.3 and not the spec gives them (log 16). -/
opaque spdmBytes : Nat → Nat → BitVec 8
/-- Which clusters, and which core of each, the factory disabled (R2; log 17). -/
opaque factoryPick : Nat → Nat
opaque factoryCore : Nat → Fin 4

/-- n clusters taken from a list, each once. -/
def factoryClusters : Nat → List Nat → List Nat
  | 0, _ => []
  | n + 1, l =>
    let c := l.getD (factoryPick n % l.length) 0
    c :: factoryClusters n (l.erase c)

/-- The twelve cores fused off, each in a cluster of its own (R2). -/
def disabledCores : List Nat := (factoryClusters 12 (List.range numClusters)).map fun c => 4 * c + (factoryCore c).val

/-- The cores that the factory left enabled: all but twelve (R2). -/
def enabledCores : BitVec 192 := disabledCores.foldl (fun m c => m &&& ~~~BitVec.twoPow 192 c) (BitVec.allOnes 192)
/-- The device's fused serial number (R396; log 17). -/
opaque devSerial : BitVec 128
/-- The hashes fused at manufacture in the vendor key slots 0 and 1 (R390; log 17). -/
opaque factoryKey : Nat → BitVec 256
/-- The ROM version and the fuse-configuration digest (R393; log 17). -/
opaque romVersion : List (BitVec 8)
opaque fuseDigest : BitVec 256
/-- The 64 bytes and the sender of a device message whose contents the spec does not give (R380, R406; log 19). -/
opaque deviceMessage : Nat → BitVec 512
opaque deviceSender : Nat → Fin 48
/-- Whether HBM trains in boot step 3, and whether a Pamon port does (R382; log 41). -/
opaque hbmTrains : Nat → Bool
opaque portTrains : Nat → Nat → Bool
/-- Whether key fuses read back as written, and what they hold where they do not (R391; log 44). -/
opaque fuseReads : Nat → Bool
opaque fuseLeft : Nat → BitVec 256
/-- Where stage 1 puts the porter kernel in HBM and starts it, in units of 4 KiB (R382; log 41). -/
opaque porterKernelPage : Fin 0x1000000
/-- Where the porter kernel's image lies in the XIP region, in units of 4 KiB (R383; log 41). -/
opaque xipKernelPage : Fin 0x100000
/-- Whether an uncorrectable error that a read has found stands for the next read of its atom too (R251, R405; log 43). -/
opaque errorStays : Nat → Bool
/-- What a porter reads where the spec states no value: from write-only registers, a drive's own, and mcycle (logs 18 and
31). -/
opaque deviceRead : Nat → Nat → BitVec 64

/-- Bits 127 to 64 of a FILL value where the element size is 16 bytes: the record holds 64 bits of it (R273; log 22). -/
opaque fillHigh : BitVec 64 → BitVec 64
/-- Handler and kind bits that the state port reads at a disarmed event slot (R316; log 35). -/
opaque slotResidue : Nat → BitVec 59

end Sys2Proof.Config
end

