-- ==== Sys2Proof/Syntax.lean ====
section
/-! DEFINITION. The instructions and steps of the SZ4180. -/

namespace Sys2Proof

/-- Type codes 0x0 to 0xC of R163. The B format of an MMA uses codes 0 to 7 (R284). -/
inductive Ty where
  | n8 | n16 | n32 | n64 | i8 | i16 | i32 | i64 | f32 | f64 | f16 | bf16 | b128
  deriving DecidableEq, Repr

/-- The special registers of R50. -/
inductive SReg where
  | lane | slice | gang | ngang | gwidth
  | block | blockX | blockY | blockZ | gridX | gridY | gridZ
  | core | cluster | clockL | clockH | epend | emask | evslot | deadL | deadH
  | dstartL | dstartH | dxm | dwm | dext | drc | drl | fstat | loopd | cbstat
  | edview (n : Fin 8) | gstat (n : Fin 8) | glim (n : Fin 8)
  deriving DecidableEq, Repr

/-- The values of an operand field that R159 does not reserve. -/
inductive Operand where
  /-- class 00: v0 to v255 -/
  | v (i : BitVec 8)
  /-- class 01: s0 to s63 -/
  | s (i : BitVec 6)
  /-- class 10, 0x00 to 0x07: p0 to p7 -/
  | p (i : BitVec 3)
  /-- class 10, 0x10 to 0x1F: accumulator tiles -/
  | tile (i : BitVec 4)
  /-- class 10, 0x20 to 0x2F: event slots -/
  | slot (i : BitVec 4)
  /-- class 10, 0x30 to 0x37: range guards -/
  | guard (i : BitVec 3)
  /-- class 10, from 0x40: special registers -/
  | sr (r : SReg)
  /-- class 11, index 0: the literal -/
  | lit
  deriving DecidableEq, Repr

/-- The fields of an instruction word other than OP and FN (R157). The guard is p[pred] XOR neg. -/
structure Fields where
  neg : Bool
  pred : BitVec 3
  yld : Bool
  keep : Bool
  ra : Bool
  rb : Bool
  d : Operand
  a : Operand
  b : Operand
  ty : Ty
  md : BitVec 4
  sat : Bool
  fa : Bool
  fb : Bool
  x : Bool
  imm : BitVec 32
  deriving DecidableEq, Repr

/-- The order codes FN[5:4] of ATOM and CAS (R169). -/
inductive Order where
  | plain | acq | rel | ar
  deriving DecidableEq, Repr

/-- The cause codes of R334 that the device raises in a compute thread or an engine. -/
inductive Cause where
  | zeroWord | illegalOpcode | reservedField | operandClass | registerRange | emptyRegister | badTarget
  | loopOverflow | misaligned | addressRange | scratchRange | paramRange | pageAbsent | pageRead
  | pageWrite | pageDirty | pagePrivilege | fetchFault | walkFormat | physHole | remoteUnreachable
  | hostAccess | dataPoison | accPoison | walkPoison | fetchPoison | barrierStale | barrierPoison
  | mailboxRange | mailboxCorrupt | eventToken | monitorHome | waitTimeout | editionSlot | copyRecord
  | copyPart | copyBatch | matrixBind | matrixMismatch | rangeGuard | draftLivelock | breakpoint
  | softwareTrap
  deriving DecidableEq, Repr

/-- The read-modify-writes of the RISC-V A extension (R309). -/
inductive AmoOp where
  | swap | add | xor | and | or | min | max | minu | maxu
  deriving DecidableEq, Repr

/-- A porter's load, store or AMO, as RV64GC has them (R309): `w` is log2 of the bytes. -/
inductive PorterAccess where
  | load (w : Fin 4) (unsigned : Bool) (rd rs1 : BitVec 5) (off : BitVec 12)
  | store (w : Fin 4) (rs1 rs2 : BitVec 5) (off : BitVec 12)
  | fload (dbl : Bool) (rd rs1 : BitVec 5) (off : BitVec 12)
  | fstore (dbl : Bool) (rs1 rs2 : BitVec 5) (off : BitVec 12)
  | loadReserved (dbl aq rl : Bool) (rd rs1 : BitVec 5)
  | storeConditional (dbl aq rl : Bool) (rd rs1 rs2 : BitVec 5)
  | amo (op : AmoOp) (dbl aq rl : Bool) (rd rs1 rs2 : BitVec 5)
  deriving DecidableEq, Repr

/-- Who writes a register of the device register space (R345, R381): the host, through a function, or a porter. -/
inductive Writer where
  | host
  | porter (cl : Nat)
  deriving DecidableEq, Repr

/-- What a register write names: a dword of the device register space by physical address, a porter CSR by cluster and
number, or a dword of the boot staging window (R385) by offset. -/
inductive RegTarget where
  | mmio (pa : Nat)
  | csr (cl num : Nat)
  | window (off : Nat)
  deriving DecidableEq, Repr

/-- A request over Pamon Link (R374 to R376). `op` numbers the operations as R247 numbers FN[3:0], 8 and 9 the float MIN
and MAX of R277; `poison` is an engine's write of a poisoned element (R279). -/
inductive RemoteOp where
  | read (size : Nat)
  | write (size data : Nat)
  | atom (op : Nat) (ty : Ty) (b : Nat)
  | cas (ty : Ty) (b c : Nat)
  | red (op : Nat) (ty : Ty) (b : Nat)
  | reduce (rop : Nat) (ty : Ty) (b : Nat) (core use epoch chunk : Nat)
  | poison (size : Nat)
  deriving DecidableEq, Repr

/-- A storage element in which a bit error arises (R404). -/
inductive ErrPlace where
  | hbm (pa : Nat)
  | l2 (pa : Nat)
  | scratch (blk : Nat) (odd : Bool) (off : Nat)
  | vreg (key lane reg : Nat)
  | sreg (key slice reg : Nat)
  | pred (key lane reg : Nat)
  | tile (core t : Nat)
  | monitor (i : Nat)
  | cache (core line : Nat)
  | queueSram (cl : Nat)
  | mgmtSram
  | engine (core use chunk elem pa : Nat)
  | tlb (core i : Nat)
  | walks (cl i : Nat)
  | spare (core quad : Nat)
  deriving DecidableEq, Repr

/-- A host access over CXL.mem (R369, R370): a read that leaves the half in the host's caches or not, a write, or the host's RMW once it
owns the half: new bytes put in the place of those it found. -/
inductive HostOp where
  | read (own : Bool)
  | write (data : Nat)
  | rmw (old new : Nat)
  deriving DecidableEq, Repr


/-- What the machine can do in one indivisible step: one constructor for each row of the table of operations and events.
A compute instruction carries the fields of its word; a step with no encoding carries the name of its subject, and the
steps that have one subject at most stand last. -/
inductive Instr where
  /-- BRA (R220): Relative branch to PC + 12 + 12 × IMM for each thread whose guard is true, popping loops that do not contain the target. -/
  | bra (f : Fields)
  /-- BRX (R220): Indexed relative branch whose offset adds the A operand to IMM. -/
  | brx (f : Fields)
  /-- CALL (R220): Relative call that writes the return address to the 64-bit link operand and transfers control. -/
  | call (f : Fields)
  /-- CALL_IND (R220): Indirect call to a 64-bit register target, trapping with BAD_TARGET on a bad target. -/
  | callInd (f : Fields)
  /-- RET (R220): Transfer to a 64-bit register target, trapping with BAD_TARGET on a bad target. -/
  | ret (f : Fields)
  /-- LOOP (R223): Pushes a hardware-loop entry, or runs the end step at once for a zero count, trapping with LOOP_OVERFLOW at depth 4. -/
  | loop (f : Fields)
  /-- EXIT (R226): Commits the draft and ends the thread permanently. -/
  | exit (f : Fields)
  /-- NOP (R227): Changes no state. -/
  | nop (f : Fields)
  /-- YIELD (R227): Passes the round-robin on and makes the sub-gang swappable at once. -/
  | yield (f : Fields)
  /-- SLEEP (R228): Completes and leaves the executing threads asleep for about the largest n cycles. -/
  | sleep (f : Fields)
  /-- SLEEP_END (R228): Ends a sleep between max n and max n + 1,024 cycles after issue, or at eviction of the gang. -/
  | sleepEnd (k w : Nat)
  /-- BPT (R229): Traps with BREAKPOINT in every thread whose guard is true, committing the draft. -/
  | bpt (f : Fields)
  /-- TRAP (R229): Traps with SOFTWARE_TRAP and records the trap code. -/
  | trap (f : Fields)
  /-- ILLEGAL_WORD (R171): A fetched word that fails a decode check traps in every thread of the execution mask with the cause of the first failed check. -/
  | illegalWord (c : Cause)
  /-- IADD (R191): Integer add, wrapping or saturating. -/
  | iadd (f : Fields)
  /-- ISUB (R191): Integer subtract, wrapping or saturating. -/
  | isub (f : Fields)
  /-- IADDC (R192): Add with carry-in and carry-out in a predicate. -/
  | iaddc (f : Fields)
  /-- ISUBB (R192): Subtract with borrow-in and borrow-out in a predicate. -/
  | isubb (f : Fields)
  /-- IMUL (R191): Integer multiply, low part. -/
  | imul (f : Fields)
  /-- IMULH (R191): Integer multiply, high half. -/
  | imulh (f : Fields)
  /-- IMAD (R191): Integer multiply-add. -/
  | imad (f : Fields)
  /-- IMADW (R191): Widening 32 × 32 + 64 multiply-add into a 64-bit destination. -/
  | imadw (f : Fields)
  /-- IMIN (R191): Integer minimum. -/
  | imin (f : Fields)
  /-- IMAX (R191): Integer maximum. -/
  | imax (f : Fields)
  /-- IABS (R191): Integer absolute value. -/
  | iabs (f : Fields)
  /-- INEG (R191): Integer negation. -/
  | ineg (f : Fields)
  /-- ICMP (R193): Integer comparison into a predicate. -/
  | icmp (f : Fields)
  /-- ISET (R193): Integer comparison into an all-ones or zero register value. -/
  | iset (f : Fields)
  /-- SEL (R194): Selects A or B by a predicate. -/
  | sel (f : Fields)
  /-- MOV (R194): Moves a register, literal or special-register value. -/
  | mov (f : Fields)
  /-- LEA (R194): Computes a 64-bit base plus a scaled index. -/
  | lea (f : Fields)
  /-- AND (R196): Bitwise AND. -/
  | and (f : Fields)
  /-- OR (R196): Bitwise OR. -/
  | or (f : Fields)
  /-- XOR (R196): Bitwise XOR. -/
  | xor (f : Fields)
  /-- ANDN (R196): A AND NOT B. -/
  | andn (f : Fields)
  /-- NOT (R196): Bitwise NOT. -/
  | not (f : Fields)
  /-- SHL (R196): Shift left. -/
  | shl (f : Fields)
  /-- SHR (R196): Logical shift right. -/
  | shr (f : Fields)
  /-- SAR (R196): Arithmetic shift right. -/
  | sar (f : Fields)
  /-- ROT (R196): Rotate left. -/
  | rot (f : Fields)
  /-- SHF (R196): Funnel shift of A:B, left or right. -/
  | shf (f : Fields)
  /-- BFE (R197): Bit-field extract. -/
  | bfe (f : Fields)
  /-- BFI (R197): Bit-field insert. -/
  | bfi (f : Fields)
  /-- POPC (R196): Population count. -/
  | popc (f : Fields)
  /-- CLZ (R196): Count leading zeros. -/
  | clz (f : Fields)
  /-- CTZ (R196): Count trailing zeros. -/
  | ctz (f : Fields)
  /-- BREV (R196): Bit reversal. -/
  | brev (f : Fields)
  /-- PRMT (R198): Byte permute under a control word. -/
  | prmt (f : Fields)
  /-- PAND (R199): Predicate AND with optional negations. -/
  | pand (f : Fields)
  /-- POR (R199): Predicate OR with optional negations. -/
  | por (f : Fields)
  /-- PXOR (R199): Predicate XOR with optional negations. -/
  | pxor (f : Fields)
  /-- PMOV (R199): Predicate move with optional negation. -/
  | pmov (f : Fields)
  /-- FADD (R201): Floating-point add for F32 and the pair types, rounded once. -/
  | fadd (f : Fields)
  /-- FSUB (R201): Floating-point subtract for F32 and the pair types. -/
  | fsub (f : Fields)
  /-- FMUL (R201): Floating-point multiply for F32 and the pair types. -/
  | fmul (f : Fields)
  /-- FFMA (R201): Fused multiply-add with a single rounding, for F32 and the pair types. -/
  | ffma (f : Fields)
  /-- FMIN (R202): minimumNumber for F32 and the pair types. -/
  | fmin (f : Fields)
  /-- FMAX (R202): maximumNumber for F32 and the pair types. -/
  | fmax (f : Fields)
  /-- FABS (R202): Clears the sign bit, canonicalising NaNs. -/
  | fabs (f : Fields)
  /-- FNEG (R202): Inverts the sign bit, canonicalising NaNs. -/
  | fneg (f : Fields)
  /-- FCMP (R203): Floating-point comparison into a predicate. -/
  | fcmp (f : Fields)
  /-- FSET (R203): Floating-point comparison into an all-ones or zero mask per element. -/
  | fset (f : Fields)
  /-- FCLASS (R204): Writes the class bits of each element. -/
  | fclass (f : Fields)
  /-- FRND (R205): Rounds each element to an integral value under MD. -/
  | frnd (f : Fields)
  /-- FSCALE (R205): Multiplies by 2^k, rounded once. -/
  | fscale (f : Fields)
  /-- FADD_F64 (R201): FP64 add, under OP 0x40. -/
  | faddF64 (f : Fields)
  /-- FSUB_F64 (R201): FP64 subtract, under OP 0x40. -/
  | fsubF64 (f : Fields)
  /-- FMUL_F64 (R201): FP64 multiply, under OP 0x40. -/
  | fmulF64 (f : Fields)
  /-- FFMA_F64 (R201): FP64 fused multiply-add, under OP 0x40. -/
  | ffmaF64 (f : Fields)
  /-- FMIN_F64 (R202): FP64 minimumNumber, under OP 0x40. -/
  | fminF64 (f : Fields)
  /-- FMAX_F64 (R202): FP64 maximumNumber, under OP 0x40. -/
  | fmaxF64 (f : Fields)
  /-- FABS_F64 (R202): FP64 absolute value, under OP 0x40. -/
  | fabsF64 (f : Fields)
  /-- FNEG_F64 (R202): FP64 negation, under OP 0x40. -/
  | fnegF64 (f : Fields)
  /-- FCMP_F64 (R203): FP64 comparison into a predicate, under OP 0x40. -/
  | fcmpF64 (f : Fields)
  /-- FSET_F64 (R203): FP64 comparison into a mask, under OP 0x40. -/
  | fsetF64 (f : Fields)
  /-- FCLASS_F64 (R204): FP64 classification, under OP 0x40. -/
  | fclassF64 (f : Fields)
  /-- FRND_F64 (R205): FP64 round to integral, under OP 0x40. -/
  | frndF64 (f : Fields)
  /-- FSCALE_F64 (R205): FP64 scale by 2^k, under OP 0x40. -/
  | fscaleF64 (f : Fields)
  /-- CVT (R207): Converts between integer and IEEE types under MD and SAT. -/
  | cvt (f : Fields)
  /-- PACK (R208): Converts two full-width values into a 16-bit pair. -/
  | pack (f : Fields)
  /-- UNPACK (R208): Widens a 16-bit pair into two full-width registers. -/
  | unpack (f : Fields)
  /-- CVT8 (R209): Converts between four 8-bit or 6-bit elements and wider values. -/
  | cvt8 (f : Fields)
  /-- CVT4 (R210): Converts between eight 4-bit elements and FP32 values. -/
  | cvt4 (f : Fields)
  /-- QMX (R211): Computes a shared MX block scale over a group of 32 threads. -/
  | qmx (f : Fields)
  /-- RCP (R212): Reciprocal within 1 ulp, as a long-latency producer. -/
  | rcp (f : Fields)
  /-- RSQ (R212): Reciprocal square root. -/
  | rsq (f : Fields)
  /-- SQRT (R212): Correctly rounded square root under MD. -/
  | sqrt (f : Fields)
  /-- EX2 (R212): Base-2 exponential. -/
  | ex2 (f : Fields)
  /-- LG2 (R212): Base-2 logarithm. -/
  | lg2 (f : Fields)
  /-- SINPI (R212): sin(πx), exact at multiples of 0.5. -/
  | sinpi (f : Fields)
  /-- COSPI (R212): cos(πx), exact at multiples of 0.5. -/
  | cospi (f : Fields)
  /-- TANH (R212): Hyperbolic tangent. -/
  | tanh (f : Fields)
  /-- SHFL (R215): Lane shuffle by index, offset or XOR among the participants. -/
  | shfl (f : Fields)
  /-- BALLOT (R216): Writes the mask of participants whose predicate is true. -/
  | ballot (f : Fields)
  /-- VOTE (R216): EVERY, SOME, SAME or NONE vote over the participants into a predicate. -/
  | vote (f : Fields)
  /-- MATCH (R216): Writes the mask of participants holding an equal value. -/
  | matchAny (f : Fields)
  /-- REDUX (R217): Reduction over all participants in LANE order. -/
  | redux (f : Fields)
  /-- SCANX (R217): Exclusive scan over participants in LANE order. -/
  | scanx (f : Fields)
  /-- ELECT (R216): Sets the predicate true only in the lowest-LANE participant. -/
  | elect (f : Fields)
  /-- PRODUCER_WRITEBACK (R46): A long-latency producer writes its destination and marks it full, waking readers blocked on it. -/
  | producerWriteback (k lane id : Nat)
  /-- LD_G (R237): Plain global load, a long-latency producer. -/
  | ldG (f : Fields)
  /-- LD_G_ACQ (R239): Acquire global load at the scope MD gives. -/
  | ldGAcq (f : Fields)
  /-- LD_G_ED (R241): Bounded load of an edition region, refetching form. -/
  | ldGEd (f : Fields)
  /-- LD_G_ED_RPT (R241): Bounded load of an edition region, reporting form. -/
  | ldGEdRpt (f : Fields)
  /-- LD_S (R237): Plain scratchpad load. -/
  | ldS (f : Fields)
  /-- LD_S_ACQ (R239): Acquire scratchpad load. -/
  | ldSAcq (f : Fields)
  /-- LD_S_FW (R240): Scratchpad load that waits until its granules are full. -/
  | ldSFw (f : Fields)
  /-- LD_S_FC (R240): Consuming scratchpad load that waits for full granules and clears them. -/
  | ldSFc (f : Fields)
  /-- FULL_LOAD_PERFORM (R87): A waiting LD.S.FW or LD.S.FC performs once all its granules are full in one step, consuming them for LD.S.FC. -/
  | fullLoadPerform (k w : Nat)
  /-- LD_K (R242): Load from the launch's fixed parameter space. -/
  | ldK (f : Fields)
  /-- ST_G (R238): Plain global store into the draft store buffer. -/
  | stG (f : Fields)
  /-- ST_G_REL (R239): Release global store, performed at commit. -/
  | stGRel (f : Fields)
  /-- ST_S (R238): Plain scratchpad store; fills a partner-half granule. -/
  | stS (f : Fields)
  /-- ST_S_REL (R239): Release scratchpad store. -/
  | stSRel (f : Fields)
  /-- ST_S_FS (R238): Scratchpad store that sets its granule full, as a BLOCK-scope release. -/
  | stSFs (f : Fields)
  /-- DRAFT_COMMIT (R139): When the last load of a held draft returns, the draft commits: buffered entries leave in program order and tracking resets. -/
  | draftCommit (k lane : Nat)
  /-- STORE_APPLY_AT_HOME (R101): A committed store or RMW is applied at its home, fixing coherence order and making it visible to every agent. -/
  | storeApplyAtHome (i : Nat)
  /-- RED_APPLY (R118): A queued reduction is applied exactly once at its home, in arrival order. -/
  | redApply (i : Nat)
  /-- PRF (R244): Prefetches a line into the L1 or the home L2 slice without any fault. -/
  | prf (f : Fields)
  /-- FECLR (R245): Clears the full/empty bits of a granule range. -/
  | feclr (f : Fields)
  /-- FENCE_ACQ (R246): Acquire fence at a scope. -/
  | fenceAcq (f : Fields)
  /-- FENCE_REL (R246): Release fence at a scope. -/
  | fenceRel (f : Fields)
  /-- FENCE_AR (R246): Full fence that ends the draft and waits until earlier stores are performed. -/
  | fenceAr (f : Fields)
  /-- ATOM_ADD (R248): Atomic add at the home, returning the old value. -/
  | atomAdd (o : Order) (f : Fields)
  /-- ATOM_MIN (R248): Atomic minimum at the home. -/
  | atomMin (o : Order) (f : Fields)
  /-- ATOM_MAX (R248): Atomic maximum at the home. -/
  | atomMax (o : Order) (f : Fields)
  /-- ATOM_AND (R248): Atomic AND at the home. -/
  | atomAnd (o : Order) (f : Fields)
  /-- ATOM_OR (R248): Atomic OR at the home. -/
  | atomOr (o : Order) (f : Fields)
  /-- ATOM_XOR (R248): Atomic XOR at the home. -/
  | atomXor (o : Order) (f : Fields)
  /-- ATOM_EXCH (R248): Atomic exchange at the home. -/
  | atomExch (o : Order) (f : Fields)
  /-- ATOM_FADD (R249): Atomic floating-point add, rounded once under RN at the home. -/
  | atomFadd (o : Order) (f : Fields)
  /-- CAS (R250): Compare-and-swap at the home, returning the old value. -/
  | cas (o : Order) (f : Fields)
  /-- RED_ADD (R251): Buffered reduction add, applied at the home after commit. -/
  | redAdd (rel : Bool) (f : Fields)
  /-- RED_MIN (R251): Buffered reduction minimum. -/
  | redMin (rel : Bool) (f : Fields)
  /-- RED_MAX (R251): Buffered reduction maximum. -/
  | redMax (rel : Bool) (f : Fields)
  /-- RED_AND (R251): Buffered reduction AND. -/
  | redAnd (rel : Bool) (f : Fields)
  /-- RED_OR (R251): Buffered reduction OR. -/
  | redOr (rel : Bool) (f : Fields)
  /-- RED_XOR (R251): Buffered reduction XOR. -/
  | redXor (rel : Bool) (f : Fields)
  /-- RED_FADD (R249): Buffered floating-point reduction add, rounded once at the home. -/
  | redFadd (rel : Bool) (f : Fields)
  /-- EDNEXT (R253): Releases and advances an edition counter, writing the new value. -/
  | ednext (f : Fields)
  /-- EDSYNC (R253): Acquires an edition counter, raises EDVIEW and invalidates non-edition L1 lines. -/
  | edsync (f : Fields)
  /-- EDITION_AUTO_RELEASE (R124): When no launch of an address space is queued or running, the device releases its regions and forgets their kept counter values. -/
  | editionAutoRelease (asid : Nat)
  /-- SREAD (R254): Reads a special register. -/
  | sread (f : Fields)
  /-- SWRITE (R254): Writes a writable special register in a draft of its own. -/
  | swrite (f : Fields)
  /-- SYSC (R231): Synchronous porter call: groups callers into classes, enqueues a call record and parks the callers. -/
  | sysc (f : Fields)
  /-- SYSC_A (R231): Asynchronous porter call whose completion is pushed to a mailbox. -/
  | syscA (f : Fields)
  /-- DRAFT (R233): Commits the current draft and begins a new one. -/
  | draft (f : Fields)
  /-- BAR_INIT (R261): Writes both words of a barrier object whole, as a BLOCK-scope release. -/
  | barInit (f : Fields)
  /-- BAR_ARR (R262): Makes one barrier arrival with E and N. -/
  | barArr (f : Fields)
  /-- BAR_EXP (R262): Makes one barrier arrival that also adds expected bytes. -/
  | barExp (f : Fields)
  /-- BAR_WAIT (R263): Proceeds when PHASE differs from P or POISON is set, otherwise waits live. -/
  | barWait (f : Fields)
  /-- BARRIER_WAIT_WAKE (R263): A waiting BAR.WAIT rereads Word 0 on each change and proceeds once the phase has moved or poison is set. -/
  | barrierWaitWake (k w : Nat)
  /-- BAR_TEST (R264): Reads Word 0 once and writes a predicate. -/
  | barTest (f : Fields)
  /-- MBX_PUSH (R266): Pushes a 16-byte entry to a mailbox, waiting while it is full. -/
  | mbxPush (f : Fields)
  /-- MBX_PUSH_TRY (R266): Tries one push and reports acceptance in a predicate. -/
  | mbxPushTry (f : Fields)
  /-- MBX_POP (R266): Pops a mailbox entry, waiting while it is empty. -/
  | mbxPop (f : Fields)
  /-- MAILBOX_PUSH_WAKE (R266): A thread push waiting on a full mailbox is accepted once room appears. -/
  | mailboxPushWake (k w : Nat)
  /-- MAILBOX_POP_WAKE (R266): The earliest waiting pop takes the next accepted entry. -/
  | mailboxPopWake (k w : Nat)
  /-- MON (R267): Stages a condition-monitor description in an event slot. -/
  | mon (f : Fields)
  /-- EVARM (R270): Arms an event slot with a token and handler, evaluating the condition at once. -/
  | evarm (f : Fields)
  /-- EVDIS (R270): Disarms an event slot and clears its EPEND bit. -/
  | evdis (f : Fields)
  /-- EVCLR (R270): Clears the EPEND bits of a mask of slots. -/
  | evclr (f : Fields)
  /-- WAITANY (R271): Gang-collective wait on a mask of event slots. -/
  | waitany (f : Fields)
  /-- WAITANY_DELIVERY (R149): A named slot latching while the group is parked delivers the lowest pending slot to its handler. -/
  | waitanyDelivery (k : Nat)
  /-- DEADLINE_EXPIRE (R55): CLOCK reaches DEADLINE: a TIMER slot latches, or a parked WAITANY group with no TIMER slot traps with WAIT_TIMEOUT. -/
  | deadlineExpire (k : Nat)
  /-- CPY (R276): Names one part of a copy record, checking it and starting the use when all parts are present. -/
  | cpy (f : Fields)
  /-- CPY_ACCEPT_DEFERRED (R276): A CPY that waited for one of the engine's 64 use slots is accepted when a use completes. -/
  | cpyAcceptDeferred (k w : Nat)
  /-- COPY_CHUNK (R341): The engine translates, reads and writes one chunk of a use. -/
  | copyChunk (c u n : Nat)
  /-- COPY_SRC_DONE (R278): Once every source byte is read, the engine arrives at SDBAR. -/
  | copySrcDone (c u : Nat)
  /-- COPY_VISIBLE (R278): Once every destination write is performed at VSCOPE, the engine arrives at VBARO or completes the record in its batch. -/
  | copyVisible (c u : Nat)
  /-- CBATCH (R281): Seals the open batch level and opens the next, waiting while seven are outstanding. -/
  | cbatch (f : Fields)
  /-- CBATCH_DEFERRED_SEAL (R281): A CBATCH that waited for SEALED below 7 seals and opens a level. -/
  | cbatchDeferredSeal (k w : Nat)
  /-- CWAIT (R282): Waits until at most n sealed levels are outstanding, as a GANG-scope acquire. -/
  | cwait (f : Fields)
  /-- CWAIT_RELEASE (R282): A waiting CWAIT proceeds once SEALED falls to its bound. -/
  | cwaitRelease (k w : Nat)
  /-- CSTAT (R283): Writes the state of one batch level. -/
  | cstat (f : Fields)
  /-- MBIND (R286): Binds the gang into a matrix set, waiting for one gang in each quadrant. -/
  | mbind (f : Fields)
  /-- MATRIX_SET_FORM (R286): Four waiting gangs, one per quadrant, form the matrix set. -/
  | matrixSetForm (c set : Nat)
  /-- MBIND_U (R286): Removes the gang from its set once busy tiles clear, dissolving the set. -/
  | mbindU (f : Fields)
  /-- MATRIX_COLLECTIVE_START (R287): The n-th collective matrix instruction starts when all four members have issued it, checking agreement. -/
  | matrixCollectiveStart (c set : Nat)
  /-- MMA (R289): Collective matrix multiply-accumulate into a tile. -/
  | mma (f : Fields)
  /-- MMA_COMPLETE (R289): An MMA finishes accumulating and clears the tile's busy bit. -/
  | mmaComplete (c : Nat)
  /-- MZERO (R290): Zeroes a tile and clears its poison bit. -/
  | mzero (f : Fields)
  /-- MLDA (R290): Loads a tile from a scratchpad image. -/
  | mlda (f : Fields)
  /-- MSTA (R291): Stores a tile to the scratchpad through the range guards. -/
  | msta (f : Fields)
  /-- MRGD (R292): Sets a range guard's limit and action. -/
  | mrgd (f : Fields)
  /-- ROTATION_ENTER (R22): When a slice's rotation count reaches 64 it enters rotation at the next larger live PC. -/
  | rotationEnter (k sl : Nat)
  /-- ROTATION_LEAVE (R22): After 64 issued instructions, or when no path thread is live, the slice leaves rotation. -/
  | rotationLeave (k sl : Nat)
  /-- SUBGANG_SWAP (R365): A swappable waiting active sub-gang is moved out and the oldest ready pending sub-gang moved in. -/
  | subgangSwap (kOut : Nat) (out : BitVec 16) (kIn : Nat) (inn : BitVec 16)
  /-- AGED_SWAP (R365): A pending sub-gang ready for 1,024 cycles displaces the earliest-entered active entry. -/
  | agedSwap (kOut : Nat) (out : BitVec 16) (kIn : Nat) (inn : BitVec 16)
  /-- BLOCK_RETIRE (R32): A block retires once its gangs have ended, drafts settled and copy records finished, freeing its resources. -/
  | blockRetire (b : Nat)
  /-- HELD_SOURCE_ENTER (R312): A held trap, call, engine or distributor source enters the delivery queue when room or its fault record frees. -/
  | heldSourceEnter (cl i : Nat)
  /-- PGREAD (R316): Reads gang or thread state through the state port. -/
  | pgread (cl : Nat) (d a b : BitVec 5)
  /-- PGWRITE (R316): Writes gang or thread state through the state port. -/
  | pgwrite (cl : Nat) (d a b c : BitVec 5)
  /-- GANG_STOP (R317): Gang command STOP: every live unparked thread meets eviction. -/
  | gangStop (cl : Nat) (h : BitVec 16)
  /-- GANG_HALT (R317): A STOPPING gang becomes HALTED when its last live thread halts. -/
  | gangHalt (k : Nat)
  /-- GANG_RELEASE (R317): Gang command RELEASE: frees the slot and raises GEN. -/
  | gangRelease (cl : Nat) (h : BitVec 16)
  /-- GANG_SAVE (R317): Gang command SAVE: writes the gang image to a save area. -/
  | gangSave (cl : Nat) (h : BitVec 16) (area : Nat)
  /-- GANG_RESTORE (R317): Gang command RESTORE: loads a gang image into a placed slot. -/
  | gangRestore (cl : Nat) (h : BitVec 16) (area : Nat)
  /-- GANG_CLEAR (R317): Gang command CLEAR: zeroes the slot's registers and resets its state. -/
  | gangClear (cl : Nat) (h : BitVec 16)
  /-- GANG_KILL (R317): Gang command KILL: ends every thread and frees any call record. -/
  | gangKill (cl : Nat) (h : BitVec 16)
  /-- GANG_CLEARFREE (R317): Gang command CLEARFREE: clears all unallocated storage on the core. -/
  | gangClearfree (cl : Nat) (h : BitVec 16)
  /-- PRESUME (R318): Resumes the named parked threads and releases the fault record. -/
  | presume (cl : Nat) (d a b : BitVec 5)
  /-- PMSEND_CHANNEL (R319): Appends a 64-byte message to a porter channel. -/
  | pmsendChannel (cl : Nat) (d a b : BitVec 5)
  /-- PMSEND_MAILBOX (R319): Pushes a 16-byte entry to a block's mailbox. -/
  | pmsendMailbox (cl : Nat) (d a b : BitVec 5)
  /-- PMRECV (R319): Takes the oldest message from a channel or the delivery queue. -/
  | pmrecv (cl : Nat) (d a b : BitVec 5)
  /-- PCALLREC (R320): Copies a call record and returns its class count. -/
  | pcallrec (cl : Nat) (d a b : BitVec 5)
  /-- SFENCE_VMA (R309): Invalidates only the porter's own TLB entries. -/
  | sfenceVma (cl : Nat) (rs1 rs2 : BitVec 5)
  /-- TLBI_COMPLETE (R332): An invalidation completes once covered entries, walks, stores, chunks and monitors are settled, advancing TLBIDONE. -/
  | tlbiComplete (cl : Nat)
  /-- PAGE_WALK (R324): A TLB miss walks the page tables and installs an entry or returns one cause. -/
  | pageWalk (cl asid root va : Nat)
  /-- REGISTER_WRITE (R12): A write to a register with no behaviour of its own stores its writable fields. -/
  | registerWrite (w : Writer) (r : RegTarget) (x : BitVec 64)
  /-- GANG_PLACE (R356): The distributor gives a free slot to a saved gang and sends a PLACE entry. -/
  | gangPlace (i : Nat)
  /-- EVICTION_USE_DEADLINE (R357): 50 µs after a whole-block eviction starts, every outstanding use of the block ends with CANCELLED. -/
  | evictionUseDeadline (b : Nat)
  /-- BLOCK_IMAGE_SAVE (R357): Once every gang is released and tiles idle, the core writes the block image and frees the block. -/
  | blockImageSave (b : Nat)
  /-- BLOCK_RESTORE (R357): The block image is loaded and its journal replayed before its gangs are placed. -/
  | blockRestore (b : Nat)
  /-- ROUTER_HOLD_EXPIRE (R362): After 4 µs holding for a powering core, the arrival router journals the held arrivals. -/
  | routerHoldExpire (c : Nat)
  /-- FLUSH_ACK (R366): The old core acknowledges a flush-by-context-tag once the gang's committed stores are performed. -/
  | flushAck (c i : Nat)
  /-- HOST_CXL_MEM_ACCESS (R369): A host CXL.mem request is applied at its home slice, or completes with an error. -/
  | hostCxlMemAccess (op : HostOp) (pa n : Nat)
  /-- FLIT_RECEIVE (R373): A 256-byte Pamon flit is received and checked. -/
  | flitReceive (port src : Nat) (phase crcOk tagOk plain : Bool) (req : Option (Nat × Nat × RemoteOp × Nat))
  /-- LANE_DROP (R373): A failing lane is dropped and the port retrains narrower. -/
  | laneDrop (port : Nat)
  /-- REMOTE_REQUEST (R376): An incoming remote access is applied at most once and acknowledged. -/
  | remoteRequest (i : Nat)
  /-- REMOTE_ACK (R376): An acknowledgement retires an outstanding remote request. -/
  | remoteAck (dev seq status data : Nat)
  /-- REMOTE_RETRANSMIT (R376): A request unacknowledged for 20 µs is resent on another port. -/
  | remoteRetransmit (dev seq : Nat)
  /-- REMOTE_REQUEST_FAIL (R377): A request unacknowledged for 2 ms fails: traps, pauses a use or counts a failed store. -/
  | remoteRequestFail (dev seq : Nat)
  /-- PSKEY_SWITCH (R401): A PSKEY write with SWITCH set switches the transmitter to NEXT. -/
  | pskeySwitch (dev : Nat)
  /-- KEYLOW (R401): A key reaching 2^35 flits makes a KEYLOW log entry. -/
  | keylow (dev : Nat)
  /-- KEY_LIMIT (R402): A key reaching 2^36 flits switches to NEXT or stops the stream. -/
  | keyLimit (dev : Nat)
  /-- STREAM_DOWN (R402): A stream stopped for 100 ms without a new key goes DOWN and fails its requests. -/
  | streamDown (dev : Nat)
  /-- STREAM_TAG_FAILURES (R401): Sixteen consecutive tag failures take the stream DOWN. -/
  | streamTagFailures (dev : Nat)
  /-- NVME_MSIX (R378): A drive's MSI-X message becomes a porter channel message. -/
  | nvmeMsix (d vec : Nat)
  /-- NVME_DMA (R378): A drive DMA is served inside its window or completes with an error. -/
  | nvmeDma (d : Nat) (wr : Bool) (pa : Nat) (data : List (BitVec 8))
  /-- ETH_TX_COMPLETE (R380): A transmitted descriptor is written back with DONE and HEAD advances. -/
  | ethTxComplete (q : Nat)
  /-- ETH_RX_FRAME (R380): A received frame is steered to a queue pair and written, cut or dropped. -/
  | ethRxFrame (p : Nat) (frame : List (BitVec 8)) (bad : Bool)
  /-- PATROL_READ (R405): Background patrol reads each HBM atom every 24 hours, correcting or logging errors. -/
  | patrolRead (pa : Nat)
  /-- CORE_POWER_GATE (R351): A core or unit is power-gated and is then counted as empty. -/
  | corePowerGate (c : Nat)
  /-- CORE_POWER_UP_COMPLETE (R362): A power-gated core finishes powering up, is cleared of protected state, and receives the arrivals the router held. -/
  | corePowerUpComplete (c : Nat)
  /-- PORTER_LOAD_STORE_AMO (R120): A porter load, store or AMO reaches memory at SYSTEM scope, or raises the standard exception of R344. -/
  | porterLoadStoreAmo (cl : Nat) (acc : PorterAccess)
  /-- PORTER_FENCE (R120): A porter FENCE acts as FENCE.AR, REL or ACQ at SYSTEM scope, or orders only the porter's own accesses. -/
  | porterFence (cl : Nat) (pred succ : BitVec 4)
  /-- PORTER_TIMER_INTERRUPT (R309): CLOCK reaches stimecmp and the porter's supervisor timer interrupt becomes pending. -/
  | porterTimerInterrupt (cl : Nat)
  /-- STORAGE_ERROR (R404): A bit error arises in a storage element and is later found correctable or uncorrectable. -/
  | storageError (p : ErrPlace) (fatal : Bool)
  /-- INSTRUCTION_FETCH_FAULT (R336): A slice's instruction fetch fails translation or returns uncorrectable data, and its threads trap with FETCH_FAULT or FETCH_POISON. -/
  | instructionFetchFault (c : Cause) (va : BitVec 56) (level errkind : Nat)
  /-- TLBI_CLUSTER (R332): TLBIGO write with DEV clear: fences and starts an invalidation of this cluster's TLBs. -/
  | tlbiCluster
  /-- TLBI_DEVICE (R332): TLBIGO write with DEV set: starts an invalidation across every cluster. -/
  | tlbiDevice
  /-- ENGINE_RESUME (R343): ENGRESUME with ABORT clear: replays the paused use's unacknowledged chunks. -/
  | engineResume
  /-- ENGINE_ABORT (R343): ENGRESUME with ABORT set: ends the paused use with FAULT. -/
  | engineAbort
  /-- LAUNCH_POST (R346): A committed launch-window record is numbered, queued or discarded. -/
  | launchPost
  /-- DISTRIBUTOR_ADMIT (R351): The distributor admits a waiting block to a core where it fits, restoring evicted gangs first. -/
  | distributorAdmit
  /-- FRAGMENTATION_GUARD (R354): After FRAGWAIT µs without room, a guard reserves a candidate core for the waiting block. -/
  | fragmentationGuard
  /-- DISTACK (R356): The porter's answer to a PREEMPT or PLACE request commits at dword 3. -/
  | distack
  /-- JPUSH (R363): A porter journals or delivers a mailbox push for a block by launch and index. -/
  | jpush
  /-- PSKEY_COMMIT (R401): A stream key write commits a CUR or NEXT key. -/
  | pskeyCommit
  /-- ETH_TX_TAIL (R380): A TXTAIL write hands transmit descriptors to the device. -/
  | ethTxTail
  /-- DEVICE_RELEASE (R388): RELEASE deasserts: the device samples SCRUB, CONF and RECOVERY and begins scrub or boot. -/
  | deviceRelease
  /-- LEASE_BLOCK_WRITE (R388): The lease block is written over I3C while the device is held. -/
  | leaseBlockWrite
  /-- BOOT_BLOCK_WRITE (R386): The boot block is written over I3C while the device is held. -/
  | bootBlockWrite
  /-- SCRUB_COMPLETE (R396): The scrub ends with a signed record, then boots or asserts ALERT and stops. -/
  | scrubComplete
  /-- BOOT_STEP (R382): A boot-sequence step completes and sets its READY bits. -/
  | bootStep
  /-- IMAGE_SOURCE_TIMEOUT (R382): A boot source not delivering within 10 s is abandoned for the next. -/
  | imageSourceTimeout
  /-- PORTER_BOOT_TIMEOUT (R382): No BOOTOK within 60 s fails the boot with PORTER_TIMEOUT. -/
  | porterBootTimeout
  /-- WATCHDOG (R382): Management-core watchdog expiry fails the boot. -/
  | watchdog
  /-- BOOTOK (R387): Porter write completing the boot, clearing FAILS and raising SVN counters. -/
  | bootok
  /-- STAGING_CHUNKLEN (R385): A CHUNKLEN write hands a staging chunk to the ROM, or refuses it. -/
  | stagingChunklen
  /-- STAGING_CHUNK_TAKEN (R385): The ROM finishes copying a chunk and sets TAKEN. -/
  | stagingChunkTaken
  /-- STAGING_TOTAL (R385): A TOTAL write ends the image and starts verification. -/
  | stagingTotal
  /-- GET_VERSION (R389): SPDM GET_VERSION request. -/
  | getVersion
  /-- GET_CAPABILITIES (R389): SPDM GET_CAPABILITIES request. -/
  | getCapabilities
  /-- NEGOTIATE_ALGORITHMS (R389): SPDM NEGOTIATE_ALGORITHMS request. -/
  | negotiateAlgorithms
  /-- GET_DIGESTS (R389): SPDM GET_DIGESTS request. -/
  | getDigests
  /-- GET_CERTIFICATE (R389): SPDM GET_CERTIFICATE request. -/
  | getCertificate
  /-- CHALLENGE (R389): SPDM CHALLENGE request. -/
  | challenge
  /-- GET_MEASUREMENTS (R393): SPDM GET_MEASUREMENTS request reporting all eight registers. -/
  | getMeasurements
  /-- KEY_EXCHANGE (R389): SPDM KEY_EXCHANGE request. -/
  | keyExchange
  /-- FINISH (R389): SPDM FINISH request. -/
  | finish
  /-- END_SESSION (R389): SPDM END_SESSION request. -/
  | endSession
  /-- IDE_KM (R401): IDE_KM message programming PCIe or CXL IDE keys. -/
  | ideKm
  /-- ENROL (R391): Key-slot command fusing a key hash into an owner slot. -/
  | enrol
  /-- REVOKE (R391): Key-slot command blowing a slot's revocation fuse. -/
  | revoke
  /-- QUERY (R391): Key-slot command returning the slot states. -/
  | query
  /-- MEASUREMENT_EXTEND (R393): A MEXT write extends MEAS4–MEAS7. -/
  | measurementExtend
  /-- SPARE (R408): Requests steering of a quadrant's spare slice in place of a named slice. -/
  | spare
  /-- SPARE_STEER_COMPLETE (R408): After eviction, the spare is steered and scrubbed and the core returns to service. -/
  | spareSteerComplete
  /-- CORERETIRE (R409): Retires a core after evicting its blocks and acknowledging flushes. -/
  | coreretire
  /-- ROWSPARE (R411): Spares the HBM row holding a physical address. -/
  | rowspare
  /-- CHRETIRE (R412): Retires an HBM pseudo-channel at the next reset. -/
  | chretire
  /-- ERRTAIL (R406): A write of ERRTAIL consumes entries and re-enables the log message. -/
  | errtail
  /-- ERRINJ_ARM (R416): An ERRINJ commit with SPACE 1 or 2 arms a one-shot injection. -/
  | errinjArm
  /-- ERRINJ_DISARM (R416): An ERRINJ commit with SPACE 0 disarms. -/
  | errinjDisarm
  /-- DEVICE_RESET (R388): The platform root of trust asserts RELEASE and holds the device in reset, destroying volatile state and the HBM key. -/
  | deviceReset
  /-- STANDBY_POWER_LOSS (R387): Loss of standby power clears the FAILS count that survives every other reset. -/
  | standbyPowerLoss
  /-- ETH_RX_TAIL (R380): A porter write of RXTAIL hands receive descriptors to the device and re-enables its notify message. -/
  | ethRxTail
  deriving DecidableEq, Repr

end Sys2Proof
end

