-- ==== Sys2Proof/Machine/Members.lean ====
section
/-! DEFINITION. The member tables: what each instruction's entry accepts in the fields of its word (R161, R163 to R169, R190 to
R206, R212 to R219, R230 to R234, R243, R247, R252, R254, R259, R265 to R272, R284), and the checks of R170 over them. -/

namespace Sys2Proof

/-- The operand classes of R186, and the accumulator tiles T, event slots E and range guards G. -/
inductive Cls where
  | V | S | P | L | X | T | E | G
  deriving DecidableEq, Repr

/-- The register width of an operand: that of TY (R163), or one the member table states. -/
inductive OpWidth where
  | ty | w32 | w64 | w128
  deriving DecidableEq, Repr

/-- What one operand field accepts; an unused field accepts no class. -/
structure Use where
  cls : List Cls
  w : OpWidth
  deriving DecidableEq, Repr

/-- The formats of R168. -/
inductive Fmt where
  | three | four | mem | memFour | branch
  deriving DecidableEq, Repr

/-- One row of a member table, at the fields of one word. `tys` is empty where the entry names no type; `res` and `cls` hold the
entry's own restrictions of steps 3 and 4; `more` lists further v registers that step 5 checks. -/
structure Member where
  fmt : Fmt
  tys : List Ty
  md : Bool
  sat : Bool
  d : Use
  a : Use
  b : Use
  c : Use
  res : Bool
  cls : Bool
  more : List Nat
  only32 : Bool
  not16 : Bool
  deriving DecidableEq, Repr

/-- The type code of R163. -/
def Ty.code : Ty → Nat
  | .n8 => 0 | .n16 => 1 | .n32 => 2 | .n64 => 3 | .i8 => 4 | .i16 => 5 | .i32 => 6 | .i64 => 7
  | .f32 => 8 | .f64 => 9 | .f16 => 10 | .bf16 => 11 | .b128 => 12

/-- The type of a code; 0xD to 0xF are reserved. -/
def Ty.ofCode : Nat → Option Ty
  | 0 => some .n8 | 1 => some .n16 | 2 => some .n32 | 3 => some .n64 | 4 => some .i8 | 5 => some .i16 | 6 => some .i32
  | 7 => some .i64 | 8 => some .f32 | 9 => some .f64 | 10 => some .f16 | 11 => some .bf16 | 12 => some .b128 | _ => none

/-- Register width in bits (R163). -/
def Ty.regWidth : Ty → Nat
  | .n64 | .i64 | .f64 => 64
  | .b128 => 128
  | _ => 32

/-- Width(T) of R183: the bits of one element. -/
def Ty.width : Ty → Nat
  | .n8 | .i8 => 8
  | .n16 | .i16 | .f16 | .bf16 => 16
  | .n32 | .i32 | .f32 => 32
  | .n64 | .i64 | .f64 => 64
  | .b128 => 128

/-- The access size in bytes (R235). -/
def Ty.bytes : Ty → Nat
  | .n8 | .i8 => 1
  | .n16 | .i16 => 2
  | .n64 | .i64 | .f64 => 8
  | .b128 => 16
  | _ => 4

def Ty.signed : Ty → Bool
  | .i8 | .i16 | .i32 | .i64 => true
  | _ => false

/-- The pair types of R63. -/
def Ty.pair : Ty → Bool
  | .f16 | .bf16 => true
  | _ => false

/-- The class letter of an operand. -/
def Operand.cls : Operand → Cls
  | .v _ => .V | .s _ => .S | .p _ => .P | .tile _ => .T | .slot _ => .E | .guard _ => .G | .sr _ => .X | .lit => .L

/-- The operand numbered 0 of class 00, which an unused field holds (R168). -/
def Operand.zero : Operand := .v 0

def SReg.index : SReg → Nat
  | .lane => 0x40 | .slice => 0x41 | .gang => 0x42 | .ngang => 0x43 | .gwidth => 0x44
  | .block => 0x48 | .blockX => 0x49 | .blockY => 0x4A | .blockZ => 0x4B
  | .gridX => 0x4C | .gridY => 0x4D | .gridZ => 0x4E | .core => 0x50 | .cluster => 0x51
  | .clockL => 0x58 | .clockH => 0x59 | .epend => 0x60 | .emask => 0x61 | .evslot => 0x62
  | .deadL => 0x64 | .deadH => 0x65 | .dstartL => 0x68 | .dstartH => 0x69
  | .dxm => 0x6A | .dwm => 0x6B | .dext => 0x6C | .drc => 0x6D | .drl => 0x6E
  | .fstat => 0x70 | .loopd => 0x71 | .cbstat => 0x72
  | .edview n => 0x80 + n.val | .gstat n => 0x88 + n.val | .glim n => 0x90 + n.val

/-- The special register of an index; the indices that R50 does not list are reserved. -/
def SReg.ofIndex (i : Nat) : Option SReg :=
  match i with
  | 0x40 => some .lane | 0x41 => some .slice | 0x42 => some .gang | 0x43 => some .ngang | 0x44 => some .gwidth
  | 0x48 => some .block | 0x49 => some .blockX | 0x4A => some .blockY | 0x4B => some .blockZ
  | 0x4C => some .gridX | 0x4D => some .gridY | 0x4E => some .gridZ | 0x50 => some .core | 0x51 => some .cluster
  | 0x58 => some .clockL | 0x59 => some .clockH | 0x60 => some .epend | 0x61 => some .emask | 0x62 => some .evslot
  | 0x64 => some .deadL | 0x65 => some .deadH | 0x68 => some .dstartL | 0x69 => some .dstartH
  | 0x6A => some .dxm | 0x6B => some .dwm | 0x6C => some .dext | 0x6D => some .drc | 0x6E => some .drl
  | 0x70 => some .fstat | 0x71 => some .loopd | 0x72 => some .cbstat
  | 0x80 => some (.edview 0) | 0x81 => some (.edview 1) | 0x82 => some (.edview 2) | 0x83 => some (.edview 3)
  | 0x84 => some (.edview 4) | 0x85 => some (.edview 5) | 0x86 => some (.edview 6) | 0x87 => some (.edview 7)
  | 0x88 => some (.gstat 0) | 0x89 => some (.gstat 1) | 0x8A => some (.gstat 2) | 0x8B => some (.gstat 3)
  | 0x8C => some (.gstat 4) | 0x8D => some (.gstat 5) | 0x8E => some (.gstat 6) | 0x8F => some (.gstat 7)
  | 0x90 => some (.glim 0) | 0x91 => some (.glim 1) | 0x92 => some (.glim 2) | 0x93 => some (.glim 3)
  | 0x94 => some (.glim 4) | 0x95 => some (.glim 5) | 0x96 => some (.glim 6) | 0x97 => some (.glim 7)
  | _ => none

/-- The registers that R50 marks read, write. -/
def SReg.writable : SReg → Bool
  | .deadL | .deadH | .drl | .fstat | .gstat _ => true
  | _ => false

/-- The operand of a 10-bit field; `none` where R159 reserves the value. -/
def Operand.ofBits (x : BitVec 10) : Option Operand :=
  let i := x.toNat % 256
  match x.toNat / 256 with
  | 0 => some (.v (BitVec.ofNat 8 i))
  | 1 => if i < 0x40 then some (.s (BitVec.ofNat 6 i)) else none
  | 2 =>
    if i < 0x08 then some (.p (BitVec.ofNat 3 i))
    else if 0x10 ≤ i ∧ i < 0x20 then some (.tile (BitVec.ofNat 4 i))
    else if 0x20 ≤ i ∧ i < 0x30 then some (.slot (BitVec.ofNat 4 i))
    else if 0x30 ≤ i ∧ i < 0x38 then some (.guard (BitVec.ofNat 3 i))
    else (SReg.ofIndex i).map .sr
  | _ => if i = 0 then some .lit else none

/-- The 10 bits of an operand (R159). -/
def Operand.bits : Operand → BitVec 10
  | .v i => BitVec.ofNat 10 i.toNat
  | .s i => BitVec.ofNat 10 (0x100 + i.toNat)
  | .p i => BitVec.ofNat 10 (0x200 + i.toNat)
  | .tile i => BitVec.ofNat 10 (0x210 + i.toNat)
  | .slot i => BitVec.ofNat 10 (0x220 + i.toNat)
  | .guard i => BitVec.ofNat 10 (0x230 + i.toNat)
  | .sr r => BitVec.ofNat 10 (0x200 + r.index)
  | .lit => BitVec.ofNat 10 0x300

/-- Operand C of the four-operand formats (R168): `none` where IMM[9:0] is reserved. -/
def Fields.c (f : Fields) : Option Operand := Operand.ofBits (f.imm.setWidth 10)

/-- Operand C where the word has passed R170. -/
def Fields.opC (f : Fields) : Operand := f.c.getD .zero

def Use.no : Use := ⟨[], .w32⟩
def Use.vs (w : OpWidth) : Use := ⟨[.V, .S], w⟩
def Use.vsl (w : OpWidth) : Use := ⟨[.V, .S, .L], w⟩
def Use.v (w : OpWidth) : Use := ⟨[.V], w⟩
def Use.p : Use := ⟨[.P], .w32⟩
def Use.pl : Use := ⟨[.P, .L], .w32⟩
def Use.sl : Use := ⟨[.S, .L], .w32⟩
def Use.x : Use := ⟨[.X], .w32⟩
def Use.tile : Use := ⟨[.T], .w32⟩
def Use.slot : Use := ⟨[.E], .w32⟩
def Use.guard : Use := ⟨[.G], .w32⟩

def Ty.ints : List Ty := [.n8, .n16, .n32, .n64, .i8, .i16, .i32, .i64]
def Ty.words : List Ty := [.n32, .i32, .n64, .i64]
def Ty.floats : List Ty := [.f32, .f16, .bf16]
def Ty.all : List Ty :=
  [.n8, .n16, .n32, .n64, .i8, .i16, .i32, .i64, .f32, .f64, .f16, .bf16, .b128]
def Ty.moves : List Ty := [.n32, .i32, .f32, .f16, .bf16, .n64, .i64, .f64, .b128]

/-- The index of a v register that an operand names. -/
def Operand.vIndex : Operand → Option Nat
  | .v i => some i.toNat
  | _ => none

/-- The member row of a three-operand instruction that reads no MD and takes no SAT. -/
def Member.three (tys : List Ty) (md : Bool) (d a b : Use) : Member :=
  ⟨.three, tys, md, false, d, a, b, .no, true, true, [], false, false⟩
def Member.four (tys : List Ty) (md : Bool) (d a b c : Use) : Member :=
  ⟨.four, tys, md, false, d, a, b, c, true, true, [], false, false⟩
def Member.mem (tys : List Ty) (md : Bool) (d a b : Use) : Member :=
  ⟨.mem, tys, md, false, d, a, b, .no, true, true, [], false, false⟩
def Member.branch (md : Bool) (d a : Use) : Member :=
  ⟨.branch, [], md, false, d, a, .no, .no, true, true, [], false, false⟩
def Member.satIf (m : Member) (b : Bool) : Member := { m with sat := b }
def Member.resIf (m : Member) (b : Bool) : Member := { m with res := b }
def Member.clsIf (m : Member) (b : Bool) : Member := { m with cls := b }
def Member.set32 (m : Member) : Member := { m with only32 := true }

/-- MD is the one value the entry encodes. -/
def Fields.mdIs (f : Fields) (n : Nat) : Bool := f.md.toNat == n
/-- MD is at most n. -/
def Fields.mdLe (f : Fields) (n : Nat) : Bool := f.md.toNat ≤ n
/-- A rounding code of R63: modes 0 to 4, FZ with a pair type only. -/
def Fields.mdRound (f : Fields) : Bool := f.md.toNat % 8 ≤ 4 && (f.md.toNat < 8 || f.ty.pair)
/-- Zero, or FZ alone with a pair type. -/
def Fields.mdFz (f : Fields) : Bool := f.md.toNat == 0 || (f.md.toNat == 8 && f.ty.pair)
/-- The source type of a CVT (R207). -/
def Fields.cvtSrc (f : Fields) : Option Ty := Ty.ofCode (f.imm.toNat % 16)
/-- The source operand's width of a CVT. -/
def Fields.cvtSrcW (f : Fields) : OpWidth :=
  match f.cvtSrc with
  | some t => if t.regWidth = 64 then .w64 else if t.regWidth = 128 then .w128 else .w32
  | none => .w32
/-- Some of A and B is the literal. -/
def Fields.litAB (f : Fields) : Bool := f.a == .lit || f.b == .lit

/-- The type pairs that MMA accepts, A's format code and B's (R71, R284). -/
def mmaPair (ta tb : Nat) : Bool :=
  (ta ≤ 4 && tb ≤ 4) || (ta == 5 && tb == 5) || (ta == 6 && tb == 6) || (ta == 7 && tb == 7)

/-- Registers of a B quarter (R284). -/
def mmaQuarter (tb : Nat) : Nat := if tb ≤ 3 || tb == 5 then 8 else 4

/-- The registers from `o` upward, as a v operand of n words names them. -/
def Operand.vRange (o : Operand) (n : Nat) : List Nat :=
  match o.vIndex with
  | some i => (List.range n).map (i + ·)
  | none => []

def memberFloat (tys : List Ty) (f : Fields) : Member := Member.three tys f.mdRound (.vs .ty) (.vsl .ty) (.vsl .ty)
def memberFfma (tys : List Ty) (f : Fields) : Member := Member.four tys f.mdRound (.vs .ty) (.vs .ty) (.vs .ty) (.vs .ty)
def memberFmin (tys : List Ty) (f : Fields) : Member := Member.three tys f.mdFz (.vs .ty) (.vsl .ty) (.vsl .ty)
def memberFabs (tys : List Ty) (f : Fields) : Member := Member.three tys f.mdFz (.vs .ty) (.vsl .ty) .no
def memberFcmp (tys : List Ty) (f : Fields) : Member := Member.three tys (f.mdLe 13) .p (.vsl .ty) (.vsl .ty)
def memberFset (tys : List Ty) (f : Fields) : Member := Member.three tys (f.mdLe 13) (.vs .ty) (.vsl .ty) (.vsl .ty)
def memberFclass (tys : List Ty) (f : Fields) : Member := Member.three tys (f.mdIs 0) (.vs .w32) (.vsl .ty) .no
def memberFrnd (tys : List Ty) (f : Fields) : Member := Member.three tys f.mdRound (.vs .ty) (.vsl .ty) .no
def memberFscale (tys : List Ty) (f : Fields) : Member := Member.three tys f.mdRound (.vs .ty) (.vsl .ty) (.vsl .w32)
/-- The special functions (R212); FZ is judged as R63 has it (log 69). -/
def memberSpecial (f : Fields) : Member :=
  Member.three [.f32, .f16] f.mdRound (.vs .ty) (.vsl .ty) .no
/-- The predicates of R199. -/
def memberPred (mdMax : Nat) (b : Use) (f : Fields) : Member :=
  (Member.three [] (f.mdLe mdMax) .p .pl b).resIf (!f.litAB || f.imm.toNat < 2)
/-- ATOM and RED (R247). -/
def memberAtom (tys : List Ty) (plain : Bool) (d : Use) (f : Fields) : Member :=
  Member.mem tys (if plain then f.mdIs 0 else f.mdLe 5) d (.vs .w64) (.vs .ty)

def Ty.adds : List Ty := [.n32, .i32, .n64, .i64]
def Ty.logics : List Ty := [.n32, .n64]
def Ty.exchs : List Ty := [.n32, .n64, .b128]
def Ty.fadds : List Ty := [.f32, .f64, .f16, .bf16]

/-- The member row of every encoded instruction; a step with no encoding has none. -/
def memberOf : Instr → Option Member
  | .bra f => some (.branch (f.mdIs 0) .no .no)
  | .brx f => some (.branch (f.mdIs 0) .no (.vs .w32))
  | .call f => some (.branch (f.mdIs 0) (.vs .w64) .no)
  | .callInd f => some ((Member.branch (f.mdIs 1) (.vs .w64) (.vs .w64)).resIf (f.imm == 0))
  | .ret f => some ((Member.branch (f.mdIs 0) .no (.vs .w64)).resIf (f.imm == 0))
  | .loop f => some (.branch (f.mdIs 0) .no (.vs .w32))
  | .exit f | .nop f | .yield f | .bpt f => some (.three [] (f.mdIs 0) .no .no .no)
  | .sleep f | .trap f => some (.three [] (f.mdIs 0) .no (.vsl .w32) .no)
  | .iadd f | .isub f | .imul f => some ((Member.three Ty.ints (f.mdIs 0) (.vs .ty) (.vsl .ty) (.vsl .ty)).satIf true)
  | .iaddc f | .isubb f => some (.three [.n32, .n64] (f.mdLe 7) (.vs .ty) (.vsl .ty) (.vsl .ty))
  | .imulh f => some (.three Ty.words (f.mdIs 0) (.vs .ty) (.vsl .ty) (.vsl .ty))
  | .imad f => some ((Member.four Ty.ints (f.mdIs 0) (.vs .ty) (.vs .ty) (.vs .ty) (.vs .ty)).satIf true)
  | .imadw f => some ((Member.four [.n32, .i32] (f.mdIs 0) (.vs .w64) (.vs .ty) (.vs .ty) (.vs .w64)).satIf true)
  | .imin f | .imax f => some (.three Ty.ints (f.mdIs 0) (.vs .ty) (.vsl .ty) (.vsl .ty))
  | .iabs f => some ((Member.three [.i8, .i16, .i32, .i64] (f.mdIs 0) (.vs .ty) (.vsl .ty) .no).satIf true)
  | .ineg f => some ((Member.three Ty.ints (f.mdIs 0) (.vs .ty) (.vsl .ty) .no).satIf true)
  | .icmp f => some (.three Ty.ints (f.mdLe 5) .p (.vsl .ty) (.vsl .ty))
  | .iset f => some (.three Ty.ints (f.mdLe 5) (.vs .ty) (.vsl .ty) (.vsl .ty))
  | .sel f => some (.four Ty.moves (f.mdIs 0) (.vs .ty) (.vs .ty) (.vs .ty) .p)
  | .mov f => some ((Member.three Ty.moves (f.mdIs 0) (.vs .ty) ⟨[.V, .S, .L, .X], .ty⟩ .no).clsIf
      (f.a.cls != .X || f.ty == .n32 || f.ty == .i32))
  | .lea _ => some (.three Ty.words true (.vs .w64) (.vs .w64) (.vsl .ty))
  | .and f | .or f | .xor f | .andn f => some (.three [.n32, .n64, .b128] (f.mdIs 0) (.vs .ty) (.vsl .ty) (.vsl .ty))
  | .not f => some (.three [.n32, .n64, .b128] (f.mdIs 0) (.vs .ty) (.vsl .ty) .no)
  | .shl f | .shr f | .rot f => some (.three [.n32, .n64] (f.mdIs 0) (.vs .ty) (.vsl .ty) (.vsl .w32))
  | .sar f => some (.three [.i32, .i64] (f.mdIs 0) (.vs .ty) (.vsl .ty) (.vsl .w32))
  | .shf f => some (.four [.n32, .n64] (f.mdLe 1) (.vs .ty) (.vs .ty) (.vs .ty) (.vs .w32))
  | .bfe f => some (.three Ty.words (f.mdIs 0) (.vs .ty) (.vsl .ty) (.vsl .w32))
  | .bfi f => some (.four [.n32, .n64] (f.mdIs 0) (.vs .ty) (.vs .ty) (.vs .ty) (.vs .w32))
  | .popc f | .clz f | .ctz f => some (.three [.n32, .n64] (f.mdIs 0) (.vs .w32) (.vsl .ty) .no)
  | .brev f => some (.three [.n32, .n64] (f.mdIs 0) (.vs .ty) (.vsl .ty) .no)
  | .prmt f => some (.four [.n32] (f.mdIs 0) (.vs .ty) (.vs .ty) (.vs .ty) (.vs .ty))
  | .pand f | .por f | .pxor f => some (memberPred 3 .pl f)
  | .pmov f => some (memberPred 1 .no f)
  | .fadd f | .fsub f | .fmul f => some (memberFloat Ty.floats f)
  | .ffma f => some (memberFfma Ty.floats f)
  | .fmin f | .fmax f => some (memberFmin Ty.floats f)
  | .fabs f | .fneg f => some (memberFabs Ty.floats f)
  | .fcmp f => some (memberFcmp [.f32] f)
  | .fset f => some (memberFset Ty.floats f)
  | .fclass f => some (memberFclass Ty.floats f)
  | .frnd f => some (memberFrnd Ty.floats f)
  | .fscale f => some (memberFscale Ty.floats f)
  | .faddF64 f | .fsubF64 f | .fmulF64 f => some (memberFloat [.f64] f)
  | .ffmaF64 f => some (memberFfma [.f64] f)
  | .fminF64 f | .fmaxF64 f => some (memberFmin [.f64] f)
  | .fabsF64 f | .fnegF64 f => some (memberFabs [.f64] f)
  | .fcmpF64 f => some (memberFcmp [.f64] f)
  | .fsetF64 f => some (memberFset [.f64] f)
  | .fclassF64 f => some (memberFclass [.f64] f)
  | .frndF64 f => some (memberFrnd [.f64] f)
  | .fscaleF64 f => some (memberFscale [.f64] f)
  | .cvt f =>
    let m := Member.three (Ty.all.filter (· != .b128)) (f.mdRound && (f.md.toNat < 8 || (f.cvtSrc.map Ty.pair).getD false))
      (.vs .ty) (.vs f.cvtSrcW) ⟨[.L], .w32⟩
    some { m with
      sat := true, res := f.b != .lit || (decide (f.imm.toNat < 16) && f.cvtSrc.isSome)
      cls := f.cvtSrc != some .b128 && (f.cvtSrc.map Ty.pair).getD false == f.ty.pair }
  | .pack f => some ((Member.three [.f16, .bf16, .i16, .n16] (if f.ty.pair then f.mdRound else f.mdIs 0)
      (.vs .w32) (.vsl .w32) (.vsl .w32)).satIf true)
  | .unpack f => some (.three [.f16, .bf16, .i16, .n16] f.mdFz (.vs .w64) (.vsl .w32) .no)
  | .cvt8 f =>
    let wide := f.ty == .b128
    some ((Member.three [.f32, .f16, .bf16, .b128] (f.mdLe 5 && !f.mdIs 4) (.vs (if wide then .w128 else .w32))
      (.vs (if wide then .w32 else if f.ty.pair then .w64 else .w128)) .no).satIf (!wide))
  | .cvt4 f =>
    let wide := f.ty == .b128
    some ((Member.three [.f32, .b128] (f.mdIs 4 || f.mdIs 6) (.vs (if wide then .w128 else .w32))
      (.vs (if wide then .w32 else .w128)) (.vsl (if wide then .w32 else .w128))).satIf (!wide))
  | .qmx f => some { Member.three [.f32] (f.mdLe 5) (.v .w32) (.vs .ty) .no with not16 := true }
  | .rcp f | .rsq f | .sqrt f | .ex2 f | .lg2 f | .sinpi f | .cospi f | .tanh f => some (memberSpecial f)
  | .shfl f => some (.three [.n32, .n64] (f.mdLe 3) (.v .ty) (.vs .ty) (.vsl .w32))
  | .ballot f => some (.three [.n32, .n64] (f.mdIs 0) (.v .ty) .p .no)
  | .vote f => some (.three [] (f.mdLe 3) .p .p .no)
  | .matchAny f => some (.three [.n32, .n64] (f.mdIs 0) (.v .w64) (.vs .ty) .no)
  | .redux f => some ((Member.three [.n32, .i32, .f32] (f.mdLe 5) (.v .ty) (.vs .ty) .no).clsIf
      (if f.md.toNat ≤ 2 then true else f.ty == .n32))
  | .scanx f => some ((Member.three [.n32, .i32] (f.mdLe 5) (.v .ty) (.vs .ty) .no).clsIf
      (if f.md.toNat ≤ 2 then true else f.ty == .n32))
  | .elect f => some (.three [] (f.mdIs 0) .p .no .no)
  | .ldG f => some (.mem Ty.all (f.mdIs 0) (.v .ty) (.vs .w64) .no)
  | .ldGAcq f => some (.mem Ty.all (f.mdLe 5) (.v .ty) (.vs .w64) .no)
  | .ldGEd _ | .ldGEdRpt _ => some (.mem Ty.all true (.v .ty) (.vs .w64) .p)
  | .ldS f | .ldSFw f | .ldSFc f | .ldK f => some (.mem Ty.all (f.mdIs 0) (.v .ty) (.vs .w32) .no)
  | .ldSAcq f => some (.mem Ty.all (f.mdLe 5) (.v .ty) (.vs .w32) .no)
  | .stG f => some (.mem Ty.all (f.mdIs 0) .no (.vs .w64) (.vs .ty))
  | .stGRel f => some (.mem Ty.all (f.mdLe 5) .no (.vs .w64) (.vs .ty))
  | .stS f | .stSFs f => some (.mem Ty.all (f.mdIs 0) .no (.vs .w32) (.vs .ty))
  | .stSRel f => some (.mem Ty.all (f.mdLe 5) .no (.vs .w32) (.vs .ty))
  | .prf f => some (.mem [] (f.mdLe 1) .no (.vs .w64) .no)
  | .feclr f => some (.mem [] (f.mdIs 0) .no (.vs .w32) (.vs .w32))
  | .fenceAcq f | .fenceRel f | .fenceAr f => some (.three [] (f.mdLe 5) .no .no .no)
  | .atomAdd o f | .atomMin o f | .atomMax o f => some (memberAtom Ty.adds (o == .plain) (.v .ty) f)
  | .atomAnd o f | .atomOr o f | .atomXor o f => some (memberAtom Ty.logics (o == .plain) (.v .ty) f)
  | .atomExch o f => some (memberAtom Ty.exchs (o == .plain) (.v .ty) f)
  | .atomFadd o f => some (memberAtom Ty.fadds (o == .plain) (.v .ty) f)
  | .cas o f => some ⟨.memFour, Ty.exchs, if o == .plain then f.mdIs 0 else f.mdLe 5, false, .v .ty, .vs .w64, .vs .ty, .vs .ty,
      true, true, [], false, false⟩
  | .redAdd r f | .redMin r f | .redMax r f => some (memberAtom Ty.adds (!r) .no f)
  | .redAnd r f | .redOr r f | .redXor r f => some (memberAtom Ty.logics (!r) .no f)
  | .redFadd r f => some (memberAtom Ty.fadds (!r) .no f)
  | .ednext f | .edsync f => some (.three [] (f.mdLe 5) (.v .w32) .sl .no)
  | .sread f => some (.three [] (f.mdIs 0) (.vs .w32) .x .no)
  | .swrite f => some ((Member.three [] (f.mdIs 0) .x (.vsl .w32) .no).clsIf
      (match f.d with | .sr r => r.writable | _ => true))
  | .sysc f => some { Member.three [] (f.mdIs 0) (.v .w64) (.v .w32) .sl with
      cls := decide ((f.a.vIndex).getD 0 ≤ 250), more := f.a.vRange 6 }
  | .syscA f => some { Member.three [] true .no (.v .w32) .sl with
      cls := decide ((f.a.vIndex).getD 0 ≤ 250), more := f.a.vRange 6 }
  | .draft f => some (.three [] (f.mdIs 0) .no .no .no)
  | .barInit f => some (.three [] (f.mdIs 0) .no (.vsl .w32) (.vsl .w32))
  | .barArr f => some (.three [] (f.mdIs 0) (.vs .w32) (.vsl .w32) (.vsl .w32))
  | .barExp f => some (.three [] (f.mdIs 0) (.vs .w32) (.vsl .w32) (.vs .w64))
  | .barWait f => some (.three [] (f.mdLe 1) (.vs .w32) (.vsl .w32) (.vsl .w32))
  | .barTest f => some (.three [] (f.mdLe 1) .p (.vsl .w32) (.vsl .w32))
  | .mbxPush _ => some (.three [] true .no (.vs .w128) .no)
  | .mbxPushTry _ => some (.three [] true .p (.vs .w128) .no)
  | .mbxPop _ => some (.three [] true (.v .w128) .no .no)
  | .mon f => some (.three Ty.words (f.mdLe 5) .slot (.vs .w64) (.vsl .ty))
  | .evarm f =>
    let m := Member.branch (f.mdLe 4) .slot (if f.md.toNat ≤ 2 then .vs .w32 else .no)
    some { m with b := if f.mdIs 0 then .vs .w32 else .no }
  | .evdis f => some (.three [] (f.mdIs 0) .slot .no .no)
  | .evclr f | .waitany f => some (.three [] (f.mdIs 0) .no (.vsl .w32) .no)
  | .cpy f => some (.three [] (f.mdLe 7) .no (.vsl .w32) (if f.md.toNat ≥ 4 then .vs .w128 else .no))
  | .cbatch f => some (.three [] (f.mdIs 0) .no .no .no)
  | .cwait f => some (.three [] (f.mdIs 0) .no (.vsl .w32) .no)
  | .cstat f => some (.three [] (f.mdIs 0) (.vs .w32) (.vsl .w32) .no)
  | .mbind f => some (Member.three [] (f.mdIs 0) .no (.vsl .w32) .no).set32
  | .mbindU f => some (Member.three [] (f.mdIs 1) .no (.vsl .w32) .no).set32
  | .mma f =>
    let ta := f.md.toNat; let tb := f.ty.code
    some { Member.four Ty.ints (f.mdLe 7) .tile (.vs .w32) (.v .w32) (if ta ≥ 6 then .no else .vs .w32) with
      cls := mmaPair ta tb && (f.b.vIndex).getD 0 % 8 == 0, more := f.b.vRange (mmaQuarter tb), only32 := true }
  | .mzero f => some (Member.three [] (f.mdIs 0) .tile .no .no).set32
  | .mlda f => some (Member.three Ty.floats (f.mdIs 0) .tile (.vsl .w32) .no).set32
  | .msta f => some ((Member.three Ty.floats (f.mdLe 4) .guard (.vsl .w32) .tile).satIf f.ty.pair).set32
  | .mrgd f => some (.three [] (f.mdLe 2) .guard (.vsl .w32) .no)
  | _ => none

/-- The operand width in bits. -/
def OpWidth.bits (t : Ty) : OpWidth → Nat
  | .ty => t.regWidth
  | .w32 => 32
  | .w64 => 64
  | .w128 => 128

/-- The width of an operand of a word: `ty` names no width where the entry names no type. -/
def Use.width (u : Use) (m : Member) (f : Fields) : Nat := u.w.bits (if m.tys = [] then .n32 else f.ty)

/-- A field holds the literal and its entry accepts it. -/
def Use.isLit (u : Use) (o : Operand) : Bool := o == .lit && u.cls.contains .L

/-- The widths of the operands that read the literal, in the three-operand format (R161): those whose entry accepts it (log 67). -/
def litWidths (m : Member) (f : Fields) : List Nat :=
  if m.fmt = .three then
    (if m.a.isLit f.a then [m.a.width m f] else []) ++ (if m.b.isLit f.b then [m.b.width m f] else [])
  else []

/-- An unused operand field holds zero (R168). -/
def Use.unusedOk (u : Use) (o : Operand) : Bool := u.cls != [] || o == .zero

/-- IMM under R168: zero where no operand reads the literal, IMM[31:10] zero in the four-operand formats. -/
def immOk (m : Member) (f : Fields) : Bool :=
  match m.fmt with
  | .three => litWidths m f != [] || f.imm == 0
  | .four | .memFour => f.imm.toNat < 1024 && f.c.isSome && m.c.unusedOk f.opC
  | .mem | .branch => true

/-- R170 step 3 past the values that no field can hold. -/
def step3Ok (m : Member) (f : Fields) : Bool :=
  (m.tys != [] || f.ty == .n8) && (m.sat || !f.sat) && m.md && m.d.unusedOk f.d && m.a.unusedOk f.a && m.b.unusedOk f.b &&
    immOk m f && (!f.x || (litWidths m f != [] && !(litWidths m f).contains 32)) && m.res

/-- Step 4 for one operand: an accepted class, an aligned first index (R44, R160), no 128-bit literal (R161). -/
def Use.classOk (u : Use) (w : Nat) (o : Operand) : Bool :=
  u.cls == [] || (u.cls.contains o.cls &&
    match o with
    | .v i => i.toNat % (w / 32) == 0
    | .s i => i.toNat % (w / 32) == 0
    | .lit => w != 128
    | _ => true)

/-- R170 step 4, in a gang of the given width. -/
def step4Ok (m : Member) (gw : Nat) (f : Fields) : Bool :=
  (m.tys == [] || m.tys.contains f.ty) && m.d.classOk (m.d.width m f) f.d && m.a.classOk (m.a.width m f) f.a &&
    m.b.classOk (m.b.width m f) f.b && m.c.classOk (m.c.width m f) f.opC && m.cls &&
    (!m.only32 || gw == 32) && (!m.not16 || gw != 16)

/-- The v registers a field names, v255 among them. -/
def Use.vRegs (u : Use) (w : Nat) (o : Operand) : List Nat :=
  if u.cls.contains .V then o.vRange (w / 32) else []

/-- R170 step 5: every v register named lies below the allocation, v255 apart (R44). -/
def step5Ok (m : Member) (vregs : Nat) (f : Fields) : Bool :=
  (m.d.vRegs (m.d.width m f) f.d ++ m.a.vRegs (m.a.width m f) f.a ++ m.b.vRegs (m.b.width m f) f.b ++
    m.c.vRegs (m.c.width m f) f.opC ++ m.more).all fun i => i < vregs || 255 ≤ i

/-- Steps 3 to 5 of R170 in order; the first that fails gives the cause. -/
def fieldCheck (m : Member) (vregs gw : Nat) (f : Fields) : Option Cause :=
  if !step3Ok m f then some .reservedField
  else if !step4Ok m gw f then some .operandClass
  else if !step5Ok m vregs f then some .registerRange
  else none

end Sys2Proof
end

