-- ==== Sys2Proof/Machine/Flags.lean ====
section
/-! DEFINITION. FSTAT flags (R53, R68) and the integer helpers of R183: reading an integer out of a pattern, wrapping,
saturating and extending a result. Patterns are natural numbers here; each is below 2 to its width. -/

namespace Sys2Proof.Machine

/-- The six FSTAT flags of R53: NV in bit 0, DZ 1, OF 2, UF 3, NX 4, SV 5. -/
abbrev Flags := BitVec 6

def flagNone : Flags := 0
def flagNV : Flags := 1
def flagDZ : Flags := 2
def flagOF : Flags := 4
def flagUF : Flags := 8
def flagNX : Flags := 16
def flagSV : Flags := 32

/-- A result and the flags it raises. -/
abbrev Flagged (α : Type) := α × Flags

/-- ZExt(x, n) of R183. -/
def zExt (n x : Nat) : Nat := x % 2 ^ n

/-- SExt(x, n) of R183. -/
def sExt (n x : Nat) : Int :=
  let y := x % 2 ^ n
  if 2 * y < 2 ^ n then (y : Int) else (y : Int) - (2 ^ n : Nat)

/-- The pattern of an integer modulo 2^n. -/
def wrapBits (n : Nat) (x : Int) : Nat := (x % ((2 ^ n : Nat) : Int)).toNat

/-- IntVal(T, x) of R183. -/
def intVal (t : Ty) (x : Nat) : Int := if t.signed then sExt t.width x else (zExt t.width x : Int)

/-- Wrap(T, x) of R183. -/
def wrapTy (t : Ty) (x : Int) : Nat := wrapBits t.width x

/-- The least and the greatest value of a signed or unsigned n-bit integer (R61). -/
def intMin (signed : Bool) (n : Nat) : Int := if signed then -((2 ^ (n - 1) : Nat) : Int) else 0
def intMax (signed : Bool) (n : Nat) : Int := if signed then ((2 ^ (n - 1) : Nat) : Int) - 1 else ((2 ^ n : Nat) : Int) - 1

/-- SatInt of R183: the nearest bound, and SV where clamping changes the value (R61). -/
def satBits (signed : Bool) (n : Nat) (x : Int) : Flagged Int :=
  if x < intMin signed n then (intMin signed n, flagSV)
  else if intMax signed n < x then (intMax signed n, flagSV)
  else (x, flagNone)

/-- The register pattern of an n-bit result in a register of `w` bits: sign-extended for a signed type, zero-extended
otherwise (R187). -/
def extendTo (t : Ty) (n w : Nat) (x : Nat) : Nat := if t.signed then wrapBits w (sExt n x) else zExt n x

/-- Dst of R187: the low Width(T) bits of an integer, extended to the register width of T. -/
def intResult (t : Ty) (x : Int) : Nat := extendTo t t.width t.regWidth (wrapTy t x)

/-- Element i of a pattern of n-bit elements (R62). -/
def elem (n x i : Nat) : Nat := x / 2 ^ (n * i) % 2 ^ n

/-- The pattern of a list of n-bit elements, element 0 least significant (R62). -/
def packElems (n : Nat) : List Nat → Nat
  | [] => 0
  | e :: es => e % 2 ^ n + 2 ^ n * packElems n es

/-- The union of the flags of several results. -/
def flagUnion (l : List Flags) : Flags := l.foldl (· ||| ·) flagNone

end Sys2Proof.Machine
end

