-- ==== Sys2Proof/Machine/Numbers.lean ====
section
/-! DEFINITION. Number formats and rounding (R59 to R74, R183, R185): exact values, DecodeFP, RoundFP, the conversions into the
narrow formats and to integers, comparison, and the exact sums and products that an entry rounds once. -/

namespace Sys2Proof.Machine

/-- What the top exponent field of a format holds (R59). -/
inductive Specials where
  /-- infinities and NaNs, as IEEE 754 has them -/
  | ieee
  /-- as IEEE 754, with every NaN quiet (E5M2) -/
  | quiet
  /-- one NaN magnitude and no infinity (E4M3) -/
  | nanOnly
  /-- every pattern finite -/
  | finite
  deriving DecidableEq, Repr

/-- A floating-point format of R59: exponent bits, mantissa bits, bias, special patterns. -/
structure FpFormat where
  ebits : Nat
  mbits : Nat
  bias : Nat
  specials : Specials
  deriving DecidableEq, Repr

def fp64 : FpFormat := ⟨11, 52, 1023, .ieee⟩
def fp32 : FpFormat := ⟨8, 23, 127, .ieee⟩
def fp16 : FpFormat := ⟨5, 10, 15, .ieee⟩
def bf16 : FpFormat := ⟨8, 7, 127, .ieee⟩
def e4m3 : FpFormat := ⟨4, 3, 7, .nanOnly⟩
def e5m2 : FpFormat := ⟨5, 2, 15, .quiet⟩
def e3m2 : FpFormat := ⟨3, 2, 3, .finite⟩
def e2m3 : FpFormat := ⟨2, 3, 1, .finite⟩
def e2m1 : FpFormat := ⟨2, 1, 1, .finite⟩

/-- The format of a floating-point type; FP32 stands for the others. -/
def fmtOf : Ty → FpFormat
  | .f64 => fp64
  | .f16 => fp16
  | .bf16 => bf16
  | _ => fp32

/-- Bits of one pattern. -/
def FpFormat.bits (F : FpFormat) : Nat := 1 + F.ebits + F.mbits

/-- The exponent of the unit in the last place of the smallest normal and of every subnormal. -/
def FpFormat.qmin (F : FpFormat) : Int := 1 - (F.bias : Int) - F.mbits

/-- The exponent of the unit in the last place of the largest finite value, and its mantissa with the leading one. -/
def FpFormat.qmax (F : FpFormat) : Int :=
  match F.specials with
  | .ieee | .quiet => (2 ^ F.ebits - 2 : Int) - F.bias - F.mbits
  | .nanOnly | .finite => (2 ^ F.ebits - 1 : Int) - F.bias - F.mbits
def FpFormat.maxMant (F : FpFormat) : Nat :=
  match F.specials with
  | .nanOnly => 2 ^ (F.mbits + 1) - 2
  | _ => 2 ^ (F.mbits + 1) - 1

/-- The values of R183: a real (-1)^neg × m × 2^e that keeps its sign at zero, an infinity, a quiet or a signalling NaN. -/
inductive FVal where
  | num (neg : Bool) (m : Nat) (e : Int)
  | inf (neg : Bool)
  | qnan
  | snan
  deriving DecidableEq, Repr

def FVal.isNan : FVal → Bool
  | .qnan | .snan => true
  | _ => false

def FVal.neg? : FVal → Bool
  | .num n _ _ => n
  | .inf n => n
  | _ => false

def FVal.negate : FVal → FVal
  | .num n m e => .num (!n) m e
  | .inf n => .inf (!n)
  | v => v

/-- NV of a signalling source (R188). -/
def FVal.nv : FVal → Flags
  | .snan => flagNV
  | _ => flagNone

/-- The magnitude of a finite pattern (R60): exponent field and mantissa field. -/
def FpFormat.finite (F : FpFormat) (neg : Bool) (e m : Nat) (fz : Bool) : FVal :=
  if e = 0 then .num neg (if fz then 0 else m) F.qmin
  else .num neg (2 ^ F.mbits + m) ((e : Int) - F.bias - F.mbits)

/-- DecodeFP(F, p, fz) of R183. -/
def decodeFP (F : FpFormat) (p : Nat) (fz : Bool) : FVal :=
  let m := p % 2 ^ F.mbits
  let e := p / 2 ^ F.mbits % 2 ^ F.ebits
  let neg := p / 2 ^ (F.ebits + F.mbits) % 2 == 1
  let top := e == 2 ^ F.ebits - 1
  match F.specials with
  | .ieee =>
    if top then (if m = 0 then .inf neg else if 2 ^ (F.mbits - 1) ≤ m then .qnan else .snan) else F.finite neg e m fz
  | .quiet => if top then (if m = 0 then .inf neg else .qnan) else F.finite neg e m fz
  | .nanOnly => if top && m == 2 ^ F.mbits - 1 then .qnan else F.finite neg e m fz
  | .finite => F.finite neg e m fz

/-- The canonical NaN of R59. -/
def FpFormat.canonNaN (F : FpFormat) : Nat :=
  match F.specials with
  | .ieee => (2 ^ F.ebits - 1) * 2 ^ F.mbits + 2 ^ (F.mbits - 1)
  | .quiet => (2 ^ F.ebits - 1) * 2 ^ F.mbits + 2 ^ (F.mbits - 1)
  | .nanOnly => 2 ^ (F.ebits + F.mbits) - 1
  | .finite => F.maxMant % 2 ^ F.mbits + (2 ^ F.ebits - 1) * 2 ^ F.mbits

def FpFormat.signBit (F : FpFormat) (neg : Bool) : Nat := if neg then 2 ^ (F.ebits + F.mbits) else 0

/-- The pattern of an infinity, in the formats that have one. -/
def FpFormat.infBits (F : FpFormat) (neg : Bool) : Nat := F.signBit neg + (2 ^ F.ebits - 1) * 2 ^ F.mbits

/-- The pattern of a value m × 2^q with q at least qmin, and at qmin where m has no leading one. -/
def FpFormat.finiteBits (F : FpFormat) (neg : Bool) (m : Nat) (q : Int) : Nat :=
  F.signBit neg + (if m < 2 ^ F.mbits then m else (q - F.qmin + 1).toNat * 2 ^ F.mbits + (m - 2 ^ F.mbits))

/-- The pattern of the largest finite value. -/
def FpFormat.maxBits (F : FpFormat) (neg : Bool) : Nat := F.finiteBits neg F.maxMant F.qmax

/-- Whether a magnitude that lies between two neighbours goes to the greater: `odd` tells whether the lesser neighbour's last
bit is set, `half` and `rest` the first bit dropped and whether any bit below it is set (R63). -/
def roundUp (mode : Nat) (neg odd half rest : Bool) : Bool :=
  match mode with
  | 0 => half && (rest || odd)
  | 1 => false
  | 2 => !neg && (half || rest)
  | 3 => neg && (half || rest)
  | _ => half

/-- m × 2^-k rounded to a natural number under a mode of R63, and whether rounding changed it. -/
def roundShift (mode : Nat) (neg : Bool) (m k : Nat) : Nat × Bool :=
  if k = 0 then (m, false)
  else if Nat.log2 m + 2 < k then (if roundUp mode neg false false (m != 0) then 1 else 0, m != 0)
  else
    let r := m / 2 ^ k
    let half := m / 2 ^ (k - 1) % 2 == 1
    let rest := m % 2 ^ (k - 1) != 0
    (if roundUp mode neg (r % 2 == 1) half rest then r + 1 else r, half || rest)

/-- A rounded value m × 2^q with the exponent unbounded above (R64), normalised to at most mbits + 1 bits. -/
structure Rounded where
  m : Nat
  q : Int
  inexact : Bool
  deriving DecidableEq, Repr

/-- m × 2^e rounded under a mode onto the values of F, with the exponent unbounded above (R64). -/
def roundMag (F : FpFormat) (mode : Nat) (neg : Bool) (m : Nat) (e : Int) : Rounded :=
  if m = 0 then ⟨0, F.qmin, false⟩
  else
    let q := max (e + Nat.log2 m - F.mbits) F.qmin
    if q ≤ e then ⟨m * 2 ^ (e - q).toNat, q, false⟩
    else
      let (r, ix) := roundShift mode neg m (q - e).toNat
      if r = 2 ^ (F.mbits + 1) then ⟨2 ^ F.mbits, q + 1, ix⟩ else ⟨r, q, ix⟩

/-- The rounded magnitude exceeds the largest finite value (R64). -/
def Rounded.over (F : FpFormat) (r : Rounded) : Bool := F.qmax < r.q || (r.q == F.qmax && F.maxMant < r.m)

/-- The value that overflow delivers (R64). -/
def overflowBits (F : FpFormat) (mode : Nat) (neg : Bool) : Nat :=
  let toInf := match mode with
    | 1 => false
    | 2 => !neg
    | 3 => neg
    | _ => true
  if toInf then F.infBits neg else F.maxBits neg

/-- RoundFP(F, x, m, fz) of R185. -/
def roundFP (F : FpFormat) (x : FVal) (mode : Nat) (fz : Bool) : Flagged Nat :=
  match x with
  | .qnan | .snan => (F.canonNaN, flagNone)
  | .inf n => (F.infBits n, flagNone)
  | .num neg m e =>
    let r := roundMag F mode neg m e
    let tiny := r.m < 2 ^ F.mbits
    if r.over F then (overflowBits F mode neg, flagOF ||| flagNX)
    else if fz && r.m != 0 && tiny then (F.signBit neg, flagUF ||| flagNX)
    else (F.finiteBits neg r.m r.q, if r.inexact then (if tiny then flagNX ||| flagUF else flagNX) else flagNone)

/-- The conversion into an IEEE format (R69): with SAT a finite source that overflows delivers the largest finite value; where it does,
with SAT or under its rounding mode (R64), SV is raised (R68). -/
def roundFPSat (F : FpFormat) (x : FVal) (mode : Nat) (fz sat : Bool) : Flagged Nat :=
  match x with
  | .num neg m e =>
    if (roundMag F mode neg m e).over F then
      if sat || overflowBits F mode neg == F.maxBits neg then (F.maxBits neg, flagOF ||| flagNX ||| flagSV) else roundFP F x mode fz
    else roundFP F x mode fz
  | _ => roundFP F x mode fz

/-- CvtNarrow(F, x, sat) of R70. -/
def cvtNarrow (F : FpFormat) (x : FVal) (sat : Bool) : Flagged Nat :=
  match x with
  | .num neg m e =>
    let r := roundMag F 0 neg m e
    if r.over F then
      match F.specials with
      | .nanOnly => if sat then (F.maxBits neg, flagOF ||| flagNX ||| flagSV) else (F.canonNaN, flagOF ||| flagNX)
      | .finite => (F.maxBits neg, flagOF ||| flagNX ||| flagSV)
      | _ => if sat then (F.maxBits neg, flagOF ||| flagNX ||| flagSV) else (F.infBits neg, flagOF ||| flagNX)
    else (F.finiteBits neg r.m r.q, if r.inexact then (if r.m < 2 ^ F.mbits then flagNX ||| flagUF else flagNX) else flagNone)
  | .inf neg =>
    match F.specials with
    | .nanOnly => if sat then (F.maxBits neg, flagNX ||| flagSV) else (F.canonNaN, flagNV)
    | .finite => (F.maxBits neg, flagNX ||| flagSV)
    | _ => if sat then (F.maxBits neg, flagNX ||| flagSV) else (F.infBits neg, flagNone)
  | v =>
    match F.specials with
    | .finite => (F.maxBits false, flagNV ||| flagSV)
    | _ => (F.canonNaN, v.nv)

/-- A real rounded to an integer under a mode, and whether rounding changed it. -/
def roundInt (mode : Nat) (neg : Bool) (m : Nat) (e : Int) : Int × Bool :=
  if 0 ≤ e then ((if neg then -((m * 2 ^ e.toNat : Nat) : Int) else ((m * 2 ^ e.toNat : Nat) : Int)), false)
  else
    let (r, ix) := roundShift mode neg m (-e).toNat
    (if neg then -(r : Int) else (r : Int), ix)

/-- Conversion to a signed or unsigned n-bit integer (R69). -/
def toInteger (signed : Bool) (n mode : Nat) (x : FVal) : Flagged Int :=
  match x with
  | .num neg m e =>
    let (v, ix) := roundInt mode neg m e
    let (c, f) := satBits signed n v
    if f = flagNone then (v, if ix then flagNX else flagNone) else (c, flagNV ||| flagSV ||| flagNX)
  | .inf neg => (if neg then intMin signed n else intMax signed n, flagNV ||| flagSV ||| flagNX)
  | _ => (0, flagNV)

/-- An integer as an exact value. -/
def FVal.ofInt (x : Int) : FVal := .num (x < 0) x.natAbs 0

/-- The signed mantissa of a real at exponent e0, which is at most its own. -/
def FVal.at (v : FVal) (e0 : Int) : Int :=
  match v with
  | .num neg m e => if neg then -((m * 2 ^ (e - e0).toNat : Nat) : Int) else ((m * 2 ^ (e - e0).toNat : Nat) : Int)
  | _ => 0

/-- The exact sum of two values under R188: NaN and ∞ − ∞ give a NaN, the latter with NV. -/
def addVal (mode : Nat) (a b : FVal) : Flagged FVal :=
  if a.isNan || b.isNan then (.qnan, a.nv ||| b.nv)
  else
    match a, b with
    | .inf x, .inf y => if x = y then (.inf x, flagNone) else (.qnan, flagNV)
    | .inf x, _ => (.inf x, flagNone)
    | _, .inf y => (.inf y, flagNone)
    | .num na ma ea, .num nb mb eb =>
      if ma = 0 && mb = 0 then (.num (if na = nb then na else mode == 3) 0 0, flagNone)
      else
        let e0 := min ea eb
        let s := a.at e0 + b.at e0
        (.num (if s = 0 then mode == 3 else s < 0) s.natAbs e0, flagNone)
    | _, _ => (.qnan, flagNone)

/-- The exact product under R188: 0 × ∞ is invalid. -/
def mulVal (a b : FVal) : Flagged FVal :=
  if a.isNan || b.isNan then (.qnan, a.nv ||| b.nv)
  else
    match a, b with
    | .inf x, .inf y => (.inf (x != y), flagNone)
    | .inf x, .num y m _ => if m = 0 then (.qnan, flagNV) else (.inf (x != y), flagNone)
    | .num x m _, .inf y => if m = 0 then (.qnan, flagNV) else (.inf (x != y), flagNone)
    | .num x ma ea, .num y mb eb => (.num (x != y) (ma * mb) (ea + eb), flagNone)
    | _, _ => (.qnan, flagNone)

/-- a × b + c, rounded nowhere (R64); 0 × ∞ is invalid even where c is a quiet NaN (R201). -/
def fmaVal (mode : Nat) (a b c : FVal) : Flagged FVal :=
  let (p, fp) := mulVal a b
  let (s, fs) := addVal mode p c
  (s, fp ||| fs)

/-- a × 2^k. -/
def FVal.scale (a : FVal) (k : Int) : FVal :=
  match a with
  | .num n m e => .num n m (e + k)
  | v => v

/-- a < b of two values neither of which is a NaN; −0 equals +0 (R203). -/
def ltVal (a b : FVal) : Bool :=
  match a, b with
  | .inf x, .inf y => x && !y
  | .inf x, .num .. => x
  | .num .., .inf y => !y
  | .num _ _ ea, .num _ _ eb => let e0 := min ea eb; a.at e0 < b.at e0
  | _, _ => false

/-- Relation MD of R164 over two values. -/
def relation (md : Nat) (a b : FVal) : Bool :=
  let un := a.isNan || b.isNan
  let lt := !un && ltVal a b
  let gt := !un && ltVal b a
  let eq := !un && !lt && !gt
  match md with
  | 0 => eq
  | 1 => lt || gt
  | 2 => lt
  | 3 => lt || eq
  | 4 => gt
  | 5 => gt || eq
  | 6 => !un
  | 7 => un
  | 8 => un || eq
  | 9 => un || lt || gt
  | 10 => un || lt
  | 11 => un || lt || eq
  | 12 => un || gt
  | 13 => un || gt || eq
  | _ => false

/-- Integer relations 0 to 5 of R164. -/
def intRelation (md : Nat) (a b : Int) : Bool :=
  match md with
  | 0 => a == b
  | 1 => a != b
  | 2 => a < b
  | 3 => a ≤ b
  | 4 => a > b
  | 5 => a ≥ b
  | _ => false

/-- a orders below b in minimumNumber, where −0 lies below +0 (R67). -/
def belowVal (a b : FVal) : Bool := ltVal a b || (!ltVal b a && a.neg? && !b.neg?)

/-- minimumNumber or maximumNumber of two values (R67). -/
def minmaxVal (isMax : Bool) (a b : FVal) : Flagged FVal :=
  let fl := a.nv ||| b.nv
  if a.isNan then (if b.isNan then .qnan else b, fl)
  else if b.isNan then (a, fl)
  else if isMax then (if belowVal a b then b else a, fl)
  else (if belowVal b a then b else a, fl)

/-- The integer square root, one bit a step from bit k − 1. -/
def isqrt (n : Nat) : Nat → Nat → Nat
  | 0, r => r
  | k + 1, r => if (r + 2 ^ k) * (r + 2 ^ k) ≤ n then isqrt n k (r + 2 ^ k) else isqrt n k r

/-- A value that rounds as √(m × 2^e) does in FP32 and FP16: 64 bits of the root and a sticky bit. -/
def sqrtVal (m : Nat) (e : Int) : FVal :=
  if m = 0 then .num false 0 0
  else
    let m' := if e % 2 = 0 then m else 2 * m
    let e' := if e % 2 = 0 then e else e - 1
    let r := isqrt (m' * 2 ^ 80) 60 0
    .num false (2 * r + (if r * r = m' * 2 ^ 80 then 0 else 1)) (e' / 2 - 41)

/-- The floor of the binary logarithm of a positive real. -/
def floorLog2 (m : Nat) (e : Int) : Int := e + Nat.log2 m

/-- The value of an element of a matrix or narrow format by its code (R164, R284): codes 0 to 4 the narrow floats, 5 MXINT8,
6 BF16, 7 FP16. -/
def narrowFmt : Nat → FpFormat
  | 0 => e4m3
  | 1 => e5m2
  | 2 => e3m2
  | 3 => e2m3
  | 4 => e2m1
  | 6 => bf16
  | _ => fp16

/-- DecodeFP of a narrow code; MXINT8 gives SExt(p, 8) × 2^-6 (R183). -/
def decodeNarrow (code p : Nat) : FVal :=
  if code = 5 then (FVal.ofInt (sExt 8 p)).scale (-6) else decodeFP (narrowFmt code) p false

/-- The scale exponent of E8M0 (R61): `none` for the NaN code. -/
def e8m0 (p : Nat) : Option Int := if p % 256 = 255 then none else some ((p % 256 : Nat) - 127)

/-- emax of R72. -/
def qmxEmax : Nat → Int
  | 0 => 8
  | 1 => 15
  | 2 => 4
  | 3 => 2
  | 4 => 2
  | _ => 0

end Sys2Proof.Machine
end

