-- ==== Sys2Proof/Machine/Transcend.lean ====
section
/-! DEFINITION. Enclosures of 2^x, log2 x, sin πx, cos πx and tanh x in integers, for the error bounds of R75: a value lies between two
integers in units of 2^-320, or in these units times a power of two. -/

namespace Sys2Proof.Machine

/-- The unit of the enclosures: 1 is 2^320. -/
def encUnit : Nat := 2 ^ 320

/-- π and ln 2 in these units, rounded down. -/
def encPi : Nat := 0x3243F6A8885A308D313198A2E03707344A4093822299F31D0082EFA98EC4E6C89452821E638D01377
def encLn2 : Nat := 0xB17217F7D1CF79ABC9E3B39803F2F6AF40F343267298B62D8A0D175B8BAAFA2BE7B876206DEBAC98

/-- An enclosure: the value lies between lo × 2^k and hi × 2^k. -/
structure Enclosure where
  lo : Nat
  hi : Nat
  k : Int
  deriving DecidableEq, Repr

/-- A value in units of 2^-320 computed by one of the sums below, whose rounding errors stay under 2^64 units. -/
def encAround (x : Nat) (k : Int) : Enclosure := ⟨x - 2 ^ 64, x + 2 ^ 64, k - 320⟩

/-- The exponential series at r below 1: n further terms after `term`, the j-th. -/
def expTerms (r : Nat) : Nat → Nat → Nat → Nat
  | 0, _, term => term
  | n + 1, j, term => term + expTerms r n (j + 1) (term * r / (encUnit * j))

/-- e^r for r below 1, in units. -/
def encExp (r : Nat) : Nat := expTerms r 80 1 encUnit

/-- m × 2^e in units, rounded down. -/
def encOf (m : Nat) (e : Int) : Nat := if 0 ≤ e + 320 then m * 2 ^ (e + 320).toNat else m / 2 ^ (-(e + 320)).toNat

/-- 2^(±m × 2^e): the fraction above the next integer below, exponentiated, and that integer as a power of two. -/
def encEx2 (neg : Bool) (m : Nat) (e : Int) : Enclosure :=
  let x : Int := if neg then -(encOf m e : Int) else (encOf m e : Int)
  encAround (encExp ((x % (encUnit : Int)).toNat * encLn2 / encUnit)) (x / (encUnit : Int))

/-- The series of atanh at y, from the term y^(2j+1) on. -/
def atanhTerms (y2 : Nat) : Nat → Nat → Nat → Nat
  | 0, _, _ => 0
  | n + 1, j, p => p / (2 * j + 1) + atanhTerms y2 n (j + 1) (p * y2 / encUnit)

/-- The magnitude and the sign of log2 (m × 2^e). -/
def encLg2 (m : Nat) (e : Int) : Bool × Enclosure :=
  let b := 2 ^ Nat.log2 m
  let y := encUnit * (m - b) / (m + b)
  let a := 2 * atanhTerms (y * y / encUnit) 110 0 y * encUnit / encLn2
  let v : Int := (e + Nat.log2 m) * (encUnit : Int) + (a : Int)
  (decide (v < 0), encAround v.natAbs 0)

/-- The alternating series of the sine at a, from a given term on. -/
def sinTerms (a2 : Nat) : Nat → Nat → Int → Int
  | 0, _, _ => 0
  | n + 1, j, term => term + sinTerms a2 n (j + 1) (-(term * (a2 : Int) / ((encUnit * ((2 * j + 2) * (2 * j + 3)) : Nat) : Int)))

/-- sin (π t × 2^e) for an argument of at most π/2. -/
def encSin (t : Nat) (e : Int) : Enclosure :=
  let a := if 0 ≤ e then encPi * t * 2 ^ e.toNat else encPi * t / 2 ^ (-e).toNat
  encAround (sinTerms (a * a / encUnit) 60 0 (a : Int)).toNat 0

/-- sin (π m × 2^e) for an argument that is no multiple of 0.5, so that e is below −1: sign and magnitude. -/
def encSinPi (m : Nat) (e : Int) : Bool × Enclosure :=
  let one := 2 ^ (-e).toNat
  let r := m % (2 * one)
  let n := decide (one < r)
  let r := if n then r - one else r
  (n, encSin (if one < 2 * r then one - r else r) e)

/-- cos (π m × 2^e) for such an argument: sign and magnitude. -/
def encCosPi (m : Nat) (e : Int) : Bool × Enclosure :=
  let one := 2 ^ (-e).toNat
  let r := m % (2 * one)
  let r := if one < r then 2 * one - r else r
  if one < 2 * r then (true, encSin (2 * r - one) (e - 1)) else (false, encSin (one - 2 * r) (e - 1))

/-- tanh of a positive argument, (1 − t) / (1 + t) with t = e^(−2x). -/
def encTanh (m : Nat) (e : Int) : Enclosure :=
  let a := if 8 ≤ e + Nat.log2 m then 512 * encUnit else 2 * encOf m e
  let t := encUnit * encUnit / encExp (a % encLn2) / 2 ^ (a / encLn2)
  encAround ((encUnit - t) * encUnit / (encUnit + t)) 0

/-! ## The bound -/

/-- a × 2^ea ≤ b × 2^eb. -/
def leScaled (a : Nat) (ea : Int) (b : Nat) (eb : Int) : Bool :=
  let s := min ea eb
  decide (a * 2 ^ (ea - s).toNat ≤ b * 2 ^ (eb - s).toNat)

/-- The pattern y has the sign and lies within b ulps of a value of the enclosure (R75). -/
def Enclosure.within (v : Enclosure) (F : FpFormat) (neg : Bool) (b y : Nat) : Bool :=
  match decodeFP F y false with
  | .num n my ey =>
    let q := max (v.k + Nat.log2 v.hi - F.mbits) F.qmin
    let s := min (min ey v.k) q
    let at_ (x : Nat) (e : Int) : Nat := x * 2 ^ (e - s).toNat
    n == neg && decide (at_ my ey ≤ at_ v.hi v.k + at_ b q ∧ at_ v.lo v.k ≤ at_ my ey + at_ b q)
  | _ => false

/-- Every value of the enclosure exceeds the largest finite one. -/
def Enclosure.over (v : Enclosure) (F : FpFormat) : Bool := !leScaled v.lo v.k F.maxMant F.qmax

/-- Every value of the enclosure lies below half the smallest subnormal. -/
def Enclosure.vanishes (v : Enclosure) (F : FpFormat) : Bool := !leScaled 1 (F.qmin - 1) v.hi v.k

/-- Every value of the enclosure lies below the smallest normal. -/
def Enclosure.tiny (v : Enclosure) (F : FpFormat) : Bool := !leScaled (2 ^ F.mbits) F.qmin v.hi v.k

end Sys2Proof.Machine
end

