-- ==== Sys2Proof/Machine/FloatAlu.lean ====
section
/-! DEFINITION. What the floating-point, conversion and special-function instructions compute from their source patterns
(R75 to R77, R201 to R212), element by element under R62. -/

namespace Sys2Proof.Machine

/-- Elements of a floating-point type: two of a pair type, else one. -/
def elemCount (t : Ty) : Nat := if t.pair then 2 else 1

/-- The elements' results packed, and the union of their flags. -/
def perElem (t : Ty) (g : Nat → Flagged Nat) : Flagged Nat :=
  let l := (List.range (elemCount t)).map g
  (packElems t.width (l.map (·.1)), flagUnion (l.map (·.2)))

/-- The value of element i of a source, with FZ where MD[3] is set (R188). -/
def srcElem (t : Ty) (md x i : Nat) : FVal := decodeFP (fmtOf t) (elem t.width x i) (8 ≤ md)

/-- RoundFP of an exact value under MD, joined with the flags of deriving it (R188). -/
def deliverFP (t : Ty) (md : Nat) (x : Flagged FVal) : Flagged Nat :=
  let (p, fl) := roundFP (fmtOf t) x.1 (md % 8) (8 ≤ md)
  (p, fl ||| x.2)

def aluFadd (t : Ty) (md a b : Nat) : Flagged Nat :=
  perElem t fun i => deliverFP t md (addVal (md % 8) (srcElem t md a i) (srcElem t md b i))
def aluFsub (t : Ty) (md a b : Nat) : Flagged Nat :=
  perElem t fun i => deliverFP t md (addVal (md % 8) (srcElem t md a i) (srcElem t md b i).negate)
def aluFmul (t : Ty) (md a b : Nat) : Flagged Nat :=
  perElem t fun i => deliverFP t md (mulVal (srcElem t md a i) (srcElem t md b i))
def aluFfma (t : Ty) (md a b c : Nat) : Flagged Nat :=
  perElem t fun i => deliverFP t md (fmaVal (md % 8) (srcElem t md a i) (srcElem t md b i) (srcElem t md c i))

/-- FMIN and FMAX (R67, R202). -/
def aluFminmax (isMax : Bool) (t : Ty) (md a b : Nat) : Flagged Nat :=
  perElem t fun i =>
    let (v, fl) := minmaxVal isMax (srcElem t md a i) (srcElem t md b i)
    ((roundFP (fmtOf t) v 0 false).1, fl)

/-- FABS and FNEG (R202): `sign` maps the source's sign to the result's. -/
def aluFsign (sign : Bool → Bool) (t : Ty) (md a : Nat) : Flagged Nat :=
  perElem t fun i =>
    match srcElem t md a i with
    | .num n m e => ((roundFP (fmtOf t) (.num (sign n) m e) 0 false).1, flagNone)
    | .inf n => ((fmtOf t).infBits (sign n), flagNone)
    | v => ((fmtOf t).canonNaN, v.nv)

/-- The relation of FCMP on element 0 (R203). -/
def aluFcmp (t : Ty) (md a b : Nat) : Bool × Flags :=
  let x := srcElem t 0 a 0
  let y := srcElem t 0 b 0
  (relation md x y, x.nv ||| y.nv)

/-- FSET: all ones in each element whose relation holds (R203). -/
def aluFset (t : Ty) (md a b : Nat) : Flagged Nat :=
  perElem t fun i =>
    let x := srcElem t 0 a i
    let y := srcElem t 0 b i
    (if relation md x y then 2 ^ t.width - 1 else 0, x.nv ||| y.nv)

/-- The class bit of one element (R204). -/
def classBit (F : FpFormat) (p : Nat) : Nat :=
  match decodeFP F p false with
  | .inf n => if n then 0 else 7
  | .snan => 8
  | .qnan => 9
  | .num n m _ =>
    if m = 0 then (if n then 3 else 4)
    else if m < 2 ^ F.mbits then (if n then 2 else 5)
    else if n then 1 else 6

def aluFclass (t : Ty) (a : Nat) : Nat :=
  packElems 16 ((List.range (elemCount t)).map fun i => 2 ^ classBit (fmtOf t) (elem t.width a i))

/-- FRND: the nearest integer under the mode, with the source's sign at zero; never NX (R205). -/
def aluFrnd (t : Ty) (md a : Nat) : Flagged Nat :=
  perElem t fun i =>
    match srcElem t md a i with
    | .num n m e =>
      let (v, _) := roundInt (md % 8) n m e
      ((roundFP (fmtOf t) (.num n v.natAbs 0) 0 false).1, flagNone)
    | v => ((roundFP (fmtOf t) v 0 false).1, v.nv)

/-- The scale of element i: B as a whole, or its 16-bit element for a pair type (R205). -/
def scaleOf (t : Ty) (b i : Nat) : Int := if t.pair then sExt 16 (elem 16 b i) else sExt 32 b

def aluFscale (t : Ty) (md a b : Nat) : Flagged Nat :=
  perElem t fun i =>
    let x := srcElem t md a i
    deliverFP t md (x.scale (scaleOf t b i), x.nv)

/-- Float to float by CVT and PACK (R69, R207): the value, the target format, MD and SAT. -/
def cvtFloat (F : FpFormat) (md : Nat) (sat : Bool) (x : FVal) : Flagged Nat :=
  let (p, fl) := roundFPSat F x (md % 8) (8 ≤ md) sat
  (p, fl ||| x.nv)

/-- A floating-point type. -/
def isFloat : Ty → Bool
  | .f32 | .f64 | .f16 | .bf16 => true
  | _ => false

/-- CVT from type S to type T (R207). -/
def aluCvt (t s : Ty) (md : Nat) (sat : Bool) (a : Nat) : Flagged Nat :=
  if isFloat s then
    if isFloat t then
      perElem t fun i => cvtFloat (fmtOf t) md sat (decodeFP (fmtOf s) (elem s.width a i) (8 ≤ md))
    else
      let (v, fl) := toInteger t.signed t.width (md % 8) (decodeFP (fmtOf s) (elem s.width a 0) false)
      (intResult t v, fl)
  else if isFloat t then
    -- an integer is no pair, so one element is written
    roundFPSat (fmtOf t) (FVal.ofInt (intVal s a)) (md % 8) false sat
  else deliverInt' t sat (intVal s a)
where
  deliverInt' (t : Ty) (sat : Bool) (x : Int) : Flagged Nat :=
    let (y, fl) := if sat then satBits t.signed t.width x else (x, flagNone)
    (intResult t y, fl)

/-- PACK (R208). -/
def aluPack (t : Ty) (md : Nat) (sat : Bool) (a b : Nat) : Flagged Nat :=
  let one (x : Nat) : Flagged Nat :=
    if isFloat t then cvtFloat (fmtOf t) md sat (decodeFP fp32 x false)
    else
      let v : Int := if t.signed then sExt 32 x else (zExt 32 x : Int)
      let (y, fl) := if sat then satBits t.signed 16 v else (v, flagNone)
      (wrapBits 16 y, fl)
  let (x, fx) := one a
  let (y, fy) := one b
  (packElems 16 [x, y], fx ||| fy)

/-- UNPACK into a 64-bit destination, element 0 in the low word (R208). -/
def aluUnpack (t : Ty) (md a : Nat) : Flagged Nat :=
  let one (x : Nat) : Flagged Nat :=
    if isFloat t then
      let v := decodeFP (fmtOf t) x (8 ≤ md)
      ((roundFP fp32 v 0 false).1, v.nv)
    else (extendTo t 16 32 x, flagNone)
  let (x, fx) := one (elem 16 a 0)
  let (y, fy) := one (elem 16 a 1)
  (packElems 32 [x, y], fx ||| fy)

/-- One value into a narrow element by CVT8 and CVT4 (R209, R210): codes of R164. -/
def narrowOne (code : Nat) (sat : Bool) (x : FVal) : Flagged Nat :=
  if code = 5 then
    let (v, fl) := toInteger true 8 0 (x.scale 6)
    (wrapBits 8 v, fl)
  else if code = 6 then
    let (v, fl) := toInteger true 4 0 x
    (wrapBits 4 v, fl)
  else
    cvtNarrow (narrowFmt code) x sat

/-- CVT8 narrowing: four sources of type T (R209). -/
def aluCvt8Narrow (t : Ty) (code : Nat) (sat : Bool) (a : Nat) : Flagged Nat :=
  let l := (List.range 4).map fun j => narrowOne code sat (decodeFP (fmtOf t) (elem t.width a j) false)
  (packElems 8 (l.map (·.1)), flagUnion (l.map (·.2)))

/-- One narrow element as an FP32 pattern (R70, R209). -/
def widenOne (code p : Nat) : Nat :=
  (roundFP fp32 (if code = 6 then FVal.ofInt (sExt 4 p) else decodeNarrow code p) 0 false).1

def aluCvt8Widen (code a : Nat) : Nat := packElems 32 ((List.range 4).map fun j => widenOne code (elem 8 a j))

/-- CVT4 narrowing: four FP32 values of A and four of B (R210). -/
def aluCvt4Narrow (code : Nat) (sat : Bool) (a b : Nat) : Flagged Nat :=
  let l := (List.range 8).map fun j =>
    narrowOne code sat (decodeFP fp32 (if j < 4 then elem 32 a j else elem 32 b (j - 4)) false)
  (packElems 4 (l.map (·.1)), flagUnion (l.map (·.2)))

def aluCvt4Widen (code a b : Nat) : Nat :=
  packElems 32 ((List.range 4).map fun j => widenOne code (elem 4 a (4 * (b % 2) + j)))

/-- The MX scale of a group of FP32 patterns (R72, R211). -/
def aluQmx (code : Nat) (l : List Nat) : Nat :=
  let vs := l.map fun p => decodeFP fp32 p false
  if vs.any fun v => match v with | .num .. => false | _ => true then 0xFF
  else
    let top := vs.foldl (fun acc v => match v with
      | .num _ m e => if m = 0 then acc else match acc with
        | none => some (floorLog2 m e)
        | some k => some (max k (floorLog2 m e))
      | _ => acc) (none : Option Int)
    match top with
    | none => 0x7F
    | some k => (min 127 (max (-127) (k - qmxEmax code)) + 127).toNat

/-! Special functions. Where R75 and R77 fix the result it is that; where they give a bound only, the device's choice inside it is
a free value of Config (log 9). -/

/-- The operations of OP 0x50, numbered by FN. -/
inductive SpecialFn where
  | rcp | rsq | sqrt | ex2 | lg2 | sinpi | cospi | tanh
  deriving DecidableEq, Repr

def SpecialFn.num : SpecialFn → Nat
  | .rcp => 0 | .rsq => 1 | .sqrt => 2 | .ex2 => 3 | .lg2 => 4 | .sinpi => 5 | .cospi => 6 | .tanh => 7

/-- Multiples of 0.5: n with x = n / 2, reduced modulo 4, or `none` (R76). -/
def halfMultiple (neg : Bool) (m : Nat) (e : Int) : Option (Nat × Bool) :=
  -- m × 2^e × 2 is an integer
  let e1 := e + 1
  let n? : Option Nat :=
    if 0 ≤ e1 then some (if 2 < e1 then 0 else m * 2 ^ e1.toNat % 4)
    else if m % 2 ^ (-e1).toNat = 0 then some (m / 2 ^ (-e1).toNat % 4) else none
  n?.map fun n => (if neg then (4 - n) % 4 else n, neg)

/-- A power of two: its exponent. -/
def powerOfTwo (m : Nat) (e : Int) : Option Int :=
  if m = 0 then none else if m = 2 ^ Nat.log2 m then some (e + Nat.log2 m) else none

/-- The exact integer n with n an FP value's integer value, where it is one. -/
def integerValue (neg : Bool) (m : Nat) (e : Int) : Option Int :=
  let (v, ix) := roundInt 1 neg m (max e (-4096))
  if ix || e < -4096 then none else some v

/-- Whether the candidate pattern y lies within one ulp of 1 / (m × 2^e), by cross multiplication (R75). -/
def rcpInBound (F : FpFormat) (m : Nat) (e : Int) (y : Nat) : Bool :=
  match decodeFP F y false with
  | .num _ my ey =>
    let k := -(e + Nat.log2 m)                         -- 2^(k-1) < 1/x ≤ 2^k
    let top := if m = 2 ^ Nat.log2 m then k else k - 1
    let q := max (top - F.mbits) F.qmin
    let s := ey + e
    let s0 := min (min s 0) (q + e)
    let prod : Int := ((my * m * 2 ^ (s - s0).toNat : Nat) : Int) - ((2 ^ (-s0).toNat : Nat) : Int)
    prod.natAbs ≤ m * 2 ^ (q + e - s0).toNat
  | _ => false

/-- Within one ulp of 1 / √(m × 2^e), tested on squares: (y − u)² x ≤ 1 ≤ (y + u)² x (R75). -/
def rsqInBound (F : FpFormat) (m : Nat) (e : Int) (y : Nat) : Bool :=
  match decodeFP F y false with
  | .num _ my ey =>
    let lg := e + Nat.log2 m                            -- 2^lg ≤ x < 2^(lg+1)
    let top := if m = 2 ^ Nat.log2 m ∧ lg % 2 = 0 then -lg / 2 else -((lg + 2) / 2)
    let q := max (top - F.mbits) F.qmin
    let e0 := min ey q
    let yy : Int := ((my * 2 ^ (ey - e0).toNat : Nat) : Int)
    let u : Int := ((2 ^ (q - e0).toNat : Nat) : Int)
    let lo := if yy ≤ u then 0 else yy - u
    let hi := yy + u
    -- z² × 2^(2 e0) × m × 2^e against 1
    let s := 2 * e0 + e
    let one : Int := ((2 ^ (if s < 0 then (-s).toNat else 0) : Nat) : Int)
    let sc : Int := ((2 ^ (if s < 0 then 0 else s.toNat) : Nat) : Int)
    lo * lo * m * sc ≤ one && one ≤ hi * hi * m * sc
  | _ => false

/-- The pattern chosen by the device among the candidates near `c` that lie inside the bound (log 9). -/
def sfPick (op : SpecialFn) (F : FpFormat) (p c : Nat) (ok : Nat → Bool) : Nat :=
  let l := ((List.range 13).map fun i => c + i - 6).filter ok
  if l.length = 0 then c else l.getD (Config.sfChoice op.num F.bits (BitVec.ofNat 32 p) % l.length) c

/-- The result of a function whose value is enclosed, of a given sign and bound: infinite or zero where R212 has it so, else a pattern
within the bound, none of them a subnormal under FZ (R65). -/
def sfBound (op : SpecialFn) (F : FpFormat) (fz : Bool) (p b : Nat) (neg : Bool) (v : Enclosure) : Nat :=
  if v.over F then F.infBits neg
  else if v.vanishes F || (fz && v.tiny F) then F.signBit neg
  else
    sfPick op F p (roundFP F (.num neg v.lo v.k) 1 false).1 fun y =>
      v.within F neg b y && !(fz && y % 2 ^ (F.ebits + F.mbits) != 0 && decide (y % 2 ^ (F.ebits + F.mbits) < 2 ^ F.mbits))

/-- The bound of EX2, LG2 and TANH: 2 ulp in FP32, 1 in FP16 (R75). -/
def sfUlps (F : FpFormat) : Nat := if F = fp32 then 2 else 1

/-- The pattern nearest below 1 / (m × 2^e), from which the candidates are counted. -/
def rcpSeed (F : FpFormat) (neg : Bool) (m : Nat) (e : Int) : Nat :=
  let k := Nat.log2 m + 60
  (roundFP F (.num neg (2 ^ k / m) (-(k : Int) - e)) 1 false).1

/-- The pattern nearest below 1 / √(m × 2^e). -/
def rsqSeed (F : FpFormat) (m : Nat) (e : Int) : Nat :=
  let m' := if e % 2 = 0 then m else 2 * m
  let e' := if e % 2 = 0 then e else e - 1
  let k := Nat.log2 m' + 120
  -- floor(√(2^k' / m')) with k' even, scaled by 2^(-k'/2 - e'/2)
  let k' := if k % 2 = 0 then k else k + 1
  (roundFP F (.num false (isqrt (2 ^ k' / m') 80 0) (-(k' / 2 : Nat) - e' / 2)) 1 false).1

/-- The value of a special function on one element: format, FZ, pattern (R75 to R77, R212). -/
def specialElem (op : SpecialFn) (F : FpFormat) (md p : Nat) : Flagged Nat :=
  let fz := decide (8 ≤ md)
  let x := decodeFP F p fz
  let one := (roundFP F (.num false 1 0) 0 false).1
  let minusOne := (roundFP F (.num true 1 0) 0 false).1
  -- delivery of a result that is a power of two or an integer, under the last rules of R212
  let exact (v : FVal) : Nat :=
    match v with
    | .num n m e =>
      if (roundMag F 1 n m e).over F then F.infBits n
      else
        let (r, _) := roundFP F v 0 false
        if fz && r % 2 ^ (F.ebits + F.mbits) < 2 ^ F.mbits then F.signBit n else r
    | _ => (roundFP F v 0 false).1
  let flush (n : Bool) (r : Nat) : Nat := if fz && r % 2 ^ (F.ebits + F.mbits) < 2 ^ F.mbits then F.signBit n else r
  match x with
  | .qnan | .snan => (F.canonNaN, x.nv)
  | .inf n =>
    match op with
    | .rcp => (F.signBit n, flagNone)
    | .rsq => if n then (F.canonNaN, flagNV) else (F.signBit false, flagNone)
    | .sqrt | .lg2 => if n then (F.canonNaN, flagNV) else (F.infBits false, flagNone)
    | .ex2 => if n then (F.signBit false, flagNone) else (F.infBits false, flagNone)
    | .sinpi | .cospi => (F.canonNaN, flagNV)
    | .tanh => (if n then minusOne else one, flagNone)
  | .num n m e =>
    if m = 0 then
      match op with
      | .rcp | .rsq => (F.infBits n, flagDZ)
      | .sqrt | .sinpi | .tanh => (F.signBit n, flagNone)
      | .lg2 => (F.infBits true, flagDZ)
      | .ex2 | .cospi => (one, flagNone)
    else
      match op with
      | .rcp =>
        match powerOfTwo m e with
        | some k =>
          if k ≤ (F.bias : Int) - 1 then (exact (.num n 1 (-k)), flagNone)
          else (flush n (sfPick op F p (rcpSeed F n m e) (fun y => y / 2 ^ (F.ebits + F.mbits) % 2 == n.toNat &&
            rcpInBound F m e y)), flagNone)
        | none =>
          -- overflow: 1/x exceeds the largest finite value
          if (1 : Int) ≤ -(e + Nat.log2 m) - 1 - F.bias then (F.infBits n, flagNone)
          else if rcpOver F m e then (F.infBits n, flagNone)
          else if fz && rcpTiny F m e then (F.signBit n, flagNone)
          else (sfPick op F p (rcpSeed F n m e) (fun y => y / 2 ^ (F.ebits + F.mbits) % 2 == n.toNat &&
            rcpInBound F m e y), flagNone)
      | .rsq =>
        if n then (F.canonNaN, flagNV)
        else
          match powerOfTwo m e with
          | some k =>
            if k % 2 = 0 then (exact (.num false 1 (-k / 2)), flagNone)
            else (sfPick op F p (rsqSeed F m e) (rsqInBound F m e), flagNone)
          | none => (sfPick op F p (rsqSeed F m e) (rsqInBound F m e), flagNone)
      | .sqrt =>
        if n then (F.canonNaN, flagNV)
        else
          let (r, fl) := roundFP F (sqrtVal m e) (md % 8) fz
          (r, fl &&& flagNX)
      | .ex2 =>
        (if ltVal (FVal.ofInt ((F.bias : Int) + 2)) x then F.infBits false
          else if ltVal x (FVal.ofInt (F.qmin - 2)) then F.signBit false
          else
            match integerValue n m e with
            | some k =>
              if F.qmin ≤ k ∧ k ≤ (F.bias : Int) then exact (.num false 1 k) else sfBound op F fz p (sfUlps F) false ⟨1, 1, k⟩
            | none => sfBound op F fz p (sfUlps F) false (encEx2 n m e), flagNone)
      | .lg2 =>
        if n then (F.canonNaN, flagNV)
        else
          match powerOfTwo m e with
          | some k => (exact (FVal.ofInt k), flagNone)
          | none => (sfBound op F fz p (sfUlps F) (encLg2 m e).1 (encLg2 m e).2, flagNone)
      | .sinpi =>
        match halfMultiple n m e with
        | some (k, s) =>
          (if k = 1 then one else if k = 3 then minusOne else F.signBit s, flagNone)
        | none => (sfBound op F fz p 1 (n != (encSinPi m e).1) (encSinPi m e).2, flagNone)
      | .cospi =>
        match halfMultiple n m e with
        | some (k, _) => (if k = 0 then one else if k = 2 then minusOne else F.signBit false, flagNone)
        | none => (sfBound op F fz p 1 (encCosPi m e).1 (encCosPi m e).2, flagNone)
      | .tanh => (sfBound op F fz p (sfUlps F) n (encTanh m e), flagNone)
where
  /-- 1 / (m × 2^e) exceeds the largest finite value: 1 > maxMant × m × 2^(qmax + e). -/
  rcpOver (F : FpFormat) (m : Nat) (e : Int) : Bool :=
    let s := F.qmax + e
    if 0 ≤ s then false else F.maxMant * m < 2 ^ (-s).toNat
  /-- 1 / (m × 2^e) lies below the smallest normal value: 1 < m × 2^(1 - bias + e). -/
  rcpTiny (F : FpFormat) (m : Nat) (e : Int) : Bool :=
    let s := 1 - (F.bias : Int) + e
    if 0 ≤ s then 1 < m * 2 ^ s.toNat else 2 ^ (-s).toNat < m

/-- A special function over the elements of its source. -/
def aluSpecial (op : SpecialFn) (t : Ty) (md a : Nat) : Flagged Nat :=
  perElem t fun i => specialElem op (fmtOf t) md (elem t.width a i)

end Sys2Proof.Machine
end

