-- ==== Sys2Proof/Decode.lean ====
section
/-! DEFINITION. Decoding of instruction words under R157, R169 and R170, of the porter's custom words under R315, and the encoder
written from the same tables. -/

namespace Sys2Proof

/-- The instruction that OP and FN assign (R169), as a function of the other fields; `none` where OP is reserved or FN is
reserved for its OP. CALL and MBIND have two forms that MD tells apart (R219, R284). -/
def opTable (op fn : Nat) (md : BitVec 4) : Option (Fields → Instr) :=
  match op, fn with
  | 0x01, 0 => some .bra
  | 0x01, 1 => some .brx
  | 0x01, 3 => some .ret
  | 0x01, 2 => some (if md = 1 then .callInd else .call)
  | 0x02, 0 => some .loop
  | 0x03, 0 => some .exit
  | 0x03, 1 => some .nop
  | 0x03, 2 => some .yield
  | 0x03, 3 => some .sleep
  | 0x03, 4 => some .bpt
  | 0x03, 5 => some .trap
  | 0x10, 0 => some .iadd
  | 0x10, 1 => some .isub
  | 0x10, 2 => some .iaddc
  | 0x10, 3 => some .isubb
  | 0x10, 4 => some .imul
  | 0x10, 5 => some .imulh
  | 0x10, 6 => some .imad
  | 0x10, 7 => some .imadw
  | 0x10, 8 => some .imin
  | 0x10, 9 => some .imax
  | 0x10, 10 => some .iabs
  | 0x10, 11 => some .ineg
  | 0x10, 12 => some .icmp
  | 0x10, 13 => some .iset
  | 0x10, 14 => some .sel
  | 0x10, 15 => some .mov
  | 0x10, 16 => some .lea
  | 0x20, 0 => some .and
  | 0x20, 1 => some .or
  | 0x20, 2 => some .xor
  | 0x20, 3 => some .andn
  | 0x20, 4 => some .not
  | 0x20, 5 => some .shl
  | 0x20, 6 => some .shr
  | 0x20, 7 => some .sar
  | 0x20, 8 => some .rot
  | 0x20, 9 => some .shf
  | 0x20, 10 => some .bfe
  | 0x20, 11 => some .bfi
  | 0x20, 12 => some .popc
  | 0x20, 13 => some .clz
  | 0x20, 14 => some .ctz
  | 0x20, 15 => some .brev
  | 0x20, 16 => some .prmt
  | 0x21, 0 => some .pand
  | 0x21, 1 => some .por
  | 0x21, 2 => some .pxor
  | 0x21, 3 => some .pmov
  | 0x30, 0 => some .fadd
  | 0x30, 1 => some .fsub
  | 0x30, 2 => some .fmul
  | 0x30, 3 => some .ffma
  | 0x30, 4 => some .fmin
  | 0x30, 5 => some .fmax
  | 0x30, 6 => some .fabs
  | 0x30, 7 => some .fneg
  | 0x30, 8 => some .fcmp
  | 0x30, 9 => some .fset
  | 0x30, 10 => some .fclass
  | 0x30, 11 => some .frnd
  | 0x30, 12 => some .fscale
  | 0x40, 0 => some .faddF64
  | 0x40, 1 => some .fsubF64
  | 0x40, 2 => some .fmulF64
  | 0x40, 3 => some .ffmaF64
  | 0x40, 4 => some .fminF64
  | 0x40, 5 => some .fmaxF64
  | 0x40, 6 => some .fabsF64
  | 0x40, 7 => some .fnegF64
  | 0x40, 8 => some .fcmpF64
  | 0x40, 9 => some .fsetF64
  | 0x40, 10 => some .fclassF64
  | 0x40, 11 => some .frndF64
  | 0x40, 12 => some .fscaleF64
  | 0x41, 0 => some .cvt
  | 0x41, 1 => some .pack
  | 0x41, 2 => some .unpack
  | 0x41, 3 => some .cvt8
  | 0x41, 4 => some .cvt4
  | 0x41, 5 => some .qmx
  | 0x50, 0 => some .rcp
  | 0x50, 1 => some .rsq
  | 0x50, 2 => some .sqrt
  | 0x50, 3 => some .ex2
  | 0x50, 4 => some .lg2
  | 0x50, 5 => some .sinpi
  | 0x50, 6 => some .cospi
  | 0x50, 7 => some .tanh
  | 0x51, 0 => some .shfl
  | 0x51, 1 => some .ballot
  | 0x51, 2 => some .vote
  | 0x51, 3 => some .matchAny
  | 0x51, 4 => some .redux
  | 0x51, 5 => some .scanx
  | 0x51, 6 => some .elect
  | 0x60, 0 => some .ldG
  | 0x60, 1 => some .ldGAcq
  | 0x60, 2 => some .ldGEd
  | 0x60, 3 => some .ldGEdRpt
  | 0x60, 4 => some .ldS
  | 0x60, 5 => some .ldSAcq
  | 0x60, 6 => some .ldSFw
  | 0x60, 7 => some .ldSFc
  | 0x60, 8 => some .ldK
  | 0x61, 0 => some .stG
  | 0x61, 1 => some .stGRel
  | 0x61, 4 => some .stS
  | 0x61, 5 => some .stSRel
  | 0x61, 6 => some .stSFs
  | 0x62, 0 => some .prf
  | 0x62, 1 => some .feclr
  | 0x62, 2 => some .fenceAcq
  | 0x62, 3 => some .fenceRel
  | 0x62, 4 => some .fenceAr
  | 0x73, 0 => some .ednext
  | 0x73, 1 => some .edsync
  | 0x80, 0 => some .barInit
  | 0x80, 1 => some .barArr
  | 0x80, 2 => some .barExp
  | 0x80, 3 => some .barWait
  | 0x80, 4 => some .barTest
  | 0x81, 0 => some .mbxPush
  | 0x81, 1 => some .mbxPushTry
  | 0x81, 2 => some .mbxPop
  | 0x82, 0 => some .mon
  | 0x83, 0 => some .evarm
  | 0x83, 1 => some .evdis
  | 0x83, 2 => some .evclr
  | 0x83, 3 => some .waitany
  | 0x90, 0 => some .cpy
  | 0x90, 1 => some .cbatch
  | 0x90, 2 => some .cwait
  | 0x90, 3 => some .cstat
  | 0xA0, 1 => some .mma
  | 0xA0, 2 => some .mzero
  | 0xA0, 3 => some .mlda
  | 0xA0, 4 => some .msta
  | 0xA0, 5 => some .mrgd
  | 0xA0, 0 => some (if md = 1 then .mbindU else .mbind)
  | 0xB0, 0 => some .sysc
  | 0xB0, 1 => some .syscA
  | 0xB0, 2 => some .draft
  | 0xB1, 0 => some .sread
  | 0xB1, 1 => some .swrite
  | 0x70, 0 => some (.atomAdd .plain)
  | 0x70, 16 => some (.atomAdd .acq)
  | 0x70, 32 => some (.atomAdd .rel)
  | 0x70, 48 => some (.atomAdd .ar)
  | 0x70, 1 => some (.atomMin .plain)
  | 0x70, 17 => some (.atomMin .acq)
  | 0x70, 33 => some (.atomMin .rel)
  | 0x70, 49 => some (.atomMin .ar)
  | 0x70, 2 => some (.atomMax .plain)
  | 0x70, 18 => some (.atomMax .acq)
  | 0x70, 34 => some (.atomMax .rel)
  | 0x70, 50 => some (.atomMax .ar)
  | 0x70, 3 => some (.atomAnd .plain)
  | 0x70, 19 => some (.atomAnd .acq)
  | 0x70, 35 => some (.atomAnd .rel)
  | 0x70, 51 => some (.atomAnd .ar)
  | 0x70, 4 => some (.atomOr .plain)
  | 0x70, 20 => some (.atomOr .acq)
  | 0x70, 36 => some (.atomOr .rel)
  | 0x70, 52 => some (.atomOr .ar)
  | 0x70, 5 => some (.atomXor .plain)
  | 0x70, 21 => some (.atomXor .acq)
  | 0x70, 37 => some (.atomXor .rel)
  | 0x70, 53 => some (.atomXor .ar)
  | 0x70, 6 => some (.atomExch .plain)
  | 0x70, 22 => some (.atomExch .acq)
  | 0x70, 38 => some (.atomExch .rel)
  | 0x70, 54 => some (.atomExch .ar)
  | 0x70, 7 => some (.atomFadd .plain)
  | 0x70, 23 => some (.atomFadd .acq)
  | 0x70, 39 => some (.atomFadd .rel)
  | 0x70, 55 => some (.atomFadd .ar)
  | 0x71, 0 => some (.cas .plain)
  | 0x71, 16 => some (.cas .acq)
  | 0x71, 32 => some (.cas .rel)
  | 0x71, 48 => some (.cas .ar)
  | 0x72, 0 => some (.redAdd false)
  | 0x72, 32 => some (.redAdd true)
  | 0x72, 1 => some (.redMin false)
  | 0x72, 33 => some (.redMin true)
  | 0x72, 2 => some (.redMax false)
  | 0x72, 34 => some (.redMax true)
  | 0x72, 3 => some (.redAnd false)
  | 0x72, 35 => some (.redAnd true)
  | 0x72, 4 => some (.redOr false)
  | 0x72, 36 => some (.redOr true)
  | 0x72, 5 => some (.redXor false)
  | 0x72, 37 => some (.redXor true)
  | 0x72, 7 => some (.redFadd false)
  | 0x72, 39 => some (.redFadd true)
  | _, _ => none

/-- The order code FN[5:4] (R169). -/
def Order.code : Order → Nat
  | .plain => 0 | .acq => 1 | .rel => 2 | .ar => 3

/-- OP, FN and the other fields of an instruction that has an encoding. -/
def Instr.code : Instr → Option (BitVec 8 × BitVec 6 × Fields)
  | .bra f => some (0x01, 0, f)
  | .brx f => some (0x01, 1, f)
  | .ret f => some (0x01, 3, f)
  | .call f | .callInd f => some (0x01, 2, f)
  | .loop f => some (0x02, 0, f)
  | .exit f => some (0x03, 0, f)
  | .nop f => some (0x03, 1, f)
  | .yield f => some (0x03, 2, f)
  | .sleep f => some (0x03, 3, f)
  | .bpt f => some (0x03, 4, f)
  | .trap f => some (0x03, 5, f)
  | .iadd f => some (0x10, 0, f)
  | .isub f => some (0x10, 1, f)
  | .iaddc f => some (0x10, 2, f)
  | .isubb f => some (0x10, 3, f)
  | .imul f => some (0x10, 4, f)
  | .imulh f => some (0x10, 5, f)
  | .imad f => some (0x10, 6, f)
  | .imadw f => some (0x10, 7, f)
  | .imin f => some (0x10, 8, f)
  | .imax f => some (0x10, 9, f)
  | .iabs f => some (0x10, 10, f)
  | .ineg f => some (0x10, 11, f)
  | .icmp f => some (0x10, 12, f)
  | .iset f => some (0x10, 13, f)
  | .sel f => some (0x10, 14, f)
  | .mov f => some (0x10, 15, f)
  | .lea f => some (0x10, 16, f)
  | .and f => some (0x20, 0, f)
  | .or f => some (0x20, 1, f)
  | .xor f => some (0x20, 2, f)
  | .andn f => some (0x20, 3, f)
  | .not f => some (0x20, 4, f)
  | .shl f => some (0x20, 5, f)
  | .shr f => some (0x20, 6, f)
  | .sar f => some (0x20, 7, f)
  | .rot f => some (0x20, 8, f)
  | .shf f => some (0x20, 9, f)
  | .bfe f => some (0x20, 10, f)
  | .bfi f => some (0x20, 11, f)
  | .popc f => some (0x20, 12, f)
  | .clz f => some (0x20, 13, f)
  | .ctz f => some (0x20, 14, f)
  | .brev f => some (0x20, 15, f)
  | .prmt f => some (0x20, 16, f)
  | .pand f => some (0x21, 0, f)
  | .por f => some (0x21, 1, f)
  | .pxor f => some (0x21, 2, f)
  | .pmov f => some (0x21, 3, f)
  | .fadd f => some (0x30, 0, f)
  | .fsub f => some (0x30, 1, f)
  | .fmul f => some (0x30, 2, f)
  | .ffma f => some (0x30, 3, f)
  | .fmin f => some (0x30, 4, f)
  | .fmax f => some (0x30, 5, f)
  | .fabs f => some (0x30, 6, f)
  | .fneg f => some (0x30, 7, f)
  | .fcmp f => some (0x30, 8, f)
  | .fset f => some (0x30, 9, f)
  | .fclass f => some (0x30, 10, f)
  | .frnd f => some (0x30, 11, f)
  | .fscale f => some (0x30, 12, f)
  | .faddF64 f => some (0x40, 0, f)
  | .fsubF64 f => some (0x40, 1, f)
  | .fmulF64 f => some (0x40, 2, f)
  | .ffmaF64 f => some (0x40, 3, f)
  | .fminF64 f => some (0x40, 4, f)
  | .fmaxF64 f => some (0x40, 5, f)
  | .fabsF64 f => some (0x40, 6, f)
  | .fnegF64 f => some (0x40, 7, f)
  | .fcmpF64 f => some (0x40, 8, f)
  | .fsetF64 f => some (0x40, 9, f)
  | .fclassF64 f => some (0x40, 10, f)
  | .frndF64 f => some (0x40, 11, f)
  | .fscaleF64 f => some (0x40, 12, f)
  | .cvt f => some (0x41, 0, f)
  | .pack f => some (0x41, 1, f)
  | .unpack f => some (0x41, 2, f)
  | .cvt8 f => some (0x41, 3, f)
  | .cvt4 f => some (0x41, 4, f)
  | .qmx f => some (0x41, 5, f)
  | .rcp f => some (0x50, 0, f)
  | .rsq f => some (0x50, 1, f)
  | .sqrt f => some (0x50, 2, f)
  | .ex2 f => some (0x50, 3, f)
  | .lg2 f => some (0x50, 4, f)
  | .sinpi f => some (0x50, 5, f)
  | .cospi f => some (0x50, 6, f)
  | .tanh f => some (0x50, 7, f)
  | .shfl f => some (0x51, 0, f)
  | .ballot f => some (0x51, 1, f)
  | .vote f => some (0x51, 2, f)
  | .matchAny f => some (0x51, 3, f)
  | .redux f => some (0x51, 4, f)
  | .scanx f => some (0x51, 5, f)
  | .elect f => some (0x51, 6, f)
  | .ldG f => some (0x60, 0, f)
  | .ldGAcq f => some (0x60, 1, f)
  | .ldGEd f => some (0x60, 2, f)
  | .ldGEdRpt f => some (0x60, 3, f)
  | .ldS f => some (0x60, 4, f)
  | .ldSAcq f => some (0x60, 5, f)
  | .ldSFw f => some (0x60, 6, f)
  | .ldSFc f => some (0x60, 7, f)
  | .ldK f => some (0x60, 8, f)
  | .stG f => some (0x61, 0, f)
  | .stGRel f => some (0x61, 1, f)
  | .stS f => some (0x61, 4, f)
  | .stSRel f => some (0x61, 5, f)
  | .stSFs f => some (0x61, 6, f)
  | .prf f => some (0x62, 0, f)
  | .feclr f => some (0x62, 1, f)
  | .fenceAcq f => some (0x62, 2, f)
  | .fenceRel f => some (0x62, 3, f)
  | .fenceAr f => some (0x62, 4, f)
  | .ednext f => some (0x73, 0, f)
  | .edsync f => some (0x73, 1, f)
  | .barInit f => some (0x80, 0, f)
  | .barArr f => some (0x80, 1, f)
  | .barExp f => some (0x80, 2, f)
  | .barWait f => some (0x80, 3, f)
  | .barTest f => some (0x80, 4, f)
  | .mbxPush f => some (0x81, 0, f)
  | .mbxPushTry f => some (0x81, 1, f)
  | .mbxPop f => some (0x81, 2, f)
  | .mon f => some (0x82, 0, f)
  | .evarm f => some (0x83, 0, f)
  | .evdis f => some (0x83, 1, f)
  | .evclr f => some (0x83, 2, f)
  | .waitany f => some (0x83, 3, f)
  | .cpy f => some (0x90, 0, f)
  | .cbatch f => some (0x90, 1, f)
  | .cwait f => some (0x90, 2, f)
  | .cstat f => some (0x90, 3, f)
  | .mma f => some (0xA0, 1, f)
  | .mzero f => some (0xA0, 2, f)
  | .mlda f => some (0xA0, 3, f)
  | .msta f => some (0xA0, 4, f)
  | .mrgd f => some (0xA0, 5, f)
  | .mbind f | .mbindU f => some (0xA0, 0, f)
  | .sysc f => some (0xB0, 0, f)
  | .syscA f => some (0xB0, 1, f)
  | .draft f => some (0xB0, 2, f)
  | .sread f => some (0xB1, 0, f)
  | .swrite f => some (0xB1, 1, f)
  | .atomAdd o f => some (0x70, BitVec.ofNat 6 (16 * o.code + 0), f)
  | .atomMin o f => some (0x70, BitVec.ofNat 6 (16 * o.code + 1), f)
  | .atomMax o f => some (0x70, BitVec.ofNat 6 (16 * o.code + 2), f)
  | .atomAnd o f => some (0x70, BitVec.ofNat 6 (16 * o.code + 3), f)
  | .atomOr o f => some (0x70, BitVec.ofNat 6 (16 * o.code + 4), f)
  | .atomXor o f => some (0x70, BitVec.ofNat 6 (16 * o.code + 5), f)
  | .atomExch o f => some (0x70, BitVec.ofNat 6 (16 * o.code + 6), f)
  | .atomFadd o f => some (0x70, BitVec.ofNat 6 (16 * o.code + 7), f)
  | .cas o f => some (0x71, BitVec.ofNat 6 (16 * o.code), f)
  | .redAdd r f => some (0x72, if r then 32 else 0, f)
  | .redMin r f => some (0x72, if r then 33 else 1, f)
  | .redMax r f => some (0x72, if r then 34 else 2, f)
  | .redAnd r f => some (0x72, if r then 35 else 3, f)
  | .redOr r f => some (0x72, if r then 36 else 4, f)
  | .redXor r f => some (0x72, if r then 37 else 5, f)
  | .redFadd r f => some (0x72, if r then 39 else 7, f)
  | _ => none

/-- The fields of a word other than OP and FN (R157); `none` where an operand value or the TY code is reserved
(R159, R163). -/
def parseFields (w : Insn) : Option Fields := do
  let d ← Operand.ofBits (w.extractLsb' 64 10)
  let a ← Operand.ofBits (w.extractLsb' 54 10)
  let b ← Operand.ofBits (w.extractLsb' 44 10)
  let ty ← Ty.ofCode (w.extractLsb' 40 4).toNat
  pure {
    neg := w.getLsbD 81, pred := w.extractLsb' 78 3, yld := w.getLsbD 77, keep := w.getLsbD 76
    ra := w.getLsbD 75, rb := w.getLsbD 74, d, a, b, ty, md := w.extractLsb' 36 4
    sat := w.getLsbD 35, fa := w.getLsbD 34, fb := w.getLsbD 33, x := w.getLsbD 32, imm := w.extractLsb' 0 32 }

/-- The word of OP, FN and the other fields (R157). -/
def packFields (op : BitVec 8) (fn : BitVec 6) (f : Fields) : Insn :=
  op ++ (fn ++ (BitVec.ofBool f.neg ++ (f.pred ++ (BitVec.ofBool f.yld ++ (BitVec.ofBool f.keep ++ (BitVec.ofBool f.ra ++
    (BitVec.ofBool f.rb ++ (f.d.bits ++ (f.a.bits ++ (f.b.bits ++ (BitVec.ofNat 4 f.ty.code ++ (f.md ++ (BitVec.ofBool f.sat ++
      (BitVec.ofBool f.fa ++ (BitVec.ofBool f.fb ++ (BitVec.ofBool f.x ++ f.imm))))))))))))))))

/-- Decoding of a 96-bit word in a thread with `vregs` allocated registers of a gang of width `gw`: the instruction, or the
cause of the first check of R170 that fails. -/
def decode96 (vregs gw : Nat) (w : Insn) : Except Cause Instr :=
  if w = 0 then .error .zeroWord
  else
    match opTable (w.extractLsb' 88 8).toNat (w.extractLsb' 82 6).toNat (w.extractLsb' 36 4) with
    | none => .error .illegalOpcode
    | some mk =>
      match parseFields w with
      | none => .error .reservedField
      | some f =>
        match memberOf (mk f) with
        | none => .error .illegalOpcode
        | some m =>
          match fieldCheck m vregs gw f with
          | some c => .error c
          | none => .ok (mk f)

/-- The RISC-V register fields of a 32-bit word. -/
def rvRd (w : W32) : BitVec 5 := w.extractLsb' 7 5
def rvRs1 (w : W32) : BitVec 5 := w.extractLsb' 15 5
def rvRs2 (w : W32) : BitVec 5 := w.extractLsb' 20 5

/-- The custom-0 words of R315; `none` for the words that raise an illegal-instruction exception. -/
def decodeCustom (cl : Nat) (w : W32) : Option Instr :=
  let d := rvRd w; let a := rvRs1 w; let b := rvRs2 w
  if (w.extractLsb' 12 3).toNat = 1 then
    if (w.extractLsb' 25 2).toNat = 0 then some (.pgwrite cl d a b (w.extractLsb' 27 5)) else none
  else if (w.extractLsb' 25 7).toNat ≠ 0 then none
  else
    match (w.extractLsb' 12 3).toNat with
    | 0 => some (.pgread cl d a b)
    | 2 => some (.presume cl d a b)
    | 3 => some (.pmsendChannel cl d a b)
    | 4 => some (.pmrecv cl d a b)
    | 5 => some (.pcallrec cl d a b)
    | _ => none

/-- funct5 of an AMO word (RISC-V A extension, log 30). -/
def amoOfFunct5 : Nat → Option AmoOp
  | 0 => some .add | 1 => some .swap | 4 => some .xor | 8 => some .or | 12 => some .and
  | 16 => some .min | 20 => some .max | 24 => some .minu | 28 => some .maxu | _ => none

/-- The loads, stores, AMOs and fences of RV64GC that the table of operations names without an encoding, in the encodings of
the RISC-V specifications that R309 names (PRESUMED, log 30). -/
def decodeRv (cl : Nat) (w : W32) : Option Instr :=
  let f3 := (w.extractLsb' 12 3).toNat
  let imm : BitVec 12 := w.extractLsb' 20 12
  let simm : BitVec 12 := w.extractLsb' 25 7 ++ w.extractLsb' 7 5
  let aq := w.getLsbD 26; let rl := w.getLsbD 25
  match (w.extractLsb' 0 7).toNat with
  | 0x03 =>
    match f3 with
    | 0 => some (.porterLoadStoreAmo cl (.load 0 false (rvRd w) (rvRs1 w) imm))
    | 1 => some (.porterLoadStoreAmo cl (.load 1 false (rvRd w) (rvRs1 w) imm))
    | 2 => some (.porterLoadStoreAmo cl (.load 2 false (rvRd w) (rvRs1 w) imm))
    | 3 => some (.porterLoadStoreAmo cl (.load 3 false (rvRd w) (rvRs1 w) imm))
    | 4 => some (.porterLoadStoreAmo cl (.load 0 true (rvRd w) (rvRs1 w) imm))
    | 5 => some (.porterLoadStoreAmo cl (.load 1 true (rvRd w) (rvRs1 w) imm))
    | 6 => some (.porterLoadStoreAmo cl (.load 2 true (rvRd w) (rvRs1 w) imm))
    | _ => none
  | 0x07 =>
    match f3 with
    | 2 => some (.porterLoadStoreAmo cl (.fload false (rvRd w) (rvRs1 w) imm))
    | 3 => some (.porterLoadStoreAmo cl (.fload true (rvRd w) (rvRs1 w) imm))
    | _ => none
  | 0x23 =>
    match f3 with
    | 0 => some (.porterLoadStoreAmo cl (.store 0 (rvRs1 w) (rvRs2 w) simm))
    | 1 => some (.porterLoadStoreAmo cl (.store 1 (rvRs1 w) (rvRs2 w) simm))
    | 2 => some (.porterLoadStoreAmo cl (.store 2 (rvRs1 w) (rvRs2 w) simm))
    | 3 => some (.porterLoadStoreAmo cl (.store 3 (rvRs1 w) (rvRs2 w) simm))
    | _ => none
  | 0x27 =>
    match f3 with
    | 2 => some (.porterLoadStoreAmo cl (.fstore false (rvRs1 w) (rvRs2 w) simm))
    | 3 => some (.porterLoadStoreAmo cl (.fstore true (rvRs1 w) (rvRs2 w) simm))
    | _ => none
  | 0x0F =>
    if f3 = 0 then some (.porterFence cl (w.extractLsb' 24 4) (w.extractLsb' 20 4)) else none
  | 0x2F =>
    if f3 ≠ 2 ∧ f3 ≠ 3 then none
    else
      let dbl := f3 = 3
      match (w.extractLsb' 27 5).toNat with
      | 2 => if rvRs2 w = 0 then some (.porterLoadStoreAmo cl (.loadReserved dbl aq rl (rvRd w) (rvRs1 w))) else none
      | 3 => some (.porterLoadStoreAmo cl (.storeConditional dbl aq rl (rvRd w) (rvRs1 w) (rvRs2 w)))
      | n => (amoOfFunct5 n).map fun op => .porterLoadStoreAmo cl (.amo op dbl aq rl (rvRd w) (rvRs1 w) (rvRs2 w))
  | 0x73 =>
    if f3 = 0 ∧ (w.extractLsb' 25 7).toNat = 9 ∧ rvRd w = 0 then some (.sfenceVma cl (rvRs1 w) (rvRs2 w)) else none
  | _ => none

/-- Decoding of a porter's 32-bit word. -/
def decode32 (cl : Nat) (w : W32) : Option Instr :=
  if (w.extractLsb' 0 7).toNat = 0x0B then decodeCustom cl w else decodeRv cl w

/-- The word of a compute instruction; `none` for a step that has no word. -/
def encode (i : Instr) : Option Insn := i.code.map fun (op, fn, f) => packFields op fn f

/-- The R-format word of custom-0: bits [31:20], rs1, funct3, rd (R315). -/
def packCustom (hi : BitVec 12) (a : BitVec 5) (f3 : BitVec 3) (d : BitVec 5) : W32 :=
  hi ++ (a ++ (f3 ++ (d ++ 0x0B#7)))

/-- The word of a porter's custom instruction (R315). The two destinations of PMSEND have one word. -/
def encodeCustom : Instr → Option W32
  | .pgread _ d a b => some (packCustom (0#7 ++ b) a 0 d)
  | .pgwrite _ d a b c => some (packCustom (c ++ (0#2 ++ b)) a 1 d)
  | .presume _ d a b => some (packCustom (0#7 ++ b) a 2 d)
  | .pmsendChannel _ d a b | .pmsendMailbox _ d a b => some (packCustom (0#7 ++ b) a 3 d)
  | .pmrecv _ d a b => some (packCustom (0#7 ++ b) a 4 d)
  | .pcallrec _ d a b => some (packCustom (0#7 ++ b) a 5 d)
  | _ => none

/-- The 96 bits of an instruction's twelve bytes in memory, word 0 first, each word little-endian (R157). -/
def insnOfBytes (bs : List Byte) : Insn := bs.foldr (fun b (w : Insn) => (w <<< (8 : Nat)) ||| b.setWidth 96) 0

/-- The twelve bytes of a word, at ascending addresses. -/
def bytesOfInsn (w : Insn) : List Byte := (List.range 12).map fun i => w.extractLsb' (8 * i) 8

/-- The instruction of a table word of `nbits` bits, numbered from the least significant bit of the first word: a compute
word with the default allocation of R176 in a 32-wide gang, or a porter's word. -/
def decodeTableWord (nbits w : Nat) : Option Instr :=
  if nbits = 32 then decode32 0 (BitVec.ofNat 32 w)
  else
    match decode96 64 32 (BitVec.ofNat 96 w) with
    | .ok i => some i
    | .error _ => none

end Sys2Proof
end

