-- ==== Sys2Proof/Machine/Tab.lean ====
section
/-! DEFINITION. Sparse tables: lists of key and value pairs with the keys strictly rising, the bytes of a memory in the same
form, and the sets of numbers held as strictly rising lists. -/

namespace Sys2Proof

/-- The keys rise strictly. -/
def Tab.wf {α : Type} (t : Tab α) : Bool := decide (t.Pairwise fun a b => a.1 < b.1)

/-- The value at a key. -/
def Tab.get? {α : Type} (t : Tab α) (k : Nat) : Option α := (t.find? fun c => c.1 == k).map (·.2)

/-- The value at a key, or a default. -/
def Tab.getD {α : Type} (t : Tab α) (k : Nat) (d : α) : α := (Tab.get? t k).getD d

/-- The table without a key. -/
def Tab.erase {α : Type} (t : Tab α) (k : Nat) : Tab α := t.filter fun c => c.1 != k

/-- The table with a key set. -/
def Tab.set {α : Type} (t : Tab α) (k : Nat) (v : α) : Tab α :=
  t.filter (fun c => c.1 < k) ++ (k, v) :: t.filter (fun c => k < c.1)

/-- The table with a key set, and not listed where the value is the default of unlisted keys. -/
def Tab.put {α : Type} [DecidableEq α] (t : Tab α) (d : α) (k : Nat) (v : α) : Tab α :=
  if v = d then Tab.erase t k else Tab.set t k v

/-- A key's value mapped, where the key is listed. -/
def Tab.update {α : Type} (t : Tab α) (k : Nat) (f : α → α) : Tab α :=
  t.map fun c => if c.1 = k then (c.1, f c.2) else c

/-- The least key from `lo` upward that is not listed, below lo + n. -/
def Tab.freeKey {α : Type} (t : Tab α) (lo n : Nat) : Option Nat :=
  ((List.range n).map (lo + ·)).find? fun k => (Tab.get? t k).isNone

/-- What a byte of memory that nothing has written reads as (log 2). -/
def Mem.unlisted : Byte := 0

/-- One byte. -/
def Mem.read (m : Mem) (a : Nat) : Byte := Tab.getD m a Mem.unlisted

/-- The canonical form: keys strictly rising, no byte that equals what an unlisted address reads as. -/
def Mem.wf (m : Mem) : Bool := Tab.wf m && m.all fun c => c.2 != Mem.unlisted

/-- One byte written. -/
def Mem.write (m : Mem) (a : Nat) (b : Byte) : Mem := Tab.put m Mem.unlisted a b

/-- n bytes from an address as a little-endian number (R8). -/
def Mem.readN (m : Mem) (a n : Nat) : Nat :=
  (List.range n).foldr (fun i acc => (Mem.read m (a + i)).toNat + 256 * acc) 0

/-- The low n bytes of a number written from an address, little-endian. -/
def Mem.writeN (m : Mem) (a n x : Nat) : Mem :=
  (List.range n).foldl (fun m i => Mem.write m (a + i) (BitVec.ofNat 8 (x / 256 ^ i))) m

/-- A list of bytes written from an address. -/
def Mem.writeBytes (m : Mem) (a : Nat) (bs : List Byte) : Mem :=
  m.filter (fun c => c.1 < a) ++
    ((bs.mapIdx fun i b => (a + i, b)).filter fun c => c.2 != Mem.unlisted) ++
    m.filter (fun c => a + bs.length ≤ c.1)

/-- The bytes from an address. -/
def Mem.readBytes (m : Mem) (a n : Nat) : List Byte := (List.range n).map fun i => Mem.read m (a + i)

/-- A set of numbers: a strictly rising list. -/
abbrev NatSet := List Nat

def NatSet.wf (s : NatSet) : Bool := decide (s.Pairwise (· < ·))
def NatSet.has (s : NatSet) (n : Nat) : Bool := s.contains n
def NatSet.add (s : NatSet) (n : Nat) : NatSet := s.filter (· < n) ++ n :: s.filter (n < ·)
def NatSet.del (s : NatSet) (n : Nat) : NatSet := s.filter (· != n)

end Sys2Proof
end

