-- ==== Sys2Proof/Machine/State.lean ====
section
/-! DEFINITION. The state of the SZ4180: every piece of state the spec names, as plain data. Each structure's docstring cites
the rules that name it. -/

namespace Sys2Proof.Machine

/-- The scopes of R103. -/
inductive Scope where
  | gang | block | device | domain | system
  deriving DecidableEq, Repr

/-! ## Threads -/

/-- A loop-stack entry (R48): start and end PC of the body, remaining count. -/
structure LoopEntry where
  start : Pc
  last : Pc
  count : W32
  deriving DecidableEq, Repr

/-- What the home applies for one entry: a write, or a reduction of R247 (RED, R118). -/
inductive StoreOp where
  | write
  | red (op : Nat) (ty : Ty)
  deriving DecidableEq, Repr

/-- Where an access goes: a physical address, an offset in one half of a block's scratchpad, or one in the parameters. -/
inductive Place where
  | phys (pa : Nat)
  | scratch (blk : Nat) (odd : Bool) (off : Nat)
  | param (off : Nat)
  deriving DecidableEq, Repr

/-- A store or RED in a draft store buffer, or committed and not yet performed (R119, R137, R238): its place, its virtual
address and ASID, its size and data, the fill it makes (R86), the scope at which it releases (R104, R239), the number of
release fences of its thread that precede it (R106 (e)), the thread: gang key, LANE, core, and the tag and epoch of R366, and the issue
number of its instruction (R81). -/
structure StoreEntry where
  op : StoreOp
  place : Place
  va : Nat
  asid : Nat
  size : Nat
  data : Nat
  fill : Bool
  rel : Option Scope
  fences : Nat
  key : Nat
  lane : Nat
  core : Nat
  tag : Nat × Nat × Nat
  epoch : Nat
  issue : Nat
  deriving DecidableEq, Repr

/-- A long-latency producer that has issued and not written back (R46, R189, R237): its destination registers, the pattern it
will write once its access has been performed, its flags, the predicate of a bounded load (R241), whether the access has been
performed, the PC and the word of its instruction, the threads that its flags concern (R27); for a load, its type, the bytes
forwarded from the draft's stores (R138) and the scope at which it acquires. -/
structure Producer where
  id : Nat
  reg : Nat
  words : Nat
  value : Nat
  flags : Flags
  pred : Option (Nat × Bool)
  ready : Bool
  isLoad : Bool
  pc : Pc
  insn : Insn
  members : Lanes
  ty : Ty
  fwd : List (Nat × Nat)
  acq : Option Scope
  deriving DecidableEq, Repr

/-- TSTATE of R316. -/
inductive TState where
  | live | trapped | caller | stopped | waiting | ended
  deriving DecidableEq, Repr

/-- The trap state of R316: cause, VALID, TRAP code. -/
structure TrapState where
  cause : BitVec 7
  valid : Bool
  code : W32
  deriving DecidableEq, Repr

/-- One lane of a fault record (R339). -/
structure LaneFault where
  lane : Nat
  cause : Cause
  access : Nat
  level : Nat
  errkind : Nat
  size : Nat
  code : W32
  addr : W64
  deriving DecidableEq, Repr

/-- A thread (R43, R46 to R56, R134, R140, R143, R316). `empty` holds the full/empty bits, set where empty; `bad`
and `badP` the registers and predicates in which an uncorrectable error stands (R404). `entries` keeps
the four loop-stack entries whatever the depth (R316). The model's own: `fences` counts release fences, `drain` holds the
thread until its draft has committed (the DRAIN state of R143), `solo` says that the draft is that of an ending instruction which
has performed, `dloopd` and `dentries` are the loop stack at DSTART, to which a discard returns (R132), and `due` is the fault of a
committing cause that waits for the draft to commit (R142, R143). -/
structure Thread where
  v : Tab W32
  empty : BitVec 256
  bad : BitVec 256
  p : BitVec 8
  badP : BitVec 8
  pc : Pc
  entries : Tab LoopEntry
  loopd : Nat
  fstat : Flags
  clockH : W32
  dstart : Pc
  dxm : W32
  dwm : W32
  dext : BitVec 20
  drc : BitVec 8
  drl : BitVec 8
  buf : List StoreEntry
  pend : List Producer
  fences : Nat
  drain : Bool
  solo : Bool
  dloopd : Nat
  dentries : Tab LoopEntry
  due : Option LaneFault
  tstate : TState
  trap : TrapState
  deriving DecidableEq, Repr

/-! ## Gangs -/

/-- The token of an armed event slot (R145, R269). -/
inductive Token where
  | barrier (off : Nat) (phase : Nat)
  | batch (n : Nat)
  | mailbox (n : Nat)
  | monitor
  | timer
  deriving DecidableEq, Repr

/-- The description that MON stages (R267): physical address, virtual address, type, relation, comparand. -/
structure MonDesc where
  pa : Nat
  va : Nat
  ty : Ty
  md : Nat
  cmp : Nat
  deriving DecidableEq, Repr

/-- An event slot (R144, R267): the binding of an armed slot, and the staged description. -/
structure EventSlot where
  armed : Option (Token × Pc)
  staged : Option MonDesc
  deriving DecidableEq, Repr

/-- One record of a copy-batch level (R280, R283): the use's stamp, and its status once it has ended. -/
structure BatchRec where
  use : Nat
  status : Option Nat
  deriving DecidableEq, Repr

/-- STATE of a copy-batch level (R283). -/
inductive LevelState where
  | empty | opened | outstanding | complete
  deriving DecidableEq, Repr

/-- A copy-batch level (R280): its records in CPY issue order. -/
structure Level where
  state : LevelState
  recs : List BatchRec
  deriving DecidableEq, Repr

/-- A range guard (R53, R292). -/
structure RangeGuard where
  limit : W32
  act : BitVec 2
  count : BitVec 16
  sticky : Bool
  deriving DecidableEq, Repr

/-- Rotation of a slice (R22): the LANEs of the path, and the instructions it still issues. -/
structure Rotation where
  path : Lanes
  left : Nat
  deriving DecidableEq, Repr

/-- A slice of a gang: its s registers (R27, R43), the special functions in flight into them (R189), its s registers in error (R404), the
rotation count and rotation (R22), and its place in the quadrant's active or pending set (R364, R365): since when, the KEEP window,
YIELD, and whether its latest issue found it blocked on an empty register. -/
structure SliceState where
  s : Tab W32
  bad : BitVec 64
  pend : List Producer
  rotCount : Nat
  rot : Option Rotation
  active : Bool
  entered : Nat
  keepUntil : Nat
  yielded : Bool
  blocked : Bool
  deriving DecidableEq, Repr

/-- Live threads that wait in an instruction whose condition does not hold yet (R20, R87, R228, R263, R266, R276, R281, R282,
R286): the LANEs, the instruction, its word and its PC, the issue order, and the clock at issue; `n` is what the wait needs
besides (the longest sleep). Threads asleep stand past their SLEEP, the others at their instruction. -/
structure Wait where
  lanes : Lanes
  pc : Pc
  instr : Instr
  insn : Insn
  seq : Nat
  since : Nat
  n : Nat
  deriving DecidableEq, Repr

/-- Threads gathering at a WAITANY (R148) or at a collective matrix instruction (R287): those that arrived with a true guard
and wait, and those that fell through with a false one. -/
structure Gather where
  pc : Pc
  instr : Instr
  insn : Insn
  waiting : Lanes
  passed : Lanes
  deriving DecidableEq, Repr

/-- A gang's next collective, issued and not started (R287): the threads that wait, A and C under R257, the member's range
guard of an MSTA and whether its GSTAT has been written since (R57), and the words of its B quarter by thread (R288). -/
structure Issued where
  pc : Pc
  instr : Instr
  insn : Insn
  waiting : Lanes
  a : Nat
  c : Nat
  quarter : List (List Nat)
  guard : RangeGuard
  cleared : Bool
  deriving DecidableEq, Repr

/-- Where a copy use stands (R276, R341 to R343). -/
inductive UseState where
  | gathering | running | paused
  deriving DecidableEq, Repr

/-- One part of a copy use: its number, its gang (key, handle as it stood, gang index, open level), its part row. -/
structure UsePart where
  j : Nat
  key : Nat
  handle : BitVec 16
  gang : Nat
  level : Nat
  row : W128
  deriving DecidableEq, Repr

/-- A chunk that has been read (R341, R343): its number, its elements (destination address, value, poisoned), the reads that
another device has not answered yet (device, sequence number, element), those that failed and are to be made again (element, address),
whether its writes have been issued, and whether a REDUCE chunk's elements of this device have been applied, once and for all. -/
structure ChunkBuf where
  n : Nat
  elems : List (Int × Nat × Bool)
  pending : List (Nat × Nat × Nat)
  unread : List (Nat × Int)
  written : Bool
  applied : Bool
  deriving DecidableEq, Repr

/-- A use of a copy record (R273, R276 to R279, R341 to R343): its stamp, the record's offset on its core, the copy of the record,
its block, its parts, the chunks read, the chunks acknowledged, those that a fault stops until the use is resumed, whether SRC_DONE has been signalled, and what its status will
tell. -/
structure CopyUse where
  stamp : Nat
  off : Nat
  record : BitVec 512
  blk : Nat
  state : UseState
  parts : List UsePart
  bufs : List ChunkBuf
  acked : NatSet
  stopped : NatSet
  srcDone : Bool
  poison : Bool
  lost : Bool
  deriving DecidableEq, Repr

/-- GSTATE of R317. -/
inductive GState where
  | free | placed | running | stopping | halted | ended
  deriving DecidableEq, Repr

/-- A resident gang: `cpys` holds the CPYs that wait for a use's slot: number of the wait, core, and the use as it will begin or the
part that it will name (R275, R276, R280); its `gathers` and `collects` hold one entry for each WAITANY and each collective matrix instruction at
which threads stand, `issued` the collectives issued and not started, `quad` and `phys` the quadrant (the first of two) and the
physical slices of its core on which it is placed (R17), `swrites` the latest SWRITE of a gang register with its clock and the
highest LANE of its sub-gang (R52), `wish` the set id with which its MBIND
waits (R286), `stalled` the threads that stand at one and are not yet
counted as arrived, `heldResumes` the threads whose resume waits for the gang's delivery (R30), `flushFrom` the cores that have not yet
acknowledged a flush, each with the epoch that began there (R17, R18, R43, R52 to R57, R131, R144 to R150, R280, R285 to R287, R312, R317, R377). -/
structure Gang where
  blk : Nat
  gidx : Nat
  width : Nat
  vregs : Nat
  lid : Nat
  asid : Nat
  root : Nat
  gstate : GState
  quad : Nat
  phys : List Nat
  threads : List Thread
  slices : List SliceState
  slots : Tab EventSlot
  epend : BitVec 16
  emask : BitVec 16
  evslot : BitVec 5
  deadline : W64
  deadStage : W32
  swrites : List (SReg × Nat × Nat)
  levels : Tab Level
  openLevel : Nat
  guards : Tab RangeGuard
  binding : Option (Nat × Nat)
  wish : Option Nat
  waits : List Wait
  cpys : List (Nat × Nat × CopyUse)
  gathers : List Gather
  parked : Option Gather
  collects : List Gather
  issued : List Issued
  stalled : Lanes
  heldResumes : Lanes
  recordOut : Bool
  failedStores : Nat
  epoch : Nat
  flushFrom : List (Nat × Nat)
  restoring : Bool
  deriving DecidableEq, Repr

/-! ## Blocks and cores -/

/-- One half of a block's scratchpad (R83 to R88, R404): bytes, full granules, and the 8-byte words that hold a mark or an error not yet
found. -/
structure Scratch where
  mem : Mem
  full : NatSet
  poison : NatSet
  latent : NatSet
  deriving DecidableEq, Repr

/-- An arrival journal's entry (R359): a barrier arrival, a mailbox push, a batch completion. -/
inductive JEntry where
  | arrive (off : Nat) (e n : Nat) (delta : Int)
  | push (mbx : Nat) (entry : W128)
  | batch (gang level : Nat) (use : Nat) (status : Nat)
  deriving DecidableEq, Repr

/-- An accumulator tile (R47, R97): element 64m + n, the MMAs in flight into it, the poison bit. -/
structure Tile where
  data : Tab W32
  busy : Nat
  poison : Bool
  deriving DecidableEq, Repr

/-- Where a block stands (R32, R40, R357). -/
inductive BlockState where
  | waiting | resident | evicting | saved | restoring | retired | destroyed
  deriving DecidableEq, Repr

/-- A block (R33 to R35, R43, R83, R93, R359): `tiles` holds a saved block's tiles by 16 × side + tile, `claims` which of its cores'
tiles it had claimed (R285, R357), `moved` that it leaves its core for one whose tiles are free (R285). -/
structure Block where
  lid : Nat
  bidx : Nat
  ngang : Nat
  width : Nat
  vregs : Nat
  pair : Bool
  scratchSize : Nat
  mailboxes : Nat
  core : Nat
  even : Scratch
  odd : Scratch
  edview : Tab W32
  gangs : Tab Nat
  endedGangs : NatSet
  state : BlockState
  since : Nat
  barea : Nat
  tiles : Tab Tile
  claims : BitVec 2
  moved : Bool
  journal : List JEntry
  deriving DecidableEq, Repr

/-- An L1 data-cache line (R102, R126): its 128 bytes, and the slot and counter it is tagged with in an edition region of an address space (R129). -/
structure L1Line where
  data : BitVec 1024
  tag : Option (Nat × Nat × W32)
  deriving DecidableEq, Repr

/-- A TLB entry (R323, R328): ASID, first virtual page of 256 KiB, level and leaf. -/
structure TlbEntry where
  asid : Nat
  vpn : Nat
  level : Nat
  pte : W64
  deriving DecidableEq, Repr

/-- A walk-cache entry (R328): ASID and root, the virtual address bits above the table's index, the table it leads to. -/
structure WalkEntry where
  asid : Nat
  root : Nat
  level : Nat
  upper : Nat
  table : Nat
  deriving DecidableEq, Repr

/-- An MMA that has started and not accumulated (R289): tile, format codes, the A image's rows, the scales, the four quarters
by member, thread and register, and the quadrant in whose products a residue has not matched (R407). -/
structure PendingMma where
  tile : Nat
  ta : Nat
  tb : Nat
  a : List (List Nat)
  scaleA : List Nat
  scaleB : List Nat
  b : List (List (List Nat))
  bad : Bool
  residue : Option Nat
  deriving DecidableEq, Repr

/-- A class of a call record (R152, R320). -/
structure CallClass where
  number : W32
  args : List W32
  lanes : Lanes
  deriving DecidableEq, Repr

/-- A call record (R320): token, calling gang and its generation, and the classes; `left` holds the LANEs not yet resumed, or
the classes not yet pushed of a SYSC.A. -/
structure CallRec where
  token : Nat
  key : Nat
  gen : BitVec 8
  async : Bool
  mbx : Nat
  dreg : Nat
  pc : Pc
  classes : List CallClass
  left : Lanes
  deriving DecidableEq, Repr

/-- Power of a core (R351, R362): up, gated, or rising. -/
inductive Power where
  | up | gated | rising
  deriving DecidableEq, Repr

/-- A compute core (R28, R47, R102, R158, R276, R285, R320, R328, R366): `named` holds the tiles that the instructions of each matrix set
have named (R286), `fetchFail` the words of text that another device
did not deliver, with the status of its answer (R377). -/
structure CoreState where
  l1 : Tab L1Line
  icache : Tab W32
  fetchFail : Tab Nat
  tlb : List TlbEntry
  tiles : Tab Tile
  owner : Option Nat
  sets : Tab (List Nat)
  named : Tab NatSet
  mmas : List PendingMma
  uses : Tab CopyUse
  calls : List CallRec
  power : Power
  powerSince : Nat
  flushes : List ((Nat × Nat × Nat) × Nat)
  deriving DecidableEq, Repr

/-! ## Clusters and porters -/

/-- Kinds of delivery entry (R311). -/
inductive DqKind where
  | trap | brk | preempt | call | engine | place
  deriving DecidableEq, Repr

/-- A delivery entry (R311). -/
structure DqEntry where
  kind : DqKind
  handle : BitVec 16
  cause : BitVec 7
  seq : W32
  lanes : Lanes
  arg0 : W64
  arg1 : W64
  deriving DecidableEq, Repr

/-- A source that could not enter the delivery queue (R312): the entry it will make. -/
inductive HeldSrc where
  | trap (key : Nat) (pc : Pc) (insn : Insn) (faults : List LaneFault)
  | call (key : Nat) (lanes : Lanes) (pc : Pc) (instr : Instr) (insn : Insn)
  | engine (core use : Nat) (handle : BitVec 16)
  | dist (e : DqEntry)
  deriving DecidableEq, Repr

/-- Privilege modes of the porter (R309). -/
inductive PMode where
  | user | supervisor | machine
  deriving DecidableEq, Repr

/-- A message of a porter channel (R319): sender's cluster and 64 bytes. -/
structure Message where
  sender : Nat
  data : BitVec 512
  deriving DecidableEq, Repr

/-- An invalidation in flight (R332): ticket, device-wide or not, ASID, every ASID, G entries, first page, pages. -/
structure Tlbi where
  ticket : Nat
  dev : Bool
  asid : Nat
  all : Bool
  glob : Bool
  vpn : Nat
  pages : Nat
  deriving DecidableEq, Repr

/-- A porter (R309, R310, R315, R331): the RV64 registers, the privileged state of the RISC-V specifications that its traps use
(log 31), the device CSRs, the operand in another device's memory that the instruction at `pc` has transferred: address and
data, the parcels of its text that other devices have delivered: address, status and data, and its length in bytes. -/
structure Porter where
  x : Tab W64
  f : Tab W64
  pc : W64
  mode : PMode
  mstatus : W64
  mepc : W64
  mcause : W64
  mtval : W64
  mtvec : W64
  mscratch : W64
  medeleg : W64
  mideleg : W64
  mie : W64
  mip : W64
  mcounteren : W64
  sepc : W64
  scause : W64
  stval : W64
  stvec : W64
  sscratch : W64
  scounteren : W64
  satp : W64
  stimecmp : W64
  menvcfg : W64
  senvcfg : W64
  minstret : W64
  fcsr : BitVec 8
  reservation : Option Nat
  ptroot : W64
  pasid : W64
  pien : W64
  pfrbase : W64
  pstat : BitVec 4
  tlbiasid : W64
  tlbiva : W64
  tlbilen : W64
  ticket : W32
  done : W32
  tlbis : List Tlbi
  tlb : List TlbEntry
  buffer : Option (Nat × Nat)
  parcels : List (Nat × Nat × Nat)
  len : Nat
  deriving DecidableEq, Repr

/-- A cluster: its porter, delivery queue (R311, R312), channels (R319), TLB and walk cache (R328). -/
structure Cluster where
  porter : Porter
  dq : List DqEntry
  nextSeq : W32
  held : List HeldSrc
  channels : Tab (List Message)
  tlb : List TlbEntry
  walks : List WalkEntry
  nextToken : Nat
  deriving DecidableEq, Repr

/-! ## Walks -/

/-- How a walk ends: with a leaf and its level, with a cause and the level at which it stopped, or not yet (R324, R329). -/
inductive WalkEnd where
  | leaf (pte level : Nat)
  | fault (c : Cause) (level : Nat)
  | later
  deriving DecidableEq, Repr

/-- A walk in flight that has asked another device for an entry (R324, R329): its cluster (the number past the last for the
distributor), ASID, root and 256 KiB page; its number, the level of the entry, the tables it went through, and the answer once it
has come: status and entry. -/
structure PendingWalk where
  cl : Nat
  asid : Nat
  root : Nat
  page : Nat
  id : Nat
  level : Nat
  path : List (Nat × Nat)
  got : Option (Nat × Nat)
  deriving DecidableEq, Repr

/-- A walk that has ended in the present step: the misses of the step that joined it take its one outcome (R329). -/
structure WalkDone where
  cl : Nat
  asid : Nat
  root : Nat
  page : Nat
  outcome : WalkEnd
  deriving DecidableEq, Repr

/-! ## Memory -/

/-- A placed monitor (R268): its L2 slice, the gang and event slot, the description, and whether it has fired. -/
structure Monitor where
  slice : Nat
  key : Nat
  slot : Nat
  desc : MonDesc
  fired : Bool
  deriving DecidableEq, Repr

/-- Memory and its homes (R101, R118, R268, R326, R369, R404, R405): the bytes of HBM and of host memory by physical address,
poisoned atoms and atoms whose next read finds an error, the logged-atom tables by slice, the halves the host may hold,
committed stores not yet performed, the reduction queues, the condition monitors, the lines of host memory whose accesses the CXL link
completes with an error (R327, R370), and the committed stores of LANEs whose instruction a lower LANE has still to commit (R81). -/
structure MemState where
  bytes : Mem
  poison : NatSet
  latent : NatSet
  logged : Tab (List Nat)
  hostHalves : NatSet
  inflight : List StoreEntry
  redq : List StoreEntry
  monitors : List Monitor
  hostErrs : NatSet
  topped : List StoreEntry
  deriving DecidableEq, Repr

/-- An edition region (R123): address space, slot, first line and lines of virtual address, round counter. -/
structure Region where
  asid : Nat
  slot : Nat
  base : Nat
  len : Nat
  counter : W32
  deriving DecidableEq, Repr

/-! ## The distributor -/

/-- A launch (R37, R178, R346 to R349): its record and queue, descriptor and parameter bytes, whether its validation is over, the blocks
admitted and retired, its status once it has ended, whether R348 assigns LOST or REMOTE, and since when no core can take its next
block (R354). -/
structure Launch where
  queue : Nat
  record : BitVec 512
  desc : BitVec 512
  params : Mem
  checked : Bool
  nextBlock : Nat
  retired : Nat
  status : Option Nat
  lost : Bool
  remote : Bool
  stuck : Option Nat
  deriving DecidableEq, Repr

/-- An outstanding request of the distributor (R356): tag, PREEMPT or PLACE, the gang (block and gang index), WHOLE. -/
structure DistRequest where
  tag : Nat
  place : Bool
  blk : Nat
  gidx : Nat
  whole : Bool
  deriving DecidableEq, Repr

/-- A gang that is not resident (R353, R356, R358, R360): its context as saved, its save area, the core it left, and whether
the save and the answer have been made. -/
structure SavedGang where
  gang : Gang
  area : Nat
  core : Nat
  answered : Bool
  batch : List JEntry
  deriving DecidableEq, Repr

/-- A completion block that the distributor still has to write (R349): the launch, its queue and status, and how far it has come: 0 the
status dword is to be written, 1 its write is on its way, 2 the addition is to be made, 3 it is on its way; once another device holds
the block, that device and the offset of DONE there. -/
structure Completion where
  lid : Nat
  queue : Nat
  status : Nat
  stage : Nat
  dev : Nat
  off : Nat
  deriving DecidableEq, Repr

/-- The distributor (R345 to R363): queues of launches by identifier, counters, registers, requests, saved gangs, the guards of
R354 and the rooms that evictions make under R355 (launch, block, core), the dwords staged by each writer, the results of JPUSH, the
32-byte pieces of descriptors and parameters that other devices have delivered to the validation under way (address, status, data),
and the completion blocks still to be written in other devices. -/
structure Dist where
  queues : Tab (List Nat)
  nextId : W32
  launches : Tab Launch
  dropped : Tab Nat
  fragwait : Nat
  arrdrop : Nat
  encore : BitVec 192
  nextTag : Nat
  requests : List DistRequest
  saved : List SavedGang
  guards : List (Nat × Nat × Nat)
  claims : List (Nat × Nat × Nat)
  staged : Tab (Tab W64)
  jstat : Tab Nat
  lastQueue : Tab Nat
  pieces : List (Nat × Nat × Nat)
  dones : List Completion
  deriving DecidableEq, Repr

/-! ## Host, link and complex -/

/-- A Pamon port (R373, R381). -/
structure Port where
  lanes : Nat
  up : Bool
  crcErr : Nat
  deriving DecidableEq, Repr

/-- An Ethernet queue pair (R380, R381): registers, the message state of NOTIFY, the bytes of the frame being sent and whether a descriptor
of it was malformed, and the frames sent, each with its FCS (R379). -/
structure QueuePair where
  txBase : Nat
  rxBase : Nat
  cfg : Nat
  txTail : Nat
  txHead : Nat
  rxTail : Nat
  rxHead : Nat
  rxDrop : Nat
  waiting : Bool
  txPart : List Byte
  txBad : Bool
  sent : List (List Byte)
  deriving DecidableEq, Repr

/-- How a request from outside completed: the host's latest CXL.mem request (R367 to R369, R405), a drive's latest DMA (R378). -/
inductive HostReply where
  | none | data (x : Nat) | poison | written | error
  deriving DecidableEq, Repr

/-- A drive port (R378, R381): registers, MSI-X messages held, the completion of its latest DMA. -/
structure Drive where
  width : Nat
  up : Bool
  dmaBase : Nat
  dmaSize : Nat
  irqChan : Nat
  held : List Message
  reply : HostReply
  deriving DecidableEq, Repr

/-- What issued an outstanding remote request (R376, R377): a porter's access or fetch, which waits for it, a thread's producer, a
committed store of a gang, a core's fill of an L1 line, a chunk of an engine use, a launch's completion block, a core's fetch of a word of
text, a walk's entry, a piece of a descriptor or of parameters, or a drive's DMA; `lv` is the level of the leaf (R339, R342). -/
inductive RemoteSource where
  | porter (cl : Nat) (rd : Option (BitVec 5)) (fp : Bool) (w : Nat) (unsigned : Bool) (va : Nat)
  | buffer (cl va pa data : Nat) (write : Bool)
  | parcel (cl pa : Nat)
  | load (key lane id va lv : Nat)
  | store (tag : Nat × Nat × Nat) (lane epoch : Nat)
  | fill (core asid va pa : Nat)
  | chunk (core use n : Nat) (va : Int) (lv : Nat)
  | done (lid : Nat)
  | fetch (core pa : Nat)
  | walk (id : Nat)
  | piece (pa : Nat)
  | drive (d : Nat)
  deriving DecidableEq, Repr

/-- An outstanding remote request (R376): sequence number, offset, operation, source, port, clock when last sent and when first
sent; `left` holds the members of a group that have not acknowledged it (R375). -/
structure RemoteReq where
  dev : Nat
  seq : Nat
  off : Nat
  op : RemoteOp
  src : RemoteSource
  port : Nat
  sent : Nat
  first : Nat
  left : List Nat
  deriving DecidableEq, Repr

/-- A request received (R374 to R376): the device it comes from, the device or group it names, its number, operation and offset. -/
structure Incoming where
  src : Nat
  dest : Nat
  seq : Nat
  op : RemoteOp
  off : Nat
  deriving DecidableEq, Repr

/-- The link (R373 to R377): ports, routes, requests, sequence numbers to each device or group, those applied of each device by 4,096 × the
destination it named + the device, the answers sent (destination, device, number, status, data), requests received and not yet served, the stamps of reduce chunks applied (device, core, use,
epoch, chunk, address), and the members of each group as the fabric has them. -/
structure Link where
  ports : Tab Port
  droute : Tab (BitVec 16)
  mcroute : Tab (BitVec 16)
  mcjoin : BitVec 256
  devNum : BitVec 12
  devValid : Bool
  rwbase : Nat
  rwsize : Nat
  requests : List RemoteReq
  nextSeq : Tab Nat
  applied : Tab NatSet
  stamps : List (Nat × Nat × Nat × Nat × Nat × Nat)
  incoming : List Incoming
  answers : List (Nat × Nat × Nat × Nat × Nat)
  members : Tab NatSet
  deriving DecidableEq, Repr

/-- A stream's state (R401, R402, R414). -/
inductive StreamState where
  | off | run | stopped | down
  deriving DecidableEq, Repr

/-- One direction of a Pamon stream (R401, R402): CUR and NEXT with their salts, the flit counter, the key phase, consecutive
tag failures, the clock at which it stopped, whether its KEYLOW entry has been made. -/
structure Stream where
  state : StreamState
  cur : BitVec 256
  salt : W32
  next : Option (BitVec 256 × W32)
  used : Nat
  phase : Bool
  tagFails : Nat
  since : Nat
  low : Bool
  deriving DecidableEq, Repr

/-- The registers of R381 that the host reaches, the staging window of R385, the base that the host has given the HDM decoder of function 0
(R367), and the completion of its latest CXL.mem request. -/
structure HostRegs where
  ready : BitVec 10
  fails : Nat
  minimal : Bool
  reason : Byte
  source : Nat
  bootcfg : BitVec 12
  xipbase : Nat
  hwbase : Nat
  hwsize : Nat
  window : Mem
  chunkOff : W32
  chunkLen : W32
  total : W32
  busy : Bool
  taken : Bool
  refused : Bool
  hdmBase : Nat
  reply : HostReply
  deriving DecidableEq, Repr

/-! ## Trust and reliability -/

/-- Where the bring-up stands (R382, R387, R388, R394, R396): held in reset, scrubbing, stopped after a failed scrub, boot step
1 to 5 in progress, booted, minimal mode. -/
inductive BootPhase where
  | held | scrub | alert | step (n : Nat) | booted | minimal
  deriving DecidableEq, Repr

/-- The SPDM responder (R389): how far the connection has come, and the session. -/
inductive SpdmState where
  | idle | version | capabilities | algorithms | exchanging | session
  deriving DecidableEq, Repr

/-- The error-injection registers (R415, R416). -/
structure Injection where
  space : Nat
  any : Bool
  core : Nat
  addr : Nat
  armed : Bool
  fired : Bool
  fcore : Nat
  deriving DecidableEq, Repr

/-- Key slots, fuses and measurement (R386 to R393, R396 to R403): slot hashes as they stood at release, the fuses they take
effect from, revocation, security versions, MEAS registers, PRoT pins and blocks, the scrub record, SPDM state and its
pending requests and last answer, IDE keys, the boot phase with its clock, the image being taken. -/
structure Trust where
  phase : BootPhase
  phaseSince : Nat
  pinScrub : Bool
  pinConf : Bool
  pinRecovery : Bool
  conf : Bool
  prevConf : Bool
  nextConf : Bool
  scrubbed : Bool
  recovery : Bool
  alert : Bool
  stageSlot : Nat
  slots : Tab (BitVec 256)
  revoked : NatSet
  fuses : Tab (BitVec 256)
  fuseRevoked : NatSet
  svn : Tab Nat
  runSvn : Tab Nat
  meas : Tab (BitVec 256)
  lease : BitVec 512
  bootBlock : Option W128
  inbox : List (List Byte)
  outbox : List (List Byte)
  spdm : SpdmState
  ideKeys : Tab (BitVec 256)
  scrubRecord : Mem
  scrubFail : Nat
  scrubRetired : BitVec 192
  scrubSpared : Nat
  image : Mem
  imageLen : Option Nat
  sourceTry : Nat
  hbmKeyed : Bool
  pssel : BitVec 13
  streams : Tab Stream
  deriving DecidableEq, Repr

/-- Reliability (R404 to R412, R414, R415): the error log's registers, when each unit last made a CE entry and the correctable
errors it has counted since, the poison policy, sparing and retirement. -/
structure Reliability where
  errBase : Nat
  errLog2 : Nat
  errChan : Nat
  errHead : Nat
  errTail : Nat
  errOvf : Nat
  errSeq : Nat
  errQuiet : Bool
  ceLast : Tab Nat
  ceCount : Tab Nat
  rowthr : Nat
  rowEvents : Tab Nat
  spareRows : Tab Nat
  spared : Tab Nat
  spareStat : Nat
  spareReq : Option (Nat × Nat × Nat)
  usedSpares : NatSet
  retiring : NatSet
  retiredCores : NatSet
  retiredChannels : NatSet
  nextRetired : NatSet
  hbmSize : Nat
  inj : Injection
  deriving DecidableEq, Repr

/-! ## The machine -/

/-- A register write that has committed and whose row of the table comes next (R345): writer, register and dwords. -/
structure Commit where
  writer : Writer
  reg : Nat
  index : Nat
  data : List W64
  deriving DecidableEq, Repr

/-- What the agenda names next: an issue of the sub-gang that holds a slice, a porter's instruction, a step with no encoding,
an L1 line dropped, an edition region declared or released (R123, R124), a message to the responder, an image delivered by the
source being tried, the PRoT's pins (log 3), a residue that does not match in a quadrant's products of a core's earliest MMA
(R407), a line of host memory whose accesses the link completes with an error from now on, or no longer, or an atom of it that is poisoned
(R327), a read of the CXL DVSEC by the host, or the base that it gives the HDM decoder (R367, R368), an entry of a slice's tracker evicted
(R369), a member of a group that joins or leaves it (R375), a use's end reported by another device (R376), or the reset of a core, which
destroys the contexts on it (R348, R362, R366). -/
inductive Act where
  | issue (k slice : Nat)
  | porter (cl : Nat)
  | event (i : Instr)
  | dropLine (core line : Nat)
  | declare (asid slot first lines : Nat)
  | release (asid slot : Nat)
  | spdm (msg : List Byte)
  | i3c (msg : List Byte)
  | image (data : List Byte)
  | pins (scrub conf recovery : Bool)
  | residue (core quad : Nat)
  | hostError (pa : Nat) (poison : Bool)
  | dvsec
  | hdm (base : Nat)
  | evictHalf (half : Nat)
  | member (group dev : Nat) (joins : Bool)
  | useEnd (dev core use : Nat)
  | resetCore (core : Nat)
  deriving DecidableEq, Repr

/-- The sub-gang whose instruction executes: gang key, execution mask over its slices, PC, the word (R21, R23), and the number of its
issue. -/
structure Focus where
  key : Nat
  lanes : Lanes
  pc : Pc
  insn : Insn
  seq : Nat
  deriving DecidableEq, Repr

/-- A push of a JPUSH that the router holds for a core that is powering up (R362, R363): the core, the block and its mailbox, the entry,
and the writer, who then reads the result in JSTAT. -/
structure HeldPush where
  core : Nat
  blk : Nat
  mbx : Nat
  entry : W128
  writer : Nat
  deriving DecidableEq, Repr

/-- The state of the device. Gangs are keyed by 64 × core + slot (R314), blocks by 2^31 × LID + BIDX; cores, clusters and the
like that are not listed stand at their reset values. `agenda`, `freeCtr`, `seqCtr` and `focus` are the model's own: which
step comes next with the cycles it takes (log 3), the counters of the free values (log 8) and of issue order, and the
sub-gang an instruction acts for; `turn` whether the next choice is a round in which every agent takes each of its steps once (R41). `snaps` holds the context of a
halted gang as its latest SAVE wrote it (R317), `walking` the walks in flight that wait for another device, `walked` those that
ended in the present step (R329). -/
structure State where
  agenda : List (Nat × Act)
  freeCtr : Nat
  seqCtr : Nat
  turn : Bool
  clock : Nat
  focus : Focus
  commits : List Commit
  mem : MemState
  gangs : Tab Gang
  snaps : Tab Gang
  gens : Tab (BitVec 8)
  blocks : Tab Block
  cores : Tab CoreState
  clusters : Tab Cluster
  walking : List PendingWalk
  walked : List WalkDone
  regions : List Region
  kept : List (Nat × Nat × W32)
  routerHold : List HeldPush
  dist : Dist
  link : Link
  host : HostRegs
  pairs : Tab QueuePair
  drives : Tab Drive
  trust : Trust
  rel : Reliability
  deriving DecidableEq, Repr

/-! ## Reset -/

/-- A slice's scheduling and s registers at admission (R43). -/
def SliceState.fresh : SliceState := ⟨[], 0, [], 0, none, true, 0, 0, false, false⟩

/-- A thread at admission (R43), at its kernel's entry. -/
def Thread.fresh (entry : Pc) : Thread :=
  { v := [], empty := 0, bad := 0, p := 0x80, badP := 0, pc := entry, entries := [], loopd := 0, fstat := 0, clockH := 0, dstart := entry, dxm := 0
    dwm := 0, dext := 0, drc := 0, drl := 8, buf := [], pend := [], fences := 0, drain := false, solo := false, dloopd := 0
    dentries := [], due := none, tstate := .live, trap := ⟨0, false, 0⟩ }

def Scratch.fresh : Scratch := ⟨[], [], [], []⟩

/-- A range guard at admission (R43). -/
def RangeGuard.fresh : RangeGuard := ⟨0x7F800000, 0, 0, false⟩

def EventSlot.fresh : EventSlot := ⟨none, none⟩
def Level.fresh : Level := ⟨.empty, []⟩
def Tile.fresh : Tile := ⟨[], 0, false⟩

def CoreState.fresh : CoreState := ⟨[], [], [], [], [], none, [], [], [], [], [], .up, 0, []⟩

/-- A porter at reset (R309, R310, R331; the registers that no rule gives a value are log 32's). -/
def Porter.fresh : Porter :=
  { x := [], f := [], pc := 0, mode := .machine, mstatus := 0, mepc := 0, mcause := 0, mtval := 0, mtvec := 0, mscratch := 0
    medeleg := 0, mideleg := 0, mie := 0, mip := 0, mcounteren := 0, sepc := 0, scause := 0, stval := 0, stvec := 0
    sscratch := 0, scounteren := 0, satp := 0, stimecmp := 0, menvcfg := 0, senvcfg := 0, minstret := 0, fcsr := 0, reservation := none, ptroot := 0
    pasid := 0, pien := 0, pfrbase := 0, pstat := 0, tlbiasid := 0, tlbiva := 0, tlbilen := 0, ticket := 0, done := 0
    tlbis := [], tlb := [], buffer := none, parcels := [], len := 4 }

def Cluster.fresh : Cluster := ⟨.fresh, [], 0, [], [], [], [], 0⟩
def Port.fresh : Port := ⟨0, false, 0⟩
def QueuePair.fresh : QueuePair := ⟨0, 0, 0, 0, 0, 0, 0, 0, false, [], false, []⟩
def Drive.fresh : Drive := ⟨0, false, 0, 0, 0, [], .none⟩
def Stream.fresh : Stream := ⟨.off, 0, 0, none, 0, false, 0, 0, false⟩

def MemState.fresh : MemState := ⟨[], [], [], [], [], [], [], [], [], []⟩

def Dist.fresh : Dist :=
  { queues := [], nextId := 0, launches := [], dropped := [], fragwait := 100, arrdrop := 0, encore := 0, nextTag := 0
    requests := [], saved := [], guards := [], claims := [], staged := [], jstat := [], lastQueue := [], pieces := [], dones := [] }

def Link.fresh : Link :=
  { ports := [], droute := [], mcroute := [], mcjoin := 0, devNum := 0xFFF, devValid := false, rwbase := 0, rwsize := 0
    requests := [], nextSeq := [], applied := [], stamps := [], incoming := [], answers := [], members := [] }

def HostRegs.fresh : HostRegs :=
  { ready := 0, fails := 0, minimal := false, reason := 0, source := 0, bootcfg := 0, xipbase := 0, hwbase := 0, hwsize := 0
    window := [], chunkOff := 0, chunkLen := 0, total := 0, busy := false, taken := false, refused := false, hdmBase := 0, reply := .none }

def Trust.fresh : Trust :=
  { phase := .held, phaseSince := 0, pinScrub := false, pinConf := false, pinRecovery := false, conf := false
    prevConf := false, nextConf := false, scrubbed := false, recovery := false, alert := false, stageSlot := 0, slots := [], revoked := []
    fuses := [], fuseRevoked := [], svn := [], runSvn := [], meas := [], lease := 0, bootBlock := none, inbox := [], outbox := []
    spdm := .idle, ideKeys := [], scrubRecord := [], scrubFail := 0, scrubRetired := 0, scrubSpared := 0, image := []
    imageLen := none, sourceTry := 0, hbmKeyed := false, pssel := 0, streams := [] }

def Reliability.fresh : Reliability :=
  { errBase := 0, errLog2 := 0, errChan := 0, errHead := 0, errTail := 0, errOvf := 0, errSeq := 0, errQuiet := false, ceLast := [], ceCount := []
    rowthr := 2, rowEvents := [], spareRows := [], spared := [], spareStat := 0, spareReq := none, usedSpares := []
    retiring := [], retiredCores := [], retiredChannels := [], nextRetired := [], hbmSize := 0x6000000000
    inj := ⟨0, false, 0, 0, false, false, 0⟩ }

/-- The device right after reset: the platform root of trust holds it (R388), nothing is resident, every register stands at
the value its table gives for reset. -/
def State.reset : State :=
  { agenda := [], freeCtr := 0, seqCtr := 0, turn := false, clock := 0, focus := ⟨0, 0, 0, 0, 0⟩, commits := [], mem := .fresh, gangs := []
    snaps := [], gens := [], blocks := [], cores := [], clusters := [], walking := [], walked := [], regions := [], kept := [], routerHold := [], dist := .fresh
    link := .fresh, host := .fresh, pairs := [], drives := [], trust := .fresh, rel := .fresh }

/-! ## Stops -/

/-- Why the machine stops with a fault. No step of this model raises one: every access outside the address space takes the
cause or the exception the spec names for it. -/
inductive Fault where
  /-- Raised by no step (safe). -/
  | unreachable
  deriving DecidableEq, Repr

/-- Why a step has no meaning. -/
inductive Refusal where
  /-- Raised by an arm of exec that has no meaning yet (safe). -/
  | notModelled (mnemonic : String)
  deriving DecidableEq, Repr

end Sys2Proof.Machine
end

