-- ==== Sys2Proof/Machine/Access.lean ====
section
/-! DEFINITION. Access to the parts of the state: gangs, threads, cores, clusters and blocks; registers; draft
tracking, commit and discard; the loop stack. -/

namespace Sys2Proof.Machine

/-! ## Access -/

def State.gang? (s : State) (k : Nat) : Option Gang := Tab.get? s.gangs k
def State.setGang (s : State) (k : Nat) (g : Gang) : State := { s with gangs := Tab.set s.gangs k g }
def State.modGang (s : State) (k : Nat) (f : Gang → Gang) : State := { s with gangs := Tab.update s.gangs k f }
def State.core (s : State) (c : Nat) : CoreState := Tab.getD s.cores c .fresh
def State.setCore (s : State) (c : Nat) (x : CoreState) : State := { s with cores := Tab.set s.cores c x }
def State.modCore (s : State) (c : Nat) (f : CoreState → CoreState) : State := s.setCore c (f (s.core c))
def State.cluster (s : State) (cl : Nat) : Cluster := Tab.getD s.clusters cl .fresh
def State.setCluster (s : State) (cl : Nat) (x : Cluster) : State := { s with clusters := Tab.set s.clusters cl x }
def State.modCluster (s : State) (cl : Nat) (f : Cluster → Cluster) : State := s.setCluster cl (f (s.cluster cl))
def State.block? (s : State) (b : Nat) : Option Block := Tab.get? s.blocks b
def State.setBlock (s : State) (b : Nat) (x : Block) : State := { s with blocks := Tab.set s.blocks b x }
def State.modBlock (s : State) (b : Nat) (f : Block → Block) : State := { s with blocks := Tab.update s.blocks b f }
def State.launch? (s : State) (l : Nat) : Option Launch := Tab.get? s.dist.launches l
def State.modMem (s : State) (f : MemState → MemState) : State := { s with mem := f s.mem }

/-- A launch's flag of R348 set. -/
def State.modLaunch (s : State) (l : Nat) (f : Launch → Launch) : State :=
  { s with dist := { s.dist with launches := Tab.update s.dist.launches l f } }

/-- Every context of a gang updated: resident, as its latest SAVE wrote it, or evicted (R317, R353). -/
def State.mapContexts (s : State) (f : Gang → Gang) : State :=
  { s with
    gangs := s.gangs.map fun (g : Nat × Gang) => (g.1, f g.2), snaps := s.snaps.map fun (g : Nat × Gang) => (g.1, f g.2)
    dist := { s.dist with saved := s.dist.saved.map fun (x : SavedGang) => { x with gang := f x.gang } } }

/-- A free slot's gang: no thread. -/
def Gang.blank : Gang :=
  { blk := 0, gidx := 0, width := 0, vregs := 0, lid := 0, asid := 0, root := 0, gstate := .free, quad := 0, phys := [], threads := []
    slices := [], slots := [], epend := 0, emask := 0, evslot := 0x1F, deadline := 0, deadStage := 0, swrites := [], levels := []
    openLevel := 0, guards := [], binding := none, wish := none, waits := [], cpys := [], gathers := [], parked := none, collects := [], issued := []
    stalled := 0, heldResumes := 0, recordOut := false, failedStores := 0, epoch := 0, flushFrom := [], restoring := false }

/-- The core and the cluster of a gang key (R314). -/
def coreOf (k : Nat) : Nat := k / 64
def clusterOf (k : Nat) : Nat := k / 64 / 4
/-- The table key of block BIDX of launch LID. -/
def blockKey (lid bidx : Nat) : Nat := lid * 2 ^ 31 + bidx

/-- A gang's flush tag (R366). -/
def Gang.tag (g : Gang) : Nat × Nat × Nat := (g.lid, g.blk % 2 ^ 31, g.gidx)

/-- The generation of a gang slot (R314). -/
def State.gen (s : State) (k : Nat) : BitVec 8 := Tab.getD s.gens k 0

/-- The handle of a gang (R314). -/
def State.handle (s : State) (k : Nat) : BitVec 16 :=
  BitVec.ofNat 16 (k % 64 + 64 * (k / 64 % 4) + 256 * (s.gen k).toNat)

def Gang.thread (g : Gang) (t : Nat) : Thread := g.threads.getD t (Thread.fresh 0)
def Gang.slice (g : Gang) (i : Nat) : SliceState := g.slices.getD i .fresh
def Gang.setThread (g : Gang) (t : Nat) (x : Thread) : Gang := { g with threads := g.threads.set t x }
def Gang.modThread (g : Gang) (t : Nat) (f : Thread → Thread) : Gang := g.setThread t (f (g.thread t))
def Gang.setSlice (g : Gang) (i : Nat) (x : SliceState) : Gang := { g with slices := g.slices.set i x }
def Gang.modSlice (g : Gang) (i : Nat) (f : SliceState → SliceState) : Gang := g.setSlice i (f (g.slice i))
/-- Every thread of a lane set mapped. -/
def Gang.modLanes (g : Gang) (m : Lanes) (f : Thread → Thread) : Gang :=
  { g with threads := g.threads.mapIdx fun i t => if m.getLsbD i then f t else t }

/-- The LANEs of a set below a width, ascending. -/
def lanesOf (m : Lanes) (w : Nat) : List Nat := (List.range w).filter fun i => m.getLsbD i
/-- A set of LANEs from a list. -/
def laneSet (l : List Nat) : Lanes := l.foldl (fun m i => m ||| BitVec.twoPow 64 i) 0
/-- The LANEs for which a predicate holds. -/
def lanesWhere (w : Nat) (f : Nat → Bool) : Lanes := laneSet ((List.range w).filter f)

/-! ## Launch records and kernel descriptors -/

/-- Fields of the launch record (R347). -/
def Launch.kdesc (l : Launch) : Nat := l.record.toNat % 2 ^ 56
def Launch.param (l : Launch) : Nat := l.record.toNat / 2 ^ 64 % 2 ^ 56
def Launch.gx (l : Launch) : Nat := l.record.toNat / 2 ^ 128 % 2 ^ 32
def Launch.gy (l : Launch) : Nat := l.record.toNat / 2 ^ 160 % 2 ^ 32
def Launch.gz (l : Launch) : Nat := l.record.toNat / 2 ^ 192 % 2 ^ 32
def Launch.asid (l : Launch) : Nat := l.record.toNat / 2 ^ 224 % 2 ^ 16
def Launch.root (l : Launch) : Nat := l.record.toNat / 2 ^ 256 % 2 ^ 40
def Launch.done (l : Launch) : Nat := l.record.toNat / 2 ^ 320 % 2 ^ 56
/-- Fields of the kernel descriptor (R178). -/
def Launch.entryOff (l : Launch) : Nat := l.desc.toNat / 2 ^ 32 % 2 ^ 32
def Launch.gwidth (l : Launch) : Nat := l.desc.toNat / 2 ^ 64 % 2 ^ 8
def Launch.pair (l : Launch) : Bool := l.desc.toNat / 2 ^ 72 % 2 == 1
def Launch.progress (l : Launch) : Nat := l.desc.toNat / 2 ^ 73 % 4
def Launch.blockThreads (l : Launch) : Nat := l.desc.toNat / 2 ^ 80 % 2 ^ 16
def Launch.vregs (l : Launch) : Nat := l.desc.toNat / 2 ^ 96 % 2 ^ 9
def Launch.sregs (l : Launch) : Nat := l.desc.toNat / 2 ^ 105 % 2 ^ 7
def Launch.scratch (l : Launch) : Nat := l.desc.toNat / 2 ^ 128 % 2 ^ 32
def Launch.mailboxes (l : Launch) : Nat := l.desc.toNat / 2 ^ 160 % 2 ^ 5
def Launch.paramBytes (l : Launch) : Nat := l.desc.toNat / 2 ^ 176 % 2 ^ 16
def Launch.text (l : Launch) : Nat := l.desc.toNat / 2 ^ 192 % 2 ^ 56
/-- The entry PC (R178). -/
def Launch.entry (l : Launch) : Pc := BitVec.ofNat 56 (l.text + l.entryOff)

/-! ## Registers -/

/-- A v register; v255 reads zero (R45). -/
def Thread.readV (t : Thread) (i : Nat) : W32 := if 255 ≤ i then 0 else Tab.getD t.v i 0
/-- A v register written; writes to v255 are discarded (R45). -/
def Thread.writeV (t : Thread) (i : Nat) (x : W32) : Thread := if 255 ≤ i then t else { t with v := Tab.put t.v 0 i x, bad := t.bad &&& ~~~(BitVec.twoPow 256 i) }
/-- n words from v[i] upward, low word first (R44). -/
def Thread.readVs (t : Thread) (i n : Nat) : Nat :=
  (List.range n).foldr (fun j acc => (t.readV (i + j)).toNat + 2 ^ 32 * acc) 0
/-- n words written from v[i] upward. -/
def Thread.writeVs (t : Thread) (i n x : Nat) : Thread :=
  (List.range n).foldl (fun t j => t.writeV (i + j) (BitVec.ofNat 32 (x / 2 ^ (32 * j)))) t
/-- An s register of a slice; s63 reads zero (R45). -/
def SliceState.readS (x : SliceState) (i : Nat) : W32 := if 63 ≤ i then 0 else Tab.getD x.s i 0
def SliceState.writeS (x : SliceState) (i : Nat) (w : W32) : SliceState :=
  if 63 ≤ i then x else { x with s := Tab.put x.s 0 i w, bad := x.bad &&& ~~~(BitVec.twoPow 64 i) }
def SliceState.readSs (x : SliceState) (i n : Nat) : Nat :=
  (List.range n).foldr (fun j acc => (x.readS (i + j)).toNat + 2 ^ 32 * acc) 0
def SliceState.writeSs (x : SliceState) (i n v : Nat) : SliceState :=
  (List.range n).foldl (fun x j => x.writeS (i + j) (BitVec.ofNat 32 (v / 2 ^ (32 * j)))) x
/-- A predicate; p7 reads true (R45). -/
def Thread.readP (t : Thread) (i : Nat) : Bool := 7 ≤ i || t.p.getLsbD i
/-- A predicate written; writes to p7 are discarded (R45). -/
def Thread.writeP (t : Thread) (i : Nat) (b : Bool) : Thread :=
  if 7 ≤ i then t
  else { t with
    p := (t.p &&& ~~~(BitVec.twoPow 8 i)) ||| (if b then BitVec.twoPow 8 i else 0)
    badP := t.badP &&& ~~~(BitVec.twoPow 8 i) }

/-- Some of the n registers from v[i] upward is empty; v255 never is (R45). -/
def Thread.emptyAt (t : Thread) (i n : Nat) : Bool := (List.range n).any fun j => i + j < 255 && t.empty.getLsbD (i + j)
def Thread.setEmpty (t : Thread) (i n : Nat) : Thread :=
  { t with empty := (List.range n).foldl (fun e j => if i + j < 255 then e ||| BitVec.twoPow 256 (i + j) else e) t.empty }
def Thread.setFull (t : Thread) (i n : Nat) : Thread :=
  { t with empty := (List.range n).foldl (fun e j => e &&& ~~~(BitVec.twoPow 256 (i + j))) t.empty }

/-- The guard p[pred] XOR neg (R166). -/
def Thread.guard (t : Thread) (f : Fields) : Bool := (t.readP f.pred.toNat) != f.neg

/-! ## Drafts -/

/-- Tracked units (R134): v octets, s octets, the predicates, the loop stack. -/
structure Units where
  v : W32
  s : BitVec 8
  p : Bool
  l : Bool
  deriving DecidableEq, Repr

def Units.none : Units := ⟨0, 0, false, false⟩
def Units.union (a b : Units) : Units := ⟨a.v ||| b.v, a.s ||| b.s, a.p || b.p, a.l || b.l⟩
/-- The unit of v[i], and none for v255 (R45, R49). -/
def Units.ofV (i : Nat) : Units := ⟨if i < 255 then BitVec.twoPow 32 (i / 8) else 0, 0, false, false⟩
def Units.ofS (i : Nat) : Units := ⟨0, if i < 63 then BitVec.twoPow 8 (i / 8) else 0, false, false⟩
def Units.ofP (i : Nat) : Units := ⟨0, 0, i < 7, false⟩
def Units.loop : Units := ⟨0, 0, false, true⟩

/-- The units whose read-before-write bits are set (R49, R53). -/
def Thread.readUnits (t : Thread) : Units :=
  ⟨t.dxm, t.dext.extractLsb' 0 8, t.dext.getLsbD 16, t.dext.getLsbD 18⟩
/-- The units whose written bits are set. -/
def Thread.wroteUnits (t : Thread) : Units :=
  ⟨t.dwm, t.dext.extractLsb' 8 8, t.dext.getLsbD 17, t.dext.getLsbD 19⟩

/-- Two sets of units share a unit. -/
def Units.meets (a b : Units) : Bool := a.v &&& b.v != 0 || a.s &&& b.s != 0 || (a.p && b.p) || (a.l && b.l)
/-- The units of a that are not in b. -/
def Units.minus (a b : Units) : Units := ⟨a.v &&& ~~~b.v, a.s &&& ~~~b.s, a.p && !b.p, a.l && !b.l⟩

/-- The tracking bits set to given units: DXM, DWM and DEXT (R49, R53). -/
def Thread.setUnits (t : Thread) (x w : Units) : Thread :=
  { t with
    dxm := x.v, dwm := w.v
    dext := (BitVec.ofBool w.l ++ (BitVec.ofBool x.l ++ (BitVec.ofBool w.p ++ (BitVec.ofBool x.p ++ (w.s ++ x.s))))) }

/-- Step 1 of R134: an instruction that writes these units meets a boundary. -/
def Thread.boundary (t : Thread) (wr : Units) : Bool := wr.meets t.readUnits

/-- Steps 2 and 3 of R134. -/
def Thread.track (t : Thread) (rd wr : Units) : Thread :=
  let x := t.readUnits
  let w := t.wroteUnits
  t.setUnits (x.union (rd.minus w)) (w.union wr)

/-- Step 4 of R134: some unit was marked read-before-write by this instruction, or stood so, and is written by it. -/
def Thread.selfClash (t : Thread) (rd wr : Units) : Bool := (rd.minus t.wroteUnits).meets wr

/-- A draft begins at an address, with the loop stack as it stands (R132). -/
def Thread.beginDraft (t : Thread) (pc : Pc) : Thread := { t with dstart := pc, dloopd := t.loopd, dentries := t.entries }

/-- The thread's part of a commit (R139): the next draft begins at its first instruction, tracking and DRC clear. A fault that waited for
the commit stays due (R143). -/
def Thread.committed (t : Thread) (next : Pc) : Thread :=
  { t.beginDraft next with dxm := 0, dwm := 0, dext := 0, drc := 0, buf := [], drain := false, solo := false }

/-- The full/empty bits after cancelling producers (R46): their destinations return to full with the old values. -/
def Thread.cancel (t : Thread) : Thread :=
  { t.pend.foldl (fun t q => t.setFull q.reg q.words) t with pend := [] }

/-- A discard (R140), its DRC part apart: the loop stack is again what it was at DSTART (R132, R141). -/
def Thread.discarded (t : Thread) : Thread :=
  { t.cancel with
    pc := t.dstart, loopd := t.dloopd, entries := t.dentries, dxm := 0, dwm := 0, dext := 0, buf := [], drain := false, solo := false
    due := none }

/-! ## Loop stack -/

/-- The top entry, where the depth is not zero. -/
def Thread.top (t : Thread) : LoopEntry := Tab.getD t.entries (t.loopd - 1) ⟨0, 0, 0⟩
def Thread.pop (t : Thread) : Thread := { t with loopd := t.loopd - 1 }
def Thread.push (t : Thread) (e : LoopEntry) : Thread :=
  { t with entries := Tab.set t.entries t.loopd e, loopd := t.loopd + 1 }

/-- Address arithmetic modulo 2^56 (R158). -/
def pcAdd (pc : Pc) (n : Int) : Pc := BitVec.ofInt 56 ((pc.toNat : Int) + n)

/-- Complete(e) of R224, over at most `fuel` entries. -/
def completeLoop (e : Pc) : Nat → Thread → Thread
  | 0, t => { t with pc := pcAdd e 12 }
  | fuel + 1, t =>
    if t.loopd = 0 then { t with pc := pcAdd e 12 }
    else
      let top := t.top
      if top.last ≠ e then { t with pc := pcAdd e 12 }
      else
        let t' := { t with entries := Tab.set t.entries (t.loopd - 1) { top with count := top.count - 1 } }
        if top.count - 1 ≠ 0 then { t' with pc := top.start } else completeLoop e fuel t'.pop

/-- The end step of the instruction at e (R224). -/
def Thread.complete (t : Thread) (e : Pc) : Thread := completeLoop e 4 t

/-- LeaveLoops(target) of R222. -/
def leaveLoops (target : Pc) : Nat → Thread → Thread
  | 0, t => t
  | fuel + 1, t =>
    if t.loopd = 0 then t
    else if t.top.start ≤ target ∧ target ≤ t.top.last then t
    else leaveLoops target fuel t.pop

/-- How an instruction leaves its thread's control (R220, R223, R224): by completing, by a taken transfer, by pushing a loop, by
a zero-count LOOP's end step, or standing where it is. -/
inductive Ctl where
  | fall
  | jump (target : Pc)
  | loop (e : LoopEntry)
  | skip (last : Pc)
  | stay
  deriving DecidableEq, Repr

/-- The thread's control after an instruction at its PC. -/
def Thread.control (t : Thread) : Ctl → Thread
  | .fall => t.complete t.pc
  | .jump target => { leaveLoops target 4 t with pc := target }
  | .loop e => { t.push e with pc := e.start }
  | .skip last => t.complete last
  | .stay => t

/-- The top entry ends at an address. -/
def Thread.endsAt (t : Thread) (e : Pc) : Bool := t.loopd != 0 && t.top.last == e

/-- The loop-stack unit as R225 has it read and written. -/
def Thread.ctlUnits (t : Thread) : Ctl → Units × Units
  | .fall => if t.endsAt t.pc then (.loop, .loop) else (.none, .none)
  | .jump target =>
    if (leaveLoops target 4 t).loopd ≠ t.loopd then (.loop, .loop)
    else (if t.loopd ≠ 0 then .loop else .none, .none)
  | .loop _ => (.none, .loop)
  | .skip last => (if t.loopd ≠ 0 then .loop else .none, if t.endsAt last then .loop else .none)
  | .stay => (.none, .none)

/-- A taken transfer or loop return at or below the instruction's own address (R22, R221). -/
def Thread.backward (t : Thread) : Ctl → Bool
  | .fall => t.endsAt t.pc && (t.complete t.pc).pc ≤ t.pc
  | .jump target => target ≤ t.pc
  | .skip last => t.endsAt last && (t.complete last).pc ≤ t.pc
  | _ => false

end Sys2Proof.Machine
end

