-- ==== Sys2Proof/Machine/Home.lean ====
section
/-! DEFINITION. Memory at its homes: the physical map, errors and the log, reduction queues, monitors, committed stores on
their way, the L1 data cache, and the scratchpads with their granules, barrier objects and mailboxes. -/

namespace Sys2Proof.Machine

/-! ## The physical map -/

/-- Where a physical address leads (R326, R327): HBM of this device, host memory, another device or a group, the register
space, or a cause. -/
inductive Target where
  | hbm (pa : Nat)
  | host (pa : Nat)
  | remote (dev off : Nat)
  | regs (pa : Nat)
  | fail (c : Cause)
  deriving DecidableEq, Repr

/-- HBM of this device, as far as it reaches (R326, R412). -/
def State.inHbm (s : State) (pa : Nat) : Bool := pa < s.rel.hbmSize

/-- The ports of a mask, ascending. -/
def portsOf (m : BitVec 16) : List Nat := (List.range 16).filter fun i => m.getLsbD i

/-- The route mask of a device or group number (R374, R375). -/
def State.routeMask (s : State) (dev : Nat) : BitVec 16 :=
  if 0xF00 ≤ dev then Tab.getD s.link.mcroute (dev - 0xF00) 0 else Tab.getD s.link.droute dev 0

/-- The stream toward a device is DOWN (R402). -/
def State.streamDown (s : State) (dev : Nat) : Bool := (Tab.getD s.trust.streams dev .fresh).state == .down

/-- The decoding of a physical address (R326, R327, R370, R374). -/
def State.target (s : State) (pa : Nat) : Target :=
  if s.inHbm pa then .hbm pa
  else if 0x3000000000000 ≤ pa ∧ pa < 0x3000100000000 then .regs pa
  else if 0x4000000000000 ≤ pa ∧ pa < 0x8000000000000 then
    let h := pa % 2 ^ 50
    if s.host.hwbase ≤ h ∧ h < s.host.hwbase + s.host.hwsize ∧ !NatSet.has s.mem.hostErrs (pa / 128) then .host pa
    else .fail .hostAccess
  else if 2 ^ 51 ≤ pa ∧ pa < 2 ^ 52 then
    let dev := pa / 2 ^ 39 % 2 ^ 12
    let off := pa % 2 ^ 39
    if 0x6000000000 ≤ off then .fail .physHole
    else if s.link.devValid && dev == s.link.devNum.toNat then
      if s.inHbm off then .hbm off else .fail .physHole
    else if !s.link.devValid || (1152 ≤ dev && dev < 0xF00) || portsOf (s.routeMask dev) == [] || s.streamDown dev then
      .fail .remoteUnreachable
    else .remote dev off
  else .fail .physHole

/-- An address that a compute thread or an engine reaches: the register space is a hole to it (R326). -/
def State.reach (s : State) (pa : Nat) : Target :=
  match s.target pa with
  | .regs _ => .fail .physHole
  | t => t

def atomOf (pa : Nat) : Nat := pa / 32
def lineOf (pa : Nat) : Nat := pa / 128

/-! ## Event slots -/

/-- An armed slot's EPEND bit set; a disarmed slot never latches (R144, R145). -/
def Gang.latch (g : Gang) (n : Nat) : Gang :=
  if ((Tab.getD g.slots n .fresh).armed).isSome then { g with epend := g.epend ||| BitVec.twoPow 16 n } else g

/-- Every armed slot whose token satisfies a test is latched. -/
def Gang.latchWhere (g : Gang) (f : Token → Bool) : Gang :=
  (List.range 16).foldl (fun g n =>
    match (Tab.getD g.slots n .fresh).armed with
    | some (tk, _) => if f tk then g.latch n else g
    | none => g) g

/-! ## Monitors -/

/-- The relation of a monitor's description on a word's value (R267). -/
def MonDesc.holds (d : MonDesc) (x : Nat) : Bool := intRelation d.md (intVal d.ty x) (intVal d.ty d.cmp)

/-- A fire recorded in a placed monitor signals its slot (R268). -/
def State.fireMonitor (s : State) (m : Monitor) : State :=
  { s with mem := { s.mem with monitors := s.mem.monitors.map fun (x : Monitor) =>
      if x.key = m.key ∧ x.slot = m.slot then { x with fired := true } else x } }.modGang m.key fun g => g.latch m.slot

/-- After a write to an atom, every placed monitor of it whose word satisfies its relation records a fire (R268). -/
def State.monitorsAfter (s : State) (pa : Nat) : State :=
  s.mem.monitors.foldl (fun s m =>
    if atomOf m.desc.pa = atomOf pa ∧ m.desc.holds (Mem.readN s.mem.bytes m.desc.pa m.desc.ty.bytes) then s.fireMonitor m
    else s) s

/-! ## Writes at the home -/

/-- n bytes written at a physical address of this device or of the host, at most one atom: the host's copies go first (R369),
the write changes only its bytes and leaves a poison mark (R82, R405), porters' reservations of the atom are lost (R309), and
monitors are evaluated (R268). -/
def State.homeWrite (s : State) (pa n x : Nat) : State :=
  let s := { s with
    mem := { s.mem with
      bytes := Mem.writeN s.mem.bytes pa n x, hostHalves := NatSet.del s.mem.hostHalves (pa / 64) }
    clusters := s.clusters.map fun (c : Nat × Cluster) =>
      if c.2.porter.reservation.map atomOf = some (atomOf pa) then
        (c.1, { c.2 with porter := { c.2.porter with reservation := none } })
      else c }
  s.monitorsAfter pa

/-- An atom marked poisoned (R404, R405). -/
def State.markAtom (s : State) (pa : Nat) : State :=
  { s with mem := { s.mem with poison := NatSet.add s.mem.poison (atomOf pa) } }

/-- A poisoned atom written: a mark, whatever its bytes, by a write at the home like any other (R268, R417). -/
def State.poisonAtom (s : State) (pa : Nat) : State := (s.homeWrite pa 0 0).markAtom pa

/-- The mark of an atom cleared by one request that writes it whole (R405). -/
def State.clearPoison (s : State) (pa : Nat) : State :=
  { s with mem := { s.mem with poison := NatSet.del s.mem.poison (atomOf pa), latent := NatSet.del s.mem.latent (atomOf pa) } }

/-! ## Messages and the error log -/

/-- A message appended to a porter channel (R319); false where it is full. -/
def State.sendChannel (s : State) (cl ch : Nat) (m : Message) : State × Bool :=
  let c := s.cluster cl
  let q := Tab.getD c.channels ch []
  if Config.channelDepth ≤ q.length then (s, false)
  else (s.setCluster cl { c with channels := Tab.put c.channels [] ch (q ++ [m]) }, true)

/-- The kinds of an error-log entry (R406). -/
inductive LogKind where
  | ce | ueFresh | poisoned | residue | laneDrop | portDown | remoteStore | redPoison | keylow | streamDown | spareSteered
  | coreRetired | rowSpared
  deriving DecidableEq, Repr

def LogKind.code : LogKind → Nat
  | .ce => 0 | .ueFresh => 1 | .poisoned => 2 | .residue => 3 | .laneDrop => 4 | .portDown => 5 | .remoteStore => 6
  | .redPoison => 7 | .keylow => 8 | .streamDown => 9 | .spareSteered => 10 | .coreRetired => 11 | .rowSpared => 12

/-- An entry's 64 bytes as a number (R406). -/
def logEntry (kind : LogKind) (unit index seq clock addr count asid : Nat) : Nat :=
  kind.code + 2 ^ 8 * unit + 2 ^ 16 * (index % 2 ^ 16) + 2 ^ 32 * (seq % 2 ^ 32) + 2 ^ 64 * (clock % 2 ^ 64) +
    2 ^ 128 * (addr % 2 ^ 64) + 2 ^ 192 * (count % 2 ^ 32) + 2 ^ 224 * (asid % 2 ^ 16)

/-- Entries of the ring. -/
def Reliability.ring (r : Reliability) : Nat := 2 ^ (min r.errLog2 10 + 6)

/-- An error event appended to the ring, and its message (R406): a full ring drops it and counts it. -/
def State.logError (s : State) (kind : LogKind) (unit index addr count asid : Nat) : State :=
  let r := s.rel
  if (r.errHead + 1) % r.ring = r.errTail % r.ring then { s with rel := { r with errOvf := min (r.errOvf + 1) 0xFFFFFFFF } }
  else
    let e := logEntry kind unit index r.errSeq s.clock addr count asid
    let a := r.errBase + 64 * r.errHead
    let s := { (s.homeWrite a 32 e).homeWrite (a + 32) 32 (e / 2 ^ 256) with
      rel := { r with errHead := (r.errHead + 1) % r.ring, errSeq := r.errSeq + 1, errQuiet := true } }
    if r.errQuiet then s
    else
      let m : Message := ⟨(Config.deviceSender s.freeCtr).val, Config.deviceMessage s.freeCtr⟩
      ({ s with freeCtr := s.freeCtr + 1 }.sendChannel (r.errChan % 64) (r.errChan / 64 % 4) m).1

/-! ## Atoms, poison and sparing -/

/-- A row spared, its count of events cleared; nothing where its pseudo-channel has no spare row left (R411). -/
def State.spareRow (s : State) (pa : Nat) : State :=
  let row := Config.rowOfAddress pa
  let ch := (Config.hbmChannel (atomOf pa)).val
  let used := Tab.getD s.rel.spareRows ch 0
  if used < 64 then
    let r := s.rel
    { s with rel := { r with
        spareRows := Tab.put r.spareRows 0 ch (used + 1), spared := Tab.set r.spared row ch
        rowEvents := Tab.erase r.rowEvents row } }.logError .rowSpared 0 (Config.homeSlice (lineOf pa)).val pa 1 0
  else s.logError .rowSpared 0 (Config.homeSlice (lineOf pa)).val pa 0 0

/-- An atom marked POISONED and counted against its row (R404, R405). -/
def State.poisonCounted (s : State) (pa n : Nat) : State :=
  { s with mem := { s.mem with poison := NatSet.add s.mem.poison (atomOf pa) }
           rel := { s.rel with rowEvents := Tab.set s.rel.rowEvents (Config.rowOfAddress pa) n } }

/-- A POISONED event of an atom: the mark, the entry, and the row's count (R405). -/
def State.markPoison (s : State) (pa asid : Nat) : State :=
  let n := Tab.getD s.rel.rowEvents (Config.rowOfAddress pa) 0 + 1
  let u := (s.poisonCounted pa n).logError .poisoned 0 (Config.homeSlice (lineOf pa)).val (32 * atomOf pa) 1 asid
  if u.rel.rowthr ≠ 0 ∧ u.rel.rowthr ≤ n then u.spareRow pa else u

/-- A FRESH event of an atom: the logged-atom table of its slice, oldest dropped, and the entry (R405). -/
def State.logFresh (s : State) (pa asid : Nat) : State :=
  let sl := (Config.homeSlice (lineOf pa)).val
  let l := Tab.getD s.mem.logged sl [] ++ [atomOf pa]
  { s with mem := { s.mem with logged := Tab.set s.mem.logged sl (l.drop (l.length - 64)) } }.logError
    .ueFresh 0 sl (32 * atomOf pa) 1 asid

/-- The atom stands in its slice's logged-atom table. -/
def State.isLogged (s : State) (pa : Nat) : Bool :=
  (Tab.getD s.mem.logged (Config.homeSlice (lineOf pa)).val []).contains (atomOf pa)

/-- What a read finds: sound data, or an error with its ERRKIND (R340): 1 FRESH, 2 POISONED. -/
inductive Found where
  | data (x : Nat)
  | bad (kind : Nat)
  deriving DecidableEq, Repr

/-- An injection of SPACE 1 that a read of n bytes fires (R416). -/
def State.injects (s : State) (pa n : Nat) : Bool :=
  let j := s.rel.inj
  j.armed && j.space == 1 && decide (pa < j.addr / 8 * 8 + 8 ∧ j.addr / 8 * 8 < pa + n)

def State.injectionFired (s : State) (core : Nat) : State :=
  { s with rel := { s.rel with inj := { s.rel.inj with armed := false, fired := true, fcore := core } } }

/-- An error of an atom found by a read: whether the next read finds it too is left open (R251, R405; log 43). -/
def State.errorFound (s : State) (pa : Nat) : State :=
  { s with
    freeCtr := s.freeCtr + 1
    mem := { s.mem with latent := if Config.errorStays s.freeCtr then s.mem.latent else NatSet.del s.mem.latent (atomOf pa) } }

/-- The error check of a read within one atom at its home (R404, R405, R416). -/
def State.checkAtom (s : State) (pa n asid : Nat) : State × Nat :=
  if s.injects pa n then ((s.injectionFired s.rel.inj.fcore).logFresh pa asid, 1)
  else if NatSet.has s.mem.poison (atomOf pa) then (s, 2)
  else if NatSet.has s.mem.latent (atomOf pa) then
    let s := s.errorFound pa
    if s.isLogged pa then (s.markPoison pa asid, 2) else (s.logFresh pa asid, 1)
  else (s, 0)

/-! ## Reductions and read-modify-writes -/

/-- New of R247: operations 0 ADD, 1 MIN, 2 MAX, 3 AND, 4 OR, 5 XOR, 6 EXCH, 7 FADD under R249; 8 and 9 are the
float MIN and MAX of a REDUCE record (R67, R277). -/
def newValue (op : Nat) (t : Ty) (old b : Nat) : Nat :=
  let w := 8 * t.bytes
  match op with
  | 0 => (old + b) % 2 ^ w
  | 1 => if intVal t b < intVal t old then b % 2 ^ w else old
  | 2 => if intVal t old < intVal t b then b % 2 ^ w else old
  | 3 => old &&& b % 2 ^ w
  | 4 => old ||| b % 2 ^ w
  | 5 => old ^^^ b % 2 ^ w
  | 6 => b % 2 ^ w
  | n =>
    packElems t.width ((List.range (if t.pair then 2 else 1)).map fun i =>
      let x := decodeFP (fmtOf t) (elem t.width old i) false
      let y := decodeFP (fmtOf t) (elem t.width b i) false
      (roundFP (fmtOf t) (if n = 8 ∨ n = 9 then minmaxVal (n == 9) x y else addVal 0 x y).1 0 false).1)

/-! ## Reductions at the home -/

/-- One reduction element applied at its home (R118, R251, R417): a FRESH error is retried once, a poisoned atom refuses it. The
answer says whether it was refused. -/
def State.applyRed (s : State) (pa op : Nat) (t : Ty) (b asid : Nat) : State × Bool :=
  let (s, k1) := s.checkAtom pa t.bytes asid
  let (s, k) := if k1 = 1 then s.checkAtom pa t.bytes asid else (s, k1)
  if k = 0 then (s.homeWrite pa t.bytes (newValue op t (Mem.readN s.mem.bytes pa t.bytes) b), false)
  else ((if k = 1 then s.markPoison pa asid else s), true)

/-- A queued RED applied, with its log entry where it is refused (R405). -/
def State.applyQueued (s : State) (e : StoreEntry) : State :=
  match e.place, e.op with
  | .phys pa, .red op t =>
    let (s, refused) := s.applyRed pa op t e.data e.asid
    if refused then s.logError .redPoison 1 (Config.homeSlice (lineOf pa)).val (32 * atomOf pa) 1 e.asid else s
  | _, _ => s

/-- The line a place lies in. -/
def Place.line : Place → Place
  | .phys pa => .phys (lineOf pa)
  | .scratch b o off => .scratch b o (lineOf off)
  | .param off => .param (lineOf off)

/-- The atom a place lies in. -/
def Place.atom : Place → Place
  | .phys pa => .phys (atomOf pa)
  | .scratch b o off => .scratch b o (atomOf off)
  | .param off => .param (atomOf off)

/-- The first byte of a place, where both places lie in one space. -/
def Place.sameSpace : Place → Place → Option (Nat × Nat)
  | .phys a, .phys b => some (a, b)
  | .scratch x o a, .scratch y p b => if x = y ∧ o = p then some (a, b) else none
  | .param a, .param b => some (a, b)
  | _, _ => none

/-- The queued reductions of a line applied, in arrival order, before a later access to it (R118). -/
def State.drainRed (s : State) (line : Place) : State :=
  let now := s.mem.redq.filter fun e => e.place.line == line
  now.foldl (fun s e => s.applyQueued e)
    { s with mem := { s.mem with redq := s.mem.redq.filter fun e => e.place.line != line } }

/-! ## Scratchpads -/

def Block.half (b : Block) (odd : Bool) : Scratch := if odd then b.odd else b.even
def Block.setHalf (b : Block) (odd : Bool) (x : Scratch) : Block := if odd then { b with odd := x } else { b with even := x }
def State.modScratch (s : State) (blk : Nat) (odd : Bool) (f : Scratch → Scratch) : State :=
  s.modBlock blk fun b => b.setHalf odd (f (b.half odd))

/-- First offset of the mailbox area (R83). -/
def Block.mbxBase (b : Block) : Nat := 0x80000 - 272 * b.mailboxes

/-- The bytes [off, off + n) of a half lie in the allocation (R83). -/
def Block.validHalf (b : Block) (odd : Bool) (off n : Nat) : Bool :=
  if odd then b.pair && decide (off + n ≤ b.scratchSize)
  else
    decide (off + n ≤ b.scratchSize) || decide (b.mbxBase ≤ off ∧ off + n ≤ 0x80000) ||
      (b.scratchSize == b.mbxBase && decide (off + n ≤ 0x80000))

/-- The half and offset that a thread of a core names by a scratchpad offset (R34); valid or not. -/
def Block.locate (b : Block) (core o : Nat) : Option (Bool × Nat) :=
  let odd := core != b.core
  if o < 0x80000 then some (odd, o)
  else if b.pair && decide (o < 0x100000) then some (!odd, o - 0x80000)
  else none

/-- The place of n bytes at a thread's scratchpad offset, where every byte is valid (R83, R93). -/
def Block.placeOf (b : Block) (core o n : Nat) : Option (Bool × Nat) :=
  match b.locate core o with
  | some (odd, off) => if b.validHalf odd off n then some (odd, off) else none
  | none => none

/-- The core whose scratchpad a half is. -/
def Block.coreOfHalf (b : Block) (odd : Bool) : Nat := if odd then b.core + 1 else b.core

/-- Granules of a byte range. -/
def granulesOf (off n : Nat) : List Nat := (List.range ((off + n + 15) / 16 - off / 16)).map (off / 16 + ·)

/-- The 8-byte words of a byte range, over which errors are checked (R404). -/
def wordsOf (off n : Nat) : List Nat := (List.range ((off + n + 7) / 8 - off / 8)).map (off / 8 + ·)

/-- What a read of n bytes in one half finds under R404 and R416: 0 for sound words, 1 for an error found now, 2 for a mark. An error
found leaves a mark: on the whole atom, or, for the words of a barrier object or a mailbox, on the word alone (R91, R94). -/
def State.scratchScan (s : State) (blk : Nat) (odd : Bool) (off n : Nat) (atom : Bool) : State × Nat :=
  match s.block? blk with
  | none => (s, 0)
  | some b =>
    let h := b.half odd
    let core := b.coreOfHalf odd
    let j := s.rel.inj
    let asid := ((s.launch? b.lid).map Launch.asid).getD 0
    let ws := wordsOf off n
    if j.armed && j.space == 2 && (j.any || j.core == core) && j.addr < 0x80000 && ws.contains (j.addr / 8) then
      ((s.injectionFired core).logError .ueFresh 2 core (j.addr / 8 * 8) 1 asid, 1)
    else if ws.any (NatSet.has h.poison) then (s, 2)
    else
      let hit := ws.filter (NatSet.has h.latent)
      if hit = [] then (s, 0)
      else
        let h' : Scratch := { h with
          latent := hit.foldl NatSet.del h.latent
          poison := (if atom then wordsOf (off / 32 * 32) 32 else hit).foldl NatSet.add h.poison }
        ((s.setBlock blk (b.setHalf odd h')).logError .ueFresh 2 core (off / 8 * 8) 1 asid, 1)

/-- n bytes of one half as they stand. -/
def State.scratchBytes (s : State) (blk : Nat) (odd : Bool) (off n : Nat) : Nat :=
  Mem.readN (((s.block? blk).map fun b => (b.half odd).mem).getD []) off n

/-- A read of n bytes in one half, at most one granule: errors and injections under R404 and R416. -/
def State.scratchRead (s : State) (blk : Nat) (odd : Bool) (off n : Nat) : State × Found :=
  match s.scratchScan blk odd off n true with
  | (s, 0) => (s, .data (s.scratchBytes blk odd off n))
  | (s, k) => (s, .bad k)

/-- n bytes written in one half, with the granule set full or left (R86). -/
def State.scratchWrite (s : State) (blk : Nat) (odd : Bool) (off n x : Nat) (fill : Bool) : State :=
  s.modScratch blk odd fun h => { h with
    mem := Mem.writeN h.mem off n x
    full := if fill then (granulesOf off n).foldl NatSet.add h.full else h.full }

/-- The marks of a range cleared, by a write that makes its words sound. -/
def State.scratchSound (s : State) (blk : Nat) (odd : Bool) (off n : Nat) : State :=
  s.modScratch blk odd fun h => { h with
    poison := (wordsOf off n).foldl NatSet.del h.poison, latent := (wordsOf off n).foldl NatSet.del h.latent }

/-! ## Remote requests -/

/-- The stream toward a device sends nothing now: it is STOPPED, its key has reached its limit, or, in confidential mode, it has none
(R398, R401, R402). -/
def State.muted (s : State) (dev : Nat) : Bool :=
  let x := Tab.getD s.trust.streams dev .fresh
  match x.state with
  | .off => s.trust.conf
  | .run => decide (2 ^ 36 ≤ x.used)
  | .stopped => true
  | .down => false

/-- A flit sent toward a device: the key's count, while the stream runs below its limit (R401, R402). -/
def State.countFlit (s : State) (dev : Nat) : State :=
  let x := Tab.getD s.trust.streams dev .fresh
  if x.state = .run ∧ x.used < 2 ^ 36 then
    { s with trust := { s.trust with streams := Tab.set s.trust.streams dev { x with used := x.used + 1 } } }
  else s

/-- The key toward a device has reached its limit, and the stream has not yet gone over to NEXT or stopped (R401). -/
def State.keySpent (s : State) (dev : Nat) : Bool :=
  let x := Tab.getD s.trust.streams dev .fresh
  x.state == .run && decide (2 ^ 36 ≤ x.used)

/-- A request sent to another device or group (R374 to R376); `none` while 4,096 stand unacknowledged toward it, or its key is spent. -/
def State.sendRemote (s : State) (core dev off : Nat) (op : RemoteOp) (src : RemoteSource) : Option State :=
  let out := s.link.requests.filter fun r => r.dev = dev
  if 4096 ≤ out.length ∨ s.keySpent dev = true then none
  else
    let ports := portsOf (s.routeMask dev)
    let port := ports.getD (Config.portHash core (lineOf off) % max 1 ports.length) 0
    let seq := Tab.getD s.link.nextSeq dev 0
    some ({ s with link := { s.link with
      requests := s.link.requests ++ [(⟨dev, seq, off, op, src, port, s.clock, s.clock, Tab.getD s.link.members dev []⟩ : RemoteReq)]
      nextSeq := Tab.put s.link.nextSeq 0 dev ((seq + 1) % 2 ^ 32) } }.countFlit dev)

/-- A committed store or RED of a thread is outstanding toward another device. -/
def State.remoteStores (s : State) (tag : Nat × Nat × Nat) (lane : Option Nat) : Bool :=
  s.link.requests.any fun r =>
    match r.src with
    | .store t l _ => t == tag && (lane == none || lane == some l)
    | _ => false

/-! ## Committed stores on their way -/

def sameThread (a b : StoreEntry) : Bool := a.tag == b.tag && a.lane == b.lane

/-- A committed entry that has to be performed before a later one: of the same core or thread at one atom (R102, R106 (a)), or of the
same thread where the later one is a release or lies past a further release fence (R106 (c) and (e)): for every agent, whatever the
scope of the release or fence (log 61). -/
def mustPrecede (a b : StoreEntry) : Bool :=
  ((a.core == b.core || sameThread a b) && a.place.atom == b.place.atom) ||
    (sameThread a b && (b.rel.isSome || decide (a.fences < b.fences)))

/-- A failed committed store of a gang: entered in the log and counted against the gang, resident or evicted, or, once it has
ended, against its launch (R377). -/
def State.storeFailed (s : State) (pa : Nat) (tag : Nat × Nat × Nat) : State :=
  let mine (g : Gang) : Bool := g.tag == tag
  let s := s.logError .remoteStore 2 (((s.gangs.find? fun g => mine g.2).map fun g => coreOf g.1).getD 0) pa 1
    (((s.launch? tag.1).map Launch.asid).getD 0)
  let s := s.mapContexts fun g => if mine g && g.gstate != .ended then { g with failedStores := g.failedStores + 1 } else g
  if s.gangs.any (fun g => mine g.2 && g.2.gstate != .ended) || s.dist.saved.any fun x => mine x.gang then s
  else s.modLaunch tag.1 fun l => { l with remote := true }

/-- A byte of a store that a higher LANE of the same instruction has written: the higher LANE's stands (R81). -/
def MemState.passedOver (m : MemState) (e : StoreEntry) (j : Nat) : Bool :=
  m.topped.any fun h => h.tag == e.tag && h.issue == e.issue && decide (e.lane < h.lane) &&
    match Place.sameSpace e.place h.place with
    | some (a, b) => decide (b ≤ a + j ∧ a + j < b + h.size)
    | none => false

/-- A place some bytes on. -/
def Place.shift : Place → Nat → Place
  | .phys pa, j => .phys (pa + j)
  | .scratch b o off, j => .scratch b o (off + j)
  | .param off, j => .param (off + j)

/-- A committed entry as it is to be applied: whole, or byte by byte without what higher LANEs have written (R81). -/
def MemState.parts (m : MemState) (e : StoreEntry) : List StoreEntry :=
  if e.op = .write ∧ (List.range e.size).any (m.passedOver e) then
    (((List.range e.size).filter fun j => !m.passedOver e j).map fun j =>
      { e with place := e.place.shift j, va := e.va + j, size := 1, data := e.data / 256 ^ j % 256 }).mapIdx fun i x =>
        if i = 0 then x else { x with rel := none, fences := 0 }
  else [e]

/-- One committed entry, or a part of it, applied at its home, or, for a reduction, put in its queue, or, for another device, sent. `none` where
it has to wait: a release past stores that another device has not acknowledged, or a full window. A store that no longer reaches its
place has failed: the route mask of its device is empty, or the stream there DOWN (R374, R377, R402), or the host's link gives an
error (log 63). -/
def State.applyPart (s : State) (e : StoreEntry) : Option State :=
  if (e.rel.isSome || e.fences != 0) && s.remoteStores e.tag (some e.lane) then none
  else
    match e.place with
    | .scratch blk odd off => some (s.scratchWrite blk odd off e.size e.data e.fill)
    | .param _ => some s
    | .phys pa =>
      match s.target pa with
      | .remote dev off =>
        s.sendRemote e.core dev off (match e.op with | .write => .write e.size e.data | .red op t => .red op t e.data)
          (.store e.tag e.lane e.epoch)
      | .hbm a =>
        match e.op with
        | .write => some ((s.drainRed (.phys (lineOf a))).homeWrite a e.size e.data)
        | .red .. => some { s with mem := { s.mem with redq := s.mem.redq ++ [{ e with place := .phys a }] } }
      | .fail _ => some (s.storeFailed pa e.tag)
      | _ =>
        match e.op with
        | .write => some (s.homeWrite pa e.size e.data)
        | .red op t => some (s.applyRed pa op t e.data e.asid).1

/-- One committed entry applied. -/
def State.applyEntry (s : State) (e : StoreEntry) : Option State :=
  (s.mem.parts e).foldl (fun s? x => s?.bind fun s => s.applyPart x) (some s)

/-- Each entry with whether it is wanted, or has to precede one that is. -/
def needed (want : StoreEntry → Bool) : List StoreEntry → List (StoreEntry × Bool)
  | [] => []
  | e :: es =>
    let r := needed want es
    (e, want e || r.any fun x => x.2 && mustPrecede e x.1) :: r

/-- The wanted entries applied in order with all that has to precede them; `none` where one has to wait. -/
def State.drain (s : State) (want : StoreEntry → Bool) : Option State :=
  let l := needed want s.mem.inflight
  if l.all fun x => !x.2 then some s
  else
    (l.filter (·.2)).foldl (fun s? x => s?.bind fun s => s.applyEntry x.1)
      (some { s with mem := { s.mem with inflight := (l.filter fun x => !x.2).map (·.1) } })

/-- The entries of a core that touch a line (R102). -/
def State.drainLine (s : State) (core : Nat) (line : Place) : Option State :=
  (s.drain fun e => e.core == core && e.place.line == line).map fun s => s.drainRed line

/-- Every committed entry of a thread performed, those toward other devices acknowledged (R106, R107, R108). -/
def State.drainThread (s : State) (tag : Nat × Nat × Nat) (lane : Nat) : Option State :=
  (s.drain fun e => e.tag == tag && e.lane == lane).bind fun s =>
    if s.remoteStores tag (some lane) then none else some s

/-- Every committed entry of some threads of a gang performed (R108, R151, R231). -/
def State.drainAll (s : State) (tag : Nat × Nat × Nat) (lanes : List Nat) : Option State :=
  lanes.foldl (fun s? l => s?.bind fun s => s.drainThread tag l) (some s)

/-- The entries of a thread that precede its latest release fence (R106 (e)). -/
def State.drainFenced (s : State) (tag : Nat × Nat × Nat) (lane fences : Nat) : Option State :=
  (s.drain fun e => e.tag == tag && e.lane == lane && decide (e.fences < fences)).bind fun s =>
    if fences != 0 && s.remoteStores tag (some lane) then none else some s

/-! ## The L1 data cache -/

/-- The fills of lines that a core has asked of other devices given up, where a test says so: what they would bring is no longer of
use. -/
def State.dropFills (s : State) (core : Nat) (f : Nat → Bool) : State :=
  { s with link := { s.link with requests := s.link.requests.filter fun r =>
      match r.src with
      | .fill c _ _ pa => !(c == core && f (lineOf pa))
      | _ => true } }

/-- A core's copy of a line dropped (R102). -/
def State.dropL1 (s : State) (core line : Nat) : State :=
  match Tab.get? s.cores core with
  | some c => (s.dropFills core (· == line)).setCore core { c with l1 := Tab.erase c.l1 line }
  | none => s

/-- An acquire at BLOCK scope or wider: every line of the core goes but those of edition regions (R102). -/
def State.acquireL1 (s : State) (core : Nat) (sc : Scope) : State :=
  if sc = .gang then s
  else
    match Tab.get? s.cores core with
    | some c => (s.dropFills core fun _ => true).setCore core { c with l1 := c.l1.filter fun l => l.2.tag.isSome }
    | none => s

/-- Every copy of every core dropped, and every fill that is asked for. -/
def State.dropAllL1 (s : State) : State :=
  { s with
    cores := s.cores.map fun (c : Nat × CoreState) => (c.1, { c.2 with l1 := [] })
    link := { s.link with requests := s.link.requests.filter fun r => match r.src with | .fill .. => false | _ => true } }

/-- The scope of a code of R164: 0, which names none, means DEVICE (R104). -/
def scopeOf (md : Nat) : Scope :=
  match md with
  | 1 => .gang
  | 2 => .block
  | 4 => .domain
  | 5 => .system
  | _ => .device

/-- The edition region of an address space that holds a line of virtual address (R123). -/
def State.regionOf (s : State) (asid va : Nat) : Option Region :=
  s.regions.find? fun r => r.asid = asid && decide (r.base ≤ lineOf va ∧ lineOf va < r.base + r.len)

/-- What the device does for an address space of which no launch is queued or running: its regions and their copies go, and the kept
counter values are forgotten (R124). -/
def State.autoRelease (s : State) (asid : Nat) : State :=
  if s.dist.launches.any fun x => x.2.asid == asid && x.2.status.isNone then s
  else
    { (if s.regions.any fun r => r.asid = asid then s.dropAllL1 else s) with
      regions := s.regions.filter fun r => r.asid ≠ asid, kept := s.kept.filter fun x => x.1 ≠ asid }

/-- A line put into a core's L1, tagged in an edition region (R102, R126, R129). -/
def State.putL1 (s : State) (core asid va pa data : Nat) : State :=
  let tag := (s.regionOf asid va).map fun r => (asid, r.slot, r.counter)
  s.modCore core fun c => { c with l1 := Tab.set c.l1 (lineOf pa) ⟨BitVec.ofNat 1024 data, tag⟩ }

/-- An L1 fill of a line from its home (R102); no fill of a line with a bad atom. -/
def State.fillL1 (s : State) (core asid va pa : Nat) : State :=
  let l := lineOf pa
  if (List.range 4).any fun i => NatSet.has s.mem.poison (4 * l + i) || NatSet.has s.mem.latent (4 * l + i) then s
  else if s.injects (128 * l) 128 then s
  else s.putL1 core asid va pa (Mem.readN s.mem.bytes (128 * l) 128)

/-- Bytes of an L1 line. -/
def L1Line.read (l : L1Line) (pa n : Nat) : Nat := l.data.toNat / 2 ^ (8 * (pa % 128)) % 2 ^ (8 * n)

/-- A read of n bytes of one atom at its home by a core; `none` where the core's earlier requests cannot be applied yet. -/
def State.homeRead (s : State) (core pa n asid : Nat) : Option (State × Found) :=
  (s.drainLine core (.phys (lineOf pa))).map fun s =>
    let (s, k) := s.checkAtom pa n asid
    (s, if k = 0 then .data (Mem.readN s.mem.bytes pa n) else .bad k)

/-- A read by an agent that has no stores on their way: an engine, a walk, a porter, the host. -/
def State.agentRead (s : State) (pa n asid : Nat) : State × Found :=
  let s := s.drainRed (.phys (lineOf pa))
  let (s, k) := s.checkAtom pa n asid
  (s, if k = 0 then .data (Mem.readN s.mem.bytes pa n) else .bad k)

/-- A write of such an agent. -/
def State.agentWrite (s : State) (pa n x : Nat) : State := (s.drainRed (.phys (lineOf pa))).homeWrite pa n x

/-- Bytes written from a physical address, atom by atom, as a device agent writes a record. -/
def State.writeRecord (s : State) (pa n x : Nat) : State :=
  (List.range ((pa + n + 31) / 32 - pa / 32)).foldl (fun s i =>
    let lo := max pa (32 * (pa / 32 + i))
    let hi := min (pa + n) (32 * (pa / 32 + i + 1))
    s.agentWrite lo (hi - lo) (x / 256 ^ (lo - pa))) s

/-! ## Barrier objects (R89 to R92) -/

/-- The result of an arrival. -/
inductive Arrival where
  | accepted (phase : Bool)
  | rejected
  | poisoned
  deriving DecidableEq, Repr

/-- Bits [hi:lo] of a number. -/
def bits (x lo n : Nat) : Nat := x / 2 ^ lo % 2 ^ n
/-- Bits [lo + n - 1 : lo] of a number replaced. -/
def setBits (x lo n v : Nat) : Nat := x - bits x lo n * 2 ^ lo + v % 2 ^ n * 2 ^ lo

/-- The arrival step of R90 on the two words; the words after it and the result. -/
def arriveStep (w0 w1 e n : Nat) (delta : Int) : Nat × Nat × Arrival :=
  let w0 := if bits w0 14 2 ≠ 0 ∨ bits w0 56 8 ≠ 0 then setBits w0 12 1 1 else w0
  if bits w0 12 1 = 1 then (w0, w1, .poisoned)
  else if bits w0 0 12 ≠ e then (setBits w0 13 1 1, w1, .rejected)
  else
    let p : Int := (bits w0 16 20 : Int) - n
    let b : Int := sExt 64 w1 + delta
    if p < 0 ∨ b < -(2 ^ 63 : Nat) ∨ ((2 ^ 63 : Nat) : Int) - 1 < b then (setBits w0 12 1 1, w1, .poisoned)
    else if p = 0 ∧ b = 0 then
      (setBits (setBits w0 0 12 (bits w0 0 12 + 1)) 16 20 (bits w0 36 20), 0, .accepted true)
    else (setBits w0 16 20 p.toNat, wrapBits 64 b, .accepted false)

/-- The gangs of a block that are resident, with their keys. -/
def State.gangsOf (s : State) (blk : Nat) : List (Nat × Gang) := s.gangs.filter fun g => g.2.blk = blk

/-- The slots of a block's gangs armed on a barrier object and phase that has completed are signalled (R145). -/
def State.signalBarrier (s : State) (blk : Nat) (odd : Bool) (off phase : Nat) : State :=
  match s.block? blk with
  | none => s
  | some b =>
    (s.gangsOf blk).foldl (fun s kg => s.modGang kg.1 fun g => g.latchWhere fun tk =>
      match tk with
      | .barrier o p => b.locate (coreOf kg.1) o == some (odd, off) && p == phase
      | _ => false) s

/-- One arrival at an object's home (R90, R91): an error in either word sets POISON in a rewritten Word 0. -/
def State.arrive (s : State) (blk : Nat) (odd : Bool) (off e n : Nat) (delta : Int) : State × Nat × Arrival :=
  let (s, bad) := s.scratchScan blk odd off 16 false
  let w0 := s.scratchBytes blk odd off 8
  let w1 := s.scratchBytes blk odd (off + 8) 8
  if bad ≠ 0 then
    let w := setBits w0 12 1 1
    ((s.scratchWrite blk odd off 8 w false).scratchSound blk odd off 8, w, .poisoned)
  else
    let (a, b, r) := arriveStep w0 w1 e n delta
    let s := (s.scratchWrite blk odd off 8 a false).scratchWrite blk odd (off + 8) 8 b false
    (match r with | .accepted true => s.signalBarrier blk odd off e | _ => s, a, r)

/-- Word 0 as a waiter, a test or a token reads it: an error in it rewrites it with POISON set (R91). -/
def State.readWord0 (s : State) (blk : Nat) (odd : Bool) (off : Nat) : State × Nat :=
  let (s, bad) := s.scratchScan blk odd off 8 false
  let w0 := s.scratchBytes blk odd off 8
  if bad ≠ 0 then
    let w := setBits w0 12 1 1
    ((s.scratchWrite blk odd off 8 w false).scratchSound blk odd off 8, w)
  else (s, w0)

/-! ## Mailboxes (R93 to R95) -/

/-- The result of a step on a mailbox. -/
inductive MbxResult where
  | done (entry : Nat)
  | full
  | empty
  | corrupt
  /-- a pop whose entry slot holds an error: it has left the mailbox -/
  | poisoned (kind : Nat)
  deriving DecidableEq, Repr

/-- Offset of mailbox n's header, in the even half (R93). -/
def mbxOff (n : Nat) : Nat := 0x80000 - 272 * (n + 1)

/-- Occupancy of a header (R94). -/
def mbxOcc (h : Nat) : Nat := (bits h 8 8 + 256 - bits h 0 8) % 256

/-- A header that a step or a token's evaluation finds inconsistent (R94). -/
def mbxBad (h : Nat) : Bool := 16 < mbxOcc h || bits h 16 1 == 1 || bits h 17 15 != 0 || bits h 64 64 != 0

/-- The header, POISON set where it is inconsistent or in error; one in error is rewritten whole (R94). -/
def State.mbxHeader (s : State) (blk n : Nat) : State × Nat × Bool :=
  let (s, err) := s.scratchScan blk false (mbxOff n) 16 false
  let h := s.scratchBytes blk false (mbxOff n) 16
  if err ≠ 0 ∨ mbxBad h then
    let h := setBits h 16 1 1
    let s := s.scratchWrite blk false (mbxOff n) 16 h false
    (if err ≠ 0 then s.scratchSound blk false (mbxOff n) 16 else s, h, true)
  else (s, h, false)

/-- MAILBOX tokens of the block's gangs on mailbox n are signalled by an accepted push (R145). -/
def State.signalMailbox (s : State) (blk n : Nat) : State :=
  (s.gangsOf blk).foldl (fun s kg => s.modGang kg.1 fun g => g.latchWhere fun tk => tk == .mailbox n) s

/-- One push (R94): the entry written to slot TAIL mod 16, sound again, and TAIL advanced. `refuse` counts a refusal (R95). -/
def State.push (s : State) (blk n entry : Nat) (refuse : Bool) : State × MbxResult :=
  let (s, h, bad) := s.mbxHeader blk n
  if bad then (s, .corrupt)
  else if mbxOcc h = 16 then
    (if refuse then s.scratchWrite blk false (mbxOff n) 16 (setBits h 32 32 (min (bits h 32 32 + 1) 0xFFFFFFFF)) false else s,
      .full)
  else
    let slot := mbxOff n + 16 + 16 * (bits h 8 8 % 16)
    let s := (s.scratchWrite blk false slot 16 entry false).scratchSound blk false slot 16
    let s := s.scratchWrite blk false (mbxOff n) 16 (setBits h 8 8 (bits h 8 8 + 1)) false
    (s.signalMailbox blk n, .done entry)

/-- One pop (R94). -/
def State.pop (s : State) (blk n : Nat) : State × MbxResult :=
  let (s, h, bad) := s.mbxHeader blk n
  if bad then (s, .corrupt)
  else if mbxOcc h = 0 then (s, .empty)
  else
    let slot := mbxOff n + 16 + 16 * (bits h 0 8 % 16)
    let (s, k) := s.scratchScan blk false slot 16 false
    let x := s.scratchBytes blk false slot 16
    let s := s.scratchWrite blk false (mbxOff n) 16 (setBits h 0 8 (bits h 0 8 + 1)) false
    (s, if k = 0 then .done x else .poisoned k)

end Sys2Proof.Machine
end

