-- ==== Sys2Proof/Machine/Ops.lean ====
section
/-! DEFINITION. Translation, the delivery queue, and the operations that take a trap of compute threads and resume them, and
that take an exception of a porter and return from it. -/

namespace Sys2Proof.Machine

/-! ## Causes -/

/-- The code of a cause (R334). -/
def Cause.code : Cause → Nat
  | .zeroWord => 0x00
  | .illegalOpcode => 0x01
  | .reservedField => 0x02
  | .operandClass => 0x03
  | .registerRange => 0x04
  | .emptyRegister => 0x05
  | .badTarget => 0x06
  | .loopOverflow => 0x07
  | .misaligned => 0x10
  | .addressRange => 0x11
  | .scratchRange => 0x12
  | .paramRange => 0x13
  | .pageAbsent => 0x14
  | .pageRead => 0x15
  | .pageWrite => 0x16
  | .pageDirty => 0x17
  | .pagePrivilege => 0x18
  | .fetchFault => 0x19
  | .walkFormat => 0x1A
  | .physHole => 0x1B
  | .remoteUnreachable => 0x1C
  | .hostAccess => 0x1D
  | .dataPoison => 0x30
  | .accPoison => 0x31
  | .walkPoison => 0x32
  | .fetchPoison => 0x33
  | .barrierStale => 0x40
  | .barrierPoison => 0x41
  | .mailboxRange => 0x42
  | .mailboxCorrupt => 0x43
  | .eventToken => 0x44
  | .monitorHome => 0x45
  | .waitTimeout => 0x46
  | .editionSlot => 0x47
  | .copyRecord => 0x50
  | .copyPart => 0x51
  | .copyBatch => 0x52
  | .matrixBind => 0x53
  | .matrixMismatch => 0x54
  | .rangeGuard => 0x60
  | .draftLivelock => 0x61
  | .breakpoint => 0x70
  | .softwareTrap => 0x71

/-- Causes that discard the draft: 0x10 to 0x3F (R142). -/
def Cause.discards (c : Cause) : Bool := 0x10 ≤ Cause.code c && Cause.code c < 0x40

/-- The rank of a cause's group in the order of R340. -/
def Cause.rank (c : Cause) : Nat :=
  match Cause.code c / 16 with
  | 3 => 0
  | 1 => 1
  | 0 => 2
  | 4 => 3
  | 5 => 4
  | 6 => 5
  | _ => 6

/-- A lane's fault with no access (R339). -/
def LaneFault.plain (lane : Nat) (c : Cause) : LaneFault := ⟨lane, c, 0, 0, 0, 0, 0, 0⟩

/-! ## Translation (R321 to R330) -/

/-- The access kinds of R325, with their codes in a fault record (R339). -/
inductive Access where
  | read | write | rmw | fetch
  deriving DecidableEq, Repr

def Access.code : Access → Nat
  | .read => 0 | .write => 1 | .rmw => 2 | .fetch => 3

def Access.reads (a : Access) : Bool := a == .read || a == .rmw
def Access.writes (a : Access) : Bool := a == .write || a == .rmw

/-- First virtual address bit above a page of a level: the page's size in bits (R322). -/
def pageBits : Nat → Nat
  | 0 => 18
  | 1 => 25
  | 2 => 32
  | _ => 44

/-- Index(va, l) of R322. -/
def tableIndex (va l : Nat) : Nat := if 2 ≤ l then va / 2 ^ pageBits l % 4096 else va / 2 ^ pageBits l % 128

/-- How the read of one entry ends: the entry, the end of the walk, or another device to ask. -/
inductive EntryRead where
  | pte (x : Nat)
  | stop (w : WalkEnd)
  | ask (dev off : Nat)
  deriving DecidableEq, Repr

/-- One entry read at its home (R324): a bad atom is WALK_POISON; a table that no agent reaches is a hole (log 21), one in a group's
window cannot be read (R375). -/
def State.readEntry (s : State) (pa asid level : Nat) : State × EntryRead :=
  match s.reach pa with
  | .hbm a | .host a =>
    match s.agentRead a 8 asid with
    | (s, .data x) => (s, .pte x)
    | (s, .bad _) => (s, .stop (.fault .walkPoison level))
  | .remote dev off => if 0xF00 ≤ dev then (s, .stop (.fault .remoteUnreachable level)) else (s, .ask dev off)
  | .fail c => (s, .stop (.fault c level))
  | _ => (s, .stop (.fault .physHole level))

/-- The checks of R324 on an entry read at a level: the walk's end, or the next table. -/
def checkEntry (pte level : Nat) : WalkEnd ⊕ Nat :=
  if pte % 2 = 0 then .inl (.fault .pageAbsent level)
  else if bits pte 52 8 ≠ 0 then .inl (.fault .walkFormat level)
  else if bits pte 1 1 = 1 then
    if level = 3 then .inl (.fault .walkFormat level)
    else if bits pte 10 42 * 1024 % 2 ^ pageBits level ≠ 0 then .inl (.fault .walkFormat level)
    else .inl (.leaf pte level)
  else if level = 0 then .inl (.fault .walkFormat level)
  else if level = 3 ∧ bits pte 10 5 ≠ 0 then .inl (.fault .walkFormat level)
  else .inr (bits pte 10 42 * 1024)

/-- How far a walk comes by itself: to its end, or to an entry of a level that another device holds. -/
inductive WalkStop where
  | done (w : WalkEnd)
  | ask (level dev off : Nat)
  deriving DecidableEq, Repr

/-- Walk of R324 from a table of a level: how far it comes, and the tables of lower levels that it went through. -/
def State.walkFrom (s : State) (asid va : Nat) : Nat → Nat → State × WalkStop × List (Nat × Nat)
  | 0, t =>
    match s.readEntry (t + 8 * tableIndex va 0) asid 0 with
    | (s, .stop w) => (s, .done w, [])
    | (s, .ask dev off) => (s, .ask 0 dev off, [])
    | (s, .pte pte) => (s, .done (match checkEntry pte 0 with | .inl w => w | .inr _ => .fault .walkFormat 0), [])
  | l + 1, t =>
    match s.readEntry (t + 8 * tableIndex va (l + 1)) asid (l + 1) with
    | (s, .stop w) => (s, .done w, [])
    | (s, .ask dev off) => (s, .ask (l + 1) dev off, [])
    | (s, .pte pte) =>
      match checkEntry pte (l + 1) with
      | .inl w => (s, .done w, [])
      | .inr t' =>
        let (s, w, ts) := s.walkFrom asid va l t'
        (s, w, (l, t') :: ts)

/-- The cached pointer entry that leads furthest down (R328). -/
def Cluster.walkStart (c : Cluster) (asid root va : Nat) : Nat × Nat :=
  match [0, 1, 2].findSome? fun l =>
      (c.walks.find? fun w => w.asid = asid ∧ w.root = root ∧ w.level = l ∧ w.upper = va / 2 ^ pageBits (l + 1)) with
  | some w => (w.level, w.table)
  | none => (3, root * 4096)

/-- A walk has ended: its pointer entries are cached where it found a leaf for a cluster (R328), and the misses of this step that join it
take its outcome (R329). -/
def State.endWalk (s : State) (cl asid root va : Nat) (w : WalkEnd) (ts : List (Nat × Nat)) : State × WalkEnd :=
  let s := { s with walked := s.walked ++ [(⟨cl, asid, root, va / 2 ^ 18, w⟩ : WalkDone)] }
  match w with
  | .leaf .. =>
    let new := ts.map fun x => (⟨asid, root, x.1, va / 2 ^ pageBits (x.1 + 1), x.2⟩ : WalkEntry)
    if new = [] ∨ Config.numClusters ≤ cl then (s, w)
    else (s.modCluster cl fun c => { c with walks := (new ++ c.walks).take 256 }, w)
  | _ => (s, w)

/-- A walk on from a table, by `path` so far: to its end, or until another device answers. -/
def State.walkOn (s : State) (cl asid root va l t : Nat) (path : List (Nat × Nat)) : State × WalkEnd :=
  match s.walkFrom asid va l t with
  | (s, .done w, ts) => s.endWalk cl asid root va w (path ++ ts)
  | (s, .ask level dev off, ts) =>
    match { s with seqCtr := s.seqCtr + 1 }.sendRemote (4 * cl) dev off (.read 8) (.walk s.seqCtr) with
    | some s1 => ({ s1 with walking := s1.walking ++ [(⟨cl, asid, root, va / 2 ^ 18, s.seqCtr, level, path ++ ts, none⟩ : PendingWalk)] }, .later)
    | none => (s, .later)

/-- A walk that another device has answered goes on: an error is REMOTE_UNREACHABLE, poison WALK_POISON (R324, R327). -/
def State.walkAnswered (s : State) (p : PendingWalk) (va status pte : Nat) : State × WalkEnd :=
  let s := { s with walking := s.walking.filter fun x => x.id ≠ p.id }
  if status = 0 then
    match checkEntry pte p.level with
    | .inl w => s.endWalk p.cl p.asid p.root va w p.path
    | .inr t => s.walkOn p.cl p.asid p.root va (p.level - 1) t (p.path ++ [(p.level - 1, t)])
  else s.endWalk p.cl p.asid p.root va (.fault (if status = 1 then .remoteUnreachable else .walkPoison) p.level) p.path

/-- A walk for a cluster (R321, R324, R328): a miss joins the walk in flight for its page, or one that ended in this step, and waits
where 32 are in flight (R329). -/
def State.walk (s : State) (cl asid root va : Nat) : State × WalkEnd :=
  if root % 8 ≠ 0 then (s, .fault .walkFormat 3)
  else
    match s.walked.find? fun x => x.cl = cl ∧ x.asid = asid ∧ x.root = root ∧ x.page = va / 2 ^ 18 with
    | some x => (s, x.outcome)
    | none =>
      match s.walking.find? fun x => x.cl = cl ∧ x.asid = asid ∧ x.root = root ∧ x.page = va / 2 ^ 18 with
      | some p =>
        match p.got with
        | none => (s, .later)
        | some (st, pte) => s.walkAnswered p va st pte
      | none =>
        if 32 ≤ (s.walking.filter fun x => x.cl = cl).length then (s, .later)
        else
          let (l, t) := (s.cluster cl).walkStart asid root va
          s.walkOn cl asid root va l t []

/-- A TLB entry serves an address of an address space (R328). -/
def TlbEntry.hits (e : TlbEntry) (asid va : Nat) : Bool :=
  (e.asid == asid || e.pte.getLsbD 6) && e.vpn * 2 ^ 18 / 2 ^ pageBits e.level == va / 2 ^ pageBits e.level

/-- The list without the entries for an address, and the new one first, the oldest dropped. -/
def installTlb (l : List TlbEntry) (n : Nat) (e : TlbEntry) : List TlbEntry :=
  (e :: l.filter fun x => !x.hits e.asid (e.vpn * 2 ^ 18)).take n

/-- The entry that a leaf makes. -/
def tlbOf (asid va pte level : Nat) : TlbEntry :=
  ⟨asid, va / 2 ^ pageBits level * 2 ^ pageBits level / 2 ^ 18, level, BitVec.ofNat 64 pte⟩

def State.installCore (s : State) (core : Nat) (e : TlbEntry) : State :=
  s.modCore core fun c => { c with tlb := installTlb c.tlb 256 e }
def State.installCluster (s : State) (cl : Nat) (e : TlbEntry) : State :=
  s.modCluster cl fun c => { c with tlb := installTlb c.tlb 4096 e }

/-- A leaf for an address from the core's TLB, the cluster's, or a walk that installs in both; `again` walks whatever the TLBs
hold (R328). -/
def State.findLeaf (s : State) (core asid root va : Nat) (again : Bool) : State × WalkEnd :=
  let cl := core / 4
  match (if again then none else (s.core core).tlb.find? fun e => e.hits asid va) with
  | some e => (s, .leaf e.pte.toNat e.level)
  | none =>
    match (if again then none else (s.cluster cl).tlb.find? fun e => e.hits asid va) with
    | some e => (s.installCore core e, .leaf e.pte.toNat e.level)
    | none =>
      match s.walk cl asid root va with
      | (s, .leaf pte l) => ((s.installCluster cl (tlbOf asid va pte l)).installCore core (tlbOf asid va pte l), .leaf pte l)
      | (s, w) => (s, w)

/-- The leaf checks 1 to 5 of R325 for a kernel thread or an engine use. -/
def leafCheck (pte : Nat) (acc : Access) : Option Cause :=
  if bits pte 5 1 = 0 then some .pagePrivilege
  else if acc.reads ∧ bits pte 2 1 = 0 then some .pageRead
  else if acc.writes ∧ bits pte 3 1 = 0 then some .pageWrite
  else if acc.writes ∧ bits pte 7 1 = 0 then some .pageDirty
  else if acc = .fetch ∧ bits pte 4 1 = 0 then some .fetchFault
  else none

/-- The physical address of a virtual one under a leaf. -/
def leafPa (pte level va : Nat) : Nat := bits pte 10 42 * 1024 + va % 2 ^ pageBits level

/-- Why an address has no physical one: a cause with its level, or a walk that waits for another device. -/
inductive Miss where
  | cause (c : Cause) (level : Nat)
  | later
  deriving DecidableEq, Repr

/-- Where a leaf leads for an access of a kernel thread, an engine use or the distributor, or why nowhere (R325, R326). -/
def State.atLeaf (s : State) (pte l va : Nat) (acc : Access) : Except Miss (Target × Nat) :=
  match leafCheck pte acc with
  | some c => .error (.cause c l)
  | none =>
    let pa := leafPa pte l va
    match s.reach pa with
    | .fail c => .error (.cause c l)
    | .hbm a => .ok (.hbm a, a)
    | t => .ok (t, pa)

/-- Translation of a kernel thread's or an engine's access (R321 to R328, R335): the target and its physical address. A write that
hits an entry with D clear walks once more. -/
def State.translate (s : State) (core asid root va : Nat) (acc : Access) : State × Except Miss (Target × Nat) :=
  let (s, w) := s.findLeaf core asid root va false
  let (s, w) := match w with
    | .leaf pte _ => if acc.writes ∧ bits pte 7 1 = 0 then s.findLeaf core asid root va true else (s, w)
    | _ => (s, w)
  match w with
  | .later => (s, .error .later)
  | .fault c l => (s, .error (.cause c l))
  | .leaf pte l => (s, s.atLeaf pte l va acc)

/-- The level of the leaf through which a core has just translated an address (R339, R342). -/
def State.leafLevel (s : State) (core asid va : Nat) : Nat :=
  (((s.core core).tlb.find? fun e => e.hits asid va).map TlbEntry.level).getD 0

/-! ## Commit -/

/-- The lines of global memory that buffered entries touch leave the core's L1 (R102). -/
def State.invalidateFor (s : State) (core : Nat) (buf : List StoreEntry) : State :=
  buf.foldl (fun s e => match e.place with | .phys pa => s.dropL1 core (lineOf pa) | _ => s) s

/-- A store of an instruction that a lower LANE of the gang has still to commit (R81). -/
def Gang.above (g : Gang) (e : StoreEntry) : Bool :=
  (List.range e.lane).any fun i => (g.thread i).buf.any fun x => x.issue == e.issue

/-- The stores to be remembered once a thread's draft commits: those of LANEs whose instruction a lower LANE still has to commit or to have
performed (R81). -/
def MemState.toppedAfter (m : MemState) (g : Gang) (lane : Nat) : List StoreEntry :=
  let b := (g.thread lane).buf
  (m.topped ++ b.filter fun e => e.op == .write && g.above e).filter fun h =>
    h.tag != g.tag || g.above h || (m.inflight ++ b).any fun x => x.tag == h.tag && x.issue == h.issue && decide (x.lane < h.lane)

/-- A thread's draft commits: its entries leave in program order, and a new draft begins at `next` (R119, R139). -/
def State.commitThread (s : State) (k lane : Nat) (next : Pc) : State :=
  match s.gang? k with
  | none => s
  | some g =>
    let t := g.thread lane
    let s := s.invalidateFor (coreOf k) t.buf
    { s with mem := { s.mem with inflight := s.mem.inflight ++ t.buf, topped := s.mem.toppedAfter g lane } }.setGang k
      (g.setThread lane (t.committed next))

/-! ## Delivery (R311, R312) -/

/-- A delivery entry's 64 bytes as a number (R311). -/
def DqKind.code : DqKind → Nat
  | .trap => 0 | .brk => 1 | .preempt => 2 | .call => 3 | .engine => 4 | .place => 5

def DqEntry.bytes (e : DqEntry) : Nat :=
  e.kind.code + 2 ^ 4 * e.handle.toNat + 2 ^ 20 * e.cause.toNat + 2 ^ 32 * e.seq.toNat + 2 ^ 64 * e.lanes.toNat +
    2 ^ 128 * e.arg0.toNat + 2 ^ 192 * e.arg1.toNat

/-- The delivery queue of a cluster has room. -/
def State.dqRoom (s : State) (cl : Nat) : Bool := (s.cluster cl).dq.length < Config.queueDepth

/-- The gang a held source concerns, for a trap or a call. -/
def HeldSrc.key : HeldSrc → Option Nat
  | .trap k .. => some k
  | .call k .. => some k
  | _ => none

/-- The source waits for room only, and for no fault record nor store (R108, R312). -/
def State.heldReady (s : State) : HeldSrc → Bool
  | .trap k _ _ fs => ((s.gang? k).map fun g => !g.recordOut && (s.drainAll g.tag (fs.map (·.lane))).isSome).getD true
  | _ => true

/-- A new source enters at once: there is room, no source that waits for room alone stands before it, and none of its own
gang (R311, R312). -/
def State.mayEnter (s : State) (cl : Nat) (k : Option Nat) : Bool :=
  s.dqRoom cl && !((s.cluster cl).held.any fun h => s.heldReady h || (k.isSome && h.key == k))

/-- An entry enters with the next SEQ (R311). -/
def State.enter (s : State) (cl : Nat) (e : DqEntry) : State :=
  s.modCluster cl fun c => { c with dq := c.dq ++ [{ e with seq := c.nextSeq }], nextSeq := c.nextSeq + 1 }

def State.hold (s : State) (cl : Nat) (h : HeldSrc) : State := s.modCluster cl fun c => { c with held := c.held ++ [h] }

/-! ## Taking a trap (R140, R142, R312, R336 to R340) -/

/-- A trapping lane as its record shows it: livelock in place of its cause or not (R140). -/
structure Trapped where
  fault : LaneFault
  livelock : Bool
  deriving DecidableEq, Repr

/-- The cause that counts for the primary cause (R339). -/
def Trapped.cause (x : Trapped) : Cause := if x.livelock then .draftLivelock else x.fault.cause

/-- The primary cause of R340. -/
def primaryCause (l : List Trapped) : Cause :=
  match l with
  | [] => .zeroWord
  | x :: xs => xs.foldl (fun c y =>
      let d := y.cause
      if Cause.rank d < Cause.rank c ∨ (Cause.rank d = Cause.rank c ∧ Cause.code d < Cause.code c) then d else c) x.cause

/-- A lane's 16 bytes in the record (R339). -/
def Trapped.entry (x : Trapped) : Nat :=
  Cause.code x.fault.cause + 2 ^ 7 + 2 ^ 8 * x.fault.access + 2 ^ 10 * x.fault.level + 2 ^ 12 * x.fault.errkind +
    2 ^ 14 * x.livelock.toNat + 2 ^ 16 * x.fault.size + 2 ^ 32 * x.fault.code.toNat + 2 ^ 64 * x.fault.addr.toNat

/-- The record as a number of 2 KiB (R337 to R339). -/
def faultRecord (handle : BitVec 16) (seq : W32) (pc : Pc) (insn : Insn) (nofetch : Bool) (asid : Nat)
    (l : List Trapped) : Nat :=
  let p := primaryCause l
  let lanes := laneSet (l.map (·.fault.lane))
  let second := laneSet ((l.filter fun x => x.cause ≠ p).map (·.fault.lane))
  Cause.code p + 2 ^ 8 * l.length + 2 ^ 15 * nofetch.toNat + 2 ^ 16 * handle.toNat + 2 ^ 32 * seq.toNat +
    2 ^ 64 * pc.toNat + 2 ^ 128 * lanes.toNat + 2 ^ 192 * second.toNat + 2 ^ 256 * (asid % 2 ^ 16) +
    2 ^ 272 * (if nofetch then 0 else insn.toNat) +
    l.foldl (fun acc x => acc + 2 ^ (8 * (64 + 16 * x.fault.lane)) * x.entry) 0

/-- A thread takes a cause: it discards its draft and parks at DSTART, or parks at the instruction with its draft committed; the
livelock rule applies to a discard (R140, R142, R336). -/
def Thread.takeTrap (t : Thread) (pc : Pc) (f : LaneFault) : Thread × Bool :=
  if Cause.discards f.cause then
    let drc := if t.drc = 255 then 255 else t.drc + 1
    let live := t.drl ≤ drc
    ({ t.discarded with
        drc := drc, tstate := .trapped
        trap := ⟨BitVec.ofNat 7 (if live then Cause.code .draftLivelock else Cause.code f.cause), true, f.code⟩ }, live)
  else
    ({ t with pc := pc, due := none, tstate := .trapped, trap := ⟨BitVec.ofNat 7 (Cause.code f.cause), true, f.code⟩ }, false)

/-- The record of a use taken out of every level that it has joined. -/
def Gang.dropRec (g : Gang) (stamp : Nat) : Gang :=
  { g with levels := g.levels.map fun (x : Nat × Level) => (x.1, { x.2 with recs := x.2.recs.filter fun r => r.use ≠ stamp }) }

/-- The CPYs whose wait is over without their having been accepted leave the levels that they had joined (R276, R280). -/
def Gang.dropCpys (g : Gang) : Gang :=
  let out := g.cpys.filter fun x => !(g.waits.any fun w => w.seq == x.1)
  { out.foldl (fun (g : Gang) (x : Nat × Nat × CopyUse) => g.dropRec x.2.2.stamp) g with
    cpys := g.cpys.filter fun x => g.waits.any fun w => w.seq == x.1 }

/-- Lanes leave every wait of their gang. -/
def Gang.leaveWaits (g : Gang) (m : Lanes) : Gang :=
  let out (x : List Gather) : List Gather := x.map fun r => { r with waiting := r.waiting &&& ~~~m }
  Gang.dropCpys { g with
    waits := (g.waits.map fun w => { w with lanes := w.lanes &&& ~~~m }).filter fun w => w.lanes != 0
    gathers := out g.gathers, collects := out g.collects, stalled := g.stalled &&& ~~~m
    issued := g.issued.map fun x => { x with waiting := x.waiting &&& ~~~m } }

/-- The requests of a thread's loads toward other devices are dropped (R119, R141). -/
def State.dropLoads (s : State) (k : Nat) (m : Lanes) : State :=
  { s with link := { s.link with requests := s.link.requests.filter fun r =>
      match r.src with
      | .load k' lane .. => !(k' == k && m.getLsbD lane)
      | _ => true } }

/-- The fault record's location (R310). -/
def State.recordAt (s : State) (k : Nat) : Nat := (s.cluster (clusterOf k)).porter.pfrbase.toNat + 2048 * k

/-- The drafts of threads that a committing cause stops committed (R142). -/
def State.commitFaults (s : State) (k : Nat) (pc : Pc) (faults : List LaneFault) : State :=
  faults.foldl (fun s f => if Cause.discards f.cause then s else s.commitThread k f.lane pc) s

/-- The special functions in flight into s registers after threads of their draft have discarded it: one that no draft holds any more is
cancelled (R189). -/
def Gang.cancelSlices (g : Gang) (m : Lanes) : Gang :=
  { g with slices := g.slices.map fun x => { x with
      pend := (x.pend.map fun q => { q with members := q.members &&& ~~~m }).filter fun q => q.members != 0 } }

/-- The trap of an instruction's threads, with room in the queue, the record free and their drafts committed where the cause commits:
drafts discarded, threads parked, the record written and the entry made. -/
def State.takeTraps (s : State) (k : Nat) (pc : Pc) (insn : Insn) (faults : List LaneFault) : State :=
  match s.gang? k with
  | none => s
  | some g =>
    let res := faults.map fun f => (f, (g.thread f.lane).takeTrap pc f)
    let l := res.map fun x => (⟨x.1, x.2.2⟩ : Trapped)
    let g' := res.foldl (fun g x => g.setThread x.1.lane x.2.1) g
    let m := laneSet (faults.map (·.lane))
    let gone := laneSet ((faults.filter fun f => Cause.discards f.cause).map (·.lane))
    let s := (s.setGang k { ((g'.leaveWaits m).cancelSlices gone) with recordOut := true }).dropLoads k m
    let cl := clusterOf k
    let p := primaryCause l
    let nofetch := faults.any fun f => f.cause == .fetchFault || f.cause == .fetchPoison
    let base := s.recordAt k
    let s := s.writeRecord base 2048
      (faultRecord (s.handle k) (s.cluster cl).nextSeq pc insn nofetch g.asid l)
    s.enter cl {
      kind := if 0x70 ≤ Cause.code p then .brk else .trap, handle := s.handle k, cause := BitVec.ofNat 7 (Cause.code p)
      seq := 0, lanes := m, arg0 := BitVec.ofNat 64 base, arg1 := pc.setWidth 64 }

/-- A trap delivered: every committed store of the threads performed (R108), and the trap taken; `none` while another device has not
acknowledged such a store. -/
def State.tryTrap (s : State) (k : Nat) (pc : Pc) (insn : Insn) (faults : List LaneFault) : Option State :=
  match s.gang? k with
  | none => some s
  | some g => (s.drainAll g.tag (faults.map (·.lane))).map fun s1 => s1.takeTraps k pc insn faults

/-- The one operation by which threads of an instruction trap together: their drafts commit where the cause commits (R142), and the trap
is taken, or held while the gang's record is unreleased, the queue
full, or a store on its way to another device (R108, R312, R337). -/
def State.trapLanes (s : State) (k : Nat) (pc : Pc) (insn : Insn) (faults : List LaneFault) : State :=
  if faults = [] then s
  else
    let cl := clusterOf k
    match s.gang? k with
    | none => s
    | some g =>
      let s1 := s.commitFaults k pc faults
      let now := if !g.recordOut && s.mayEnter cl (some k) then s1.tryTrap k pc insn faults else none
      now.getD (s1.hold cl (.trap k pc insn faults))

/-- The LANEs of a gang that a held trap keeps from executing (R312). -/
def State.heldLanes (s : State) (k : Nat) : Lanes :=
  (s.cluster (clusterOf k)).held.foldl (fun m h =>
    match h with
    | .trap k' _ _ fs => if k' = k then m ||| laneSet (fs.map (·.lane)) else m
    | _ => m) 0

/-- The LANEs held at a SYSC (R231). -/
def State.callHeld (s : State) (k : Nat) : Lanes :=
  (s.cluster (clusterOf k)).held.foldl (fun m h =>
    match h with
    | .call k' l .. => if k' = k then m ||| l else m
    | _ => m) 0

/-- A thread made live again at its resume PC, where a new draft begins (R30, R316, R318); a caller completes its SYSC first
(R224) where its PC still names it. -/
def Thread.resume (t : Thread) (callPc : Option Pc) : Thread :=
  let t := { t with tstate := .live }
  let t := match callPc with | some pc => if t.pc = pc then t.complete pc else t | none => t
  t.beginDraft t.pc

/-! ## A porter's exceptions (R309, R344; log 31) -/

def PMode.code : PMode → Nat
  | .user => 0 | .supervisor => 1 | .machine => 3

/-- Exception codes of the privileged specification. -/
inductive PorterCause where
  | illegal | loadMisaligned | loadFault | storeMisaligned | storeFault | fetchPage | loadPage | storePage | fetchFault
  | breakpoint | callU | callS | callM
  deriving DecidableEq, Repr

def PorterCause.code : PorterCause → Nat
  | .fetchFault => 1 | .illegal => 2 | .breakpoint => 3 | .callU => 8 | .callS => 9 | .callM => 11 | .loadMisaligned => 4 | .loadFault => 5 | .storeMisaligned => 6 | .storeFault => 7
  | .fetchPage => 12 | .loadPage => 13 | .storePage => 15

/-- A porter's registers after a trap into supervisor mode. -/
def Porter.enterS (p : Porter) (cause tval : Nat) (intr : Bool) : Porter :=
  let st := p.mstatus.toNat
  let st := setBits (setBits (setBits st 5 1 (bits st 1 1)) 1 1 0) 8 1 (if p.mode = .user then 0 else 1)
  let base := p.stvec.toNat / 4 * 4
  { p with
    sepc := p.pc, scause := BitVec.ofNat 64 (cause + if intr then 2 ^ 63 else 0), stval := BitVec.ofNat 64 tval
    mstatus := BitVec.ofNat 64 st, mode := .supervisor
    pc := BitVec.ofNat 64 (if intr ∧ p.stvec.toNat % 4 = 1 then base + 4 * cause else base) }

/-- A porter's registers after a trap into machine mode. -/
def Porter.enterM (p : Porter) (cause tval : Nat) (intr : Bool) : Porter :=
  let st := p.mstatus.toNat
  let st := setBits (setBits (setBits st 7 1 (bits st 3 1)) 3 1 0) 11 2 p.mode.code
  let base := p.mtvec.toNat / 4 * 4
  { p with
    mepc := p.pc, mcause := BitVec.ofNat 64 (cause + if intr then 2 ^ 63 else 0), mtval := BitVec.ofNat 64 tval
    mstatus := BitVec.ofNat 64 st, mode := .machine
    pc := BitVec.ofNat 64 (if intr ∧ p.mtvec.toNat % 4 = 1 then base + 4 * cause else base) }

/-- An exception, into the mode that medeleg names. -/
def Porter.except (p : Porter) (c : PorterCause) (tval : Nat) : Porter :=
  if p.mode ≠ .machine ∧ p.medeleg.getLsbD c.code then p.enterS c.code tval false else p.enterM c.code tval false

/-- MPRV cleared by a return to a mode below machine mode. -/
def clearMprv (st : Nat) (m : PMode) : Nat := if m = .machine then st else setBits st 17 1 0

/-- A return from a trap taken into machine mode (MRET). -/
def Porter.leaveM (p : Porter) : Porter :=
  let st := p.mstatus.toNat
  let m : PMode := match bits st 11 2 with | 0 => .user | 1 => .supervisor | _ => .machine
  { p with
    pc := p.mepc, mode := m
    mstatus := BitVec.ofNat 64 (clearMprv (setBits (setBits (setBits st 3 1 (bits st 7 1)) 7 1 1) 11 2 0) m) }

/-- A return from a trap taken into supervisor mode (SRET). -/
def Porter.leaveS (p : Porter) : Porter :=
  let st := p.mstatus.toNat
  { p with
    pc := p.sepc, mode := if bits st 8 1 = 1 then .supervisor else .user
    mstatus := BitVec.ofNat 64 (setBits (setBits (setBits (setBits st 1 1 (bits st 5 1)) 5 1 1) 8 1 0) 17 1 0) }

def State.modPorter (s : State) (cl : Nat) (f : Porter → Porter) : State :=
  s.modCluster cl fun c => { c with porter := f c.porter }

/-- An exception of a cluster's porter. -/
def State.porterExcept (s : State) (cl : Nat) (c : PorterCause) (tval : Nat) : State := s.modPorter cl fun p => p.except c tval

/-! ## Ends of threads and gangs (R32, R268, R377) -/

/-- Every thread of the gang has ended. -/
def Gang.allEnded (g : Gang) : Bool := g.threads.all fun t => t.tstate == .ended

/-- A matrix set dissolves: its gangs are unbound, and threads that stand at a collective not yet started meet it again
(R286). -/
def State.dissolveSet (s : State) (core set : Nat) : State :=
  let ks := Tab.getD (s.core core).sets set []
  let s := s.modCore core fun c => { c with sets := Tab.erase c.sets set, named := Tab.erase c.named set }
  ks.foldl (fun s k => s.modGang k fun g => { g with binding := none, wish := none, collects := [], issued := [], stalled := 0 }) s

/-- The uses of a block that still gather parts end with CANCELLED once all its gangs have ended (R276). -/
def State.cancelGathering (s : State) (blk : Nat) : State :=
  match s.block? blk with
  | none => s
  | some b =>
    if b.endedGangs.length < b.ngang then s
    else
      [b.core, b.core + 1].foldl (fun s c =>
        match Tab.get? s.cores c with
        | some x => s.setCore c { x with uses := x.uses.filter fun u => !(u.2.blk == blk && u.2.state == .gathering) }
        | none => s) s

/-- A gang whose threads have all ended becomes ENDED: its monitors go, its matrix set dissolves, its failed stores mark its
launch, and its block's unfinished uses end with its last gang (R32, R268, R276, R286, R317, R377). -/
def State.endGang (s : State) (k : Nat) : State :=
  match s.gang? k with
  | none => s
  | some g =>
    if g.allEnded && g.gstate != .ended then
      let s := { s with mem := { s.mem with monitors := s.mem.monitors.filter fun m => m.key ≠ k } }
      let s := match g.binding with | some b => s.dissolveSet (coreOf k) b.1 | none => s
      let s := s.modGang k fun g => { g with
        gstate := .ended, waits := [], cpys := [], gathers := [], parked := none, collects := [], issued := [], stalled := 0
        heldResumes := 0 }
      let s := s.modBlock g.blk fun b => { b with endedGangs := NatSet.add b.endedGangs g.gidx }
      let s := s.cancelGathering g.blk
      if g.failedStores = 0 then s else s.modLaunch g.lid fun l => { l with remote := true }
    else s

end Sys2Proof.Machine
end

