-- ==== Sys2Proof/Machine/Rendezvous.lean ====
section
/-! DEFINITION. The collective waits of a gang: evaluation of event slots, the rendezvous and delivery of WAITANY (R145 to R150),
and the issue of collective matrix instructions (R287). -/

namespace Sys2Proof.Machine

/-- The LANEs whose threads are live (R20). -/
def Gang.live (g : Gang) : Lanes := lanesWhere g.width fun i => (g.thread i).tstate == .live

/-- SEALED (R53, R280). -/
def Gang.sealed (g : Gang) : Nat := (g.levels.filter fun l => l.2.state == .outstanding).length

/-- DEADLINE is expired (R55). -/
def State.expired (s : State) (g : Gang) : Bool := g.deadline != 0 && decide (g.deadline.toNat ≤ s.clock)

/-- The condition of an armed slot's token (R145). -/
def State.tokenHolds (s : State) (k slot : Nat) (g : Gang) : Token → State × Bool
  | .barrier o p =>
    match (s.block? g.blk).bind fun b => b.placeOf (coreOf k) o 16 with
    | some (odd, off) =>
      let (s, w) := s.readWord0 g.blk odd off
      (s, bits w 0 12 != p || bits w 12 1 == 1)
    | none => (s, true)
  | .batch n => (s, decide (g.sealed ≤ n))
  | .mailbox n =>
    let (s, h, bad) := s.mbxHeader g.blk n
    (s, bad || mbxOcc h != 0)
  | .monitor =>
    match s.mem.monitors.find? fun m => m.key = k ∧ m.slot = slot with
    | some m => (s, m.fired)
    | none => (s, true)
  | .timer => (s, s.expired g)

/-- One armed slot evaluated, and latched where its condition holds (R145). -/
def State.evaluateSlot (s : State) (k n : Nat) : State :=
  match s.gang? k with
  | none => s
  | some g =>
    match (Tab.getD g.slots n .fresh).armed with
    | none => s
    | some (tk, _) =>
      let (s, b) := s.tokenHolds k n g tk
      if b then s.modGang k fun g => g.latch n else s

/-- Every armed slot evaluated. -/
def State.evaluateSlots (s : State) (k : Nat) : State := (List.range 16).foldl (fun s n => s.evaluateSlot k n) s

/-- The armed slots. -/
def Gang.armed (g : Gang) : BitVec 16 :=
  (List.range 16).foldl (fun m n => if ((Tab.getD g.slots n .fresh).armed).isSome then m ||| BitVec.twoPow 16 n else m) 0

/-- An armed TIMER slot is named by a mask. -/
def Gang.timerIn (g : Gang) (m : BitVec 16) : Bool :=
  (List.range 16).any fun n => m.getLsbD n && (match (Tab.getD g.slots n .fresh).armed with | some (.timer, _) => true | _ => false)

/-- Taken backward transfers of slices added to their rotation counts while their live threads hold two or more PCs (R22). -/
def Gang.distinctPcs (g : Gang) (sl : Nat) : Nat :=
  ((((List.range 4).map (4 * sl + ·)).filter fun i => i < g.width && (g.thread i).tstate == .live).map
    fun i => (g.thread i).pc).dedup.length

/-- A slice's rotation count after a backward transfer: no more than 64. -/
def Gang.countBackward (g : Gang) (sl : Nat) : Gang :=
  g.modSlice sl fun x => if x.rot.isNone then { x with rotCount := min 64 (x.rotCount + 1) } else x

/-- A count returns to zero while the slice's live threads hold a single PC (R22). -/
def Gang.settleCounts (g : Gang) : Gang :=
  { g with slices := g.slices.mapIdx fun i x => if g.distinctPcs i ≤ 1 ∧ x.rot.isNone then { x with rotCount := 0 } else x }

/-- The held resumes of a gang take effect, where the porter left the threads (R30). -/
def Gang.releaseResumes (g : Gang) : Gang :=
  { (g.modLanes g.heldResumes fun t => t.resume none) with heldResumes := 0 }

/-- The trapped threads whose resume waits for the delivery: they join it at the handler (R150). -/
def Gang.joiners (g : Gang) : Lanes := lanesWhere g.width fun i => g.heldResumes.getLsbD i && (g.thread i).tstate == .trapped

/-- Delivery of slot n to a group, converged at its handler (R149, R221); trapped threads whose resume waited join it there with DRC
zero (R150; log 58), others resume where the porter left them (R30, R153). -/
def State.deliverSlot (s : State) (k n : Nat) (group : Lanes) (pc : Pc) : State :=
  match s.gang? k with
  | none => s
  | some g =>
    match (Tab.getD g.slots n .fresh).armed with
    | none => s
    | some (tk, h) =>
      let m := group ||| g.joiners
      let g1 := ({ g with heldResumes := g.heldResumes &&& ~~~m }.releaseResumes).modLanes m fun t => { (t.control (.jump h)).committed h with tstate := .live }
      let g2 := if h ≤ pc then
          ((List.range g.slices.length).filter fun i => group.extractLsb' (4 * i) 4 != 0 && 2 ≤ g.distinctPcs i).foldl
            Gang.countBackward g1
        else g1
      let s := s.setGang k ({ g2 with
        epend := g.epend &&& ~~~(BitVec.twoPow 16 n), evslot := BitVec.ofNat 5 n, heldResumes := 0, parked := none
        stalled := 0 }).settleCounts
      match tk with
      | .barrier .. => s.acquireL1 (coreOf k) .block
      | _ => s

/-- The delivery of slot n would acquire, and the gang's acquires are held: a barrier token's, after a migration (R108, R131). -/
def Gang.holdsToken (g : Gang) (n : Nat) : Bool :=
  g.flushFrom != [] && (match (Tab.getD g.slots n .fresh).armed with | some (.barrier .., _) => true | _ => false)

/-- The evaluation of R149 for a group at a WAITANY: delivery, a trap, or the group parks. -/
def State.evalGroup (s : State) (k : Nat) (r : Gather) : State :=
  let s := s.evaluateSlots k
  match s.gang? k with
  | none => s
  | some g =>
    let p := g.epend &&& g.emask &&& g.armed
    if p ≠ 0 then
      match (List.range 16).find? fun n => p.getLsbD n with
      | some n =>
        if g.holdsToken n then
          s.setGang k { (g.modLanes r.waiting fun t => { t with tstate := .waiting }) with parked := some r }
        else s.deliverSlot k n r.waiting r.pc
      | none => s
    else if g.armed &&& g.emask = 0 ∨ (!g.timerIn g.emask ∧ s.expired g) then
      let g1 := (g.modLanes r.waiting fun t => { t with tstate := .live }).releaseResumes
      (s.setGang k { g1 with parked := none, stalled := 0 }).trapLanes k r.pc r.insn
        ((lanesOf r.waiting g.width).map fun l => LaneFault.plain l .waitTimeout)
    else
      s.setGang k { (g.modLanes r.waiting fun t => { t with tstate := .waiting }) with parked := some r }

/-- A mask operand as the lowest LANE of a group gives it. -/
def Gang.maskOf (g : Gang) (f : Fields) (lane : Nat) : BitVec 16 :=
  match f.a with
  | .v i => ((g.thread lane).readV i.toNat).setWidth 16
  | .s i => ((g.slice (lane / 4)).readS i.toNat).setWidth 16
  | _ => f.imm.setWidth 16

/-- The fields of a word whose instruction carries them. -/
def Gather.fields (r : Gather) : Option Fields :=
  match r.instr with
  | .waitany f | .mma f | .mzero f | .mlda f | .msta f => some f
  | _ => none

/-- A gather at which every live thread has arrived (R148, R287). -/
def Gang.complete (g : Gang) (r : Gather) : Bool := g.live &&& ~~~(r.waiting ||| r.passed) == 0

/-- A complete rendezvous at a WAITANY is evaluated while no group is parked (R148). -/
def State.settleWaitany (s : State) (k : Nat) : State :=
  match s.gang? k with
  | none => s
  | some g =>
    if g.parked.isSome then s
    else
      match g.gathers.find? fun r => g.complete r with
      | none => s
      | some r =>
        let g1 := { g with gathers := g.gathers.filter fun x => x.pc ≠ r.pc }
        match lanesOf r.waiting g.width, r.fields with
        | l :: _, some f => (s.setGang k { g1 with emask := g.maskOf f l }).evalGroup k r
        | _, _ => s.setGang k g1

/-- An operand of a collective under R257: a 32-bit value of the lowest waiting LANE. -/
def Gang.uniform32 (g : Gang) (f : Fields) (o : Operand) (lane : Nat) : Nat :=
  match o with
  | .v i => ((g.thread lane).readV i.toNat).toNat
  | .s i => ((g.slice (lane / 4)).readS i.toNat).toNat
  | _ => f.imm.toNat

/-- The words of a member's B quarter, by thread; a thread that takes no part supplies zero elements (R288). -/
def Gang.quarterOf (g : Gang) (f : Fields) (waiting : Lanes) : List (List Nat) :=
  let n := mmaQuarter f.ty.code
  (List.range g.width).map fun t =>
    if waiting.getLsbD t then
      (List.range n).map fun j => ((g.thread t).readV ((f.b.vIndex).getD 255 + j)).toNat
    else List.replicate n 0

/-- The guard that an MSTA names. -/
def Gang.guardOf (g : Gang) (f : Fields) : RangeGuard :=
  match f.d with
  | .guard i => Tab.getD g.guards i.toNat .fresh
  | _ => .fresh

/-- What a gang brings to its next collective (R257, R287, R288). -/
def Gang.issueOf (g : Gang) (r : Gather) (f : Fields) : Issued :=
  let lane := (lanesOf r.waiting g.width).head?
  { pc := r.pc, instr := r.instr, insn := r.insn, waiting := r.waiting
    a := (lane.map fun l => g.uniform32 f f.a l).getD 0
    c := (lane.map fun l => g.uniform32 f f.opC l).getD 0
    quarter := match r.instr with | .mma _ => g.quarterOf f r.waiting | _ => []
    guard := g.guardOf f, cleared := false }

/-- A complete gather of a collective matrix instruction issues as the gang's next (R287). -/
def State.settleCollective (s : State) (k : Nat) : State :=
  match s.gang? k with
  | none => s
  | some g =>
    match g.collects.head?.filter fun r => g.complete r with
    | none => s
    | some r =>
      let g1 := { g with collects := g.collects.tail, stalled := 0 }
      match r.fields with
      | none => s.setGang k g1
      | some f => s.setGang k { g1 with issued := g1.issued ++ [g.issueOf r f] }

/-- What follows once threads of a gang have arrived, parked or ended. -/
def State.settle (s : State) (k : Nat) : State :=
  ((((s.endGang k).settleWaitany k).settleWaitany k).settleCollective k).modGang k Gang.settleCounts

end Sys2Proof.Machine
end

