-- ==== Sys2Proof/Machine/Operands.lean ====
section
/-! DEFINITION. Operands: the literal, special registers, what a source field reads, and the registers an instruction names as
sources and destinations (R50 to R54, R161, R162, R184, R187). -/

namespace Sys2Proof.Machine

/-- An FP32 pattern widened exactly to FP64 (R161). A NaN keeps its sign and its fraction, so that it stays quiet or signalling
(DEDUCED, log 46). -/
def widenFp32 (p : Nat) : Nat :=
  if bits p 23 8 = 0xFF then bits p 31 1 * 2 ^ 63 + 0x7FF * 2 ^ 52 + bits p 0 23 * 2 ^ 29
  else (roundFP fp64 (decodeFP fp32 p false) 0 false).1

/-- The literal at an operand of w bits (R161). -/
def litValue (f : Fields) (w : Nat) : Nat :=
  if w = 64 then
    if f.ty = .f64 then
      if f.x then widenFp32 f.imm.toNat else f.imm.toNat * 2 ^ 32
    else if f.x then (f.imm.signExtend 64).toNat else f.imm.toNat
  else f.imm.toNat

/-- CBSTAT (R53). -/
def Gang.cbstat (g : Gang) : Nat :=
  g.openLevel % 8 + (if (Tab.getD g.levels g.openLevel .fresh).recs = [] then 0 else 8) + 16 * (g.sealed % 16)

/-- GSTATn (R53). -/
def RangeGuard.stat (x : RangeGuard) : Nat := x.count.toNat + 2 ^ 16 * x.sticky.toNat + 2 ^ 17 * x.act.toNat

/-- What a special register reads in a thread (R50, R53, R54). -/
def State.readSR (s : State) (k lane : Nat) (r : SReg) : Nat :=
  let g := (s.gang? k).getD .blank
  let t := g.thread lane
  let b := s.block? g.blk
  let l := s.launch? g.lid
  let ext (h : Launch → Nat) : Nat := (l.map h).getD 0
  let bidx := g.blk % 2 ^ 31
  match r with
  | .lane => lane
  | .slice => lane / 4
  | .gang => g.gidx
  | .ngang => (b.map Block.ngang).getD 0
  | .gwidth => g.width
  | .block => bidx
  | .blockX => bidx % max 1 (ext Launch.gx)
  | .blockY => bidx / max 1 (ext Launch.gx) % max 1 (ext Launch.gy)
  | .blockZ => bidx / (max 1 (ext Launch.gx) * max 1 (ext Launch.gy))
  | .gridX => ext Launch.gx
  | .gridY => ext Launch.gy
  | .gridZ => ext Launch.gz
  | .core => coreOf k
  | .cluster => clusterOf k
  | .clockL => s.clock % 2 ^ 32
  | .clockH => t.clockH.toNat
  | .epend => g.epend.toNat
  | .emask => g.emask.toNat
  | .evslot => g.evslot.toNat
  | .deadL => g.deadline.toNat % 2 ^ 32
  | .deadH => g.deadline.toNat / 2 ^ 32
  | .dstartL => t.dstart.toNat % 2 ^ 32
  | .dstartH => t.dstart.toNat / 2 ^ 32
  | .dxm => t.dxm.toNat
  | .dwm => t.dwm.toNat
  | .dext => t.dext.toNat
  | .drc => t.drc.toNat
  | .drl => t.drl.toNat
  | .fstat => t.fstat.toNat
  | .loopd => t.loopd
  | .cbstat => g.cbstat
  | .edview n => ((b.map fun (x : Block) => Tab.getD x.edview n.val 0).getD 0).toNat
  | .gstat n => (Tab.getD g.guards n.val .fresh).stat
  | .glim n => (Tab.getD g.guards n.val .fresh).limit.toNat

/-- What an operand of w bits reads in a thread of a gang (R184); special registers apart. -/
def Gang.src (g : Gang) (lane : Nat) (f : Fields) (o : Operand) (w : Nat) : Nat :=
  match o with
  | .v i => (g.thread lane).readVs i.toNat (w / 32)
  | .s i => (g.slice (lane / 4)).readSs i.toNat (w / 32)
  | .p i => ((g.thread lane).readP i.toNat).toNat
  | .lit => litValue f w
  | _ => 0

/-- Src of R184. -/
def State.src (s : State) (k lane : Nat) (f : Fields) (o : Operand) (w : Nat) : Nat :=
  match o with
  | .sr r => s.readSR k lane r
  | _ => ((s.gang? k).map fun g => g.src lane f o w).getD 0

/-- A source field: its operand, its words, and whether FA or FB has it trap while empty (R162). -/
structure Src where
  o : Operand
  words : Nat
  fail : Bool
  deriving DecidableEq, Repr

/-- The source that a use of a field makes; an unused field makes none. -/
def Use.src (u : Use) (m : Member) (f : Fields) (o : Operand) (fail : Bool) : List Src :=
  if u.cls = [] then [] else [⟨o, u.width m f / 32, fail⟩]

/-- The sources that a member row gives. -/
def memberSrcs (m : Member) (f : Fields) : List Src :=
  Use.src m.a m f f.a f.fa ++ Use.src m.b m f f.b f.fb ++ Use.src m.c m f f.opC false

/-- The destination that a member row gives, with its words. -/
def memberDst (m : Member) (f : Fields) : List (Operand × Nat) :=
  if m.d.cls = [] then [] else [(f.d, m.d.width m f / 32)]

/-- The tracked units of an operand (R134). -/
def Operand.units (o : Operand) (words : Nat) : Units :=
  match o with
  | .v i => (List.range words).foldl (fun u j => u.union (Units.ofV (i.toNat + j))) Units.none
  | .s i => (List.range words).foldl (fun u j => u.union (Units.ofS (i.toNat + j))) Units.none
  | .p i => Units.ofP i.toNat
  | _ => Units.none

def srcUnits (l : List Src) : Units := l.foldl (fun u x => u.union (Operand.units x.o x.words)) Units.none
def dstUnits (l : List (Operand × Nat)) : Units := l.foldl (fun u x => u.union (Operand.units x.1 x.2)) Units.none

/-- Some destination is an s register: the instruction is uniform (R27). -/
def isUniform (l : List (Operand × Nat)) : Bool := l.any fun d => match d.1 with | .s _ => true | _ => false

/-- Some register of an operand is empty in a thread, or interlocked in its slice (R162, R189). -/
def Gang.notReady (g : Gang) (lane : Nat) (o : Operand) (words : Nat) : Bool :=
  match o with
  | .v i => (g.thread lane).emptyAt i.toNat words
  | .s i => (g.slice (lane / 4)).pend.any fun q => decide (q.reg < i.toNat + words ∧ i.toNat < q.reg + q.words ∧ i.toNat < 63)
  | _ => false

/-- Some register of an operand holds an uncorrectable error (R404). -/
def Gang.errorAt (g : Gang) (lane : Nat) (o : Operand) (words : Nat) : Bool :=
  match o with
  | .v i => (List.range words).any fun j => (g.thread lane).bad.getLsbD (i.toNat + j)
  | .s i => (List.range words).any fun j => (g.slice (lane / 4)).bad.getLsbD (i.toNat + j)
  | .p i => (g.thread lane).badP.getLsbD i.toNat
  | _ => false

/-- A source that traps while empty: class 00 with its flag set (R162). -/
def Src.traps (x : Src) (g : Gang) (lane : Nat) : Bool :=
  match x.o with
  | .v _ => x.fail && g.notReady lane x.o x.words
  | _ => false

/-- A source that makes its thread wait. -/
def Src.blocks (x : Src) (g : Gang) (lane : Nat) : Bool := g.notReady lane x.o x.words && !x.traps g lane

end Sys2Proof.Machine
end

