-- ==== Sys2Proof/Machine/Frame.lean ====
section
/-! DEFINITION. The frame around every instruction of a compute thread (R21 to R31, R132 to R143, R171, R182, R184): guards, full
and empty registers, draft boundaries and tracking, one run of the body for each thread, slice or gang, write-back, waits, traps
and rotation. -/

namespace Sys2Proof.Machine

/-- The draft classes of R137. -/
inductive DraftClass where
  | tracked | buffered | ending | edge
  deriving DecidableEq, Repr

/-- What a body does to a thread that completes its instruction: destinations written (a predicate as 0 or 1), flags, control,
the CLOCKH latch, a producer, buffered entries, a release fence, a state to park in. -/
structure Eff where
  dst : List (Operand × Nat × Nat)
  flags : Flags
  ctl : Ctl
  latch : Option W32
  prod : Option Producer
  entries : List StoreEntry
  fence : Bool
  park : Option TState
  deriving DecidableEq, Repr

/-- A completion that changes nothing but the PC. -/
def Eff.none : Eff := ⟨[], 0, .fall, .none, .none, [], false, .none⟩

/-- A producer takes the threads that its write-back concerns (R27). -/
def Eff.forMembers (e : Eff) (m : Lanes) : Eff := { e with prod := e.prod.map fun q => { q with members := m } }

/-- How a body ends for one thread, slice or gang: completed, trapping, waiting live at the instruction, standing at a collective,
or the whole issue held because an earlier request cannot be applied yet. -/
inductive Res where
  | ok (e : Eff)
  | trap (f : LaneFault)
  | wait
  | stand
  | hold
  deriving DecidableEq, Repr

/-- An instruction as the frame runs it. `each` runs the body once per thread although a destination is an s register; `gang`
runs it once for the sub-gang (R257); `inOrder` has higher LANEs wait behind one that waits (R266); `ctl` is the control it will
take, for tracking; `pre` is a further boundary (R133); `walks` is the state in which a thread's address waits for a walk, where it does
(R329); `ready` is a condition over all executing threads, and `unready` what a thread does
while it does not hold; `post` follows with
the threads that completed, those that stand, and those whose guard is false. -/
structure Op where
  instr : Instr
  cls : DraftClass
  srcs : List Src
  dsts : List (Operand × Nat)
  each : Bool
  gang : Bool
  inOrder : Bool
  ctl : State → Nat → Ctl
  pre : State → Nat → Bool
  walks : State → Nat → Option State
  ready : State → List Nat → Bool
  unready : State → Nat → Res
  body : State → Nat → State × Res
  post : State → List Nat → List Nat → List Nat → State

/-- A tracked instruction with the sources and destination of its member row. -/
def Op.base (i : Instr) (f : Fields) (body : State → Nat → State × Res) : Op :=
  let m := (memberOf i).getD (.three [] true .no .no .no)
  { instr := i, cls := .tracked, srcs := memberSrcs m f, dsts := memberDst m f, each := false, gang := false, inOrder := false
    ctl := fun _ _ => .fall, pre := fun _ _ => false, walks := fun _ _ => none, ready := fun _ _ => true, unready := fun _ _ => .wait, body := body, post := fun s _ _ _ => s }

/-- The units that the guard reads: none for p7 (R134). -/
def guardUnits (f : Fields) : Units := Units.ofP f.pred.toNat

/-- What the instruction reads and writes of the tracked units in a thread with a true guard. -/
def Op.units (op : Op) (f : Fields) (s : State) (g : Gang) (lane : Nat) : Units × Units :=
  let c := (g.thread lane).ctlUnits (op.ctl s lane)
  ((guardUnits f).union ((srcUnits op.srcs).union c.1), (dstUnits op.dsts).union c.2)

/-- The same for a thread whose guard is false (R134). -/
def falseUnits (f : Fields) (t : Thread) : Units × Units :=
  let c := t.ctlUnits .fall
  ((guardUnits f).union c.1, c.2)

/-- The thread has to commit before the instruction (R133, R134). -/
def Op.meets (op : Op) (f : Fields) (s : State) (g : Gang) (lane : Nat) : Bool :=
  let t := g.thread lane
  op.cls == .ending || op.cls == .edge || t.drain || t.boundary (op.units f s g lane).2 ||
    (op.cls == .buffered && decide (32 ≤ t.buf.length)) || op.pre s lane

/-- The other live threads of the written slices whose read-before-write bit of a written s octet is set (R136). -/
def Op.others (op : Op) (g : Gang) (go : List Nat) : List Nat :=
  let u := (dstUnits op.dsts).s
  if u = 0 then []
  else (List.range g.width).filter fun i =>
    (g.thread i).tstate == .live && !go.contains i && go.any (fun j => j / 4 == i / 4) &&
      (g.thread i).dext.extractLsb' 0 8 &&& u != 0

/-- The groups that run the body once each, with the LANE they read per-thread sources from (R27, R257). -/
def Op.groups (op : Op) (go : List Nat) : List (Nat × List Nat) :=
  if op.gang then
    match go with
    | [] => []
    | l :: _ => [(l, go)]
  else if isUniform op.dsts && !op.each then
    ((go.map (· / 4)).dedup).filterMap fun sl =>
      match go.filter fun l => l / 4 == sl with
      | [] => none
      | l :: r => some (l, l :: r)
  else go.map fun l => (l, [l])

/-- The LANE that reads for a group meets an empty register with its flag set, which traps (R162, R184). -/
def Op.empties (op : Op) (g : Gang) (x : Nat × List Nat) : Bool := op.srcs.any fun y => y.traps g x.1

/-- A group waits on an empty register: a source of the LANE that reads for it (R27, R257), or a destination of any of it (R162,
R184). -/
def Op.stalls (op : Op) (g : Gang) (x : Nat × List Nat) : Bool :=
  op.srcs.any (fun y => y.blocks g x.1) || op.dsts.any fun d => x.2.any fun l => g.notReady l d.1 d.2

/-- The LANE that reads for a group reads a register in error (R404). -/
def Op.spoils (op : Op) (g : Gang) (x : Nat × List Nat) : Bool := op.srcs.any fun y => g.errorAt x.1 y.o y.words

/-- The bodies of the groups run one after another; `none` where one holds the issue. -/
def Op.runGroups (op : Op) : List (Nat × List Nat) → State → Bool → Option (State × List (Nat × List Nat × Res))
  | [], s, _ => some (s, [])
  | (l, ms) :: rest, s, behind =>
    let (s, r) := if behind && op.inOrder then (s, .wait) else op.body s l
    if r = .hold then none
    else (op.runGroups rest s (behind || r == .wait)).map fun x => (x.1, (l, ms, r) :: x.2)

/-- An issued MSTA that names a guard (R57). -/
def Issued.names (x : Issued) (n : Nat) : Bool :=
  match x.instr with
  | .msta f => f.d == .guard (BitVec.ofNat 3 n)
  | _ => false

/-- A special register that a gang holds, written by SWRITE (R55 to R57). -/
def Gang.writeSR (g : Gang) (r : SReg) (x : Nat) : Gang :=
  match r with
  | .deadL => { g with deadStage := BitVec.ofNat 32 x }
  | .deadH => { g with deadline := BitVec.ofNat 32 x ++ g.deadStage }
  | .gstat n =>
    { g with
      guards := Tab.set g.guards n.val { Tab.getD g.guards n.val .fresh with count := 0, sticky := false }
      issued := g.issued.map fun x => { x with cleared := x.cleared || x.names n.val } }
  | _ => g

/-- One destination written (Dst of R184). -/
def Gang.writeDst (g : Gang) (lane : Nat) (d : Operand × Nat × Nat) : Gang :=
  match d.1 with
  | .v i => g.modThread lane fun t => t.writeVs i.toNat d.2.1 d.2.2
  | .s i => g.modSlice (lane / 4) fun x => x.writeSs i.toNat d.2.1 d.2.2
  | .p i => g.modThread lane fun t => t.writeP i.toNat (d.2.2 % 2 == 1)
  | .sr .fstat => g.modThread lane fun t => { t with fstat := BitVec.ofNat 6 d.2.2 }
  | .sr .drl => g.modThread lane fun t => { t with drl := BitVec.ofNat 8 (min 255 (max 1 d.2.2)) }
  | _ => g

/-- A producer issued: v destinations empty, an s destination interlocked (R46, R189). -/
def Gang.addProducer (g : Gang) (lane : Nat) (rep : Bool) (toS : Bool) (q : Producer) : Gang :=
  if toS then (if rep then g.modSlice (lane / 4) fun x => { x with pend := x.pend ++ [q] } else g)
  else g.modThread lane fun t => { t.setEmpty q.reg q.words with pend := t.pend ++ [q] }

/-- A completed thread: tracking, write-back, flags, control (R134, R182, R224). The second part says that its draft commits
now, under step 4 of R134 or because the instruction ends it. -/
def Op.finish (op : Op) (u : Units × Units) (g : Gang) (lane : Nat) (rep : Bool) (e : Eff) : Gang × Bool :=
  let t := g.thread lane
  let g := e.dst.foldl (fun g d => g.writeDst lane d) g
  let g := match e.prod with
    | some q => g.addProducer lane rep (isUniform op.dsts) q
    | none => g
  (g.modThread lane fun x =>
    let y := { x.track u.1 u.2 with
      fstat := x.fstat ||| e.flags, clockH := e.latch.getD x.clockH, buf := x.buf ++ e.entries
      fences := x.fences + e.fence.toNat }
    match e.park with
    | none => y.control e.ctl
    | some st => { y with tstate := st },
   t.selfClash u.1 u.2 || op.cls == .ending || op.cls == .edge)

/-- A thread whose guard is false falls through (R26, R134). -/
def finishFalse (f : Fields) (g : Gang) (lane : Nat) : Gang × Bool :=
  let t := g.thread lane
  let u := falseUnits f t
  (g.modThread lane fun x => (x.track u.1 u.2).control .fall, t.selfClash u.1 u.2)

/-- A thread's draft holds a producer that has not written back, its own or its slice's (R139, R189). -/
def Gang.busy (g : Gang) (lane : Nat) : Bool := (g.thread lane).pend != [] || (g.slice (lane / 4)).pend != []

/-- The drafts of lanes commit at their threads' PCs, or, where producers are still out, once those have written back. -/
def State.commitOrDrain (s : State) (k : Nat) (ls : List Nat) : State :=
  ls.foldl (fun s l =>
    match s.gang? k with
    | none => s
    | some g =>
      let t := g.thread l
      if g.busy l then s.setGang k (g.setThread l { t with drain := true }) else s.commitThread k l t.pc) s

/-- Committing faults that wait for their threads' drafts to commit (R142, R143): they are delivered whatever the instruction finds
then. -/
def State.keepFaults (s : State) (k : Nat) (fs : List LaneFault) : State :=
  s.modGang k fun g => fs.foldl (fun g x => g.modThread x.lane fun t => { t with drain := true, due := some x }) g

/-- Lanes marked as waiting for their drafts to commit (DRAIN of R143). -/
def State.drainLanes (s : State) (k : Nat) (ls : List Nat) : State :=
  s.modGang k fun g => g.modLanes (laneSet ls) fun t => { t with drain := true }

/-- Rotation counts and paths after an issue: backward transfers of slices whose live threads held two or more PCs (R22). -/
def Gang.rotate (g0 g1 : Gang) (exec : List Nat) (back : List Nat) : Gang :=
  let slices := (exec.map (· / 4)).dedup
  let g := slices.foldl (fun g sl => g.modSlice sl fun x =>
    match x.rot with
    | some r => { x with rot := some ⟨r.path ||| laneSet (exec.filter fun l => l / 4 == sl), r.left - 1⟩ }
    | none => x) g1
  let g := ((back.map (· / 4)).dedup.filter fun sl => 2 ≤ g0.distinctPcs sl).foldl Gang.countBackward g
  g.settleCounts

/-- KEEP and YIELD marks of the issuing slices (R167, R365), which no register blocks any more (R364). -/
def Gang.hint (g : Gang) (f : Fields) (clock : Nat) (yield : Bool) (exec : List Nat) : Gang :=
  ((exec.map (· / 4)).dedup).foldl (fun g sl => g.modSlice sl fun x =>
    { x with keepUntil := if f.keep then clock + 64 else x.keepUntil, yielded := yield, blocked := false }) g

/-- Slices whose issue found an empty register (R364). -/
def Gang.block (g : Gang) (ls : List Nat) : Gang :=
  ((ls.map (· / 4)).dedup).foldl (fun g sl => g.modSlice sl fun x => { x with blocked := true }) g

/-- A wait record added. -/
def State.addWait (s : State) (k : Nat) (ls : List Nat) (i : Instr) (seq since n : Nat) : State :=
  if ls = [] then s
  else s.modGang k fun g => { g with
    waits := g.waits ++ [⟨laneSet ls, s.focus.pc, i, s.focus.insn, seq, since, n⟩] }

/-- A committing cause has to wait for the loads of its thread's draft (R139, R142). -/
def mustDrain (g : Gang) (x : LaneFault) : Bool := !Cause.discards x.cause && g.busy x.lane

/-- The completions among the results of the groups: LANE, whether its sources were the ones read, effect. -/
def completions (rs : List (Nat × List Nat × Res)) : List (Nat × Bool × Eff) :=
  rs.flatMap fun x => match x.2.2 with
    | .ok e => x.2.1.map fun l => (l, l == x.1, e.forMembers (laneSet x.2.1))
    | _ => []

/-- The faults among them. -/
def faultsOf (rs : List (Nat × List Nat × Res)) : List LaneFault :=
  rs.flatMap fun x => match x.2.2 with
    | .trap c => x.2.1.map fun l => { c with lane := l }
    | _ => []

/-- The LANEs whose result is a given one. -/
def lanesWith (rs : List (Nat × List Nat × Res)) (r : Res) : List Nat := rs.flatMap fun x => if x.2.2 = r then x.2.1 else []

/-- The completed threads one after another, then those with a false guard; with the LANEs whose drafts commit now. -/
def Op.finishAll (op : Op) (f : Fields) (s : State) (g0 g1 : Gang) (oks : List (Nat × Bool × Eff)) (gf : List Nat) :
    Gang × List Nat :=
  gf.foldl (fun acc l =>
      let r := finishFalse f acc.1 l
      (r.1, if r.2 then acc.2 ++ [l] else acc.2))
    (oks.foldl (fun acc x =>
      let r := op.finish (op.units f s g0 x.1) acc.1 x.1 x.2.1 x.2.2
      (r.1, if r.2 then acc.2 ++ [x.1] else acc.2)) (g1, []))

/-- The LANEs among them that take a backward transfer (R22). -/
def backLanes (g0 : Gang) (oks : List (Nat × Bool × Eff)) (gf : List Nat) : List Nat :=
  (oks.filter fun x => (g0.thread x.1).backward x.2.2.ctl).map (·.1) ++ gf.filter fun l => (g0.thread l).backward .fall

/-- The gang after the completions: threads, rotation and hints; `mask` is the execution mask of an issue, and empty where a wait ends
(R22, R365). -/
def Op.gangAfter (op : Op) (f : Fields) (s : State) (g0 g1 : Gang) (oks : List (Nat × Bool × Eff)) (gf mask : List Nat) : Gang :=
  (Gang.rotate g0 (op.finishAll f s g0 g1 oks gf).1 mask (backLanes g0 oks gf)).hint f s.clock (op.instr == .yield f) mask

/-- The log entries of reads of registers in error, one for each thread that traps for one (R404, R425). -/
def State.logSpoilt (s : State) (k : Nat) (fs : List LaneFault) : State :=
  fs.foldl (fun s x => if x.cause = .dataPoison then
    s.logError .poisoned 2 (coreOf k) 0 1 (((s.gang? k).map Gang.asid).getD 0) else s) s

/-- The bodies run for the executing threads and their effects applied: `go` those with a true guard, `gf` those with a false
one, `mask` the execution mask, `emp` the faults already found. `none` holds the issue. -/
def State.perform (s : State) (f : Fields) (op : Op) (go gf mask : List Nat) (emp : List LaneFault) (seq since : Nat) :
    Option State :=
  let k := s.focus.key
  let g0 := s.gang? k
  (if op.ready s go then op.runGroups (op.groups go) s false
   else some (s, go.map fun l => (l, [l], op.unready s l))).map fun (s1, rs) =>
    match g0, s1.gang? k with
    | some g0, some g1 =>
      let faults := emp ++ faultsOf rs
      let late := faults.filter (mustDrain g0)
      if late ≠ [] then s.keepFaults k late
      else
        let oks := completions rs
        let s2 := ((s1.setGang k (op.gangAfter f s g0 g1 oks gf mask)).commitOrDrain k (op.finishAll f s g0 g1 oks gf).2).modGang k fun g =>
          if op.cls == .ending then g.modLanes (laneSet (oks.map (·.1))) fun t => { t with solo := t.drain } else g
        let s3 := s2.addWait k (lanesWith rs .wait) op.instr seq since 0
        let s4 := op.post s3 (oks.map (·.1)) (lanesWith rs .stand) gf
        ((s4.logSpoilt k emp).trapLanes k s.focus.pc s.focus.insn faults).settle k
    | _, _ => s1

/-- The fault of a thread that reads a register in error (R404). -/
def LaneFault.spoilt (lane : Nat) : LaneFault := ⟨lane, .dataPoison, 0, 0, 2, 0, 0, 0⟩

/-- The fault of a group whose LANE reads a register in error: a cause of the address checks, of translation or of the target comes
first where the address is sound (R335). -/
def Op.spoiltFault (op : Op) (g : Gang) (s : State) (x : Nat × List Nat) : LaneFault :=
  let sound : Bool := match op.srcs with | y :: _ => !g.errorAt x.1 y.o y.words | [] => false
  match (op.body s x.1).2 with
  | .trap c => if sound = true ∧ 0x10 ≤ Cause.code c.cause ∧ Cause.code c.cause ≤ 0x1D then c else .spoilt x.1
  | _ => .spoilt x.1

/-- The faults that a group's members take alike. -/
def groupFaults (F : Nat × List Nat → LaneFault) (gs : List (Nat × List Nat)) : List LaneFault :=
  gs.flatMap fun x => x.2.map fun l => { F x with lane := l }

/-- What an issue finds before its bodies run: the threads of the execution mask by what becomes of them. -/
structure Sorted where
  /-- threads whose fault has waited for their draft -/
  kept : List LaneFault
  /-- threads whose guard is in error -/
  blind : List Nat
  gf : List Nat
  /-- groups that trap on an empty register, that read a register in error, and that execute -/
  emp : List (Nat × List Nat)
  ill : List (Nat × List Nat)
  ok : List (Nat × List Nat)
  /-- the threads of those that execute -/
  go : List Nat

/-- The threads of an execution mask sorted. -/
def Op.sort (op : Op) (f : Fields) (g : Gang) (mask : List Nat) : Sorted :=
  let free := mask.filter fun l => (g.thread l).due.isNone
  let seen := free.filter fun l => !g.errorAt l (.p f.pred) 1
  let ts := seen.filter fun l => (g.thread l).guard f
  let gs := op.groups ts
  let rest := gs.filter fun x => !op.empties g x
  let ok := rest.filter fun x => !op.spoils g x
  { kept := mask.filterMap fun l => (g.thread l).due
    blind := free.filter fun l => g.errorAt l (.p f.pred) 1
    gf := seen.filter fun l => !(g.thread l).guard f
    emp := gs.filter (op.empties g)
    ill := rest.filter (op.spoils g)
    ok := ok
    go := ts.filter fun l => ok.any fun x => x.2.contains l }

/-- The faults found before any body runs (R27, R184, R257, R335, R404): a cause of a group is raised in all of it (log 56). -/
def Op.early (op : Op) (g : Gang) (s : State) (x : Sorted) : List LaneFault :=
  x.kept ++ x.blind.map LaneFault.spoilt ++ groupFaults (fun y => LaneFault.plain y.1 .emptyRegister) x.emp ++
    groupFaults (op.spoiltFault g s) x.ill

/-- The focus without threads that do not execute. -/
def State.narrowed (s : State) (out : List Nat) : State :=
  { s with focus := { s.focus with lanes := s.focus.lanes &&& ~~~(laneSet out) } }

/-- The LANEs whose drafts commit before an issue: those that meet a boundary, and other live threads of a slice under R136
(R133, R134). -/
def Op.bounds (op : Op) (f : Fields) (s : State) (g : Gang) (go gf : List Nat) : List Nat :=
  go.filter (op.meets f s g) ++
    (gf.filter fun l => (g.thread l).drain || (g.thread l).boundary (falseUnits f (g.thread l)).2) ++ op.others g go

/-- The drafts of some LANEs commit at their threads' PCs. -/
def State.commitLanes (s : State) (k : Nat) (g : Gang) (ls : List Nat) : State :=
  ls.foldl (fun s l => s.commitThread k l (g.thread l).pc) s

/-- The frame of R182 around an instruction of the sub-gang in focus. -/
def State.runOp (s : State) (f : Fields) (op : Op) : State :=
  let k := s.focus.key
  match s.gang? k with
  | none => s
  | some g =>
    let mask := lanesOf s.focus.lanes g.width
    let x := op.sort f g mask
    if (x.ill ++ x.ok).any (op.stalls g) then s.setGang k (g.block mask)
    else
      let emp := op.early g s x
      let s1 := s.narrowed (emp.map (·.lane))
      let bl := op.bounds f s1 g x.go x.gf
      let late := emp.filter (mustDrain g)
      let busy := bl.filter g.busy
      if late ≠ [] ∨ busy ≠ [] then (s.keepFaults k late).drainLanes k busy
      else
        match x.go.findSome? (op.walks s1) with
        | some s' => s'
        | none =>
          let s2 := s1.commitLanes k g bl
          ({ s2 with seqCtr := s2.seqCtr + 1 }.perform f op x.go x.gf mask emp s.seqCtr s.clock).getD s2

/-- A waiting instruction of a gang tried again for the threads of one wait record; those that still wait keep their place. -/
def State.wakeOp (s : State) (k : Nat) (w : Wait) (f : Fields) (op : Op) : State :=
  match s.gang? k with
  | none => s
  | some g =>
    let go := lanesOf (w.lanes &&& g.live) g.width
    let s1 := { s.setGang k { g with waits := g.waits.filter fun x => x.seq ≠ w.seq } with focus := ⟨k, w.lanes, w.pc, w.insn, w.seq⟩ }
    ((s1.perform f op go [] [] [] w.seq w.since).map fun s' => { s' with focus := s.focus }).getD s

/-- A fresh number for a producer. -/
def State.takeId (s : State) : State × Nat := ({ s with seqCtr := s.seqCtr + 1 }, s.seqCtr)

/-- A fresh free-value counter. -/
def State.takeFree (s : State) : State × Nat := ({ s with freeCtr := s.freeCtr + 1 }, s.freeCtr)

end Sys2Proof.Machine
end

