-- ==== Sys2Proof/Machine/IntegerAlu.lean ====
section
/-! DEFINITION. What the integer, logic, bit and predicate instructions compute from their source patterns (R191 to R199). A
source is the pattern its operand holds; a result is the pattern that Dst writes, with the flags it raises. -/

namespace Sys2Proof.Machine

/-- The exact integer x delivered in type T, saturated where SAT is set (R191). -/
def deliverInt (t : Ty) (sat : Bool) (x : Int) : Flagged Nat :=
  let (y, fl) := if sat then satBits t.signed t.width x else (x, flagNone)
  (intResult t y, fl)

def aluIadd (t : Ty) (sat : Bool) (a b : Nat) : Flagged Nat := deliverInt t sat (intVal t a + intVal t b)
def aluIsub (t : Ty) (sat : Bool) (a b : Nat) : Flagged Nat := deliverInt t sat (intVal t a - intVal t b)
def aluImul (t : Ty) (sat : Bool) (a b : Nat) : Flagged Nat := deliverInt t sat (intVal t a * intVal t b)
def aluImulh (t : Ty) (a b : Nat) : Flagged Nat :=
  deliverInt t false ((intVal t a * intVal t b).fdiv (2 ^ t.width : Nat))
def aluImad (t : Ty) (sat : Bool) (a b c : Nat) : Flagged Nat :=
  deliverInt t sat (intVal t a * intVal t b + intVal t c)
/-- IMADW: a 32-bit product added to a 64-bit source, in the 64-bit type of T's signedness (R191). -/
def aluImadw (t : Ty) (sat : Bool) (a b c : Nat) : Flagged Nat :=
  let wide : Ty := if t.signed then .i64 else .n64
  deliverInt wide sat (intVal t a * intVal t b + intVal wide c)
def aluImin (t : Ty) (a b : Nat) : Flagged Nat := deliverInt t false (min (intVal t a) (intVal t b))
def aluImax (t : Ty) (a b : Nat) : Flagged Nat := deliverInt t false (max (intVal t a) (intVal t b))
def aluIabs (t : Ty) (sat : Bool) (a : Nat) : Flagged Nat := deliverInt t sat ((intVal t a).natAbs : Int)
def aluIneg (t : Ty) (sat : Bool) (a : Nat) : Flagged Nat := deliverInt t sat (-intVal t a)

/-- IADDC: the sum and the carry-out (R192). -/
def aluIaddc (t : Ty) (a b : Nat) (c : Bool) : Nat × Bool :=
  let x := zExt t.width a + zExt t.width b + c.toNat
  (x % 2 ^ t.width, 2 ^ t.width ≤ x)

/-- ISUBB: the difference and the borrow-out (R192). -/
def aluIsubb (t : Ty) (a b : Nat) (c : Bool) : Nat × Bool :=
  let x : Int := (zExt t.width a : Int) - zExt t.width b - c.toNat
  (wrapBits t.width x, x < 0)

/-- The relation of ICMP and ISET (R193). -/
def aluIcmp (t : Ty) (md a b : Nat) : Bool := intRelation md (intVal t a) (intVal t b)

/-- ISET: minus one or zero in type T (R193). -/
def aluIset (t : Ty) (md a b : Nat) : Nat := if aluIcmp t md a b then intResult t (-1) else 0

/-- LEA: base plus scaled index (R194). -/
def aluLea (t : Ty) (md a b : Nat) : Nat := wrapBits 64 ((zExt 64 a : Int) + intVal t b * (2 ^ md : Nat))

def aluAnd (w a b : Nat) : Nat := zExt w a &&& zExt w b
def aluOr (w a b : Nat) : Nat := zExt w a ||| zExt w b
def aluXor (w a b : Nat) : Nat := zExt w a ^^^ zExt w b
def aluNot (w a : Nat) : Nat := 2 ^ w - 1 - zExt w a
def aluAndn (w a b : Nat) : Nat := zExt w a &&& aluNot w b

/-- SHL; a count of the width or more gives zero (R196). -/
def aluShl (w a n : Nat) : Nat := if w ≤ n then 0 else zExt w (zExt w a * 2 ^ n)
def aluShr (w a n : Nat) : Nat := if w ≤ n then 0 else zExt w a / 2 ^ n
/-- SAR; a count of the width or more gives copies of the sign bit (R196). -/
def aluSar (w a n : Nat) : Nat := wrapBits w ((sExt w a).fdiv (2 ^ min n w : Nat))
def aluRot (w a n : Nat) : Nat := zExt w (zExt w a * 2 ^ (n % w)) + zExt w a / 2 ^ (w - n % w)

/-- SHF left or right over the double word A:B (R196). -/
def aluShf (right : Bool) (w a b c : Nat) : Nat :=
  let m := min c w
  let x := zExt w a * 2 ^ w + zExt w b
  if right then x / 2 ^ m % 2 ^ w else x * 2 ^ m / 2 ^ w % 2 ^ w

/-- BFE of the field that a control word names (R197). -/
def aluBfe (signed : Bool) (w a ctl : Nat) : Nat :=
  let pos := ctl % 256
  let len := min (ctl / 256 % 256) w
  if len = 0 then 0
  else
    let e : Int := if signed then sExt w a else (zExt w a : Int)
    let f := wrapBits len (e.fdiv (2 ^ pos : Nat))
    if signed then wrapBits w (sExt len f) else f

/-- BFI: bits pos to pos + len − 1 of B replaced by the low bits of A (R197). -/
def aluBfi (w a b ctl : Nat) : Nat :=
  let pos := ctl % 256
  let len := ctl / 256 % 256
  let mask := zExt w ((2 ^ len - 1) * 2 ^ pos)
  (zExt w b &&& aluNot w mask) ||| (zExt w (zExt w a * 2 ^ pos) &&& mask)

/-- Bit i of a pattern. -/
def bitOf (x i : Nat) : Bool := x / 2 ^ i % 2 == 1

def aluPopc (w a : Nat) : Nat := ((List.range w).filter (bitOf a)).length
def aluClz (w a : Nat) : Nat := if zExt w a = 0 then w else w - 1 - Nat.log2 (zExt w a)
def aluCtz (w a : Nat) : Nat := ((List.range w).takeWhile fun i => !bitOf a i).length
def aluBrev (w a : Nat) : Nat := (List.range w).foldl (fun acc i => 2 * acc + (bitOf a i).toNat) 0

/-- One result byte of PRMT from its control byte (R198). -/
def permuteByte (a b ctl : Nat) : Nat :=
  let byte := elem 8 (zExt 32 b * 2 ^ 32 + zExt 32 a) (ctl % 8)
  match ctl / 8 % 4 with
  | 0 => byte
  | 1 => 0
  | 2 => if 128 ≤ byte then 255 else 0
  | _ => aluBrev 8 byte

def aluPrmt (a b c : Nat) : Nat := packElems 8 ((List.range 4).map fun i => permuteByte a b (elem 8 c i))

end Sys2Proof.Machine
end

