-- ==== Sys2Proof/Machine/Compute.lean ====
section
/-! DEFINITION. The shapes of the compute instructions: one to three sources of a thread, a pattern or a predicate delivered
(R184, R187), and the long-latency form of R189. -/

namespace Sys2Proof.Machine

/-- An instruction of the sub-gang in focus: always a next state. -/
def runInstr (f : Fields) (op : Op) (s : State) : Host.Outcome State Fault Refusal := .next (s.runOp f op)

/-- The member row of an encoded instruction. -/
def rowOf (i : Instr) : Member := (memberOf i).getD (.three [] true .no .no .no)

/-- Src(A), Src(B) and Src(C) in the focused gang (R184). -/
def State.srcA (s : State) (i : Instr) (f : Fields) (lane : Nat) : Nat := s.src s.focus.key lane f f.a ((rowOf i).a.width (rowOf i) f)
def State.srcB (s : State) (i : Instr) (f : Fields) (lane : Nat) : Nat := s.src s.focus.key lane f f.b ((rowOf i).b.width (rowOf i) f)
def State.srcC (s : State) (i : Instr) (f : Fields) (lane : Nat) : Nat :=
  s.src s.focus.key lane f f.opC ((rowOf i).c.width (rowOf i) f)

/-- Words of the destination. -/
def dstWords (i : Instr) (f : Fields) : Nat := (rowOf i).d.width (rowOf i) f / 32

/-- A pattern delivered to D with its flags. -/
def Eff.value (i : Instr) (f : Fields) (x : Flagged Nat) : Eff := { Eff.none with dst := [(f.d, dstWords i f, x.1)], flags := x.2 }

/-- A predicate delivered to D. -/
def Eff.pred (f : Fields) (b : Bool) (fl : Flags) : Eff := { Eff.none with dst := [(f.d, 1, b.toNat)], flags := fl }

/-- An instruction that delivers a pattern computed from a thread's sources. -/
def opValue (i : Instr) (f : Fields) (v : State → Nat → Flagged Nat) : Op :=
  Op.base i f fun s l => (s, .ok (Eff.value i f (v s l)))

/-- An instruction that delivers a predicate computed from a thread's sources. -/
def opPred (i : Instr) (f : Fields) (v : State → Nat → Bool × Flags) : Op :=
  Op.base i f fun s l => (s, .ok (Eff.pred f (v s l).1 (v s l).2))

def opAlu1 (i : Instr) (f : Fields) (v : Nat → Flagged Nat) : Op := opValue i f fun s l => v (s.srcA i f l)
def opAlu2 (i : Instr) (f : Fields) (v : Nat → Nat → Flagged Nat) : Op := opValue i f fun s l => v (s.srcA i f l) (s.srcB i f l)
def opAlu3 (i : Instr) (f : Fields) (v : Nat → Nat → Nat → Flagged Nat) : Op :=
  opValue i f fun s l => v (s.srcA i f l) (s.srcB i f l) (s.srcC i f l)

/-- A result that raises no flag. -/
def noFlag {α : Type} (x : α) : Flagged α := (x, flagNone)

/-- The producer of a value for D (R46, R189): an access already performed. -/
def producerOf (s : State) (id : Nat) (f : Fields) (words value : Nat) (fl : Flags) (pr : Option (Nat × Bool)) (isLoad : Bool) :
    Producer :=
  let reg := match f.d with | .v i => i.toNat | .s i => i.toNat | _ => 255
  { id := id, reg := reg, words := words, value := value, flags := fl, pred := pr, ready := true, isLoad := isLoad
    pc := s.focus.pc, insn := s.focus.insn, members := 0, ty := f.ty, fwd := [], acq := none }

/-- A value that a long-latency producer will write to D (R189). -/
def Eff.late (q : Producer) : Eff := { Eff.none with prod := some q }

/-- A long-latency instruction computing a pattern. -/
def opLate (i : Instr) (f : Fields) (v : State → Nat → Flagged Nat) : Op :=
  Op.base i f fun s l =>
    let (s1, id) := s.takeId
    let x := v s l
    (s1, .ok (Eff.late (producerOf s id f (dstWords i f) x.1 x.2 none false)))

/-- The participants of the issue in focus, ascending: the executing threads with a true guard (R213); those that trap have left the
focus. -/
def State.participants (s : State) (f : Fields) : List Nat :=
  let g := (s.gang? s.focus.key).getD .blank
  (lanesOf s.focus.lanes g.width).filter fun l => (g.thread l).guard f

/-- The thread whose sources an instruction reads for a thread: itself, or the lowest executing one of its slice where the
instruction is uniform (R27). -/
def State.repOf (s : State) (f : Fields) (op : List (Operand × Nat)) (lane : Nat) : Nat :=
  if isUniform op then ((s.participants f).find? fun l => l / 4 == lane / 4).getD lane else lane

/-- Width(T) where the entry has a type. -/
def tyBits (f : Fields) : Nat := f.ty.regWidth

/-- The high word that a read of CLOCKL latches (R54). -/
def State.clockLatch (s : State) (o : Operand) : Option W32 :=
  if o = .sr .clockL then some (BitVec.ofNat 32 (s.clock / 2 ^ 32)) else none

end Sys2Proof.Machine
end

