-- ==== Sys2Proof/Machine/Memory.lean ====
section
/-! DEFINITION. What the memory instructions share: the address and its checks (R236), the read of a load with forwarding
(R112, R138), buffered entries (R238), read-modify-writes at the home (R248 to R250). -/

namespace Sys2Proof.Machine

/-- The gang in focus. -/
def State.focusGang (s : State) : Gang := (s.gang? s.focus.key).getD .blank

/-- After a migration the gang's acquires, and its global loads and RMWs before the first, are held until the old core has
acknowledged the flush (R131, R366). -/
def Op.awaitFlush (op : Op) : Op :=
  { op with body := fun s l => if s.focusGang.flushFrom != [] then (s, .hold) else op.body s l }

/-- The spaces of R79. -/
inductive Space where
  | glob | scratch | param
  deriving DecidableEq, Repr

/-- Where an access goes once EA of R236 has passed. -/
inductive Spot where
  | glob (va : Nat) (t : Target) (pa : Nat)
  | scratch (odd : Bool) (off : Nat)
  | param (off : Nat)
  deriving DecidableEq, Repr

/-- The place that a store entry names. -/
def Spot.place (g : Gang) : Spot → Place
  | .glob _ _ pa => .phys pa
  | .scratch odd off => .scratch g.blk odd off
  | .param off => .param off

/-- The sum of base and offset in a space (R236). -/
def eaSum (space : Space) (base : Nat) (imm : BitVec 32) : Nat :=
  match space with
  | .glob => wrapBits 64 ((base : Int) + imm.toInt)
  | _ => (base + imm.toNat) % 2 ^ 32

/-- EA of R236 for an address of n bytes: the first check that fails gives the cause; a walk that waits holds the issue (R329). -/
def State.eaAt (s : State) (k l : Nat) (space : Space) (a n : Nat) (acc : Access) : State × Except Res Spot :=
  let g := (s.gang? k).getD .blank
  let fault (c : Cause) (level : Nat) : Res := .trap ⟨l, c, acc.code, level, 0, n, 0, BitVec.ofNat 64 a⟩
  if a % n ≠ 0 then (s, .error (fault .misaligned 0))
  else
    match space with
    | .glob =>
      if bits a 56 8 ≠ 0 then (s, .error (fault .addressRange 0))
      else
        match s.translate (coreOf k) g.asid g.root a acc with
        | (s, .error .later) => (s, .error .hold)
        | (s, .error (.cause c lv)) => (s, .error (fault c lv))
        | (s, .ok (t, pa)) => (s, .ok (.glob a t pa))
    | .scratch =>
      match (s.block? g.blk).bind fun b => b.placeOf (coreOf k) a n with
      | some (odd, off) => (s, .ok (.scratch odd off))
      | none => (s, .error (fault .scratchRange 0))
    | .param =>
      if ((s.launch? g.lid).map Launch.paramBytes).getD 0 < a + n then (s, .error (fault .paramRange 0))
      else (s, .ok (.param a))

/-- The offset of an address: IMM, but zero for CAS, whose IMM names C (R247). -/
def eaOffset (i : Instr) (f : Fields) : BitVec 32 :=
  match i with
  | .cas _ _ => 0
  | _ => f.imm

/-- EA of an instruction in a thread. -/
def State.ea (s : State) (i : Instr) (f : Fields) (l : Nat) (space : Space) (acc : Access) (n : Nat) :
    State × Except Res Spot :=
  s.eaAt s.focus.key l space (eaSum space (s.srcA i f l) (eaOffset i f)) n acc

/-- The state in which EA waits for a walk, where it does. -/
def eaWaits : State × Except Res Spot → Option State
  | (s, .error .hold) => some s
  | _ => none

/-- Two byte ranges share a byte. -/
def overlap (a n b m : Nat) : Bool := a < b + m && b < a + n

/-- The bytes of an access of n bytes that the draft's buffered stores hold, the latest store of each (R112, R138). -/
def forwarded (buf : List StoreEntry) (pl : Place) (n : Nat) : List (Nat × Nat) :=
  (List.range n).filterMap fun j =>
    (buf.reverse.findSome? fun e =>
      match e.op, Place.sameSpace pl e.place with
      | .write, some (a, b) => if b ≤ a + j ∧ a + j < b + e.size then some (e.data / 256 ^ (a + j - b) % 256) else none
      | _, _ => none).map fun x => (j, x)

/-- A value of n bytes with forwarded bytes put in. -/
def mergeBytes (x : Nat) (fwd : List (Nat × Nat)) : Nat := fwd.foldl (fun x c => setBits x (8 * c.1) 8 c.2) x

/-- The pattern a load delivers in its registers (R187, R237). -/
def loadPattern (t : Ty) (x : Nat) : Nat := if t.bytes < 4 then extendTo t (8 * t.bytes) 32 x else x

/-- A load touches a byte of a RED buffered in the thread's draft (R133). -/
def State.touchesRed (s : State) (k l : Nat) (pl : Place) (n : Nat) : Bool :=
  let g := (s.gang? k).getD .blank
  (g.thread l).buf.any fun e =>
    match e.op, Place.sameSpace pl e.place with
    | .red .., some (a, b) => overlap a n b e.size
    | _, _ => false

/-- An earlier acquire of the thread has not been performed yet (R106 (d)). -/
def State.acquirePending (s : State) (k l : Nat) : Bool :=
  (((s.gang? k).getD .blank).thread l).pend.any fun q => !q.ready && q.acq.isSome

/-- How a global read ended: data, an error, a request toward another device, a cause, or not yet possible. -/
inductive ReadEnd where
  | data (x : Nat)
  | bad (kind : Nat)
  | remote (dev off : Nat)
  | fail (c : Cause)
  | later
  deriving DecidableEq, Repr

/-- A load of n bytes at the home, by a thread of a core (R102). -/
def State.readHome (s : State) (core : Nat) (t : Target) (pa n asid : Nat) : State × ReadEnd :=
  match t with
  | .remote dev off =>
    if 0xF00 ≤ dev then (s, .fail .remoteUnreachable)
    else
      match s.drainLine core (.phys (lineOf pa)) with
      | some s => (s, .remote dev off)
      | none => (s, .later)
  | _ =>
    match s.homeRead core pa n asid with
    | some (s, .data x) => (s, .data x)
    | some (s, .bad k) => (s, .bad k)
    | none => (s, .later)

/-- A plain load: from the core's L1 copy, else at the home with a fill (R102). -/
def State.readPlain (s : State) (core : Nat) (t : Target) (va pa n asid : Nat) : State × ReadEnd :=
  match t with
  | .hbm a =>
    match Tab.get? (s.core core).l1 (lineOf a) with
    | some ln => (s, .data (ln.read a n))
    | none =>
      match s.readHome core t a n asid with
      | (s, .data x) => (s.fillL1 core asid va a, .data x)
      | r => r
  | .remote .. =>
    match Tab.get? (s.core core).l1 (lineOf pa) with
    | some ln => (s, .data (ln.read pa n))
    | none => s.readHome core t pa n asid
  | _ => s.readHome core t pa n asid

/-- The line of a plain load of another device's HBM that missed, asked of its home once for the core's L1 (R81, R102). -/
def State.askLine (s : State) (core asid va dev off : Nat) : State :=
  let pa := 2 ^ 51 + dev * 2 ^ 39 + 128 * lineOf off
  if s.link.requests.any fun r => match r.src with | .fill c _ _ a => c == core && a == pa | _ => false then s
  else (s.sendRemote core dev (128 * lineOf off) (.read 128) (.fill core asid va pa)).getD s

/-- The number under which a lower LANE of the instruction in focus has asked another device for the same bytes: every LANE of a load
that reads a byte receives one value (R81). -/
def State.askedFor (s : State) (dev off : Nat) : Option Nat :=
  s.link.requests.findSome? fun r =>
    match r.src with
    | .load k _ id .. => if k = s.focus.key ∧ s.focus.seq ≤ id ∧ r.dev = dev ∧ r.off = off then some id else none
    | _ => none

/-- A load's completion: the value as a producer of D (R46, R237), an error as DATA_POISON, or a request sent (R375). What lies
in this device or in host memory is read at the issue (logs 3 and 6). -/
def State.finishLoad (s : State) (f : Fields) (l : Nat) (a : Nat) (fwd : List (Nat × Nat)) (pr : Option (Nat × Bool))
    (acq : Option Scope) : ReadEnd → State × Res
  | .later => (s, .hold)
  | .bad kind => (s, .trap ⟨l, .dataPoison, 0, 0, kind, f.ty.bytes, 0, BitVec.ofNat 64 a⟩)
  | .fail c =>
    (s, .trap ⟨l, c, 0, s.leafLevel (coreOf s.focus.key) s.focusGang.asid a, 0, f.ty.bytes, 0, BitVec.ofNat 64 a⟩)
  | .data x =>
    let (s1, id) := s.takeId
    let q := producerOf s id f (f.ty.regWidth / 32) (loadPattern f.ty (mergeBytes x fwd)) flagNone pr true
    (s1, .ok (Eff.late q))
  | .remote dev off =>
    let late (s : State) (id : Nat) : Res :=
      .ok (Eff.late { producerOf s id f (f.ty.regWidth / 32) 0 flagNone pr true with ready := false, fwd := fwd, acq := acq })
    match s.askedFor dev off with
    | some id => (s, late s id)
    | none =>
    let (s1, id) := s.takeId
    match s1.sendRemote (coreOf s.focus.key) dev off (.read f.ty.bytes)
        (.load s.focus.key l id a (s.leafLevel (coreOf s.focus.key) s.focusGang.asid a)) with
    | some s2 =>
      (if acq.isNone then s2.askLine (coreOf s.focus.key) s.focusGang.asid a dev off else s2,
        late s id)
    | none => (s, .hold)

/-- The shape of a load: address, boundary at a buffered RED, then the read. -/
def opLoad (i : Instr) (f : Fields) (space : Space) (read : State → Nat → Spot → State × Res) : Op :=
  let b := Op.base i f fun s l =>
    if s.acquirePending s.focus.key l then (s, .hold)
    else
      match s.ea i f l space .read f.ty.bytes with
      | (s, .error r) => (s, r)
      | (s, .ok sp) => read s l sp
  { b with
    walks := fun s l => eaWaits (s.ea i f l space .read f.ty.bytes)
    pre := fun s l =>
      match (s.ea i f l space .read f.ty.bytes).2 with
      | .ok sp => s.touchesRed s.focus.key l (sp.place ((s.gang? s.focus.key).getD .blank)) f.ty.bytes
      | .error _ => false }

/-- The bytes forwarded to a load of the focused gang. -/
def State.fwdOf (s : State) (l : Nat) (sp : Spot) (n : Nat) : List (Nat × Nat) :=
  forwarded (s.focusGang.thread l).buf (sp.place s.focusGang) n

/-- An entry for the thread's draft store buffer (R238, R251). -/
def State.entryOf (s : State) (l : Nat) (sp : Spot) (op : StoreOp) (n data : Nat) (fill : Bool) (rel : Option Scope) :
    StoreEntry :=
  let g := s.focusGang
  { op := op, place := sp.place g, va := match sp with | .glob va .. => va | _ => 0, asid := g.asid, size := n
    data := data % 256 ^ n, fill := fill, rel := rel, fences := (g.thread l).fences, key := s.focus.key, lane := l
    core := coreOf s.focus.key, tag := g.tag, epoch := g.epoch, issue := s.focus.seq }

/-- The half is not the thread's own (R34, R86). -/
def State.partnerHalf (s : State) (odd : Bool) : Bool :=
  match s.block? s.focusGang.blk with
  | some b => odd != (coreOf s.focus.key != b.core)
  | none => false

/-- While a gang holds a count of failed remote stores, an instruction that would publish past them traps in every thread instead
of performing, and the count is cleared (R246, R377). -/
def Op.publishes (op : Op) (on : Bool) (n : Nat) : Op :=
  if !on then op
  else { op with
    body := fun s l =>
      if s.focusGang.failedStores ≠ 0 then
        (s, .trap ⟨l, .remoteUnreachable, 1, 0, 0, n, 0, 0⟩)
      else op.body s l
    post := fun s d st gf =>
      let s := op.post s d st gf
      if s.focusGang.failedStores ≠ 0 ∧ d = [] ∧ st = [] ∧ gf.length < (lanesOf s.focus.lanes s.focusGang.width).length then
        s.modGang s.focus.key fun g => { g with failedStores := 0 }
      else s }

/-- DOMAIN or SYSTEM scope. -/
def Scope.wide : Scope → Bool
  | .domain | .system => true
  | _ => false

/-- The order acquires (R169). -/
def orderAcq : Order → Bool
  | .acq | .ar => true
  | _ => false
/-- The order releases (R169). -/
def orderRel : Order → Bool
  | .rel | .ar => true
  | _ => false

/-- One read-modify-write at its home (R114, R248, R250), of host memory at SYSTEM scope: what earlier stores it has to follow, the error check, the new value,
the old value returned, the core's copy gone. -/
def State.rmw (s : State) (f : Fields) (l : Nat) (o : Order) (sc : Scope) (a pa : Nat) (new : Nat → Option Nat) : State × Res :=
  let g := s.focusGang
  let core := coreOf s.focus.key
  let n := f.ty.bytes
  let sc := match s.reach pa with | .host _ => .system | _ => sc
  match (if orderRel o then s.drainThread g.tag l else s.drainFenced g.tag l (g.thread l).fences) with
  | none => (s, .hold)
  | some s =>
    match s.homeRead core pa n g.asid with
    | none => (s, .hold)
    | some (s, .bad kind) => (s, .trap ⟨l, .dataPoison, 2, 0, kind, n, 0, BitVec.ofNat 64 a⟩)
    | some (s, .data old) =>
      let s := match new old with | some x => s.homeWrite pa n x | none => s
      let s := s.dropL1 core (lineOf pa)
      let s := if orderAcq o then s.acquireL1 core sc else s
      (s, .ok { Eff.none with dst := [(f.d, f.ty.regWidth / 32, old)] })

/-- A read-modify-write of another device's memory: its result comes with the acknowledgement (R375, R376). -/
def State.rmwRemote (s : State) (f : Fields) (l : Nat) (o : Order) (sc : Scope) (a dev off pa : Nat) (op : RemoteOp) : State × Res :=
  let g := s.focusGang
  let lv := s.leafLevel (coreOf s.focus.key) g.asid a
  if 0xF00 ≤ dev then (s, .trap ⟨l, .remoteUnreachable, 2, lv, 0, f.ty.bytes, 0, BitVec.ofNat 64 a⟩)
  else
    match (if orderRel o then s.drainThread g.tag l else s.drainFenced g.tag l (g.thread l).fences).bind fun s =>
        s.drainLine (coreOf s.focus.key) (.phys (lineOf pa)) with
    | none => (s, .hold)
    | some s =>
      let s := s.dropL1 (coreOf s.focus.key) (lineOf pa)
      let (s1, id) := s.takeId
      match s1.sendRemote (coreOf s.focus.key) dev off op (.load s.focus.key l id a lv) with
      | none => (s, .hold)
      | some s2 =>
        let q := producerOf s id f (f.ty.regWidth / 32) 0 flagNone none false
        (s2, .ok (Eff.late { q with ready := false, acq := if orderAcq o then some sc else none }))

/-- The shape of ATOM and CAS: an ending instruction, one read-modify-write for each thread in ascending LANE (R248, R250). -/
def opRmw (i : Instr) (f : Fields) (o : Order) (new : State → Nat → Nat → Option Nat) (req : State → Nat → RemoteOp) : Op :=
  let sc := scopeOf f.md.toNat
  let b := Op.base i f fun s l =>
    match s.ea i f l .glob .rmw f.ty.bytes with
    | (s, .error r) => (s, r)
    | (s, .ok (.glob a (.remote dev off) pa)) => s.rmwRemote f l o sc a dev off pa (req s l)
    | (s, .ok (.glob a _ pa)) => s.rmw f l o sc a pa (new s l)
    | (s, .ok _) => (s, .ok Eff.none)
  ({ b with cls := .ending, walks := fun s l => eaWaits (s.ea i f l .glob .rmw f.ty.bytes) }.publishes (o != Order.plain && sc.wide) f.ty.bytes).awaitFlush

/-- ATOM (R248). -/
def opAtom (i : Instr) (f : Fields) (o : Order) (op : Nat) : Op :=
  opRmw i f o (fun s l old => some (newValue op f.ty old (s.srcB i f l))) fun s l => .atom op f.ty (s.srcB i f l)

/-- RED (R251): one buffered entry, checked as a read-modify-write. -/
def opRed (i : Instr) (f : Fields) (rel : Bool) (op : Nat) : Op :=
  let sc := scopeOf f.md.toNat
  let b := Op.base i f fun s l =>
    match s.ea i f l .glob .rmw f.ty.bytes with
    | (s, .error r) => (s, r)
    | (s, .ok sp) =>
      (s, .ok { Eff.none with
        entries := [s.entryOf l sp (.red op f.ty) f.ty.bytes (s.srcB i f l) false (if rel then some sc else none)] })
  { b with cls := .buffered, walks := fun s l => eaWaits (s.ea i f l .glob .rmw f.ty.bytes) }.publishes (rel && sc.wide) f.ty.bytes

/-- ST (R238). -/
def opStore (i : Instr) (f : Fields) (space : Space) (fill : Bool) (rel : Option Scope) : Op :=
  let b := Op.base i f fun s l =>
    match s.ea i f l space .write f.ty.bytes with
    | (s, .error r) => (s, r)
    | (s, .ok sp) =>
      let full := match sp with | .scratch odd _ => fill || s.partnerHalf odd | _ => false
      (s, .ok { Eff.none with entries := [s.entryOf l sp .write f.ty.bytes (s.srcB i f l) full rel] })
  { b with cls := .buffered, walks := fun s l => eaWaits (s.ea i f l space .write f.ty.bytes) }.publishes (space == Space.glob && (rel.map Scope.wide).getD false) f.ty.bytes

end Sys2Proof.Machine
end

