-- ==== Sys2Proof/Machine/Atomics.lean ====
section
/-! DEFINITION. Read-modify-writes and reductions, OP 0x70 to 0x72 (R247 to R251). -/

namespace Sys2Proof.Machine

/-- ATOM.ADD (R247, R248). -/
def execAtomAdd (o : Order) (f : Fields) (s : State) : Host.Outcome State Fault Refusal :=
  runInstr f (opAtom (.atomAdd o f) f o 0) s

/-- ATOM.MIN (R247, R248). -/
def execAtomMin (o : Order) (f : Fields) (s : State) : Host.Outcome State Fault Refusal :=
  runInstr f (opAtom (.atomMin o f) f o 1) s

/-- ATOM.MAX (R247, R248). -/
def execAtomMax (o : Order) (f : Fields) (s : State) : Host.Outcome State Fault Refusal :=
  runInstr f (opAtom (.atomMax o f) f o 2) s

/-- ATOM.AND (R247, R248). -/
def execAtomAnd (o : Order) (f : Fields) (s : State) : Host.Outcome State Fault Refusal :=
  runInstr f (opAtom (.atomAnd o f) f o 3) s

/-- ATOM.OR (R247, R248). -/
def execAtomOr (o : Order) (f : Fields) (s : State) : Host.Outcome State Fault Refusal :=
  runInstr f (opAtom (.atomOr o f) f o 4) s

/-- ATOM.XOR (R247, R248). -/
def execAtomXor (o : Order) (f : Fields) (s : State) : Host.Outcome State Fault Refusal :=
  runInstr f (opAtom (.atomXor o f) f o 5) s

/-- ATOM.EXCH (R247, R248). -/
def execAtomExch (o : Order) (f : Fields) (s : State) : Host.Outcome State Fault Refusal :=
  runInstr f (opAtom (.atomExch o f) f o 6) s

/-- ATOM.FADD (R247, R248, R249). -/
def execAtomFadd (o : Order) (f : Fields) (s : State) : Host.Outcome State Fault Refusal :=
  runInstr f (opAtom (.atomFadd o f) f o 7) s

/-- CAS (R250): the new value only where the old one equals Src(B), bit by bit. -/
def execCas (o : Order) (f : Fields) (s : State) : Host.Outcome State Fault Refusal :=
  runInstr f (opRmw (.cas o f) f o
    (fun s l old => if old = s.srcB (.cas o f) f l then some (s.srcC (.cas o f) f l) else none)
    fun s l => .cas f.ty (s.srcB (.cas o f) f l) (s.srcC (.cas o f) f l)) s

/-- RED.ADD (R247, R251). -/
def execRedAdd (rel : Bool) (f : Fields) (s : State) : Host.Outcome State Fault Refusal :=
  runInstr f (opRed (.redAdd rel f) f rel 0) s

/-- RED.MIN (R247, R251). -/
def execRedMin (rel : Bool) (f : Fields) (s : State) : Host.Outcome State Fault Refusal :=
  runInstr f (opRed (.redMin rel f) f rel 1) s

/-- RED.MAX (R247, R251). -/
def execRedMax (rel : Bool) (f : Fields) (s : State) : Host.Outcome State Fault Refusal :=
  runInstr f (opRed (.redMax rel f) f rel 2) s

/-- RED.AND (R247, R251). -/
def execRedAnd (rel : Bool) (f : Fields) (s : State) : Host.Outcome State Fault Refusal :=
  runInstr f (opRed (.redAnd rel f) f rel 3) s

/-- RED.OR (R247, R251). -/
def execRedOr (rel : Bool) (f : Fields) (s : State) : Host.Outcome State Fault Refusal :=
  runInstr f (opRed (.redOr rel f) f rel 4) s

/-- RED.XOR (R247, R251). -/
def execRedXor (rel : Bool) (f : Fields) (s : State) : Host.Outcome State Fault Refusal :=
  runInstr f (opRed (.redXor rel f) f rel 5) s

/-- RED.FADD (R247, R251, R249). -/
def execRedFadd (rel : Bool) (f : Fields) (s : State) : Host.Outcome State Fault Refusal :=
  runInstr f (opRed (.redFadd rel f) f rel 7) s

end Sys2Proof.Machine
end

