-- ==== Sys2Proof/Machine/Loads.lean ====
section
/-! DEFINITION. Loads, OP 0x60 (R234 to R242), and the performance of a load that waited for full granules (R87, R88). -/

namespace Sys2Proof.Machine

/-- A read of n bytes of one half by a thread of a core, after the core's earlier stores to it (R102, R237). -/
def State.readScratch (s : State) (core blk : Nat) (odd : Bool) (off n : Nat) : State × ReadEnd :=
  match s.drainLine core (Place.line (.scratch blk odd off)) with
  | none => (s, .later)
  | some s =>
    match s.scratchRead blk odd off n with
    | (s, .data x) => (s, .data x)
    | (s, .bad k) => (s, .bad k)

/-- The address an instruction forms (R236). -/
def State.eaOf (s : State) (i : Instr) (f : Fields) (l : Nat) (space : Space) : Nat := eaSum space (s.srcA i f l) f.imm

/-- A read that forwarded bytes leave nothing of (R138). -/
def State.readUnless (s : State) (fwd : List (Nat × Nat)) (n : Nat) (read : State × ReadEnd) : State × ReadEnd :=
  if fwd.length = n then (s, .data 0) else read

/-- A plain load of a spot (R237). -/
def State.loadPlain (s : State) (i : Instr) (f : Fields) (space : Space) (l : Nat) (sp : Spot) : State × Res :=
  let g := s.focusGang
  let n := f.ty.bytes
  let core := coreOf s.focus.key
  let fwd := s.fwdOf l sp n
  let (s', r) := s.readUnless fwd n (match sp with
    | .glob a t pa => s.readPlain core t a pa n g.asid
    | .scratch odd off => s.readScratch core g.blk odd off n
    | .param off => (s, .data (Mem.readN (((s.launch? g.lid).map Launch.params).getD []) off n)))
  s'.finishLoad f l (s.eaOf i f l space) fwd none none r

/-- An acquire load of a spot: at the home, never from the L1, and the L1 invalidated at a scope of BLOCK or wider (R102, R239). A
load of another device acquires when its answer comes. -/
def State.loadAcquire (s : State) (i : Instr) (f : Fields) (space : Space) (sc : Scope) (l : Nat) (sp : Spot) : State × Res :=
  let g := s.focusGang
  let n := f.ty.bytes
  let core := coreOf s.focus.key
  let fwd := s.fwdOf l sp n
  let (s', r) := s.readUnless fwd n (match sp with
    | .glob _ t pa => (s.dropL1 core (lineOf pa)).readHome core t pa n g.asid
    | .scratch odd off => s.readScratch core g.blk odd off n
    | .param off => (s, .data (Mem.readN (((s.launch? g.lid).map Launch.params).getD []) off n)))
  let s'' := match r with | .data _ => s'.acquireL1 core sc | _ => s'
  s''.finishLoad f l (s.eaOf i f l space) fwd none (some sc) r

/-- LD.G (R237). -/
def execLdG (f : Fields) (s : State) : Host.Outcome State Fault Refusal :=
  runInstr f (opLoad (.ldG f) f .glob fun s l sp => s.loadPlain (.ldG f) f .glob l sp).awaitFlush s

/-- LD.G.ACQ (R239). -/
def execLdGAcq (f : Fields) (s : State) : Host.Outcome State Fault Refusal :=
  runInstr f (opLoad (.ldGAcq f) f .glob fun s l sp =>
    s.loadAcquire (.ldGAcq f) f .glob (scopeOf f.md.toNat) l sp).awaitFlush s

/-- A bounded load's read (R128): from a copy, or at the home with a refill; the predicate it sets. -/
def State.readBounded (s : State) (core blk asid k : Nat) (t : Target) (va pa n : Nat) (rpt : Bool)
    (fwd : List (Nat × Nat)) : State × ReadEnd × Bool :=
  let home (s : State) (a : Nat) : State × ReadEnd × Bool :=
    if fwd.length = n then (s, .data 0, true)
    else
      match s.readHome core t a n asid with
      | (s, .data x) => (match t with | .hbm _ => s.fillL1 core asid va a | _ => s, .data x, true)
      | (s, r) => (s, r, true)
  match s.regionOf asid va with
  | none =>
    let (s, r) := s.readUnless fwd n (s.readPlain core t va pa n asid)
    (s, r, true)
  | some rg =>
    let v := (((s.block? blk).map fun (b : Block) => Tab.getD b.edview rg.slot 0).getD 0).toNat
    match Tab.get? (s.core core).l1 (lineOf pa) with
    | none => home s pa
    | some ln =>
      let fits := match ln.tag with
        | some (x, e, c) => x == asid && e == rg.slot && v != 0 && decide (v ≤ c.toNat + k)
        | none => false
      if fits then (s, .data (ln.read pa n), true)
      else if rpt && v != 0 then (s, .data (ln.read pa n), false)
      else home s pa

/-- The shape of a bounded load: B is the predicate it writes with D (R241). -/
def opBounded (i : Instr) (f : Fields) (rpt : Bool) : Op :=
  let b := opLoad i f .glob fun s l sp =>
    let g := s.focusGang
    let fwd := s.fwdOf l sp f.ty.bytes
    match sp with
    | .glob a t pa =>
      let (s', r, p) := s.readBounded (coreOf s.focus.key) g.blk g.asid f.md.toNat t a pa f.ty.bytes rpt fwd
      let pr := match f.b with | .p j => some (j.toNat, p) | _ => none
      s'.finishLoad f l a fwd pr none r
    | _ => (s, .ok Eff.none)
  { b with srcs := Use.src (rowOf i).a (rowOf i) f f.a f.fa, dsts := b.dsts ++ [(f.b, 1)] }.awaitFlush

/-- LD.G.EDk (R241). -/
def execLdGEd (f : Fields) (s : State) : Host.Outcome State Fault Refusal := runInstr f (opBounded (.ldGEd f) f false) s

/-- LD.G.EDk.RPT (R241). -/
def execLdGEdRpt (f : Fields) (s : State) : Host.Outcome State Fault Refusal := runInstr f (opBounded (.ldGEdRpt f) f true) s

/-- LD.S (R237). -/
def execLdS (f : Fields) (s : State) : Host.Outcome State Fault Refusal :=
  runInstr f (opLoad (.ldS f) f .scratch fun s l sp => s.loadPlain (.ldS f) f .scratch l sp) s

/-- LD.S.ACQ (R239). -/
def execLdSAcq (f : Fields) (s : State) : Host.Outcome State Fault Refusal :=
  runInstr f (opLoad (.ldSAcq f) f .scratch fun s l sp =>
    s.loadAcquire (.ldSAcq f) f .scratch (scopeOf f.md.toNat) l sp).awaitFlush s

/-- LD.K (R242). -/
def execLdK (f : Fields) (s : State) : Host.Outcome State Fault Refusal :=
  runInstr f (opLoad (.ldK f) f .param fun s l sp => s.loadPlain (.ldK f) f .param l sp) s

/-! ## Loads that wait for full granules -/

/-- The granule that a lane of a gang names, with its half. -/
def State.granuleAt (s : State) (k l : Nat) (f : Fields) : Option (Bool × Nat) :=
  let g := (s.gang? k).getD .blank
  match (s.eaAt k l .scratch (eaSum .scratch (g.src l f f.a 32) f.imm) f.ty.bytes .read).2 with
  | .ok (.scratch odd off) => some (odd, off / 16)
  | _ => none

/-- A granule of a block is full. -/
def State.granuleFull (s : State) (blk : Nat) (x : Bool × Nat) : Bool :=
  ((s.block? blk).map fun b => NatSet.has (b.half x.1).full x.2).getD false

/-- The granules named by lanes of a gang. -/
def State.granulesAt (s : State) (k : Nat) (f : Fields) (ls : List Nat) : List (Bool × Nat) :=
  (ls.filterMap fun l => s.granuleAt k l f).dedup

/-- A consuming load of the block, issued before `seq`, waits on one of these granules and could perform now (R88). -/
def State.earlierConsumer (s : State) (blk seq : Nat) (gs : List (Bool × Nat)) : Bool :=
  (s.gangsOf blk).any fun kg => kg.2.waits.any fun w =>
    match w.instr with
    | .ldSFc f =>
      let mine := s.granulesAt kg.1 f (lanesOf (w.lanes &&& kg.2.live) kg.2.width)
      decide (w.seq < seq) && mine != [] && mine.any gs.contains && mine.all (s.granuleFull blk)
    | _ => false

/-- A consuming load makes its granule empty (R88). -/
def State.consumeGranule (s : State) : Spot → State
  | .scratch odd off => s.modScratch s.focusGang.blk odd fun h => { h with full := NatSet.del h.full (off / 16) }
  | _ => s

/-- The read of LD.S.FW and LD.S.FC. -/
def State.loadFull (s : State) (i : Instr) (f : Fields) (consume : Bool) (l : Nat) (sp : Spot) : State × Res :=
  match s.loadAcquire i f .scratch .block l sp with
  | (s, .ok e) => (if consume then s.consumeGranule sp else s, .ok e)
  | r => r

/-- The granules that executing lanes name are all full, and no earlier consuming load stands before this one, issued as number
`seq`, on one of them (R87, R88). -/
def State.fullReady (s : State) (f : Fields) (consume : Bool) (seq : Nat) (go : List Nat) : Bool :=
  let gs := s.granulesAt s.focus.key f go
  gs.all (s.granuleFull s.focusGang.blk) && !(consume && s.earlierConsumer s.focusGang.blk seq gs)

/-- The shape of LD.S.FW and LD.S.FC, issued as number `seq`: all executing lanes perform in one step or wait (R87, R88, R240). -/
def opFull (i : Instr) (f : Fields) (consume : Bool) (seq : Nat) : Op :=
  let b := opLoad i f .scratch fun s l sp => s.loadFull i f consume l sp
  { b with
    cls := if consume then .ending else .tracked
    ready := fun s go => s.fullReady f consume seq go
    unready := fun s l =>
      match s.ea i f l .scratch .read f.ty.bytes with
      | (_, .error r) => r
      | _ => .wait }.awaitFlush

/-- LD.S.FW (R240). -/
def execLdSFw (f : Fields) (s : State) : Host.Outcome State Fault Refusal :=
  runInstr f (opFull (.ldSFw f) f false s.seqCtr) s

/-- LD.S.FC (R240). -/
def execLdSFc (f : Fields) (s : State) : Host.Outcome State Fault Refusal :=
  runInstr f (opFull (.ldSFc f) f true s.seqCtr) s

/-- The wait record of a gang with a number. -/
def State.waitOf (s : State) (k w : Nat) : Option Wait := (s.gang? k).bind fun g => g.waits.find? fun x => x.seq = w

/-- FULL_LOAD_PERFORM (R87, R88, R240). -/
def execFullLoadPerform (k w : Nat) (s : State) : Host.Outcome State Fault Refusal :=
  .next (match s.waitOf k w with
    | some x =>
      match x.instr with
      | .ldSFw f => s.wakeOp k x f (opFull (.ldSFw f) f false x.seq)
      | .ldSFc f => s.wakeOp k x f (opFull (.ldSFc f) f true x.seq)
      | _ => s
    | none => s)

end Sys2Proof.Machine
end

