-- ==== Sys2Proof/Machine/Barrier.lean ====
section
/-! DEFINITION. Barriers, OP 0x80 (R259 to R264), and mailboxes, OP 0x81 (R265, R266), with the wakes of their waits. -/

namespace Sys2Proof.Machine

/-- The object that a thread names, or its cause (R260). -/
def State.barrierAt (s : State) (l o : Nat) (acc : Access) : Except LaneFault (Bool × Nat) :=
  let fault (c : Cause) : LaneFault := ⟨l, c, acc.code, 0, 0, 16, 0, BitVec.ofNat 64 o⟩
  if o % 16 ≠ 0 then .error (fault .misaligned)
  else
    match (s.block? s.focusGang.blk).bind fun b => b.placeOf (coreOf s.focus.key) o 16 with
    | some x => .ok x
    | none => .error (fault .scratchRange)

/-- The thread whose A and B a thread's barrier instruction reads: with an s destination the lowest executing thread of its slice
(R27, R257; log 47). -/
def State.barLane (s : State) (i : Instr) (f : Fields) (l : Nat) : Nat :=
  let b := Op.base i f fun s _ => (s, .wait)
  s.repOf f b.dsts l

/-- What a barrier instruction delivers in LANE l where its slice is read at LANE r: an s destination takes the result of LANE r
alone (R27; log 47). -/
def Eff.barrier (i : Instr) (f : Fields) (l r w : Nat) : Eff := if l = r then Eff.value i f (noFlag w) else Eff.none

/-- The shape of a barrier instruction: once per thread, in ascending LANE (R257, R260). -/
def opBarrier (i : Instr) (f : Fields) (acc : Access) (act : State → Nat → Bool → Nat → State × Res) : Op :=
  let b := Op.base i f fun s l =>
    match s.barrierAt l (s.srcA i f (s.barLane i f l)) acc with
    | .error e => (s, .trap e)
    | .ok (odd, off) => act s l odd off
  { b with cls := .ending, each := true }

/-- A release at BLOCK scope: the thread's earlier stores are performed first (R107, R108). -/
def State.releasing (s : State) (l : Nat) (act : State → State × Res) : State × Res :=
  match s.drainThread s.focusGang.tag l with
  | none => (s, .hold)
  | some s => act s

/-- The result word of R259. -/
def barrierWord (w : Nat) (done : Bool) : Nat := bits w 0 14 + 2 ^ 14 * done.toNat

/-- BAR.INIT (R261). -/
def execBarInit (f : Fields) (s : State) : Host.Outcome State Fault Refusal :=
  runInstr f (opBarrier (.barInit f) f .write fun s l odd off =>
    let v := s.srcB (.barInit f) f (s.barLane (.barInit f) f l)
    s.releasing l fun s =>
      let blk := s.focusGang.blk
      let w0 := bits v 20 12 + 2 ^ 16 * bits v 0 20 + 2 ^ 36 * bits v 0 20
      (((s.scratchWrite blk odd off 8 w0 false).scratchWrite blk odd (off + 8) 8 0 false).scratchSound blk odd off 16,
        .ok Eff.none)) s

/-- One arrival by a thread, and its result (R262). -/
def opArrive (i : Instr) (f : Fields) (delta : Nat → Int) : Op :=
  opBarrier i f .rmw fun s l odd off =>
    let r := s.barLane i f l
    let v := s.srcB i f r
    s.releasing l fun s =>
      match s.arrive s.focusGang.blk odd off (bits v 0 12) (bits v 12 20) (delta v) with
      | (s, w, .accepted ph) => (s, .ok (Eff.barrier i f l r (barrierWord w ph)))
      | (s, _, .rejected) => (s, .trap (LaneFault.plain l .barrierStale))
      | (s, _, .poisoned) => (s, .trap (LaneFault.plain l .barrierPoison))

/-- BAR.ARR (R262). -/
def execBarArr (f : Fields) (s : State) : Host.Outcome State Fault Refusal :=
  runInstr f (opArrive (.barArr f) f fun _ => 0) s

/-- BAR.EXP (R262). -/
def execBarExp (f : Fields) (s : State) : Host.Outcome State Fault Refusal :=
  runInstr f (opArrive (.barExp f) f fun v => (bits v 32 32 : Int)) s

/-- BAR.WAIT's shape (R263): an acquire at BLOCK scope once the phase has moved or POISON is set. -/
def opBarWait (f : Fields) : Op :=
  (opBarrier (.barWait f) f .read fun s l odd off =>
    let r := s.barLane (.barWait f) f l
    let p := bits (s.srcB (.barWait f) f r) 0 12
    let (s, w) := s.readWord0 s.focusGang.blk odd off
    if bits w 12 1 = 1 ∧ f.md = 0 then (s, .trap (LaneFault.plain l .barrierPoison))
    else if bits w 0 12 ≠ p ∨ bits w 12 1 = 1 then
      (s.acquireL1 (coreOf s.focus.key) .block, .ok (Eff.barrier (.barWait f) f l r (barrierWord w false)))
    else (s, .wait)).awaitFlush

/-- BAR.WAIT (R263). -/
def execBarWait (f : Fields) (s : State) : Host.Outcome State Fault Refusal := runInstr f (opBarWait f) s

/-- BARRIER_WAIT_WAKE (R263). -/
def execBarrierWaitWake (k w : Nat) (s : State) : Host.Outcome State Fault Refusal :=
  .next (match s.waitOf k w with
    | some x =>
      match x.instr with
      | .barWait f => s.wakeOp k x f (opBarWait f)
      | _ => s
    | none => s)

/-- BAR.TEST (R264). -/
def execBarTest (f : Fields) (s : State) : Host.Outcome State Fault Refusal :=
  runInstr f (opBarrier (.barTest f) f .read fun s l odd off =>
    let p := bits (s.srcB (.barTest f) f (s.barLane (.barTest f) f l)) 0 12
    let (s, w) := s.readWord0 s.focusGang.blk odd off
    if bits w 12 1 = 1 ∧ f.md = 0 then (s, .trap (LaneFault.plain l .barrierPoison))
    else
      (s.acquireL1 (coreOf s.focus.key) .block,
        .ok (Eff.pred f (bits w 0 12 != p || bits w 12 1 == 1) flagNone))).awaitFlush s

/-! ## Mailboxes -/

/-- The shape of a mailbox instruction: MAILBOX_RANGE at issue, and one step for each thread in ascending LANE (R266). -/
def opMailbox (i : Instr) (f : Fields) (act : State → Nat → Nat → State × Res) : Op :=
  let b := Op.base i f fun s l =>
    if ((s.block? s.focusGang.blk).map Block.mailboxes).getD 0 ≤ f.md.toNat then
      (s, .trap (LaneFault.plain l .mailboxRange))
    else act s l f.md.toNat
  { b with cls := .ending, inOrder := true }

/-- MBX.PUSH's shape (R266): a release at BLOCK scope that waits while the mailbox is full. -/
def opPush (f : Fields) : Op :=
  opMailbox (.mbxPush f) f fun s l n =>
    s.releasing l fun s =>
      match s.push s.focusGang.blk n (s.srcA (.mbxPush f) f l) false with
      | (s, .corrupt) => (s, .trap (LaneFault.plain l .mailboxCorrupt))
      | (s, .done _) => (s, .ok Eff.none)
      | (s, _) => (s, .wait)

/-- MBX.PUSH (R266). -/
def execMbxPush (f : Fields) (s : State) : Host.Outcome State Fault Refusal := runInstr f (opPush f) s

/-- MBX.PUSH.TRY (R266). -/
def execMbxPushTry (f : Fields) (s : State) : Host.Outcome State Fault Refusal :=
  runInstr f (opMailbox (.mbxPushTry f) f fun s l n =>
    s.releasing l fun s =>
      match s.push s.focusGang.blk n (s.srcA (.mbxPushTry f) f l) false with
      | (s, .corrupt) => (s, .trap (LaneFault.plain l .mailboxCorrupt))
      | (s, .done _) => (s, .ok (Eff.pred f true flagNone))
      | (s, _) => (s, .ok (Eff.pred f false flagNone))) s

/-- A pop of the block that was issued before `seq` waits on mailbox n (R266). -/
def State.earlierPop (s : State) (blk n seq : Nat) : Bool :=
  (s.gangsOf blk).any fun kg => kg.2.waits.any fun w =>
    match w.instr with
    | .mbxPop f => f.md.toNat == n && decide (w.seq < seq) && (w.lanes &&& kg.2.live) != 0
    | _ => false

/-- MBX.POP's shape, issued as number `seq` (R266): an acquire at BLOCK scope; the entry is written as a producer's. -/
def opPop (f : Fields) (seq : Nat) : Op :=
  (opMailbox (.mbxPop f) f fun s l n =>
    if s.earlierPop s.focusGang.blk n seq then (s, .wait)
    else
      match s.pop s.focusGang.blk n with
      | (s, .corrupt) => (s, .trap (LaneFault.plain l .mailboxCorrupt))
      | (s, .poisoned kind) => (s, .trap ⟨l, .dataPoison, 0, 0, kind, 16, 0, 0⟩)
      | (s, .done x) =>
        let s := s.acquireL1 (coreOf s.focus.key) .block
        let (s1, id) := s.takeId
        (s1, .ok (Eff.late (producerOf s id f 4 x flagNone none true)))
      | (s, _) => (s, .wait)).awaitFlush

/-- MBX.POP (R266). -/
def execMbxPop (f : Fields) (s : State) : Host.Outcome State Fault Refusal := runInstr f (opPop f s.seqCtr) s

/-- MAILBOX_PUSH_WAKE (R266). -/
def execMailboxPushWake (k w : Nat) (s : State) : Host.Outcome State Fault Refusal :=
  .next (match s.waitOf k w with
    | some x =>
      match x.instr with
      | .mbxPush f => s.wakeOp k x f (opPush f)
      | _ => s
    | none => s)

/-- MAILBOX_POP_WAKE (R266). -/
def execMailboxPopWake (k w : Nat) (s : State) : Host.Outcome State Fault Refusal :=
  .next (match s.waitOf k w with
    | some x =>
      match x.instr with
      | .mbxPop f => s.wakeOp k x f (opPop f x.seq)
      | _ => s
    | none => s)

end Sys2Proof.Machine
end

