-- ==== Sys2Proof/Machine/Control.lean ====
section
/-! DEFINITION. Transfers of control, loops and thread control (R219 to R229), drafts (R233), words that do not decode and fetches
that fail (R171, R336), rotation and the active set (R22, R365), write-back of producers and the commit of held drafts
(R46, R139). -/

namespace Sys2Proof.Machine

/-- A relative target (R158). -/
def relTarget (pc : Pc) (i : Int) : Pc := pcAdd pc (12 + 12 * i)

/-- An absolute target, or none where it is bad (R220). -/
def absTarget (a : Nat) : Option Pc := if bits a 56 8 ≠ 0 ∨ a % 4 ≠ 0 then none else some (BitVec.ofNat 56 a)

/-- A taken transfer: its target from a thread's sources, and the link that CALL writes (R220). -/
def opBranch (i : Instr) (f : Fields) (target : State → Nat → Option Pc) (link : Bool) : Op :=
  let b := Op.base i f fun s _ => (s, .ok Eff.none)
  { b with
    ctl := fun s l => match target s (s.repOf f b.dsts l) with | some t => .jump t | none => .stay
    body := fun s l =>
      match target s l with
      | none => (s, .trap (LaneFault.plain l .badTarget))
      | some t =>
        (s, .ok { Eff.none with
          ctl := .jump t
          dst := if link then [(f.d, 2, (pcAdd s.focus.pc 12).toNat)] else [] }) }

/-- BRA (R220). -/
def execBra (f : Fields) (s : State) : Host.Outcome State Fault Refusal :=
  runInstr f (opBranch (.bra f) f (fun s _ => some (relTarget s.focus.pc f.imm.toInt)) false) s

/-- BRX (R220). -/
def execBrx (f : Fields) (s : State) : Host.Outcome State Fault Refusal :=
  runInstr f (opBranch (.brx f) f
    (fun s l => some (relTarget s.focus.pc (f.imm.toInt + sExt 32 (s.srcA (.brx f) f l)))) false) s

/-- CALL (R220). -/
def execCall (f : Fields) (s : State) : Host.Outcome State Fault Refusal :=
  runInstr f (opBranch (.call f) f (fun s _ => some (relTarget s.focus.pc f.imm.toInt)) true) s

/-- CALL.IND (R220). -/
def execCallInd (f : Fields) (s : State) : Host.Outcome State Fault Refusal :=
  runInstr f (opBranch (.callInd f) f (fun s l => absTarget (s.srcA (.callInd f) f l)) true) s

/-- RET (R220). -/
def execRet (f : Fields) (s : State) : Host.Outcome State Fault Refusal :=
  runInstr f (opBranch (.ret f) f (fun s l => absTarget (s.srcA (.ret f) f l)) false) s

/-- What LOOP does to a thread's control (R223): a push, the end step of the last body instruction, or a cause. -/
def loopCtl (s : State) (f : Fields) (l : Nat) : Except Cause Ctl :=
  let pc := s.focus.pc
  let n := s.srcA (.loop f) f l
  let last := relTarget pc f.imm.toInt
  if f.imm.toInt < 0 then .error .badTarget
  else if n = 0 then .ok (.skip last)
  else if (((s.gang? s.focus.key).getD .blank).thread l).loopd = 4 then .error .loopOverflow
  else .ok (.loop ⟨pcAdd pc 12, last, BitVec.ofNat 32 n⟩)

/-- LOOP (R223). -/
def execLoop (f : Fields) (s : State) : Host.Outcome State Fault Refusal :=
  let b := Op.base (.loop f) f fun s l =>
    match loopCtl s f l with
    | .error c => (s, .trap (LaneFault.plain l c))
    | .ok c => (s, .ok { Eff.none with ctl := c })
  runInstr f { b with ctl := fun s l => match loopCtl s f l with | .ok c => c | .error _ => .stay } s

/-- EXIT (R226). -/
def execExit (f : Fields) (s : State) : Host.Outcome State Fault Refusal :=
  let b := Op.base (.exit f) f fun s _ => (s, .ok { Eff.none with park := some .ended })
  runInstr f { b with cls := .ending } s

/-- NOP (R227). -/
def execNop (f : Fields) (s : State) : Host.Outcome State Fault Refusal :=
  runInstr f (Op.base (.nop f) f fun s _ => (s, .ok Eff.none)) s

/-- YIELD (R227): its slices become swappable at once. -/
def execYield (f : Fields) (s : State) : Host.Outcome State Fault Refusal :=
  runInstr f (Op.base (.yield f) f fun s _ => (s, .ok Eff.none)) s

/-- SLEEP (R228): the threads stand at the next instruction, asleep for the largest n of them. -/
def execSleep (f : Fields) (s : State) : Host.Outcome State Fault Refusal :=
  let b := Op.base (.sleep f) f fun s _ => (s, .ok Eff.none)
  runInstr f { b with
    post := fun s done _ _ =>
      let n := (done.map fun l => s.srcA (.sleep f) f l).foldl max 0
      if n = 0 then s else s.addWait s.focus.key done (.sleep f) (s.seqCtr - 1) s.clock n } s

/-- SLEEP_END (R228): the sleep of a gang's wait record ends once its time has passed. -/
def execSleepEnd (k w : Nat) (s : State) : Host.Outcome State Fault Refusal :=
  .next (s.modGang k fun g => { g with
    waits := g.waits.filter fun x => !(x.seq == w && x.n != 0 && decide (x.since + x.n ≤ s.clock)) })

/-- BPT (R229). -/
def execBpt (f : Fields) (s : State) : Host.Outcome State Fault Refusal :=
  let b := Op.base (.bpt f) f fun s l => (s, .trap (LaneFault.plain l .breakpoint))
  runInstr f { b with cls := .edge } s

/-- TRAP (R229): Src(A) is the trap code. -/
def execTrap (f : Fields) (s : State) : Host.Outcome State Fault Refusal :=
  let b := Op.base (.trap f) f fun s l =>
    (s, .trap { LaneFault.plain l .softwareTrap with code := BitVec.ofNat 32 (s.srcA (.trap f) f l) })
  runInstr f { b with cls := .edge } s

/-- DRAFT (R233). -/
def execDraft (f : Fields) (s : State) : Host.Outcome State Fault Refusal :=
  let b := Op.base (.draft f) f fun s _ => (s, .ok Eff.none)
  runInstr f { b with cls := .edge } s

/-- The trap of every thread in focus, whatever its guard: one that commits waits for the drafts' loads (R142, R171). -/
def State.trapFocus (s : State) (fault : Nat → LaneFault) : State :=
  let k := s.focus.key
  match s.gang? k with
  | none => s
  | some g =>
    let ls := lanesOf s.focus.lanes g.width
    let faults := ls.map fun l => (g.thread l).due.getD (fault l)
    let late := faults.filter (mustDrain g)
    if late ≠ [] then s.keepFaults k late
    else (s.trapLanes k s.focus.pc s.focus.insn faults).settle k

/-- A word that fails R170 (R171). -/
def execIllegalWord (c : Cause) (s : State) : Host.Outcome State Fault Refusal :=
  .next (s.trapFocus fun l => LaneFault.plain l c)

/-- A fetch that fails translation or finds an uncorrectable error (R325, R336, R339). -/
def execInstructionFetchFault (c : Cause) (va : BitVec 56) (level errkind : Nat) (s : State) :
    Host.Outcome State Fault Refusal :=
  .next (s.trapFocus fun l => ⟨l, c, Access.fetch.code, level, errkind, 12, 0, va.setWidth 64⟩)

/-! ## Rotation and the active set -/

/-- The live LANEs of a slice. -/
def Gang.liveOf (g : Gang) (sl : Nat) : List Nat :=
  ((List.range 4).map (4 * sl + ·)).filter fun i => i < g.width && (g.thread i).tstate == .live

/-- The least of a list of PCs. -/
def minPc (l : List Pc) : Option Pc :=
  match l with
  | [] => none
  | p :: ps => some (ps.foldl (fun a b => if b < a then b else a) p)

/-- The LANEs that stand at a WAITANY or a collective matrix instruction: selection passes them over (R148, R287). -/
def Gang.absent (g : Gang) : Lanes :=
  (g.gathers ++ g.collects).foldl (fun a r => a ||| r.waiting) (g.issued.foldl (fun a x => a ||| x.waiting) g.stalled)

/-- The LANEs asleep (R228). -/
def Gang.asleep (g : Gang) : Lanes := g.waits.foldl (fun a w => if w.n = 0 then a else a ||| w.lanes) 0

/-- The live LANEs that take no part in the selection of a slice PC: asleep, at a rendezvous, or held by a trap that waits for
room (R148, R228, R287, R312). -/
def State.skipped (s : State) (k : Nat) (g : Gang) : Lanes := g.absent ||| g.asleep ||| s.heldLanes k

/-- The LANEs among which a slice selects. -/
def Gang.chooseFrom (g : Gang) (skip : Lanes) (sl : Nat) : List Nat := (g.liveOf sl).filter fun l => !skip.getLsbD l

/-- The slice PC of R21 and R22: the smallest PC among the slice's candidates, in rotation among those of its path. Where every thread of
the path is skipped, the slice selects among all its candidates, which then join the path (log 59). -/
def Gang.slicePc (g : Gang) (skip : Lanes) (sl : Nat) : Option Pc :=
  let c := g.chooseFrom skip sl
  match (g.slice sl).rot with
  | none => minPc (c.map fun l => (g.thread l).pc)
  | some r =>
    let p := c.filter fun l => r.path.getLsbD l
    minPc ((if p = [] then c else p).map fun l => (g.thread l).pc)

/-- The LANEs that stand in a wait of their instruction: they are not issued again. -/
def Gang.inWait (g : Gang) : Lanes := g.waits.foldl (fun a w => if w.n = 0 then a ||| w.lanes else a) 0

/-- ROTATION_ENTER (R22): at a count of 64 the slice takes the smallest live PC above the one it has been executing; where none is
greater, the count starts again at zero (log 59). -/
def execRotationEnter (k sl : Nat) (s : State) : Host.Outcome State Fault Refusal :=
  .next (s.modGang k fun g =>
    let x := g.slice sl
    if x.rotCount = 64 ∧ x.rot = none then
      let from_ := g.chooseFrom (s.skipped k g) sl
      let pcs := from_.map fun i => (g.thread i).pc
      match (minPc pcs).bind fun p => minPc (pcs.filter fun q => p < q) with
      | some p => g.setSlice sl { x with rot := some ⟨laneSet (from_.filter fun i => (g.thread i).pc == p), 64⟩ }
      | none => g.setSlice sl { x with rotCount := 0 }
    else g)

/-- ROTATION_LEAVE (R22): after 64 issues, or with no live thread of the path left. -/
def execRotationLeave (k sl : Nat) (s : State) : Host.Outcome State Fault Refusal :=
  .next (s.modGang k fun g =>
    let x := g.slice sl
    match x.rot with
    | some r =>
      if r.left = 0 ∨ (g.liveOf sl).all (fun i => !r.path.getLsbD i) then g.setSlice sl { x with rot := none, rotCount := 0 }
      else g
    | none => g)

/-- The slices of a set. -/
def slicesOf (m : BitVec 16) : List Nat := (List.range 16).filter fun i => m.getLsbD i

/-- The quadrants in which slices of a gang stand (R17, R19). -/
def Gang.quadsOf (g : Gang) (m : BitVec 16) : List Nat :=
  ((slicesOf m).map fun i => if g.width = 64 then g.quad + i / 8 else g.quad).dedup

/-- Where a slice stands: its slice PC, or, where all its live threads are skipped, the smallest of their PCs. -/
def Gang.standsAt (g : Gang) (skip : Lanes) (sl : Nat) : Option Pc :=
  (g.slicePc skip sl).orElse fun _ => minPc ((g.liveOf sl).map fun l => (g.thread l).pc)

/-- The sub-gangs of a gang as sets of slices, active or pending: slices that stand at one PC (R23, R364). -/
def Gang.entries (g : Gang) (skip : Lanes) (active : Bool) : List (BitVec 16) :=
  let sl := (List.range g.slices.length).filter fun i => (g.slice i).active == active && g.liveOf i != []
  ((sl.map fun i => g.standsAt skip i).dedup).map fun pc =>
    (sl.filter fun i => g.standsAt skip i == pc).foldl (fun m i => m ||| BitVec.twoPow 16 i) 0

/-- A slice's part of a sub-gang waits (R364): its issue has found an empty register, or every thread at its slice PC stands in a
wait. -/
def State.waitingSlice (s : State) (k : Nat) (g : Gang) (i : Nat) : Bool :=
  (g.slice i).blocked ||
    match g.slicePc (s.skipped k g) i with
    | none => true
    | some pc => ((g.chooseFrom (s.skipped k g) i).filter fun l => (g.thread l).pc == pc).all fun l =>
        (g.inWait ||| s.callHeld k).getLsbD l

/-- The sub-gang of the slices is waiting (R364). -/
def State.waitingSlices (s : State) (k : Nat) (m : BitVec 16) : Bool :=
  match s.gang? k with
  | none => false
  | some g => (slicesOf m).all (s.waitingSlice k g)

/-- The sub-gangs of a core in a quadrant's active or pending set, with their gangs' keys (R364). -/
def State.entriesIn (s : State) (core q : Nat) (active : Bool) : List (Nat × BitVec 16) :=
  (s.gangs.filter fun g => coreOf g.1 = core).flatMap fun kg =>
    ((kg.2.entries (s.skipped kg.1 kg.2) active).filter fun m => (kg.2.quadsOf m).contains q).map fun m => (kg.1, m)

/-- Entries in a quadrant's active set (R364). -/
def State.activeEntries (s : State) (core q : Nat) : Nat := (s.entriesIn core q true).length

/-- When an entry entered its set: the first of its slices. -/
def State.enteredAt (s : State) (e : Nat × BitVec 16) : Nat :=
  match s.gang? e.1 with
  | none => 0
  | some g => (((slicesOf e.2).map fun i => (g.slice i).entered).min?).getD 0

/-- Slices moved out of or into the active set. -/
def Gang.setActive (g : Gang) (m : BitVec 16) (b : Bool) (clock : Nat) : Gang :=
  (slicesOf m).foldl (fun g i => g.modSlice i fun x => { x with active := b, entered := clock, yielded := b && x.yielded }) g

/-- A swap: out of one gang's slices, into another's (R365). -/
def State.swapSlices (s : State) (kOut : Nat) (out : BitVec 16) (kIn : Nat) (inn : BitVec 16) : State :=
  (s.modGang kOut fun g => g.setActive out false s.clock).modGang kIn fun g => g.setActive inn true s.clock

/-- An entry of a gang's active set, or no slice at all; an entry of its pending set (R364). -/
def State.isEntry (s : State) (k : Nat) (m : BitVec 16) (active : Bool) : Bool :=
  match s.gang? k with
  | none => false
  | some g => (g.entries (s.skipped k g) active).contains m

/-- The quadrants of an entry. -/
def State.entryQuads (s : State) (k : Nat) (m : BitVec 16) : List Nat := ((s.gang? k).map fun g => g.quadsOf m).getD []

/-- A whole pending entry that is ready may enter in the place of a whole active one of its core, or into free entries: each of its
quadrants is one of the other's, or has room (R19, R364, R365). -/
def State.swapFits (s : State) (kOut : Nat) (out : BitVec 16) (kIn : Nat) (inn : BitVec 16) : Bool :=
  let oq := if out = 0 then [] else s.entryQuads kOut out
  let iq := s.entryQuads kIn inn
  coreOf kOut == coreOf kIn && (out == 0 || (s.isEntry kOut out true && oq.any iq.contains)) && s.isEntry kIn inn false &&
    !s.waitingSlices kIn inn && iq.all fun q => oq.contains q || decide (s.activeEntries (coreOf kIn) q < 8)

/-- No ready pending entry of the quadrants has waited longer (R365). -/
def State.oldestReady (s : State) (kIn : Nat) (inn : BitVec 16) (qs : List Nat) : Bool :=
  qs.all fun q => (s.entriesIn (coreOf kIn) q false).all fun e =>
    s.waitingSlices e.1 e.2 || decide (s.enteredAt (kIn, inn) ≤ s.enteredAt e)

/-- An entry is outside its KEEP window (R365). -/
def State.keepOver (s : State) (k : Nat) (m : BitVec 16) : Bool :=
  ((s.gang? k).map fun g => (slicesOf m).all fun i => decide ((g.slice i).keepUntil ≤ s.clock)).getD true

/-- SUBGANG_SWAP (R365): a waiting entry past its KEEP, or one that has yielded, gives way to the oldest ready pending entry; an empty
entry is taken with no slice going out. -/
def execSubgangSwap (kOut : Nat) (out : BitVec 16) (kIn : Nat) (inn : BitVec 16) (s : State) :
    Host.Outcome State Fault Refusal :=
  let yielded := ((s.gang? kOut).map fun a => (slicesOf out).all fun i => (a.slice i).yielded).getD false
  let able := out == 0 ||
    ((yielded || (s.waitingSlices kOut out && s.keepOver kOut out)) && s.oldestReady kIn inn (s.entryQuads kOut out))
  .next (if s.swapFits kOut out kIn inn && able then s.swapSlices kOut out kIn inn else s)

/-- AGED_SWAP (R365): the entry that entered first, outside its KEEP window, gives way to the oldest ready pending entry, which has
waited for 1,024 cycles. -/
def execAgedSwap (kOut : Nat) (out : BitVec 16) (kIn : Nat) (inn : BitVec 16) (s : State) :
    Host.Outcome State Fault Refusal :=
  let qs := (s.entryQuads kOut out).filter (s.entryQuads kIn inn).contains
  let first := qs.any fun q => (s.entriesIn (coreOf kOut) q true).all fun e => decide (s.enteredAt (kOut, out) ≤ s.enteredAt e)
  let able := first && s.keepOver kOut out && decide (s.enteredAt (kIn, inn) + 1024 ≤ s.clock) && s.oldestReady kIn inn qs
  .next (if out != 0 && s.swapFits kOut out kIn inn && able then s.swapSlices kOut out kIn inn else s)

/-- An entry above the eight of a quadrant: a sub-gang that has split holds one entry for each part until one leaves, the one that
entered last (R364; log 60). -/
def State.excess (s : State) (core : Nat) : Option (Nat × BitVec 16) :=
  [0, 1, 2, 3].findSome? fun q =>
    let l := s.entriesIn core q true
    if l.length ≤ 8 then none
    else l.foldl (fun (a : Option (Nat × BitVec 16)) e =>
      match a with
      | some b => if s.enteredAt b ≤ s.enteredAt e then some e else a
      | none => some e) none

/-! ## Producers and drafts -/

/-- PRODUCER_WRITEBACK (R46, R53, R189, R241): a producer whose access has been performed writes its destination and predicate,
marks it full, and its flags join FSTAT. -/
def execProducerWriteback (k lane id : Nat) (s : State) : Host.Outcome State Fault Refusal :=
  .next (s.modGang k fun g =>
    let t := g.thread lane
    match t.pend.find? fun q => q.id = id && q.ready with
    | some q =>
      let t1 := ({ t with pend := t.pend.filter fun x => x.id ≠ id }.setFull q.reg q.words).writeVs q.reg q.words q.value
      let t2 := match q.pred with | some (p, b) => t1.writeP p b | none => t1
      (g.setThread lane { t2 with fstat := t2.fstat ||| q.flags }).modSlice (lane / 4) fun x => { x with blocked := false }
    | none =>
      let x := g.slice (lane / 4)
      match x.pend.find? fun q => q.id = id && q.ready with
      | some q =>
        let x1 := { x with blocked := false, pend := x.pend.filter fun y => y.id ≠ id }.writeSs q.reg q.words q.value
        (g.setSlice (lane / 4) x1).modLanes q.members fun t => { t with fstat := t.fstat ||| q.flags }
      | none => g)

/-- DRAFT_COMMIT (R139, R143): a held draft whose last producer has written back. -/
def execDraftCommit (k lane : Nat) (s : State) : Host.Outcome State Fault Refusal :=
  .next (match s.gang? k with
    | none => s
    | some g => if (g.thread lane).drain && !g.busy lane then s.commitThread k lane (g.thread lane).pc else s)

end Sys2Proof.Machine
end

