-- ==== Sys2Proof/Machine/Events.lean ====
section
/-! DEFINITION. Condition monitors, OP 0x82 (R267, R268), event slots and WAITANY, OP 0x83 (R144 to R150, R269 to R271), and the
steps that end a parked wait. -/

namespace Sys2Proof.Machine

/-- The shape of a gang-level instruction (R257). -/
def opGang (i : Instr) (f : Fields) (body : State → Nat → State × Res) : Op :=
  { Op.base i f body with cls := .ending, gang := true }

/-- The slot that D names. -/
def slotOf (f : Fields) : Nat :=
  match f.d with
  | .slot n => n.toNat
  | _ => 0

/-- A slot of a gang replaced. -/
def State.setSlot (s : State) (k n : Nat) (x : EventSlot) : State :=
  s.modGang k fun g => { g with slots := Tab.set g.slots n x }

/-- MON (R267): the description staged in a slot. -/
def execMon (f : Fields) (s : State) : Host.Outcome State Fault Refusal :=
  let b := opGang (.mon f) f fun s l =>
    let k := s.focus.key
    let va := s.srcA (.mon f) f l
    match s.eaAt k l .glob va f.ty.bytes .read with
    | (s, .error r) => (s, r)
    | (s, .ok (.glob _ (.hbm pa) _)) =>
      let cmp := s.srcB (.mon f) f l
      let old := Tab.getD s.focusGang.slots (slotOf f) .fresh
      (s.setSlot k (slotOf f) { old with staged := some ⟨pa, va, f.ty, f.md.toNat, cmp⟩ }, .ok Eff.none)
    | (s, .ok _) => (s, .trap ⟨l, .monitorHome, 0, 0, 0, f.ty.bytes, 0, BitVec.ofNat 64 va⟩)
  runInstr f { b with walks := fun s l => eaWaits (s.eaAt s.focus.key l .glob (s.srcA (.mon f) f l) f.ty.bytes .read) } s

/-- The token that an EVARM names, or none where it is invalid (R269). -/
def State.tokenOf (s : State) (f : Fields) (l : Nat) : Option Token :=
  let g := s.focusGang
  let a := s.srcA (.evarm f) f l
  match f.md.toNat with
  | 0 =>
    if a % 16 = 0 ∧ ((s.block? g.blk).bind fun b => b.placeOf (coreOf s.focus.key) a 16).isSome then
      some (.barrier a (bits (s.srcB (.evarm f) f l) 0 12))
    else none
  | 1 => if a ≤ 7 then some (.batch a) else none
  | 2 => if a < ((s.block? g.blk).map Block.mailboxes).getD 0 then some (.mailbox a) else none
  | 3 => if (Tab.getD g.slots (slotOf f) .fresh).staged.isSome then some .monitor else none
  | _ => some .timer

/-- A placed monitor of a slot removed (R268). -/
def State.unplace (s : State) (k n : Nat) : State :=
  s.modMem fun m => { m with monitors := m.monitors.filter fun x => !(x.key == k && x.slot == n) }

/-- A monitor placed in the table of its slice, fired at once where its relation holds; nothing where the table is full (R146,
R268). -/
def State.place (s : State) (k n : Nat) (d : MonDesc) : State :=
  let sl := (Config.homeSlice (lineOf d.pa)).val
  if (s.mem.monitors.filter fun m => m.slice = sl).length < Config.monitorSlots then
    let s := s.drainRed (.phys (lineOf d.pa))
    let now := d.holds (Mem.readN s.mem.bytes d.pa d.ty.bytes)
    s.modMem fun m => { m with monitors := m.monitors ++ [⟨sl, k, n, d, now⟩] }
  else s

/-- EVARM (R144, R145, R270): the binding, the EPEND bit cleared, a monitor placed, and the condition evaluated. -/
def execEvarm (f : Fields) (s : State) : Host.Outcome State Fault Refusal :=
  runInstr f (opGang (.evarm f) f fun s l =>
    let k := s.focus.key
    let n := slotOf f
    match s.tokenOf f l with
    | none => (s, .trap (LaneFault.plain l .eventToken))
    | some tk =>
      let old := Tab.getD s.focusGang.slots n .fresh
      let s := (s.unplace k n).setSlot k n { old with armed := some (tk, relTarget s.focus.pc f.imm.toInt) }
      let s := s.modGang k fun g => { g with epend := g.epend &&& ~~~(BitVec.twoPow 16 n) }
      let s := match tk, old.staged with
        | .monitor, some d => s.place k n d
        | _, _ => s
      (s.evaluateSlot k n, .ok Eff.none)) s

/-- EVDIS (R144). -/
def execEvdis (f : Fields) (s : State) : Host.Outcome State Fault Refusal :=
  runInstr f (opGang (.evdis f) f fun s _ =>
    let k := s.focus.key
    let n := slotOf f
    let old := Tab.getD s.focusGang.slots n .fresh
    let s := (s.unplace k n).setSlot k n { old with armed := none }
    (s.modGang k fun g => { g with epend := g.epend &&& ~~~(BitVec.twoPow 16 n) }, .ok Eff.none)) s

/-- EVCLR (R270). -/
def execEvclr (f : Fields) (s : State) : Host.Outcome State Fault Refusal :=
  runInstr f (opGang (.evclr f) f fun s l =>
    let m := BitVec.ofNat 16 (s.srcA (.evclr f) f l)
    (s.modGang s.focus.key fun g => { g with epend := g.epend &&& ~~~m }, .ok Eff.none)) s

/-! ## WAITANY -/

/-- Threads arrive at a place of gathering: those that wait there, those that have passed it (R148, R287). -/
def arriveAt (l : List Gather) (r : Gather) : List Gather :=
  if l.any fun x => x.pc == r.pc then
    l.map fun x => if x.pc = r.pc then { x with waiting := x.waiting ||| r.waiting, passed := x.passed ||| r.passed } else x
  else l ++ [r]

/-- WAITANY (R148, R271): threads with a true guard stand here; while a group of the gang is parked they are not yet counted. -/
def execWaitany (f : Fields) (s : State) : Host.Outcome State Fault Refusal :=
  let b := Op.base (.waitany f) f fun s _ => (s, .stand)
  runInstr f { b with
    cls := .ending
    post := fun s _ standing gf =>
      s.modGang s.focus.key fun g =>
        let w := laneSet standing
        if g.parked.isSome then
          { g with
            stalled := g.stalled ||| w
            gathers := if gf = [] then g.gathers
              else arriveAt g.gathers ⟨s.focus.pc, .waitany f, s.focus.insn, 0, laneSet gf⟩ }
        else { g with gathers := arriveAt g.gathers ⟨s.focus.pc, .waitany f, s.focus.insn, w, laneSet gf⟩ } } s

/-- WAITANY_DELIVERY (R149, R150): a named slot of a parked group has latched. -/
def execWaitanyDelivery (k : Nat) (s : State) : Host.Outcome State Fault Refusal :=
  .next (match s.gang? k with
    | some g =>
      match g.parked with
      | some r => if g.gstate = .running ∧ g.epend &&& g.emask &&& g.armed ≠ 0 then (s.evalGroup k r).settle k else s
      | none => s
    | none => s)

/-- DEADLINE_EXPIRE (R55, R145, R149): TIMER slots latch; a parked group that names none traps with WAIT_TIMEOUT. -/
def execDeadlineExpire (k : Nat) (s : State) : Host.Outcome State Fault Refusal :=
  .next (match s.gang? k with
    | some g =>
      if s.expired g then
        let s := s.modGang k fun g => g.latchWhere fun tk => tk == .timer
        match g.parked with
        | some r => if g.timerIn g.emask ∨ g.gstate ≠ .running then s else (s.evalGroup k r).settle k
        | none => s
      else s
    | none => s)

end Sys2Proof.Machine
end

