-- ==== Sys2Proof/Machine/Copy.lean ====
section
/-! DEFINITION. The copy engine, OP 0x90 (R272 to R283), its chunks, pauses and replay (R341 to R343). -/

namespace Sys2Proof.Machine

/-! ## The record (R273) -/

/-- A field of a copy record. -/
def rField (r : BitVec 512) (lo n : Nat) : Nat := bits r.toNat lo n

def rMode (r : BitVec 512) : Nat := rField r 0 4
def rParts (r : BitVec 512) : Nat := rField r 4 2 + 1
/-- s = 2^ESZ. -/
def rSize (r : BitVec 512) : Nat := 2 ^ rField r 6 3
def rSrcScratch (r : BitVec 512) : Bool := rField r 15 1 == 1
def rDstScratch (r : BitVec 512) : Bool := rField r 16 1 == 1
def rKeep (r : BitVec 512) : Bool := rField r 17 1 == 1
def rOnBarrier (r : BitVec 512) : Bool := rField r 21 1 == 1
def rSrcDone (r : BitVec 512) : Bool := rField r 22 1 == 1
def rRows (r : BitVec 512) : Bool := rField r 23 1 == 1
def rSrc (r : BitVec 512) : Nat := rField r 64 56
def rDst (r : BitVec 512) : Nat := rField r 128 56
def rX (r : BitVec 512) : Nat := rField r 192 32
def rY (r : BitVec 512) : Nat := rField r 224 16
def rZ (r : BitVec 512) : Nat := rField r 240 16
/-- The strides SSY, DSY, SSZ and DSZ, numbered 0 to 3. -/
def rStride (r : BitVec 512) (i : Nat) : Int := sExt 32 (rField r (256 + 32 * i) 32)
def rIdx (r : BitVec 512) : Nat := rField r 416 20
/-- The source and destination strides of a row and of a plane. -/
def rSrcAt (r : BitVec 512) (z y : Nat) : Int := rSrc r + z * rStride r 2 + y * rStride r 0
def rDstAt (r : BitVec 512) (z y : Nat) : Int := rDst r + z * rStride r 3 + y * rStride r 1
/-- Rows and planes of a record: one of each outside the TILE modes. -/
def rRowCount (r : BitVec 512) : Nat := if rMode r = 1 ∨ rMode r = 2 then rY r else 1
def rPlaneCount (r : BitVec 512) : Nat := if rMode r = 2 then rZ r else 1
/-- X counts bytes. -/
def rBytes (r : BitVec 512) : Bool := rMode r < 3
/-- GATHER and SCATTER. -/
def rIndexed (r : BitVec 512) : Bool := rMode r == 3 || rMode r == 4

/-- Fields of part rows (R274). -/
def rowSeg (w : W128) : Nat := bits w.toNat 0 20
def rowCount (w : W128) : Nat := bits w.toNat 32 32
def rowFirst (w : W128) : Nat := bits w.toNat 64 32

/-- Every field is valid, and every reserved or must-be-zero field is zero (R273, R275). -/
def recordFields (r : BitVec 512) : Bool :=
  let m := rMode r
  let z (lo n : Nat) : Bool := rField r lo n == 0
  let noStrides := z 256 128
  decide (m ≤ 6) && decide (rField r 6 3 ≤ 4) && rField r 9 2 != 3 && decide (rField r 11 4 ≤ 12) &&
    decide (1 ≤ rField r 18 3 ∧ rField r 18 3 ≤ 5) && z 24 8 && z 56 8 && z 120 8 && z 184 8 && z 436 12 &&
    (!rSrcScratch r || z 84 36) && (!rDstScratch r || z 148 36) && rIdx r % 4 == 0 &&
    (!rRows r || (rIndexed r && z 192 32 && z 416 20)) &&
    (match m with
      | 0 => z 224 16 && z 240 16 && noStrides && z 416 20
      | 1 => z 240 16 && z 320 64 && z 416 20
      | 2 => z 416 20
      | 3 | 4 => z 224 16 && z 240 16 && noStrides
      | 5 => z 224 16 && z 240 16 && noStrides && z 416 20
      | _ => z 64 56 && noStrides && z 416 20 && !rSrcDone r)

/-- The element type of a REDUCE record (R275). -/
def rType (r : BitVec 512) : Ty := (Ty.ofCode (rField r 11 4)).getD .n32

/-- The conditions of R275 on sizes, counts and alignment. -/
def recordShape (r : BitVec 512) : Bool :=
  let m := rMode r
  let s := rSize r
  (m != 5 || (!rDstScratch r && [Ty.n32, .i32, .n64, .i64, .f32, .f64, .f16, .bf16].contains (rType r) && s == (rType r).bytes)) &&
    (rRows r || rX r != 0) && decide (rRowCount r ≠ 0) && decide (rPlaneCount r ≠ 0) && rSrc r % s == 0 && rDst r % s == 0 &&
    ((List.range 4).all fun i => rStride r i % (s : Int) == 0) && (!rBytes r || rX r % s == 0)

/-- Every byte of a range, as a thread of a core names it, is valid (R83, R34). -/
def Block.validRange (b : Block) (core : Nat) (a : Int) (n : Nat) : Bool :=
  if a < 0 then false
  else
    let o := a.toNat
    if o < 0x80000 ∧ 0x80000 < o + n then
      (b.placeOf core o (0x80000 - o)).isSome && (b.placeOf core 0x80000 (o + n - 0x80000)).isSome
    else (b.placeOf core o n).isSome

/-- The ranges that a side of a record names without an index (R275). -/
def sideValid (b : Block) (core : Nat) (r : BitVec 512) (dst : Bool) : Bool :=
  let at_ (z y : Nat) : Int := if dst then rDstAt r z y else rSrcAt r z y
  if rBytes r then
    (List.range (rPlaneCount r)).all fun z => (List.range (rRowCount r)).all fun y => b.validRange core (at_ z y) (rX r)
  else rRows r || b.validRange core (at_ 0 0) (rX r * rSize r)

/-- A part row passes (R274, R275): its segment, and the elements it names on a scratchpad side that no index addresses. Its segment
stands at a multiple of 4, and bits 31 to 20, which the layout does not list, are ignored (log 70). -/
def rowValid (b : Block) (core : Nat) (r : BitVec 512) (w : W128) : Bool :=
  let s := rSize r
  let scr := if rMode r = 3 then rDstScratch r else rSrcScratch r
  let base := if rMode r = 3 then rDst r else rSrc r
  bits w.toNat 96 32 == 0 && rowSeg w % 4 == 0 && b.validRange core (rowSeg w) (4 * rowCount w) &&
    (!scr || b.validRange core ((base + rowFirst w * s : Nat) : Int) (rowCount w * s))

/-- The checks of R275 on the stored record. -/
def recordValid (b : Block) (core : Nat) (r : BitVec 512) : Bool :=
  let bar (lo : Nat) : Bool := (b.placeOf core (16 * rField r lo 16) 16).isSome
  recordFields r && recordShape r &&
    (!rSrcScratch r || rMode r == 3 || rMode r == 6 || sideValid b core r false) &&
    (!rDstScratch r || rMode r == 4 || sideValid b core r true) &&
    (!rIndexed r || rRows r || b.validRange core (rIdx r) (4 * rX r)) &&
    (!rSrcDone r || bar 384) && (!rOnBarrier r || bar 400)

/-! ## CPY -/

/-- The 64 bytes of a record, or the kind of the error in them. -/
def State.readRecord (s : State) (blk : Nat) (odd : Bool) (off : Nat) : State × Except Nat (BitVec 512) :=
  (List.range 4).foldl (fun (x : State × Except Nat (BitVec 512)) i =>
    match x.2 with
    | .error k => (x.1, .error k)
    | .ok v =>
      match x.1.scratchRead blk odd (off + 16 * i) 16 with
      | (s, .data y) => (s, .ok (v ||| BitVec.ofNat 512 (y * 2 ^ (128 * i))))
      | (s, .bad k) => (s, .error k)) (s, .ok 0)

/-- The level of a gang at an index. -/
def Gang.level (g : Gang) (i : Nat) : Level := Tab.getD g.levels i .fresh
def Gang.setLevel (g : Gang) (i : Nat) (x : Level) : Gang := { g with levels := Tab.set g.levels i x }

/-- A record that signals on the batch joins a level (R280). -/
def Gang.joinLevel (g : Gang) (i stamp : Nat) : Gang :=
  let x := g.level i
  g.setLevel i { x with recs := x.recs ++ [⟨stamp, none⟩] }

/-- It joins the open level. -/
def Gang.joinBatch (g : Gang) (stamp : Nat) : Gang := g.joinLevel g.openLevel stamp

/-- A level's records of a use ended (R280). -/
def Gang.endRecs (g : Gang) (level stamp status : Nat) : Gang :=
  let x := g.level level
  g.setLevel level { x with recs := x.recs.map fun r => if r.use = stamp ∧ r.status = none then { r with status := some status } else r }

/-- Sealed levels completed in order, oldest first, and BATCH tokens signalled where SEALED falls (R145, R280). -/
def Gang.settleLevels (g : Gang) : Gang :=
  let order := (List.range 7).map fun i => (g.openLevel + 1 + i) % 8
  let r := order.foldl (fun (x : Gang × Bool) i =>
    let lv := x.1.level i
    if lv.state == .outstanding then
      if x.2 && lv.recs.all fun c => c.status.isSome then (x.1.setLevel i { lv with state := .complete }, true)
      else (x.1, false)
    else x) (g, true)
  let g' := r.1
  if g'.sealed < g.sealed then g'.latchWhere fun tk => match tk with | .batch n => decide (g'.sealed ≤ n) | _ => false
  else g'

/-- A use put in a core's engine. -/
def State.setUse (s : State) (core u : Nat) (x : CopyUse) : State :=
  s.modCore core fun c => { c with uses := Tab.set c.uses u x }

/-- A use once another part has been named: it starts with its last (R276). -/
def CopyUse.addPart (x : CopyUse) (p : UsePart) : CopyUse :=
  let parts := x.parts ++ [p]
  { x with parts := parts, state := if parts.length = rParts x.record then .running else .gathering }

/-- CPY's body for the sub-gang, issued as number `seq` (R275, R276). Of several checks that fail, COPY_RECORD comes first, then COPY_PART,
then COPY_BATCH (log 68). -/
def State.copyIssue (s : State) (f : Fields) (seq l : Nat) : State × Res :=
  let k := s.focus.key
  let g := s.focusGang
  let o := s.srcA (.cpy f) f l
  let j := f.md.toNat % 4
  let row := f.md.toNat / 4 % 2 == 1
  let w : W128 := BitVec.ofNat 128 (if row then s.srcB (.cpy f) f l else 0)
  let trap (c : Cause) : State × Res := (s, .trap (LaneFault.plain l c))
  match s.block? g.blk with
  | none => (s, .ok Eff.none)
  | some b =>
    match (if o % 64 = 0 then b.placeOf (coreOf k) o 64 else none) with
    | none => trap .copyRecord
    | some (odd, off) =>
      let e := b.coreOfHalf odd
      match s.drain fun x => x.tag == g.tag with
      | none => (s, .hold)
      | some s =>
        if s.remoteStores g.tag none then (s, .hold)
        else
          let part (r : BitVec 512) : UsePart := ⟨j, k, s.handle k, g.gidx, g.openLevel, if rRows r then w else 0⟩
          let full (r : BitVec 512) : Bool := !rOnBarrier r && decide (255 ≤ (g.level g.openLevel).recs.length)
          let bad (r : BitVec 512) : Bool := rParts r ≤ j || row != rRows r || (rRows r && !rowValid b e r w)
          let join (s : State) (r : BitVec 512) (stamp : Nat) : State :=
            if rOnBarrier r then s else s.modGang k fun g => g.joinBatch stamp
          match (s.core e).uses.find? fun u => u.2.off = off && u.2.state == .gathering with
          | some (u, x) =>
            if bad x.record then trap .copyRecord
            else if x.blk ≠ g.blk ∨ x.parts.any fun p => p.j = j then trap .copyPart
            else if full x.record then trap .copyBatch
            else
              (join (s.setUse e u (x.addPart (part x.record))) x.record x.stamp, .ok Eff.none)
          | none =>
            match s.readRecord g.blk odd off with
            | (s, .error kind) => (s, .trap ⟨l, .dataPoison, 0, 0, kind, 64, 0, BitVec.ofNat 64 o⟩)
            | (s, .ok r) =>
              if !recordValid b e r || bad r then trap .copyRecord
              else if full r then trap .copyBatch
              else
                let (s, stamp) := s.takeId
                let x : CopyUse := {
                  stamp := stamp, off := off, record := r, blk := g.blk, state := .gathering, parts := [], bufs := [], acked := []
                  stopped := [], srcDone := false, poison := false, lost := false }
                let x := x.addPart (part r)
                match Tab.freeKey (s.core e).uses 0 64 with
                | none => ((join s r stamp).modGang k fun g => { g with cpys := g.cpys ++ [(seq, e, x)] }, .wait)
                | some u => (join (s.setUse e u x) r stamp, .ok Eff.none)

/-- The gang without a CPY that waited; its record leaves its level, or stands there for another use. -/
def Gang.endCpy (g : Gang) (seq : Nat) (x : CopyUse) (use : Option Nat) : Gang :=
  let g := { g with cpys := g.cpys.filter fun y => y.1 ≠ seq }
  match use, x.parts with
  | some stamp, p :: _ => (g.dropRec x.stamp).joinLevel p.level stamp
  | _, _ => g.dropRec x.stamp

/-- The body of a CPY that has waited as a 65th use, once more tried: with the record, the part and the level of its issue (R275, R276,
R280). It begins its use in a free slot, or joins one that has begun meanwhile at its offset. -/
def State.copyAccept (s : State) (seq l : Nat) : State × Res :=
  let k := s.focus.key
  match s.focusGang.cpys.find? fun y => y.1 = seq with
  | none => (s, .ok Eff.none)
  | some (_, e, x) =>
    let trap (c : Cause) : State × Res :=
      (s.modGang k fun g => (g.endCpy seq x none).settleLevels, .trap (LaneFault.plain l c))
    match x.parts, (s.core e).uses.find? fun u => u.2.off = x.off && u.2.state == .gathering with
    | p :: _, some (u, y) =>
      let row := match s.block? x.blk with | some b => !rRows y.record || rowValid b e y.record p.row | none => true
      if rParts y.record ≤ p.j || rRows x.record != rRows y.record || !row then trap .copyRecord
      else if y.blk ≠ x.blk ∨ y.parts.any fun q => q.j = p.j then trap .copyPart
      else
        ((s.setUse e u (y.addPart p)).modGang k fun g => (g.endCpy seq x (if rOnBarrier y.record then none else some y.stamp)).settleLevels,
          .ok Eff.none)
    | _, _ =>
      match Tab.freeKey (s.core e).uses 0 64 with
      | none => (s, .wait)
      | some u => ((s.setUse e u x).modGang k fun g => { g with cpys := g.cpys.filter fun y => y.1 ≠ seq }, .ok Eff.none)

/-- CPY's shape, issued as number `seq`. -/
def opCopy (f : Fields) (seq : Nat) : Op := opGang (.cpy f) f fun s l => s.copyIssue f seq l

/-- CPY (R272 to R276). -/
def execCpy (f : Fields) (s : State) : Host.Outcome State Fault Refusal := runInstr f (opCopy f s.seqCtr) s

/-- CPY_ACCEPT_DEFERRED (R276). -/
def execCpyAcceptDeferred (k w : Nat) (s : State) : Host.Outcome State Fault Refusal :=
  .next (match s.waitOf k w with
    | some x =>
      match x.instr with
      | .cpy f => s.wakeOp k x f (opGang (.cpy f) f fun s l => s.copyAccept x.seq l)
      | _ => s
    | none => s)

/-! ## Elements and chunks (R341) -/

/-- The index segments of a use, in the order of its parts: first word, count, first element (R274). -/
def CopyUse.segs (x : CopyUse) : List (Nat × Nat × Nat) :=
  if rRows x.record then
    (List.range 4).flatMap fun j => (x.parts.filter fun p => p.j = j).map fun p => (rowSeg p.row, rowCount p.row, rowFirst p.row)
  else [(rIdx x.record, rX x.record, 0)]

/-- Elements of a use. -/
def CopyUse.total (x : CopyUse) : Nat :=
  let r := x.record
  if rIndexed r then ((x.segs.map fun g => g.2.1)).sum
  else if rBytes r then rX r / rSize r * rRowCount r * rPlaneCount r
  else rX r

/-- The index word and the element number of the e-th element of the segments. -/
def segAt : List (Nat × Nat × Nat) → Nat → Option (Nat × Nat)
  | [], _ => none
  | (o, c, i) :: rest, e => if e < c then some (o + 4 * e, i + e) else segAt rest (e - c)

/-- Source and destination of the e-th element where no index addresses it. -/
def CopyUse.elemAt (x : CopyUse) (e : Nat) : Int × Int :=
  let r := x.record
  let s := rSize r
  if rBytes r then
    let row := rX r / s
    let y := e / row % rRowCount r
    let z := e / row / rRowCount r
    (rSrcAt r z y + (e % row * s : Nat), rDstAt r z y + (e % row * s : Nat))
  else ((rSrc r + e * s : Nat), (rDst r + e * s : Nat))

/-- Two elements stand in different 4 KiB blocks, of the destination or of the source, or too far apart for one chunk. -/
def CopyUse.breaks (x : CopyUse) (a b : Nat) : Bool :=
  let p := x.elemAt a
  let q := x.elemAt b
  Int.fdiv p.2 4096 != Int.fdiv q.2 4096 || (rMode x.record != 6 && Int.fdiv p.1 4096 != Int.fdiv q.1 4096) ||
    decide (4096 ≤ (b - a) * rSize x.record)

/-- The first elements of the chunks after the first one, from element `e` on, the current chunk having begun at `start`. -/
def CopyUse.starts (x : CopyUse) : Nat → Nat → Nat → List Nat
  | 0, _, _ => []
  | n + 1, e, start => if x.breaks start e then e :: x.starts n (e + 1) e else x.starts n (e + 1) start

/-- The elements of each chunk: first and one past the last. -/
def CopyUse.chunks (x : CopyUse) : List (Nat × Nat) :=
  let t := x.total
  let st := if rIndexed x.record then (List.range ((t + 255) / 256)).map (256 * ·)
    else if t = 0 then [] else 0 :: x.starts t 0 0
  st.zip (st.drop 1 ++ [t])

/-- Chunks 0 to ACKED − 1 have all been acknowledged. -/
def CopyUse.ackedTo (x : CopyUse) : Nat := ((List.range (x.acked.length + 1)).find? fun n => !NatSet.has x.acked n).getD 0

/-- The address space of a block. -/
def State.spaceOf (s : State) (blk : Nat) : Nat × Nat :=
  match (s.block? blk).bind fun b => s.launch? b.lid with
  | some l => (l.asid, l.root)
  | none => (0, 0)

/-- The index of an element read, and its addresses (R273, R275): `none` where the use ends with FAULT, an index out of range or
in error (log 23). -/
def State.elemAddr (s : State) (core : Nat) (x : CopyUse) (e : Nat) : State × Option (Int × Int) :=
  let r := x.record
  if !rIndexed r then (s, some (x.elemAt e))
  else
    match s.block? x.blk, segAt x.segs e with
    | some b, some (o, i) =>
      match b.placeOf core o 4 with
      | some (odd, off) =>
        match s.scratchRead x.blk odd off 4 with
        | (s, .data idx) =>
          let near (base : Nat) : Int := (base + i * rSize r : Nat)
          let far (base : Nat) : Int := (base + idx * rSize r : Nat)
          let scr := if rMode r = 3 then rSrcScratch r else rDstScratch r
          let a := if rMode r = 3 then far (rSrc r) else far (rDst r)
          if scr && !b.validRange core a (rSize r) then (s, none)
          else (s, some (if rMode r = 3 then (a, near (rDst r)) else (near (rSrc r), a)))
        | (s, .bad _) => (s, none)
      | none => (s, none)
    | _, _ => (s, none)

/-- One side of an element found: its spot, or why it has none: a cause with its level, or a walk that waits (R277, R341, R342). -/
def State.engineSpot (s : State) (core : Nat) (x : CopyUse) (scr : Bool) (a : Int) (acc : Access) : State × Except Miss Spot :=
  if scr then
    match (s.block? x.blk).bind fun b => b.placeOf core a.toNat (rSize x.record) with
    | some (odd, off) => (s, .ok (.scratch odd off))
    | none => (s, .error (.cause .scratchRange 0))
  else if a < 0 ∨ 2 ^ 56 ≤ a then (s, .error (.cause .addressRange 0))
  else
    let (asid, root) := s.spaceOf x.blk
    match s.translate core asid root a.toNat acc with
    | (s, .error e) => (s, .error e)
    | (s, .ok (.remote dev off, pa)) =>
      if 0xF00 ≤ dev ∧ acc = .read then (s, .error (.cause .remoteUnreachable (s.leafLevel core asid a.toNat)))
      else (s, .ok (.glob a.toNat (.remote dev off) pa))
    | (s, .ok (t, pa)) => (s, .ok (.glob a.toNat t pa))

/-! ## Ends, pauses -/

/-- A batch completion for a gang that is evicted, journalled (R360). -/
def State.journalBatch (s : State) (blk stamp status : Nat) (p : UsePart) : State :=
  { s with dist := { s.dist with saved := s.dist.saved.map fun x =>
      if x.gang.blk = blk ∧ x.gang.gidx = p.gang then { x with batch := x.batch ++ [.batch p.gang p.level stamp status] } else x } }

/-- A record completed in the batch of a part's gang: resident, with the context that its latest SAVE wrote, or evicted, where it is
journalled (R278, R317, R360). -/
def State.completePart (s : State) (blk stamp status : Nat) (p : UsePart) : State :=
  match s.gang? p.key with
  | some g =>
    if g.blk = blk ∧ g.gidx = p.gang ∧ g.gstate != .free ∧ !g.restoring then
      { s with
        gangs := Tab.set s.gangs p.key ((g.endRecs p.level stamp status).settleLevels)
        snaps := Tab.update s.snaps p.key fun x => (x.endRecs p.level stamp status).settleLevels }
    else s.journalBatch blk stamp status p
  | none => s.journalBatch blk stamp status p

/-- A use ends with a status: its records complete, and it leaves the engine (R278, R279). -/
def State.endUse (s : State) (core u status : Nat) : State :=
  match Tab.get? (s.core core).uses u with
  | none => s
  | some x =>
    let s := { s with link := { s.link with requests := s.link.requests.filter fun r =>
      match r.src with
      | .chunk c v .. => !(c == core && v == u)
      | _ => true } }
    let s := s.modCore core fun c => { c with uses := Tab.erase c.uses u }
    if rOnBarrier x.record then s
    else x.parts.foldl (fun s p => s.completePart x.blk x.stamp status p) s

/-- Where the engine fault record of a use lies (R342). -/
def State.engineRecordAt (s : State) (core u : Nat) : Nat :=
  (s.cluster (core / 4)).porter.pfrbase.toNat + 0x1800000 + 128 * (64 * core + u)

/-- The handle of the gang that named part 0, as it stood then (R311, R342). -/
def CopyUse.handle (x : CopyUse) : BitVec 16 := ((x.parts.find? fun p => p.j = 0).map UsePart.handle).getD 0

/-- The ENGINE entry of a paused use (R311, R342). -/
def State.engineEntry (s : State) (core u : Nat) (handle : BitVec 16) : DqEntry :=
  { kind := .engine, handle := handle, cause := 0, seq := 0, lanes := 0
    arg0 := BitVec.ofNat 64 (s.engineRecordAt core u), arg1 := BitVec.ofNat 64 (u + 64 * core) }

/-- The SEQ dword part of an engine fault record written as the entry enters, and the entry (R342). -/
def State.enterEngine (s : State) (core u : Nat) (handle : BitVec 16) : State :=
  let cl := core / 4
  (s.agentWrite (s.engineRecordAt core u + 4) 4 (s.cluster cl).nextSeq.toNat).enter cl (s.engineEntry core u handle)

/-- A chunk of a use meets a fault: the chunk is stopped, and a use that runs pauses: its record, and the ENGINE entry now or once there is
room (R312, R342). A use paused already keeps its one record; its other chunks go on (R343). -/
def State.pauseUse (s : State) (core u n : Nat) (c : Cause) (acc level : Nat) (va : Int) : State :=
  match Tab.get? (s.core core).uses u with
  | none => s
  | some x =>
    let s := s.setUse core u { x with state := .paused, stopped := NatSet.add x.stopped n }
    let cl := core / 4
    let rec_ := Cause.code c + 2 ^ 8 * acc + 2 ^ 10 * level + 2 ^ 16 * x.handle.toNat +
      2 ^ 64 * wrapBits 64 va + 2 ^ 128 * (s.spaceOf x.blk).1 + 2 ^ 144 * u + 2 ^ 152 * core + 2 ^ 160 * x.off +
      2 ^ 192 * x.ackedTo + 2 ^ 224 * x.chunks.length
    if x.state = .paused then s
    else
      let s := s.writeRecord (s.engineRecordAt core u) 128 rec_
      if s.mayEnter cl none then s.enterEngine core u x.handle else s.hold cl (.engine core u x.handle)

/-! ## Chunks -/

/-- Source elements read so far: the chunk's addresses and values, and the reads outstanding toward other devices. -/
structure ChunkRead where
  elems : List (Int × Nat × Bool)
  pending : List (Nat × Nat × Nat)
  deriving DecidableEq, Repr

/-- How a chunk's reading or writing stops. -/
inductive ChunkStop where
  | fault
  | pause (c : Cause) (acc level : Nat) (va : Int)
  | later
  deriving DecidableEq, Repr

/-- The code of a destination access in an engine record (R342). -/
def dstAccess (r : BitVec 512) : Access := if rMode r = 5 then .rmw else .write

/-- The value that FILL writes (R273). -/
def fillValue (r : BitVec 512) : Nat :=
  rField r 448 64 + (if rField r 6 3 = 4 then 2 ^ 64 * (Config.fillHigh (BitVec.ofNat 64 (rField r 448 64))).toNat else 0)

/-- Both addresses of the chunk's elements found and translated, before anything is read (R341). -/
def State.chunkSpots (s : State) (core : Nat) (x : CopyUse) : List Nat → State × Except ChunkStop (List (Option Spot × Int))
  | [] => (s, .ok [])
  | e :: es =>
    let r := x.record
    match s.elemAddr core x e with
    | (s, none) => (s, .error .fault)
    | (s, some (a, d)) =>
      match (if rMode r = 6 then (s, .ok none) else
          match s.engineSpot core x (rSrcScratch r) a .read with
          | (s, .ok sp) => (s, .ok (some sp))
          | (s, .error e) => (s, Except.error e) : State × Except Miss (Option Spot)) with
      | (s, .error .later) => (s, .error .later)
      | (s, .error (.cause c lv)) => (s, .error (.pause c 0 lv a))
      | (s, .ok src) =>
        match s.engineSpot core x (rDstScratch r) d (dstAccess r) with
        | (s, .error .later) => (s, .error .later)
        | (s, .error (.cause c lv)) => (s, .error (.pause c (if rMode r = 5 then 2 else 1) lv d))
        | (s, .ok _) =>
          match s.chunkSpots core x es with
          | (s, .ok l) => (s, .ok ((src, d) :: l))
          | (s, .error y) => (s, .error y)

/-- The chunk's source elements read at their homes (R277). -/
def State.chunkRead (s : State) (core u n : Nat) (x : CopyUse) (l : List (Option Spot × Int)) : State × Option ChunkRead :=
  let sz := rSize x.record
  let asid := (s.spaceOf x.blk).1
  l.foldl (fun (acc : State × Option ChunkRead) sp =>
    match acc.2 with
    | none => acc
    | some cr =>
      let s := acc.1
      let put (s : State) (v : Nat) (bad : Bool) : State × Option ChunkRead :=
        (s, some { cr with elems := cr.elems ++ [(sp.2, v, bad)] })
      match sp.1 with
      | none => put s (fillValue x.record % 256 ^ sz) false
      | some (.scratch odd off) =>
        match s.scratchRead x.blk odd off sz with
        | (s, .data v) => put s v false
        | (s, .bad _) => put s 0 true
      | some (.glob va (.remote dev off) _) =>
        match s.sendRemote core dev off (.read sz) (.chunk core u n va (s.leafLevel core asid va)) with
        | some s' =>
          (s', some {
            elems := cr.elems ++ [(sp.2, 0, false)]
            pending := cr.pending ++ [(dev, Tab.getD s.link.nextSeq dev 0, cr.elems.length)] })
        | none => (s, none)
      | some (.glob _ _ pa) =>
        match s.agentRead pa sz asid with
        | (s, .data v) => put s v false
        | (s, .bad _) => put s 0 true
      | some (.param _) => put s 0 false) (s, some ⟨[], []⟩)

/-- One destination write: spot, bytes, value, poisoned. -/
structure ChunkWrite where
  spot : Spot
  size : Nat
  value : Nat
  bad : Bool
  deriving DecidableEq, Repr

/-- The write is not for another device. -/
def ChunkWrite.here (w : ChunkWrite) : Bool :=
  match w.spot with
  | .glob _ (.remote ..) _ => false
  | _ => true

/-- The atom of a write, with the unit it lies in. -/
def ChunkWrite.atom (w : ChunkWrite) : Nat × Nat :=
  match w.spot with
  | .scratch odd off => (odd.toNat, off / 32)
  | .glob _ (.remote dev off) _ => (dev + 3, off / 32)
  | .glob _ _ pa => (2, pa / 32)
  | .param off => (2, off / 32)

/-- The first byte of a write within its atom. -/
def ChunkWrite.low (w : ChunkWrite) : Nat :=
  match w.spot with
  | .scratch _ off => off % 32
  | .glob _ (.remote _ off) _ => off % 32
  | .glob _ _ pa => pa % 32
  | .param off => off % 32

/-- A spot moved to the start of its atom. -/
def Spot.atomBase : Spot → Spot
  | .scratch odd off => .scratch odd (off / 32 * 32)
  | .glob va (.remote dev off) pa => .glob (va / 32 * 32) (.remote dev (off / 32 * 32)) (pa / 32 * 32)
  | .glob va t pa => .glob (va / 32 * 32) t (pa / 32 * 32)
  | .param off => .param (off / 32 * 32)

/-- The writes of an atom that a chunk of a contiguous mode covers whole made one (R405, R417). -/
def mergeAtoms (ws : List ChunkWrite) : List ChunkWrite :=
  ((ws.map ChunkWrite.atom).dedup).flatMap fun a =>
    let l := ws.filter fun w => w.atom = a
    match l with
    | [] => []
    | w :: _ =>
      if l.all (fun w => !w.bad) && (l.map ChunkWrite.low).dedup.length * w.size == 32 then
        [⟨w.spot.atomBase, 32, l.foldl (fun v w => setBits v (8 * w.low) (8 * w.size) w.value) 0, false⟩]
      else l

/-- The copies of the line that an engine's write changes go from the L1s of the block's cores, so that a plain load that follows a CWAIT
reads what was written (R108, R112, R116). -/
def State.dropChunkL1 (s : State) (core : Nat) (x : CopyUse) : Spot → State
  | .glob _ _ pa =>
    match s.block? x.blk with
    | some b => ((s.dropL1 core (lineOf pa)).dropL1 b.core (lineOf pa)).dropL1 (if b.pair then b.core + 1 else b.core) (lineOf pa)
    | none => s.dropL1 core (lineOf pa)
  | _ => s

/-- One write performed (R277, R279, R417): a poisoned element marks its atom; a whole atom clears its mark. `none` where another
device's window is full. -/
def State.chunkPut (s : State) (core u n : Nat) (x : CopyUse) (w : ChunkWrite) : Option State :=
  let s := s.dropChunkL1 core x w.spot
  match w.spot with
  | .scratch odd off =>
    let s := s.scratchWrite x.blk odd off w.size w.value (!rKeep x.record)
    if w.bad then
      some (s.modScratch x.blk odd fun h => { h with
        poison := (wordsOf (off / 32 * 32) 32).foldl NatSet.add h.poison })
    else some (if w.size = 32 then s.scratchSound x.blk odd off 32 else s)
  | .glob va (.remote dev off) _ =>
    s.sendRemote core dev off
      (if w.bad then .poison w.size
       else if rMode x.record = 5 then
         .reduce (reduceOp x.record) (rType x.record) w.value core u x.stamp n
       else .write w.size w.value) (.chunk core u n va (s.leafLevel core (s.spaceOf x.blk).1 va))
  | .glob _ _ pa =>
    if w.bad then some ((s.drainRed (.phys (lineOf pa))).poisonAtom pa)
    else
      let s := s.agentWrite pa w.size w.value
      some (if w.size = 32 then s.clearPoison pa else s)
  | .param _ => some s
where
  reduceOp (r : BitVec 512) : Nat :=
    let fl := isFloat (rType r)
    match rField r 9 2 with
    | 0 => if fl then 7 else 0
    | 1 => if fl then 8 else 1
    | _ => if fl then 9 else 2

/-- A REDUCE element applied at a home of this device; the atoms at which elements were refused are gathered (R417). -/
def State.chunkReduce (s : State) (x : CopyUse) (refused : List Nat) (pa v : Nat) : State × List Nat :=
  let s := s.drainRed (.phys (lineOf pa))
  let (s, no) := s.applyRed pa (State.chunkPut.reduceOp x.record) (rType x.record) v (s.spaceOf x.blk).1
  (s, if no then refused ++ [atomOf pa] else refused)

/-- All writes of a chunk; the refusals of a REDUCE chunk logged once per atom (R405, R417). -/
def State.chunkWrites (s : State) (core u n : Nat) (x : CopyUse) (ws : List ChunkWrite) : Option State :=
  let r := ws.foldl (fun (acc : Option (State × List Nat)) w =>
    acc.bind fun (s, no) =>
      match w.spot with
      | .glob _ (.remote ..) _ => (s.chunkPut core u n x w).map fun s => (s, no)
      | .glob _ _ pa =>
        if rMode x.record = 5 ∧ !w.bad then some ((s.dropChunkL1 core x w.spot).chunkReduce x no pa w.value)
        else (s.chunkPut core u n x w).map fun s => (s, no)
      | _ => (s.chunkPut core u n x w).map fun s => (s, no)) (some (s, []))
  r.map fun (s, no) =>
    (no.dedup).foldl (fun s a =>
      s.logError .redPoison 1 (Config.homeSlice (a / 4)).val (32 * a) (no.count a) (s.spaceOf x.blk).1) s

/-- The destinations of a chunk translated afresh (R343). -/
def State.chunkTargets (s : State) (core : Nat) (x : CopyUse) : List (Int × Nat × Bool) →
    State × Except ChunkStop (List ChunkWrite)
  | [] => (s, .ok [])
  | (d, v, bad) :: es =>
    match s.engineSpot core x (rDstScratch x.record) d (dstAccess x.record) with
    | (s, .error .later) => (s, .error .later)
    | (s, .error (.cause c lv)) => (s, .error (.pause c (if rMode x.record = 5 then 2 else 1) lv d))
    | (s, .ok sp) =>
      match s.chunkTargets core x es with
      | (s, .ok l) => (s, .ok (⟨sp, rSize x.record, v, bad⟩ :: l))
      | (s, .error y) => (s, .error y)

/-- A use's buffer of a chunk replaced. -/
def CopyUse.setBuf (x : CopyUse) (b : ChunkBuf) : CopyUse := { x with bufs := x.bufs.filter (fun c => c.n ≠ b.n) ++ [b] }

/-- A request of a chunk stands toward another device. -/
def State.chunkOut (s : State) (core u n : Nat) : Bool :=
  s.link.requests.any fun r => match r.src with | .chunk c v m .. => c == core && v == u && m == n | _ => false

/-- A chunk acknowledged once its writes have all been performed (R341). -/
def State.ackChunk (s : State) (core u n : Nat) : State :=
  match Tab.get? (s.core core).uses u with
  | none => s
  | some x =>
    if (x.bufs.any fun b => b.n = n && b.written) && !s.chunkOut core u n then
      s.setUse core u { x with acked := NatSet.add x.acked n }
    else s

/-- The writes of a chunk that has been read (R277, R341). -/
def State.writeChunk (s : State) (core u : Nat) (x : CopyUse) (b : ChunkBuf) : State :=
  match s.chunkTargets core x b.elems with
  | (s1, .error (.pause c acc lv va)) => s1.pauseUse core u b.n c acc lv va
  | (s1, .error _) => s1
  | (s1, .ok ws) =>
    let ws := if b.applied then ws.filter fun w => !w.here else ws
    match s1.chunkWrites core u b.n x (if rBytes x.record || rMode x.record == 6 then mergeAtoms ws else ws) with
    | none => s
    | some s2 =>
      let x' := { x.setBuf { b with written := true, applied := rMode x.record == 5 } with poison := x.poison || b.elems.any fun e => e.2.2 }
      (s2.setUse core u x').ackChunk core u b.n

/-- The source reads of a chunk that another device did not answer made again (R343): the elements that were read keep their values. -/
def State.rereadChunk (s : State) (core u : Nat) (x : CopyUse) (b : ChunkBuf) : State :=
  match b.unread with
  | [] => s
  | (e, a) :: rest =>
    match s.engineSpot core x false a .read with
    | (s1, .error (.cause c lv)) => s1.pauseUse core u b.n c 0 lv a
    | (s1, .error .later) => s1
    | (s1, .ok sp) =>
      match s1.chunkRead core u b.n x [(some sp, 0)] with
      | (_, none) => s
      | (s2, some cr) =>
        let y := cr.elems.headD (0, 0, true)
        s2.setUse core u (x.setBuf { b with
          unread := rest, elems := b.elems.mapIdx fun i (z : Int × Nat × Bool) => if i = e then (z.1, y.2) else z
          pending := b.pending ++ cr.pending.map fun p => (p.1, p.2.1, e) })

/-- A chunk that is neither acknowledged nor stopped goes on: what it has read it writes, what failed to be read it reads again, and one
not read yet it reads (R341, R343). -/
def State.runChunk (s : State) (c u n : Nat) (x : CopyUse) : State :=
  match x.bufs.find? fun b => b.n = n with
  | some b => if b.unread ≠ [] then s.rereadChunk c u x b else if b.pending = [] ∧ !b.written then s.writeChunk c u x b else s
  | none =>
    if rMode x.record = 5 ∧ x.ackedTo + 64 ≤ n then s
    else
      match x.chunks[n]? with
      | none => s
      | some (lo, hi) =>
        match s.chunkSpots c x ((List.range (hi - lo)).map (lo + ·)) with
        | (s1, .error .fault) => s1.endUse c u 2
        | (s1, .error (.pause ca acc lv va)) => s1.pauseUse c u n ca acc lv va
        | (s1, .error .later) => s1
        | (s1, .ok l) =>
          match s1.chunkRead c u n x l with
          | (_, none) => s
          | (s2, some cr) =>
            let b : ChunkBuf := ⟨n, cr.elems, cr.pending, [], false, false⟩
            let s3 := s2.setUse c u (x.setBuf b)
            if cr.pending = [] then s3.writeChunk c u (x.setBuf b) b else s3

/-- The context of a use's block has been destroyed (R279, R362). -/
def State.contextGone (s : State) (blk : Nat) : Bool := ((s.block? blk).map fun b => b.state == .destroyed).getD true

/-- COPY_CHUNK (R341, R343): a chunk of a use that runs or is paused; one that names scratchpad of a destroyed context ends its use
(R279). -/
def execCopyChunk (c u n : Nat) (s : State) : Host.Outcome State Fault Refusal :=
  .next (match Tab.get? (s.core c).uses u with
    | none => s
    | some x =>
      if x.state == .gathering || NatSet.has x.acked n || NatSet.has x.stopped n then s
      else if s.contextGone x.blk && (rDstScratch x.record || rSrcScratch x.record) then s.endUse c u 0xFE
      else s.runChunk c u n x)

/-- The core holds what the router sends it (R362). -/
def State.coreDown (s : State) (core : Nat) : Bool := (s.core core).power != .up

/-- The router still holds what it has for a core that is not up: 4 µs from the moment at which its power rose (R362). -/
def State.routerWaits (s : State) (core : Nat) : Bool :=
  s.coreDown core && decide (s.clock < (s.core core).powerSince + 4 * Config.cyclesPerUs)

/-- An engine's arrival at a barrier object (R278): whether its result is REJECTED or POISONED; `none` while the router or the sender
holds it. For a core that is not up after 4 µs it is journalled, and counts as applied (R359, R362); for a destroyed context it is
dropped, and the use ends (R362). -/
def State.engineArrive (s : State) (core u : Nat) (x : CopyUse) (lo phase delta : Nat) : State × Option Bool :=
  if s.contextGone x.blk then
    ({ s with dist := { s.dist with arrdrop := min 0xFFFFFFFF (s.dist.arrdrop + 1) } }.endUse core u 0xFE, some false)
  else
    match (s.block? x.blk).bind fun b => (b.placeOf core (16 * rField x.record lo 16) 16).map fun y => (b, y) with
    | none => (s, some true)
    | some (b, odd, off) =>
      let home := b.coreOfHalf odd
      if s.routerWaits home then (s, none)
      else if s.coreDown home then
        if b.journal.length < 4096 then
          (s.setBlock x.blk { b with journal := b.journal ++ [.arrive (off + 0x80000 * odd.toNat) phase 0 (-(delta : Int))] }, some false)
        else (s, none)
      else
        match s.arrive x.blk odd off phase 0 (-(delta : Int)) with
        | (s, _, .accepted _) => (s, some false)
        | (s, _, _) => (s, some true)

/-- Bytes that a use moves on one side. -/
def CopyUse.bytes (x : CopyUse) : Nat := x.total * rSize x.record

/-- COPY_SRC_DONE (R278): every source byte has been read. -/
def execCopySrcDone (c u : Nat) (s : State) : Host.Outcome State Fault Refusal :=
  .next (match Tab.get? (s.core c).uses u with
    | none => s
    | some x =>
      if x.state != .gathering && rSrcDone x.record && !x.srcDone &&
          (List.range x.chunks.length).all (fun n => x.bufs.any fun b => b.n = n && b.pending == [] && b.unread == []) then
        match (s.setUse c u { x with srcDone := true }).engineArrive c u x 384 (rField x.record 32 12) x.bytes with
        | (_, none) => s
        | (s, some lost) => if lost then s.setUse c u { x with srcDone := true, lost := true } else s
      else s)

/-- COPY_VISIBLE (R278, R279): every destination write has been performed. -/
def execCopyVisible (c u : Nat) (s : State) : Host.Outcome State Fault Refusal :=
  .next (match Tab.get? (s.core c).uses u with
    | none => s
    | some x =>
      if x.state == .running && decide (x.acked.length = x.chunks.length) && (x.srcDone || !rSrcDone x.record) then
        if rOnBarrier x.record then
          match s.engineArrive c u x 400 (rField x.record 44 12) x.bytes with
          | (_, none) => s
          | (s, some _) => s.endUse c u 0
        else s.endUse c u (if x.lost then 3 else if x.poison then 1 else 0)
      else s)

/-- A use of a core named by the head commit of ENGRESUME (R343, R345). -/
def State.pausedUse (s : State) (core u : Nat) : Option CopyUse :=
  match Tab.get? (s.core core).uses u with
  | some x => if x.state == .paused then some x else none
  | none => none

/-! ## Batches (R280 to R283) -/

/-- CBATCH's shape: seals the open level and opens the next. -/
def opBatch (f : Fields) : Op :=
  opGang (.cbatch f) f fun s _ =>
    let g := s.focusGang
    let lv := g.level g.openLevel
    if lv.recs = [] then (s, .ok Eff.none)
    else if g.sealed = 7 then (s, .wait)
    else
      let next := (g.openLevel + 1) % 8
      let g1 := { (g.setLevel g.openLevel { lv with state := .outstanding }).setLevel next ⟨.opened, []⟩ with openLevel := next }
      (s.setGang s.focus.key g1.settleLevels, .ok Eff.none)

/-- CBATCH (R281). -/
def execCbatch (f : Fields) (s : State) : Host.Outcome State Fault Refusal := runInstr f (opBatch f) s

/-- CBATCH_DEFERRED_SEAL (R281). -/
def execCbatchDeferredSeal (k w : Nat) (s : State) : Host.Outcome State Fault Refusal :=
  .next (match s.waitOf k w with
    | some x =>
      match x.instr with
      | .cbatch f => s.wakeOp k x f (opBatch f)
      | _ => s
    | none => s)

/-- CWAIT's shape (R282). -/
def opCwait (f : Fields) : Op :=
  (opGang (.cwait f) f fun s l =>
    if s.focusGang.sealed ≤ min (s.srcA (.cwait f) f l) 7 then (s, .ok Eff.none) else (s, .wait)).awaitFlush

/-- CWAIT (R282). -/
def execCwait (f : Fields) (s : State) : Host.Outcome State Fault Refusal := runInstr f (opCwait f) s

/-- CWAIT_RELEASE (R282). -/
def execCwaitRelease (k w : Nat) (s : State) : Host.Outcome State Fault Refusal :=
  .next (match s.waitOf k w with
    | some x =>
      match x.instr with
      | .cwait f => s.wakeOp k x f (opCwait f)
      | _ => s
    | none => s)

def LevelState.code : LevelState → Nat
  | .empty => 0 | .opened => 1 | .outstanding => 2 | .complete => 3

/-- The result of CSTAT (R283). -/
def Level.stat (x : Level) : Nat :=
  let done := x.recs.filterMap BatchRec.status
  x.state.code + 2 ^ 2 * x.recs.length + 2 ^ 10 * ((done.find? fun c => c ≠ 0).getD 0) + 2 ^ 18 * done.length

/-- CSTAT (R283). -/
def execCstat (f : Fields) (s : State) : Host.Outcome State Fault Refusal :=
  runInstr f (opGang (.cstat f) f fun s l =>
    let n := s.srcA (.cstat f) f l
    if 7 < n then (s, .trap (LaneFault.plain l .operandClass))
    else (s, .ok (Eff.value (.cstat f) f (noFlag (s.focusGang.level n).stat)))) s

end Sys2Proof.Machine
end

