-- ==== Sys2Proof/Machine/Preempt.lean ====
section
/-! DEFINITION. Requests of the distributor to the porters, PREEMPT and PLACE (R311, R356), and the start of a whole-block eviction
(R357). -/

namespace Sys2Proof.Machine

/-- A distributor's entry enters the queue of a cluster, or is held (R312). -/
def State.offer (s : State) (cl : Nat) (e : DqEntry) : State :=
  if s.mayEnter cl none then s.enter cl e else s.hold cl (.dist e)

/-- Every LANE of a gang. -/
def lanesAll (w : Nat) : Lanes := lanesWhere w fun _ => true

/-- The tag of the distributor's next request (R356). -/
def requestTag (n : Nat) (whole : Bool) : Nat := n % 2 ^ 32 + 2 ^ 32 * whole.toNat

/-- A PREEMPT entry for a gang, and the request it answers (R311, R356). -/
def State.preempt (s : State) (k : Nat) (whole : Bool) : State :=
  match s.gang? k with
  | none => s
  | some g =>
    let tag := requestTag s.dist.nextTag whole
    let s := { s with dist := { s.dist with
      nextTag := s.dist.nextTag + 1, requests := s.dist.requests ++ [(⟨tag, false, g.blk, g.gidx, whole⟩ : DistRequest)] } }
    s.offer (clusterOf k) {
      kind := .preempt, handle := s.handle k, cause := 0, seq := 0, lanes := lanesAll g.width, arg0 := BitVec.ofNat 64 tag
      arg1 := 0 }

/-- A request for a gang is outstanding. -/
def State.requested (s : State) (g : Gang) : Bool := s.dist.requests.any fun r => r.blk == g.blk && r.gidx == g.gidx

/-- The uses of a block that satisfy a test end with CANCELLED (R279, R357). -/
def State.cancelUses (s : State) (blk : Nat) (f : CopyUse → Bool) : State :=
  (s.cores.flatMap fun c => (c.2.uses.filter fun u => u.2.blk == blk && f u.2).map fun u => (c.1, u.1)).foldl
    (fun (s : State) (x : Nat × Nat) => s.endUse x.1 x.2 0xFF) s

/-- A whole-block eviction starts: steps 1 and 2 of R357; every gang that has not ended gets its entry, whatever it has been asked before. -/
def State.evictWhole (s : State) (blk : Nat) : State :=
  match s.block? blk with
  | none => s
  | some b =>
    if b.state ≠ .resident then s
    else
      let s := s.setBlock blk { b with state := .evicting, since := s.clock }
      let ks := (s.gangsOf blk).filter fun kg => kg.2.gstate != .ended
      let s := ks.foldl (fun s kg => s.preempt kg.1 true) s
      s.cancelUses blk fun u => u.state == .gathering

end Sys2Proof.Machine
end

