-- ==== Sys2Proof/Machine/Matrix.lean ====
section
/-! DEFINITION. The matrix engine, OP 0xA0 (R47, R71, R73, R74, R97, R98, R284 to R292). -/

namespace Sys2Proof.Machine

/-! ## Binding (R286) -/

/-- The member gangs of a set, in the order of their quadrants. -/
def State.setGangs (s : State) (core set : Nat) : List Nat := Tab.getD (s.core core).sets set []

/-- A gang of the core waits in an MBIND with a set id. -/
def Gang.wishes (g : Gang) (set : Nat) : Bool :=
  g.wish == some set && g.waits.any fun w => match w.instr with | .mbind _ => true | _ => false

/-- Another gang of a block waits in the same core and quadrant with a set id. -/
def State.wishAt (s : State) (core quad set blk : Nat) (but : Nat) : Bool :=
  s.gangs.any fun kg => coreOf kg.1 = core && kg.1 != but && kg.2.blk == blk && kg.2.quad == quad && kg.2.wishes set

/-- MBIND (R285, R286): the block claims the core's tiles at its first MBIND there; the gang then waits for its set to form. While
another block has claimed them the gang waits, live, and the distributor moves its block (R285, R355). -/
def execMbind (f : Fields) (s : State) : Host.Outcome State Fault Refusal :=
  runInstr f (opGang (.mbind f) f fun s l =>
    let k := s.focus.key
    let c := coreOf k
    let g := s.focusGang
    let set := s.srcA (.mbind f) f l
    let held := (s.core c).owner.any (· != g.blk)
    if 3 < set ∨ g.binding.isSome ∨ (!held ∧ (s.wishAt c g.quad set g.blk k ∨ (Tab.get? (s.core c).sets set).isSome)) then
      (s, .trap (LaneFault.plain l .matrixBind))
    else
      let s := s.modGang k fun g => { g with wish := some set }
      (if held then (s.modBlock g.blk fun b => { b with moved := true }).evictWhole g.blk else s.modCore c fun x => { x with owner := some g.blk }, .wait)) s

/-- The waits of a gang in MBIND end: its threads complete. -/
def State.completeBind (s : State) (k set q : Nat) : State :=
  match s.gang? k with
  | none => s
  | some g =>
    let s := s.setGang k { g with binding := some (set, q), wish := none }
    g.waits.foldl (fun s w =>
      match w.instr with
      | .mbind f => s.wakeOp k w f (opGang (.mbind f) f fun s _ => (s, .ok Eff.none))
      | _ => s) s

/-- The gang of a block that waits on a core with a set id in a quadrant. -/
def State.wisher (s : State) (core set blk q : Nat) : Option (Nat × Gang) :=
  s.gangs.find? fun kg => coreOf kg.1 = core && kg.2.blk == blk && kg.2.quad == q && kg.2.wishes set

/-- The block whose gangs may form a set on a core: the one that has claimed its tiles, or, with the tiles free, the first that waits. -/
def State.formingBlock (s : State) (core set : Nat) : Nat :=
  (s.core core).owner.getD (((s.gangs.find? fun kg => coreOf kg.1 = core && kg.2.wishes set).map fun kg => kg.2.blk).getD 0)

/-- MATRIX_SET_FORM (R286): four waiting gangs of one block, one in each quadrant. -/
def execMatrixSetForm (c set : Nat) (s : State) : Host.Outcome State Fault Refusal :=
  let b := s.formingBlock c set
  .next (match s.wisher c set b 0, s.wisher c set b 1, s.wisher c set b 2, s.wisher c set b 3 with
    | some g0, some g1, some g2, some g3 =>
      let ks := [g0.1, g1.1, g2.1, g3.1]
      let s := s.modCore c fun x => { x with sets := Tab.set x.sets set ks, owner := some b }
      ((s.completeBind g0.1 set 0).completeBind g1.1 set 1).completeBind g2.1 set 2 |>.completeBind g3.1 set 3
    | _, _, _, _ => s)

/-- MBIND.U (R286): once no tile that the set's instructions named is busy, the set dissolves. -/
def execMbindU (f : Fields) (s : State) : Host.Outcome State Fault Refusal :=
  runInstr f (opGang (.mbindU f) f fun s l =>
    let c := coreOf s.focus.key
    match s.focusGang.binding with
    | none => (s, .trap (LaneFault.plain l .matrixBind))
    | some (set, _) =>
      let named := Tab.getD (s.core c).named set []
      if (s.core c).tiles.any fun t => NatSet.has named t.1 && t.2.busy != 0 then (s, .hold) else (s.dissolveSet c set, .ok Eff.none)) s

/-! ## Collective issue (R287) -/

/-- Threads that reach a collective while an earlier one of their gang has not issued, or that have passed this one already, are
not yet counted; a gang's collectives stand in the order in which its threads first reached them. -/
def Gang.arriveCollective (g : Gang) (r : Gather) : Gang :=
  let early := (g.collects.head?.map fun x => x.pc != r.pc).getD false
  let passed := (g.collects.filter fun x => x.pc == r.pc).foldl (fun m x => m ||| x.passed) 0
  let late := if early then r.waiting else r.waiting &&& passed
  { g with
    stalled := g.stalled ||| late
    collects := arriveAt g.collects { r with waiting := r.waiting &&& ~~~late } }

/-- The shape of MMA, MZERO, MLDA and MSTA at issue: threads with a true guard stand at it. -/
def opCollective (i : Instr) (f : Fields) : Op :=
  let b := Op.base i f fun s l =>
    if s.focusGang.binding.isNone then (s, .trap (LaneFault.plain l .matrixBind)) else (s, .stand)
  { b with
    cls := .ending
    srcs := match i with
      | .mma _ => b.srcs ++ [⟨f.b, mmaQuarter f.ty.code, false⟩]
      | _ => b.srcs
    post := fun s _ standing gf =>
      if s.focusGang.binding.isNone then s
      else s.modGang s.focus.key fun g => g.arriveCollective ⟨s.focus.pc, i, s.focus.insn, laneSet standing, laneSet gf⟩ }

/-- MMA (R287, R289): the issue; the set starts it together. -/
def execMma (f : Fields) (s : State) : Host.Outcome State Fault Refusal := runInstr f (opCollective (.mma f) f) s

/-- MZERO (R287, R290). -/
def execMzero (f : Fields) (s : State) : Host.Outcome State Fault Refusal := runInstr f (opCollective (.mzero f) f) s

/-- MLDA (R287, R290). -/
def execMlda (f : Fields) (s : State) : Host.Outcome State Fault Refusal := runInstr f (opCollective (.mlda f) f) s

/-- MSTA (R287, R291). -/
def execMsta (f : Fields) (s : State) : Host.Outcome State Fault Refusal := runInstr f (opCollective (.msta f) f) s

/-- MRGD (R292). -/
def execMrgd (f : Fields) (s : State) : Host.Outcome State Fault Refusal :=
  runInstr f (opGang (.mrgd f) f fun s l =>
    let x := s.srcA (.mrgd f) f l % 2 ^ 31
    let lim : W32 := BitVec.ofNat 32 (if 0x7F800000 < x then 0x7F800000 else x)
    let n := match f.d with | .guard i => i.toNat | _ => 0
    (s.modGang s.focus.key fun g => { g with
      guards := Tab.set g.guards n { Tab.getD g.guards n .fresh with limit := lim, act := f.md.setWidth 2 } }, .ok Eff.none)) s

/-! ## Tiles and images (R97, R98, R288) -/

def CoreState.tile (c : CoreState) (i : Nat) : Tile := Tab.getD c.tiles i .fresh
def State.setTile (s : State) (core i : Nat) (t : Tile) : State := s.modCore core fun c => { c with tiles := Tab.set c.tiles i t }
/-- Element (m, n) of a tile. -/
def Tile.elem (t : Tile) (m n : Nat) : Nat := (Tab.getD t.data (64 * m + n) 0).toNat

/-- The bytes of an image, granule by granule, and the kind of the first error in them. -/
def State.readImage (s : State) (blk : Nat) (l : List (Bool × Nat)) : State × Nat × Nat :=
  l.zipIdx.foldl (fun (x : State × Nat × Nat) y =>
    match x.1.scratchRead blk y.1.1 y.1.2 16 with
    | (s, .data v) => (s, x.2.1 + 2 ^ (128 * y.2) * v, x.2.2)
    | (s, .bad k) => (s, x.2.1, if x.2.2 = 0 then k else x.2.2)) (s, 0, 0)

/-- The granules of n bytes of a half. -/
def halfGranules (odd : Bool) (off n : Nat) : List (Bool × Nat) := (List.range (n / 16)).map fun i => (odd, off + 16 * i)

/-- The granules of a scale image of 128 bytes: aligned, and wholly valid, in one half or in two (R289). -/
def State.scaleAt (s : State) (core blk o : Nat) : Except Cause (List (Bool × Nat)) :=
  if o % 16 ≠ 0 then .error .misaligned
  else
    match s.block? blk with
    | none => .error .scratchRange
    | some b =>
      let l := (List.range 8).filterMap fun i => b.placeOf core (o + 16 * i) 16
      if l.length = 8 then .ok l else .error .scratchRange

/-- An image of n bytes at an offset that the core names: aligned, and wholly in one valid half (R289, R290). -/
def State.imageAt (s : State) (core blk o n align : Nat) : Except Cause (Bool × Nat) :=
  if o % align ≠ 0 then .error .misaligned
  else
    match (s.block? blk).bind fun b => b.placeOf core o n with
    | some x => .ok x
    | none => .error .scratchRange

/-- Bytes of one row of an A image (R284). -/
def aRowBytes (t : Nat) : Nat := if t ≤ 1 ∨ t = 5 then 64 else if t ≤ 3 then 48 else 32
/-- Bits of an element in an A image. -/
def aBits (t : Nat) : Nat := if t ≤ 1 ∨ t = 5 then 8 else if t ≤ 3 then 6 else if t = 4 then 4 else 16
/-- Rows of K (R284). -/
def kRows (t : Nat) : Nat := if t ≤ 5 then 64 else 16

/-- b[k][n] from the four quarters (R288). -/
def bElem (t : Nat) (b : List (List (List Nat))) (k n : Nat) : Nat :=
  let word (q j : Nat) : Nat := (((b.getD q []).getD (n / 2) []).getD j 0)
  if t = 4 then elem 4 (word (k / 16) (k % 16 / 4)) (2 * (k % 4) + n % 2)
  else if t ≤ 5 then elem 8 (word (k / 16) (k % 16 / 2)) (2 * (k % 2) + n % 2) % 2 ^ aBits t
  else elem 16 (word (k / 4) (k % 4)) (n % 2)

/-- A scale of E8M0 applied; the NaN code makes the sum NaN (R71, R74). -/
def scaleBy (x : FVal) (code : Nat) : FVal :=
  match e8m0 code with
  | some e => x.scale e
  | none => .qnan

/-- The exact sum of one group (R73). -/
def groupSum (p : PendingMma) (m n g len : Nat) : FVal :=
  let s := (List.range len).foldl (fun s j =>
    let k := g * len + j
    (addVal 0 s (mulVal (decodeNarrow p.ta ((p.a.getD m []).getD k 0)) (decodeNarrow p.tb (bElem p.tb p.b k n))).1).1)
    (.num false 0 0)
  if p.ta ≤ 5 then scaleBy (scaleBy s (p.scaleA.getD (2 * m + g) 0)) (p.scaleB.getD (64 * g + n) 0) else s

/-- One element after an MMA (R73, R74). -/
def mmaElem (p : PendingMma) (old m n : Nat) : Nat :=
  let len := if p.ta ≤ 5 then 32 else 16
  (List.range (if p.ta ≤ 5 then 2 else 1)).foldl (fun c g =>
    (roundFP fp32 (addVal 0 (decodeFP fp32 c false) (groupSum p m n g len)).1 0 false).1) old

/-- A tile's elements from a function of row and column. -/
def tileOf (v : Nat → Nat → Nat) : Tab W32 :=
  ((List.range 4096).map fun i => (i, BitVec.ofNat 32 (v (i / 64) (i % 64)))).filter fun c => c.2 != 0

/-- MMA_COMPLETE (R289, R407): the earliest MMA of a core accumulates; a residue that has not matched poisons the tile and makes its
entry, with core + 256 × quadrant as its INDEX (log 52); the values of a poisoned tile are free (log 10). -/
def execMmaComplete (c : Nat) (s : State) : Host.Outcome State Fault Refusal :=
  .next (match (s.core c).mmas with
    | [] => s
    | p :: rest =>
      let t := (s.core c).tile p.tile
      let spoilt := t.poison || p.bad || p.residue.isSome
      let data := if spoilt then tileOf fun m n => (Config.tileValue s.freeCtr (64 * m + n)).toNat
        else tileOf fun m n => mmaElem p (t.elem m n) m n
      let s := { s with freeCtr := s.freeCtr + spoilt.toNat }
      let s := match p.residue with
        | some q => s.logError .residue 2 (c + 256 * q) 0 1 ((((s.core c).owner).map fun b => (s.spaceOf b).1).getD 0)
        | none => s
      (s.setTile c p.tile { data := data, busy := t.busy - 1, poison := spoilt }).modCore c fun x => { x with mmas := rest })

/-! ## The start of a collective (R287 to R291) -/

/-- The next collective of a gang dropped: its threads complete it and a new draft begins (R289). -/
def State.finishCollective (s : State) (k : Nat) : State :=
  (s.modGang k fun g =>
    match g.issued with
    | [] => g
    | x :: rest =>
      let ls := lanesOf (x.waiting &&& g.live) g.width
      let back := ls.filter fun l => (g.thread l).backward .fall
      let g1 := { g with issued := rest }.modLanes (laneSet ls) fun t =>
        let t := t.control .fall
        t.committed t.pc
      (((back.map (· / 4)).dedup.filter fun sl => 2 ≤ g.distinctPcs sl).foldl Gang.countBackward g1)).settle k

/-- The next collective of a gang traps in every thread that waits at it (R287, R289, R290, R291). -/
def State.trapCollective (s : State) (k : Nat) (fault : Nat → LaneFault) : State :=
  match s.gang? k with
  | none => s
  | some g =>
    match g.issued with
    | [] => s
    | x :: rest =>
      ((s.setGang k { g with issued := rest }).trapLanes k x.pc x.insn
        ((lanesOf (x.waiting &&& g.live) g.width).map fault)).settle k

/-- The tile that a collective names (R287). -/
def tileNamed (i : Instr) : Nat :=
  let num (o : Operand) : Nat := match o with | .tile t => t.toNat | _ => 0
  match i with
  | .mma f | .mzero f | .mlda f => num f.d
  | .msta f => num f.b
  | _ => 0

/-- What the members have to agree on besides A and C: the mnemonic, TY, MD and the tile. -/
def collectiveKey (i : Instr) : Nat × Nat × Nat × Nat :=
  match i with
  | .mma f => (1, f.ty.code, f.md.toNat, tileNamed i)
  | .mzero f => (2, f.ty.code, f.md.toNat, tileNamed i)
  | .mlda f => (3, f.ty.code, f.md.toNat, tileNamed i)
  | .msta f => (4, f.ty.code, f.md.toNat, tileNamed i)
  | _ => (0, 0, 0, 0)

/-- Four issued collectives agree (R287). -/
def agree (l : List Issued) : Bool :=
  match l with
  | [] => true
  | x :: xs => xs.all fun y =>
      (y.waiting == 0) == (x.waiting == 0) &&
        (x.waiting == 0 || (collectiveKey y.instr == collectiveKey x.instr && y.a == x.a && y.c == x.c))

/-- All four members trap, or all four complete. -/
def State.trapSet (s : State) (ks : List Nat) (fault : Nat → LaneFault) : State := ks.foldl (fun s k => s.trapCollective k fault) s
def State.finishSet (s : State) (ks : List Nat) : State := ks.foldl (fun s k => s.finishCollective k) s

/-- Element size of an image (R98). -/
def imageElem (t : Ty) : Nat := if t = .f32 then 4 else 2

/-- MMA at its start (R288, R289); the image of A is judged before the scales (log 53). -/
def State.startMma (s : State) (c blk : Nat) (ks : List Nat) (f : Fields) (l : List Issued) : State :=
  let ta := f.md.toNat
  let tb := f.ty.code
  let x := l.headD ⟨0, .mma f, 0, 0, 0, 0, [], .fresh, false⟩
  let narrow := ta ≤ 5
  let fault (o n : Nat) (ca : Cause) (lane : Nat) : LaneFault := ⟨lane, ca, 0, 0, 0, n, 0, BitVec.ofNat 64 o⟩
  let offA := 16 * (x.c % 2 ^ 16)
  let offB := 16 * (x.c / 2 ^ 16 % 2 ^ 16)
  match s.imageAt c blk x.a (64 * aRowBytes ta) 128 with
  | .error ca => s.trapSet ks (fault x.a 16 ca)
  | .ok (odd, off) =>
    match (if narrow then s.scaleAt c blk offA else .ok []), (if narrow then s.scaleAt c blk offB else .ok []) with
    | .error ca, _ => s.trapSet ks (fault offA 16 ca)
    | _, .error ca => s.trapSet ks (fault offB 16 ca)
    | .ok sa, .ok sb =>
      let (s, img, e0) := s.readImage blk (halfGranules odd off (64 * aRowBytes ta))
      let (s, ia, e1) := s.readImage blk sa
      let (s, ib, e2) := s.readImage blk sb
      let p : PendingMma := {
        tile := tileNamed x.instr, ta := ta, tb := tb
        a := (List.range 64).map fun m =>
          (List.range (kRows ta)).map fun k => bits img (8 * (m * aRowBytes ta) + aBits ta * k) (aBits ta)
        scaleA := if narrow then (List.range 128).map fun i => elem 8 ia i else []
        scaleB := if narrow then (List.range 128).map fun i => elem 8 ib i else []
        b := l.map Issued.quarter, bad := e0 != 0 || e1 != 0 || e2 != 0, residue := none }
      let t := (s.core c).tile p.tile
      ((s.setTile c p.tile { t with busy := t.busy + 1, poison := t.poison || p.bad }).modCore c fun y =>
        { y with mmas := y.mmas ++ [p] }).finishSet ks

/-- MLDA at its start (R290): its image is checked, then it waits for the tile, and the floats are widened exactly to FP32. -/
def State.startMlda (s : State) (c blk : Nat) (ks : List Nat) (f : Fields) (x : Issued) : State :=
  let sz := imageElem f.ty
  let fault (ca : Cause) (kind lane : Nat) : LaneFault := ⟨lane, ca, 0, 0, kind, sz, 0, BitVec.ofNat 64 x.a⟩
  match s.imageAt c blk x.a (4096 * sz) 128 with
  | .error ca => s.trapSet ks (fault ca 0)
  | .ok (odd, off) =>
    if ((s.core c).tile (tileNamed x.instr)).busy ≠ 0 then s
    else
    match s.readImage blk (halfGranules odd off (4096 * sz)) with
    | (s, img, 0) =>
      let widen (v : Nat) : Nat := if f.ty = .f32 then v else (roundFP fp32 (decodeFP (fmtOf f.ty) v false) 0 false).1
      (s.setTile c (tileNamed x.instr)
        { data := tileOf fun m n => widen (bits img (8 * sz * (64 * m + n)) (8 * sz)), busy := 0, poison := false }).finishSet ks
    | (s, _, kind) => s.trapSet ks (fault .dataPoison kind)

/-- A guard's hit on an FP32 element: NaN, or a magnitude above the limit (R291). -/
def RangeGuard.hit (g : RangeGuard) (v : Nat) : Bool := g.limit.toNat < v % 2 ^ 31

/-- The element after CLAMP (R291). -/
def RangeGuard.clamp (g : RangeGuard) (v : Nat) : Nat :=
  if g.hit v ∧ g.act = 1 then (if 0x7F800000 < v % 2 ^ 31 then g.limit.toNat else v / 2 ^ 31 * 2 ^ 31 + g.limit.toNat) else v

/-- The pattern that MSTA stores (R291). -/
def storeElem (f : Fields) (v : Nat) : Nat :=
  if f.ty = .f32 then v
  else
    let F := fmtOf f.ty
    let y := (roundFP F (decodeFP fp32 v false) (f.md.toNat % 8) false).1
    if f.sat ∧ y = F.infBits false then F.maxBits false
    else if f.sat ∧ y = F.infBits true then F.maxBits true
    else y

/-- Hits counted in a member's guard, unless its GSTAT has been written since the MSTA issued (R57, R291). -/
def State.countHits (s : State) (k : Nat) (x : Issued) (hits : Nat) : State :=
  match x.instr with
  | .msta f =>
    match f.d with
    | .guard i =>
      if hits = 0 ∨ x.cleared then s
      else s.modGang k fun g =>
        let y := Tab.getD g.guards i.toNat .fresh
        let y1 : RangeGuard := { y with count := BitVec.ofNat 16 (min (y.count.toNat + hits) 0xFFFF), sticky := true }
        { g with guards := Tab.set g.guards i.toNat y1 }
    | _ => s
  | _ => s

/-- MSTA at its start (R290, R291): its image is checked, then it waits for the tile. -/
def State.startMsta (s : State) (c blk : Nat) (ks : List Nat) (f : Fields) (l : List Issued) : State :=
  let sz := imageElem f.ty
  let x := l.headD ⟨0, .msta f, 0, 0, 0, 0, [], .fresh, false⟩
  let t := (s.core c).tile (tileNamed x.instr)
  match s.imageAt c blk x.a (4096 * sz) 128 with
  | .error ca => s.trapSet ks fun lane => ⟨lane, ca, 1, 0, 0, sz, 0, BitVec.ofNat 64 x.a⟩
  | .ok (odd, off) =>
    if t.busy ≠ 0 then s
    else if t.poison then s.trapSet ks fun lane => LaneFault.plain lane .accPoison
    else
      let guardOf (m : Nat) : RangeGuard := ((l[m / 16]?).map Issued.guard).getD .fresh
      let hitsOf (q : Nat) : Nat :=
        ((List.range 1024).filter fun i => (guardOf (16 * q)).hit (t.elem (16 * q + i / 64) (i % 64))).length
      let s := ((ks.zip l).zipIdx).foldl (fun s y => s.countHits y.1.1 y.1.2 (hitsOf y.2)) s
      if (List.range 4).any fun q => (guardOf (16 * q)).act == 2 && hitsOf q != 0 then
        s.trapSet ks fun lane => LaneFault.plain lane .rangeGuard
      else
        let own := match s.block? blk with | some b => b.coreOfHalf odd == c | none => true
        let fOf (m : Nat) : Fields := match (l[m / 16]?).map Issued.instr with | some (.msta g) => g | _ => f
        let data := packElems (8 * sz) ((List.range 4096).map fun i =>
          storeElem (fOf (i / 64)) ((guardOf (i / 64)).clamp (t.elem (i / 64) (i % 64))))
        (s.scratchWrite blk odd off (4096 * sz) data (!own)).finishSet ks

/-- A tile that an instruction of a set has named (R286). -/
def State.nameTile (s : State) (core set tile : Nat) : State :=
  s.modCore core fun c => { c with named := Tab.set c.named set (NatSet.add (Tab.getD c.named set []) tile) }

/-- MATRIX_COLLECTIVE_START (R287 to R291): all four members have issued their next collective. -/
def execMatrixCollectiveStart (c set : Nat) (s : State) : Host.Outcome State Fault Refusal :=
  let ks := s.setGangs c set
  let heads := ks.filterMap fun k => (s.gang? k).bind fun g => g.issued.head?
  .next (
    if ks.length ≠ 4 ∨ heads.length ≠ 4 then s
    else
      match heads, (s.gang? (ks.headD 0)).map Gang.blk with
      | x :: _, some blk =>
        if !agree heads then s.trapSet ks fun lane => LaneFault.plain lane .matrixMismatch
        else if x.waiting = 0 then s.finishSet ks
        else
          match s.drain fun e => (e.core == c) && (match e.place with | .scratch b _ _ => b == blk | _ => false) with
          | none => s
          | some s =>
            let tile := tileNamed x.instr
            let busy := ((s.core c).tile tile).busy ≠ 0
            match x.instr with
            | .mma f => (s.startMma c blk ks f heads).nameTile c set tile
            | .mzero _ => if busy then s else ((s.setTile c tile .fresh).finishSet ks).nameTile c set tile
            | .mlda f => (s.startMlda c blk ks f x).nameTile c set tile
            | .msta f => (s.startMsta c blk ks f heads).nameTile c set tile
            | _ => s
      | _, _ => s)

end Sys2Proof.Machine
end

