-- ==== Sys2Proof/Machine/Calls.lean ====
section
/-! DEFINITION. Porter calls, OP 0xB0 (R151 to R154, R230 to R232, R320), and the entry of held sources into the delivery queue
(R312). -/

namespace Sys2Proof.Machine

/-- The six argument words of a thread (R151, R231). -/
def Gang.callArgs (g : Gang) (f : Fields) (lane : Nat) : List W32 :=
  (List.range 6).map fun j => match f.a with | .v i => (g.thread lane).readV (i.toNat + j) | _ => 0

/-- The call number in a thread's slice. -/
def Gang.callNumber (g : Gang) (f : Fields) (lane : Nat) : W32 := BitVec.ofNat 32 (g.src lane f f.b 32)

/-- A thread joins the class that equals it, or makes a new one (R152): classes stand in the order of their lowest LANE. -/
def joinClass (l : List CallClass) (lane : Nat) (n : W32) (args : List W32) : List CallClass :=
  if l.any fun c => c.number == n && c.args == args then
    l.map fun c => if c.number = n ∧ c.args = args then { c with lanes := c.lanes ||| BitVec.twoPow 64 lane } else c
  else l ++ [⟨n, args, BitVec.twoPow 64 lane⟩]

/-- The fields of a SYSC or SYSC.A. -/
def callFields (i : Instr) : Option (Fields × Bool) :=
  match i with
  | .sysc f => some (f, false)
  | .syscA f => some (f, true)
  | _ => none

/-- A call record made and its entry queued (R311, R320). -/
def State.makeCall (s : State) (k : Nat) (lanes : List Nat) (pc : Pc) (f : Fields) (async : Bool) : State :=
  match s.gang? k with
  | none => s
  | some g =>
    let cl := clusterOf k
    let token := (s.cluster cl).nextToken
    let classes := lanes.foldl (fun l t => joinClass l t (g.callNumber f t) (g.callArgs f t)) []
    let r : CallRec := {
      token := token, key := k, gen := s.gen k, async := async, mbx := f.md.toNat
      dreg := match f.d with | .v i => i.toNat | _ => 0
      pc := pc, classes := classes, left := laneSet lanes }
    let s := (s.modCore (coreOf k) fun c => { c with calls := c.calls ++ [r] }).modCluster cl fun c =>
      { c with nextToken := c.nextToken + 1 }
    s.enter cl {
      kind := .call, handle := s.handle k, cause := 0, seq := 0, lanes := laneSet lanes, arg0 := BitVec.ofNat 64 token
      arg1 := pc.setWidth 64 }

/-- The shape of SYSC and SYSC.A (R231): a full queue holds the threads at issue. -/
def opCall (i : Instr) (f : Fields) (async : Bool) : Op :=
  let b := Op.base i f fun s l =>
    let k := s.focus.key
    let g := s.focusGang
    if async && decide (((s.block? g.blk).map Block.mailboxes).getD 0 ≤ f.md.toNat) then
      (s, .trap (LaneFault.plain l .mailboxRange))
    else if !s.mayEnter (clusterOf k) (some k) then (s, .stand)
    else
      match s.drainThread g.tag l with
      | none => (s, .hold)
      | some s => (s, .ok { Eff.none with park := if async then none else some .caller })
  { b with
    cls := .ending
    srcs := ⟨f.a, 6, f.fa⟩ :: Use.src (rowOf i).b (rowOf i) f f.b f.fb
    post := fun s done standing _ =>
      let k := s.focus.key
      let s := if standing = [] then s else s.hold (clusterOf k) (.call k (laneSet standing) s.focus.pc i s.focus.insn)
      if done = [] then s else s.makeCall k done s.focus.pc f async }.publishes true 0

/-- SYSC (R151 to R153, R231). -/
def execSysc (f : Fields) (s : State) : Host.Outcome State Fault Refusal := runInstr f (opCall (.sysc f) f false) s

/-- SYSC.A (R154, R231, R232). -/
def execSyscA (f : Fields) (s : State) : Host.Outcome State Fault Refusal := runInstr f (opCall (.syscA f) f true) s

/-! ## Held sources -/

/-- A held call performed: its record made, its callers parked or, for SYSC.A, past it (R231); while the gang counts failed stores its
threads trap instead, and the count clears (R377). -/
def State.enterCall (s : State) (k : Nat) (lanes : Lanes) (pc : Pc) (i : Instr) (insn : Insn) : Option State :=
  match s.gang? k, callFields i with
  | some g, some (f, async) =>
    let ls := lanesOf (lanes &&& g.live) g.width
    if ls = [] then some s
    else if g.failedStores ≠ 0 then
      some (((s.setGang k { g with failedStores := 0 }).trapLanes k pc insn
        (ls.map fun l => ⟨l, .remoteUnreachable, 1, 0, 0, 0, 0, 0⟩)).settle k)
    else
      (s.drainAll g.tag ls).map fun s =>
        let s := s.makeCall k ls pc f async
        (s.modGang k fun g => g.modLanes (laneSet ls) fun t =>
          if async then
            let t := t.control .fall
            t.committed t.pc
          else { t with tstate := .caller }).settle k
  | _, _ => some s

/-- A held trap taken by the threads that are still live (R312); `none` while a store of theirs is on its way (R108). -/
def State.enterTrap (s : State) (k : Nat) (pc : Pc) (insn : Insn) (faults : List LaneFault) : Option State :=
  match s.gang? k with
  | some g =>
    let fs := faults.filter fun f => g.live.getLsbD f.lane
    if fs = [] then some s else (s.tryTrap k pc insn fs).map fun s => s.settle k
  | none => some s

/-- A held source may enter: there is room, no fault record stands in its way, and no earlier source that could enter, nor an
earlier one of its gang, stands before it (R311, R312). -/
def State.heldTurn (s : State) (cl i : Nat) (h : HeldSrc) : Bool :=
  s.dqRoom cl && s.heldReady h &&
    !(((s.cluster cl).held.take i).any fun x => s.heldReady x || (h.key.isSome && x.key == h.key))

/-- HELD_SOURCE_ENTER (R312). -/
def execHeldSourceEnter (cl i : Nat) (s : State) : Host.Outcome State Fault Refusal :=
  .next (match (s.cluster cl).held[i]? with
    | none => s
    | some h =>
      if s.heldTurn cl i h then
        let s1 := s.modCluster cl fun c => { c with held := c.held.eraseIdx i }
        match h with
        | .trap k pc insn fs => (s1.enterTrap k pc insn fs).getD s
        | .call k lanes pc instr insn => (s1.enterCall k lanes pc instr insn).getD s
        | .engine core u h => s1.enterEngine core u h
        | .dist e => s1.enter cl e
      else s)

/-- The held sources of a gang dropped: its eviction or end cancels them (R231, R312). -/
def State.dropHeld (s : State) (k : Nat) : State :=
  s.modCluster (clusterOf k) fun c => { c with held := c.held.filter fun h => h.key ≠ some k }

end Sys2Proof.Machine
end

