-- ==== Sys2Proof/Machine/PorterMem.lean ====
section
/-! DEFINITION. A porter's registers, the translation of its accesses (R309, R344), the memory operands of its custom
instructions, and the frame of R315 around those. -/

namespace Sys2Proof.Machine

/-- Integer register i; x0 reads zero. -/
def Porter.rd (p : Porter) (i : BitVec 5) : W64 := if i = 0 then 0 else Tab.getD p.x i.toNat 0
/-- Integer register i written; x0 discards. -/
def Porter.wr (p : Porter) (i : BitVec 5) (x : W64) : Porter := if i = 0 then p else { p with x := Tab.put p.x 0 i.toNat x }
/-- One more instruction retired. -/
def Porter.retired (p : Porter) : Porter := { p with minstret := p.minstret + 1 }
/-- The next instruction. -/
def Porter.next (p : Porter) : Porter := { p.retired with pc := p.pc + BitVec.ofNat 64 p.len }

def State.porter (s : State) (cl : Nat) : Porter := (s.cluster cl).porter

/-- The mode that a mode code of mstatus.MPP names. -/
def pmodeOf (n : Nat) : PMode :=
  match n with
  | 0 => .user
  | 1 => .supervisor
  | _ => .machine

/-- The mode under which an access is checked: MPRV gives M-mode loads and stores the mode of MPP. -/
def Porter.accessMode (p : Porter) (acc : Access) : PMode :=
  if acc ≠ .fetch ∧ p.mode = .machine ∧ p.mstatus.getLsbD 17 then pmodeOf (bits p.mstatus.toNat 11 2) else p.mode

/-- The exceptions of R344 for an access. -/
def pageFaultOf : Access → PorterCause
  | .read => .loadPage | .fetch => .fetchPage | _ => .storePage
def accessFaultOf : Access → PorterCause
  | .read => .loadFault | .fetch => .fetchFault | _ => .storeFault

/-- The exception that a cause of a walk raises (R344). -/
def walkExcept (c : Cause) (acc : Access) : PorterCause :=
  match c with
  | .pageAbsent | .pageRead | .pageWrite | .pageDirty | .pagePrivilege | .walkFormat => pageFaultOf acc
  | _ => accessFaultOf acc

/-- The permission checks of a porter's access against a leaf (R344): U with SUM, R with MXR, W, D and X. -/
def Porter.mayAccess (p : Porter) (m : PMode) (pte : Nat) (acc : Access) : Bool :=
  let has (i : Nat) : Bool := bits pte i 1 == 1
  let mode := match m with
    | .user => has 5
    | .supervisor => !has 5 || (p.mstatus.getLsbD 18 && acc != .fetch)
    | .machine => true
  let readable := has 2 || (p.mstatus.getLsbD 19 && has 4)
  mode && (!acc.reads || readable) && (!acc.writes || (has 3 && has 7)) && (acc != .fetch || has 4)

/-- A leaf from the porter's TLB, the cluster's, or a walk that installs in both (R309, R328; log 33). -/
def State.porterLeaf (s : State) (cl va : Nat) (again : Bool) : State × WalkEnd :=
  let p := s.porter cl
  let asid := p.pasid.toNat % 2 ^ 16
  let keep (s : State) (e : TlbEntry) : State := s.modPorter cl fun p => { p with tlb := installTlb p.tlb 64 e }
  match (if again then none else p.tlb.find? fun e => e.hits asid va) with
  | some e => (s, .leaf e.pte.toNat e.level)
  | none =>
    match (if again then none else (s.cluster cl).tlb.find? fun e => e.hits asid va) with
    | some e => (keep s e, .leaf e.pte.toNat e.level)
    | none =>
      match s.walk cl asid (bits p.ptroot.toNat 12 40) va with
      | (s, .leaf pte l) => (keep (s.installCluster cl (tlbOf asid va pte l)) (tlbOf asid va pte l), .leaf pte l)
      | (s, w) => (s, w)

/-- Why a porter's access has no address: an exception, or a walk that waits for another device. -/
inductive PorterMiss where
  | except (c : PorterCause)
  | later
  deriving DecidableEq, Repr

/-- The state after an access that has no address: the exception taken, or the instruction still to be run. -/
def State.porterMiss (s : State) (cl va : Nat) : PorterMiss → State
  | .except c => s.porterExcept cl c va
  | .later => s

/-- The physical address of a porter's access, or its exception: M-mode addresses, and all while PTROOT.ON is clear, are
physical; an address beyond 56 bits has no translation (log 31). -/
def State.porterPa (s : State) (cl va : Nat) (acc : Access) : State × Except PorterMiss Nat :=
  let p := s.porter cl
  let m := p.accessMode acc
  if m = .machine ∨ !p.ptroot.getLsbD 0 then
    (s, if va < 2 ^ 52 then .ok va else .error (.except (accessFaultOf acc)))
  else if 2 ^ 56 ≤ va then (s, .error (.except (pageFaultOf acc)))
  else
    let (s, w) := s.porterLeaf cl va false
    let (s, w) := match w with
      | .leaf pte _ => if acc.writes ∧ bits pte 7 1 = 0 then s.porterLeaf cl va true else (s, w)
      | _ => (s, w)
    match w with
    | .later => (s, .error .later)
    | .fault c _ => (s, .error (.except (walkExcept c acc)))
    | .leaf pte l => (s, if p.mayAccess m pte acc then .ok (leafPa pte l va) else .error (.except (pageFaultOf acc)))

/-- The target of a porter's access (R326, R344). -/
def State.porterTarget (s : State) (cl va : Nat) (acc : Access) : State × Except PorterMiss (Target × Nat) :=
  match s.porterPa cl va acc with
  | (s, .error c) => (s, .error c)
  | (s, .ok pa) =>
    match s.target pa with
    | .fail _ => (s, .error (.except (accessFaultOf acc)))
    | .hbm a => (s, .ok (.hbm a, a))
    | t => (s, .ok (t, pa))

/-- The ASID under which an error that a porter's access meets is logged: none for a physical one (R425). -/
def State.porterAsid (s : State) (cl : Nat) (acc : Access) : Nat :=
  let p := s.porter cl
  if p.accessMode acc = .machine ∨ !p.ptroot.getLsbD 0 then 0 else p.pasid.toNat % 2 ^ 16

/-- The porter waits for an answer of another device. -/
def State.porterWaits (s : State) (cl : Nat) : Bool :=
  s.link.requests.any fun r =>
    match r.src with
    | .porter c .. => c == cl
    | .buffer c .. => c == cl
    | .parcel c _ => c == cl
    | _ => false

/-- Bytes read from a physical address of this device or the host, atom by atom; `none` where an atom is bad. -/
def State.readBytes (s : State) (pa n asid : Nat) : State × Option Nat :=
  (List.range ((pa + n + 31) / 32 - pa / 32)).foldl (fun (x : State × Option Nat) i =>
    match x.2 with
    | none => x
    | some v =>
      let lo := max pa (32 * (pa / 32 + i))
      let hi := min (pa + n) (32 * (pa / 32 + i + 1))
      match x.1.agentRead lo (hi - lo) asid with
      | (s, .data y) => (s, some (v + y * 256 ^ (lo - pa)))
      | (s, .bad _) => (s, none)) (s, some 0)

/-- How the transfer of a memory operand stands; a fault names its address. -/
inductive Transfer where
  | data (x : Nat)
  | fault (c : PorterCause) (va : Nat)
  | wait
  deriving DecidableEq, Repr

/-- n bytes of an operand aligned to 64 read (R315): from another device by one request, whose answer the instruction awaits; the
register space holds no operand (log 34). -/
def State.operandRead (s : State) (cl va n : Nat) : State × Transfer :=
  if va % 64 ≠ 0 then (s, .fault .loadMisaligned va)
  else
    match s.porterTarget cl va .read with
    | (s, .error .later) => (s, .wait)
    | (s, .error (.except c)) => (s, .fault c va)
    | (s, .ok (.regs _, _)) => (s, .fault .loadFault va)
    | (s, .ok (.remote dev off, pa)) =>
      if 0xF00 ≤ dev then (s, .fault .loadFault va)
      else
        match (s.porter cl).buffer with
        | some (a, x) => (s, if a = pa then .data x else .wait)
        | none => (((s.sendRemote (4 * cl) dev off (.read n) (.buffer cl va pa 0 false)).getD s), .wait)
    | (s, .ok (_, pa)) =>
      match s.readBytes pa n (s.porterAsid cl .read) with
      | (s, some x) => (s, .data x)
      | (s, none) => (s, .fault .loadFault va)

/-- The targets of the 64-byte lines of an operand, or the first exception. -/
def State.operandLines (s : State) (cl va : Nat) : Nat → State × Except (PorterMiss × Nat) (List (Target × Nat))
  | 0 => (s, .ok [])
  | n + 1 =>
    match s.operandLines cl va n with
    | (s, .error e) => (s, .error e)
    | (s, .ok l) =>
      match s.porterTarget cl (va + 64 * n) .write with
      | (s, .error c) => (s, .error (c, va + 64 * n))
      | (s, .ok (.regs _, _)) => (s, .error (.except .storeFault, va + 64 * n))
      | (s, .ok t) => (s, .ok (l ++ [t]))

/-- n lines written to an operand aligned to 64: every line is translated first; those of another device go one request after
another, each awaited; then those of this device and the host. -/
def State.operandWrite (s : State) (cl va n x : Nat) : State × Transfer :=
  if va % 64 ≠ 0 then (s, .fault .storeMisaligned va)
  else
    match s.operandLines cl va n with
    | (s, .error (.later, _)) => (s, .wait)
    | (s, .error (.except c, a)) => (s, .fault c a)
    | (s, .ok l) =>
      let part (i : Nat) : Nat := x / 2 ^ (512 * i) % 2 ^ 512
      let far := (l.mapIdx fun i t => (i, t)).filterMap fun (y : Nat × Target × Nat) =>
        match y.2.1 with
        | .remote dev off => some (y.1, dev, off, y.2.2)
        | _ => none
      let rest := match (s.porter cl).buffer with
        | some (a, _) => (far.dropWhile fun y => y.2.2.2 ≠ a).drop 1
        | none => far
      match rest with
      | (i, dev, off, pa) :: _ =>
        ((s.sendRemote (4 * cl) dev off (.write 64 (part i)) (.buffer cl (va + 64 * i) pa (part i) true)).getD s, .wait)
      | [] =>
        ((l.mapIdx fun i t => (i, t)).foldl (fun (s : State) (y : Nat × Target × Nat) =>
          match y.2.1 with
          | .remote .. => s
          | _ => s.writeRecord y.2.2 64 (part y.1)) s, .data x)

/-! ## The frame of R315 -/

/-- The status codes of R315. -/
inductive PStatus where
  | ok | busy | stale | badsel | full | empty | baddest | corrupt
  deriving DecidableEq, Repr

def PStatus.code : PStatus → Nat
  | .ok => 0 | .busy => 1 | .stale => 2 | .badsel => 3 | .full => 4 | .empty => 5 | .baddest => 6 | .corrupt => 7

/-- How a custom instruction ends: a value for rd with a status, an exception at an address, or waiting for another device. -/
inductive PEnd where
  | done (rd : Nat) (st : PStatus)
  | except (c : PorterCause) (tval : Nat)
  | wait
  deriving DecidableEq, Repr

/-- A custom instruction: illegal in U-mode; else its act, then rd, PSTAT and the next instruction (R315). -/
def State.custom (s : State) (cl : Nat) (d : BitVec 5) (act : State → State × PEnd) : State :=
  if (s.porter cl).mode = .user then s.porterExcept cl .illegal 0
  else if s.porterWaits cl then s
  else
    match act s with
    | (s1, .done v st) =>
      s1.modPorter cl fun p => { ((p.wr d (BitVec.ofNat 64 v)).next) with pstat := BitVec.ofNat 4 st.code, buffer := none }
    | (s1, .except c tval) => s1.porterExcept cl c tval
    | (s1, .wait) => s1

end Sys2Proof.Machine
end

