-- ==== Sys2Proof/Machine/StatePort.lean ====
section
/-! DEFINITION. The state port (R314 to R316), the gang commands (R317), resumption (R318), the eviction of threads (R46, R49, R143,
R150) and the gang image (R358). -/

namespace Sys2Proof.Machine

/-! ## Handles and selectors -/

/-- The key of the slot that a handle names in a cluster (R314). -/
def keyOf (cl : Nat) (h : BitVec 16) : Nat := 256 * cl + h.toNat % 256

/-- The gang that a handle names; `none` where the handle is stale (R314). -/
def State.named (s : State) (cl : Nat) (h : BitVec 16) : Option (Nat × Gang) :=
  let k := keyOf cl h
  match s.gang? k with
  | some g => if g.gstate ≠ .free ∧ h.toNat / 256 = (s.gen k).toNat then some (k, g) else none
  | none => none

/-- Parked (R316). -/
def TState.parked : TState → Bool
  | .trapped | .caller | .stopped | .waiting => true
  | _ => false

def TState.code : TState → Nat
  | .live => 0 | .trapped => 1 | .caller => 2 | .stopped => 3 | .waiting => 4 | .ended => 5

def GState.code : GState → Nat
  | .free => 0 | .placed => 1 | .running => 2 | .stopping => 3 | .halted => 4 | .ended => 5

/-- Every live thread of the gang is parked. -/
def Gang.allParked (g : Gang) : Bool := g.threads.all fun t => t.tstate != .live

/-- The access conditions of R316. -/
inductive PortCond where
  | thread | gang | always
  deriving DecidableEq, Repr

def PortCond.met (c : PortCond) (g : Gang) (t : Nat) : Bool :=
  match c with
  | .thread => (g.thread t).tstate.parked
  | .gang => g.allParked
  | .always => true

/-- The kind code of an armed token (R145, R316). -/
def Token.code : Token → Nat
  | .barrier .. => 0 | .batch _ => 1 | .mailbox _ => 2 | .monitor => 3 | .timer => 4

/-- A range guard's dword (R316). -/
def RangeGuard.dword (x : RangeGuard) : Nat :=
  x.limit.toNat + 2 ^ 32 * x.count.toNat + 2 ^ 48 * x.sticky.toNat + 2 ^ 49 * x.act.toNat

/-- A loop entry's field: start, end, count. -/
def LoopEntry.field (e : LoopEntry) : Nat → Nat
  | 0 => e.start.toNat
  | 1 => e.last.toNat
  | _ => e.count.toNat

/-- Class 3 of R316, read. -/
def Gang.readThread (g : Gang) (t idx : Nat) : Option (PortCond × Nat) :=
  let x := g.thread t
  match idx with
  | 0 => some (.thread, x.pc.toNat)
  | 1 => some (.thread, x.dstart.toNat)
  | 2 => some (.thread, x.dxm.toNat + 2 ^ 32 * x.dwm.toNat)
  | 3 => some (.thread, x.dext.toNat + 2 ^ 32 * x.drc.toNat + 2 ^ 40 * x.drl.toNat)
  | 4 => some (.thread, x.fstat.toNat)
  | 5 => some (.thread, x.loopd)
  | 6 => some (.always, x.tstate.code)
  | 32 => some (.thread, x.trap.cause.toNat + 2 ^ 7 * x.trap.valid.toNat + 2 ^ 32 * x.trap.code.toNat)
  | n =>
    if 8 ≤ n ∧ n < 24 ∧ (n - 8) % 4 ≠ 3 then
      some (.thread, (Tab.getD x.entries ((n - 8) / 4) ⟨0, 0, 0⟩).field ((n - 8) % 4))
    else none

/-- Class 4 of R316, read; `free` fills a disarmed slot's handler and kind. -/
def Gang.readGang (g : Gang) (idx : Nat) (free : BitVec 59) : Option (PortCond × Nat) :=
  match idx with
  | 0 => some (.always, g.gstate.code)
  | 1 => some (.gang, g.epend.toNat + 2 ^ 16 * g.emask.toNat + 2 ^ 32 * g.evslot.toNat)
  | 2 => some (.gang, g.deadline.toNat)
  | 3 => some (.always, g.cbstat)
  | 4 => some (.always, match g.binding with | some (set, q) => 1 + 2 * (set % 4) + 8 * (q % 4) | none => 0)
  | n =>
    if 8 ≤ n ∧ n < 16 then some (.gang, (Tab.getD g.guards (n - 8) .fresh).dword)
    else if 16 ≤ n ∧ n < 32 then
      some (.always, match (Tab.getD g.slots (n - 16) .fresh).armed with
        | some (tk, h) => h.toNat + 2 ^ 56 * tk.code + 2 ^ 59
        | none => free.toNat)
    else none

/-- What a selector reads, with its condition; `none` is BADSEL (R316). -/
def Gang.portRead (g : Gang) (cls t idx : Nat) (free : BitVec 59) : Option (PortCond × Nat) :=
  if cls ≤ 3 ∧ g.threads.length ≤ t then none
  else
    match cls with
    | 0 =>
      if idx = 255 then some (.thread, 0)
      else if g.vregs ≤ idx then none
      else some (.thread, ((g.thread t).readV idx).toNat + 2 ^ 32 * ((g.thread t).emptyAt idx 1).toNat)
    | 1 => if idx < 64 then some (.gang, ((g.slice (t / 4)).readS idx).toNat) else none
    | 2 => if idx = 0 then some (.thread, (g.thread t).p.toNat % 128 + 128) else none
    | 3 => g.readThread t idx
    | 4 => g.readGang idx free
    | _ => none

/-- A dword as the limit of a guard (R292, R316). -/
def guardLimit (x : Nat) : W32 := BitVec.ofNat 32 (min (x % 2 ^ 31) 0x7F800000)

/-- Class 3 of R316, written. -/
def Gang.writeThread (g : Gang) (t idx x : Nat) : Option (PortCond × Gang) :=
  let set (f : Thread → Thread) : Option (PortCond × Gang) := some (.thread, g.modThread t f)
  match idx with
  | 0 => set fun y => { y with pc := BitVec.ofNat 56 (x / 4 * 4) }
  | 3 => set fun y => { y with drc := BitVec.ofNat 8 (bits x 32 8), drl := BitVec.ofNat 8 (max 1 (bits x 40 8)) }
  | 4 => set fun y => { y with fstat := BitVec.ofNat 6 x }
  | 5 => if 4 < x % 8 then none else set fun y => { y with loopd := x % 8 }
  | 32 => set fun y => { y with trap := { y.trap with valid := false } }
  | n =>
    if 8 ≤ n ∧ n < 24 ∧ (n - 8) % 4 ≠ 3 then
      set fun y =>
        let e := Tab.getD y.entries ((n - 8) / 4) ⟨0, 0, 0⟩
        let e' : LoopEntry := match (n - 8) % 4 with
          | 0 => { e with start := BitVec.ofNat 56 (x / 4 * 4) }
          | 1 => { e with last := BitVec.ofNat 56 (x / 4 * 4) }
          | _ => { e with count := BitVec.ofNat 32 x }
        { y with entries := Tab.set y.entries ((n - 8) / 4) e' }
    else none

/-- Class 4 of R316, written. -/
def Gang.writeGang (g : Gang) (idx x : Nat) : Option (PortCond × Gang) :=
  match idx with
  | 1 => some (.gang, { g with epend := BitVec.ofNat 16 x &&& g.armed })
  | 2 => some (.gang, { g with deadline := BitVec.ofNat 64 x })
  | n =>
    if 8 ≤ n ∧ n < 16 then
      if bits x 49 2 = 3 then none
      else
        some (.gang, { g with
          guards := Tab.set g.guards (n - 8)
            ⟨guardLimit x, BitVec.ofNat 2 (bits x 49 2), BitVec.ofNat 16 (bits x 32 16), bits x 48 1 == 1⟩ })
    else none

/-- What a selector writes, with its condition; `none` is BADSEL, a read-only selector's too (R316). -/
def Gang.portWrite (g : Gang) (cls t idx x : Nat) : Option (PortCond × Gang) :=
  if cls ≤ 3 ∧ g.threads.length ≤ t then none
  else
    match cls with
    | 0 =>
      if idx = 255 then some (.thread, g)
      else if g.vregs ≤ idx then none
      else some (.thread, g.modThread t fun y => (y.setFull idx 1).writeV idx (BitVec.ofNat 32 x))
    | 1 => if idx < 64 then some (.gang, g.modSlice (t / 4) fun y => y.writeS idx (BitVec.ofNat 32 x)) else none
    | 2 =>
      if idx = 0 then
        some (.thread, g.modThread t fun y => { y with p := BitVec.ofNat 8 (x % 128 + 128), badP := 0 })
      else none
    | 3 => g.writeThread t idx x
    | 4 => g.writeGang idx x
    | _ => none

/-- The fields of a selector: INDEX, THREAD, CLASS; `none` where its zero bits are not zero (R316). -/
def selector (x : Nat) : Option (Nat × Nat × Nat) :=
  if bits x 14 2 ≠ 0 ∨ x / 2 ^ 20 ≠ 0 then none else some (bits x 0 8, bits x 8 6, bits x 16 4)

/-! ## Eviction of threads -/

/-- The producers of a thread that have performed their access, written back: every one of an ending instruction that has performed,
otherwise the loads alone (R46, R189). -/
def Thread.settleProducers (t : Thread) : Thread :=
  t.pend.foldl (fun t q =>
    if q.ready && (t.solo || q.isLoad) then
      let t1 := (t.setFull q.reg q.words).writeVs q.reg q.words q.value
      let t2 := match q.pred with | some (p, b) => t1.writeP p b | none => t1
      { t2 with fstat := t2.fstat ||| q.flags, pend := t2.pend.filter fun x => x.id ≠ q.id }
    else t) t

/-- A producer in flight into an s register is that of an ending instruction that has performed (R143). -/
def Gang.soloProducer (g : Gang) (q : Producer) : Bool := (lanesOf q.members g.width).any fun l => (g.thread l).solo

/-- A gang's slices with what is in flight into s registers written back, where its ending instruction has performed, or cancelled, the copy
keeping its old value (R46, R143, R189). -/
def Gang.settleSlices (g : Gang) : Gang :=
  (List.range g.slices.length).foldl (fun g i =>
    ((g.slice i).pend.filter g.soloProducer).foldl (fun g q =>
      (g.modSlice i fun x => x.writeSs q.reg q.words q.value).modLanes q.members fun t =>
        { t with fstat := t.fstat ||| q.flags }) (g.modSlice i fun x => { x with pend := [] })) g

/-- A thread's draft still waits for its ending instruction's write-back (R143). -/
def Thread.soloOut (t : Thread) : Bool := t.solo && t.pend.any fun q => !q.ready

/-- Eviction of a live thread's draft: committed where its ending instruction has performed, else discarded with DRC as it is
(R49, R143). -/
def State.evictThread (s : State) (k lane : Nat) : State :=
  match s.gang? k with
  | none => s
  | some g =>
    let t := (g.thread lane).settleProducers
    if t.solo then (s.setGang k (g.setThread lane t)).commitThread k lane t.pc
    else (s.setGang k (g.setThread lane t.discarded)).dropLoads k (BitVec.twoPow 64 lane)

/-- STOP of a running gang: its live threads leave every wait, collectives not started are given up by those that stand there, held
sources are dropped, sleep ends, and drafts are evicted but those that wait for a write-back (R46, R49, R143, R150, R228, R231,
R317). -/
def State.stopGang (s : State) (k : Nat) : State :=
  match s.gang? k with
  | none => s
  | some g =>
    let g1 := ({ g with issued := g.issued.filter fun x => x.waiting == 0, wish := none }.leaveWaits g.live).settleSlices
    let s := (s.setGang k { g1 with gstate := .stopping }).dropHeld k
    (lanesOf g.live g.width).foldl (fun s l => if (g1.thread l).soloOut then s else s.evictThread k l) s

/-- The last live thread of a stopping gang halts (R317). -/
def State.haltGang (s : State) (k : Nat) : State :=
  match s.gang? k with
  | none => s
  | some g =>
    let s := (lanesOf g.live g.width).foldl (fun s l => s.evictThread k l) s
    s.modGang k fun x => { x.modLanes g.live fun t => { t with tstate := .stopped } with gstate := .halted }

/-- A stopping gang with no write-back outstanding. -/
def Gang.canHalt (g : Gang) : Bool :=
  g.gstate == .stopping && (lanesOf g.live g.width).all fun l => !(g.thread l).soloOut

/-! ## The gang image (R358) -/

/-- One byte into a CRC-32 of the IEEE 802.3 polynomial, least significant bit first. -/
def crcByte (c : W32) (b : Byte) : W32 :=
  (List.range 8).foldl (fun c _ => if c.getLsbD 0 then (c >>> (1 : Nat)) ^^^ 0xEDB88320 else c >>> (1 : Nat)) (c ^^^ b.setWidth 32)

/-- CRC-32 (IEEE 802.3) of bytes. -/
def crc32 (l : List Byte) : W32 := ~~~(l.foldl crcByte 0xFFFFFFFF)

/-- Bytes of a gang image. -/
def imageSize (w : Nat) : Nat := 0x4000 + 1024 * w

/-- The n bytes of a number, little-endian. -/
def bytesOfNat (n x : Nat) : List Byte := (List.range n).map fun i => BitVec.ofNat 8 (x / 256 ^ i)

/-- The number of little-endian bytes. -/
def natOfBytes (l : List Byte) : Nat := l.foldr (fun b x => b.toNat + 256 * x) 0

/-- The bytes of an image from 0x40 on: s and v registers where R358 places them, and elsewhere whatever the device writes
(log 11). -/
def Gang.imageBody (g : Gang) (free : Nat) : List Byte :=
  (List.range (imageSize g.width - 0x40)).map fun i =>
    let o := i + 0x40
    if 0x4000 ≤ o ∧ (o - 0x4000) % 1024 < 4 * g.vregs then
      BitVec.ofNat 8 (((g.thread ((o - 0x4000) / 1024)).readV ((o - 0x4000) % 1024 / 4)).toNat / 256 ^ (o % 4))
    else if 0x2400 ≤ o ∧ o < 0x2400 + 256 * g.slices.length then
      BitVec.ofNat 8 (((g.slice ((o - 0x2400) / 256)).readS ((o - 0x2400) % 256 / 4)).toNat / 256 ^ (o % 4))
    else Config.imageByte free o

/-- The header of an image (R358). -/
def Gang.imageHeader (g : Gang) (crc : W32) : Nat :=
  0x47534156 + 2 ^ 32 * g.width + 2 ^ 40 * g.vregs + 2 ^ 64 * g.lid + 2 ^ 96 * (g.blk % 2 ^ 31) + 2 ^ 128 * g.gidx +
    2 ^ 160 * crc.toNat

/-- Bytes written from a physical address, line by line. -/
def State.writeBytes (s : State) (pa : Nat) (l : List Byte) : State :=
  (List.range ((l.length + 31) / 32)).foldl (fun s i =>
    let part := (l.drop (32 * i)).take 32
    s.agentWrite (pa + 32 * i) part.length (natOfBytes part)) s

/-- The image of a gang written to its save area (R358). -/
def State.saveImage (s : State) (g : Gang) (area : Nat) : State :=
  let body := g.imageBody s.freeCtr
  let s := { s with freeCtr := s.freeCtr + 1 }
  (s.writeBytes area (bytesOfNat 64 (g.imageHeader (crc32 body)))).writeBytes (area + 0x40) body

/-- Where an area of n bytes that SAVE and RESTORE take lies: aligned to 4 KiB, in HBM of this device or in host memory (log 24). -/
def State.areaAt (s : State) (area n : Nat) : Option Nat :=
  if area % 4096 = 0 then
    match s.target area, s.target (area + n - 1) with
    | .hbm a, .hbm b => if b = a + n - 1 then some a else none
    | .host _, .host _ => some area
    | _, _ => none
  else none

/-- The header and the CRC of the image at an area are those of a gang (R358). -/
def State.imageFits (s : State) (g : Gang) (area : Nat) : Bool :=
  let bytes := Mem.readBytes s.mem.bytes area (imageSize g.width)
  natOfBytes (bytes.take 64) == g.imageHeader (crc32 (bytes.drop 0x40))

/-- The registers of an image loaded into a gang; the staged word of DEADL is not saved, and reads zero after (R55; log 62). -/
def Gang.loadImage (g : Gang) (m : Mem) (area : Nat) : Gang :=
  { g with
    threads := g.threads.mapIdx fun t (x : Thread) =>
      { (List.range (min g.vregs 255)).foldl (fun (x : Thread) i =>
          x.writeV i (BitVec.ofNat 32 (Mem.readN m (area + 0x4000 + 1024 * t + 4 * i) 4))) x with
        empty := 0, bad := 0, badP := 0, pend := [], clockH := 0, drain := false, solo := false }
    slices := g.slices.mapIdx fun j (_ : SliceState) =>
      (List.range 63).foldl (fun (x : SliceState) i =>
        x.writeS i (BitVec.ofNat 32 (Mem.readN m (area + 0x2400 + 256 * j + 4 * i) 4))) .fresh
    deadStage := 0 }

/-! ## Slots given up and taken -/

/-- The name under which an evicted gang's monitors and its set membership stand. -/
def savedKey (blk gidx : Nat) : Nat := 2 ^ 40 + 64 * blk + gidx

/-- Monitors of a gang renamed (R145). -/
def State.rekeyMonitors (s : State) (k k' : Nat) : State :=
  s.modMem fun m => { m with monitors := m.monitors.map fun (x : Monitor) => if x.key = k then { x with key := k' } else x }

/-- A member of a matrix set renamed, the set moving to the core on which its gangs stand now. -/
def State.rekeySet (s : State) (core core' set k k' : Nat) : State :=
  let here := Tab.getD (s.core core').sets set []
  if here.contains k then
    s.modCore core' fun c => { c with sets := Tab.set c.sets set (here.map fun x => if x = k then k' else x) }
  else
    let l := Tab.getD (s.core core).sets set []
    if l.contains k then
      let named := Tab.getD (s.core core).named set []
      (s.modCore core fun c => { c with sets := Tab.erase c.sets set, named := Tab.erase c.named set }).modCore core' fun c =>
        { c with sets := Tab.set c.sets set (l.map fun x => if x = k then k' else x), named := Tab.set c.named set named }
    else s

/-- Parts of copy uses that a gang named follow it to its new slot. -/
def State.rekeyUses (s : State) (blk gidx k : Nat) : State :=
  { s with cores := s.cores.map fun (c : Nat × CoreState) =>
      (c.1, { c.2 with uses := c.2.uses.map fun (u : Nat × CopyUse) =>
        if u.2.blk = blk then
          (u.1, { u.2 with parts := u.2.parts.map fun (p : UsePart) => if p.gang = gidx then { p with key := k } else p })
        else u }) }

/-- The call records of a gang freed (R320). -/
def State.freeCalls (s : State) (k : Nat) : State :=
  match Tab.get? s.cores (coreOf k) with
  | some c => s.setCore (coreOf k) { c with calls := c.calls.filter fun r => r.key ≠ k }
  | none => s

/-- A slot freed: its gang goes, and GEN rises (R314, R317). -/
def State.freeSlot (s : State) (k : Nat) : State :=
  { (s.dropHeld k).freeCalls k with
    gangs := Tab.erase s.gangs k, snaps := Tab.erase s.snaps k, gens := Tab.put s.gens 0 k (s.gen k + 1) }

/-- A gang that has not ended is kept by the distributor (R353, R356), with its context as its latest SAVE wrote it (R317). -/
def State.keepGang (s : State) (k : Nat) (now : Gang) : State :=
  let g := (Tab.get? s.snaps k).getD now
  let sk := savedKey g.blk g.gidx
  let s := s.rekeyMonitors k sk
  let s := match g.binding with | some b => s.rekeySet (coreOf k) (coreOf k) b.1 k sk | none => s
  { s with dist := { s.dist with
    saved := s.dist.saved.filter (fun x => !(x.gang.blk == g.blk && x.gang.gidx == g.gidx)) ++
      [⟨{ g with recordOut := false, restoring := true }, 0, coreOf k, false, []⟩] } }

/-- The batch completions journalled for a gang, replayed in order (R360, R361). -/
def Gang.replayBatches (g : Gang) (l : List JEntry) : Gang :=
  l.foldl (fun g e =>
    match e with
    | .batch _ level use status => (g.endRecs level use status).settleLevels
    | _ => g) g

/-- A gang restored to a slot from its image: registers from the image, the rest as saved, monitors, set and uses following it, the
flush asked of the core it has left, every armed slot evaluated (R131, R145, R317, R358, R360, R366). -/
def State.restoreGang (s : State) (k : Nat) (here : Gang) (x : SavedGang) (area : Nat) : State :=
  let g := x.gang
  let sk := savedKey g.blk g.gidx
  let moved := x.core != coreOf k
  let g1 := { (g.loadImage s.mem.bytes area).replayBatches x.batch with
    gstate := .halted, quad := here.quad, phys := here.phys, restoring := false, recordOut := false
    flushFrom := if moved then g.flushFrom ++ [(x.core, g.epoch)] else g.flushFrom }
  let s := (s.setGang k g1).rekeyMonitors sk k
  let s := match g.binding with | some b => s.rekeySet x.core (coreOf k) b.1 sk k | none => s
  let s := s.rekeyUses g.blk g.gidx k
  let s := { s with dist := { s.dist with
    saved := s.dist.saved.filter fun y => !(y.gang.blk == g.blk && y.gang.gidx == g.gidx) } }
  let s := if moved then s.modCore x.core fun c => { c with flushes := c.flushes ++ [(g.tag, g.epoch)] } else s
  s.evaluateSlots k

/-! ## Gang commands (R317) -/

/-- STOP. -/
def State.cmdStop (s : State) (k : Nat) (g : Gang) : State × PStatus :=
  match g.gstate with
  | .running => (s.stopGang k, .ok)
  | .stopping | .halted => (s, .ok)
  | _ => (s, .busy)

/-- RELEASE. -/
def State.cmdRelease (s : State) (k : Nat) (g : Gang) : State × PStatus :=
  match g.gstate with
  | .ended => (s.freeSlot k, .ok)
  | .halted => ((s.keepGang k g).freeSlot k, .ok)
  | .placed =>
    let s := { s with dist := { s.dist with
      requests := s.dist.requests.filter fun r => !(r.place && r.blk == g.blk && r.gidx == g.gidx) } }
    (s.freeSlot k, .ok)
  | _ => (s, .busy)

/-- SAVE: the epoch of the flush tag rises (R366), and the context stands as it is now until the gang is saved again (R317). -/
def State.cmdSave (s : State) (k : Nat) (g : Gang) (area : Nat) : State × PStatus :=
  if g.gstate ≠ .halted then (s, .busy)
  else
    match s.areaAt area (imageSize g.width) with
    | none => (s, .badsel)
    | some a =>
      let g := { g with epoch := g.epoch + 1 }
      ({ (s.setGang k g).saveImage g a with snaps := Tab.set s.snaps k g }, .ok)

/-- RESTORE. -/
def State.cmdRestore (s : State) (k : Nat) (g : Gang) (area : Nat) : State × PStatus :=
  if g.gstate ≠ .placed then (s, .busy)
  else
    match s.dist.saved.find? fun x => x.gang.blk = g.blk ∧ x.gang.gidx = g.gidx with
    | none => (s, .badsel)
    | some x =>
      match s.areaAt area (imageSize x.gang.width) with
      | none => (s, .badsel)
      | some a => if s.imageFits x.gang a then (s.restoreGang k g x a, .ok) else (s, .badsel)

/-- CLEAR: registers to zero, and the other state of the gang to its reset values of R43. -/
def State.cmdClear (s : State) (k : Nat) (g : Gang) : State × PStatus :=
  if g.gstate ≠ .halted ∧ g.gstate ≠ .ended then (s, .busy)
  else
    let entry := ((s.launch? g.lid).map Launch.entry).getD 0
    let s := match g.binding with | some b => s.dissolveSet (coreOf k) b.1 | none => s
    let s := s.modMem fun m => { m with monitors := m.monitors.filter fun x => x.key ≠ k }
    (s.setGang k { g with
      threads := g.threads.map fun (t : Thread) => { Thread.fresh entry with tstate := t.tstate, trap := t.trap }
      slices := g.slices.map fun (x : SliceState) => { x with s := [], bad := 0, pend := [], rotCount := 0, rot := none }
      slots := [], epend := 0, emask := 0, evslot := 0x1F, deadline := 0, deadStage := 0
      levels := [(0, ⟨.opened, []⟩)], openLevel := 0, guards := [], binding := none, wish := none
      gathers := [], parked := none, collects := [], issued := [], stalled := 0, heldResumes := 0 }, .ok)

/-- KILL: every thread ends, its draft treated as eviction treats it (R32). -/
def State.cmdKill (s : State) (k : Nat) (g : Gang) : State × PStatus :=
  if g.gstate = .placed then (s, .busy)
  else
    let s := ((s.setGang k g.settleSlices).dropHeld k).freeCalls k
    let s := (lanesOf g.live g.width).foldl (fun s l => s.evictThread k l) s
    ((s.modGang k fun x =>
      { x with recordOut := false, threads := x.threads.map fun (t : Thread) => { t with tstate := .ended, pend := [] } }).endGang k,
      .ok)

/-- CLEARFREE: what the core holds and no gang or block does: tiles not claimed, both caches and the L1 TLB. Register words,
scratchpad bytes and granule bits that no gang or block holds are not part of the state (R43). -/
def State.clearFree (s : State) (core : Nat) : State :=
  s.modCore core fun c => { c with
    l1 := [], icache := [], tlb := [], tiles := if c.owner = none then [] else c.tiles }

/-- A gang command (R317): CLEARFREE names a core alone; any other needs a gang. -/
def State.gangCommand (s : State) (cl idx : Nat) (h : BitVec 16) (x : Nat) : State × PStatus :=
  if idx = 6 then (s.clearFree (coreOf (keyOf cl h)), .ok)
  else
    match s.named cl h with
    | none => (s, .stale)
    | some (k, g) =>
      match idx with
      | 0 => s.cmdStop k g
      | 1 => s.cmdRelease k g
      | 2 => s.cmdSave k g x
      | 3 => s.cmdRestore k g x
      | 4 => s.cmdClear k g
      | 5 => s.cmdKill k g
      | _ => (s, .badsel)

/-- A gang command as a step of its own: PSTAT takes its status. -/
def State.commandStep (s : State) (cl idx : Nat) (h : BitVec 16) (x : Nat) : State :=
  let (s, st) := s.gangCommand cl idx h x
  s.modPorter cl fun p => { p with pstat := BitVec.ofNat 4 st.code }

/-! ## The rows -/

/-- PGREAD (R315, R316). -/
def execPgread (cl : Nat) (d a b : BitVec 5) (s : State) : Host.Outcome State Fault Refusal :=
  .next (s.custom cl d fun s =>
    let p := s.porter cl
    match s.named cl ((p.rd a).setWidth 16) with
    | none => (s, .done 0 .stale)
    | some (_, g) =>
      match selector (p.rd b).toNat with
      | none => (s, .done 0 .badsel)
      | some (idx, t, cls) =>
        match g.portRead cls t idx (Config.slotResidue s.freeCtr) with
        | none => (s, .done 0 .badsel)
        | some (c, v) =>
          if c.met g t then ({ s with freeCtr := s.freeCtr + 1 }, .done v .ok) else (s, .done 0 .busy))

/-- PGWRITE's act: a gang command, or a write (R315 to R317). -/
def State.portStore (s : State) (cl : Nat) (h : BitVec 16) (sel x : Nat) : State × PStatus :=
  match selector sel with
  | some (idx, _, 5) => s.gangCommand cl idx h x
  | sel =>
    match s.named cl h, sel with
    | none, _ => (s, .stale)
    | some _, none => (s, .badsel)
    | some (k, g), some (idx, t, cls) =>
      match g.portWrite cls t idx x with
      | none => (s, .badsel)
      | some (c, g') => if c.met g t then (s.setGang k g', .ok) else (s, .busy)

/-- PGWRITE (R315 to R317). -/
def execPgwrite (cl : Nat) (d a b c : BitVec 5) (s : State) : Host.Outcome State Fault Refusal :=
  .next (s.custom cl d fun s =>
    let p := s.porter cl
    let (s, st) := s.portStore cl ((p.rd a).setWidth 16) (p.rd b).toNat (p.rd c).toNat
    (s, .done st.code st))

/-- GANG_STOP (R317). -/
def execGangStop (cl : Nat) (h : BitVec 16) (s : State) : Host.Outcome State Fault Refusal := .next (s.commandStep cl 0 h 0)

/-- GANG_RELEASE (R317). -/
def execGangRelease (cl : Nat) (h : BitVec 16) (s : State) : Host.Outcome State Fault Refusal := .next (s.commandStep cl 1 h 0)

/-- GANG_SAVE (R317, R358). -/
def execGangSave (cl : Nat) (h : BitVec 16) (area : Nat) (s : State) : Host.Outcome State Fault Refusal :=
  .next (s.commandStep cl 2 h area)

/-- GANG_RESTORE (R317, R358). -/
def execGangRestore (cl : Nat) (h : BitVec 16) (area : Nat) (s : State) : Host.Outcome State Fault Refusal :=
  .next (s.commandStep cl 3 h area)

/-- GANG_CLEAR (R317). -/
def execGangClear (cl : Nat) (h : BitVec 16) (s : State) : Host.Outcome State Fault Refusal := .next (s.commandStep cl 4 h 0)

/-- GANG_KILL (R32, R317). -/
def execGangKill (cl : Nat) (h : BitVec 16) (s : State) : Host.Outcome State Fault Refusal := .next (s.commandStep cl 5 h 0)

/-- GANG_CLEARFREE (R317). -/
def execGangClearfree (cl : Nat) (h : BitVec 16) (s : State) : Host.Outcome State Fault Refusal := .next (s.commandStep cl 6 h 0)

/-- GANG_HALT (R317). -/
def execGangHalt (k : Nat) (s : State) : Host.Outcome State Fault Refusal :=
  .next (match s.gang? k with
    | some g => if g.canHalt then s.haltGang k else s
    | none => s)

/-! ## Resume (R30, R318) -/

/-- The threads of a mask that PRESUME makes live: TRAPPED, CALLER or STOPPED, and not held already. -/
def Gang.resumable (g : Gang) (m : Lanes) : Lanes :=
  lanesWhere g.width fun i => m.getLsbD i && !g.heldResumes.getLsbD i &&
    (match (g.thread i).tstate with
      | .trapped | .caller | .stopped => true
      | _ => false)

/-- The call records with resumed callers struck out, and those with no caller left freed (R320). -/
def State.answerCalls (s : State) (k : Nat) (m : Lanes) : State :=
  match Tab.get? s.cores (coreOf k) with
  | none => s
  | some c =>
    s.setCore (coreOf k) { c with
      calls := (c.calls.map fun (r : CallRec) =>
        if r.key = k ∧ !r.async then { r with left := r.left &&& ~~~m } else r).filter fun r => r.left != 0 }

/-- A thread that resumes: live at once, or, in a gang whose group is parked, once the gang issues or that group has been delivered; a
caller completes its SYSC (R30, R150, R153, R224, R318). -/
def Thread.resumeNow (t : Thread) (held : Bool) : Thread :=
  let u := t.resume (if t.tstate = .caller then some t.dstart else none)
  if held then { u with tstate := t.tstate } else u

/-- PRESUME of a gang: the threads resumed, and the state after (R318); it synchronises with their next instructions (R108). -/
def State.resumeGang (s : State) (k : Nat) (g : Gang) (m : Lanes) : State × Lanes :=
  let r := g.resumable m
  let held (i : Nat) : Bool := g.parked.isSome && ((g.thread i).tstate != .stopped || g.gstate == .running)
  let waits := (lanesOf m g.width).any fun i => (g.thread i).tstate == .waiting
  let heldSet := lanesWhere g.width fun i => r.getLsbD i && held i
  let wake := g.gstate == .halted && (r &&& ~~~heldSet != 0 || waits)
  let g1 := { g with
    threads := g.threads.mapIdx fun i (t : Thread) => if r.getLsbD i then t.resumeNow (held i) else t
    heldResumes := g.heldResumes ||| heldSet
    recordOut := false
    gstate := if wake then .running else g.gstate }
  let s := ((s.setGang k g1).answerCalls k r).acquireL1 (coreOf k) .system
  let s := match g.parked with
    | some x => if wake && waits then s.evalGroup k x else s
    | none => s
  (if g1.gstate = .running then s.settle k else s, r)

/-- PRESUME (R318). -/
def execPresume (cl : Nat) (d a b : BitVec 5) (s : State) : Host.Outcome State Fault Refusal :=
  .next (s.custom cl d fun s =>
    let p := s.porter cl
    match s.named cl ((p.rd a).setWidth 16) with
    | none => (s, .done 0 .stale)
    | some (k, g) =>
      let (s, r) := s.resumeGang k g (p.rd b)
      (s, .done r.toNat .ok))

end Sys2Proof.Machine
end

