-- ==== Sys2Proof/Machine/Messages.lean ====
section
/-! DEFINITION. Message channels, mailbox pushes by a porter and call records (R319, R320). -/

namespace Sys2Proof.Machine

/-! ## PMSEND -/

/-- The cores on which a block stands (R34). -/
def Block.coresOf (b : Block) : List Nat := if b.pair then [b.core, b.core + 1] else [b.core]

/-- A completion entry of a SYSC.A pushed: its class is done, and a record with no class left is freed, on whichever core of the block the
caller stands (R320). -/
def State.pushedClass (s : State) (blk mbx entry : Nat) : State :=
  let lanes : Lanes := BitVec.ofNat 64 (bits entry 64 64)
  let mine (r : CallRec) : Bool :=
    r.async && r.mbx == mbx && ((s.gang? r.key).map fun g => g.blk) == some blk &&
      r.classes.any (fun x => x.lanes == lanes && x.lanes &&& r.left == x.lanes)
  match ((s.block? blk).map Block.coresOf).bind fun cs =>
      cs.findSome? fun c => ((s.core c).calls.find? mine).map fun r => (c, r) with
  | none => s
  | some (c, r) =>
    s.modCore c fun x => { x with
      calls := (x.calls.map fun (y : CallRec) => if y.token = r.token then { y with left := y.left &&& ~~~lanes } else y).filter
        fun y => y.left != 0 }

/-! ## Journals, and what the router holds (R358, R359, R362) -/

/-- Pushes that a journal holds for a mailbox. -/
def journalled (l : List JEntry) (n : Nat) : Nat :=
  (l.filter fun e => match e with | .push m _ => m == n | _ => false).length

/-- The key under which a writer's staged dwords and results stand. -/
def writerKey : Writer → Nat
  | .host => 0
  | .porter cl => cl + 1

/-- The header of a block image (R358). -/
def Block.imageHeader (b : Block) (crc : W32) : Nat :=
  0x42534156 + 2 ^ 64 * b.lid + 2 ^ 96 * b.bidx + 2 ^ 160 * crc.toNat

/-- Where the tiles of a side's image begin, and where what follows them does: the journal, in the even side's (R358). -/
def Block.tilesAt (b : Block) : Nat := (0x2000 + b.scratchSize + 272 * b.mailboxes + 4095) / 4096 * 4096
def Block.journalAt (b : Block) (odd : Bool) : Nat := b.tilesAt + if b.claims.getLsbD odd.toNat then 16 * 16384 + 4096 else 0
/-- Bytes of a side's image. -/
def Block.imageLen (b : Block) (odd : Bool) : Nat := b.journalAt odd + if odd then 0 else 32 * b.journal.length

/-- A change made in the even side's image of a saved block, where its area lies in memory, and the image's CRC after it. -/
def State.amendImage (s : State) (b : Block) (f : State → Nat → State) : State :=
  match s.areaAt b.barea (b.imageLen false) with
  | some a =>
    let s := f s a
    s.writeBytes a (bytesOfNat 64 (b.imageHeader (crc32 (Mem.readBytes s.mem.bytes (a + 0x40) (b.imageLen false - 0x40)))))
  | none => s

/-- An entry appended to a block's journal, in the image of a saved block too: 32 bytes that R359 does not lay out (log 11). -/
def State.appendJournal (s : State) (blk : Nat) (b : Block) (e : JEntry) : State :=
  let b' := { b with journal := b.journal ++ [e] }
  let s := s.setBlock blk b'
  if b.state = .saved then
    { s with freeCtr := s.freeCtr + 1 }.amendImage b' fun u a =>
      u.writeBytes (a + b.journalAt false + 32 * b.journal.length) ((List.range 32).map (Config.imageByte s.freeCtr))
  else s

/-- A push refused by the distributor: REFUSED of the mailbox's header rises, in the image of a saved block (R95, R359). -/
def State.refusePush (s : State) (blk : Nat) (b : Block) (n : Nat) : State :=
  let h := Mem.readN b.even.mem (mbxOff n) 16
  let r := min (bits h 32 32 + 1) 0xFFFFFFFF
  let s := s.modScratch blk false fun x => { x with mem := Mem.writeN x.mem (mbxOff n) 16 (setBits h 32 32 r) }
  if b.state = .saved then
    s.amendImage b fun u a => u.agentWrite (a + 0x2000 + b.scratchSize + (mbxOff n - b.mbxBase) + 4) 4 r
  else s

/-- How a push for a block ends. -/
inductive PushEnd where
  | applied | journalled | full | corrupt | later
  deriving DecidableEq, Repr

/-- A push for a block whose mailboxes nothing can reach now, journalled or refused (R359). -/
def State.journalPush (s : State) (blk : Nat) (b : Block) (n : Nat) (entry : W128) : State × PushEnd :=
  if mbxOcc (Mem.readN b.even.mem (mbxOff n) 16) + journalled b.journal n < 16 ∧ b.journal.length < 4096 then
    (s.appendJournal blk b (.push n entry), .journalled)
  else (s.refusePush blk b n, .full)

/-- A push for a block (R94, R359, R362): applied at a resident block, held by the router while its core powers up, and journalled where
the core is not up after 4 µs or the block is not resident. -/
def State.pushTo (s : State) (blk n : Nat) (entry : W128) : State × PushEnd :=
  match s.block? blk with
  | none => (s, .full)
  | some b =>
    if b.state == .resident || b.state == .evicting then
      if s.routerWaits b.core then (s, .later)
      else if s.coreDown b.core then s.journalPush blk b n entry
      else
        match s.push blk n entry.toNat true with
        | (s, .done _) => (s, .applied)
        | (s, .full) => (s, .full)
        | (s, _) => (s, .corrupt)
    else s.journalPush blk b n entry

/-- The mailbox form of PMSEND (R94, R95, R319); `none` while the router holds the push. -/
def State.sendMailbox (s : State) (dest entry : Nat) : State × Option PStatus :=
  let cl := bits dest 20 6
  let n := bits dest 16 4
  if Config.numClusters ≤ cl then (s, some .baddest)
  else
    match s.named cl (BitVec.ofNat 16 dest) with
    | none => (s, some .stale)
    | some (_, g) =>
      if ((s.block? g.blk).map Block.mailboxes).getD 0 ≤ n then (s, some .badsel)
      else
        match s.pushTo g.blk n (BitVec.ofNat 128 entry) with
        | (s, .later) => (s, none)
        | (s, .full) => (s, some .full)
        | (s, .corrupt) => (s, some .corrupt)
        | (s, _) => (s.pushedClass g.blk n entry, some .ok)

/-- PMSEND (R319): bit 31 of the destination chooses the channel or the mailbox. -/
def State.pmsend (s : State) (cl : Nat) (d a b : BitVec 5) : State :=
  s.custom cl d fun s =>
    let p := s.porter cl
    let dest := (p.rd a).toNat
    let mbx := bits dest 31 1 = 1
    match s.operandRead cl (p.rd b).toNat (if mbx then 16 else 64) with
    | (s, .wait) => (s, .wait)
    | (s, .fault c va) => (s, .except c va)
    | (s, .data x) =>
      if mbx then
        match s.sendMailbox dest x with
        | (_, none) => (s, .wait)
        | (s, some st) => (s, .done st.code st)
      else if Config.numClusters ≤ bits dest 0 6 then (s, .done PStatus.baddest.code .baddest)
      else
        match s.sendChannel (bits dest 0 6) (bits dest 6 2) ⟨cl, BitVec.ofNat 512 x⟩ with
        | (s, true) => (s, .done PStatus.ok.code .ok)
        | (s, false) => (s, .done PStatus.full.code .full)

/-- PMSEND_CHANNEL (R315, R319): the word of PMSEND. -/
def execPmsendChannel (cl : Nat) (d a b : BitVec 5) (s : State) : Host.Outcome State Fault Refusal := .next (s.pmsend cl d a b)

/-- PMSEND_MAILBOX (R315, R319): the same word, whose destination register has bit 31 set. -/
def execPmsendMailbox (cl : Nat) (d a b : BitVec 5) (s : State) : Host.Outcome State Fault Refusal := .next (s.pmsend cl d a b)

/-! ## PMRECV -/

/-- The head of a channel, or of the delivery queue: rd and the 64 bytes. -/
def Cluster.head? (c : Cluster) (ch : Nat) : Option (Nat × Nat) :=
  if ch = 7 then c.dq.head?.map fun e => (0x100, e.bytes)
  else (Tab.getD c.channels ch []).head?.map fun m => (0x100 + m.sender, m.data.toNat)

/-- The head taken. -/
def Cluster.take (c : Cluster) (ch : Nat) : Cluster :=
  if ch = 7 then { c with dq := c.dq.drop 1 }
  else { c with channels := Tab.put c.channels [] ch ((Tab.getD c.channels ch []).drop 1) }

/-- A message of a drive that found its channel full enters once there is room, the lowest drive first (R378). -/
def State.enterHeld (s : State) (cl ch : Nat) : State :=
  match s.drives.find? fun d => d.2.irqChan = cl + 64 * ch ∧ d.2.held ≠ [] with
  | some (i, d) =>
    match d.held with
    | m :: rest =>
      match s.sendChannel cl ch m with
      | (s, true) => { s with drives := Tab.set s.drives i { d with held := rest } }
      | (s, false) => s
    | [] => s
  | none => s

/-- PMRECV (R311, R319). -/
def execPmrecv (cl : Nat) (d a b : BitVec 5) (s : State) : Host.Outcome State Fault Refusal :=
  .next (s.custom cl d fun s =>
    let p := s.porter cl
    let ch := (p.rd a).toNat % 8
    if 4 ≤ ch ∧ ch ≤ 6 then (s, .done 0 .badsel)
    else
      match (s.cluster cl).head? ch with
      | none => (s, .done 0 .empty)
      | some (v, x) =>
        match s.operandWrite cl (p.rd b).toNat 1 x with
        | (s, .wait) => (s, .wait)
        | (s, .fault c va) => (s, .except c va)
        | (s, .data _) => ((s.modCluster cl fun c => c.take ch).enterHeld cl ch, .done v .ok))

/-! ## PCALLREC -/

/-- A call record's bytes as a number (R320). -/
def State.recordOf (s : State) (r : CallRec) : Nat :=
  let h := (s.handle r.key).toNat % 256 + 256 * r.gen.toNat
  let head := h + 2 ^ 16 * r.classes.length + 2 ^ 23 * r.async.toNat + 2 ^ 24 * r.mbx + 2 ^ 28 * r.dreg + 2 ^ 64 * r.pc.toNat
  (r.classes.mapIdx fun i c =>
      2 ^ (512 * (i + 1)) * (c.number.toNat + 2 ^ 64 * (c.args.foldr (fun a x => a.toNat + 2 ^ 32 * x) 0) +
        2 ^ 256 * c.lanes.toNat)).foldl (· + ·) head

/-- The record that a token names in a cluster. -/
def State.callRec (s : State) (cl token : Nat) : Option CallRec :=
  ((List.range 4).flatMap fun c => (s.core (4 * cl + c)).calls).find? fun r => r.token = token

/-- PCALLREC (R320). -/
def execPcallrec (cl : Nat) (d a b : BitVec 5) (s : State) : Host.Outcome State Fault Refusal :=
  .next (s.custom cl d fun s =>
    let p := s.porter cl
    match s.callRec cl (p.rd a).toNat with
    | none => (s, .done 0 .stale)
    | some r =>
      match s.operandWrite cl (p.rd b).toNat (r.classes.length + 1) (s.recordOf r) with
      | (s, .wait) => (s, .wait)
      | (s, .fault c va) => (s, .except c va)
      | (s, .data _) => (s, .done r.classes.length .ok))

end Sys2Proof.Machine
end

