-- ==== Sys2Proof/Machine/Invalidate.lean ====
section
/-! DEFINITION. Page walks (R324, R329), SFENCE.VMA (R309), invalidations (R331, R332), the resumption of engine uses (R343), and the
porter's timer (R309). -/

namespace Sys2Proof.Machine

/-- The head of the committed register writes, where it is a write of one of some registers, and the state without it. -/
def State.takeCommit (s : State) (ok : Nat → Bool) : Option (Commit × State) :=
  match s.commits with
  | c :: cs => if ok c.reg then some (c, { s with commits := cs }) else none
  | [] => none

/-- The dword of a commit at a position. -/
def Commit.dword (c : Commit) (i : Nat) : Nat := (c.data.getD i 0).toNat

/-- The porter that wrote. -/
def writerCluster : Writer → Nat
  | .porter cl => cl
  | .host => 0

/-- PAGE_WALK (R324, R328, R329): a miss of a cluster walks, or goes on with its walk in flight, and installs the leaf it finds. -/
def execPageWalk (cl asid root va : Nat) (s : State) : Host.Outcome State Fault Refusal :=
  .next (if (s.cluster cl).tlb.any fun e => e.hits asid va then s
    else
      match s.walk cl asid root va with
      | (s, .leaf pte l) => s.installCluster cl (tlbOf asid va pte l)
      | (s, _) => s)

/-- SFENCE.VMA (R309, R333): the porter's own entries for the address and the ASID that the registers name, all of them for x0; an
entry with G set goes only where no ASID is named. -/
def execSfenceVma (cl : Nat) (rs1 rs2 : BitVec 5) (s : State) : Host.Outcome State Fault Refusal :=
  .next (
    let p := s.porter cl
    if p.mode = .user ∨ (p.mode = .supervisor ∧ p.mstatus.getLsbD 20) then s.porterExcept cl .illegal 0
    else
      let va := (p.rd rs1).toNat
      let asid := (p.rd rs2).toNat % 2 ^ 16
      let goes (e : TlbEntry) : Bool :=
        (rs1 == 0 || e.vpn * 2 ^ 18 / 2 ^ pageBits e.level == va / 2 ^ pageBits e.level) &&
          (rs2 == 0 || (e.asid == asid && !e.pte.getLsbD 6))
      s.modPorter cl fun p => { p.next with tlb := p.tlb.filter fun e => !goes e })

/-! ## Invalidation -/

/-- The range of pages that an invalidation names meets [first, first + n). -/
def Tlbi.meets (t : Tlbi) (first n : Nat) : Bool :=
  t.pages == 0 || (decide (first < t.vpn + t.pages) && decide (t.vpn < first + n))

/-- A TLB entry is covered (R332). -/
def Tlbi.covers (t : Tlbi) (e : TlbEntry) : Bool :=
  t.meets e.vpn (2 ^ (pageBits e.level - 18)) &&
    (if e.pte.getLsbD 6 then t.glob else t.all || e.asid == t.asid)

/-- A pointer entry leads to a covered page. -/
def Tlbi.coversWalk (t : Tlbi) (w : WalkEntry) : Bool :=
  (t.all || t.glob || w.asid == t.asid) &&
    t.meets (w.upper * 2 ^ (pageBits (w.level + 1) - 18)) (2 ^ (pageBits (w.level + 1) - 18))

/-- An address of an address space is covered. -/
def Tlbi.coversVa (t : Tlbi) (asid va : Nat) : Bool := (t.all || t.glob || asid == t.asid) && t.meets (va / 2 ^ 18) 1

/-- A cluster lies in the scope of an invalidation of another. -/
def Tlbi.inScope (t : Tlbi) (cl x : Nat) : Bool := t.dev || x == cl

/-- A committed or buffered entry is a covered store to global memory. -/
def Tlbi.coversEntry (t : Tlbi) (e : StoreEntry) : Bool :=
  match e.place with
  | .phys _ => t.coversVa e.asid e.va
  | _ => false

/-- Some draft in scope still holds a covered store (R138). -/
def State.draftCovered (s : State) (cl : Nat) (t : Tlbi) : Bool :=
  s.gangs.any fun kg => t.inScope cl (clusterOf kg.1) && kg.2.threads.any fun x => x.buf.any t.coversEntry

/-- Some chunk in scope has begun writing and is not acknowledged. -/
def State.chunkCovered (s : State) (cl : Nat) (t : Tlbi) : Bool :=
  s.cores.any fun c => t.inScope cl (c.1 / 4) && c.2.uses.any fun u =>
    (t.all || t.glob || (s.spaceOf u.2.blk).1 == t.asid) && u.2.bufs.any fun b => b.written && !NatSet.has u.2.acked b.n

/-- The ASID of a monitor's gang, resident or evicted. -/
def State.monitorAsid (s : State) (m : Monitor) : Nat :=
  match s.gang? m.key with
  | some g => g.asid
  | none => ((s.dist.saved.find? fun x => savedKey x.gang.blk x.gang.gidx = m.key).map fun x => x.gang.asid).getD 0

/-- The entries covered leave every TLB and walk cache in scope, and walks in flight to covered pages start again (R332). -/
def State.dropCovered (s : State) (cl : Nat) (t : Tlbi) : State :=
  { s with
    cores := s.cores.map fun (c : Nat × CoreState) =>
      if t.inScope cl (c.1 / 4) then (c.1, { c.2 with tlb := c.2.tlb.filter fun e => !t.covers e }) else c
    clusters := s.clusters.map fun (c : Nat × Cluster) =>
      if t.inScope cl c.1 then
        (c.1, { c.2 with
          tlb := c.2.tlb.filter fun e => !t.covers e, walks := c.2.walks.filter fun w => !t.coversWalk w
          porter := { c.2.porter with tlb := c.2.porter.tlb.filter fun e => !t.covers e } })
      else c
    walking := s.walking.filter fun w => !(t.inScope cl w.cl && t.coversVa w.asid (w.page * 2 ^ 18)) }

/-- TLBI_COMPLETE (R332): the oldest invalidation of a porter, once no draft, no committed store and no writing chunk that it covers
is left. -/
def execTlbiComplete (cl : Nat) (s : State) : Host.Outcome State Fault Refusal :=
  .next (match (s.porter cl).tlbis with
    | [] => s
    | t :: rest =>
      if s.draftCovered cl t || s.chunkCovered cl t then s
      else
        match s.drain fun e => t.inScope cl (e.core / 4) && t.coversEntry e with
        | none => s
        | some s1 =>
          if s1.link.requests.any fun r => (match r.src with | .store .. => true | _ => false) then s
          else
            let hit := s1.mem.monitors.filter fun m => t.coversVa (s1.monitorAsid m) m.desc.va
            (hit.foldl (fun s m => s.fireMonitor m) (s1.dropCovered cl t)).modPorter cl fun p =>
              { p with tlbis := rest, done := BitVec.ofNat 32 t.ticket })

/-- An invalidation started by a write of TLBIGO with a given DEV bit: the next ticket (R332). -/
def State.startTlbi (s : State) (dev : Bool) : State :=
  match s.takeCommit (· == 0x9C3) with
  | none => s
  | some (c, s1) =>
    let cl := writerCluster c.writer
    let p := s1.porter cl
    if (bits (c.dword 0) 0 1 == 1) != dev || decide (16 ≤ p.tlbis.length) then s
    else
      let tk := p.ticket + 1
      s1.modPorter cl fun p => { p with
        ticket := tk
        tlbis := p.tlbis ++ [{
          ticket := tk.toNat, dev := dev, asid := bits p.tlbiasid.toNat 0 16, all := p.tlbiasid.getLsbD 16
          glob := p.tlbiasid.getLsbD 17, vpn := bits p.tlbiva.toNat 18 38, pages := bits p.tlbilen.toNat 0 39 }] }

/-- TLBI_CLUSTER (R332). -/
def execTlbiCluster (s : State) : Host.Outcome State Fault Refusal := .next (s.startTlbi false)

/-- TLBI_DEVICE (R332). -/
def execTlbiDevice (s : State) : Host.Outcome State Fault Refusal := .next (s.startTlbi true)

/-! ## ENGRESUME (R343) -/

/-- The paused use that a write of ENGRESUME names, with its ABORT bit. -/
def State.engTarget (s : State) (c : Commit) : Option (Nat × Nat × CopyUse) :=
  let core := 4 * writerCluster c.writer + bits (c.dword 0) 6 2
  let u := bits (c.dword 0) 0 6
  (s.pausedUse core u).map fun x => (core, u, x)

/-- ENGINE_RESUME (R343): the chunks that have not been acknowledged write again what they read. -/
def execEngineResume (s : State) : Host.Outcome State Fault Refusal :=
  .next (match s.takeCommit (· == 0x9C5) with
    | none => s
    | some (c, s1) =>
      if bits (c.dword 0) 8 1 = 1 then s
      else
        match s1.engTarget c with
        | none => s1
        | some (core, u, x) =>
          s1.setUse core u { x with
            state := .running, stopped := []
            bufs := x.bufs.map fun b => if NatSet.has x.acked b.n then b else { b with written := false } })

/-- ENGINE_ABORT (R279, R343): the use ends with FAULT. -/
def execEngineAbort (s : State) : Host.Outcome State Fault Refusal :=
  .next (match s.takeCommit (· == 0x9C5) with
    | none => s
    | some (c, s1) =>
      if bits (c.dword 0) 8 1 = 0 then s
      else
        match s1.engTarget c with
        | none => s1
        | some (core, u, _) => s1.endUse core u 2)

/-- PORTER_TIMER_INTERRUPT (R309): with the Sstc extension enabled in menvcfg, the supervisor timer interrupt pends once CLOCK
reaches stimecmp. -/
def execPorterTimerInterrupt (cl : Nat) (s : State) : Host.Outcome State Fault Refusal :=
  .next (
    let p := s.porter cl
    if p.menvcfg.getLsbD 63 && decide (p.stimecmp.toNat ≤ s.clock % 2 ^ 64) then
      s.modPorter cl fun p => { p with mip := p.mip ||| 0x20 }
    else s)

end Sys2Proof.Machine
end

