-- ==== Sys2Proof/Machine/Launching.lean ====
section
/-! DEFINITION. Launch records and their validation (R345 to R349, R178), and the end of launches and blocks (R32, R349). -/

namespace Sys2Proof.Machine

/-! ## The distributor's own accesses -/

/-- Translation of an access of the distributor through a launch's ASID and root (R321, R346, R349): its walks are its own. -/
def State.distTranslate (s : State) (asid root va : Nat) (acc : Access) : State × Except Miss (Target × Nat) :=
  match s.walk Config.numClusters asid root va with
  | (s, .later) => (s, .error .later)
  | (s, .fault c l) => (s, .error (.cause c l))
  | (s, .leaf pte l) => (s, s.atLeaf pte l va acc)

/-- What a read of the distributor comes to: its bytes, a cause of R324 to R327 or poison, or an answer of another device that it
awaits. -/
inductive DistRead (α : Type) where
  | data (x : α)
  | fail
  | later
  deriving DecidableEq, Repr

/-- A piece of 32 bytes asked of another device: as it was answered, or asked for now. -/
def State.distPiece (s : State) (dev off pa : Nat) : State × DistRead Nat :=
  match s.dist.pieces.find? fun x => x.1 = pa with
  | some (_, st, x) => (s, if st = 0 then .data x else .fail)
  | none =>
    if s.link.requests.any fun r => r.src == .piece pa then (s, .later)
    else ((s.sendRemote (4 * Config.numClusters) dev off (.read 32) (.piece pa)).getD s, .later)

/-- 32 aligned bytes read by the distributor (R348). -/
def State.distRead (s : State) (asid root va : Nat) : State × DistRead Nat :=
  match s.distTranslate asid root va .read with
  | (s, .error .later) => (s, .later)
  | (s, .error _) => (s, .fail)
  | (s, .ok (.remote dev off, pa)) => if 0xF00 ≤ dev then (s, .fail) else s.distPiece dev off pa
  | (s, .ok (_, pa)) =>
    match s.readBytes pa 32 asid with
    | (s, some x) => (s, .data x)
    | (s, none) => (s, .fail)

/-- n bytes from an address, by aligned pieces of 32. -/
def State.distReads (s : State) (asid root va n : Nat) : State × DistRead (List Byte) :=
  let first := va / 32
  (List.range ((va + n + 31) / 32 - first)).foldl (fun (x : State × DistRead (List Byte)) i =>
    match x.2 with
    | .data l =>
      let at_ := 32 * (first + i)
      match x.1.distRead asid root at_ with
      | (s, .fail) => (s, .fail)
      | (s, .later) => (s, .later)
      | (s, .data v) =>
        let lo := max va at_
        let hi := min (va + n) (at_ + 32)
        (s, .data (l ++ ((bytesOfNat 32 v).drop (lo - at_)).take (hi - lo)))
    | _ => x) (s, .data [])

/-! ## Statuses (R348) -/

inductive LaunchStatus where
  | complete | badRecord | badKernel | badGrid | noFit | fault | lost | remote
  deriving DecidableEq, Repr

def LaunchStatus.code : LaunchStatus → Nat
  | .complete => 0 | .badRecord => 1 | .badKernel => 2 | .badGrid => 3 | .noFit => 4 | .fault => 5 | .lost => 6 | .remote => 7

/-- Records whose reserved fields are zero and whose addresses are aligned (R347). -/
def Launch.recordOk (l : Launch) : Bool :=
  let z (lo n : Nat) : Bool := bits l.record.toNat lo n == 0
  z 56 8 && z 120 8 && z 240 16 && z 296 24 && z 376 136 && l.kdesc % 64 == 0 && l.done % 16 == 0

/-- Gangs of a block, and those of them on the even core (R33, R34). -/
def Launch.gangCount (l : Launch) : Nat := l.blockThreads / max 1 l.gwidth
def Launch.evenGangs (l : Launch) : Nat := if l.pair then (l.gangCount + 1) / 2 else l.gangCount

/-- Gangs of a width that can stand on the same lane words of a core beside each other. -/
def abreast (w : Nat) : Nat := if w = 16 then 8 else if w = 32 then 4 else 2

/-- The descriptor obeys R178, R33 and R83, its PROGRESS is not 3, and its entry is an address. TEXT is a multiple of 2^TEXT_ALIGN, which
the file and not the descriptor holds: of 128 at the least (R178). -/
def Launch.kernelOk (l : Launch) : Bool :=
  let d := l.desc.toNat
  let w := l.gwidth
  let t := l.blockThreads
  let cores := if l.pair then 2 else 1
  bits d 75 5 == 0 && bits d 112 16 == 0 && bits d 165 11 == 0 && bits d 248 264 == 0 &&
    (w == 16 || w == 32 || w == 64) && l.entryOff % 4 == 0 && l.text % 128 == 0 &&
    decide (8 ≤ l.vregs ∧ l.vregs ≤ 256) && l.vregs % 8 == 0 && decide (1 ≤ l.sregs ∧ l.sregs ≤ 64) &&
    l.scratch % 16 == 0 && decide (l.mailboxes ≤ 16) && decide (l.paramBytes ≤ 4096) &&
    t % w == 0 && decide (cores * w ≤ t ∧ t ≤ cores * min 1024 (32 * w)) &&
    decide ((l.evenGangs + abreast w - 1) / abreast w * l.vregs ≤ 2048) &&
    decide (l.scratch + 272 * l.mailboxes ≤ Config.scratchBytes) &&
    l.progress != 3 && l.text != 0 && decide (l.text + l.entryOff < 2 ^ 56)

/-- The extents are those of R37. -/
def Launch.gridOk (l : Launch) : Bool :=
  decide (l.gx ≤ 2 ^ 31 ∧ l.gy ≤ 65536 ∧ l.gz ≤ 65536 ∧ l.gx * l.gy * l.gz ≤ 2 ^ 31)

/-- Blocks of the launch. -/
def Launch.total (l : Launch) : Nat := l.gx * l.gy * l.gz

/-- Scratchpad bytes that a block takes on each of its cores (R83, R351). -/
def Launch.bytes (l : Launch) : Nat := l.scratch + 272 * l.mailboxes

/-! ## Room (R351) -/

/-- Lane words used on each physical slice of a core (R16). -/
def State.wordsUsed (s : State) (core : Nat) : List Nat :=
  let gs := (s.gangs.filter fun g => coreOf g.1 = core && g.2.gstate != .free).map Prod.snd
  (List.range 32).map fun sl => ((gs.filter fun (g : Gang) => g.phys.contains sl).map Gang.vregs).sum

/-- A block holds scratchpad on a core. -/
def Block.holds (b : Block) (core : Nat) : Bool :=
  (b.state == .resident || b.state == .evicting) && (b.core == core || (b.pair && b.core + 1 == core))

/-- Scratchpad bytes in use on a core. -/
def State.bytesUsed (s : State) (core : Nat) : Nat :=
  ((s.blocks.filter fun b => b.2.holds core).map fun b => b.2.scratchSize + 272 * b.2.mailboxes).sum

/-- Gang slots in use on a core. -/
def State.slotsUsed (s : State) (core : Nat) : Nat := (s.gangs.filter fun g => coreOf g.1 = core).length

/-- The core is enabled, not retired and not being retired or steered (R2, R351, R408, R409). -/
def State.coreOpen (s : State) (core : Nat) : Bool :=
  s.dist.encore.getLsbD core && !NatSet.has s.rel.retiredCores core && !NatSet.has s.rel.retiring core

/-- Slices of a range that can take a gang's words. -/
def roomy (used : List Nat) (vregs lo n : Nat) : List Nat :=
  ((List.range n).map (lo + ·)).filter fun sl => used.getD sl 0 + vregs ≤ Config.laneWords

/-- Free words of a quadrant. -/
def freeWords (used : List Nat) (q : Nat) : Nat := ((List.range 8).map fun i => Config.laneWords - used.getD (8 * q + i) 0).sum

/-- The candidate with the most free words, the first at a tie. -/
def mostFree {α : Type} (l : List (Nat × α)) : Option α :=
  match l with
  | [] => none
  | x :: xs => some (xs.foldl (fun a b => if a.1 < b.1 then b else a) x).2

/-- The place that one gang takes: first quadrant and physical slices. `i` is its number on the core, which fixes the quadrant of a
32-wide one (R17, R285, R351). -/
def placeGang (used : List Nat) (w vregs i : Nat) : Option (Nat × List Nat) :=
  if w = 32 then
    let l := roomy used vregs (8 * (i % 4)) 8
    if l.length = 8 then some (i % 4, l) else none
  else if w = 64 then
    mostFree ((List.range 2).filterMap fun p =>
      let l := roomy used vregs (16 * p) 16
      if l.length = 16 then some (min (freeWords used (2 * p)) (freeWords used (2 * p + 1)), (2 * p, l)) else none)
  else
    mostFree ((List.range 4).filterMap fun q =>
      let l := roomy used vregs (8 * q) 8
      if 4 ≤ l.length then some (freeWords used q, (q, l.take 4)) else none)

/-- Words used once a gang has taken its place. -/
def takeWords (used : List Nat) (vregs : Nat) (sl : List Nat) : List Nat :=
  used.mapIdx fun i x => if sl.contains i then x + vregs else x

/-- The places of the gangs numbered from i on a core, in ascending order. -/
def placeGangs (w vregs : Nat) : Nat → Nat → List Nat → Option (List (Nat × List Nat))
  | 0, _, _ => some []
  | n + 1, i, used =>
    match placeGang used w vregs i with
    | none => none
    | some p => (placeGangs w vregs n (i + 1) (takeWords used vregs p.2)).map fun l => p :: l

/-- The places of a block's n gangs on a core with room for them and for its bytes (R285, R351). -/
def State.fitCore (s : State) (core w vregs n bytes : Nat) : Option (List (Nat × List Nat)) :=
  let used := s.wordsUsed core
  let free := Config.gangSlots - s.slotsUsed core
  let idle := w != 32 || (List.range 4).all fun q => decide (q < n) || (roomy used vregs (8 * q) 8).length == 8
  if s.coreOpen core && decide ((if w = 32 then max n 4 else n) ≤ free) && idle &&
      decide (s.bytesUsed core + bytes ≤ Config.scratchBytes) then
    placeGangs w vregs n 0 used
  else none

/-- The places of a block's gangs from a core on: each with its core. -/
def State.fitBlock (s : State) (l : Launch) (core : Nat) : Option (List (Nat × Nat × List Nat)) :=
  let w := l.gwidth
  if l.pair then
    if core % 2 ≠ 0 then none
    else
      match s.fitCore core w l.vregs l.evenGangs l.bytes,
          s.fitCore (core + 1) w l.vregs (l.gangCount - l.evenGangs) l.bytes with
      | some a, some b => some (a.map (fun p => (core, p)) ++ b.map fun p => (core + 1, p))
      | _, _ => none
  else (s.fitCore core w l.vregs l.gangCount l.bytes).map fun a => a.map fun p => (core, p)

/-- No block has claimed the tiles of a core, or of the pair that begins with it. -/
def State.tilesFree (s : State) (pair : Bool) (c : Nat) : Bool :=
  (s.core c).owner == none && (!pair || (s.core (c + 1)).owner == none)

/-- The cores in the order in which a block looks at them: a block of 32-wide gangs first at those with unclaimed tiles, on both cores for
a pair block (R351). -/
def State.coreOrder (s : State) (l : Launch) : List Nat :=
  let all := List.range Config.numCores
  if l.gwidth = 32 then all.filter (s.tilesFree l.pair) ++ all.filter fun c => !s.tilesFree l.pair c
  else all

/-- The first core on which a block fits, among those that a test allows. -/
def State.findCore (s : State) (l : Launch) (ok : Nat → Bool) : Option (Nat × List (Nat × Nat × List Nat)) :=
  (s.coreOrder l).findSome? fun c =>
    if ok c && (!l.pair || ok (c + 1)) then (s.fitBlock l c).map fun p => (c, p) else none

/-- A power-gated core powers up for a block admitted to it (R351, R362). -/
def State.wakeCore (s : State) (core : Nat) : State :=
  if (s.core core).power = .gated then s.modCore core fun c => { c with power := .rising, powerSince := s.clock } else s

/-- The slot of a new gang on a core: the lowest that is free. -/
def State.freeSlotOf (s : State) (core : Nat) : Nat := (Tab.freeKey s.gangs (64 * core) 64).getD (64 * core)

/-- The room that a new sub-gang's slices find in the active sets of their quadrants (R364). -/
def State.activeRoom (s : State) (core w quad : Nat) : Bool :=
  decide (s.activeEntries core quad < 8) && (w != 64 || decide (s.activeEntries core (quad + 1) < 8))

/-- A gang at admission (R43). -/
def State.newGang (s : State) (lid : Nat) (l : Launch) (blk i core : Nat) (p : Nat × List Nat) : Gang :=
  let room := s.activeRoom core l.gwidth p.1
  { Gang.blank with
    blk := blk, gidx := i, width := l.gwidth, vregs := l.vregs, lid := lid, asid := l.asid, root := l.root, gstate := .running
    quad := p.1, phys := p.2, threads := List.replicate l.gwidth (Thread.fresh l.entry)
    slices := List.replicate (l.gwidth / 4) { SliceState.fresh with active := room, entered := s.clock }
    levels := [(0, ⟨.opened, []⟩)] }

/-- In confidential mode a core's L1 and L1 TLB are cleared as it takes a block of another address space (R399). -/
def State.clearFor (s : State) (core asid : Nat) : State :=
  if s.trust.conf && s.gangs.all fun g => coreOf g.1 != core || g.2.asid != asid then
    s.modCore core fun c => { c with l1 := [], tlb := [], icache := [] }
  else s

/-- A block admitted to a core at given places (R38, R43, R83, R84, R351). -/
def State.admitBlock (s : State) (lid : Nat) (l : Launch) (bidx core : Nat) (places : List (Nat × Nat × List Nat)) : State :=
  let blk := blockKey lid bidx
  let b : Block := {
    lid := lid, bidx := bidx, ngang := l.gangCount, width := l.gwidth, vregs := l.vregs, pair := l.pair
    scratchSize := l.scratch, mailboxes := l.mailboxes, core := core, even := .fresh, odd := .fresh, edview := [], gangs := []
    endedGangs := [], state := .resident, since := s.clock, barea := 0, tiles := [], claims := 0, moved := false, journal := [] }
  let s := (s.clearFor core l.asid).wakeCore core
  let s := if l.pair then (s.clearFor (core + 1) l.asid).wakeCore (core + 1) else s
  let s := { s with blocks := Tab.set s.blocks blk b }
  (places.mapIdx fun i p => (i, p)).foldl (fun (s : State) (x : Nat × Nat × Nat × List Nat) =>
    let k := s.freeSlotOf x.2.1
    (s.setGang k (s.newGang lid l blk x.1 x.2.1 x.2.2)).modBlock blk fun b => { b with gangs := Tab.set b.gangs x.1 k }) s

/-! ## Ends (R32, R349) -/

/-- A failure to write a completion block counted (R349). -/
def State.countDropped (s : State) (q : Nat) : State :=
  { s with dist := { s.dist with dropped := Tab.set s.dist.dropped q (min 0xFFFF (Tab.getD s.dist.dropped q 0 + 1)) } }

/-- The completion block of a launch in memory of this device or the host: the status dword, then 1 added to the counter (R349). -/
def State.doneHere (s : State) (c : Completion) (asid pa : Nat) : State :=
  match (s.drainRed (.phys (lineOf pa))).applyRed pa 0 .n64 0 asid with
  | (s, true) => s.countDropped c.queue
  | (s, false) => ((s.agentWrite (pa + 8) 8 (c.status + 2 ^ 32 * c.lid)).applyRed pa 0 .n64 1 asid).1

/-- A completion block taken as far as it goes: `none` once it is over, written or failed; one that waits for a walk, or for room in the
window of the device that holds it, stays as it is (R349). -/
def State.stepDone (s : State) (c : Completion) : State × Option Completion :=
  match s.launch? c.lid with
  | none => (s, none)
  | some l =>
    match c.stage with
    | 0 =>
      match s.distTranslate l.asid l.root l.done .rmw with
      | (s, .error .later) => (s, some c)
      | (s, .error _) => (s.countDropped c.queue, none)
      | (s, .ok (.remote dev off, _)) =>
        if 0xF00 ≤ dev then (s.countDropped c.queue, none)
        else
          match s.sendRemote (4 * Config.numClusters) dev (off + 8) (.write 8 (c.status + 2 ^ 32 * c.lid)) (.done c.lid) with
          | some s => (s, some { c with stage := 1, dev := dev, off := off })
          | none => (s, some c)
      | (s, .ok (_, pa)) => (s.doneHere c l.asid pa, none)
    | 2 =>
      match s.sendRemote (4 * Config.numClusters) c.dev c.off (.atom 0 .n64 1) (.done c.lid) with
      | some s => (s, some { c with stage := 3 })
      | none => (s, some c)
    | _ => (s, some c)

/-- Every completion block that waits taken as far as it goes (R349). -/
def State.pushDones (s : State) : State :=
  s.dist.dones.foldl (fun (s : State) c =>
    match s.stepDone c with
    | (s, some c) => { s with dist := { s.dist with dones := s.dist.dones ++ [c] } }
    | (s, none) => s) { s with dist := { s.dist with dones := [] } }

/-- The answer to a request of a completion block: the status dword stands and the addition comes next, or the block is over; a failure is
counted once (R349). -/
def State.doneAnswered (s : State) (lid status : Nat) : State :=
  match s.dist.dones.find? fun c => c.lid = lid with
  | none => s
  | some c =>
    let set (l : List Completion) : State := { s with dist := { s.dist with dones := l } }
    if status ≠ 0 then (set (s.dist.dones.filter fun x => x.lid ≠ lid)).countDropped c.queue
    else if c.stage = 1 then set (s.dist.dones.map fun x => if x.lid = lid then { x with stage := 2 } else x)
    else set (s.dist.dones.filter fun x => x.lid ≠ lid)

/-- The completion block of a launch that has ended, where it has one (R349). -/
def State.startDone (s : State) (lid : Nat) (l : Launch) (status : Nat) : State :=
  if l.done = 0 then s
  else State.pushDones { s with dist := { s.dist with dones := s.dist.dones ++ [⟨lid, l.queue, status, 0, 0, 0⟩] } }

/-- A launch ends with a status (R348, R349). -/
def State.endLaunch (s : State) (lid : Nat) (st : LaunchStatus) : State :=
  match s.launch? lid with
  | none => s
  | some l =>
    let s := { s with dist := { s.dist with
      queues := s.dist.queues.map fun (q : Nat × List Nat) => (q.1, q.2.filter (· ≠ lid)) } }
    let s := { s with cores := s.cores.map fun (c : Nat × CoreState) => (c.1, { c.2 with icache := [], fetchFail := [] }) }
    (s.modLaunch lid fun l => { l with status := some st.code }).startDone lid l st.code

/-- A block's tiles freed, with the products in flight into them (R43, R47). -/
def State.freeBlockCore (s : State) (blk core : Nat) : State :=
  match Tab.get? s.cores core with
  | some c => if c.owner = some blk then s.setCore core { c with owner := none, tiles := [], mmas := [] } else s
  | none => s

/-- A block has retired, or its context is destroyed: its storage and the slots of its gangs are free, and its launch ends with its last
block. -/
def State.retireBlock (s : State) (blk : Nat) (b : Block) (st : BlockState) : State :=
  let s := (s.gangsOf blk).foldl (fun (s : State) (kg : Nat × Gang) => s.freeSlot kg.1) s
  let s := (s.freeBlockCore blk b.core).freeBlockCore blk (b.core + 1)
  let s := s.setBlock blk { b with state := st, even := .fresh, odd := .fresh, gangs := [], journal := [], tiles := [] }
  let s := s.modLaunch b.lid fun l => { l with retired := l.retired + 1 }
  match s.launch? b.lid with
  | some l =>
    if l.retired = l.total then s.endLaunch b.lid (if l.lost then .lost else if l.remote then .remote else .complete) else s
  | none => s

/-- A copy use of the block is outstanding. -/
def State.usesOf (s : State) (blk : Nat) : Bool := s.cores.any fun c => c.2.uses.any fun u => u.2.blk == blk

/-- Every committed store of a block performed; `none` where some cannot be yet. -/
def State.drainBlock (s : State) (lid bidx : Nat) : Option State :=
  (s.drain fun e => e.tag.1 == lid && e.tag.2.1 == bidx).bind fun s =>
    if s.link.requests.any fun r => (match r.src with | .store t .. => t.1 == lid && t.2.1 == bidx | _ => false) then none
    else some s

/-- BLOCK_RETIRE (R32): every gang has ended and every copy use is over. -/
def execBlockRetire (b : Nat) (s : State) : Host.Outcome State Fault Refusal :=
  .next (match s.block? b with
    | none => s
    | some x =>
      if (x.state == .resident || x.state == .evicting) && decide (x.ngang ≤ x.endedGangs.length) && !s.usesOf b then
        match s.drainBlock x.lid x.bidx with
        | none => s
        | some s => s.retireBlock b x .retired
      else s)

/-! ## LAUNCH_POST (R346, R348) -/

/-- The window register of queue q (R345). -/
def lwinReg (q : Nat) : Nat := 0x3000000010000 + 0x1000 * q
/-- The queue of a window register. -/
def lwinQueue (reg : Nat) : Option Nat :=
  if 0x3000000010000 ≤ reg ∧ reg < 0x3000000050000 ∧ (reg - 0x3000000010000) % 0x1000 = 0 then
    some ((reg - 0x3000000010000) / 0x1000)
  else none

/-- The dwords of a commit as one number. -/
def Commit.value (c : Commit) : Nat := c.data.foldr (fun d x => d.toNat + 2 ^ 64 * x) 0

/-- The device with no block and no gang, for the demand that can never fit (R39): a core whose slice is being steered returns to service
(R408). -/
def State.vacant (s : State) : State :=
  { s with
    gangs := [], blocks := [], dist := { s.dist with guards := [], claims := [] }
    rel := { s.rel with retiring := match s.rel.spareReq with | some x => NatSet.del s.rel.retiring x.1 | none => s.rel.retiring }
    cores := s.cores.map fun (c : Nat × CoreState) => (c.1, { c.2 with owner := none }) }

/-- n blocks of a launch find room at once. -/
def State.fitsAll (l : Launch) : Nat → Nat → State → Option State
  | 0, _, s => some s
  | n + 1, i, s =>
    match s.findCore l fun _ => true with
    | none => none
    | some (c, p) => State.fitsAll l n (i + 1) (s.admitBlock 0 l i c p)

/-- NOFIT holds (R39). -/
def State.neverFits (s : State) (l : Launch) : Bool :=
  let v := s.vacant
  if l.progress = 0 then decide (64 * Config.numCores < l.total) || (State.fitsAll l l.total 0 v).isNone
  else (v.findCore l fun _ => true).isNone

/-- What validation comes to (R348): the launch goes on, ends with a status, or waits for another device. -/
inductive Verdict where
  | good
  | ends (st : LaunchStatus)
  | later
  deriving DecidableEq, Repr

/-- Validation from the parameter bytes on, the descriptor read (R348). -/
def State.validateKernel (s : State) (l : Launch) : State × Launch × Verdict :=
  if l.paramBytes ≠ 0 ∧ l.param % 16 ≠ 0 then (s, l, .ends .badRecord)
  else
    match (if l.paramBytes = 0 then (s, .data []) else s.distReads l.asid l.root l.param l.paramBytes) with
    | (s, .fail) => (s, l, .ends .fault)
    | (s, .later) => (s, l, .later)
    | (s, .data ps) =>
      let l := { l with params := Mem.writeBytes [] 0 ps }
      if !l.kernelOk then (s, l, .ends .badKernel)
      else if !l.gridOk then (s, l, .ends .badGrid)
      else if l.total = 0 then (s, l, .ends .complete)
      else if s.neverFits l then (s, l, .ends .noFit)
      else (s, l, .good)

/-- Validation, with the descriptor and the parameter bytes read into the launch (R348). -/
def State.validate (s : State) (l : Launch) : State × Launch × Verdict :=
  if !l.recordOk then (s, l, .ends .badRecord)
  else
    match s.distReads l.asid l.root l.kdesc 64 with
    | (s, .fail) => (s, l, .ends .fault)
    | (s, .later) => (s, l, .later)
    | (s, .data d) => s.validateKernel { l with desc := BitVec.ofNat 512 (natOfBytes d) }

/-- The first launch whose validation is not over. -/
def State.unchecked (s : State) : Option (Nat × Launch) := s.dist.launches.find? fun x => !x.2.checked && x.2.status.isNone

/-- The validation of the first launch that has one to come, as far as it goes; what other devices delivered to it goes with its end. -/
def State.checkLaunch (s : State) : State :=
  match s.unchecked with
  | none => s
  | some (lid, l) =>
    match s.validate l with
    | (s, _, .later) => s
    | (s, l, v) =>
      let s := { s with dist := { s.dist with
        launches := Tab.set s.dist.launches lid { l with checked := true }, pieces := [] } }
      match v with
      | .ends st => s.endLaunch lid st
      | _ => s

/-- A record committed to the window of a queue: discarded, or numbered and queued, and validated once its turn comes; a region that was
to be released with the last launch of its address space goes before (R124, R346, R348, R368). -/
def State.postLaunch (s : State) (q rec : Nat) : State :=
  let waiting := Tab.getD s.dist.queues q []
  if !s.host.ready.getLsbD 4 ∨ Config.queueDepth ≤ waiting.length then s.countDropped q
  else
    let lid := s.dist.nextId.toNat
    let l : Launch := {
      queue := q, record := BitVec.ofNat 512 rec, desc := 0, params := [], checked := false, nextBlock := 0, retired := 0
      status := none, lost := false, remote := false, stuck := none }
    let s := s.autoRelease l.asid
    State.checkLaunch { s with dist := { s.dist with
      nextId := s.dist.nextId + 1, launches := Tab.set s.dist.launches lid l
      queues := Tab.set s.dist.queues q (waiting ++ [lid]) } }

/-- LAUNCH_POST (R346): a record committed to a window; with none, the validation that waits for another device goes on. -/
def execLaunchPost (s : State) : Host.Outcome State Fault Refusal :=
  .next (match s.takeCommit fun r => (lwinQueue r).isSome with
    | none => s.checkLaunch
    | some (c, s) => s.postLaunch ((lwinQueue c.reg).getD 0) c.value)

end Sys2Proof.Machine
end

