-- ==== Sys2Proof/Machine/Distributor.lean ====
section
/-! DEFINITION. Admission, the fragmentation guard, pre-emption and restoration (R350 to R358, R360, R361, R363), journals
(R359 to R363), flushes (R366), and the power of cores (R351, R362, R399). -/

namespace Sys2Proof.Machine

/-! ## Priorities and what waits -/

/-- The priority of a launch's queue (R350). -/
def Launch.prio (l : Launch) : Nat := l.queue / 16 % 4

/-- The launch at the head of a queue, its validation over. -/
def State.headOf (s : State) (q : Nat) : Option (Nat × Launch) :=
  ((Tab.getD s.dist.queues q []).head?).bind fun lid => ((s.launch? lid).filter Launch.checked).map fun l => (lid, l)

/-- The queues of a priority in their turns, from the one after the queue served last (R350). -/
def State.turnOf (s : State) (p : Nat) : List Nat :=
  let last := Tab.getD s.dist.lastQueue p (16 * p + 15) % 16
  (List.range 16).map fun i => 16 * p + (last + 1 + i) % 16

/-- The head launches in the order in which the distributor looks at them. -/
def State.heads (s : State) : List (Nat × Launch) := ([3, 2, 1, 0].flatMap s.turnOf).filterMap s.headOf

/-- The core on whose side of its block a gang stands (R34, R353). -/
def State.sideCore (s : State) (b : Block) (gidx : Nat) : Nat :=
  match s.launch? b.lid with
  | some l => if b.pair ∧ l.evenGangs ≤ gidx then b.core + 1 else b.core
  | none => b.core

/-- What has been evicted of a launch and waits has precedence over a block of a priority (R353). -/
def State.precedes (s : State) (prio lid : Nat) : Bool :=
  match s.launch? lid with
  | some l => l.progress != 2 || decide (prio ≤ l.prio)
  | none => false

/-- A core's room is kept for what has been evicted from it and waits: for a gang on either core of its resident block, for a block on
those that it left (R353; log 36). -/
def State.keptFor (s : State) (prio core : Nat) : Bool :=
  (s.dist.saved.any fun x => s.precedes prio x.gang.lid &&
      (((s.block? x.gang.blk).filter fun b => b.state == .resident).map fun b => b.coresOf.contains core).getD false) ||
    s.blocks.any fun b => b.2.state == .saved && s.precedes prio b.2.lid && b.2.coresOf.contains core

/-- An eviction from a core has been asked for and not answered by DISTACK (R356). -/
def State.asked (s : State) (core : Nat) : Bool :=
  s.dist.requests.any fun r => !r.place &&
    ((s.block? r.blk).map fun b => if r.whole then b.coresOf.contains core else s.sideCore b r.gidx == core).getD false

/-- A core is open to a block of a launch: no guard of equal or higher priority and no room made for another block stands there
(R354, R355), and its room is not kept for a restoration (R353); where room has been made for this block, every answer has come (R356). -/
def State.mayTake (s : State) (lid bidx prio core : Nat) : Bool :=
  let mine (g : Nat × Nat × Nat) : Bool := g.1 == lid && g.2.1 == bidx
  let claimed := s.dist.claims.any fun g => g.2.2 == core && mine g
  !(s.dist.guards.any fun g => g.2.2 == core && !mine g && decide (prio ≤ ((s.launch? g.1).map Launch.prio).getD 0)) &&
    !(s.dist.claims.any fun g => g.2.2 == core && !mine g) &&
    if claimed then !s.asked core else !s.keptFor prio core

/-- Where a block of a launch fits now. -/
def State.placeFor (s : State) (lid : Nat) (l : Launch) (bidx : Nat) : Option (Nat × List (Nat × Nat × List Nat)) :=
  s.findCore l (s.mayTake lid bidx l.prio)

/-- The block's guard and room are given up. -/
def State.dropGuards (s : State) (lid bidx : Nat) : State :=
  { s with dist := { s.dist with
    guards := s.dist.guards.filter fun g => !(g.1 == lid && g.2.1 == bidx)
    claims := s.dist.claims.filter fun g => !(g.1 == lid && g.2.1 == bidx) } }

/-- The next block of a launch admitted at given places; a launch with no block left leaves its queue. -/
def State.admitNext (s : State) (lid : Nat) (l : Launch) (core : Nat) (p : List (Nat × Nat × List Nat)) : State :=
  let bidx := l.nextBlock
  let s := (s.admitBlock lid l bidx core p).dropGuards lid bidx
  let s := s.modLaunch lid fun l => { l with nextBlock := bidx + 1, stuck := none }
  { s with dist := { s.dist with
    lastQueue := Tab.set s.dist.lastQueue l.prio l.queue
    queues := if bidx + 1 = l.total then s.dist.queues.map fun (q : Nat × List Nat) => (q.1, q.2.filter (· ≠ lid))
      else s.dist.queues } }

/-- All blocks of a CONCURRENT launch admitted in one step (R352). -/
def State.admitAll (lid : Nat) : Nat → State → Option State
  | 0, s => some s
  | n + 1, s =>
    match s.launch? lid with
    | none => none
    | some l =>
      match s.placeFor lid l l.nextBlock with
      | none => none
      | some (c, p) => State.admitAll lid n (s.admitNext lid l c p)

/-! ## Restorations (R353, R356, R357) -/

/-- Demand of a saved block on room, as its launch states it. -/
def State.blockLaunch (s : State) (b : Block) : Option Launch := s.launch? b.lid

/-- A core takes no restored block: room has been made there for another, or its tiles are another's and the block has claimed tiles, or
leaves its core for free ones (R285, R355, R357). -/
def State.shutTo (s : State) (b : Block) (c : Nat) : Bool :=
  (s.dist.claims.any fun g => g.2.2 == c) || ((b.claims != 0 || b.moved) && (s.core c).owner != none)

/-- Room for a saved block, its tiles included: on its own core, or else on the first that has it (R351, R353, R357). -/
def State.restoreCore (s : State) (b : Block) : Option Nat :=
  match s.blockLaunch b with
  | none => none
  | some l =>
    (b.core :: s.coreOrder l).find? fun c =>
      !s.shutTo b c && !(l.pair && s.shutTo b (c + 1)) && (s.fitBlock l c).isSome

/-- The place for a saved gang on its own core, or else on the other core of its block (R17, R285, R353). -/
def State.gangRoom (s : State) (b : Block) (x : SavedGang) : Option (Nat × Nat × List Nat) :=
  let g := x.gang
  let own := s.sideCore b g.gidx
  let i := match s.blockLaunch b with
    | some l => if b.pair ∧ l.evenGangs ≤ g.gidx then g.gidx - l.evenGangs else g.gidx
    | none => g.gidx
  (own :: b.coresOf.filter (· ≠ own)).findSome? fun core =>
    if s.coreOpen core && decide (s.slotsUsed core < 64) && !(s.dist.claims.any fun c => c.2.2 == core) then
      (placeGang (s.wordsUsed core) g.width g.vregs i).map fun p => (core, p)
    else none

/-- A saved gang that can be placed now: its save has been answered, no request for it is outstanding, its block is resident, and
there is room. -/
def State.placeable (s : State) (x : SavedGang) : Option (Nat × Nat × List Nat) :=
  match s.block? x.gang.blk with
  | some b =>
    if x.answered && b.state == .resident && !s.requested x.gang then s.gangRoom b x else none
  | none => none

/-- Something of a launch evicted waits and can be restored now, and has precedence over a block of a priority (R353). -/
def State.restoreFirst (s : State) (prio : Nat) : Bool :=
  (s.dist.saved.any fun x => (s.placeable x).isSome && s.precedes prio x.gang.lid) ||
    s.blocks.any fun b => b.2.state == .saved && s.precedes prio b.2.lid && (s.restoreCore b.2).isSome

/-- GANG_PLACE (R356): the saved gang at a position gets a slot, and its PLACE entry is sent. -/
def execGangPlace (i : Nat) (s : State) : Host.Outcome State Fault Refusal :=
  .next (match s.dist.saved[i]? with
    | none => s
    | some x =>
      match s.placeable x with
      | none => s
      | some (core, p) =>
        let k := s.freeSlotOf core
        let tag := requestTag s.dist.nextTag false
        let g := x.gang
        let s := (s.wakeCore core).setGang k { Gang.blank with
          blk := g.blk, gidx := g.gidx, width := g.width, vregs := g.vregs, lid := g.lid, asid := g.asid, root := g.root
          gstate := .placed, quad := p.1, phys := p.2, restoring := true }
        let s := s.modBlock g.blk fun b => { b with gangs := Tab.set b.gangs g.gidx k }
        let s := { s with dist := { s.dist with
          nextTag := s.dist.nextTag + 1
          requests := s.dist.requests ++ [(⟨tag, true, g.blk, g.gidx, false⟩ : DistRequest)] } }
        s.offer (core / 4) {
          kind := .place, handle := s.handle k, cause := 0, seq := 0, lanes := lanesAll g.width
          arg0 := BitVec.ofNat 64 x.area, arg1 := BitVec.ofNat 64 tag })

/-! ## Pre-emption (R355) -/

/-- The state once some gangs and blocks are gone, for the room it would leave. -/
def State.without (s : State) (ks bs : List Nat) : State :=
  { s with
    gangs := s.gangs.filter fun g => !ks.contains g.1 && !bs.contains g.2.blk
    blocks := s.blocks.filter fun b => !bs.contains b.1
    cores := s.cores.map fun (c : Nat × CoreState) =>
      (c.1, { c.2 with owner := match c.2.owner with | some b => if bs.contains b then none else some b | none => none }) }

/-- The state once every eviction under way is over, and answered. -/
def State.evicted (s : State) : State :=
  let u : State := { s with dist := { s.dist with requests := [] } }
  u.without ((s.gangs.filter fun g => s.dist.requests.any fun r => !r.place && r.blk == g.2.blk && r.gidx == g.2.gidx).map Prod.fst)
    ((s.blocks.filter fun b => b.2.state == .evicting).map Prod.fst)

/-- The order in which room is taken: WEAK launches first, then the lowest priority, then the youngest launch. -/
def State.victimKey (s : State) (lid : Nat) : Nat × Nat × Nat :=
  match s.launch? lid with
  | some l => (if l.progress = 2 then 0 else 1, l.prio, 2 ^ 32 - lid)
  | none => (1, 4, 0)

def keyLt (a b : Nat × Nat × Nat) : Bool :=
  decide (a.1 < b.1) || (a.1 == b.1 && (decide (a.2.1 < b.2.1) || (a.2.1 == b.2.1 && decide (a.2.2 < b.2.2))))

/-- A value put into a list sorted by a key, after those of equal key. -/
def insertBy {α : Type} (lt : α → α → Bool) (x : α) : List α → List α
  | [] => [x]
  | y :: ys => if lt x y then x :: y :: ys else y :: insertBy lt x ys

def sortBy {α : Type} (lt : α → α → Bool) (l : List α) : List α := l.foldl (fun acc x => insertBy lt x acc) []

/-- The block of a gang, or a block itself, may make room for priority P. -/
def State.below (s : State) (p blk lid : Nat) : Bool :=
  ((s.block? blk).map fun b => b.state == .resident).getD false && decide ((s.victimKey lid).2.1 < p)

/-- The gangs of some cores that may make room for priority P, first victim first: unbound, not ended, not asked for yet; of a
block the highest GANG first (R355). -/
def State.gangVictims (s : State) (p : Nat) (cores : List Nat) : List Nat :=
  let l := s.gangs.filter fun g => cores.contains (coreOf g.1) && s.below p g.2.blk g.2.lid && g.2.binding.isNone &&
    g.2.gstate != .ended && g.2.gstate != .placed && !s.requested g.2
  (sortBy (fun (a b : Nat × Gang) => keyLt (s.victimKey a.2.lid) (s.victimKey b.2.lid) ||
    (!keyLt (s.victimKey b.2.lid) (s.victimKey a.2.lid) && decide (b.2.gidx < a.2.gidx))) l).map Prod.fst

/-- The blocks of some cores that may make room for priority P, first victim first: those with a resident gang that has not ended, whose
answer brings the block's save area (R357; log 36). -/
def State.blockVictims (s : State) (p : Nat) (cores : List Nat) : List Nat :=
  let l := s.blocks.filter fun b => s.below p b.1 b.2.lid && cores.any b.2.holds &&
    (s.gangsOf b.1).any fun g => g.2.gstate != .ended
  (sortBy (fun (a b : Nat × Block) => keyLt (s.victimKey a.2.lid) (s.victimKey b.2.lid)) l).map Prod.fst

/-- The shortest beginning of a list that a test accepts, less what it can do without. -/
def smallest (ok : List Nat → Bool) (l : List Nat) : Option (List Nat) :=
  (((List.range (l.length + 1)).map fun n => l.take n).find? ok).map fun m =>
    m.foldl (fun m x => if ok (m.filter (· ≠ x)) then m.filter (· ≠ x) else m) m

/-- The eviction that lets a block fit on a core once those under way are over: gangs, or whole blocks (R355). -/
def State.planAt (s : State) (l : Launch) (core : Nat) : Option (List Nat × List Nat) :=
  let cores := if l.pair then [core, core + 1] else [core]
  match smallest (fun ks => ((s.without ks []).fitBlock l core).isSome) (s.gangVictims l.prio cores) with
  | some ks => some (ks, [])
  | none =>
    (smallest (fun bs => ((s.without [] bs).fitBlock l core).isSome) (s.blockVictims l.prio cores)).map fun bs => ([], bs)

/-- What a plan costs, as one number: a launch that is not WEAK among its victims, then their highest priority, then how many blocks and
gangs go, then the oldest launch (R355; log 36). -/
def State.planCost (s : State) (p : List Nat × List Nat) : Nat :=
  let lids := (p.1.filterMap fun k => (s.gang? k).map Gang.lid) ++ p.2.filterMap fun b => (s.block? b).map Block.lid
  let top (f : Nat × Nat × Nat → Nat) : Nat := (lids.map fun x => f (s.victimKey x)).foldl max 0
  ((top (·.1) * 8 + top (·.2.1)) * 2 ^ 20 + (65 * p.2.length + p.1.length)) * 2 ^ 33 + top (·.2.2)

/-- A core with the gangs and the blocks to be evicted there. -/
abbrev RoomPlan := Nat × List Nat × List Nat

/-- The eviction to choose over all cores that a block may take. -/
def State.plan (s : State) (lid : Nat) (l : Launch) (bidx : Nat) : Option RoomPlan :=
  let l' := (List.range Config.numCores).filterMap fun c =>
    if s.mayTake lid bidx l.prio c && (!l.pair || s.mayTake lid bidx l.prio (c + 1)) then (s.planAt l c).map fun p => (c, p)
    else none
  match l' with
  | [] => none
  | x :: xs => some (xs.foldl (fun a b => if s.planCost b.2 < s.planCost a.2 then b else a) x)

/-- Evictions for n blocks from one on, each planned with the ones before it carried out and their blocks admitted (R352, R355). -/
def State.plans (lid : Nat) (l : Launch) : Nat → Nat → State → Option (List (Nat × RoomPlan))
  | 0, _, _ => some []
  | n + 1, bidx, s =>
    match s.plan lid l bidx with
    | none => none
    | some p =>
      let s := s.without p.2.1 p.2.2
      match s.fitBlock l p.1 with
      | none => none
      | some places => (State.plans lid l n (bidx + 1) (s.admitBlock lid l bidx p.1 places)).map fun r => (bidx, p) :: r

/-- Room asked for a block on a core: PREEMPT entries, and the room reserved for it. -/
def State.makeRoom (s : State) (lid : Nat) (pair : Bool) (bidx : Nat) (p : RoomPlan) : State :=
  let s := p.2.1.foldl (fun (s : State) k => s.preempt k false) s
  let s := p.2.2.foldl (fun (s : State) b => s.evictWhole b) s
  let cores := if pair then [p.1, p.1 + 1] else [p.1]
  { s with dist := { s.dist with
    claims := s.dist.claims.filter (fun g => !(g.1 == lid && g.2.1 == bidx)) ++ cores.map fun c => (lid, bidx, c) } }

/-! ## DISTRIBUTOR_ADMIT (R350 to R353, R355) -/

/-- The admission of a head launch now: all its blocks, or its next one. -/
def State.admitHead (s : State) (lid : Nat) (l : Launch) : Option State :=
  if l.progress = 0 then State.admitAll lid (l.total - l.nextBlock) s
  else (s.placeFor lid l l.nextBlock).map fun x => s.admitNext lid l x.1 x.2

/-- A CONCURRENT head launch of equal or higher priority stands before a launch: not all its blocks fit now (R352). -/
def State.heldBack (s : State) (lid : Nat) (l : Launch) : Bool :=
  s.heads.any fun x => x.1 != lid && x.2.progress == 0 && decide (l.prio ≤ x.2.prio) && (s.admitHead x.1 x.2).isNone

/-- The room that a head launch may have made for it: for all its blocks, or for its next one. -/
def State.roomFor (s : State) (lid : Nat) (l : Launch) : Option (List (Nat × RoomPlan)) :=
  State.plans lid l (if l.progress = 0 then l.total - l.nextBlock else 1) l.nextBlock s.evicted

/-- What the distributor does for the head launch of a queue: to take it in, or make room; `none` where it does nothing for it, and looks on: the
launch waits for the answers of a porter, or for what R352 or R353 puts before it, or nothing can make room. -/
def State.serve (s : State) (lid : Nat) (l : Launch) : Option State :=
  let claimed := s.dist.claims.any fun g => g.1 == lid
  if s.heldBack lid l || (!claimed && s.restoreFirst l.prio) then none
  else
    match s.admitHead lid l with
    | some t => some t
    | none =>
      match s.roomFor lid l with
      | none => none
      | some ps =>
        if claimed && ps.all fun p => p.2.2.1 == [] && p.2.2.2 == [] then none
        else some (ps.foldl (fun (s : State) p => s.makeRoom lid l.pair p.1 p.2) s)

/-- The head launches looked at in order until one is served. -/
def State.serveHeads (s : State) : List (Nat × Launch) → State
  | [] => s
  | (lid, l) :: rest =>
    match s.serve lid l with
    | some t => t
    | none => s.serveHeads rest

/-- The block that each head launch would have admitted next: since when no core can take it, as this look finds it (R354; log 65). -/
def State.noteStuck (s : State) : State :=
  s.heads.foldl (fun (s : State) x =>
    let free := x.2.progress == 0 || (s.placeFor x.1 x.2 x.2.nextBlock).isSome
    s.modLaunch x.1 fun l => { l with stuck := if free then none else some (l.stuck.getD s.clock) }) s

/-- DISTRIBUTOR_ADMIT (R350 to R353, R355). -/
def execDistributorAdmit (s : State) : Host.Outcome State Fault Refusal := .next (s.noteStuck.serveHeads s.noteStuck.heads)

/-! ## FRAGMENTATION_GUARD (R354) -/

/-- A part of a demand that is missing, in ten-thousandths of the capacity. -/
def missing (need free cap : Nat) : Nat := (need - free) * 10000 / cap

/-- The largest shortfall of n gangs and some bytes on a core. -/
def State.shortfall (s : State) (l : Launch) (core n : Nat) : Nat :=
  let used := s.wordsUsed core
  let words := if l.gwidth = 32 then
      ((List.range 4).map fun q =>
        missing ((n + 3 - q) / 4 * l.vregs) (Config.laneWords - ((List.range 8).map fun i => used.getD (8 * q + i) 0).foldl max 0)
          Config.laneWords).foldl max 0
    else missing (n * l.vregs * (l.gwidth / 4)) ((List.range 4).map fun q => freeWords used q).sum (32 * Config.laneWords)
  max (max words (missing n (Config.gangSlots - s.slotsUsed core) Config.gangSlots))
    (missing l.bytes (Config.scratchBytes - s.bytesUsed core) Config.scratchBytes)

/-- The shortfall of a block from a core on. -/
def State.shortfallAt (s : State) (l : Launch) (core : Nat) : Nat :=
  if l.pair then max (s.shortfall l core l.evenGangs) (s.shortfall l (core + 1) (l.gangCount - l.evenGangs))
  else s.shortfall l core l.gangCount

/-- The candidate core: smallest shortfall, lowest number, no guard of another block. -/
def State.candidate (s : State) (l : Launch) : Option Nat :=
  let ok (c : Nat) : Bool := s.coreOpen c && !(s.dist.guards.any fun g => g.2.2 == c)
  let l' := ((List.range Config.numCores).filter fun c => if l.pair then c % 2 == 0 && ok c && ok (c + 1) else ok c).map
    fun c => (s.shortfallAt l c, c)
  match l' with
  | [] => none
  | x :: xs => some (xs.foldl (fun a b => if b.1 < a.1 then b else a) x).2

/-- A head launch whose block has waited FRAGWAIT with no core able to take it, and has no guard yet. -/
def State.starved (s : State) (x : Nat × Launch) : Bool :=
  let l := x.2
  l.progress != 0 && s.dist.fragwait != 0 &&
    ((l.stuck.map fun t => decide (t + s.dist.fragwait * Config.cyclesPerUs ≤ s.clock)).getD false) && !(s.dist.guards.any fun g => g.1 == x.1 && g.2.1 == l.nextBlock)

/-- FRAGMENTATION_GUARD (R354). -/
def execFragmentationGuard (s : State) : Host.Outcome State Fault Refusal :=
  let s := s.noteStuck
  .next (match s.heads.find? s.starved with
    | none => s
    | some (lid, l) =>
      match s.candidate l with
      | none => s
      | some c =>
        let cores := if l.pair then [c, c + 1] else [c]
        { s with dist := { s.dist with guards := s.dist.guards ++ cores.map fun c => (lid, l.nextBlock, c) } })

/-! ## DISTACK (R345, R356) -/

/-- DISTACK (R356): the answer to an outstanding request; a tag that is not outstanding is ignored. -/
def execDistack (s : State) : Host.Outcome State Fault Refusal :=
  .next (match s.takeCommit (· == 0x3000000000080) with
    | none => s
    | some (c, s) =>
      let tag := c.dword 0
      match s.dist.requests.find? fun r => r.tag = tag with
      | none => s
      | some r =>
        let s := { s with dist := { s.dist with requests := s.dist.requests.filter fun x => x.tag ≠ tag } }
        if r.place then s
        else
          let s := { s with dist := { s.dist with saved := s.dist.saved.map fun (x : SavedGang) =>
            if x.gang.blk = r.blk ∧ x.gang.gidx = r.gidx then { x with area := bits (c.dword 1) 0 56, answered := true } else x } }
          if r.whole then s.modBlock r.blk fun b => { b with barea := bits (c.dword 2) 0 56 } else s)

/-! ## Whole-block eviction and restoration (R357, R358, R361) -/

/-- EVICTION_USE_DEADLINE (R357): 50 µs after the eviction began, every use of the block still outstanding is cancelled. -/
def execEvictionUseDeadline (b : Nat) (s : State) : Host.Outcome State Fault Refusal :=
  .next (match s.block? b with
    | some x =>
      if x.state == .evicting && decide (x.since + 50 * Config.cyclesPerUs ≤ s.clock) then s.cancelUses b fun _ => true else s
    | none => s)

/-- The bytes of a block image of one side from 0x40 on: EDVIEW, granule bits and scratchpad as R358 places them, the rest as the
device writes it (log 11). -/
def Block.imageBody (b : Block) (odd : Bool) (free : Nat) : List Byte :=
  let h := b.half odd
  let size := b.scratchSize + 272 * b.mailboxes
  (List.range (b.imageLen odd - 0x40)).map fun i =>
    let o := i + 0x40
    if o < 0x60 then BitVec.ofNat 8 ((Tab.getD b.edview ((o - 0x40) / 4) 0).toNat / 256 ^ (o % 4))
    else if 0x1000 ≤ o ∧ o < 0x2000 then
      BitVec.ofNat 8 (((List.range 8).map fun j => (NatSet.has h.full (8 * (o - 0x1000) + j)).toNat * 2 ^ j).sum)
    else if 0x2000 ≤ o ∧ o < 0x2000 + b.scratchSize then Mem.read h.mem (o - 0x2000)
    else if 0x2000 ≤ o ∧ o < 0x2000 + size then Mem.read h.mem (b.mbxBase + (o - 0x2000 - b.scratchSize))
    else Config.imageByte free o

/-- One side's image written where BAREA lies in memory (log 24). -/
def State.saveHalf (s : State) (b : Block) (odd : Bool) : State :=
  let area := b.barea + (if odd then 0x100000 else 0)
  let body := b.imageBody odd s.freeCtr
  let s := { s with freeCtr := s.freeCtr + 1 }
  match s.areaAt area (0x40 + body.length) with
  | some a => (s.writeBytes a (bytesOfNat 64 (b.imageHeader (crc32 body)))).writeBytes (a + 0x40) body
  | none => s

/-- The tiles of a core that a block has claimed, by 16 × side + tile. -/
def State.savedTiles (s : State) (blk core side : Nat) : Tab Tile :=
  if (s.core core).owner = some blk then (s.core core).tiles.map fun t => (16 * side + t.1, t.2) else []

/-- BLOCK_IMAGE_SAVE (R357, R358): every gang released and answered, every use over, no tile busy. -/
def execBlockImageSave (b : Nat) (s : State) : Host.Outcome State Fault Refusal :=
  .next (match s.block? b with
    | none => s
    | some x =>
      let own (c : Nat) : Bool := (s.core c).owner == some b
      let busy (c : Nat) : Bool := own c && (s.core c).tiles.any fun t => t.2.busy != 0
      let idle := (s.gangsOf b).all fun kg => kg.2.gstate == .ended
      if x.state == .evicting && idle && !(s.dist.requests.any fun r => r.blk == b) && !s.usesOf b && !busy x.core &&
          !(x.pair && busy (x.core + 1)) then
        match s.drainBlock x.lid x.bidx with
        | none => s
        | some s =>
          match s.block? b with
          | none => s
          | some x =>
            let s := (s.gangsOf b).foldl (fun (s : State) (kg : Nat × Gang) => s.freeSlot kg.1) s
            let x := { x with
              state := .saved, gangs := []
              tiles := s.savedTiles b x.core 0 ++ (if x.pair then s.savedTiles b (x.core + 1) 1 else [])
              claims := BitVec.ofNat 2 ((own x.core).toNat + 2 * (x.pair && own (x.core + 1)).toNat) }
            let s := (s.saveHalf x false)
            let s := if x.pair then s.saveHalf x true else s
            ((s.freeBlockCore b x.core).freeBlockCore b (x.core + 1)).setBlock b x
      else s)

/-- One journal entry applied at a block (R361). -/
def State.replay (s : State) (blk : Nat) (e : JEntry) : State :=
  match e with
  | .arrive off e n delta => (s.arrive blk (off / 0x80000 % 2 == 1) (off % 0x80000) e n delta).1
  | .push n entry => (s.push blk n entry.toNat false).1
  | .batch .. => s

/-- A block's journal replayed in order, and emptied. -/
def State.replayJournal (s : State) (blk : Nat) : State :=
  match s.block? blk with
  | none => s
  | some b => (b.journal.foldl (fun (s : State) e => s.replay blk e) s).modBlock blk fun b => { b with journal := [] }

/-- A core's tiles given back to a block that had claimed them. -/
def State.giveTiles (s : State) (blk core side : Nat) (b : Block) : State :=
  if b.claims.getLsbD side then
    s.modCore core fun c => { c with
      owner := some blk
      tiles := (b.tiles.filter fun t => t.1 / 16 == side).map fun t => (t.1 % 16, t.2) }
  else s

/-- One side of a block as its image in memory gives it: EDVIEW, granule bits, scratchpad and mailboxes (R358; log 11). -/
def Block.loadHalf (b : Block) (odd : Bool) (m : Mem) (a : Nat) : Block :=
  let h := b.half odd
  let n := 272 * b.mailboxes
  { b.setHalf odd { h with
      mem := Mem.writeBytes (Mem.writeBytes [] 0 (Mem.readBytes m (a + 0x2000) b.scratchSize)) b.mbxBase
        (Mem.readBytes m (a + 0x2000 + b.scratchSize) n)
      full := (List.range 0x8000).filter fun g => (Mem.read m (a + 0x1000 + g / 8)).getLsbD (g % 8) } with
    edview := (List.range 8).foldl (fun t i => Tab.put t 0 i (BitVec.ofNat 32 (Mem.readN m (a + 0x40 + 4 * i) 4))) [] }

/-- A saved block as the images of its sides in its save area give it; a side without a save area stands as it was saved. -/
def State.loadBlock (s : State) (b : Block) : Block :=
  let side (odd : Bool) (x : Block) : Block :=
    match s.areaAt (b.barea + (if odd then 0x100000 else 0)) (0x2000 + b.scratchSize + 272 * b.mailboxes) with
    | some a => x.loadHalf odd s.mem.bytes a
    | none => x
  side false (if b.pair then side true b else b)

/-- BLOCK_RESTORE (R357, R361): the block's image loaded on a core with room, and its journal replayed. -/
def execBlockRestore (b : Nat) (s : State) : Host.Outcome State Fault Refusal :=
  .next (match s.block? b with
    | none => s
    | some x =>
      if x.state ≠ .saved then s
      else
        match s.restoreCore x with
        | none => s
        | some c =>
          let s := s.wakeCore c
          let s := if x.pair then s.wakeCore (c + 1) else s
          let s := (s.giveTiles b c 0 x).giveTiles b (c + 1) 1 x
          (s.setBlock b { s.loadBlock x with state := .resident, core := c, tiles := [], claims := 0, moved := false }).replayJournal b)

/-! ## Journals (R359, R362, R363) -/

/-- The result of a JPUSH (R363); `none` while the router holds the push. -/
def State.jpushTo (s : State) (blk n : Nat) (entry : W128) : State × Option Nat :=
  match s.block? blk with
  | none => (s, some 3)
  | some b =>
    let gone := ((s.launch? b.lid).map fun l => l.status.isSome).getD true
    if gone || b.state == .retired || b.state == .destroyed || b.state == .waiting then
      (if b.state == .destroyed then
        { s with dist := { s.dist with arrdrop := min 0xFFFFFFFF (s.dist.arrdrop + 1) } } else s, some 3)
    else if b.mailboxes ≤ n then (s, some 2)
    else
      match s.pushTo blk n entry with
      | (s, .journalled) => (s, some 0)
      | (s, .applied) => (s, some 1)
      | (s, .full) => (s, some 2)
      | (s, .corrupt) => (s, some 4)
      | (s, .later) => (s, none)

/-- A push that a writer made through JPUSH, tried: its result in JSTAT, or held by the router (R362, R363). -/
def State.settlePush (s : State) (h : HeldPush) : State :=
  match s.jpushTo h.blk h.mbx h.entry with
  | (s, some r) => { s with dist := { s.dist with jstat := Tab.set s.dist.jstat h.writer r } }
  | (s, none) => { s with routerHold := s.routerHold ++ [{ h with core := ((s.block? h.blk).map Block.core).getD 0 }] }

/-- JPUSH (R363): the result is read in JSTAT by the same writer. -/
def execJpush (s : State) : Host.Outcome State Fault Refusal :=
  .next (match s.takeCommit (· == 0x3000000000100) with
    | none => s
    | some (c, s) =>
      s.settlePush ⟨0, blockKey (bits (c.dword 0) 0 32) (bits (c.dword 0) 32 32), bits (c.dword 1) 0 4,
        BitVec.ofNat 128 (c.dword 2 + 2 ^ 64 * c.dword 3), writerKey c.writer⟩)

/-- What the router holds for a core tried again, in order. -/
def State.settleHolds (s : State) (c : Nat) : State :=
  (s.routerHold.filter fun h => h.core = c).foldl (fun (s : State) h => s.settlePush h)
    { s with routerHold := s.routerHold.filter fun h => h.core ≠ c }

/-- ROUTER_HOLD_EXPIRE (R362): what the router has held for a core for 4 µs is journalled. -/
def execRouterHoldExpire (c : Nat) (s : State) : Host.Outcome State Fault Refusal :=
  .next (if s.routerWaits c then s else s.settleHolds c)

/-! ## Flushes (R131, R366) -/

/-- No committed store of a tag, of an epoch before a given one, is outstanding at a core. -/
def State.flushed (s : State) (core : Nat) (tag : Nat × Nat × Nat) (epoch : Nat) : Bool :=
  !(s.mem.inflight.any fun e => e.core == core && e.tag == tag && decide (e.epoch < epoch)) &&
    !(s.link.requests.any fun r => match r.src with | .store t _ e => t == tag && decide (e < epoch) | _ => false)

/-- FLUSH_ACK (R366). The gang's new core drops its L1 copies with each acknowledgement, the last of which lets the gang's loads go on:
they then read no write older than the gang's own (R112, R131). -/
def execFlushAck (c i : Nat) (s : State) : Host.Outcome State Fault Refusal :=
  .next (match (s.core c).flushes[i]? with
    | none => s
    | some (tag, epoch) =>
      if s.flushed c tag epoch then
        let s := s.modCore c fun x => { x with flushes := x.flushes.eraseIdx i }
        let ks := (s.gangs.filter fun g => g.2.tag = tag).map fun g => coreOf g.1
        let s := ks.foldl (fun (s : State) n =>
          { s.dropFills n (fun _ => true) with cores := Tab.update s.cores n fun x => { x with l1 := [] } }) s
        s.mapContexts fun g => if g.tag = tag then { g with flushFrom := g.flushFrom.erase (c, epoch) } else g
      else s)

/-! ## Power (R351, R362, R399) -/

/-- Nothing is on a core: no gang, no block, no use, no flush, no store on its way. -/
def State.coreEmpty (s : State) (c : Nat) : Bool :=
  s.slotsUsed c == 0 && s.bytesUsed c == 0 && (s.core c).uses == [] && (s.core c).flushes == [] &&
    !(s.mem.inflight.any fun e => e.core == c)

/-- CORE_POWER_GATE (R351). -/
def execCorePowerGate (c : Nat) (s : State) : Host.Outcome State Fault Refusal :=
  .next (if (s.core c).power == .up && s.coreEmpty c then s.modCore c fun x => { x with power := .gated, powerSince := s.clock }
    else s)

/-- CORE_POWER_UP_COMPLETE (R362, R399): the core is up and holds nothing of before; what was journalled for the blocks whose cores are
now all up, and what the router held, is delivered. -/
def execCorePowerUpComplete (c : Nat) (s : State) : Host.Outcome State Fault Refusal :=
  .next (if (s.core c).power ≠ .rising then s
    else
      let s := s.modCore c fun x => { x with
        power := .up, l1 := [], icache := [], tlb := [], tiles := if x.owner = none then [] else x.tiles }
      let bs := (s.blocks.filter fun b => b.2.state == .resident && b.2.holds c && b.2.coresOf.all fun x => !s.coreDown x).map Prod.fst
      (bs.foldl (fun (s : State) b => s.replayJournal b) s).settleHolds c)

/-! ## Reset of a core (R348, R362, R366) -/

/-- A block whose context is destroyed: its launch has lost it, and with its gangs, evicted ones too, go their monitors and sets (R348). -/
def State.destroyBlock (s : State) (blk : Nat) (b : Block) : State :=
  let ks := (s.gangsOf blk).map Prod.fst ++ (s.dist.saved.filter fun x => x.gang.blk = blk).map fun x => savedKey blk x.gang.gidx
  let s := s.modMem fun m => { m with monitors := m.monitors.filter fun x => !ks.contains x.key }
  let s := { s with
    cores := s.cores.map fun (c : Nat × CoreState) =>
      (c.1, { c.2 with sets := c.2.sets.filter fun x => !x.2.any ks.contains })
    dist := { s.dist with saved := s.dist.saved.filter fun x => x.gang.blk ≠ blk } }
  (s.modLaunch b.lid fun l => { l with lost := true }).retireBlock blk b .destroyed

/-- A core is reset, once it has acknowledged every flush (R366): the contexts of its blocks are destroyed, its uses are gone, and its
storage stands as at reset (log 64). -/
def State.resetCore (s : State) (c : Nat) : State :=
  if (s.core c).flushes ≠ [] then s
  else
    let s := (s.blocks.filter fun b => b.2.holds c).foldl (fun (s : State) (b : Nat × Block) => s.destroyBlock b.1 b.2) s
    { (s.dropFills c fun _ => true).setCore c .fresh with
      link := { s.link with requests := s.link.requests.filter fun r => match r.src with
        | .fill core .. | .chunk core .. | .fetch core _ => core != c
        | _ => true } }

end Sys2Proof.Machine
end

