-- ==== Sys2Proof/Machine/Registers.lean ====
section
/-! DEFINITION. The device register space (R345, R381, R414, R415), the boot staging window (R385) and the CSRs of the porter (R309,
R310, R331): what each reads as, and what a write does (R12). -/

namespace Sys2Proof.Machine

/-! ## Reads -/

/-- First physical address of the device register space (R326). -/
def regSpace : Nat := 0x3000000000000
/-- Offset by which a commit names a register of the staging window. -/
def windowSpace : Nat := 2 ^ 52

def StreamState.code : StreamState → Nat
  | .off => 0 | .run => 1 | .stopped => 2 | .down => 3

/-- A direction of a stream by the number that PSSEL holds. -/
def State.stream (s : State) (i : Nat) : Stream := Tab.getD s.trust.streams i .fresh

/-- Four 16-bit registers as one dword. -/
def packQuads (t : Tab (BitVec 16)) (i : Nat) : Nat :=
  ((List.range 4).map fun j => (Tab.getD t (i + j) 0).toNat * 2 ^ (16 * j)).sum

/-- The registers of R381 below QP0, by offset in the space; `none` for a field that is written only. -/
def State.linkReg (s : State) (o : Nat) : Option Nat :=
  let h := s.host
  if o = 0x100008 then some h.ready.toNat
  else if o = 0x100010 then some (h.fails + 4 * h.minimal.toNat + 2 ^ 8 * h.reason.toNat + 2 ^ 16 * h.source)
  else if o = 0x100018 then none
  else if o = 0x100020 then some h.bootcfg.toNat
  else if o = 0x100028 then some h.xipbase
  else if o = 0x100040 then some h.hwbase
  else if o = 0x100048 then some h.hwsize
  else if o = 0x100050 then some s.link.rwbase
  else if o = 0x100058 then some s.link.rwsize
  else if o = 0x100060 then some (s.link.devNum.toNat + 2 ^ 16 * s.link.devValid.toNat)
  else if 0x100100 ≤ o ∧ o < 0x100180 then
    let p := Tab.getD s.link.ports ((o - 0x100100) / 8) .fresh
    some (p.lanes + 2 ^ 8 * p.up.toNat + 2 ^ 9 * (p.up && decide (p.lanes < 8)).toNat + 2 ^ 16 * p.crcErr)
  else if 0x101000 ≤ o ∧ o < 0x101900 then some (packQuads s.link.droute ((o - 0x101000) / 2))
  else if 0x102000 ≤ o ∧ o < 0x102200 then some (packQuads s.link.mcroute ((o - 0x102000) / 2))
  else if 0x102200 ≤ o ∧ o < 0x102220 then some (bits s.link.mcjoin.toNat (8 * (o - 0x102200)) 64)
  else some 0

/-- The registers of R414 and R415. -/
def State.trustReg (s : State) (o : Nat) : Option Nat :=
  let t := s.trust
  let r := s.rel
  let st := s.stream t.pssel.toNat
  if o = 0x120000 then some (t.conf.toNat + 2 * t.scrubbed.toNat + 4 * t.recovery.toNat + 2 ^ 4 * t.stageSlot)
  else if 0x120040 ≤ o ∧ o < 0x120140 then
    some (bits (Tab.getD t.meas ((o - 0x120040) / 32) 0).toNat (8 * ((o - 0x120040) % 32)) 64)
  else if 0x120200 ≤ o ∧ o < 0x120228 then none
  else if 0x121000 ≤ o ∧ o < 0x122000 then some (Mem.readN t.scrubRecord (o - 0x121000) 8)
  else if 0x122000 ≤ o ∧ o < 0x122028 then none
  else if o = 0x122040 then some t.pssel.toNat
  else if o = 0x122048 then some (st.state.code + 4 * st.next.isSome.toNat + 2 ^ 27 * st.used)
  else if o = 0x123000 then some (r.errLog2 + r.errBase)
  else if o = 0x123008 then some r.errChan
  else if o = 0x123010 then some r.errHead
  else if o = 0x123018 then some r.errTail
  else if o = 0x123020 then some r.errOvf
  else if o = 0x123040 then some r.rowthr
  else if o = 0x123088 then some r.spareStat
  else if o = 0x1230A8 then some r.hbmSize
  else if o = 0x1230D0 then some (r.inj.armed.toNat + 2 * r.inj.fired.toNat + 2 ^ 8 * r.inj.fcore)
  else if o = 0x123080 ∨ (0x123090 ≤ o ∧ o < 0x1230A8) ∨ (0x1230C0 ≤ o ∧ o < 0x1230D0) then none
  else some 0

/-- Queue-pair registers (R381). -/
def QueuePair.reg (q : QueuePair) (o : Nat) : Nat :=
  match o / 8 with
  | 0 => q.txBase | 1 => q.rxBase | 2 => q.cfg | 3 => q.txTail | 4 => q.txHead | 5 => q.rxTail | 6 => q.rxHead | _ => q.rxDrop

/-- Drive registers (R381). -/
def Drive.reg (d : Drive) (o : Nat) : Nat :=
  match o / 8 with
  | 0 => d.width + 8 * d.up.toNat | 1 => d.dmaBase | 2 => d.dmaSize | 3 => d.irqChan | _ => 0

/-- A dword of the register space as a writer reads it, by its offset; `none` where a field is written only, or a drive's own
registers stand. -/
def State.regValue (s : State) (w : Writer) (o : Nat) : Option Nat :=
  if o < 0x18 then some (bits s.dist.encore.toNat (8 * o) 64)
  else if o = 0x40 then some s.dist.fragwait
  else if o = 0x48 then some s.dist.arrdrop
  else if (0x80 ≤ o ∧ o < 0xA0) ∨ (0x100 ≤ o ∧ o < 0x120) then none
  else if o = 0x120 then some (Tab.getD s.dist.jstat (writerKey w) 0)
  else if 0x10000 ≤ o ∧ o < 0x50000 then
    let q := (o - 0x10000) / 0x1000
    if o % 0x1000 < 0x40 then none
    else if o % 0x1000 = 0x40 then
      some ((Tab.getD s.dist.queues q []).length + 2 ^ 16 * Tab.getD s.dist.dropped q 0 + 2 ^ 32 * s.dist.nextId.toNat)
    else some 0
  else if 0x100000 ≤ o ∧ o < 0x120000 then s.linkReg o
  else if 0x120000 ≤ o ∧ o < 0x124000 then s.trustReg o
  else if 0x200000 ≤ o ∧ o < 0x204000 then some ((Tab.getD s.pairs ((o - 0x200000) / 64) .fresh).reg (o % 64))
  else if 0x380000 ≤ o ∧ o < 0x380200 then some ((Tab.getD s.drives ((o - 0x380000) / 64) .fresh).reg (o % 64))
  else if 0x1000000 ≤ o ∧ o < 0x1800000 then none
  else some 0

/-- The bits of a dword that belong to fields written only, or to a drive's own registers: the others are reserved and read as zero
(R12, R345, R347, R381, R414, R415). -/
def writeOnlyBits (o : Nat) : W64 :=
  if o = 0x88 ∨ o = 0x90 then 0xFFFFFFFFFFFFFF
  else if o = 0x98 then 0
  else if o = 0x108 then 0xF
  else if 0x10000 ≤ o ∧ o < 0x50000 then
    match o % 0x40 / 8 with
    | 0 | 1 | 5 => 0xFFFFFFFFFFFFFF
    | 2 => ~~~0
    | 3 => 0xFFFFFFFFFFFF
    | 4 => 0xFFFFFFFFFF
    | _ => 0
  else if o = 0x100018 then 1
  else if o = 0x120220 then 7
  else if o = 0x122000 then 0xFFFFFFFF00007FFF
  else if o = 0x123080 then 0x1FFF
  else if o = 0x123090 ∨ o = 0x1230A0 then 0xFF
  else if o = 0x123098 then 0xFFFFFFFFFFFE0
  else if o = 0x1230C0 then 0xFF07
  else if o = 0x1230C8 then 0xFFFFFFFFFFFF8
  else ~~~0

/-- A dword read by a porter: a field that is only written reads as a free value (log 18), a reserved bit as zero (R12). -/
def State.regRead (s : State) (w : Writer) (o : Nat) : State × W64 :=
  match s.regValue w o with
  | some x => (s, BitVec.ofNat 64 x)
  | none => ({ s with freeCtr := s.freeCtr + 1 }, Config.deviceRead s.freeCtr o &&& writeOnlyBits o)

/-- The staging window as the host reads it: BUSY, TAKEN and REFUSED, and elsewhere a free value (R385; log 18). -/
def State.windowValue (s : State) (o : Nat) : Option Nat :=
  if o = 0x1FF018 then some (s.host.busy.toNat + 2 * s.host.taken.toNat + 4 * s.host.refused.toNat) else none

/-! ## Writes -/

/-- The registers written in parts: first offset and dwords of the one that a dword belongs to (R345, R393, R401, R415). -/
def stagedReg (o : Nat) : Option (Nat × Nat) :=
  if 0x80 ≤ o ∧ o < 0xA0 then some (0x80, 4)
  else if 0x100 ≤ o ∧ o < 0x120 then some (0x100, 4)
  else if 0x10000 ≤ o ∧ o < 0x50000 ∧ o % 0x1000 < 0x40 then some (o / 0x1000 * 0x1000, 8)
  else if 0x120200 ≤ o ∧ o < 0x120228 then some (0x120200, 5)
  else if 0x122000 ≤ o ∧ o < 0x122028 then some (0x122000, 5)
  else if 0x1230C0 ≤ o ∧ o < 0x1230D0 then some (0x1230C0, 2)
  else none

/-- The registers of one dword whose write is a step of its own: BOOTOK, TXTAIL and RXTAIL, ERRTAIL, SPARE, CORERETIRE, ROWSPARE,
CHRETIRE. -/
def triggerReg (o : Nat) : Bool :=
  o == 0x100018 || o == 0x123018 || o == 0x123080 || o == 0x123090 || o == 0x123098 || o == 0x1230A0 ||
    (decide (0x200000 ≤ o ∧ o < 0x204000) && (o % 64 == 24 || o % 64 == 40))

/-- The registers that porters alone write (R381, R414, R415). -/
def porterOnly (o : Nat) : Bool :=
  o == 0x100018 || decide (0x120200 ≤ o ∧ o < 0x120228) || decide (0x122000 ≤ o ∧ o < 0x122028) || o == 0x123080 ||
    decide (0x123090 ≤ o ∧ o < 0x1230A8) || decide (0x1230C0 ≤ o ∧ o < 0x1230D0)

/-- The host reaches a register: function 0 its 1 MiB, in ordinary mode; function 1 the launch windows, outside minimal mode, in
confidential mode in a keyed IDE stream (R367, R381, R387, R398). -/
def State.hostWrites (s : State) (o : Nat) : Bool :=
  s.trust.phase != .held &&
    (if 0x100000 ≤ o ∧ o < 0x200000 then !s.trust.conf && !porterOnly o
     else decide (0x10000 ≤ o ∧ o < 0x50000) && !s.host.minimal && (!s.trust.conf || s.trust.ideKeys != []))

/-- The write is accepted from its writer. -/
def State.accepts (s : State) (w : Writer) (o : Nat) : Bool :=
  (w != .host || s.hostWrites o) && !(s.trust.conf && decide (0x1230C0 ≤ o ∧ o < 0x1230D0))

/-- A committed write, whose own step comes next. -/
def State.commitReg (s : State) (c : Commit) : State := { s with commits := s.commits ++ [c] }

/-- A writer's staged dwords. -/
def State.stagedOf (s : State) (w : Writer) : Tab W64 := Tab.getD s.dist.staged (writerKey w) []
def State.setStaged (s : State) (w : Writer) (t : Tab W64) : State :=
  { s with dist := { s.dist with staged := Tab.put s.dist.staged [] (writerKey w) t } }

/-- One dword of a register written in parts: staged, or, the last one, a commit of all of them, which a missing dword has
discarded and, at a launch window, counted (R345; log 37). -/
def State.stageWrite (s : State) (w : Writer) (base n o : Nat) (x : W64) : State :=
  let t := s.stagedOf w
  if o ≠ base + 8 * (n - 1) then s.setStaged w (Tab.set t o x)
  else
    let parts := (List.range (n - 1)).map fun i => Tab.get? t (base + 8 * i)
    let s := s.setStaged w (t.filter fun e => !(base ≤ e.1 && e.1 < base + 8 * n))
    if parts.all Option.isSome then s.commitReg ⟨w, regSpace + base, 0, parts.filterMap id ++ [x]⟩
    else if 0x10000 ≤ base ∧ base < 0x50000 then s.countDropped ((base - 0x10000) / 0x1000)
    else s

/-- Four 16-bit registers written by one dword. -/
def unpackQuads (t : Tab (BitVec 16)) (i x : Nat) : Tab (BitVec 16) :=
  (List.range 4).foldl (fun t j => Tab.put t 0 (i + j) (BitVec.ofNat 16 (x / 2 ^ (16 * j)))) t

/-- READY.LINKS rises once DEVID is valid and the link is trained (R382, R384). -/
def State.linksReady (s : State) : State :=
  if s.link.devValid && s.host.ready.getLsbD 2 then { s with host := { s.host with ready := s.host.ready ||| 0x40 } } else s

/-- The plain registers of R381 below QP0 (R12). -/
def State.writeLink (s : State) (o x : Nat) : State :=
  let page (lo n : Nat) : Nat := bits x lo n * 2 ^ lo
  if o = 0x100040 then { s with host := { s.host with hwbase := page 12 38 } }
  else if o = 0x100048 then { s with host := { s.host with hwsize := page 12 38 } }
  else if o = 0x100050 then { s with link := { s.link with rwbase := page 12 27 } }
  else if o = 0x100058 then { s with link := { s.link with rwsize := page 12 27 } }
  else if o = 0x100060 then
    State.linksReady { s with link := { s.link with devNum := BitVec.ofNat 12 x, devValid := bits x 16 1 == 1 } }
  else if 0x101000 ≤ o ∧ o < 0x101900 then
    { s with link := { s.link with droute := unpackQuads s.link.droute ((o - 0x101000) / 2) x } }
  else if 0x102000 ≤ o ∧ o < 0x102200 then
    { s with link := { s.link with mcroute := unpackQuads s.link.mcroute ((o - 0x102000) / 2) x } }
  else if 0x102200 ≤ o ∧ o < 0x102220 then
    { s with link := { s.link with
      mcjoin := BitVec.ofNat 256 (setBits s.link.mcjoin.toNat (8 * (o - 0x102200)) 64 x) } }
  else s

/-- The plain registers of R414. -/
def State.writeTrust (s : State) (o x : Nat) : State :=
  if o = 0x122040 then { s with trust := { s.trust with pssel := BitVec.ofNat 13 x } }
  else if o = 0x123000 then { s with rel := { s.rel with errLog2 := bits x 0 4, errBase := bits x 12 40 * 4096 } }
  else if o = 0x123008 then { s with rel := { s.rel with errChan := bits x 0 8 } }
  else if o = 0x123040 then { s with rel := { s.rel with rowthr := bits x 0 8 } }
  else s

/-- The plain registers of a queue pair and of a drive. -/
def QueuePair.write (q : QueuePair) (o x : Nat) : QueuePair :=
  match o / 8 with
  | 0 => { q with txBase := bits x 0 52 }
  | 1 => { q with rxBase := bits x 0 52 }
  | 2 => { q with cfg := bits x 0 14 }
  | _ => q
def Drive.write (d : Drive) (o x : Nat) : Drive :=
  match o / 8 with
  | 1 => { d with dmaBase := bits x 12 40 * 4096 }
  | 2 => { d with dmaSize := bits x 12 40 * 4096 }
  | 3 => { d with irqChan := bits x 0 8 }
  | _ => d

/-- A register with no behaviour of its own stores its writable fields; reserved and read-only bits are ignored (R12). -/
def State.writePlain (s : State) (o x : Nat) : State :=
  if o = 0x40 then { s with dist := { s.dist with fragwait := bits x 0 16 } }
  else if 0x100000 ≤ o ∧ o < 0x120000 then s.writeLink o x
  else if 0x120000 ≤ o ∧ o < 0x124000 then s.writeTrust o x
  else if 0x200000 ≤ o ∧ o < 0x204000 then
    let i := (o - 0x200000) / 64
    { s with pairs := Tab.set s.pairs i ((Tab.getD s.pairs i .fresh).write (o % 64) x) }
  else if 0x380000 ≤ o ∧ o < 0x380200 then
    let i := (o - 0x380000) / 64
    { s with drives := Tab.set s.drives i ((Tab.getD s.drives i .fresh).write (o % 64) x) }
  else s

/-- A dword of the register space written, by its offset. -/
def State.regWrite (s : State) (w : Writer) (o : Nat) (x : W64) : State :=
  if !s.accepts w o then s
  else
    match stagedReg o with
    | some (base, n) => s.stageWrite w base n o x
    | none =>
      if triggerReg o then s.commitReg ⟨w, regSpace + (if 0x200000 ≤ o ∧ o < 0x204000 then 0x200000 + o % 64 else o),
        (o - 0x200000) / 64, [x]⟩
      else s.writePlain o x.toNat

/-- The source being tried: 0 NVMe, 1 host, 2 tree, 3 XIP; a recovery boot has the host alone, an owner boot the tree (R381, R383,
R403). -/
def State.sourceNow (s : State) : Nat :=
  if s.trust.recovery then 1
  else if s.host.bootcfg.getLsbD 11 then 2
  else bits s.host.bootcfg.toNat (2 * s.trust.sourceTry) 2

/-- The ROM takes an image from the host: boot step 1 or 4, while the host is the source (R382, R385, R403). -/
def State.takesImage (s : State) : Bool :=
  (s.trust.phase == .step 1 || s.trust.phase == .step 4) && s.trust.imageLen.isNone && s.sourceNow == 1

/-- A dword of the staging window written by the host: discarded while the ROM takes no image or is busy (R385). -/
def State.windowWrite (s : State) (o : Nat) (x : W64) : State :=
  if !s.takesImage || s.host.busy || 0x200000 ≤ o then s
  else if o = 0x1FF000 then { s with host := { s.host with chunkOff := x.setWidth 32 } }
  else if o = 0x1FF008 ∨ o = 0x1FF010 then s.commitReg ⟨.host, windowSpace + o, 0, [x]⟩
  else if o < 0x1FF000 then { s with host := { s.host with window := Mem.writeN s.host.window o 8 x.toNat } }
  else s

/-! ## CSRs -/

/-- The device CSRs (R310, R331): the value read, `none` for a number that no table lists. -/
def State.deviceCsr (s : State) (cl n : Nat) : Option Nat :=
  let c := s.cluster cl
  let p := c.porter
  let pend := (c.dq != []).toNat + ((List.range 4).map fun i => ((Tab.getD c.channels i []) != []).toNat * 2 ^ (i + 1)).sum
  let enabled := ((List.range 4).map fun i => (s.dist.encore.getLsbD (4 * cl + i)).toNat * 2 ^ (8 + i)).sum
  match n with
  | 0x5C0 => some p.ptroot.toNat
  | 0x5C1 => some p.pasid.toNat
  | 0x5C2 => some p.pien.toNat
  | 0x5C3 => some p.pfrbase.toNat
  | 0xDC0 => some pend
  | 0xDC1 => some (c.dq.length + 2 ^ 9 * (c.held != []).toNat + 2 ^ 32 * ((c.dq.head?.map DqEntry.seq).getD c.nextSeq).toNat)
  | 0xDC2 => some (cl + enabled)
  | 0xDC3 => some p.pstat.toNat
  | 0x9C0 => some p.tlbiasid.toNat
  | 0x9C1 => some p.tlbiva.toNat
  | 0x9C2 => some p.tlbilen.toNat
  | 0x9C3 => some p.ticket.toNat
  | 0x9C4 => some p.done.toNat
  | 0x9C5 => some 0
  | _ => none

/-- The conditions of PIPEND (R310). -/
def State.pipend (s : State) (cl : Nat) : Nat := (s.deviceCsr cl 0xDC0).getD 0

/-- The supervisor external interrupt pends (R313). -/
def State.extPending (s : State) (cl : Nat) : Bool :=
  (s.pipend cl) &&& (s.porter cl).pien.toNat != 0

/-- Interrupts pending in mip without the supervisor external interrupt's signal: the stored bits, and the timer under Sstc (R309). -/
def State.mipStored (s : State) (cl : Nat) : Nat :=
  let p := s.porter cl
  if p.menvcfg.getLsbD 63 then setBits p.mip.toNat 5 1 (decide (p.stimecmp.toNat ≤ s.clock % 2 ^ 64)).toNat else p.mip.toNat

/-- Interrupts pending, with the supervisor external interrupt (R309, R313). -/
def State.mipNow (s : State) (cl : Nat) : Nat := s.mipStored cl ||| (2 ^ 9 * (s.extPending cl).toNat)

/-- mstatus as it reads: UXL and SXL name 64 bits, SD sums up FS (log 31). -/
def Porter.status (p : Porter) : Nat :=
  p.mstatus.toNat + 0xA00000000 + (if bits p.mstatus.toNat 13 2 = 3 then 2 ^ 63 else 0)

/-- The bits of mstatus that software writes, and of those the ones that sstatus shows. -/
def mstatusBits : W64 := 0x7E79AA
def sstatusBits : W64 := 0xC6122

/-- Bits of a register replaced under a mask. -/
def merge64 (old new mask : W64) : W64 := (old &&& ~~~mask) ||| (new &&& mask)

/-- mstatus written: MPP keeps its value where the new one names no mode. -/
def Porter.setStatus (p : Porter) (x mask : W64) : Porter :=
  let y := merge64 p.mstatus x (mask &&& mstatusBits)
  { p with mstatus := if bits y.toNat 11 2 = 2 then merge64 y p.mstatus 0x1800 else y }

/-- The standard CSRs that the privileged specification gives (R309; log 31): `none` for a number that the porter lacks. mcycle reads as
a free value, the other counters and their events as zero. -/
def State.standardCsr (s : State) (cl n : Nat) : Option Nat :=
  let p := s.porter cl
  let mip := s.mipNow cl
  match n with
  | 0x001 => some (bits p.fcsr.toNat 0 5)
  | 0x002 => some (bits p.fcsr.toNat 5 3)
  | 0x003 => some p.fcsr.toNat
  | 0x100 => some (p.status &&& (sstatusBits.toNat + 0x200000000 + 2 ^ 63))
  | 0x104 => some (p.mie.toNat &&& p.mideleg.toNat)
  | 0x105 => some p.stvec.toNat
  | 0x106 => some p.scounteren.toNat
  | 0x10A => some p.senvcfg.toNat
  | 0x140 => some p.sscratch.toNat
  | 0x141 => some p.sepc.toNat
  | 0x142 => some p.scause.toNat
  | 0x143 => some p.stval.toNat
  | 0x144 => some (mip &&& p.mideleg.toNat)
  | 0x14D => some p.stimecmp.toNat
  | 0x180 => some 0
  | 0x300 => some p.status
  | 0x301 => some 0x800000000014112D
  | 0x302 => some p.medeleg.toNat
  | 0x303 => some p.mideleg.toNat
  | 0x304 => some p.mie.toNat
  | 0x305 => some p.mtvec.toNat
  | 0x306 => some p.mcounteren.toNat
  | 0x30A => some p.menvcfg.toNat
  | 0x340 => some p.mscratch.toNat
  | 0x341 => some p.mepc.toNat
  | 0x342 => some p.mcause.toNat
  | 0x343 => some p.mtval.toNat
  | 0x344 => some mip
  | 0xC01 => some (s.clock % 2 ^ 64)
  | 0xF11 | 0xF12 | 0xF13 | 0xF15 => some 0
  | 0xF14 => some cl
  | 0xB00 => some (Config.deviceRead s.freeCtr n).toNat
  | 0xB02 => some p.minstret.toNat
  | _ => if (0xB03 ≤ n ∧ n < 0xB20) ∨ (0x323 ≤ n ∧ n < 0x340) then some 0 else none

/-- A CSR's value. -/
def State.csrValue (s : State) (cl n : Nat) : Option Nat :=
  match s.deviceCsr cl n with
  | some x => some x
  | none => s.standardCsr cl n

/-- A standard CSR's writable fields stored. -/
def Porter.writeStandard (p : Porter) (n : Nat) (x : W64) : Porter :=
  match n with
  | 0x001 => { p with fcsr := p.fcsr &&& 0xE0 ||| (x.setWidth 8 &&& 0x1F), mstatus := p.mstatus ||| 0x6000 }
  | 0x002 => { p with fcsr := p.fcsr &&& 0x1F ||| (x.setWidth 8 <<< 5), mstatus := p.mstatus ||| 0x6000 }
  | 0x003 => { p with fcsr := x.setWidth 8, mstatus := p.mstatus ||| 0x6000 }
  | 0x100 => p.setStatus x sstatusBits
  | 0x104 => { p with mie := merge64 p.mie x (p.mideleg &&& 0x222) }
  | 0x105 => { p with stvec := x &&& ~~~2 }
  | 0x106 => { p with scounteren := x &&& 7 }
  | 0x10A => { p with senvcfg := x &&& 1 }
  | 0x140 => { p with sscratch := x }
  | 0x141 => { p with sepc := x &&& ~~~1 }
  | 0x142 => { p with scause := x }
  | 0x143 => { p with stval := x }
  | 0x144 => { p with mip := merge64 p.mip x (p.mideleg &&& 0x2) }
  | 0x14D => { p with stimecmp := x }
  | 0x300 => p.setStatus x mstatusBits
  | 0x302 => { p with medeleg := x &&& 0xB3FF }
  | 0x303 => { p with mideleg := x &&& 0x222 }
  | 0x304 => { p with mie := x &&& 0xAAA }
  | 0x305 => { p with mtvec := x &&& ~~~2 }
  | 0x306 => { p with mcounteren := x &&& 7 }
  | 0x30A => { p with menvcfg := x &&& 0x8000000000000001 }
  | 0x340 => { p with mscratch := x }
  | 0x341 => { p with mepc := x &&& ~~~1 }
  | 0x342 => { p with mcause := x }
  | 0x343 => { p with mtval := x }
  | 0x344 => { p with mip := merge64 p.mip x (if p.menvcfg.getLsbD 63 then 0x202 else 0x222) }
  | _ => p

/-- A device CSR's writable fields stored. -/
def Porter.writeDevice (p : Porter) (n : Nat) (x : W64) : Porter :=
  match n with
  | 0x5C0 => { p with ptroot := x &&& 0xFFFFFFFFFF001 }
  | 0x5C1 => { p with pasid := x &&& 0xFFFF }
  | 0x5C2 => { p with pien := x &&& 0x1F }
  | 0x5C3 => { p with pfrbase := x &&& 0xFFFFFFFFFFFFF }
  | 0x9C0 => { p with tlbiasid := x &&& 0x3FFFF }
  | 0x9C1 => { p with tlbiva := x &&& 0xFFFFFFFFFC0000 }
  | 0x9C2 => { p with tlbilen := x &&& 0x7FFFFFFFFF }
  | _ => p

/-- A CSR access is illegal: the mode is too low for the number, a write to a read-only number, a number that is not there, and,
for the time, without the enables (R310, R331; log 31). -/
def State.csrIllegal (s : State) (cl n : Nat) (write : Bool) : Bool :=
  let p := s.porter cl
  let need := n / 256 % 4
  decide (p.mode.code < need) || (write && n / 1024 == 3) || (write && n == 0x9C4) ||
    (s.csrValue cl n).isNone ||
    (n == 0x180 && p.mode == .supervisor && p.mstatus.getLsbD 20) ||
    (n == 0x14D && p.mode == .supervisor && (!p.mcounteren.getLsbD 1 || !p.menvcfg.getLsbD 63)) ||
    (n == 0xC01 && ((p.mode != .machine && !p.mcounteren.getLsbD 1) || (p.mode == .user && !p.scounteren.getLsbD 1))) ||
    (decide (1 ≤ n ∧ n ≤ 3) && bits p.mstatus.toNat 13 2 == 0)

/-- A CSR written by its cluster's porter, where the write is legal: TLBIGO and ENGRESUME commit, the others store (R331, R343). A
17th invalidation stalls the porter: nothing changes (R332). -/
def State.csrWrite (s : State) (cl n : Nat) (x : W64) : State :=
  if n = 0x9C3 then
    if 16 ≤ (s.porter cl).tlbis.length then s else s.commitReg ⟨.porter cl, n, 0, [x]⟩
  else if n = 0x9C5 then s.commitReg ⟨.porter cl, n, 0, [x]⟩
  else
    match s.deviceCsr cl n with
    | some _ => s.modPorter cl fun p => p.writeDevice n x
    | none => s.modPorter cl fun p => p.writeStandard n x

/-- REGISTER_WRITE (R12, R310, R345, R381, R414). -/
def execRegisterWrite (w : Writer) (r : RegTarget) (x : BitVec 64) (s : State) : Host.Outcome State Fault Refusal :=
  .next (match r with
    | .mmio pa => if regSpace ≤ pa ∧ pa < regSpace + 2 ^ 32 then s.regWrite w ((pa - regSpace) / 8 * 8) x else s
    | .window off => if w = .host then s.windowWrite (off / 8 * 8) x else s
    | .csr cl n =>
      if w ≠ .porter cl then s
      else if s.csrIllegal cl n true then s.porterExcept cl .illegal 0
      else s.csrWrite cl n x)

end Sys2Proof.Machine
end

