-- ==== Sys2Proof/Machine/PorterAccess.lean ====
section
/-! DEFINITION. A porter's loads, stores and AMOs (R120, R309, R344), and its FENCE (R120). -/

namespace Sys2Proof.Machine

/-- A loaded value in an integer register, extended, or in a float one, NaN-boxed. -/
def Porter.loaded (p : Porter) (rd : BitVec 5) (fp : Bool) (w : Nat) (unsigned : Bool) (x : Nat) : Porter :=
  let n := 8 * 2 ^ w
  if fp then
    { p with
      f := Tab.put p.f 0 rd.toNat (BitVec.ofNat 64 (if w = 2 then x % 2 ^ 32 + 0xFFFFFFFF00000000 else x))
      mstatus := p.mstatus ||| 0x6000 }
  else p.wr rd (if unsigned then BitVec.ofNat 64 (x % 2 ^ n) else BitVec.ofInt 64 (sExt n x))

/-- The effective address of a load or store. -/
def Porter.ea (p : Porter) (rs1 : BitVec 5) (off : BitVec 12) : Nat := (p.rd rs1 + off.signExtend 64).toNat

/-- Float registers are off: an instruction that names one is illegal. -/
def Porter.fpOff (p : Porter) : Bool := bits p.mstatus.toNat 13 2 == 0

/-- An access that cannot be sent yet waits: nothing changes. -/
def State.orWait (s : State) (r : Option State) : State := r.getD s

/-- The register at an offset is JSTAT, and the router holds a push of this porter: the load waits for its result (R362, R363). -/
def State.jstatWaits (s : State) (cl o : Nat) : Bool :=
  o == 0x120 && s.routerHold.any fun h => h.writer == writerKey (.porter cl)

/-- A load (R309, R344). `keep` sets the reservation of a load-reserved. -/
def State.porterLoad (s : State) (cl va : Nat) (rd : BitVec 5) (fp : Bool) (w : Nat) (unsigned keep : Bool) : State :=
  let n := 2 ^ w
  let fin (s : State) (x : Nat) (res : Option Nat) : State :=
    s.modPorter cl fun p => { (p.loaded rd fp w unsigned x).next with reservation := if keep then res else p.reservation }
  if va % n ≠ 0 then s.porterExcept cl .loadMisaligned va
  else
    match s.porterTarget cl va .read with
    | (s, .error m) => s.porterMiss cl va m
    | (s1, .ok (.regs pa, _)) =>
      if keep then s1.porterExcept cl .loadFault va
      else if s1.jstatWaits cl ((pa - regSpace) / 8 * 8) then s1
      else
        let (s2, x) := s1.regRead (.porter cl) ((pa - regSpace) / 8 * 8)
        fin s2 (x.toNat / 256 ^ (pa % 8) % 256 ^ n) none
    | (s1, .ok (.remote dev off, _)) =>
      if 0xF00 ≤ dev then s1.porterExcept cl .loadFault va
      else s1.orWait (s1.sendRemote (4 * cl) dev off (.read n) (.porter cl (some rd) fp w unsigned va))
    | (s1, .ok (_, pa)) =>
      match s1.agentRead pa n (s.porterAsid cl .read) with
      | (s2, .data x) => fin s2 x (some pa)
      | (s2, .bad _) => s2.porterExcept cl .loadFault va

/-- A store (R309, R344): n bytes of a value. -/
def State.porterStore (s : State) (cl va w x : Nat) : State :=
  let n := 2 ^ w
  let v := x % 256 ^ n
  if va % n ≠ 0 then s.porterExcept cl .storeMisaligned va
  else
    match s.porterTarget cl va .write with
    | (s, .error m) => s.porterMiss cl va m
    | (s1, .ok (.regs pa, _)) =>
      let o := (pa - regSpace) / 8 * 8
      let old := (s1.regValue (.porter cl) o).getD 0
      (s1.regWrite (.porter cl) o (BitVec.ofNat 64 (setBits old (8 * (pa % 8)) (8 * n) v))).modPorter cl Porter.next
    | (s1, .ok (.remote dev off, _)) =>
      s1.orWait (s1.sendRemote (4 * cl) dev off (.write n v) (.porter cl none false w false va))
    | (s1, .ok (_, pa)) => (s1.agentWrite pa n v).modPorter cl Porter.next

/-- A store-conditional: it writes where the reservation stands at the atom, and tells in rd; another device's memory holds no
reservation (log 30). -/
def State.porterSc (s : State) (cl va w x : Nat) (rd : BitVec 5) : State :=
  let n := 2 ^ w
  let fin (s : State) (r : W64) : State := s.modPorter cl fun p => { (p.wr rd r).next with reservation := none }
  if va % n ≠ 0 then s.porterExcept cl .storeMisaligned va
  else
    match s.porterTarget cl va .write with
    | (s, .error m) => s.porterMiss cl va m
    | (s1, .ok (.regs _, _)) => s1.porterExcept cl .storeFault va
    | (s1, .ok (.remote .., _)) => fin s1 1
    | (s1, .ok (_, pa)) =>
      if (s1.porter cl).reservation.map atomOf = some (atomOf pa) then fin (s1.agentWrite pa n (x % 256 ^ n)) 0 else fin s1 1

/-- Operation and type of an AMO, as R247 numbers them. -/
def amoCode (op : AmoOp) (dbl : Bool) : Nat × Ty :=
  let u : Ty := if dbl then .n64 else .n32
  let i : Ty := if dbl then .i64 else .i32
  match op with
  | .add => (0, u)
  | .min => (1, i)
  | .max => (2, i)
  | .minu => (1, u)
  | .maxu => (2, u)
  | .and => (3, u)
  | .or => (4, u)
  | .xor => (5, u)
  | .swap => (6, u)

/-- An AMO, one step at its home (R114, R120). -/
def State.porterAmo (s : State) (cl va w x op : Nat) (t : Ty) (rd : BitVec 5) : State :=
  let n := 2 ^ w
  let v := x % 256 ^ n
  if va % n ≠ 0 then s.porterExcept cl .storeMisaligned va
  else
    match s.porterTarget cl va .rmw with
    | (s, .error m) => s.porterMiss cl va m
    | (s1, .ok (.regs _, _)) => s1.porterExcept cl .storeFault va
    | (s1, .ok (.remote dev off, _)) =>
      if 0xF00 ≤ dev then s1.porterExcept cl .storeFault va
      else s1.orWait (s1.sendRemote (4 * cl) dev off (.atom op t v) (.porter cl (some rd) false w false va))
    | (s1, .ok (_, pa)) =>
      match s1.agentRead pa n (s.porterAsid cl .rmw) with
      | (s2, .bad _) => s2.porterExcept cl .storeFault va
      | (s2, .data old) =>
        (s2.homeWrite pa n (newValue op t old v)).modPorter cl fun p => (p.loaded rd false w false old).next

/-- PORTER_LOAD_STORE_AMO (R120, R309, R344). -/
def execPorterLoadStoreAmo (cl : Nat) (acc : PorterAccess) (s : State) : Host.Outcome State Fault Refusal :=
  .next (
    let p := s.porter cl
    if s.porterWaits cl then s
    else
      match acc with
      | .load w u rd rs1 off => s.porterLoad cl (p.ea rs1 off) rd false w.val u false
      | .store w rs1 rs2 off => s.porterStore cl (p.ea rs1 off) w.val (p.rd rs2).toNat
      | .fload dbl rd rs1 off =>
        if p.fpOff then s.porterExcept cl .illegal 0
        else s.porterLoad cl (p.ea rs1 off) rd true (2 + dbl.toNat) false false
      | .fstore dbl rs1 rs2 off =>
        if p.fpOff then s.porterExcept cl .illegal 0
        else s.porterStore cl (p.ea rs1 off) (2 + dbl.toNat) (Tab.getD p.f rs2.toNat 0).toNat
      | .loadReserved dbl _ _ rd rs1 => s.porterLoad cl (p.rd rs1).toNat rd false (2 + dbl.toNat) false true
      | .storeConditional dbl _ _ rd rs1 rs2 => s.porterSc cl (p.rd rs1).toNat (2 + dbl.toNat) (p.rd rs2).toNat rd
      | .amo op dbl _ _ rd rs1 rs2 =>
        s.porterAmo cl (p.rd rs1).toNat (2 + dbl.toNat) (p.rd rs2).toNat (amoCode op dbl).1 (amoCode op dbl).2 rd)

/-- PORTER_FENCE (R120): a porter's access is performed before its next instruction begins, so nothing is left to order; while another
device's answer is out, the fence waits. -/
def execPorterFence (cl : Nat) (_pred _succ : BitVec 4) (s : State) : Host.Outcome State Fault Refusal :=
  .next (if s.porterWaits cl then s else s.modPorter cl Porter.next)

end Sys2Proof.Machine
end

