-- ==== Sys2Proof/Machine/Link.lean ====
section
/-! DEFINITION. Host accesses (R367 to R370), Pamon Link (R373 to R377) and its streams (R401, R402). -/

namespace Sys2Proof.Machine

/-! ## Host accesses -/

/-- CXL.mem is usable: HBM and CXLMEM stand in READY, and in confidential mode an IDE key is set (R367, R368, R384, R398). -/
def State.cxlOpen (s : State) : Bool :=
  s.host.ready.getLsbD 2 && s.host.ready.getLsbD 3 && (!s.trust.conf || s.trust.ideKeys != [])

/-- n bytes written by the host, atom by atom; an atom covered whole loses its mark (R405). -/
def State.hostWriteBytes (s : State) (pa n x : Nat) : State :=
  (List.range ((pa + n + 31) / 32 - pa / 32)).foldl (fun (s : State) i =>
    let lo := max pa (32 * (pa / 32 + i))
    let hi := min (pa + n) (32 * (pa / 32 + i + 1))
    let s := s.agentWrite lo (hi - lo) (x / 256 ^ (lo - pa))
    if hi - lo = 32 then s.clearPoison lo else s) s

def State.hostReply (s : State) (r : HostReply) : State := { s with host := { s.host with reply := r } }

/-- The CXL DVSEC of function 0 as the host reads it: Memory_Active in bit 0, which follows READY.HBM, and Range Size above (R367,
R368). -/
def State.dvsec (s : State) : Nat := (s.host.ready.getLsbD 2).toNat + 2 * s.rel.hbmSize

/-- Bytes read for the host, which may then hold their half (R369). -/
def State.hostReads (s : State) (pa n : Nat) (own : Bool) : State × Option Nat :=
  let (s, r) := s.readBytes pa n 0
  (if own then s.modMem fun m => { m with hostHalves := NatSet.add m.hostHalves (pa / 64) } else s, r)

/-- HOST_CXL_MEM_ACCESS (R367 to R369, R405): a host address that the HDM decoder maps, applied at its home, or an error that changes no
byte. A RMW is one step at the home: its new bytes stand where it found the old ones. -/
def execHostCxlMemAccess (op : HostOp) (pa n : Nat) (s : State) : Host.Outcome State Fault Refusal :=
  let a := pa - s.host.hdmBase
  .next (if !s.cxlOpen || !decide (s.host.hdmBase ≤ pa ∧ a + n ≤ s.rel.hbmSize) then s.hostReply .error
    else
      match op with
      | .read own =>
        let (s, r) := s.hostReads a n own
        s.hostReply (match r with | some x => .data x | none => .poison)
      | .write x => (s.hostWriteBytes a n x).hostReply .written
      | .rmw old new =>
        match s.hostReads a n true with
        | (s, none) => s.hostReply .poison
        | (s, some x) => (if x = old then s.hostWriteBytes a n new else s).hostReply (.data x))

/-! ## Ports -/

/-- A port's replay count, saturating (R373, R381). -/
def State.countReplay (s : State) (p : Nat) : State :=
  { s with link := { s.link with
    ports := Tab.update s.link.ports p fun x => { x with crcErr := min 0xFFFF (x.crcErr + 1) } } }

/-- A port down: out of every mask of routes and groups (R374). -/
def State.portDown (s : State) (p : Nat) : State :=
  let clear (t : Tab (BitVec 16)) : Tab (BitVec 16) :=
    (t.map fun e => (e.1, e.2 &&& ~~~(BitVec.twoPow 16 p))).filter fun e => e.2 != 0
  { s with link := { s.link with
      ports := Tab.update s.link.ports p fun x => { x with lanes := 0, up := false }
      droute := clear s.link.droute, mcroute := clear s.link.mcroute } }.logError .portDown 4 p 0 1 0

/-- LANE_DROP (R373, R374): the port retrains at four lanes, then at two, then goes down. -/
def execLaneDrop (p : Nat) (s : State) : Host.Outcome State Fault Refusal :=
  .next (
    let x := Tab.getD s.link.ports p .fresh
    if !x.up then s
    else
      let s := s.logError .laneDrop 4 p 0 1 0
      if x.lanes ≤ 2 then s.portDown p
      else { s with link := { s.link with
        ports := Tab.set s.link.ports p { x with lanes := if 4 < x.lanes then 4 else 2 } } })

/-! ## Streams -/

def State.setStream (s : State) (i : Nat) (x : Stream) : State :=
  { s with trust := { s.trust with streams := Tab.set s.trust.streams i x } }

/-- The stream from a device, as PSSEL numbers it (R414). -/
def rxStream (dev : Nat) : Nat := dev + 4096

/-- A stream moved to its NEXT key (R401). -/
def Stream.switch (x : Stream) : Stream :=
  match x.next with
  | some (k, salt) =>
    { x with state := .run, cur := k, salt := salt, next := none, used := 0, phase := !x.phase, tagFails := 0, low := false }
  | none => x

/-- A received flit as its stream takes it: the stream after it, and whether it is delivered, or fails its tag (R401). -/
def Stream.receive (x : Stream) (conf phase tagOk plain : Bool) : Stream × Bool × Bool :=
  if plain then (x, x.state == .off && !conf, false)
  else if x.state != .run then (x, false, false)
  else if tagOk && phase == x.phase then ({ x with used := x.used + 1, tagFails := 0 }, true, false)
  else if tagOk && x.next.isSome then ({ x.switch with used := 1 }, true, false)
  else ({ x with tagFails := x.tagFails + 1 }, false, true)

/-- FLIT_RECEIVE (R373, R401): a flit of a bad CRC or tag is replayed, which the count tells; a good one delivers its request. -/
def execFlitReceive (port src : Nat) (phase crcOk tagOk plain : Bool) (req : Option (Nat × Nat × RemoteOp × Nat)) (s : State) :
    Host.Outcome State Fault Refusal :=
  .next (if !(Tab.getD s.link.ports port .fresh).up then s
    else if !crcOk then s.countReplay port
    else
      let (x, ok, fail) := (s.stream (rxStream src)).receive s.trust.conf phase tagOk plain
      let s := if plain then s else s.setStream (rxStream src) x
      if fail then s.countReplay port
      else
        match req with
        | some (dest, seq, op, off) =>
          if ok then { s with link := { s.link with incoming := s.link.incoming ++ [(⟨src, dest, seq, op, off⟩ : Incoming)] } } else s
        | none => s)

/-! ## Incoming requests (R374 to R376) -/

/-- How an incoming request is answered: a status for the requester, with data. -/
inductive Answer where
  | ok (data : Nat) | error | fresh | poisoned
  deriving DecidableEq, Repr

def Answer.code : Answer → Nat × Nat
  | .ok d => (0, d) | .error => (1, 0) | .fresh => (2, 0) | .poisoned => (3, 0)

/-- Bytes that a request touches. -/
def remoteSize : RemoteOp → Nat
  | .read n | .write n _ | .poison n => n
  | .atom _ t _ | .cas t .. | .red _ t _ | .reduce _ t .. => t.bytes

/-- A reduction element of another device applied, with the entry that a refusal makes (R405, R417). -/
def State.remoteRed (s : State) (pa op : Nat) (t : Ty) (b : Nat) : State :=
  let s := s.drainRed (.phys (lineOf pa))
  match s.applyRed pa op t b 0 with
  | (s, true) => s.logError .redPoison 1 (Config.homeSlice (lineOf pa)).val (32 * atomOf pa) 1 0
  | (s, false) => s

/-- A read-modify-write of another device. -/
def State.remoteRmw (s : State) (pa n : Nat) (new : Nat → Option Nat) : State × Answer :=
  match s.agentRead pa n 0 with
  | (s, .bad k) => (s, if k = 1 then .fresh else .poisoned)
  | (s, .data old) => (match new old with | some x => s.homeWrite pa n x | none => s, .ok old)

/-- An incoming operation applied at its homes. A REDUCE element applies once for its stamp (R376). -/
def State.applyRemote (s : State) (src pa : Nat) (op : RemoteOp) : State × Answer :=
  match op with
  | .read n =>
    match s.readBytes pa n 0 with
    | (s, some x) => (s, .ok x)
    | (s', none) => (s', if NatSet.has s.mem.poison (atomOf pa) then .poisoned else .fresh)
  | .write n x =>
    let s := s.writeRecord pa n x
    (if n = 32 ∧ pa % 32 = 0 then s.clearPoison pa else s, .ok 0)
  | .atom o t b => s.remoteRmw pa t.bytes fun old => some (newValue o t old b)
  | .cas t b c => s.remoteRmw pa t.bytes fun old => if old = b then some c else none
  | .red o t b => (s.remoteRed pa o t b, .ok 0)
  | .reduce o t b core u epoch chunk =>
    let st := (src, core, u, epoch, chunk, pa)
    if s.link.stamps.contains st then (s, .ok 0)
    else
      let kept := s.link.stamps.filter fun x => !(x.1 == src && x.2.1 == core && x.2.2.1 == u && x.2.2.2.1 != epoch)
      ({ s with link := { s.link with stamps := kept ++ [st] } }.remoteRed pa o t b, .ok 0)
  | .poison _ => ((s.drainRed (.phys (lineOf pa))).poisonAtom pa, .ok 0)

/-- The uses of other devices that the reduction queues hold open (R376). -/
def Link.openUses (l : Link) : Nat := ((l.stamps.map fun x => (x.1, x.2.1, x.2.2.1)).dedup).length

/-- A use's entry freed: its device has reported the use's end (R376). -/
def State.endRemoteUse (s : State) (dev core use : Nat) : State :=
  { s with link := { s.link with stamps := s.link.stamps.filter fun x => !(x.1 == dev && x.2.1 == core && x.2.2.1 == use) } }

/-- The first chunk of a use that finds 4,096 open is refused, and sent again. -/
def State.refusesUse (s : State) (x : Incoming) : Bool :=
  match x.op with
  | .reduce _ _ _ core u .. =>
    decide (4096 ≤ s.link.openUses) && !(s.link.stamps.any fun (y : Nat × Nat × Nat × Nat × Nat × Nat) => y.1 == x.src && y.2.1 == core && y.2.2.1 == u)
  | _ => false

/-- The request names this device, or a group it has joined (R374, R375). -/
def State.named? (s : State) (dest : Nat) : Bool :=
  if 0xF00 ≤ dest then s.link.mcjoin.getLsbD (dest - 0xF00) else s.link.devValid && dest == s.link.devNum.toNat

/-- An earlier request of the same device stands before this one at its line (R102, R374). -/
def Incoming.behind (x : Incoming) (l : List Incoming) : Bool := l.any fun y => y.src == x.src && lineOf y.off == lineOf x.off

/-- The bytes lie in the exported window (R374). -/
def State.exports (s : State) (off n : Nat) : Bool :=
  decide (s.link.rwbase ≤ off ∧ off + n ≤ s.link.rwbase + s.link.rwsize) && s.inHbm (off + n - 1)

/-- An answer sent, unless the stream to the device is DOWN (R402): one stands for each request of a device. -/
def State.answer (s : State) (x : Incoming) (a : Answer) : State :=
  if s.streamDown x.src then s
  else
  { s with link := { s.link with
      answers := s.link.answers.filter (fun (y : Nat × Nat × Nat × Nat × Nat) => !(y.1 == x.dest && y.2.1 == x.src && y.2.2.1 == x.seq)) ++
        [(x.dest, x.src, x.seq, a.code)] } }.countFlit x.src

/-- Where the numbers applied of a request's device stand: by the destination that it numbers for (R375, R376). -/
def Incoming.stream (x : Incoming) : Nat := 4096 * x.dest + x.src

/-- A number applied; those half the number space behind it are of no more use, since at most 4,096 requests are unacknowledged (R376). -/
def noteApplied (l : NatSet) (n : Nat) : NatSet := (NatSet.add l n).filter fun x => (n + 2 ^ 32 - x) % 2 ^ 32 < 2 ^ 31

/-- REMOTE_REQUEST (R374 to R376): served at most once and acknowledged, once the stream back sends (R402); outside the exported window,
an error. -/
def execRemoteRequest (i : Nat) (s : State) : Host.Outcome State Fault Refusal :=
  .next (match s.link.incoming[i]? with
    | none => s
    | some x =>
      if x.behind (s.link.incoming.take i) || s.muted x.src then s
      else
        let s1 := { s with link := { s.link with incoming := s.link.incoming.eraseIdx i } }
        if !s.named? x.dest || s.refusesUse x then s1
        else if NatSet.has (Tab.getD s.link.applied x.stream []) x.seq then s1.countFlit x.src
        else if !s.exports x.off (remoteSize x.op) then s1.answer x .error
        else
          let (s2, a) := s1.applyRemote x.src x.off x.op
          { s2 with link := { s2.link with
              applied := Tab.set s2.link.applied x.stream (noteApplied (Tab.getD s2.link.applied x.stream []) x.seq) } }.answer x a)

/-! ## Outstanding requests -/

/-- A producer of a thread, whether its own or its slice's. -/
def Gang.producer (g : Gang) (lane id : Nat) : Option Producer :=
  match (g.thread lane).pend.find? fun q => q.id = id with
  | some q => some q
  | none => (g.slice (lane / 4)).pend.find? fun q => q.id = id

/-- A producer replaced. -/
def Gang.setProducer (g : Gang) (lane : Nat) (q : Producer) : Gang :=
  let put (l : List Producer) : List Producer := l.map fun x => if x.id = q.id then q else x
  (g.modThread lane fun t => { t with pend := put t.pend }).modSlice (lane / 4) fun x => { x with pend := put x.pend }

/-- The producers of a gang that await a request, each with its LANE: those of all LANEs whose bytes it reads (R81). -/
def Gang.awaiting (g : Gang) (id : Nat) : List (Nat × Producer) :=
  (List.range g.width).filterMap fun l => ((g.producer l id).filter fun q => q.members.getLsbD l).map fun q => (l, q)

/-- A producer that has its value. -/
def Producer.answered (q : Producer) (data : Nat) : Producer :=
  { q with value := if q.isLoad then loadPattern q.ty (mergeBytes data q.fwd) else data, ready := true }

/-- The answer to a thread's load or read-modify-write: its value, or its trap (R375 to R377). -/
def State.loadAnswered (s : State) (k id va lv : Nat) (write : Bool) (status data : Nat) : State :=
  match s.gang? k with
  | none => s
  | some g =>
    match g.awaiting id with
    | [] => s
    | (l, q) :: rest =>
      if status = 0 then
        let s := s.modGang k fun g => ((l, q) :: rest).foldl (fun (g : Gang) y => g.setProducer y.1 (y.2.answered data)) g
        match q.acq with
        | some sc => s.acquireL1 (coreOf k) sc
        | none => s
      else
        let c : Cause := if status = 1 then .remoteUnreachable else .dataPoison
        (s.trapLanes k q.pc q.insn (((l, q) :: rest).map fun y =>
          ⟨y.1, c, if write then 2 else 0, if status = 1 then lv else 0, if status = 1 then 0 else status - 1, q.ty.bytes, 0,
            BitVec.ofNat 64 va⟩)).settle k

/-- The operation changes memory. -/
def remoteChanges : RemoteOp → Bool
  | .read _ => false
  | _ => true

/-- The answer to a request of a chunk: an element read, or a write acknowledged; a failure stops the chunk and pauses the use, and an
element whose read failed is read again once it is resumed (R341 to R343, R377). -/
def State.chunkAnswered (s : State) (r : RemoteReq) (core u n : Nat) (va : Int) (lv status data : Nat) : State :=
  match Tab.get? (s.core core).uses u with
  | none => s
  | some x =>
    match x.bufs.find? fun b => b.n = n with
    | none => s
    | some b =>
      if remoteChanges r.op then
        if status = 0 then
          (s.dropChunkL1 core x (.glob 0 (.remote r.dev r.off) (2 ^ 51 + r.dev * 2 ^ 39 + r.off))).ackChunk core u n
        else
          (s.setUse core u (x.setBuf { b with written := false })).pauseUse core u n .remoteUnreachable
            (if rMode x.record = 5 then 2 else 1) lv va
      else
        let e := ((b.pending.find? fun (p : Nat × Nat × Nat) => p.1 = r.dev ∧ p.2.1 = r.seq).map fun p => p.2.2).getD b.elems.length
        let b := { b with pending := b.pending.filter fun (p : Nat × Nat × Nat) => !(p.1 == r.dev && p.2.1 == r.seq) }
        if status = 1 then
          (s.setUse core u (x.setBuf { b with unread := b.unread ++ [(e, va)] })).pauseUse core u n .remoteUnreachable 0 lv va
        else
          s.setUse core u (x.setBuf { b with
            elems := b.elems.mapIdx fun i (y : Int × Nat × Bool) => if i = e then (y.1, data, status != 0) else y })

/-- The answer to a drive's DMA (R378). -/
def State.driveAnswered (s : State) (d : Nat) (op : RemoteOp) (status data : Nat) : State :=
  { s with drives := Tab.update s.drives d fun x => { x with
    reply := if status = 1 then .error else if status ≠ 0 then .poison else if remoteChanges op then .written else .data data } }

/-- What the answer to a request brings to whatever made it. -/
def State.answerTo (s : State) (r : RemoteReq) (status data : Nat) : State :=
  match r.src with
  | .porter cl rd fp w unsigned va =>
    if status ≠ 0 then s.porterExcept cl (if remoteChanges r.op then .storeFault else .loadFault) va
    else
      s.modPorter cl fun p => match rd with
        | some d => (p.loaded d fp w unsigned data).next
        | none => p.next
  | .buffer cl va pa x write =>
    if status ≠ 0 then (s.modPorter cl fun p => { p with buffer := none }).porterExcept cl (if write then .storeFault else .loadFault) va
    else s.modPorter cl fun p => { p with buffer := some (pa, if write then x else data) }
  | .load k _ id va lv => s.loadAnswered k id va lv (remoteChanges r.op) status data
  | .store tag .. => if status = 0 then s else s.storeFailed (2 ^ 51 + r.dev * 2 ^ 39 + r.off) tag
  | .fill core asid va pa => if status = 0 then s.putL1 core asid va pa data else s
  | .parcel cl pa => s.modPorter cl fun p => { p with parcels := (pa, status, data) :: p.parcels }
  | .chunk core u n va lv => s.chunkAnswered r core u n va lv status data
  | .done lid => s.doneAnswered lid status
  | .walk id => { s with walking := s.walking.map fun w => if w.id = id then { w with got := some (status, data) } else w }
  | .piece pa => { s with dist := { s.dist with pieces := (pa, status, data) :: s.dist.pieces } }
  | .drive d => s.driveAnswered d r.op status data
  | .fetch core pa => s.modCore core fun c =>
      if status = 0 then { c with icache := Tab.set c.icache (pa / 4) (BitVec.ofNat 32 data) }
      else { c with fetchFail := Tab.set c.fetchFail (pa / 4) status }

/-- The answer to an outstanding request of this device; completion blocks that waited for room go on (R349). -/
def State.answered (s : State) (r : RemoteReq) (status data : Nat) : State :=
  ({ s with link := { s.link with
      requests := s.link.requests.filter fun x => !(x.dev == r.dev && x.seq == r.seq) } }.answerTo r status data).pushDones

/-- The request toward a device that a number names. -/
def State.request? (s : State) (dev seq : Nat) : Option RemoteReq := s.link.requests.find? fun r => r.dev = dev ∧ r.seq = seq

/-- The request has not left: its stream is STOPPED since before it, DOWN, or, in confidential mode, has no key (R398, R402). -/
def State.unsent (s : State) (r : RemoteReq) : Bool :=
  let x := s.stream r.dev
  match (if 0xF00 ≤ r.dev then .run else x.state : StreamState) with
  | .off => s.trust.conf
  | .run => false
  | .stopped => decide (x.since ≤ r.sent)
  | .down => true

/-- REMOTE_ACK (R374 to R376): status 0, or 1 an error, 2 and 3 an uncorrectable error of the data. A request to a group is over once every
member has acknowledged it, or one has failed it; its data names the member. -/
def execRemoteAck (dev seq status data : Nat) (s : State) : Host.Outcome State Fault Refusal :=
  .next (match s.request? dev seq with
    | none => s
    | some r =>
      let left := r.left.filter (· ≠ data)
      if s.unsent r then s
      else if 0xF00 ≤ dev ∧ status = 0 ∧ left ≠ [] then
        { s with link := { s.link with requests := s.link.requests.map fun (x : RemoteReq) =>
          if x.dev = dev ∧ x.seq = seq then { x with left := left } else x } }
      else s.answered r status data)

/-- The port after a port in a mask, around. -/
def nextPort (m : BitVec 16) (p : Nat) : Nat :=
  match (portsOf m).find? fun q => p < q with
  | some q => q
  | none => (portsOf m).headD p

/-- The timers of a request run: its stream is not STOPPED (R402). -/
def State.timersRun (s : State) (dev : Nat) : Bool := (s.stream dev).state != .stopped

/-- REMOTE_RETRANSMIT (R376): after 20 µs, on another port of the mask. -/
def execRemoteRetransmit (dev seq : Nat) (s : State) : Host.Outcome State Fault Refusal :=
  .next (match s.request? dev seq with
    | none => s
    | some r =>
      if s.timersRun dev && !s.keySpent dev && decide (r.sent + 20 * Config.cyclesPerUs ≤ s.clock) && portsOf (s.routeMask dev) != [] then
        { s with link := { s.link with requests := s.link.requests.map fun (x : RemoteReq) =>
            if x.dev = dev ∧ x.seq = seq then { x with port := nextPort (s.routeMask dev) x.port, sent := s.clock } else x } }.countFlit dev
      else s)

/-- REMOTE_REQUEST_FAIL (R377): after 2 ms. -/
def execRemoteRequestFail (dev seq : Nat) (s : State) : Host.Outcome State Fault Refusal :=
  .next (match s.request? dev seq with
    | none => s
    | some r =>
      if s.timersRun dev && decide (r.first + 2000 * Config.cyclesPerUs ≤ s.clock) then s.answered r 1 0 else s)

/-! ## Keys (R401, R402) -/

/-- A stream back in RUN: the timers of its requests were held while it was STOPPED, and those queued leave (R402). -/
def State.resumeStream (s : State) (i : Nat) (x : Stream) : State :=
  let old := s.stream i
  let s1 := s.setStream i x
  if old.state = .stopped ∧ i < 4096 then
    let d := s.clock - old.since
    let queued := (s.link.requests.filter fun r => r.dev = i ∧ old.since ≤ r.sent).length
    { s1.setStream i { x with used := x.used + queued } with
      link := { s1.link with requests := s1.link.requests.map fun (r : RemoteReq) =>
        if r.dev = i then
          (if old.since ≤ r.sent then { r with sent := s.clock, first := s.clock }
           else { r with sent := r.sent + d, first := r.first + d })
        else r } }
  else s1

/-- The fields of a PSKEY commit (R414). -/
def Commit.streamOf (c : Commit) : Nat := bits (c.dword 0) 0 13
def Commit.pskNext (c : Commit) : Bool := bits (c.dword 0) 13 1 == 1
def Commit.pskSwitch (c : Commit) : Bool := bits (c.dword 0) 14 1 == 1
def Commit.key (c : Commit) : BitVec 256 := BitVec.ofNat 256 (c.dword 1 + 2 ^ 64 * c.dword 2 + 2 ^ 128 * c.dword 3 + 2 ^ 192 * c.dword 4)
def Commit.salt (c : Commit) : W32 := BitVec.ofNat 32 (bits (c.dword 0) 32 32)

/-- A key loaded: into NEXT, which returns a STOPPED or DOWN stream to RUN, or into CUR, with its counter at 0 (R401, R402). -/
def State.loadKey (s : State) (c : Commit) : State :=
  let i := c.streamOf
  let x := s.stream i
  if c.pskNext then
    let y := { x with next := some (c.key, c.salt) }
    if x.state = .stopped ∨ x.state = .down then s.resumeStream i y.switch else s.setStream i y
  else
    s.resumeStream i { x with state := .run, cur := c.key, salt := c.salt, used := 0, tagFails := 0, low := false }

/-- The register PSKEY. -/
def pskeyReg : Nat := regSpace + 0x122000

/-- PSKEY_COMMIT (R401): a write with SWITCH clear. -/
def execPskeyCommit (s : State) : Host.Outcome State Fault Refusal :=
  .next (match s.takeCommit (· == pskeyReg) with
    | none => s
    | some (c, s1) => if c.pskSwitch then s else s1.loadKey c)

/-- PSKEY_SWITCH (R401): a write with SWITCH set loads its key, and the stream goes over to NEXT. -/
def execPskeySwitch (dev : Nat) (s : State) : Host.Outcome State Fault Refusal :=
  .next (match s.takeCommit (· == pskeyReg) with
    | none => s
    | some (c, s1) =>
      if c.pskSwitch && c.streamOf % 4096 == dev then
        let s2 := s1.loadKey c
        let x := s2.stream c.streamOf
        if x.next.isSome then s2.resumeStream c.streamOf x.switch else s2
      else s)

/-- KEYLOW (R401): one entry for each key. -/
def execKeylow (dev : Nat) (s : State) : Host.Outcome State Fault Refusal :=
  .next (
    let x := s.stream dev
    if x.state == .run && !x.low && decide (2 ^ 35 ≤ x.used) then
      (s.setStream dev { x with low := true }).logError .keylow 4 dev 0 1 0
    else s)

/-- KEY_LIMIT (R401, R402): NEXT, or STOPPED. -/
def execKeyLimit (dev : Nat) (s : State) : Host.Outcome State Fault Refusal :=
  .next (
    let x := s.stream dev
    if x.state == .run && decide (2 ^ 36 ≤ x.used) then
      s.setStream dev (if x.next.isSome then x.switch else { x with state := .stopped, since := s.clock })
    else s)

/-- A stream DOWN: its entry, and every request of a transmitting stream fails (R402). -/
def State.downStream (s : State) (i : Nat) : State :=
  let s := (s.setStream i { s.stream i with state := .down }).logError .streamDown 4 (i % 4096) 0 1 0
  (s.link.requests.filter fun r => r.dev = i).foldl (fun (s : State) r => s.answered r 1 0) s

/-- STREAM_DOWN (R402): STOPPED for 100 ms. -/
def execStreamDown (dev : Nat) (s : State) : Host.Outcome State Fault Refusal :=
  .next (
    let x := s.stream dev
    if x.state == .stopped && decide (x.since + 100000 * Config.cyclesPerUs ≤ s.clock) then s.downStream dev else s)

/-- STREAM_TAG_FAILURES (R401): sixteen in a row on the stream from a device. -/
def execStreamTagFailures (dev : Nat) (s : State) : Host.Outcome State Fault Refusal :=
  .next (
    let x := s.stream (rxStream dev)
    if x.state == .run && decide (16 ≤ x.tagFails) then s.downStream (rxStream dev) else s)

end Sys2Proof.Machine
end

