-- ==== Sys2Proof/Machine/Complex.lean ====
section
/-! DEFINITION. The NVMe and Ethernet complex (R378 to R381). -/

namespace Sys2Proof.Machine

/-! ## NVMe -/

def State.drive (s : State) (d : Nat) : Drive := Tab.getD s.drives d .fresh
def State.setDrive (s : State) (d : Nat) (x : Drive) : State := { s with drives := Tab.set s.drives d x }

/-- NVME_MSIX (R378): a message on the drive's channel, held while that is full. -/
def execNvmeMsix (d vec : Nat) (s : State) : Host.Outcome State Fault Refusal :=
  .next (
    let x := s.drive d
    let m : Message := ⟨(Config.deviceSender s.freeCtr).val, BitVec.ofNat 512 (d + 2 ^ 16 * (vec % 2 ^ 16))⟩
    let s := { s with freeCtr := s.freeCtr + 1 }
    if x.held ≠ [] then s.setDrive d { x with held := x.held ++ [m] }
    else
      match s.sendChannel (x.irqChan % 64) (x.irqChan / 64 % 4) m with
      | (s, true) => s
      | (s, false) => s.setDrive d { x with held := [m] })

/-- Bytes of this device's HBM or of the host: what a drive, a ring or a frame buffer reaches. -/
def State.plainRange (s : State) (pa n : Nat) : Bool :=
  let ok (a : Nat) : Bool := match s.target a with | .hbm _ | .host _ => true | _ => false
  ok pa && ok (pa + n - 1)

/-- The bytes of another device, or of a group for a write, that a DMA names. -/
def State.farRange (s : State) (wr : Bool) (pa n : Nat) : Option (Nat × Nat) :=
  match s.target pa, s.target (pa + n - 1) with
  | .remote dev off, .remote dev' _ => if dev = dev' ∧ (wr || decide (dev < 0xF00)) then some (dev, off) else none
  | _, _ => none

/-- NVME_DMA (R378): inside the drive's window, or completed with an error. One for another device's memory completes with that device's
answer; while the window toward it is full it is not taken yet. -/
def execNvmeDma (d : Nat) (wr : Bool) (pa : Nat) (data : List (BitVec 8)) (s : State) : Host.Outcome State Fault Refusal :=
  .next (
    let x := s.drive d
    let n := data.length
    let fin (s : State) (r : HostReply) : State := s.setDrive d { s.drive d with reply := r }
    if !decide (x.dmaBase ≤ pa ∧ pa + n ≤ x.dmaBase + x.dmaSize) then fin s .error
    else if let some (dev, off) := s.farRange wr pa n then
      match s.sendRemote (4 * Config.numClusters) dev off (if wr then .write n (natOfBytes data) else .read n) (.drive d) with
      | some s => fin s .none
      | none => s
    else if !s.plainRange pa n then fin s .error
    else if wr then fin (s.writeRecord pa n (natOfBytes data)) .written
    else
      match s.readBytes pa n 0 with
      | (s, some v) => fin s (.data v)
      | (s, none) => fin s .poison)

/-! ## Rings (R380) -/

def State.pair (s : State) (q : Nat) : QueuePair := Tab.getD s.pairs q .fresh
def State.setPair (s : State) (q : Nat) (x : QueuePair) : State := { s with pairs := Tab.set s.pairs q x }

/-- Descriptors of each ring. -/
def QueuePair.ring (x : QueuePair) : Nat := 2 ^ (min (bits x.cfg 0 4) 11 + 4)
def QueuePair.enabled (x : QueuePair) : Bool := bits x.cfg 13 1 == 1
/-- Descriptors from one index up to another. -/
def QueuePair.span (x : QueuePair) (head tail : Nat) : Nat := (tail % x.ring + x.ring - head % x.ring) % x.ring

/-- The address of a descriptor. -/
def QueuePair.descAt (x : QueuePair) (base i : Nat) : Nat := base + 32 * (i % x.ring)

/-- A descriptor read; one that cannot be read counts as malformed (log 40). -/
def State.readDesc (s : State) (pa : Nat) : State × Option Nat :=
  if s.plainRange pa 32 then s.readBytes pa 32 0 else (s, none)

/-- The descriptor obeys the table of R380, and names bytes that the device reaches. -/
def State.descOk (s : State) (d : Nat) : Bool :=
  bits d 52 12 == 0 && d / 2 ^ 83 == 0 && bits d 64 16 != 0 && s.plainRange (bits d 0 52) (bits d 64 16)

/-- A descriptor written back with DONE. -/
def State.doneDesc (s : State) (pa d len : Nat) (eop err : Bool) : State :=
  if s.plainRange pa 32 then
    s.writeRecord pa 32 (setBits (setBits (setBits (setBits d 64 16 len) 80 1 eop.toNat) 81 1 1) 82 1 err.toNat)
  else s

/-- The message of NOTIFY, unless an earlier one is unanswered (R380; log 19). -/
def State.notify (s : State) (q : Nat) : State :=
  let x := s.pair q
  if bits x.cfg 12 1 = 1 ∧ !x.waiting then
    let m : Message := ⟨(Config.deviceSender s.freeCtr).val, Config.deviceMessage s.freeCtr⟩
    let c := bits x.cfg 4 8
    match { s with freeCtr := s.freeCtr + 1 }.sendChannel (c % 64) (c / 64 % 4) m with
    | (s, true) => s.setPair q { x with waiting := true }
    | (s, false) => s
  else s

/-- The commit of a queue-pair register at the head, with its new index. -/
def State.takeTail (s : State) (o : Nat) : Option (Nat × Nat × State) :=
  (s.takeCommit (· == regSpace + 0x200000 + o)).map fun x => (x.1.index, bits (x.1.dword 0) 0 16, x.2)

/-- ETH_TX_TAIL (R380). -/
def execEthTxTail (s : State) : Host.Outcome State Fault Refusal :=
  .next (match s.takeTail 24 with
    | none => s
    | some (q, i, s) => s.setPair q { s.pair q with txTail := i, waiting := false })

/-- ETH_RX_TAIL (R380). -/
def execEthRxTail (s : State) : Host.Outcome State Fault Refusal :=
  .next (match s.takeTail 40 with
    | none => s
    | some (q, i, s) => s.setPair q { s.pair q with rxTail := i, waiting := false })

/-- Some descriptor among the next n of a transmit ring ends its frame. -/
def State.hasEop (s : State) (x : QueuePair) : Nat → Nat → Bool
  | 0, _ => false
  | n + 1, i => bits (((s.readDesc (x.descAt x.txBase i)).2).getD 0) 80 1 == 1 || s.hasEop x n (i + 1)

/-- The longest frame (R379). -/
def maxFrame : Nat := 9216

/-- A frame with its FCS (R379): the CRC-32 of IEEE 802.3, least significant byte first. -/
def withFcs (l : List Byte) : List Byte := l ++ bytesOfNat 4 (crc32 l).toNat

/-- A descriptor's bytes join the frame being sent; the frame leaves at its EOP, and does not where a descriptor of it was malformed
(R380). -/
def QueuePair.feed (x : QueuePair) (l : List Byte) (eop bad : Bool) : QueuePair :=
  let part := x.txPart ++ l
  let bad := x.txBad || bad
  if eop then { x with txPart := [], txBad := false, sent := if bad then x.sent else x.sent ++ [withFcs part] }
  else { x with txPart := part, txBad := bad }

/-- ETH_TX_COMPLETE (R379, R380): the descriptor at TXHEAD is written back once its frame is whole, or because it is malformed; a buffer
that cannot be read, or one with which the frame passes 9,216 bytes, makes it so (log 40). -/
def execEthTxComplete (q : Nat) (s : State) : Host.Outcome State Fault Refusal :=
  .next (
    let x := s.pair q
    let n := x.span x.txHead x.txTail
    if !x.enabled || n == 0 then s
    else
      let pa := x.descAt x.txBase x.txHead
      let (s1, d) := s.readDesc pa
      let wrong := match d with | some d => !s.descOk d | none => true
      if !wrong && !s.hasEop x n x.txHead then s
      else
        let d := d.getD 0
        let len := bits d 64 16
        let (s2, y) := if wrong then (s1, none) else s1.readBytes (bits d 0 52) len 0
        let bad := y.isNone || decide (maxFrame < x.txPart.length + len)
        let x := x.feed (if bad then [] else bytesOfNat len (y.getD 0)) (bits d 80 1 == 1) bad
        ((s2.doneDesc pa d len (bits d 80 1 == 1) bad).setPair q { x with txHead := (x.txHead + 1) % x.ring }).notify q)

/-! ## Frames received -/

/-- The frame is an IPv4 TCP or UDP one. -/
def isFlow (l : List Byte) : Bool :=
  l.getD 12 0 == 8 && l.getD 13 0 == 0 && (l.getD 14 0).toNat / 16 == 4 && (l.getD 23 0 == 6 || l.getD 23 0 == 17)

/-- The protocol, the addresses and the ports of such a frame. -/
def flowOf (l : List Byte) : List Byte :=
  (l.drop 23).take 1 ++ (l.drop 26).take 8 ++ (l.drop (14 + 4 * ((l.getD 14 0).toNat % 16))).take 4

/-- The queue pair of a frame (R379). -/
def State.steer (s : State) (p : Nat) (l : List Byte) : Nat :=
  let on := ((List.range 64).map (64 * p + ·)).filter fun q => (s.pair q).enabled
  if isFlow l ∧ on ≠ [] then on.getD (Config.flowHash (flowOf l) % on.length) (64 * p) else 64 * p

/-- The descriptors that a frame fills: each with its address, its contents and the bytes it takes; malformed ones are written back at
once and passed over. The answer tells what is left of the frame, and how many descriptors were passed. -/
def State.fillRing (x : QueuePair) : Nat → Nat → List Byte → State → State × List (Nat × Nat × Nat) × List Byte × Nat
  | 0, _, l, s => (s, [], l, 0)
  | n + 1, i, l, s =>
    if l = [] then (s, [], l, 0)
    else
      let pa := x.descAt x.rxBase i
      let (s, d) := s.readDesc pa
      let d' := d.getD 0
      if d.isNone || !s.descOk d' then
        let (s, r, left, k) := State.fillRing x n (i + 1) l (s.doneDesc pa d' (bits d' 64 16) false true)
        (s, r, left, k + 1)
      else
        let m := min (bits d' 64 16) l.length
        let s := s.writeRecord (bits d' 0 52) m (natOfBytes (l.take m))
        let (s, r, left, k) := State.fillRing x n (i + 1) (l.drop m) s
        (s, (pa, d', m) :: r, left, k + 1)

/-- The descriptors of a frame written back, EOP on the last. -/
def State.closeFrame (s : State) (l : List (Nat × Nat × Nat)) (err : Bool) : State :=
  (l.mapIdx fun i y => (i, y)).foldl (fun (s : State) (y : Nat × Nat × Nat × Nat) =>
    s.doneDesc y.2.1 y.2.2.1 y.2.2.2 (decide (y.1 + 1 = l.length)) err) s

/-- ETH_RX_FRAME (R379, R380): written, cut short, or dropped whole; `bad` says that its FCS is wrong. What is longer than 9,216 bytes is no
frame, and goes nowhere (log 40). -/
def execEthRxFrame (p : Nat) (frame : List (BitVec 8)) (bad : Bool) (s : State) : Host.Outcome State Fault Refusal :=
  .next (
    let q := s.steer p frame
    let x := s.pair q
    let drop (x : QueuePair) : QueuePair := { x with rxDrop := min (x.rxDrop + 1) 0xFFFFFFFF }
    let n := x.span x.rxHead x.rxTail
    if maxFrame < frame.length then s
    else if !x.enabled || n == 0 then s.setPair q (drop x)
    else
      let (s, l, left, k) := State.fillRing x n x.rxHead frame s
      let y := { x with rxHead := (x.rxHead + k) % x.ring }
      ((s.closeFrame l (bad || left != [])).setPair q (if left = [] then y else drop y)).notify q)

end Sys2Proof.Machine
end

