-- ==== Sys2Proof/Machine/Boot.lean ====
section
/-! DEFINITION. Release, the lease scrub and bring-up: R382 to R388, R392 to R397, R403, R412. -/

namespace Sys2Proof.Machine

def State.modTrust (s : State) (f : Trust → Trust) : State := { s with trust := f s.trust }
def State.modHost (s : State) (f : HostRegs → HostRegs) : State := { s with host := f s.host }

/-! ## Measurement (R393) -/

/-- 32 bytes of a hash. -/
def hashBytes (h : BitVec 256) : List Byte := bytesOfNat 32 h.toNat

/-- A measurement register extended with some bytes. -/
def Trust.extend (t : Trust) (i : Nat) (d : List Byte) : Trust :=
  { t with meas := Tab.set t.meas i (Config.sha3_256 (hashBytes (Tab.getD t.meas i 0) ++ d)) }

/-! ## Images (R390, R392) -/

/-- The fields of an image in management SRAM. -/
structure ImageView where
  kind : Nat
  slot : Nat
  svn : Nat
  length : Nat
  pubKey : List Byte
  signature : List Byte
  digest : BitVec 256
  shaped : Bool
  deriving DecidableEq, Repr

/-- An image of n bytes read as R392 lays it out: header, key, signature, zeros, payload. -/
def viewImage (m : Mem) (n : Nat) : ImageView :=
  let h := Mem.readN m 0 64
  let len := bits h 64 64
  let kind := bits h 32 4
  let header := Mem.readBytes m 0 64
  { kind := kind, slot := bits h 36 4, svn := bits h 40 8, length := len
    pubKey := Mem.readBytes m 64 1312, signature := Mem.readBytes m 1376 2420
    digest := Config.sha3_256 (header ++ Mem.readBytes m 4096 len)
    shaped := bits h 0 32 == 0x53474D49 && bits h 48 16 == 0 && h / 2 ^ 128 == 0 && len % 4096 == 0 &&
      decide (4096 + len ≤ n) && (kind == 2 || decide (len ≤ 2 ^ 22 - 4096)) &&
      (Mem.readBytes m 3796 300).all (· == 0) }

/-- The hash that stands in the fuses of slot k: those of slots 0 and 1 are blown at manufacture (R390; log 17). -/
def Trust.fused (t : Trust) (k : Nat) : BitVec 256 := if k < 2 then Config.factoryKey k else Tab.getD t.fuses k 0

/-- Slot k may sign an image of a kind that comes from a source (R383, R390, R403). -/
def Trust.slotAllows (t : Trust) (k kind source : Nat) : Bool :=
  !NatSet.has t.revoked k && (decide (k < 2) || Tab.getD t.slots k 0 != 0) &&
    (if k < 2 then decide (1 ≤ kind ∧ kind ≤ 3)
     else if k < 6 then kind == 3 || (decide (1 ≤ kind ∧ kind ≤ 2) && source == 2)
     else k == 6 && kind == 2 && !t.recovery)

/-- An image passes (R392). -/
def Trust.verify (t : Trust) (v : ImageView) (kind source : Nat) : Bool :=
  v.shaped && v.kind == kind && decide (v.slot ≤ 6) && t.slotAllows v.slot kind source &&
    Config.sha3_256 v.pubKey == Tab.getD t.slots v.slot 0 && decide (Tab.getD t.svn kind 0 ≤ v.svn) &&
    Config.mldsaVerify v.pubKey v.digest v.signature

/-! ## Reset -/

/-- HBM while some pseudo-channels are retired: 1.5 GiB less for each (R412). -/
def hbmBytesLess (n : Nat) : Nat := Config.hbmBytes - n * 0x60000000

/-- What a reset leaves of memory: the host's bytes, and, outside confidential mode, HBM's (R388, R400; log 42). -/
def State.memAfterReset (s : State) : MemState :=
  let keep (a : Nat) : Bool := decide (Config.hbmBytes ≤ a) || !s.trust.conf
  { MemState.fresh with
    bytes := s.mem.bytes.filter fun c => keep c.1
    poison := s.mem.poison.filter fun a => keep (32 * a)
    latent := s.mem.latent.filter fun a => keep (32 * a)
    hostErrs := s.mem.hostErrs }

/-- The device reset: volatile state and the HBM key are gone; what stays are the fuses, the BOOTSTAT fields of R387, the rows spared
and the channels retired, what the last release sampled, and the model's own fields (R387, R388, R389, R412; log 42). -/
def State.volatileReset (s : State) : State :=
  let t := s.trust
  let gone := s.rel.nextRetired.foldl NatSet.add s.rel.retiredChannels
  { State.reset with
    agenda := s.agenda, freeCtr := s.freeCtr, seqCtr := s.seqCtr, mem := s.memAfterReset
    host := { HostRegs.fresh with fails := s.host.fails, reason := s.host.reason, bootcfg := s.host.bootcfg, xipbase := s.host.xipbase }
    trust := { Trust.fresh with
      pinScrub := t.pinScrub, pinConf := t.pinConf, pinRecovery := t.pinRecovery, prevConf := t.prevConf, nextConf := t.nextConf
      recovery := t.recovery, slots := t.slots, revoked := t.revoked, fuses := t.fuses, fuseRevoked := t.fuseRevoked
      svn := t.svn, lease := t.lease }
    rel := { Reliability.fresh with
      spareRows := s.rel.spareRows, spared := s.rel.spared, retiredChannels := gone, hbmSize := hbmBytesLess gone.length } }

/-- DEVICE_RESET (R388): the device is held; its lease and boot blocks are to be written anew. -/
def execDeviceReset (s : State) : Host.Outcome State Fault Refusal :=
  .next (s.volatileReset.modTrust fun t => { t with lease := 0, recovery := false, slots := [], revoked := [] })

/-- STANDBY_POWER_LOSS (R387): FAILS and REASON go too, and with them all that HBM held. -/
def execStandbyPowerLoss (s : State) : Host.Outcome State Fault Refusal :=
  .next (
    let r := (s.volatileReset.modTrust fun t => { t with lease := 0, recovery := false, slots := [], revoked := [] }).modHost fun h =>
      { h with fails := 0, reason := 0, bootcfg := 0, xipbase := 0 }
    let host (a : Nat) : Bool := decide (Config.hbmBytes ≤ 32 * a)
    { r with mem := { r.mem with
      bytes := r.mem.bytes.filter fun c => decide (Config.hbmBytes ≤ c.1)
      poison := r.mem.poison.filter host, latent := r.mem.latent.filter host } })

/-! ## Blocks of the platform root of trust (R386, R388) -/

/-- The head of what came over I3C while the device is held, where it has n bytes. -/
def State.heldBlock (s : State) (n : Nat) : Option (List Byte × State) :=
  match s.trust.inbox with
  | m :: rest => if s.trust.phase == .held && m.length == n then some (m, s.modTrust fun t => { t with inbox := rest }) else none
  | [] => none

/-- LEASE_BLOCK_WRITE (R388). -/
def execLeaseBlockWrite (s : State) : Host.Outcome State Fault Refusal :=
  .next (match s.heldBlock 64 with
    | some (m, s) => s.modTrust fun t => { t with lease := BitVec.ofNat 512 (natOfBytes m) }
    | none => s)

/-- BOOT_BLOCK_WRITE (R386). -/
def execBootBlockWrite (s : State) : Host.Outcome State Fault Refusal :=
  .next (match s.heldBlock 16 with
    | some (m, s) => s.modTrust fun t => { t with bootBlock := some (BitVec.ofNat 128 (natOfBytes m)) }
    | none => s)

/-- The lease nonce, and the hash of the tenant's key (R388). -/
def Trust.nonce (t : Trust) : BitVec 256 := t.lease.extractLsb' 0 256
def Trust.tenant (t : Trust) : BitVec 256 := t.lease.extractLsb' 256 256

/-- A boot block obeys its layout, and names no source that it cannot have (R386). -/
def bootBlockOk (b : Nat) : Bool :=
  let n := bits b 8 3
  bits b 12 52 == 0 && bits b 64 12 == 0 && bits b 114 14 == 0 && decide (1 ≤ n ∧ n ≤ 4) &&
    !((List.range n).any fun i => bits b (2 * i) 2 == 3 && bits b 64 64 == 0)

/-- BOOTCFG and XIPBASE at a release (R386, R403). -/
def Trust.bootRegs (t : Trust) (recovery : Bool) : BitVec 12 × Nat :=
  match t.bootBlock with
  | some b => if !recovery && bootBlockOk b.toNat then (BitVec.ofNat 12 b.toNat, bits b.toNat 64 64) else (0x100, 0)
  | none => (0x100, 0)

/-! ## Release and the scrub (R388, R394 to R396) -/

/-- READY bits set. -/
def State.setReady (s : State) (m : BitVec 10) : State := s.modHost fun h => { h with ready := h.ready ||| m }

/-- Boot step 1 begins, or, after three failed boots and without a recovery request, minimal mode (R387, R403). -/
def State.beginBoot (s : State) : State :=
  if 3 ≤ s.host.fails ∧ !s.trust.recovery then
    ((s.modTrust fun t => { t with phase := .minimal, alert := true }).modHost fun h => { h with minimal := true }).setReady 0x203
  else s.modTrust fun t => { t with phase := .step 1, phaseSince := s.clock, sourceTry := 0 }

/-- The mode of this boot takes effect: in confidential mode under a new HBM key (R398). MEAS3 tells it, the nonce and the record. -/
def State.enterMode (s : State) : State :=
  s.modTrust fun t =>
    { t with conf := t.nextConf, prevConf := t.nextConf, hbmKeyed := t.nextConf }.extend 3
      ([BitVec.ofNat 8 t.nextConf.toNat] ++ hashBytes t.nonce ++ hashBytes (Config.sha3_256 (Mem.readBytes t.scrubRecord 0 128)))

/-- Every storage element cleared by the scrub: HBM, with its marks and keys, and all else that a reset clears (R394). -/
def State.scrubbed (s : State) : State :=
  let host (a : Nat) : Bool := decide (Config.hbmBytes ≤ 32 * a)
  { s with mem := { MemState.fresh with
    bytes := s.mem.bytes.filter fun c => decide (Config.hbmBytes ≤ c.1)
    poison := s.mem.poison.filter host, latent := s.mem.latent.filter host, hostErrs := s.mem.hostErrs } }

/-- DEVICE_RELEASE (R388): the pins are sampled, the key slots stand as fused, MEAS0 is extended, and the scrub or the boot begins. -/
def execDeviceRelease (s : State) : Host.Outcome State Fault Refusal :=
  .next (if s.trust.phase ≠ .held then s
    else
      let t := s.trust
      let (cfg, xip) := t.bootRegs t.pinRecovery
      let fused := Tab.set (Tab.set t.fuses 0 (t.fused 0)) 1 (t.fused 1)
      let slots := if t.tenant = 0 then fused else Tab.set fused 6 t.tenant
      let s := (s.modHost fun h => { h with bootcfg := cfg, xipbase := xip }).modTrust fun t =>
        { t with nextConf := t.pinConf, recovery := t.pinRecovery, slots := slots, revoked := t.fuseRevoked }.extend 0
          (Config.romVersion ++ hashBytes Config.fuseDigest)
      let s := { s with dist := { s.dist with encore := Config.enabledCores } }
      if t.pinScrub || t.pinConf != t.prevConf || t.pinRecovery then
        s.scrubbed.modTrust fun t => { t with phase := .scrub, phaseSince := s.clock, scrubbed := true }
      else s.enterMode.beginBoot)

/-- The scrub's completion record (R396, R397). -/
def State.scrubRecordOf (s : State) : Mem :=
  let t := s.trust
  let head := 0x53524543 + 2 ^ 32 * 1 + 2 ^ 48 * (t.scrubFail != 0).toNat + 2 ^ 56 * t.nextConf.toNat + 2 ^ 64 * t.nonce.toNat +
    2 ^ 320 * Config.devSerial.toNat + 2 ^ 448 * s.rel.hbmSize + 2 ^ 512 * t.scrubRetired.toNat + 2 ^ 704 * t.scrubSpared +
    2 ^ 736 * t.scrubFail
  let first := bytesOfNat 128 head
  let sig := Config.mldsaSign (Config.sha3_256 first)
  Mem.writeBytes [] 0 (first ++ (List.range 2420).map fun i => sig.getD i 0)

/-- SCRUB_COMPLETE (R395, R396): the record, the cores it retired; then boot step 1, or ALERT. -/
def execScrubComplete (s : State) : Host.Outcome State Fault Refusal :=
  .next (if s.trust.phase ≠ .scrub then s
    else
      let s := s.modTrust fun t => { t with scrubRecord := s.scrubRecordOf }
      let gone := (List.range Config.numCores).filter fun c => s.trust.scrubRetired.getLsbD c
      let s := { s with
        dist := { s.dist with encore := s.dist.encore &&& ~~~s.trust.scrubRetired }
        rel := { s.rel with retiredCores := gone.foldl NatSet.add s.rel.retiredCores } }
      if s.trust.scrubFail = 0 then s.enterMode.beginBoot
      else s.modTrust fun t => { t with phase := .alert, alert := true })

/-! ## Failures (R387) -/

/-- A failed boot: FAILS and REASON, and the device resets itself and boots again, or enters minimal mode at the third. -/
def State.failBoot (s : State) (reason : Byte) : State :=
  let mode := s.trust.conf
  let r := s.volatileReset.modHost fun h => { h with
    fails := min 3 (h.fails + 1), reason := if s.trust.recovery then 7 else reason }
  let r := { r with dist := { r.dist with encore := Config.enabledCores } }
  (r.modTrust fun t => { t with conf := mode, hbmKeyed := mode, recovery := s.trust.recovery && decide (r.host.fails < 3) }).beginBoot

/-! ## Boot steps (R382 to R385) -/

/-- The image in management SRAM and the staging registers, as a source begins. -/
def State.dropImage (s : State) : State :=
  (s.modTrust fun t => { t with image := [], imageLen := none }).modHost fun h => { h with busy := false, taken := false }

/-- A source has failed: the next one, or NO_IMAGE. -/
def State.nextSource (s : State) : State :=
  let n := if s.host.bootcfg.getLsbD 11 then 1 else bits s.host.bootcfg.toNat 8 3
  if s.trust.phase = .step 1 ∧ !s.trust.recovery ∧ s.trust.sourceTry + 1 < n then
    s.dropImage.modTrust fun t => { t with sourceTry := t.sourceTry + 1, phaseSince := s.clock }
  else s.failBoot 3

/-- Boot step 2 (R382, R392, R393): stage 1 verified and measured. -/
def State.verifyStage1 (s : State) (n : Nat) : State :=
  let v := viewImage s.trust.image n
  if s.trust.verify v (if s.trust.recovery then 3 else 1) s.sourceNow then
    let s := (s.modTrust fun t =>
      { t with phase := .step 3, phaseSince := s.clock, stageSlot := v.slot, runSvn := Tab.set t.runSvn v.kind v.svn }.extend 1
        (hashBytes v.digest ++ [BitVec.ofNat 8 v.slot])).modHost fun h => { h with source := s.sourceNow }
    s.dropImage.setReady 0x2
  else s.failBoot 1

/-- Boot step 3: HBM and the link train (log 41). -/
def State.trainLinks (s : State) : State :=
  let n := s.freeCtr
  let s := { s with freeCtr := n + 1 }
  if Config.hbmTrains n then
    let ports := (List.range 16).filterMap fun p => if Config.portTrains n p then some (p, (⟨8, true, 0⟩ : Port)) else none
    (({ s with link := { s.link with ports := ports } }.modTrust fun t => { t with phase := .step 4, phaseSince := s.clock }).setReady
      0xC).linksReady
  else s.failBoot 2

/-- Where the image being taken starts in the XIP region: stage 1 at its base, the porter kernel further on (R383; log 41). -/
def State.xipImage (s : State) : Nat :=
  2 ^ 50 + s.host.xipbase + (if s.trust.phase = .step 4 then 4096 * Config.xipKernelPage.val else 0)

/-- The first byte of the porter kernel as it runs: in HBM, or, of the XIP region, where it lies (R382, R383; log 41). -/
def State.kernelBase (s : State) : Nat :=
  if s.sourceNow = 3 then s.xipImage + 4096 else 4096 * Config.porterKernelPage.val

/-- Boot step 4: the porter kernel verified, placed in HBM unless it runs in the XIP region, and every porter started at its entry in
M-mode (R382, R383; log 41). -/
def State.startPorters (s : State) (n : Nat) : State :=
  let v := viewImage s.trust.image n
  if s.trust.verify v 2 s.sourceNow then
    let base := s.kernelBase
    let payload := Mem.readBytes s.trust.image 4096 v.length
    let s := if s.sourceNow = 3 then s else s.modMem fun m => { m with bytes := Mem.writeBytes m.bytes base payload }
    let s := s.modTrust fun t =>
      { t with phase := .step 5, phaseSince := s.clock, runSvn := Tab.set t.runSvn 2 v.svn }.extend 2
        (hashBytes v.digest ++ [BitVec.ofNat 8 v.slot])
    let go (s : State) (cl : Nat) : State := s.modPorter cl fun _ => { Porter.fresh with pc := BitVec.ofNat 64 base }
    ((List.range Config.numClusters).foldl go s).dropImage.setReady 0x190
  else s.failBoot 4

/-- BOOT_STEP (R382): the step in progress completes; step 5 ends with BOOTOK. -/
def execBootStep (s : State) : Host.Outcome State Fault Refusal :=
  .next (match s.trust.phase with
    | .step 1 => if s.trust.imageLen.isSome then
        (s.modTrust fun t => { t with phase := .step 2, phaseSince := s.clock }).setReady 0x1 else s
    | .step 2 => s.verifyStage1 (s.trust.imageLen.getD 0)
    | .step 3 => s.trainLinks
    | .step 4 => match s.trust.imageLen with
      | some n => s.startPorters n
      | none => s
    | _ => s)

/-- IMAGE_SOURCE_TIMEOUT (R382): 10 s without an image. -/
def execImageSourceTimeout (s : State) : Host.Outcome State Fault Refusal :=
  .next (if (s.trust.phase = .step 1 ∨ s.trust.phase = .step 4) ∧ s.trust.imageLen = none ∧
      s.trust.phaseSince + 10000000 * Config.cyclesPerUs ≤ s.clock then s.nextSource
    else s)

/-- PORTER_BOOT_TIMEOUT (R382): 60 s without BOOTOK. -/
def execPorterBootTimeout (s : State) : Host.Outcome State Fault Refusal :=
  .next (if s.trust.phase = .step 5 ∧ s.trust.phaseSince + 60000000 * Config.cyclesPerUs ≤ s.clock then s.failBoot 5 else s)

/-- WATCHDOG (R382): at any step. -/
def execWatchdog (s : State) : Host.Outcome State Fault Refusal :=
  .next (match s.trust.phase with
    | .step _ => s.failBoot 6
    | _ => s)

/-- BOOTOK (R382, R387, R392): the boot is complete, FAILS is 0, the SVN counters rise. -/
def execBootok (s : State) : Host.Outcome State Fault Refusal :=
  .next (match s.takeCommit (· == regSpace + 0x100018) with
    | none => s
    | some (c, s) =>
      if bits (c.dword 0) 0 1 = 1 ∧ s.trust.phase = .step 5 then
        let raise (svn : Tab Nat) : Tab Nat :=
          s.trust.runSvn.foldl (fun m e => Tab.set m e.1 (max (Tab.getD m e.1 0) e.2)) svn
        ((s.modTrust fun t => { t with phase := .booted, svn := raise t.svn }).modHost fun h => { h with fails := 0 }).setReady 0x20
      else s)

/-! ## The staging window (R385) -/

/-- STAGING_CHUNKLEN (R385). -/
def execStagingChunklen (s : State) : Host.Outcome State Fault Refusal :=
  .next (match s.takeCommit (· == windowSpace + 0x1FF008) with
    | none => s
    | some (c, s) =>
      let n := c.dword 0 % 2 ^ 32
      let off := s.host.chunkOff.toNat
      if !s.takesImage || s.host.busy then s
      else if off % 4096 = 0 ∧ n ≠ 0 ∧ n % 4 = 0 ∧ n ≤ 0x1FF000 ∧ off + n ≤ 2 ^ 22 then
        s.modHost fun h => { h with chunkLen := BitVec.ofNat 32 n, busy := true, taken := false, refused := false }
      else s.modHost fun h => { h with refused := true, taken := false })

/-- STAGING_CHUNK_TAKEN (R385): the chunk stands in management SRAM. -/
def execStagingChunkTaken (s : State) : Host.Outcome State Fault Refusal :=
  .next (if s.host.busy then
      let bytes := Mem.readBytes s.host.window 0 s.host.chunkLen.toNat
      (s.modTrust fun t => { t with image := Mem.writeBytes t.image s.host.chunkOff.toNat bytes }).modHost fun h =>
        { h with busy := false, taken := true }
    else s)

/-- STAGING_TOTAL (R385): the image ends, or the source fails. -/
def execStagingTotal (s : State) : Host.Outcome State Fault Refusal :=
  .next (match s.takeCommit (· == windowSpace + 0x1FF010) with
    | none => s
    | some (c, s) =>
      let n := c.dword 0 % 2 ^ 32
      if !s.takesImage || s.host.busy then s
      else if 4096 ≤ n ∧ n ≤ 2 ^ 22 then
        (s.modHost fun h => { h with total := BitVec.ofNat 32 n }).modTrust fun t => { t with imageLen := some n }
      else (s.modHost fun h => { h with refused := true }).nextSource)

end Sys2Proof.Machine
end

