-- ==== Sys2Proof/Machine/Convert.lean ====
section
/-! DEFINITION. Conversions, OP 0x41 (R206 to R211). -/

namespace Sys2Proof.Machine

/-- The FP32 values of a thread's group of 32: the participants; every other thread counts as +0 (R211). -/
def qmxGroup (s : State) (f : Fields) (lane : Nat) : List Nat :=
  ((s.participants f).filter fun l => l / 32 == lane / 32).map fun l => s.srcA (.qmx f) f l

/-- CVT (R207): the literal names the source type. -/
def execCvt (f : Fields) (s : State) : Host.Outcome State Fault Refusal :=
  runInstr f (opAlu1 (.cvt f) f (aluCvt f.ty (f.cvtSrc.getD .n32) f.md.toNat f.sat)) s

/-- PACK (R208). -/
def execPack (f : Fields) (s : State) : Host.Outcome State Fault Refusal :=
  runInstr f (opAlu2 (.pack f) f (aluPack f.ty f.md.toNat f.sat)) s

/-- UNPACK (R208). -/
def execUnpack (f : Fields) (s : State) : Host.Outcome State Fault Refusal :=
  runInstr f (opAlu1 (.unpack f) f (aluUnpack f.ty f.md.toNat)) s

/-- CVT8 (R209): widening with .B128, narrowing otherwise. -/
def execCvt8 (f : Fields) (s : State) : Host.Outcome State Fault Refusal :=
  runInstr f
    (opAlu1 (.cvt8 f) f fun a => if f.ty = .b128 then noFlag (aluCvt8Widen f.md.toNat a) else aluCvt8Narrow f.ty f.md.toNat f.sat a) s

/-- CVT4 (R210). -/
def execCvt4 (f : Fields) (s : State) : Host.Outcome State Fault Refusal :=
  runInstr f
    (opAlu2 (.cvt4 f) f fun a b => if f.ty = .b128 then noFlag (aluCvt4Widen f.md.toNat a b) else aluCvt4Narrow f.md.toNat f.sat a b) s

/-- QMX (R211): a long-latency producer (R189). -/
def execQmx (f : Fields) (s : State) : Host.Outcome State Fault Refusal :=
  runInstr f (opLate (.qmx f) f fun s l => noFlag (aluQmx f.md.toNat (qmxGroup s f l))) s

end Sys2Proof.Machine
end

