-- ==== Sys2Proof/Machine/Editions.lean ====
section
/-! DEFINITION. Editions, OP 0x73 (R123 to R127, R252, R253), and the special-register instructions, OP 0xB1 (R51 to R57,
R254). -/

namespace Sys2Proof.Machine

/-- The region of a slot in an address space (R123). -/
def State.regionAt (s : State) (asid slot : Nat) : Option Region := s.regions.find? fun r => r.asid = asid ∧ r.slot = slot

/-- An edition instruction: per thread, in ascending LANE, after the slot check (R253). -/
def opEdition (i : Instr) (f : Fields) (act : State → Nat → Region → State × Res) : Op :=
  let b := Op.base i f fun s l =>
    let e := s.srcA i f l
    match (if e < 8 then s.regionAt s.focusGang.asid e else none) with
    | none => (s, .trap (LaneFault.plain l .editionSlot))
    | some r => act s l r
  { b with cls := .ending }

/-- EDNEXT (R125, R253): the counter advances once the thread's earlier stores have been performed. -/
def execEdnext (f : Fields) (s : State) : Host.Outcome State Fault Refusal :=
  runInstr f (opEdition (.ednext f) f fun s l r =>
    match s.drainThread s.focusGang.tag l with
    | none => (s, .hold)
    | some s =>
      if r.counter = 0xFFFFFFFF then (s, .ok { Eff.none with dst := [(f.d, 1, 0)] })
      else
        ({ s with regions := s.regions.map fun x =>
            if x.asid = r.asid ∧ x.slot = r.slot then { x with counter := r.counter + 1 } else x },
          .ok { Eff.none with dst := [(f.d, 1, (r.counter + 1).toNat)] })) s

/-- EDSYNC (R127, R253): the view rises to the counter, and the lines of the block's cores go but those of edition regions. -/
def execEdsync (f : Fields) (s : State) : Host.Outcome State Fault Refusal :=
  runInstr f (opEdition (.edsync f) f fun s _ r =>
    let blk := s.focusGang.blk
    match s.block? blk with
    | none => (s, .ok Eff.none)
    | some b =>
      let old := Tab.getD b.edview r.slot 0
      let v := if old < r.counter then r.counter else old
      let s := s.setBlock blk { b with edview := Tab.put b.edview 0 r.slot v }
      let s := s.acquireL1 b.core .block
      let s := if b.pair then s.acquireL1 (b.core + 1) .block else s
      (s, .ok { Eff.none with dst := [(f.d, 1, v.toNat)] })).awaitFlush s

/-- EDITION_DECLARE as the device performs it (R123, R124, R155): refused while the slot is declared, where its kept counter is
exhausted, and where the range is empty, passes 2^56 or meets another region of the address space. -/
def State.declareRegion (s : State) (asid slot first lines : Nat) : State :=
  let kept := (s.kept.find? fun x => x.1 = asid ∧ x.2.1 = slot).map fun x => x.2.2
  if 8 ≤ slot ∨ lines = 0 ∨ 2 ^ 49 < first + lines ∨ (s.regionAt asid slot).isSome ∨ kept = some 0xFFFFFFFF ∨
      (s.regions.any fun r => r.asid == asid && decide (first < r.base + r.len ∧ r.base < first + lines)) then s
  else { s with regions := s.regions ++ [(⟨asid, slot, first, lines, kept.getD 0 + 1⟩ : Region)] }

/-- EDITION_RELEASE as the device performs it (R124): every L1 copy of the region's lines goes, tagged or not, and with them, since a copy
may go at any time, every other; the counter is kept. -/
def State.releaseRegion (s : State) (asid slot : Nat) : State :=
  match s.regionAt asid slot with
  | none => s
  | some r =>
    { s.dropAllL1 with
      regions := s.regions.filter fun x => !(x.asid == asid && x.slot == slot)
      kept := (s.kept.filter fun x => !(x.1 == asid && x.2.1 == slot)) ++ [(asid, slot, r.counter)] }

/-- EDITION_AUTO_RELEASE (R124): with no launch of the address space queued or running, its regions go, as a release has them go, and
the kept counter values are forgotten. -/
def execEditionAutoRelease (asid : Nat) (s : State) : Host.Outcome State Fault Refusal := .next (s.autoRelease asid)

/-! ## Special registers -/

/-- SREAD (R50, R54, R254). -/
def execSread (f : Fields) (s : State) : Host.Outcome State Fault Refusal :=
  runInstr f (Op.base (.sread f) f fun s l =>
    (s, .ok { Eff.value (.sread f) f (noFlag (s.srcA (.sread f) f l)) with latch := s.clockLatch f.a })) s

/-- A register that a gang holds (R50, R52). -/
def gangHeld (o : Operand) : Bool :=
  match o with
  | .sr .deadL | .sr .deadH | .sr (.gstat _) => true
  | _ => false

/-- A gang register written by a sub-gang whose highest LANE is `top`; of the writes that sub-gangs of a 64-wide gang make in one clock,
that of the higher LANE stands (R52). -/
def Gang.swrite (g : Gang) (r : SReg) (clock top x : Nat) : Gang :=
  if g.width = 64 && g.swrites.any fun w => w.1 == r && w.2.1 == clock && decide (top < w.2.2) then g
  else { g.writeSR r x with swrites := g.swrites.filter (fun w => w.1 != r) ++ [(r, clock, top)] }

/-- SWRITE (R51, R52, R53, R55, R56, R254): a gang register takes its value from the lowest LANE. -/
def execSwrite (f : Fields) (s : State) : Host.Outcome State Fault Refusal :=
  let b := Op.base (.swrite f) f fun s l =>
    let x := s.srcA (.swrite f) f l
    match f.d with
    | .sr r =>
      if gangHeld f.d then (s.modGang s.focus.key fun g =>
          g.swrite r s.clock (((lanesOf s.focus.lanes g.width).getLast?).getD 0) x, .ok Eff.none)
      else (s, .ok { Eff.none with dst := [(f.d, 1, x)] })
    | _ => (s, .ok Eff.none)
  runInstr f { b with cls := .ending, gang := gangHeld f.d } s

end Sys2Proof.Machine
end

