-- ==== Sys2Proof/Machine/Float.lean ====
section
/-! DEFINITION. Floating-point arithmetic, OP 0x30 and 0x40 (R200 to R205). -/

namespace Sys2Proof.Machine

/-- FADD (R201). -/
def execFadd (f : Fields) (s : State) : Host.Outcome State Fault Refusal :=
  runInstr f (opAlu2 (.fadd f) f (aluFadd f.ty f.md.toNat)) s

/-- FSUB (R201). -/
def execFsub (f : Fields) (s : State) : Host.Outcome State Fault Refusal :=
  runInstr f (opAlu2 (.fsub f) f (aluFsub f.ty f.md.toNat)) s

/-- FMUL (R201). -/
def execFmul (f : Fields) (s : State) : Host.Outcome State Fault Refusal :=
  runInstr f (opAlu2 (.fmul f) f (aluFmul f.ty f.md.toNat)) s

/-- FFMA (R201). -/
def execFfma (f : Fields) (s : State) : Host.Outcome State Fault Refusal :=
  runInstr f (opAlu3 (.ffma f) f (aluFfma f.ty f.md.toNat)) s

/-- FMIN (R202). -/
def execFmin (f : Fields) (s : State) : Host.Outcome State Fault Refusal :=
  runInstr f (opAlu2 (.fmin f) f (aluFminmax false f.ty f.md.toNat)) s

/-- FMAX (R202). -/
def execFmax (f : Fields) (s : State) : Host.Outcome State Fault Refusal :=
  runInstr f (opAlu2 (.fmax f) f (aluFminmax true f.ty f.md.toNat)) s

/-- FABS (R202). -/
def execFabs (f : Fields) (s : State) : Host.Outcome State Fault Refusal :=
  runInstr f (opAlu1 (.fabs f) f (aluFsign (fun _ => false) f.ty f.md.toNat)) s

/-- FNEG (R202). -/
def execFneg (f : Fields) (s : State) : Host.Outcome State Fault Refusal :=
  runInstr f (opAlu1 (.fneg f) f (aluFsign not f.ty f.md.toNat)) s

/-- FCMP (R203). -/
def execFcmp (f : Fields) (s : State) : Host.Outcome State Fault Refusal :=
  runInstr f (opPred (.fcmp f) f fun s l => aluFcmp f.ty f.md.toNat (s.srcA (.fcmp f) f l) (s.srcB (.fcmp f) f l)) s

/-- FSET (R203). -/
def execFset (f : Fields) (s : State) : Host.Outcome State Fault Refusal :=
  runInstr f (opAlu2 (.fset f) f (aluFset f.ty f.md.toNat)) s

/-- FCLASS (R204). -/
def execFclass (f : Fields) (s : State) : Host.Outcome State Fault Refusal :=
  runInstr f (opAlu1 (.fclass f) f fun a => noFlag (aluFclass f.ty a)) s

/-- FRND (R205). -/
def execFrnd (f : Fields) (s : State) : Host.Outcome State Fault Refusal :=
  runInstr f (opAlu1 (.frnd f) f (aluFrnd f.ty f.md.toNat)) s

/-- FSCALE (R205). -/
def execFscale (f : Fields) (s : State) : Host.Outcome State Fault Refusal :=
  runInstr f (opAlu2 (.fscale f) f (aluFscale f.ty f.md.toNat)) s

/-- FADD of FP64 (R201) under OP 0x40. -/
def execFaddF64 (f : Fields) (s : State) : Host.Outcome State Fault Refusal :=
  runInstr f (opAlu2 (.faddF64 f) f (aluFadd f.ty f.md.toNat)) s

/-- FSUB of FP64 (R201) under OP 0x40. -/
def execFsubF64 (f : Fields) (s : State) : Host.Outcome State Fault Refusal :=
  runInstr f (opAlu2 (.fsubF64 f) f (aluFsub f.ty f.md.toNat)) s

/-- FMUL of FP64 (R201) under OP 0x40. -/
def execFmulF64 (f : Fields) (s : State) : Host.Outcome State Fault Refusal :=
  runInstr f (opAlu2 (.fmulF64 f) f (aluFmul f.ty f.md.toNat)) s

/-- FFMA of FP64 (R201) under OP 0x40. -/
def execFfmaF64 (f : Fields) (s : State) : Host.Outcome State Fault Refusal :=
  runInstr f (opAlu3 (.ffmaF64 f) f (aluFfma f.ty f.md.toNat)) s

/-- FMIN of FP64 (R202) under OP 0x40. -/
def execFminF64 (f : Fields) (s : State) : Host.Outcome State Fault Refusal :=
  runInstr f (opAlu2 (.fminF64 f) f (aluFminmax false f.ty f.md.toNat)) s

/-- FMAX of FP64 (R202) under OP 0x40. -/
def execFmaxF64 (f : Fields) (s : State) : Host.Outcome State Fault Refusal :=
  runInstr f (opAlu2 (.fmaxF64 f) f (aluFminmax true f.ty f.md.toNat)) s

/-- FABS of FP64 (R202) under OP 0x40. -/
def execFabsF64 (f : Fields) (s : State) : Host.Outcome State Fault Refusal :=
  runInstr f (opAlu1 (.fabsF64 f) f (aluFsign (fun _ => false) f.ty f.md.toNat)) s

/-- FNEG of FP64 (R202) under OP 0x40. -/
def execFnegF64 (f : Fields) (s : State) : Host.Outcome State Fault Refusal :=
  runInstr f (opAlu1 (.fnegF64 f) f (aluFsign not f.ty f.md.toNat)) s

/-- FCMP of FP64 (R203) under OP 0x40. -/
def execFcmpF64 (f : Fields) (s : State) : Host.Outcome State Fault Refusal :=
  runInstr f (opPred (.fcmpF64 f) f fun s l => aluFcmp f.ty f.md.toNat (s.srcA (.fcmpF64 f) f l) (s.srcB (.fcmpF64 f) f l)) s

/-- FSET of FP64 (R203) under OP 0x40. -/
def execFsetF64 (f : Fields) (s : State) : Host.Outcome State Fault Refusal :=
  runInstr f (opAlu2 (.fsetF64 f) f (aluFset f.ty f.md.toNat)) s

/-- FCLASS of FP64 (R204) under OP 0x40. -/
def execFclassF64 (f : Fields) (s : State) : Host.Outcome State Fault Refusal :=
  runInstr f (opAlu1 (.fclassF64 f) f fun a => noFlag (aluFclass f.ty a)) s

/-- FRND of FP64 (R205) under OP 0x40. -/
def execFrndF64 (f : Fields) (s : State) : Host.Outcome State Fault Refusal :=
  runInstr f (opAlu1 (.frndF64 f) f (aluFrnd f.ty f.md.toNat)) s

/-- FSCALE of FP64 (R205) under OP 0x40. -/
def execFscaleF64 (f : Fields) (s : State) : Host.Outcome State Fault Refusal :=
  runInstr f (opAlu2 (.fscaleF64 f) f (aluFscale f.ty f.md.toNat)) s

end Sys2Proof.Machine
end

