-- ==== Sys2Proof/Machine/Integer.lean ====
section
/-! DEFINITION. Integer and address instructions, OP 0x10 (R190 to R194). -/

namespace Sys2Proof.Machine

/-- Add or subtract with the carry predicate p[MD] (R192): read in the thread whose sources are read, written in every thread
that takes the result. -/
def opCarry (i : Instr) (f : Fields) (v : Nat → Nat → Bool → Nat × Bool) : Op :=
  let p : Operand := .p (f.md.setWidth 3)
  let b := Op.base i f fun s l =>
    let r := v (s.srcA i f l) (s.srcB i f l) (((s.gang? s.focus.key).getD .blank).thread l |>.readP (f.md.toNat % 8))
    (s, .ok { Eff.none with dst := [(f.d, dstWords i f, r.1), (p, 1, r.2.toNat)] })
  { b with srcs := b.srcs ++ [⟨p, 1, false⟩], dsts := b.dsts ++ [(p, 1)] }

/-- A copy of A to D, a special register among its sources. -/
def opMove (i : Instr) (f : Fields) : Op :=
  Op.base i f fun s l =>
    (s, .ok { Eff.value i f (noFlag (s.srcA i f l)) with latch := s.clockLatch f.a })

/-- IADD (R191). -/
def execIadd (f : Fields) (s : State) : Host.Outcome State Fault Refusal :=
  runInstr f (opAlu2 (.iadd f) f (aluIadd f.ty f.sat)) s

/-- ISUB (R191). -/
def execIsub (f : Fields) (s : State) : Host.Outcome State Fault Refusal :=
  runInstr f (opAlu2 (.isub f) f (aluIsub f.ty f.sat)) s

/-- IMUL (R191). -/
def execImul (f : Fields) (s : State) : Host.Outcome State Fault Refusal :=
  runInstr f (opAlu2 (.imul f) f (aluImul f.ty f.sat)) s

/-- IADDC (R192): the carry predicate is read and written besides. -/
def execIaddc (f : Fields) (s : State) : Host.Outcome State Fault Refusal :=
  runInstr f (opCarry (.iaddc f) f (aluIaddc f.ty)) s

/-- ISUBB (R192): the carry predicate is read and written besides. -/
def execIsubb (f : Fields) (s : State) : Host.Outcome State Fault Refusal :=
  runInstr f (opCarry (.isubb f) f (aluIsubb f.ty)) s

/-- IMULH (R191). -/
def execImulh (f : Fields) (s : State) : Host.Outcome State Fault Refusal :=
  runInstr f (opAlu2 (.imulh f) f (aluImulh f.ty)) s

/-- IMAD (R191). -/
def execImad (f : Fields) (s : State) : Host.Outcome State Fault Refusal :=
  runInstr f (opAlu3 (.imad f) f (aluImad f.ty f.sat)) s

/-- IMADW (R191). -/
def execImadw (f : Fields) (s : State) : Host.Outcome State Fault Refusal :=
  runInstr f (opAlu3 (.imadw f) f (aluImadw f.ty f.sat)) s

/-- IMIN (R191). -/
def execImin (f : Fields) (s : State) : Host.Outcome State Fault Refusal :=
  runInstr f (opAlu2 (.imin f) f (aluImin f.ty)) s

/-- IMAX (R191). -/
def execImax (f : Fields) (s : State) : Host.Outcome State Fault Refusal :=
  runInstr f (opAlu2 (.imax f) f (aluImax f.ty)) s

/-- IABS (R191). -/
def execIabs (f : Fields) (s : State) : Host.Outcome State Fault Refusal :=
  runInstr f (opAlu1 (.iabs f) f (aluIabs f.ty f.sat)) s

/-- INEG (R191). -/
def execIneg (f : Fields) (s : State) : Host.Outcome State Fault Refusal :=
  runInstr f (opAlu1 (.ineg f) f (aluIneg f.ty f.sat)) s

/-- ICMP (R193). -/
def execIcmp (f : Fields) (s : State) : Host.Outcome State Fault Refusal :=
  runInstr f
    (opPred (.icmp f) f fun s l => (aluIcmp f.ty f.md.toNat (s.srcA (.icmp f) f l) (s.srcB (.icmp f) f l), flagNone)) s

/-- ISET (R193). -/
def execIset (f : Fields) (s : State) : Host.Outcome State Fault Refusal :=
  runInstr f (opAlu2 (.iset f) f fun a b => noFlag (aluIset f.ty f.md.toNat a b)) s

/-- SEL (R194): both sources are read. -/
def execSel (f : Fields) (s : State) : Host.Outcome State Fault Refusal :=
  runInstr f (opAlu3 (.sel f) f fun a b c => noFlag (if c % 2 = 1 then a else b)) s

/-- MOV (R194): of CLOCKL it latches CLOCKH too (R54). -/
def execMov (f : Fields) (s : State) : Host.Outcome State Fault Refusal :=
  runInstr f (opMove (.mov f) f) s

/-- LEA (R194). -/
def execLea (f : Fields) (s : State) : Host.Outcome State Fault Refusal :=
  runInstr f (opAlu2 (.lea f) f fun a b => noFlag (aluLea f.ty f.md.toNat a b)) s

end Sys2Proof.Machine
end

