-- ==== Sys2Proof/Machine/Lane.lean ====
section
/-! DEFINITION. Lane operations, OP 0x51 (R213 to R217). -/

namespace Sys2Proof.Machine

/-- A lane operation: an ending instruction, and a long-latency producer where its participants lie in more than one slice
(R137, R189, R213). -/
def opLane (i : Instr) (f : Fields) (v : State → List Nat → Nat → Flagged Nat) : Op :=
  let b := Op.base i f fun s _ => (s, .ok Eff.none)
  { b with
    cls := .ending
    body := fun s l =>
      let ps := s.participants f
      let x := v s ps l
      if ((ps.map (· / 4)).dedup).length ≤ 1 then (s, .ok (Eff.value i f x))
      else
        let (s1, id) := s.takeId
        (s1, .ok (Eff.late (producerOf s id f (dstWords i f) x.1 x.2 none false))) }

/-- A lane operation that writes a predicate: at issue, since a predicate has no full/empty bit (log 57). -/
def opLanePred (i : Instr) (f : Fields) (v : State → List Nat → Nat → Bool) : Op :=
  let b := Op.base i f fun s _ => (s, .ok Eff.none)
  { b with
    cls := .ending
    body := fun s l => (s, .ok (Eff.pred f (v s (s.participants f) l) flagNone)) }

/-- SHFL's value: that of the source thread where it takes part, else the thread's own (R215). -/
def shflValue (s : State) (f : Fields) (ps : List Nat) (l : Nat) : Nat :=
  let b := s.srcB (.shfl f) f l
  let u : Int :=
    match f.md.toNat with
    | 0 => b
    | 1 => (l : Int) - b
    | 2 => l + b
    | _ => ((l ^^^ b : Nat) : Int)
  if 0 ≤ u ∧ ps.contains u.toNat then s.srcA (.shfl f) f u.toNat else s.srcA (.shfl f) f l

/-- VOTE's modes EVERY, SOME, SAME, NONE (R216). -/
def voteValue (md : Nat) (l : List Bool) : Bool :=
  match md with
  | 0 => l.all id
  | 1 => l.any id
  | 2 => l.all id || l.all not
  | _ => l.all not

def matchValue (s : State) (f : Fields) (ps : List Nat) (l : Nat) : Nat :=
  (ps.filter fun p => s.srcA (.matchAny f) f p = s.srcA (.matchAny f) f l).foldl (fun m p => m + 2 ^ p) 0

/-- One step of an integer reduction (R217): ADD, MIN, MAX, AND, OR, XOR. -/
def reduceInt (t : Ty) (md a b : Nat) : Nat :=
  match md with
  | 0 => (a + b) % 2 ^ 32
  | 1 => if intVal t b < intVal t a then b else a
  | 2 => if intVal t a < intVal t b then b else a
  | 3 => a &&& b
  | 4 => a ||| b
  | _ => a ^^^ b

/-- One step of a floating-point reduction (R217). -/
def reduceFloat (md a b : Nat) : Flagged Nat :=
  match md with
  | 0 => aluFadd .f32 0 a b
  | 1 => aluFminmax false .f32 0 a b
  | _ => aluFminmax true .f32 0 a b

/-- REDUX over the participants' values in LANE order (R217). -/
def reduxValue (f : Fields) (l : List Nat) : Flagged Nat :=
  match l with
  | [] => (0, flagNone)
  | x :: xs =>
    if f.ty = .f32 then
      xs.foldl (fun acc y =>
        let r := reduceFloat f.md.toNat acc.1 y
        (r.1, acc.2 ||| r.2)) (x, flagNone)
    else (xs.foldl (reduceInt f.ty f.md.toNat) x, flagNone)

/-- The identity of SCANX's operation (R217). -/
def scanIdentity (t : Ty) (md : Nat) : Nat :=
  match md with
  | 1 => if t.signed then 0x7FFFFFFF else 0xFFFFFFFF
  | 2 => if t.signed then 0x80000000 else 0
  | 3 => 0xFFFFFFFF
  | _ => 0

/-- SCANX over the values of the participants of lower LANE (R217). -/
def scanxValue (f : Fields) (l : List Nat) : Nat :=
  match l with
  | [] => scanIdentity f.ty f.md.toNat
  | x :: xs => xs.foldl (reduceInt f.ty f.md.toNat) x

/-- SHFL (R215). -/
def execShfl (f : Fields) (s : State) : Host.Outcome State Fault Refusal :=
  runInstr f (opLane (.shfl f) f fun s ps l => noFlag (shflValue s f ps l)) s

/-- BALLOT (R216). -/
def execBallot (f : Fields) (s : State) : Host.Outcome State Fault Refusal :=
  runInstr f
    (opLane (.ballot f) f fun s ps _ => noFlag ((ps.filter fun p => s.srcA (.ballot f) f p % 2 = 1).foldl (fun m p => m + 2 ^ p) 0)) s

/-- VOTE (R216). -/
def execVote (f : Fields) (s : State) : Host.Outcome State Fault Refusal :=
  runInstr f (opLanePred (.vote f) f fun s ps _ => voteValue f.md.toNat (ps.map fun p => s.srcA (.vote f) f p % 2 == 1)) s

/-- MATCH (R216). -/
def execMatchAny (f : Fields) (s : State) : Host.Outcome State Fault Refusal :=
  runInstr f (opLane (.matchAny f) f fun s ps l => noFlag (matchValue s f ps l)) s

/-- REDUX (R217). -/
def execRedux (f : Fields) (s : State) : Host.Outcome State Fault Refusal :=
  runInstr f (opLane (.redux f) f fun s ps _ => reduxValue f (ps.map fun p => s.srcA (.redux f) f p)) s

/-- SCANX (R217). -/
def execScanx (f : Fields) (s : State) : Host.Outcome State Fault Refusal :=
  runInstr f
    (opLane (.scanx f) f fun s ps l => noFlag (scanxValue f ((ps.filter (· < l)).map fun p => s.srcA (.scanx f) f p))) s

/-- ELECT (R216). -/
def execElect (f : Fields) (s : State) : Host.Outcome State Fault Refusal :=
  runInstr f (opLanePred (.elect f) f fun _ ps l => ps.head? == some l) s

end Sys2Proof.Machine
end

