-- ==== Sys2Proof/Machine/Logic.lean ====
section
/-! DEFINITION. Logic, bit and predicate instructions, OP 0x20 and 0x21 (R195 to R199). -/

namespace Sys2Proof.Machine

/-- A predicate instruction: A inverted under MD[0], B under MD[1]; a literal gives IMM[0] (R199). -/
def opLogic (i : Instr) (f : Fields) (v : Bool → Bool → Bool) : Op :=
  opPred i f fun s l =>
    (v ((s.srcA i f l % 2 == 1) != f.md.getLsbD 0) ((s.srcB i f l % 2 == 1) != f.md.getLsbD 1), flagNone)

/-- AND (R196). -/
def execAnd (f : Fields) (s : State) : Host.Outcome State Fault Refusal :=
  runInstr f (opAlu2 (.and f) f fun a b => noFlag (aluAnd (tyBits f) a b)) s

/-- OR (R196). -/
def execOr (f : Fields) (s : State) : Host.Outcome State Fault Refusal :=
  runInstr f (opAlu2 (.or f) f fun a b => noFlag (aluOr (tyBits f) a b)) s

/-- XOR (R196). -/
def execXor (f : Fields) (s : State) : Host.Outcome State Fault Refusal :=
  runInstr f (opAlu2 (.xor f) f fun a b => noFlag (aluXor (tyBits f) a b)) s

/-- ANDN (R196). -/
def execAndn (f : Fields) (s : State) : Host.Outcome State Fault Refusal :=
  runInstr f (opAlu2 (.andn f) f fun a b => noFlag (aluAndn (tyBits f) a b)) s

/-- NOT (R196). -/
def execNot (f : Fields) (s : State) : Host.Outcome State Fault Refusal :=
  runInstr f (opAlu1 (.not f) f fun a => noFlag (aluNot (tyBits f) a)) s

/-- SHL (R196). -/
def execShl (f : Fields) (s : State) : Host.Outcome State Fault Refusal :=
  runInstr f (opAlu2 (.shl f) f fun a n => noFlag (aluShl (tyBits f) a n)) s

/-- SHR (R196). -/
def execShr (f : Fields) (s : State) : Host.Outcome State Fault Refusal :=
  runInstr f (opAlu2 (.shr f) f fun a n => noFlag (aluShr (tyBits f) a n)) s

/-- SAR (R196). -/
def execSar (f : Fields) (s : State) : Host.Outcome State Fault Refusal :=
  runInstr f (opAlu2 (.sar f) f fun a n => noFlag (aluSar (tyBits f) a n)) s

/-- ROT (R196). -/
def execRot (f : Fields) (s : State) : Host.Outcome State Fault Refusal :=
  runInstr f (opAlu2 (.rot f) f fun a n => noFlag (aluRot (tyBits f) a n)) s

/-- SHF (R196): MD 0 left, 1 right. -/
def execShf (f : Fields) (s : State) : Host.Outcome State Fault Refusal :=
  runInstr f (opAlu3 (.shf f) f fun a b c => noFlag (aluShf (f.md = 1) (tyBits f) a b c)) s

/-- BFE (R197). -/
def execBfe (f : Fields) (s : State) : Host.Outcome State Fault Refusal :=
  runInstr f (opAlu2 (.bfe f) f fun a c => noFlag (aluBfe f.ty.signed (tyBits f) a c)) s

/-- BFI (R197). -/
def execBfi (f : Fields) (s : State) : Host.Outcome State Fault Refusal :=
  runInstr f (opAlu3 (.bfi f) f fun a b c => noFlag (aluBfi (tyBits f) a b c)) s

/-- POPC (R196). -/
def execPopc (f : Fields) (s : State) : Host.Outcome State Fault Refusal :=
  runInstr f (opAlu1 (.popc f) f fun a => noFlag (aluPopc (tyBits f) a)) s

/-- CLZ (R196). -/
def execClz (f : Fields) (s : State) : Host.Outcome State Fault Refusal :=
  runInstr f (opAlu1 (.clz f) f fun a => noFlag (aluClz (tyBits f) a)) s

/-- CTZ (R196). -/
def execCtz (f : Fields) (s : State) : Host.Outcome State Fault Refusal :=
  runInstr f (opAlu1 (.ctz f) f fun a => noFlag (aluCtz (tyBits f) a)) s

/-- BREV (R196). -/
def execBrev (f : Fields) (s : State) : Host.Outcome State Fault Refusal :=
  runInstr f (opAlu1 (.brev f) f fun a => noFlag (aluBrev (tyBits f) a)) s

/-- PRMT (R198). -/
def execPrmt (f : Fields) (s : State) : Host.Outcome State Fault Refusal :=
  runInstr f (opAlu3 (.prmt f) f fun a b c => noFlag (aluPrmt a b c)) s

/-- PAND (R199). -/
def execPand (f : Fields) (s : State) : Host.Outcome State Fault Refusal :=
  runInstr f (opLogic (.pand f) f fun a b => a && b) s

/-- POR (R199). -/
def execPor (f : Fields) (s : State) : Host.Outcome State Fault Refusal :=
  runInstr f (opLogic (.por f) f fun a b => a || b) s

/-- PXOR (R199). -/
def execPxor (f : Fields) (s : State) : Host.Outcome State Fault Refusal :=
  runInstr f (opLogic (.pxor f) f fun a b => a != b) s

/-- PMOV (R199). -/
def execPmov (f : Fields) (s : State) : Host.Outcome State Fault Refusal :=
  runInstr f (opLogic (.pmov f) f fun a _ => a) s

end Sys2Proof.Machine
end

