-- ==== Sys2Proof/Machine/TrustOps.lean ====
section
/-! DEFINITION. The SPDM responder (R389, R393, R401), the key-slot commands (R391) and MEXT (R393). -/

namespace Sys2Proof.Machine

/-! ## The responder -/

/-- The codes of SPDM 1.3 for the requests of R389 (log 16). -/
inductive SpdmCode where
  | getVersion | getCapabilities | negotiateAlgorithms | getDigests | getCertificate | challenge | getMeasurements | keyExchange
  | finish | endSession | vendor
  deriving DecidableEq, Repr

def SpdmCode.request : SpdmCode → Byte
  | .getVersion => 0x84 | .getCapabilities => 0xE1 | .negotiateAlgorithms => 0xE3 | .getDigests => 0x81 | .getCertificate => 0x82
  | .challenge => 0x83 | .getMeasurements => 0xE0 | .keyExchange => 0xE4 | .finish => 0xE5 | .endSession => 0xEC | .vendor => 0xFE

def SpdmCode.response : SpdmCode → Byte
  | .getVersion => 0x04 | .getCapabilities => 0x61 | .negotiateAlgorithms => 0x63 | .getDigests => 0x01 | .getCertificate => 0x02
  | .challenge => 0x03 | .getMeasurements => 0x60 | .keyExchange => 0x64 | .finish => 0x65 | .endSession => 0x6C | .vendor => 0x7E

/-- How far a connection has come. -/
def SpdmState.rank : SpdmState → Nat
  | .idle => 0 | .version => 1 | .capabilities => 2 | .algorithms => 3 | .exchanging => 4 | .session => 5

/-- The responder answers (R389). -/
def State.spdmReady (s : State) : Bool := s.host.ready.getLsbD 1

/-- An answer: the response code, two parameter bytes that SPDM gives, and what the spec says that it carries (log 16). -/
def State.respond (s : State) (c : SpdmCode) (data : List Byte) : State :=
  { s with freeCtr := s.freeCtr + 1 }.modTrust fun t => { t with
    outbox := t.outbox ++ [[0x13, c.response, Config.spdmBytes s.freeCtr 0, Config.spdmBytes s.freeCtr 1] ++ data] }

/-- ERROR with UnexpectedRequest (R391). -/
def State.unexpected (s : State) : State := s.modTrust fun t => { t with outbox := t.outbox ++ [[0x13, 0x7F, 0x04, 0]] }

/-- A request of a code at the head, answered or, before READY.SPDM, lost; where the connection does not allow it, an error. -/
def State.spdm (s : State) (c : SpdmCode) (allowed : SpdmState → Bool) (act : State → List Byte → State) : State :=
  match s.trust.inbox with
  | m :: rest =>
    if m.getD 1 0 = c.request then
      let s := s.modTrust fun t => { t with inbox := rest }
      if !s.spdmReady then s else if allowed s.trust.spdm then act s m else s.unexpected
    else s
  | [] => s

def State.spdmTo (s : State) (x : SpdmState) : State := s.modTrust fun t => { t with spdm := x }

/-- GET_VERSION (R389). -/
def execGetVersion (s : State) : Host.Outcome State Fault Refusal :=
  .next (s.spdm .getVersion (fun _ => true) fun s _ => (s.spdmTo .version).respond .getVersion [])

/-- GET_CAPABILITIES (R389). -/
def execGetCapabilities (s : State) : Host.Outcome State Fault Refusal :=
  .next (s.spdm .getCapabilities (fun x => x == .version) fun s _ => (s.spdmTo .capabilities).respond .getCapabilities [])

/-- NEGOTIATE_ALGORITHMS (R389). -/
def execNegotiateAlgorithms (s : State) : Host.Outcome State Fault Refusal :=
  .next (s.spdm .negotiateAlgorithms (fun x => x == .capabilities) fun s _ => (s.spdmTo .algorithms).respond .negotiateAlgorithms [])

/-- Algorithms have been negotiated. -/
def negotiated (x : SpdmState) : Bool := 3 ≤ x.rank

/-- GET_DIGESTS (R389). -/
def execGetDigests (s : State) : Host.Outcome State Fault Refusal :=
  .next (s.spdm .getDigests negotiated fun s _ => s.respond .getDigests [])

/-- GET_CERTIFICATE (R389). -/
def execGetCertificate (s : State) : Host.Outcome State Fault Refusal :=
  .next (s.spdm .getCertificate negotiated fun s _ => s.respond .getCertificate [])

/-- CHALLENGE (R389). -/
def execChallenge (s : State) : Host.Outcome State Fault Refusal :=
  .next (s.spdm .challenge negotiated fun s _ => s.respond .challenge [])

/-- GET_MEASUREMENTS (R393): all eight registers. -/
def execGetMeasurements (s : State) : Host.Outcome State Fault Refusal :=
  .next (s.spdm .getMeasurements negotiated fun s _ =>
    s.respond .getMeasurements ((List.range 8).flatMap fun i => hashBytes (Tab.getD s.trust.meas i 0)))

/-- KEY_EXCHANGE (R389). -/
def execKeyExchange (s : State) : Host.Outcome State Fault Refusal :=
  .next (s.spdm .keyExchange (fun x => x == .algorithms) fun s _ => (s.spdmTo .exchanging).respond .keyExchange [])

/-- FINISH (R389). -/
def execFinish (s : State) : Host.Outcome State Fault Refusal :=
  .next (s.spdm .finish (fun x => x == .exchanging) fun s _ => (s.spdmTo .session).respond .finish [])

/-- END_SESSION (R389). -/
def execEndSession (s : State) : Host.Outcome State Fault Refusal :=
  .next (s.spdm .endSession (fun x => x == .session) fun s _ => (s.spdmTo .algorithms).respond .endSession [])

/-! ## Vendor-defined requests -/

/-- The payload of a VENDOR_DEFINED_REQUEST: after the header, the standard and vendor identifiers and the length (log 16). -/
def payload (m : List Byte) : List Byte := m.drop 11

/-- The first byte of the payload of the request at the head. -/
def State.vendorOp (s : State) : Option Byte :=
  match s.trust.inbox with
  | m :: _ => if m.getD 1 0 = 0xFE then (payload m).head? else none
  | [] => none

/-- IDE_KM (R401; log 16): inside a session a KEY_PROG message programs the key of one of the five streams, a KEY_SET_STOP clears
it. -/
def execIdeKm (s : State) : Host.Outcome State Fault Refusal :=
  .next (if s.vendorOp ≠ some 0 then s
    else
      s.spdm .vendor (fun x => x == .session) fun s m =>
        let p := payload m
        let i := (p.getD 4 0).toNat
        let s := if 5 ≤ i then s
          else if p.getD 1 0 = 2 then
            s.modTrust fun t => { t with ideKeys := Tab.set t.ideKeys i (BitVec.ofNat 256 (natOfBytes ((p.drop 8).take 32))) }
          else if p.getD 1 0 = 5 then s.modTrust fun t => { t with ideKeys := Tab.erase t.ideKeys i }
          else s
        s.respond .vendor [])

/-! ## Key-slot commands (R391) -/

/-- Statuses of the response. -/
inductive SlotStatus where
  | ok | badOp | badSlot | badSig | fuseFail | lastVendor
  deriving DecidableEq, Repr

def SlotStatus.code : SlotStatus → Byte
  | .ok => 0 | .badOp => 1 | .badSlot => 2 | .badSig => 3 | .fuseFail => 4 | .lastVendor => 5

/-- The fuses of a slot hold a key, and its revocation fuse is blown. -/
def Trust.holds (t : Trust) (i : Nat) : Bool := decide (i < 2) || t.fused i != 0
def Trust.isRevoked (t : Trust) (i : Nat) : Bool := NatSet.has t.fuseRevoked i

/-- The response payload. -/
def Trust.slotResponse (t : Trust) (st : SlotStatus) : List Byte :=
  [st.code] ++ ((List.range 6).map fun i => if t.isRevoked i then 2 else if t.holds i then 1 else 0) ++ [0] ++
    (List.range 6).flatMap fun i => hashBytes (t.fused i)

/-- The signature of a request verifies under the slot that its SIGNER names, as the slots stood at release. -/
def Trust.signed (t : Trust) (p : List Byte) : Bool :=
  let signer := (p.getD 2 0).toNat
  let key := (p.drop 36).take 1312
  !NatSet.has t.revoked signer && !t.isRevoked signer && Config.sha3_256 key == Tab.getD t.slots signer 0 &&
    Config.mldsaVerify key (Config.sha3_256 (bytesOfNat 16 Config.devSerial.toNat ++ p.take 36)) ((p.drop 1348).take 2420)

/-- An owner slot that holds a key. -/
def Trust.owner (t : Trust) (i : Nat) : Bool := decide (2 ≤ i ∧ i ≤ 5) && t.holds i

/-- ENROL's conditions. -/
def Trust.enrolStatus (t : Trust) (p : List Byte) : SlotStatus :=
  let slot := (p.getD 1 0).toNat
  let signer := (p.getD 2 0).toNat
  let blank := [2, 3, 4, 5].all fun i => !t.holds i
  if !(decide (2 ≤ slot ∧ slot ≤ 5) && decide (signer ≤ 5) && !t.holds slot && !t.isRevoked slot &&
      (if blank then decide (signer ≤ 1) else t.owner signer)) then .badSlot
  else if t.signed p then .ok else .badSig

/-- REVOKE's conditions. -/
def Trust.revokeStatus (t : Trust) (p : List Byte) : SlotStatus :=
  let slot := (p.getD 1 0).toNat
  let signer := (p.getD 2 0).toNat
  if !(decide (slot ≤ 5 ∧ signer ≤ 5) && t.holds slot && !t.isRevoked slot) then .badSlot
  else if slot ≤ 1 ∧ t.isRevoked (1 - slot) then .lastVendor
  else if !(if slot ≤ 1 then signer == 1 - slot else decide (signer ≤ 1) || (t.owner signer && signer != slot)) then .badSlot
  else if t.signed p then .ok else .badSig

/-- A key-slot command in minimal mode and inside a session; else an error (R391). The effect runs where its conditions hold. -/
def State.slotCommand (s : State) (ops : Byte → Bool) (check : Trust → List Byte → SlotStatus)
    (act : State → List Byte → State × SlotStatus) : State :=
  match s.vendorOp with
  | none => s
  | some o =>
    if o = 0 ∨ !ops o then s
    else
      s.spdm .vendor (fun x => x == .session && s.trust.phase == .minimal) fun s m =>
        let p := payload m
        let (s, st) := match check s.trust p with
          | .ok => act s p
          | st => (s, st)
        s.respond .vendor (s.trust.slotResponse st)

/-- Fuses blown, and read back (log 44). -/
def State.fuse (s : State) (ok bad : Trust → Trust) : State × SlotStatus :=
  let n := s.freeCtr
  let s := { s with freeCtr := n + 1 }
  if Config.fuseReads n then (s.modTrust ok, .ok) else (s.modTrust bad, .fuseFail)

/-- ENROL (R391): HASH fused into SLOT; it takes effect at the next release. -/
def execEnrol (s : State) : Host.Outcome State Fault Refusal :=
  .next (s.slotCommand (· == 1) Trust.enrolStatus fun s p =>
    let slot := (p.getD 1 0).toNat
    s.fuse (fun t => { t with fuses := Tab.set t.fuses slot (BitVec.ofNat 256 (natOfBytes ((p.drop 4).take 32))) })
      fun t => { t with fuses := Tab.set t.fuses slot (Config.fuseLeft s.freeCtr) })

/-- REVOKE (R391): the revocation fuse of SLOT blown. -/
def execRevoke (s : State) : Host.Outcome State Fault Refusal :=
  .next (s.slotCommand (· == 2) Trust.revokeStatus fun s p =>
    s.fuse (fun t => { t with fuseRevoked := NatSet.add t.fuseRevoked (p.getD 1 0).toNat }) id)

/-- QUERY (R391), and the refusal of an opcode that names no command. -/
def execQuery (s : State) : Host.Outcome State Fault Refusal :=
  .next (s.slotCommand (fun o => o != 1 && o != 2) (fun _ p => if p.getD 0 0 = 3 then .ok else .badOp) fun s _ => (s, .ok))

/-! ## MEXT -/

/-- MEASUREMENT_EXTEND (R393): MEAS4 to MEAS7; an INDEX of 0 to 3 is discarded. -/
def execMeasurementExtend (s : State) : Host.Outcome State Fault Refusal :=
  .next (match s.takeCommit (· == regSpace + 0x120200) with
    | none => s
    | some (c, s) =>
      let i := bits (c.dword 4) 0 3
      if i < 4 then s else s.modTrust fun t => t.extend i (bytesOfNat 32 (c.value % 2 ^ 256)))

end Sys2Proof.Machine
end

