-- ==== Sys2Proof/Machine/Reliability.lean ====
section
/-! DEFINITION. Errors of storage, patrol and injection (R404, R405, R415, R416), the error log's tail (R406), sparing and retirement
(R408 to R412). -/

namespace Sys2Proof.Machine

/-! ## Errors -/

/-- A correctable error: at most one CE entry for a unit in a millisecond, with the count since its last one (R406). -/
def State.correctable (s : State) (unit index addr asid : Nat) : State :=
  let u := 2 ^ 16 * unit + index
  let n := Tab.getD s.rel.ceCount u 0 + 1
  match Tab.get? s.rel.ceLast u with
  | some t =>
    if s.clock < t + 1000 * Config.cyclesPerUs then { s with rel := { s.rel with ceCount := Tab.set s.rel.ceCount u n } }
    else { s with rel := { s.rel with ceLast := Tab.set s.rel.ceLast u s.clock, ceCount := Tab.erase s.rel.ceCount u } }.logError
      .ce unit index addr n asid
  | none => { s with rel := { s.rel with ceLast := Tab.set s.rel.ceLast u s.clock } }.logError .ce unit index addr n asid

/-- The unit, index, address and ASID of an entry about a place (R425). -/
def State.placeFields (s : State) : ErrPlace → Nat × Nat × Nat × Nat
  | .hbm pa => (0, (Config.homeSlice (lineOf pa)).val, 32 * atomOf pa, 0)
  | .l2 pa => (1, (Config.homeSlice (lineOf pa)).val, 32 * atomOf pa, 0)
  | .scratch blk odd off =>
    (2, ((s.block? blk).map fun b => b.coreOfHalf odd).getD 0, off / 8 * 8, (s.spaceOf blk).1)
  | .vreg k _ _ | .sreg k _ _ | .pred k _ _ => (2, coreOf k, 0, ((s.gang? k).map Gang.asid).getD 0)
  | .tile c _ => (2, c, 0, (((s.core c).owner).map fun b => (s.spaceOf b).1).getD 0)
  | .monitor i => (1, ((s.mem.monitors[i]?).map Monitor.slice).getD 0, 0, 0)
  | .cache c _ | .tlb c _ | .spare c _ => (2, c, 0, 0)
  | .engine c u _ _ pa => (2, c, 32 * atomOf pa, ((Tab.get? (s.core c).uses u).map fun x => (s.spaceOf x.blk).1).getD 0)
  | .queueSram cl | .walks cl _ => (3, cl, 0, 0)
  | .mgmtSram => (5, 0, 0, 0)

/-- A core that the scrub retires; those that the factory fused off are not scrubbed (R394, R395, R410). -/
def State.scrubRetires (s : State) (c : Nat) : State :=
  if s.dist.encore.getLsbD c then s.modTrust fun t => { t with scrubRetired := t.scrubRetired ||| BitVec.twoPow 192 c } else s

/-- An uncorrectable error while the scrub reads back: a row spared while its pseudo-channel has one left, a core or a spare slice
retired, or a failure (R395; log 43). No block is resident, so its scratchpad is no place. -/
def State.scrubError (s : State) (p : ErrPlace) : State :=
  match p with
  | .hbm pa =>
    if Tab.getD s.rel.spareRows (Config.hbmChannel (atomOf pa)).val 0 < 64 then
      (s.spareRow pa).modTrust fun t => { t with scrubSpared := t.scrubSpared + 1 }
    else (s.spareRow pa).modTrust fun t => { t with scrubFail := t.scrubFail + 1 }
  | .tile c _ | .cache c _ | .tlb c _ => s.scrubRetires c
  | .vreg k .. | .sreg k .. | .pred k .. => s.scrubRetires (coreOf k)
  | .engine c .. => s.scrubRetires c
  | .spare c q => { s with rel := { s.rel with usedSpares := NatSet.add s.rel.usedSpares (4 * c + q) } }
  | .scratch .. => s
  | _ => s.modTrust fun t => { t with scrubFail := t.scrubFail + 1 }

/-- An uncorrectable error where it stands (R404). -/
def State.uncorrectable (s : State) (p : ErrPlace) : State :=
  let (u, i, a, asid) := s.placeFields p
  match p with
  | .hbm pa => if s.inHbm pa then s.modMem fun m => { m with latent := NatSet.add m.latent (atomOf pa) } else s
  | .l2 pa => (s.markAtom pa).logError .poisoned u i a 1 asid
  | .scratch blk odd off => s.modScratch blk odd fun h => { h with latent := NatSet.add h.latent (off / 8) }
  | .vreg k l r => s.modGang k fun g => g.modThread l fun t => { t with bad := t.bad ||| BitVec.twoPow 256 r }
  | .sreg k sl r => s.modGang k fun g => g.modSlice sl fun x => { x with bad := x.bad ||| BitVec.twoPow 64 r }
  | .pred k l r => s.modGang k fun g => g.modThread l fun t => { t with badP := t.badP ||| BitVec.twoPow 8 r }
  | .tile c t =>
    (s.modCore c fun x => { x with tiles := Tab.set x.tiles t { Tab.getD x.tiles t .fresh with poison := true } }).logError
      .poisoned u i a 1 asid
  | .monitor n =>
    match s.mem.monitors[n]? with
    | some m => (s.fireMonitor m).modMem fun x => { x with monitors := x.monitors.eraseIdx n }
    | none => s
  | .cache c line => s.modCore c fun x => { x with
      l1 := Tab.erase x.l1 line, icache := x.icache.filter fun w => !decide (lineOf w.1 = line) }
  | .queueSram cl => (s.logError .ueFresh u i a 1 asid).porterExcept cl .loadFault 0
  | .mgmtSram => s.logError .ueFresh u i a 1 asid
  | .engine c k n j _ =>
    match Tab.get? (s.core c).uses k with
    | some x =>
      let spoil (b : ChunkBuf) : ChunkBuf :=
        if b.n = n ∧ !b.written then { b with elems := b.elems.modify j fun e => (e.1, e.2.1, true) } else b
      (s.setUse c k { x with bufs := x.bufs.map spoil }).logError .ueFresh u i a 1 asid
    | none => s
  | .tlb c j => s.modCore c fun x => { x with tlb := x.tlb.eraseIdx j }
  | .walks cl j => s.setCluster cl { s.cluster cl with walks := (s.cluster cl).walks.eraseIdx j }
  | .spare .. => s

/-- STORAGE_ERROR (R404): corrected, with its CE entry, or uncorrectable; caches, TLBs and walk caches have parity alone and refetch. -/
def execStorageError (p : ErrPlace) (fatal : Bool) (s : State) : Host.Outcome State Fault Refusal :=
  .next (
    let cached := match p with | .cache .. | .tlb .. | .walks .. => true | _ => false
    if fatal || cached then (if s.trust.phase = .scrub then s.scrubError p else s.uncorrectable p)
    else
      let (u, i, a, asid) := s.placeFields p
      s.correctable u i a asid)

/-- PATROL_READ (R405): an uncorrectable error is treated as FRESH; a mark is left. -/
def execPatrolRead (pa : Nat) (s : State) : Host.Outcome State Fault Refusal :=
  .next (if !s.inHbm pa then s
    else if s.injects (32 * atomOf pa) 32 then (s.injectionFired s.rel.inj.fcore).logFresh pa 0
    else if NatSet.has s.mem.poison (atomOf pa) then s
    else if NatSet.has s.mem.latent (atomOf pa) then (s.errorFound pa).logFresh pa 0
    else s)

/-! ## Injection -/

/-- The register ERRINJ. -/
def errinjReg : Nat := regSpace + 0x1230C0

/-- ERRINJ_ARM (R415, R416): SPACE 1 or 2. -/
def execErrinjArm (s : State) : Host.Outcome State Fault Refusal :=
  .next (match s.takeCommit (· == errinjReg) with
    | none => s
    | some (c, s1) =>
      let sp := bits (c.dword 0) 0 2
      if sp = 0 ∨ sp = 3 then s
      else { s1 with rel := { s1.rel with inj := {
        space := sp, any := bits (c.dword 0) 2 1 == 1, core := bits (c.dword 0) 8 8
        addr := (if sp = 2 then bits (c.dword 1) 3 17 else bits (c.dword 1) 3 49) * 8, armed := true, fired := false
        fcore := s1.rel.inj.fcore } } })

/-- ERRINJ_DISARM (R415, R416): SPACE 0; a commit with SPACE 3 is discarded. -/
def execErrinjDisarm (s : State) : Host.Outcome State Fault Refusal :=
  .next (match s.takeCommit (· == errinjReg) with
    | none => s
    | some (c, s1) =>
      let sp := bits (c.dword 0) 0 2
      if sp = 3 then s1
      else if sp = 0 then { s1 with rel := { s1.rel with inj := { s1.rel.inj with armed := false, fired := false } } }
      else s)

/-! ## The log's tail -/

/-- ERRTAIL (R406): entries consumed, and the next one sends its message again. -/
def execErrtail (s : State) : Host.Outcome State Fault Refusal :=
  .next (match s.takeCommit (· == regSpace + 0x123018) with
    | none => s
    | some (c, s) => { s with rel := { s.rel with errTail := bits (c.dword 0) 0 16, errQuiet := false } })

/-! ## Sparing and retirement -/

/-- Every block that a core holds is evicted whole, and nothing is admitted to it (R357, R408, R409). -/
def State.emptyCore (s : State) (c : Nat) : State :=
  ((s.blocks.filter fun b => b.2.holds c).map Prod.fst).foldl (fun (s : State) b => s.evictWhole b)
    { s with rel := { s.rel with retiring := NatSet.add s.rel.retiring c } }

/-- SPARE (R408): refused where the quadrant's spare is in use; ignored while a steering is under way. -/
def execSpare (s : State) : Host.Outcome State Fault Refusal :=
  .next (match s.takeCommit (· == regSpace + 0x123080) with
    | none => s
    | some (c, s) =>
      let core := bits (c.dword 0) 0 8
      let quad := bits (c.dword 0) 8 2
      if s.rel.spareReq.isSome then s
      else if !s.coreOpen core || NatSet.has s.rel.usedSpares (4 * core + quad) then { s with rel := { s.rel with spareStat := 3 } }
      else { s with rel := { s.rel with spareStat := 1, spareReq := some (core, quad, bits (c.dword 0) 10 3) } }.emptyCore core)

/-- SPARE_STEER_COMPLETE (R408): the core is empty; it returns to service. -/
def execSpareSteerComplete (s : State) : Host.Outcome State Fault Refusal :=
  .next (match s.rel.spareReq with
    | none => s
    | some (core, quad, _) =>
      if !s.coreEmpty core then s
      else
        { s with rel := { s.rel with
          spareReq := none, spareStat := 2, usedSpares := NatSet.add s.rel.usedSpares (4 * core + quad)
          retiring := NatSet.del s.rel.retiring core } }.logError .spareSteered 2 core 0 1 0)

/-- A core that is being retired, and is empty. -/
def State.retirable (s : State) : Option Nat :=
  s.rel.retiring.find? fun c => s.coreEmpty c && (s.rel.spareReq.map Prod.fst) != some c

/-- A core's storage cleared, and its ENCORE bit (R409). -/
def State.retireCore (s : State) (c : Nat) : State :=
  let s := s.setCore c .fresh
  { s with
    dist := { s.dist with encore := s.dist.encore &&& ~~~(BitVec.twoPow 192 c) }
    rel := { s.rel with retiring := NatSet.del s.rel.retiring c, retiredCores := NatSet.add s.rel.retiredCores c } }.logError
      .coreRetired 2 c 0 1 0

/-- CORERETIRE (R409): a write starts the eviction; once the core is empty and its flushes are acknowledged, it retires. -/
def execCoreretire (s : State) : Host.Outcome State Fault Refusal :=
  .next (match s.takeCommit (· == regSpace + 0x123090) with
    | some (c, s) =>
      let core := bits (c.dword 0) 0 8
      if core < Config.numCores ∧ !NatSet.has s.rel.retiredCores core then s.emptyCore core else s
    | none =>
      match s.retirable with
      | some c => s.retireCore c
      | none => s)

/-- ROWSPARE (R411). -/
def execRowspare (s : State) : Host.Outcome State Fault Refusal :=
  .next (match s.takeCommit (· == regSpace + 0x123098) with
    | none => s
    | some (c, s) =>
      let pa := bits (c.dword 0) 5 47 * 32
      if s.inHbm pa then s.spareRow pa else s)

/-- CHRETIRE (R412): at the next reset. -/
def execChretire (s : State) : Host.Outcome State Fault Refusal :=
  .next (match s.takeCommit (· == regSpace + 0x1230A0) with
    | none => s
    | some (c, s) => { s with rel := { s.rel with nextRetired := NatSet.add s.rel.nextRetired (bits (c.dword 0) 0 8) } })

end Sys2Proof.Machine
end

