-- ==== Sys2Proof/Machine/Special.lean ====
section
/-! DEFINITION. Special functions, OP 0x50 (R212). -/

namespace Sys2Proof.Machine

/-- A special function: a long-latency producer (R189, R212). -/
def opSpecial (i : Instr) (f : Fields) (fn : SpecialFn) : Op :=
  opLate i f fun s l => aluSpecial fn f.ty f.md.toNat (s.srcA i f l)

/-- RCP (R75 to R77, R212). -/
def execRcp (f : Fields) (s : State) : Host.Outcome State Fault Refusal :=
  runInstr f (opSpecial (.rcp f) f .rcp) s

/-- RSQ (R75 to R77, R212). -/
def execRsq (f : Fields) (s : State) : Host.Outcome State Fault Refusal :=
  runInstr f (opSpecial (.rsq f) f .rsq) s

/-- SQRT (R75 to R77, R212). -/
def execSqrt (f : Fields) (s : State) : Host.Outcome State Fault Refusal :=
  runInstr f (opSpecial (.sqrt f) f .sqrt) s

/-- EX2 (R75 to R77, R212). -/
def execEx2 (f : Fields) (s : State) : Host.Outcome State Fault Refusal :=
  runInstr f (opSpecial (.ex2 f) f .ex2) s

/-- LG2 (R75 to R77, R212). -/
def execLg2 (f : Fields) (s : State) : Host.Outcome State Fault Refusal :=
  runInstr f (opSpecial (.lg2 f) f .lg2) s

/-- SINPI (R75 to R77, R212). -/
def execSinpi (f : Fields) (s : State) : Host.Outcome State Fault Refusal :=
  runInstr f (opSpecial (.sinpi f) f .sinpi) s

/-- COSPI (R75 to R77, R212). -/
def execCospi (f : Fields) (s : State) : Host.Outcome State Fault Refusal :=
  runInstr f (opSpecial (.cospi f) f .cospi) s

/-- TANH (R75 to R77, R212). -/
def execTanh (f : Fields) (s : State) : Host.Outcome State Fault Refusal :=
  runInstr f (opSpecial (.tanh f) f .tanh) s

end Sys2Proof.Machine
end

