-- ==== Sys2Proof/Machine/Stores.lean ====
section
/-! DEFINITION. Stores, OP 0x61 (R234 to R239), the prefetch, FECLR and the fences, OP 0x62 (R243 to R246), and the application of
committed stores and queued reductions at their homes (R101, R118). -/

namespace Sys2Proof.Machine

/-- ST.G (R238). -/
def execStG (f : Fields) (s : State) : Host.Outcome State Fault Refusal :=
  runInstr f (opStore (.stG f) f .glob false none) s

/-- ST.G.REL (R239). -/
def execStGRel (f : Fields) (s : State) : Host.Outcome State Fault Refusal :=
  runInstr f (opStore (.stGRel f) f .glob false (some (scopeOf f.md.toNat))) s

/-- ST.S (R238). -/
def execStS (f : Fields) (s : State) : Host.Outcome State Fault Refusal :=
  runInstr f (opStore (.stS f) f .scratch false none) s

/-- ST.S.REL (R239). -/
def execStSRel (f : Fields) (s : State) : Host.Outcome State Fault Refusal :=
  runInstr f (opStore (.stSRel f) f .scratch false (some (scopeOf f.md.toNat))) s

/-- ST.S.FS (R238, R239). -/
def execStSFs (f : Fields) (s : State) : Host.Outcome State Fault Refusal :=
  runInstr f (opStore (.stSFs f) f .scratch true (some .block)) s

/-! ## Prefetch, granule clear and fences -/

/-- PRF (R244): the line into the L1, or nothing that any load could see; a lane whose access would raise a cause does nothing. -/
def execPrf (f : Fields) (s : State) : Host.Outcome State Fault Refusal :=
  runInstr f (Op.base (.prf f) f fun s l =>
    (match s.ea (.prf f) f l .glob .read 1 with
      | (s1, .ok (.glob a (.hbm pa) _)) =>
        if f.md = 0 then
          match s1.homeRead (coreOf s.focus.key) pa 1 s.focusGang.asid with
          | some (s2, .data _) => s2.fillL1 (coreOf s.focus.key) s.focusGang.asid a pa
          | _ => s
        else s1
      | _ => s, .ok Eff.none)) s

/-- The half and the granules of a range that FECLR clears, or its cause (R245). -/
def State.clearRange (s : State) (a len : Nat) : Except Cause (Option (Bool × List Nat)) :=
  if a % 16 ≠ 0 ∨ len % 16 ≠ 0 then .error .misaligned
  else if len = 0 then .ok none
  else
    match (s.block? s.focusGang.blk).bind fun b => b.placeOf (coreOf s.focus.key) a len with
    | some (odd, off) => .ok (some (odd, granulesOf off len))
    | none => .error .scratchRange

/-- An entry of a core for one of some granules of a half. -/
def StoreEntry.inGranules (e : StoreEntry) (core blk : Nat) (odd : Bool) (gs : List Nat) : Bool :=
  e.core == core && (match e.place with | .scratch b o off => b == blk && o == odd && gs.contains (off / 16) | _ => false)

/-- FECLR (R245): the core's earlier stores to the range come first. -/
def execFeclr (f : Fields) (s : State) : Host.Outcome State Fault Refusal :=
  let b := Op.base (.feclr f) f fun s l =>
    let a := (s.srcA (.feclr f) f l + f.imm.toNat) % 2 ^ 32
    let blk := s.focusGang.blk
    match s.clearRange a (s.srcB (.feclr f) f l) with
    | .error c => (s, .trap ⟨l, c, Access.write.code, 0, 0, 16, 0, BitVec.ofNat 64 a⟩)
    | .ok none => (s, .ok Eff.none)
    | .ok (some (odd, gs)) =>
      match s.drain fun e => e.inGranules (coreOf s.focus.key) blk odd gs with
      | none => (s, .hold)
      | some s =>
        (s.modScratch blk odd fun h => { h with full := gs.foldl NatSet.del h.full }, .ok Eff.none)
  runInstr f { b with cls := .ending } s

/-- A load of the thread toward another device has not returned. -/
def State.loadsOut (s : State) (l : Nat) : Bool := (s.focusGang.thread l).pend.any fun q => !q.ready

/-- FENCE.ACQ (R246, R106): performed once the thread's loads have been. -/
def execFenceAcq (f : Fields) (s : State) : Host.Outcome State Fault Refusal :=
  runInstr f (Op.base (.fenceAcq f) f fun s l =>
    if s.loadsOut l then (s, .hold)
    else (s.acquireL1 (coreOf s.focus.key) (scopeOf f.md.toNat), .ok Eff.none)).awaitFlush s

/-- FENCE.REL (R246, R106 (e)): the thread's later stores follow its earlier ones. -/
def execFenceRel (f : Fields) (s : State) : Host.Outcome State Fault Refusal :=
  runInstr f ((Op.base (.fenceRel f) f fun s _ => (s, .ok { Eff.none with fence := true })).publishes
    (scopeOf f.md.toNat).wide 0) s

/-- FENCE.AR (R246): completes once every committed store of the thread has been performed. -/
def execFenceAr (f : Fields) (s : State) : Host.Outcome State Fault Refusal :=
  let b := Op.base (.fenceAr f) f fun s l =>
    if s.loadsOut l then (s, .hold)
    else
      match s.drainThread s.focusGang.tag l with
      | none => (s, .hold)
      | some s => (s.acquireL1 (coreOf s.focus.key) (scopeOf f.md.toNat), .ok { Eff.none with fence := true })
  runInstr f ({ b with cls := .ending }.publishes (scopeOf f.md.toNat).wide 0).awaitFlush s

/-! ## Application at the home -/

/-- STORE_APPLY_AT_HOME (R101, R102, R105, R106): the committed entry at a position is applied, with those that have to precede
it. -/
def execStoreApplyAtHome (i : Nat) (s : State) : Host.Outcome State Fault Refusal :=
  .next (match s.mem.inflight[i]? with
    | some e => (s.drain fun x => x == e).getD s
    | none => s)

/-- RED_APPLY (R118): the queued reduction at a position, after the earlier ones of its line. -/
def execRedApply (i : Nat) (s : State) : Host.Outcome State Fault Refusal :=
  .next (match s.mem.redq[i]? with
    | some e => s.drainRed e.place.line
    | none => s)

end Sys2Proof.Machine
end

