-- ==== Sys2Proof/Machine/Dispatch.lean ====
section
/-! DEFINITION. The dispatch: one arm per constructor of Instr. -/

namespace Sys2Proof.Machine

def exec (i : Instr) (s : State) : Host.Outcome State Fault Refusal :=
  match i with
  | .bra f => Sys2Proof.Machine.execBra f s
  | .brx f => Sys2Proof.Machine.execBrx f s
  | .call f => Sys2Proof.Machine.execCall f s
  | .callInd f => Sys2Proof.Machine.execCallInd f s
  | .ret f => Sys2Proof.Machine.execRet f s
  | .loop f => Sys2Proof.Machine.execLoop f s
  | .exit f => Sys2Proof.Machine.execExit f s
  | .nop f => Sys2Proof.Machine.execNop f s
  | .yield f => Sys2Proof.Machine.execYield f s
  | .sleep f => Sys2Proof.Machine.execSleep f s
  | .sleepEnd k w => Sys2Proof.Machine.execSleepEnd k w s
  | .bpt f => Sys2Proof.Machine.execBpt f s
  | .trap f => Sys2Proof.Machine.execTrap f s
  | .illegalWord c => Sys2Proof.Machine.execIllegalWord c s
  | .iadd f => Sys2Proof.Machine.execIadd f s
  | .isub f => Sys2Proof.Machine.execIsub f s
  | .iaddc f => Sys2Proof.Machine.execIaddc f s
  | .isubb f => Sys2Proof.Machine.execIsubb f s
  | .imul f => Sys2Proof.Machine.execImul f s
  | .imulh f => Sys2Proof.Machine.execImulh f s
  | .imad f => Sys2Proof.Machine.execImad f s
  | .imadw f => Sys2Proof.Machine.execImadw f s
  | .imin f => Sys2Proof.Machine.execImin f s
  | .imax f => Sys2Proof.Machine.execImax f s
  | .iabs f => Sys2Proof.Machine.execIabs f s
  | .ineg f => Sys2Proof.Machine.execIneg f s
  | .icmp f => Sys2Proof.Machine.execIcmp f s
  | .iset f => Sys2Proof.Machine.execIset f s
  | .sel f => Sys2Proof.Machine.execSel f s
  | .mov f => Sys2Proof.Machine.execMov f s
  | .lea f => Sys2Proof.Machine.execLea f s
  | .and f => Sys2Proof.Machine.execAnd f s
  | .or f => Sys2Proof.Machine.execOr f s
  | .xor f => Sys2Proof.Machine.execXor f s
  | .andn f => Sys2Proof.Machine.execAndn f s
  | .not f => Sys2Proof.Machine.execNot f s
  | .shl f => Sys2Proof.Machine.execShl f s
  | .shr f => Sys2Proof.Machine.execShr f s
  | .sar f => Sys2Proof.Machine.execSar f s
  | .rot f => Sys2Proof.Machine.execRot f s
  | .shf f => Sys2Proof.Machine.execShf f s
  | .bfe f => Sys2Proof.Machine.execBfe f s
  | .bfi f => Sys2Proof.Machine.execBfi f s
  | .popc f => Sys2Proof.Machine.execPopc f s
  | .clz f => Sys2Proof.Machine.execClz f s
  | .ctz f => Sys2Proof.Machine.execCtz f s
  | .brev f => Sys2Proof.Machine.execBrev f s
  | .prmt f => Sys2Proof.Machine.execPrmt f s
  | .pand f => Sys2Proof.Machine.execPand f s
  | .por f => Sys2Proof.Machine.execPor f s
  | .pxor f => Sys2Proof.Machine.execPxor f s
  | .pmov f => Sys2Proof.Machine.execPmov f s
  | .fadd f => Sys2Proof.Machine.execFadd f s
  | .fsub f => Sys2Proof.Machine.execFsub f s
  | .fmul f => Sys2Proof.Machine.execFmul f s
  | .ffma f => Sys2Proof.Machine.execFfma f s
  | .fmin f => Sys2Proof.Machine.execFmin f s
  | .fmax f => Sys2Proof.Machine.execFmax f s
  | .fabs f => Sys2Proof.Machine.execFabs f s
  | .fneg f => Sys2Proof.Machine.execFneg f s
  | .fcmp f => Sys2Proof.Machine.execFcmp f s
  | .fset f => Sys2Proof.Machine.execFset f s
  | .fclass f => Sys2Proof.Machine.execFclass f s
  | .frnd f => Sys2Proof.Machine.execFrnd f s
  | .fscale f => Sys2Proof.Machine.execFscale f s
  | .faddF64 f => Sys2Proof.Machine.execFaddF64 f s
  | .fsubF64 f => Sys2Proof.Machine.execFsubF64 f s
  | .fmulF64 f => Sys2Proof.Machine.execFmulF64 f s
  | .ffmaF64 f => Sys2Proof.Machine.execFfmaF64 f s
  | .fminF64 f => Sys2Proof.Machine.execFminF64 f s
  | .fmaxF64 f => Sys2Proof.Machine.execFmaxF64 f s
  | .fabsF64 f => Sys2Proof.Machine.execFabsF64 f s
  | .fnegF64 f => Sys2Proof.Machine.execFnegF64 f s
  | .fcmpF64 f => Sys2Proof.Machine.execFcmpF64 f s
  | .fsetF64 f => Sys2Proof.Machine.execFsetF64 f s
  | .fclassF64 f => Sys2Proof.Machine.execFclassF64 f s
  | .frndF64 f => Sys2Proof.Machine.execFrndF64 f s
  | .fscaleF64 f => Sys2Proof.Machine.execFscaleF64 f s
  | .cvt f => Sys2Proof.Machine.execCvt f s
  | .pack f => Sys2Proof.Machine.execPack f s
  | .unpack f => Sys2Proof.Machine.execUnpack f s
  | .cvt8 f => Sys2Proof.Machine.execCvt8 f s
  | .cvt4 f => Sys2Proof.Machine.execCvt4 f s
  | .qmx f => Sys2Proof.Machine.execQmx f s
  | .rcp f => Sys2Proof.Machine.execRcp f s
  | .rsq f => Sys2Proof.Machine.execRsq f s
  | .sqrt f => Sys2Proof.Machine.execSqrt f s
  | .ex2 f => Sys2Proof.Machine.execEx2 f s
  | .lg2 f => Sys2Proof.Machine.execLg2 f s
  | .sinpi f => Sys2Proof.Machine.execSinpi f s
  | .cospi f => Sys2Proof.Machine.execCospi f s
  | .tanh f => Sys2Proof.Machine.execTanh f s
  | .shfl f => Sys2Proof.Machine.execShfl f s
  | .ballot f => Sys2Proof.Machine.execBallot f s
  | .vote f => Sys2Proof.Machine.execVote f s
  | .matchAny f => Sys2Proof.Machine.execMatchAny f s
  | .redux f => Sys2Proof.Machine.execRedux f s
  | .scanx f => Sys2Proof.Machine.execScanx f s
  | .elect f => Sys2Proof.Machine.execElect f s
  | .producerWriteback k lane id => Sys2Proof.Machine.execProducerWriteback k lane id s
  | .ldG f => Sys2Proof.Machine.execLdG f s
  | .ldGAcq f => Sys2Proof.Machine.execLdGAcq f s
  | .ldGEd f => Sys2Proof.Machine.execLdGEd f s
  | .ldGEdRpt f => Sys2Proof.Machine.execLdGEdRpt f s
  | .ldS f => Sys2Proof.Machine.execLdS f s
  | .ldSAcq f => Sys2Proof.Machine.execLdSAcq f s
  | .ldSFw f => Sys2Proof.Machine.execLdSFw f s
  | .ldSFc f => Sys2Proof.Machine.execLdSFc f s
  | .fullLoadPerform k w => Sys2Proof.Machine.execFullLoadPerform k w s
  | .ldK f => Sys2Proof.Machine.execLdK f s
  | .stG f => Sys2Proof.Machine.execStG f s
  | .stGRel f => Sys2Proof.Machine.execStGRel f s
  | .stS f => Sys2Proof.Machine.execStS f s
  | .stSRel f => Sys2Proof.Machine.execStSRel f s
  | .stSFs f => Sys2Proof.Machine.execStSFs f s
  | .draftCommit k lane => Sys2Proof.Machine.execDraftCommit k lane s
  | .storeApplyAtHome idx => Sys2Proof.Machine.execStoreApplyAtHome idx s
  | .redApply idx => Sys2Proof.Machine.execRedApply idx s
  | .prf f => Sys2Proof.Machine.execPrf f s
  | .feclr f => Sys2Proof.Machine.execFeclr f s
  | .fenceAcq f => Sys2Proof.Machine.execFenceAcq f s
  | .fenceRel f => Sys2Proof.Machine.execFenceRel f s
  | .fenceAr f => Sys2Proof.Machine.execFenceAr f s
  | .atomAdd o f => Sys2Proof.Machine.execAtomAdd o f s
  | .atomMin o f => Sys2Proof.Machine.execAtomMin o f s
  | .atomMax o f => Sys2Proof.Machine.execAtomMax o f s
  | .atomAnd o f => Sys2Proof.Machine.execAtomAnd o f s
  | .atomOr o f => Sys2Proof.Machine.execAtomOr o f s
  | .atomXor o f => Sys2Proof.Machine.execAtomXor o f s
  | .atomExch o f => Sys2Proof.Machine.execAtomExch o f s
  | .atomFadd o f => Sys2Proof.Machine.execAtomFadd o f s
  | .cas o f => Sys2Proof.Machine.execCas o f s
  | .redAdd rel f => Sys2Proof.Machine.execRedAdd rel f s
  | .redMin rel f => Sys2Proof.Machine.execRedMin rel f s
  | .redMax rel f => Sys2Proof.Machine.execRedMax rel f s
  | .redAnd rel f => Sys2Proof.Machine.execRedAnd rel f s
  | .redOr rel f => Sys2Proof.Machine.execRedOr rel f s
  | .redXor rel f => Sys2Proof.Machine.execRedXor rel f s
  | .redFadd rel f => Sys2Proof.Machine.execRedFadd rel f s
  | .ednext f => Sys2Proof.Machine.execEdnext f s
  | .edsync f => Sys2Proof.Machine.execEdsync f s
  | .editionAutoRelease asid => Sys2Proof.Machine.execEditionAutoRelease asid s
  | .sread f => Sys2Proof.Machine.execSread f s
  | .swrite f => Sys2Proof.Machine.execSwrite f s
  | .sysc f => Sys2Proof.Machine.execSysc f s
  | .syscA f => Sys2Proof.Machine.execSyscA f s
  | .draft f => Sys2Proof.Machine.execDraft f s
  | .barInit f => Sys2Proof.Machine.execBarInit f s
  | .barArr f => Sys2Proof.Machine.execBarArr f s
  | .barExp f => Sys2Proof.Machine.execBarExp f s
  | .barWait f => Sys2Proof.Machine.execBarWait f s
  | .barrierWaitWake k w => Sys2Proof.Machine.execBarrierWaitWake k w s
  | .barTest f => Sys2Proof.Machine.execBarTest f s
  | .mbxPush f => Sys2Proof.Machine.execMbxPush f s
  | .mbxPushTry f => Sys2Proof.Machine.execMbxPushTry f s
  | .mbxPop f => Sys2Proof.Machine.execMbxPop f s
  | .mailboxPushWake k w => Sys2Proof.Machine.execMailboxPushWake k w s
  | .mailboxPopWake k w => Sys2Proof.Machine.execMailboxPopWake k w s
  | .mon f => Sys2Proof.Machine.execMon f s
  | .evarm f => Sys2Proof.Machine.execEvarm f s
  | .evdis f => Sys2Proof.Machine.execEvdis f s
  | .evclr f => Sys2Proof.Machine.execEvclr f s
  | .waitany f => Sys2Proof.Machine.execWaitany f s
  | .waitanyDelivery k => Sys2Proof.Machine.execWaitanyDelivery k s
  | .deadlineExpire k => Sys2Proof.Machine.execDeadlineExpire k s
  | .cpy f => Sys2Proof.Machine.execCpy f s
  | .cpyAcceptDeferred k w => Sys2Proof.Machine.execCpyAcceptDeferred k w s
  | .copyChunk c u n => Sys2Proof.Machine.execCopyChunk c u n s
  | .copySrcDone c u => Sys2Proof.Machine.execCopySrcDone c u s
  | .copyVisible c u => Sys2Proof.Machine.execCopyVisible c u s
  | .cbatch f => Sys2Proof.Machine.execCbatch f s
  | .cbatchDeferredSeal k w => Sys2Proof.Machine.execCbatchDeferredSeal k w s
  | .cwait f => Sys2Proof.Machine.execCwait f s
  | .cwaitRelease k w => Sys2Proof.Machine.execCwaitRelease k w s
  | .cstat f => Sys2Proof.Machine.execCstat f s
  | .mbind f => Sys2Proof.Machine.execMbind f s
  | .matrixSetForm c set => Sys2Proof.Machine.execMatrixSetForm c set s
  | .mbindU f => Sys2Proof.Machine.execMbindU f s
  | .matrixCollectiveStart c set => Sys2Proof.Machine.execMatrixCollectiveStart c set s
  | .mma f => Sys2Proof.Machine.execMma f s
  | .mmaComplete c => Sys2Proof.Machine.execMmaComplete c s
  | .mzero f => Sys2Proof.Machine.execMzero f s
  | .mlda f => Sys2Proof.Machine.execMlda f s
  | .msta f => Sys2Proof.Machine.execMsta f s
  | .mrgd f => Sys2Proof.Machine.execMrgd f s
  | .rotationEnter k sl => Sys2Proof.Machine.execRotationEnter k sl s
  | .rotationLeave k sl => Sys2Proof.Machine.execRotationLeave k sl s
  | .subgangSwap kOut out kIn inn => Sys2Proof.Machine.execSubgangSwap kOut out kIn inn s
  | .agedSwap kOut out kIn inn => Sys2Proof.Machine.execAgedSwap kOut out kIn inn s
  | .blockRetire b => Sys2Proof.Machine.execBlockRetire b s
  | .heldSourceEnter cl idx => Sys2Proof.Machine.execHeldSourceEnter cl idx s
  | .pgread cl d a b => Sys2Proof.Machine.execPgread cl d a b s
  | .pgwrite cl d a b c => Sys2Proof.Machine.execPgwrite cl d a b c s
  | .gangStop cl h => Sys2Proof.Machine.execGangStop cl h s
  | .gangHalt k => Sys2Proof.Machine.execGangHalt k s
  | .gangRelease cl h => Sys2Proof.Machine.execGangRelease cl h s
  | .gangSave cl h area => Sys2Proof.Machine.execGangSave cl h area s
  | .gangRestore cl h area => Sys2Proof.Machine.execGangRestore cl h area s
  | .gangClear cl h => Sys2Proof.Machine.execGangClear cl h s
  | .gangKill cl h => Sys2Proof.Machine.execGangKill cl h s
  | .gangClearfree cl h => Sys2Proof.Machine.execGangClearfree cl h s
  | .presume cl d a b => Sys2Proof.Machine.execPresume cl d a b s
  | .pmsendChannel cl d a b => Sys2Proof.Machine.execPmsendChannel cl d a b s
  | .pmsendMailbox cl d a b => Sys2Proof.Machine.execPmsendMailbox cl d a b s
  | .pmrecv cl d a b => Sys2Proof.Machine.execPmrecv cl d a b s
  | .pcallrec cl d a b => Sys2Proof.Machine.execPcallrec cl d a b s
  | .sfenceVma cl rs1 rs2 => Sys2Proof.Machine.execSfenceVma cl rs1 rs2 s
  | .tlbiComplete cl => Sys2Proof.Machine.execTlbiComplete cl s
  | .pageWalk cl asid root va => Sys2Proof.Machine.execPageWalk cl asid root va s
  | .registerWrite w r x => Sys2Proof.Machine.execRegisterWrite w r x s
  | .gangPlace idx => Sys2Proof.Machine.execGangPlace idx s
  | .evictionUseDeadline b => Sys2Proof.Machine.execEvictionUseDeadline b s
  | .blockImageSave b => Sys2Proof.Machine.execBlockImageSave b s
  | .blockRestore b => Sys2Proof.Machine.execBlockRestore b s
  | .routerHoldExpire c => Sys2Proof.Machine.execRouterHoldExpire c s
  | .flushAck c idx => Sys2Proof.Machine.execFlushAck c idx s
  | .hostCxlMemAccess op pa n => Sys2Proof.Machine.execHostCxlMemAccess op pa n s
  | .flitReceive port src phase crcOk tagOk plain req => Sys2Proof.Machine.execFlitReceive port src phase crcOk tagOk plain req s
  | .laneDrop port => Sys2Proof.Machine.execLaneDrop port s
  | .remoteRequest idx => Sys2Proof.Machine.execRemoteRequest idx s
  | .remoteAck dev seq status data => Sys2Proof.Machine.execRemoteAck dev seq status data s
  | .remoteRetransmit dev seq => Sys2Proof.Machine.execRemoteRetransmit dev seq s
  | .remoteRequestFail dev seq => Sys2Proof.Machine.execRemoteRequestFail dev seq s
  | .pskeySwitch dev => Sys2Proof.Machine.execPskeySwitch dev s
  | .keylow dev => Sys2Proof.Machine.execKeylow dev s
  | .keyLimit dev => Sys2Proof.Machine.execKeyLimit dev s
  | .streamDown dev => Sys2Proof.Machine.execStreamDown dev s
  | .streamTagFailures dev => Sys2Proof.Machine.execStreamTagFailures dev s
  | .nvmeMsix d vec => Sys2Proof.Machine.execNvmeMsix d vec s
  | .nvmeDma d wr pa data => Sys2Proof.Machine.execNvmeDma d wr pa data s
  | .ethTxComplete q => Sys2Proof.Machine.execEthTxComplete q s
  | .ethRxFrame p frame bad => Sys2Proof.Machine.execEthRxFrame p frame bad s
  | .patrolRead pa => Sys2Proof.Machine.execPatrolRead pa s
  | .corePowerGate c => Sys2Proof.Machine.execCorePowerGate c s
  | .corePowerUpComplete c => Sys2Proof.Machine.execCorePowerUpComplete c s
  | .porterLoadStoreAmo cl acc => Sys2Proof.Machine.execPorterLoadStoreAmo cl acc s
  | .porterFence cl pred succ => Sys2Proof.Machine.execPorterFence cl pred succ s
  | .porterTimerInterrupt cl => Sys2Proof.Machine.execPorterTimerInterrupt cl s
  | .storageError p fatal => Sys2Proof.Machine.execStorageError p fatal s
  | .instructionFetchFault c va level errkind => Sys2Proof.Machine.execInstructionFetchFault c va level errkind s
  | .tlbiCluster => Sys2Proof.Machine.execTlbiCluster s
  | .tlbiDevice => Sys2Proof.Machine.execTlbiDevice s
  | .engineResume => Sys2Proof.Machine.execEngineResume s
  | .engineAbort => Sys2Proof.Machine.execEngineAbort s
  | .launchPost => Sys2Proof.Machine.execLaunchPost s
  | .distributorAdmit => Sys2Proof.Machine.execDistributorAdmit s
  | .fragmentationGuard => Sys2Proof.Machine.execFragmentationGuard s
  | .distack => Sys2Proof.Machine.execDistack s
  | .jpush => Sys2Proof.Machine.execJpush s
  | .pskeyCommit => Sys2Proof.Machine.execPskeyCommit s
  | .ethTxTail => Sys2Proof.Machine.execEthTxTail s
  | .deviceRelease => Sys2Proof.Machine.execDeviceRelease s
  | .leaseBlockWrite => Sys2Proof.Machine.execLeaseBlockWrite s
  | .bootBlockWrite => Sys2Proof.Machine.execBootBlockWrite s
  | .scrubComplete => Sys2Proof.Machine.execScrubComplete s
  | .bootStep => Sys2Proof.Machine.execBootStep s
  | .imageSourceTimeout => Sys2Proof.Machine.execImageSourceTimeout s
  | .porterBootTimeout => Sys2Proof.Machine.execPorterBootTimeout s
  | .watchdog => Sys2Proof.Machine.execWatchdog s
  | .bootok => Sys2Proof.Machine.execBootok s
  | .stagingChunklen => Sys2Proof.Machine.execStagingChunklen s
  | .stagingChunkTaken => Sys2Proof.Machine.execStagingChunkTaken s
  | .stagingTotal => Sys2Proof.Machine.execStagingTotal s
  | .getVersion => Sys2Proof.Machine.execGetVersion s
  | .getCapabilities => Sys2Proof.Machine.execGetCapabilities s
  | .negotiateAlgorithms => Sys2Proof.Machine.execNegotiateAlgorithms s
  | .getDigests => Sys2Proof.Machine.execGetDigests s
  | .getCertificate => Sys2Proof.Machine.execGetCertificate s
  | .challenge => Sys2Proof.Machine.execChallenge s
  | .getMeasurements => Sys2Proof.Machine.execGetMeasurements s
  | .keyExchange => Sys2Proof.Machine.execKeyExchange s
  | .finish => Sys2Proof.Machine.execFinish s
  | .endSession => Sys2Proof.Machine.execEndSession s
  | .ideKm => Sys2Proof.Machine.execIdeKm s
  | .enrol => Sys2Proof.Machine.execEnrol s
  | .revoke => Sys2Proof.Machine.execRevoke s
  | .query => Sys2Proof.Machine.execQuery s
  | .measurementExtend => Sys2Proof.Machine.execMeasurementExtend s
  | .spare => Sys2Proof.Machine.execSpare s
  | .spareSteerComplete => Sys2Proof.Machine.execSpareSteerComplete s
  | .coreretire => Sys2Proof.Machine.execCoreretire s
  | .rowspare => Sys2Proof.Machine.execRowspare s
  | .chretire => Sys2Proof.Machine.execChretire s
  | .errtail => Sys2Proof.Machine.execErrtail s
  | .errinjArm => Sys2Proof.Machine.execErrinjArm s
  | .errinjDisarm => Sys2Proof.Machine.execErrinjDisarm s
  | .deviceReset => Sys2Proof.Machine.execDeviceReset s
  | .standbyPowerLoss => Sys2Proof.Machine.execStandbyPowerLoss s
  | .ethRxTail => Sys2Proof.Machine.execEthRxTail s

end Sys2Proof.Machine
end

