-- ==== Sys2Proof/Machine/Issue.lean ====
section
/-! DEFINITION. Fetch and issue of a compute core: the slice PC, the execution mask and the sub-gang of a slice, the three words
read at its PC, and the row of the table that they name (R21 to R25, R157, R158, R170, R171, R325). -/

namespace Sys2Proof.Machine

/-! ## Fetch -/

/-- How the fetch of a word of text ends: the word, a cause with its level and ERRKIND, or an answer that is still to come. -/
inductive FetchEnd where
  | word (w : W32)
  | fail (c : Cause) (level errkind : Nat)
  | later
  deriving DecidableEq, Repr

/-- A word read at its home by a core's instruction cache, and kept there (R158); `lv` is the level of its leaf (R339). -/
def State.fillText (s : State) (core asid pa lv : Nat) (t : Target) : State × FetchEnd :=
  match t with
  | .remote dev off =>
    match Tab.get? (s.core core).fetchFail (pa / 4) with
    | some st =>
      (s.modCore core fun c => { c with fetchFail := Tab.erase c.fetchFail (pa / 4) },
        if st = 1 then .fail .fetchFault lv 0 else .fail .fetchPoison 0 (st - 1))
    | none =>
      if 0xF00 ≤ dev then (s, .fail .fetchFault lv 0)
      else if s.link.requests.any (fun r => r.src == .fetch core pa) then (s, .later)
      else
        ((s.sendRemote core dev off (.read 4) (.fetch core pa)).getD s, .later)
  | _ =>
    match s.agentRead pa 4 asid with
    | (s, .data x) => (s.modCore core fun c => { c with icache := Tab.set c.icache (pa / 4) (BitVec.ofNat 32 x) }, .word (BitVec.ofNat 32 x))
    | (s, .bad k) => (s, .fail .fetchPoison 0 k)

/-- A word of text that the core holds and memory no longer does: the old word or the new one; of another device's memory the old one, as
long as the core holds it (R158; log 14). -/
def State.staleText (s : State) (core asid pa lv : Nat) (t : Target) (old : W32) : State × FetchEnd :=
  match t with
  | .remote .. => (s, .word old)
  | _ =>
    if BitVec.ofNat 32 (Mem.readN s.mem.bytes pa 4) = old then (s, .word old)
    else
      let n := s.freeCtr
      let s := { s with freeCtr := n + 1 }
      if Config.staleFetch n then (s, .word old) else s.fillText core asid pa lv t

/-- One word fetched at a virtual address; a failure of any kind is FETCH_FAULT (R325). -/
def State.fetchWord (s : State) (core asid root va : Nat) : State × FetchEnd :=
  match s.translate core asid root va .fetch with
  | (s, .error .later) => (s, .later)
  | (s, .error (.cause _ lv)) => (s, .fail .fetchFault lv 0)
  | (s, .ok (t, pa)) =>
    let lv := s.leafLevel core asid va
    match Tab.get? (s.core core).icache (pa / 4) with
    | some old => s.staleText core asid pa lv t old
    | none => s.fillText core asid pa lv t

/-- The words of an instruction from an address on, the low ones first; the first that fails ends the fetch. -/
def State.fetchWords (s : State) (core asid root : Nat) (pc : Pc) : Nat → State × Except FetchEnd Nat
  | 0 => (s, .ok 0)
  | n + 1 =>
    match s.fetchWord core asid root pc.toNat with
    | (s, .word w) =>
      match s.fetchWords core asid root (pcAdd pc 4) n with
      | (s, .ok x) => (s, .ok (w.toNat + 2 ^ 32 * x))
      | (s, .error e) => (s, .error e)
    | (s, e) => (s, .error e)

/-! ## Issue -/

/-- The slices of the sub-gang that a slice belongs to: the active ones with its slice PC (R23, R24). -/
def Gang.subgang (g : Gang) (skip : Lanes) (pc : Pc) : List Nat :=
  (List.range g.slices.length).filter fun i => (g.slice i).active && g.slicePc skip i == some pc

/-- The execution mask of a sub-gang (R21), without the threads that wait at the instruction. -/
def Gang.execMask (g : Gang) (skip held : Lanes) (pc : Pc) : Lanes :=
  laneSet (((g.subgang skip pc).flatMap fun i => (g.chooseFrom skip i).filter fun l => (g.thread l).pc == pc).filter
    fun l => !held.getLsbD l)

/-- A rotation that a slice has to enter or to leave before it issues (R22). -/
def Gang.rotationDue (g : Gang) (k sl : Nat) : Option Instr :=
  let x := g.slice sl
  match x.rot with
  | none => if x.rotCount = 64 then some (.rotationEnter k sl) else none
  | some r => if r.left = 0 ∨ (g.liveOf sl).all (fun i => !r.path.getLsbD i) then some (.rotationLeave k sl) else none

/-- What an issue comes to: nothing, or a row of the table. -/
inductive IssueWork where
  | done
  | run (i : Instr)
  deriving DecidableEq, Repr

/-- The gang may issue: it runs, and its block's cores are up (R317, R362). -/
def State.mayIssue (s : State) (g : Gang) : Bool :=
  g.gstate == .running &&
    match s.block? g.blk with
    | some b => b.state != .retired && !s.coreDown b.core && (!b.pair || !s.coreDown (b.core + 1))
    | none => false

/-- The word fetched for a mask: the instruction that R170 makes of it, the word that fails R170, or the fetch that failed. -/
def State.issueAt (s : State) (k : Nat) (g : Gang) (m : Lanes) (pc : Pc) : State × IssueWork :=
  match s.fetchWords (coreOf k) g.asid g.root pc 3 with
  | (s, .ok w) =>
    let w : Insn := BitVec.ofNat 96 w
    let s := { s with focus := ⟨k, m, pc, w, s.seqCtr⟩ }
    match decode96 g.vregs g.width w with
    | .ok i => (s, .run i)
    | .error c => (s, .run (.illegalWord c))
  | (s, .error (.fail c level errkind)) => ({ s with focus := ⟨k, m, pc, 0, s.seqCtr⟩ }, .run (.instructionFetchFault c pc level errkind))
  | (s, .error _) => (s, .done)

/-- One issue of the sub-gang that a slice of a gang belongs to, up to the row of the table that its word names. Before a gang issues, an
entry above the eight of a quadrant leaves the active set (R364), rotation is entered or left (R22), and held resumes take effect
(R30). -/
def State.issueNext (s : State) (k sl : Nat) : State × IssueWork :=
  match s.gang? k with
  | none => (s, .done)
  | some g =>
    if !s.mayIssue g || !(g.slice sl).active then (s, .done)
    else
      match s.excess (coreOf k) with
      | some e => (s.modGang e.1 fun x => x.setActive e.2 false s.clock, .done)
      | none =>
      match (List.range g.slices.length).findSome? (g.rotationDue k) with
      | some i => (s, .run i)
      | none =>
        let skip := s.skipped k g
        match g.slicePc skip sl with
        | none => (s, .done)
        | some pc =>
          let m := g.execMask skip (g.inWait ||| s.callHeld k) pc
          if m = 0 then (s, .done)
          else if g.heldResumes ≠ 0 then (s.setGang k g.releaseResumes, .done)
          else s.issueAt k g m pc

end Sys2Proof.Machine
end

