-- ==== Sys2Proof/Machine/PorterFloat.lean ====
section
/-! DEFINITION. The F and D extensions of a porter (R309; PRESUMED, log 30): NaN boxing, rounding modes, fflags, and the operations
over the exact values of Numbers.lean. -/

namespace Sys2Proof.Machine

/-- The mode of Numbers.lean for a rounding-mode field, 7 standing for frm; `none` for a reserved one. -/
def rvRound (frm rm : Nat) : Option Nat :=
  match (if rm = 7 then frm else rm) with
  | 0 => some 0
  | 1 => some 1
  | 2 => some 3
  | 3 => some 2
  | 4 => some 4
  | _ => none

/-- fflags: NX 0, UF 1, OF 2, DZ 3, NV 4. -/
def rvFlags (f : Flags) : BitVec 8 :=
  (if f.getLsbD 4 then 1 else 0) ||| (if f.getLsbD 3 then 2 else 0) ||| (if f.getLsbD 2 then 4 else 0) |||
    (if f.getLsbD 1 then 8 else 0) ||| (if f.getLsbD 0 then 16 else 0)

/-- The format of a fmt field. -/
def rvFormat (dbl : Bool) : FpFormat := if dbl then fp64 else fp32

/-- A float register as an operand of a format: a single that is not boxed is the canonical NaN. -/
def Porter.rdF (p : Porter) (dbl : Bool) (i : Nat) : Nat :=
  let x := (Tab.getD p.f i 0).toNat
  if dbl then x else if x / 2 ^ 32 = 0xFFFFFFFF then x % 2 ^ 32 else fp32.canonNaN

/-- A float register written, boxed, with FS dirty. -/
def Porter.wrF (p : Porter) (dbl : Bool) (i x : Nat) : Porter :=
  { p with
    f := Tab.put p.f 0 i (BitVec.ofNat 64 (if dbl then x else x % 2 ^ 32 + 0xFFFFFFFF00000000)), mstatus := p.mstatus ||| 0x6000 }

/-- fflags accrued. -/
def Porter.accrue (p : Porter) (f : Flags) : Porter :=
  if f = 0 then p else { p with fcsr := p.fcsr ||| rvFlags f, mstatus := p.mstatus ||| 0x6000 }

/-- Rounded with an unbounded exponent, a magnitude lies below the smallest normal: tininess after rounding. -/
def tinyAfter (F : FpFormat) (mode : Nat) (neg : Bool) (m : Nat) (e : Int) : Bool :=
  let q := e + Nat.log2 m - F.mbits
  m != 0 && decide (q < F.qmin) &&
    !(decide (e < q) && (roundShift mode neg m (q - e).toNat).1 == 2 ^ (F.mbits + 1) && decide (q + 1 = F.qmin))

/-- A value delivered in a format. -/
def rvDeliver (F : FpFormat) (mode : Nat) (x : Flagged FVal) : Flagged Nat :=
  match x.1 with
  | .num neg m e =>
    let (p, f) := roundFP F x.1 mode false
    let f := f &&& ~~~flagUF
    (p, x.2 ||| f ||| (if f &&& flagNX != 0 && tinyAfter F mode neg m e then flagUF else flagNone))
  | v => ((roundFP F v mode false).1, x.2)

/-- Division, exact up to a sticky bit. -/
def divVal (a b : FVal) : Flagged FVal :=
  if a.isNan || b.isNan then (.qnan, a.nv ||| b.nv)
  else
    match a, b with
    | .inf _, .inf _ => (.qnan, flagNV)
    | .inf x, v => (.inf (x != v.neg?), flagNone)
    | v, .inf y => (.num (v.neg? != y) 0 0, flagNone)
    | .num x ma ea, .num y mb eb =>
      if mb = 0 then (if ma = 0 then (.qnan, flagNV) else (.inf (x != y), flagDZ))
      else
        let k := 128 + Nat.log2 mb
        let n := ma * 2 ^ k
        (.num (x != y) (2 * (n / mb) + (if n % mb = 0 then 0 else 1)) (ea - eb - k - 1), flagNone)
    | _, _ => (.qnan, flagNone)

/-- The square root, exact up to a sticky bit. -/
def rootVal (a : FVal) : Flagged FVal :=
  match a with
  | .num neg m e =>
    if m = 0 then (a, flagNone)
    else if neg then (.qnan, flagNV)
    else
      let m' := (if e % 2 = 0 then m else 2 * m) * 2 ^ 80
      let r := isqrt m' 70 0
      (.num false (2 * r + (if r * r = m' then 0 else 1)) ((if e % 2 = 0 then e else e - 1) / 2 - 41), flagNone)
  | .inf neg => if neg then (.qnan, flagNV) else (a, flagNone)
  | v => (.qnan, v.nv)

/-- A float converted to an integer of n bits: out of range and NaN raise NV alone. -/
def rvToInt (signed : Bool) (n mode : Nat) (x : FVal) : Flagged Int :=
  match x with
  | .num neg m e =>
    let (v, ix) := roundInt mode neg m e
    if v < intMin signed n then (intMin signed n, flagNV)
    else if intMax signed n < v then (intMax signed n, flagNV)
    else (v, if ix then flagNX else flagNone)
  | .inf neg => (if neg then intMin signed n else intMax signed n, flagNV)
  | _ => (intMax signed n, flagNV)

/-- How a float operation ends: a float result, an integer result, or an illegal word. -/
inductive FloatEnd where
  | flt (dbl : Bool) (x : Flagged Nat)
  | int (x : W64) (f : Flags)
  | illegal
  deriving DecidableEq, Repr

/-- Comparisons by rm: 0 FLE, 1 FLT, 2 FEQ. -/
def rvCompare (rm : Nat) (a b : FVal) : FloatEnd :=
  let un := a.isNan || b.isNan
  match rm with
  | 0 => .int (if relation 3 a b then 1 else 0) (if un then flagNV else flagNone)
  | 1 => .int (if relation 2 a b then 1 else 0) (if un then flagNV else flagNone)
  | 2 => .int (if relation 0 a b then 1 else 0) (a.nv ||| b.nv)
  | _ => .illegal

/-- The sign injections by rm on patterns of a format. -/
def rvSign (F : FpFormat) (rm x y : Nat) : Option Nat :=
  let top := 2 ^ (F.ebits + F.mbits)
  let sx := x / top % 2
  let sy := y / top % 2
  match rm with
  | 0 => some (x % top + sy * top)
  | 1 => some (x % top + (1 - sy) * top)
  | 2 => some (x % top + (if sx = sy then 0 else top))
  | _ => none

/-- OP-FP by funct5 (bits 31 to 27), rs2's number, the rounding field and the operands' patterns. -/
def rvFloatOp (f5 : Nat) (dbl : Bool) (r2 rm frm x y : Nat) (narrow wide : Nat) (a : W64) : FloatEnd :=
  let F := rvFormat dbl
  let u := decodeFP F x false
  let v := decodeFP F y false
  let arith (g : Nat → Flagged FVal) : FloatEnd :=
    match rvRound frm rm with
    | some m => .flt dbl (rvDeliver F m (g m))
    | none => .illegal
  match f5 with
  | 0x00 => arith fun m => addVal m u v
  | 0x01 => arith fun m => addVal m u v.negate
  | 0x02 => arith fun _ => mulVal u v
  | 0x03 => arith fun _ => divVal u v
  | 0x0B => if r2 = 0 then arith fun _ => rootVal u else .illegal
  | 0x04 => match rvSign F rm x y with | some z => .flt dbl (z, flagNone) | none => .illegal
  | 0x05 =>
    if 2 ≤ rm then .illegal
    else
      let (z, f) := minmaxVal (rm == 1) u v
      .flt dbl ((roundFP F z 0 false).1, f)
  | 0x08 =>
    if dbl then (if r2 = 0 then (let z := decodeFP fp32 narrow false; arith fun _ => (z, z.nv)) else .illegal)
    else if r2 = 1 then (let z := decodeFP fp64 wide false; arith fun _ => (z, z.nv)) else .illegal
  | 0x14 => rvCompare rm u v
  | 0x18 =>
    match rvRound frm rm with
    | none => .illegal
    | some m =>
      let conv (signed : Bool) (n : Nat) : FloatEnd :=
        let (z, f) := rvToInt signed n m u
        .int (if n = 32 then (BitVec.ofInt 32 z).signExtend 64 else BitVec.ofInt 64 z) f
      match r2 with
      | 0 => conv true 32
      | 1 => conv false 32
      | 2 => conv true 64
      | 3 => conv false 64
      | _ => .illegal
  | 0x1A =>
    match r2 with
    | 0 => arith fun _ => (FVal.ofInt (sExt 32 a.toNat), flagNone)
    | 1 => arith fun _ => (FVal.ofInt (a.toNat % 2 ^ 32 : Nat), flagNone)
    | 2 => arith fun _ => (FVal.ofInt a.toInt, flagNone)
    | 3 => arith fun _ => (FVal.ofInt a.toNat, flagNone)
    | _ => .illegal
  | 0x1C =>
    if r2 ≠ 0 then .illegal
    else
      match rm with
      | 0 => .int (if dbl then BitVec.ofNat 64 wide else BitVec.ofInt 64 (sExt 32 wide)) flagNone
      | 1 => .int (BitVec.ofNat 64 (2 ^ classBit F x)) flagNone
      | _ => .illegal
  | 0x1E => if r2 = 0 ∧ rm = 0 then .flt dbl (if dbl then a.toNat else a.toNat % 2 ^ 32, flagNone) else .illegal
  | _ => .illegal

/-- A fused multiply-add: the product and the addend negated or not. -/
def rvFma (dbl negP negC : Bool) (rm frm x y z : Nat) : FloatEnd :=
  let F := rvFormat dbl
  match rvRound frm rm with
  | none => .illegal
  | some m =>
    let a := decodeFP F x false
    let c := decodeFP F z false
    .flt dbl (rvDeliver F m (fmaVal m (if negP then a.negate else a) (decodeFP F y false) (if negC then c.negate else c)))

/-- A float word of a porter; `none` where it is illegal. -/
def Porter.floatInsn (p : Porter) (w : Nat) : Option Porter :=
  let fmt := bits w 25 2
  let dbl := fmt == 1
  let rd := bits w 7 5
  let rm := bits w 12 3
  let r1 := bits w 15 5
  let r2 := bits w 20 5
  let frm := bits p.fcsr.toNat 5 3
  let x := p.rdF dbl r1
  let y := p.rdF dbl r2
  let e :=
    if p.fpOff ∨ 2 ≤ fmt then FloatEnd.illegal
    else
      match w % 128 with
      | 0x43 => rvFma dbl false false rm frm x y (p.rdF dbl (bits w 27 5))
      | 0x47 => rvFma dbl false true rm frm x y (p.rdF dbl (bits w 27 5))
      | 0x4B => rvFma dbl true false rm frm x y (p.rdF dbl (bits w 27 5))
      | 0x4F => rvFma dbl true true rm frm x y (p.rdF dbl (bits w 27 5))
      | _ => rvFloatOp (bits w 27 5) dbl r2 rm frm x y (p.rdF false r1) (p.rdF true r1) (p.rd (BitVec.ofNat 5 r1))
  match e with
  | .illegal => none
  | .flt d z => some ((p.accrue z.2).wrF d rd z.1).next
  | .int z f => some ((p.accrue f).wr (BitVec.ofNat 5 rd) z).next

end Sys2Proof.Machine
end

