-- ==== Sys2Proof/Machine/PorterBase.lean ====
section
/-! DEFINITION. What a porter runs beside the rows of the table: instruction fetch, interrupts, and the base instructions of
RV64GC beside its loads, stores, AMOs and fences, with the returns from a trap (R309, R313, R344; PRESUMED, log 30). -/

namespace Sys2Proof.Machine

/-! ## Compressed words -/

def rvI (op f3 rd rs1 imm : Nat) : Nat := imm % 4096 * 2 ^ 20 + rs1 * 2 ^ 15 + f3 * 2 ^ 12 + rd * 2 ^ 7 + op
def rvR (op f3 f7 rd rs1 rs2 : Nat) : Nat := f7 * 2 ^ 25 + rs2 * 2 ^ 20 + rs1 * 2 ^ 15 + f3 * 2 ^ 12 + rd * 2 ^ 7 + op
def rvS (op f3 rs1 rs2 imm : Nat) : Nat :=
  imm / 32 % 128 * 2 ^ 25 + rs2 * 2 ^ 20 + rs1 * 2 ^ 15 + f3 * 2 ^ 12 + imm % 32 * 2 ^ 7 + op
def rvU (op rd imm : Nat) : Nat := imm % 2 ^ 20 * 2 ^ 12 + rd * 2 ^ 7 + op
def rvB (f3 rs1 imm : Nat) : Nat :=
  bits imm 12 1 * 2 ^ 31 + bits imm 5 6 * 2 ^ 25 + rs1 * 2 ^ 15 + f3 * 2 ^ 12 + bits imm 1 4 * 2 ^ 8 + bits imm 11 1 * 2 ^ 7 + 0x63
def rvJ (rd imm : Nat) : Nat :=
  bits imm 20 1 * 2 ^ 31 + bits imm 1 10 * 2 ^ 21 + bits imm 11 1 * 2 ^ 20 + bits imm 12 8 * 2 ^ 12 + rd * 2 ^ 7 + 0x6F

/-- A field sign-extended to 32 bits. -/
def sx32 (n x : Nat) : Nat := wrapBits 32 (sExt n x)

/-- Offsets of the compressed loads and stores of a word and of a dword. -/
def cOffW (h : Nat) : Nat := bits h 6 1 * 4 + bits h 10 3 * 8 + bits h 5 1 * 64
def cOffD (h : Nat) : Nat := bits h 10 3 * 8 + bits h 5 2 * 64

/-- Quadrant 0. -/
def expand0 (h : Nat) : Option Nat :=
  let rd := 8 + bits h 2 3
  let rs := 8 + bits h 7 3
  match bits h 13 3 with
  | 0 =>
    let imm := bits h 6 1 * 4 + bits h 5 1 * 8 + bits h 11 2 * 16 + bits h 7 4 * 64
    if imm = 0 then none else some (rvI 0x13 0 rd 2 imm)
  | 1 => some (rvI 0x07 3 rd rs (cOffD h))
  | 2 => some (rvI 0x03 2 rd rs (cOffW h))
  | 3 => some (rvI 0x03 3 rd rs (cOffD h))
  | 5 => some (rvS 0x27 3 rs rd (cOffD h))
  | 6 => some (rvS 0x23 2 rs rd (cOffW h))
  | 7 => some (rvS 0x23 3 rs rd (cOffD h))
  | _ => none

/-- Quadrant 1. -/
def expand1 (h : Nat) : Option Nat :=
  let rd := bits h 7 5
  let rc := 8 + bits h 7 3
  let imm := sx32 6 (bits h 2 5 + bits h 12 1 * 32)
  let sh := bits h 2 5 + bits h 12 1 * 32
  let b := sx32 9 (bits h 3 2 * 2 + bits h 10 2 * 8 + bits h 2 1 * 32 + bits h 5 2 * 64 + bits h 12 1 * 256)
  match bits h 13 3 with
  | 0 => some (rvI 0x13 0 rd rd imm)
  | 1 => if rd = 0 then none else some (rvI 0x1B 0 rd rd imm)
  | 2 => some (rvI 0x13 0 rd 0 imm)
  | 3 =>
    if rd = 2 then
      let x := sx32 10 (bits h 6 1 * 16 + bits h 2 1 * 32 + bits h 5 1 * 64 + bits h 3 2 * 128 + bits h 12 1 * 512)
      if x = 0 then none else some (rvI 0x13 0 2 2 x)
    else if sh = 0 then none else some (rvU 0x37 rd imm)
  | 4 =>
    match bits h 10 2 with
    | 0 => some (rvI 0x13 5 rc rc sh)
    | 1 => some (rvI 0x13 5 rc rc (sh + 0x400))
    | 2 => some (rvI 0x13 7 rc rc imm)
    | _ =>
      let r2 := 8 + bits h 2 3
      match bits h 12 1, bits h 5 2 with
      | 0, 0 => some (rvR 0x33 0 0x20 rc rc r2)
      | 0, 1 => some (rvR 0x33 4 0 rc rc r2)
      | 0, 2 => some (rvR 0x33 6 0 rc rc r2)
      | 0, 3 => some (rvR 0x33 7 0 rc rc r2)
      | 1, 0 => some (rvR 0x3B 0 0x20 rc rc r2)
      | 1, 1 => some (rvR 0x3B 0 0 rc rc r2)
      | _, _ => none
  | 5 =>
    some (rvJ 0 (sx32 12 (bits h 3 3 * 2 + bits h 11 1 * 16 + bits h 2 1 * 32 + bits h 7 1 * 64 + bits h 6 1 * 128 +
      bits h 9 2 * 256 + bits h 8 1 * 1024 + bits h 12 1 * 2048)))
  | 6 => some (rvB 0 rc b)
  | _ => some (rvB 1 rc b)

/-- Quadrant 2. -/
def expand2 (h : Nat) : Option Nat :=
  let rd := bits h 7 5
  let r2 := bits h 2 5
  let lw := bits h 4 3 * 4 + bits h 12 1 * 32 + bits h 2 2 * 64
  let ld := bits h 5 2 * 8 + bits h 12 1 * 32 + bits h 2 3 * 64
  let sw := bits h 9 4 * 4 + bits h 7 2 * 64
  let sd := bits h 10 3 * 8 + bits h 7 3 * 64
  match bits h 13 3 with
  | 0 => some (rvI 0x13 1 rd rd (r2 + bits h 12 1 * 32))
  | 1 => some (rvI 0x07 3 rd 2 ld)
  | 2 => if rd = 0 then none else some (rvI 0x03 2 rd 2 lw)
  | 3 => if rd = 0 then none else some (rvI 0x03 3 rd 2 ld)
  | 4 =>
    match bits h 12 1, rd, r2 with
    | 0, 0, 0 => none
    | 0, r, 0 => some (rvI 0x67 0 0 r 0)
    | 0, r, q => some (rvR 0x33 0 0 r 0 q)
    | _, 0, 0 => some 0x100073
    | _, r, 0 => some (rvI 0x67 0 1 r 0)
    | _, r, q => some (rvR 0x33 0 0 r r q)
  | 5 => some (rvS 0x27 3 2 r2 sd)
  | 6 => some (rvS 0x23 2 2 r2 sw)
  | _ => some (rvS 0x23 3 2 r2 sd)

/-- The 32-bit word that a compressed one stands for; `none` for a reserved one. -/
def expandC (h : Nat) : Option Nat :=
  match h % 4 with
  | 0 => expand0 h
  | 1 => expand1 h
  | _ => expand2 h

/-! ## Integer operations -/

/-- The operations of OP and OP-IMM by funct3, `alt` for SUB and SRA. -/
def rvAlu (f3 : Nat) (alt : Bool) (a b : W64) : W64 :=
  match f3 with
  | 0 => if alt then a - b else a + b
  | 1 => a <<< (b.toNat % 64)
  | 2 => if a.toInt < b.toInt then 1 else 0
  | 3 => if a.toNat < b.toNat then 1 else 0
  | 4 => a ^^^ b
  | 5 => if alt then a.sshiftRight (b.toNat % 64) else a >>> (b.toNat % 64)
  | 6 => a ||| b
  | _ => a &&& b

/-- The same on words, sign-extended. -/
def rvAluW (f3 : Nat) (alt : Bool) (a b : W64) : W64 :=
  let x : W32 := a.setWidth 32
  let y : W32 := b.setWidth 32
  (match f3 with
    | 0 => if alt then x - y else x + y
    | 1 => x <<< (y.toNat % 32)
    | _ => if alt then x.sshiftRight (y.toNat % 32) else x >>> (y.toNat % 32) : W32).signExtend 64

/-- Quotient and remainder of the M extension, on n bits: the dividend's for a zero divisor, and the wrapped overflow. -/
def rvDiv (n : Nat) (a b : Int) : Int := if b = 0 then -1 else wrapBits n (Int.tdiv a b)
def rvRem (a b : Int) : Int := if b = 0 then a else Int.tmod a b

/-- The M extension by funct3. -/
def rvMul (f3 : Nat) (a b : W64) : W64 :=
  let u (x : W64) : Int := (x.toNat : Int)
  BitVec.ofInt 64 (match f3 with
    | 0 => a.toInt * b.toInt
    | 1 => Int.fdiv (a.toInt * b.toInt) (2 ^ 64)
    | 2 => Int.fdiv (a.toInt * u b) (2 ^ 64)
    | 3 => Int.fdiv (u a * u b) (2 ^ 64)
    | 4 => rvDiv 64 a.toInt b.toInt
    | 5 => rvDiv 64 (u a) (u b)
    | 6 => rvRem a.toInt b.toInt
    | _ => rvRem (u a) (u b))

/-- Its word forms, sign-extended. -/
def rvMulW (f3 : Nat) (a b : W64) : W64 :=
  let x : W32 := a.setWidth 32
  let y : W32 := b.setWidth 32
  (BitVec.ofInt 32 (match f3 with
    | 0 => x.toInt * y.toInt
    | 4 => rvDiv 32 x.toInt y.toInt
    | 5 => rvDiv 32 x.toNat y.toNat
    | 6 => rvRem x.toInt y.toInt
    | _ => rvRem x.toNat y.toNat) : W32).signExtend 64

/-- A branch's condition by funct3. -/
def rvTaken (f3 : Nat) (a b : W64) : Option Bool :=
  match f3 with
  | 0 => some (a == b)
  | 1 => some (a != b)
  | 4 => some (decide (a.toInt < b.toInt))
  | 5 => some (decide (b.toInt ≤ a.toInt))
  | 6 => some (decide (a.toNat < b.toNat))
  | 7 => some (decide (b.toNat ≤ a.toNat))
  | _ => none

/-! ## The base instructions -/

/-- How a base instruction ends: the state after it, or an illegal word. -/
inductive BaseEnd where
  | next (s : State)
  | illegal

/-- CSR instructions: the old value to rd, the new one written unless a set or clear names x0; a set or clear of mip works on its stored
bits, not on the interrupt that is signalled (R313), and a write of minstret stands in place of the count. A 17th invalidation
stalls. -/
def State.csrInsn (s : State) (cl f3 n rs : Nat) (d : BitVec 5) : BaseEnd :=
  let p := s.porter cl
  let x : W64 := if 4 ≤ f3 then BitVec.ofNat 64 rs else p.rd (BitVec.ofNat 5 rs)
  let write := f3 % 4 == 1 || rs != 0
  if s.csrIllegal cl n write then .illegal
  else if write && n == 0x9C3 && decide (16 ≤ p.tlbis.length) then .next s
  else
    let old : W64 := BitVec.ofNat 64 ((s.csrValue cl n).getD 0)
    let base : W64 := if n = 0x344 then BitVec.ofNat 64 (s.mipStored cl) else old
    let new := match f3 % 4 with | 1 => x | 2 => base ||| x | _ => base &&& ~~~x
    let s := if n = 0xB00 then { s with freeCtr := s.freeCtr + 1 } else s
    let s := if write then s.csrWrite cl n new else s
    .next (s.modPorter cl fun p =>
      let q := (p.wr d old).next
      if write && n == 0xB02 then { q with minstret := new } else q)

/-- SYSTEM with funct3 0: calls, breakpoints, returns and WFI. -/
def State.systemInsn (s : State) (cl w : Nat) : BaseEnd :=
  let p := s.porter cl
  match w with
  | 0x00000073 => .next (s.porterExcept cl (match p.mode with | .user => .callU | .supervisor => .callS | .machine => .callM) 0)
  | 0x00100073 => .next (s.porterExcept cl .breakpoint p.pc.toNat)
  | 0x30200073 => if p.mode = .machine then .next (s.modPorter cl fun p => p.leaveM.retired) else .illegal
  | 0x10200073 =>
    if p.mode = .user ∨ (p.mode = .supervisor ∧ p.mstatus.getLsbD 22) then .illegal
    else .next (s.modPorter cl fun p => p.leaveS.retired)
  | 0x10500073 =>
    if p.mode = .user ∨ (p.mode = .supervisor ∧ p.mstatus.getLsbD 21) then .illegal else .next (s.modPorter cl Porter.next)
  | _ => .illegal

/-- One base instruction of a porter. -/
def State.baseInsn (s : State) (cl w : Nat) : BaseEnd :=
  let p := s.porter cl
  let d : BitVec 5 := BitVec.ofNat 5 (bits w 7 5)
  let f3 := bits w 12 3
  let f7 := bits w 25 7
  let a := p.rd (BitVec.ofNat 5 (bits w 15 5))
  let b := p.rd (BitVec.ofNat 5 (bits w 20 5))
  let imm : W64 := BitVec.ofInt 64 (sExt 12 (bits w 20 12))
  let upper : W64 := BitVec.ofInt 64 (sExt 32 (w / 4096 * 4096))
  let link : W64 := p.pc + BitVec.ofNat 64 p.len
  let put (x : W64) : BaseEnd := .next (s.modPorter cl fun p => (p.wr d x).next)
  let go (t : W64) (q : Porter) : BaseEnd := .next (s.modPorter cl fun _ => { q.retired with pc := t })
  match w % 128 with
  | 0x37 => put upper
  | 0x17 => put (p.pc + upper)
  | 0x6F =>
    let off := sExt 21 (bits w 21 10 * 2 + bits w 20 1 * 2048 + bits w 12 8 * 4096 + bits w 31 1 * 1048576)
    go (p.pc + BitVec.ofInt 64 off) (p.wr d link)
  | 0x67 => if f3 = 0 then go ((a + imm) &&& ~~~1) (p.wr d link) else .illegal
  | 0x63 =>
    let off := sExt 13 (bits w 8 4 * 2 + bits w 25 6 * 32 + bits w 7 1 * 2048 + bits w 31 1 * 4096)
    match rvTaken f3 a b with
    | some t => go (if t then p.pc + BitVec.ofInt 64 off else link) p
    | none => .illegal
  | 0x13 =>
    if f3 = 1 ∧ bits w 26 6 ≠ 0 then .illegal
    else if f3 = 5 ∧ bits w 26 6 ≠ 0 ∧ bits w 26 6 ≠ 0x10 then .illegal
    else put (rvAlu f3 (f3 == 5 && bits w 30 1 == 1) a imm)
  | 0x1B =>
    match f3 with
    | 0 => put (rvAluW 0 false a imm)
    | 1 => if f7 = 0 then put (rvAluW 1 false a imm) else .illegal
    | 5 => if f7 = 0 ∨ f7 = 0x20 then put (rvAluW 5 (f7 == 0x20) a imm) else .illegal
    | _ => .illegal
  | 0x33 =>
    if f7 = 1 then put (rvMul f3 a b)
    else if f7 = 0 ∨ (f7 = 0x20 ∧ (f3 = 0 ∨ f3 = 5)) then put (rvAlu f3 (f7 == 0x20) a b) else .illegal
  | 0x3B =>
    if f7 = 1 ∧ (f3 = 0 ∨ 4 ≤ f3) then put (rvMulW f3 a b)
    else if (f7 = 0 ∧ (f3 = 0 ∨ f3 = 1 ∨ f3 = 5)) ∨ (f7 = 0x20 ∧ (f3 = 0 ∨ f3 = 5)) then put (rvAluW f3 (f7 == 0x20) a b)
    else .illegal
  | 0x0F => if f3 = 1 then .next (s.modPorter cl Porter.next) else .illegal
  | 0x73 =>
    if f3 = 0 then s.systemInsn cl w else if f3 = 4 then .illegal else s.csrInsn cl f3 (bits w 20 12) (bits w 15 5) d
  | 0x53 | 0x43 | 0x47 | 0x4B | 0x4F =>
    match p.floatInsn w with
    | some q => .next (s.modPorter cl fun _ => q)
    | none => .illegal
  | _ => .illegal

/-! ## Fetch and interrupts -/

/-- 16 bits of text at an address, from another device by a request whose answer the porter awaits; from the register space a porter
fetches nothing (log 30). -/
def State.porterParcel (s : State) (cl va : Nat) : State × Except PorterMiss Nat :=
  match s.porterTarget cl va .fetch with
  | (s, .error c) => (s, .error c)
  | (s, .ok (.remote dev off, pa)) =>
    if 0xF00 ≤ dev then (s, .error (.except .fetchFault))
    else
      match (s.porter cl).parcels.find? fun x => x.1 = pa with
      | some (_, st, x) => (s, if st = 0 then .ok x else .error (.except .fetchFault))
      | none => ((s.sendRemote (4 * cl) dev off (.read 2) (.parcel cl pa)).getD s, .error .later)
  | (s, .ok (.hbm _, pa)) | (s, .ok (.host _, pa)) =>
    match s.agentRead pa 2 (s.porterAsid cl .fetch) with
    | (s, .data x) => (s, .ok x)
    | (s, .bad _) => (s, .error (.except .fetchFault))
  | (s, .ok _) => (s, .error (.except .fetchFault))

/-- The instruction at a porter's pc: its word, a compressed one expanded, and its length; or the state after the exception. -/
def State.porterFetch (s : State) (cl : Nat) : State × Option (Option Nat × Nat) :=
  let va := (s.porter cl).pc.toNat
  match s.porterParcel cl va with
  | (s, .error m) => (s.porterMiss cl va m, none)
  | (s, .ok lo) =>
    if lo % 4 ≠ 3 then (s, some (expandC lo, 2))
    else
      match s.porterParcel cl (va + 2) with
      | (s, .error m) => (s.porterMiss cl (va + 2) m, none)
      | (s, .ok hi) => (s, some (some (lo + 2 ^ 16 * hi), 4))

/-- The interrupt that a porter takes now: its number, and whether machine mode takes it. -/
def State.porterInterrupt (s : State) (cl : Nat) : Option (Nat × Bool) :=
  let p := s.porter cl
  let pend := s.mipNow cl &&& p.mie.toNat
  let st := p.mstatus.toNat
  let m (i : Nat) : Bool := bits pend i 1 == 1 && !p.mideleg.getLsbD i && (p.mode != .machine || bits st 3 1 == 1)
  let v (i : Nat) : Bool := bits pend i 1 == 1 && p.mideleg.getLsbD i &&
    (p.mode == .user || (p.mode == .supervisor && bits st 1 1 == 1))
  let order := [11, 3, 7, 9, 1, 5]
  match order.find? m with
  | some i => some (i, true)
  | none => (order.find? v).map fun i => (i, false)

/-- What a porter does next. -/
inductive PorterWork where
  | done
  | run (i : Instr)
  deriving DecidableEq, Repr

/-- A porter's next step, up to the row of the table that its word names: nothing while it waits for another device, an interrupt, an
exception of the fetch or of the word, or a base instruction. -/
def State.porterNext (s : State) (cl : Nat) : State × PorterWork :=
  if s.porterWaits cl then (s, .done)
  else
    match (if (s.porter cl).buffer.isNone then s.porterInterrupt cl else none) with
    | some (i, m) => (s.modPorter cl fun p => { (if m then p.enterM i 0 true else p.enterS i 0 true) with parcels := [] }, .done)
    | none =>
      match s.porterFetch cl with
      | (s, none) => (s, .done)
      | (s, some (none, _)) => ((s.modPorter cl fun p => { p with parcels := [] }).porterExcept cl .illegal 0, .done)
      | (s, some (some w, n)) =>
        let s := s.modPorter cl fun p => { p with len := n, parcels := [] }
        match decode32 cl (BitVec.ofNat 32 w) with
        | some i => (s, .run i)
        | none =>
          if w % 128 = 0x0B then (s.porterExcept cl .illegal 0, .done)
          else
            match s.baseInsn cl w with
            | .next s => (s, .done)
            | .illegal => (s.porterExcept cl .illegal 0, .done)

end Sys2Proof.Machine
end

