-- ==== Sys2Proof/Machine/Schedule.lean ====
section
/-! DEFINITION. Which step comes next (log 3): the row of a register write that has committed, what the agenda names, or, with an
empty agenda, a free choice among the steps that the device may take by itself. -/

namespace Sys2Proof.Machine

/-- The row that a committed register write runs (R331, R343, R345 to R348, R356, R363, R380, R382, R393, R401, R406 to R412,
R415). -/
def commitRow (c : Commit) : Option Instr :=
  let r := c.reg
  let low := bits (c.dword 0) 0 2
  if r = 0x9C3 then some (if low % 2 = 1 then .tlbiDevice else .tlbiCluster)
  else if r = 0x9C5 then some (if bits (c.dword 0) 8 1 = 1 then .engineAbort else .engineResume)
  else if r = regSpace + 0x80 then some .distack
  else if r = regSpace + 0x100 then some .jpush
  else if (lwinQueue r).isSome then some .launchPost
  else if r = regSpace + 0x100018 then some .bootok
  else if r = regSpace + 0x120200 then some .measurementExtend
  else if r = pskeyReg then some (if c.pskSwitch then .pskeySwitch (c.streamOf % 4096) else .pskeyCommit)
  else if r = regSpace + 0x123018 then some .errtail
  else if r = regSpace + 0x123080 then some .spare
  else if r = regSpace + 0x123090 then some .coreretire
  else if r = regSpace + 0x123098 then some .rowspare
  else if r = regSpace + 0x1230A0 then some .chretire
  else if r = errinjReg then some (if low = 1 ∨ low = 2 then .errinjArm else .errinjDisarm)
  else if r = regSpace + 0x200000 + 24 then some .ethTxTail
  else if r = regSpace + 0x200000 + 40 then some .ethRxTail
  else if r = windowSpace + 0x1FF008 then some .stagingChunklen
  else if r = windowSpace + 0x1FF010 then some .stagingTotal
  else none

/-- What a step comes to: a state, or a row of the table. -/
inductive Work where
  | done
  | run (i : Instr)
  deriving DecidableEq, Repr

/-- The row of the responder that answers a message (R389, R391, R401; log 16). -/
def State.spdmRow (s : State) (m : List Byte) : Option Instr :=
  match (m.getD 1 0).toNat with
  | 0x84 => some .getVersion
  | 0xE1 => some .getCapabilities
  | 0xE3 => some .negotiateAlgorithms
  | 0x81 => some .getDigests
  | 0x82 => some .getCertificate
  | 0x83 => some .challenge
  | 0xE0 => some .getMeasurements
  | 0xE4 => some .keyExchange
  | 0xE5 => some .finish
  | 0xEC => some .endSession
  | 0xFE =>
    match s.vendorOp.map BitVec.toNat with
    | some 0 => some .ideKm
    | some 1 => some .enrol
    | some 2 => some .revoke
    | some _ => some .query
    | none => none
  | _ => none

/-- A message for the responder: it waits its turn; one that no row answers is an error (R389; log 16). -/
def State.receive (s : State) (m : List Byte) : State :=
  let s1 := s.modTrust fun t => { t with inbox := t.inbox ++ [m] }
  if ({ s with trust := { s.trust with inbox := [m] } }.spdmRow m).isSome then s1
  else if s.spdmReady then s.unexpected else s

/-- An image delivered by a source that is not the host, in a step that waits for one (R382 to R384): of the XIP region, so many bytes as
they stand in host memory. -/
def State.deliverImage (s : State) (data : List Byte) : State :=
  if (s.trust.phase = .step 1 ∨ s.trust.phase = .step 4) ∧ s.trust.imageLen = none ∧ s.sourceNow ≠ 1 then
    let data := if s.sourceNow = 3 then Mem.readBytes s.mem.bytes s.xipImage data.length else data
    s.modTrust fun t => { t with image := Mem.writeBytes [] 0 data, imageLen := some data.length }
  else s

/-- The porters run: boot step 5 and after (R309, R382). -/
def State.portersRun (s : State) : Bool := s.trust.phase == .step 5 || s.trust.phase == .booted

/-- A porter's turn. -/
def State.porterTurn (s : State) (cl : Nat) : State × Work :=
  if s.portersRun && decide (cl < Config.numClusters) then
    match s.porterNext cl with
    | (s, .done) => (s, .done)
    | (s, .run i) => (s, .run i)
  else (s, .done)

/-- A line of host memory whose accesses the link completes with an error from now on, or no longer, or an atom of it that the host
returns poisoned (R327, R370). -/
def State.hostFails (s : State) (pa : Nat) (poison : Bool) : State :=
  if 0x4000000000000 ≤ pa ∧ pa < 0x8000000000000 then
    if poison then s.markAtom pa
    else s.modMem fun m => { m with
      hostErrs := if NatSet.has m.hostErrs (pa / 128) then NatSet.del m.hostErrs (pa / 128) else NatSet.add m.hostErrs (pa / 128) }
  else s

/-- A line that leaves a core's caches (R102, R158). -/
def State.dropCached (s : State) (core line : Nat) : State :=
  (s.dropL1 core line).modCore core fun c => { c with icache := c.icache.filter fun e => e.1 / 32 != line }

/-- A member of a group that the fabric adds or removes (R375). -/
def State.setMember (s : State) (group dev : Nat) (joins : Bool) : State :=
  let l := Tab.getD s.link.members (0xF00 + group) []
  { s with link := { s.link with members := Tab.set s.link.members (0xF00 + group) (if joins then NatSet.add l dev else NatSet.del l dev) } }

/-- What an act comes to. -/
def State.actNext (s : State) : Act → State × Work
  | .issue k sl =>
    match s.issueNext k sl with
    | (s, .done) => (s, .done)
    | (s, .run i) => (s, .run i)
  | .porter cl => s.porterTurn cl
  | .event i => (s, .run i)
  | .dropLine core line => (s.dropCached core line, .done)
  | .declare asid slot first lines => (s.declareRegion asid slot first lines, .done)
  | .release asid slot => (s.releaseRegion asid slot, .done)
  | .spdm m => (s.receive m, .done)
  | .i3c m => (s.receive m, .done)
  | .image data => (s.deliverImage data, .done)
  | .residue core quad => (s.modCore core fun c => { c with mmas := match c.mmas with
      | [] => []
      | p :: rest => { p with residue := some (quad % 4) } :: rest }, .done)
  | .pins a b c => (s.modTrust fun t => { t with pinScrub := a, pinConf := b, pinRecovery := c }, .done)
  | .hostError pa poison => (s.hostFails pa poison, .done)
  | .dvsec => (s.hostReply (.data s.dvsec), .done)
  | .hdm base => ({ s with host := { s.host with hdmBase := base } }, .done)
  | .evictHalf half => (s.modMem fun m => { m with hostHalves := NatSet.del m.hostHalves half }, .done)
  | .member group dev joins => (s.setMember group dev joins, .done)
  | .useEnd dev core use => (s.endRemoteUse dev core use, .done)
  | .resetCore core => (s.resetCore core, .done)

/-! ## The steps that the device may take by itself -/

/-- The row that ends a wait. -/
def Wait.row (k : Nat) (w : Wait) : Option Instr :=
  match w.instr with
  | .ldSFw _ | .ldSFc _ => some (.fullLoadPerform k w.seq)
  | .barWait _ => some (.barrierWaitWake k w.seq)
  | .mbxPush _ => some (.mailboxPushWake k w.seq)
  | .mbxPop _ => some (.mailboxPopWake k w.seq)
  | .cpy _ => some (.cpyAcceptDeferred k w.seq)
  | .cbatch _ => some (.cbatchDeferredSeal k w.seq)
  | .cwait _ => some (.cwaitRelease k w.seq)
  | .sleep _ => some (.sleepEnd k w.seq)
  | _ => none

/-- Of a gang. -/
def Gang.rows (k : Nat) (g : Gang) : List Instr :=
  [g.waits.filterMap (Wait.row k),
    (List.range g.threads.length).flatMap fun l => (g.thread l).pend.map fun q => .producerWriteback k l q.id,
    ((List.range g.threads.length).filter fun l => (g.thread l).drain).map fun l => .draftCommit k l,
    (List.range g.slices.length).flatMap fun i => (g.slice i).pend.map fun q => .producerWriteback k (4 * i) q.id,
    if g.parked.isSome then [.waitanyDelivery k] else [],
    if g.deadline ≠ 0 then [.deadlineExpire k] else [],
    if g.gstate = .stopping then [.gangHalt k] else [],
    g.wish.toList.map fun w => .matrixSetForm (coreOf k) w].flatten

/-- Of a core. -/
def CoreState.rows (c : Nat) (x : CoreState) : List Instr :=
  [x.uses.flatMap fun u => (List.range u.2.chunks.length).map fun n => .copyChunk c u.1 n,
    x.uses.flatMap fun u => [.copySrcDone c u.1, .copyVisible c u.1],
    x.sets.map fun m => .matrixCollectiveStart c m.1,
    if x.mmas = [] then [] else [.mmaComplete c],
    (List.range x.flushes.length).map fun i => .flushAck c i,
    [.corePowerGate c, .corePowerUpComplete c, .routerHoldExpire c]].flatten

/-- The swaps that may be made in favour of a gang (R365). -/
def State.swapRows (s : State) (k : Nat) (g : Gang) : List Instr :=
  (g.entries (s.skipped k g) false).flatMap fun inn =>
    .subgangSwap k 0 k inn ::
      (s.gangs.filter fun (o : Nat × Gang) => coreOf o.1 == coreOf k).flatMap fun (o : Nat × Gang) =>
        (o.2.entries (s.skipped o.1 o.2) true).flatMap fun out => [Instr.subgangSwap o.1 out k inn, .agedSwap o.1 out k inn]

/-- Of the distributor. -/
def State.distRows (s : State) : List Instr :=
  [[.distributorAdmit, .fragmentationGuard, .launchPost],
    (List.range s.dist.saved.length).map fun i => .gangPlace i,
    s.blocks.flatMap fun b => match b.2.state with
      | .resident => [.blockRetire b.1]
      | .evicting => [.evictionUseDeadline b.1, .blockImageSave b.1]
      | .saved => [.blockRestore b.1]
      | _ => [],
    s.regions.map fun x => .editionAutoRelease x.asid,
    s.kept.map fun x => .editionAutoRelease x.1].flatten

/-- Of the link. -/
def State.linkRows (s : State) : List Instr :=
  [(List.range s.link.incoming.length).map fun i => .remoteRequest i,
    s.link.requests.flatMap fun r => [.remoteRetransmit r.dev r.seq, .remoteRequestFail r.dev r.seq],
    s.trust.streams.flatMap fun x => [.keylow x.1, .keyLimit x.1, .streamDown x.1, .streamTagFailures (x.1 % 4096)]].flatten

/-- Of bring-up, the responder and reliability; `pa` is what patrol reads next. -/
def State.serviceRows (s : State) (pa : Nat) : List Instr :=
  [match s.trust.phase with
      | .scrub => [.scrubComplete]
      | .step _ => [.bootStep, .imageSourceTimeout, .porterBootTimeout, .watchdog]
      | _ => [],
    if s.host.busy then [.stagingChunkTaken] else [],
    (s.trust.inbox.head?.bind s.spdmRow).toList,
    if s.rel.spareReq.isSome then [.spareSteerComplete] else [],
    if s.rel.retiring = [] then [] else [.coreretire],
    s.pairs.map fun q => .ethTxComplete q.1,
    [.patrolRead pa]].flatten

/-- Of the clusters. -/
def State.clusterRows (s : State) : List Instr :=
  [s.clusters.flatMap fun c => (List.range c.2.held.length).map fun i => .heldSourceEnter c.1 i,
    s.clusters.map fun c => .tlbiComplete c.1,
    (List.range Config.numClusters).map fun cl => .porterTimerInterrupt cl].flatten

/-- The rows of the table that the device may take by itself. -/
def State.rows (s : State) (pa : Nat) : List Instr :=
  [s.gangs.flatMap fun g => g.2.rows g.1,
    s.gangs.flatMap fun g => s.swapRows g.1 g.2,
    s.cores.flatMap fun c => c.2.rows c.1,
    (List.range s.mem.inflight.length).map fun i => .storeApplyAtHome i,
    (List.range s.mem.redq.length).map fun i => .redApply i,
    s.distRows, s.clusterRows, s.linkRows, s.serviceRows pa].flatten

/-- All that the device may do by itself. -/
def State.acts (s : State) (pa : Nat) : List Act :=
  [s.gangs.flatMap fun g => (List.range g.2.slices.length).map fun i => .issue g.1 i,
    (List.range Config.numClusters).map .porter,
    s.cores.flatMap fun c => c.2.l1.map (fun l => .dropLine c.1 l.1) ++ c.2.icache.map fun w => .dropLine c.1 (w.1 / 32),
    (s.rows pa).map .event].flatten

/-- A round: each gang's waits, swaps and issues, then every porter and every other row, each once (R41; log 66). -/
def State.round (s : State) (pa : Nat) : List (Nat × Act) :=
  let gang (g : Nat × Gang) : List Act := (g.2.rows g.1 ++ s.swapRows g.1 g.2).map Act.event ++
    (List.range g.2.slices.length).map fun i => Act.issue g.1 i
  (s.gangs.flatMap gang ++ (List.range Config.numClusters).map Act.porter ++ (s.rows pa).map Act.event).map fun a => (0, a)

/-- The next act: the agenda's, after its cycles, or, in turn, one chosen freely and a round of all (R41; logs 3 and 66). -/
def State.choose (s : State) : State × Act :=
  let s := { s with walked := [] }
  match s.agenda with
  | (dt, a) :: rest => ({ s with agenda := rest, clock := s.clock + dt }, a)
  | [] =>
    let n := s.freeCtr
    let pa := 32 * (Config.pick (n + 1) % (Config.hbmBytes / 32))
    if s.turn then ({ s with turn := false, freeCtr := n + 2, clock := s.clock + 1, agenda := s.round pa }, .event (.patrolRead pa))
    else
      let l := s.acts pa
      ({ s with turn := true, freeCtr := n + 2, clock := s.clock + Config.stepCycles n }, l.getD (Config.pick n % l.length) (.porter 0))

/-- The consuming load that has to perform before all else: of those that wait, the earliest whose granules are full (R88). -/
def State.fullDue (s : State) : Option (Nat × Nat) :=
  let due := s.gangs.flatMap fun g => (g.2.waits.filter fun w =>
    match w.instr with
    | .ldSFc f => match (s.wakeOp g.1 w f (opFull (.ldSFc f) f true w.seq)).waitOf g.1 w.seq with
      | some x => x != w
      | none => true
    | _ => false).map fun w => (w.seq, g.1)
  ((sortBy (fun x y => decide (x.1 < y.1)) due).head?).map fun x => (x.2, x.1)

/-- The machine's next step, up to the row of the table that it runs. A register write that has committed comes before all else, then a
consuming load whose granules are full (R88). -/
def State.next (s : State) : State × Work :=
  match s.commits with
  | c :: cs =>
    match commitRow c with
    | some i => (s, .run i)
    | none => ({ s with commits := cs }, .done)
  | [] =>
    match s.fullDue with
    | some (k, w) => (s, .run (.fullLoadPerform k w))
    | none =>
      let x := s.choose
      x.1.actNext x.2

end Sys2Proof.Machine
end

