-- ==== Sys2Proof/Machine/Placing.lean ====
section
/-! DEFINITION. A word placed where the next step fetches it: at the PC of a running gang of core 0, or at the pc of porter 0. It stands
for what brings a program to run (the boot of R382, a launch under R346 to R351), which from reset takes many steps (log 45). -/

namespace Sys2Proof.Machine

/-- The low n bytes of a number stored from a physical address, the atoms sound. -/
def State.placeBytes (s : State) (pa n x : Nat) : State :=
  let atoms := (List.range ((pa + n + 31) / 32 - pa / 32)).map (pa / 32 + ·)
  s.modMem fun m => { m with
    bytes := Mem.writeN m.bytes pa n x, poison := atoms.foldl NatSet.del m.poison, latent := atoms.foldl NatSet.del m.latent
    redq := m.redq.filter fun e => match e.place with | .phys a => decide (a / 128 < pa / 128 ∨ (pa + n) / 128 < a / 128) | _ => true }

/-- The page tables that map the first 256 KiB of virtual addresses to the first 256 KiB of HBM, for every access (R322, R323): a table
of each level from 0x40000 upward, entry 0 alone. -/
def State.placeTables (s : State) : State :=
  (((s.placeBytes 0x40000 8 (0x48000 + 1)).placeBytes 0x48000 8 (0x50000 + 1)).placeBytes 0x50000 8 (0x50400 + 1)).placeBytes
    0x50400 8 0xBF

/-- Where the text of the placed gang begins. -/
def placedPc : Pc := 0x1000

/-- A running gang of 32 threads, alone in block 0 of launch 0, with the allocation that R176 gives by default. -/
def placedGang : Gang :=
  { Gang.blank with
    width := 32, vregs := 64, root := 0x40, gstate := .running, phys := [0, 1, 2, 3, 4, 5, 6, 7]
    threads := List.replicate 32 (Thread.fresh placedPc), slices := List.replicate 8 SliceState.fresh
    levels := [(0, ⟨.opened, []⟩)] }

/-- Its block. -/
def placedBlock : Block :=
  { lid := 0, bidx := 0, ngang := 1, width := 32, vregs := 64, pair := false, scratchSize := 0x10000, mailboxes := 1, core := 0
    even := .fresh, odd := .fresh, edview := [], gangs := [(0, 0)], endedGangs := [], state := .resident, since := 0, barea := 0
    tiles := [], claims := 0, moved := false, journal := [] }

/-- An act that comes next, before all that the machine would do first. -/
def State.placeAct (s : State) (a : Act) : State :=
  { s with
    gangs := if s.fullDue.isSome then s.gangs.map fun g => (g.1, { g.2 with waits := [] }) else s.gangs
    commits := [], agenda := (1, a) :: s.agenda }

/-- A compute word at the PC of a gang alone in core 0, which the next step issues. -/
def State.placeText (s : State) (w : Nat) : State :=
  let s := s.placeTables.placeBytes 0x1000 12 w
  let s := ({ s with gangs := s.gangs.filter fun g => coreOf g.1 != 0 }.setGang 0 placedGang).setBlock 0 placedBlock
  let s := s.modCore 0 fun c => { c with icache := [], fetchFail := [], tlb := [], power := .up }
  let s := s.modCluster 0 fun c => { c with held := [], tlb := [], walks := [] }
  s.placeAct (.issue 0 0)

/-- A porter's word at the pc of porter 0, in machine mode, which the next step runs. -/
def State.placePorter (s : State) (w : Nat) : State :=
  let pc := if (s.porter 0).pc.toNat + 4 ≤ s.rel.hbmSize then (s.porter 0).pc else 0
  let s := (s.placeBytes pc.toNat 4 w).modPorter 0 fun p => { p with pc := pc, mode := .machine, mie := 0, buffer := none }
  let mine (r : RemoteReq) : Bool := match r.src with
    | .porter c .. | .buffer c .. => c == 0
    | _ => false
  { s.modTrust fun t => { t with phase := .booted } with
    link := { s.link with requests := s.link.requests.filter fun r => !mine r } }.placeAct (.porter 0)

end Sys2Proof.Machine
end

