-- ==== Sys2Proof/Machine/Step.lean ====
section
/-! DEFINITION. One step of the machine, and the placing of a word for it to run. -/

namespace Sys2Proof.Machine

/-- One indivisible step: what comes next, and its row of the table executed. -/
def step (s : State) : Host.Outcome State Fault Refusal :=
  match s.next with
  | (s', .done) => .next s'
  | (s', .run i) => exec i s'

/-- The state with an instruction of `nbits` bits where the next step runs it: a porter's word of 32 bits, a compute word else. -/
def State.withFetchWord (s : State) (nbits w : Nat) : State := if nbits = 32 then s.placePorter w else s.placeText w

end Sys2Proof.Machine
end

