-- ==== Sys2Proof/WellFormed.lean ====
section
/-! DEFINITION. Which terms of Instr stand for something the machine can do: a compute instruction whose fields pass R170 in a gang of a
given allocation and width, and a step whose subject exists. -/

namespace Sys2Proof

/-- A gang key (R314): 64 slots of each core. -/
def keyOk (k : Nat) : Bool := decide (k < 64 * Config.numCores)
def coreOk (c : Nat) : Bool := decide (c < Config.numCores)
def clusterOk (cl : Nat) : Bool := decide (cl < Config.numClusters)
def laneOk (l : Nat) : Bool := decide (l < 64)
/-- A use slot of an engine (R276) and a matrix set id (R286). -/
def useOk (u : Nat) : Bool := decide (u < 64)
/-- A device or group number (R374, R375). -/
def deviceOk (d : Nat) : Bool := decide (d < 4096)
/-- A physical address (R326). -/
def physOk (pa : Nat) : Bool := decide (pa < 2 ^ 52)

/-- A writer that exists. -/
def writerOk : Writer → Bool
  | .host => true
  | .porter cl => clusterOk cl

/-- What a register write can name (R310, R381, R385). -/
def regTargetOk : RegTarget → Bool
  | .mmio pa => physOk pa
  | .csr cl n => clusterOk cl && decide (n < 4096)
  | .window off => decide (off < 0x200000)

/-- A storage element that exists (R404). -/
def errPlaceOk : ErrPlace → Bool
  | .hbm pa | .l2 pa => physOk pa
  | .scratch _ _ off => decide (off < Config.scratchBytes)
  | .vreg k l r => keyOk k && laneOk l && decide (r < 256)
  | .sreg k sl r => keyOk k && decide (sl < 16 ∧ r < 64)
  | .pred k l r => keyOk k && laneOk l && decide (r < 8)
  | .tile c t => coreOk c && decide (t < 16)
  | .monitor _ => true
  | .cache c _ => coreOk c
  | .queueSram cl | .walks cl _ => clusterOk cl
  | .mgmtSram => true
  | .engine c u _ _ pa => coreOk c && decide (u < 64) && physOk pa
  | .tlb c _ => coreOk c
  | .spare c q => coreOk c && decide (q < 4)

/-- The subject of a step that has no word, or the porter of a porter's word. -/
def Instr.subjectOk : Instr → Bool
  | .producerWriteback k l _ | .draftCommit k l => keyOk k && laneOk l
  | .sleepEnd k _ | .fullLoadPerform k _ | .barrierWaitWake k _ | .mailboxPushWake k _ | .mailboxPopWake k _
  | .cpyAcceptDeferred k _ | .cbatchDeferredSeal k _ | .cwaitRelease k _ | .waitanyDelivery k | .deadlineExpire k
  | .gangHalt k => keyOk k
  | .rotationEnter k sl | .rotationLeave k sl => keyOk k && decide (sl < 16)
  | .subgangSwap ko _ ki _ | .agedSwap ko _ ki _ => keyOk ko && keyOk ki
  | .copyChunk c u _ | .copySrcDone c u | .copyVisible c u => coreOk c && useOk u
  | .matrixSetForm c m | .matrixCollectiveStart c m => coreOk c && useOk m
  | .mmaComplete c | .corePowerGate c | .corePowerUpComplete c | .routerHoldExpire c | .flushAck c _ => coreOk c
  | .heldSourceEnter cl _ | .tlbiComplete cl | .porterTimerInterrupt cl | .porterFence cl _ _ | .porterLoadStoreAmo cl _
  | .sfenceVma cl _ _ | .pgread cl _ _ _ | .pgwrite cl _ _ _ _ | .presume cl _ _ _ | .pmsendChannel cl _ _ _
  | .pmsendMailbox cl _ _ _ | .pmrecv cl _ _ _ | .pcallrec cl _ _ _ | .gangStop cl _ | .gangRelease cl _ | .gangSave cl _ _
  | .gangRestore cl _ _ | .gangClear cl _ | .gangKill cl _ | .gangClearfree cl _ => clusterOk cl
  | .pageWalk cl asid root va => clusterOk cl && decide (asid < 2 ^ 16 ∧ root < 2 ^ 40 ∧ va < 2 ^ 56)
  | .editionAutoRelease asid => decide (asid < 2 ^ 16)
  | .registerWrite w r _ => writerOk w && regTargetOk r
  | .hostCxlMemAccess _ pa n => physOk pa && decide (n ≤ 64)
  | .flitReceive port src _ _ _ _ _ => decide (port < 16) && deviceOk src
  | .laneDrop port => decide (port < 16)
  | .remoteAck dev _ st _ => deviceOk dev && decide (st ≤ 3)
  | .remoteRetransmit dev _ | .remoteRequestFail dev _ | .pskeySwitch dev | .keylow dev | .keyLimit dev | .streamDown dev
  | .streamTagFailures dev => deviceOk dev
  | .patrolRead pa => physOk pa
  | .storageError p _ => errPlaceOk p
  | _ => true

/-- The instruction's word passes R170 in a thread with `vregs` registers of a gang of width `gw`. -/
def Instr.fieldsOk (vregs gw : Nat) (i : Instr) : Bool :=
  match i.code, memberOf i with
  | some (_, _, f), some m => (fieldCheck m vregs gw f).isNone
  | none, none => true
  | _, _ => false

/-- A well-formed term: its word, where it has one, passes R170, and its subject exists. -/
def Instr.wellFormed (vregs gw : Nat) (i : Instr) : Bool := i.fieldsOk vregs gw && i.subjectOk

end Sys2Proof
end

