-- ==== Sys2Proof/Safety.lean ====
section
/-! DEFINITION. What the statements call a sound state and a safe step: the tables keep their canonical forms, a gang has the threads
and slices that its width gives it, and a step answers a next state. -/

namespace Sys2Proof.Machine

/-- A next state. -/
def answers (o : Host.Outcome State Fault Refusal) : Prop := ∃ t, o = .next t

/-- The bytes of HBM and of host memory, of the scratchpads and of the staging window are in canonical form. -/
def Memory.wf (s : State) : Bool := Mem.wf s.mem.bytes

/-! ## What an issue starts from -/

/-- A thread apart from its draft: registers, full/empty bits, PC, loops, flags and state. -/
def Thread.regs (t : Thread) : Thread :=
  { t with
    dstart := 0, dxm := 0, dwm := 0, dext := 0, drc := 0, buf := [], fences := 0, drain := false, solo := false, dloopd := 0
    dentries := [], due := none }

/-- The link but for the fills that cores ask of other devices for their L1 caches. -/
def Link.steady (l : Link) : Link :=
  { l with requests := l.requests.filter fun r => match r.src with | .fill .. => false | _ => true }

/-- The state but for gangs, the L1 caches with their fills, the committed stores on their way and the sequence counter. -/
def State.outer (s : State) :=
  (s.agenda, s.freeCtr, s.clock, s.focus, s.commits, s.gens, s.blocks, s.clusters, s.regions, s.kept, s.routerHold, s.dist, s.link.steady,
    s.host, s.pairs, s.drives, s.trust, s.rel, ({ s.mem with inflight := [], topped := [] } : MemState), s.turn, s.snaps, s.walking, s.walked)

/-- No thread of the gang stands at a rendezvous, and some thread has not ended. -/
structure Gang.Quiet (g : Gang) : Prop where
  gathers : g.gathers = []
  collects : g.collects = []
  live : ∃ l, l < g.threads.length ∧ (g.thread l).tstate ≠ .ended

/-- The LANEs in focus, and those with a true and with a false guard. -/
def State.focusLanes (s : State) (g : Gang) : List Nat := lanesOf s.focus.lanes g.width
def State.goLanes (s : State) (f : Fields) (g : Gang) : List Nat := (s.focusLanes g).filter fun l => (g.thread l).guard f
def State.gfLanes (s : State) (f : Fields) (g : Gang) : List Nat := (s.focusLanes g).filter fun l => !(g.thread l).guard f

/-- The state that the bodies run in: the drafts that meet a boundary have committed. -/
def State.opened (s : State) (f : Fields) (op : Op) (g : Gang) : State :=
  let s1 := s.commitLanes s.focus.key g (op.bounds f s g (s.goLanes f g) (s.gfLanes f g))
  { s1 with seqCtr := s1.seqCtr + 1 }

/-- The sub-gang may execute an instruction at once: no register that it reads or writes is empty or in error, no fault and no walk of
its threads is waited for, and no draft that has to commit first waits for a producer (R139, R143, R162, R184, R329, R404). -/
structure Op.Ready (op : Op) (f : Fields) (s : State) (g : Gang) : Prop where
  gang : s.gang? s.focus.key = some g
  threads : g.threads.length = g.width
  slices : ∀ l, l < g.width → l / 4 < g.slices.length
  quiet : g.Quiet
  seen : ∀ l ∈ s.focusLanes g, (g.thread l).due = none ∧ g.errorAt l (.p f.pred) 1 = false
  full : ∀ x ∈ op.groups (s.goLanes f g), op.empties g x = false ∧ op.stalls g x = false ∧ op.spoils g x = false
  mapped : ∀ l ∈ s.goLanes f g, op.walks s l = none
  free : ∀ l ∈ op.bounds f s g (s.goLanes f g) (s.gfLanes f g), g.busy l = false

/-! ## What an issue leaves -/

/-- What a destination does to the registers of its thread. -/
def dstThread (t : Thread) (d : Operand × Nat × Nat) : Thread :=
  match d.1 with
  | .v i => t.writeVs i.toNat d.2.1 d.2.2
  | .p i => t.writeP i.toNat (d.2.2 % 2 == 1)
  | .sr .fstat => { t with fstat := BitVec.ofNat 6 d.2.2 }
  | .sr .drl => { t with drl := BitVec.ofNat 8 (min 255 (max 1 d.2.2)) }
  | _ => t

/-- What it does to its slice. -/
def dstSlice (x : SliceState) (d : Operand × Nat × Nat) : SliceState :=
  match d.1 with
  | .s i => x.writeSs i.toNat d.2.1 d.2.2
  | _ => x

/-- The bookkeeping of a completion: tracking, flags, the CLOCKH latch, buffered entries, control or a park (R134, R182, R224). -/
def Eff.close (e : Eff) (u : Units × Units) (x : Thread) : Thread :=
  let y := { x.track u.1 u.2 with
    fstat := x.fstat ||| e.flags, clockH := e.latch.getD x.clockH, buf := x.buf ++ e.entries, fences := x.fences + e.fence.toNat }
  match e.park with
  | .none => y.control e.ctl
  | some st => { y with tstate := st }

/-- A producer issued, as its thread sees it: v registers empty (R46, R189); one for an s register is its slice's. -/
def Eff.issue (e : Eff) (toS : Bool) (t : Thread) : Thread :=
  match e.prod with
  | some q => if toS then t else { t.setEmpty q.reg q.words with pend := t.pend ++ [q] }
  | .none => t

/-- The same as its slice sees it, once for the thread whose sources were read. -/
def Eff.interlock (e : Eff) (toS rep : Bool) (x : SliceState) : SliceState :=
  match e.prod with
  | some q => if toS && rep then { x with pend := x.pend ++ [q] } else x
  | .none => x

/-- A thread after a completion: its destinations and its producer, then the bookkeeping. -/
def Eff.thread (e : Eff) (toS : Bool) (u : Units × Units) (t : Thread) : Thread := e.close u (e.issue toS (e.dst.foldl dstThread t))

/-- Its slice after it. -/
def Eff.slice (e : Eff) (toS rep : Bool) (x : SliceState) : SliceState := e.interlock toS rep (e.dst.foldl dstSlice x)

/-- A thread whose guard is false, after the instruction. -/
def falseThread (f : Fields) (t : Thread) : Thread := (t.track (falseUnits f t).1 (falseUnits f t).2).control .fall

/-- The s registers, error marks and producers of a slice. -/
def SliceState.regs (x : SliceState) : Tab W32 × BitVec 64 × List Producer := (x.s, x.bad, x.pend)

/-- A gang apart from its threads and slices. -/
def Gang.rest (g : Gang) : Gang := { g with threads := [], slices := [] }

/-- A gang apart from its EPEND bits, which writes at memory's homes and arrivals may set (R145, R268), and its count of failed stores,
to which a store on its way may add (R377). -/
def Gang.deaf (g : Gang) : Gang := { g with epend := 0, failedStores := 0 }

/-- The second state has the first's focus, clock and slot generations, and its gangs but for EPEND bits and failed stores. -/
structure State.Still (s t : State) : Prop where
  focus : t.focus = s.focus
  clock : t.clock = s.clock
  gens : t.gens = s.gens
  gangs : ∀ k, (t.gang? k).map Gang.deaf = (s.gang? k).map Gang.deaf

/-- The same, where threads and slices of gang `k` may differ. -/
structure State.StillBut (s : State) (k : Nat) (t : State) : Prop where
  focus : t.focus = s.focus
  clock : t.clock = s.clock
  gens : t.gens = s.gens
  others : ∀ j, j ≠ k → (t.gang? j).map Gang.deaf = (s.gang? j).map Gang.deaf
  gang : (t.gang? k).map (fun g => g.rest.deaf) = (s.gang? k).map fun g => g.rest.deaf

/-- The LANE whose sources an instruction reads for a LANE: its own, the lowest executing one of its slice where the instruction
is uniform (R27), or the lowest of the sub-gang where it runs once for the sub-gang (R257). -/
def Op.leader (op : Op) (go : List Nat) (l : Nat) : Nat :=
  if op.gang then go.headD l
  else if isUniform op.dsts && !op.each then (go.filter fun x => x / 4 == l / 4).headD l
  else l

/-- The LANEs that an effect computed for a LANE goes to. -/
def Op.members (op : Op) (go : List Nat) (l : Nat) : List Nat :=
  if op.gang then go else if isUniform op.dsts && !op.each then go.filter fun x => x / 4 == l / 4 else [l]

/-- What the threads of an issue hold once it has completed in each of them: threads with a true guard the effect `r` of their
LANE, threads with a false one a fall-through, slices the s registers that the effects write; all else is as before. -/
structure Delivered (op : Op) (f : Fields) (s t : State) (g : Gang) (r : Nat → Eff) : Prop where
  outer : t.outer = s.outer
  others : ∀ j, j ≠ s.focus.key → t.gang? j = s.gang? j
  gang : ∃ g', t.gang? s.focus.key = some g' ∧ g'.rest = g.rest ∧
    (∀ l ∈ s.goLanes f g, (g'.thread l).regs = ((r l).thread (isUniform op.dsts) (.none, .none) (g.thread l)).regs) ∧
    (∀ l ∈ s.gfLanes f g, (g'.thread l).regs = ((g.thread l).control .fall).regs) ∧
    (∀ l, l ∉ s.focusLanes g → (g'.thread l).regs = (g.thread l).regs) ∧
    ∀ i, match (s.goLanes f g).find? fun l => l / 4 == i with
      | some l => (∀ j, (g'.slice i).readS j = ((r l).dst.foldl dstSlice (g.slice i)).readS j) ∧
          (g'.slice i).pend = ((r l).interlock (isUniform op.dsts) true (g.slice i)).pend
      | .none => (g'.slice i).regs = (g.slice i).regs

/-- A buffered entry of a thread is on its way: in the thread's draft buffer, or among the committed stores (R112, R139). -/
def State.onItsWay (s : State) (k l : Nat) (x : StoreEntry) : Prop :=
  (∃ g, s.gang? k = some g ∧ x ∈ (g.thread l).buf) ∨ x ∈ s.mem.inflight

/-- The same where the bodies took the state from `Op.opened` to `s1`, one after another: outside the issue's threads the state is
`s1`'s, and buffered entries are on their way. A slice takes the effects of its executing threads in ascending LANE. -/
structure DeliveredVia (op : Op) (f : Fields) (s s1 t : State) (g : Gang) (r : Nat → Eff) : Prop where
  outer : t.outer = s1.outer
  others : ∀ j, j ≠ s.focus.key → t.gang? j = s1.gang? j
  gang : ∃ g1 g', s1.gang? s.focus.key = some g1 ∧ t.gang? s.focus.key = some g' ∧ g'.rest = g1.rest ∧
    (∀ l ∈ s.goLanes f g, (g'.thread l).regs = ((r l).thread (isUniform op.dsts) (.none, .none) (g.thread l)).regs) ∧
    (∀ l ∈ s.gfLanes f g, (g'.thread l).regs = ((g.thread l).control .fall).regs) ∧
    (∀ l, l ∉ s.focusLanes g → (g'.thread l).regs = (g.thread l).regs) ∧
    ∀ i, (g'.slice i).regs = (((s.goLanes f g).filter fun l => l / 4 == i).foldl
      (fun z l => (r l).slice (isUniform op.dsts) (l == op.leader (s.goLanes f g) l) z) (g.slice i)).regs
  entries : ∀ l ∈ s.goLanes f g, ∀ x ∈ (r l).entries, t.onItsWay s.focus.key l x

/-- The LANEs for which a wait is tried again: its live ones. -/
def Gang.woken (g : Gang) (w : Wait) : List Nat := lanesOf (w.lanes &&& g.live) g.width

/-- The state in which a waiting instruction is tried again: its gang without the wait, its sub-gang in focus. -/
def State.retried (s : State) (k : Nat) (g : Gang) (w : Wait) : State :=
  { s.setGang k { g with waits := g.waits.filter fun x => x.seq ≠ w.seq } with focus := ⟨k, w.lanes, w.pc, w.insn, w.seq⟩ }

/-- What the threads of a wait hold once their instruction has completed, where the bodies took the state from `State.retried` to
`s1`. -/
structure WokenVia (op : Op) (s s1 t : State) (k : Nat) (g : Gang) (w : Wait) (r : Nat → Eff) : Prop where
  outer : t.outer = State.outer { s1 with focus := s.focus }
  others : ∀ j, j ≠ k → t.gang? j = s1.gang? j
  gang : ∃ g1 g', s1.gang? k = some g1 ∧ t.gang? k = some g' ∧ g'.rest = g1.rest ∧
    (∀ l ∈ g.woken w, (g'.thread l).regs = ((r l).thread (isUniform op.dsts) (.none, .none) (g.thread l)).regs) ∧
    (∀ l, l ∉ g.woken w → (g'.thread l).regs = (g.thread l).regs) ∧
    ∀ i, (g'.slice i).regs = (((g.woken w).filter fun l => l / 4 == i).foldl
      (fun z l => (r l).slice (isUniform op.dsts) (l == op.leader (g.woken w) l) z) (g.slice i)).regs
  entries : ∀ l ∈ g.woken w, ∀ x ∈ (r l).entries, t.onItsWay k l x

/-- The accesses of some LANEs one after another: each takes the state on and gives its LANE's effect. -/
def Accesses (a : State → Nat → State → Eff → Prop) (E : Nat → Eff) : List Nat → State → State → Prop
  | [], s, t => t = s
  | l :: ls, s, t => ∃ u, a s l u (E l) ∧ Accesses a E ls u t

/-- Such accesses can be made: each succeeds in the state that the earlier ones leave. -/
def CanAccess (a : State → Nat → State → Eff → Prop) : List Nat → State → Prop
  | [], _ => True
  | l :: ls, s => (∃ u e, a s l u e) ∧ ∀ u e, a s l u e → CanAccess a ls u

/-! ## Completion -/

/-- The frame of a tracked instruction with the operands of its member row. -/
def frameOf (i : Instr) (f : Fields) : Op := Op.base i f fun s _ => (s, .ok .none)

/-- In every state whose sub-gang is ready for it, in which what it waits for holds and the accesses of its executing threads can be
made in ascending LANE (`a`: from a state, to a state, with an effect), an instruction answers a next state in which each of them has made its
access and has its effect; gangs are as they were but for the threads and slices in focus, EPEND bits and failed stores. -/
def CompletesAt (s : State) (i : Instr) (f : Fields) (op : Op) (a : State → Nat → State → Eff → Prop) : Prop :=
  ∀ g : Gang, op.Ready f s g → op.ready (s.opened f op g) (s.goLanes f g) = true →
    CanAccess a ((op.groups (s.goLanes f g)).map (·.1)) (s.opened f op g) →
    ∃ (t s1 : State) (E : Nat → Eff), exec i s = .next t ∧
      Accesses a E ((op.groups (s.goLanes f g)).map (·.1)) (s.opened f op g) s1 ∧ s.StillBut s.focus.key t ∧
      DeliveredVia op f s s1 t g fun l => (E (op.leader (s.goLanes f g) l)).forMembers (laneSet (op.members (s.goLanes f g) l))

/-- The same in every state. -/
def CompletesVia (i : Instr) (f : Fields) (op : Op) (a : State → Nat → State → Eff → Prop) : Prop :=
  ∀ s : State, CompletesAt s i f op a

/-- The same of an instruction whose bodies change its gang (`a` says how), but no thread and no slice. -/
def CompletesOnGang (i : Instr) (f : Fields) (op : Op) (a : State → Nat → State → Eff → Prop) : Prop :=
  ∀ (s : State) (g : Gang), op.Ready f s g → op.ready (s.opened f op g) (s.goLanes f g) = true →
    CanAccess a ((op.groups (s.goLanes f g)).map (·.1)) (s.opened f op g) →
    ∃ (t s1 : State) (E : Nat → Eff), exec i s = .next t ∧
      Accesses a E ((op.groups (s.goLanes f g)).map (·.1)) (s.opened f op g) s1 ∧
      DeliveredVia op f s s1 t g fun l => (E (op.leader (s.goLanes f g) l)).forMembers (laneSet (op.members (s.goLanes f g) l))

/-- In every state with a gang in which nobody stands at a rendezvous, and with a wait of instruction `i` in it, where what `i` waits
for holds and the accesses of the threads can be made in ascending LANE, the row that ends the wait answers a next
state in which the instruction has completed. -/
def Wakes (row : Nat → Nat → Instr) (i : Instr) (op : Nat → Op) (a : Nat → State → Nat → State → Eff → Prop) : Prop :=
  ∀ (s : State) (k w : Nat) (g : Gang) (x : Wait),
    s.gang? k = some g → g.threads.length = g.width → (∀ l, l < g.width → l / 4 < g.slices.length) → g.Quiet →
    s.waitOf k w = some x → x.instr = i → (op x.seq).ready (s.retried k g x) (g.woken x) = true →
    CanAccess (a x.seq) (((op x.seq).groups (g.woken x)).map (·.1)) (s.retried k g x) →
    ∃ (t s1 : State) (E : Nat → Eff), exec (row k w) s = .next t ∧
      Accesses (a x.seq) E (((op x.seq).groups (g.woken x)).map (·.1)) (s.retried k g x) s1 ∧
      WokenVia (op x.seq) s s1 t k g x fun l =>
        (E ((op x.seq).leader (g.woken x) l)).forMembers (laneSet ((op x.seq).members (g.woken x) l))

/-- In every state whose sub-gang is ready for it, an instruction answers a next state in which every executing thread has the
effect `r` gives for the thread whose sources are read; `r` sees the state that the bodies run in. -/
def Completes (i : Instr) (f : Fields) (op : Op) (r : State → Nat → Eff) : Prop :=
  ∀ (s : State) (g : Gang), op.Ready f s g →
    ∃ t, exec i s = .next t ∧ Delivered op f s t g fun l => r (s.opened f op g) (op.leader (s.goLanes f g) l)

/-- An instruction that delivers to D a pattern of one source. -/
def Gives1 (c : Fields → Instr) (v : Fields → Nat → Flagged Nat) : Prop :=
  ∀ f : Fields,
    Completes (c f) f (frameOf (c f) f) fun o l => Eff.value (c f) f (v f (o.srcA (c f) f l))

/-- An instruction that delivers to D a pattern of two sources. -/
def Gives2 (c : Fields → Instr) (v : Fields → Nat → Nat → Flagged Nat) : Prop :=
  ∀ f : Fields,
    Completes (c f) f (frameOf (c f) f) fun o l => Eff.value (c f) f (v f (o.srcA (c f) f l) (o.srcB (c f) f l))

/-- An instruction that delivers to D a pattern of three sources. -/
def Gives3 (c : Fields → Instr) (v : Fields → Nat → Nat → Nat → Flagged Nat) : Prop :=
  ∀ f : Fields,
    Completes (c f) f (frameOf (c f) f) fun o l =>
      Eff.value (c f) f (v f (o.srcA (c f) f l) (o.srcB (c f) f l) (o.srcC (c f) f l))

/-- An instruction that delivers to D a predicate of two sources. -/
def GivesPred (c : Fields → Instr) (v : Fields → Nat → Nat → Bool × Flags) : Prop :=
  ∀ f : Fields,
    Completes (c f) f (frameOf (c f) f) fun o l =>
      Eff.pred f (v f (o.srcA (c f) f l) (o.srcB (c f) f l)).1 (v f (o.srcA (c f) f l) (o.srcB (c f) f l)).2

/-- A long-latency instruction: its destination words are empty in each executing thread, or interlocked in its slice, and a
producer of the value stands for them under a number of its own (R46, R189). -/
def GivesLate (c : Fields → Instr) (v : Fields → State → Nat → Flagged Nat) : Prop :=
  ∀ (f : Fields) (s : State) (g : Gang), (frameOf (c f) f).Ready f s g →
    let op := frameOf (c f) f
    let o := s.opened f op g
    let go := s.goLanes f g
    ∃ (t : State) (ids : Nat → Nat), exec (c f) s = .next t ∧ Delivered op f s t g fun l =>
      let x := op.leader go l
      (Eff.late (producerOf o (ids x) f (dstWords (c f) f) (v f o x).1 (v f o x).2 .none false)).forMembers
        (laneSet (op.members go l))

/-- The frame of an instruction that ends its thread's draft (R137). -/
def endFrame (i : Instr) (f : Fields) : Op := { frameOf i f with cls := .ending }

/-- A lane operation that delivers a pattern to D: at once where its participants lie in one slice, as a long-latency producer where
they lie in several (R189, R213). -/
def GivesLane (c : Fields → Instr) (v : Fields → State → List Nat → Nat → Flagged Nat) : Prop :=
  ∀ (f : Fields) (s : State) (g : Gang), (endFrame (c f) f).Ready f s g →
    let op := endFrame (c f) f
    let o := s.opened f op g
    let go := s.goLanes f g
    let ps := o.participants f
    (((ps.map (· / 4)).dedup).length ≤ 1 → ∃ t, exec (c f) s = .next t ∧
      Delivered op f s t g fun l => Eff.value (c f) f (v f o ps (op.leader go l))) ∧
    (1 < ((ps.map (· / 4)).dedup).length → ∃ (t : State) (ids : Nat → Nat), exec (c f) s = .next t ∧
      Delivered op f s t g fun l =>
        let x := op.leader go l
        (Eff.late (producerOf o (ids x) f (dstWords (c f) f) (v f o ps x).1 (v f o ps x).2 .none false)).forMembers
          (laneSet (op.members go l)))

/-- A lane operation that delivers a predicate to D. -/
def GivesLanePred (c : Fields → Instr) (v : Fields → State → List Nat → Nat → Bool) : Prop :=
  ∀ f : Fields, Completes (c f) f (endFrame (c f) f) fun o l =>
    Eff.pred f (v f o (o.participants f) l) flagNone

/-! ## Memory accesses

How an access of one thread succeeds: from state `o`, in LANE `l`, to state `t`, with effect `e`. -/

/-- A gang that has migrated has had its old core's flush acknowledged (R131). -/
def State.settledIn (s : State) : Bool := s.focusGang.flushFrom == []

/-- The bytes of a spot, from the core's L1 copy or at the home, or, by an acquire, at the home (R102, R237, R239). -/
def State.readSpot (s : State) (n : Nat) (acquire : Bool) (sp : Spot) : State × ReadEnd :=
  let core := coreOf s.focus.key
  match sp with
  | .glob a t pa =>
    if acquire then (s.dropL1 core (lineOf pa)).readHome core t pa n s.focusGang.asid else s.readPlain core t a pa n s.focusGang.asid
  | .scratch odd off => s.readScratch core s.focusGang.blk odd off n
  | .param off => (s, .data (Mem.readN (((s.launch? s.focusGang.lid).map Launch.params).getD []) off n))

/-- A load that finds data: a producer of the value, with the bytes that the draft's stores forward, and nothing read where they forward
all; an acquire drops the L1's lines (R102, R112, R138, R237 to R240). -/
def LoadAccess (i : Instr) (f : Fields) (space : Space) (acq : Option Scope) (waits : Bool) (o : State) (l : Nat) (t : State) (e : Eff) :
    Prop :=
  (waits = true → o.settledIn = true) ∧ o.acquirePending o.focus.key l = false ∧
  ∃ s1 sp s2 x, o.ea i f l space .read f.ty.bytes = (s1, .ok sp) ∧
    s1.readUnless (s1.fwdOf l sp f.ty.bytes) f.ty.bytes (s1.readSpot f.ty.bytes acq.isSome sp) = (s2, .data x) ∧
    let s3 := match acq with
      | some sc => s2.acquireL1 (coreOf o.focus.key) sc
      | .none => s2
    t = { s3 with seqCtr := s3.seqCtr + 1 } ∧
    e = Eff.late (producerOf s3 s3.seqCtr f (f.ty.regWidth / 32) (loadPattern f.ty (mergeBytes x (s1.fwdOf l sp f.ty.bytes)))
      flagNone .none true)

/-- A load of another device's memory: the producer waits for the answer to the request sent, or to the one that a lower LANE of the
instruction has sent for the same bytes; a plain one asks for the line too (R81, R102, R375). -/
def RemoteLoad (i : Instr) (f : Fields) (acq : Option Scope) (o : State) (l : Nat) (t : State) (e : Eff) : Prop :=
  o.settledIn = true ∧ o.acquirePending o.focus.key l = false ∧
  ∃ s1 sp s2 dev off id, o.ea i f l .glob .read f.ty.bytes = (s1, .ok sp) ∧
    s1.readUnless (s1.fwdOf l sp f.ty.bytes) f.ty.bytes (s1.readSpot f.ty.bytes acq.isSome sp) = (s2, .remote dev off) ∧
    e = Eff.late { producerOf s2 id f (f.ty.regWidth / 32) 0 flagNone .none true with
      ready := false, fwd := s1.fwdOf l sp f.ty.bytes, acq := acq } ∧
    let va := eaSum .glob (s1.srcA i f l) f.imm
    let core := coreOf s2.focus.key
    ((s2.askedFor dev off = some id ∧ t = s2) ∨
      (s2.askedFor dev off = .none ∧ id = s2.seqCtr ∧ ∃ u, State.sendRemote { s2 with seqCtr := s2.seqCtr + 1 } core dev off
        (.read f.ty.bytes) (.load s2.focus.key l id va (State.leafLevel { s2 with seqCtr := s2.seqCtr + 1 } core
          (State.focusGang { s2 with seqCtr := s2.seqCtr + 1 }).asid va)) = some u ∧
        t = if acq.isNone then u.askLine core s2.focusGang.asid va dev off else u))

/-- A bounded load that finds data, with the predicate that says whether it is within the bound (R128, R241). -/
def BoundedAccess (i : Instr) (f : Fields) (rpt : Bool) (o : State) (l : Nat) (t : State) (e : Eff) : Prop :=
  o.settledIn = true ∧ o.acquirePending o.focus.key l = false ∧
  ∃ s1 a tg pa s2 x p, o.ea i f l .glob .read f.ty.bytes = (s1, .ok (.glob a tg pa)) ∧
    s1.readBounded (coreOf s1.focus.key) s1.focusGang.blk s1.focusGang.asid f.md.toNat tg a pa f.ty.bytes rpt
      (s1.fwdOf l (.glob a tg pa) f.ty.bytes) = (s2, .data x, p) ∧
    t = { s2 with seqCtr := s2.seqCtr + 1 } ∧
    e = Eff.late (producerOf s2 s2.seqCtr f (f.ty.regWidth / 32)
      (loadPattern f.ty (mergeBytes x (s1.fwdOf l (.glob a tg pa) f.ty.bytes))) flagNone
      (match f.b with | .p j => some (j.toNat, p) | _ => .none) true)

/-- A store: one entry for the draft's buffer; one to a partner's half fills its granules (R86, R238, R239). -/
def StoreAccess (i : Instr) (f : Fields) (space : Space) (fill : Bool) (rel : Option Scope) (o : State) (l : Nat) (t : State) (e : Eff) :
    Prop :=
  (space = .glob → (rel.map Scope.wide).getD false = true → o.focusGang.failedStores = 0) ∧
  ∃ sp, o.ea i f l space .write f.ty.bytes = (t, .ok sp) ∧
    e = { Eff.none with entries := [t.entryOf l sp .write f.ty.bytes (t.srcB i f l)
      (match sp with | .scratch odd _ => fill || t.partnerHalf odd | _ => false) rel] }

/-- A reduction: one entry, checked as a read-modify-write (R251). -/
def RedAccess (i : Instr) (f : Fields) (rel : Bool) (op : Nat) (o : State) (l : Nat) (t : State) (e : Eff) : Prop :=
  (rel = true → (scopeOf f.md.toNat).wide = true → o.focusGang.failedStores = 0) ∧
  ∃ sp, o.ea i f l .glob .rmw f.ty.bytes = (t, .ok sp) ∧
    e = { Eff.none with entries := [t.entryOf l sp (.red op f.ty) f.ty.bytes (t.srcB i f l) false
      (if rel then some (scopeOf f.md.toNat) else .none)] }

/-- A read-modify-write at a home that this device reaches: D takes the old value, the home the new one where `new` gives one, after
the thread's earlier stores that it has to follow; one of host memory has SYSTEM scope (R114, R248, R250). -/
def RmwAccess (i : Instr) (f : Fields) (ord : Order) (new : State → Nat → Nat → Option Nat) (o : State) (l : Nat) (t : State) (e : Eff) :
    Prop :=
  o.settledIn = true ∧ (ord ≠ .plain → (scopeOf f.md.toNat).wide = true → o.focusGang.failedStores = 0) ∧
  ∃ s1 a tg pa s2 s3 old, o.ea i f l .glob .rmw f.ty.bytes = (s1, .ok (.glob a tg pa)) ∧
    (∀ dev off, tg ≠ .remote dev off) ∧
    (if orderRel ord then s1.drainThread s1.focusGang.tag l
      else s1.drainFenced s1.focusGang.tag l (s1.focusGang.thread l).fences) = some s2 ∧
    s2.homeRead (coreOf s1.focus.key) pa f.ty.bytes s1.focusGang.asid = some (s3, .data old) ∧
    let s4 := match new s1 l old with
      | some x => s3.homeWrite pa f.ty.bytes x
      | .none => s3
    let s5 := s4.dropL1 (coreOf s1.focus.key) (lineOf pa)
    let sc := match s1.reach pa with | .host _ => .system | _ => scopeOf f.md.toNat
    t = (if orderAcq ord then s5.acquireL1 (coreOf s1.focus.key) sc else s5) ∧
    e = { Eff.none with dst := [(f.d, f.ty.regWidth / 32, old)] }

/-- A load that waits for full granules finds them full; a consuming one makes its granule empty (R87, R88, R240). -/
def FullAccess (i : Instr) (f : Fields) (consume : Bool) (o : State) (l : Nat) (t : State) (e : Eff) : Prop :=
  ∃ u s1 sp, LoadAccess i f .scratch (some .block) true o l u e ∧ o.ea i f l .scratch .read f.ty.bytes = (s1, .ok sp) ∧
    t = if consume then u.consumeGranule sp else u

/-- FENCE.ACQ with no load of the thread on its way (R246). -/
def FenceAcqAccess (f : Fields) (o : State) (l : Nat) (t : State) (e : Eff) : Prop :=
  o.settledIn = true ∧ o.loadsOut l = false ∧ t = o.acquireL1 (coreOf o.focus.key) (scopeOf f.md.toNat) ∧ e = Eff.none

/-- FENCE.REL: the thread's later stores follow its earlier ones (R106, R246). -/
def FenceRelAccess (f : Fields) (o : State) (_ : Nat) (t : State) (e : Eff) : Prop :=
  ((scopeOf f.md.toNat).wide = true → o.focusGang.failedStores = 0) ∧ t = o ∧ e = { Eff.none with fence := true }

/-- FENCE.AR: every committed store of the thread is performed, and the L1's lines go (R246). -/
def FenceArAccess (f : Fields) (o : State) (l : Nat) (t : State) (e : Eff) : Prop :=
  o.settledIn = true ∧ o.loadsOut l = false ∧ ((scopeOf f.md.toNat).wide = true → o.focusGang.failedStores = 0) ∧
  ∃ u, o.drainThread o.focusGang.tag l = some u ∧ t = u.acquireL1 (coreOf u.focus.key) (scopeOf f.md.toNat) ∧
    e = { Eff.none with fence := true }

/-- The address of FECLR's range. -/
def State.feclrAddr (s : State) (f : Fields) (l : Nat) : Nat := (s.srcA (.feclr f) f l + f.imm.toNat) % 2 ^ 32

/-- FECLR: nothing for an empty range, else the granules of the range empty after the core's earlier stores to them (R245). -/
def FeclrAccess (f : Fields) (o : State) (l : Nat) (t : State) (e : Eff) : Prop :=
  e = Eff.none ∧
  ((o.clearRange (o.feclrAddr f l) (o.srcB (.feclr f) f l) = .ok .none ∧ t = o) ∨
    ∃ odd gs u, o.clearRange (o.feclrAddr f l) (o.srcB (.feclr f) f l) = .ok (some (odd, gs)) ∧
      (o.drain fun x => x.inGranules (coreOf o.focus.key) o.focusGang.blk odd gs) = some u ∧
      t = u.modScratch o.focusGang.blk odd fun h => { h with full := gs.foldl NatSet.del h.full })

/-- PRF of a line of this device: the line in the core's L1 (R244). -/
def PrefetchAccess (f : Fields) (o : State) (l : Nat) (t : State) (e : Eff) : Prop :=
  f.md = 0 ∧ e = Eff.none ∧ ∃ s1 a pa pa' s2 x, o.ea (.prf f) f l .glob .read 1 = (s1, .ok (.glob a (.hbm pa) pa')) ∧
    s1.homeRead (coreOf o.focus.key) pa 1 o.focusGang.asid = some (s2, .data x) ∧
    t = s2.fillL1 (coreOf o.focus.key) o.focusGang.asid a pa

/-- PRF whose access would raise a cause: nothing (R244). -/
def PrefetchNothing (f : Fields) (o : State) (l : Nat) (t : State) (e : Eff) : Prop :=
  e = Eff.none ∧ t = o ∧ ∃ s1 x, o.ea (.prf f) f l .glob .read 1 = (s1, .error x)

/-! ## Barriers and mailboxes -/

/-- BAR.INIT: phase and expected count from Src(B), the pending count equal to it, every flag and the balance 0, after the
thread's earlier stores (R261). -/
def BarInitAccess (f : Fields) (o : State) (l : Nat) (t : State) (e : Eff) : Prop :=
  let r := o.barLane (.barInit f) f l
  e = Eff.none ∧ ∃ odd off u, o.barrierAt l (o.srcA (.barInit f) f r) .write = .ok (odd, off) ∧
    o.drainThread o.focusGang.tag l = some u ∧
    let v := o.srcB (.barInit f) f r
    t = ((u.scratchWrite u.focusGang.blk odd off 8 (bits v 20 12 + 2 ^ 16 * bits v 0 20 + 2 ^ 36 * bits v 0 20) false).scratchWrite
      u.focusGang.blk odd (off + 8) 8 0 false).scratchSound u.focusGang.blk odd off 16

/-- An accepted arrival, its result in D (R90, R262). -/
def ArriveAccess (i : Instr) (f : Fields) (delta : Nat → Int) (o : State) (l : Nat) (t : State) (e : Eff) : Prop :=
  let r := o.barLane i f l
  ∃ odd off u w ph, o.barrierAt l (o.srcA i f r) .rmw = .ok (odd, off) ∧ o.drainThread o.focusGang.tag l = some u ∧
    u.arrive u.focusGang.blk odd off (bits (o.srcB i f r) 0 12) (bits (o.srcB i f r) 12 20) (delta (o.srcB i f r)) =
      (t, w, .accepted ph) ∧
    e = Eff.barrier i f l r (barrierWord w ph)

/-- BAR.WAIT whose phase has moved, or that finds POISON and returns it (R263). -/
def BarWaitAccess (f : Fields) (o : State) (l : Nat) (t : State) (e : Eff) : Prop :=
  let r := o.barLane (.barWait f) f l
  o.settledIn = true ∧ ∃ odd off u w, o.barrierAt l (o.srcA (.barWait f) f r) .read = .ok (odd, off) ∧
    o.readWord0 o.focusGang.blk odd off = (u, w) ∧ (bits w 12 1 = 1 → f.md ≠ 0) ∧
    (bits w 0 12 ≠ bits (o.srcB (.barWait f) f r) 0 12 ∨ bits w 12 1 = 1) ∧
    t = u.acquireL1 (coreOf u.focus.key) .block ∧ e = Eff.barrier (.barWait f) f l r (barrierWord w false)

/-- BAR.TEST: whether the phase has moved or POISON is set (R264). -/
def BarTestAccess (f : Fields) (o : State) (l : Nat) (t : State) (e : Eff) : Prop :=
  let r := o.barLane (.barTest f) f l
  o.settledIn = true ∧ ∃ odd off u w, o.barrierAt l (o.srcA (.barTest f) f r) .read = .ok (odd, off) ∧
    o.readWord0 o.focusGang.blk odd off = (u, w) ∧ (bits w 12 1 = 1 → f.md ≠ 0) ∧
    t = u.acquireL1 (coreOf u.focus.key) .block ∧
    e = Eff.pred f (bits w 0 12 != bits (o.srcB (.barTest f) f r) 0 12 || bits w 12 1 == 1) flagNone

/-- The block has the mailbox that MD names (R266). -/
def State.hasMailbox (s : State) (f : Fields) : Bool :=
  decide (f.md.toNat < ((s.block? s.focusGang.blk).map Block.mailboxes).getD 0)

/-- A push that a mailbox takes, after the thread's earlier stores (R94, R266). -/
def PushAccess (i : Instr) (f : Fields) (eff : Eff) (o : State) (l : Nat) (t : State) (e : Eff) : Prop :=
  e = eff ∧ o.hasMailbox f = true ∧ ∃ u x, o.drainThread o.focusGang.tag l = some u ∧
    u.push u.focusGang.blk f.md.toNat (u.srcA i f l) false = (t, .done x)

/-- MBX.PUSH.TRY of a full mailbox: false (R266). -/
def FullMailbox (f : Fields) (o : State) (l : Nat) (t : State) (e : Eff) : Prop :=
  e = Eff.pred f false flagNone ∧ o.hasMailbox f = true ∧ ∃ u, o.drainThread o.focusGang.tag l = some u ∧
    u.push u.focusGang.blk f.md.toNat (u.srcA (.mbxPushTry f) f l) false = (t, .full)

/-- A pop that finds an entry, with no earlier pop of the block waiting: D empty with a producer of the entry, an acquire at BLOCK
scope (R94, R266). -/
def PopAccess (f : Fields) (n : Nat) (o : State) (_ : Nat) (t : State) (e : Eff) : Prop :=
  o.settledIn = true ∧ o.hasMailbox f = true ∧ o.earlierPop o.focusGang.blk f.md.toNat n = false ∧
  ∃ u x, o.pop o.focusGang.blk f.md.toNat = (u, .done x) ∧
    let v := u.acquireL1 (coreOf u.focus.key) .block
    t = { v with seqCtr := v.seqCtr + 1 } ∧ e = Eff.late (producerOf v v.seqCtr f 4 x flagNone .none true)

/-! ## Editions, events and calls -/

/-- The region that a thread's EDNEXT or EDSYNC names (R123, R253). -/
def State.namedRegion (s : State) (i : Instr) (f : Fields) (l : Nat) : Option Region :=
  if s.srcA i f l < 8 then s.regionAt s.focusGang.asid (s.srcA i f l) else .none

/-- EDNEXT: after the thread's earlier stores the counter advances by one, and D takes it; an exhausted counter stays, and D takes
zero (R125, R253). -/
def EdnextAccess (f : Fields) (o : State) (l : Nat) (t : State) (e : Eff) : Prop :=
  ∃ r u, o.namedRegion (.ednext f) f l = some r ∧ o.drainThread o.focusGang.tag l = some u ∧
    if r.counter = 0xFFFFFFFF then t = u ∧ e = { Eff.none with dst := [(f.d, 1, 0)] }
    else
      t = { u with regions := u.regions.map fun x =>
        if x.asid = r.asid ∧ x.slot = r.slot then { x with counter := r.counter + 1 } else x } ∧
      e = { Eff.none with dst := [(f.d, 1, (r.counter + 1).toNat)] }

/-- EDSYNC: the block's view rises to the counter, its cores' L1 lines go but those of edition regions, and D takes the view (R127,
R253). -/
def EdsyncAccess (f : Fields) (o : State) (l : Nat) (t : State) (e : Eff) : Prop :=
  o.settledIn = true ∧ ∃ r b, o.namedRegion (.edsync f) f l = some r ∧ o.block? o.focusGang.blk = some b ∧
    let old := Tab.getD b.edview r.slot 0
    let v := if old < r.counter then r.counter else old
    let u := (o.setBlock o.focusGang.blk { b with edview := Tab.put b.edview 0 r.slot v }).acquireL1 b.core .block
    t = (if b.pair then u.acquireL1 (b.core + 1) .block else u) ∧ e = { Eff.none with dst := [(f.d, 1, v.toNat)] }

/-- SWRITE of a register that the gang holds (R52, R55 to R57): DEADLINE's low word staged, its high word with the staged one, or a range
guard's count and flag cleared, also for an MSTA issued and not started. Of two that a gang of 64 issues in one clock the one with the
higher LANE stands. -/
def GangWrite (f : Fields) (o : State) (l : Nat) (t : State) (e : Eff) : Prop :=
  e = Eff.none ∧ ∃ r, f.d = .sr r ∧ gangHeld f.d = true ∧
    let x := o.srcA (.swrite f) f l
    t = o.modGang o.focus.key fun g =>
      let top := ((lanesOf o.focus.lanes g.width).getLast?).getD 0
      let h : Gang := match r with
        | .deadL => { g with deadStage := BitVec.ofNat 32 x }
        | .deadH => { g with deadline := BitVec.ofNat 32 x ++ g.deadStage }
        | .gstat n => { g with
            guards := Tab.set g.guards n.val { Tab.getD g.guards n.val .fresh with count := 0, sticky := false }
            issued := g.issued.map fun y => { y with cleared := y.cleared || y.names n.val } }
        | _ => g
      if g.width = 64 ∧ ∃ w ∈ g.swrites, w.1 = r ∧ w.2.1 = o.clock ∧ top < w.2.2 then g
      else { h with swrites := g.swrites.filter (fun w => w.1 != r) ++ [(r, o.clock, top)] }

/-- MON: the description staged in the slot (R267). -/
def MonAccess (f : Fields) (o : State) (l : Nat) (t : State) (e : Eff) : Prop :=
  e = Eff.none ∧ ∃ s1 a pa pa', o.eaAt o.focus.key l .glob (o.srcA (.mon f) f l) f.ty.bytes .read = (s1, .ok (.glob a (.hbm pa) pa')) ∧
    t = s1.setSlot o.focus.key (slotOf f) { Tab.getD s1.focusGang.slots (slotOf f) .fresh with
      staged := some ⟨pa, o.srcA (.mon f) f l, f.ty, f.md.toNat, s1.srcB (.mon f) f l⟩ }

/-- EVARM: the slot armed with its token and its handler, its EPEND bit clear, a staged monitor placed, and the condition evaluated
(R144, R145, R269, R270). -/
def EvarmAccess (f : Fields) (o : State) (l : Nat) (t : State) (e : Eff) : Prop :=
  e = Eff.none ∧ ∃ tk, o.tokenOf f l = some tk ∧
    let k := o.focus.key
    let n := slotOf f
    let old := Tab.getD o.focusGang.slots n .fresh
    let u := ((o.unplace k n).setSlot k n { old with armed := some (tk, relTarget o.focus.pc f.imm.toInt) }).modGang k fun g =>
      { g with epend := g.epend &&& ~~~(BitVec.twoPow 16 n) }
    t = State.evaluateSlot (match tk, old.staged with
      | .monitor, some d => u.place k n d
      | _, _ => u) k n

/-- EVDIS: the slot disarmed, its EPEND bit clear, its monitor gone (R144). -/
def EvdisAccess (f : Fields) (o : State) (_ : Nat) (t : State) (e : Eff) : Prop :=
  e = Eff.none ∧
    let k := o.focus.key
    let n := slotOf f
    t = ((o.unplace k n).setSlot k n { Tab.getD o.focusGang.slots n .fresh with armed := .none }).modGang k fun g =>
      { g with epend := g.epend &&& ~~~(BitVec.twoPow 16 n) }

/-- EVCLR: the EPEND bits of a mask clear (R270). -/
def EvclrAccess (f : Fields) (o : State) (l : Nat) (t : State) (e : Eff) : Prop :=
  e = Eff.none ∧ t = o.modGang o.focus.key fun g => { g with epend := g.epend &&& ~~~(BitVec.ofNat 16 (o.srcA (.evclr f) f l)) }

/-- A slot's handler. -/
def Gang.handler (g : Gang) (n : Nat) : Option Pc := ((Tab.getD g.slots n .fresh).armed).map (·.2)

/-- A group has been delivered slot `n` (R149): its threads are live at the handler with a new draft, EVSLOT is `n`, the slot's EPEND
bit is clear, and nobody is parked. -/
structure SlotDelivered (t : State) (k n : Nat) (h : Pc) (g : Gang) (group : List Nat) : Prop where
  gang : ∃ g', t.gang? k = some g' ∧ g'.evslot = BitVec.ofNat 5 n ∧ g'.epend.getLsbD n = false ∧ g'.parked = .none ∧
    ∀ l ∈ group, (g'.thread l).regs = { ((g.thread l).control (.jump h)).regs with tstate := .live } ∧ (g'.thread l).dstart = h

/-- A thread of a porter call that finds room in the delivery queue: its earlier stores performed, then parked in CALLER, or past a
SYSC.A, whose mailbox is one of the block's (R151, R154, R231). -/
def CallAccess (f : Fields) (async : Bool) (o : State) (l : Nat) (t : State) (e : Eff) : Prop :=
  o.mayEnter (clusterOf o.focus.key) (some o.focus.key) = true ∧ o.focusGang.failedStores = 0 ∧
  (async = true → o.hasMailbox f = true) ∧ o.drainThread o.focusGang.tag l = some t ∧ e = { Eff.none with park := if async then .none else some .caller }

/-- A porter call made (R152, R231, R311, R320): its record holds the classes of the calling threads, and an entry that carries the
record's token stands in the cluster's delivery queue. -/
def CallMade (s t : State) (k : Nat) (g : Gang) (f : Fields) (async : Bool) (go : List Nat) : Prop :=
  ∃ r ∈ (t.core (coreOf k)).calls, r.key = k ∧ r.gen = s.gen k ∧ r.async = async ∧ r.mbx = f.md.toNat ∧ r.left = laneSet go ∧
    r.pc = s.focus.pc ∧ r.classes = go.foldl (fun c l => joinClass c l (g.callNumber f l) (g.callArgs f l)) [] ∧
    ∃ e ∈ (t.cluster (clusterOf k)).dq, e.kind = .call ∧ e.handle = s.handle k ∧ e.lanes = laneSet go ∧
      e.arg0 = BitVec.ofNat 64 r.token ∧ e.arg1 = s.focus.pc.setWidth 64

/-! ## Events of a gang and of memory -/

/-- The second state differs from the first in gang `k` alone, which is `g` in it. -/
structure OnlyGang (s t : State) (k : Nat) (g : Gang) : Prop where
  gang : t.gang? k = some g
  others : ∀ j, j ≠ k → t.gang? j = s.gang? j
  rest : { t with gangs := s.gangs } = s

/-- A swap made (R365): slices `out` of one gang have left the active set and slices `inn` of another entered it; no other field of
any gang has changed. -/
structure Swapped (s t : State) (kOut : Nat) (out : BitVec 16) (kIn : Nat) (inn : BitVec 16) : Prop where
  rest : { t with gangs := s.gangs } = s
  gang : ∀ k g, s.gang? k = some g → ∃ g', t.gang? k = some g' ∧ { g' with slices := g.slices } = g ∧
    ∀ i, i < g.slices.length → i < 16 →
      g'.slice i =
        if k = kIn ∧ inn.getLsbD i = true then { g.slice i with active := true, entered := s.clock }
        else if k = kOut ∧ out.getLsbD i = true then { g.slice i with active := false, entered := s.clock, yielded := false }
        else g.slice i

/-- A memory after n bytes of a number have been written from an address: those bytes, and no others. -/
def BytesWritten (m m' : Mem) (a n x : Nat) : Prop :=
  ∀ b, Mem.read m' b = if a ≤ b ∧ b < a + n then BitVec.ofNat 8 (x / 256 ^ (b - a)) else Mem.read m b

/-- Global memory after a write at its home (R82, R101, R268, R405): the written bytes; poison marks, queues and latent errors as they were; a
monitor of the atom whose word satisfies its relation has fired. -/
structure WrittenHome (s t : State) (a n x : Nat) : Prop where
  bytes : BytesWritten s.mem.bytes t.mem.bytes a n x
  marks : t.mem.poison = s.mem.poison ∧ t.mem.latent = s.mem.latent ∧ t.mem.redq = s.mem.redq ∧ t.mem.inflight = s.mem.inflight
  monitors : ∀ m ∈ s.mem.monitors, atomOf m.desc.pa = atomOf a →
    m.desc.holds (Mem.readN t.mem.bytes m.desc.pa m.desc.ty.bytes) = true →
    ∃ m' ∈ t.mem.monitors, m' = { m with fired := true }
  still : s.Still t
  rest : t.blocks = s.blocks ∧ t.cores = s.cores ∧ t.dist = s.dist ∧ t.link = s.link ∧ t.rel = s.rel

/-- A half of a scratchpad after a store at its home (R85, R86): the written bytes, and their granules full where it fills. -/
structure WrittenHalf (h h' : Scratch) (off n x : Nat) (fill : Bool) : Prop where
  bytes : BytesWritten h.mem h'.mem off n x
  full : ∀ i, NatSet.has h'.full i = (NatSet.has h.full i || (fill && (granulesOf off n).contains i))
  marks : h'.poison = h.poison ∧ h'.latent = h.latent

/-! ## Copies -/

/-- A use with one more part; with its last it runs (R276). -/
def CopyUse.withPart (x : CopyUse) (p : UsePart) : CopyUse :=
  { x with
    parts := x.parts ++ [p], state := if x.parts.length + 1 = rParts x.record then .running else .gathering }

/-- An accepted CPY (R275, R276, R280): after the gang's stores have been performed, its part joins the use that gathers at the
record, or begins a use with a copy of the record; a use that signals on the batch joins the open level. -/
def CopyAccess (f : Fields) (o : State) (l : Nat) (t : State) (e : Eff) : Prop :=
  e = Eff.none ∧ ∃ b odd off u, o.block? o.focusGang.blk = some b ∧ o.srcA (.cpy f) f l % 64 = 0 ∧
    b.placeOf (coreOf o.focus.key) (o.srcA (.cpy f) f l) 64 = some (odd, off) ∧
    (o.drain fun x => x.tag == o.focusGang.tag) = some u ∧ u.remoteStores o.focusGang.tag .none = false ∧
    let g := o.focusGang
    let c := b.coreOfHalf odd
    let j := f.md.toNat % 4
    let row := f.md.toNat / 4 % 2 == 1
    let w : W128 := BitVec.ofNat 128 (if row then o.srcB (.cpy f) f l else 0)
    let fits (r : BitVec 512) : Prop := j < rParts r ∧ row = rRows r ∧ (rRows r = true → rowValid b c r w = true) ∧
      (rOnBarrier r = false → (g.level g.openLevel).recs.length < 255)
    let part (r : BitVec 512) : UsePart := ⟨j, o.focus.key, u.handle o.focus.key, g.gidx, g.openLevel, if rRows r then w else 0⟩
    let join (s : State) (r : BitVec 512) (stamp : Nat) : State :=
      if rOnBarrier r then s else s.modGang o.focus.key fun g => g.joinBatch stamp
    ((∃ n x, (u.core c).uses.find? (fun y => y.2.off = off && y.2.state == .gathering) = some (n, x) ∧ fits x.record ∧
        x.blk = g.blk ∧ (∀ p ∈ x.parts, p.j ≠ j) ∧
        t = join (u.setUse c n (x.withPart (part x.record))) x.record x.stamp) ∨
      ∃ u1 r n, (u.core c).uses.find? (fun y => y.2.off = off && y.2.state == .gathering) = .none ∧
        u.readRecord g.blk odd off = (u1, .ok r) ∧ recordValid b c r = true ∧ fits r ∧
        Tab.freeKey (u1.core c).uses 0 64 = some n ∧
        t = join (State.setUse { u1 with seqCtr := u1.seqCtr + 1 } c n (CopyUse.withPart {
          stamp := u1.seqCtr, off := off, record := r, blk := g.blk, state := .gathering
          parts := [], bufs := [], acked := [], stopped := [], srcDone := false, poison := false, lost := false } (part r))) r u1.seqCtr)

/-- A CPY that has waited as a 65th use begins its use, with the record, the part and the level of its issue, in a free slot (R275,
R276, R280). -/
def CopyStart (seq : Nat) (o : State) (_ : Nat) (t : State) (e : Eff) : Prop :=
  e = Eff.none ∧ ∃ y c x n, o.focusGang.cpys.find? (fun y => y.1 = seq) = some (y, c, x) ∧
    (o.core c).uses.find? (fun u => u.2.off = x.off && u.2.state == .gathering) = .none ∧ Tab.freeKey (o.core c).uses 0 64 = some n ∧
    t = (o.setUse c n x).modGang o.focus.key fun g => { g with cpys := g.cpys.filter fun y => y.1 ≠ seq }

/-- A chunk of a use can be read and written at once (R277, R341): its elements, and the state once its writes have been performed or
sent. -/
def State.MovesChunk (s : State) (c u n : Nat) (x : CopyUse) (elems : List (Int × Nat × Bool)) (v : State) : Prop :=
  ∃ lo hi s1 l s2 s3 ws y, x.chunks[n]? = some (lo, hi) ∧
    s.chunkSpots c x ((List.range (hi - lo)).map (lo + ·)) = (s1, .ok l) ∧ s1.chunkRead c u n x l = (s2, some ⟨elems, []⟩) ∧
    y = x.setBuf ⟨n, elems, [], [], false, false⟩ ∧ (s2.setUse c u y).chunkTargets c y elems = (s3, .ok ws) ∧
    s3.chunkWrites c u n y (if rBytes x.record || rMode x.record == 6 then mergeAtoms ws else ws) = some v

/-- CBATCH: nothing while the open level is empty; else the level sealed and the next opened, empty (R281). -/
def BatchAccess (_ : Fields) (o : State) (_ : Nat) (t : State) (e : Eff) : Prop :=
  e = Eff.none ∧
    let g := o.focusGang
    let lv := g.level g.openLevel
    let next := (g.openLevel + 1) % 8
    (lv.recs = [] ∧ t = o) ∨ (lv.recs ≠ [] ∧ g.sealed ≠ 7 ∧
      t = o.setGang o.focus.key (Gang.settleLevels
        { (g.setLevel g.openLevel { lv with state := .outstanding }).setLevel next ⟨.opened, []⟩ with openLevel := next }))

/-- CWAIT with no more than n levels sealed and not complete (R282). -/
def CwaitAccess (f : Fields) (o : State) (l : Nat) (t : State) (e : Eff) : Prop :=
  o.settledIn = true ∧ o.focusGang.sealed ≤ min (o.srcA (.cwait f) f l) 7 ∧ t = o ∧ e = Eff.none

/-- CSTAT of a level (R283). -/
def CstatAccess (f : Fields) (o : State) (l : Nat) (t : State) (e : Eff) : Prop :=
  o.srcA (.cstat f) f l ≤ 7 ∧ t = o ∧
    e = Eff.value (.cstat f) f (noFlag (o.focusGang.level (o.srcA (.cstat f) f l)).stat)

/-! ## Matrix sets -/

/-- MBIND.U with no busy tile among those that the set's instructions named: the set dissolves (R286). -/
def UnbindAccess (_ : Fields) (o : State) (_ : Nat) (t : State) (e : Eff) : Prop :=
  e = Eff.none ∧ ∃ set q, o.focusGang.binding = some (set, q) ∧ (∀ x ∈ (o.core (coreOf o.focus.key)).tiles,
      NatSet.has (Tab.getD (o.core (coreOf o.focus.key)).named set []) x.1 = true → x.2.busy = 0) ∧
    t = o.dissolveSet (coreOf o.focus.key) set

/-- MRGD: the guard's limit, a magnitude, and its ACT (R292). -/
def RangeAccess (f : Fields) (o : State) (l : Nat) (t : State) (e : Eff) : Prop :=
  e = Eff.none ∧ ∃ n, f.d = .guard n ∧ t = o.modGang o.focus.key fun g => { g with
    guards := Tab.set g.guards n.toNat { Tab.getD g.guards n.toNat .fresh with
      limit := BitVec.ofNat 32 (min (o.srcA (.mrgd f) f l % 2 ^ 31) 0x7F800000), act := f.md.setWidth 2 } }

/-- A gang's next collective, with nobody at a rendezvous. -/
def Heads (s : State) (blk k : Nat) (x : Issued) : Prop :=
  ∃ g rest, s.gang? k = some g ∧ g.blk = blk ∧ g.Quiet ∧ g.threads.length = g.width ∧ g.width ≤ 64 ∧ g.issued = x :: rest

/-- The four members of a set have issued their next collective and agree (R287). -/
structure SetReady (s : State) (c set blk : Nat) (ks : List Nat) (xs : List Issued) : Prop where
  members : s.setGangs c set = ks
  four : ks.length = 4
  distinct : ks.Nodup
  heads : List.Forall₂ (Heads s blk) ks xs
  agree : agree xs = true

/-- A member has completed the collective: its waiting threads have, with a new draft, and the next collective is its next (R289). -/
def Finished (s t : State) (k : Nat) (x : Issued) : Prop :=
  ∃ g g', s.gang? k = some g ∧ t.gang? k = some g' ∧ g'.issued = g.issued.tail ∧
    (∀ l, l < g.width → (x.waiting &&& g.live).getLsbD l = true → (g'.thread l).regs = ((g.thread l).control .fall).regs) ∧
    ∀ l, l < g.width → (x.waiting &&& g.live).getLsbD l = false → (g'.thread l).regs = (g.thread l).regs

/-! ## Porters -/

/-- The second state differs from the first in one porter, which is `p` in it. -/
structure OnlyPorter (s t : State) (cl : Nat) (p : Porter) : Prop where
  cluster : t.cluster cl = { s.cluster cl with porter := p }
  others : ∀ j, j ≠ cl → t.cluster j = s.cluster j
  rest : { t with clusters := s.clusters } = s

/-- A custom instruction has ended in state `s`: rd takes a value, PSTAT a status, and the next instruction follows (R315). -/
def PorterDone (s t : State) (cl : Nat) (d : BitVec 5) (v : Nat) (st : PStatus) : Prop :=
  OnlyPorter s t cl { ((s.porter cl).wr d (BitVec.ofNat 64 v)).next with pstat := BitVec.ofNat 4 st.code, buffer := .none }

/-- A gang command has ended in state `s`, with a status (R317). -/
def CommandDone (s t : State) (cl : Nat) (st : PStatus) : Prop :=
  OnlyPorter s t cl { s.porter cl with pstat := BitVec.ofNat 4 st.code }

/-- A porter that may run a custom instruction: not in U-mode, and not waiting for another device (R315). -/
def State.mayRun (s : State) (cl : Nat) : Bool := (s.porter cl).mode != .user && !s.porterWaits cl

/-- A porter has taken an exception or an interrupt into machine or supervisor mode (R309, R344; PRESUMED, log 31): the pc, the
cause and the value saved, the interrupt enable and the mode stacked, the pc at the vector. -/
structure PorterTaken (s t : State) (cl cause tval : Nat) (intr machine : Bool) : Prop where
  porter : ∃ p', OnlyPorter s t cl p' ∧
    let p := s.porter cl
    let base (v : W64) : W64 := BitVec.ofNat 64 (v.toNat / 4 * 4 + if intr ∧ v.toNat % 4 = 1 then 4 * cause else 0)
    let code : W64 := BitVec.ofNat 64 (cause + if intr then 2 ^ 63 else 0)
    if machine then
      p'.mepc = p.pc ∧ p'.mcause = code ∧ p'.mtval = BitVec.ofNat 64 tval ∧ p'.mode = .machine ∧ p'.pc = base p.mtvec ∧
        p'.mstatus.getLsbD 3 = false ∧ p'.mstatus.getLsbD 7 = p.mstatus.getLsbD 3 ∧ bits p'.mstatus.toNat 11 2 = p.mode.code ∧
        p'.x = p.x ∧ p'.f = p.f
    else
      p'.sepc = p.pc ∧ p'.scause = code ∧ p'.stval = BitVec.ofNat 64 tval ∧ p'.mode = .supervisor ∧ p'.pc = base p.stvec ∧
        p'.mstatus.getLsbD 1 = false ∧ p'.mstatus.getLsbD 5 = p.mstatus.getLsbD 1 ∧
        p'.mstatus.getLsbD 8 = (p.mode != .user) ∧ p'.x = p.x ∧ p'.f = p.f

/-- The mode that takes an exception (R309; log 31). -/
def Porter.exceptsToMachine (p : Porter) (c : PorterCause) : Bool := !(p.mode != .machine && p.medeleg.getLsbD c.code)

/-! ## Registers, the log, the bring-up -/

/-- The write of a register stands first among the commits, and the second state is the first without it. -/
structure HeadCommit (s : State) (reg : Nat) (c : Commit) (u : State) : Prop where
  head : s.commits = c :: u.commits
  reg : c.reg = reg
  rest : { u with commits := s.commits } = s

/-- An event entered in the error log, or, where its ring is full, counted (R406, R425). -/
def Logged (s t : State) (kind : LogKind) (unit index addr count asid : Nat) : Prop :=
  if (s.rel.errHead + 1) % s.rel.ring = s.rel.errTail % s.rel.ring then
    t.rel.errOvf = min (s.rel.errOvf + 1) 0xFFFFFFFF ∧ t.rel.errHead = s.rel.errHead ∧ t.mem.bytes = s.mem.bytes
  else
    t.rel.errHead = (s.rel.errHead + 1) % s.rel.ring ∧ t.rel.errSeq = s.rel.errSeq + 1 ∧
      BytesWritten s.mem.bytes t.mem.bytes (s.rel.errBase + 64 * s.rel.errHead) 64
        (logEntry kind unit index s.rel.errSeq s.clock addr count asid)

/-- A boot has failed (R387): FAILS and REASON tell it; the device has been reset, and boots again or, with the third failure, stands in
minimal mode. -/
structure BootFailed (s t : State) (reason : Byte) : Prop where
  fails : t.host.fails = min 3 (s.host.fails + 1)
  reason : t.host.reason = if s.trust.recovery then 7 else reason
  phase : t.trust.phase = if 2 ≤ s.host.fails then .minimal else .step 1
  minimal : t.host.minimal = decide (2 ≤ s.host.fails)
  empty : t.gangs = [] ∧ t.blocks = [] ∧ t.cores = [] ∧ t.clusters = []

/-- The bring-up goes on from a release or a scrub with no failure (R387, R388, R398, R403). -/
structure BootBegun (s t : State) (recovery sealed : Bool) : Prop where
  phase : t.trust.phase = if 3 ≤ s.host.fails ∧ recovery = false then .minimal else .step 1
  mode : t.trust.conf = sealed
  keyed : t.trust.hbmKeyed = sealed

/-! ## Words, and the canonical form -/

/-- The fields of a word that leaves all of them zero but its guard, which is p7 (R166). -/
def plainFields : Fields :=
  { neg := false, pred := 7, yld := false, keep := false, ra := false, rb := false, d := .v 0, a := .v 0, b := .v 0, ty := .n8
    md := 0, sat := false, fa := false, fb := false, x := false, imm := 0 }

/-- Every memory that holds bytes is in canonical form: HBM with host memory, the scratchpads, the staging window, management SRAM. -/
structure State.Canonical (s : State) : Prop where
  bytes : Memory.wf s = true
  halves : ∀ b ∈ s.blocks, Mem.wf b.2.even.mem = true ∧ Mem.wf b.2.odd.mem = true
  window : Mem.wf s.host.window = true
  image : Mem.wf s.trust.image = true

/-! ## Exceptions -/

/-- Threads of a gang may trap at once: no fault record of it is out, the queue has room and holds no source back, and none of its stores
is buffered, on its way, or unacknowledged by another device (R108, R311, R312, R337). -/
structure State.MayTrap (s : State) (k : Nat) (g : Gang) : Prop where
  record : g.recordOut = false
  room : s.dqRoom (clusterOf k) = true
  held : (s.cluster (clusterOf k)).held = []
  buffers : ∀ l, (g.thread l).buf = []
  stores : ∀ e ∈ s.mem.inflight, e.tag ≠ g.tag
  acked : s.remoteStores g.tag .none = false

/-- Threads of a gang have trapped together with cause `c` (R140, R142, R311, R336 to R340): each is TRAPPED with its registers as
they were, at the instruction, or, where the cause discards the draft, at the draft's start; the gang's fault record is out; and one
entry for all of them stands in the cluster's delivery queue, a breakpoint from cause 0x70 up. -/
structure TrapTaken (s t : State) (k : Nat) (g : Gang) (pc : Pc) (c : Cause) (faults : List LaneFault) : Prop where
  gang : ∃ g', t.gang? k = some g' ∧ g'.recordOut = true ∧
    (∀ x ∈ faults,
      let y := g'.thread x.lane
      let z := g.thread x.lane
      y.tstate = .trapped ∧ y.trap.valid = true ∧ y.trap.code = x.code ∧ y.v = z.v ∧ y.p = z.p ∧ y.fstat = z.fstat ∧
      (if Cause.discards c then y.pc = z.dstart else y.pc = pc ∧ y.trap.cause = BitVec.ofNat 7 (Cause.code c))) ∧
    ∀ j, (∀ x ∈ faults, x.lane ≠ j) → (g'.thread j).regs = (g.thread j).regs
  entry : ∃ e ∈ (t.cluster (clusterOf k)).dq, e.handle = s.handle k ∧ e.lanes = laneSet (faults.map (·.lane)) ∧
    e.arg1 = pc.setWidth 64 ∧
    (Cause.discards c = false →
      e.cause = BitVec.ofNat 7 (Cause.code c) ∧ e.kind = if 0x70 ≤ Cause.code c then .brk else .trap)

end Sys2Proof.Machine
end

