-- ==== Sys2Proof/Certificates/Slice0/Obligations.lean ====
section
/-! DEFINITION. The statements for the provers. A statement about a free value of Config holds for every value of it. -/

open Sys2Proof Sys2Proof.Machine

set_option autoImplicit false

/-- R45: a v, s or predicate register reads what was last written to it, but for v255, s63 and p7, which discard writes and read as
zero, zero and true; a write leaves every other register alone. None of these three waits on a full/empty bit or has a tracked
unit. -/
def Obligations.RegistersReadBack : Prop :=
  (∀ (t : Thread) (i j : Nat) (x : W32), (t.writeV i x).readV j = if j = i ∧ i < 255 then x else t.readV j) ∧
  (∀ (x : SliceState) (i j : Nat) (w : W32), (x.writeS i w).readS j = if j = i ∧ i < 63 then w else x.readS j) ∧
  (∀ (t : Thread) (i j : Nat) (b : Bool), (t.writeP i b).readP j = if j = i ∧ i < 7 then b else t.readP j) ∧
  (∀ (t : Thread) (x : SliceState), t.readV 255 = 0 ∧ x.readS 63 = 0 ∧ t.readP 7 = true) ∧
  (∀ (g : Gang) (l : Nat), g.notReady l (.v 255) 1 = false ∧ g.notReady l (.s 63) 1 = false ∧ g.notReady l (.p 7) 1 = false) ∧
  Units.ofV 255 = .none ∧ Units.ofS 63 = .none ∧ Units.ofP 7 = .none

/-- R235: the access size of each type. -/
def Obligations.AccessSizes : Prop :=
  (Ty.n8.bytes = 1 ∧ Ty.i8.bytes = 1) ∧ (Ty.n16.bytes = 2 ∧ Ty.i16.bytes = 2) ∧
  (Ty.n32.bytes = 4 ∧ Ty.i32.bytes = 4 ∧ Ty.f32.bytes = 4 ∧ Ty.f16.bytes = 4 ∧ Ty.bf16.bytes = 4) ∧
  (Ty.n64.bytes = 8 ∧ Ty.i64.bytes = 8 ∧ Ty.f64.bytes = 8) ∧ Ty.b128.bytes = 16

/-- R313: a supervisor external interrupt pends while a bit of PIPEND stands whose bit of PIEN stands too; the porter's delegation
decides which mode takes it. -/
def Obligations.ExternalInterruptsPend : Prop :=
  ∀ (s : State) (cl : Nat),
    let p := s.porter cl
    let on : Prop := ∃ i, i < 64 ∧ (s.pipend cl).testBit i = true ∧ p.pien.getLsbD i = true
    ((s.mipNow cl).testBit 9 = true ↔ p.mip.getLsbD 9 = true ∨ on) ∧
    ∀ m, s.porterInterrupt cl = some (9, m) → m = !p.mideleg.getLsbD 9

/-- R157 to R170, R315: words written out from the encodings of the spec decode to what they stand for; a word that fails R170 to
its cause. -/
def Obligations.WordsDecode : Prop :=
  let w (a b c : BitVec 32) : Insn := a ++ (b ++ c)
  decode96 64 32 (w 0x300C8004 0x01406800 0x00000007) =
    .ok (.ffma { plainFields with pred := 2, d := .v 4, a := .v 5, b := .v 6, ty := .f32, imm := 7 }) ∧
  decode96 64 32 (w 0x01024000 0 0xFFFFFFEF) = .ok (.bra { plainFields with neg := true, pred := 1, imm := 0xFFFFFFEF }) ∧
  decode96 64 32 (w 0x6001C008 0x00800200 0x10) = .ok (.ldG { plainFields with d := .v 8, a := .v 2, ty := .n32, imm := 0x10 }) ∧
  decode96 64 32 (w 0x1001C00A 0x02B00701 0xFFFFFFF8) =
    .ok (.iadd { plainFields with d := .v 10, a := .v 10, b := .lit, ty := .i64, x := true, imm := 0xFFFFFFF8 }) ∧
  decode96 64 32 (w 0x8301C225 0x45115000 0) = .ok (.evarm { plainFields with d := .slot 5, a := .s 20, b := .s 21 }) ∧
  decode96 64 32 (w 0xA011C230 0x42A12B00 0) =
    .ok (.msta { plainFields with d := .guard 0, a := .s 10, b := .tile 2, ty := .bf16 }) ∧
  decode96 64 32 (w 0xB101C02F 0x9B400000 0) = .ok (.sread { plainFields with d := .v 47, a := .sr .drc }) ∧
  decode96 64 32 (w 0x10A00000 0x00000F00 0) = .error .illegalOpcode ∧ decode96 64 32 0 = .error .zeroWord ∧
  decode32 3 0x00C5850B = some (.pgread 3 10 11 12) ∧ decode32 3 0x68C5950B = some (.pgwrite 3 10 11 12 13) ∧
  decode32 3 0x0000700B = .none

/-- R157, R170: the word of a well-formed compute instruction decodes to it with every operand and field, and an instruction that a
word decodes to is well-formed and has that word: no bit of a word is dropped. -/
def Obligations.WordsRoundTrip : Prop :=
  (∀ (vregs gw : Nat) (i : Instr) (w : Insn), i.wellFormed vregs gw = true → encode i = some w → decode96 vregs gw w = .ok i) ∧
  (∀ (vregs gw : Nat) (i : Instr) (w : Insn), decode96 vregs gw w = .ok i → encode i = some w ∧ i.wellFormed vregs gw = true) ∧
  ∀ (cl : Nat) (d a b c : BitVec 5) (w : W32),
    (∀ i ∈ [Instr.pgread cl d a b, .pgwrite cl d a b c, .presume cl d a b, .pmsendChannel cl d a b, .pmrecv cl d a b, .pcallrec cl d a b],
      encodeCustom i = some w → decode32 cl w = some i) ∧
    (w.extractLsb' 0 7 = 0x0B → ∀ i, decode32 cl w = some i → encodeCustom i = some w)

/-- R21, R158, R170, R315, R345: a step runs exec on the instruction that the word fetched decodes to, with its sub-gang in focus;
on the illegal word's row where it decodes to a cause; on the porter's instruction; and on the row of a register write that has
committed or of the event that the agenda names (log 3). -/
def Obligations.StepsRunTheDecodedInstruction : Prop :=
  (∀ (s : State) (c : Commit) (cs : List Commit) (i : Instr), s.commits = c :: cs → commitRow c = some i → step s = exec i s) ∧
  ∀ (s : State) (dt : Nat) (act : Act) (rest : List (Nat × Act)), s.commits = [] → s.agenda = (dt, act) :: rest →
    s.fullDue = .none →
    let u : State := { s with walked := [], agenda := rest, clock := s.clock + dt }
    (∀ i, act = .event i → step s = exec i u) ∧
    (∀ (k sl : Nat) (g : Gang) (pc : Pc) (s1 : State) (w : Nat), act = .issue k sl → u.gang? k = some g → u.mayIssue g = true →
      (g.slice sl).active = true → u.excess (coreOf k) = .none → g.heldResumes = 0 → (∀ i, i < g.slices.length →
        g.rotationDue k i = .none) →
      g.slicePc (u.skipped k g) sl = some pc → g.execMask (u.skipped k g) (g.inWait ||| u.callHeld k) pc ≠ 0 →
      u.fetchWords (coreOf k) g.asid g.root pc 3 = (s1, .ok w) →
      let s2 : State := { s1 with
        focus := ⟨k, g.execMask (u.skipped k g) (g.inWait ||| u.callHeld k) pc, pc, BitVec.ofNat 96 w, s1.seqCtr⟩ }
      (∀ i, decode96 g.vregs g.width (BitVec.ofNat 96 w) = .ok i → step s = exec i s2) ∧
      ∀ c, decode96 g.vregs g.width (BitVec.ofNat 96 w) = .error c → step s = exec (.illegalWord c) s2) ∧
    ∀ (cl w n : Nat) (s1 : State) (i : Instr), act = .porter cl → u.portersRun = true → cl < Config.numClusters →
      u.porterWaits cl = false → (u.porter cl).buffer.isSome = true ∨ u.porterInterrupt cl = .none →
      u.porterFetch cl = (s1, some (some w, n)) → decode32 cl (BitVec.ofNat 32 w) = some i →
      step s = exec i (s1.modPorter cl fun p => { p with len := n, parcels := [] })

/-- Every step answers a next state: what the spec gives an effect has it, and each of its errors is a cause, a status or an entry,
never a stop of the model. -/
def Obligations.StepsAnswer : Prop := ∀ s : State, ∃ t, step s = .next t

/-- Every step keeps the memories in canonical form (log 2): equal memories stay equal data, whatever was written. -/
def Obligations.StepsKeepTheCanonicalForm : Prop :=
  ∀ s t : State, s.Canonical → step s = .next t → t.Canonical

/-- R43, R310, R381, R387, R388, R406: right after reset the device is held with nothing resident, no function ready, and each
register at the value its table gives. The memories are in canonical form at reset (log 2). -/
def Obligations.ResetIsAsStated : Prop :=
  (let s := State.reset
   s.trust.phase = .held ∧ s.host.ready = 0 ∧ s.gangs = [] ∧ s.blocks = [] ∧ s.dist.fragwait = 100 ∧ s.link.devNum = 0xFFF ∧
     s.link.devValid = false ∧ s.rel.rowthr = 2 ∧ s.host.hwsize = 0 ∧ s.link.rwsize = 0 ∧
     (∀ cl, (s.porter cl).mode = .machine ∧ (s.porter cl).ptroot = 0 ∧ (s.porter cl).pien = 0 ∧ (s.porter cl).done = 0) ∧
     ∀ q, (s.pair q).cfg = 0 ∧ (s.pair q).rxDrop = 0) ∧
  (State.reset.Canonical)

/-- R8, R82: bytes written are read back little-endian, and a write changes no other byte. -/
def Obligations.MemoryReadsBack : Prop :=
  ∀ (m : Mem) (a n x : Nat), BytesWritten m (Mem.writeN m a n x) a n x ∧ Mem.readN (Mem.writeN m a n x) a n = x % 256 ^ n ∧
    ∀ b k, b + k ≤ a ∨ a + n ≤ b → Mem.readN (Mem.writeN m a n x) b k = Mem.readN m b k

/-- R90: the effect of an arrival on the two words of a barrier object, and its result. -/
def Obligations.BarriersArrive : Prop :=
  ∀ (w0 w1 e n : Nat) (delta : Int), w0 < 2 ^ 64 → w1 < 2 ^ 64 → n < 2 ^ 20 →
    let b : Int := (BitVec.ofNat 64 w1).toInt + delta
    let pend := bits w0 16 20
    let bad := bits w0 12 1 = 1 ∨ bits w0 14 2 ≠ 0 ∨ bits w0 56 8 ≠ 0
    let excess := pend < n ∨ b < -(2 ^ 63) ∨ 2 ^ 63 - 1 < b
    (bad → arriveStep w0 w1 e n delta = (w0 ||| 2 ^ 12, w1, .poisoned)) ∧
    (¬ bad → bits w0 0 12 ≠ e → arriveStep w0 w1 e n delta = (w0 ||| 2 ^ 13, w1, .rejected)) ∧
    (¬ bad → bits w0 0 12 = e → excess → arriveStep w0 w1 e n delta = (w0 ||| 2 ^ 12, w1, .poisoned)) ∧
    (¬ bad → bits w0 0 12 = e → ¬ excess →
      if pend = n ∧ b = 0 then
        ∃ v, arriveStep w0 w1 e n delta = (v, 0, .accepted true) ∧ bits v 0 12 = (e + 1) % 2 ^ 12 ∧ bits v 16 20 = bits w0 36 20 ∧
          bits v 12 4 = bits w0 12 4 ∧ bits v 36 28 = bits w0 36 28
      else
        ∃ v, arriveStep w0 w1 e n delta = (v, (BitVec.ofInt 64 b).toNat, .accepted false) ∧ bits v 16 20 = pend - n ∧
          bits v 0 16 = bits w0 0 16 ∧ bits v 36 28 = bits w0 36 28)

/-- R190 to R194: each integer and address instruction completes, in every executing thread of a sub-gang that is ready, with D
holding its result and FSTAT its flags; the carry forms write p[MD] too. A thread with a false guard falls through, and no other
register, thread, slice or gang changes. -/
def Obligations.IntegerInstructionsComplete : Prop :=
  Gives2 .iadd (fun f => aluIadd f.ty f.sat) ∧ Gives2 .isub (fun f => aluIsub f.ty f.sat) ∧
  Gives2 .imul (fun f => aluImul f.ty f.sat) ∧ Gives2 .imulh (fun f => aluImulh f.ty) ∧
  Gives3 .imad (fun f => aluImad f.ty f.sat) ∧ Gives3 .imadw (fun f => aluImadw f.ty f.sat) ∧
  Gives2 .imin (fun f => aluImin f.ty) ∧ Gives2 .imax (fun f => aluImax f.ty) ∧
  Gives1 .iabs (fun f => aluIabs f.ty f.sat) ∧ Gives1 .ineg (fun f => aluIneg f.ty f.sat) ∧
  GivesPred .icmp (fun f a b => (aluIcmp f.ty f.md.toNat a b, flagNone)) ∧
  Gives2 .iset (fun f a b => noFlag (aluIset f.ty f.md.toNat a b)) ∧
  Gives3 .sel (fun _ a b c => noFlag (if c % 2 = 1 then a else b)) ∧
  Gives2 .lea (fun f a b => noFlag (aluLea f.ty f.md.toNat a b)) ∧
  (∀ f : Fields, Completes (.mov f) f (frameOf (.mov f) f) fun o l =>
    { Eff.value (.mov f) f (noFlag (o.srcA (.mov f) f l)) with latch := o.clockLatch f.a }) ∧
  (∀ f : Fields, Completes (.iaddc f) f (opCarry (.iaddc f) f (aluIaddc f.ty)) fun o l =>
    let r := aluIaddc f.ty (o.srcA (.iaddc f) f l) (o.srcB (.iaddc f) f l) ((o.focusGang.thread l).readP (f.md.toNat % 8))
    { Eff.none with dst := [(f.d, dstWords (.iaddc f) f, r.1), (.p (f.md.setWidth 3), 1, r.2.toNat)] }) ∧
  (∀ f : Fields, Completes (.isubb f) f (opCarry (.isubb f) f (aluIsubb f.ty)) fun o l =>
    let r := aluIsubb f.ty (o.srcA (.isubb f) f l) (o.srcB (.isubb f) f l) ((o.focusGang.thread l).readP (f.md.toNat % 8))
    { Eff.none with dst := [(f.d, dstWords (.isubb f) f, r.1), (.p (f.md.setWidth 3), 1, r.2.toNat)] })

/-- R195 to R199: the same of the logic, shift, bit-field and byte instructions, and of the predicate instructions, whose sources
MD[0] and MD[1] invert. -/
def Obligations.LogicInstructionsComplete : Prop :=
  Gives2 .and (fun f a b => noFlag (aluAnd (tyBits f) a b)) ∧ Gives2 .or (fun f a b => noFlag (aluOr (tyBits f) a b)) ∧
  Gives2 .xor (fun f a b => noFlag (aluXor (tyBits f) a b)) ∧ Gives2 .andn (fun f a b => noFlag (aluAndn (tyBits f) a b)) ∧
  Gives1 .not (fun f a => noFlag (aluNot (tyBits f) a)) ∧ Gives2 .shl (fun f a n => noFlag (aluShl (tyBits f) a n)) ∧
  Gives2 .shr (fun f a n => noFlag (aluShr (tyBits f) a n)) ∧ Gives2 .sar (fun f a n => noFlag (aluSar (tyBits f) a n)) ∧
  Gives2 .rot (fun f a n => noFlag (aluRot (tyBits f) a n)) ∧
  Gives3 .shf (fun f a b c => noFlag (aluShf (f.md = 1) (tyBits f) a b c)) ∧
  Gives2 .bfe (fun f a c => noFlag (aluBfe f.ty.signed (tyBits f) a c)) ∧
  Gives3 .bfi (fun f a b c => noFlag (aluBfi (tyBits f) a b c)) ∧ Gives1 .popc (fun f a => noFlag (aluPopc (tyBits f) a)) ∧
  Gives1 .clz (fun f a => noFlag (aluClz (tyBits f) a)) ∧ Gives1 .ctz (fun f a => noFlag (aluCtz (tyBits f) a)) ∧
  Gives1 .brev (fun f a => noFlag (aluBrev (tyBits f) a)) ∧ Gives3 .prmt (fun _ a b c => noFlag (aluPrmt a b c)) ∧
  GivesPred .pand (fun f a b => (((a % 2 == 1) != f.md.getLsbD 0) && ((b % 2 == 1) != f.md.getLsbD 1), flagNone)) ∧
  GivesPred .por (fun f a b => (((a % 2 == 1) != f.md.getLsbD 0) || ((b % 2 == 1) != f.md.getLsbD 1), flagNone)) ∧
  GivesPred .pxor (fun f a b => (((a % 2 == 1) != f.md.getLsbD 0) != ((b % 2 == 1) != f.md.getLsbD 1), flagNone)) ∧
  GivesPred .pmov (fun f a _ => ((a % 2 == 1) != f.md.getLsbD 0, flagNone))

/-- R200 to R205: the same of the floating-point instructions of OP 0x30 and of the FP64 ones of OP 0x40. -/
def Obligations.FloatInstructionsComplete : Prop :=
  (Gives2 .fadd (fun f => aluFadd f.ty f.md.toNat) ∧ Gives2 .fsub (fun f => aluFsub f.ty f.md.toNat) ∧
  Gives2 .fmul (fun f => aluFmul f.ty f.md.toNat) ∧ Gives3 .ffma (fun f => aluFfma f.ty f.md.toNat) ∧
  Gives2 .fmin (fun f => aluFminmax false f.ty f.md.toNat) ∧ Gives2 .fmax (fun f => aluFminmax true f.ty f.md.toNat) ∧
  Gives1 .fabs (fun f => aluFsign (fun _ => false) f.ty f.md.toNat) ∧ Gives1 .fneg (fun f => aluFsign not f.ty f.md.toNat) ∧
  GivesPred .fcmp (fun f => aluFcmp f.ty f.md.toNat) ∧ Gives2 .fset (fun f => aluFset f.ty f.md.toNat) ∧
  Gives1 .fclass (fun f a => noFlag (aluFclass f.ty a)) ∧ Gives1 .frnd (fun f => aluFrnd f.ty f.md.toNat) ∧
  Gives2 .fscale (fun f => aluFscale f.ty f.md.toNat)) ∧
  Gives2 .faddF64 (fun f => aluFadd f.ty f.md.toNat) ∧ Gives2 .fsubF64 (fun f => aluFsub f.ty f.md.toNat) ∧
  Gives2 .fmulF64 (fun f => aluFmul f.ty f.md.toNat) ∧ Gives3 .ffmaF64 (fun f => aluFfma f.ty f.md.toNat) ∧
  Gives2 .fminF64 (fun f => aluFminmax false f.ty f.md.toNat) ∧ Gives2 .fmaxF64 (fun f => aluFminmax true f.ty f.md.toNat) ∧
  Gives1 .fabsF64 (fun f => aluFsign (fun _ => false) f.ty f.md.toNat) ∧
  Gives1 .fnegF64 (fun f => aluFsign not f.ty f.md.toNat) ∧
  GivesPred .fcmpF64 (fun f => aluFcmp f.ty f.md.toNat) ∧ Gives2 .fsetF64 (fun f => aluFset f.ty f.md.toNat) ∧
  Gives1 .fclassF64 (fun f a => noFlag (aluFclass f.ty a)) ∧ Gives1 .frndF64 (fun f => aluFrnd f.ty f.md.toNat) ∧
  Gives2 .fscaleF64 (fun f => aluFscale f.ty f.md.toNat)

/-- R206 to R212: the conversions complete; QMX and the special functions complete as long-latency producers (R189). -/
def Obligations.ConversionsAndSpecialFunctionsComplete : Prop :=
  Gives1 .cvt (fun f => aluCvt f.ty (f.cvtSrc.getD .n32) f.md.toNat f.sat) ∧ Gives2 .pack (fun f => aluPack f.ty f.md.toNat f.sat) ∧
  Gives1 .unpack (fun f => aluUnpack f.ty f.md.toNat) ∧
  Gives1 .cvt8 (fun f a => if f.ty = .b128 then noFlag (aluCvt8Widen f.md.toNat a) else aluCvt8Narrow f.ty f.md.toNat f.sat a) ∧
  Gives2 .cvt4 (fun f a b =>
    if f.ty = .b128 then noFlag (aluCvt4Widen f.md.toNat a b) else aluCvt4Narrow f.md.toNat f.sat a b) ∧
  GivesLate .qmx (fun f o l => noFlag (aluQmx f.md.toNat (qmxGroup o f l))) ∧
  GivesLate .rcp (fun f o l => aluSpecial .rcp f.ty f.md.toNat (o.srcA (.rcp f) f l)) ∧
  GivesLate .rsq (fun f o l => aluSpecial .rsq f.ty f.md.toNat (o.srcA (.rsq f) f l)) ∧
  GivesLate .sqrt (fun f o l => aluSpecial .sqrt f.ty f.md.toNat (o.srcA (.sqrt f) f l)) ∧
  GivesLate .ex2 (fun f o l => aluSpecial .ex2 f.ty f.md.toNat (o.srcA (.ex2 f) f l)) ∧
  GivesLate .lg2 (fun f o l => aluSpecial .lg2 f.ty f.md.toNat (o.srcA (.lg2 f) f l)) ∧
  GivesLate .sinpi (fun f o l => aluSpecial .sinpi f.ty f.md.toNat (o.srcA (.sinpi f) f l)) ∧
  GivesLate .cospi (fun f o l => aluSpecial .cospi f.ty f.md.toNat (o.srcA (.cospi f) f l)) ∧
  GivesLate .tanh (fun f o l => aluSpecial .tanh f.ty f.md.toNat (o.srcA (.tanh f) f l))

/-- R213 to R217: the lane operations complete over their participants, the threads of the sub-gang with a true guard. -/
def Obligations.LaneOperationsComplete : Prop :=
  GivesLane .shfl (fun f o ps l => noFlag (shflValue o f ps l)) ∧
  GivesLane .ballot (fun f o ps _ =>
    noFlag ((ps.filter fun p => o.srcA (.ballot f) f p % 2 = 1).foldl (fun m p => m + 2 ^ p) 0)) ∧
  GivesLane .matchAny (fun f o ps l => noFlag (matchValue o f ps l)) ∧
  GivesLane .redux (fun f o ps _ => reduxValue f (ps.map fun p => o.srcA (.redux f) f p)) ∧
  GivesLane .scanx (fun f o ps l => noFlag (scanxValue f ((ps.filter (· < l)).map fun p => o.srcA (.scanx f) f p))) ∧
  GivesLanePred .vote (fun f o ps _ => voteValue f.md.toNat (ps.map fun p => o.srcA (.vote f) f p % 2 == 1)) ∧
  GivesLanePred .elect (fun _ _ ps l => ps.head? == some l)

/-- R220 to R222: a transfer completes with each executing thread at its target, the loops that do not contain the target popped,
and for a call the link PC + 12 in the D pair; an absolute target has to name an instruction address. R223, R224: LOOP completes
with what `loopCtl` gives each executing thread: a pushed entry whose body begins at the next instruction, or, for a count of
zero, the end step of the body's last instruction. R227, R233: NOP, YIELD and DRAFT complete with nothing changed but the PC;
DRAFT ends the drafts before it. R32, R226: EXIT ends each executing thread; with the last of its threads the gang becomes
ENDED. -/
def Obligations.ControlInstructionsComplete : Prop :=
  ((∀ (f : Fields) (s : State) (g : Gang),
     let op := opBranch (.bra f) f (fun s _ => some (relTarget s.focus.pc f.imm.toInt)) false
     op.Ready f s g → ∃ t, exec (.bra f) s = .next t ∧ Delivered op f s t g fun _ =>
       { Eff.none with ctl := .jump (relTarget s.focus.pc f.imm.toInt) }) ∧
   (∀ (f : Fields) (s : State) (g : Gang),
     let target (s : State) (l : Nat) : Pc := relTarget s.focus.pc (f.imm.toInt + sExt 32 (s.srcA (.brx f) f l))
     let op := opBranch (.brx f) f (fun s l => some (target s l)) false
     op.Ready f s g → ∃ t, exec (.brx f) s = .next t ∧ Delivered op f s t g fun l =>
       { Eff.none with ctl := .jump (target (s.opened f op g) (op.leader (s.goLanes f g) l)) }) ∧
   (∀ (f : Fields) (s : State) (g : Gang),
     let op := opBranch (.call f) f (fun s _ => some (relTarget s.focus.pc f.imm.toInt)) true
     op.Ready f s g → ∃ t, exec (.call f) s = .next t ∧ Delivered op f s t g fun _ =>
       { Eff.none with ctl := .jump (relTarget s.focus.pc f.imm.toInt), dst := [(f.d, 2, (pcAdd s.focus.pc 12).toNat)] }) ∧
   (∀ (f : Fields) (s : State) (g : Gang) (T : Nat → Pc),
     let op := opBranch (.callInd f) f (fun s l => absTarget (s.srcA (.callInd f) f l)) true
     op.Ready f s g → (∀ l ∈ s.goLanes f g, absTarget ((s.opened f op g).srcA (.callInd f) f l) = some (T l)) →
     ∃ t, exec (.callInd f) s = .next t ∧ Delivered op f s t g fun l =>
       { Eff.none with ctl := .jump (T (op.leader (s.goLanes f g) l)), dst := [(f.d, 2, (pcAdd s.focus.pc 12).toNat)] }) ∧
   (∀ (f : Fields) (s : State) (g : Gang) (T : Nat → Pc),
     let op := opBranch (.ret f) f (fun s l => absTarget (s.srcA (.ret f) f l)) false
     op.Ready f s g → (∀ l ∈ s.goLanes f g, absTarget ((s.opened f op g).srcA (.ret f) f l) = some (T l)) →
     ∃ t, exec (.ret f) s = .next t ∧ Delivered op f s t g fun l =>
       { Eff.none with ctl := .jump (T (op.leader (s.goLanes f g) l)) })) ∧
  (∀ (f : Fields) (s : State) (g : Gang) (C : Nat → Ctl),
     let op := { frameOf (.loop f) f with ctl := fun s l => match loopCtl s f l with | .ok c => c | .error _ => .stay }
     op.Ready f s g → (∀ l ∈ s.goLanes f g, loopCtl (s.opened f op g) f l = .ok (C l)) →
     ∃ t, exec (.loop f) s = .next t ∧ Delivered op f s t g fun l => { Eff.none with ctl := C l }) ∧
  ((∀ (f : Fields) (s : State) (g : Gang), (frameOf (.nop f) f).Ready f s g →
     ∃ t, exec (.nop f) s = .next t ∧ Delivered (frameOf (.nop f) f) f s t g fun _ => Eff.none) ∧
   (∀ (f : Fields) (s : State) (g : Gang), (frameOf (.yield f) f).Ready f s g →
     ∃ t, exec (.yield f) s = .next t ∧ Delivered (frameOf (.yield f) f) f s t g fun _ => Eff.none) ∧
   (∀ (f : Fields) (s : State) (g : Gang), ({ frameOf (.draft f) f with cls := .edge } : Op).Ready f s g →
     ∃ t, exec (.draft f) s = .next t ∧ Delivered { frameOf (.draft f) f with cls := .edge } f s t g fun _ => Eff.none)) ∧
  (∀ (f : Fields) (s : State) (g : Gang), (endFrame (.exit f) f).Ready f s g →
     ((∃ l, l < g.threads.length ∧ l ∉ s.goLanes f g ∧ (g.thread l).tstate ≠ .ended) →
       ∃ t, exec (.exit f) s = .next t ∧
         Delivered (endFrame (.exit f) f) f s t g fun _ => { Eff.none with park := some .ended }) ∧
     ((∀ l, l < g.threads.length → l ∈ s.goLanes f g ∨ (g.thread l).tstate = .ended) →
       ∃ t g', exec (.exit f) s = .next t ∧ t.gang? s.focus.key = some g' ∧ g'.gstate = .ended ∧
         ∀ l, l < g.threads.length → (g'.thread l).tstate = .ended))

/-- R229, R311, R316, R336 to R340: BPT and TRAP make each executing thread take the breakpoint or the software trap at the
instruction, TRAP with its operand as the trap code, where they may trap at once. R171, R325, R336: a word that fails R170, and
a fetch that fails, make every thread in focus take the cause, whatever its guard; FETCH_FAULT and FETCH_POISON discard the
draft. -/
def Obligations.TrapsAreTaken : Prop :=
  ((∀ (f : Fields) (s : State) (g : Gang), ({ frameOf (.bpt f) f with cls := .edge } : Op).Ready f s g →
     s.goLanes f g ≠ [] → s.MayTrap s.focus.key g →
     ∃ t gX, exec (.bpt f) s = .next t ∧ (∀ l, l ∉ s.gfLanes f g → (gX.thread l).regs = (g.thread l).regs) ∧
       TrapTaken s t s.focus.key gX s.focus.pc .breakpoint ((s.goLanes f g).map fun l => LaneFault.plain l .breakpoint)) ∧
   (∀ (f : Fields) (s : State) (g : Gang), ({ frameOf (.trap f) f with cls := .edge } : Op).Ready f s g →
     s.goLanes f g ≠ [] → s.MayTrap s.focus.key g →
     ∃ t gX, exec (.trap f) s = .next t ∧ (∀ l, l ∉ s.gfLanes f g → (gX.thread l).regs = (g.thread l).regs) ∧
       TrapTaken s t s.focus.key gX s.focus.pc .softwareTrap ((s.goLanes f g).map fun l =>
         { LaneFault.plain l .softwareTrap with
           code := BitVec.ofNat 32 ((s.opened f { frameOf (.trap f) f with cls := .edge } g).srcA (.trap f) f l) }))) ∧
  (∀ (s : State) (g : Gang) (c : Cause), s.gang? s.focus.key = some g → g.threads.length = g.width → g.Quiet →
     (Cause.discards c = false → ∀ l ∈ s.focusLanes g, g.busy l = false) → s.focusLanes g ≠ [] →
     (∀ l ∈ s.focusLanes g, (g.thread l).due = .none) →
     s.MayTrap s.focus.key g →
     (∃ t, exec (.illegalWord c) s = .next t ∧
       TrapTaken s t s.focus.key g s.focus.pc c ((s.focusLanes g).map fun l => LaneFault.plain l c)) ∧
     ∀ (va : BitVec 56) (level errkind : Nat), ∃ t, exec (.instructionFetchFault c va level errkind) s = .next t ∧
       TrapTaken s t s.focus.key g s.focus.pc c
         ((s.focusLanes g).map fun l => ⟨l, c, Access.fetch.code, level, errkind, 12, 0, va.setWidth 64⟩))

/-- R237, R239, R241, R242: loads that find data complete, each executing thread's D empty with a producer of the loaded pattern.
R375: a load of another device's memory completes with its request sent and a producer that the answer makes ready. -/
def Obligations.LoadsComplete : Prop :=
  (∀ f : Fields,
     CompletesVia (.ldG f) f (opLoad (.ldG f) f .glob fun s l sp => s.loadPlain (.ldG f) f .glob l sp).awaitFlush
       (LoadAccess (.ldG f) f .glob .none true) ∧
     CompletesVia (.ldGAcq f) f
       (opLoad (.ldGAcq f) f .glob fun s l sp => s.loadAcquire (.ldGAcq f) f .glob (scopeOf f.md.toNat) l sp).awaitFlush
       (LoadAccess (.ldGAcq f) f .glob (some (scopeOf f.md.toNat)) true) ∧
     CompletesVia (.ldS f) f (opLoad (.ldS f) f .scratch fun s l sp => s.loadPlain (.ldS f) f .scratch l sp)
       (LoadAccess (.ldS f) f .scratch .none false) ∧
     CompletesVia (.ldSAcq f) f
       (opLoad (.ldSAcq f) f .scratch fun s l sp => s.loadAcquire (.ldSAcq f) f .scratch (scopeOf f.md.toNat) l sp).awaitFlush
       (LoadAccess (.ldSAcq f) f .scratch (some (scopeOf f.md.toNat)) true) ∧
     CompletesVia (.ldK f) f (opLoad (.ldK f) f .param fun s l sp => s.loadPlain (.ldK f) f .param l sp)
       (LoadAccess (.ldK f) f .param .none false) ∧
     CompletesVia (.ldGEd f) f (opBounded (.ldGEd f) f false) (BoundedAccess (.ldGEd f) f false) ∧
     CompletesVia (.ldGEdRpt f) f (opBounded (.ldGEdRpt f) f true) (BoundedAccess (.ldGEdRpt f) f true)) ∧
  (∀ f : Fields,
     CompletesVia (.ldG f) f (opLoad (.ldG f) f .glob fun s l sp => s.loadPlain (.ldG f) f .glob l sp).awaitFlush
       (RemoteLoad (.ldG f) f .none) ∧
     CompletesVia (.ldGAcq f) f
       (opLoad (.ldGAcq f) f .glob fun s l sp => s.loadAcquire (.ldGAcq f) f .glob (scopeOf f.md.toNat) l sp).awaitFlush
       (RemoteLoad (.ldGAcq f) f (some (scopeOf f.md.toNat))))

/-- R238, R239, R251: stores and reductions complete with one entry on its way for each executing thread; no byte of memory changes.
-/
def Obligations.StoresAndReductionsComplete : Prop :=
  ∀ f : Fields,
    CompletesVia (.stG f) f (opStore (.stG f) f .glob false .none) (StoreAccess (.stG f) f .glob false .none) ∧
    CompletesVia (.stGRel f) f (opStore (.stGRel f) f .glob false (some (scopeOf f.md.toNat)))
      (StoreAccess (.stGRel f) f .glob false (some (scopeOf f.md.toNat))) ∧
    CompletesVia (.stS f) f (opStore (.stS f) f .scratch false .none) (StoreAccess (.stS f) f .scratch false .none) ∧
    CompletesVia (.stSRel f) f (opStore (.stSRel f) f .scratch false (some (scopeOf f.md.toNat)))
      (StoreAccess (.stSRel f) f .scratch false (some (scopeOf f.md.toNat))) ∧
    CompletesVia (.stSFs f) f (opStore (.stSFs f) f .scratch true (some .block))
      (StoreAccess (.stSFs f) f .scratch true (some .block)) ∧
    ∀ rel : Bool,
      CompletesVia (.redAdd rel f) f (opRed (.redAdd rel f) f rel 0) (RedAccess (.redAdd rel f) f rel 0) ∧
      CompletesVia (.redMin rel f) f (opRed (.redMin rel f) f rel 1) (RedAccess (.redMin rel f) f rel 1) ∧
      CompletesVia (.redMax rel f) f (opRed (.redMax rel f) f rel 2) (RedAccess (.redMax rel f) f rel 2) ∧
      CompletesVia (.redAnd rel f) f (opRed (.redAnd rel f) f rel 3) (RedAccess (.redAnd rel f) f rel 3) ∧
      CompletesVia (.redOr rel f) f (opRed (.redOr rel f) f rel 4) (RedAccess (.redOr rel f) f rel 4) ∧
      CompletesVia (.redXor rel f) f (opRed (.redXor rel f) f rel 5) (RedAccess (.redXor rel f) f rel 5) ∧
      CompletesVia (.redFadd rel f) f (opRed (.redFadd rel f) f rel 7) (RedAccess (.redFadd rel f) f rel 7)

/-- R114, R247 to R250: a read-modify-write completes with the old value in D and the new one at its home. -/
def Obligations.AtomicsComplete : Prop :=
  ∀ (f : Fields) (o : Order),
    let new (i : Instr) (op : Nat) (s : State) (l old : Nat) : Option Nat := some (newValue op f.ty old (s.srcB i f l))
    CompletesVia (.atomAdd o f) f (opAtom (.atomAdd o f) f o 0) (RmwAccess (.atomAdd o f) f o (new (.atomAdd o f) 0)) ∧
    CompletesVia (.atomMin o f) f (opAtom (.atomMin o f) f o 1) (RmwAccess (.atomMin o f) f o (new (.atomMin o f) 1)) ∧
    CompletesVia (.atomMax o f) f (opAtom (.atomMax o f) f o 2) (RmwAccess (.atomMax o f) f o (new (.atomMax o f) 2)) ∧
    CompletesVia (.atomAnd o f) f (opAtom (.atomAnd o f) f o 3) (RmwAccess (.atomAnd o f) f o (new (.atomAnd o f) 3)) ∧
    CompletesVia (.atomOr o f) f (opAtom (.atomOr o f) f o 4) (RmwAccess (.atomOr o f) f o (new (.atomOr o f) 4)) ∧
    CompletesVia (.atomXor o f) f (opAtom (.atomXor o f) f o 5) (RmwAccess (.atomXor o f) f o (new (.atomXor o f) 5)) ∧
    CompletesVia (.atomExch o f) f (opAtom (.atomExch o f) f o 6) (RmwAccess (.atomExch o f) f o (new (.atomExch o f) 6)) ∧
    CompletesVia (.atomFadd o f) f (opAtom (.atomFadd o f) f o 7) (RmwAccess (.atomFadd o f) f o (new (.atomFadd o f) 7)) ∧
    CompletesVia (.cas o f) f
      (opRmw (.cas o f) f o (fun s l old => if old = s.srcB (.cas o f) f l then some (s.srcC (.cas o f) f l) else .none)
        fun s l => .cas f.ty (s.srcB (.cas o f) f l) (s.srcC (.cas o f) f l))
      (RmwAccess (.cas o f) f o fun s l old => if old = s.srcB (.cas o f) f l then some (s.srcC (.cas o f) f l) else .none)

/-- R87, R88, R240: a load that waits for full granules completes at once where the granules of all its executing threads are full,
or, once they are, through FULL_LOAD_PERFORM; a consuming load makes them empty. R244 to R246: the prefetch, FECLR and the
fences complete. -/
def Obligations.FencesAndFullGranulesComplete : Prop :=
  (∀ f : Fields,
     (∀ s, CompletesAt s (.ldSFw f) f (opFull (.ldSFw f) f false s.seqCtr) (FullAccess (.ldSFw f) f false)) ∧
     (∀ s, CompletesAt s (.ldSFc f) f (opFull (.ldSFc f) f true s.seqCtr) (FullAccess (.ldSFc f) f true)) ∧
     Wakes .fullLoadPerform (.ldSFw f) (opFull (.ldSFw f) f false) (fun _ => FullAccess (.ldSFw f) f false) ∧
     Wakes .fullLoadPerform (.ldSFc f) (opFull (.ldSFc f) f true) (fun _ => FullAccess (.ldSFc f) f true)) ∧
  (∀ f : Fields,
     CompletesVia (.prf f) f (frameOf (.prf f) f) (PrefetchAccess f) ∧
     CompletesVia (.prf f) f (frameOf (.prf f) f) (PrefetchNothing f) ∧
     CompletesVia (.feclr f) f (endFrame (.feclr f) f) (FeclrAccess f) ∧
     CompletesVia (.fenceAcq f) f (frameOf (.fenceAcq f) f) (FenceAcqAccess f) ∧
     CompletesVia (.fenceRel f) f (frameOf (.fenceRel f) f) (FenceRelAccess f) ∧
     CompletesVia (.fenceAr f) f (endFrame (.fenceAr f) f) (FenceArAccess f))

/-- R90, R259 to R264: barrier instructions complete, thread after thread; a BAR.WAIT whose phase has not moved does so through
BARRIER_WAIT_WAKE. -/
def Obligations.BarriersComplete : Prop :=
  ∀ f : Fields,
    let op (i : Instr) : Op := { endFrame i f with each := true }
    CompletesVia (.barInit f) f (op (.barInit f)) (BarInitAccess f) ∧
    CompletesVia (.barArr f) f (op (.barArr f)) (ArriveAccess (.barArr f) f fun _ => 0) ∧
    CompletesVia (.barExp f) f (op (.barExp f)) (ArriveAccess (.barExp f) f fun v => (bits v 32 32 : Int)) ∧
    CompletesVia (.barWait f) f (op (.barWait f)) (BarWaitAccess f) ∧
    CompletesVia (.barTest f) f (op (.barTest f)) (BarTestAccess f) ∧
    Wakes .barrierWaitWake (.barWait f) (fun _ => op (.barWait f)) (fun _ => BarWaitAccess f)

/-- R93 to R95, R265, R266: mailbox instructions complete, thread after thread; a push that found its mailbox full and a pop that
found it empty do so through their wakes. -/
def Obligations.MailboxesComplete : Prop :=
  ∀ f : Fields,
    let op (i : Instr) : Op := { endFrame i f with inOrder := true }
    CompletesVia (.mbxPush f) f (op (.mbxPush f)) (PushAccess (.mbxPush f) f Eff.none) ∧
    CompletesVia (.mbxPushTry f) f (op (.mbxPushTry f)) (PushAccess (.mbxPushTry f) f (Eff.pred f true flagNone)) ∧
    CompletesVia (.mbxPushTry f) f (op (.mbxPushTry f)) (FullMailbox f) ∧
    (∀ s, CompletesAt s (.mbxPop f) f (op (.mbxPop f)) (PopAccess f s.seqCtr)) ∧
    Wakes .mailboxPushWake (.mbxPush f) (fun _ => op (.mbxPush f)) (fun _ => PushAccess (.mbxPush f) f Eff.none) ∧
    Wakes .mailboxPopWake (.mbxPop f) (fun _ => op (.mbxPop f)) (PopAccess f)

/-- R125, R127, R253: EDNEXT and EDSYNC complete, thread after thread. R124: with no launch of an address space queued or running,
its edition regions and their kept counters go, and where it had one, no L1 keeps a line; all else is as before, but for the
fills of such lines. -/
def Obligations.EditionsComplete : Prop :=
  (∀ f : Fields,
     CompletesVia (.ednext f) f (endFrame (.ednext f) f) (EdnextAccess f) ∧
     CompletesVia (.edsync f) f (endFrame (.edsync f) f) (EdsyncAccess f)) ∧
  (∀ (asid : Nat) (s : State), (∀ x ∈ s.dist.launches, x.2.asid = asid → x.2.status ≠ .none) →
     ∃ t, exec (.editionAutoRelease asid) s = .next t ∧ t.regions = s.regions.filter (fun r => r.asid ≠ asid) ∧
       t.kept = s.kept.filter (fun x => x.1 ≠ asid) ∧
       ((∀ r ∈ s.regions, r.asid ≠ asid) → t.cores = s.cores ∧ t.link = s.link) ∧
       ((∃ r ∈ s.regions, r.asid = asid) → t.cores = s.cores.map fun (c : Nat × CoreState) => (c.1, { c.2 with l1 := [] })) ∧
       t.link.steady = s.link.steady ∧ { t with regions := s.regions, kept := s.kept, cores := s.cores, link := s.link } = s)

/-- R50 to R57, R254: SREAD puts a special register in D, latching CLOCKH with CLOCKL; SWRITE writes FSTAT or DRL of each executing
thread, or, once for the sub-gang, a register that the gang holds. -/
def Obligations.SpecialRegisterInstructionsComplete : Prop :=
  ∀ f : Fields,
    (Completes (.sread f) f (frameOf (.sread f) f) fun o l =>
      { Eff.value (.sread f) f (noFlag (o.srcA (.sread f) f l)) with latch := o.clockLatch f.a }) ∧
    (f.d = .sr .fstat ∨ f.d = .sr .drl → Completes (.swrite f) f (endFrame (.swrite f) f) fun o l =>
      { Eff.none with dst := [(f.d, 1, o.srcA (.swrite f) f l)] }) ∧
    (gangHeld f.d = true → CompletesOnGang (.swrite f) f { endFrame (.swrite f) f with gang := true } (GangWrite f))

/-- R151 to R154, R231, R311, R320: SYSC and SYSC.A complete where the delivery queue has room and the threads' stores can be
performed: a call record and its entry are made, and the callers stand in CALLER at the instruction, or past a SYSC.A. R311,
R312: a held source whose turn it is enters the delivery queue: one of the distributor as the entry it carries, with the next
SEQ; a held trap as `TrapTaken` says. -/
def Obligations.PorterCallsComplete : Prop :=
  (∀ (f : Fields) (s : State) (g : Gang) (async : Bool),
     let i : Instr := if async then .syscA f else .sysc f
     let op := opCall i f async
     op.Ready f s g → s.goLanes f g ≠ [] → CanAccess (CallAccess f async) (s.goLanes f g) (s.opened f op g) →
     ∃ t g', exec i s = .next t ∧ CallMade s t s.focus.key g f async (s.goLanes f g) ∧ t.gang? s.focus.key = some g' ∧
       (∀ l ∈ s.goLanes f g, (g'.thread l).regs =
         if async then ((g.thread l).control .fall).regs else { (g.thread l).regs with tstate := .caller }) ∧
       (∀ l ∈ s.gfLanes f g, (g'.thread l).regs = ((g.thread l).control .fall).regs) ∧
       ∀ l, l ∉ s.focusLanes g → (g'.thread l).regs = (g.thread l).regs) ∧
  ((∀ (cl i : Nat) (s : State) (e : DqEntry), (s.cluster cl).held[i]? = some (.dist e) → s.heldTurn cl i (.dist e) = true →
     ∃ t, exec (.heldSourceEnter cl i) s = .next t ∧
       (t.cluster cl).dq = (s.cluster cl).dq ++ [{ e with seq := (s.cluster cl).nextSeq }] ∧
       (t.cluster cl).nextSeq = (s.cluster cl).nextSeq + 1 ∧ (t.cluster cl).held = (s.cluster cl).held.eraseIdx i ∧
       t.gangs = s.gangs) ∧
   ∀ (i : Nat) (s : State) (k : Nat) (g : Gang) (pc : Pc) (insn : Insn) (c : Cause) (lanes : List Nat),
     let faults := lanes.map fun l => LaneFault.plain l c
     (∀ l, (g.thread l).buf = []) → (∀ e ∈ s.mem.inflight, e.tag ≠ g.tag) → s.remoteStores g.tag .none = false → s.gang? k = some g →
       g.Quiet → lanes.Nodup → lanes ≠ [] →
     (∀ l ∈ lanes, l < g.threads.length ∧ l < g.width ∧ l < 64 ∧ (g.thread l).tstate = .live) →
     (s.cluster (clusterOf k)).held[i]? = some (.trap k pc insn faults) →
     s.heldTurn (clusterOf k) i (.trap k pc insn faults) = true →
     ∃ t, exec (.heldSourceEnter (clusterOf k) i) s = .next t ∧ TrapTaken s t k g pc c faults)

/-- R144, R145, R267 to R270: MON, EVARM, EVDIS and EVCLR complete, once for the sub-gang. -/
def Obligations.EventSlotInstructionsComplete : Prop :=
  ∀ f : Fields,
    let op (i : Instr) : Op := { endFrame i f with gang := true }
    CompletesOnGang (.mon f) f
      { op (.mon f) with walks := fun s l => eaWaits (s.eaAt s.focus.key l .glob (s.srcA (.mon f) f l) f.ty.bytes .read) }
      (MonAccess f) ∧
    CompletesOnGang (.evarm f) f (op (.evarm f)) (EvarmAccess f) ∧
    CompletesOnGang (.evdis f) f (op (.evdis f)) (EvdisAccess f) ∧
    CompletesOnGang (.evclr f) f (op (.evclr f)) (EvclrAccess f)

/-- R148, R149, R271: where every live thread of the gang arrives at a WAITANY whose mask names one armed slot that is pending, the
waiting threads are delivered it, unless the acquire of its barrier token is held (R131). R149, R150: a parked group of a
running gang is delivered the lowest of its named, armed and pending slots, under the same condition. R55, R145: once DEADLINE
has expired, every armed TIMER slot latches; nothing else of the gang changes while no group is parked. -/
def Obligations.GroupsAreDelivered : Prop :=
  (∀ (f : Fields) (s : State) (g : Gang) (m : Nat) (tk : Token) (h : Pc), (endFrame (.waitany f) f).Ready f s g →
     g.parked = .none → g.heldResumes = 0 → g.stalled = 0 → s.goLanes f g ≠ [] →
     (∀ l ∈ s.focusLanes g, (g.thread l).tstate = .live) →
     (∀ l, l < g.width → (g.thread l).tstate = .live → l ∈ s.focusLanes g) → g.width ≤ 64 → m < 16 →
     g.maskOf f ((s.goLanes f g).headD 0) = BitVec.twoPow 16 m → (Tab.getD g.slots m .fresh).armed = some (tk, h) →
     g.epend.getLsbD m = true → g.holdsToken m = false →
     ∃ t, exec (.waitany f) s = .next t ∧ SlotDelivered t s.focus.key m h g (s.goLanes f g)) ∧
  (∀ (s : State) (k n : Nat) (g gu : Gang) (r : Gather) (h : Pc), s.gang? k = some g → g.threads.length = g.width → g.width ≤ 64 →
     g.parked = some r → g.gstate = .running → g.epend &&& g.emask &&& g.armed ≠ 0 → g.heldResumes = 0 → g.gathers = [] →
     g.collects = [] → (s.evaluateSlots k).gang? k = some gu → (gu.epend &&& gu.emask &&& gu.armed).getLsbD n = true →
     (∀ i, i < n → (gu.epend &&& gu.emask &&& gu.armed).getLsbD i = false) → g.handler n = some h → g.holdsToken n = false →
     ∃ t, exec (.waitanyDelivery k) s = .next t ∧ SlotDelivered t k n h g (lanesOf r.waiting g.width)) ∧
  (∀ (s : State) (k : Nat) (g : Gang), s.gang? k = some g → g.deadline ≠ 0 → g.deadline.toNat ≤ s.clock → g.parked = .none →
     ∃ t g', exec (.deadlineExpire k) s = .next t ∧ t.gang? k = some g' ∧ g'.deaf = g.deaf ∧
       (∀ n, n < 16 → (∃ h, (Tab.getD g.slots n .fresh).armed = some (.timer, h)) → g'.epend.getLsbD n = true) ∧
       (∀ n, n < 16 → (¬ ∃ h, (Tab.getD g.slots n .fresh).armed = some (.timer, h)) → g'.epend.getLsbD n = g.epend.getLsbD n) ∧
       ∀ j, j ≠ k → t.gang? j = s.gang? j)

/-- R228: SLEEP completes; its threads stand at the next instruction, asleep for the largest of their n, where one is not zero.
R228: a sleep whose time has passed ends. -/
def Obligations.SleepersWake : Prop :=
  (∀ (f : Fields) (s : State) (g : Gang), (frameOf (.sleep f) f).Ready f s g → (∀ r, f.a ≠ .sr r) →
     let op := frameOf (.sleep f) f
     let n := ((s.goLanes f g).map fun l => (s.opened f op g).srcA (.sleep f) f l).foldl max 0
     ∃ t u, exec (.sleep f) s = .next t ∧ Delivered op f s u g (fun _ => Eff.none) ∧
       if n = 0 then t = u
       else ∃ gu q, u.gang? s.focus.key = some gu ∧ OnlyGang u t s.focus.key { gu with
         waits := gu.waits ++ [⟨laneSet (s.goLanes f g), s.focus.pc, .sleep f, s.focus.insn, q, s.clock, n⟩] }) ∧
  (∀ (s : State) (k : Nat) (g : Gang) (pre post : List Wait) (w : Wait), s.gang? k = some g → g.waits = pre ++ w :: post →
     (∀ x ∈ pre ++ post, x.seq ≠ w.seq) → w.n ≠ 0 → w.since + w.n ≤ s.clock →
     ∃ t, exec (.sleepEnd k w.seq) s = .next t ∧ OnlyGang s t k { g with waits := pre ++ post })

/-- R46, R189, R241: a producer whose access has been performed writes its registers, which are full again, and its predicate, and
its flags join FSTAT; one for s registers does so in its slice, for the threads of its instruction. The slice waits no longer.
R102, R119, R139: a held draft whose producers have all written back commits: its entries leave in program order, their lines
leave the core's L1, and a new draft begins at the thread's PC with tracking and DRC clear. R81, R82, R86, R101, R106, R118,
R374, R377: a committed store is performed once those that have to precede it have been, and, for a release, once other devices
have acknowledged its thread's earlier stores: bytes of a scratchpad half, or of HBM or of host memory; a reduction joins the
queue at its home; one for another device's memory becomes a request; one that no longer reaches its place counts against its
gang. A byte that a higher LANE of the instruction has written stays (R81). R118, R251: the one queued reduction of a line, of a
sound atom, is applied at its home. -/
def Obligations.PendingEffectsArePerformed : Prop :=
  (∀ (s : State) (k l : Nat) (g : Gang) (q : Producer), s.gang? k = some g → l < g.threads.length → q.ready = true →
     let x := g.thread l
     (x.pend.find? (fun y => y.id = q.id && y.ready) = some q →
       ∃ t g', exec (.producerWriteback k l q.id) s = .next t ∧ OnlyGang s t k g' ∧
         { g' with threads := g.threads, slices := g.slices } = g ∧ (∀ j, j ≠ l → g'.thread j = g.thread j) ∧
         (∀ i, g'.slice i = if i = l / 4 then { g.slice i with blocked := false } else g.slice i) ∧
         g'.thread l = { x with
           v := (x.writeVs q.reg q.words q.value).v, bad := (x.writeVs q.reg q.words q.value).bad
           empty := (x.setFull q.reg q.words).empty, pend := x.pend.filter fun y => y.id ≠ q.id
           p := ((q.pred.map fun y => x.writeP y.1 y.2).getD x).p, badP := ((q.pred.map fun y => x.writeP y.1 y.2).getD x).badP
           fstat := x.fstat ||| q.flags }) ∧
     (x.pend.find? (fun y => y.id = q.id && y.ready) = .none → l / 4 < g.slices.length →
       (g.slice (l / 4)).pend.find? (fun y => y.id = q.id && y.ready) = some q →
       ∃ t g', exec (.producerWriteback k l q.id) s = .next t ∧ OnlyGang s t k g' ∧
         { g' with threads := g.threads, slices := g.slices } = g ∧ (∀ i, i ≠ l / 4 → g'.slice i = g.slice i) ∧
         g'.slice (l / 4) = { (g.slice (l / 4)).writeSs q.reg q.words q.value with
           blocked := false, pend := (g.slice (l / 4)).pend.filter fun y => y.id ≠ q.id } ∧
         ∀ j, j < g.threads.length →
           g'.thread j = if q.members.getLsbD j then { g.thread j with fstat := (g.thread j).fstat ||| q.flags } else g.thread j)) ∧
  (∀ (s : State) (k l : Nat) (g : Gang), s.gang? k = some g → l < g.threads.length → (g.thread l).drain = true → g.busy l = false →
     ∃ t g', exec (.draftCommit k l) s = .next t ∧ t.gang? k = some g' ∧ g'.rest = g.rest ∧ g'.slices = g.slices ∧
       (∀ j, j ≠ l → g'.thread j = g.thread j) ∧ (∀ j, j ≠ k → t.gang? j = s.gang? j) ∧
       g'.thread l = { g.thread l with
         dstart := (g.thread l).pc, dloopd := (g.thread l).loopd, dentries := (g.thread l).entries, dxm := 0, dwm := 0, dext := 0, drc := 0, buf := [], drain := false, solo := false } ∧
       { t.mem with topped := s.mem.topped } = { s.mem with inflight := s.mem.inflight ++ (g.thread l).buf } ∧
       (∀ e ∈ (g.thread l).buf, ∀ pa, e.place = .phys pa → Tab.get? (t.core (coreOf k)).l1 (lineOf pa) = .none) ∧
       t.link.steady = s.link.steady ∧ { t with gangs := s.gangs, mem := s.mem, cores := s.cores, link := s.link } = s) ∧
  (∀ (s : State) (e : StoreEntry) (pre post : List StoreEntry), s.mem.inflight = pre ++ e :: post → e ∉ pre → e ∉ post →
     (∀ x ∈ pre, mustPrecede x e = false) → s.remoteStores e.tag (some e.lane) = false →
     let s0 := { s with mem := { s.mem with inflight := pre ++ post } }
     let whole := ∀ j, j < e.size → s.mem.passedOver e j = false
     (e.op = .write → e.size ≠ 0 → (∀ j, j < e.size → s.mem.passedOver e j = true) →
       exec (.storeApplyAtHome pre.length) s = .next s0) ∧
     (∀ blk odd off b, whole → e.place = .scratch blk odd off → s.block? blk = some b →
       ∃ t b', exec (.storeApplyAtHome pre.length) s = .next t ∧ t.block? blk = some b' ∧
         WrittenHalf (b.half odd) (b'.half odd) off e.size e.data e.fill ∧ b'.half (!odd) = b.half (!odd) ∧
         (∀ j, j ≠ blk → t.block? j = s.block? j) ∧ { t with blocks := s.blocks } = s0) ∧
     (∀ pa a, whole → e.place = .phys pa → e.op = .write →
       (s.target pa = .hbm a ∧ ∀ x ∈ s.mem.redq, x.place.line ≠ .phys (lineOf a)) ∨ (∃ h, s.target pa = .host h ∧ a = pa) →
       ∃ t, exec (.storeApplyAtHome pre.length) s = .next t ∧ WrittenHome s0 t a e.size e.data) ∧
     (∀ pa a op ty, e.place = .phys pa → e.op = .red op ty → s.target pa = .hbm a →
       exec (.storeApplyAtHome pre.length) s = .next { s with
         mem := { s.mem with inflight := pre ++ post, redq := s.mem.redq ++ [{ e with place := .phys a }] } }) ∧
     (∀ pa c k g, whole → e.place = .phys pa → s.target pa = .fail c → s.gang? k = some g → g.tag = e.tag → g.gstate ≠ .ended →
       ∃ t g', exec (.storeApplyAtHome pre.length) s = .next t ∧ t.gang? k = some g' ∧ g'.failedStores = g.failedStores + 1) ∧
     ∀ pa dev off, whole → e.place = .phys pa → s.target pa = .remote dev off →
       (s.link.requests.filter fun r => r.dev = dev).length < 4096 →
       s.keySpent dev = false →
       ∃ t r, exec (.storeApplyAtHome pre.length) s = .next t ∧ t.mem = s0.mem ∧ t.link.requests = s.link.requests ++ [r] ∧
         r.dev = dev ∧ r.off = off ∧ r.seq = Tab.getD s.link.nextSeq dev 0 ∧ r.src = .store e.tag e.lane e.epoch ∧ r.sent = s.clock ∧
         (r.op = match e.op with | .write => .write e.size e.data | .red op t => .red op t e.data) ∧
         Tab.getD t.link.nextSeq dev 0 = (Tab.getD s.link.nextSeq dev 0 + 1) % 2 ^ 32 ∧ s.Still t ∧ t.blocks = s.blocks) ∧
  (∀ (s : State) (e : StoreEntry) (pre post : List StoreEntry) (pa op : Nat) (ty : Ty), s.mem.redq = pre ++ e :: post →
     e.place = .phys pa → e.op = .red op ty → (∀ x ∈ pre ++ post, x.place.line ≠ .phys (lineOf pa)) →
     NatSet.has s.mem.poison (atomOf pa) = false → NatSet.has s.mem.latent (atomOf pa) = false → s.injects pa ty.bytes = false →
     ∃ t, exec (.redApply pre.length) s = .next t ∧
       WrittenHome { s with mem := { s.mem with redq := pre ++ post } } t pa ty.bytes
         (newValue op ty (Mem.readN s.mem.bytes pa ty.bytes) e.data))

/-- R22: a slice whose rotation count has reached 64 rotates to the smallest PC of its candidates above the one it selects, if there
is one. R22: a slice leaves rotation after 64 instructions, or with no live thread of the path left; its count is zero. R365: a
swap that fits is made where no entry goes out, or the outgoing one has yielded, or waits past its KEEP window, and the incoming
one is the oldest that is ready; an aged one where the outgoing entry entered first, past its KEEP window, and the incoming one
has waited for 1,024 cycles. -/
def Obligations.SlicesAreScheduled : Prop :=
  (∀ (s : State) (k sl : Nat) (g : Gang) (p q : Pc), s.gang? k = some g → sl < g.slices.length → (g.slice sl).rotCount = 64 →
     (g.slice sl).rot = .none →
     let c := g.chooseFrom (s.skipped k g) sl
     minPc (c.map fun i => (g.thread i).pc) = some p → q ∈ c.map (fun i => (g.thread i).pc) → p < q →
     (∀ i ∈ c, p < (g.thread i).pc → q ≤ (g.thread i).pc) →
     ∃ t, exec (.rotationEnter k sl) s = .next t ∧ OnlyGang s t k (g.setSlice sl { g.slice sl with
       rot := some ⟨laneSet (c.filter fun i => (g.thread i).pc == q), 64⟩ })) ∧
  (∀ (s : State) (k sl : Nat) (g : Gang) (r : Rotation), s.gang? k = some g → sl < g.slices.length → (g.slice sl).rot = some r →
     r.left = 0 ∨ (∀ i ∈ g.liveOf sl, r.path.getLsbD i = false) →
     ∃ t, exec (.rotationLeave k sl) s = .next t ∧ OnlyGang s t k (g.setSlice sl { g.slice sl with rot := .none, rotCount := 0 })) ∧
  (∀ (s : State) (kOut kIn : Nat) (out inn : BitVec 16), s.swapFits kOut out kIn inn = true →
     (out = 0 → ∃ t, exec (.subgangSwap kOut out kIn inn) s = .next t ∧ Swapped s t kOut out kIn inn) ∧
     (∀ a, s.gang? kOut = some a → (∀ i ∈ slicesOf out, (a.slice i).yielded = true) ∨
         (s.waitingSlices kOut out = true ∧ ∀ i ∈ slicesOf out, (a.slice i).keepUntil ≤ s.clock) →
       s.oldestReady kIn inn (s.entryQuads kOut out) = true →
       ∃ t, exec (.subgangSwap kOut out kIn inn) s = .next t ∧ Swapped s t kOut out kIn inn) ∧
     (∀ a q, out ≠ 0 → s.gang? kOut = some a → (∀ i ∈ slicesOf out, (a.slice i).keepUntil ≤ s.clock) →
       let qs := (s.entryQuads kOut out).filter (s.entryQuads kIn inn).contains
       q ∈ qs → (∀ e ∈ s.entriesIn (coreOf kOut) q true, s.enteredAt (kOut, out) ≤ s.enteredAt e) →
       s.enteredAt (kIn, inn) + 1024 ≤ s.clock → s.oldestReady kIn inn qs = true →
       ∃ t, exec (.agedSwap kOut out kIn inn) s = .next t ∧ Swapped s t kOut out kIn inn))

/-- R272 to R276, R280 to R283: the copy instructions complete; a CPY and a CBATCH that had to wait, and a CWAIT, do so through
their wakes. -/
def Obligations.CopyInstructionsComplete : Prop :=
  ∀ f : Fields,
    let op (i : Instr) : Op := { endFrame i f with gang := true }
    CompletesOnGang (.cpy f) f (op (.cpy f)) (CopyAccess f) ∧
    Wakes .cpyAcceptDeferred (.cpy f) (fun _ => op (.cpy f)) CopyStart ∧
    CompletesOnGang (.cbatch f) f (opBatch f) (BatchAccess f) ∧
    Wakes .cbatchDeferredSeal (.cbatch f) (fun _ => opBatch f) (fun _ => BatchAccess f) ∧
    CompletesVia (.cwait f) f (opCwait f) (CwaitAccess f) ∧
    Wakes .cwaitRelease (.cwait f) (fun _ => opCwait f) (fun _ => CwaitAccess f) ∧
    CompletesVia (.cstat f) f (op (.cstat f)) (CstatAccess f)

/-- R277, R341, R343: a chunk of a use that runs or is paused, whose addresses all translate and whose reads are all of this device,
is read and written in one step, and is acknowledged where none of its writes is on its way to another device. R278: a use whose
source bytes have all been read makes its SRC_DONE arrival, once, with the number of them. R278 to R280: a use whose writes have
all been performed signals VISIBLE and leaves the engine: by an arrival with the bytes written, or, in the batch of its part's
gang, with the status that it has met. -/
def Obligations.CopiesMoveAndComplete : Prop :=
  (∀ (s : State) (c u n : Nat) (x : CopyUse),
     Tab.get? (s.core c).uses u = some x → x.state ≠ .gathering → NatSet.has x.acked n = false → NatSet.has x.stopped n = false →
     s.contextGone x.blk = false → (∀ b ∈ x.bufs, b.n ≠ n) → (rMode x.record = 5 → n < x.ackedTo + 64) →
     (∃ elems v, s.MovesChunk c u n x elems v) →
     ∃ t elems v z, s.MovesChunk c u n x elems v ∧ exec (.copyChunk c u n) s = .next t ∧ t.mem = v.mem ∧ t.blocks = v.blocks ∧
       t.link = v.link ∧ t.gangs = v.gangs ∧ Tab.get? (t.core c).uses u = some z ∧
       (∃ d ∈ z.bufs, d.n = n ∧ d.elems = elems ∧ d.written = true) ∧
       z.acked = (if v.chunkOut c u n then x.acked else NatSet.add x.acked n) ∧
       z.poison = (x.poison || elems.any fun e => e.2.2)) ∧
  (∀ (s : State) (c u : Nat) (x : CopyUse) (b : Block) (odd : Bool) (off : Nat),
     Tab.get? (s.core c).uses u = some x → x.state ≠ .gathering → rSrcDone x.record = true → x.srcDone = false →
     (∀ n, n < x.chunks.length → ∃ d ∈ x.bufs, d.n = n ∧ d.pending = [] ∧ d.unread = []) → s.block? x.blk = some b →
     b.state ≠ .destroyed → b.placeOf c (16 * rField x.record 384 16) 16 = some (odd, off) → s.coreDown (b.coreOfHalf odd) = false →
     let a := (s.setUse c u { x with srcDone := true }).arrive x.blk odd off (rField x.record 32 12) 0 (-(x.bytes : Int))
     (∃ ph, a.2.2 = .accepted ph) → exec (.copySrcDone c u) s = .next a.1) ∧
  (∀ (s : State) (c u : Nat) (x : CopyUse), Tab.get? (s.core c).uses u = some x → x.state = .running →
     x.acked.length = x.chunks.length → (rSrcDone x.record = true → x.srcDone = true) →
     (∀ b odd off, rOnBarrier x.record = true → s.block? x.blk = some b → b.state ≠ .destroyed →
       b.placeOf c (16 * rField x.record 400 16) 16 = some (odd, off) → s.coreDown (b.coreOfHalf odd) = false →
       let a := s.arrive x.blk odd off (rField x.record 44 12) 0 (-(x.bytes : Int))
       (∃ ph, a.2.2 = .accepted ph) →
       ∃ t, exec (.copyVisible c u) s = .next t ∧ t.blocks = a.1.blocks ∧ t.gangs = a.1.gangs ∧ Tab.get? (t.core c).uses u = .none) ∧
     ∀ p g, rOnBarrier x.record = false → x.parts = [p] → s.gang? p.key = some g → g.blk = x.blk → g.gidx = p.gang →
       g.gstate ≠ .free → g.restoring = false →
       ∃ t, exec (.copyVisible c u) s = .next t ∧ Tab.get? (t.core c).uses u = .none ∧
         t.gang? p.key = some (g.endRecs p.level x.stamp (if x.lost then 3 else if x.poison then 1 else 0)).settleLevels ∧
         (∀ j, j ≠ p.key → t.gang? j = s.gang? j) ∧ t.mem = s.mem ∧ t.blocks = s.blocks)

/-- R285, R286: MBIND claims the core's tiles for its block and the gang waits for its set. R286: four waiting gangs of one block,
one in each quadrant, form the set: each is bound as the member of its quadrant, and its threads complete MBIND. -/
def Obligations.MatrixSetsForm : Prop :=
  (∀ (f : Fields) (s : State) (g : Gang),
     let op : Op := { endFrame (.mbind f) f with gang := true }
     let c := coreOf s.focus.key
     let set := (s.opened f op g).srcA (.mbind f) f ((s.goLanes f g).headD 0)
     op.Ready f s g → s.goLanes f g ≠ [] → set ≤ 3 → g.binding = .none → s.wishAt c g.quad set g.blk s.focus.key = false →
     Tab.get? (s.core c).sets set = .none → (s.core c).owner = .none ∨ (s.core c).owner = some g.blk →
     ∃ t g', exec (.mbind f) s = .next t ∧ (t.core c).owner = some g.blk ∧ t.gang? s.focus.key = some g' ∧ g'.wish = some set ∧
       (∃ w ∈ g'.waits, w.instr = .mbind f ∧ w.lanes = laneSet (s.goLanes f g) ∧ w.pc = s.focus.pc) ∧
       (∀ l ∈ s.goLanes f g, (g'.thread l).regs = (g.thread l).regs) ∧
       ∀ l ∈ s.gfLanes f g, (g'.thread l).regs = ((g.thread l).control .fall).regs) ∧
  (∀ (s : State) (c set blk : Nat) (k : Nat → Nat) (g : Nat → Gang) (w : Nat → Wait) (f : Nat → Fields),
     s.formingBlock c set = blk →
     (∀ q, q < 4 → s.wisher c set blk q = some (k q, g q) ∧ s.gang? (k q) = some (g q) ∧ (g q).blk = blk ∧ (g q).waits = [w q] ∧
       (w q).instr = .mbind (f q) ∧ (g q).Quiet ∧ (g q).threads.length = (g q).width ∧
       ∀ l, l < (g q).width → l / 4 < (g q).slices.length) →
     ∃ t, exec (.matrixSetForm c set) s = .next t ∧ Tab.get? (t.core c).sets set = some [k 0, k 1, k 2, k 3] ∧
       (t.core c).owner = some blk ∧
       ∀ q, q < 4 → ∃ g', t.gang? (k q) = some g' ∧ g'.binding = some (set, q) ∧ g'.wish = .none ∧ g'.waits = [] ∧
         (∀ l ∈ (g q).woken (w q), (g'.thread l).regs = (((g q).thread l).control .fall).regs) ∧
         ∀ l, l ∉ (g q).woken (w q) → (g'.thread l).regs = ((g q).thread l).regs)

/-- R286, R292: MBIND.U and MRGD complete. -/
def Obligations.MatrixGangInstructionsComplete : Prop :=
  ∀ f : Fields,
    CompletesOnGang (.mbindU f) f { endFrame (.mbindU f) f with gang := true } (UnbindAccess f) ∧
    CompletesOnGang (.mrgd f) f { endFrame (.mrgd f) f with gang := true } (RangeAccess f)

/-- R257, R287, R288: where every live thread of a bound gang arrives at a collective matrix instruction, it issues as the gang's
next, with A, C, B's quarter and the guard as they stand; its threads wait there. R97, R98, R287 to R291: a collective whose
four members have issued it, agree and take part starts, and its members complete it: MZERO clears its tile, MLDA fills it with
the widened image, MSTA stores its elements under the members' guards, and MMA reads its operands and goes to the core's
accumulation. R73, R74, R289, R407: the earliest MMA of a core accumulates into its sound tile; a poisoned tile stays poisoned;
a residue that has not matched poisons the tile and makes an entry in the error log. -/
def Obligations.CollectivesComplete : Prop :=
  (∀ (f : Fields) (i : Instr), i = .mma f ∨ i = .mzero f ∨ i = .mlda f ∨ i = .msta f →
     ∀ (s : State) (g : Gang), (opCollective i f).Ready f s g → g.binding.isSome = true → g.stalled = 0 → g.width ≤ 64 →
       s.goLanes f g ≠ [] → (∀ l ∈ s.focusLanes g, (g.thread l).tstate = .live) →
       (∀ l, l < g.width → (g.thread l).tstate = .live → l ∈ s.focusLanes g) →
       ∃ t g', exec i s = .next t ∧ t.gang? s.focus.key = some g' ∧
         g'.issued = g.issued ++
           [g.issueOf ⟨s.focus.pc, i, s.focus.insn, laneSet (s.goLanes f g), laneSet (s.gfLanes f g)⟩ f] ∧
         (∀ l ∈ s.goLanes f g, (g'.thread l).regs = (g.thread l).regs) ∧
         ∀ l ∈ s.gfLanes f g, (g'.thread l).regs = ((g.thread l).control .fall).regs) ∧
  (∀ (s s1 : State) (c set blk : Nat) (ks : List Nat) (x : Issued) (xs : List Issued) (f : Fields),
     SetReady s c set blk ks (x :: xs) → x.waiting ≠ 0 →
     (s.drain fun e => (e.core == c) && (match e.place with | .scratch b _ _ => b == blk | _ => false)) = some s1 →
     let tile := tileNamed x.instr
     let old := (s.core c).tile tile
     let done (t : State) : Prop := List.Forall₂ (Finished s t) ks (x :: xs)
     let row := .matrixCollectiveStart c set
     let sz := imageElem f.ty
     (x.instr = .mzero f → old.busy = 0 → ∃ t, exec row s = .next t ∧ (t.core c).tile tile = .fresh ∧ done t) ∧
     (x.instr = .mlda f → old.busy = 0 → ∀ odd off s2 img, s1.imageAt c blk x.a (4096 * sz) 128 = .ok (odd, off) →
       s1.readImage blk (halfGranules odd off (4096 * sz)) = (s2, img, 0) →
       ∃ t, exec row s = .next t ∧ ((t.core c).tile tile).poison = false ∧ ((t.core c).tile tile).busy = 0 ∧ done t ∧
         ∀ m n, m < 64 → n < 64 → ((t.core c).tile tile).elem m n =
           let v := bits img (8 * sz * (64 * m + n)) (8 * sz)
           (if f.ty = .f32 then v else (roundFP fp32 (decodeFP (fmtOf f.ty) v false) 0 false).1) % 2 ^ 32) ∧
     (x.instr = .msta f → old.busy = 0 → old.poison = false →
       (∀ q, q < 4 → ∃ y, (x :: xs)[q]? = some y ∧ y.guard.act ≠ 2 ∧ ∃ d, y.instr = .msta d) →
       ∀ odd off b, s1.imageAt c blk x.a (4096 * sz) 128 = .ok (odd, off) → s1.block? blk = some b →
       ∃ t b', exec row s = .next t ∧ t.block? blk = some b' ∧ (t.core c).tile tile = old ∧ done t ∧
         WrittenHalf (b.half odd) (b'.half odd) off (4096 * sz)
           (packElems (8 * sz) ((List.range 4096).map fun i =>
             let y := (x :: xs).getD (i / 1024) x
             storeElem (match y.instr with | .msta d => d | _ => f) (y.guard.clamp (old.elem (i / 64) (i % 64)))))
           (b.coreOfHalf odd != c)) ∧
     (x.instr = .mma f → ∀ odd off s2 img,
       let ta := f.md.toNat
       let accepted (p : PendingMma) : Prop :=
         ∃ t, exec row s = .next t ∧ (t.core c).mmas = (s.core c).mmas ++ [p] ∧ p.tile = tile ∧ p.ta = ta ∧ p.tb = f.ty.code ∧
           p.bad = false ∧ p.residue = .none ∧ p.b = (x :: xs).map Issued.quarter ∧
             (t.core c).tile tile = { old with busy := old.busy + 1 } ∧ done t ∧
           ∀ m k, m < 64 → k < kRows ta → (p.a.getD m []).getD k 0 = bits img (8 * (m * aRowBytes ta) + aBits ta * k) (aBits ta)
       s1.imageAt c blk x.a (64 * aRowBytes ta) 128 = .ok (odd, off) →
         s1.readImage blk (halfGranules odd off (64 * aRowBytes ta)) = (s2, img, 0) →
       (5 < ta → ∃ p, accepted p) ∧
       ∀ sa sb s3 s4 ia ib, ta ≤ 5 → s1.scaleAt c blk (16 * (x.c % 2 ^ 16)) = .ok sa →
         s1.scaleAt c blk (16 * (x.c / 2 ^ 16 % 2 ^ 16)) = .ok sb → s2.readImage blk sa = (s3, ia, 0) →
         s3.readImage blk sb = (s4, ib, 0) →
         ∃ p, accepted p ∧ ∀ j, j < 128 → p.scaleA.getD j 0 = elem 8 ia j ∧ p.scaleB.getD j 0 = elem 8 ib j)) ∧
  (∀ (s : State) (c : Nat) (p : PendingMma) (rest : List PendingMma), (s.core c).mmas = p :: rest →
     let old := (s.core c).tile p.tile
     ∃ t, exec (.mmaComplete c) s = .next t ∧ (t.core c).mmas = rest ∧ ((t.core c).tile p.tile).busy = old.busy - 1 ∧
       ((t.core c).tile p.tile).poison = (old.poison || p.bad || p.residue.isSome) ∧ (∀ i, i ≠ p.tile →
         (t.core c).tile i = (s.core c).tile i) ∧
       (old.poison = false → p.bad = false → p.residue = .none →
         ∀ m n, m < 64 → n < 64 → ((t.core c).tile p.tile).elem m n = mmaElem p (old.elem m n) m n % 2 ^ 32) ∧
       (p.residue = .none → t.gangs = s.gangs ∧ t.mem = s.mem ∧ t.blocks = s.blocks) ∧
       ∀ q, p.residue = some q →
         Logged s t .residue 2 (c + 256 * q) 0 1 ((((s.core c).owner).map fun b => (s.spaceOf b).1).getD 0))

/-- R124, R345 to R348: a record written to a launch window takes the next launch identifier and joins its queue, where it is
validated once those before it have been: one with nothing wrong goes on, a malformed one ends with BAD_RECORD, one whose
descriptor another device holds waits. One for a full queue is dropped and counted, and so is one that comes before launches are
taken. R38, R43, R350 to R353: the block of the launch first in turn, which nothing goes before, is admitted where it fits: it
is resident with empty scratchpads, its launch goes on to the next block, and a single gang starts with every thread fresh at
the entry. R354: the first launch that has waited too long sets a guard on the candidate core, or on the pair of cores. -/
def Obligations.LaunchesAreAdmitted : Prop :=
  (∀ (s : State) (c : Commit) (cs : List Commit) (q : Nat), s.commits = c :: cs → lwinQueue c.reg = some q →
     let n := s.dist.nextId
     let waiting := Tab.getD s.dist.queues q []
     let l0 : Launch := {
       queue := q, record := BitVec.ofNat 512 c.value, desc := 0, params := [], checked := false, nextBlock := 0, retired := 0
       status := .none, lost := false, remote := false, stuck := .none }
     let u := State.autoRelease { s with commits := cs } l0.asid
     let s1 := { u with dist := { u.dist with
       nextId := n + 1, launches := Tab.set u.dist.launches n.toNat l0, queues := Tab.set u.dist.queues q (waiting ++ [n.toNat]) } }
     (s.host.ready.getLsbD 4 = true → waiting.length < Config.queueDepth →
       (∀ x ∈ s.dist.launches, x.2.checked = true ∨ x.2.status ≠ .none) →
       (∀ s2 l, s1.validate l0 = (s2, l, .good) →
         ∃ t, exec .launchPost s = .next t ∧ t.commits = cs ∧ t.launch? n.toNat = some { l with checked := true } ∧
           t.dist.nextId = n + 1 ∧ Tab.getD t.dist.queues q [] = waiting ++ [n.toNat] ∧ t.gangs = s2.gangs ∧ t.blocks = s2.blocks) ∧
       (∀ s2 l, s1.validate l0 = (s2, l, .later) → exec .launchPost s = .next s2) ∧
       (l0.recordOk = false →
         ∃ t l, exec .launchPost s = .next t ∧ t.launch? n.toNat = some l ∧ l.status = some LaunchStatus.badRecord.code)) ∧
     (s.host.ready.getLsbD 4 = false ∨ Config.queueDepth ≤ waiting.length →
       exec .launchPost s = .next { s with commits := cs, dist := { s.dist with
         dropped := Tab.set s.dist.dropped q (min 0xFFFF (Tab.getD s.dist.dropped q 0 + 1)) } })) ∧
  (∀ (s : State) (lid core : Nat) (l : Launch) (rest : List (Nat × Launch)) (p : List (Nat × Nat × List Nat)),
     let u := s.noteStuck
     u.heads = (lid, l) :: rest → l.progress ≠ 0 → u.heldBack lid l = false → u.restoreFirst l.prio = false →
     u.placeFor lid l l.nextBlock = some (core, p) →
     ∃ t b, exec .distributorAdmit s = .next t ∧ t.block? (blockKey lid l.nextBlock) = some b ∧ b.state = .resident ∧ b.core = core ∧
       b.lid = lid ∧ b.bidx = l.nextBlock ∧ b.even = .fresh ∧ b.odd = .fresh ∧ b.edview = [] ∧ b.ngang = l.gangCount ∧
       (t.launch? lid).map Launch.nextBlock = some (l.nextBlock + 1) ∧
       ∀ c x, p = [(c, x)] → ∃ g, t.gang? (s.freeSlotOf c) = some g ∧ g.blk = blockKey lid l.nextBlock ∧ g.gidx = 0 ∧
         g.gstate = .running ∧ g.quad = x.1 ∧ g.phys = x.2 ∧ g.threads = List.replicate l.gwidth (Thread.fresh l.entry)) ∧
  (∀ (s : State) (lid c : Nat) (l : Launch),
     let u := s.noteStuck
     u.heads.find? u.starved = some (lid, l) → u.candidate l = some c →
     exec .fragmentationGuard s = .next { u with dist := { u.dist with
       guards := u.dist.guards ++ if l.pair then [(lid, l.nextBlock, c), (lid, l.nextBlock, c + 1)] else [(lid, l.nextBlock, c)] } })

/-- R356: an answer removes its request; one to PREEMPT gives the saved gang its area, and the block of a whole eviction its BAREA;
an answer with another tag does nothing. R353, R356: a saved gang that can be placed gets the lowest free slot of its core, and
its PLACE entry enters the queue. -/
def Obligations.RequestsAreAnswered : Prop :=
  (∀ (s : State) (c : Commit) (cs : List Commit), s.commits = c :: cs → c.reg = regSpace + 0x80 →
     let s0 := { s with commits := cs }
     ((∀ r ∈ s.dist.requests, r.tag ≠ c.dword 0) → exec .distack s = .next s0) ∧
     ∀ r, s.dist.requests.find? (fun x => x.tag = c.dword 0) = some r →
       ∃ t, exec .distack s = .next t ∧ t.dist.requests = s.dist.requests.filter (fun x => x.tag ≠ r.tag) ∧
         t.gangs = s.gangs ∧ t.mem = s.mem ∧
         (r.place = true → t.dist.saved = s.dist.saved ∧ t.blocks = s.blocks) ∧
         (r.place = false →
           (∀ x ∈ s.dist.saved, x.gang.blk = r.blk → x.gang.gidx = r.gidx →
             { x with area := bits (c.dword 1) 0 56, answered := true } ∈ t.dist.saved) ∧
           ∀ b, s.block? r.blk = some b →
             t.block? r.blk = some (if r.whole then { b with barea := bits (c.dword 2) 0 56 } else b))) ∧
  (∀ (s : State) (i core : Nat) (x : SavedGang) (p : Nat × List Nat), s.dist.saved[i]? = some x → s.placeable x = some (core, p) →
     s.dqRoom (core / 4) = true → (s.cluster (core / 4)).held = [] →
     let k := s.freeSlotOf core
     s.gang? k = .none →
     ∃ t g r, exec (.gangPlace i) s = .next t ∧ t.gang? k = some g ∧ g.gstate = .placed ∧ g.blk = x.gang.blk ∧
       g.gidx = x.gang.gidx ∧ g.width = x.gang.width ∧ g.quad = p.1 ∧ g.phys = p.2 ∧ (∀ j, j ≠ k → t.gang? j = s.gang? j) ∧
       t.dist.requests = s.dist.requests ++ [r] ∧ r.place = true ∧ r.blk = x.gang.blk ∧ r.gidx = x.gang.gidx ∧
       ∃ e ∈ (t.cluster (core / 4)).dq, e.kind = .place ∧ e.handle = s.handle k ∧ e.arg0 = BitVec.ofNat 64 x.area ∧
         e.arg1 = BitVec.ofNat 64 r.tag)

/-- R32, R349: a block whose gangs have all ended, whose uses are over and whose stores are performed retires: its gangs' slots are
free, and its launch has one retired block more, and has ended with its last. R357: 50 µs after an eviction began, no use of the
block is left. R357, R358: a block under eviction with nothing left to wait for is saved: its tiles with it, its slots and its
claims free. R357, R361: a saved block returns to a core with room, loaded from its image in memory, with its tiles; then its
journal is replayed. -/
def Obligations.BlocksEndAndMove : Prop :=
  (∀ (s s1 : State) (b : Nat) (x : Block), s.block? b = some x → x.state = .resident ∨ x.state = .evicting →
     x.ngang ≤ x.endedGangs.length → s.usesOf b = false → s.drainBlock x.lid x.bidx = some s1 →
     ∃ t y, exec (.blockRetire b) s = .next t ∧ t.block? b = some y ∧ y.state = .retired ∧ y.gangs = [] ∧
       (∀ k g, s.gang? k = some g → g.blk = b → t.gang? k = .none) ∧
       ∀ l, s1.launch? x.lid = some l → ∃ l', t.launch? x.lid = some l' ∧ l'.retired = l.retired + 1 ∧
         l'.status = if l.retired + 1 = l.total then
           some (if l.lost then LaunchStatus.lost else if l.remote then .remote else .complete).code else l.status) ∧
  (∀ (s : State) (b : Nat) (x : Block), s.block? b = some x → x.state = .evicting → x.since + 50 * Config.cyclesPerUs ≤ s.clock →
     ∃ t, exec (.evictionUseDeadline b) s = .next t ∧
       ∀ c u y, Tab.get? (t.core c).uses u = some y → y.blk ≠ b) ∧
  (∀ (s s1 : State) (b : Nat) (x : Block), s.block? b = some x → x.state = .evicting →
     (∀ kg ∈ s.gangsOf b, kg.2.gstate = .ended) → (∀ r ∈ s.dist.requests, r.blk ≠ b) → s.usesOf b = false →
     (∀ c, c = x.core ∨ x.pair = true ∧ c = x.core + 1 → (s.core c).owner = some b → ∀ t ∈ (s.core c).tiles, t.2.busy = 0) →
     s.drainBlock x.lid x.bidx = some s1 →
     ∃ t y, exec (.blockImageSave b) s = .next t ∧ t.block? b = some y ∧ y.state = .saved ∧ y.gangs = [] ∧ y.edview = x.edview ∧
       (∀ k g, s.gang? k = some g → g.blk = b → t.gang? k = .none) ∧
       y.claims.getLsbD 0 = decide ((s.core x.core).owner = some b) ∧
       (∀ i, i < 16 → (s.core x.core).owner = some b → Tab.get? y.tiles i = Tab.get? (s.core x.core).tiles i) ∧
       ∀ c, c = x.core ∨ c = x.core + 1 → (t.core c).owner ≠ some b) ∧
  (∀ (s : State) (b c : Nat) (x : Block), s.block? b = some x → x.state = .saved → s.restoreCore x = some c →
     ∃ (t u : State), exec (.blockRestore b) s = .next t ∧ t = u.replayJournal b ∧
       u.block? b = some { s.loadBlock x with state := .resident, core := c, tiles := [], claims := 0, moved := false } ∧
         u.gangs = s.gangs ∧ u.mem = s.mem ∧
       (x.claims.getLsbD 0 = true → (u.core c).owner = some b ∧
         (u.core c).tiles = (x.tiles.filter fun t => t.1 / 16 == 0).map fun t => (t.1 % 16, t.2)) ∧
       (x.claims.getLsbD 1 = true → (u.core (c + 1)).owner = some b ∧
         (u.core (c + 1)).tiles = (x.tiles.filter fun t => t.1 / 16 == 1).map fun t => (t.1 % 16, t.2)))

/-- R359, R362, R363: JPUSH tells its writer 1 where a resident block's mailbox takes the entry, 0 where a saved block's journal
does, and 3 where there is no such block; the router holds a push for a core that powers up. R362, R363: a push that the router
has held for 4 µs for a core that is not up goes to the journal of its block, and its writer reads that in JSTAT. R131, R366: a
flush is acknowledged once no store of its tag from an epoch before its own is outstanding at the core; a gang of the tag waits
for it no longer, and its core holds no L1 line. R351, R362, R399: an empty core is gated; a core that has risen is up, its
caches empty, its tiles too where no block has claimed them. -/
def Obligations.JournalsAndPower : Prop :=
  (∀ (s : State) (c : Commit) (cs : List Commit), s.commits = c :: cs → c.reg = regSpace + 0x100 →
     let s0 := { s with commits := cs }
     let b := blockKey (bits (c.dword 0) 0 32) (bits (c.dword 0) 32 32)
     let n := bits (c.dword 1) 0 4
     let e : W128 := BitVec.ofNat 128 (c.dword 2 + 2 ^ 64 * c.dword 3)
     let told (t : State) (r : Nat) : Prop := exec .jpush s = .next t ∧ t.commits = cs ∧ Tab.getD t.dist.jstat (writerKey c.writer) 0 = r
     (s.block? b = .none → ∃ t, told t 3 ∧ t.blocks = s.blocks) ∧
     ∀ x l, s.block? b = some x → s.launch? x.lid = some l → l.status = .none → n < x.mailboxes →
       (x.state = .resident → s.coreDown x.core = false → (∃ v, (s0.push b n e.toNat true).2 = .done v) →
         ∃ t, told t 1 ∧ t.blocks = (s0.push b n e.toNat true).1.blocks ∧ t.gangs = (s0.push b n e.toNat true).1.gangs) ∧
       (x.state = .resident → s.routerWaits x.core = true → ∃ t, exec .jpush s = .next t ∧ t.blocks = s.blocks ∧
         t.routerHold = s.routerHold ++ [⟨x.core, b, n, e, writerKey c.writer⟩]) ∧
       (x.state = .saved → mbxOcc (Mem.readN x.even.mem (mbxOff n) 16) + journalled x.journal n < 16 → x.journal.length < 4096 →
         ∃ t, told t 0 ∧ t.block? b = some { x with journal := x.journal ++ [.push n e] })) ∧
  (∀ (s : State) (c : Nat) (h : HeldPush) (x : Block) (l : Launch), s.coreDown c = true → s.routerWaits c = false →
     s.routerHold.filter (fun y => y.core = c) = [h] → s.block? h.blk = some x → x.core = c → x.state = .resident →
     s.launch? x.lid = some l → l.status = .none → h.mbx < x.mailboxes →
     mbxOcc (Mem.readN x.even.mem (mbxOff h.mbx) 16) + journalled x.journal h.mbx < 16 → x.journal.length < 4096 →
     ∃ t, exec (.routerHoldExpire c) s = .next t ∧ t.block? h.blk = some { x with journal := x.journal ++ [.push h.mbx h.entry] } ∧
       t.routerHold = s.routerHold.filter (fun y => y.core ≠ c) ∧ Tab.getD t.dist.jstat h.writer 1 = 0 ∧ t.gangs = s.gangs) ∧
  (∀ (s : State) (c i epoch : Nat) (tag : Nat × Nat × Nat), (s.core c).flushes[i]? = some (tag, epoch) →
     (∀ e ∈ s.mem.inflight, e.core = c → e.tag = tag → epoch ≤ e.epoch) →
     (∀ r ∈ s.link.requests, ∀ l e, r.src = .store tag l e → epoch ≤ e) →
     ∃ t, exec (.flushAck c i) s = .next t ∧ (t.core c).flushes = (s.core c).flushes.eraseIdx i ∧
       ∀ k g, s.gang? k = some g →
         t.gang? k = some (if g.tag = tag then { g with flushFrom := g.flushFrom.erase (c, epoch) } else g) ∧
         (g.tag = tag → (t.core (coreOf k)).l1 = [])) ∧
  (∀ (s : State) (c : Nat),
     ((s.core c).power = .up → s.coreEmpty c = true → ∃ t, exec (.corePowerGate c) s = .next t ∧
       t.core c = { s.core c with power := .gated, powerSince := s.clock } ∧ (∀ j, j ≠ c → t.core j = s.core j) ∧
       { t with cores := s.cores } = s) ∧
     ((s.core c).power = .rising → (∀ b ∈ s.blocks, b.2.holds c = false ∨ b.2.journal = []) → (∀ h ∈ s.routerHold, h.core ≠ c) →
       ∃ t, exec (.corePowerUpComplete c) s = .next t ∧
         t.core c = { s.core c with
           power := .up, l1 := [], icache := [], tlb := [], tiles := if (s.core c).owner = .none then [] else (s.core c).tiles } ∧
         (∀ j, j ≠ c → t.core j = s.core j) ∧ t.routerHold = s.routerHold ∧ t.gangs = s.gangs ∧ t.mem = s.mem))

/-- R309, R315, R344: a custom instruction of a porter in U-mode is illegal. R314 to R316: PGREAD gives the selected state where its
condition holds; a stale handle, a selector that names nothing and a condition that fails give zero with their status. R314 to
R317: PGWRITE writes the selected state where its condition holds, or runs the gang command that the selector names. R316: what
has been written to a general register, a predicate or the PC of a parked thread through the port is what its instructions find:
a written register is full, v255 and p7 stay as they read. -/
def Obligations.StatePortIsPrivileged : Prop :=
  (∀ (s : State) (cl : Nat) (d a b c : BitVec 5) (i : Instr), (s.porter cl).mode = .user →
     i ∈ [.pgread cl d a b, .pgwrite cl d a b c, .presume cl d a b, .pmsendChannel cl d a b, .pmsendMailbox cl d a b, .pmrecv cl d a b,
       .pcallrec cl d a b] →
     ∃ t, exec i s = .next t ∧ PorterTaken s t cl 2 0 false ((s.porter cl).exceptsToMachine .illegal)) ∧
  (∀ (s : State) (cl : Nat) (d a b : BitVec 5), s.mayRun cl = true →
     let h : BitVec 16 := ((s.porter cl).rd a).setWidth 16
     let sel := selector ((s.porter cl).rd b).toNat
     let row := .pgread cl d a b
     (s.named cl h = .none → ∃ t, exec row s = .next t ∧ PorterDone s t cl d 0 .stale) ∧
     ∀ k g, s.named cl h = some (k, g) →
       (sel = .none → ∃ t, exec row s = .next t ∧ PorterDone s t cl d 0 .badsel) ∧
       ∀ idx l cls, sel = some (idx, l, cls) →
         (g.portRead cls l idx (Config.slotResidue s.freeCtr) = .none → ∃ t, exec row s = .next t ∧ PorterDone s t cl d 0 .badsel) ∧
         ∀ c v, g.portRead cls l idx (Config.slotResidue s.freeCtr) = some (c, v) →
           ∃ t, exec row s = .next t ∧
             if c.met g l then PorterDone { s with freeCtr := s.freeCtr + 1 } t cl d v .ok else PorterDone s t cl d 0 .busy) ∧
  (∀ (s : State) (cl : Nat) (d a b c : BitVec 5) (idx l cls : Nat), s.mayRun cl = true →
     let h : BitVec 16 := ((s.porter cl).rd a).setWidth 16
     let x := ((s.porter cl).rd c).toNat
     selector ((s.porter cl).rd b).toNat = some (idx, l, cls) →
     (cls = 5 → ∃ t, exec (.pgwrite cl d a b c) s = .next t ∧
       PorterDone (s.gangCommand cl idx h x).1 t cl d (s.gangCommand cl idx h x).2.code (s.gangCommand cl idx h x).2) ∧
     (cls ≠ 5 → ∀ k g cond g', s.named cl h = some (k, g) → g.portWrite cls l idx x = some (cond, g') → cond.met g l = true →
       ∃ t, exec (.pgwrite cl d a b c) s = .next t ∧ PorterDone (s.setGang k g') t cl d 0 .ok)) ∧
  (∀ (g : Gang) (l idx x : Nat), l < g.threads.length →
     (∀ c g', g.portWrite 0 l idx x = some (c, g') → ∀ j, j < 255 →
       (g'.thread l).readV j = (if j = idx then BitVec.ofNat 32 x else (g.thread l).readV j) ∧
       ((g'.thread l).emptyAt idx 1 = false)) ∧
     (∀ c g', g.portWrite 2 l 0 x = some (c, g') → ∀ j, j < 7 → (g'.thread l).readP j = x.testBit j) ∧
     (∀ c g', g.portWrite 3 l 0 x = some (c, g') → (g'.thread l).pc = BitVec.ofNat 56 (x / 4 * 4)) ∧
     ∀ c g', g.portWrite 1 l idx x = some (c, g') → l / 4 < g.slices.length → idx < 63 →
       (g'.slice (l / 4)).readS idx = BitVec.ofNat 32 x)

/-- R46, R49, R143, R150, R317: STOP makes a running gang STOPPING: its live threads leave every wait, and the drafts of those whose
last instruction is not out are discarded. R317: a stopping gang with no write-back outstanding halts: its live threads are
STOPPED. R314, R317, R353: RELEASE frees the slot of a gang that has ended, is halted or is only placed, with the next
generation; the distributor keeps a halted one as its latest SAVE wrote it. R43, R317: CLEAR of a halted or ended gang puts its
registers and its other state at their values at admission. R32, R317: KILL ends every thread of a gang that is not only placed.
R317: CLEARFREE clears what no gang and no block of the core holds. -/
def Obligations.GangCommandsComplete : Prop :=
  (∀ (s : State) (cl k : Nat) (h : BitVec 16) (g : Gang), s.named cl h = some (k, g) → g.gstate = .running →
     g.threads.length = g.width → g.width ≤ 64 →
     ∃ t g', exec (.gangStop cl h) s = .next t ∧ (t.porter cl).pstat = 0 ∧ t.gang? k = some g' ∧ g'.gstate = .stopping ∧
       g'.wish = .none ∧ (∀ w ∈ g'.waits, w.lanes &&& g.live = 0) ∧ (∀ r ∈ g'.gathers ++ g'.collects, r.waiting &&& g.live = 0) ∧
       (∀ l, l < g.width → (g.thread l).tstate = .live → (g.thread l).pend = [] → (g.thread l).solo = false →
         (∀ x ∈ g.slices, x.pend = []) →
         (g'.thread l).pc = (g.thread l).dstart ∧ (g'.thread l).buf = [] ∧ (g'.thread l).v = (g.thread l).v ∧
           (g'.thread l).drc = (g.thread l).drc ∧ (g'.thread l).tstate = .live) ∧
       ∀ j, j ≠ k → t.gang? j = s.gang? j) ∧
  (∀ (s : State) (k : Nat) (g : Gang), s.gang? k = some g → g.canHalt = true → g.threads.length = g.width → g.width ≤ 64 →
     ∃ t g', exec (.gangHalt k) s = .next t ∧ t.gang? k = some g' ∧ g'.gstate = .halted ∧
       ∀ l, l < g.width → (g'.thread l).tstate = if (g.thread l).tstate = .live then .stopped else (g.thread l).tstate) ∧
  (∀ (s : State) (cl k : Nat) (h : BitVec 16) (g : Gang), s.named cl h = some (k, g) →
     g.gstate = .ended ∨ g.gstate = .halted ∨ g.gstate = .placed →
     ∃ t, exec (.gangRelease cl h) s = .next t ∧ (t.porter cl).pstat = 0 ∧ t.gang? k = .none ∧ t.gen k = s.gen k + 1 ∧
       (∀ j, j ≠ k → t.gang? j = s.gang? j) ∧
       (g.gstate = .halted → ∃ x ∈ t.dist.saved, x.gang = { (Tab.get? s.snaps k).getD g with recordOut := false, restoring := true } ∧ x.core = coreOf k)) ∧
  (∀ (s : State) (cl k : Nat) (h : BitVec 16) (g : Gang), s.named cl h = some (k, g) → g.gstate = .halted ∨ g.gstate = .ended →
     ∃ t g', exec (.gangClear cl h) s = .next t ∧ (t.porter cl).pstat = 0 ∧ t.gang? k = some g' ∧ g'.gstate = g.gstate ∧
       g'.epend = 0 ∧ g'.emask = 0 ∧ g'.evslot = 0x1F ∧ g'.deadline = 0 ∧ g'.slots = [] ∧ g'.guards = [] ∧ g'.binding = .none ∧
       (∀ l i, l < g.threads.length → (g'.thread l).readV i = 0 ∧ (g'.thread l).fstat = 0 ∧ (g'.thread l).drl = 8 ∧
         (g'.thread l).tstate = (g.thread l).tstate ∧ (i < 7 → (g'.thread l).readP i = false)) ∧
       ∀ j i, j < g.slices.length → (g'.slice j).readS i = 0) ∧
  (∀ (s : State) (cl k : Nat) (h : BitVec 16) (g : Gang), s.named cl h = some (k, g) → g.gstate ≠ .placed →
     ∃ t g', exec (.gangKill cl h) s = .next t ∧ (t.porter cl).pstat = 0 ∧ t.gang? k = some g' ∧ g'.gstate = .ended ∧
       g'.recordOut = false ∧ (∀ x ∈ g'.threads, x.tstate = .ended) ∧ ∀ c ∈ (t.core (coreOf k)).calls, c.key ≠ k) ∧
  (∀ (s : State) (cl : Nat) (h : BitVec 16),
     let c := coreOf (keyOf cl h)
     ∃ t, exec (.gangClearfree cl h) s = .next t ∧ (t.porter cl).pstat = 0 ∧
       t.core c = { s.core c with
         l1 := [], icache := [], tlb := [], tiles := if (s.core c).owner = .none then [] else (s.core c).tiles } ∧
       (∀ j, j ≠ c → t.core j = s.core j) ∧ t.gangs = s.gangs ∧ t.mem = s.mem ∧ t.blocks = s.blocks)

/-- R317, R358, R366: SAVE of a halted gang writes its v and s registers to their places in the image, and the epoch of its flush
tag rises. R317, R358: RESTORE of a placed gang from an image of its own gives it its registers from there, all else as saved,
HALTED. -/
def Obligations.GangImagesAreSavedAndRestored : Prop :=
  (∀ (s : State) (cl k area a : Nat) (h : BitVec 16) (g : Gang), s.named cl h = some (k, g) → g.gstate = .halted →
     s.areaAt area (imageSize g.width) = some a → s.mem.redq = [] → g.width ≤ 64 → g.slices.length ≤ 16 →
     ∃ t g', exec (.gangSave cl h area) s = .next t ∧ (t.porter cl).pstat = 0 ∧ t.gang? k = some g' ∧
       g'.deaf = Gang.deaf { g with epoch := g.epoch + 1 } ∧
       (∀ l i, l < g.width → i < g.vregs → i < 256 →
         Mem.readN t.mem.bytes (a + 0x4000 + 1024 * l + 4 * i) 4 = ((g.thread l).readV i).toNat) ∧
       ∀ j i, j < g.slices.length → i < 64 →
         Mem.readN t.mem.bytes (a + 0x2400 + 256 * j + 4 * i) 4 = ((g.slice j).readS i).toNat) ∧
  (∀ (s : State) (cl k area a : Nat) (h : BitVec 16) (g : Gang) (x : SavedGang), s.named cl h = some (k, g) → g.gstate = .placed →
     s.dist.saved.find? (fun y => y.gang.blk = g.blk ∧ y.gang.gidx = g.gidx) = some x →
     s.areaAt area (imageSize x.gang.width) = some a → s.imageFits x.gang a = true →
     ∃ t g', exec (.gangRestore cl h area) s = .next t ∧ (t.porter cl).pstat = 0 ∧ t.gang? k = some g' ∧ g'.gstate = .halted ∧
       g'.quad = g.quad ∧ g'.phys = g.phys ∧ (∀ y ∈ t.dist.saved, ¬ (y.gang.blk = g.blk ∧ y.gang.gidx = g.gidx)) ∧
       (∀ l i, l < x.gang.threads.length → i < x.gang.vregs → i < 255 →
         (g'.thread l).readV i = BitVec.ofNat 32 (Mem.readN s.mem.bytes (a + 0x4000 + 1024 * l + 4 * i) 4)) ∧
       (∀ j i, j < x.gang.slices.length → i < 63 →
         (g'.slice j).readS i = BitVec.ofNat 32 (Mem.readN s.mem.bytes (a + 0x2400 + 256 * j + 4 * i) 4)) ∧
       ∀ l, l < x.gang.threads.length → (g'.thread l).pc = (x.gang.thread l).pc ∧ (g'.thread l).p = (x.gang.thread l).p ∧
         (g'.thread l).tstate = (x.gang.thread l).tstate)

/-- R30, R224, R318: PRESUME makes the named threads that are TRAPPED, CALLER or STOPPED live again, each at its resume PC with a
new draft, callers past their SYSC; the gang runs, its fault record is free, and rd tells who resumed. -/
def Obligations.GangsResume : Prop :=
  ∀ (s : State) (cl k : Nat) (d a b : BitVec 5) (g : Gang), s.mayRun cl = true →
    s.named cl (((s.porter cl).rd a).setWidth 16) = some (k, g) →
    let m : Lanes := (s.porter cl).rd b
    let r := g.resumable m
    g.gstate = .running ∨ g.gstate = .halted → g.parked = .none → g.Quiet → r ≠ 0 → g.threads.length = g.width → g.width ≤ 64 →
    ∃ t g', exec (.presume cl d a b) s = .next t ∧ (t.porter cl).pstat = 0 ∧
      (d ≠ 0 → (t.porter cl).rd d = r) ∧ t.gang? k = some g' ∧ g'.gstate = .running ∧ g'.recordOut = false ∧
      (∀ l, l < g.width → r.getLsbD l = false → g'.thread l = g.thread l) ∧
      (∀ l, l < g.width → r.getLsbD l = true → (g'.thread l).tstate = .live ∧ (g'.thread l).dstart = (g'.thread l).pc ∧
        (g'.thread l).v = (g.thread l).v ∧ (g'.thread l).p = (g.thread l).p ∧
        ((g.thread l).tstate ≠ .caller → (g'.thread l).pc = (g.thread l).pc) ∧
        ((g.thread l).tstate = .caller → (g.thread l).pc = (g.thread l).dstart →
          (g'.thread l).pc = ((g.thread l).control .fall).pc)) ∧
      ∀ j, j ≠ k → t.gang? j = s.gang? j

/-- R94, R95, R315, R319: PMSEND appends to a channel of a porter or pushes to a gang's mailbox; a full channel tells FULL. R311,
R315, R319, R320: PMRECV takes the head of a channel or of the delivery queue into memory, rd naming the sender; PCALLREC writes
a call record, rd telling its classes; an empty queue and a token that names nothing tell EMPTY and STALE. -/
def Obligations.PorterMessagesComplete : Prop :=
  (∀ (s s1 : State) (cl x : Nat) (d a b : BitVec 5), s.mayRun cl = true →
     let dest := ((s.porter cl).rd a).toNat
     let va := ((s.porter cl).rd b).toNat
     (bits dest 31 1 = 0 → s.operandRead cl va 64 = (s1, .data x) → bits dest 0 6 < Config.numClusters →
       let q := Tab.getD (s1.cluster (bits dest 0 6)).channels (bits dest 6 2) []
       (q.length < Config.channelDepth →
         ∃ t s2, exec (.pmsendChannel cl d a b) s = .next t ∧ PorterDone s2 t cl d 0 .ok ∧
           Tab.getD (s2.cluster (bits dest 0 6)).channels (bits dest 6 2) [] = q ++ [⟨cl, BitVec.ofNat 512 x⟩] ∧
           { s2 with clusters := s1.clusters } = s1) ∧
       (Config.channelDepth ≤ q.length → ∃ t, exec (.pmsendChannel cl d a b) s = .next t ∧ PorterDone s1 t cl d 4 .full)) ∧
     (bits dest 31 1 = 1 → s.operandRead cl va 16 = (s1, .data x) → bits dest 20 6 < Config.numClusters →
       ∀ k g blk, s1.named (bits dest 20 6) (BitVec.ofNat 16 dest) = some (k, g) → s1.block? g.blk = some blk →
         bits dest 16 4 < blk.mailboxes → blk.state = .resident → s1.coreDown blk.core = false →
         let u := s1.push g.blk (bits dest 16 4) (x % 2 ^ 128) true
         (∃ y, u.2 = .done y) → ∃ t, exec (.pmsendMailbox cl d a b) s = .next t ∧
           PorterDone (u.1.pushedClass g.blk (bits dest 16 4) x) t cl d 0 .ok)) ∧
  (∀ (s : State) (cl : Nat) (d a b : BitVec 5), s.mayRun cl = true →
     let ch := ((s.porter cl).rd a).toNat % 8
     let va := ((s.porter cl).rd b).toNat
     (ch < 4 ∨ ch = 7 → (s.cluster cl).head? ch = .none →
       ∃ t, exec (.pmrecv cl d a b) s = .next t ∧ PorterDone s t cl d 0 .empty) ∧
     (∀ e rest s1 y, ch = 7 → (s.cluster cl).dq = e :: rest → s.operandWrite cl va 1 e.bytes = (s1, .data y) →
       ∃ t s2, exec (.pmrecv cl d a b) s = .next t ∧ PorterDone s2 t cl d 0x100 .ok ∧
         (s2.cluster cl).dq = (s1.cluster cl).dq.drop 1 ∧ s2.mem = s1.mem ∧ s2.gangs = s1.gangs) ∧
     (∀ m rest s1 y, ch < 4 → Tab.getD (s.cluster cl).channels ch [] = m :: rest →
       s.operandWrite cl va 1 m.data.toNat = (s1, .data y) → (∀ x ∈ s1.drives, x.2.held = []) →
       ∃ t s2, exec (.pmrecv cl d a b) s = .next t ∧ PorterDone s2 t cl d (0x100 + m.sender) .ok ∧
         Tab.getD (s2.cluster cl).channels ch [] = (Tab.getD (s1.cluster cl).channels ch []).drop 1 ∧ s2.mem = s1.mem) ∧
     (s.callRec cl ((s.porter cl).rd a).toNat = .none →
       ∃ t, exec (.pcallrec cl d a b) s = .next t ∧ PorterDone s t cl d 0 .stale) ∧
     ∀ r s1 y, s.callRec cl ((s.porter cl).rd a).toNat = some r →
       s.operandWrite cl va (r.classes.length + 1) (s.recordOf r) = (s1, .data y) →
       ∃ t, exec (.pcallrec cl d a b) s = .next t ∧ PorterDone s1 t cl d r.classes.length .ok)

/-- R324, R328, R329: a walk that finds a leaf installs it; R309, R333: SFENCE.VMA drops the porter's own entries that its registers
name; R309: the timer pends once CLOCK has reached stimecmp. R331, R332: a write of TLBIGO starts an invalidation with the next
ticket; once nothing that it covers is under way, no TLB and no walk cache in its scope holds a covered entry, and TLBIDONE
takes its ticket. R343: ENGRESUME makes a paused use run, its chunks that have not been acknowledged to write again; with ABORT
the use is gone. -/
def Obligations.TranslationIsMaintained : Prop :=
  ((∀ (s s1 : State) (cl asid root va pte l : Nat), (∀ e ∈ (s.cluster cl).tlb, e.hits asid va = false) →
     s.walk cl asid root va = (s1, .leaf pte l) →
     ∃ t, exec (.pageWalk cl asid root va) s = .next t ∧ tlbOf asid va pte l ∈ (t.cluster cl).tlb ∧ t.mem = s1.mem ∧
       t.gangs = s1.gangs ∧ t.cores = s1.cores) ∧
   (∀ (s : State) (cl : Nat) (r1 r2 : BitVec 5),
     let p := s.porter cl
     if p.mode = .user ∨ p.mode = .supervisor ∧ p.mstatus.getLsbD 20 = true then
       ∃ t, exec (.sfenceVma cl r1 r2) s = .next t ∧ PorterTaken s t cl 2 0 false (p.exceptsToMachine .illegal)
     else
       ∃ t, exec (.sfenceVma cl r1 r2) s = .next t ∧ OnlyPorter s t cl { p.next with
         tlb := p.tlb.filter fun e =>
           !((r1 == 0 || e.vpn * 2 ^ 18 / 2 ^ pageBits e.level == (p.rd r1).toNat / 2 ^ pageBits e.level) &&
             (r2 == 0 || (e.asid == (p.rd r2).toNat % 2 ^ 16 && !e.pte.getLsbD 6))) }) ∧
   ∀ (s : State) (cl : Nat), (s.porter cl).menvcfg.getLsbD 63 = true → (s.porter cl).stimecmp.toNat ≤ s.clock % 2 ^ 64 →
     ∃ t, exec (.porterTimerInterrupt cl) s = .next t ∧
       OnlyPorter s t cl { s.porter cl with mip := (s.porter cl).mip ||| 0x20 }) ∧
  ((∀ (s : State) (c : Commit) (cs : List Commit) (dev : Bool), s.commits = c :: cs → c.reg = 0x9C3 → (bits (c.dword 0) 0 1 = 1 ↔ dev) →
     let cl := writerCluster c.writer
     let p := s.porter cl
     p.tlbis.length < 16 →
     ∃ t, exec (if dev then .tlbiDevice else .tlbiCluster) s = .next t ∧ OnlyPorter { s with commits := cs } t cl { p with
       ticket := p.ticket + 1
       tlbis := p.tlbis ++ [{
         ticket := (p.ticket + 1).toNat, dev := dev, asid := bits p.tlbiasid.toNat 0 16, all := p.tlbiasid.getLsbD 16
         glob := p.tlbiasid.getLsbD 17, vpn := bits p.tlbiva.toNat 18 38, pages := bits p.tlbilen.toNat 0 39 }] }) ∧
   ∀ (s s1 : State) (cl : Nat) (t : Tlbi) (rest : List Tlbi), (s.porter cl).tlbis = t :: rest → s.draftCovered cl t = false →
     s.chunkCovered cl t = false → (s.drain fun e => t.inScope cl (e.core / 4) && t.coversEntry e) = some s1 →
     (∀ r ∈ s1.link.requests, ∀ g l e, r.src ≠ .store g l e) → (s1.porter cl).tlbis = t :: rest →
     ∃ u, exec (.tlbiComplete cl) s = .next u ∧ (u.porter cl).tlbis = rest ∧ (u.porter cl).done = BitVec.ofNat 32 t.ticket ∧
       (∀ c, t.inScope cl (c / 4) = true → ∀ e ∈ (u.core c).tlb, t.covers e = false) ∧
       ∀ j, t.inScope cl j = true → (∀ e ∈ (u.cluster j).tlb, t.covers e = false) ∧
         (∀ w ∈ (u.cluster j).walks, t.coversWalk w = false) ∧ ∀ e ∈ (u.porter j).tlb, t.covers e = false) ∧
  (∀ (s : State) (c : Commit) (cs : List Commit) (core u : Nat) (x : CopyUse), s.commits = c :: cs → c.reg = 0x9C5 →
     core = 4 * writerCluster c.writer + bits (c.dword 0) 6 2 → u = bits (c.dword 0) 0 6 → s.pausedUse core u = some x →
     (bits (c.dword 0) 8 1 = 0 → ∃ t y, exec .engineResume s = .next t ∧ t.commits = cs ∧ Tab.get? (t.core core).uses u = some y ∧
       y.state = .running ∧ y.parts = x.parts ∧ y.acked = x.acked ∧
       (∀ b ∈ y.bufs, NatSet.has x.acked b.n = false → b.written = false) ∧ t.gangs = s.gangs ∧ t.mem = s.mem) ∧
     (bits (c.dword 0) 8 1 = 1 → ∃ t, exec .engineAbort s = .next t ∧ t.commits = cs ∧ Tab.get? (t.core core).uses u = .none ∧
       t.mem = s.mem))

/-- R120, R309, R344: a porter's load, store, float load and store, LR, SC and AMO of this device's memory or the host's; a
misaligned one takes its exception. -/
def Obligations.PorterAccessesComplete : Prop :=
  ∀ (s s1 : State) (cl : Nat) (rd r1 r2 : BitVec 5) (off : BitVec 12) (w : Fin 4) (u dbl aq rl : Bool) (op : AmoOp) (tg : Target)
      (pa : Nat), s.porterWaits cl = false →
    let p := s.porter cl
    let row (a : PorterAccess) : Instr := .porterLoadStoreAmo cl a
    let near : Prop := (∃ a, tg = .hbm a) ∨ ∃ a, tg = .host a
    let n := 2 ^ w.val
    let m := 2 ^ (2 + dbl.toNat)
    let va := (p.rd r1).toNat
    (p.ea r1 off % n = 0 → s.porterTarget cl (p.ea r1 off) .read = (s1, .ok (tg, pa)) → near →
      ∀ s2 x, s1.agentRead pa n (s.porterAsid cl .read) = (s2, .data x) →
        ∃ t, exec (row (.load w u rd r1 off)) s = .next t ∧
          OnlyPorter s2 t cl ((s2.porter cl).wr rd (if u then BitVec.ofNat 64 (x % 2 ^ (8 * n)) else BitVec.ofInt 64 (sExt (8 * n) x))).next) ∧
    (p.ea r1 off % n = 0 → s.porterTarget cl (p.ea r1 off) .write = (s1, .ok (tg, pa)) → near →
      ∃ t, exec (row (.store w r1 r2 off)) s = .next t ∧
        OnlyPorter (s1.agentWrite pa n ((p.rd r2).toNat % 256 ^ n)) t cl ((s1.agentWrite pa n ((p.rd r2).toNat % 256 ^ n)).porter cl).next) ∧
    (va % m = 0 → s.porterTarget cl va .read = (s1, .ok (tg, pa)) → near →
      ∀ s2 x, s1.agentRead pa m (s.porterAsid cl .read) = (s2, .data x) →
        ∃ t, exec (row (.loadReserved dbl aq rl rd r1)) s = .next t ∧ (t.porter cl).reservation = some pa ∧
          (rd ≠ 0 → (t.porter cl).rd rd = BitVec.ofInt 64 (sExt (8 * m) x)) ∧ t.mem = s2.mem) ∧
    (va % m = 0 → s.porterTarget cl va .write = (s1, .ok (tg, pa)) → near →
      ∃ t, exec (row (.storeConditional dbl aq rl rd r1 r2)) s = .next t ∧ (t.porter cl).reservation = .none ∧
        if (s1.porter cl).reservation.map atomOf = some (atomOf pa) then
          (rd ≠ 0 → (t.porter cl).rd rd = 0) ∧ t.mem = (s1.agentWrite pa m ((p.rd r2).toNat % 256 ^ m)).mem
        else (rd ≠ 0 → (t.porter cl).rd rd = 1) ∧ t.mem = s1.mem) ∧
    (va % m = 0 → s.porterTarget cl va .rmw = (s1, .ok (tg, pa)) → near →
      ∀ s2 old, s1.agentRead pa m (s.porterAsid cl .rmw) = (s2, .data old) →
        ∃ t, exec (row (.amo op dbl aq rl rd r1 r2)) s = .next t ∧ (rd ≠ 0 → (t.porter cl).rd rd = BitVec.ofInt 64 (sExt (8 * m) old)) ∧
          t.mem = (s2.homeWrite pa m (newValue (amoCode op dbl).1 (amoCode op dbl).2 old ((p.rd r2).toNat % 256 ^ m))).mem) ∧
    (p.fpOff = false → p.ea r1 off % m = 0 →
      (s.porterTarget cl (p.ea r1 off) .read = (s1, .ok (tg, pa)) → near →
        ∀ s2 x, s1.agentRead pa m (s.porterAsid cl .read) = (s2, .data x) →
          ∃ t, exec (row (.fload dbl rd r1 off)) s = .next t ∧
            OnlyPorter s2 t cl ((s2.porter cl).loaded rd true (2 + dbl.toNat) false x).next) ∧
      (s.porterTarget cl (p.ea r1 off) .write = (s1, .ok (tg, pa)) → near →
        let u := s1.agentWrite pa m ((Tab.getD p.f r2.toNat 0).toNat % 256 ^ m)
        ∃ t, exec (row (.fstore dbl r1 r2 off)) s = .next t ∧ OnlyPorter u t cl (u.porter cl).next)) ∧
    (p.fpOff = true → ∃ t, exec (row (.fload dbl rd r1 off)) s = .next t ∧
      PorterTaken s t cl 2 0 false (p.exceptsToMachine .illegal)) ∧
    (p.ea r1 off % n ≠ 0 →
      (∃ t, exec (row (.load w u rd r1 off)) s = .next t ∧
        PorterTaken s t cl 4 (p.ea r1 off) false (p.exceptsToMachine .loadMisaligned)) ∧
      ∃ t, exec (row (.store w r1 r2 off)) s = .next t ∧
        PorterTaken s t cl 6 (p.ea r1 off) false (p.exceptsToMachine .storeMisaligned)) ∧
    ∀ pr su : BitVec 4, ∃ t, exec (.porterFence cl pr su) s = .next t ∧ OnlyPorter s t cl p.next

/-- R12, R310, R345, R381, R385, R414: a register write: a plain field takes the bits it has, a register with a step of its own
commits, a CSR of the porter takes its fields, and a write that is not its writer's changes nothing. -/
def Obligations.RegistersAreWritten : Prop :=
  ∀ (s : State) (x : W64) (cl : Nat),
    (∀ r ∈ [(0x40, 0, 16), (0x100040, 12, 38), (0x100048, 12, 38), (0x100050, 12, 27), (0x100058, 12, 27), (0x122040, 0, 13),
        (0x123008, 0, 8), (0x123040, 0, 8)],
      ∃ t, exec (.registerWrite (.porter cl) (.mmio (regSpace + r.1)) x) s = .next t ∧
        t.regValue (.porter cl) r.1 = some (bits x.toNat r.2.1 r.2.2 * 2 ^ r.2.1) ∧ t.gangs = s.gangs ∧ t.mem = s.mem) ∧
    (∀ o ∈ [0x100018, 0x123018, 0x123080, 0x123090, 0x123098, 0x1230A0],
      exec (.registerWrite (.porter cl) (.mmio (regSpace + o)) x) s = .next { s with
        commits := s.commits ++ [⟨.porter cl, regSpace + o, (o - 0x200000) / 64, [x]⟩] }) ∧
    (∀ r : Nat × W64, r ∈ [(0x5C0, 0xFFFFFFFFFF001), (0x5C1, 0xFFFF), (0x5C2, 0x1F), (0x5C3, 0xFFFFFFFFFFFFF), (0x9C0, 0x3FFFF),
        (0x9C1, 0xFFFFFFFFFC0000), (0x9C2, 0x7FFFFFFFFF)] → s.csrIllegal cl r.1 true = false →
      ∃ t, exec (.registerWrite (.porter cl) (.csr cl r.1) x) s = .next t ∧ t.deviceCsr cl r.1 = some (x &&& r.2).toNat ∧
        t.gangs = s.gangs ∧ t.mem = s.mem) ∧
    (∀ n, s.csrIllegal cl n true = true →
      ∃ t, exec (.registerWrite (.porter cl) (.csr cl n) x) s = .next t ∧
        PorterTaken s t cl 2 0 false ((s.porter cl).exceptsToMachine .illegal)) ∧
    (∀ o, o < 2 ^ 32 → s.accepts .host (o / 8 * 8) = false → exec (.registerWrite .host (.mmio (regSpace + o)) x) s = .next s) ∧
    (∀ off, s.takesImage = true → s.host.busy = false → off / 8 * 8 < 0x1FF000 →
      ∃ t, exec (.registerWrite .host (.window off) x) s = .next t ∧
        BytesWritten s.host.window t.host.window (off / 8 * 8) 8 x.toNat ∧ { t with host := s.host } = s)

/-- R367 to R369, R405: a host access over CXL.mem, at the address that the HDM decoder gives, reads, or writes its bytes and clears
the mark of each atom that it covers whole, or, as a RMW, replaces the old bytes where it finds them; one outside HBM, or before
CXL.mem is usable, ends in an error and changes no byte. R326, R378: a drive's MSI-X write is a message on its channel, held
while that is full; its DMA inside its window reads or writes memory, or asks another device, and outside it ends in an error.
R379, R380: a tail register takes its index; the descriptor of a whole frame sent is written back with DONE, and the frame
leaves with its FCS at EOP unless a descriptor of it was malformed; a frame received, of 9,216 bytes at most, goes to the buffer
of a descriptor, which is written back with its length, EOP and DONE; with no descriptor it is dropped and counted. -/
def Obligations.HostAndComplexComplete : Prop :=
  (∀ (s : State) (op : HostOp) (pa n x old : Nat) (own : Bool),
     let a := pa - s.host.hdmBase
     (s.cxlOpen = false ∨ pa < s.host.hdmBase ∨ s.rel.hbmSize < a + n →
       exec (.hostCxlMemAccess op pa n) s = .next { s with host := { s.host with reply := .error } }) ∧
     (s.cxlOpen = true → s.host.hdmBase ≤ pa → a + n ≤ s.rel.hbmSize →
       (∀ s1 r, s.readBytes a n 0 = (s1, r) → ∃ t, exec (.hostCxlMemAccess (.read own) pa n) s = .next t ∧
         t.host.reply = r.elim .poison .data ∧ t.mem.bytes = s1.mem.bytes ∧ t.gangs = s1.gangs ∧
         (own = true → NatSet.has t.mem.hostHalves (a / 64) = true)) ∧
       (∀ s1 y, s.hostReads a n true = (s1, some y) → ∃ t, exec (.hostCxlMemAccess (.rmw old x) pa n) s = .next t ∧
         t.host.reply = .data y ∧ t.mem = (if y = old then s1.hostWriteBytes a n x else s1).mem) ∧
       (s.mem.redq = [] → ∃ t, exec (.hostCxlMemAccess (.write x) pa n) s = .next t ∧ t.host.reply = .written ∧
         BytesWritten s.mem.bytes t.mem.bytes a n x ∧
         ∀ i, a ≤ 32 * i → 32 * i + 32 ≤ a + n → NatSet.has t.mem.poison i = false))) ∧
  (∀ (s : State) (d vec pa : Nat) (wr : Bool) (data : List (BitVec 8)),
     let x := s.drive d
     let cl := x.irqChan % 64
     let ch := x.irqChan / 64 % 4
     let q := Tab.getD (s.cluster cl).channels ch []
     let m (sender : Nat) : Message := ⟨sender, BitVec.ofNat 512 (d + 2 ^ 16 * (vec % 2 ^ 16))⟩
     (x.held = [] → q.length < Config.channelDepth → ∃ t sender, exec (.nvmeMsix d vec) s = .next t ∧
       Tab.getD (t.cluster cl).channels ch [] = q ++ [m sender] ∧ t.drives = s.drives ∧ t.mem = s.mem) ∧
     (x.held ≠ [] ∨ Config.channelDepth ≤ q.length → ∃ t sender, exec (.nvmeMsix d vec) s = .next t ∧
       t.drive d = { x with held := x.held ++ [m sender] } ∧ t.clusters = s.clusters ∧ t.mem = s.mem) ∧
     let window := x.dmaBase ≤ pa ∧ pa + data.length ≤ x.dmaBase + x.dmaSize
     let inside := window ∧ s.plainRange pa data.length = true
     (¬ window ∨ (s.farRange wr pa data.length = .none ∧ s.plainRange pa data.length = false) →
       ∃ t, exec (.nvmeDma d wr pa data) s = .next t ∧ t.drive d = { x with reply := .error } ∧ t.mem = s.mem) ∧
     (window → ∀ dev off, s.farRange wr pa data.length = some (dev, off) → (s.link.requests.filter fun r => r.dev = dev).length < 4096 →
       s.keySpent dev = false →
       ∃ t r, exec (.nvmeDma d wr pa data) s = .next t ∧ t.drive d = { x with reply := .none } ∧ t.mem = s.mem ∧
         t.link.requests = s.link.requests ++ [r] ∧ r.dev = dev ∧ r.off = off ∧ r.src = .drive d) ∧
     (inside → s.mem.redq = [] → ∃ t, exec (.nvmeDma d true pa data) s = .next t ∧ t.drive d = { x with reply := .written } ∧
       BytesWritten s.mem.bytes t.mem.bytes pa data.length (natOfBytes data)) ∧
     (inside → ∀ s1 r, s.readBytes pa data.length 0 = (s1, r) → s1.drives = s.drives → ∃ t, exec (.nvmeDma d false pa data) s = .next t ∧
       t.drive d = { x with reply := r.elim .poison .data } ∧ t.mem = s1.mem)) ∧
  ((∀ (s u : State) (c : Commit) (tx : Bool), HeadCommit s (regSpace + 0x200000 + if tx then 24 else 40) c u →
     let x := s.pair c.index
     let i := bits (c.dword 0) 0 16
     exec (if tx then .ethTxTail else .ethRxTail) s =
       .next (u.setPair c.index (if tx then { x with txTail := i, waiting := false } else { x with rxTail := i, waiting := false }))) ∧
   (∀ (s s1 : State) (q d : Nat),
     let x := s.pair q
     let pa := x.descAt x.txBase x.txHead
     x.enabled = true → x.span x.txHead x.txTail ≠ 0 → s.readDesc pa = (s1, some d) →
     s.descOk d = false ∨ s.hasEop x (x.span x.txHead x.txTail) x.txHead = true →
     let len := bits d 64 16
     let y := if s.descOk d then (s1.readBytes (bits d 0 52) len 0).2 else .none
     let bad := y.isNone || decide (maxFrame < x.txPart.length + len)
     let part := x.txPart ++ if bad then [] else bytesOfNat len (y.getD 0)
     ∃ t, exec (.ethTxComplete q) s = .next t ∧ (t.pair q).txHead = (x.txHead + 1) % x.ring ∧ bits (Mem.readN t.mem.bytes pa 32) 81 1 = 1 ∧
       bits (Mem.readN t.mem.bytes pa 32) 82 1 = bad.toNat ∧ bits (Mem.readN t.mem.bytes pa 32) 0 81 = bits d 0 81 ∧
       (t.pair q).sent = if bits d 80 1 = 1 ∧ (x.txBad || bad) = false then x.sent ++ [withFcs part] else x.sent) ∧
   ∀ (s s1 : State) (p d : Nat) (frame : List (BitVec 8)) (bad : Bool),
     let q := s.steer p frame
     let x := s.pair q
     let pa := x.descAt x.rxBase x.rxHead
     let buf := bits d 0 52
     (maxFrame < frame.length → exec (.ethRxFrame p frame bad) s = .next s) ∧
     (frame.length ≤ maxFrame → x.enabled = false ∨ x.span x.rxHead x.rxTail = 0 →
       exec (.ethRxFrame p frame bad) s = .next (s.setPair q { x with rxDrop := min (x.rxDrop + 1) 0xFFFFFFFF })) ∧
     (frame.length ≤ maxFrame → x.enabled = true → x.span x.rxHead x.rxTail ≠ 0 → frame ≠ [] → s.readDesc pa = (s1, some d) →
       s1.descOk d = true →
       frame.length ≤ bits d 64 16 → s.mem.redq = [] → buf + frame.length ≤ pa ∨ pa + 32 ≤ buf →
       ∃ t, exec (.ethRxFrame p frame bad) s = .next t ∧ (t.pair q).rxHead = (x.rxHead + 1) % x.ring ∧ (t.pair q).rxDrop = x.rxDrop ∧
         Mem.readBytes t.mem.bytes buf frame.length = frame ∧ bits (Mem.readN t.mem.bytes pa 32) 0 64 = bits d 0 64 ∧
         bits (Mem.readN t.mem.bytes pa 32) 64 16 = frame.length ∧ bits (Mem.readN t.mem.bytes pa 32) 80 3 = 3 + 4 * bad.toNat))

/-- R373, R401: a flit with a bad CRC or tag delivers nothing and counts a replay; a good one advances its stream and delivers its
request; one under the NEXT key switches the stream. R373, R374: a port that loses a lane retrains at four lanes, then at two;
then it is down, out of every mask, and in the log. R374 to R376: a received request for this device is applied once, inside the
exported window, and answered; a second copy of it changes no byte, and one outside the window has an error for its answer.
R402: it waits while the stream back sends nothing. R375 to R377: an answer, of a group the last member's, ends a request and
gives a load its value; a request unanswered for 20 µs is sent again on the next port of its mask; one unanswered for 2 ms has
failed, and a committed store's failure is logged and counted against its gang. -/
def Obligations.LinksCarryRequests : Prop :=
  (∀ (s : State) (port src : Nat) (phase tagOk plain : Bool) (req : Option (Nat × Nat × RemoteOp × Nat)),
     let y := Tab.getD s.link.ports port .fresh
     let x := s.stream (rxStream src)
     let row (crc : Bool) : Instr := .flitReceive port src phase crc tagOk plain req
     let taken (t : State) : Prop :=
       t.link.incoming = s.link.incoming ++ (req.map fun r => (⟨src, r.1, r.2.1, r.2.2.1, r.2.2.2⟩ : Incoming)).toList
     let replayed (t : State) : Prop := t.link.incoming = s.link.incoming ∧
       Tab.getD t.link.ports port .fresh = { y with crcErr := min 0xFFFF (y.crcErr + 1) }
     y.up = true →
     (∃ t, exec (row false) s = .next t ∧ replayed t ∧ t.trust = s.trust) ∧
     (plain = true → x.state = .off → s.trust.conf = false → ∃ t, exec (row true) s = .next t ∧ taken t ∧ t.trust = s.trust) ∧
     (plain = false → x.state = .run →
       (tagOk = true → phase = x.phase →
         ∃ t, exec (row true) s = .next t ∧ taken t ∧ t.stream (rxStream src) = { x with used := x.used + 1, tagFails := 0 }) ∧
       (tagOk = true → phase ≠ x.phase → ∀ k salt, x.next = some (k, salt) →
         ∃ t, exec (row true) s = .next t ∧ taken t ∧ (t.stream (rxStream src)).cur = k ∧ (t.stream (rxStream src)).salt = salt ∧
           (t.stream (rxStream src)).used = 1 ∧ (t.stream (rxStream src)).phase = phase ∧ (t.stream (rxStream src)).next = .none) ∧
       (tagOk = false → ∃ t, exec (row true) s = .next t ∧ replayed t ∧
         t.stream (rxStream src) = { x with tagFails := x.tagFails + 1 }))) ∧
  (∀ (s : State) (p : Nat),
     let x := Tab.getD s.link.ports p .fresh
     x.up = true →
     (2 < x.lanes → ∃ t, exec (.laneDrop p) s = .next t ∧
       Tab.getD t.link.ports p .fresh = { x with lanes := if 4 < x.lanes then 4 else 2 } ∧ Logged s t .laneDrop 4 p 0 1 0 ∧
       t.link.droute = s.link.droute ∧ t.link.mcroute = s.link.mcroute ∧ s.Still t) ∧
     (x.lanes ≤ 2 → Tab.wf s.link.droute = true → Tab.wf s.link.mcroute = true →
       ∃ (t u : State), exec (.laneDrop p) s = .next t ∧ Logged s u .laneDrop 4 p 0 1 0 ∧ Logged u t .portDown 4 p 0 1 0 ∧
         Tab.getD t.link.ports p .fresh = { x with lanes := 0, up := false } ∧
         (∀ d, Tab.getD t.link.droute d 0 = Tab.getD s.link.droute d 0 &&& ~~~(BitVec.twoPow 16 p)) ∧
         (∀ d, Tab.getD t.link.mcroute d 0 = Tab.getD s.link.mcroute d 0 &&& ~~~(BitVec.twoPow 16 p)) ∧ s.Still t)) ∧
  (∀ (s : State) (i : Nat) (x : Incoming), s.link.incoming[i]? = some x → x.behind (s.link.incoming.take i) = false →
     s.named? x.dest = true → s.refusesUse x = false →
     (s.muted x.src = true → exec (.remoteRequest i) s = .next s) ∧ (s.muted x.src = false → s.streamDown x.src = false →
     let left := s.link.incoming.eraseIdx i
     let once := NatSet.has (Tab.getD s.link.applied x.stream []) x.seq
     (once = true → ∃ t, exec (.remoteRequest i) s = .next t ∧ t.link.incoming = left ∧ t.mem = s.mem ∧ t.gangs = s.gangs) ∧
     (once = false → s.exports x.off (remoteSize x.op) = false → ∃ t, exec (.remoteRequest i) s = .next t ∧
       t.link.incoming = left ∧ t.mem = s.mem ∧ t.gangs = s.gangs ∧ (x.dest, x.src, x.seq, 1, 0) ∈ t.link.answers) ∧
     (once = false → s.exports x.off (remoteSize x.op) = true →
       (∀ s2 a, State.applyRemote { s with link := { s.link with incoming := left } } x.src x.off x.op = (s2, a) →
         ∃ t, exec (.remoteRequest i) s = .next t ∧ t.mem = s2.mem ∧ t.gangs = s2.gangs ∧
           (x.dest, x.src, x.seq, a.code) ∈ t.link.answers ∧ NatSet.has (Tab.getD t.link.applied x.stream []) x.seq = true) ∧
       ∀ n v, x.op = .write n v → s.mem.redq = [] → ∃ t, exec (.remoteRequest i) s = .next t ∧ t.link.incoming = left ∧
         BytesWritten s.mem.bytes t.mem.bytes x.off n v ∧ (x.dest, x.src, x.seq, 0, 0) ∈ t.link.answers))) ∧
  (∀ (s : State) (dev seq data : Nat) (r : RemoteReq), s.request? dev seq = some r → s.dist.dones = [] →
     let left := s.link.requests.filter fun x => !(x.dev == dev && x.seq == seq)
     let last := dev < 0xF00 ∨ ∀ m ∈ r.left, m = data
     (s.unsent r = false → last → ∀ tag l e, r.src = .store tag l e →
       exec (.remoteAck dev seq 0 data) s = .next { s with link := { s.link with requests := left } }) ∧
     (s.unsent r = false → 0xF00 ≤ dev → (∃ m ∈ r.left, m ≠ data) → ∃ t, exec (.remoteAck dev seq 0 data) s = .next t ∧
       t.request? dev seq = some { r with left := r.left.filter (· ≠ data) } ∧ t.mem = s.mem ∧ t.gangs = s.gangs) ∧
     (s.unsent r = false → last → ∀ k l j id va lv g q, r.src = .load k j id va lv → s.gang? k = some g → l < g.width →
       (g.thread l).pend.find? (fun y => y.id = id) = some q → q.members.getLsbD l = true → q.isLoad = true →
       (∀ y ∈ g.awaiting id, y.2.acq = .none) → ∃ t g' q', exec (.remoteAck dev seq 0 data) s = .next t ∧ t.link.requests = left ∧
         t.mem = s.mem ∧ t.gang? k = some g' ∧ g'.producer l id = some q' ∧ q'.ready = true ∧
         q'.value = loadPattern q.ty (mergeBytes data q.fwd)) ∧
     (s.timersRun dev = true → r.sent + 20 * Config.cyclesPerUs ≤ s.clock → portsOf (s.routeMask dev) ≠ [] → s.keySpent dev = false →
       ∃ t, exec (.remoteRetransmit dev seq) s = .next t ∧ t.mem = s.mem ∧ t.gangs = s.gangs ∧
         t.request? dev seq = some { r with port := nextPort (s.routeMask dev) r.port, sent := s.clock }) ∧
     (s.timersRun dev = true → r.first + 2000 * Config.cyclesPerUs ≤ s.clock →
       exec (.remoteRequestFail dev seq) s = .next (s.answered r 1 0)) ∧
     ∀ tag l e, r.src = .store tag l e → (s.answered r 1 0).link.requests = left ∧
       ∀ k g, s.gang? k = some g → g.gstate ≠ .ended → ∃ g', (s.answered r 1 0).gang? k = some g' ∧ g'.deaf = g.deaf ∧
         g'.failedStores = if g.tag = tag then g.failedStores + 1 else g.failedStores)

/-- R401, R402, R414: a key written to PSKEY is its stream's CUR or NEXT key; a switch, and a NEXT key for a stream that is STOPPED
or DOWN, put it into use. R401, R402: a key near its end is logged once; at its limit the stream takes its NEXT key or stops; a
stream stopped for 100 ms, or with sixteen tag failures in a row, goes down, and no request waits for it. -/
def Obligations.StreamsAreKeyed : Prop :=
  (∀ (s u : State) (c : Commit), HeadCommit s pskeyReg c u →
     let i := c.streamOf
     let x := s.stream i
     (c.pskSwitch = false → c.pskNext = true → x.state = .off ∨ x.state = .run →
       exec .pskeyCommit s = .next (u.setStream i { x with next := some (c.key, c.salt) })) ∧
     (c.pskSwitch = false → c.pskNext = false → x.state ≠ .stopped →
       exec .pskeyCommit s = .next (u.setStream i { x with
         state := .run, cur := c.key, salt := c.salt, used := 0, tagFails := 0, low := false })) ∧
     (c.pskSwitch = false → x.state = .stopped → i < 4096 → ∃ t, exec .pskeyCommit s = .next t ∧ (t.stream i).state = .run ∧
       (t.stream i).cur = c.key ∧ (t.stream i).salt = c.salt ∧
       (t.stream i).used = (s.link.requests.filter fun r => r.dev = i ∧ x.since ≤ r.sent).length ∧
       t.link.requests = s.link.requests.map fun r =>
         if r.dev = i then
           if x.since ≤ r.sent then { r with sent := s.clock, first := s.clock }
           else { r with sent := r.sent + (s.clock - x.since), first := r.first + (s.clock - x.since) }
         else r) ∧
     (c.pskSwitch = true → ∀ k, (k = c.key ∧ c.pskNext = true) ∨ (c.pskNext = false ∧ x.next.map (·.1) = some k) →
       ∃ t, exec (.pskeySwitch (i % 4096)) s = .next t ∧ (t.stream i).cur = k ∧ (t.stream i).state = .run ∧ (t.stream i).next = .none ∧
         (t.stream i).phase = !x.phase ∧ t.gangs = s.gangs ∧ t.mem = s.mem)) ∧
  (∀ (s : State) (dev : Nat),
     let x := s.stream dev
     let z := s.stream (rxStream dev)
     (x.state = .run → x.low = false → 2 ^ 35 ≤ x.used → ∃ t, exec (.keylow dev) s = .next t ∧ t.stream dev = { x with low := true } ∧
       Logged s t .keylow 4 dev 0 1 0) ∧
     (x.state = .run → 2 ^ 36 ≤ x.used →
       (x.next = .none → exec (.keyLimit dev) s = .next (s.setStream dev { x with state := .stopped, since := s.clock })) ∧
       ∀ k salt, x.next = some (k, salt) → exec (.keyLimit dev) s = .next (s.setStream dev { x with
         cur := k, salt := salt, next := .none, used := 0, phase := !x.phase, tagFails := 0, low := false })) ∧
     (x.state = .stopped → x.since + 100000 * Config.cyclesPerUs ≤ s.clock →
       (∀ r ∈ s.link.requests, r.dev = dev → ∃ tag l e, r.src = .store tag l e) → s.dist.dones = [] →
       ∃ t, exec (.streamDown dev) s = .next t ∧ t.stream dev = { x with state := .down } ∧ ∀ r ∈ t.link.requests, r.dev ≠ dev) ∧
     (z.state = .run → 16 ≤ z.tagFails → (∀ r ∈ s.link.requests, r.dev ≠ rxStream dev) →
       ∃ t, exec (.streamTagFailures dev) s = .next t ∧ t.stream (rxStream dev) = { z with state := .down } ∧
         Logged s t .streamDown 4 (rxStream dev % 4096) 0 1 0))

/-- R388, R394, R400: a reset and a loss of standby power hold the device with nothing resident; the host's memory and the fuses
stay, FAILS stays over a reset alone, and of HBM a byte stays only outside confidential mode and with its power (log 42). R386,
R388: while the device is held, what comes over I3C is its lease block or its boot block. R386, R388, R394 to R396, R403: a
release samples the pins and begins the scrub, which clears HBM, where a pin or a change of mode asks for it, else the boot; a
scrub that found nothing it could not spare goes on to the boot, any other ends in ALERT. -/
def Obligations.BringUpBegins : Prop :=
  (∀ (s : State) (loss : Bool), ∃ t, exec (if loss then .standbyPowerLoss else .deviceReset) s = .next t ∧ t.trust.phase = .held ∧
     t.gangs = [] ∧ t.blocks = [] ∧ t.cores = [] ∧ t.clusters = [] ∧ t.host.ready = 0 ∧ t.trust.fuses = s.trust.fuses ∧
     t.trust.fuseRevoked = s.trust.fuseRevoked ∧ t.trust.svn = s.trust.svn ∧ t.trust.hbmKeyed = false ∧
     t.host.fails = (if loss then 0 else s.host.fails) ∧
     (∀ a, Config.hbmBytes ≤ a → Mem.read t.mem.bytes a = Mem.read s.mem.bytes a) ∧
     ∀ a, a < Config.hbmBytes → Mem.read t.mem.bytes a =
       if loss = true ∨ s.trust.conf = true then Mem.unlisted else Mem.read s.mem.bytes a) ∧
  (∀ (s : State) (m : List Byte) (rest : List (List Byte)), s.trust.phase = .held → s.trust.inbox = m :: rest →
     (m.length = 64 → exec .leaseBlockWrite s = .next { s with trust := { s.trust with
       inbox := rest, lease := BitVec.ofNat 512 (natOfBytes m) } }) ∧
     (m.length = 16 → exec .bootBlockWrite s = .next { s with trust := { s.trust with
       inbox := rest, bootBlock := some (BitVec.ofNat 128 (natOfBytes m)) } })) ∧
  (∀ s : State,
     let k := s.trust
     (k.phase = .held → k.pinScrub = true ∨ k.pinConf ≠ k.prevConf ∨ k.pinRecovery = true →
       ∃ t, exec .deviceRelease s = .next t ∧ t.trust.phase = .scrub ∧ t.dist.encore = Config.enabledCores ∧
         t.trust.nextConf = k.pinConf ∧ t.trust.recovery = k.pinRecovery ∧ (∀ i, 32 * i < Config.hbmBytes →
           NatSet.has t.mem.poison i = false) ∧
         ∀ a, Mem.read t.mem.bytes a = if a < Config.hbmBytes then Mem.unlisted else Mem.read s.mem.bytes a) ∧
     (k.phase = .held → k.pinScrub = false → k.pinConf = k.prevConf → k.pinRecovery = false →
       ∃ t, exec .deviceRelease s = .next t ∧ BootBegun s t false k.pinConf ∧ t.dist.encore = Config.enabledCores ∧ t.mem = s.mem ∧
         (k.bootBlock = .none → t.host.bootcfg = 0x100)) ∧
     (k.phase = .scrub → k.scrubFail = 0 → ∃ t, exec .scrubComplete s = .next t ∧ BootBegun s t k.recovery k.nextConf ∧
       t.dist.encore = s.dist.encore &&& ~~~k.scrubRetired ∧ t.mem = s.mem) ∧
     (k.phase = .scrub → k.scrubFail ≠ 0 → ∃ t, exec .scrubComplete s = .next t ∧ t.trust.phase = .alert ∧ t.trust.alert = true ∧
       t.dist.encore = s.dist.encore &&& ~~~k.scrubRetired))

/-- R382, R387, R392, R393, R397: an image taken, stage 1 verified, HBM and the link trained, the porters started from a verified
kernel: each step sets its READY bits; a bad image or a failed training fails the boot with its reason. R382, R387: BOOTOK ends
the boot, clears FAILS and raises the SVN counters; no BOOTOK in 60 s, or a watchdog at any step, fails it; a source that gives
no image in 10 s gives way to the next. R385: a chunk announced is taken into management SRAM at its offset; a malformed one is
refused; the total ends the image, or fails the source. -/
def Obligations.BootStepsComplete : Prop :=
  (∀ s : State,
     let k := s.trust
     let on (t : State) (m : BitVec 10) : Prop := t.host.ready = s.host.ready ||| m
     (k.phase = .step 1 → k.imageLen ≠ .none → ∃ t, exec .bootStep s = .next t ∧ t.trust.phase = .step 2 ∧ on t 0x1) ∧
     (k.phase = .step 2 →
       let v := viewImage k.image (k.imageLen.getD 0)
       if k.verify v (if k.recovery then 3 else 1) s.sourceNow then
         ∃ t, exec .bootStep s = .next t ∧ t.trust.phase = .step 3 ∧ on t 0x2 ∧ t.trust.stageSlot = v.slot ∧ t.trust.imageLen = .none ∧
           Tab.getD t.trust.meas 1 0 = Config.sha3_256
             (hashBytes (Tab.getD k.meas 1 0) ++ (hashBytes v.digest ++ [BitVec.ofNat 8 v.slot]))
       else ∃ t, exec .bootStep s = .next t ∧ BootFailed s t 1) ∧
     (k.phase = .step 3 →
       if Config.hbmTrains s.freeCtr then ∃ t, exec .bootStep s = .next t ∧ t.trust.phase = .step 4 ∧
         t.host.ready.getLsbD 2 = true ∧ t.host.ready.getLsbD 3 = true ∧
           t.host.ready.getLsbD 6 = (s.host.ready.getLsbD 6 || s.link.devValid)
       else ∃ t, exec .bootStep s = .next t ∧ BootFailed s t 2) ∧
     ∀ n, k.phase = .step 4 → k.imageLen = some n →
       let v := viewImage k.image n
       let base := s.kernelBase
       if k.verify v 2 s.sourceNow then ∃ t, exec .bootStep s = .next t ∧ t.trust.phase = .step 5 ∧ on t 0x190 ∧
         (s.sourceNow ≠ 3 → ∀ i, i < v.length → Mem.read t.mem.bytes (base + i) = Mem.read k.image (4096 + i)) ∧
         (s.sourceNow = 3 → t.mem = s.mem) ∧
         ∀ cl, cl < Config.numClusters → (t.porter cl).pc = BitVec.ofNat 64 base ∧ (t.porter cl).mode = .machine
       else ∃ t, exec .bootStep s = .next t ∧ BootFailed s t 4) ∧
  ((∀ (s u : State) (c : Commit), HeadCommit s (regSpace + 0x100018) c u → bits (c.dword 0) 0 1 = 1 → s.trust.phase = .step 5 →
     ∃ t, exec .bootok s = .next t ∧ t.trust.phase = .booted ∧ t.host.fails = 0 ∧ t.host.ready = s.host.ready ||| 0x20 ∧
       (Tab.wf s.trust.runSvn = true → ∀ k v, Tab.get? s.trust.runSvn k = some v →
         Tab.getD t.trust.svn k 0 = max (Tab.getD s.trust.svn k 0) v) ∧
       t.mem = s.mem ∧ t.clusters = s.clusters) ∧
   ∀ s : State,
     (s.trust.phase = .step 5 → s.trust.phaseSince + 60000000 * Config.cyclesPerUs ≤ s.clock →
       ∃ t, exec .porterBootTimeout s = .next t ∧ BootFailed s t 5) ∧
     (∀ n, s.trust.phase = .step n → ∃ t, exec .watchdog s = .next t ∧ BootFailed s t 6) ∧
     (s.trust.phase = .step 1 ∨ s.trust.phase = .step 4 → s.trust.imageLen = .none →
       s.trust.phaseSince + 10000000 * Config.cyclesPerUs ≤ s.clock →
       if s.trust.phase = .step 1 ∧ s.trust.recovery = false ∧ s.host.bootcfg.getLsbD 11 = false ∧
           s.trust.sourceTry + 1 < bits s.host.bootcfg.toNat 8 3 then
         ∃ t, exec .imageSourceTimeout s = .next t ∧ t.trust.phase = .step 1 ∧ t.trust.sourceTry = s.trust.sourceTry + 1 ∧
           t.trust.phaseSince = s.clock ∧ t.trust.image = []
       else ∃ t, exec .imageSourceTimeout s = .next t ∧ BootFailed s t 3)) ∧
  ((∀ (s u : State) (c : Commit), HeadCommit s (windowSpace + 0x1FF008) c u → s.takesImage = true → s.host.busy = false →
     let n := c.dword 0 % 2 ^ 32
     let off := s.host.chunkOff.toNat
     exec .stagingChunklen s = .next { u with host :=
       if off % 4096 = 0 ∧ n ≠ 0 ∧ n % 4 = 0 ∧ n ≤ 0x1FF000 ∧ off + n ≤ 2 ^ 22 then
         { s.host with chunkLen := BitVec.ofNat 32 n, busy := true, taken := false, refused := false }
       else { s.host with refused := true, taken := false } }) ∧
   (∀ s : State, s.host.busy = true → ∃ t, exec .stagingChunkTaken s = .next t ∧ t.host = { s.host with busy := false, taken := true } ∧
     ∀ a, Mem.read t.trust.image a =
       if s.host.chunkOff.toNat ≤ a ∧ a < s.host.chunkOff.toNat + s.host.chunkLen.toNat then
         Mem.read s.host.window (a - s.host.chunkOff.toNat) else Mem.read s.trust.image a) ∧
   ∀ (s u : State) (c : Commit), HeadCommit s (windowSpace + 0x1FF010) c u → s.takesImage = true → s.host.busy = false →
     let n := c.dword 0 % 2 ^ 32
     (4096 ≤ n ∧ n ≤ 2 ^ 22 → exec .stagingTotal s = .next { u with
       host := { s.host with total := BitVec.ofNat 32 n }, trust := { s.trust with imageLen := some n } }) ∧
     (¬ (4096 ≤ n ∧ n ≤ 2 ^ 22) →
       if s.trust.phase = .step 1 ∧ s.trust.recovery = false ∧ s.host.bootcfg.getLsbD 11 = false ∧
           s.trust.sourceTry + 1 < bits s.host.bootcfg.toNat 8 3 then
         ∃ t, exec .stagingTotal s = .next t ∧ t.trust.phase = .step 1 ∧ t.trust.sourceTry = s.trust.sourceTry + 1 ∧ t.trust.image = []
       else ∃ t, exec .stagingTotal s = .next t ∧ BootFailed s t 3))

/-- R2: exactly 180 of the 192 cores are enabled at the factory, and no cluster has more than one that is not. Which they are, the
spec leaves open (log 17). -/
def Obligations.FactoryCoresAreEnabled : Prop :=
  ((List.range 192).filter fun c => Config.enabledCores.getLsbD c).length = 180 ∧
    ∀ cl i j, i < 4 → j < 4 → Config.enabledCores.getLsbD (4 * cl + i) = false → Config.enabledCores.getLsbD (4 * cl + j) = false →
      cl < Config.numClusters → i = j

/-- R389, R393: a request of the responder is lost before READY.SPDM, an error where the connection has not come so far, and else
answered, and takes the connection on; GET_MEASUREMENTS gives the eight registers (the codes are log 16's). R391, R401: inside a
session IDE_KM programs or clears the key of a stream; in minimal mode a key-slot command does what its conditions allow, fuses
read back where they hold, and its answer tells its status. R393: a write of MEXT extends MEAS4 to MEAS7 by the hash of the
register and 32 bytes; MEAS0 to MEAS3 cannot be extended. -/
def Obligations.RespondersAnswer : Prop :=
  (∀ (s : State) (m : List Byte) (rest : List (List Byte)), s.trust.inbox = m :: rest →
     let late : List SpdmState := [.algorithms, .exchanging, .session]
     ∀ r : Instr × SpdmCode × List SpdmState × Option SpdmState,
       r ∈ [(.getVersion, .getVersion, [.idle, .version, .capabilities, .algorithms, .exchanging, .session], some .version),
         (.getCapabilities, .getCapabilities, [.version], some .capabilities),
         (.negotiateAlgorithms, .negotiateAlgorithms, [.capabilities], some .algorithms),
         (.getDigests, .getDigests, late, .none), (.getCertificate, .getCertificate, late, .none), (.challenge, .challenge, late, .none),
         (.getMeasurements, .getMeasurements, late, .none), (.keyExchange, .keyExchange, [.algorithms], some .exchanging),
         (.finish, .finish, [.exchanging], some .session), (.endSession, .endSession, [.session], some .algorithms)] →
       m.getD 1 0 = r.2.1.request →
       let left (out : List (List Byte)) : State := { s with trust := { s.trust with inbox := rest, outbox := s.trust.outbox ++ out } }
       (s.spdmReady = false → exec r.1 s = .next (left [])) ∧
       (s.spdmReady = true → s.trust.spdm ∉ r.2.2.1 → exec r.1 s = .next (left [[0x13, 0x7F, 0x04, 0]])) ∧
       (s.spdmReady = true → s.trust.spdm ∈ r.2.2.1 → ∃ (t : State) (x y : Byte) (data : List Byte), exec r.1 s = .next t ∧
         t.trust = { s.trust with
           inbox := rest, spdm := r.2.2.2.getD s.trust.spdm, outbox := s.trust.outbox ++ [[0x13, r.2.1.response, x, y] ++ data] } ∧
         (r.1 = .getMeasurements → data = (List.range 8).flatMap fun i => hashBytes (Tab.getD s.trust.meas i 0)))) ∧
  (∀ (s : State) (m : List Byte) (rest : List (List Byte)), s.trust.inbox = m :: rest → s.spdmReady = true → s.trust.spdm = .session →
     m.getD 1 0 = 0xFE →
     let p := payload m
     let i := (p.getD 4 0).toNat
     let slot := (p.getD 1 0).toNat
     let hash : BitVec 256 := BitVec.ofNat 256 (natOfBytes ((p.drop 4).take 32))
     (p.head? = some 0 → i < 5 →
       (p.getD 1 0 = 2 → ∃ t, exec .ideKm s = .next t ∧ t.trust.inbox = rest ∧
         Tab.get? t.trust.ideKeys i = some (BitVec.ofNat 256 (natOfBytes ((p.drop 8).take 32)))) ∧
       (p.getD 1 0 = 5 → ∃ t, exec .ideKm s = .next t ∧ t.trust.inbox = rest ∧ Tab.get? t.trust.ideKeys i = .none)) ∧
     (s.trust.phase = .minimal →
       let told (t : State) (st : SlotStatus) : Prop := t.trust.inbox = rest ∧ ∃ x y, t.trust.outbox = s.trust.outbox ++
         [[0x13, 0x7E, x, y] ++ t.trust.slotResponse st]
       let ran (st : SlotStatus) : SlotStatus := if st = .ok then (if Config.fuseReads s.freeCtr then .ok else .fuseFail) else st
       (p.head? = some 1 → ∃ t, exec .enrol s = .next t ∧ told t (ran (s.trust.enrolStatus p)) ∧ t.trust.slots = s.trust.slots ∧
         (∀ j, j ≠ slot → Tab.get? t.trust.fuses j = Tab.get? s.trust.fuses j) ∧
         if s.trust.enrolStatus p = .ok then (Config.fuseReads s.freeCtr = true → Tab.getD t.trust.fuses slot 0 = hash)
         else t.trust.fuses = s.trust.fuses) ∧
       (p.head? = some 2 → ∃ t, exec .revoke s = .next t ∧ told t (ran (s.trust.revokeStatus p)) ∧ t.trust.fuses = s.trust.fuses ∧
         if s.trust.revokeStatus p = .ok ∧ Config.fuseReads s.freeCtr = true then t.trust.isRevoked slot = true
         else t.trust.fuseRevoked = s.trust.fuseRevoked) ∧
       (∀ o, p.head? = some o → o ≠ 0 → o ≠ 1 → o ≠ 2 → ∃ t, exec .query s = .next t ∧
         told t (if o = 3 then .ok else .badOp) ∧ t.trust.fuses = s.trust.fuses ∧ t.trust.fuseRevoked = s.trust.fuseRevoked))) ∧
  (∀ (s u : State) (c : Commit), HeadCommit s (regSpace + 0x120200) c u →
     let i := bits (c.dword 4) 0 3
     (i < 4 → exec .measurementExtend s = .next u) ∧
     (4 ≤ i → exec .measurementExtend s = .next { u with trust := { s.trust with
       meas := Tab.set s.trust.meas i (Config.sha3_256
         (hashBytes (Tab.getD s.trust.meas i 0) ++ bytesOfNat 32 (c.value % 2 ^ 256))) } }))

/-- R404, R405: outside the scrub an uncorrectable error marks the element in which it stands; a parity error of a cache empties the
line; a correctable error is entered once in a millisecond; the patrol enters a latent error as FRESH and leaves a mark; whether
the error stands after is left open (log 43). -/
def Obligations.ErrorsAreRecorded : Prop :=
  (∀ s : State, s.trust.phase ≠ .scrub →
    (∀ pa, s.inHbm pa = true → ∃ t, exec (.storageError (.hbm pa) true) s = .next t ∧ NatSet.has t.mem.latent (atomOf pa) = true ∧
      t.mem.bytes = s.mem.bytes ∧ t.gangs = s.gangs) ∧
    (∀ pa, ∃ t, exec (.storageError (.l2 pa) true) s = .next t ∧ NatSet.has t.mem.poison (atomOf pa) = true ∧ s.Still t ∧
      Logged s t .poisoned 1 (Config.homeSlice (lineOf pa)).val (32 * atomOf pa) 1 0) ∧
    (∀ blk odd off b, s.block? blk = some b → ∃ t b', exec (.storageError (.scratch blk odd off) true) s = .next t ∧
      t.block? blk = some b' ∧ NatSet.has (b'.half odd).latent (off / 8) = true ∧ (b'.half odd).mem = (b.half odd).mem) ∧
    (∀ k l r g, s.gang? k = some g → l < g.threads.length → r < 256 → ∃ t g', exec (.storageError (.vreg k l r) true) s = .next t ∧
      t.gang? k = some g' ∧ (g'.thread l).bad.getLsbD r = true ∧ (g'.thread l).v = (g.thread l).v) ∧
    (∀ k i r g, s.gang? k = some g → i < g.slices.length → r < 64 → ∃ t g', exec (.storageError (.sreg k i r) true) s = .next t ∧
      t.gang? k = some g' ∧ (g'.slice i).bad.getLsbD r = true ∧ (g'.slice i).s = (g.slice i).s) ∧
    (∀ k l r g, s.gang? k = some g → l < g.threads.length → r < 8 → ∃ t g', exec (.storageError (.pred k l r) true) s = .next t ∧
      t.gang? k = some g' ∧ (g'.thread l).badP.getLsbD r = true ∧ (g'.thread l).p = (g.thread l).p) ∧
    (∀ c i, ∃ t, exec (.storageError (.tile c i) true) s = .next t ∧
      (Tab.getD (t.core c).tiles i .fresh).poison = true ∧ s.Still t) ∧
    (∀ n m, s.mem.monitors[n]? = some m → ∃ t, exec (.storageError (.monitor n) true) s = .next t ∧
      t.mem.monitors.length + 1 = s.mem.monitors.length ∧ ∀ g, s.gang? m.key = some g → t.gang? m.key = some (g.latch m.slot)) ∧
    (∀ c line fatal, ∃ t, exec (.storageError (.cache c line) fatal) s = .next t ∧ Tab.get? (t.core c).l1 line = .none ∧
      (∀ w ∈ (t.core c).icache, lineOf w.1 ≠ line) ∧ t.mem = s.mem ∧ t.gangs = s.gangs) ∧
    (∀ c j fatal, ∃ t, exec (.storageError (.tlb c j) fatal) s = .next t ∧ (t.core c).tlb = (s.core c).tlb.eraseIdx j ∧ t.mem = s.mem) ∧
    (∃ t, exec (.storageError .mgmtSram true) s = .next t ∧ Logged s t .ueFresh 5 0 0 1 0 ∧ s.Still t) ∧
    (∀ pa,
      let i := (Config.homeSlice (lineOf pa)).val
      let n := Tab.getD s.rel.ceCount i 0 + 1
      (Tab.get? s.rel.ceLast i = .none → ∃ t, exec (.storageError (.hbm pa) false) s = .next t ∧ s.Still t ∧
        Tab.get? t.rel.ceLast i = some s.clock ∧ Logged s t .ce 0 i (32 * atomOf pa) n 0) ∧
      ∀ c, Tab.get? s.rel.ceLast i = some c → s.clock < c + 1000 * Config.cyclesPerUs →
        exec (.storageError (.hbm pa) false) s = .next { s with rel := { s.rel with ceCount := Tab.set s.rel.ceCount i n } })) ∧
  ∀ (s : State) (pa : Nat), s.inHbm pa = true → NatSet.has s.mem.poison (atomOf pa) = false → s.injects (32 * atomOf pa) 32 = false →
    NatSet.has s.mem.latent (atomOf pa) = true →
    ∃ t, exec (.patrolRead pa) s = .next t ∧ NatSet.has t.mem.latent (atomOf pa) = Config.errorStays s.freeCtr ∧
      t.mem.poison = s.mem.poison ∧
      Logged s t .ueFresh 0 (Config.homeSlice (lineOf pa)).val (32 * atomOf pa) 1 0 ∧ s.Still t

/-- R406, R411, R412, R415, R416: ERRTAIL consumes entries, ROWSPARE spares a row, CHRETIRE names a channel for the next reset,
ERRINJ arms and disarms. R357, R408, R409: SPARE and CORERETIRE empty a core; with its core empty, a steering completes and is
logged, and a retirement clears the core's storage and its ENCORE bit. -/
def Obligations.SparingAndRetirement : Prop :=
  (∀ (s u : State) (c : Commit) (reg : Nat), HeadCommit s (regSpace + reg) c u →
     let w := c.dword 0
     (reg = 0x123018 → exec .errtail s = .next { u with rel := { s.rel with errTail := bits w 0 16, errQuiet := false } }) ∧
     (reg = 0x123098 → s.inHbm (bits w 5 47 * 32) = true → ∃ t, exec .rowspare s = .next t ∧ t.commits = u.commits ∧ s.Still t ∧
       let pa := bits w 5 47 * 32
       let ch := (Config.hbmChannel (atomOf pa)).val
       let n := Tab.getD s.rel.spareRows ch 0
       Logged s t .rowSpared 0 (Config.homeSlice (lineOf pa)).val pa (if n < 64 then 1 else 0) 0 ∧
         (n < 64 → Tab.getD t.rel.spareRows ch 0 = n + 1 ∧ Tab.get? t.rel.rowEvents (Config.rowOfAddress pa) = .none)) ∧
     (reg = 0x1230A0 → ∃ t, exec .chretire s = .next t ∧ NatSet.has t.rel.nextRetired (bits w 0 8) = true ∧
       { t with rel := s.rel } = u) ∧
     (reg = 0x1230C0 → bits w 0 2 = 1 ∨ bits w 0 2 = 2 → ∃ t, exec .errinjArm s = .next t ∧ { t with rel := s.rel } = u ∧
       t.rel.inj.armed = true ∧ t.rel.inj.fired = false ∧ t.rel.inj.space = bits w 0 2 ∧ t.rel.inj.core = bits w 8 8 ∧
       t.rel.inj.addr = 8 * bits (c.dword 1) 3 (if bits w 0 2 = 2 then 17 else 49)) ∧
     (reg = 0x1230C0 → bits w 0 2 = 0 → exec .errinjDisarm s = .next { u with rel := { s.rel with
       inj := { s.rel.inj with armed := false, fired := false } } }) ∧
     (reg = 0x1230C0 → bits w 0 2 = 3 → exec .errinjDisarm s = .next u)) ∧
  ((∀ (s u : State) (c : Commit), HeadCommit s (regSpace + 0x123080) c u →
     let core := bits (c.dword 0) 0 8
     let quad := bits (c.dword 0) 8 2
     (s.rel.spareReq ≠ .none → exec .spare s = .next u) ∧
     (s.rel.spareReq = .none → s.coreOpen core = false ∨ NatSet.has s.rel.usedSpares (4 * core + quad) = true →
       exec .spare s = .next { u with rel := { s.rel with spareStat := 3 } }) ∧
     (s.rel.spareReq = .none → s.coreOpen core = true → NatSet.has s.rel.usedSpares (4 * core + quad) = false →
       (∀ b ∈ s.blocks, b.2.holds core = false) →
       exec .spare s = .next { u with rel := { s.rel with
         spareStat := 1, spareReq := some (core, quad, bits (c.dword 0) 10 3), retiring := NatSet.add s.rel.retiring core } })) ∧
   (∀ (s u : State) (c : Commit), HeadCommit s (regSpace + 0x123090) c u →
     let core := bits (c.dword 0) 0 8
     core < Config.numCores → NatSet.has s.rel.retiredCores core = false → (∀ b ∈ s.blocks, b.2.holds core = false) →
     exec .coreretire s = .next { u with rel := { s.rel with retiring := NatSet.add s.rel.retiring core } }) ∧
   (∀ (s : State) (core quad i : Nat), s.rel.spareReq = some (core, quad, i) → s.coreEmpty core = true →
     ∃ t, exec .spareSteerComplete s = .next t ∧ t.rel.spareReq = .none ∧ t.rel.spareStat = 2 ∧
       NatSet.has t.rel.usedSpares (4 * core + quad) = true ∧ NatSet.has t.rel.retiring core = false ∧
       Logged s t .spareSteered 2 core 0 1 0 ∧ s.Still t) ∧
   ∀ (s : State) (core : Nat), s.commits = [] → s.retirable = some core →
     ∃ t, exec .coreretire s = .next t ∧ t.core core = .fresh ∧ t.dist.encore = s.dist.encore &&& ~~~(BitVec.twoPow 192 core) ∧
       NatSet.has t.rel.retiredCores core = true ∧ NatSet.has t.rel.retiring core = false ∧ Logged s t .coreRetired 2 core 0 1 0 ∧
       s.Still t)
end

