-- ==== Sys2Proof/Laws/Tab.lean ====
section
/-! SUPPORT. Laws of the sparse tables, of memories and of sets of numbers: the canonical form is kept, a read after a write gives what
was written, and a write leaves every other key alone. -/

namespace Sys2Proof

/-- The canonical form as a proposition. -/
theorem tab_wf_iff {α : Type} (t : Tab α) : Tab.wf t = true ↔ t.Pairwise fun a b => a.1 < b.1 := by
  simp [Tab.wf]

theorem tab_get?_nil {α : Type} (k : Nat) : Tab.get? ([] : Tab α) k = none := rfl

theorem tab_get?_cons {α : Type} (c : Nat × α) (t : Tab α) (k : Nat) :
    Tab.get? (c :: t) k = if c.1 = k then some c.2 else Tab.get? t k := by
  by_cases h : c.1 = k <;> simp [Tab.get?, h]

theorem tab_get?_append {α : Type} (t u : Tab α) (k : Nat) :
    Tab.get? (t ++ u) k = (Tab.get? t k).or (Tab.get? u k) := by
  induction t with
  | nil => simp [Tab.get?]
  | cons c t ih => rw [List.cons_append, tab_get?_cons, tab_get?_cons, ih]; split <;> simp

theorem tab_get?_filter {α : Type} (t : Tab α) (p : Nat → Bool) (k : Nat) :
    Tab.get? (t.filter fun c => p c.1) k = if p k then Tab.get? t k else none := by
  induction t with
  | nil => simp [Tab.get?]
  | cons c t ih =>
    by_cases hp : p c.1 = true
    · have h : (c :: t).filter (fun c => p c.1) = c :: t.filter fun c => p c.1 := by simp [hp]
      rw [h, tab_get?_cons, tab_get?_cons, ih]
      by_cases hk : c.1 = k
      · subst hk; simp [hp]
      · simp [hk]
    · have h : (c :: t).filter (fun c => p c.1) = t.filter fun c => p c.1 := by simp [hp]
      rw [h, ih, tab_get?_cons]
      by_cases hk : c.1 = k
      · subst hk; simp [hp]
      · simp [hk]

theorem tab_get?_erase {α : Type} (t : Tab α) (k j : Nat) :
    Tab.get? (Tab.erase t k) j = if j = k then none else Tab.get? t j := by
  have h := tab_get?_filter t (fun n => n != k) j
  unfold Tab.erase
  rw [h]
  by_cases h : j = k <;> simp [h]

theorem tab_get?_set {α : Type} (t : Tab α) (k j : Nat) (v : α) :
    Tab.get? (Tab.set t k v) j = if j = k then some v else Tab.get? t j := by
  have h1 := tab_get?_filter t (fun n => decide (n < k)) j
  have h2 := tab_get?_filter t (fun n => decide (k < n)) j
  unfold Tab.set
  rw [tab_get?_append, tab_get?_cons, h1, h2]
  rcases Nat.lt_trichotomy j k with h | h | h
  · have : ¬ k < j := by omega
    have h3 : ¬ k = j := by omega
    have h4 : ¬ j = k := by omega
    simp [h, this, h3, h4]
  · subst h; simp
  · have : ¬ j < k := by omega
    have h3 : ¬ k = j := by omega
    have h4 : ¬ j = k := by omega
    simp [h, this, h3, h4]

theorem tab_getD_put {α : Type} [DecidableEq α] (t : Tab α) (d : α) (k j : Nat) (v : α) :
    Tab.getD (Tab.put t d k v) j d = if j = k then v else Tab.getD t j d := by
  unfold Tab.put Tab.getD
  by_cases hv : v = d
  · rw [if_pos hv, tab_get?_erase]
    by_cases h : j = k <;> simp [h, hv]
  · rw [if_neg hv, tab_get?_set]
    by_cases h : j = k <;> simp [h]

theorem tab_get?_update {α : Type} (t : Tab α) (k j : Nat) (f : α → α) :
    Tab.get? (Tab.update t k f) j = if j = k then (Tab.get? t j).map f else Tab.get? t j := by
  induction t with
  | nil => simp [Tab.update, Tab.get?]
  | cons c t ih =>
    have hc : Tab.update (c :: t) k f = (if c.1 = k then (c.1, f c.2) else c) :: Tab.update t k f := rfl
    rw [hc, tab_get?_cons, tab_get?_cons, ih]
    by_cases h1 : c.1 = k <;> by_cases h2 : c.1 = j
    · have : j = k := by omega
      simp [h1, h2, this]
    · have : ¬ k = j := by omega
      by_cases h3 : j = k
      · omega
      · simp [h1, this, h3]
    · have : ¬ j = k := by omega
      simp [h2, this]
    · by_cases h3 : j = k <;> simp [h1, h2, h3]

/-- What filtering keeps of the order of keys. -/
theorem tab_wf_filter {α : Type} {t : Tab α} (h : Tab.wf t = true) (p : Nat × α → Bool) : Tab.wf (t.filter p) = true := by
  rw [tab_wf_iff] at *
  exact h.filter p

theorem tab_wf_erase {α : Type} {t : Tab α} (h : Tab.wf t = true) (k : Nat) : Tab.wf (Tab.erase t k) = true :=
  tab_wf_filter h _

theorem tab_wf_set {α : Type} {t : Tab α} (h : Tab.wf t = true) (k : Nat) (v : α) : Tab.wf (Tab.set t k v) = true := by
  rw [tab_wf_iff] at *
  unfold Tab.set
  rw [List.pairwise_append, List.pairwise_cons]
  refine ⟨h.filter _, ⟨fun b hb => ?_, h.filter _⟩, fun a ha b hb => ?_⟩
  · simpa using (List.mem_filter.1 hb).2
  · have ha' : a.1 < k := by simpa using (List.mem_filter.1 ha).2
    rcases List.mem_cons.1 hb with rfl | hb
    · exact ha'
    · have hb' : k < b.1 := by simpa using (List.mem_filter.1 hb).2
      omega

theorem tab_wf_put {α : Type} [DecidableEq α] {t : Tab α} (h : Tab.wf t = true) (d : α) (k : Nat) (v : α) :
    Tab.wf (Tab.put t d k v) = true := by
  unfold Tab.put
  split
  · exact tab_wf_erase h k
  · exact tab_wf_set h k v

theorem tab_wf_update {α : Type} {t : Tab α} (h : Tab.wf t = true) (k : Nat) (f : α → α) :
    Tab.wf (Tab.update t k f) = true := by
  rw [tab_wf_iff] at *
  have hk : ∀ c : Nat × α, (if c.1 = k then (c.1, f c.2) else c).1 = c.1 := fun c => by split <;> rfl
  exact List.pairwise_map.2 (h.imp fun {a b} hab => by rw [hk, hk]; exact hab)

/-! ## Memories -/

theorem mem_wf_iff (m : Mem) : Mem.wf m = true ↔ Tab.wf m = true ∧ ∀ c ∈ m, c.2 ≠ Mem.unlisted := by
  simp [Mem.wf, List.all_eq_true]

theorem mem_wf_nil : Mem.wf [] = true := rfl

theorem mem_wf_filter {m : Mem} (h : Mem.wf m = true) (p : Nat × Byte → Bool) : Mem.wf (m.filter p) = true := by
  rw [mem_wf_iff] at *
  exact ⟨tab_wf_filter h.1 p, fun c hc => h.2 c (List.mem_filter.1 hc).1⟩

theorem mem_wf_write {m : Mem} (h : Mem.wf m = true) (a : Nat) (b : Byte) : Mem.wf (Mem.write m a b) = true := by
  rw [mem_wf_iff] at *
  refine ⟨tab_wf_put h.1 _ _ _, fun c hc => ?_⟩
  unfold Mem.write Tab.put at hc
  split at hc
  · exact h.2 c (List.mem_filter.1 hc).1
  · rename_i hb
    unfold Tab.set at hc
    rcases List.mem_append.1 hc with hc | hc
    · exact h.2 c (List.mem_filter.1 hc).1
    · rcases List.mem_cons.1 hc with rfl | hc
      · exact hb
      · exact h.2 c (List.mem_filter.1 hc).1

theorem mem_wf_writeN {m : Mem} (h : Mem.wf m = true) (a n x : Nat) : Mem.wf (Mem.writeN m a n x) = true := by
  unfold Mem.writeN
  generalize List.range n = l
  induction l generalizing m with
  | nil => exact h
  | cons i l ih => exact ih (mem_wf_write h _ _)

theorem mem_wf_writeBytes {m : Mem} (h : Mem.wf m = true) (a : Nat) (bs : List Byte) :
    Mem.wf (Mem.writeBytes m a bs) = true := by
  rw [mem_wf_iff, tab_wf_iff] at *
  obtain ⟨h1, h2⟩ := h
  unfold Mem.writeBytes
  have hb : ∀ c ∈ (bs.mapIdx fun i b => (a + i, b)).filter (fun c => c.2 != Mem.unlisted), a ≤ c.1 ∧ c.1 < a + bs.length := by
    intro c hc
    obtain ⟨i, hi, rfl⟩ := List.mem_mapIdx.1 (List.mem_filter.1 hc).1
    exact ⟨Nat.le_add_right _ _, by omega⟩
  refine ⟨?_, fun c hc => ?_⟩
  · rw [List.pairwise_append, List.pairwise_append]
    refine ⟨⟨h1.filter _, ?_, fun x hx y hy => ?_⟩, h1.filter _, fun x hx y hy => ?_⟩
    · refine List.Pairwise.filter _ ?_
      rw [List.pairwise_iff_getElem]
      intro i j hi hj hij
      simp; omega
    · have := (List.mem_filter.1 hx).2
      have := (hb y hy).1
      simp at *; omega
    · have hy' := (List.mem_filter.1 hy).2
      rcases List.mem_append.1 hx with hx | hx
      · have := (List.mem_filter.1 hx).2
        simp at *; omega
      · have := (hb x hx).2
        simp at *; omega
  · rcases List.mem_append.1 hc with hc | hc
    · rcases List.mem_append.1 hc with hc | hc
      · exact h2 c (List.mem_filter.1 hc).1
      · simpa using (List.mem_filter.1 hc).2
    · exact h2 c (List.mem_filter.1 hc).1

/-- A byte written is read; every other byte reads as before. -/
theorem mem_read_write (m : Mem) (a j : Nat) (b : Byte) : Mem.read (Mem.write m a b) j = if j = a then b else Mem.read m j :=
  tab_getD_put m Mem.unlisted a j b

/-- Every byte outside the bytes written reads as before. -/
theorem mem_read_writeN_outside (m : Mem) (a n x j : Nat) (h : j < a ∨ a + n ≤ j) :
    Mem.read (Mem.writeN m a n x) j = Mem.read m j := by
  unfold Mem.writeN
  have : ∀ (l : List Nat) (m : Mem), (∀ i ∈ l, i < n) →
      Mem.read (l.foldl (fun m i => Mem.write m (a + i) (BitVec.ofNat 8 (x / 256 ^ i))) m) j = Mem.read m j := by
    intro l
    induction l with
    | nil => intros; rfl
    | cons i l ih =>
      intro m hl
      rw [List.foldl_cons, ih _ fun k hk => hl k (List.mem_cons_of_mem _ hk), mem_read_write, if_neg]
      have := hl i List.mem_cons_self
      omega
  exact this _ m fun i hi => List.mem_range.1 hi

/-! ## Sets of numbers -/

theorem natSet_has_add (s : NatSet) (n k : Nat) : NatSet.has (NatSet.add s n) k = (NatSet.has s k || k == n) := by
  unfold NatSet.has NatSet.add
  rw [Bool.eq_iff_iff]
  simp only [List.contains_eq_mem, decide_eq_true_eq, List.mem_append, List.mem_cons, List.mem_filter, Bool.or_eq_true,
    beq_iff_eq]
  constructor
  · rintro (⟨h, -⟩ | h | ⟨h, -⟩)
    · exact Or.inl h
    · exact Or.inr h
    · exact Or.inl h
  · rintro (h | h)
    · rcases Nat.lt_trichotomy k n with g | g | g
      · exact Or.inl ⟨h, g⟩
      · exact Or.inr (Or.inl g)
      · exact Or.inr (Or.inr ⟨h, g⟩)
    · exact Or.inr (Or.inl h)

theorem natSet_has_del (s : NatSet) (n k : Nat) : NatSet.has (NatSet.del s n) k = (NatSet.has s k && k != n) := by
  unfold NatSet.has NatSet.del
  rw [Bool.eq_iff_iff]
  simp [List.mem_filter]

end Sys2Proof
end

