-- ==== Sys2Proof/Laws/State.lean ====
section
/-! SUPPORT. What each named update of the state gives at each field, one lemma a field and an update, and what the lookups read
after them. -/

namespace Sys2Proof.Machine

/-! ## setGang -/

@[simp] theorem State.setGang_agenda (s : State) (k : Nat) (x : Gang) : (s.setGang k x).agenda = s.agenda := rfl
@[simp] theorem State.setGang_freeCtr (s : State) (k : Nat) (x : Gang) : (s.setGang k x).freeCtr = s.freeCtr := rfl
@[simp] theorem State.setGang_seqCtr (s : State) (k : Nat) (x : Gang) : (s.setGang k x).seqCtr = s.seqCtr := rfl
@[simp] theorem State.setGang_clock (s : State) (k : Nat) (x : Gang) : (s.setGang k x).clock = s.clock := rfl
@[simp] theorem State.setGang_focus (s : State) (k : Nat) (x : Gang) : (s.setGang k x).focus = s.focus := rfl
@[simp] theorem State.setGang_commits (s : State) (k : Nat) (x : Gang) : (s.setGang k x).commits = s.commits := rfl
@[simp] theorem State.setGang_mem (s : State) (k : Nat) (x : Gang) : (s.setGang k x).mem = s.mem := rfl
@[simp] theorem State.setGang_gangs (s : State) (k : Nat) (x : Gang) : (s.setGang k x).gangs = Tab.set s.gangs k x := rfl
@[simp] theorem State.setGang_gens (s : State) (k : Nat) (x : Gang) : (s.setGang k x).gens = s.gens := rfl
@[simp] theorem State.setGang_blocks (s : State) (k : Nat) (x : Gang) : (s.setGang k x).blocks = s.blocks := rfl
@[simp] theorem State.setGang_cores (s : State) (k : Nat) (x : Gang) : (s.setGang k x).cores = s.cores := rfl
@[simp] theorem State.setGang_clusters (s : State) (k : Nat) (x : Gang) : (s.setGang k x).clusters = s.clusters := rfl
@[simp] theorem State.setGang_regions (s : State) (k : Nat) (x : Gang) : (s.setGang k x).regions = s.regions := rfl
@[simp] theorem State.setGang_kept (s : State) (k : Nat) (x : Gang) : (s.setGang k x).kept = s.kept := rfl
@[simp] theorem State.setGang_routerHold (s : State) (k : Nat) (x : Gang) : (s.setGang k x).routerHold = s.routerHold := rfl
@[simp] theorem State.setGang_dist (s : State) (k : Nat) (x : Gang) : (s.setGang k x).dist = s.dist := rfl
@[simp] theorem State.setGang_link (s : State) (k : Nat) (x : Gang) : (s.setGang k x).link = s.link := rfl
@[simp] theorem State.setGang_host (s : State) (k : Nat) (x : Gang) : (s.setGang k x).host = s.host := rfl
@[simp] theorem State.setGang_pairs (s : State) (k : Nat) (x : Gang) : (s.setGang k x).pairs = s.pairs := rfl
@[simp] theorem State.setGang_drives (s : State) (k : Nat) (x : Gang) : (s.setGang k x).drives = s.drives := rfl
@[simp] theorem State.setGang_trust (s : State) (k : Nat) (x : Gang) : (s.setGang k x).trust = s.trust := rfl
@[simp] theorem State.setGang_rel (s : State) (k : Nat) (x : Gang) : (s.setGang k x).rel = s.rel := rfl
@[simp] theorem State.setGang_turn (s : State) (k : Nat) (x : Gang) : (s.setGang k x).turn = s.turn := rfl
@[simp] theorem State.setGang_snaps (s : State) (k : Nat) (x : Gang) : (s.setGang k x).snaps = s.snaps := rfl
@[simp] theorem State.setGang_walking (s : State) (k : Nat) (x : Gang) : (s.setGang k x).walking = s.walking := rfl
@[simp] theorem State.setGang_walked (s : State) (k : Nat) (x : Gang) : (s.setGang k x).walked = s.walked := rfl

/-! ## modGang -/

@[simp] theorem State.modGang_agenda (s : State) (k : Nat) (f : Gang → Gang) : (s.modGang k f).agenda = s.agenda := rfl
@[simp] theorem State.modGang_freeCtr (s : State) (k : Nat) (f : Gang → Gang) : (s.modGang k f).freeCtr = s.freeCtr := rfl
@[simp] theorem State.modGang_seqCtr (s : State) (k : Nat) (f : Gang → Gang) : (s.modGang k f).seqCtr = s.seqCtr := rfl
@[simp] theorem State.modGang_clock (s : State) (k : Nat) (f : Gang → Gang) : (s.modGang k f).clock = s.clock := rfl
@[simp] theorem State.modGang_focus (s : State) (k : Nat) (f : Gang → Gang) : (s.modGang k f).focus = s.focus := rfl
@[simp] theorem State.modGang_commits (s : State) (k : Nat) (f : Gang → Gang) : (s.modGang k f).commits = s.commits := rfl
@[simp] theorem State.modGang_mem (s : State) (k : Nat) (f : Gang → Gang) : (s.modGang k f).mem = s.mem := rfl
@[simp] theorem State.modGang_gangs (s : State) (k : Nat) (f : Gang → Gang) : (s.modGang k f).gangs = Tab.update s.gangs k f := rfl
@[simp] theorem State.modGang_gens (s : State) (k : Nat) (f : Gang → Gang) : (s.modGang k f).gens = s.gens := rfl
@[simp] theorem State.modGang_blocks (s : State) (k : Nat) (f : Gang → Gang) : (s.modGang k f).blocks = s.blocks := rfl
@[simp] theorem State.modGang_cores (s : State) (k : Nat) (f : Gang → Gang) : (s.modGang k f).cores = s.cores := rfl
@[simp] theorem State.modGang_clusters (s : State) (k : Nat) (f : Gang → Gang) : (s.modGang k f).clusters = s.clusters := rfl
@[simp] theorem State.modGang_regions (s : State) (k : Nat) (f : Gang → Gang) : (s.modGang k f).regions = s.regions := rfl
@[simp] theorem State.modGang_kept (s : State) (k : Nat) (f : Gang → Gang) : (s.modGang k f).kept = s.kept := rfl
@[simp] theorem State.modGang_routerHold (s : State) (k : Nat) (f : Gang → Gang) : (s.modGang k f).routerHold = s.routerHold := rfl
@[simp] theorem State.modGang_dist (s : State) (k : Nat) (f : Gang → Gang) : (s.modGang k f).dist = s.dist := rfl
@[simp] theorem State.modGang_link (s : State) (k : Nat) (f : Gang → Gang) : (s.modGang k f).link = s.link := rfl
@[simp] theorem State.modGang_host (s : State) (k : Nat) (f : Gang → Gang) : (s.modGang k f).host = s.host := rfl
@[simp] theorem State.modGang_pairs (s : State) (k : Nat) (f : Gang → Gang) : (s.modGang k f).pairs = s.pairs := rfl
@[simp] theorem State.modGang_drives (s : State) (k : Nat) (f : Gang → Gang) : (s.modGang k f).drives = s.drives := rfl
@[simp] theorem State.modGang_trust (s : State) (k : Nat) (f : Gang → Gang) : (s.modGang k f).trust = s.trust := rfl
@[simp] theorem State.modGang_rel (s : State) (k : Nat) (f : Gang → Gang) : (s.modGang k f).rel = s.rel := rfl
@[simp] theorem State.modGang_turn (s : State) (k : Nat) (f : Gang → Gang) : (s.modGang k f).turn = s.turn := rfl
@[simp] theorem State.modGang_snaps (s : State) (k : Nat) (f : Gang → Gang) : (s.modGang k f).snaps = s.snaps := rfl
@[simp] theorem State.modGang_walking (s : State) (k : Nat) (f : Gang → Gang) : (s.modGang k f).walking = s.walking := rfl
@[simp] theorem State.modGang_walked (s : State) (k : Nat) (f : Gang → Gang) : (s.modGang k f).walked = s.walked := rfl

/-! ## setCore -/

@[simp] theorem State.setCore_agenda (s : State) (k : Nat) (x : CoreState) : (s.setCore k x).agenda = s.agenda := rfl
@[simp] theorem State.setCore_freeCtr (s : State) (k : Nat) (x : CoreState) : (s.setCore k x).freeCtr = s.freeCtr := rfl
@[simp] theorem State.setCore_seqCtr (s : State) (k : Nat) (x : CoreState) : (s.setCore k x).seqCtr = s.seqCtr := rfl
@[simp] theorem State.setCore_clock (s : State) (k : Nat) (x : CoreState) : (s.setCore k x).clock = s.clock := rfl
@[simp] theorem State.setCore_focus (s : State) (k : Nat) (x : CoreState) : (s.setCore k x).focus = s.focus := rfl
@[simp] theorem State.setCore_commits (s : State) (k : Nat) (x : CoreState) : (s.setCore k x).commits = s.commits := rfl
@[simp] theorem State.setCore_mem (s : State) (k : Nat) (x : CoreState) : (s.setCore k x).mem = s.mem := rfl
@[simp] theorem State.setCore_gangs (s : State) (k : Nat) (x : CoreState) : (s.setCore k x).gangs = s.gangs := rfl
@[simp] theorem State.setCore_gens (s : State) (k : Nat) (x : CoreState) : (s.setCore k x).gens = s.gens := rfl
@[simp] theorem State.setCore_blocks (s : State) (k : Nat) (x : CoreState) : (s.setCore k x).blocks = s.blocks := rfl
@[simp] theorem State.setCore_cores (s : State) (k : Nat) (x : CoreState) : (s.setCore k x).cores = Tab.set s.cores k x := rfl
@[simp] theorem State.setCore_clusters (s : State) (k : Nat) (x : CoreState) : (s.setCore k x).clusters = s.clusters := rfl
@[simp] theorem State.setCore_regions (s : State) (k : Nat) (x : CoreState) : (s.setCore k x).regions = s.regions := rfl
@[simp] theorem State.setCore_kept (s : State) (k : Nat) (x : CoreState) : (s.setCore k x).kept = s.kept := rfl
@[simp] theorem State.setCore_routerHold (s : State) (k : Nat) (x : CoreState) : (s.setCore k x).routerHold = s.routerHold := rfl
@[simp] theorem State.setCore_dist (s : State) (k : Nat) (x : CoreState) : (s.setCore k x).dist = s.dist := rfl
@[simp] theorem State.setCore_link (s : State) (k : Nat) (x : CoreState) : (s.setCore k x).link = s.link := rfl
@[simp] theorem State.setCore_host (s : State) (k : Nat) (x : CoreState) : (s.setCore k x).host = s.host := rfl
@[simp] theorem State.setCore_pairs (s : State) (k : Nat) (x : CoreState) : (s.setCore k x).pairs = s.pairs := rfl
@[simp] theorem State.setCore_drives (s : State) (k : Nat) (x : CoreState) : (s.setCore k x).drives = s.drives := rfl
@[simp] theorem State.setCore_trust (s : State) (k : Nat) (x : CoreState) : (s.setCore k x).trust = s.trust := rfl
@[simp] theorem State.setCore_rel (s : State) (k : Nat) (x : CoreState) : (s.setCore k x).rel = s.rel := rfl
@[simp] theorem State.setCore_turn (s : State) (k : Nat) (x : CoreState) : (s.setCore k x).turn = s.turn := rfl
@[simp] theorem State.setCore_snaps (s : State) (k : Nat) (x : CoreState) : (s.setCore k x).snaps = s.snaps := rfl
@[simp] theorem State.setCore_walking (s : State) (k : Nat) (x : CoreState) : (s.setCore k x).walking = s.walking := rfl
@[simp] theorem State.setCore_walked (s : State) (k : Nat) (x : CoreState) : (s.setCore k x).walked = s.walked := rfl

/-! ## modCore -/

@[simp] theorem State.modCore_agenda (s : State) (k : Nat) (f : CoreState → CoreState) : (s.modCore k f).agenda = s.agenda := rfl
@[simp] theorem State.modCore_freeCtr (s : State) (k : Nat) (f : CoreState → CoreState) : (s.modCore k f).freeCtr = s.freeCtr := rfl
@[simp] theorem State.modCore_seqCtr (s : State) (k : Nat) (f : CoreState → CoreState) : (s.modCore k f).seqCtr = s.seqCtr := rfl
@[simp] theorem State.modCore_clock (s : State) (k : Nat) (f : CoreState → CoreState) : (s.modCore k f).clock = s.clock := rfl
@[simp] theorem State.modCore_focus (s : State) (k : Nat) (f : CoreState → CoreState) : (s.modCore k f).focus = s.focus := rfl
@[simp] theorem State.modCore_commits (s : State) (k : Nat) (f : CoreState → CoreState) : (s.modCore k f).commits = s.commits := rfl
@[simp] theorem State.modCore_mem (s : State) (k : Nat) (f : CoreState → CoreState) : (s.modCore k f).mem = s.mem := rfl
@[simp] theorem State.modCore_gangs (s : State) (k : Nat) (f : CoreState → CoreState) : (s.modCore k f).gangs = s.gangs := rfl
@[simp] theorem State.modCore_gens (s : State) (k : Nat) (f : CoreState → CoreState) : (s.modCore k f).gens = s.gens := rfl
@[simp] theorem State.modCore_blocks (s : State) (k : Nat) (f : CoreState → CoreState) : (s.modCore k f).blocks = s.blocks := rfl
@[simp] theorem State.modCore_cores (s : State) (k : Nat) (f : CoreState →
  CoreState) : (s.modCore k f).cores = Tab.set s.cores k (f (s.core k)) := rfl
@[simp] theorem State.modCore_clusters (s : State) (k : Nat) (f : CoreState → CoreState) : (s.modCore k f).clusters = s.clusters := rfl
@[simp] theorem State.modCore_regions (s : State) (k : Nat) (f : CoreState → CoreState) : (s.modCore k f).regions = s.regions := rfl
@[simp] theorem State.modCore_kept (s : State) (k : Nat) (f : CoreState → CoreState) : (s.modCore k f).kept = s.kept := rfl
@[simp] theorem State.modCore_routerHold (s : State) (k : Nat) (f : CoreState →
  CoreState) : (s.modCore k f).routerHold = s.routerHold := rfl
@[simp] theorem State.modCore_dist (s : State) (k : Nat) (f : CoreState → CoreState) : (s.modCore k f).dist = s.dist := rfl
@[simp] theorem State.modCore_link (s : State) (k : Nat) (f : CoreState → CoreState) : (s.modCore k f).link = s.link := rfl
@[simp] theorem State.modCore_host (s : State) (k : Nat) (f : CoreState → CoreState) : (s.modCore k f).host = s.host := rfl
@[simp] theorem State.modCore_pairs (s : State) (k : Nat) (f : CoreState → CoreState) : (s.modCore k f).pairs = s.pairs := rfl
@[simp] theorem State.modCore_drives (s : State) (k : Nat) (f : CoreState → CoreState) : (s.modCore k f).drives = s.drives := rfl
@[simp] theorem State.modCore_trust (s : State) (k : Nat) (f : CoreState → CoreState) : (s.modCore k f).trust = s.trust := rfl
@[simp] theorem State.modCore_rel (s : State) (k : Nat) (f : CoreState → CoreState) : (s.modCore k f).rel = s.rel := rfl
@[simp] theorem State.modCore_turn (s : State) (k : Nat) (f : CoreState → CoreState) : (s.modCore k f).turn = s.turn := rfl
@[simp] theorem State.modCore_snaps (s : State) (k : Nat) (f : CoreState → CoreState) : (s.modCore k f).snaps = s.snaps := rfl
@[simp] theorem State.modCore_walking (s : State) (k : Nat) (f : CoreState → CoreState) : (s.modCore k f).walking = s.walking := rfl
@[simp] theorem State.modCore_walked (s : State) (k : Nat) (f : CoreState → CoreState) : (s.modCore k f).walked = s.walked := rfl

/-! ## setCluster -/

@[simp] theorem State.setCluster_agenda (s : State) (k : Nat) (x : Cluster) : (s.setCluster k x).agenda = s.agenda := rfl
@[simp] theorem State.setCluster_freeCtr (s : State) (k : Nat) (x : Cluster) : (s.setCluster k x).freeCtr = s.freeCtr := rfl
@[simp] theorem State.setCluster_seqCtr (s : State) (k : Nat) (x : Cluster) : (s.setCluster k x).seqCtr = s.seqCtr := rfl
@[simp] theorem State.setCluster_clock (s : State) (k : Nat) (x : Cluster) : (s.setCluster k x).clock = s.clock := rfl
@[simp] theorem State.setCluster_focus (s : State) (k : Nat) (x : Cluster) : (s.setCluster k x).focus = s.focus := rfl
@[simp] theorem State.setCluster_commits (s : State) (k : Nat) (x : Cluster) : (s.setCluster k x).commits = s.commits := rfl
@[simp] theorem State.setCluster_mem (s : State) (k : Nat) (x : Cluster) : (s.setCluster k x).mem = s.mem := rfl
@[simp] theorem State.setCluster_gangs (s : State) (k : Nat) (x : Cluster) : (s.setCluster k x).gangs = s.gangs := rfl
@[simp] theorem State.setCluster_gens (s : State) (k : Nat) (x : Cluster) : (s.setCluster k x).gens = s.gens := rfl
@[simp] theorem State.setCluster_blocks (s : State) (k : Nat) (x : Cluster) : (s.setCluster k x).blocks = s.blocks := rfl
@[simp] theorem State.setCluster_cores (s : State) (k : Nat) (x : Cluster) : (s.setCluster k x).cores = s.cores := rfl
@[simp] theorem State.setCluster_clusters (s : State) (k : Nat) (x : Cluster) : (s.setCluster k x).clusters = Tab.set s.clusters k x := rfl
@[simp] theorem State.setCluster_regions (s : State) (k : Nat) (x : Cluster) : (s.setCluster k x).regions = s.regions := rfl
@[simp] theorem State.setCluster_kept (s : State) (k : Nat) (x : Cluster) : (s.setCluster k x).kept = s.kept := rfl
@[simp] theorem State.setCluster_routerHold (s : State) (k : Nat) (x : Cluster) : (s.setCluster k x).routerHold = s.routerHold := rfl
@[simp] theorem State.setCluster_dist (s : State) (k : Nat) (x : Cluster) : (s.setCluster k x).dist = s.dist := rfl
@[simp] theorem State.setCluster_link (s : State) (k : Nat) (x : Cluster) : (s.setCluster k x).link = s.link := rfl
@[simp] theorem State.setCluster_host (s : State) (k : Nat) (x : Cluster) : (s.setCluster k x).host = s.host := rfl
@[simp] theorem State.setCluster_pairs (s : State) (k : Nat) (x : Cluster) : (s.setCluster k x).pairs = s.pairs := rfl
@[simp] theorem State.setCluster_drives (s : State) (k : Nat) (x : Cluster) : (s.setCluster k x).drives = s.drives := rfl
@[simp] theorem State.setCluster_trust (s : State) (k : Nat) (x : Cluster) : (s.setCluster k x).trust = s.trust := rfl
@[simp] theorem State.setCluster_rel (s : State) (k : Nat) (x : Cluster) : (s.setCluster k x).rel = s.rel := rfl
@[simp] theorem State.setCluster_turn (s : State) (k : Nat) (x : Cluster) : (s.setCluster k x).turn = s.turn := rfl
@[simp] theorem State.setCluster_snaps (s : State) (k : Nat) (x : Cluster) : (s.setCluster k x).snaps = s.snaps := rfl
@[simp] theorem State.setCluster_walking (s : State) (k : Nat) (x : Cluster) : (s.setCluster k x).walking = s.walking := rfl
@[simp] theorem State.setCluster_walked (s : State) (k : Nat) (x : Cluster) : (s.setCluster k x).walked = s.walked := rfl

/-! ## modCluster -/

@[simp] theorem State.modCluster_agenda (s : State) (k : Nat) (f : Cluster → Cluster) : (s.modCluster k f).agenda = s.agenda := rfl
@[simp] theorem State.modCluster_freeCtr (s : State) (k : Nat) (f : Cluster → Cluster) : (s.modCluster k f).freeCtr = s.freeCtr := rfl
@[simp] theorem State.modCluster_seqCtr (s : State) (k : Nat) (f : Cluster → Cluster) : (s.modCluster k f).seqCtr = s.seqCtr := rfl
@[simp] theorem State.modCluster_clock (s : State) (k : Nat) (f : Cluster → Cluster) : (s.modCluster k f).clock = s.clock := rfl
@[simp] theorem State.modCluster_focus (s : State) (k : Nat) (f : Cluster → Cluster) : (s.modCluster k f).focus = s.focus := rfl
@[simp] theorem State.modCluster_commits (s : State) (k : Nat) (f : Cluster → Cluster) : (s.modCluster k f).commits = s.commits := rfl
@[simp] theorem State.modCluster_mem (s : State) (k : Nat) (f : Cluster → Cluster) : (s.modCluster k f).mem = s.mem := rfl
@[simp] theorem State.modCluster_gangs (s : State) (k : Nat) (f : Cluster → Cluster) : (s.modCluster k f).gangs = s.gangs := rfl
@[simp] theorem State.modCluster_gens (s : State) (k : Nat) (f : Cluster → Cluster) : (s.modCluster k f).gens = s.gens := rfl
@[simp] theorem State.modCluster_blocks (s : State) (k : Nat) (f : Cluster → Cluster) : (s.modCluster k f).blocks = s.blocks := rfl
@[simp] theorem State.modCluster_cores (s : State) (k : Nat) (f : Cluster → Cluster) : (s.modCluster k f).cores = s.cores := rfl
@[simp] theorem State.modCluster_clusters (s : State) (k : Nat) (f : Cluster →
  Cluster) : (s.modCluster k f).clusters = Tab.set s.clusters k (f (s.cluster k)) := rfl
@[simp] theorem State.modCluster_regions (s : State) (k : Nat) (f : Cluster → Cluster) : (s.modCluster k f).regions = s.regions := rfl
@[simp] theorem State.modCluster_kept (s : State) (k : Nat) (f : Cluster → Cluster) : (s.modCluster k f).kept = s.kept := rfl
@[simp] theorem State.modCluster_routerHold (s : State) (k : Nat) (f : Cluster →
  Cluster) : (s.modCluster k f).routerHold = s.routerHold := rfl
@[simp] theorem State.modCluster_dist (s : State) (k : Nat) (f : Cluster → Cluster) : (s.modCluster k f).dist = s.dist := rfl
@[simp] theorem State.modCluster_link (s : State) (k : Nat) (f : Cluster → Cluster) : (s.modCluster k f).link = s.link := rfl
@[simp] theorem State.modCluster_host (s : State) (k : Nat) (f : Cluster → Cluster) : (s.modCluster k f).host = s.host := rfl
@[simp] theorem State.modCluster_pairs (s : State) (k : Nat) (f : Cluster → Cluster) : (s.modCluster k f).pairs = s.pairs := rfl
@[simp] theorem State.modCluster_drives (s : State) (k : Nat) (f : Cluster → Cluster) : (s.modCluster k f).drives = s.drives := rfl
@[simp] theorem State.modCluster_trust (s : State) (k : Nat) (f : Cluster → Cluster) : (s.modCluster k f).trust = s.trust := rfl
@[simp] theorem State.modCluster_rel (s : State) (k : Nat) (f : Cluster → Cluster) : (s.modCluster k f).rel = s.rel := rfl
@[simp] theorem State.modCluster_turn (s : State) (k : Nat) (f : Cluster → Cluster) : (s.modCluster k f).turn = s.turn := rfl
@[simp] theorem State.modCluster_snaps (s : State) (k : Nat) (f : Cluster → Cluster) : (s.modCluster k f).snaps = s.snaps := rfl
@[simp] theorem State.modCluster_walking (s : State) (k : Nat) (f : Cluster → Cluster) : (s.modCluster k f).walking = s.walking := rfl
@[simp] theorem State.modCluster_walked (s : State) (k : Nat) (f : Cluster → Cluster) : (s.modCluster k f).walked = s.walked := rfl

/-! ## setBlock -/

@[simp] theorem State.setBlock_agenda (s : State) (k : Nat) (x : Block) : (s.setBlock k x).agenda = s.agenda := rfl
@[simp] theorem State.setBlock_freeCtr (s : State) (k : Nat) (x : Block) : (s.setBlock k x).freeCtr = s.freeCtr := rfl
@[simp] theorem State.setBlock_seqCtr (s : State) (k : Nat) (x : Block) : (s.setBlock k x).seqCtr = s.seqCtr := rfl
@[simp] theorem State.setBlock_clock (s : State) (k : Nat) (x : Block) : (s.setBlock k x).clock = s.clock := rfl
@[simp] theorem State.setBlock_focus (s : State) (k : Nat) (x : Block) : (s.setBlock k x).focus = s.focus := rfl
@[simp] theorem State.setBlock_commits (s : State) (k : Nat) (x : Block) : (s.setBlock k x).commits = s.commits := rfl
@[simp] theorem State.setBlock_mem (s : State) (k : Nat) (x : Block) : (s.setBlock k x).mem = s.mem := rfl
@[simp] theorem State.setBlock_gangs (s : State) (k : Nat) (x : Block) : (s.setBlock k x).gangs = s.gangs := rfl
@[simp] theorem State.setBlock_gens (s : State) (k : Nat) (x : Block) : (s.setBlock k x).gens = s.gens := rfl
@[simp] theorem State.setBlock_blocks (s : State) (k : Nat) (x : Block) : (s.setBlock k x).blocks = Tab.set s.blocks k x := rfl
@[simp] theorem State.setBlock_cores (s : State) (k : Nat) (x : Block) : (s.setBlock k x).cores = s.cores := rfl
@[simp] theorem State.setBlock_clusters (s : State) (k : Nat) (x : Block) : (s.setBlock k x).clusters = s.clusters := rfl
@[simp] theorem State.setBlock_regions (s : State) (k : Nat) (x : Block) : (s.setBlock k x).regions = s.regions := rfl
@[simp] theorem State.setBlock_kept (s : State) (k : Nat) (x : Block) : (s.setBlock k x).kept = s.kept := rfl
@[simp] theorem State.setBlock_routerHold (s : State) (k : Nat) (x : Block) : (s.setBlock k x).routerHold = s.routerHold := rfl
@[simp] theorem State.setBlock_dist (s : State) (k : Nat) (x : Block) : (s.setBlock k x).dist = s.dist := rfl
@[simp] theorem State.setBlock_link (s : State) (k : Nat) (x : Block) : (s.setBlock k x).link = s.link := rfl
@[simp] theorem State.setBlock_host (s : State) (k : Nat) (x : Block) : (s.setBlock k x).host = s.host := rfl
@[simp] theorem State.setBlock_pairs (s : State) (k : Nat) (x : Block) : (s.setBlock k x).pairs = s.pairs := rfl
@[simp] theorem State.setBlock_drives (s : State) (k : Nat) (x : Block) : (s.setBlock k x).drives = s.drives := rfl
@[simp] theorem State.setBlock_trust (s : State) (k : Nat) (x : Block) : (s.setBlock k x).trust = s.trust := rfl
@[simp] theorem State.setBlock_rel (s : State) (k : Nat) (x : Block) : (s.setBlock k x).rel = s.rel := rfl
@[simp] theorem State.setBlock_turn (s : State) (k : Nat) (x : Block) : (s.setBlock k x).turn = s.turn := rfl
@[simp] theorem State.setBlock_snaps (s : State) (k : Nat) (x : Block) : (s.setBlock k x).snaps = s.snaps := rfl
@[simp] theorem State.setBlock_walking (s : State) (k : Nat) (x : Block) : (s.setBlock k x).walking = s.walking := rfl
@[simp] theorem State.setBlock_walked (s : State) (k : Nat) (x : Block) : (s.setBlock k x).walked = s.walked := rfl

/-! ## modBlock -/

@[simp] theorem State.modBlock_agenda (s : State) (k : Nat) (f : Block → Block) : (s.modBlock k f).agenda = s.agenda := rfl
@[simp] theorem State.modBlock_freeCtr (s : State) (k : Nat) (f : Block → Block) : (s.modBlock k f).freeCtr = s.freeCtr := rfl
@[simp] theorem State.modBlock_seqCtr (s : State) (k : Nat) (f : Block → Block) : (s.modBlock k f).seqCtr = s.seqCtr := rfl
@[simp] theorem State.modBlock_clock (s : State) (k : Nat) (f : Block → Block) : (s.modBlock k f).clock = s.clock := rfl
@[simp] theorem State.modBlock_focus (s : State) (k : Nat) (f : Block → Block) : (s.modBlock k f).focus = s.focus := rfl
@[simp] theorem State.modBlock_commits (s : State) (k : Nat) (f : Block → Block) : (s.modBlock k f).commits = s.commits := rfl
@[simp] theorem State.modBlock_mem (s : State) (k : Nat) (f : Block → Block) : (s.modBlock k f).mem = s.mem := rfl
@[simp] theorem State.modBlock_gangs (s : State) (k : Nat) (f : Block → Block) : (s.modBlock k f).gangs = s.gangs := rfl
@[simp] theorem State.modBlock_gens (s : State) (k : Nat) (f : Block → Block) : (s.modBlock k f).gens = s.gens := rfl
@[simp] theorem State.modBlock_blocks (s : State) (k : Nat) (f : Block → Block) : (s.modBlock k f).blocks = Tab.update s.blocks k f := rfl
@[simp] theorem State.modBlock_cores (s : State) (k : Nat) (f : Block → Block) : (s.modBlock k f).cores = s.cores := rfl
@[simp] theorem State.modBlock_clusters (s : State) (k : Nat) (f : Block → Block) : (s.modBlock k f).clusters = s.clusters := rfl
@[simp] theorem State.modBlock_regions (s : State) (k : Nat) (f : Block → Block) : (s.modBlock k f).regions = s.regions := rfl
@[simp] theorem State.modBlock_kept (s : State) (k : Nat) (f : Block → Block) : (s.modBlock k f).kept = s.kept := rfl
@[simp] theorem State.modBlock_routerHold (s : State) (k : Nat) (f : Block → Block) : (s.modBlock k f).routerHold = s.routerHold := rfl
@[simp] theorem State.modBlock_dist (s : State) (k : Nat) (f : Block → Block) : (s.modBlock k f).dist = s.dist := rfl
@[simp] theorem State.modBlock_link (s : State) (k : Nat) (f : Block → Block) : (s.modBlock k f).link = s.link := rfl
@[simp] theorem State.modBlock_host (s : State) (k : Nat) (f : Block → Block) : (s.modBlock k f).host = s.host := rfl
@[simp] theorem State.modBlock_pairs (s : State) (k : Nat) (f : Block → Block) : (s.modBlock k f).pairs = s.pairs := rfl
@[simp] theorem State.modBlock_drives (s : State) (k : Nat) (f : Block → Block) : (s.modBlock k f).drives = s.drives := rfl
@[simp] theorem State.modBlock_trust (s : State) (k : Nat) (f : Block → Block) : (s.modBlock k f).trust = s.trust := rfl
@[simp] theorem State.modBlock_rel (s : State) (k : Nat) (f : Block → Block) : (s.modBlock k f).rel = s.rel := rfl
@[simp] theorem State.modBlock_turn (s : State) (k : Nat) (f : Block → Block) : (s.modBlock k f).turn = s.turn := rfl
@[simp] theorem State.modBlock_snaps (s : State) (k : Nat) (f : Block → Block) : (s.modBlock k f).snaps = s.snaps := rfl
@[simp] theorem State.modBlock_walking (s : State) (k : Nat) (f : Block → Block) : (s.modBlock k f).walking = s.walking := rfl
@[simp] theorem State.modBlock_walked (s : State) (k : Nat) (f : Block → Block) : (s.modBlock k f).walked = s.walked := rfl

/-! ## modMem -/

@[simp] theorem State.modMem_agenda (s : State) (f : MemState → MemState) : (s.modMem f).agenda = s.agenda := rfl
@[simp] theorem State.modMem_freeCtr (s : State) (f : MemState → MemState) : (s.modMem f).freeCtr = s.freeCtr := rfl
@[simp] theorem State.modMem_seqCtr (s : State) (f : MemState → MemState) : (s.modMem f).seqCtr = s.seqCtr := rfl
@[simp] theorem State.modMem_clock (s : State) (f : MemState → MemState) : (s.modMem f).clock = s.clock := rfl
@[simp] theorem State.modMem_focus (s : State) (f : MemState → MemState) : (s.modMem f).focus = s.focus := rfl
@[simp] theorem State.modMem_commits (s : State) (f : MemState → MemState) : (s.modMem f).commits = s.commits := rfl
@[simp] theorem State.modMem_mem (s : State) (f : MemState → MemState) : (s.modMem f).mem = f s.mem := rfl
@[simp] theorem State.modMem_gangs (s : State) (f : MemState → MemState) : (s.modMem f).gangs = s.gangs := rfl
@[simp] theorem State.modMem_gens (s : State) (f : MemState → MemState) : (s.modMem f).gens = s.gens := rfl
@[simp] theorem State.modMem_blocks (s : State) (f : MemState → MemState) : (s.modMem f).blocks = s.blocks := rfl
@[simp] theorem State.modMem_cores (s : State) (f : MemState → MemState) : (s.modMem f).cores = s.cores := rfl
@[simp] theorem State.modMem_clusters (s : State) (f : MemState → MemState) : (s.modMem f).clusters = s.clusters := rfl
@[simp] theorem State.modMem_regions (s : State) (f : MemState → MemState) : (s.modMem f).regions = s.regions := rfl
@[simp] theorem State.modMem_kept (s : State) (f : MemState → MemState) : (s.modMem f).kept = s.kept := rfl
@[simp] theorem State.modMem_routerHold (s : State) (f : MemState → MemState) : (s.modMem f).routerHold = s.routerHold := rfl
@[simp] theorem State.modMem_dist (s : State) (f : MemState → MemState) : (s.modMem f).dist = s.dist := rfl
@[simp] theorem State.modMem_link (s : State) (f : MemState → MemState) : (s.modMem f).link = s.link := rfl
@[simp] theorem State.modMem_host (s : State) (f : MemState → MemState) : (s.modMem f).host = s.host := rfl
@[simp] theorem State.modMem_pairs (s : State) (f : MemState → MemState) : (s.modMem f).pairs = s.pairs := rfl
@[simp] theorem State.modMem_drives (s : State) (f : MemState → MemState) : (s.modMem f).drives = s.drives := rfl
@[simp] theorem State.modMem_trust (s : State) (f : MemState → MemState) : (s.modMem f).trust = s.trust := rfl
@[simp] theorem State.modMem_rel (s : State) (f : MemState → MemState) : (s.modMem f).rel = s.rel := rfl
@[simp] theorem State.modMem_turn (s : State) (f : MemState → MemState) : (s.modMem f).turn = s.turn := rfl
@[simp] theorem State.modMem_snaps (s : State) (f : MemState → MemState) : (s.modMem f).snaps = s.snaps := rfl
@[simp] theorem State.modMem_walking (s : State) (f : MemState → MemState) : (s.modMem f).walking = s.walking := rfl
@[simp] theorem State.modMem_walked (s : State) (f : MemState → MemState) : (s.modMem f).walked = s.walked := rfl

/-! ## modTrust -/

@[simp] theorem State.modTrust_agenda (s : State) (f : Trust → Trust) : (s.modTrust f).agenda = s.agenda := rfl
@[simp] theorem State.modTrust_freeCtr (s : State) (f : Trust → Trust) : (s.modTrust f).freeCtr = s.freeCtr := rfl
@[simp] theorem State.modTrust_seqCtr (s : State) (f : Trust → Trust) : (s.modTrust f).seqCtr = s.seqCtr := rfl
@[simp] theorem State.modTrust_clock (s : State) (f : Trust → Trust) : (s.modTrust f).clock = s.clock := rfl
@[simp] theorem State.modTrust_focus (s : State) (f : Trust → Trust) : (s.modTrust f).focus = s.focus := rfl
@[simp] theorem State.modTrust_commits (s : State) (f : Trust → Trust) : (s.modTrust f).commits = s.commits := rfl
@[simp] theorem State.modTrust_mem (s : State) (f : Trust → Trust) : (s.modTrust f).mem = s.mem := rfl
@[simp] theorem State.modTrust_gangs (s : State) (f : Trust → Trust) : (s.modTrust f).gangs = s.gangs := rfl
@[simp] theorem State.modTrust_gens (s : State) (f : Trust → Trust) : (s.modTrust f).gens = s.gens := rfl
@[simp] theorem State.modTrust_blocks (s : State) (f : Trust → Trust) : (s.modTrust f).blocks = s.blocks := rfl
@[simp] theorem State.modTrust_cores (s : State) (f : Trust → Trust) : (s.modTrust f).cores = s.cores := rfl
@[simp] theorem State.modTrust_clusters (s : State) (f : Trust → Trust) : (s.modTrust f).clusters = s.clusters := rfl
@[simp] theorem State.modTrust_regions (s : State) (f : Trust → Trust) : (s.modTrust f).regions = s.regions := rfl
@[simp] theorem State.modTrust_kept (s : State) (f : Trust → Trust) : (s.modTrust f).kept = s.kept := rfl
@[simp] theorem State.modTrust_routerHold (s : State) (f : Trust → Trust) : (s.modTrust f).routerHold = s.routerHold := rfl
@[simp] theorem State.modTrust_dist (s : State) (f : Trust → Trust) : (s.modTrust f).dist = s.dist := rfl
@[simp] theorem State.modTrust_link (s : State) (f : Trust → Trust) : (s.modTrust f).link = s.link := rfl
@[simp] theorem State.modTrust_host (s : State) (f : Trust → Trust) : (s.modTrust f).host = s.host := rfl
@[simp] theorem State.modTrust_pairs (s : State) (f : Trust → Trust) : (s.modTrust f).pairs = s.pairs := rfl
@[simp] theorem State.modTrust_drives (s : State) (f : Trust → Trust) : (s.modTrust f).drives = s.drives := rfl
@[simp] theorem State.modTrust_trust (s : State) (f : Trust → Trust) : (s.modTrust f).trust = f s.trust := rfl
@[simp] theorem State.modTrust_rel (s : State) (f : Trust → Trust) : (s.modTrust f).rel = s.rel := rfl
@[simp] theorem State.modTrust_turn (s : State) (f : Trust → Trust) : (s.modTrust f).turn = s.turn := rfl
@[simp] theorem State.modTrust_snaps (s : State) (f : Trust → Trust) : (s.modTrust f).snaps = s.snaps := rfl
@[simp] theorem State.modTrust_walking (s : State) (f : Trust → Trust) : (s.modTrust f).walking = s.walking := rfl
@[simp] theorem State.modTrust_walked (s : State) (f : Trust → Trust) : (s.modTrust f).walked = s.walked := rfl

/-! ## modHost -/

@[simp] theorem State.modHost_agenda (s : State) (f : HostRegs → HostRegs) : (s.modHost f).agenda = s.agenda := rfl
@[simp] theorem State.modHost_freeCtr (s : State) (f : HostRegs → HostRegs) : (s.modHost f).freeCtr = s.freeCtr := rfl
@[simp] theorem State.modHost_seqCtr (s : State) (f : HostRegs → HostRegs) : (s.modHost f).seqCtr = s.seqCtr := rfl
@[simp] theorem State.modHost_clock (s : State) (f : HostRegs → HostRegs) : (s.modHost f).clock = s.clock := rfl
@[simp] theorem State.modHost_focus (s : State) (f : HostRegs → HostRegs) : (s.modHost f).focus = s.focus := rfl
@[simp] theorem State.modHost_commits (s : State) (f : HostRegs → HostRegs) : (s.modHost f).commits = s.commits := rfl
@[simp] theorem State.modHost_mem (s : State) (f : HostRegs → HostRegs) : (s.modHost f).mem = s.mem := rfl
@[simp] theorem State.modHost_gangs (s : State) (f : HostRegs → HostRegs) : (s.modHost f).gangs = s.gangs := rfl
@[simp] theorem State.modHost_gens (s : State) (f : HostRegs → HostRegs) : (s.modHost f).gens = s.gens := rfl
@[simp] theorem State.modHost_blocks (s : State) (f : HostRegs → HostRegs) : (s.modHost f).blocks = s.blocks := rfl
@[simp] theorem State.modHost_cores (s : State) (f : HostRegs → HostRegs) : (s.modHost f).cores = s.cores := rfl
@[simp] theorem State.modHost_clusters (s : State) (f : HostRegs → HostRegs) : (s.modHost f).clusters = s.clusters := rfl
@[simp] theorem State.modHost_regions (s : State) (f : HostRegs → HostRegs) : (s.modHost f).regions = s.regions := rfl
@[simp] theorem State.modHost_kept (s : State) (f : HostRegs → HostRegs) : (s.modHost f).kept = s.kept := rfl
@[simp] theorem State.modHost_routerHold (s : State) (f : HostRegs → HostRegs) : (s.modHost f).routerHold = s.routerHold := rfl
@[simp] theorem State.modHost_dist (s : State) (f : HostRegs → HostRegs) : (s.modHost f).dist = s.dist := rfl
@[simp] theorem State.modHost_link (s : State) (f : HostRegs → HostRegs) : (s.modHost f).link = s.link := rfl
@[simp] theorem State.modHost_host (s : State) (f : HostRegs → HostRegs) : (s.modHost f).host = f s.host := rfl
@[simp] theorem State.modHost_pairs (s : State) (f : HostRegs → HostRegs) : (s.modHost f).pairs = s.pairs := rfl
@[simp] theorem State.modHost_drives (s : State) (f : HostRegs → HostRegs) : (s.modHost f).drives = s.drives := rfl
@[simp] theorem State.modHost_trust (s : State) (f : HostRegs → HostRegs) : (s.modHost f).trust = s.trust := rfl
@[simp] theorem State.modHost_rel (s : State) (f : HostRegs → HostRegs) : (s.modHost f).rel = s.rel := rfl
@[simp] theorem State.modHost_turn (s : State) (f : HostRegs → HostRegs) : (s.modHost f).turn = s.turn := rfl
@[simp] theorem State.modHost_snaps (s : State) (f : HostRegs → HostRegs) : (s.modHost f).snaps = s.snaps := rfl
@[simp] theorem State.modHost_walking (s : State) (f : HostRegs → HostRegs) : (s.modHost f).walking = s.walking := rfl
@[simp] theorem State.modHost_walked (s : State) (f : HostRegs → HostRegs) : (s.modHost f).walked = s.walked := rfl

/-! ## Lookups -/

@[simp] theorem State.gang?_setGang (s : State) (k j : Nat) (x : Gang) :
    (s.setGang k x).gang? j = if j = k then some x else s.gang? j := tab_get?_set _ _ _ _

@[simp] theorem State.gang?_modGang (s : State) (k j : Nat) (f : Gang → Gang) :
    (s.modGang k f).gang? j = if j = k then (s.gang? j).map f else s.gang? j := tab_get?_update _ _ _ _

@[simp] theorem State.block?_setBlock (s : State) (k j : Nat) (x : Block) :
    (s.setBlock k x).block? j = if j = k then some x else s.block? j := tab_get?_set _ _ _ _

@[simp] theorem State.block?_modBlock (s : State) (k j : Nat) (f : Block → Block) :
    (s.modBlock k f).block? j = if j = k then (s.block? j).map f else s.block? j := tab_get?_update _ _ _ _

@[simp] theorem State.core_setCore (s : State) (k j : Nat) (x : CoreState) :
    (s.setCore k x).core j = if j = k then x else s.core j := by
  unfold State.core State.setCore Tab.getD
  rw [tab_get?_set]
  by_cases h : j = k <;> simp [h]

@[simp] theorem State.core_modCore (s : State) (k j : Nat) (f : CoreState → CoreState) :
    (s.modCore k f).core j = if j = k then f (s.core k) else s.core j := State.core_setCore _ _ _ _

@[simp] theorem State.cluster_setCluster (s : State) (k j : Nat) (x : Cluster) :
    (s.setCluster k x).cluster j = if j = k then x else s.cluster j := by
  unfold State.cluster State.setCluster Tab.getD
  rw [tab_get?_set]
  by_cases h : j = k <;> simp [h]

@[simp] theorem State.cluster_modCluster (s : State) (k j : Nat) (f : Cluster → Cluster) :
    (s.modCluster k f).cluster j = if j = k then f (s.cluster k) else s.cluster j := State.cluster_setCluster _ _ _ _

/-- A lookup that another update leaves alone. -/
@[simp] theorem State.gang?_setCore (s : State) (k j : Nat) (x : CoreState) : (s.setCore k x).gang? j = s.gang? j := rfl
@[simp] theorem State.gang?_modCore (s : State) (k j : Nat) (f : CoreState → CoreState) : (s.modCore k f).gang? j = s.gang? j := rfl
@[simp] theorem State.gang?_setCluster (s : State) (k j : Nat) (x : Cluster) : (s.setCluster k x).gang? j = s.gang? j := rfl
@[simp] theorem State.gang?_modCluster (s : State) (k j : Nat) (f : Cluster → Cluster) :
    (s.modCluster k f).gang? j = s.gang? j := rfl
@[simp] theorem State.gang?_setBlock (s : State) (k j : Nat) (x : Block) : (s.setBlock k x).gang? j = s.gang? j := rfl
@[simp] theorem State.gang?_modBlock (s : State) (k j : Nat) (f : Block → Block) : (s.modBlock k f).gang? j = s.gang? j := rfl
@[simp] theorem State.gang?_modMem (s : State) (j : Nat) (f : MemState → MemState) : (s.modMem f).gang? j = s.gang? j := rfl
@[simp] theorem State.block?_setGang (s : State) (k j : Nat) (x : Gang) : (s.setGang k x).block? j = s.block? j := rfl
@[simp] theorem State.block?_modGang (s : State) (k j : Nat) (f : Gang → Gang) : (s.modGang k f).block? j = s.block? j := rfl
@[simp] theorem State.core_setGang (s : State) (k j : Nat) (x : Gang) : (s.setGang k x).core j = s.core j := rfl
@[simp] theorem State.core_modGang (s : State) (k j : Nat) (f : Gang → Gang) : (s.modGang k f).core j = s.core j := rfl
@[simp] theorem State.cluster_setGang (s : State) (k j : Nat) (x : Gang) : (s.setGang k x).cluster j = s.cluster j := rfl
@[simp] theorem State.cluster_modGang (s : State) (k j : Nat) (f : Gang → Gang) : (s.modGang k f).cluster j = s.cluster j := rfl

end Sys2Proof.Machine
end

