-- ==== Sys2Proof/Laws/Frame.lean ====
section
/-! SUPPORT. What the frame of R182 does to the threads and slices of the focused gang: the lookups of a gang, the effect of one
completion and of all of them, and the spec lemma of an issue in which every body completes. -/

namespace Sys2Proof.Machine

/-! ## Lookups of a gang -/

theorem list_getD_set {α : Type} (l : List α) (i j : Nat) (x d : α) :
    (l.set i x).getD j d = if j = i ∧ i < l.length then x else l.getD j d := by
  rw [List.getD_eq_getElem?_getD, List.getD_eq_getElem?_getD, List.getElem?_set]
  by_cases h : i = j
  · subst h
    by_cases hl : i < l.length
    · simp [hl]
    · simp [hl]
  · have h' : ¬ j = i := fun e => h e.symm
    simp [h, h']

@[simp] theorem Gang.thread_setThread (g : Gang) (i j : Nat) (x : Thread) :
    (g.setThread i x).thread j = if j = i ∧ i < g.threads.length then x else g.thread j := list_getD_set _ _ _ _ _

@[simp] theorem Gang.slice_setSlice (g : Gang) (i j : Nat) (x : SliceState) :
    (g.setSlice i x).slice j = if j = i ∧ i < g.slices.length then x else g.slice j := list_getD_set _ _ _ _ _

@[simp] theorem Gang.slice_setThread (g : Gang) (i j : Nat) (x : Thread) : (g.setThread i x).slice j = g.slice j := rfl
@[simp] theorem Gang.thread_setSlice (g : Gang) (i j : Nat) (x : SliceState) : (g.setSlice i x).thread j = g.thread j := rfl
@[simp] theorem Gang.threads_setThread_length (g : Gang) (i : Nat) (x : Thread) :
    (g.setThread i x).threads.length = g.threads.length := by simp [Gang.setThread]
@[simp] theorem Gang.slices_setThread (g : Gang) (i : Nat) (x : Thread) : (g.setThread i x).slices = g.slices := rfl
@[simp] theorem Gang.threads_setSlice (g : Gang) (i : Nat) (x : SliceState) : (g.setSlice i x).threads = g.threads := rfl
@[simp] theorem Gang.slices_setSlice_length (g : Gang) (i : Nat) (x : SliceState) :
    (g.setSlice i x).slices.length = g.slices.length := by simp [Gang.setSlice]

@[simp] theorem Gang.thread_modThread (g : Gang) (i j : Nat) (f : Thread → Thread) :
    (g.modThread i f).thread j = if j = i ∧ i < g.threads.length then f (g.thread i) else g.thread j :=
  Gang.thread_setThread _ _ _ _
@[simp] theorem Gang.slice_modThread (g : Gang) (i j : Nat) (f : Thread → Thread) : (g.modThread i f).slice j = g.slice j := rfl
@[simp] theorem Gang.slice_modSlice (g : Gang) (i j : Nat) (f : SliceState → SliceState) :
    (g.modSlice i f).slice j = if j = i ∧ i < g.slices.length then f (g.slice i) else g.slice j := Gang.slice_setSlice _ _ _ _
@[simp] theorem Gang.thread_modSlice (g : Gang) (i j : Nat) (f : SliceState → SliceState) :
    (g.modSlice i f).thread j = g.thread j := rfl
@[simp] theorem Gang.threads_modSlice (g : Gang) (i : Nat) (f : SliceState → SliceState) : (g.modSlice i f).threads = g.threads := rfl
@[simp] theorem Gang.slices_modThread (g : Gang) (i : Nat) (f : Thread → Thread) : (g.modThread i f).slices = g.slices := rfl
@[simp] theorem Gang.threads_modThread_length (g : Gang) (i : Nat) (f : Thread → Thread) :
    (g.modThread i f).threads.length = g.threads.length := Gang.threads_setThread_length _ _ _
@[simp] theorem Gang.slices_modSlice_length (g : Gang) (i : Nat) (f : SliceState → SliceState) :
    (g.modSlice i f).slices.length = g.slices.length := Gang.slices_setSlice_length _ _ _

/-- A LANE set mapped: each of its threads, and no other. -/
theorem Gang.thread_modLanes (g : Gang) (m : Lanes) (f : Thread → Thread) (j : Nat) (hj : j < g.threads.length) :
    (g.modLanes m f).thread j = if m.getLsbD j then f (g.thread j) else g.thread j := by
  unfold Gang.modLanes Gang.thread
  simp only [List.getD_eq_getElem?_getD, List.getElem?_mapIdx, List.getElem?_eq_getElem hj]
  split <;> simp

@[simp] theorem Gang.threads_modLanes_length (g : Gang) (m : Lanes) (f : Thread → Thread) :
    (g.modLanes m f).threads.length = g.threads.length := by simp [Gang.modLanes]
@[simp] theorem Gang.slices_modLanes (g : Gang) (m : Lanes) (f : Thread → Thread) : (g.modLanes m f).slices = g.slices := rfl

/-! ## One destination -/

/-- Two gangs with the same threads, or the same slices. -/
theorem Gang.thread_congr {g h : Gang} (e : g.threads = h.threads) (j : Nat) : g.thread j = h.thread j := by
  unfold Gang.thread; rw [e]
theorem Gang.slice_congr {g h : Gang} (e : g.slices = h.slices) (j : Nat) : g.slice j = h.slice j := by
  unfold Gang.slice; rw [e]

/-- A value at a place, put where it stands. -/
theorem ite_here {α : Type} (x : Nat → α) (i j : Nat) : (if j = i then x i else x j) = x j := by split <;> simp [*]

theorem Gang.writeDst_thread (g : Gang) (lane j : Nat) (d : Operand × Nat × Nat) (h : lane < g.threads.length) :
    (g.writeDst lane d).thread j = if j = lane then dstThread (g.thread lane) d else g.thread j := by
  obtain ⟨o, n, x⟩ := d
  cases o with
  | sr r =>
    cases r
    case fstat | drl => simp [Gang.writeDst, dstThread, h]
    all_goals
      simp only [dstThread, ite_here]
      exact Gang.thread_congr (by simp [Gang.writeDst]) j
  | v i | p i => simp [Gang.writeDst, dstThread, h]
  | _ =>
    simp only [dstThread, ite_here]
    exact Gang.thread_congr (by simp [Gang.writeDst]) j

theorem Gang.writeDst_slice (g : Gang) (lane j : Nat) (d : Operand × Nat × Nat) (h : lane / 4 < g.slices.length) :
    (g.writeDst lane d).slice j = if j = lane / 4 then dstSlice (g.slice (lane / 4)) d else g.slice j := by
  obtain ⟨o, n, x⟩ := d
  cases o with
  | sr r =>
    simp only [dstSlice, ite_here]
    exact Gang.slice_congr (by cases r <;> simp [Gang.writeDst]) j
  | s i => simp [Gang.writeDst, dstSlice, h]
  | _ =>
    simp only [dstSlice, ite_here]
    exact Gang.slice_congr (by simp [Gang.writeDst]) j

@[simp] theorem Gang.writeDst_threads_length (g : Gang) (lane : Nat) (d : Operand × Nat × Nat) :
    (g.writeDst lane d).threads.length = g.threads.length := by
  obtain ⟨o, n, x⟩ := d
  cases o with
  | sr r => cases r <;> simp [Gang.writeDst]
  | _ => simp [Gang.writeDst]

@[simp] theorem Gang.writeDst_slices_length (g : Gang) (lane : Nat) (d : Operand × Nat × Nat) :
    (g.writeDst lane d).slices.length = g.slices.length := by
  obtain ⟨o, n, x⟩ := d
  cases o with
  | sr r => cases r <;> simp [Gang.writeDst]
  | _ => simp [Gang.writeDst]

/-- All destinations of a completion. -/
theorem Gang.writeDsts_thread (l : List (Operand × Nat × Nat)) (g : Gang) (lane j : Nat) (h : lane < g.threads.length) :
    (l.foldl (fun g d => g.writeDst lane d) g).thread j = if j = lane then l.foldl dstThread (g.thread lane) else g.thread j := by
  induction l generalizing g with
  | nil => simp [ite_here]
  | cons d l ih =>
    rw [List.foldl_cons, List.foldl_cons, ih _ (by simpa using h), Gang.writeDst_thread _ _ _ _ h, Gang.writeDst_thread _ _ _ _ h]
    by_cases hj : j = lane <;> simp [hj]

theorem Gang.writeDsts_slice (l : List (Operand × Nat × Nat)) (g : Gang) (lane j : Nat) (h : lane / 4 < g.slices.length) :
    (l.foldl (fun g d => g.writeDst lane d) g).slice j =
      if j = lane / 4 then l.foldl dstSlice (g.slice (lane / 4)) else g.slice j := by
  induction l generalizing g with
  | nil => simp [ite_here]
  | cons d l ih =>
    rw [List.foldl_cons, List.foldl_cons, ih _ (by simpa using h), Gang.writeDst_slice _ _ _ _ h, Gang.writeDst_slice _ _ _ _ h]
    by_cases hj : j = lane / 4 <;> simp [hj]

theorem Gang.writeDsts_threads_length (l : List (Operand × Nat × Nat)) (g : Gang) (lane : Nat) :
    (l.foldl (fun g d => g.writeDst lane d) g).threads.length = g.threads.length := by
  induction l generalizing g with
  | nil => rfl
  | cons d l ih => rw [List.foldl_cons, ih, Gang.writeDst_threads_length]

theorem Gang.writeDsts_slices_length (l : List (Operand × Nat × Nat)) (g : Gang) (lane : Nat) :
    (l.foldl (fun g d => g.writeDst lane d) g).slices.length = g.slices.length := by
  induction l generalizing g with
  | nil => rfl
  | cons d l ih => rw [List.foldl_cons, ih, Gang.writeDst_slices_length]

/-! ## One completion -/

theorem addProducer_thread (g : Gang) (lane j : Nat) (rep toS : Bool) (e : Eff) (q : Producer) (h : lane < g.threads.length)
    (hq : e.prod = some q) :
    (g.addProducer lane rep toS q).thread j = if j = lane then e.issue toS (g.thread lane) else g.thread j := by
  unfold Gang.addProducer Eff.issue
  cases toS <;> cases rep <;> simp [hq, h, ite_here]

theorem addProducer_slice (g : Gang) (lane j : Nat) (rep toS : Bool) (e : Eff) (q : Producer) (h : lane / 4 < g.slices.length)
    (hq : e.prod = some q) :
    (g.addProducer lane rep toS q).slice j = if j = lane / 4 then e.interlock toS rep (g.slice (lane / 4)) else g.slice j := by
  unfold Gang.addProducer Eff.interlock
  cases toS <;> cases rep <;> simp [hq, h, ite_here]

theorem addProducer_lengths (g : Gang) (lane : Nat) (rep toS : Bool) (q : Producer) :
    (g.addProducer lane rep toS q).threads.length = g.threads.length ∧
      (g.addProducer lane rep toS q).slices.length = g.slices.length := by
  unfold Gang.addProducer
  cases toS <;> cases rep <;> simp

theorem Op.finish_thread (op : Op) (u : Units × Units) (g : Gang) (lane j : Nat) (rep : Bool) (e : Eff)
    (h : lane < g.threads.length) :
    (op.finish u g lane rep e).1.thread j = if j = lane then e.thread (isUniform op.dsts) u (g.thread lane) else g.thread j := by
  have h1 := Gang.writeDsts_thread e.dst g lane j h
  have h2 := Gang.writeDsts_thread e.dst g lane lane h
  have h3 := Gang.writeDsts_threads_length e.dst g lane
  cases hp : e.prod with
  | none =>
    simp only [Op.finish, hp, Gang.thread_modThread, h1, h2, h3, h, if_true, and_true]
    by_cases hj : j = lane
    · simp only [hj, if_true, Eff.thread, Eff.issue, hp]; rfl
    · simp [hj]
  | some q =>
    have h4 := fun j => addProducer_thread (e.dst.foldl (fun g d => g.writeDst lane d) g) lane j rep (isUniform op.dsts) e q
      (by rw [h3]; exact h) hp
    have h5 := (addProducer_lengths (e.dst.foldl (fun g d => g.writeDst lane d) g) lane rep (isUniform op.dsts) q).1
    simp only [Op.finish, hp, Gang.thread_modThread, h1, h2, h3, h4, h5, h, if_true, and_true]
    by_cases hj : j = lane
    · simp only [hj, if_true]; rfl
    · simp [hj]

theorem Op.finish_slice (op : Op) (u : Units × Units) (g : Gang) (lane j : Nat) (rep : Bool) (e : Eff)
    (h : lane / 4 < g.slices.length) :
    (op.finish u g lane rep e).1.slice j =
      if j = lane / 4 then e.slice (isUniform op.dsts) rep (g.slice (lane / 4)) else g.slice j := by
  have h1 := fun j => Gang.writeDsts_slice e.dst g lane j h
  have h3 := Gang.writeDsts_slices_length e.dst g lane
  cases hp : e.prod with
  | none => simp only [Op.finish, hp, Gang.slice_modThread, h1, Eff.slice, Eff.interlock]
  | some q =>
    have h4 := addProducer_slice (e.dst.foldl (fun g d => g.writeDst lane d) g) lane j rep (isUniform op.dsts) e q
      (by rw [h3]; exact h) hp
    simp only [Op.finish, hp, Gang.slice_modThread, h4, h1, Eff.slice, if_true]
    by_cases hj : j = lane / 4 <;> simp [hj]

theorem Op.finish_threads_length (op : Op) (u : Units × Units) (g : Gang) (lane : Nat) (rep : Bool) (e : Eff) :
    (op.finish u g lane rep e).1.threads.length = g.threads.length := by
  cases hp : e.prod <;> simp [Op.finish, hp, Gang.writeDsts_threads_length, (addProducer_lengths _ _ _ _ _).1]

theorem Op.finish_slices_length (op : Op) (u : Units × Units) (g : Gang) (lane : Nat) (rep : Bool) (e : Eff) :
    (op.finish u g lane rep e).1.slices.length = g.slices.length := by
  cases hp : e.prod <;> simp [Op.finish, hp, Gang.writeDsts_slices_length, (addProducer_lengths _ _ _ _ _).2]

/-! ## All completions of an issue -/

@[simp] theorem Thread.regs_committed (t : Thread) (next : Pc) : (t.committed next).regs = t.regs := rfl
@[simp] theorem Thread.regs_drain (t : Thread) (b : Bool) : ({ t with drain := b } : Thread).regs = t.regs := rfl
@[simp] theorem Thread.regs_solo (t : Thread) (b : Bool) : ({ t with solo := b } : Thread).regs = t.regs := rfl

theorem finishFalse_thread (f : Fields) (g : Gang) (lane j : Nat) (h : lane < g.threads.length) :
    (finishFalse f g lane).1.thread j = if j = lane then falseThread f (g.thread lane) else g.thread j := by
  simp [finishFalse, falseThread, h]

theorem finishOks_thread (op : Op) (f : Fields) (s : State) (g0 : Gang) (oks : List (Nat × Bool × Eff)) (acc : Gang × List Nat)
    (hn : (oks.map (·.1)).Nodup) (hl : ∀ x ∈ oks, x.1 < acc.1.threads.length) (j : Nat) :
    (oks.foldl (fun acc x =>
      let r := op.finish (op.units f s g0 x.1) acc.1 x.1 x.2.1 x.2.2
      (r.1, if r.2 then acc.2 ++ [x.1] else acc.2)) acc).1.thread j =
    match oks.find? fun x => x.1 == j with
    | some x => x.2.2.thread (isUniform op.dsts) (op.units f s g0 x.1) (acc.1.thread j)
    | none => acc.1.thread j := by
  induction oks generalizing acc with
  | nil => rfl
  | cons x oks ih =>
    rw [List.map_cons, List.nodup_cons] at hn
    have hx := hl x List.mem_cons_self
    rw [List.foldl_cons, ih _ hn.2 fun y hy => by
        simpa [Op.finish_threads_length] using hl y (List.mem_cons_of_mem _ hy)]
    simp only [Op.finish_thread _ _ _ _ _ _ _ hx, List.find?_cons]
    by_cases hj : x.1 = j
    · subst hj
      have : oks.find? (fun y => y.1 == x.1) = none := by
        rw [List.find?_eq_none]
        intro y hy he
        exact hn.1 (List.mem_map.2 ⟨y, hy, by simpa using he⟩)
      simp [this]
    · have h1 : ¬ j = x.1 := fun e => hj e.symm
      have h2 : (x.1 == j) = false := by simpa using hj
      simp [h1, h2]

theorem finishOks_threads_length (op : Op) (f : Fields) (s : State) (g0 : Gang) (oks : List (Nat × Bool × Eff))
    (acc : Gang × List Nat) :
    (oks.foldl (fun acc x =>
      let r := op.finish (op.units f s g0 x.1) acc.1 x.1 x.2.1 x.2.2
      (r.1, if r.2 then acc.2 ++ [x.1] else acc.2)) acc).1.threads.length = acc.1.threads.length := by
  induction oks generalizing acc with
  | nil => rfl
  | cons x oks ih =>
    rw [List.foldl_cons, ih]
    exact Op.finish_threads_length _ _ _ _ _ _

theorem finishOks_slice (op : Op) (f : Fields) (s : State) (g0 : Gang) (oks : List (Nat × Bool × Eff)) (acc : Gang × List Nat)
    (hl : ∀ x ∈ oks, x.1 / 4 < acc.1.slices.length) (i : Nat) :
    (oks.foldl (fun acc x =>
      let r := op.finish (op.units f s g0 x.1) acc.1 x.1 x.2.1 x.2.2
      (r.1, if r.2 then acc.2 ++ [x.1] else acc.2)) acc).1.slice i =
    (oks.filter fun x => x.1 / 4 == i).foldl (fun y x => x.2.2.slice (isUniform op.dsts) x.2.1 y) (acc.1.slice i) := by
  induction oks generalizing acc with
  | nil => rfl
  | cons x oks ih =>
    have hx := hl x List.mem_cons_self
    rw [List.foldl_cons, ih _ fun y hy => by
        simpa [Op.finish_slices_length] using hl y (List.mem_cons_of_mem _ hy)]
    simp only [Op.finish_slice _ _ _ _ _ _ _ hx]
    by_cases hj : x.1 / 4 = i
    · rw [List.filter_cons_of_pos (by simpa using hj), List.foldl_cons, if_pos hj.symm, hj]
    · rw [List.filter_cons_of_neg (by simpa using hj), if_neg fun e => hj e.symm]

theorem finishGf_thread (f : Fields) (gf : List Nat) (acc : Gang × List Nat) (hn : gf.Nodup)
    (hl : ∀ l ∈ gf, l < acc.1.threads.length) (j : Nat) :
    (gf.foldl (fun acc l =>
      let r := finishFalse f acc.1 l
      (r.1, if r.2 then acc.2 ++ [l] else acc.2)) acc).1.thread j =
    if j ∈ gf then falseThread f (acc.1.thread j) else acc.1.thread j := by
  induction gf generalizing acc with
  | nil => simp
  | cons x gf ih =>
    rw [List.nodup_cons] at hn
    have hx := hl x List.mem_cons_self
    rw [List.foldl_cons, ih _ hn.2 fun y hy => by simpa [finishFalse] using hl y (List.mem_cons_of_mem _ hy)]
    simp only [finishFalse_thread _ _ _ _ hx, List.mem_cons]
    by_cases hj : j = x
    · subst hj; simp [hn.1]
    · simp [hj]

theorem finishGf_slice (f : Fields) (gf : List Nat) (acc : Gang × List Nat) (i : Nat) :
    (gf.foldl (fun acc l =>
      let r := finishFalse f acc.1 l
      (r.1, if r.2 then acc.2 ++ [l] else acc.2)) acc).1.slice i = acc.1.slice i := by
  induction gf generalizing acc with
  | nil => rfl
  | cons x gf ih => rw [List.foldl_cons, ih]; rfl

theorem finishGf_threads_length (f : Fields) (gf : List Nat) (acc : Gang × List Nat) :
    (gf.foldl (fun acc l =>
      let r := finishFalse f acc.1 l
      (r.1, if r.2 then acc.2 ++ [l] else acc.2)) acc).1.threads.length = acc.1.threads.length := by
  induction gf generalizing acc with
  | nil => rfl
  | cons x gf ih => rw [List.foldl_cons, ih]; simp [finishFalse]

/-! ## Rotation, hints and counts leave threads and s registers -/

/-- A fold of steps that keep something keeps it. -/
theorem foldl_keeps {α β γ : Type} (f : β → α → β) (v : β → γ) (h : ∀ b a, v (f b a) = v b) (l : List α) (b : β) :
    v (l.foldl f b) = v b := by
  induction l generalizing b with
  | nil => rfl
  | cons a l ih => rw [List.foldl_cons, ih, h]

theorem Gang.modSlice_regs (g : Gang) (i j : Nat) (f : SliceState → SliceState) (h : ∀ x, (f x).regs = x.regs) :
    ((g.modSlice i f).slice j).regs = (g.slice j).regs := by
  rw [Gang.slice_modSlice]
  split
  · rename_i e; rw [h, e.1]
  · rfl

theorem Gang.countBackward_threads (g : Gang) (sl : Nat) : (g.countBackward sl).threads = g.threads := rfl
theorem Gang.countBackward_regs (g : Gang) (sl j : Nat) : ((g.countBackward sl).slice j).regs = (g.slice j).regs :=
  Gang.modSlice_regs _ _ _ _ fun x => by split <;> rfl

theorem Gang.settleCounts_threads (g : Gang) : g.settleCounts.threads = g.threads := rfl
theorem Gang.settleCounts_regs (g : Gang) (j : Nat) : (g.settleCounts.slice j).regs = (g.slice j).regs := by
  unfold Gang.settleCounts Gang.slice
  simp only [List.getD_eq_getElem?_getD, List.getElem?_mapIdx]
  cases g.slices[j]? with
  | none => rfl
  | some x => simp only [Option.map_some, Option.getD_some]; split <;> rfl

theorem Gang.rotate_threads (g0 g1 : Gang) (exec back : List Nat) : (Gang.rotate g0 g1 exec back).threads = g1.threads := by
  unfold Gang.rotate
  rw [Gang.settleCounts_threads, foldl_keeps _ Gang.threads fun b a => Gang.countBackward_threads b a]
  apply foldl_keeps (v := Gang.threads)
  exact fun b a => rfl

theorem Gang.rotate_regs (g0 g1 : Gang) (exec back : List Nat) (j : Nat) :
    ((Gang.rotate g0 g1 exec back).slice j).regs = (g1.slice j).regs := by
  unfold Gang.rotate
  rw [Gang.settleCounts_regs, foldl_keeps _ (fun g : Gang => (g.slice j).regs) fun b a => Gang.countBackward_regs b a j]
  exact foldl_keeps _ (fun g : Gang => (g.slice j).regs)
    (fun b a => Gang.modSlice_regs _ _ _ _ fun x => by split <;> rfl) _ _

theorem Gang.hint_threads (g : Gang) (f : Fields) (c : Nat) (y : Bool) (exec : List Nat) : (g.hint f c y exec).threads = g.threads := by
  unfold Gang.hint
  apply foldl_keeps (v := Gang.threads)
  exact fun b a => rfl

theorem Gang.hint_regs (g : Gang) (f : Fields) (c : Nat) (y : Bool) (exec : List Nat) (j : Nat) :
    ((g.hint f c y exec).slice j).regs = (g.slice j).regs := by
  unfold Gang.hint
  apply foldl_keeps (v := fun g : Gang => (g.slice j).regs)
  exact fun b a => Gang.modSlice_regs _ _ _ _ fun x => rfl

end Sys2Proof.Machine
end

