-- ==== Sys2Proof/Laws/Home.lean ====
section
/-! SUPPORT. Accesses at memory's homes, translation, and the steps on barrier objects and mailboxes leave gangs alone but for their
EPEND bits and their counts of failed stores. -/

namespace Sys2Proof.Machine

theorem State.Still.refl (s : State) : s.Still s := ⟨rfl, rfl, rfl, fun _ => rfl⟩
theorem State.Still.trans {a b c : State} (h : a.Still b) (i : b.Still c) : a.Still c :=
  ⟨i.focus.trans h.focus, i.clock.trans h.clock, i.gens.trans h.gens, fun k => (i.gangs k).trans (h.gangs k)⟩

/-- Two states with the same focus, clock and gangs. -/
theorem still_same {s t : State} (hf : t.focus = s.focus) (hc : t.clock = s.clock) (hg : t.gangs = s.gangs)
    (hn : t.gens = s.gens := by rfl) : s.Still t :=
  ⟨hf, hc, hn, fun k => by simp only [State.gang?, hg]⟩

/-- A step after one that keeps focus, clock and gangs. -/
theorem still_pre {s b t : State} (i : b.Still t) (hf : b.focus = s.focus) (hc : b.clock = s.clock) (hg : b.gangs = s.gangs)
    (hn : b.gens = s.gens := by rfl) : s.Still t := (still_same hf hc hg hn).trans i

theorem still_foldl {α : Type} (f : State → α → State) (h : ∀ (s : State) (a : α), s.Still (f s a)) (l : List α) (s : State) :
    s.Still (l.foldl f s) := by
  induction l generalizing s with
  | nil => exact .refl s
  | cons a l ih => exact (h s a).trans (ih _)

theorem deaf_latch (g : Gang) (n : Nat) : (g.latch n).deaf = g.deaf := by
  unfold Gang.latch; split <;> rfl

theorem deaf_latchWhere (g : Gang) (f : Token → Bool) : (g.latchWhere f).deaf = g.deaf := by
  unfold Gang.latchWhere
  apply foldl_keeps (v := Gang.deaf)
  intro g n
  split
  · split
    · exact deaf_latch _ _
    · rfl
  · rfl

theorem still_modGang (s : State) (k : Nat) (f : Gang → Gang) (h : ∀ g, (f g).deaf = g.deaf) : s.Still (s.modGang k f) where
  focus := rfl
  clock := rfl
  gens := rfl
  gangs j := by
    rw [State.gang?_modGang]
    split
    · rename_i e; subst e; cases s.gang? j <;> simp [h]
    · rfl

theorem still_fireMonitor (s : State) (m : Monitor) : s.Still (s.fireMonitor m) :=
  still_pre (still_modGang _ _ _ fun g => deaf_latch g _) rfl rfl rfl

theorem still_monitorsAfter (s : State) (pa : Nat) : s.Still (s.monitorsAfter pa) :=
  still_foldl _ (fun s m => by split <;> first | exact still_fireMonitor s m | exact .refl s) _ _

theorem still_homeWrite (s : State) (pa n x : Nat) : s.Still (s.homeWrite pa n x) :=
  still_pre (still_monitorsAfter _ pa) rfl rfl rfl

theorem still_sendChannel (s : State) (cl ch : Nat) (m : Message) : s.Still (s.sendChannel cl ch m).1 := by
  unfold State.sendChannel
  simp only
  split <;> exact still_same rfl rfl rfl

theorem still_logError (s : State) (k : LogKind) (a b c d e : Nat) : s.Still (s.logError k a b c d e) := by
  unfold State.logError
  simp only
  split
  · exact still_same rfl rfl rfl
  · split
    · exact ((still_homeWrite s _ _ _).trans (still_homeWrite _ _ _ _)).trans (still_same rfl rfl rfl)
    · exact ((still_homeWrite s _ _ _).trans (still_homeWrite _ _ _ _)).trans
        (still_pre (still_sendChannel _ _ _ _) rfl rfl rfl)

theorem still_spareRow (s : State) (pa : Nat) : s.Still (s.spareRow pa) := by
  unfold State.spareRow
  simp only
  split
  · exact still_pre (still_logError _ _ _ _ _ _ _) rfl rfl rfl
  · exact still_logError _ _ _ _ _ _ _

theorem still_markPoison (s : State) (pa asid : Nat) : s.Still (s.markPoison pa asid) := by
  have key : ∀ (b : State) (i a : Nat), s.Still b → s.Still
      (if (b.logError .poisoned 0 i a 1 asid).rel.rowthr ≠ 0 ∧
          (b.logError .poisoned 0 i a 1 asid).rel.rowthr ≤ Tab.getD s.rel.rowEvents (Config.rowOfAddress pa) 0 + 1 then
        (b.logError .poisoned 0 i a 1 asid).spareRow pa else b.logError .poisoned 0 i a 1 asid) := by
    intro b i a h
    have h1 := h.trans (still_logError b .poisoned 0 i a 1 asid)
    split
    · exact h1.trans (still_spareRow _ _)
    · exact h1
  exact key _ _ _ (still_same rfl rfl rfl)

theorem still_logFresh (s : State) (pa asid : Nat) : s.Still (s.logFresh pa asid) :=
  still_pre (still_logError _ _ _ _ _ _ _) rfl rfl rfl

theorem still_injectionFired (s : State) (c : Nat) : s.Still (s.injectionFired c) := still_same rfl rfl rfl

theorem still_checkAtom (s : State) (pa n asid : Nat) : s.Still (s.checkAtom pa n asid).1 := by
  unfold State.checkAtom
  simp only
  have h : s.Still (s.errorFound pa) := still_same rfl rfl rfl
  split_ifs <;> simp only
  · exact (still_injectionFired s _).trans (still_logFresh _ _ _)
  · exact .refl s
  · exact h.trans (still_markPoison _ _ _)
  · exact h.trans (still_logFresh _ _ _)
  · exact .refl s

theorem still_applyRed (s : State) (pa op : Nat) (t : Ty) (b asid : Nat) : s.Still (s.applyRed pa op t b asid).1 := by
  unfold State.applyRed
  have h1 := still_checkAtom s pa t.bytes asid
  generalize s.checkAtom pa t.bytes asid = r1 at h1 ⊢
  obtain ⟨s1, k1⟩ := r1
  simp only at h1 ⊢
  have h2 : s.Still (if k1 = 1 then s1.checkAtom pa t.bytes asid else (s1, k1)).1 := by
    split
    · exact h1.trans (still_checkAtom _ _ _ _)
    · exact h1
  generalize (if k1 = 1 then s1.checkAtom pa t.bytes asid else (s1, k1)) = r2 at h2 ⊢
  obtain ⟨s2, k2⟩ := r2
  simp only at h2 ⊢
  by_cases hk : k2 = 0
  · simp only [if_pos hk]
    exact h2.trans (still_homeWrite _ _ _ _)
  · by_cases hk1 : k2 = 1
    · simp only [if_neg hk, if_pos hk1]
      exact h2.trans (still_markPoison _ _ _)
    · simp only [if_neg hk, if_neg hk1]
      exact h2

theorem still_applyQueued (s : State) (e : StoreEntry) : s.Still (s.applyQueued e) := by
  unfold State.applyQueued
  split
  · simp only
    split
    · exact (still_applyRed _ _ _ _ _ _).trans (still_logError _ _ _ _ _ _ _)
    · exact still_applyRed _ _ _ _ _ _
  · exact .refl s

theorem still_drainRed (s : State) (line : Place) : s.Still (s.drainRed line) :=
  still_pre (still_foldl _ still_applyQueued _ _) rfl rfl rfl

theorem still_modBlock (s : State) (b : Nat) (f : Block → Block) : s.Still (s.modBlock b f) := still_same rfl rfl rfl
theorem still_setBlock (s : State) (b : Nat) (x : Block) : s.Still (s.setBlock b x) := still_same rfl rfl rfl
theorem still_scratchWrite (s : State) (b : Nat) (o : Bool) (off n x : Nat) (f : Bool) : s.Still (s.scratchWrite b o off n x f) :=
  still_modBlock _ _ _

theorem still_scratchScan (s : State) (b : Nat) (o : Bool) (off n : Nat) (w : Bool) : s.Still (s.scratchScan b o off n w).1 := by
  have hb : ∀ (x : Block) (k : LogKind) (a b' c d e : Nat), s.Still ((s.setBlock b x).logError k a b' c d e) :=
    fun x k _ _ _ _ _ => (still_setBlock s b x).trans (still_logError _ k _ _ _ _ _)
  unfold State.scratchScan
  split
  · exact .refl s
  · dsimp only
    split
    · exact (still_injectionFired s _).trans (still_logError _ _ _ _ _ _ _)
    · split
      · exact .refl s
      · split
        · exact .refl s
        · exact hb _ _ _ _ _ _ _

theorem still_scratchRead (s : State) (b : Nat) (o : Bool) (off n : Nat) : s.Still (s.scratchRead b o off n).1 := by
  have h := still_scratchScan s b o off n true
  unfold State.scratchRead
  split <;> (rename_i e; rw [e] at h; exact h)

theorem still_scratchSound (s : State) (b : Nat) (o : Bool) (off n : Nat) : s.Still (s.scratchSound b o off n) :=
  still_modBlock _ _ _

theorem still_countFlit (s : State) (d : Nat) : s.Still (s.countFlit d) := by
  unfold State.countFlit
  simp only
  split <;> exact still_same rfl rfl rfl

theorem still_sendRemote {s t : State} {core dev off : Nat} {op : RemoteOp} {src : RemoteSource}
    (h : s.sendRemote core dev off op src = some t) : s.Still t := by
  unfold State.sendRemote at h
  simp only at h
  split at h
  · simp at h
  · simp only [Option.some.injEq] at h
    subst h
    exact still_pre (still_countFlit _ _) rfl rfl rfl

theorem tab_get?_map (t : Tab Gang) (f : Gang → Gang) (k : Nat) :
    Tab.get? (t.map fun g => (g.1, f g.2)) k = (Tab.get? t k).map f := by
  unfold Tab.get?
  induction t with
  | nil => rfl
  | cons a t ih =>
    simp only [List.map_cons, List.find?_cons]
    split
    · rfl
    · exact ih

theorem still_mapContexts (s : State) (f : Gang → Gang) (h : ∀ g, (f g).deaf = g.deaf) : s.Still (s.mapContexts f) where
  focus := rfl
  clock := rfl
  gens := rfl
  gangs k := by
    have e : (s.mapContexts f).gang? k = (s.gang? k).map f := tab_get?_map _ _ _
    rw [e, Option.map_map]
    congr 1
    exact funext h

theorem still_storeFailed (s : State) (pa : Nat) (tag : Nat × Nat × Nat) : s.Still (s.storeFailed pa tag) := by
  have h : ∀ (b : State), s.Still b → s.Still (b.mapContexts fun g =>
      if (g.tag == tag) && g.gstate != .ended then { g with failedStores := g.failedStores + 1 } else g) := fun b hb =>
    hb.trans (still_mapContexts _ _ fun g => by split <;> rfl)
  unfold State.storeFailed
  have hl : ∀ (k : LogKind) (a b c d e : Nat), s.Still ((s.logError k a b c d e).mapContexts fun g =>
      if (g.tag == tag) && g.gstate != .ended then { g with failedStores := g.failedStores + 1 } else g) :=
    fun k a b c d e => h _ (still_logError s k a b c d e)
  have hm : ∀ (b : State) (f : Launch → Launch), s.Still b → s.Still (b.modLaunch tag.1 f) :=
    fun b _ hb => hb.trans (still_same (s := b) rfl rfl rfl)
  dsimp only
  split
  · exact hl _ _ _ _ _ _
  · exact hm _ _ (hl _ _ _ _ _ _)

theorem still_applyPart {s t : State} {e : StoreEntry} (h : s.applyPart e = some t) : s.Still t := by
  unfold State.applyPart at h
  split at h
  · simp at h
  · split at h
    · simp only [Option.some.injEq] at h; subst h; exact still_scratchWrite _ _ _ _ _ _ _
    · simp only [Option.some.injEq] at h; subst h; exact .refl _
    · split at h
      · exact still_sendRemote h
      · split at h <;> (simp only [Option.some.injEq] at h; subst h)
        · exact (still_drainRed _ _).trans (still_homeWrite _ _ _ _)
        · exact still_same rfl rfl rfl
      · simp only [Option.some.injEq] at h; subst h; exact still_storeFailed _ _ _
      · split at h <;> (simp only [Option.some.injEq] at h; subst h)
        · exact still_homeWrite _ _ _ _
        · exact still_applyRed _ _ _ _ _ _

/-- Steps that may have to wait, one after another. -/
theorem still_foldl? {α : Type} {f : State → α → Option State} (hf : ∀ {s t : State} {a : α}, f s a = some t → s.Still t)
    (l : List α) {s t : State} (h : l.foldl (fun s? x => s?.bind fun s => f s x) (some s) = some t) : s.Still t := by
  have key : ∀ (l : List α) (a : Option State), l.foldl (fun s? x => s?.bind fun s => f s x) a = some t → ∃ b, a = some b ∧ b.Still t := by
    intro l
    induction l with
    | nil => intro a ha; exact ⟨t, ha, .refl t⟩
    | cons x l ih =>
      intro a ha
      obtain ⟨b, hb, hs⟩ := ih _ ha
      cases a with
      | none => simp at hb
      | some c => exact ⟨c, rfl, (hf hb).trans hs⟩
  obtain ⟨b, hb, hs⟩ := key l _ h
  simp only [Option.some.injEq] at hb
  subst hb
  exact hs

theorem still_applyEntry {s t : State} {e : StoreEntry} (h : s.applyEntry e = some t) : s.Still t :=
  still_foldl? still_applyPart _ h

theorem still_drain {s t : State} {w : StoreEntry → Bool} (h : s.drain w = some t) : s.Still t := by
  unfold State.drain at h
  simp only at h
  split at h
  · simp only [Option.some.injEq] at h; subst h; exact .refl s
  · exact still_pre (still_foldl? (f := fun s (x : StoreEntry × Bool) => s.applyEntry x.1) still_applyEntry _ h) rfl rfl rfl

theorem still_drainLine {s t : State} {c : Nat} {l : Place} (h : s.drainLine c l = some t) : s.Still t := by
  unfold State.drainLine at h
  obtain ⟨a, ha, rfl⟩ := Option.map_eq_some_iff.1 h
  exact (still_drain ha).trans (still_drainRed _ _)

theorem still_drainThread {s t : State} {tag : Nat × Nat × Nat} {l : Nat} (h : s.drainThread tag l = some t) : s.Still t := by
  unfold State.drainThread at h
  obtain ⟨a, ha, hb⟩ := Option.bind_eq_some_iff.1 h
  split at hb
  · simp at hb
  · simp only [Option.some.injEq] at hb; subst hb; exact still_drain ha

theorem still_drainFenced {s t : State} {tag : Nat × Nat × Nat} {l n : Nat} (h : s.drainFenced tag l n = some t) : s.Still t := by
  unfold State.drainFenced at h
  obtain ⟨a, ha, hb⟩ := Option.bind_eq_some_iff.1 h
  split at hb
  · simp at hb
  · simp only [Option.some.injEq] at hb; subst hb; exact still_drain ha

theorem still_drainAll {s t : State} {tag : Nat × Nat × Nat} {ls : List Nat} (h : s.drainAll tag ls = some t) : s.Still t :=
  still_foldl? (f := fun s l => s.drainThread tag l) still_drainThread _ h

theorem still_setCore (s : State) (c : Nat) (x : CoreState) : s.Still (s.setCore c x) := still_same rfl rfl rfl
theorem still_modCore (s : State) (c : Nat) (f : CoreState → CoreState) : s.Still (s.modCore c f) := still_same rfl rfl rfl
theorem still_modCluster (s : State) (c : Nat) (f : Cluster → Cluster) : s.Still (s.modCluster c f) := still_same rfl rfl rfl

theorem still_dropL1 (s : State) (c l : Nat) : s.Still (s.dropL1 c l) := by
  unfold State.dropL1; split <;> exact still_same rfl rfl rfl

theorem still_acquireL1 (s : State) (c : Nat) (sc : Scope) : s.Still (s.acquireL1 c sc) := by
  unfold State.acquireL1
  split
  · exact .refl s
  · split <;> exact still_same rfl rfl rfl

theorem still_fillL1 (s : State) (c asid va pa : Nat) : s.Still (s.fillL1 c asid va pa) := by
  unfold State.fillL1
  simp only
  split_ifs
  · exact .refl s
  · exact .refl s
  · exact still_same rfl rfl rfl

theorem still_homeRead {s t : State} {c pa n asid : Nat} {r : Found} (h : s.homeRead c pa n asid = some (t, r)) : s.Still t := by
  unfold State.homeRead at h
  obtain ⟨a, ha, hb⟩ := Option.map_eq_some_iff.1 h
  simp only [Prod.mk.injEq] at hb
  rw [← hb.1]
  exact (still_drainLine ha).trans (still_checkAtom _ _ _ _)

theorem still_agentRead (s : State) (pa n asid : Nat) : s.Still (s.agentRead pa n asid).1 :=
  (still_drainRed s _).trans (still_checkAtom _ _ _ _)

theorem still_readHome (s : State) (c : Nat) (t : Target) (pa n asid : Nat) : s.Still (s.readHome c t pa n asid).1 := by
  unfold State.readHome
  split
  · split
    · exact .refl s
    · split
      · rename_i h; exact still_drainLine h
      · exact .refl s
  · split
    · rename_i h; exact still_homeRead h
    · rename_i h; exact still_homeRead h
    · exact .refl s

theorem still_readPlain (s : State) (c : Nat) (t : Target) (va pa n asid : Nat) : s.Still (s.readPlain c t va pa n asid).1 := by
  unfold State.readPlain
  split
  · split
    · exact .refl s
    · have h := still_readHome s c (.hbm ‹Nat›) ‹Nat› n asid
      split
      · rename_i e; rw [e] at h; exact h.trans (still_fillL1 _ _ _ _ _)
      · exact h
  · split
    · exact .refl s
    · exact still_readHome _ _ _ _ _ _
  · exact still_readHome _ _ _ _ _ _

theorem still_readScratch (s : State) (c b : Nat) (o : Bool) (off n : Nat) : s.Still (s.readScratch c b o off n).1 := by
  unfold State.readScratch
  split
  · exact .refl s
  · rename_i a ha
    have h := still_scratchRead a b o off n
    split <;> (rename_i e; rw [e] at h; exact (still_drainLine ha).trans h)

/-! ## Translation -/

theorem still_readEntry (s : State) (pa asid l : Nat) : s.Still (s.readEntry pa asid l).1 := by
  unfold State.readEntry
  have h : ∀ a, s.Still (s.agentRead a 8 asid).1 := fun a => still_agentRead s a 8 asid
  split
  · rename_i a _
    have := h a
    split <;> (rename_i e; rw [e] at this; exact this)
  · rename_i a _
    have := h a
    split <;> (rename_i e; rw [e] at this; exact this)
  · split <;> exact .refl s
  · exact .refl s
  · exact .refl s

theorem still_walkFrom (asid va : Nat) (l : Nat) (s : State) (t : Nat) : s.Still (s.walkFrom asid va l t).1 := by
  induction l generalizing s t with
  | zero =>
    unfold State.walkFrom
    have := still_readEntry s (t + 8 * tableIndex va 0) asid 0
    split <;> (rename_i e; rw [e] at this; exact this)
  | succ l ih =>
    unfold State.walkFrom
    have := still_readEntry s (t + 8 * tableIndex va (l + 1)) asid (l + 1)
    split
    · rename_i e; rw [e] at this; exact this
    · rename_i e; rw [e] at this; exact this
    · rename_i e
      rw [e] at this
      split
      · exact this
      · exact this.trans (ih _ _)

theorem still_endWalk (s : State) (cl asid root va : Nat) (w : WalkEnd) (ts : List (Nat × Nat)) :
    s.Still (s.endWalk cl asid root va w ts).1 := by
  unfold State.endWalk
  simp only
  split
  · split <;> exact still_same rfl rfl rfl
  · exact still_same rfl rfl rfl

theorem still_walkOn (s : State) (cl asid root va l t : Nat) (path : List (Nat × Nat)) :
    s.Still (s.walkOn cl asid root va l t path).1 := by
  unfold State.walkOn
  have h := still_walkFrom asid va l s t
  split
  · rename_i e; rw [e] at h; exact h.trans (still_endWalk _ _ _ _ _ _ _)
  · rename_i e
    rw [e] at h
    split
    · rename_i hs
      exact h.trans (still_pre ((still_sendRemote hs).trans (still_same rfl rfl rfl)) rfl rfl rfl)
    · exact h

theorem still_walkAnswered (s : State) (p : PendingWalk) (va st pte : Nat) : s.Still (s.walkAnswered p va st pte).1 := by
  unfold State.walkAnswered
  simp only
  split
  · split
    · exact still_pre (still_endWalk _ _ _ _ _ _ _) rfl rfl rfl
    · exact still_pre (still_walkOn _ _ _ _ _ _ _ _) rfl rfl rfl
  · exact still_pre (still_endWalk _ _ _ _ _ _ _) rfl rfl rfl

theorem still_walk (s : State) (cl asid root va : Nat) : s.Still (s.walk cl asid root va).1 := by
  unfold State.walk
  split
  · exact .refl s
  · split
    · exact .refl s
    · split
      · split
        · exact .refl s
        · exact still_walkAnswered _ _ _ _ _
      · split
        · exact .refl s
        · exact still_walkOn _ _ _ _ _ _ _ _

theorem still_installCore (s : State) (c : Nat) (e : TlbEntry) : s.Still (s.installCore c e) := still_modCore _ _ _
theorem still_installCluster (s : State) (c : Nat) (e : TlbEntry) : s.Still (s.installCluster c e) := still_modCluster _ _ _

theorem still_findLeaf (s : State) (core asid root va : Nat) (b : Bool) : s.Still (s.findLeaf core asid root va b).1 := by
  unfold State.findLeaf
  simp only
  split
  · exact .refl s
  · split
    · exact show s.Still (s.installCore core _) from still_installCore _ _ _
    · have h := still_walk s (core / 4) asid root va
      generalize s.walk (core / 4) asid root va = r at h ⊢
      obtain ⟨s1, w⟩ := r
      cases w with
      | leaf p l => exact (h.trans (still_installCluster s1 _ _)).trans (still_installCore _ _ _)
      | fault c l => exact h
      | later => exact h

theorem still_translate (s : State) (core asid root va : Nat) (acc : Access) : s.Still (s.translate core asid root va acc).1 := by
  unfold State.translate
  have h1 := still_findLeaf s core asid root va false
  generalize s.findLeaf core asid root va false = r1 at h1 ⊢
  obtain ⟨s1, w1⟩ := r1
  simp only at h1 ⊢
  have h2 : ∀ (r : State × WalkEnd), s.Still r.1 →
      s.Still (match r.2 with
        | .later => (r.1, .error .later)
        | .fault c l => (r.1, .error (.cause c l))
        | .leaf pte l => (r.1, r.1.atLeaf pte l va acc) : State × Except Miss (Target × Nat)).1 := by
    intro r hr
    split <;> exact hr
  cases w1 with
  | later => exact h2 (s1, .later) h1
  | fault c l => exact h2 (s1, .fault c l) h1
  | leaf p l =>
    by_cases hp : acc.writes = true ∧ bits p 7 1 = 0
    · simp only [if_pos hp]
      exact h2 (s1.findLeaf core asid root va true) (h1.trans (still_findLeaf s1 core asid root va true))
    · simp only [if_neg hp]
      exact h2 (s1, .leaf p l) h1

theorem still_eaAt (s : State) (k l : Nat) (sp : Space) (a n : Nat) (acc : Access) : s.Still (s.eaAt k l sp a n acc).1 := by
  unfold State.eaAt
  simp only
  split
  · exact .refl s
  · split
    · split
      · exact .refl s
      · have h := still_translate s (coreOf k) ((s.gang? k).getD .blank).asid ((s.gang? k).getD .blank).root a acc
        split <;> (rename_i e; rw [e] at h; exact h)
    · split <;> exact .refl s
    · split <;> exact .refl s

end Sys2Proof.Machine
end

