-- ==== Sys2Proof/Laws/Issue.lean ====
section
/-! SUPPORT. The spec lemma of an issue whose bodies all complete: what the commit of drafts before and after it leaves alone, and what
each thread of the gang holds when it is over. -/

namespace Sys2Proof.Machine

/-! ## What a commit leaves alone -/

/-- Two gangs that differ in the drafts of their threads and in rotation at most. -/
structure GangSim (g h : Gang) : Prop where
  rest : h = { g with threads := h.threads, slices := h.slices }
  threads : h.threads.length = g.threads.length
  slices : h.slices.length = g.slices.length
  regs : ∀ j, (h.thread j).regs = (g.thread j).regs
  sregs : ∀ j, (h.slice j).regs = (g.slice j).regs

theorem GangSim.refl (g : Gang) : GangSim g g := ⟨rfl, rfl, rfl, fun _ => rfl, fun _ => rfl⟩

theorem GangSim.trans {a b c : Gang} (h : GangSim a b) (i : GangSim b c) : GangSim a c :=
  ⟨i.rest.trans (by rw [h.rest]), i.threads.trans h.threads, i.slices.trans h.slices, fun j => (i.regs j).trans (h.regs j),
    fun j => (i.sregs j).trans (h.sregs j)⟩

/-- A thread replaced by one with the same registers. -/
theorem GangSim.setThread (g : Gang) (l : Nat) (t : Thread) (h : t.regs = (g.thread l).regs) : GangSim g (g.setThread l t) where
  rest := rfl
  threads := by simp
  slices := by simp
  regs j := by
    rw [Gang.thread_setThread]
    split
    · rename_i e; rw [h, e.1]
    · rfl
  sregs j := rfl

/-- Two states alike but for drafts, of which one is the gang `k`'s. -/
structure StateSim (k : Nat) (s t : State) (g h : Gang) : Prop where
  before : s.gang? k = some g
  after : t.gang? k = some h
  outer : t.outer = s.outer
  others : ∀ j, j ≠ k → t.gang? j = s.gang? j
  gang : GangSim g h

theorem StateSim.refl {k : Nat} {s : State} {g : Gang} (h : s.gang? k = some g) : StateSim k s s g g :=
  ⟨h, h, rfl, fun _ _ => rfl, .refl g⟩

theorem StateSim.trans {k : Nat} {r s t : State} {a b c : Gang} (h : StateSim k r s a b) (i : StateSim k s t b c) :
    StateSim k r t a c :=
  ⟨h.before, i.after, i.outer.trans h.outer, fun j hj => (i.others j hj).trans (h.others j hj), h.gang.trans i.gang⟩

theorem dropFills_steady (s : State) (c : Nat) (f : Nat → Bool) : (s.dropFills c f).link.steady = s.link.steady := by
  simp only [State.dropFills, Link.steady, List.filter_filter]
  congr 1
  refine List.filter_congr fun r _ => ?_
  cases r.src <;> rfl
theorem dropFills_outer (s : State) (c : Nat) (f : Nat → Bool) : (s.dropFills c f).outer = s.outer := by
  have h := dropFills_steady s c f
  simp only [State.outer, h]
  rfl
theorem dropL1_outer (s : State) (c l : Nat) : (s.dropL1 c l).outer = s.outer := by
  unfold State.dropL1
  split
  · have h := dropFills_outer s c (· == l)
    exact h
  · rfl
theorem dropL1_gangs (s : State) (c l : Nat) : (s.dropL1 c l).gangs = s.gangs := by
  unfold State.dropL1; split <;> rfl

theorem invalidateFor_outer (s : State) (c : Nat) (b : List StoreEntry) : (s.invalidateFor c b).outer = s.outer :=
  foldl_keeps _ State.outer (fun s e => by split <;> first | exact dropL1_outer _ _ _ | rfl) _ _
theorem invalidateFor_gangs (s : State) (c : Nat) (b : List StoreEntry) : (s.invalidateFor c b).gangs = s.gangs :=
  foldl_keeps _ State.gangs (fun s e => by split <;> first | exact dropL1_gangs _ _ _ | rfl) _ _

/-- A draft's commit (R119, R139): the gang's threads keep their registers, and the entries join the stores on their way. -/
theorem commitThread_sim {k l : Nat} {s : State} {g : Gang} (next : Pc) (h : s.gang? k = some g) :
    StateSim k s (s.commitThread k l next) g (g.setThread l ((g.thread l).committed next)) := by
  unfold State.commitThread
  simp only [h]
  refine ⟨h, by simp, ?_, fun j hj => ?_, .setThread _ _ _ rfl⟩
  · have := invalidateFor_outer s (coreOf k) (g.thread l).buf
    simp only [State.outer, State.setGang, Prod.mk.injEq] at this ⊢
    simp only [this, and_self]
  · have := invalidateFor_gangs s (coreOf k) (g.thread l).buf
    rw [State.gang?_setGang, if_neg hj]
    simp only [State.gang?, this]

/-- Commits of several LANEs. -/
theorem commitLanes_sim (ls : List Nat) {k : Nat} {s : State} {g : Gang} (pcs : Gang) (h : s.gang? k = some g) :
    ∃ g', StateSim k s (s.commitLanes k pcs ls) g g' := by
  unfold State.commitLanes
  induction ls generalizing s g with
  | nil => exact ⟨g, .refl h⟩
  | cons l ls ih =>
    have h1 := commitThread_sim (l := l) (pcs.thread l).pc h
    obtain ⟨g', h2⟩ := ih h1.after
    exact ⟨g', h1.trans h2⟩

theorem setGang_sim {k : Nat} {s : State} {g h : Gang} (hg : s.gang? k = some g) (i : GangSim g h) :
    StateSim k s (s.setGang k h) g h :=
  ⟨hg, by simp, rfl, fun j hj => by simp [hj], i⟩

/-- Commits, or drains, after an issue. -/
theorem commitOrDrain_sim (ls : List Nat) {k : Nat} {s : State} {g : Gang} (h : s.gang? k = some g) :
    ∃ g', StateSim k s (s.commitOrDrain k ls) g g' := by
  unfold State.commitOrDrain
  induction ls generalizing s g with
  | nil => exact ⟨g, .refl h⟩
  | cons l ls ih =>
    rw [List.foldl_cons]
    simp only [h]
    split
    · have h1 : StateSim k s (s.setGang k (g.setThread l { g.thread l with drain := true })) g
          (g.setThread l { g.thread l with drain := true }) := setGang_sim h (.setThread _ _ _ rfl)
      obtain ⟨g', h2⟩ := ih h1.after
      exact ⟨g', h1.trans h2⟩
    · have h1 := commitThread_sim (l := l) (g.thread l).pc h
      obtain ⟨g', h2⟩ := ih h1.after
      exact ⟨g', h1.trans h2⟩

theorem modGang_sim {k : Nat} {s : State} {g : Gang} (hg : s.gang? k = some g) (f : Gang → Gang) (i : GangSim g (f g)) :
    StateSim k s (s.modGang k f) g (f g) :=
  ⟨hg, by simp [hg], rfl, fun j hj => by simp [hj], i⟩

/-! ## Settling where nothing waits -/

theorem Gang.Quiet.notEnded {g : Gang} (q : g.Quiet) : g.allEnded = false := by
  obtain ⟨l, hl, h⟩ := q.live
  unfold Gang.thread at h
  rw [List.getD_eq_getElem?_getD, List.getElem?_eq_getElem hl, Option.getD_some] at h
  rw [Gang.allEnded, List.all_eq_false]
  exact ⟨_, List.getElem_mem hl, by simpa using h⟩

theorem settleCounts_sim (g : Gang) : GangSim g g.settleCounts :=
  ⟨rfl, rfl, by simp [Gang.settleCounts], fun _ => rfl, fun j => Gang.settleCounts_regs g j⟩

theorem settle_quiet {k : Nat} {s : State} {g : Gang} (h : s.gang? k = some g) (q : g.Quiet) :
    s.settle k = s.modGang k Gang.settleCounts := by
  have h1 : s.endGang k = s := by simp [State.endGang, h, q.notEnded]
  have h2 : s.settleWaitany k = s := by
    simp only [State.settleWaitany, h, q.gathers, List.find?_nil]
    split <;> rfl
  have h3 : s.settleCollective k = s := by simp [State.settleCollective, h, q.collects]
  simp only [State.settle, h1, h2, h3]

theorem settle_sim {k : Nat} {s : State} {g : Gang} (h : s.gang? k = some g) (q : g.Quiet) :
    ∃ g', StateSim k s (s.settle k) g g' := by
  rw [settle_quiet h q]
  exact ⟨_, modGang_sim h _ (settleCounts_sim g)⟩

/-! ## The bookkeeping of a completion leaves the registers -/

@[simp] theorem completeLoop_v (e : Pc) (n : Nat) (t : Thread) : (completeLoop e n t).v = t.v := by
  induction n generalizing t with
  | zero => rfl
  | succ n ih => unfold completeLoop; simp only; split_ifs <;> first | rfl | (rw [ih]; rfl)
@[simp] theorem completeLoop_p (e : Pc) (n : Nat) (t : Thread) : (completeLoop e n t).p = t.p := by
  induction n generalizing t with
  | zero => rfl
  | succ n ih => unfold completeLoop; simp only; split_ifs <;> first | rfl | (rw [ih]; rfl)
@[simp] theorem completeLoop_fstat (e : Pc) (n : Nat) (t : Thread) : (completeLoop e n t).fstat = t.fstat := by
  induction n generalizing t with
  | zero => rfl
  | succ n ih => unfold completeLoop; simp only; split_ifs <;> first | rfl | (rw [ih]; rfl)
@[simp] theorem completeLoop_tstate (e : Pc) (n : Nat) (t : Thread) : (completeLoop e n t).tstate = t.tstate := by
  induction n generalizing t with
  | zero => rfl
  | succ n ih => unfold completeLoop; simp only; split_ifs <;> first | rfl | (rw [ih]; rfl)
@[simp] theorem leaveLoops_v (e : Pc) (n : Nat) (t : Thread) : (leaveLoops e n t).v = t.v := by
  induction n generalizing t with
  | zero => rfl
  | succ n ih => unfold leaveLoops; split_ifs <;> first | rfl | (rw [ih]; rfl)
@[simp] theorem leaveLoops_p (e : Pc) (n : Nat) (t : Thread) : (leaveLoops e n t).p = t.p := by
  induction n generalizing t with
  | zero => rfl
  | succ n ih => unfold leaveLoops; split_ifs <;> first | rfl | (rw [ih]; rfl)
@[simp] theorem leaveLoops_fstat (e : Pc) (n : Nat) (t : Thread) : (leaveLoops e n t).fstat = t.fstat := by
  induction n generalizing t with
  | zero => rfl
  | succ n ih => unfold leaveLoops; split_ifs <;> first | rfl | (rw [ih]; rfl)
@[simp] theorem leaveLoops_tstate (e : Pc) (n : Nat) (t : Thread) : (leaveLoops e n t).tstate = t.tstate := by
  induction n generalizing t with
  | zero => rfl
  | succ n ih => unfold leaveLoops; split_ifs <;> first | rfl | (rw [ih]; rfl)

@[simp] theorem Thread.control_v (t : Thread) (c : Ctl) : (t.control c).v = t.v := by
  cases c <;> simp [Thread.control, Thread.complete, Thread.push]
@[simp] theorem Thread.control_p (t : Thread) (c : Ctl) : (t.control c).p = t.p := by
  cases c <;> simp [Thread.control, Thread.complete, Thread.push]
@[simp] theorem Thread.control_fstat (t : Thread) (c : Ctl) : (t.control c).fstat = t.fstat := by
  cases c <;> simp [Thread.control, Thread.complete, Thread.push]
@[simp] theorem Thread.control_tstate (t : Thread) (c : Ctl) : (t.control c).tstate = t.tstate := by
  cases c <;> simp [Thread.control, Thread.complete, Thread.push]

theorem dstThread_tstate (t : Thread) (d : Operand × Nat × Nat) : (dstThread t d).tstate = t.tstate := by
  obtain ⟨o, n, x⟩ := d
  cases o with
  | v i =>
    refine foldl_keeps _ Thread.tstate (fun t j => ?_) _ _
    unfold Thread.writeV; split <;> rfl
  | p i => simp only [dstThread, Thread.writeP]; split <;> rfl
  | sr r => cases r <;> rfl
  | _ => rfl

theorem Eff.issue_v (e : Eff) (b : Bool) (t : Thread) : (e.issue b t).v = t.v := by
  unfold Eff.issue; split <;> [(split <;> rfl); rfl]
theorem Eff.issue_p (e : Eff) (b : Bool) (t : Thread) : (e.issue b t).p = t.p := by
  unfold Eff.issue; split <;> [(split <;> rfl); rfl]
theorem Eff.issue_fstat (e : Eff) (b : Bool) (t : Thread) : (e.issue b t).fstat = t.fstat := by
  unfold Eff.issue; split <;> [(split <;> rfl); rfl]
theorem Eff.issue_tstate (e : Eff) (b : Bool) (t : Thread) : (e.issue b t).tstate = t.tstate := by
  unfold Eff.issue; split <;> [(split <;> rfl); rfl]
theorem Eff.thread_v (e : Eff) (b : Bool) (u : Units × Units) (t : Thread) : (e.thread b u t).v = (e.dst.foldl dstThread t).v := by
  unfold Eff.thread Eff.close; simp only; split <;> simp [Thread.track, Thread.setUnits, Eff.issue_v]
theorem Eff.thread_p (e : Eff) (b : Bool) (u : Units × Units) (t : Thread) : (e.thread b u t).p = (e.dst.foldl dstThread t).p := by
  unfold Eff.thread Eff.close; simp only; split <;> simp [Thread.track, Thread.setUnits, Eff.issue_p]
theorem Eff.thread_fstat (e : Eff) (b : Bool) (u : Units × Units) (t : Thread) :
    (e.thread b u t).fstat = (e.dst.foldl dstThread t).fstat ||| e.flags := by
  unfold Eff.thread Eff.close; simp only; split <;> simp [Thread.track, Thread.setUnits, Eff.issue_fstat]
theorem Eff.thread_tstate (e : Eff) (b : Bool) (u : Units × Units) (t : Thread) :
    (e.thread b u t).tstate = e.park.getD t.tstate := by
  unfold Eff.thread Eff.close
  have h : (e.issue b (e.dst.foldl dstThread t)).tstate = t.tstate :=
    (Eff.issue_tstate _ _ _).trans (foldl_keeps dstThread Thread.tstate dstThread_tstate _ _)
  cases hp : e.park <;> simp [Thread.track, Thread.setUnits, h]
theorem falseThread_tstate (f : Fields) (t : Thread) : (falseThread f t).tstate = t.tstate := by
  simp [falseThread, Thread.track, Thread.setUnits]
theorem falseThread_v (f : Fields) (t : Thread) : (falseThread f t).v = t.v := by simp [falseThread, Thread.track, Thread.setUnits]
theorem falseThread_p (f : Fields) (t : Thread) : (falseThread f t).p = t.p := by simp [falseThread, Thread.track, Thread.setUnits]
theorem falseThread_fstat (f : Fields) (t : Thread) : (falseThread f t).fstat = t.fstat := by
  simp [falseThread, Thread.track, Thread.setUnits]

/-! ## The issue -/

theorem filter_all {α : Type} (l : List α) (p : α → Bool) (h : ∀ x ∈ l, p x = true) : l.filter p = l := List.filter_eq_self.2 h
theorem filter_no {α : Type} (l : List α) (p : α → Bool) (h : ∀ x ∈ l, p x = false) : l.filter p = [] :=
  List.filter_eq_nil_iff.2 fun x hx => by simp [h x hx]

/-- Every LANE with a true guard belongs to a group. -/
theorem groups_cover (op : Op) (go : List Nat) (l : Nat) (h : l ∈ go) : ((op.groups go).any fun x => x.2.contains l) = true := by
  rw [List.any_eq_true]
  unfold Op.groups
  split
  · cases go with
    | nil => simp at h
    | cons a r => exact ⟨_, List.mem_singleton.2 rfl, by simpa using h⟩
  · split
    · have hl : l ∈ go.filter fun x => x / 4 == l / 4 := by simp [h]
      cases hc : go.filter fun x => x / 4 == l / 4 with
      | nil => rw [hc] at hl; simp at hl
      | cons a r =>
        refine ⟨(a, a :: r), List.mem_filterMap.2 ⟨l / 4, by simpa using ⟨l, h, rfl⟩, by simp only [hc]⟩, ?_⟩
        rw [hc] at hl; simpa using hl
    · exact ⟨(l, [l]), List.mem_map.2 ⟨l, h, rfl⟩, by simp⟩

theorem narrowed_nil (s : State) : s.narrowed [] = s := by
  have h : s.focus.lanes &&& ~~~(laneSet []) = s.focus.lanes := by
    show s.focus.lanes &&& ~~~(0#64) = s.focus.lanes
    ext i hi
    simp only [BitVec.getElem_and, BitVec.getElem_not, BitVec.getElem_zero, Bool.not_false, Bool.and_true]
  simp only [State.narrowed, h]

/-- What an issue that may execute at once finds: no fault, and every thread executing. -/
theorem sort_ready {op : Op} {f : Fields} {s : State} {g : Gang} (h : op.Ready f s g) :
    op.sort f g (s.focusLanes g) = ⟨[], [], s.gfLanes f g, [], [], op.groups (s.goLanes f g), s.goLanes f g⟩ := by
  have h1 : (s.focusLanes g).filter (fun l => (g.thread l).due.isNone) = s.focusLanes g :=
    filter_all _ _ fun l hl => by simp [(h.seen l hl).1]
  have h2 : (s.focusLanes g).filter (fun l => !g.errorAt l (.p f.pred) 1) = s.focusLanes g :=
    filter_all _ _ fun l hl => by simp [(h.seen l hl).2]
  have h3 : (s.focusLanes g).filter (fun l => g.errorAt l (.p f.pred) 1) = [] := filter_no _ _ fun l hl => (h.seen l hl).2
  have h4 : (s.focusLanes g).filterMap (fun l => (g.thread l).due) = [] :=
    List.filterMap_eq_nil_iff.2 fun l hl => (h.seen l hl).1
  have h5 : (op.groups (s.goLanes f g)).filter (op.empties g) = [] := filter_no _ _ fun x hx => (h.full x hx).1
  have h6 : (op.groups (s.goLanes f g)).filter (fun x => !op.empties g x) = op.groups (s.goLanes f g) :=
    filter_all _ _ fun x hx => by simp [(h.full x hx).1]
  have h7 : (op.groups (s.goLanes f g)).filter (op.spoils g) = [] := filter_no _ _ fun x hx => (h.full x hx).2.2
  have h8 : (op.groups (s.goLanes f g)).filter (fun x => !op.spoils g x) = op.groups (s.goLanes f g) :=
    filter_all _ _ fun x hx => by simp [(h.full x hx).2.2]
  have h9 : (s.goLanes f g).filter (fun l => (op.groups (s.goLanes f g)).any fun x => x.2.contains l) = s.goLanes f g :=
    filter_all _ _ fun l hl => groups_cover op _ l hl
  have hg : (s.focusLanes g).filter (fun l => (g.thread l).guard f) = s.goLanes f g := rfl
  have hn : (s.focusLanes g).filter (fun l => !(g.thread l).guard f) = s.gfLanes f g := rfl
  simp only [Op.sort, h1, h2, h3, h4, hg, hn, h5, h6, h7, h8, h9]

/-- An issue that may execute at once is the performance of its bodies in the opened state. -/
theorem runOp_ready {op : Op} {f : Fields} {s : State} {g : Gang} (h : op.Ready f s g) :
    s.runOp f op = ((s.opened f op g).perform f op (s.goLanes f g) (s.gfLanes f g) (s.focusLanes g) [] s.seqCtr s.clock).getD
      (s.commitLanes s.focus.key g (op.bounds f s g (s.goLanes f g) (s.gfLanes f g))) := by
  have hblk : (op.groups (s.goLanes f g)).any (op.stalls g) = false :=
    List.any_eq_false.2 fun x hx => by simp [(h.full x hx).2.1]
  have hbusy := filter_no _ _ h.free
  have hw : (s.goLanes f g).findSome? (op.walks s) = none := List.findSome?_eq_none_iff.2 h.mapped
  have hs := sort_ready h
  simp only [State.focusLanes] at hs
  simp only [State.runOp, h.gang, hs, List.nil_append, hblk, Bool.false_eq_true, if_false, Op.early, List.map_nil, groupFaults,
    List.flatMap_nil, List.append_nil, narrowed_nil, List.filter_nil, hbusy, ne_eq, not_true_eq_false, or_self, hw]
  rfl

theorem opened_sim {op : Op} {f : Fields} {s : State} {g : Gang} (h : s.gang? s.focus.key = some g) :
    ∃ g2, StateSim s.focus.key s (s.opened f op g) g g2 := by
  obtain ⟨g2, i⟩ := commitLanes_sim (op.bounds f s g (s.goLanes f g) (s.gfLanes f g)) g h
  exact ⟨g2, ⟨i.before, i.after, i.outer, i.others, i.gang⟩⟩

theorem forMembers_none (e : Eff) (m : Lanes) (h : e.prod = .none) : e.forMembers m = e := by
  cases e; simp_all [Eff.forMembers]

theorem lanesOf_nodup (m : Lanes) (w : Nat) : (lanesOf m w).Nodup := List.nodup_range.filter _
theorem lanesOf_lt {m : Lanes} {w l : Nat} (h : l ∈ lanesOf m w) : l < w := List.mem_range.1 (List.mem_filter.1 h).1

/-- Bodies that all complete and leave the state alone. -/
theorem runGroups_pure (op : Op) (s : State) (E : Nat → Eff) (L : List (Nat × List Nat))
    (h : ∀ x ∈ L, op.body s x.1 = (s, .ok (E x.1))) :
    op.runGroups L s false = some (s, L.map fun x => (x.1, x.2, .ok (E x.1))) := by
  induction L with
  | nil => rfl
  | cons x L ih =>
    obtain ⟨l, ms⟩ := x
    have hx := h (l, ms) List.mem_cons_self
    have hi := ih fun y hy => h y (List.mem_cons_of_mem _ hy)
    have hr : (Res.ok (E l) == Res.wait) = false := by simp
    simp only at hx
    simp only [Op.runGroups, Bool.false_and, Bool.false_eq_true, if_false, hx, reduceCtorEq, hr, Bool.or_self, hi, Option.map_some,
      List.map_cons]

theorem faultsOf_pure (L : List (Nat × List Nat)) (E : Nat → Eff) : faultsOf (L.map fun x => (x.1, x.2, .ok (E x.1))) = [] := by
  simp [faultsOf, List.flatMap_map]
theorem lanesWith_pure (L : List (Nat × List Nat)) (E : Nat → Eff) (r : Res) (h : ∀ e, r ≠ .ok e) :
    lanesWith (L.map fun x => (x.1, x.2, .ok (E x.1))) r = [] := by
  simp only [lanesWith, List.flatMap_map, List.flatMap_eq_nil_iff]
  intro x _
  rw [if_neg fun e => h _ e.symm]

/-- The completions of groups whose bodies complete with given effects. -/
def oksOf (L : List (Nat × List Nat)) (E : Nat → Eff) : List (Nat × Bool × Eff) :=
  L.flatMap fun x => x.2.map fun l => (l, l == x.1, (E x.1).forMembers (laneSet x.2))

theorem completions_pure (L : List (Nat × List Nat)) (E : Nat → Eff) :
    completions (L.map fun x => (x.1, x.2, .ok (E x.1))) = oksOf L E := by
  simp only [completions, oksOf, List.flatMap_map]

/-- Bodies that all complete: the bookkeeping that follows. -/
theorem perform_oks {op : Op} {f : Fields} {s s1 : State} {g0 g1 : Gang} {go gf mask : List Nat} {L : List (Nat × List Nat)}
    (E : Nat → Eff) (seq since : Nat) (h0 : s.gang? s.focus.key = some g0) (hready : op.ready s go = true)
    (hrun : op.runGroups (op.groups go) s false = some (s1, L.map fun x => (x.1, x.2, .ok (E x.1))))
    (h1 : s1.gang? s.focus.key = some g1) :
    s.perform f op go gf mask [] seq since = some ((op.post
      ((((s1.setGang s.focus.key (op.gangAfter f s g0 g1 (oksOf L E) gf mask)).commitOrDrain s.focus.key
        (op.finishAll f s g0 g1 (oksOf L E) gf).2).modGang s.focus.key fun g =>
          if op.cls == .ending then g.modLanes (laneSet ((oksOf L E).map (·.1))) fun t => { t with solo := t.drain } else g))
      ((oksOf L E).map (·.1)) [] gf).settle s.focus.key) := by
  have hw := lanesWith_pure L E .wait (fun e he => by cases he)
  have hs := lanesWith_pure L E .stand (fun e he => by cases he)
  simp only [State.perform, hready, if_true, hrun, Option.map_some, h0, h1, faultsOf_pure, List.append_nil, List.filter_nil, ne_eq,
    not_true_eq_false, if_false, completions_pure, hw, hs, State.addWait, State.trapLanes, State.logSpoilt, List.foldl_nil]

/-- A gang after the completions of an issue: its threads and slices. -/
theorem gangAfter_holds {op : Op} {f : Fields} {s : State} {g0 g1 : Gang} {oks : List (Nat × Bool × Eff)} {gf mask : List Nat}
    (hn : (oks.map (·.1)).Nodup) (hl : ∀ x ∈ oks, x.1 < g1.threads.length) (hs : ∀ x ∈ oks, x.1 / 4 < g1.slices.length)
    (hgn : gf.Nodup) (hgl : ∀ l ∈ gf, l < g1.threads.length) (hd : ∀ x ∈ oks, x.1 ∉ gf) :
    let A := op.gangAfter f s g0 g1 oks gf mask
    A.threads.length = g1.threads.length ∧
    (∀ x ∈ oks, A.thread x.1 = x.2.2.thread (isUniform op.dsts) (op.units f s g0 x.1) (g1.thread x.1)) ∧
    (∀ l ∈ gf, A.thread l = falseThread f (g1.thread l)) ∧
    (∀ j, (∀ x ∈ oks, x.1 ≠ j) → j ∉ gf → A.thread j = g1.thread j) ∧
    ∀ i, (A.slice i).regs =
      ((oks.filter fun x => x.1 / 4 == i).foldl (fun y x => x.2.2.slice (isUniform op.dsts) x.2.1 y) (g1.slice i)).regs := by
  intro A
  let O := oks.foldl (fun acc x =>
      let r := op.finish (op.units f s g0 x.1) acc.1 x.1 x.2.1 x.2.2
      (r.1, if r.2 then acc.2 ++ [x.1] else acc.2)) ((g1, []) : Gang × List Nat)
  let R := op.finishAll f s g0 g1 oks gf
  have hOl : O.1.threads.length = g1.threads.length := finishOks_threads_length op f s g0 oks (g1, [])
  have hOt := fun j => finishOks_thread op f s g0 oks (g1, []) hn hl j
  have hRt : ∀ j, R.1.thread j = if j ∈ gf then falseThread f (O.1.thread j) else O.1.thread j := fun j =>
    finishGf_thread f gf O hgn (fun l h => by rw [hOl]; exact hgl l h) j
  have hA : A.threads = R.1.threads := (Gang.hint_threads _ _ _ _ _).trans (Gang.rotate_threads _ _ _ _)
  have hAt : ∀ j, A.thread j = R.1.thread j := fun j => Gang.thread_congr hA j
  have hno : ∀ j, (∀ x ∈ oks, x.1 ≠ j) → O.1.thread j = g1.thread j := fun j hj => by
    have hf : oks.find? (fun x => x.1 == j) = .none := List.find?_eq_none.2 fun x hx he => hj x hx (by simpa using he)
    have := hOt j
    simp only [hf] at this
    exact this
  refine ⟨?_, ?_, ?_, ?_, ?_⟩
  · rw [hA]; exact (finishGf_threads_length f gf O).trans hOl
  · intro x hx
    have hf : oks.find? (fun y => y.1 == x.1) = some x := by
      have hfs : (oks.find? fun y => y.1 == x.1).isSome := List.find?_isSome.2 ⟨x, hx, by simp⟩
      obtain ⟨y, hy⟩ := Option.isSome_iff_exists.1 hfs
      have hy1 := List.mem_of_find?_eq_some hy
      have hy2 : y.1 = x.1 := by simpa using List.find?_some hy
      rw [hy, List.inj_on_of_nodup_map hn hy1 hx hy2]
    have := hOt x.1
    simp only [hf] at this
    rw [hAt, hRt, if_neg (hd x hx)]
    exact this
  · intro l hl'
    rw [hAt, hRt, if_pos hl', hno l fun x hx e => hd x hx (e ▸ hl')]
  · intro j hj hj'
    rw [hAt, hRt, if_neg hj', hno j hj]
  · intro i
    have h1 : (A.slice i).regs = (R.1.slice i).regs := (Gang.hint_regs _ _ _ _ _ i).trans (Gang.rotate_regs _ _ _ _ i)
    have h2 : R.1.slice i = _ := (finishGf_slice f gf O i).trans (finishOks_slice op f s g0 oks (g1, []) hs i)
    rw [h1, h2]

/-- Everything after the completions leaves registers alone: commits, the solo marks of ending instructions and settling. -/
theorem closing_before {k : Nat} {s : State} {A : Gang} (op : Op) (C ls : List Nat) (q : A.Quiet) :
    ∃ g', StateSim k (s.setGang k A)
      (((s.setGang k A).commitOrDrain k C).modGang k fun g =>
        if op.cls == .ending then g.modLanes (laneSet ls) fun t => { t with solo := t.drain } else g) A g' ∧ g'.Quiet := by
  obtain ⟨g1, h1⟩ := commitOrDrain_sim C (show (s.setGang k A).gang? k = some A by simp)
  have hm : GangSim g1 (if op.cls == .ending then g1.modLanes (laneSet ls) fun t => { t with solo := t.drain } else g1) := by
    split
    · refine ⟨rfl, by simp, rfl, fun j => ?_, fun _ => rfl⟩
      by_cases hj : j < g1.threads.length
      · rw [Gang.thread_modLanes _ _ _ _ hj]; split <;> rfl
      · simp only [Gang.thread, List.getD_eq_getElem?_getD]
        rw [List.getElem?_eq_none (by simpa using Nat.le_of_not_lt hj), List.getElem?_eq_none (Nat.le_of_not_lt hj)]
    · exact .refl _
  have h2 := modGang_sim h1.after
    (fun g => if op.cls == .ending then g.modLanes (laneSet ls) fun t => { t with solo := t.drain } else g) hm
  have h3 := h1.trans h2
  have q2 : (if op.cls == .ending then g1.modLanes (laneSet ls) fun t => { t with solo := t.drain } else g1).Quiet := by
    have hr := h3.gang.rest
    refine ⟨?_, ?_, ?_⟩
    · rw [hr]; exact q.gathers
    · rw [hr]; exact q.collects
    · obtain ⟨l, hl, hl'⟩ := q.live
      refine ⟨l, by rw [h3.gang.threads]; exact hl, ?_⟩
      have := congrArg Thread.tstate (h3.gang.regs l)
      simp only [Thread.regs] at this
      rw [this]; exact hl'
  exact ⟨_, h3, q2⟩

theorem closing_quiet {k : Nat} {s : State} {A : Gang} (op : Op) (C ls : List Nat) (q : A.Quiet) :
    ∃ g', (((s.setGang k A).commitOrDrain k C).modGang k fun g =>
        if op.cls == .ending then g.modLanes (laneSet ls) fun t => { t with solo := t.drain } else g).gang? k = some g' ∧ g'.Quiet := by
  obtain ⟨g', h, q'⟩ := closing_before (k := k) (s := s) op C ls q
  exact ⟨g', h.after, q'⟩

theorem closing_sim {k : Nat} {s : State} {A : Gang} (op : Op) (C ls : List Nat) (q : A.Quiet) :
    ∃ g', StateSim k (s.setGang k A)
      ((((s.setGang k A).commitOrDrain k C).modGang k fun g =>
        if op.cls == .ending then g.modLanes (laneSet ls) fun t => { t with solo := t.drain } else g).settle k) A g' := by
  obtain ⟨g', h, q'⟩ := closing_before (k := k) (s := s) op C ls q
  obtain ⟨g3, h4⟩ := settle_sim h.after q'
  exact ⟨g3, h.trans h4⟩

/-! ## Buffered entries stay on their way -/

theorem dropL1_mem (s : State) (c l : Nat) : (s.dropL1 c l).mem = s.mem := by
  unfold State.dropL1; split <;> rfl
theorem invalidateFor_mem (s : State) (c : Nat) (b : List StoreEntry) : (s.invalidateFor c b).mem = s.mem :=
  foldl_keeps _ State.mem (fun s e => by split <;> first | exact dropL1_mem _ _ _ | rfl) _ _

theorem onItsWay_setGang {s : State} {k l : Nat} {g h : Gang} {x : StoreEntry} (hg : s.gang? k = some g)
    (hb : ∀ y ∈ (g.thread l).buf, y ∈ (h.thread l).buf) (hx : s.onItsWay k l x) : (s.setGang k h).onItsWay k l x := by
  rcases hx with ⟨g', hg', hx⟩ | hx
  · rw [hg] at hg'
    simp only [Option.some.injEq] at hg'
    subst hg'
    exact .inl ⟨h, by simp, hb x hx⟩
  · exact .inr hx

theorem onItsWay_commitThread {s : State} {k l j : Nat} {x : StoreEntry} (next : Pc) (hx : s.onItsWay k l x) :
    (s.commitThread k j next).onItsWay k l x := by
  unfold State.commitThread
  split
  · exact hx
  · rename_i g hg
    have hm : (s.invalidateFor (coreOf k) (g.thread j).buf).mem = s.mem := invalidateFor_mem _ _ _
    rcases hx with ⟨g', hg', hx⟩ | hx
    · rw [hg] at hg'
      simp only [Option.some.injEq] at hg'
      subst hg'
      by_cases hj : l = j
      · subst hj
        exact .inr (List.mem_append_right _ hx)
      · refine .inl ⟨g.setThread j ((g.thread j).committed next), by simp, ?_⟩
        rw [Gang.thread_setThread, if_neg fun h => hj h.1]; exact hx
    · refine .inr (List.mem_append_left _ ?_)
      show x ∈ (s.invalidateFor (coreOf k) (g.thread j).buf).mem.inflight
      rw [hm]; exact hx

theorem onItsWay_commitOrDrain (ls : List Nat) {s : State} {k l : Nat} {x : StoreEntry} (hx : s.onItsWay k l x) :
    (s.commitOrDrain k ls).onItsWay k l x := by
  unfold State.commitOrDrain
  induction ls generalizing s with
  | nil => exact hx
  | cons j ls ih =>
    rw [List.foldl_cons]
    refine ih ?_
    cases hg : s.gang? k with
    | none => exact hx
    | some g =>
      simp only
      split
      · refine onItsWay_setGang hg (fun y hy => ?_) hx
        rw [Gang.thread_setThread]
        split
        · rename_i h; rw [h.1] at hy; exact hy
        · exact hy
      · exact onItsWay_commitThread _ hx

theorem onItsWay_modGang {s : State} {k l : Nat} {x : StoreEntry} (f : Gang → Gang)
    (hf : ∀ g, ∀ y ∈ (g.thread l).buf, y ∈ ((f g).thread l).buf) (hx : s.onItsWay k l x) : (s.modGang k f).onItsWay k l x := by
  rcases hx with ⟨g, hg, hx⟩ | hx
  · exact .inl ⟨f g, by simp [hg], hf g x hx⟩
  · exact .inr hx

theorem onItsWay_before {k l : Nat} {s : State} {A : Gang} (op : Op) (C ls : List Nat) (x : StoreEntry)
    (hx : x ∈ (A.thread l).buf) :
    State.onItsWay (((s.setGang k A).commitOrDrain k C).modGang k fun g =>
        if op.cls == .ending then g.modLanes (laneSet ls) fun t => { t with solo := t.drain } else g) k l x := by
  have h1 : ((s.setGang k A).commitOrDrain k C).onItsWay k l x := onItsWay_commitOrDrain _ (.inl ⟨A, by simp, hx⟩)
  have hb : ∀ g : Gang, ((if op.cls == .ending then g.modLanes (laneSet ls) fun t => { t with solo := t.drain } else g).thread l).buf =
      (g.thread l).buf := by
    intro g
    split
    · by_cases hj : l < g.threads.length
      · rw [Gang.thread_modLanes _ _ _ _ hj]; split <;> rfl
      · simp only [Gang.thread, List.getD_eq_getElem?_getD]
        rw [List.getElem?_eq_none (by simpa using Nat.le_of_not_lt hj), List.getElem?_eq_none (Nat.le_of_not_lt hj)]
    · rfl
  exact onItsWay_modGang (fun g => if op.cls == .ending then g.modLanes (laneSet ls) fun t => { t with solo := t.drain } else g)
    (fun g y hy => by rw [hb]; exact hy) h1

theorem onItsWay_closing {k l : Nat} {s : State} {A : Gang} (op : Op) (C ls : List Nat) (q : A.Quiet) (x : StoreEntry)
    (hx : x ∈ (A.thread l).buf) :
    State.onItsWay ((((s.setGang k A).commitOrDrain k C).modGang k fun g =>
        if op.cls == .ending then g.modLanes (laneSet ls) fun t => { t with solo := t.drain } else g).settle k) k l x := by
  obtain ⟨g1, h3⟩ := closing_quiet (s := s) op C ls q
  rw [settle_quiet h3.1 h3.2]
  exact onItsWay_modGang _ (fun g y hy => hy) (onItsWay_before op C ls x hx)

/-- What an issue leaves when its bodies all complete: but for drafts it is the state after the bodies with the gang that
`Op.gangAfter` gives. -/
theorem runOp_oks {op : Op} {f : Fields} {s s1 : State} {g g1 : Gang} {L : List (Nat × List Nat)} (h : op.Ready f s g)
    (E : Nat → Eff) (hready : op.ready (s.opened f op g) (s.goLanes f g) = true)
    (hrun : op.runGroups (op.groups (s.goLanes f g)) (s.opened f op g) false =
      some (s1, L.map fun x => (x.1, x.2, .ok (E x.1))))
    (h1 : s1.gang? s.focus.key = some g1) (hf1 : s1.focus = s.focus) (g2 : Gang)
    (h2 : (s.opened f op g).gang? s.focus.key = some g2)
    (hw : (op.gangAfter f (s.opened f op g) g2 g1 (oksOf L E) (s.gfLanes f g) (s.focusLanes g)).width = g.width)
    (hpost : ∀ t g', t.focus = s.focus → t.gang? s.focus.key = some g' → g'.width = g.width →
      op.post t ((oksOf L E).map (·.1)) [] (s.gfLanes f g) = t)
    (q : (op.gangAfter f (s.opened f op g) g2 g1 (oksOf L E) (s.gfLanes f g) (s.focusLanes g)).Quiet) :
    ∃ g', StateSim s.focus.key
      (s1.setGang s.focus.key (op.gangAfter f (s.opened f op g) g2 g1 (oksOf L E) (s.gfLanes f g) (s.focusLanes g)))
      (s.runOp f op) (op.gangAfter f (s.opened f op g) g2 g1 (oksOf L E) (s.gfLanes f g) (s.focusLanes g)) g' ∧
      ∀ l, ∀ x ∈ ((op.gangAfter f (s.opened f op g) g2 g1 (oksOf L E) (s.gfLanes f g) (s.focusLanes g)).thread l).buf,
        (s.runOp f op).onItsWay s.focus.key l x := by
  obtain ⟨_, sim⟩ := opened_sim (op := op) (f := f) h.gang
  have hfocus : (s.opened f op g).focus = s.focus := congrArg (fun o => o.2.2.2.1) sim.outer
  have hp := perform_oks (op := op) (f := f) (s := s.opened f op g) (gf := s.gfLanes f g) (mask := s.focusLanes g) E s.seqCtr s.clock
    (by rw [hfocus]; exact h2) hready hrun (by rw [hfocus]; exact h1)
  obtain ⟨g3, h3, -⟩ := closing_before (k := s.focus.key) (s := s1) op
    (op.finishAll f (s.opened f op g) g2 g1 (oksOf L E) (s.gfLanes f g)).2 ((oksOf L E).map (·.1)) q
  have hpo := hpost _ g3 ((congrArg (fun o => o.2.2.2.1) h3.outer).trans hf1) h3.after (by rw [h3.gang.rest]; exact hw)
  rw [runOp_ready h, hp, Option.getD_some, hfocus, hpo]
  obtain ⟨g', h'⟩ := closing_sim (k := s.focus.key) (s := s1) op
    (op.finishAll f (s.opened f op g) g2 g1 (oksOf L E) (s.gfLanes f g)).2 ((oksOf L E).map (·.1)) q
  exact ⟨g', h', fun l x hx => onItsWay_closing op _ _ q x hx⟩

end Sys2Proof.Machine
end

