-- ==== Sys2Proof/Laws/Registers.lean ====
section
/-! SUPPORT. Reads of general registers after writes, the hard-wired v255, s63 and p7 among them (R44, R45). -/

namespace Sys2Proof.Machine

/-- A v register after a write: v255 stays zero. -/
theorem readV_writeV (t : Thread) (i j : Nat) (x : W32) :
    (t.writeV i x).readV j = if j = i ∧ i < 255 then x else t.readV j := by
  unfold Thread.writeV Thread.readV
  by_cases hi : 255 ≤ i
  · simp [hi, Nat.not_lt.2 hi]
  · by_cases hj : 255 ≤ j
    · have : ¬ j = i := by omega
      simp [hj, this]
    · simp only [hi, hj, if_false, tab_getD_put, Nat.lt_of_not_le hi, and_true]

theorem readS_writeS (t : SliceState) (i j : Nat) (x : W32) :
    (t.writeS i x).readS j = if j = i ∧ i < 63 then x else t.readS j := by
  unfold SliceState.writeS SliceState.readS
  by_cases hi : 63 ≤ i
  · simp [hi, Nat.not_lt.2 hi]
  · by_cases hj : 63 ≤ j
    · have : ¬ j = i := by omega
      simp [hj, this]
    · simp only [hi, hj, if_false, tab_getD_put, Nat.lt_of_not_le hi, and_true]

theorem readP_writeP (t : Thread) (i j : Nat) (b : Bool) :
    (t.writeP i b).readP j = if j = i ∧ i < 7 then b else t.readP j := by
  unfold Thread.writeP Thread.readP
  by_cases hi : 7 ≤ i
  · simp [hi, Nat.not_lt.2 hi]
  · by_cases hj : 7 ≤ j
    · have : ¬ j = i := by omega
      simp [hi, hj, this]
    · have h7 : i < 7 := Nat.lt_of_not_le hi
      have hj7 : j < 8 := by omega
      simp only [hi, hj, if_false, h7, and_true, decide_false, Bool.false_or, BitVec.getLsbD_or, BitVec.getLsbD_and,
        BitVec.getLsbD_not, BitVec.getLsbD_twoPow, hj7, decide_true, Bool.true_and]
      by_cases he : j = i
      · subst he; cases b <;> simp [BitVec.getLsbD_twoPow] <;> omega
      · have he' : ¬ i = j := fun e => he e.symm
        cases b <;> simp [he, he', BitVec.getLsbD_twoPow]

/-- A register word that a write gives, whatever stood there. -/
theorem readV_writeVs (t : Thread) (i n x j : Nat) :
    (t.writeVs i n x).readV j = if i ≤ j ∧ j < i + n ∧ j < 255 then BitVec.ofNat 32 (x / 2 ^ (32 * (j - i))) else t.readV j := by
  unfold Thread.writeVs
  induction n with
  | zero =>
    have : ¬ (i ≤ j ∧ j < i + 0 ∧ j < 255) := by omega
    rw [if_neg this]; rfl
  | succ n ih =>
    rw [List.range_succ, List.foldl_append, List.foldl_cons, List.foldl_nil, readV_writeV, ih]
    by_cases hj : j = i + n
    · subst hj
      by_cases h255 : i + n < 255
      · rw [if_pos ⟨rfl, h255⟩, if_pos (by omega), Nat.add_sub_cancel_left]
      · rw [if_neg (by omega), if_neg (by omega), if_neg (by omega)]
    · rw [if_neg (by omega)]
      by_cases h : i ≤ j ∧ j < i + n ∧ j < 255
      · rw [if_pos h, if_pos (by omega)]
      · rw [if_neg h, if_neg (by omega)]

theorem readS_writeSs (t : SliceState) (i n x j : Nat) :
    (t.writeSs i n x).readS j = if i ≤ j ∧ j < i + n ∧ j < 63 then BitVec.ofNat 32 (x / 2 ^ (32 * (j - i))) else t.readS j := by
  unfold SliceState.writeSs
  induction n with
  | zero =>
    have : ¬ (i ≤ j ∧ j < i + 0 ∧ j < 63) := by omega
    rw [if_neg this]; rfl
  | succ n ih =>
    rw [List.range_succ, List.foldl_append, List.foldl_cons, List.foldl_nil, readS_writeS, ih]
    by_cases hj : j = i + n
    · subst hj
      by_cases h255 : i + n < 63
      · rw [if_pos ⟨rfl, h255⟩, if_pos (by omega), Nat.add_sub_cancel_left]
      · rw [if_neg (by omega), if_neg (by omega), if_neg (by omega)]
    · rw [if_neg (by omega)]
      by_cases h : i ≤ j ∧ j < i + n ∧ j < 63
      · rw [if_pos h, if_pos (by omega)]
      · rw [if_neg h, if_neg (by omega)]

/-- What destinations write to an s register does not depend on what the slice held. -/
theorem dstSlices_over (ds : List (Operand × Nat × Nat)) (j : Nat) :
    ∃ w : Option W32, ∀ x : SliceState, (ds.foldl dstSlice x).readS j = w.getD (x.readS j) := by
  induction ds with
  | nil => exact ⟨none, fun _ => rfl⟩
  | cons d ds ih =>
    obtain ⟨w, hw⟩ := ih
    obtain ⟨o, n, v⟩ := d
    have keep : (∀ x, dstSlice x (o, n, v) = x) →
        ∃ w : Option W32, ∀ x : SliceState, (((o, n, v) :: ds).foldl dstSlice x).readS j = w.getD (x.readS j) := fun h =>
      ⟨w, fun x => by rw [List.foldl_cons, h, hw]⟩
    cases o with
    | s i =>
      by_cases h : i.toNat ≤ j ∧ j < i.toNat + n ∧ j < 63
      · refine ⟨some (w.getD (BitVec.ofNat 32 (v / 2 ^ (32 * (j - i.toNat))))), fun x => ?_⟩
        rw [List.foldl_cons, hw, Option.getD_some, dstSlice, readS_writeSs, if_pos h]
      · refine ⟨w, fun x => ?_⟩
        rw [List.foldl_cons, hw, dstSlice, readS_writeSs, if_neg h]
    | _ => exact keep fun _ => rfl

theorem dstSlices_pend (ds : List (Operand × Nat × Nat)) (x : SliceState) : (ds.foldl dstSlice x).pend = x.pend := by
  induction ds generalizing x with
  | nil => rfl
  | cons d ds ih =>
    rw [List.foldl_cons, ih]
    obtain ⟨o, n, v⟩ := d
    cases o with
    | s i =>
      unfold dstSlice SliceState.writeSs
      induction n with
      | zero => rfl
      | succ n ihn =>
        simp only [List.range_succ, List.foldl_append, List.foldl_cons, List.foldl_nil] at ihn ⊢
        rw [← ihn]; unfold SliceState.writeS; split <;> rfl
    | _ => rfl

end Sys2Proof.Machine
end

