-- ==== Sys2Proof/Laws/Deliver.lean ====
section
/-! SUPPORT. The spec lemma of an issue in the terms of `Delivered`: what the threads and slices of the focused gang hold once an
instruction has completed in each executing thread. -/

namespace Sys2Proof.Machine

/-! ## Completion does not look at drafts -/

theorem regs_dstThread (t : Thread) (d : Operand × Nat × Nat) : (dstThread t d).regs = (dstThread t.regs d).regs := by
  obtain ⟨o, n, x⟩ := d
  cases o with
  | v i =>
    unfold dstThread Thread.writeVs
    generalize List.range n = l
    simp only
    induction l generalizing t with
    | nil => rfl
    | cons j l ih =>
      rw [List.foldl_cons, List.foldl_cons, ih, ih (Thread.writeV t.regs _ _)]
      unfold Thread.writeV; split <;> rfl
  | p i => simp only [dstThread, Thread.writeP]; split <;> rfl
  | sr r => cases r <;> rfl
  | _ => rfl

theorem regs_regs (t : Thread) : t.regs.regs = t.regs := rfl

theorem regs_dstThreads (ds : List (Operand × Nat × Nat)) (t u : Thread) (h : t.regs = u.regs) :
    (ds.foldl dstThread t).regs = (ds.foldl dstThread u).regs := by
  induction ds generalizing t u with
  | nil => exact h
  | cons d ds ih => exact ih _ _ (by rw [regs_dstThread, h, ← regs_dstThread])

theorem regs_completeLoop (e : Pc) (n : Nat) (t : Thread) : (completeLoop e n t).regs = completeLoop e n t.regs := by
  induction n generalizing t with
  | zero => rfl
  | succ n ih =>
    unfold completeLoop
    simp only [show t.regs.loopd = t.loopd from rfl, show t.regs.top = t.top from rfl]
    split_ifs
    · rfl
    · rfl
    · rfl
    · rw [ih]; rfl

theorem regs_leaveLoops (e : Pc) (n : Nat) (t : Thread) : (leaveLoops e n t).regs = leaveLoops e n t.regs := by
  induction n generalizing t with
  | zero => rfl
  | succ n ih =>
    unfold leaveLoops
    simp only [show t.regs.loopd = t.loopd from rfl, show t.regs.top = t.top from rfl]
    split_ifs
    · rfl
    · rfl
    · rw [ih]; rfl

theorem regs_control (t : Thread) (c : Ctl) : (t.control c).regs = t.regs.control c := by
  cases c with
  | fall => exact regs_completeLoop _ _ _
  | skip l => exact regs_completeLoop _ _ _
  | jump p =>
    have := regs_leaveLoops p 4 t
    simp only [Thread.control]
    rw [← this]; rfl
  | loop e => rfl
  | stay => rfl

theorem regs_issue (e : Eff) (b : Bool) (t : Thread) : (e.issue b t).regs = e.issue b t.regs := by
  unfold Eff.issue
  split
  · split <;> rfl
  · rfl

/-- A completion's registers are those of a completion without tracking, in a thread of the same registers. -/
theorem regs_thread (e : Eff) (b : Bool) (u : Units × Units) (t t' : Thread) (h : t.regs = t'.regs) :
    (e.thread b u t).regs = (e.thread b (.none, .none) t').regs := by
  have key : ∀ (u : Units × Units) (t : Thread), (e.thread b u t).regs =
      match e.park with
      | .none => (({ (e.issue b (e.dst.foldl dstThread t)).regs with
          fstat := (e.issue b (e.dst.foldl dstThread t)).regs.fstat ||| e.flags
          clockH := e.latch.getD (e.issue b (e.dst.foldl dstThread t)).regs.clockH } : Thread).control e.ctl)
      | some st => { (e.issue b (e.dst.foldl dstThread t)).regs with
          fstat := (e.issue b (e.dst.foldl dstThread t)).regs.fstat ||| e.flags
          clockH := e.latch.getD (e.issue b (e.dst.foldl dstThread t)).regs.clockH, tstate := st } := by
    intro u t
    unfold Eff.thread Eff.close
    cases e.park with
    | none => exact regs_control _ _
    | some st => rfl
  rw [key, key, regs_issue, regs_issue, regs_dstThreads _ _ _ h]

theorem regs_falseThread (f : Fields) (t t' : Thread) (h : t.regs = t'.regs) : (falseThread f t).regs = (t'.control .fall).regs := by
  unfold falseThread
  rw [regs_control, regs_control, ← h]
  rfl

/-! ## The completions of an issue -/

theorem sliceLanes (go : List Nat) (sl : Nat) (h : sl ∈ (go.map (· / 4)).dedup) :
    ∃ l r, (go.filter fun l => l / 4 == sl) = l :: r := by
  obtain ⟨l, hl, rfl⟩ := List.mem_map.1 (List.mem_dedup.1 h)
  cases hf : go.filter fun x => x / 4 == l / 4 with
  | nil =>
    have h : l ∈ go.filter fun x => x / 4 == l / 4 := List.mem_filter.2 ⟨hl, by simp⟩
    rw [hf] at h; simp at h
  | cons a r => exact ⟨a, r, rfl⟩

/-- The groups of an issue: each a LANE with the LANEs that it leads. -/
theorem groups_mem (op : Op) (go : List Nat) (x : Nat × List Nat) (hx : x ∈ op.groups go) :
    x.1 ∈ x.2 ∧ ∀ l ∈ x.2, l ∈ go ∧ op.leader go l = x.1 ∧ op.members go l = x.2 := by
  unfold Op.groups at hx
  split at hx
  · rename_i hg
    cases go with
    | nil => simp at hx
    | cons a r =>
      simp only [List.mem_singleton] at hx
      subst hx
      exact ⟨List.mem_cons_self, fun l hl => ⟨hl, (if_pos hg).trans rfl, if_pos hg⟩⟩
  · rename_i hg
    simp only [Bool.not_eq_true] at hg
    split at hx
    · rename_i hu
      obtain ⟨sl, hsl, hm⟩ := List.mem_filterMap.1 hx
      obtain ⟨a, r, hf⟩ := sliceLanes go sl hsl
      rw [hf] at hm
      simp only [Option.some.injEq] at hm
      subst hm
      have ha : ∀ l ∈ a :: r, l ∈ go ∧ l / 4 = sl := fun l hl => by
        have := hf ▸ hl
        rw [← hf, List.mem_filter] at hl
        exact ⟨hl.1, by simpa using hl.2⟩
      refine ⟨List.mem_cons_self, fun l hl => ⟨(ha l hl).1, ?_, ?_⟩⟩
      · simp only [Op.leader, hg, Bool.false_eq_true, if_false, hu, if_true, (ha l hl).2, hf, List.headD_cons]
      · simp only [Op.members, hg, Bool.false_eq_true, if_false, hu, if_true, (ha l hl).2, hf]
    · rename_i hu
      obtain ⟨l, hl, rfl⟩ := List.mem_map.1 hx
      refine ⟨by simp, fun m hm => ?_⟩
      simp only [List.mem_singleton] at hm
      subst hm
      exact ⟨hl, by simp [Op.leader, hg, hu], by simp [Op.members, hg, hu]⟩

theorem mem_groups (op : Op) (go : List Nat) (l : Nat) (hl : l ∈ go) : ∃ x ∈ op.groups go, l ∈ x.2 := by
  unfold Op.groups
  split
  · cases go with
    | nil => simp at hl
    | cons a r => exact ⟨_, List.mem_singleton.2 rfl, hl⟩
  · split
    · have hsl : l / 4 ∈ (go.map (· / 4)).dedup := List.mem_dedup.2 (List.mem_map_of_mem hl)
      obtain ⟨a, r, hf⟩ := sliceLanes go _ hsl
      refine ⟨(a, a :: r), List.mem_filterMap.2 ⟨l / 4, hsl, by rw [hf]⟩, ?_⟩
      show l ∈ a :: r
      rw [← hf]
      exact List.mem_filter.2 ⟨hl, by simp⟩
    · exact ⟨(l, [l]), List.mem_map_of_mem hl, List.mem_singleton.2 rfl⟩

theorem groups_lanes_nodup (op : Op) (go : List Nat) (h : go.Nodup) : ((op.groups go).flatMap (·.2)).Nodup := by
  unfold Op.groups
  split
  · cases go with
    | nil => simp
    | cons a r => simpa using h
  · split
    · rw [List.nodup_flatMap]
      refine ⟨fun x hx => ?_, ?_⟩
      · obtain ⟨sl, hsl, hm⟩ := List.mem_filterMap.1 hx
        obtain ⟨a, r, hf⟩ := sliceLanes go sl hsl
        rw [hf] at hm
        simp only [Option.some.injEq] at hm
        subst hm
        show (a :: r).Nodup
        rw [← hf]; exact h.filter _
      · rw [List.pairwise_filterMap]
        refine (List.nodup_dedup (go.map (· / 4))).imp ?_
        intro s1 s2 hne x hx y hy l hlx hly
        have fact : ∀ (sl : Nat) (z : Nat × List Nat),
            (match go.filter fun l => l / 4 == sl with | [] => .none | l :: r => some (l, l :: r)) = some z →
            ∀ l ∈ z.2, l / 4 = sl := by
          intro sl z hz l hl
          cases hf : go.filter fun l => l / 4 == sl with
          | nil => rw [hf] at hz; simp at hz
          | cons a r =>
            rw [hf] at hz
            simp only [Option.some.injEq] at hz
            subst hz
            have hl' : l ∈ a :: r := hl
            rw [← hf, List.mem_filter] at hl'
            simpa using hl'.2
        exact hne ((fact s1 x hx l hlx).symm.trans (fact s2 y hy l hly))
    · simpa [List.flatMap_map] using h

/-- The completions of an issue: for each executing LANE one, with the effect of its leader. -/
theorem oksOf_spec (op : Op) (go : List Nat) (E : Nat → Eff) (h : go.Nodup) :
    ((oksOf (op.groups go) E).map (·.1)).Nodup ∧
    (∀ x ∈ oksOf (op.groups go) E, x.1 ∈ go ∧ x.2.1 = (x.1 == op.leader go x.1) ∧
      x.2.2 = (E (op.leader go x.1)).forMembers (laneSet (op.members go x.1))) ∧
    ∀ l ∈ go, ∃ x ∈ oksOf (op.groups go) E, x.1 = l := by
  refine ⟨?_, ?_, ?_⟩
  · have : (oksOf (op.groups go) E).map (·.1) = (op.groups go).flatMap (·.2) := by
      simp [oksOf, List.map_flatMap, Function.comp_def]
    rw [this]; exact groups_lanes_nodup op go h
  · intro x hx
    obtain ⟨y, hy, hm⟩ := List.mem_flatMap.1 hx
    obtain ⟨l, hl, rfl⟩ := List.mem_map.1 hm
    obtain ⟨h1, h2, h3⟩ := (groups_mem op go y hy).2 l hl
    exact ⟨h1, by rw [h2], by rw [h2, h3]⟩
  · intro l hl
    obtain ⟨y, hy, hm⟩ := mem_groups op go l hl
    exact ⟨_, List.mem_flatMap.2 ⟨y, hy, List.mem_map.2 ⟨l, hm, rfl⟩⟩, rfl⟩

/-! ## The gang apart from threads and slices -/

theorem rest_writeDst (g : Gang) (lane : Nat) (d : Operand × Nat × Nat) : (g.writeDst lane d).rest = g.rest := by
  obtain ⟨o, n, x⟩ := d
  cases o <;> first | rfl | (rename_i r; cases r <;> rfl)

theorem rest_finish (op : Op) (u : Units × Units) (g : Gang) (lane : Nat) (rep : Bool) (e : Eff) :
    (op.finish u g lane rep e).1.rest = g.rest := by
  have h1 : ∀ (ds : List (Operand × Nat × Nat)) (g : Gang),
      (ds.foldl (fun g d => g.writeDst lane d) g).rest = g.rest := fun ds g =>
    foldl_keeps _ Gang.rest (fun g d => rest_writeDst g lane d) _ _
  have h2 : ∀ (g : Gang) (i : Nat) (f : Thread → Thread), (g.modThread i f).rest = g.rest := fun _ _ _ => rfl
  unfold Op.finish
  simp only [h2]
  cases e.prod with
  | none => exact h1 _ _
  | some q =>
    have h3 : ∀ g : Gang, (g.addProducer lane rep (isUniform op.dsts) q).rest = g.rest := fun g => by
      unfold Gang.addProducer; split <;> [(split <;> rfl); rfl]
    simp only [h3]
    exact h1 _ _

theorem rest_gangAfter (op : Op) (f : Fields) (s : State) (g0 g1 : Gang) (oks : List (Nat × Bool × Eff)) (gf mask : List Nat) :
    (op.gangAfter f s g0 g1 oks gf mask).rest = g1.rest := by
  have h1 : ∀ (g : Gang) (b : Bool) (c : Nat) (l : List Nat), (g.hint f c b l).rest = g.rest := fun g b c l => by
    apply foldl_keeps (v := Gang.rest); exact fun _ _ => rfl
  have h2 : ∀ (g : Gang) (a b : List Nat), (Gang.rotate g0 g a b).rest = g.rest := fun g a b => by
    unfold Gang.rotate
    show ((((b.map (· / 4)).dedup.filter fun sl => 2 ≤ g0.distinctPcs sl).foldl Gang.countBackward _).settleCounts).rest = _
    refine (foldl_keeps Gang.countBackward Gang.rest (fun _ _ => rfl) _ _).trans ?_
    apply foldl_keeps (v := Gang.rest); exact fun _ _ => rfl
  have h3 : ∀ (l : List Nat) (acc : Gang × List Nat), (l.foldl (fun acc l =>
      let r := finishFalse f acc.1 l
      (r.1, if r.2 then acc.2 ++ [l] else acc.2)) acc).1.rest = acc.1.rest := fun l acc => by
    apply foldl_keeps (v := fun acc : Gang × List Nat => acc.1.rest); exact fun _ _ => rfl
  have h4 : ∀ (oks : List (Nat × Bool × Eff)) (acc : Gang × List Nat),
      (oks.foldl (fun acc x =>
        let r := op.finish (op.units f s g0 x.1) acc.1 x.1 x.2.1 x.2.2
        (r.1, if r.2 then acc.2 ++ [x.1] else acc.2)) acc).1.rest = acc.1.rest := fun oks acc => by
    apply foldl_keeps (v := fun acc : Gang × List Nat => acc.1.rest)
    exact fun acc x => rest_finish _ _ _ _ _ _
  unfold Op.gangAfter
  rw [h1, h2]
  unfold Op.finishAll
  rw [h3, h4]

/-! ## The slices -/

/-- Several completions with one effect write what one writes. -/
theorem slices_once (e : Eff) (toS : Bool) (L : List (Nat × Bool × Eff)) (x : SliceState) (hL : L ≠ [])
    (he : ∀ y ∈ L, y.2.2 = e) (hrep : (L.filter fun y => y.2.1).length = 1) :
    (∀ j, (L.foldl (fun z y => y.2.2.slice toS y.2.1 z) x).readS j = (e.dst.foldl dstSlice x).readS j) ∧
      (L.foldl (fun z y => y.2.2.slice toS y.2.1 z) x).pend = (e.interlock toS true x).pend := by
  have hr : ∀ (b : Bool) (z : SliceState) (j : Nat), (e.slice toS b z).readS j = (e.dst.foldl dstSlice z).readS j := fun b z j => by
    unfold Eff.slice Eff.interlock; split <;> [(split <;> rfl); rfl]
  have hp : ∀ (b : Bool) (z : SliceState), (e.slice toS b z).pend = if b then (e.interlock toS true z).pend else z.pend := fun b z => by
    have := dstSlices_pend e.dst z
    cases hq : e.prod with
    | none => cases b <;> simp [Eff.slice, Eff.interlock, hq, this]
    | some q => cases b <;> cases toS <;> simp [Eff.slice, Eff.interlock, hq, this]
  refine ⟨fun j => ?_, ?_⟩
  · obtain ⟨w, hw⟩ := dstSlices_over e.dst j
    have h1 : ∀ (L : List (Nat × Bool × Eff)) (x : SliceState), (∀ y ∈ L, y.2.2 = e) →
        (L.foldl (fun z y => y.2.2.slice toS y.2.1 z) x).readS j = if L = [] then x.readS j else w.getD (x.readS j) := by
      intro L
      induction L with
      | nil => intros; rfl
      | cons y L ih =>
        intro x hy
        rw [List.foldl_cons, ih _ fun z hz => hy z (List.mem_cons_of_mem _ hz), hy y List.mem_cons_self, hr, hw]
        split
        · simp
        · simp only [List.cons_ne_nil, if_false]; cases w <;> rfl
    rw [h1 L x he, if_neg hL, hw]
  · have key : ∀ (L : List (Nat × Bool × Eff)) (x : SliceState), (∀ y ∈ L, y.2.2 = e) →
        ((L.filter fun y => y.2.1).length = 0 → (L.foldl (fun z y => y.2.2.slice toS y.2.1 z) x).pend = x.pend) ∧
        ((L.filter fun y => y.2.1).length = 1 →
          (L.foldl (fun z y => y.2.2.slice toS y.2.1 z) x).pend = (e.interlock toS true x).pend) := by
      intro L
      induction L with
      | nil => intro x _; exact ⟨fun _ => rfl, fun h => by simp at h⟩
      | cons y L ih =>
        intro x hy
        have ih' := ih (y.2.2.slice toS y.2.1 x) fun z hz => hy z (List.mem_cons_of_mem _ hz)
        have hye := hy y List.mem_cons_self
        rw [List.foldl_cons]
        have hpx := hp y.2.1 x
        rw [hye] at ih' ⊢
        cases hb : y.2.1 with
        | true =>
          rw [hb] at ih' hpx
          simp only [List.filter_cons, hb, if_true, List.length_cons] at hpx ⊢
          exact ⟨fun h => by omega, fun h => by rw [ih'.1 (by omega), hpx]⟩
        | false =>
          rw [hb] at ih' hpx
          simp only [List.filter_cons, hb, Bool.false_eq_true, if_false] at hpx ⊢
          refine ⟨fun h => by rw [ih'.1 h, hpx], fun h => ?_⟩
          rw [ih'.2 h]
          have e1 : ∀ z z' : SliceState, z.pend = z'.pend → (e.interlock toS true z).pend = (e.interlock toS true z').pend := by
            intro z z' hz
            unfold Eff.interlock; split <;> [(split <;> simp [hz]); exact hz]
          exact e1 _ _ hpx
    exact (key L x he).2 hrep

theorem leader_mem {op : Op} {go : List Nat} {l : Nat} (hl : l ∈ go) : op.leader go l ∈ go := by
  unfold Op.leader
  split
  · cases go with
    | nil => simp at hl
    | cons a r => simp
  split
  · have hm : l ∈ go.filter fun y => y / 4 == l / 4 := List.mem_filter.2 ⟨hl, by simp⟩
    cases hf : go.filter fun y => y / 4 == l / 4 with
    | nil => rw [hf] at hm; simp at hm
    | cons a r => exact (List.mem_filter.1 (hf ▸ List.mem_cons_self : a ∈ go.filter fun y => y / 4 == l / 4)).1
  · exact hl

theorem GangSim.restEq {g h : Gang} (i : GangSim g h) : h.rest = g.rest := by rw [i.rest]; rfl

theorem forMembers_fields (e : Eff) (m : Lanes) :
    (e.forMembers m).dst = e.dst ∧ (e.forMembers m).flags = e.flags ∧ (e.forMembers m).ctl = e.ctl ∧ (e.forMembers m).park = e.park :=
  ⟨rfl, rfl, rfl, rfl⟩

theorem filter_one {α : Type} [DecidableEq α] (L : List α) (p : α →
  Bool) (a : α) (hn : L.Nodup) (ha : a ∈ L) (h : ∀ x ∈ L, p x = true ↔ x = a) :
    (L.filter p).length = 1 := by
  have : L.filter p = [a] := by
    have e1 : L.filter p = L.filter fun x => x == a := List.filter_congr fun x hx => by
      rw [Bool.eq_iff_iff, h x hx]; simp
    rw [e1, List.filter_beq, List.count_eq_one_of_mem hn ha]; rfl
  rw [this]; rfl

/-- The spec lemma of an issue whose bodies all complete: `Delivered`. The bodies leave gangs and everything outside the L1 caches
and the sequence counter alone, destinations are no special registers, and nobody parks. -/
theorem runOp_delivers {op : Op} {f : Fields} {s s1 : State} {g : Gang} (h : op.Ready f s g) (E : Nat → Eff)
    (hready : op.ready (s.opened f op g) (s.goLanes f g) = true)
    (hrun : op.runGroups (op.groups (s.goLanes f g)) (s.opened f op g) false =
      some (s1, (op.groups (s.goLanes f g)).map fun x => (x.1, x.2, .ok (E x.1))))
    (ho : s1.outer = (s.opened f op g).outer) (hg : ∀ k, s1.gang? k = (s.opened f op g).gang? k)
    (hpost : ∀ s a b c, op.post s a b c = s) (hgang : op.gang = false) (heach : isUniform op.dsts = true → op.each = false)
    (hdst : ∀ l ∈ s.goLanes f g, ∀ d ∈ (E l).dst, isUniform op.dsts = false → ∀ x : SliceState, dstSlice x d = x)
    (hlive : ∃ l, l < g.threads.length ∧ (g.thread l).tstate ≠ .ended ∧
      (l ∈ s.goLanes f g → (E (op.leader (s.goLanes f g) l)).park = .none)) :
    Delivered op f s (s.runOp f op) g fun l => (E (op.leader (s.goLanes f g) l)).forMembers (laneSet (op.members (s.goLanes f g) l)) := by
  obtain ⟨g2, sim⟩ := opened_sim (op := op) (f := f) h.gang
  have h2 := sim.after
  have h1 : s1.gang? s.focus.key = some g2 := (hg _).trans h2
  have hgo : (s.goLanes f g).Nodup := ((lanesOf_nodup _ _).filter _)
  obtain ⟨hn, hspec, hall⟩ := oksOf_spec op (s.goLanes f g) E hgo
  generalize hoks : oksOf (op.groups (s.goLanes f g)) E = oks at hn hspec hall
  have hlead : ∀ x ∈ oks, op.leader (s.goLanes f g) x.1 ∈ s.goLanes f g := fun x hx => leader_mem (hspec x hx).1
  have hw : ∀ l ∈ s.goLanes f g, l < g.width := fun l hl => lanesOf_lt (List.mem_filter.1 hl).1
  have hwf : ∀ l ∈ s.gfLanes f g, l < g.width := fun l hl => lanesOf_lt (List.mem_filter.1 hl).1
  have hlen : g2.threads.length = g.width := sim.gang.threads.trans h.threads
  have hA := gangAfter_holds (op := op) (f := f) (s := s.opened f op g) (g0 := g2) (g1 := g2) (gf := s.gfLanes f g)
    (mask := s.focusLanes g) hn
    (fun x hx => by rw [hlen]; exact hw _ (hspec x hx).1)
    (fun x hx => by rw [sim.gang.slices]; exact h.slices _ (hw _ (hspec x hx).1))
    ((lanesOf_nodup _ _).filter _) (fun l hl => by rw [hlen]; exact hwf _ hl)
    (fun x hx hl => by
      have a := (List.mem_filter.1 (hspec x hx).1).2
      have b := (List.mem_filter.1 hl).2
      simp [a] at b)
  obtain ⟨hAl, hAok, hAgf, hAno, hAs⟩ := hA
  have hArest : (op.gangAfter f (s.opened f op g) g2 g2 oks (s.gfLanes f g) (s.focusLanes g)).rest = g2.rest :=
    rest_gangAfter _ _ _ _ _ _ _ _
  have hAr : ∀ j, (j ∈ s.goLanes f g →
      ((op.gangAfter f (s.opened f op g) g2 g2 oks (s.gfLanes f g) (s.focusLanes g)).thread j).regs =
        (((E (op.leader (s.goLanes f g) j)).forMembers (laneSet (op.members (s.goLanes f g) j))).thread (isUniform op.dsts)
          (.none, .none) (g.thread j)).regs) := by
    intro j hj
    obtain ⟨x, hx, rfl⟩ := hall j hj
    rw [hAok x hx, (hspec x hx).2.2]
    exact regs_thread _ _ _ _ _ (sim.gang.regs _)
  have hts : ∀ j, (j ∈ s.goLanes f g → (E (op.leader (s.goLanes f g) j)).park = .none) →
      ((op.gangAfter f (s.opened f op g) g2 g2 oks (s.gfLanes f g) (s.focusLanes g)).thread j).tstate = (g.thread j).tstate := by
    intro j hpk
    by_cases hj : j ∈ s.goLanes f g
    · have := congrArg Thread.tstate (hAr j hj)
      refine this.trans ?_
      show (Eff.thread _ _ _ _).tstate = _
      rw [Eff.thread_tstate, (forMembers_fields _ _).2.2.2, hpk hj]
      rfl
    · have hg2 := congrArg Thread.tstate (sim.gang.regs j)
      by_cases hjf : j ∈ s.gfLanes f g
      · rw [hAgf j hjf, falseThread_tstate]; exact hg2
      · rw [hAno j (fun x hx e => hj (e ▸ (hspec x hx).1)) hjf]; exact hg2
  have q : (op.gangAfter f (s.opened f op g) g2 g2 oks (s.gfLanes f g) (s.focusLanes g)).Quiet := by
    have e := hArest.trans sim.gang.restEq
    refine ⟨?_, ?_, ?_⟩
    · exact (congrArg Gang.gathers e).trans h.quiet.gathers
    · exact (congrArg Gang.collects e).trans h.quiet.collects
    · obtain ⟨l, hl, hl', hpk⟩ := hlive
      exact ⟨l, by rw [hAl, sim.gang.threads]; exact hl, by rw [hts l hpk]; exact hl'⟩
  subst hoks
  have hwA : (op.gangAfter f (s.opened f op g) g2 g2 (oksOf (op.groups (s.goLanes f g)) E) (s.gfLanes f g) (s.focusLanes g)).width =
      g.width := by
    have e := congrArg Gang.width (hArest.trans sim.gang.restEq)
    exact e
  have hf1 : s1.focus = s.focus :=
    (congrArg (fun o => o.2.2.2.1) ho).trans (congrArg (fun o => o.2.2.2.1) sim.outer)
  obtain ⟨g', fin, -⟩ := runOp_oks h E hready hrun h1 hf1 g2 h2 hwA (fun t _ _ _ _ => hpost _ _ _ _) q
  refine ⟨?_, ?_, g', fin.after, ?_, ?_, ?_, ?_, ?_⟩
  · exact fin.outer.trans (ho.trans sim.outer)
  · intro j hj
    rw [fin.others j hj, State.gang?_setGang, if_neg hj, hg, sim.others j hj]
  · exact fin.gang.restEq.trans (hArest.trans sim.gang.restEq)
  · intro l hl
    exact (fin.gang.regs l).trans (hAr l hl)
  · intro l hl
    rw [fin.gang.regs l, hAgf l hl]
    exact regs_falseThread f _ _ (sim.gang.regs l)
  · intro l hl
    have n1 : l ∉ s.goLanes f g := fun h' => hl (List.mem_filter.1 h').1
    have n2 : l ∉ s.gfLanes f g := fun h' => hl (List.mem_filter.1 h').1
    rw [fin.gang.regs l, hAno l (fun x hx e => n1 (e ▸ (hspec x hx).1)) n2]
    exact sim.gang.regs l
  · intro i
    have hS := (fin.gang.sregs i).trans (hAs i)
    have hg2 := sim.gang.sregs i
    cases hf : (s.goLanes f g).find? fun l => l / 4 == i with
    | none =>
      have : (oksOf (op.groups (s.goLanes f g)) E).filter (fun x => x.1 / 4 == i) = [] := List.filter_eq_nil_iff.2 fun x hx he => by
        have := List.find?_eq_none.1 hf x.1 (hspec x hx).1
        exact this (by simpa using he)
      rw [this] at hS
      exact hS.trans hg2
    | some l =>
      have hl := List.mem_of_find?_eq_some hf
      have hli : l / 4 = i := by simpa using List.find?_some hf
      obtain ⟨y, hy, hyl⟩ := hall l hl
      have hS1 : (g'.slice i).s = _ := congrArg (·.1) hS
      have hS3 : (g'.slice i).pend = _ := congrArg (·.2.2) hS
      have hread : ∀ (a b : SliceState) (j : Nat), a.s = b.s → a.readS j = b.readS j := fun a b j e => by
        unfold SliceState.readS; rw [e]
      have hgs1 : (g2.slice i).s = (g.slice i).s := congrArg (·.1) hg2
      have hgs3 : (g2.slice i).pend = (g.slice i).pend := congrArg (·.2.2) hg2
      show (∀ j, _) ∧ _
      by_cases hu : isUniform op.dsts = true
      · have heq := heach hu
        have hle : ∀ x, x / 4 = i → op.leader (s.goLanes f g) x = l ∧ op.members (s.goLanes f g) x =
            op.members (s.goLanes f g) l := by
          intro x hx
          have : ((s.goLanes f g).filter fun y => y / 4 == i).head? = some l := by rw [List.head?_filter]; exact hf
          refine ⟨?_, ?_⟩
          · simp only [Op.leader, hgang, Bool.false_eq_true, if_false, hu, heq, Bool.not_false, Bool.and_self, if_true, hx,
              List.headD_eq_head?_getD, this, Option.getD_some]
          · simp only [Op.members, hgang, Bool.false_eq_true, if_false, hu, heq, Bool.not_false, Bool.and_self, if_true, hx, hli]
        have hone := slices_once ((E l).forMembers (laneSet (op.members (s.goLanes f g) l))) (isUniform op.dsts)
          ((oksOf (op.groups (s.goLanes f g)) E).filter fun x => x.1 / 4 == i) (g2.slice i)
          (List.ne_nil_of_mem (List.mem_filter.2 ⟨hy, by simp [hyl, hli]⟩))
          (fun x hx => by
            obtain ⟨hx1, hx2⟩ := List.mem_filter.1 hx
            have hx2' : x.1 / 4 = i := by simpa using hx2
            rw [(hspec x hx1).2.2, (hle _ hx2').1, (hle _ hx2').2])
          (filter_one _ _ y ((hn.of_map _).filter _) (List.mem_filter.2 ⟨hy, by simp [hyl, hli]⟩) fun x hx => by
            obtain ⟨hx1, hx2⟩ := List.mem_filter.1 hx
            have hx2' : x.1 / 4 = i := by simpa using hx2
            rw [(hspec x hx1).2.1, (hle _ hx2').1]
            refine ⟨fun e => List.inj_on_of_nodup_map hn hx1 hy ?_, fun e => ?_⟩
            · rw [hyl]; simpa using e
            · rw [e, hyl]; simp)
        have hll := (hle l hli).1
        simp only [hll]
        refine ⟨fun j => ?_, ?_⟩
        · rw [hread _ _ j hS1, hone.1 j]
          obtain ⟨w, hw⟩ := dstSlices_over ((E l).forMembers (laneSet (op.members (s.goLanes f g) l))).dst j
          rw [hw, hw, hread _ _ j hgs1]
        · refine hS3.trans (hone.2.trans ?_)
          unfold Eff.interlock
          split <;> [(split <;> simp [hgs3]); exact hgs3]
      · have hu' : isUniform op.dsts = false := by simpa using hu
        have hid : ∀ x ∈ oksOf (op.groups (s.goLanes f g)) E, ∀ z : SliceState, x.2.2.slice (isUniform op.dsts) x.2.1 z = z := by
          intro x hx z
          have hd : ∀ (ds : List (Operand × Nat × Nat)), (∀ d ∈ ds, ∀ z : SliceState, dstSlice z d = z) → ds.foldl dstSlice z = z := by
            intro ds
            induction ds with
            | nil => intros; rfl
            | cons d ds ih =>
              intro hd
              rw [List.foldl_cons, hd d List.mem_cons_self, ih fun d' h' => hd d' (List.mem_cons_of_mem _ h')]
          have he := (hspec x hx).2.2
          unfold Eff.slice
          rw [hd _ fun d hd => by rw [he] at hd; exact hdst _ (hlead x hx) d hd hu']
          unfold Eff.interlock
          split <;> simp [hu']
        have hfold : ∀ (L : List (Nat × Bool × Eff)) (z : SliceState), (∀ x ∈ L, x ∈ oksOf (op.groups (s.goLanes f g)) E) →
            L.foldl (fun z x => x.2.2.slice (isUniform op.dsts) x.2.1 z) z = z := by
          intro L
          induction L with
          | nil => intros; rfl
          | cons x L ih =>
            intro z hL
            rw [List.foldl_cons, hid x (hL x List.mem_cons_self), ih z fun y hy => hL y (List.mem_cons_of_mem _ hy)]
        have hS' := hfold ((oksOf (op.groups (s.goLanes f g)) E).filter fun x => x.1 / 4 == i) (g2.slice i)
          fun x hx => (List.mem_filter.1 hx).1
        rw [hS'] at hS1 hS3
        have hy2 := (hspec y hy).2.2
        have hy3 := hid y hy
        have hdl : ∀ z : SliceState, ((E (op.leader (s.goLanes f g) l)).forMembers
            (laneSet (op.members (s.goLanes f g) l))).dst.foldl dstSlice z = z := by
          intro z
          have hd : ∀ (ds : List (Operand × Nat × Nat)), (∀ d ∈ ds, ∀ z : SliceState, dstSlice z d = z) → ds.foldl dstSlice z = z := by
            intro ds
            induction ds with
            | nil => intros; rfl
            | cons d ds ih =>
              intro hd
              rw [List.foldl_cons, hd d List.mem_cons_self, ih fun d' h' => hd d' (List.mem_cons_of_mem _ h')]
          exact hd _ fun d hd => hdst _ (hyl ▸ hlead y hy) d hd hu'
        refine ⟨fun j => ?_, ?_⟩
        · rw [hdl, hread _ _ j hS1, hread _ _ j hgs1]
        · refine hS3.trans (hgs3.trans ?_)
          unfold Eff.interlock
          split <;> simp [hu']

/-! ## Bodies of two shapes -/

theorem group_leads {op : Op} {go : List Nat} {x : Nat × List Nat} (hx : x ∈ op.groups go) : x.1 ∈ go :=
  ((groups_mem op go x hx).2 _ (groups_mem op go x hx).1).1

/-- Bodies that complete and leave the state alone. -/
theorem delivers_pure {op : Op} {f : Fields} {s : State} {g : Gang} (h : op.Ready f s g) (E : Nat → Eff)
    (hbody : ∀ l ∈ s.goLanes f g, op.body (s.opened f op g) l = (s.opened f op g, .ok (E l)))
    (hready : op.ready (s.opened f op g) (s.goLanes f g) = true)
    (hpost : ∀ s a b c, op.post s a b c = s) (hgang : op.gang = false) (heach : isUniform op.dsts = true → op.each = false)
    (hdst : ∀ l ∈ s.goLanes f g, ∀ d ∈ (E l).dst, isUniform op.dsts = false → ∀ x : SliceState, dstSlice x d = x)
    (hprod : ∀ l, (E l).prod = .none) (hpark : ∀ l ∈ s.goLanes f g, (E l).park = .none) :
    Delivered op f s (s.runOp f op) g fun l => E (op.leader (s.goLanes f g) l) := by
  have := runOp_delivers h E hready (runGroups_pure op _ E _ fun x hx => hbody _ (group_leads hx)) rfl (fun _ => rfl) hpost hgang heach
    hdst (by
      obtain ⟨l, hl, hl'⟩ := h.quiet.live
      exact ⟨l, hl, hl', fun hg => hpark _ (leader_mem hg)⟩)
  simp only [forMembers_none _ _ (hprod _)] at this
  exact this

/-- Bodies that issue producers under numbers of their own. -/
theorem runGroups_late (op : Op) (o : State) (F : Nat → Nat → Eff) (L : List (Nat × List Nat)) (hn : (L.map (·.1)).Nodup)
    (h : ∀ n, ∀ x ∈ L, op.body { o with seqCtr := n } x.1 = ({ o with seqCtr := n + 1 }, .ok (F n x.1))) (n : Nat) :
    ∃ (m : Nat) (ids : Nat → Nat), op.runGroups L { o with seqCtr := n } false =
      some ({ o with seqCtr := m }, L.map fun x => (x.1, x.2, .ok (F (ids x.1) x.1))) := by
  induction L generalizing n with
  | nil => exact ⟨n, id, rfl⟩
  | cons x L ih =>
    obtain ⟨l, ms⟩ := x
    rw [List.map_cons, List.nodup_cons] at hn
    obtain ⟨m, ids, hi⟩ := ih hn.2 (fun n y hy => h n y (List.mem_cons_of_mem _ hy)) (n + 1)
    refine ⟨m, fun j => if j = l then n else ids j, ?_⟩
    have hx := h n (l, ms) List.mem_cons_self
    simp only at hx
    have hr : (Res.ok (F n l) == Res.wait) = false := by simp
    simp only [Op.runGroups, Bool.false_and, Bool.false_eq_true, if_false, hx, reduceCtorEq, hr, Bool.or_self, hi, Option.map_some,
      List.map_cons, if_true, Option.some.injEq, Prod.mk.injEq, List.cons.injEq, true_and]
    refine List.map_congr_left fun y hy => ?_
    have : y.1 ≠ l := fun e => hn.1 (List.mem_map.2 ⟨y, hy, e⟩)
    simp [this]

theorem groups_leaders_nodup (op : Op) (go : List Nat) (h : go.Nodup) : ((op.groups go).map (·.1)).Nodup := by
  have hl := groups_lanes_nodup op go h
  have hm := fun x hx => (groups_mem op go x hx).1
  generalize op.groups go = L at hl hm
  induction L with
  | nil => simp
  | cons x L ih =>
    rw [List.flatMap_cons, List.nodup_append] at hl
    rw [List.map_cons, List.nodup_cons]
    refine ⟨fun he => ?_, ih hl.2.1 fun y hy => hm y (List.mem_cons_of_mem _ hy)⟩
    obtain ⟨y, hy, e⟩ := List.mem_map.1 he
    exact hl.2.2 x.1 (hm x List.mem_cons_self) y.1
      (List.mem_flatMap.2 ⟨y, hy, hm y (List.mem_cons_of_mem _ hy)⟩) e.symm

/-- Long-latency bodies: each leader's effect carries a number of its own. -/
theorem delivers_late {op : Op} {f : Fields} {s : State} {g : Gang} (h : op.Ready f s g) (F : Nat → Nat → Eff)
    (hbody : ∀ n, ∀ l ∈ s.goLanes f g,
      op.body { s.opened f op g with seqCtr := n } l = ({ s.opened f op g with seqCtr := n + 1 }, .ok (F n l)))
    (hready : op.ready (s.opened f op g) (s.goLanes f g) = true)
    (hpost : ∀ s a b c, op.post s a b c = s) (hgang : op.gang = false) (heach : isUniform op.dsts = true → op.each = false)
    (hdst : ∀ n, ∀ l ∈ s.goLanes f g, (F n l).dst = []) (hpark : ∀ n l, (F n l).park = .none) :
    ∃ ids : Nat → Nat, Delivered op f s (s.runOp f op) g fun l =>
      (F (ids (op.leader (s.goLanes f g) l)) (op.leader (s.goLanes f g) l)).forMembers (laneSet (op.members (s.goLanes f g) l)) := by
  have hgo : (s.goLanes f g).Nodup := ((lanesOf_nodup _ _).filter _)
  obtain ⟨m, ids, hr⟩ := runGroups_late op (s.opened f op g) F (op.groups (s.goLanes f g)) (groups_leaders_nodup op _ hgo)
    (fun n x hx => hbody n _ (group_leads hx)) (s.opened f op g).seqCtr
  exact ⟨ids, runOp_delivers h (fun l => F (ids l) l) hready hr rfl (fun _ => rfl) hpost hgang heach
    (fun l hl d hd => by rw [hdst _ _ hl] at hd; simp at hd) (by
      obtain ⟨l, hl, hl'⟩ := h.quiet.live
      exact ⟨l, hl, hl', fun _ => hpark _ _⟩)⟩

/-! ## One executing thread -/

theorem groups_one (op : Op) (l : Nat) : op.groups [l] = [(l, [l])] := by
  unfold Op.groups
  split
  · rfl
  · split
    · simp
    · rfl

theorem leader_one (op : Op) (l : Nat) : op.leader [l] l = l ∧ op.members [l] l = [l] := by
  unfold Op.leader Op.members
  constructor <;> (split <;> [rfl; (split <;> simp)])

theorem buf_issue (e : Eff) (b : Bool) (t : Thread) : (e.issue b t).buf = t.buf := by
  unfold Eff.issue; split <;> [(split <;> rfl); rfl]
theorem buf_completeLoop (e : Pc) (n : Nat) (t : Thread) : (completeLoop e n t).buf = t.buf := by
  induction n generalizing t with
  | zero => rfl
  | succ n ih => unfold completeLoop; simp only; split_ifs <;> first | rfl | (rw [ih]; rfl)
theorem buf_leaveLoops (e : Pc) (n : Nat) (t : Thread) : (leaveLoops e n t).buf = t.buf := by
  induction n generalizing t with
  | zero => rfl
  | succ n ih => unfold leaveLoops; split_ifs <;> first | rfl | (rw [ih]; rfl)
theorem buf_control (t : Thread) (c : Ctl) : (t.control c).buf = t.buf := by
  cases c <;> simp [Thread.control, Thread.complete, Thread.push, buf_completeLoop, buf_leaveLoops]
theorem buf_dst (t : Thread) (d : Operand × Nat × Nat) : (dstThread t d).buf = t.buf := by
  obtain ⟨o, n, x⟩ := d
  cases o with
  | v i =>
    refine foldl_keeps _ Thread.buf (fun t j => ?_) _ _
    unfold Thread.writeV; split <;> rfl
  | p i => simp only [dstThread, Thread.writeP]; split <;> rfl
  | sr r => cases r <;> rfl
  | _ => rfl

/-- A completion puts its entries at the end of the thread's draft buffer. -/
theorem buf_thread (e : Eff) (b : Bool) (u : Units × Units) (t : Thread) : (e.thread b u t).buf = t.buf ++ e.entries := by
  unfold Eff.thread Eff.close
  have h : (e.issue b (e.dst.foldl dstThread t)).buf = t.buf :=
    (buf_issue _ _ _).trans (foldl_keeps dstThread Thread.buf buf_dst _ _)
  cases e.park <;> simp [buf_control, h]

/-- The completions of the threads of a slice. -/
theorem oksOf_slice (op : Op) (go : List Nat) (E : Nat → Eff) (i : Nat) :
    (oksOf (op.groups go) E).filter (fun x => x.1 / 4 == i) = (go.filter fun l => l / 4 == i).map fun l =>
      (l, l == op.leader go l, (E (op.leader go l)).forMembers (laneSet (op.members go l))) := by
  unfold Op.groups Op.leader Op.members
  by_cases hg : op.gang = true
  · simp only [hg, if_true]
    cases go with
    | nil => rfl
    | cons a r =>
      simp only [oksOf, List.flatMap_cons, List.flatMap_nil, List.append_nil, List.filter_map, Function.comp_def, List.headD_cons]
  · have hg' : op.gang = false := by simpa using hg
    simp only [hg', Bool.false_eq_true, if_false]
    by_cases hu : (isUniform op.dsts && !op.each) = true
    · simp only [hu, if_true]
      have h1 : oksOf (((go.map (· / 4)).dedup).filterMap fun sl =>
            match go.filter fun l => l / 4 == sl with
            | [] => Option.none
            | l :: r => some (l, l :: r)) E =
          ((go.map (· / 4)).dedup).flatMap fun sl => (go.filter fun l => l / 4 == sl).map fun l =>
            (l, l == (go.filter fun x => x / 4 == l / 4).headD l,
              (E ((go.filter fun x => x / 4 == l / 4).headD l)).forMembers (laneSet (go.filter fun x => x / 4 == l / 4))) := by
        generalize (go.map (· / 4)).dedup = D
        induction D with
        | nil => rfl
        | cons sl D ih =>
          rw [List.flatMap_cons, ← ih, List.filterMap_cons]
          have key : ∀ l ∈ go.filter (fun l => l / 4 == sl), l / 4 = sl := fun l hl => by simpa using (List.mem_filter.1 hl).2
          cases hf : go.filter fun l => l / 4 == sl with
          | nil => simp
          | cons a r =>
            have hm : ∀ l ∈ a :: r, (go.filter fun x => x / 4 == l / 4) = a :: r := fun l hl => by
              rw [key l (by rw [hf]; exact hl), hf]
            simp only [oksOf, List.flatMap_cons]
            congr 1
            refine List.map_congr_left fun l hl => ?_
            rw [hm l hl]; rfl
      refine (congrArg (List.filter _) h1).trans ?_
      rw [List.filter_flatMap]
      have h2 : ∀ sl, ((go.filter fun l => l / 4 == sl).map fun l =>
            (l, l == (go.filter fun x => x / 4 == l / 4).headD l,
              (E ((go.filter fun x => x / 4 == l / 4).headD l)).forMembers (laneSet (go.filter fun x => x / 4 == l / 4)))).filter
            (fun x => x.1 / 4 == i) = if sl = i then (go.filter fun l => l / 4 == i).map fun l =>
            (l, l == (go.filter fun x => x / 4 == l / 4).headD l,
              (E ((go.filter fun x => x / 4 == l / 4).headD l)).forMembers (laneSet (go.filter fun x => x / 4 == l / 4))) else [] := by
        intro sl
        rw [List.filter_map, List.filter_filter]
        split
        · rename_i e; subst e; simp 
        · rename_i e
          rw [List.map_eq_nil_iff, List.filter_eq_nil_iff]
          intro l _ hl
          simp only [Function.comp_apply, Bool.and_eq_true, beq_iff_eq] at hl
          exact e (hl.2.symm.trans hl.1)
      simp only [h2]
      have h3 : ∀ (D : List Nat) {α : Type} (X : List α), D.Nodup → (X ≠ [] → i ∈ D) →
        (D.flatMap fun sl => if sl = i then X else []) = X := by
        intro D α X hn hX
        by_cases hi : i ∈ D
        · clear hX
          induction D with
          | nil => simp at hi
          | cons d D ih =>
            rw [List.nodup_cons] at hn
            rw [List.flatMap_cons]
            by_cases hd : d = i
            · subst hd
              rw [if_pos rfl]
              have : (D.flatMap fun sl => if sl = d then X else []) = [] := by
                rw [List.flatMap_eq_nil_iff]
                intro y hy
                rw [if_neg]; rintro rfl; exact hn.1 hy
              rw [this, List.append_nil]
            · rw [if_neg hd, List.nil_append]
              exact ih hn.2 ((List.mem_cons.1 hi).resolve_left fun e => hd e.symm)
        · have : X = [] := by_contra fun h => hi (hX h)
          subst this
          simp
      refine h3 _ _ (List.nodup_dedup _) fun hX => ?_
      rw [List.mem_dedup]
      have : (go.filter fun l => l / 4 == i) ≠ [] := fun e => hX (by rw [e]; rfl)
      obtain ⟨l, hl⟩ := List.exists_mem_of_ne_nil _ this
      obtain ⟨hl1, hl2⟩ := List.mem_filter.1 hl
      exact List.mem_map.2 ⟨l, hl1, by simpa using hl2⟩
    · simp only [hu, Bool.false_eq_true, if_false, oksOf, List.flatMap_map, List.map_cons, List.map_nil]
      rw [← List.map_eq_flatMap, List.filter_map]
      simp only [beq_self_eq_true, Function.comp_def]

/-- A slice's registers after an effect depend on its registers before it. -/
theorem regs_slice (e : Eff) (toS rep : Bool) (x y : SliceState) (hxy : x.regs = y.regs) :
    (e.slice toS rep x).regs = (e.slice toS rep y).regs := by
  have h3 : ∀ (ds : List (Operand × Nat × Nat)) (x y : SliceState), x.regs = y.regs →
      (ds.foldl dstSlice x).regs = (ds.foldl dstSlice y).regs := by
    intro ds
    induction ds with
    | nil => intro x y h; exact h
    | cons d ds ih =>
      intro x y h
      refine ih _ _ ?_
      obtain ⟨o, n, v⟩ := d
      cases o with
      | s i =>
        unfold dstSlice SliceState.writeSs
        generalize List.range n = r
        simp only
        induction r generalizing x y with
        | nil => exact h
        | cons j r ihr =>
          rw [List.foldl_cons, List.foldl_cons]
          refine ihr _ _ ?_
          have e1 : x.s = y.s := congrArg (·.1) h
          have e2 : x.bad = y.bad := congrArg (·.2.1) h
          have e3 : x.pend = y.pend := congrArg (·.2.2) h
          unfold SliceState.writeS
          split
          · exact h
          · simp only [SliceState.regs, e1, e2, e3]
      | _ => exact h
  have h4 := h3 e.dst x y hxy
  have e1 := congrArg (·.1) h4
  have e2 := congrArg (·.2.1) h4
  have e3 := congrArg (·.2.2) h4
  simp only [SliceState.regs] at e1 e2 e3
  unfold Eff.slice Eff.interlock
  split
  · split
    · simp only [SliceState.regs, e1, e2, e3]
    · exact h4
  · exact h4

/-- The spec lemma of bodies that complete one after another, each taking the state on, up to what an instruction does after them:
`u` is the state before that. -/
theorem perform_before {op : Op} {f : Fields} {s s1 : State} {g2 g1 : Gang} {go gf mask : List Nat} (E : Nat → Eff) (seq since : Nat)
    (h2 : s.gang? s.focus.key = some g2) (hgo : go.Nodup) (hgf : gf.Nodup) (hdj : ∀ l ∈ go, l ∉ gf)
    (hlg : ∀ l ∈ go, l < g2.threads.length ∧ l / 4 < g2.slices.length) (hlf : ∀ l ∈ gf, l < g2.threads.length)
    (hready : op.ready s go = true)
    (hrun : op.runGroups (op.groups go) s false = some (s1, (op.groups go).map fun x => (x.1, x.2, .ok (E x.1))))
    (h1 : s1.gang? s.focus.key = some g1)
    (hsame : g1.threads = g2.threads ∧ g1.slices = g2.slices ∧ g1.width = g2.width ∧ g1.gathers = g2.gathers ∧
      g1.collects = g2.collects)
    (q2 : g2.Quiet)
    (hpark : ∀ l ∈ go, (E (op.leader go l)).park ≠ some .ended) :
    ∃ t g' done, s.perform f op go gf mask [] seq since = some ((op.post t done [] gf).settle s.focus.key) ∧
      done = (op.groups go).flatMap (·.2) ∧ g'.Quiet ∧ t.outer = s1.outer ∧
      (∀ j, j ≠ s.focus.key → t.gang? j = s1.gang? j) ∧ t.gang? s.focus.key = some g' ∧ g'.rest = g1.rest ∧
      (∀ l ∈ go, (g'.thread l).regs = (((E (op.leader go l)).forMembers (laneSet (op.members go l))).thread (isUniform op.dsts)
        (.none, .none) (g2.thread l)).regs) ∧
      (∀ l ∈ gf, (g'.thread l).regs = ((g2.thread l).control .fall).regs) ∧
      (∀ l, l ∉ go → l ∉ gf → (g'.thread l).regs = (g2.thread l).regs) ∧
      (∀ i, (g'.slice i).regs = ((go.filter fun l => l / 4 == i).foldl (fun z l =>
        ((E (op.leader go l)).forMembers (laneSet (op.members go l))).slice (isUniform op.dsts) (l == op.leader go l) z)
        (g2.slice i)).regs) ∧
      ∀ l ∈ go, ∀ x ∈ (E (op.leader go l)).entries, t.onItsWay s.focus.key l x := by
  obtain ⟨hth, hsl, hwd, hga, hco⟩ := hsame
  obtain ⟨hn, hspec, hall⟩ := oksOf_spec op go E hgo
  have hsl' := oksOf_slice op go E
  have hp := perform_oks (op := op) (f := f) (s := s) (go := go) (gf := gf) (mask := mask) E seq since h2 hready hrun h1
  generalize hoks : oksOf (op.groups go) E = oks at hn hspec hall hsl' hp
  have hA := gangAfter_holds (op := op) (f := f) (s := s) (g0 := g2) (g1 := g1) (gf := gf) (mask := mask) hn
    (fun x hx => by rw [hth]; exact (hlg _ (hspec x hx).1).1) (fun x hx => by rw [hsl]; exact (hlg _ (hspec x hx).1).2)
    hgf (fun l hl => by rw [hth]; exact hlf l hl) (fun x hx => hdj _ (hspec x hx).1)
  obtain ⟨hAl, hAok, hAgf, hAno, hAs⟩ := hA
  have hArest : (op.gangAfter f s g2 g1 oks gf mask).rest = g1.rest :=
    rest_gangAfter _ _ _ _ _ _ _ _
  have htj : ∀ j, g1.thread j = g2.thread j := fun j => Gang.thread_congr hth j
  have hsj : ∀ j, g1.slice j = g2.slice j := fun j => Gang.slice_congr hsl j
  have hAr : ∀ j, j ∈ go → ((op.gangAfter f s g2 g1 oks gf mask).thread j).regs =
        (((E (op.leader go j)).forMembers (laneSet (op.members go j))).thread (isUniform op.dsts) (.none, .none) (g2.thread j)).regs := by
    intro j hj
    obtain ⟨x, hx, rfl⟩ := hall j hj
    rw [hAok x hx, (hspec x hx).2.2, htj]
    exact regs_thread _ _ _ _ _ rfl
  have hts : ∀ j, (g2.thread j).tstate ≠ .ended → ((op.gangAfter f s g2 g1 oks gf mask).thread j).tstate ≠ .ended := by
    intro j hne
    by_cases hj : j ∈ go
    · have := congrArg Thread.tstate (hAr j hj)
      refine fun e => ?_
      have e' : (Eff.thread ((E (op.leader go j)).forMembers (laneSet (op.members go j))) (isUniform op.dsts) (.none, .none)
        (g2.thread j)).tstate = .ended := this.symm.trans e
      rw [Eff.thread_tstate, (forMembers_fields _ _).2.2.2] at e'
      have hp' := hpark _ hj
      cases hpk : (E (op.leader go j)).park with
      | none => rw [hpk] at e'; exact hne e'
      | some y => rw [hpk] at e' hp'; exact hp' (congrArg some e')
    · by_cases hjf : j ∈ gf
      · rw [hAgf j hjf, falseThread_tstate, htj]; exact hne
      · rw [hAno j (fun x hx e => hj (e ▸ (hspec x hx).1)) hjf, htj]; exact hne
  have q : (op.gangAfter f s g2 g1 oks gf mask).Quiet := by
    refine ⟨?_, ?_, ?_⟩
    · exact (congrArg Gang.gathers hArest).trans (hga.trans q2.gathers)
    · exact (congrArg Gang.collects hArest).trans (hco.trans q2.collects)
    · obtain ⟨l, hl, hl'⟩ := q2.live
      exact ⟨l, by rw [hAl, hth]; exact hl, hts l hl'⟩
  obtain ⟨g', fin, q'⟩ := closing_before (k := s.focus.key) (s := s1) op (op.finishAll f s g2 g1 oks gf).2 (oks.map (·.1)) q
  have hent : ∀ l, ∀ x ∈ ((op.gangAfter f s g2 g1 oks gf mask).thread l).buf, _ := fun l x hx =>
    onItsWay_before (k := s.focus.key) (s := s1) op (op.finishAll f s g2 g1 oks gf).2 (oks.map (·.1)) x hx
  refine ⟨_, g', _, hp, ?_, q', fin.outer, ?_, fin.after, ?_, ?_, ?_, ?_, ?_, ?_⟩
  · rw [← hoks]; simp [oksOf, List.map_flatMap, Function.comp_def]
  · intro j hj
    rw [fin.others j hj, State.gang?_setGang, if_neg hj]
  · exact fin.gang.restEq.trans hArest
  · intro l hl
    exact (fin.gang.regs l).trans (hAr l hl)
  · intro l hl
    rw [fin.gang.regs l, hAgf l hl, htj]
    exact regs_falseThread f _ _ rfl
  · intro l n1 n2
    rw [fin.gang.regs l, hAno l (fun x hx e => n1 (e ▸ (hspec x hx).1)) n2, htj]
  · intro i
    rw [fin.gang.sregs i, hAs i, hsl' i, List.foldl_map, hsj]
  · intro l hl x hx
    refine hent l x ?_
    obtain ⟨y, hy, rfl⟩ := hall l hl
    rw [hAok y hy, buf_thread, (hspec y hy).2.2]
    exact List.mem_append_right _ hx

/-- The spec lemma of bodies that complete one after another, each taking the state on, where nothing follows them. -/
theorem perform_via {op : Op} {f : Fields} {s s1 : State} {g2 g1 : Gang} {go gf mask : List Nat} (E : Nat → Eff) (seq since : Nat)
    (h2 : s.gang? s.focus.key = some g2) (hgo : go.Nodup) (hgf : gf.Nodup) (hdj : ∀ l ∈ go, l ∉ gf)
    (hlg : ∀ l ∈ go, l < g2.threads.length ∧ l / 4 < g2.slices.length) (hlf : ∀ l ∈ gf, l < g2.threads.length)
    (hready : op.ready s go = true)
    (hrun : op.runGroups (op.groups go) s false = some (s1, (op.groups go).map fun x => (x.1, x.2, .ok (E x.1))))
    (hf1 : s1.focus = s.focus) (h1 : s1.gang? s.focus.key = some g1)
    (hsame : g1.threads = g2.threads ∧ g1.slices = g2.slices ∧ g1.width = g2.width ∧ g1.gathers = g2.gathers ∧
      g1.collects = g2.collects)
    (hpost : ∀ t g' done, t.focus = s.focus → t.gang? s.focus.key = some g' → g'.width = g2.width → (done = [] → go = []) →
      op.post t done [] gf = t)
    (q2 : g2.Quiet)
    (hpark : ∀ l ∈ go, (E (op.leader go l)).park ≠ some .ended) :
    ∃ t g', s.perform f op go gf mask [] seq since = some t ∧ t.outer = s1.outer ∧
      (∀ j, j ≠ s.focus.key → t.gang? j = s1.gang? j) ∧ t.gang? s.focus.key = some g' ∧ g'.rest = g1.rest ∧
      (∀ l ∈ go, (g'.thread l).regs = (((E (op.leader go l)).forMembers (laneSet (op.members go l))).thread (isUniform op.dsts)
        (.none, .none) (g2.thread l)).regs) ∧
      (∀ l ∈ gf, (g'.thread l).regs = ((g2.thread l).control .fall).regs) ∧
      (∀ l, l ∉ go → l ∉ gf → (g'.thread l).regs = (g2.thread l).regs) ∧
      (∀ i, (g'.slice i).regs = ((go.filter fun l => l / 4 == i).foldl (fun z l =>
        ((E (op.leader go l)).forMembers (laneSet (op.members go l))).slice (isUniform op.dsts) (l == op.leader go l) z)
        (g2.slice i)).regs) ∧
      ∀ l ∈ go, ∀ x ∈ (E (op.leader go l)).entries, t.onItsWay s.focus.key l x := by
  obtain ⟨t, g', done, hp, hd, q', h1', h2', h3, h4, h5, h6, h7, h8, h9⟩ :=
    perform_before (f := f) (mask := mask) E seq since h2 hgo hgf hdj hlg hlf hready hrun h1 hsame q2 hpark
  have hwd : g'.width = g2.width := by
    have e := congrArg Gang.width h4
    exact e.trans hsame.2.2.1
  have hdone : done = [] → go = [] := fun e => by
    cases go with
    | nil => rfl
    | cons a r =>
      obtain ⟨x, hx, hm⟩ := mem_groups op (a :: r) a List.mem_cons_self
      have : a ∈ done := by rw [hd]; exact List.mem_flatMap.2 ⟨x, hx, hm⟩
      rw [e] at this; simp at this
  rw [hpost t g' done ((congrArg (fun o => o.2.2.2.1) h1').trans hf1) h3 hwd hdone] at hp
  obtain ⟨g3, h⟩ := settle_sim h3 q'
  refine ⟨_, g3, hp, h.outer.trans h1', fun j hj => (h.others j hj).trans (h2' j hj), h.after, h.gang.restEq.trans h4, ?_, ?_, ?_,
    ?_, fun l hl x hx => ?_⟩
  · exact fun l hl => (h.gang.regs l).trans (h5 l hl)
  · exact fun l hl => (h.gang.regs l).trans (h6 l hl)
  · exact fun l hl hl' => (h.gang.regs l).trans (h7 l hl hl')
  · exact fun i => (h.gang.sregs i).trans (h8 i)
  · rw [settle_quiet h3 q']
    exact onItsWay_modGang _ (fun g y hy => hy) (h9 l hl x hx)

theorem GangSim.quiet {g h : Gang} (i : GangSim g h) (q : g.Quiet) : h.Quiet := by
  have e := i.restEq
  refine ⟨(congrArg Gang.gathers e).trans q.gathers, (congrArg Gang.collects e).trans q.collects, ?_⟩
  obtain ⟨l, hl, hl'⟩ := q.live
  exact ⟨l, by rw [i.threads]; exact hl, by
    have := congrArg Thread.tstate (i.regs l)
    have e : (h.thread l).tstate = (g.thread l).tstate := this
    rw [e]; exact hl'⟩

/-- Slices under the effects of their executing threads depend on registers only. -/
theorem regs_slices (r : Nat → Eff) (b : Bool) (p : Nat → Bool) (L : List Nat) (x y : SliceState) (h : x.regs = y.regs) :
    (L.foldl (fun z l => (r l).slice b (p l) z) x).regs = (L.foldl (fun z l => (r l).slice b (p l) z) y).regs := by
  induction L generalizing x y with
  | nil => exact h
  | cons l L ih => exact ih _ _ (regs_slice _ _ _ _ _ h)

/-- The spec lemma of an issue whose bodies complete one after another, each taking the state on: `DeliveredVia`. -/
theorem runOp_via {op : Op} {f : Fields} {s s1 : State} {g g1 : Gang} (h : op.Ready f s g) (E : Nat → Eff)
    (hready : op.ready (s.opened f op g) (s.goLanes f g) = true)
    (hrun : op.runGroups (op.groups (s.goLanes f g)) (s.opened f op g) false =
      some (s1, (op.groups (s.goLanes f g)).map fun x => (x.1, x.2, .ok (E x.1))))
    (hf1 : s1.focus = (s.opened f op g).focus) (h1 : s1.gang? s.focus.key = some g1)
    (hsame : ∀ g2, (s.opened f op g).gang? s.focus.key = some g2 → g1.threads = g2.threads ∧ g1.slices = g2.slices ∧
      g1.width = g2.width ∧ g1.gathers = g2.gathers ∧ g1.collects = g2.collects)
    (hpost : ∀ t g' done, t.focus = s.focus → t.gang? s.focus.key = some g' → g'.width = g.width →
      (done = [] → s.goLanes f g = []) → op.post t done [] (s.gfLanes f g) = t)
    (hpark : ∀ l ∈ s.goLanes f g, (E (op.leader (s.goLanes f g) l)).park ≠ some .ended) :
    DeliveredVia op f s s1 (s.runOp f op) g fun l =>
      (E (op.leader (s.goLanes f g) l)).forMembers (laneSet (op.members (s.goLanes f g) l)) := by
  obtain ⟨g2, sim⟩ := opened_sim (op := op) (f := f) h.gang
  have h2 := sim.after
  have hfocus : (s.opened f op g).focus = s.focus := congrArg (fun o => o.2.2.2.1) sim.outer
  have hw : ∀ l ∈ s.goLanes f g, l < g.width := fun l hl => lanesOf_lt (List.mem_filter.1 hl).1
  have hwf : ∀ l ∈ s.gfLanes f g, l < g.width := fun l hl => lanesOf_lt (List.mem_filter.1 hl).1
  have hwd : g2.width = g.width := by
    have e := congrArg Gang.width sim.gang.restEq
    exact e
  obtain ⟨t, g', hp, h1', h2', h3, h4, h5, h6, h7, h8, h9⟩ := perform_via (s := s.opened f op g) (g2 := g2) (g1 := g1)
    (go := s.goLanes f g) (gf := s.gfLanes f g) (mask := s.focusLanes g) (f := f) E s.seqCtr s.clock (by rw [hfocus]; exact h2)
    ((lanesOf_nodup _ _).filter _) ((lanesOf_nodup _ _).filter _)
    (fun l hl hl' => by
      have a := (List.mem_filter.1 hl).2
      have b := (List.mem_filter.1 hl').2
      simp [a] at b)
    (fun l hl => ⟨by rw [sim.gang.threads, h.threads]; exact hw l hl, by rw [sim.gang.slices]; exact h.slices _ (hw l hl)⟩)
    (fun l hl => by rw [sim.gang.threads, h.threads]; exact hwf l hl)
    hready hrun hf1 (by rw [hfocus]; exact h1) (hsame g2 h2)
    (fun t g' done a b c d => hpost t g' done (a.trans hfocus) (by rw [← hfocus]; exact b) (c.trans hwd) d)
    (sim.gang.quiet h.quiet) hpark
  rw [hfocus] at h2' h3 h9
  have ht : s.runOp f op = t := by rw [runOp_ready h, hp, Option.getD_some]
  rw [ht]
  refine ⟨h1', h2', ⟨g1, g', h1, h3, h4, ?_, ?_, ?_, ?_⟩, h9⟩
  · intro l hl
    rw [h5 l hl]; exact regs_thread _ _ _ _ _ (sim.gang.regs l)
  · intro l hl
    rw [h6 l hl]
    have a := regs_falseThread f _ _ (sim.gang.regs l)
    have b := regs_falseThread f (g2.thread l) (g2.thread l) rfl
    exact b.symm.trans a
  · intro l hl
    rw [h7 l (fun h' => hl (List.mem_filter.1 h').1) (fun h' => hl (List.mem_filter.1 h').1)]
    exact sim.gang.regs l
  · intro i
    rw [h8 i]
    exact regs_slices _ _ _ _ _ _ (sim.gang.sregs i)

/-- The spec lemma of a waiting instruction whose bodies complete when it is tried again: `WokenVia`. -/
theorem wakeOp_via {op : Op} {f : Fields} {s s1 : State} {k : Nat} {x : Wait} {g g1 : Gang} (hg : s.gang? k = some g)
    (hlt : g.threads.length = g.width) (hls : ∀ l, l < g.width → l / 4 < g.slices.length) (q : g.Quiet) (E : Nat → Eff)
    (hready : op.ready (s.retried k g x) (g.woken x) = true)
    (hrun : op.runGroups (op.groups (g.woken x)) (s.retried k g x) false =
      some (s1, (op.groups (g.woken x)).map fun y => (y.1, y.2, .ok (E y.1))))
    (hf1 : s1.focus = (s.retried k g x).focus) (h1 : s1.gang? k = some g1)
    (hsame : g1.threads = g.threads ∧ g1.slices = g.slices ∧ g1.width = g.width ∧ g1.gathers = g.gathers ∧ g1.collects = g.collects)
    (hpost : ∀ t done, op.post t done [] [] = t)
    (hpark : ∀ l ∈ g.woken x, (E (op.leader (g.woken x) l)).park ≠ some .ended) :
    WokenVia op s s1 (s.wakeOp k x f op) k g x fun l =>
      (E (op.leader (g.woken x) l)).forMembers (laneSet (op.members (g.woken x) l)) := by
  have hgr : (s.retried k g x).gang? k = some { g with waits := g.waits.filter fun y => y.seq ≠ x.seq } := by
    show (s.setGang k _).gang? k = _
    rw [State.gang?_setGang, if_pos rfl]
  have hw : ∀ l ∈ g.woken x, l < g.width := fun l hl => lanesOf_lt hl
  obtain ⟨t, g', hp, h1', h2', h3, h4, h5, h6, h7, h8, h9⟩ := perform_via (s := s.retried k g x)
    (g2 := { g with waits := g.waits.filter fun y => y.seq ≠ x.seq }) (g1 := g1)
    (go := g.woken x) (gf := []) (mask := []) (f := f) (op := op) E x.seq x.since hgr (lanesOf_nodup _ _) List.nodup_nil (fun _ _ h => by simp at h)
    (fun l hl => ⟨by show l < g.threads.length; rw [hlt]; exact hw l hl, hls _ (hw l hl)⟩) (fun l hl => by simp at hl)
    hready hrun hf1 h1 hsame (fun t _ done _ _ _ _ => hpost t done) ⟨q.gathers, q.collects, q.live⟩ hpark
  have ht : s.wakeOp k x f op = { t with focus := s.focus } := by
    unfold State.wakeOp
    simp only [hg]
    have hp' : State.perform { s.setGang k { g with waits := g.waits.filter fun y => y.seq ≠ x.seq } with focus := ⟨k, x.lanes, x.pc, x.insn, x.seq⟩ }
        f op (lanesOf (x.lanes &&& g.live) g.width) [] [] [] x.seq x.since = some t := hp
    rw [hp']
    rfl
  rw [ht]
  refine ⟨?_, h2', ⟨g1, g', h1, h3, h4, h5, fun l hl => h7 l hl (by simp), h8⟩, ?_⟩
  · have := h1'
    simp only [State.outer, Prod.mk.injEq] at this ⊢
    refine ⟨this.1, this.2.1, this.2.2.1, trivial, this.2.2.2.2⟩
  · intro l hl y hy
    exact h9 l hl y hy

/-- Bodies that complete one after another, each taking the state on. -/
theorem runGroups_via (op : Op) (E : Nat → Eff) : ∀ (L : List (Nat × List Nat)) (o s1 : State),
    Accesses (fun o l t e => op.body o l = (t, .ok e)) E (L.map (·.1)) o s1 →
    op.runGroups L o false = some (s1, L.map fun x => (x.1, x.2, .ok (E x.1))) := by
  intro L
  induction L with
  | nil => intro o s1 h; simp only [List.map_nil, Accesses] at h; subst h; rfl
  | cons x L ih =>
    intro o s1 h
    obtain ⟨l, ms⟩ := x
    obtain ⟨u, hb, h'⟩ := h
    have hr : (Res.ok (E l) == Res.wait) = false := by simp
    simp only [Op.runGroups, Bool.false_and, Bool.false_eq_true, if_false, hb, reduceCtorEq, hr, Bool.or_self, ih _ _ h', Option.map_some,
      List.map_cons]

end Sys2Proof.Machine
end

