-- ==== Sys2Proof/Laws/Complete.lean ====
section
/-! SUPPORT. Completion of the instructions whose bodies have one of the common shapes. -/

namespace Sys2Proof.Machine

/-- Readiness depends on what an instruction reads, writes and waits for, not on its bodies. -/
theorem Op.Ready.cast {op op' : Op} {f : Fields} {s : State} {g : Gang} (h : op.Ready f s g) (hc : op'.cls = op.cls) (hs : op'.srcs = op.srcs)
    (hd : op'.dsts = op.dsts) (ht : op'.ctl = op.ctl) (hp : op'.pre = op.pre) (hg : op'.gang = op.gang) (he : op'.each = op.each)
    (hw : op'.walks = op.walks) : op'.Ready f s g := by
  obtain ⟨a, b, c, d, e, x, w, y⟩ := h
  refine ⟨a, b, c, d, e, ?_, ?_, fun l hl => ?_⟩
  · simp only [Op.groups, Op.empties, Op.stalls, Op.spoils, hs, hd, hg, he] at x ⊢; exact x
  · rw [hw]; exact w
  · refine y l ?_
    have hm : op'.meets f s g = op.meets f s g := by funext j; simp only [Op.meets, Op.units, hc, hs, hd, ht, hp]
    simp only [Op.bounds, Op.others, hm, hd] at hl ⊢
    exact hl

/-- An instruction with the frame of its member row whose body leaves the state alone. -/
theorem completes_base {i : Instr} {f : Fields} {body : State → Nat → State × Res} (v : State → Nat → Eff)
    (hexec : ∀ s, exec i s = .next (s.runOp f (Op.base i f body))) (hbody : ∀ s l, body s l = (s, .ok (v s l)))
    (hdst : ∀ s l, ∀ d ∈ (v s l).dst,
      isUniform (memberDst (rowOf i) f) = false → ∀ x : SliceState, dstSlice x d = x)
    (hprod : ∀ s l, (v s l).prod = .none) (hpark : ∀ s l, (v s l).park = .none) : Completes i f (frameOf i f) v := by
  intro s g h
  refine ⟨_, hexec s, ?_⟩
  have h' : (Op.base i f body).Ready f s g := h.cast rfl rfl rfl rfl rfl rfl rfl rfl
  have := delivers_pure h' (v (s.opened f (Op.base i f body) g)) (fun l _ => hbody _ l) rfl (fun _ _ _ _ => rfl) rfl (fun _ => rfl)
    (fun l _ => hdst _ l) (fun l => hprod _ l) (fun l _ => hpark _ l)
  exact ⟨this.outer, this.others, this.gang⟩

/-- A v or predicate destination leaves slices alone; an s destination makes the instruction uniform. -/
theorem dst_general (i : Instr) (f : Fields) (n x : Nat) (hu : (rowOf i).d.cls ≠ []) :
    ∀ d ∈ ([(f.d, n, x)] : List (Operand × Nat × Nat)),
      isUniform (memberDst (rowOf i) f) = false → ∀ x : SliceState, dstSlice x d = x := by
  intro d hd'
  simp only [List.mem_singleton] at hd'
  subst hd'
  intro h y
  simp only [memberDst, if_neg hu, isUniform, List.any_cons, List.any_nil, Bool.or_false] at h
  cases hfd : f.d <;> simp_all [dstSlice]

theorem gives1 {c : Fields → Instr} {v : Fields → Nat → Flagged Nat}
    (hexec : ∀ f s, exec (c f) s = .next (s.runOp f (opAlu1 (c f) f (v f)))) (hu : ∀ f, (rowOf (c f)).d.cls ≠ []) : Gives1 c v :=
  fun f => completes_base _ (hexec f) (fun _ _ => rfl) (fun _ _ => dst_general (c f) f _ _ (hu f)) (fun _ _ => rfl) fun _ _ => rfl

theorem gives2 {c : Fields → Instr} {v : Fields → Nat → Nat → Flagged Nat}
    (hexec : ∀ f s, exec (c f) s = .next (s.runOp f (opAlu2 (c f) f (v f)))) (hu : ∀ f, (rowOf (c f)).d.cls ≠ []) : Gives2 c v :=
  fun f => completes_base _ (hexec f) (fun _ _ => rfl) (fun _ _ => dst_general (c f) f _ _ (hu f)) (fun _ _ => rfl) fun _ _ => rfl

theorem gives3 {c : Fields → Instr} {v : Fields → Nat → Nat → Nat → Flagged Nat}
    (hexec : ∀ f s, exec (c f) s = .next (s.runOp f (opAlu3 (c f) f (v f)))) (hu : ∀ f, (rowOf (c f)).d.cls ≠ []) : Gives3 c v :=
  fun f => completes_base _ (hexec f) (fun _ _ => rfl) (fun _ _ => dst_general (c f) f _ _ (hu f)) (fun _ _ => rfl) fun _ _ => rfl

theorem givesPred {c : Fields → Instr} {v : Fields → Nat → Nat → Bool × Flags}
    (hexec : ∀ f s, exec (c f) s = .next (s.runOp f (opPred (c f) f fun s l => v f (s.srcA (c f) f l) (s.srcB (c f) f l))))
    (hu : ∀ f, (rowOf (c f)).d.cls ≠ []) : GivesPred c v :=
  fun f => completes_base _ (hexec f) (fun _ _ => rfl) (fun _ _ => dst_general (c f) f _ _ (hu f)) (fun _ _ => rfl) fun _ _ => rfl

/-- A long-latency instruction whose value does not look at the sequence counter. -/
theorem givesLate {c : Fields → Instr} {v : Fields → State → Nat → Flagged Nat}
    (hexec : ∀ f s, exec (c f) s = .next (s.runOp f (opLate (c f) f (v f))))
    (hv : ∀ (f : Fields) (s : State) (n l : Nat), v f { s with seqCtr := n } l = v f s l) : GivesLate c v := by
  intro f s g h
  have h' : (opLate (c f) f (v f)).Ready f s g := h.cast rfl rfl rfl rfl rfl rfl rfl rfl
  obtain ⟨ids, hD⟩ := delivers_late h' (fun n l => Eff.late (producerOf (s.opened f (opLate (c f) f (v f)) g) n f (dstWords (c f) f)
      (v f (s.opened f (opLate (c f) f (v f)) g) l).1 (v f (s.opened f (opLate (c f) f (v f)) g) l).2 .none false))
    (fun n l _ => by
      show ((_ : State), Res.ok (Eff.late (producerOf _ _ _ _ _ _ _ _))) = _
      simp only [hv]
      rfl)
    rfl (fun _ _ _ _ => rfl) rfl (fun _ => rfl) (fun _ _ _ => rfl) fun _ _ => rfl
  exact ⟨_, ids, hexec f s, hD.outer, hD.others, hD.gang⟩

/-- Add and subtract with carry: D and p[MD] written together (R192). -/
theorem completes_carry {c : Fields → Instr} {v : Fields → Nat → Nat → Bool → Nat × Bool}
    (hexec : ∀ f s, exec (c f) s = .next (s.runOp f (opCarry (c f) f (v f)))) (hu : ∀ f, (rowOf (c f)).d.cls ≠ []) (f : Fields) :
    Completes (c f) f (opCarry (c f) f (v f)) fun o l =>
      let r := v f (o.srcA (c f) f l) (o.srcB (c f) f l) ((o.focusGang.thread l).readP (f.md.toNat % 8))
      { Eff.none with dst := [(f.d, dstWords (c f) f, r.1), (.p (f.md.setWidth 3), 1, r.2.toNat)] } := by
  intro s g h
  refine ⟨_, hexec f s, ?_⟩
  have := delivers_pure h (fun l =>
      let o := s.opened f (opCarry (c f) f (v f)) g
      let r := v f (o.srcA (c f) f l) (o.srcB (c f) f l) ((o.focusGang.thread l).readP (f.md.toNat % 8))
      { Eff.none with dst := [(f.d, dstWords (c f) f, r.1), (.p (f.md.setWidth 3), 1, r.2.toNat)] })
    (fun l _ => rfl) rfl (fun _ _ _ _ => rfl) rfl (fun _ => rfl) ?_ (fun _ => rfl) fun _ _ => rfl
  · exact this
  · intro l _ d hd
    simp only [List.mem_cons, List.not_mem_nil, or_false] at hd
    rcases hd with rfl | rfl
    · intro hun x
      have h2 : isUniform (memberDst (rowOf (c f)) f) = false := by
        have h3 : isUniform (memberDst (rowOf (c f)) f ++ [((.p (f.md.setWidth 3) : Operand), 1)]) = false := hun
        simp only [isUniform, List.any_append, Bool.or_eq_false_iff] at h3
        exact h3.1
      exact (dst_general (c f) f _ _ (hu f) _ (List.mem_singleton.2 rfl)) h2 x
    · exact fun _ _ => rfl

theorem opLane_body (i : Instr) (f : Fields) (v : State → List Nat → Nat → Flagged Nat) (s : State) (l : Nat) :
    (opLane i f v).body s l =
      if (((s.participants f).map (· / 4)).dedup).length ≤ 1 then
        (s, .ok (Eff.value i f (v s (s.participants f) l)))
      else
        ({ s with seqCtr := s.seqCtr + 1 }, .ok (Eff.late (producerOf s s.seqCtr f (dstWords i f)
          (v s (s.participants f) l).1 (v s (s.participants f) l).2 .none false))) := rfl

theorem opLane_late (i : Instr) (f : Fields) (v : State → List Nat → Nat → Flagged Nat)
    (hv : ∀ (s : State) (n : Nat) (ps : List Nat) (l : Nat), v { s with seqCtr := n } ps l = v s ps l) (s : State) (n l : Nat)
    (hs : 1 < (((s.participants f).map (· / 4)).dedup).length) :
    (opLane i f v).body { s with seqCtr := n } l =
      ({ s with seqCtr := n + 1 }, .ok (Eff.late (producerOf s n f (dstWords i f)
        (v s (s.participants f) l).1 (v s (s.participants f) l).2 .none false))) := by
  have hp : State.participants { s with seqCtr := n } f = s.participants f := rfl
  rw [opLane_body, hp, if_neg (Nat.not_le.2 hs), hv]
  rfl

theorem givesLane {c : Fields → Instr} {v : Fields → State → List Nat → Nat → Flagged Nat}
    (hexec : ∀ f s, exec (c f) s = .next (s.runOp f (opLane (c f) f (v f)))) (hu : ∀ f, (rowOf (c f)).d.cls ≠ [])
    (hv : ∀ (f : Fields) (s : State) (n : Nat) (ps : List Nat) (l : Nat), v f { s with seqCtr := n } ps l = v f s ps l) :
    GivesLane c v := by
  intro f s g h op o go ps
  have h' : (opLane (c f) f (v f)).Ready f s g := h.cast rfl rfl rfl rfl rfl rfl rfl rfl
  have hops : ∀ n, State.participants { o with seqCtr := n } f = ps := fun _ => rfl
  constructor
  · intro hs
    have := delivers_pure h' (fun l => Eff.value (c f) f (v f o ps l))
      (fun l _ => (opLane_body _ _ _ _ _).trans (if_pos hs))
      rfl (fun _ _ _ _ => rfl) rfl (fun _ => rfl) (fun l _ => dst_general (c f) f _ _ (hu f)) (fun _ => rfl) fun _ _ => rfl
    exact ⟨_, hexec f s, this.outer, this.others, this.gang⟩
  · intro hs
    obtain ⟨ids, hD⟩ := delivers_late h' (fun n l => Eff.late (producerOf o n f (dstWords (c f) f)
        (v f o ps l).1 (v f o ps l).2 .none false))
      (fun n l _ => opLane_late (c f) f (v f) (hv f) o n l hs)
      rfl (fun _ _ _ _ => rfl) rfl (fun _ => rfl) (fun _ _ _ => rfl) fun _ _ => rfl
    exact ⟨_, ids, hexec f s, hD.outer, hD.others, hD.gang⟩

theorem givesLanePred {c : Fields → Instr} {v : Fields → State → List Nat → Nat → Bool}
    (hexec : ∀ f s, exec (c f) s = .next (s.runOp f (opLanePred (c f) f (v f)))) (hu : ∀ f, (rowOf (c f)).d.cls ≠ []) :
    GivesLanePred c v := by
  intro f s g h
  have h' : (opLanePred (c f) f (v f)).Ready f s g := h.cast rfl rfl rfl rfl rfl rfl rfl rfl
  have := delivers_pure h' (fun l => Eff.pred f (v f (s.opened f (opLanePred (c f) f (v f)) g)
      ((s.opened f (opLanePred (c f) f (v f)) g).participants f) l) flagNone)
    (fun l _ => rfl) rfl (fun _ _ _ _ => rfl) rfl (fun _ => rfl) (fun l _ => dst_general (c f) f _ _ (hu f)) (fun _ => rfl)
    fun _ _ => rfl
  exact ⟨_, hexec f s, this.outer, this.others, this.gang⟩

/-! ## Transfers and ends -/

theorem opBranch_body (i : Instr) (f : Fields) (target : State → Nat → Option Pc) (link : Bool) (s : State) (l : Nat) (t : Pc)
    (h : target s l = some t) :
    (opBranch i f target link).body s l =
      (s, .ok { Eff.none with ctl := .jump t, dst := if link then [(f.d, 2, (pcAdd s.focus.pc 12).toNat)] else [] }) := by
  show (match target s l with
    | .none => (s, Res.trap (LaneFault.plain l .badTarget))
    | some t => _) = _
  rw [h]

/-- A transfer whose targets are good in every executing thread. -/
theorem branch_delivers {i : Instr} {f : Fields} {target : State → Nat → Option Pc} {link : Bool} {s : State} {g : Gang} (T : Nat → Pc)
    (hd : link = true → (rowOf i).d.cls ≠ [])
    (h : (opBranch i f target link).Ready f s g)
    (hT : ∀ l ∈ s.goLanes f g, target (s.opened f (opBranch i f target link) g) l = some (T l)) :
    Delivered (opBranch i f target link) f s (s.runOp f (opBranch i f target link)) g fun l =>
      { Eff.none with
        ctl := .jump (T ((opBranch i f target link).leader (s.goLanes f g) l))
        dst := if link then [(f.d, 2, (pcAdd s.focus.pc 12).toNat)] else [] } := by
  have hf : (s.opened f (opBranch i f target link) g).focus = s.focus := by
    obtain ⟨_, sim⟩ := opened_sim (op := opBranch i f target link) (f := f) h.gang
    exact congrArg (fun o => o.2.2.2.1) sim.outer
  exact delivers_pure h
    (fun l => { Eff.none with ctl := .jump (T l), dst := if link then [(f.d, 2, (pcAdd s.focus.pc 12).toNat)] else [] })
    (fun l hl => by rw [opBranch_body _ _ _ _ _ _ _ (hT l hl), hf]) rfl (fun _ _ _ _ => rfl) rfl (fun _ => rfl)
    (fun l _ d hd' => by
      cases link with
      | false => cases hd'
      | true => exact dst_general i f _ _ (hd rfl) d hd') (fun _ => rfl) fun _ _ => rfl

theorem accesses_still {a : State → Nat → State → Eff → Prop} {E : Nat → Eff} (h : ∀ o l t e, a o l t e → o.Still t) :
    ∀ (L : List Nat) (o t : State), Accesses a E L o t → o.Still t := by
  intro L
  induction L with
  | nil => intro o t e; subst e; exact .refl _
  | cons l L ih => intro o t e; obtain ⟨u, h1, h2⟩ := e; exact (h _ _ _ _ h1).trans (ih _ _ h2)

theorem accesses_mono {a b : State → Nat → State → Eff → Prop} {E : Nat → Eff} (p : State → Prop)
    (h : ∀ o l t e, p o → a o l t e → b o l t e ∧ p t) :
    ∀ (L : List Nat) (o t : State), p o → Accesses a E L o t → Accesses b E L o t := by
  intro L
  induction L with
  | nil => intro o t _ e; exact e
  | cons l L ih =>
    intro o t hp e
    obtain ⟨u, h1, h2⟩ := e
    obtain ⟨h3, h4⟩ := h _ _ _ _ hp h1
    exact ⟨u, h3, ih _ _ h4 h2⟩

theorem accesses_all {a : State → Nat → State → Eff → Prop} {E : Nat → Eff} (p : Eff → Prop) (h : ∀ o l t e, a o l t e → p e) :
    ∀ (L : List Nat) (o t : State), Accesses a E L o t → ∀ l ∈ L, p (E l) := by
  intro L
  induction L with
  | nil => intro o t _ l hl; simp at hl
  | cons l L ih =>
    intro o t e j hj
    obtain ⟨u, h1, h2⟩ := e
    rcases List.mem_cons.1 hj with rfl | hj
    · exact h _ _ _ _ h1
    · exact ih _ _ h2 j hj

theorem groups_leaders_mem (op : Op) (go : List Nat) : ∀ l ∈ go, op.leader go l ∈ (op.groups go).map (·.1) := by
  intro l hl
  obtain ⟨x, hx, hm⟩ := mem_groups op go l hl
  exact List.mem_map.2 ⟨x, hx, ((groups_mem op go x hx).2 l hm).2.1.symm⟩

/-- A step keeps the focus, and of every gang threads, slices, width and rendezvous. -/
structure State.Keeps (s t : State) : Prop where
  focus : t.focus = s.focus
  gangs : ∀ k g, s.gang? k = some g → ∃ h, t.gang? k = some h ∧ h.threads = g.threads ∧ h.slices = g.slices ∧ h.width = g.width ∧
    h.gathers = g.gathers ∧ h.collects = g.collects

theorem State.Keeps.refl (s : State) : s.Keeps s := ⟨rfl, fun _ g h => ⟨g, h, rfl, rfl, rfl, rfl, rfl⟩⟩
theorem State.Keeps.trans {a b c : State} (h : a.Keeps b) (i : b.Keeps c) : a.Keeps c :=
  ⟨i.focus.trans h.focus, fun k g hg => by
    obtain ⟨u, h1, a1, a2, a3, a4, a5⟩ := h.gangs k g hg
    obtain ⟨v, h2, b1, b2, b3, b4, b5⟩ := i.gangs k u h1
    exact ⟨v, h2, b1.trans a1, b2.trans a2, b3.trans a3, b4.trans a4, b5.trans a5⟩⟩

theorem State.Still.keeps {s t : State} (h : s.Still t) : s.Keeps t :=
  ⟨h.focus, fun k g hg => by
    have hs := h.gangs k
    rw [hg] at hs
    cases ht : t.gang? k with
    | none => rw [ht] at hs; simp at hs
    | some x =>
      rw [ht] at hs
      have hd : x.deaf = g.deaf := by simpa using hs
      exact ⟨x, rfl, show x.deaf.threads = g.deaf.threads by rw [hd], show x.deaf.slices = g.deaf.slices by rw [hd],
        show x.deaf.width = g.deaf.width by rw [hd], show x.deaf.gathers = g.deaf.gathers by rw [hd],
        show x.deaf.collects = g.deaf.collects by rw [hd]⟩⟩

theorem accesses_keeps {a : State → Nat → State → Eff → Prop} {E : Nat → Eff} (h : ∀ o l t e, a o l t e → o.Keeps t) :
    ∀ (L : List Nat) (o t : State), Accesses a E L o t → o.Keeps t := by
  intro L
  induction L with
  | nil => intro o t e; subst e; exact .refl _
  | cons l L ih => intro o t e; obtain ⟨u, h1, h2⟩ := e; exact (h _ _ _ _ h1).trans (ih _ _ h2)

theorem accesses_congr {a : State → Nat → State → Eff → Prop} {E F : Nat → Eff} :
    ∀ (L : List Nat) (s t : State), (∀ l ∈ L, E l = F l) → Accesses a E L s t → Accesses a F L s t := by
  intro L
  induction L with
  | nil => intro s t _ h; exact h
  | cons l L ih =>
    intro s t hE h
    obtain ⟨u, h1, h2⟩ := h
    exact ⟨u, hE l List.mem_cons_self ▸ h1, ih _ _ (fun j hj => hE j (List.mem_cons_of_mem _ hj)) h2⟩

/-- Accesses that can be made are made. -/
theorem canAccess_accesses {a : State → Nat → State → Eff → Prop} :
    ∀ (L : List Nat), L.Nodup → ∀ s : State, CanAccess a L s → ∃ (t : State) (E : Nat → Eff), Accesses a E L s t := by
  intro L
  induction L with
  | nil => intro _ s _; exact ⟨s, fun _ => Eff.none, rfl⟩
  | cons l L ih =>
    intro hn s h
    rw [List.nodup_cons] at hn
    obtain ⟨⟨u, e, h1⟩, h2⟩ := h
    obtain ⟨t, E, h3⟩ := ih hn.2 u (h2 u e h1)
    refine ⟨t, fun j => if j = l then e else E j, u, by simpa using h1, accesses_congr L u t (fun j hj => ?_) h3⟩
    rw [if_neg]; rintro rfl; exact hn.1 hj

theorem goLanes_nodup (s : State) (f : Fields) (g : Gang) : (s.goLanes f g).Nodup := (lanesOf_nodup _ _).filter _

/-- `CompletesOnGang` of an instruction whose body does what the access says. -/
theorem completes_on_gang {i : Instr} {f : Fields} {op : Op} {a : State → Nat → State → Eff → Prop}
    (hi : ∀ s, exec i s = runInstr f op s)
    (hbody : ∀ o l t e, a o l t e → op.body o l = (t, .ok e)) (hst : ∀ o l t e, a o l t e → o.Keeps t)
    (hpost : ∀ (s t : State) (g g' : Gang) done, t.focus = s.focus → t.gang? s.focus.key = some g' → g'.width = g.width →
      (done = [] → s.goLanes f g = []) → op.post t done [] (s.gfLanes f g) = t)
    (hpark : ∀ o l t e, a o l t e → e.park ≠ some .ended) :
    CompletesOnGang i f op a := by
  intro s g h hr hc
  obtain ⟨s1, E, ha⟩ := canAccess_accesses _ (groups_leaders_nodup op _ (goLanes_nodup s f g)) _ hc
  obtain ⟨g2, sim⟩ := opened_sim (op := op) (f := f) h.gang
  have hK := accesses_keeps hst _ _ _ ha
  obtain ⟨g1, h1, e1, e2, e3, e4, e5⟩ := hK.gangs _ _ sim.after
  refine ⟨_, s1, E, hi s, ha, runOp_via h E hr
    (runGroups_via op E _ _ _ (accesses_mono (fun _ => True) (fun o l t e _ h => ⟨hbody _ _ _ _ h, trivial⟩) _ _ _ trivial ha))
    hK.focus h1 (fun g3 h3 => ?_) (fun t g' done a b c d => hpost s t g g' done a b c d)
    (fun l hl => accesses_all (fun e => e.park ≠ some .ended) hpark _ _ _ ha _ (groups_leaders_mem op _ l hl))⟩
  rw [sim.after] at h3
  simp only [Option.some.injEq] at h3
  subst h3
  exact ⟨e1, e2, e3, e4, e5⟩

/-- `CompletesAt` of an instruction whose body does what the access says, and whose access leaves gangs alone. -/
theorem completes_at {s : State} {i : Instr} {f : Fields} {op : Op} {a : State → Nat → State → Eff → Prop}
    (hi : exec i s = runInstr f op s)
    (hbody : ∀ o l t e, a o l t e → op.body o l = (t, .ok e)) (hst : ∀ o l t e, a o l t e → o.Still t)
    (hpost : ∀ (s t : State) (g g' : Gang) done, t.focus = s.focus → t.gang? s.focus.key = some g' → g'.width = g.width →
      (done = [] → s.goLanes f g = []) → op.post t done [] (s.gfLanes f g) = t)
    (hpark : ∀ o l t e, a o l t e → e.park ≠ some .ended) :
    CompletesAt s i f op a := by
  intro g h hr hc
  obtain ⟨s1, E, ha⟩ := canAccess_accesses _ (groups_leaders_nodup op _ (goLanes_nodup s f g)) _ hc
  obtain ⟨g2, sim⟩ := opened_sim (op := op) (f := f) h.gang
  have hS := accesses_still hst _ _ _ ha
  have hK := hS.keeps
  obtain ⟨g1, h1, e1, e2, e3, e4, e5⟩ := hK.gangs _ _ sim.after
  have hs2 := hS.gangs s.focus.key
  rw [sim.after, h1] at hs2
  have hd : g1.deaf = g2.deaf := by simpa using hs2
  have hD := runOp_via h E hr
    (runGroups_via op E _ _ _ (accesses_mono (fun _ => True) (fun o l t e _ h => ⟨hbody _ _ _ _ h, trivial⟩) _ _ _ trivial ha))
    hK.focus h1 (fun g3 h3 => by
      rw [sim.after] at h3
      simp only [Option.some.injEq] at h3
      subst h3
      exact ⟨e1, e2, e3, e4, e5⟩) (fun t g' done a b c d => hpost s t g g' done a b c d)
    (fun l hl => accesses_all (fun e => e.park ≠ some .ended) hpark _ _ _ ha _ (groups_leaders_mem op _ l hl))
  have ho : (s.opened f op g).outer = s.outer := sim.outer
  refine ⟨_, s1, E, hi, ha, ⟨?_, ?_, ?_, ?_, ?_⟩, hD⟩
  · exact ((congrArg (fun o => o.2.2.2.1) hD.outer).trans hS.focus).trans (congrArg (fun o => o.2.2.2.1) ho)
  · exact ((congrArg (fun o => o.2.2.1) hD.outer).trans hS.clock).trans (congrArg (fun o => o.2.2.1) ho)
  · exact ((congrArg (fun o => o.2.2.2.2.2.1) hD.outer).trans hS.gens).trans (congrArg (fun o => o.2.2.2.2.2.1) ho)
  · intro j hj
    rw [hD.others j hj, hS.gangs, sim.others j hj]
  · obtain ⟨g1', g', e1, e2, e3, -⟩ := hD.gang
    rw [h1] at e1
    simp only [Option.some.injEq] at e1
    subst e1
    rw [e2, h.gang, Option.map_some, Option.map_some, e3, ← sim.gang.restEq]
    have := congrArg Gang.rest hd
    exact congrArg some this

theorem completes_via {i : Instr} {f : Fields} {op : Op} {a : State → Nat → State → Eff → Prop} (hi : ∀ s, exec i s = runInstr f op s)
    (hbody : ∀ o l t e, a o l t e → op.body o l = (t, .ok e)) (hst : ∀ o l t e, a o l t e → o.Still t)
    (hpost : ∀ (s t : State) (g g' : Gang) done, t.focus = s.focus → t.gang? s.focus.key = some g' → g'.width = g.width →
      (done = [] → s.goLanes f g = []) → op.post t done [] (s.gfLanes f g) = t)
    (hpark : ∀ o l t e, a o l t e → e.park ≠ some .ended) :
    CompletesVia i f op a := fun s => completes_at (hi s) hbody hst hpost hpark

/-- `Wakes` of a waiting instruction whose body does what the access says. -/
theorem wakes_via {row : Nat → Nat → Instr} {i : Instr} {f : Fields} {op : Nat → Op} {a : Nat → State → Nat → State → Eff → Prop}
    (hi : ∀ (s : State) (k w : Nat) (x : Wait), s.waitOf k w = some x → x.instr = i →
      exec (row k w) s = .next (s.wakeOp k x f (op x.seq)))
    (hbody : ∀ n o l t e, a n o l t e → (op n).body o l = (t, .ok e)) (hst : ∀ n o l t e, a n o l t e → o.Keeps t)
    (hpost : ∀ n t done, (op n).post t done [] [] = t)
    (hpark : ∀ n o l t e, a n o l t e → e.park ≠ some .ended) :
    Wakes row i op a := by
  intro s k w g x hg hlt hls q hw hx hr hc
  obtain ⟨s1, E, ha⟩ := canAccess_accesses _ (groups_leaders_nodup (op x.seq) (g.woken x) (lanesOf_nodup _ _)) _ hc
  have hK := accesses_keeps (hst x.seq) _ _ _ ha
  have hgr : (s.retried k g x).gang? k = some { g with waits := g.waits.filter fun y => y.seq ≠ x.seq } := by
    show (s.setGang k _).gang? k = _
    rw [State.gang?_setGang, if_pos rfl]
  obtain ⟨g1, h1, e1, e2, e3, e4, e5⟩ := hK.gangs _ _ hgr
  exact ⟨_, s1, E, hi s k w x hw hx, ha, wakeOp_via hg hlt hls q E hr
    (runGroups_via (op x.seq) E _ _ _
      (accesses_mono (fun _ => True) (fun o l t e _ h => ⟨hbody _ _ _ _ _ h, trivial⟩) _ _ _ trivial ha))
    hK.focus h1 ⟨e1, e2, e3, e4, e5⟩ (hpost x.seq)
    (fun l hl => accesses_all (fun e => e.park ≠ some .ended) (hpark x.seq) _ _ _ ha _ (groups_leaders_mem _ _ l hl))⟩

/-- A completion depends on what an instruction reads, writes and waits for, not on its bodies. -/
theorem CompletesAt.cast {s : State} {i : Instr} {f : Fields} {a : State → Nat → State → Eff → Prop} {op op' : Op}
    (h : CompletesAt s i f op a) (h1 : op'.srcs = op.srcs) (h2 : op'.dsts = op.dsts) (h3 : op'.cls = op.cls) (h4 : op'.pre = op.pre)
    (h5 : op'.ctl = op.ctl) (h6 : op'.gang = op.gang) (h7 : op'.each = op.each) (h8 : op'.ready = op.ready)
    (h9 : op'.walks = op.walks) :
    CompletesAt s i f op' a := by
  intro g hr hre ha
  have e1 : ∀ go, op'.groups go = op.groups go := fun go => by simp only [Op.groups, h2, h6, h7]
  have em : op'.meets f s g = op.meets f s g := by
    funext l; simp only [Op.meets, Op.units, h1, h2, h3, h4, h5]
  have eo : op'.others g = op.others g := by
    funext l; simp only [Op.others, h2]
  have e2 : s.opened f op' g = s.opened f op g := by
    unfold State.opened
    have eb : ∀ go gf, op'.bounds f s g go gf = op.bounds f s g go gf := fun go gf => by simp only [Op.bounds, em, eo]
    rw [eb]
  have e3 : ∀ go l, op'.leader go l = op.leader go l := fun go l => by simp only [Op.leader, h2, h6, h7]
  have e4 : ∀ go l, op'.members go l = op.members go l := fun go l => by simp only [Op.members, h2, h6, h7]
  rw [e1, e2] at ha
  rw [h8, e2] at hre
  obtain ⟨t, s1, E, k1, ka, k2, k3⟩ :=
    h g (hr.cast h3.symm h1.symm h2.symm h5.symm h4.symm h6.symm h7.symm h9.symm) hre ha
  refine ⟨t, s1, E, k1, by rw [e1, e2]; exact ka, k2, ⟨k3.outer, k3.others, ?_, ?_⟩⟩
  · simp only [e3, e4, h2]; exact k3.gang
  · simp only [e3, e4]; exact k3.entries

/-- A gang whose threads have all ended settles as ENDED. -/
theorem settle_ended {k : Nat} {s : State} {g : Gang} (h : s.gang? k = some g) (hg : g.gathers = []) (hc : g.collects = [])
    (he : g.allEnded = true) :
    ∃ g', (s.settle k).gang? k = some g' ∧ g'.gstate = .ended ∧ g'.threads = g.threads := by
  have key : ∃ g', (s.endGang k).gang? k = some g' ∧ g'.gstate = .ended ∧ g'.threads = g.threads ∧ g'.gathers = [] ∧
      g'.collects = [] := by
    unfold State.endGang
    simp only [h, he, Bool.true_and]
    by_cases hs : g.gstate = .ended
    · simp only [hs, bne_self_eq_false, Bool.false_eq_true, if_false]
      exact ⟨g, h, hs, rfl, hg, hc⟩
    · have hs' : (g.gstate != GState.ended) = true := by simpa using hs
      simp only [hs', if_true]
      -- dissolving a set keeps threads
      have hdis : ∀ (u : State) (core set : Nat), u.gang? k = some g →
          ∃ g1, (u.dissolveSet core set).gang? k = some g1 ∧ g1.threads = g.threads := by
        intro u core set hu
        unfold State.dissolveSet
        simp only
        have hfold : ∀ (ks : List Nat) (u : State) (g1 : Gang), u.gang? k = some g1 → g1.threads = g.threads →
            ∃ g2, (ks.foldl (fun s k => s.modGang k fun g =>
              { g with binding := .none, wish := .none, collects := [], issued := [], stalled := 0 }) u).gang? k = some g2 ∧
              g2.threads = g.threads := by
          intro ks
          induction ks with
          | nil => intro u g1 h1 h2; exact ⟨g1, h1, h2⟩
          | cons j ks ih =>
            intro u g1 h1 h2
            rw [List.foldl_cons]
            by_cases hj : k = j
            · exact ih _ { g1 with binding := .none, wish := .none, collects := [], issued := [], stalled := 0 }
                (by rw [State.gang?_modGang, if_pos hj, h1]; rfl) h2
            · exact ih _ g1 (by rw [State.gang?_modGang, if_neg hj]; exact h1) h2
        exact hfold _ _ g (by simpa using hu) rfl
      obtain ⟨g1, h1, h2⟩ : ∃ g1, (match g.binding with
          | some b => State.dissolveSet { s with mem := { s.mem with monitors := s.mem.monitors.filter fun m => m.key ≠ k } } (coreOf k) b.1
          | .none => { s with mem := { s.mem with monitors := s.mem.monitors.filter fun m => m.key ≠ k } }).gang? k = some g1 ∧
            g1.threads = g.threads := by
        split
        · exact hdis _ _ _ h
        · exact ⟨g, h, rfl⟩
      have hcg : ∀ (u : State) (b : Nat), (u.cancelGathering b).gang? k = u.gang? k := by
        intro u b
        unfold State.cancelGathering
        split
        · rfl
        · split
          · rfl
          · refine foldl_keeps _ (fun u : State => u.gang? k) (fun u c => ?_) _ _
            split <;> rfl
      have hml : ∀ (u : State) (l : Nat) (q : Launch → Launch), (u.modLaunch l q).gang? k = u.gang? k := fun _ _ _ => rfl
      have hmb : ∀ (u : State) (l : Nat) (q : Block → Block), (u.modBlock l q).gang? k = u.gang? k := fun _ _ _ => rfl
      refine ⟨{ g1 with
        gstate := .ended, waits := [], cpys := [], gathers := [], parked := .none, collects := [], issued := [], stalled := 0, heldResumes := 0 },
        ?_, rfl, h2, rfl, rfl⟩
      have h1' := congrArg (Option.map fun g : Gang => { g with
        gstate := .ended, waits := [], cpys := [], gathers := [], parked := .none, collects := [], issued := [], stalled := 0, heldResumes := 0 }) h1
      split
      · rw [hcg, hmb, State.gang?_modGang, if_pos rfl]; exact h1'
      · rw [hml, hcg, hmb, State.gang?_modGang, if_pos rfl]; exact h1'
  obtain ⟨g', h1, h2, h3, h4, h5⟩ := key
  have hw : ∀ u : State, u.gang? k = some g' → u.settleWaitany k = u := by
    intro u hu
    simp only [State.settleWaitany, hu, h4, List.find?_nil]
    split <;> rfl
  refine ⟨g'.settleCounts, ?_, h2, h3⟩
  unfold State.settle
  rw [hw _ h1, hw _ h1]
  have : (s.endGang k).settleCollective k = s.endGang k := by simp only [State.settleCollective, h1, h5, List.head?_nil, Option.filter_none]
  rw [this, State.gang?_modGang, if_pos rfl, h1]
  rfl

end Sys2Proof.Machine
end

