-- ==== Sys2Proof/Laws/Access.lean ====
section
/-! SUPPORT. Memory instructions whose accesses succeed do what `LoadAccess`, `BoundedAccess`, `StoreAccess`, `RedAccess` and
`RmwAccess` say, and leave gangs alone. -/

namespace Sys2Proof.Machine

theorem still_seq (s : State) (n : Nat) : s.Still { s with seqCtr := n } := still_same rfl rfl rfl

theorem still_ea (s : State) (i : Instr) (f : Fields) (l : Nat) (sp : Space) (acc : Access) (n : Nat) : s.Still (s.ea i f l sp acc n).1 := still_eaAt _ _ _ _ _ _ _

theorem still_readSpot (s : State) (n : Nat) (a : Bool) (sp : Spot) : s.Still (s.readSpot n a sp).1 := by
  unfold State.readSpot
  cases sp with
  | glob a t pa => simp only; split; exacts [(still_dropL1 _ _ _).trans (still_readHome _ _ _ _ _ _), still_readPlain _ _ _ _ _ _ _]
  | scratch o off => exact still_readScratch _ _ _ _ _ _
  | param off => exact .refl _

theorem still_readUnless (s : State) (fwd : List (Nat × Nat)) (n : Nat) (r : State × ReadEnd) (h : s.Still r.1) :
    s.Still (s.readUnless fwd n r).1 := by
  unfold State.readUnless
  split <;> [exact .refl _; exact h]

theorem still_load {i f space acq w o l t e} (h : LoadAccess i f space acq w o l t e) : o.Still t := by
  obtain ⟨-, -, s1, sp, s2, x, h1, h2, h3, -⟩ := h
  have a := still_ea o i f l space .read f.ty.bytes; rw [h1] at a
  have b := still_readUnless s1 (s1.fwdOf l sp f.ty.bytes) f.ty.bytes _ (still_readSpot s1 f.ty.bytes acq.isSome sp); rw [h2] at b
  subst h3
  refine (a.trans b).trans (State.Still.trans ?_ (still_seq _ _))
  cases acq <;> [exact .refl _; exact still_acquireL1 _ _ _]

theorem opLoad_body (i : Instr) (f : Fields) (space : Space) (read) (o : State) (l : Nat) (h : o.acquirePending o.focus.key l = false) {s1 sp}
   (h1 : o.ea i f l space .read f.ty.bytes = (s1, .ok sp)) : (opLoad i f space read).body o l = read s1 l sp := by
  show (if _ then _ else _) = _
  rw [if_neg (by simp [h]), h1]

theorem await_body (op : Op) (o : State) (l : Nat) (h : o.settledIn = true) : op.awaitFlush.body o l = op.body o l := by
  show (if _ then _ else _) = _
  rw [if_neg]
  unfold State.settledIn at h
  cases hh : o.focusGang.flushFrom <;> simp_all

theorem focusGang_still {s t : State} (h : s.Still t) : t.focus = s.focus := h.focus

theorem plain_body (i : Instr) (f : Fields) (space : Space) (w : Bool) {o l t e} (h : LoadAccess i f space .none w o l t e) :
    (opLoad i f space fun s l sp => s.loadPlain i f space l sp).body o l = (t, .ok e) := by
  obtain ⟨-, hp, s1, sp, s2, x, h1, h2, h3, h4⟩ := h
  rw [opLoad_body _ _ _ _ _ _ hp h1]
  have key : s1.loadPlain i f space l sp =
      (s1.readUnless (s1.fwdOf l sp f.ty.bytes) f.ty.bytes (s1.readSpot f.ty.bytes false sp)).1.finishLoad f l (s1.eaOf i f l space)
        (s1.fwdOf l sp f.ty.bytes) .none .none
        (s1.readUnless (s1.fwdOf l sp f.ty.bytes) f.ty.bytes (s1.readSpot f.ty.bytes false sp)).2 := by
    unfold State.loadPlain State.readSpot
    cases sp <;> rfl
  rw [key]
  simp only [Option.isSome_none] at h2
  rw [h2]
  subst h3 h4
  rfl

theorem acq_body (i : Instr) (f : Fields) (space : Space) (w : Bool) (sc : Scope) {o l t e} (h : LoadAccess i f space (some sc) w o l t e) :
    (opLoad i f space fun s l sp => s.loadAcquire i f space sc l sp).body o l = (t, .ok e) := by
  obtain ⟨-, hp, s1, sp, s2, x, h1, h2, h3, h4⟩ := h
  rw [opLoad_body _ _ _ _ _ _ hp h1]
  have hf : s1.focus = o.focus := by
    have a := still_ea o i f l space .read f.ty.bytes; rw [h1] at a; exact a.focus
  have key : s1.loadAcquire i f space sc l sp =
      let r := s1.readUnless (s1.fwdOf l sp f.ty.bytes) f.ty.bytes (s1.readSpot f.ty.bytes true sp)
      State.finishLoad (match r.2 with | .data _ => r.1.acquireL1 (coreOf s1.focus.key) sc | _ => r.1) f l (s1.eaOf i f l space)
        (s1.fwdOf l sp f.ty.bytes) .none (some sc) r.2 := by
    unfold State.loadAcquire State.readSpot
    cases sp <;> rfl
  rw [key]
  simp only [Option.isSome_some] at h2
  simp only [h2, hf]
  subst h3 h4
  rfl

theorem noDst {i f space acq w o l t e} (h : LoadAccess i f space acq w o l t e) : e.dst = [] ∧ e.park ≠ some .ended := by
  obtain ⟨-, hp, s1, sp, s2, x, h1, h2, h3, h4⟩ := h
  subst h4; exact ⟨rfl, by simp [Eff.late, Eff.none]⟩

theorem bounded_body {i f rpt o l t e} (h : BoundedAccess i f rpt o l t e) : (opBounded i f rpt).body o l = (t, .ok e) := by
  obtain ⟨h0, hp, s1, a, tg, pa, s2, x, p, h1, h2, h3, h4⟩ := h
  unfold opBounded
  simp only
  rw [await_body _ _ _ h0]
  dsimp only
  rw [opLoad_body _ _ _ _ _ _ hp h1]
  dsimp only
  rw [h2]
  subst h3 h4
  rfl

theorem still_fill (s : State) (c asid va a : Nat) (t : Target) : s.Still (match t with | .hbm _ => s.fillL1 c asid va a | _ => s) := by
  cases t <;> first | exact still_fillL1 _ _ _ _ _ | exact .refl _

theorem still_readBounded (s : State) (core blk asid k : Nat) (t : Target) (va pa n : Nat) (rpt : Bool) (fwd : List (Nat × Nat)) :
    s.Still (s.readBounded core blk asid k t va pa n rpt fwd).1 := by
  have home : ∀ a, s.Still (if fwd.length = n then ((s, .data 0, true) : State × ReadEnd × Bool) else
      match s.readHome core t a n asid with
      | (s, .data x) => ((match t with | .hbm _ => s.fillL1 core asid va a | _ => s, .data x, true) : State × ReadEnd × Bool)
      | (s, r) => (s, r, true)).1 := by
    intro a
    split
    · exact .refl _
    have := still_readHome s core t a n asid
    generalize s.readHome core t a n asid = r at this ⊢
    obtain ⟨u, r⟩ := r
    cases r <;> first | exact this | exact this.trans (still_fill u _ _ _ _ _)
  unfold State.readBounded
  simp only
  cases s.regionOf asid va with
  | none => exact still_readUnless _ _ _ _ (still_readPlain _ _ _ _ _ _ _)
  | some rg =>
    simp only
    cases Tab.get? (s.core core).l1 (lineOf pa) with
    | none => exact home pa
    | some ln =>
      have pick : ∀ (c d : Prop) [Decidable c] [Decidable d] (x : State × ReadEnd × Bool), s.Still x.1 →
          s.Still (if c then (s, ReadEnd.data (ln.read pa n), true) else if d then (s, ReadEnd.data (ln.read pa n), false) else x).1 := by
        intro c d _ _ x hx
        split
        · exact .refl _
        · split
          · exact .refl _
          · exact hx
      exact pick _ _ _ (home pa)

theorem still_bounded {i f rpt o l t e} (h : BoundedAccess i f rpt o l t e) : o.Still t := by
  obtain ⟨-, -, s1, a, tg, pa, s2, x, p, h1, h2, h3, -⟩ := h
  have a1 := still_ea o i f l .glob .read f.ty.bytes; rw [h1] at a1
  have b := still_readBounded s1 (coreOf s1.focus.key) s1.focusGang.blk s1.focusGang.asid f.md.toNat tg a pa f.ty.bytes rpt
    (s1.fwdOf l (.glob a tg pa) f.ty.bytes); rw [h2] at b
  subst h3
  exact (a1.trans b).trans (still_seq _ _)

theorem pub_post (op : Op) (on : Bool) (n : Nat) (f : Fields) (hp : ∀ s a b c, op.post s a b c = s) (s t : State) (g g' : Gang) (done : List Nat) (hf : t.focus = s.focus)
    (hg : t.gang? s.focus.key = some g') (hw : g'.width = g.width) (hd : done = [] →
      s.goLanes f g = []) : (op.publishes on n).post t done [] (s.gfLanes f g) = t := by
  unfold Op.publishes
  split
  · exact hp _ _ _ _
  · simp only [hp]
    split
    · rename_i h
      exfalso
      obtain ⟨-, h1, -, h2⟩ := h
      have hfg : t.focusGang = g' := by unfold State.focusGang; rw [hf, hg]; rfl
      rw [hfg, hf, hw] at h2
      have := hd h1
      have e : s.gfLanes f g = s.focusLanes g := by
        unfold State.gfLanes
        rw [List.filter_eq_self]
        intro l hl
        by_contra hc
        have : l ∈ s.goLanes f g := List.mem_filter.2 ⟨hl, by simpa using hc⟩
        simp_all
      rw [e] at h2
      exact absurd h2 (lt_irrefl _)
    · rfl

theorem pub_body (op : Op) (on : Bool) (n : Nat) (o : State) (l : Nat) (h : on = true → o.focusGang.failedStores = 0) :
    (op.publishes on n).body o l = op.body o l := by
  unfold Op.publishes
  split
  · rfl
  · rename_i h'
    show (if _ then _ else _) = _
    rw [if_neg]
    simpa using h (by simpa using h')

theorem store_via (i : Instr) (f : Fields) (space : Space) (fill : Bool) (rel : Option Scope) (hi : ∀ s, exec i s = runInstr f (opStore i f space fill rel) s) :
    CompletesVia i f (opStore i f space fill rel) (StoreAccess i f space fill rel) := by
  refine completes_via hi (fun o l t e h => ?_) (fun o l t e h => ?_) (fun s t g g' done a b c d => pub_post _ _ _ _ (fun _ _ _ _ => rfl) s t g g' done a b c d) ?_
  · obtain ⟨h0, sp, h1, h2⟩ := h
    unfold opStore
    rw [pub_body _ _ _ _ _ fun hh => by
      simp only [Bool.and_eq_true, beq_iff_eq] at hh
      exact h0 hh.1 hh.2]
    show (match o.ea i f l space .write f.ty.bytes with
    | (s, .error r) => (s, r)
    | (s, .ok sp) => _) = _
    simp only [h1, h2]
    try (cases sp <;> rfl)
  · obtain ⟨-, sp, h1, -⟩ := h
    have a := still_ea o i f l space .write f.ty.bytes; rw [h1] at a; exact a
  · rintro o l t e ⟨-, sp, h1, rfl⟩; simp [Eff.none]

theorem red_via (i : Instr) (f : Fields) (rel : Bool) (op : Nat) (hi : ∀ s, exec i s = runInstr f (opRed i f rel op) s) :
    CompletesVia i f (opRed i f rel op) (RedAccess i f rel op) := by
  refine completes_via hi (fun o l t e h => ?_) (fun o l t e h => ?_) (fun s t g g' done a b c d => pub_post _ _ _ _ (fun _ _ _ _ => rfl) s t g g' done a b c d) ?_
  · obtain ⟨h0, sp, h1, h2⟩ := h
    unfold opRed
    simp only
    rw [pub_body _ _ _ _ _ fun hh => by
      simp only [Bool.and_eq_true] at hh
      exact h0 hh.1 hh.2]
    show (match o.ea i f l .glob .rmw f.ty.bytes with
    | (s, .error r) => (s, r)
    | (s, .ok sp) => _) = _
    rw [h1, h2]
  · obtain ⟨-, sp, h1, -⟩ := h
    have a := still_ea o i f l .glob .rmw f.ty.bytes; rw [h1] at a; exact a
  · rintro o l t e ⟨-, sp, h1, rfl⟩; simp [Eff.none]

theorem rmw_via (i : Instr) (f : Fields) (ord : Order) (new req) (hi : ∀ s, exec i s = runInstr f (opRmw i f ord new req) s) :
    CompletesVia i f (opRmw i f ord new req) (RmwAccess i f ord new) := by
  refine completes_via hi (fun o l t e h => ?_) (fun o l t e h => ?_) (fun s t g g' done a b c d => pub_post _ _ _ _ (fun _ _ _ _ => rfl) s t g g' done a b c d) ?_
  · obtain ⟨h0, h00, s1, a, tg, pa, s2, s3, old, h1, h2, h3, h4, h5, h6⟩ := h
    unfold opRmw
    simp only
    rw [await_body _ _ _ h0, pub_body _ _ _ _ _ fun hh => by
      simp only [Bool.and_eq_true, bne_iff_ne] at hh
      exact h00 hh.1 hh.2]
    show (match o.ea i f l .glob .rmw f.ty.bytes with
    | (s, .error r) => (s, r)
    | (s, .ok (.glob a (.remote dev off) pa)) => s.rmwRemote f l ord (scopeOf f.md.toNat) a dev off pa (req s l)
    | (s, .ok (.glob a _ pa)) => s.rmw f l ord (scopeOf f.md.toNat) a pa (new s l)
    | (s, .ok _) => _) = _
    rw [h1]
    have key : s1.rmw f l ord (scopeOf f.md.toNat) a pa (new s1 l) = (t, .ok e) := by
      unfold State.rmw
      simp only [h3, h4]
      have hf2 : s2.focus = s1.focus ∧ True := by
        constructor
        · split at h3
          · exact (still_drainThread h3).focus
          · exact (still_drainFenced h3).focus
        · trivial
      subst h5 h6
      rfl
    cases tg <;> first | exact key | exact absurd rfl (h2 _ _)
  · obtain ⟨h0, h00, s1, a, tg, pa, s2, s3, old, h1, h2, h3, h4, h5, h6⟩ := h
    have a1 := still_ea o i f l .glob .rmw f.ty.bytes; rw [h1] at a1
    have a2 : s1.Still s2 := by
      split at h3
      · exact (still_drainThread h3)
      · exact (still_drainFenced h3)
    have a3 := still_homeRead h4
    refine ((a1.trans a2).trans a3).trans ?_
    subst h5
    split <;> split <;> first | exact ((still_homeWrite _ _ _ _).trans (still_dropL1 _ _ _)).trans (still_acquireL1 _ _ _) | exact (still_homeWrite _ _ _ _).trans (still_dropL1 _ _ _) | exact (still_dropL1 _ _ _).trans (still_acquireL1 _ _ _) | exact still_dropL1 _ _ _
  · rintro o l t e ⟨h0, h00, s1, a, tg, pa, s2, s3, old, h1, h2, h3, h4, h5, rfl⟩; simp [Eff.none]

theorem still_consumeGranule (s : State) (sp : Spot) : s.Still (s.consumeGranule sp) := by
  cases sp <;> first | exact .refl _ | exact still_modBlock _ _ _

theorem full_body (i : Instr) (f : Fields) (c : Bool) (n : Nat) {o l t e} (h : FullAccess i f c o l t e) : (opFull i f c n).body o l = (t, .ok e) := by
  obtain ⟨u, s1, sp, h1, h2, h3⟩ := h
  have hs := h1.1 rfl
  have hb := acq_body i f .scratch true .block h1
  have hp := h1.2.1
  rw [opLoad_body _ _ _ _ _ _ hp h2] at hb
  unfold opFull
  rw [await_body _ _ _ hs]
  dsimp only
  rw [opLoad_body _ _ _ _ _ _ hp h2]
  unfold State.loadFull
  rw [hb]
  subst h3
  rfl

theorem still_full {i f c o l t e} (h : FullAccess i f c o l t e) : o.Still t := by
  obtain ⟨u, s1, sp, h1, h2, h3⟩ := h
  refine (still_load h1).trans ?_
  subst h3
  split <;> [exact still_consumeGranule _ _; exact .refl _]

theorem full_dst {i f c o l t e} (h : FullAccess i f c o l t e) : e.dst = [] ∧ e.park ≠ some .ended := by
  obtain ⟨u, s1, sp, h1, h2, h3⟩ := h; exact noDst h1

theorem still_modScratch (s : State) (b : Nat) (o : Bool) (h) : s.Still (s.modScratch b o h) := still_modBlock _ _ _

theorem pubsrcs (op : Op) (on : Bool) (n : Nat) : (op.publishes on n).srcs = op.srcs := by unfold Op.publishes; split <;> rfl

theorem pubdsts (op : Op) (on : Bool) (n : Nat) : (op.publishes on n).dsts = op.dsts := by unfold Op.publishes; split <;> rfl

theorem pubcls (op : Op) (on : Bool) (n : Nat) : (op.publishes on n).cls = op.cls := by unfold Op.publishes; split <;> rfl

theorem pubpre (op : Op) (on : Bool) (n : Nat) : (op.publishes on n).pre = op.pre := by unfold Op.publishes; split <;> rfl

theorem pubctl (op : Op) (on : Bool) (n : Nat) : (op.publishes on n).ctl = op.ctl := by unfold Op.publishes; split <;> rfl

theorem pubwalks (op : Op) (on : Bool) (n : Nat) : (op.publishes on n).walks = op.walks := by unfold Op.publishes; split <;> rfl

theorem pubgang (op : Op) (on : Bool) (n : Nat) : (op.publishes on n).gang = op.gang := by unfold Op.publishes; split <;> rfl

theorem pubeach (op : Op) (on : Bool) (n : Nat) : (op.publishes on n).each = op.each := by unfold Op.publishes; split <;> rfl

theorem pubready (op : Op) (on : Bool) (n : Nat) : (op.publishes on n).ready = op.ready := by unfold Op.publishes; split <;> rfl

theorem post_id {op : Op} (h : ∀ s a b c, op.post s a b c = s) {f : Fields} (s t : State) (g g' : Gang) (done) (_ : t.focus = s.focus) (_ : t.gang? s.focus.key = some g') (_ : g'.width = g.width) (_ : done = [] → s.goLanes f g = []) : op.post t done [] (s.gfLanes f g) = t := h _ _ _ _

end Sys2Proof.Machine
end

