-- ==== Sys2Proof/Laws/Memory.lean ====
section
/-! SUPPORT. Every operation on HBM and host memory keeps their canonical form, and reset has it. -/

namespace Sys2Proof.Machine

theorem memory_wf_reset : Memory.wf State.reset = true := rfl

theorem memory_wf_bytes {s t : State} (h : Memory.wf s = true) (e : t.mem.bytes = s.mem.bytes) : Memory.wf t = true := by
  rw [Memory.wf, e]; exact h

theorem memory_wf_foldl {α : Type} {f : State → α → State} (hf : ∀ (s : State) (a : α), Memory.wf s = true → Memory.wf (f s a) = true)
    (l : List α) {s : State} (h : Memory.wf s = true) : Memory.wf (l.foldl f s) = true := by
  induction l generalizing s with
  | nil => exact h
  | cons a l ih => exact ih (hf s a h)

theorem fireMonitor_bytes (s : State) (m : Monitor) : (s.fireMonitor m).mem.bytes = s.mem.bytes := rfl

theorem monitorsAfter_bytes (s : State) (pa : Nat) : (s.monitorsAfter pa).mem.bytes = s.mem.bytes := by
  unfold State.monitorsAfter
  generalize s.mem.monitors = l
  induction l generalizing s with
  | nil => rfl
  | cons m l ih =>
    rw [List.foldl_cons, ih]
    split <;> rfl

theorem memory_wf_homeWrite {s : State} (h : Memory.wf s = true) (pa n x : Nat) : Memory.wf (s.homeWrite pa n x) = true := by
  unfold State.homeWrite
  rw [Memory.wf, monitorsAfter_bytes]
  exact mem_wf_writeN h pa n x

theorem memory_wf_sendChannel {s : State} (h : Memory.wf s = true) (cl ch : Nat) (m : Message) :
    Memory.wf (s.sendChannel cl ch m).1 = true := by
  unfold State.sendChannel
  dsimp only
  split <;> exact h

theorem memory_wf_logError {s : State} (h : Memory.wf s = true) (k : LogKind) (u i a c asid : Nat) :
    Memory.wf (s.logError k u i a c asid) = true := by
  unfold State.logError
  dsimp only
  split
  · exact h
  · have hw := memory_wf_homeWrite (memory_wf_homeWrite h (s.rel.errBase + 64 * s.rel.errHead) 32
      (logEntry k u i s.rel.errSeq s.clock a c asid)) (s.rel.errBase + 64 * s.rel.errHead + 32) 32
      (logEntry k u i s.rel.errSeq s.clock a c asid / 2 ^ 256)
    split
    · dsimp only [Memory.wf]
      exact hw
    · refine memory_wf_sendChannel ?_ _ _ _
      dsimp only [Memory.wf]
      exact hw

theorem memory_wf_poisonAtom {s : State} (h : Memory.wf s = true) (pa : Nat) : Memory.wf (s.poisonAtom pa) = true :=
  memory_wf_homeWrite h pa 0 0

theorem memory_wf_clearPoison {s : State} (h : Memory.wf s = true) (pa : Nat) : Memory.wf (s.clearPoison pa) = true := h

theorem memory_wf_spareRow {s : State} (h : Memory.wf s = true) (pa : Nat) : Memory.wf (s.spareRow pa) = true := by
  unfold State.spareRow
  dsimp only
  split
  · refine memory_wf_logError ?_ _ _ _ _ _ _
    dsimp only [Memory.wf] at h ⊢
    exact h
  · exact memory_wf_logError h _ _ _ _ _ _

theorem memory_wf_markPoison {s : State} (h : Memory.wf s = true) (pa asid : Nat) : Memory.wf (s.markPoison pa asid) = true := by
  unfold State.markPoison
  dsimp only
  split
  · refine memory_wf_spareRow (memory_wf_logError ?_ _ _ _ _ _ _) _
    dsimp only [Memory.wf, State.poisonCounted] at h ⊢
    exact h
  · refine memory_wf_logError ?_ _ _ _ _ _ _
    dsimp only [Memory.wf, State.poisonCounted] at h ⊢
    exact h

theorem memory_wf_logFresh {s : State} (h : Memory.wf s = true) (pa asid : Nat) : Memory.wf (s.logFresh pa asid) = true := by
  unfold State.logFresh
  dsimp only
  refine memory_wf_logError ?_ _ _ _ _ _ _
  dsimp only [Memory.wf] at h ⊢
  exact h

theorem memory_wf_injectionFired {s : State} (h : Memory.wf s = true) (c : Nat) : Memory.wf (s.injectionFired c) = true := by
  unfold State.injectionFired
  dsimp only [Memory.wf] at h ⊢
  exact h

theorem memory_wf_checkAtom {s : State} (h : Memory.wf s = true) (pa n asid : Nat) : Memory.wf (s.checkAtom pa n asid).1 = true := by
  unfold State.checkAtom
  simp only
  have hl : Memory.wf (s.errorFound pa) = true := by unfold State.errorFound; dsimp only [Memory.wf] at h ⊢; exact h
  split_ifs <;> simp only
  · exact memory_wf_logFresh (memory_wf_injectionFired h _) _ _
  · exact h
  · exact memory_wf_markPoison hl _ _
  · exact memory_wf_logFresh hl _ _
  · exact h

theorem memory_wf_applyRed {s : State} (h : Memory.wf s = true) (pa op : Nat) (t : Ty) (b asid : Nat) :
    Memory.wf (s.applyRed pa op t b asid).1 = true := by
  have h1 := memory_wf_checkAtom h pa t.bytes asid
  have h2 := memory_wf_checkAtom h1 pa t.bytes asid
  unfold State.applyRed
  generalize s.checkAtom pa t.bytes asid = r1 at h1 h2 ⊢
  obtain ⟨s1, k1⟩ := r1
  simp only at h1 h2 ⊢
  have h3 : Memory.wf (if k1 = 1 then s1.checkAtom pa t.bytes asid else (s1, k1)).1 = true := by
    split
    · exact h2
    · exact h1
  generalize (if k1 = 1 then s1.checkAtom pa t.bytes asid else (s1, k1)) = r2 at h3 ⊢
  obtain ⟨s2, k2⟩ := r2
  simp only at h3 ⊢
  by_cases hk : k2 = 0
  · simp only [if_pos hk]
    exact memory_wf_homeWrite h3 _ _ _
  · by_cases hk1 : k2 = 1
    · simp only [if_neg hk, if_pos hk1]
      exact memory_wf_markPoison h3 _ _
    · simp only [if_neg hk, if_neg hk1]
      exact h3

theorem memory_wf_applyQueued {s : State} (h : Memory.wf s = true) (e : StoreEntry) : Memory.wf (s.applyQueued e) = true := by
  unfold State.applyQueued
  split
  · rename_i pa op t _ _
    have h1 := memory_wf_applyRed h pa op t e.data e.asid
    generalize s.applyRed pa op t e.data e.asid = x at h1
    obtain ⟨u, r⟩ := x
    dsimp only at h1 ⊢
    split
    · exact memory_wf_logError h1 _ _ _ _ _ _
    · exact h1
  · exact h

theorem memory_wf_drainRed {s : State} (h : Memory.wf s = true) (line : Place) : Memory.wf (s.drainRed line) = true := by
  unfold State.drainRed
  dsimp only
  refine memory_wf_foldl (fun _ e hs => memory_wf_applyQueued hs e) _ ?_
  dsimp only [Memory.wf] at h ⊢
  exact h

theorem memory_wf_agentWrite {s : State} (h : Memory.wf s = true) (pa n x : Nat) : Memory.wf (s.agentWrite pa n x) = true :=
  memory_wf_homeWrite (memory_wf_drainRed h _) pa n x

theorem memory_wf_writeRecord {s : State} (h : Memory.wf s = true) (pa n x : Nat) : Memory.wf (s.writeRecord pa n x) = true := by
  unfold State.writeRecord
  exact memory_wf_foldl (fun _ _ hs => memory_wf_agentWrite hs _ _ _) _ h

end Sys2Proof.Machine
end

