-- ==== Sys2Proof/Laws/Trap.lean ====
section
/-! SUPPORT. The taking of a trap by threads of one instruction: what their gang, its threads and the delivery queue hold after it. -/

namespace Sys2Proof.Machine

theorem still_agentWrite (s : State) (pa n x : Nat) : s.Still (s.agentWrite pa n x) :=
  (still_drainRed s _).trans (still_homeWrite _ _ _ _)

theorem still_writeRecord (s : State) (pa n x : Nat) : s.Still (s.writeRecord pa n x) :=
  still_foldl _ (fun s _ => still_agentWrite s _ _ _) _ _

/-- Threads replaced one after another. -/
theorem setThreads (l : List (Nat × Thread)) (g : Gang) (hn : (l.map (·.1)).Nodup) (hl : ∀ x ∈ l, x.1 < g.threads.length) (j : Nat) :
    (l.foldl (fun g x => g.setThread x.1 x.2) g).thread j =
      match l.find? fun x => x.1 == j with
      | some x => x.2
      | .none => g.thread j := by
  induction l generalizing g with
  | nil => rfl
  | cons x l ih =>
    rw [List.map_cons, List.nodup_cons] at hn
    rw [List.foldl_cons, ih _ hn.2 fun y hy => by simpa using hl y (List.mem_cons_of_mem _ hy)]
    simp only [List.find?_cons]
    by_cases hj : x.1 = j
    · subst hj
      have : l.find? (fun y => y.1 == x.1) = .none := by
        rw [List.find?_eq_none]
        intro y hy he
        exact hn.1 (List.mem_map.2 ⟨y, hy, by simpa using he⟩)
      simp [this, hl x List.mem_cons_self]
    · have h1 : ¬ j = x.1 := fun e => hj e.symm
      have h2 : (x.1 == j) = false := by simpa using hj
      simp [h1, h2]

theorem setThreads_rest (l : List (Nat × Thread)) (g : Gang) : (l.foldl (fun g x => g.setThread x.1 x.2) g).rest = g.rest := by
  apply foldl_keeps (v := Gang.rest); exact fun _ _ => rfl

theorem setThreads_length (l : List (Nat × Thread)) (g : Gang) :
    (l.foldl (fun g x => g.setThread x.1 x.2) g).threads.length = g.threads.length := by
  apply foldl_keeps (v := fun g : Gang => g.threads.length); exact fun _ _ => Gang.threads_setThread_length _ _ _

theorem deaf_fields {g h : Gang} (hd : g.deaf = h.deaf) :
    g.gathers = h.gathers ∧ g.collects = h.collects ∧ g.threads = h.threads ∧ g.slices = h.slices ∧ g.rest.deaf = h.rest.deaf := by
  have h1 : g.deaf.gathers = h.deaf.gathers := by rw [hd]
  have h2 : g.deaf.collects = h.deaf.collects := by rw [hd]
  have h3 : g.deaf.threads = h.deaf.threads := by rw [hd]
  have h4 : g.deaf.slices = h.deaf.slices := by rw [hd]
  have h5 : g.deaf.rest = h.deaf.rest := by rw [hd]
  exact ⟨h1, h2, h3, h4, h5⟩

theorem rest_fields {g h : Gang} (hr : g.rest = h.rest) : g.gathers = h.gathers ∧ g.collects = h.collects ∧ g.gstate = h.gstate := by
  have h1 : g.rest.gathers = h.rest.gathers := by rw [hr]
  have h2 : g.rest.collects = h.rest.collects := by rw [hr]
  have h3 : g.rest.gstate = h.rest.gstate := by rw [hr]
  exact ⟨h1, h2, h3⟩

theorem regs_fields {t u : Thread} (h : t.regs = u.regs) :
    t.v = u.v ∧ t.p = u.p ∧ t.fstat = u.fstat ∧ t.tstate = u.tstate ∧ t.pc = u.pc ∧ t.trap = u.trap ∧ t.pend = u.pend := by
  have h1 : t.regs.v = u.regs.v := by rw [h]
  have h2 : t.regs.p = u.regs.p := by rw [h]
  have h3 : t.regs.fstat = u.regs.fstat := by rw [h]
  have h4 : t.regs.tstate = u.regs.tstate := by rw [h]
  have h5 : t.regs.pc = u.regs.pc := by rw [h]
  have h6 : t.regs.trap = u.regs.trap := by rw [h]
  have h7 : t.regs.pend = u.regs.pend := by rw [h]
  exact ⟨h1, h2, h3, h4, h5, h6, h7⟩

/-- Leaving the waits keeps threads; of a rendezvous only who waits at it changes. -/
theorem leaveWaits_fields (g : Gang) (m : Lanes) : (g.leaveWaits m).threads = g.threads ∧
    (g.leaveWaits m).gathers = g.gathers.map (fun r => { r with waiting := r.waiting &&& ~~~m }) ∧
    (g.leaveWaits m).collects = g.collects.map (fun r => { r with waiting := r.waiting &&& ~~~m }) := by
  have key : ∀ (l : List (Nat × Nat × CopyUse)) (h : Gang),
      (l.foldl (fun (g : Gang) (x : Nat × Nat × CopyUse) => g.dropRec x.2.2.stamp) h).threads = h.threads ∧
      (l.foldl (fun (g : Gang) (x : Nat × Nat × CopyUse) => g.dropRec x.2.2.stamp) h).gathers = h.gathers ∧
      (l.foldl (fun (g : Gang) (x : Nat × Nat × CopyUse) => g.dropRec x.2.2.stamp) h).collects = h.collects := by
    intro l
    induction l with
    | nil => intro h; exact ⟨rfl, rfl, rfl⟩
    | cons x l ih => intro h; rw [List.foldl_cons]; exact ih _
  exact key _ _

/-- Cancelling producers leaves a thread's registers but for full/empty bits. -/
theorem cancel_fields (t : Thread) :
    t.cancel.v = t.v ∧ t.cancel.p = t.p ∧ t.cancel.fstat = t.fstat ∧ t.cancel.dstart = t.dstart := by
  have h : ∀ (l : List Producer) (t : Thread), (l.foldl (fun t q => t.setFull q.reg q.words) t).v = t.v ∧
      (l.foldl (fun t q => t.setFull q.reg q.words) t).p = t.p ∧ (l.foldl (fun t q => t.setFull q.reg q.words) t).fstat = t.fstat ∧
      (l.foldl (fun t q => t.setFull q.reg q.words) t).dstart = t.dstart := by
    intro l
    induction l with
    | nil => intro t; exact ⟨rfl, rfl, rfl, rfl⟩
    | cons q l ih => intro t; exact ih _
  exact h t.pend t

theorem takeTrap_fields (t : Thread) (pc : Pc) (f : LaneFault) :
    let y := (t.takeTrap pc f).1
    y.tstate = .trapped ∧ y.trap.valid = true ∧ y.trap.code = f.code ∧ y.v = t.v ∧ y.p = t.p ∧ y.fstat = t.fstat ∧
      (if Cause.discards f.cause then y.pc = t.dstart else y.pc = pc ∧ y.trap.cause = BitVec.ofNat 7 (Cause.code f.cause)) := by
  obtain ⟨h1, h2, h3, h4⟩ := cancel_fields t
  unfold Thread.takeTrap
  split
  · rename_i h
    refine ⟨rfl, rfl, rfl, h1, h2, h3, ?_⟩
    rfl
  · exact ⟨rfl, rfl, rfl, rfl, rfl, rfl, rfl, rfl⟩

theorem primaryCause_same (c : Cause) (x : Trapped) (xs : List Trapped) (h : ∀ y ∈ x :: xs, y.cause = c) :
    primaryCause (x :: xs) = c := by
  unfold primaryCause
  have hx := h x List.mem_cons_self
  have hxs : ∀ y ∈ xs, y.cause = c := fun y hy => h y (List.mem_cons_of_mem _ hy)
  simp only [hx]
  clear h hx x
  induction xs with
  | nil => rfl
  | cons y xs ih =>
    rw [List.foldl_cons, hxs y List.mem_cons_self]
    simp only [Nat.lt_irrefl, and_false, or_self, if_false]
    exact ih fun z hz => hxs z (List.mem_cons_of_mem _ hz)

/-- What the last part of a trap leaves: the record written and the entry made, the gang but for EPEND as it was put. -/
theorem record_gang (s : State) (k pa n x cl : Nat) (e : DqEntry) (g : Gang) (h : s.gang? k = some g) :
    ∃ g', ((s.writeRecord pa n x).enter cl e).gang? k = some g' ∧ g'.deaf = g.deaf := by
  have hs := (still_writeRecord s pa n x).gangs k
  rw [h] at hs
  cases hg : (s.writeRecord pa n x).gang? k with
  | none => rw [hg] at hs; simp at hs
  | some g' =>
    rw [hg] at hs
    refine ⟨g', ?_, by simpa using hs⟩
    show (s.writeRecord pa n x).gang? k = _
    exact hg

/-- The drafts of trapping threads committed. -/
theorem commitFaults_sim (k : Nat) (pc : Pc) (fs : List LaneFault) {s : State} {g : Gang} (h : s.gang? k = some g) :
    ∃ g1, StateSim k s (s.commitFaults k pc fs) g g1 := by
  unfold State.commitFaults
  induction fs generalizing s g with
  | nil => exact ⟨g, .refl h⟩
  | cons f fs ih =>
    rw [List.foldl_cons]
    split
    · exact ih h
    · have h1 := commitThread_sim (l := f.lane) pc h
      obtain ⟨g1, h2⟩ := ih h1.after
      exact ⟨g1, h1.trans h2⟩

theorem commitFaults_discards (k : Nat) (pc : Pc) {c : Cause} (hd : Cause.discards c = true) (fs : List LaneFault) (s : State)
    (hc : ∀ y ∈ fs, y.cause = c) : s.commitFaults k pc fs = s := by
  unfold State.commitFaults
  induction fs generalizing s with
  | nil => rfl
  | cons y ys ih =>
    rw [List.foldl_cons, hc y List.mem_cons_self, if_pos hd]
    exact ih s fun z hz => hc z (List.mem_cons_of_mem _ hz)

/-! ## A gang with no store on its way -/

/-- No store of a gang is buffered, on its way, or unacknowledged. -/
structure Calm (s : State) (k : Nat) (tag : Nat × Nat × Nat) : Prop where
  stores : ∀ e ∈ s.mem.inflight, e.tag ≠ tag
  acked : s.remoteStores tag .none = false
  buffers : ∀ g, s.gang? k = some g → ∀ l, (g.thread l).buf = []

theorem remoteStores_steady (s : State) (tag : Nat × Nat × Nat) (l : Option Nat) : s.remoteStores tag l =
    s.link.steady.requests.any fun r => match r.src with | .store t j _ => t == tag && (l == .none || l == some j) | _ => false := by
  unfold State.remoteStores Link.steady
  simp only
  induction s.link.requests with
  | nil => rfl
  | cons r rs ih =>
    rw [List.any_cons, List.filter_cons, ih]
    cases hr : r.src <;> simp [hr]

theorem outer_fields {s t : State} (h : t.outer = s.outer) :
    t.clusters = s.clusters ∧ t.gens = s.gens ∧ t.focus = s.focus ∧ t.blocks = s.blocks ∧ t.clock = s.clock ∧
      t.link.steady = s.link.steady :=
  ⟨congrArg (fun o => o.2.2.2.2.2.2.2.1) h, congrArg (fun o => o.2.2.2.2.2.1) h, congrArg (fun o => o.2.2.2.1) h,
    congrArg (fun o => o.2.2.2.2.2.2.1) h, congrArg (fun o => o.2.2.1) h, congrArg (fun o => o.2.2.2.2.2.2.2.2.2.2.2.2.1) h⟩

theorem remoteStores_outer {s t : State} (h : t.outer = s.outer) (tag : Nat × Nat × Nat) (l : Option Nat) :
    t.remoteStores tag l = s.remoteStores tag l := by
  rw [remoteStores_steady, remoteStores_steady, (outer_fields h).2.2.2.2.2]

theorem Calm.setGang {s : State} {k : Nat} {tag : Nat × Nat × Nat} (h : Calm s k tag) (x : Gang) (hx : ∀ l, (x.thread l).buf = []) :
    Calm (s.setGang k x) k tag :=
  ⟨h.stores, h.acked, fun g hg => by rw [State.gang?_setGang, if_pos rfl] at hg; cases hg; exact hx⟩

theorem Calm.modGang {s : State} {k : Nat} {tag : Nat × Nat × Nat} (h : Calm s k tag) (f : Gang → Gang)
    (hf : ∀ g, (∀ l, (g.thread l).buf = []) → ∀ l, ((f g).thread l).buf = []) : Calm (s.modGang k f) k tag :=
  ⟨h.stores, h.acked, fun g hg => by
    rw [State.gang?_modGang, if_pos rfl] at hg
    obtain ⟨a, ha, rfl⟩ := Option.map_eq_some_iff.1 hg
    exact hf a (h.buffers a ha)⟩

theorem Calm.commitThread {s : State} {k : Nat} {tag : Nat × Nat × Nat} (h : Calm s k tag) (l : Nat) (pc : Pc) :
    Calm (s.commitThread k l pc) k tag := by
  cases hg : s.gang? k with
  | none => simpa only [State.commitThread, hg] using h
  | some g =>
    have hb := h.buffers g hg
    refine ⟨?_, ?_, ?_⟩
    · have e : (s.commitThread k l pc).mem.inflight = s.mem.inflight := by
        simp only [State.commitThread, hg, State.setGang_mem, hb l, List.append_nil]
        rfl
      rw [e]; exact h.stores
    · rw [remoteStores_outer (commitThread_sim pc hg).outer]; exact h.acked
    · intro g' hg'
      rw [(commitThread_sim pc hg).after] at hg'
      cases hg'
      intro j
      rw [Gang.thread_setThread]
      split
      · rfl
      · exact hb j

theorem Calm.foldl {α : Type} {k : Nat} {tag : Nat × Nat × Nat} (f : State → α → State) (hf : ∀ s a, Calm s k tag → Calm (f s a) k tag)
    (l : List α) {s : State} (h : Calm s k tag) : Calm (l.foldl f s) k tag := by
  induction l generalizing s with
  | nil => exact h
  | cons a l ih => exact ih (hf s a h)

theorem Calm.commitFaults {s : State} {k : Nat} {tag : Nat × Nat × Nat} (h : Calm s k tag) (pc : Pc) (fs : List LaneFault) :
    Calm (s.commitFaults k pc fs) k tag :=
  Calm.foldl _ (fun s _ hs => by split <;> [exact hs; exact hs.commitThread _ _]) fs h

theorem Calm.commitLanes {s : State} {k : Nat} {tag : Nat × Nat × Nat} (h : Calm s k tag) (g : Gang) (ls : List Nat) :
    Calm (s.commitLanes k g ls) k tag :=
  Calm.foldl _ (fun _ _ hs => hs.commitThread _ _) ls h

theorem Calm.commitOrDrain {s : State} {k : Nat} {tag : Nat × Nat × Nat} (h : Calm s k tag) (ls : List Nat) :
    Calm (s.commitOrDrain k ls) k tag := by
  refine Calm.foldl _ (fun s l hs => ?_) ls h
  cases hg : s.gang? k with
  | none => exact hs
  | some g =>
    simp only
    split
    · refine hs.setGang _ fun j => ?_
      rw [Gang.thread_setThread]
      split
      · exact hs.buffers g hg l
      · exact hs.buffers g hg j
    · exact hs.commitThread _ _

theorem needed_none (want : StoreEntry → Bool) (l : List StoreEntry) (h : ∀ e ∈ l, want e = false) :
    ∀ x ∈ needed want l, x.2 = false := by
  induction l with
  | nil => intro x hx; simp [needed] at hx
  | cons e l ih =>
    have ih' := ih fun y hy => h y (List.mem_cons_of_mem _ hy)
    intro x hx
    rcases List.mem_cons.1 hx with rfl | hx
    · show (want e || _) = false
      rw [h e List.mem_cons_self, Bool.false_or, List.any_eq_false]
      intro y hy
      simp [ih' y hy]
    · exact ih' x hx

theorem drain_none {s : State} {want : StoreEntry → Bool} (h : ∀ e ∈ s.mem.inflight, want e = false) : s.drain want = some s := by
  unfold State.drain
  simp only
  rw [if_pos]
  rw [List.all_eq_true]
  intro x hx
  simp [needed_none want _ h x hx]

/-- Nothing is left to be performed for a gang with no store on its way. -/
theorem drainAll_none {s : State} {tag : Nat × Nat × Nat} (h : ∀ e ∈ s.mem.inflight, e.tag ≠ tag) (hr : s.remoteStores tag .none = false)
    (ls : List Nat) : s.drainAll tag ls = some s := by
  have h1 : ∀ l, s.drainThread tag l = some s := by
    intro l
    unfold State.drainThread
    rw [drain_none (fun e he => by simp [h e he])]
    have : s.remoteStores tag (some l) = false := by
      unfold State.remoteStores at hr ⊢
      rw [List.any_eq_false] at hr ⊢
      intro r hm
      have := hr r hm
      cases hs : r.src <;> simp_all
    simp [this]
  unfold State.drainAll
  induction ls with
  | nil => rfl
  | cons l ls ih => rw [List.foldl_cons, Option.bind_some, h1, ih]

/-! ## The trap taken -/

theorem takeTraps_gang (s : State) (k : Nat) (g : Gang) (pc : Pc) (insn : Insn) (faults : List LaneFault)
    (h : s.gang? k = some g) (hn : (faults.map (·.lane)).Nodup) (hl : ∀ x ∈ faults, x.lane < g.threads.length) :
    ∃ g', (s.takeTraps k pc insn faults).gang? k = some g' ∧ g'.recordOut = true ∧
      g'.gathers = (g.leaveWaits (laneSet (faults.map (·.lane)))).gathers ∧
      g'.collects = (g.leaveWaits (laneSet (faults.map (·.lane)))).collects ∧
      g'.threads.length = g.threads.length ∧
      (∀ x ∈ faults, g'.thread x.lane = ((g.thread x.lane).takeTrap pc x).1) ∧
      ∀ j, (∀ x ∈ faults, x.lane ≠ j) → g'.thread j = g.thread j := by
  unfold State.takeTraps
  simp only [h]
  generalize hm : laneSet (List.map (fun x => x.lane) faults) = m
  generalize laneSet ((faults.filter fun f => Cause.discards f.cause).map (·.lane)) = gone
  let l := faults.map fun f => (f.lane, ((g.thread f.lane).takeTrap pc f).1)
  have hfold : (faults.map fun f => (f, (g.thread f.lane).takeTrap pc f)).foldl (fun g x => g.setThread x.1.lane x.2.1) g =
      l.foldl (fun g x => g.setThread x.1 x.2) g := by
    simp only [l, List.foldl_map]
  rw [hfold]
  have hln : (l.map (·.1)).Nodup := by
    have : l.map (·.1) = faults.map (·.lane) := by simp [l]
    rw [this]; exact hn
  have hll : ∀ x ∈ l, x.1 < g.threads.length := by
    intro x hx
    obtain ⟨f, hf, rfl⟩ := List.mem_map.1 hx
    exact hl f hf
  obtain ⟨w1, w2, w3⟩ := leaveWaits_fields (l.foldl (fun g x => g.setThread x.1 x.2) g) m
  obtain ⟨-, v2, v3⟩ := leaveWaits_fields g m
  have er := rest_fields (setThreads_rest l g)
  let G : Gang := { (((l.foldl (fun g x => g.setThread x.1 x.2) g).leaveWaits m).cancelSlices gone) with recordOut := true }
  obtain ⟨g', hg', hd⟩ := record_gang ((s.setGang k G).dropLoads k m) k (((s.setGang k G).dropLoads k m).recordAt k)
    2048 _ (clusterOf k) _ G (show (s.setGang k G).gang? k = _ by simp)
  have e1 : g'.threads = (l.foldl (fun g x => g.setThread x.1 x.2) g).threads := (deaf_fields hd).2.2.1.trans w1
  refine ⟨g', hg', ?_, ?_, ?_, ?_, ?_, ?_⟩
  · exact congrArg Gang.recordOut hd
  · rw [(deaf_fields hd).1, v2]
    show ((l.foldl (fun g x => g.setThread x.1 x.2) g).leaveWaits m).gathers = _
    rw [w2, er.1]
  · rw [(deaf_fields hd).2.1, v3]
    show ((l.foldl (fun g x => g.setThread x.1 x.2) g).leaveWaits m).collects = _
    rw [w3, er.2.1]
  · rw [e1, setThreads_length]
  · intro x hx
    rw [Gang.thread_congr e1, setThreads l g hln hll]
    have hxl : (x.lane, ((g.thread x.lane).takeTrap pc x).1) ∈ l := List.mem_map.2 ⟨x, hx, rfl⟩
    have hfs : (l.find? fun y => y.1 == x.lane).isSome := List.find?_isSome.2 ⟨_, hxl, by simp⟩
    obtain ⟨y, hy⟩ := Option.isSome_iff_exists.1 hfs
    have hy1 := List.mem_of_find?_eq_some hy
    have hy2 : y.1 = x.lane := by simpa using List.find?_some hy
    rw [hy, List.inj_on_of_nodup_map hln hy1 hxl hy2]
  · intro j hj
    rw [Gang.thread_congr e1, setThreads l g hln hll]
    have : l.find? (fun y => y.1 == j) = .none := by
      rw [List.find?_eq_none]
      intro y hy he
      obtain ⟨f, hf, rfl⟩ := List.mem_map.1 hy
      exact hj f hf (by simpa using he)
    rw [this]

theorem takeTraps_entry (s : State) (k : Nat) (g : Gang) (pc : Pc) (insn : Insn) (c : Cause) (faults : List LaneFault)
    (h : s.gang? k = some g) (hc : ∀ x ∈ faults, x.cause = c) (hne : faults ≠ []) :
    ∃ e ∈ ((s.takeTraps k pc insn faults).cluster (clusterOf k)).dq, e.handle = s.handle k ∧
      e.lanes = laneSet (faults.map (·.lane)) ∧ e.arg1 = pc.setWidth 64 ∧
      (Cause.discards c = false →
        e.cause = BitVec.ofNat 7 (Cause.code c) ∧ e.kind = if 0x70 ≤ Cause.code c then .brk else .trap) := by
  unfold State.takeTraps
  simp only [h]
  unfold State.enter
  rw [State.cluster_modCluster, if_pos rfl]
  have hh : ∀ (u : State), u.gens = s.gens → u.handle k = s.handle k := fun u hu => by
    unfold State.handle State.gen; rw [hu]
  have hp : Cause.discards c = false →
    primaryCause ((faults.map fun f => (f, (g.thread f.lane).takeTrap pc f)).map fun x => (⟨x.1, x.2.2⟩ : Trapped)) = c := by
    intro hdc
    obtain ⟨x, xs, rfl⟩ := List.exists_cons_of_ne_nil hne
    simp only [List.map_cons]
    apply primaryCause_same
    intro y hy
    have hy' : ∃ f ∈ x :: xs, y = ⟨f, ((g.thread f.lane).takeTrap pc f).2⟩ := by
      simp only [List.mem_cons, List.map_map, List.mem_map, Function.comp] at hy
      rcases hy with rfl | ⟨f, hf, rfl⟩
      · exact ⟨x, List.mem_cons_self, rfl⟩
      · exact ⟨f, List.mem_cons_of_mem _ hf, rfl⟩
    obtain ⟨f, hf, rfl⟩ := hy'
    have hfc := hc f hf
    have : ((g.thread f.lane).takeTrap pc f).2 = false := by
      unfold Thread.takeTrap
      rw [hfc, hdc]; rfl
    unfold Trapped.cause
    rw [this]
    exact hfc
  generalize primaryCause _ = pc' at hp ⊢
  generalize faultRecord _ _ _ _ _ _ _ = rec
  generalize hu : State.writeRecord _ _ _ _ = u
  have hug : u.gens = s.gens := by
    rw [← hu, (still_writeRecord _ _ _ _).gens]; rfl
  refine ⟨_, List.mem_append_right _ (List.mem_singleton.2 rfl), hh u hug, rfl, rfl, fun hdc => ?_⟩
  rw [← hp hdc]
  exact ⟨rfl, rfl⟩

/-- Threads of a gang with no store on its way that trap with one cause, with room in the queue and the gang's record free: `TrapTaken`. -/
theorem tryTrap_taken {s : State} {k : Nat} {g : Gang} {pc : Pc} {insn : Insn} {c : Cause} {faults : List LaneFault}
    (h : s.gang? k = some g) (hq : g.Quiet) (hcalm : Calm s k g.tag)
    (hc : ∀ x ∈ faults, x.cause = c) (hne : faults ≠ []) (hn : (faults.map (·.lane)).Nodup)
    (hl : ∀ x ∈ faults, x.lane < g.threads.length) :
    ∃ t, (s.commitFaults k pc faults).tryTrap k pc insn faults = some t ∧ TrapTaken s (t.settle k) k g pc c faults := by
  obtain ⟨g1, h1⟩ := commitFaults_sim k pc faults h
  have hrf := rest_fields h1.gang.restEq
  have htag : g1.tag = g.tag := by
    have e1 : g1.rest.lid = g.rest.lid := by rw [h1.gang.restEq]
    have e2 : g1.rest.blk = g.rest.blk := by rw [h1.gang.restEq]
    have e3 : g1.rest.gidx = g.rest.gidx := by rw [h1.gang.restEq]
    show (g1.rest.lid, g1.rest.blk % 2 ^ 31, g1.rest.gidx) = _
    rw [e1, e2, e3]; rfl
  have hcalm1 := hcalm.commitFaults pc faults
  obtain ⟨g', hg', hout, hga, hco, hlen, hth, hoth⟩ := takeTraps_gang (s.commitFaults k pc faults) k g1 pc insn faults h1.after hn
    (fun x hx => by rw [h1.gang.threads]; exact hl x hx)
  refine ⟨(s.commitFaults k pc faults).takeTraps k pc insn faults, ?_, ?_⟩
  · unfold State.tryTrap
    simp only [h1.after, htag, drainAll_none hcalm1.stores hcalm1.acked, Option.map_some]
  obtain ⟨-, v2, v3⟩ := leaveWaits_fields g1 (laneSet (faults.map (·.lane)))
  have q' : g'.Quiet := by
    refine ⟨?_, ?_, ?_⟩
    · rw [hga, v2, hrf.1, hq.gathers, List.map_nil]
    · rw [hco, v3, hrf.2.1, hq.collects, List.map_nil]
    · obtain ⟨x, xs, rfl⟩ := List.exists_cons_of_ne_nil hne
      refine ⟨x.lane, by rw [hlen, h1.gang.threads]; exact hl x List.mem_cons_self, ?_⟩
      rw [hth x List.mem_cons_self, (takeTrap_fields _ _ _).1]
      simp
  rw [settle_quiet hg' q']
  refine ⟨⟨g'.settleCounts, by simp [hg'], hout, ?_, ?_⟩, ?_⟩
  · intro x hx
    have he : g'.settleCounts.thread x.lane = ((g1.thread x.lane).takeTrap pc x).1 := hth x hx
    have hr := h1.gang.regs x.lane
    have r1 : (g1.thread x.lane).v = (g.thread x.lane).v := (regs_fields hr).1
    have r2 : (g1.thread x.lane).p = (g.thread x.lane).p := (regs_fields hr).2.1
    have r3 : (g1.thread x.lane).fstat = (g.thread x.lane).fstat := (regs_fields hr).2.2.1
    obtain ⟨f1, f2, f3, f4, f5, f6, f7⟩ := takeTrap_fields (g1.thread x.lane) pc x
    rw [hc x hx] at f7
    simp only [he]
    refine ⟨f1, f2, f3, f4.trans r1, f5.trans r2, f6.trans r3, ?_⟩
    by_cases hd : Cause.discards c = true
    · rw [if_pos hd] at f7 ⊢
      have hsame : g1 = g := by
        have ha := h1.after
        rw [commitFaults_discards k pc hd faults s hc, h] at ha
        simpa using ha.symm
      rw [f7, hsame]
    · rw [if_neg hd] at f7 ⊢
      exact f7
  · intro j hj
    show (g'.thread j).regs = _
    rw [hoth j hj]; exact h1.gang.regs j
  · obtain ⟨e, he, h3, h4⟩ := takeTraps_entry (s.commitFaults k pc faults) k g1 pc insn c faults h1.after hc hne
    refine ⟨e, he, h3.trans ?_, h4⟩
    unfold State.handle State.gen
    rw [(outer_fields h1.outer).2.1]

theorem trapLanes_taken {s : State} {k : Nat} {g : Gang} {pc : Pc} {insn : Insn} {c : Cause} {faults : List LaneFault}
    (h : s.gang? k = some g) (hq : g.Quiet) (hcalm : Calm s k g.tag)
    (hroom : g.recordOut = false ∧ s.mayEnter (clusterOf k) (some k) = true)
    (hc : ∀ x ∈ faults, x.cause = c) (hne : faults ≠ []) (hn : (faults.map (·.lane)).Nodup)
    (hl : ∀ x ∈ faults, x.lane < g.threads.length) :
    TrapTaken s ((s.trapLanes k pc insn faults).settle k) k g pc c faults := by
  obtain ⟨t, h1, h2⟩ := tryTrap_taken (pc := pc) (insn := insn) h hq hcalm hc hne hn hl
  have htr : s.trapLanes k pc insn faults = t := by
    simp only [State.trapLanes, if_neg hne, h, hroom.1, hroom.2, Bool.not_false, Bool.and_self, if_true, h1, Option.getD_some]
  rw [htr]; exact h2

theorem mayEnter_free {s : State} {cl : Nat} (k : Option Nat) (hr : s.dqRoom cl = true) (hh : (s.cluster cl).held = []) :
    s.mayEnter cl k = true := by
  simp [State.mayEnter, hr, hh]

/-- Bodies that all trap. -/
theorem runGroups_traps (op : Op) (o : State) (F : Nat → LaneFault) (ls : List Nat)
    (h : ∀ l ∈ ls, op.body o l = (o, .trap (F l))) :
    op.runGroups (ls.map fun l => (l, [l])) o false = some (o, ls.map fun l => (l, [l], .trap (F l))) := by
  induction ls with
  | nil => rfl
  | cons l ls ih =>
    have hi := ih fun y hy => h y (List.mem_cons_of_mem _ hy)
    have hr : (Res.trap (F l) == Res.wait) = false := by simp
    simp only [List.map_cons, Op.runGroups, Bool.false_and, Bool.false_eq_true, if_false, h l List.mem_cons_self, reduceCtorEq, hr,
      Bool.or_self, hi, Option.map_some]

/-- The spec lemma of an issue in which every executing thread traps with one cause: the threads with a false guard fall through, the
others have taken the trap. -/
theorem runOp_traps {op : Op} {f : Fields} {s : State} {g : Gang} (h : op.Ready f s g) (c : Cause) (F : Nat → LaneFault)
    (hgroups : op.groups (s.goLanes f g) = (s.goLanes f g).map fun l => (l, [l]))
    (hready : op.ready (s.opened f op g) (s.goLanes f g) = true)
    (hbody : ∀ l ∈ s.goLanes f g, op.body (s.opened f op g) l = (s.opened f op g, .trap (F l)))
    (hlane : ∀ l, (F l).lane = l) (hcause : ∀ l, (F l).cause = c)
    (hbusy : ∀ l ∈ s.goLanes f g, g.busy l = false) (hpost : ∀ s a b c, op.post s a b c = s) (hne : s.goLanes f g ≠ [])
    (hroom : s.MayTrap s.focus.key g) :
    ∃ gX : Gang, (∀ l ∈ s.gfLanes f g, (gX.thread l).regs = ((g.thread l).control .fall).regs) ∧
      (∀ l, l ∉ s.gfLanes f g → (gX.thread l).regs = (g.thread l).regs) ∧
      TrapTaken s (s.runOp f op) s.focus.key gX s.focus.pc c ((s.goLanes f g).map F) := by
  obtain ⟨g2, sim⟩ := opened_sim (op := op) (f := f) h.gang
  have h2 := sim.after
  have hfocus : (s.opened f op g).focus = s.focus := (outer_fields sim.outer).2.2.1
  have hrun := runGroups_traps op (s.opened f op g) F _ hbody
  rw [← hgroups] at hrun
  have hF : ∀ l, ({ F l with lane := l } : LaneFault) = F l := fun l => by
    have := hlane l
    cases hf : F l; rw [hf] at this; simp only at this; subst this; rfl
  have hfaults : faultsOf ((s.goLanes f g).map fun l => (l, [l], .trap (F l))) = (s.goLanes f g).map F := by
    simp only [faultsOf, List.flatMap_map, List.map_cons, List.map_nil, hF]
    induction s.goLanes f g with
    | nil => rfl
    | cons l ls ih => simp [List.flatMap_cons, ih]
  have hoks : completions ((s.goLanes f g).map fun l => (l, [l], .trap (F l))) = [] := by
    simp [completions, List.flatMap_map]
  have hwait : lanesWith ((s.goLanes f g).map fun l => (l, [l], Res.trap (F l))) .wait = [] := by
    simp [lanesWith, List.flatMap_map]
  have hb2 : ∀ l ∈ s.goLanes f g, g2.busy l = false := by
    intro l hl
    have hb := hbusy l hl
    have e1 := (regs_fields (sim.gang.regs l)).2.2.2.2.2.2
    have e2 : (g2.slice (l / 4)).pend = (g.slice (l / 4)).pend := congrArg (·.2.2) (sim.gang.sregs (l / 4))
    unfold Gang.busy at hb ⊢
    rw [e1, e2]; exact hb
  have hlate : ((s.goLanes f g).map F).filter (mustDrain g2) = [] := by
    rw [List.filter_eq_nil_iff]
    intro x hx
    obtain ⟨l, hl, rfl⟩ := List.mem_map.1 hx
    unfold mustDrain
    rw [hlane, hb2 l hl]; simp
  let A := op.gangAfter f (s.opened f op g) g2 g2 [] (s.gfLanes f g) (s.focusLanes g)
  have hwf : ∀ l ∈ s.gfLanes f g, l < g.width := fun l hl => lanesOf_lt (List.mem_filter.1 hl).1
  have hlen : g2.threads.length = g.width := sim.gang.threads.trans h.threads
  obtain ⟨hAl, -, hAgf, hAno, -⟩ := gangAfter_holds (op := op) (f := f) (s := s.opened f op g) (g0 := g2) (g1 := g2) (oks := [])
    (gf := s.gfLanes f g) (mask := s.focusLanes g) (by simp) (by simp) (by simp) ((lanesOf_nodup _ _).filter _)
    (fun l hl => by rw [hlen]; exact hwf _ hl) (by simp)
  have hArest : A.rest = g.rest := (rest_gangAfter _ _ _ _ _ _ _ _).trans sim.gang.restEq
  have hAts : ∀ j, (A.thread j).tstate = (g.thread j).tstate := by
    intro j
    have := (regs_fields (sim.gang.regs j)).2.2.2.1
    by_cases hj : j ∈ s.gfLanes f g
    · show (Gang.thread A j).tstate = _
      rw [show A.thread j = _ from hAgf j hj, falseThread_tstate]; exact this
    · rw [show A.thread j = _ from hAno j (by simp) hj]; exact this
  have qA : A.Quiet := by
    have e := rest_fields hArest
    refine ⟨e.1.trans h.quiet.gathers, e.2.1.trans h.quiet.collects, ?_⟩
    obtain ⟨l, hl, hl'⟩ := h.quiet.live
    exact ⟨l, by show l < A.threads.length; rw [show A.threads.length = _ from hAl, sim.gang.threads]; exact hl, by rw [hAts]; exact hl'⟩
  obtain ⟨gX, simX, qX⟩ := closing_before (k := s.focus.key) (s := s.opened f op g) op
    (op.finishAll f (s.opened f op g) g2 g2 [] (s.gfLanes f g)).2 [] qA
  have hres : s.runOp f op = ((((((s.opened f op g).setGang s.focus.key A).commitOrDrain s.focus.key
      (op.finishAll f (s.opened f op g) g2 g2 [] (s.gfLanes f g)).2).modGang s.focus.key fun g =>
        if op.cls == .ending then g.modLanes (laneSet []) fun t => { t with solo := t.drain } else g).trapLanes s.focus.key s.focus.pc
          s.focus.insn ((s.goLanes f g).map F)).settle s.focus.key) := by
    rw [runOp_ready h]
    simp only [State.perform, hready, if_true, hrun, Option.map_some, hfocus, h2, hfaults, List.nil_append, hlate, ne_eq,
      not_true_eq_false, if_false, hoks, hwait, State.addWait, hpost, List.map_nil, Option.getD_some, State.logSpoilt, List.foldl_nil]
    rfl
  refine ⟨gX, ?_, ?_, ?_⟩
  · intro l hl
    rw [simX.gang.regs l, show A.thread l = _ from hAgf l hl]
    exact regs_falseThread f _ _ (sim.gang.regs l)
  · intro l hl
    rw [simX.gang.regs l, show A.thread l = _ from hAno l (by simp) hl]
    exact sim.gang.regs l
  · have hXr : gX.rest = g.rest := simX.gang.restEq.trans hArest
    have hXout : gX.recordOut = g.recordOut := by
      have e : gX.rest.recordOut = g.rest.recordOut := by rw [hXr]
      exact e
    have hXtag : gX.tag = g.tag := by
      have e1 : gX.rest.lid = g.rest.lid := by rw [hXr]
      have e2 : gX.rest.blk = g.rest.blk := by rw [hXr]
      have e3 : gX.rest.gidx = g.rest.gidx := by rw [hXr]
      show (gX.rest.lid, gX.rest.blk % 2 ^ 31, gX.rest.gidx) = _
      rw [e1, e2, e3]; rfl
    have hcl := (outer_fields simX.outer)
    have hocl := (outer_fields sim.outer)
    have hclu : ∀ X : State, X.clusters = ((s.opened f op g).setGang s.focus.key A).clusters → ∀ c, X.cluster c = s.cluster c := by
      intro X hX c
      unfold State.cluster
      rw [hX.trans hocl.1]
    have hm : State.mayEnter _ (clusterOf s.focus.key) (some s.focus.key) = true := mayEnter_free _
      (by unfold State.dqRoom; rw [hclu _ hcl.1]; exact hroom.room) (by rw [hclu _ hcl.1]; exact hroom.held)
    have c0 : Calm s s.focus.key g.tag := ⟨hroom.stores, hroom.acked, fun g' hg' => by rw [h.gang] at hg'; cases hg'; exact hroom.buffers⟩
    have c1 : Calm (s.opened f op g) s.focus.key g.tag := by
      have := c0.commitLanes g (op.bounds f s g (s.goLanes f g) (s.gfLanes f g))
      exact ⟨this.stores, this.acked, this.buffers⟩
    have cA : ∀ l, (A.thread l).buf = [] := by
      intro l
      have hb := c1.buffers g2 h2 l
      by_cases hl : l ∈ s.gfLanes f g
      · rw [show A.thread l = _ from hAgf l hl]
        unfold falseThread
        rw [buf_control]
        exact hb
      · rw [show A.thread l = _ from hAno l (by simp) hl]; exact hb
    have c2 := ((c1.setGang A cA).commitOrDrain (op.finishAll f (s.opened f op g) g2 g2 [] (s.gfLanes f g)).2).modGang
      (fun g => if op.cls == .ending then g.modLanes (laneSet []) fun t => { t with solo := t.drain } else g) (fun g hb l => by
        split
        · by_cases hj : l < g.threads.length
          · rw [Gang.thread_modLanes _ _ _ _ hj]; split <;> exact hb l
          · simp only [Gang.thread, List.getD_eq_getElem?_getD]
            rw [List.getElem?_eq_none (by simpa using Nat.le_of_not_lt hj)]; rfl
        · exact hb l)
    have hgo : ∀ l ∈ s.goLanes f g, l < g.width := fun l hl => lanesOf_lt (List.mem_filter.1 hl).1
    have hlanes : ((s.goLanes f g).map F).map (·.lane) = s.goLanes f g := by
      rw [List.map_map]
      have : ((fun x : LaneFault => x.lane) ∘ F) = id := by funext l; exact hlane l
      rw [this, List.map_id]
    have hT := trapLanes_taken (pc := s.focus.pc) (insn := s.focus.insn) (c := c) (faults := (s.goLanes f g).map F) simX.after qX
      (by rw [hXtag]; exact c2) ⟨hXout.trans hroom.record, hm⟩
      (fun x hx => by obtain ⟨l, -, rfl⟩ := List.mem_map.1 hx; exact hcause l)
      (by simpa using hne) (by rw [hlanes]; exact (lanesOf_nodup _ _).filter _)
      (fun x hx => by
        obtain ⟨l, hl, rfl⟩ := List.mem_map.1 hx
        rw [hlane, simX.gang.threads, show A.threads.length = _ from hAl, hlen]; exact hgo l hl)
    rw [← hres] at hT
    refine ⟨hT.gang, ?_⟩
    obtain ⟨e, he, h3, h4⟩ := hT.entry
    refine ⟨e, he, h3.trans ?_, h4⟩
    unfold State.handle State.gen
    rw [show _ = _ from hcl.2.1]
    show BitVec.ofNat 16 (_ + 256 * (Tab.getD (s.opened f op g).gens _ _).toNat) = _
    rw [hocl.2.1]

/-- The trap of every thread in focus: `TrapTaken`. -/
theorem trapFocus_taken {s : State} {g : Gang} (h : s.gang? s.focus.key = some g) (hth : g.threads.length = g.width) (hq : g.Quiet)
    (c : Cause) (F : Nat → LaneFault) (hlane : ∀ l, (F l).lane = l) (hcause : ∀ l, (F l).cause = c)
    (hdue : ∀ l ∈ s.focusLanes g, (g.thread l).due = .none)
    (hbusy : Cause.discards c = false → ∀ l ∈ s.focusLanes g, g.busy l = false) (hne : s.focusLanes g ≠ [])
    (hroom : s.MayTrap s.focus.key g) :
    TrapTaken s (s.trapFocus F) s.focus.key g s.focus.pc c ((s.focusLanes g).map F) := by
  have hfs : ((lanesOf s.focus.lanes g.width).map fun l => ((g.thread l).due).getD (F l)) = (s.focusLanes g).map F :=
    List.map_congr_left fun l hl => by rw [hdue l hl, Option.getD_none]
  have hlate : ((s.focusLanes g).map F).filter (mustDrain g) = [] := by
    rw [List.filter_eq_nil_iff]
    intro x hx
    obtain ⟨l, hl, rfl⟩ := List.mem_map.1 hx
    unfold mustDrain
    rw [hcause, hlane]
    by_cases hd : Cause.discards c = true
    · simp [hd]
    · rw [hbusy (by simpa using hd) l hl]; simp
  have hlanes : ((s.focusLanes g).map F).map (·.lane) = s.focusLanes g := by
    rw [List.map_map]
    have : ((fun x : LaneFault => x.lane) ∘ F) = id := by funext l; exact hlane l
    rw [this, List.map_id]
  have hres : s.trapFocus F = (s.trapLanes s.focus.key s.focus.pc s.focus.insn ((s.focusLanes g).map F)).settle s.focus.key := by
    unfold State.trapFocus
    simp only [h, hfs, hlate, ne_eq, not_true_eq_false, if_false]
  rw [hres]
  exact trapLanes_taken h hq
    ⟨hroom.stores, hroom.acked, fun g' hg' => by rw [h] at hg'; cases hg'; exact hroom.buffers⟩
    ⟨hroom.record, mayEnter_free _ hroom.room hroom.held⟩
    (fun x hx => by obtain ⟨l, -, rfl⟩ := List.mem_map.1 hx; exact hcause l)
    (by simpa using hne) (by rw [hlanes]; exact lanesOf_nodup _ _)
    (fun x hx => by
      obtain ⟨l, hl, rfl⟩ := List.mem_map.1 hx
      rw [hlane, hth]; exact lanesOf_lt hl)

end Sys2Proof.Machine
end

