-- ==== Sys2Proof/Tests/Slice0.lean ====
section
/-! SUPPORT. Tests of the decoder against the spec's worked encodings, of well-formedness, of single steps, and a witness for the
hypotheses of every statement. Expected results come from the spec's examples and tables, or by hand from its rules. -/

open Sys2Proof Sys2Proof.Machine

set_option autoImplicit false

namespace Sys2Proof.Tests

-- One theorem at a time: elaborated together, their threads ask for more memory than the check allows.
set_option Elab.async false

/-! ## Words written out from the spec's encodings -/

/-- A word of three 32-bit words, word 2 first as the spec's tables print it. -/
def word (a b c : BitVec 32) : Insn := a ++ (b ++ c)

/-- R190 (Example 1 of the compute chapter): `IADDC.N32.CY3 v12, v4, v8`. -/
theorem test_decode_integer : decode96 64 32 (word 0x1009C00C 0x01008230 0) =
    .ok (.iaddc { plainFields with d := .v 12, a := .v 4, b := .v 8, ty := .n32, md := 3 }) := by decide +kernel

/-- R195 (from R157's fields): `AND.N32 v1, v2, v3`; and `PAND.NB p4, p2, p3`. -/
theorem test_decode_logic : decode96 64 32 (word 0x2001C001 0x00803200 0) =
      .ok (.and { plainFields with d := .v 1, a := .v 2, b := .v 3, ty := .n32 }) ∧
    decode96 64 32 (word 0x2101C204 0x80A03020 0) = .ok (.pand { plainFields with d := .p 4, a := .p 2, b := .p 3, md := 2 }) := by
  decide +kernel

/-- R200: `FSCALE.F32 v34, v34, v14`; from R157's fields, `FADD.F64 v2, v4, v6`. -/
theorem test_decode_float : decode96 64 32 (word 0x3031C022 0x0880E800 0) =
      .ok (.fscale { plainFields with d := .v 34, a := .v 34, b := .v 14, ty := .f32 }) ∧
    decode96 64 32 (word 0x4001C002 0x01006900 0) =
      .ok (.faddF64 { plainFields with d := .v 2, a := .v 4, b := .v 6, ty := .f64 }) := by decide +kernel

/-- R206 and R211: `CVT.I32.F32.RZ v6, v2` and `COSPI.F32 v22, v34`. -/
theorem test_decode_conversion : decode96 64 32 (word 0x4101C006 0x00B00610 8) =
      .ok (.cvt { plainFields with d := .v 6, a := .v 2, b := .lit, ty := .i32, md := 1, imm := 8 }) ∧
    decode96 64 32 (word 0x5019C016 0x08800800 0) = .ok (.cospi { plainFields with d := .v 22, a := .v 34, ty := .f32 }) := by
  decide +kernel

/-- R214: `SHFL.N32.FWD v7, v4, 4`, `SHFL.N64.XOR v26, v24, 2`, `VOTE.SOME p5, p4`, `BALLOT.N32 v15, p3`. -/
theorem test_decode_lane : decode96 64 32 (word 0x5101C007 0x01300220 4) =
      .ok (.shfl { plainFields with d := .v 7, a := .v 4, b := .lit, ty := .n32, md := 2, imm := 4 }) ∧
    decode96 64 32 (word 0x5101C01A 0x06300330 2) =
      .ok (.shfl { plainFields with d := .v 26, a := .v 24, b := .lit, ty := .n64, md := 3, imm := 2 }) ∧
    decode96 64 32 (word 0x5109C205 0x81000010 0) = .ok (.vote { plainFields with d := .p 5, a := .p 4, md := 1 }) ∧
    decode96 64 32 (word 0x5105C00F 0x80C00200 0) = .ok (.ballot { plainFields with d := .v 15, a := .p 3, ty := .n32 }) := by
  decide +kernel

/-- R220: the outer LOOP of the example, `LOOP s10, …`; from R157's fields EXIT and NOP. -/
theorem test_decode_control : decode96 64 32 (word 0x0201C000 0x42800000 2) = .ok (.loop { plainFields with a := .s 10, imm := 2 }) ∧
    decode96 64 32 (word 0x0301C000 0 0) = .ok (.exit plainFields) ∧ decode96 64 32 (word 0x0305C000 0 0) = .ok (.nop plainFields) := by
  decide +kernel

/-- R230: `SYSC.A.MB0 v24, 0x11`; R256: `WAITANY 7`. -/
theorem test_decode_calls_and_events : decode96 64 32 (word 0xB005C000 0x06300000 0x11) =
      .ok (.syscA { plainFields with a := .v 24, b := .lit, imm := 0x11 }) ∧
    decode96 64 32 (word 0x830DC000 0xC0000000 7) = .ok (.waitany { plainFields with a := .lit, imm := 7 }) := by decide +kernel

/-- R234: `LD.G.N32.ED1.RPT v6, [v2+0], p1`, `LD.S.B128 v44, [v5+1040]`, `?p2 LD.S.FC.B128 v28, [v6+0]`. -/
theorem test_decode_load : decode96 64 32 (word 0x600DC006 0x00A01210 0) =
      .ok (.ldGEdRpt { plainFields with d := .v 6, a := .v 2, b := .p 1, ty := .n32, md := 1 }) ∧
    decode96 64 32 (word 0x6011C02C 0x01400C00 0x410) =
      .ok (.ldS { plainFields with d := .v 44, a := .v 5, ty := .b128, imm := 0x410 }) ∧
    decode96 64 32 (word 0x601C801C 0x01800C00 0) =
      .ok (.ldSFc { plainFields with pred := 2, d := .v 28, a := .v 6, ty := .b128 }) := by decide +kernel

/-- R234: `ST.G.N32 [v2+4], v9`, `?p4 ST.S.FS.B128 [v6+0], v28`; R245 (from R157's fields): `FENCE.REL.DEV`. -/
theorem test_decode_store : decode96 64 32 (word 0x6101C000 0x00809200 4) =
      .ok (.stG { plainFields with a := .v 2, b := .v 9, ty := .n32, imm := 4 }) ∧
    decode96 64 32 (word 0x61190000 0x0181CC00 0) =
      .ok (.stSFs { plainFields with pred := 4, a := .v 6, b := .v 28, ty := .b128 }) ∧
    decode96 64 32 (word 0x620DC000 0x00000030 0) = .ok (.fenceRel { plainFields with md := 3 }) := by decide +kernel

/-- R247: `ATOM.FADD.F32 v7, [v2+0], v6`, `CAS.AR.N64.DEV v10, [v2], v12, v14`; from R157's fields `RED.ADD.N32 [v2+4], v9`. -/
theorem test_decode_atomic : decode96 64 32 (word 0x701DC007 0x00806800 0) =
      .ok (.atomFadd .plain { plainFields with d := .v 7, a := .v 2, b := .v 6, ty := .f32 }) ∧
    decode96 64 32 (word 0x71C1C00A 0x0080C330 0xE) =
      .ok (.cas .ar { plainFields with d := .v 10, a := .v 2, b := .v 12, ty := .n64, md := 3, imm := 0xE }) ∧
    decode96 64 32 (word 0x7201C000 0x00809200 4) =
      .ok (.redAdd false { plainFields with a := .v 2, b := .v 9, ty := .n32, imm := 4 }) := by decide +kernel

/-- R260, R265: `BAR.INIT s20, 4`, `BAR.WAIT v255, v11, v10`, `MBX.PUSH.TRY.MB3 p1, v20`. -/
theorem test_decode_barrier_and_mailbox : decode96 64 32 (word 0x8001C000 0x45300000 4) =
      .ok (.barInit { plainFields with a := .s 20, b := .lit, imm := 4 }) ∧
    decode96 64 32 (word 0x800DC0FF 0x02C0A000 0) = .ok (.barWait { plainFields with d := .v 255, a := .v 11, b := .v 10 }) ∧
    decode96 64 32 (word 0x8105C201 0x05000030 0) = .ok (.mbxPushTry { plainFields with d := .p 1, a := .v 20, md := 3 }) := by
  decide +kernel

/-- R273, R284: `CPY.P1.ROW s8, v20`, `CSTAT v19, 0`, `MMA.E4M3.E4M3 c2, s8, v32, s9`, `MRGD.FLAG g0, 100.0`. -/
theorem test_decode_copy_and_matrix : decode96 64 32 (word 0x9001C000 0x42014050 0) =
      .ok (.cpy { plainFields with a := .s 8, b := .v 20, md := 5 }) ∧
    decode96 64 32 (word 0x900DC013 0xC0000000 0) = .ok (.cstat { plainFields with d := .v 19, a := .lit }) ∧
    decode96 64 32 (word 0xA005C212 0x42020000 0x109) =
      .ok (.mma { plainFields with d := .tile 2, a := .s 8, b := .v 32, imm := 0x109 }) ∧
    decode96 64 32 (word 0xA015C230 0xC0000000 0x42C80000) =
      .ok (.mrgd { plainFields with d := .guard 0, a := .lit, imm := 0x42C80000 }) := by decide +kernel

/-- R315: `PRESUME a0, a1, a5`, `PMRECV a0, a1, a2`, `PCALLREC a0, a3, a4`; the RISC-V words of `ld a0, 8(a1)` and `sfence.vma`
(PRESUMED, log 30). -/
theorem test_decode_porter : decode32 2 0x00F5A50B = some (.presume 2 10 11 15) ∧ decode32 2 0x00C5C50B = some (.pmrecv 2 10 11 12) ∧
    decode32 2 0x00E6D50B = some (.pcallrec 2 10 13 14) ∧
    decode32 2 0x0085B503 = some (.porterLoadStoreAmo 2 (.load 3 false 10 11 8)) ∧
    decode32 2 0x12000073 = some (.sfenceVma 2 0 0) := by decide +kernel

/-- R158: the FFMA of the worked encodings as its bytes stand in memory, the first at the lowest address. -/
theorem test_decode_bytes : decodeTableWord 96
      (Mem.readN (Mem.writeBytes [] 0 [0x07, 0, 0, 0, 0, 0x68, 0x40, 0x01, 0x04, 0x80, 0x0C, 0x30]) 0 12) =
    some (.ffma { plainFields with pred := 2, d := .v 4, a := .v 5, b := .v 6, ty := .f32, imm := 7 }) := by decide +kernel

/-- R157: the encoder writes the word that the spec prints. -/
theorem test_encode : encode (.msta { plainFields with d := .guard 0, a := .lit, b := .tile 7, ty := .bf16, imm := 0x4E000 }) =
    some (word 0xA011C230 0xC0217B00 0x4E000) ∧ encodeCustom (.pgwrite 0 10 11 12 13) = some 0x68C5950B := by decide +kernel

/-! ## Words that fail a check of R170 -/

/-- R170 steps 1 and 2: ZERO_WORD; a reserved OP; a reserved FN before a reserved TY (Example 2 of the encoding chapter). -/
theorem test_refuses_no_instruction : decode96 64 32 0 = .error .zeroWord ∧
    decode96 64 32 (word 0xFF01C000 0 0) = .error .illegalOpcode ∧
    decode96 64 32 (word 0x10A00000 0x00000F00 0) = .error .illegalOpcode := by decide +kernel

/-- R170 step 3: a reserved TY, SAT where the entry has none, a non-zero unused field, X without a literal. -/
theorem test_refuses_reserved : decode96 64 32 (word 0x2001C001 0x00803F00 0) = .error .reservedField ∧
    decode96 64 32 (word 0x2001C001 0x00803208 0) = .error .reservedField ∧
    decode96 64 32 (word 0x0301C001 0 0) = .error .reservedField ∧
    decode96 64 32 (word 0x2001C001 0x00803201 0) = .error .reservedField ∧
    (Instr.and { plainFields with d := .v 1, a := .v 2, b := .v 3, ty := .n32, sat := true }).wellFormed 64 32 = false := by
  decide +kernel

/-- R170 step 4: a predicate for a V operand, a misaligned pair, a type that the entry does not list. -/
theorem test_refuses_class :
    (Instr.and { plainFields with d := .p 1, a := .v 2, b := .v 3, ty := .n32 }).wellFormed 64 32 = false ∧
    decode96 64 32 (word 0x2001C001 0x00802300 0) = .error .operandClass ∧
    (Instr.and { plainFields with d := .v 1, a := .v 2, b := .v 3, ty := .f32 }).wellFormed 64 32 = false := by decide +kernel

/-- R170 step 5, R44: v64 under an allocation of 64; v255 stands whatever the allocation is. -/
theorem test_refuses_range : decode96 64 32 (word 0x2001C040 0x00803200 0) = .error .registerRange ∧
    (Instr.and { plainFields with d := .v 64, a := .v 2, b := .v 3, ty := .n32 }).wellFormed 64 32 = false ∧
    (Instr.and { plainFields with d := .v 255, a := .v 2, b := .v 3, ty := .n32 }).wellFormed 64 32 = true := by decide +kernel

/-- R315: funct3 6 and 7, and a non-zero funct7 of a word that is not PGWRITE. -/
theorem test_refuses_custom : decode32 0 0x0000600B = none ∧ decode32 0 0x0000700B = none ∧ decode32 0 0x02C5850B = none := by
  decide +kernel

/-- Subjects that do not exist: a gang slot, a LANE, a slice, a core, a use, a cluster, a walk's ASID, an ASID. -/
theorem test_refuses_subjects : (Instr.waitanyDelivery (64 * Config.numCores)).wellFormed 64 32 = false ∧
    (Instr.draftCommit 0 64).wellFormed 64 32 = false ∧ (Instr.rotationEnter 0 16).wellFormed 64 32 = false ∧
    (Instr.subgangSwap 0 0 (64 * Config.numCores) 0).wellFormed 64 32 = false ∧
    (Instr.mmaComplete Config.numCores).wellFormed 64 32 = false ∧ (Instr.copySrcDone 0 64).wellFormed 64 32 = false ∧
    (Instr.matrixSetForm 0 64).wellFormed 64 32 = false ∧ (Instr.tlbiComplete Config.numClusters).wellFormed 64 32 = false ∧
    (Instr.pageWalk 0 (2 ^ 16) 0 0).wellFormed 64 32 = false ∧ (Instr.editionAutoRelease (2 ^ 16)).wellFormed 64 32 = false := by
  decide +kernel

/-- The same: a register, an address, a port, a device, an answer, a storage element. -/
theorem test_refuses_places : (Instr.registerWrite .host (.window 0x200000) 0).wellFormed 64 32 = false ∧
    (Instr.registerWrite (.porter Config.numClusters) (.mmio 0) 0).wellFormed 64 32 = false ∧
    (Instr.hostCxlMemAccess (.read false) (2 ^ 52) 1).wellFormed 64 32 = false ∧ (Instr.laneDrop 16).wellFormed 64 32 = false ∧
    (Instr.flitReceive 0 4096 false true true true none).wellFormed 64 32 = false ∧
    (Instr.remoteAck 0 0 4 0).wellFormed 64 32 = false ∧ (Instr.keylow 4096).wellFormed 64 32 = false ∧
    (Instr.patrolRead (2 ^ 52)).wellFormed 64 32 = false ∧
    (Instr.storageError (.tile 0 16) true).wellFormed 64 32 = false ∧ (Instr.storageError (.tile 0 15) true).wellFormed 64 32 = true := by
  decide +kernel

/-! ## Single steps -/

/-- A running gang of 16 threads that all hold given registers. -/
def gang16 (f : Thread → Thread) : Gang := { placedGang with
  width := 16, phys := [0, 1, 2, 3], threads := List.replicate 16 (f (Thread.fresh 0x1000)), slices := List.replicate 4 SliceState.fresh }

/-- It stands in slot 0 of core 0, with all of its threads in focus at 0x1000. -/
def base16 (f : Thread → Thread) : State :=
  { State.reset with
    gangs := [(0, gang16 f)], blocks := [(0, { placedBlock with width := 16 })], focus := ⟨0, 0xFFFF, 0x1000, 0, 0⟩ }

/-- The state that an outcome answers. -/
def after : Host.Outcome State Fault Refusal → State
  | .next t => t
  | _ => State.reset

/-- The thread of a LANE of the gang in slot 0 of core 0. -/
def lane (o : Host.Outcome State Fault Refusal) (l : Nat) : Thread := (((after o).gang? 0).getD Gang.blank).thread l

/-- v registers of a thread set. -/
def vs (l : List (Nat × W32)) (t : Thread) : Thread := l.foldl (fun t x => t.writeV x.1 x.2) t

/-- R191, Example 1: 0xFFFF_FFF0 + 0x20 under .CY3 is 0x10 with p3 true, in every LANE; the PC moves on. -/
theorem test_iaddc_carries :
    let f : Fields := { plainFields with d := .v 12, a := .v 4, b := .v 8, ty := .n32, md := 3 }
    let t := lane (exec (.iaddc f) (base16 (vs [(4, 0xFFFFFFF0), (8, 0x20)]))) 15
    t.readV 12 = 0x10 ∧ t.readP 3 = true ∧ t.pc = 0x100C := by decide +kernel

/-- R187: 100 + 100 as .I8 is −56 with no flag, and 0x7F with SV under .SAT. -/
theorem test_iadd_narrows :
    let f : Fields := { plainFields with d := .v 20, a := .v 21, b := .v 22, ty := .i8 }
    let s := base16 (vs [(21, 100), (22, 100)])
    (lane (exec (.iadd f) s) 0).readV 20 = 0xFFFFFFC8 ∧ (lane (exec (.iadd f) s) 0).fstat = 0 ∧
      (lane (exec (.iadd { f with sat := true }) s) 0).readV 20 = 0x7F ∧
      (lane (exec (.iadd { f with sat := true }) s) 0).fstat ≠ 0 := by decide +kernel

/-- R199, the worked PRMT. -/
theorem test_prmt : (lane (exec (.prmt { plainFields with d := .v 1, a := .v 2, b := .v 3, ty := .n32, imm := 4 })
      (base16 (vs [(2, 0x44332211), (3, 0x88776655), (4, 0x1C170C01)]))) 3).readV 1 = 0xAAFF0022 := by decide +kernel

/-- R202, Example 2: one rounding of the FFMA gives 2^−24 with no flag. -/
theorem test_ffma_fuses :
    let t := lane (exec (.ffma { plainFields with d := .v 4, a := .v 5, b := .v 6, ty := .f32, imm := 7 })
      (base16 (vs [(5, 0x3F800800), (6, 0x3F800800), (7, 0xBF801000)]))) 0
    t.readV 4 = 0x33800000 ∧ t.fstat = 0 := by decide +kernel

/-- The same example: FMUL rounds the tie to even, with a flag. -/
theorem test_fmul_ties :
    let t := lane (exec (.fmul { plainFields with d := .v 8, a := .v 5, b := .v 6, ty := .f32 })
      (base16 (vs [(5, 0x3F800800), (6, 0x3F800800)]))) 0
    t.readV 8 = 0x3F801000 ∧ t.fstat ≠ 0 := by decide +kernel

/-- R206, Example 3: −7.75 converts to −7 under RZ. -/
theorem test_cvt_truncates : (lane (exec (.cvt { plainFields with d := .v 6, a := .v 2, b := .lit, ty := .i32, md := 1, imm := 8 })
      (base16 (vs [(2, 0xC0F80000)]))) 0).readV 6 = 0xFFFFFFF9 := by decide +kernel

/-- R76: SINPI(0.5) is +1, and SINPI(−1.0) is −0. -/
theorem test_sinpi_exact :
    let f : Fields := { plainFields with d := .v 1, a := .v 2, ty := .f32 }
    (lane (exec (.sinpi f) (base16 (vs [(2, 0x3F000000)]))) 0).pend.map (·.value) = [0x3F800000] ∧
      (lane (exec (.sinpi f) (base16 (vs [(2, 0xBF800000)]))) 0).pend.map (·.value) = [0x80000000] := by decide +kernel

/-- R90, steps 1, 4 and 5 of Example 3 of the chapter on memory spaces. -/
theorem test_barrier_example :
    arriveStep 0x0000004000040000 0 0 1 16384 = (0x0000004000030000, 0x4000, .accepted false) ∧
    arriveStep 0x0000004000000000 0x2000 0 0 (-8192) = (0x0000004000040001, 0, .accepted true) ∧
    arriveStep 0x0000004000040001 0 0 0 (-8192) = (0x0000004000042001, 0, .rejected) := by decide +kernel

/-- R220: `BRA` by −17 from 0x1000 goes to 0x1000 + 12 − 204. -/
theorem test_bra_goes_back : (lane (exec (.bra { plainFields with imm := 0xFFFFFFEF }) (base16 id)) 0).pc = 0xF40 := by decide +kernel

/-- R226: EXIT ends every thread of the mask. -/
theorem test_exit_ends : (lane (exec (.exit plainFields) (base16 id)) 7).tstate = .ended := by decide +kernel

/-- The word placed for the next step is fetched through the page tables, decoded and run: `IADD.I64 v10, v10, -8`. -/
theorem test_step_runs_the_word :
    let t := lane (step (State.reset.withFetchWord 96 (word 0x1001C00A 0x02B00701 0xFFFFFFF8).toNat)) 31
    t.readV 10 = 0xFFFFFFF8 ∧ t.readV 11 = 0xFFFFFFFF ∧ t.pc = 0x100C := by decide +kernel

/-- R170, R171: a word of zeros traps every thread with ZERO_WORD. -/
theorem test_step_traps_zero : (lane (step (State.reset.withFetchWord 96 0)) 0).tstate = .trapped := by decide +kernel

/-- R309 (log 30): `ld a0, 0(x0)` at pc 0 reads the eight bytes at 0, which are its own word and zeros. -/
theorem test_step_runs_the_porter :
    ((after (step (State.reset.withFetchWord 32 0x00003503))).porter 0).rd 10 = 0x3503 := by decide +kernel

/-- R315, R318: PGREAD in machine mode ends with a status in PSTAT, and the pc moves on. -/
theorem test_step_runs_pgread : ((after (step (State.reset.withFetchWord 32 0x00C5850B))).porter 0).pc = 4 := by decide +kernel

/-! ## Witnesses: compute instructions and control

Each shows a state and operands that meet the hypotheses of a statement together. -/

/-- The gang of `gang16` in slot 0 of core 0 over page tables that map the first 256 KiB, with given LANEs in focus. -/
def st (lanes : Lanes) (f : Thread → Thread) : State :=
  { State.reset.placeTables with
    gangs := [(0, gang16 f)], blocks := [(0, { placedBlock with width := 16 })], focus := ⟨0, lanes, 0x1000, 0, 0⟩ }

theorem gang16_quiet (f : Thread → Thread) (h : ((gang16 f).thread 0).tstate ≠ .ended) : (gang16 f).Quiet :=
  ⟨rfl, rfl, 0, by simp [gang16], h⟩

theorem gang16_slices (f : Thread → Thread) : ∀ l, l < (gang16 f).width → l / 4 < (gang16 f).slices.length := by
  intro l h
  have : l < 16 := h
  show l / 4 < 4
  omega

/-- What is left of `Op.Ready` in a state of this form, as one computation. -/
def readyNow (op : Op) (f : Fields) (s : State) (g : Gang) : Bool :=
  (s.focusLanes g).all (fun l => (g.thread l).due.isNone && !g.errorAt l (.p f.pred) 1) &&
    (op.groups (s.goLanes f g)).all (fun x => !op.empties g x && !op.stalls g x && !op.spoils g x) &&
    (s.goLanes f g).all (fun l => (op.walks s l).isNone) &&
    (op.bounds f s g (s.goLanes f g) (s.gfLanes f g)).all fun l => !g.busy l

theorem ready_of (op : Op) (f : Fields) (s : State) (u : Thread → Thread) (hg : s.gang? s.focus.key = some (gang16 u))
    (hl : ((gang16 u).thread 0).tstate ≠ .ended) (h : readyNow op f s (gang16 u) = true) : op.Ready f s (gang16 u) := by
  simp only [readyNow, Bool.and_eq_true, List.all_eq_true, Bool.not_eq_true', Option.isNone_iff_eq_none] at h
  exact ⟨hg, rfl, gang16_slices u, gang16_quiet u hl, h.1.1.1, fun x hx => ⟨(h.1.1.2 x hx).1.1, (h.1.1.2 x hx).1.2, (h.1.1.2 x hx).2⟩,
    h.1.2, h.2⟩

def fAdd : Fields := { plainFields with d := .v 1, a := .v 2, b := .v 3, ty := .i32 }

/-- IntegerInstructionsComplete, LogicInstructionsComplete, FloatInstructionsComplete. -/
theorem witness_tracked_instructions : (frameOf (.iadd fAdd) fAdd).Ready fAdd (st 0xFFFF id) (gang16 id) ∧
    (opCarry (.iaddc fAdd) fAdd (aluIaddc fAdd.ty)).Ready fAdd (st 0xFFFF id) (gang16 id) :=
  ⟨ready_of _ _ _ id rfl (by decide) (by decide +kernel), ready_of _ _ _ id rfl (by decide) (by decide +kernel)⟩

/-- The same with every guard false, and with one LANE of each slice. -/
theorem witness_tracked_guards : (frameOf (.fadd fAdd) fAdd).Ready { fAdd with neg := true } (st 0x1111 id) (gang16 id) :=
  ready_of _ _ _ id rfl (by decide) (by decide +kernel)

/-- ConversionsAndSpecialFunctionsComplete: a long-latency one. -/
theorem witness_special_functions : (frameOf (.rcp { fAdd with ty := .f32 }) { fAdd with ty := .f32 }).Ready
    { fAdd with ty := .f32 } (st 0xFFFF id) (gang16 id) := ready_of _ _ _ id rfl (by decide) (by decide +kernel)

/-- LaneOperationsComplete: participants of one slice, and of four. -/
theorem witness_lane_operations :
    let f : Fields := { fAdd with ty := .n32 }
    let op := endFrame (.shfl f) f
    let n (s : State) := (((s.opened f op (gang16 id)).participants f).map (· / 4)).dedup.length
    (op.Ready f (st 0xF id) (gang16 id) ∧ n (st 0xF id) ≤ 1) ∧ op.Ready f (st 0xFFFF id) (gang16 id) ∧ 1 < n (st 0xFFFF id) :=
  ⟨⟨ready_of _ _ _ id rfl (by decide) (by decide +kernel), by decide +kernel⟩,
    ready_of _ _ _ id rfl (by decide) (by decide +kernel), by decide +kernel⟩

/-- ControlInstructionsComplete: a transfer, and a target in a pair, as CALL and RET read it. -/
theorem witness_transfers :
    let f : Fields := { plainFields with imm := 5 }
    let r : Fields := { plainFields with a := .v 4 }
    let op := opBranch (.ret r) r (fun s l => absTarget (s.srcA (.ret r) r l)) false
    (opBranch (.bra f) f (fun s _ => some (relTarget s.focus.pc f.imm.toInt)) false).Ready f (st 0xFFFF id) (gang16 id) ∧
      op.Ready r (st 0xFFFF (vs [(4, 0x1800)])) (gang16 (vs [(4, 0x1800)])) ∧
      ∀ l ∈ (st 0xFFFF (vs [(4, 0x1800)])).goLanes r (gang16 (vs [(4, 0x1800)])),
        absTarget (((st 0xFFFF (vs [(4, 0x1800)])).opened r op (gang16 (vs [(4, 0x1800)]))).srcA (.ret r) r l) = some 0x1800 :=
  ⟨ready_of _ _ _ id rfl (by decide) (by decide +kernel), ready_of _ _ _ _ rfl (by decide) (by decide +kernel), by decide +kernel⟩

/-- The clause on LOOP. -/
theorem witness_loop :
    let f : Fields := { plainFields with a := .v 2, imm := 2 }
    let op := { frameOf (.loop f) f with ctl := fun s l => match loopCtl s f l with | .ok c => c | .error _ => .stay }
    op.Ready f (st 0xFFFF (vs [(2, 3)])) (gang16 (vs [(2, 3)])) ∧
      ∀ l ∈ (st 0xFFFF (vs [(2, 3)])).goLanes f (gang16 (vs [(2, 3)])),
        ((loopCtl ((st 0xFFFF (vs [(2, 3)])).opened f op (gang16 (vs [(2, 3)]))) f l).toOption).isSome = true :=
  ⟨ready_of _ _ _ _ rfl (by decide) (by decide +kernel), by decide +kernel⟩

/-- The clauses on EXIT: a thread is left, or none is. -/
theorem witness_exit : (endFrame (.exit plainFields) plainFields).Ready plainFields (st 1 id) (gang16 id) ∧
    (15 ∉ (st 1 id).goLanes plainFields (gang16 id) ∧ ((gang16 id).thread 15).tstate ≠ .ended) ∧
    (endFrame (.exit plainFields) plainFields).Ready plainFields (st 0xFFFF id) (gang16 id) ∧
    ∀ l, l < 16 → l ∈ (st 0xFFFF id).goLanes plainFields (gang16 id) :=
  ⟨ready_of _ _ _ id rfl (by decide) (by decide +kernel), by decide +kernel,
    ready_of _ _ _ id rfl (by decide) (by decide +kernel), by decide +kernel⟩

theorem thread_gang16 (f : Thread → Thread) (h : (f (Thread.fresh 0x1000)).buf = []) (l : Nat) : ((gang16 f).thread l).buf = [] := by
  by_cases hl : l < 16
  · have : (gang16 f).thread l = f (Thread.fresh 0x1000) := by
      simp only [Gang.thread, gang16]
      rw [List.getD_eq_getElem _ _ (by simpa using hl), List.getElem_replicate]
    rw [this, h]
  · simp [Gang.thread, gang16, hl]; rfl

/-- A gang of that form with nothing buffered or on its way may trap. -/
theorem mayTrap_st (lanes : Lanes) (f : Thread → Thread) (h : (f (Thread.fresh 0x1000)).buf = []) : (st lanes f).MayTrap 0 (gang16 f) :=
  ⟨rfl, rfl, rfl, thread_gang16 f h, fun _ he => (nomatch he), rfl⟩

/-- TrapsAreTaken: TRAP, and a word that fails R170. -/
theorem witness_traps :
    let f : Fields := { plainFields with a := .v 2 }
    ({ frameOf (.trap f) f with cls := .edge } : Op).Ready f (st 0xFFFF id) (gang16 id) ∧ (st 0xFFFF id).goLanes f (gang16 id) ≠ [] ∧
      (st 0xFFFF id).MayTrap 0 (gang16 id) ∧
      (∀ l ∈ (st 0xFFFF id).focusLanes (gang16 id), (gang16 id).busy l = false ∧ ((gang16 id).thread l).due = .none) ∧
      (st 0xFFFF id).focusLanes (gang16 id) ≠ [] :=
  ⟨ready_of _ _ _ id rfl (by decide) (by decide +kernel), by decide +kernel, mayTrap_st _ id rfl, by decide +kernel, by decide +kernel⟩

/-! ## Witnesses: memory -/

/-- A sub-gang that is ready, whose wait is over and whose accesses succeed. -/
def Meets (op : Op) (f : Fields) (s : State) (g : Gang) (a : State → Nat → State → Eff → Prop) : Prop :=
  op.Ready f s g ∧ op.ready (s.opened f op g) (s.goLanes f g) = true ∧
    CanAccess a ((op.groups (s.goLanes f g)).map (·.1)) (s.opened f op g)

theorem meets_of {op : Op} {f : Fields} {s : State} {u : Thread → Thread} {a : State → Nat → State → Eff → Prop}
    (hr : op.Ready f s (gang16 u)) (hw : op.ready (s.opened f op (gang16 u)) (s.goLanes f (gang16 u)) = true)
    (hg : (op.groups (s.goLanes f (gang16 u))).map (·.1) = [0]) (h : ∃ t e, a (s.opened f op (gang16 u)) 0 t e) :
    Meets op f s (gang16 u) a := by
  refine ⟨hr, hw, ?_⟩
  rw [hg]
  exact ⟨h, fun _ _ _ => trivial⟩

theorem pair_of {α β : Type} {x : α × β} {b : β} (h : x.2 = b) : x = (x.1, b) := by rw [← h]

theorem ok_of {ε α β : Type} {x : α × Except ε β} {b : β} (h : x.2.toOption = some b) : x = (x.1, .ok b) := by
  obtain ⟨a, e | c⟩ := x
  · simp [Except.toOption] at h
  · simp only [Except.toOption, Option.some.injEq] at h
    rw [h]

def fLd : Fields := { plainFields with d := .v 8, a := .v 2, ty := .n32, imm := 16 }
/-- v2 and v3 hold the address 0x2000. -/
def at2000 : Thread → Thread := vs [(2, 0x2000), (4, 5), (6, 7)]

/-- LoadsComplete: LD.G of a word of HBM. -/
theorem witness_load :
    let op := (opLoad (.ldG fLd) fLd .glob fun s l sp => s.loadPlain (.ldG fLd) fLd .glob l sp).awaitFlush
    Meets op fLd (st 1 at2000) (gang16 at2000) (LoadAccess (.ldG fLd) fLd .glob .none true) := by
  intro op
  refine meets_of (ready_of _ _ _ _ rfl (by decide) (by decide +kernel)) (by decide +kernel) (by decide +kernel)
    ⟨_, _, fun _ => by decide +kernel, by decide +kernel, _, .glob 0x2010 (.hbm 0x2010) 0x2010, _, 0, ok_of (by decide +kernel),
      pair_of (by decide +kernel), rfl, rfl⟩

/-- An acquire, and a load of the parameters. -/
theorem witness_load_acquire :
    let f : Fields := { fLd with md := 3 }
    let op := (opLoad (.ldGAcq f) f .glob fun s l sp => s.loadAcquire (.ldGAcq f) f .glob (scopeOf f.md.toNat) l sp).awaitFlush
    Meets op f (st 1 at2000) (gang16 at2000) (LoadAccess (.ldGAcq f) f .glob (some (scopeOf f.md.toNat)) true) := by
  intro f op
  refine meets_of (ready_of _ _ _ _ rfl (by decide) (by decide +kernel)) (by decide +kernel) (by decide +kernel)
    ⟨_, _, fun _ => by decide +kernel, by decide +kernel, _, .glob 0x2010 (.hbm 0x2010) 0x2010, _, 0, ok_of (by decide +kernel),
      pair_of (by decide +kernel), rfl, rfl⟩

/-- LD.S, at the last offset of the allocation. -/
theorem witness_load_scratch :
    let f : Fields := { fLd with a := .v 4, imm := 0xFFF7 }
    let op := opLoad (.ldS f) f .scratch fun s l sp => s.loadPlain (.ldS f) f .scratch l sp
    Meets op f (st 1 at2000) (gang16 at2000) (LoadAccess (.ldS f) f .scratch .none false) := by
  intro f op
  refine meets_of (ready_of _ _ _ _ rfl (by decide) (by decide +kernel)) (by decide +kernel) (by decide +kernel)
    ⟨_, _, (fun h => nomatch h), by decide +kernel, _, .scratch false 0xFFFC, _, 0, ok_of (by decide +kernel),
      pair_of (by decide +kernel), rfl, rfl⟩

/-- StoresAndReductionsComplete: ST.G, ST.S.FS and RED.ADD. -/
theorem witness_store :
    let f : Fields := { plainFields with a := .v 2, b := .v 4, ty := .n32 }
    let g : Fields := { plainFields with a := .v 4, b := .v 6, ty := .n32, imm := 3 }
    Meets (opStore (.stG f) f .glob false .none) f (st 1 at2000) (gang16 at2000) (StoreAccess (.stG f) f .glob false .none) ∧
      Meets (opStore (.stSFs g) g .scratch true (some .block)) g (st 1 at2000) (gang16 at2000)
        (StoreAccess (.stSFs g) g .scratch true (some .block)) ∧
      Meets (opRed (.redAdd true f) f true 0) f (st 1 at2000) (gang16 at2000) (RedAccess (.redAdd true f) f true 0) := by
  intro f g
  refine ⟨meets_of (ready_of _ _ _ _ rfl (by decide) (by decide +kernel)) (by decide +kernel) (by decide +kernel)
      ⟨_, _, (fun _ h => by simp at h), .glob 0x2000 (.hbm 0x2000) 0x2000, ok_of (by decide +kernel), rfl⟩,
    meets_of (ready_of _ _ _ _ rfl (by decide) (by decide +kernel)) (by decide +kernel) (by decide +kernel)
      ⟨_, _, (fun h => nomatch h), .scratch false 8, ok_of (by decide +kernel), rfl⟩,
    meets_of (ready_of _ _ _ _ rfl (by decide) (by decide +kernel)) (by decide +kernel) (by decide +kernel)
      ⟨_, _, fun _ _ => by decide +kernel, .glob 0x2000 (.hbm 0x2000) 0x2000, ok_of (by decide +kernel), rfl⟩⟩

theorem some_of {α : Type} {x : Option α} (h : x.isSome = true) : ∃ y, x = some y := Option.isSome_iff_exists.mp h

theorem found_of {x : Option (State × Found)} {d : Nat} (h : x.map (·.2) = some (.data d)) : ∃ t, x = some (t, .data d) := by
  match x, h with
  | some (t, _), h => simp only [Option.map_some, Option.some.injEq] at h; exact ⟨t, by rw [h]⟩
  | .none, h => simp at h

theorem rmw_of {i : Instr} {f : Fields} {ord : Order} {new : State → Nat → Nat → Option Nat} {o : State} {a : Nat} {tg : Target}
    {pa old : Nat} (h0 : o.settledIn = true) (hf : o.focusGang.failedStores = 0)
    (he : (o.ea i f 0 .glob .rmw f.ty.bytes).2.toOption = some (.glob a tg pa)) (hr : ∀ dev off, tg ≠ .remote dev off)
    (hd : ((if orderRel ord then (o.ea i f 0 .glob .rmw f.ty.bytes).1.drainThread (o.ea i f 0 .glob .rmw f.ty.bytes).1.focusGang.tag 0
        else (o.ea i f 0 .glob .rmw f.ty.bytes).1.drainFenced (o.ea i f 0 .glob .rmw f.ty.bytes).1.focusGang.tag 0
          ((o.ea i f 0 .glob .rmw f.ty.bytes).1.focusGang.thread 0).fences).bind fun u =>
      (u.homeRead (coreOf (o.ea i f 0 .glob .rmw f.ty.bytes).1.focus.key) pa f.ty.bytes
        (o.ea i f 0 .glob .rmw f.ty.bytes).1.focusGang.asid).map (·.2)) = some (.data old)) :
    ∃ t e, RmwAccess i f ord new o 0 t e := by
  obtain ⟨u, h1, h2⟩ := Option.bind_eq_some_iff.mp hd
  obtain ⟨v, h3⟩ := found_of h2
  exact ⟨_, _, h0, fun _ _ => hf, _, a, tg, pa, u, v, old, ok_of he, hr, h1, h3, rfl, rfl⟩

/-- AtomicsComplete: ATOM.ADD plain, and CAS.AR at DEVICE scope. -/
theorem witness_atomic :
    let f : Fields := { plainFields with d := .v 8, a := .v 2, b := .v 4, ty := .n32 }
    let c : Fields := { plainFields with d := .v 8, a := .v 2, b := .v 4, ty := .n32, md := 3, imm := 6 }
    let cas (s : State) (l old : Nat) : Option Nat := if old = s.srcB (.cas .ar c) c l then some (s.srcC (.cas .ar c) c l) else .none
    Meets (opAtom (.atomAdd .plain f) f .plain 0) f (st 1 at2000) (gang16 at2000)
        (RmwAccess (.atomAdd .plain f) f .plain fun s l old => some (newValue 0 f.ty old (s.srcB (.atomAdd .plain f) f l))) ∧
      Meets (opRmw (.cas .ar c) c .ar cas fun s l => .cas c.ty (s.srcB (.cas .ar c) c l) (s.srcC (.cas .ar c) c l)) c (st 1 at2000)
        (gang16 at2000) (RmwAccess (.cas .ar c) c .ar cas) := by
  intro f c cas
  exact ⟨meets_of (ready_of _ _ _ _ rfl (by decide) (by decide +kernel)) (by decide +kernel) (by decide +kernel)
      (rmw_of (a := 0x2000) (tg := .hbm 0x2000) (pa := 0x2000) (old := 0) (by decide +kernel) (by decide +kernel) (by decide +kernel)
        (fun _ _ h => nomatch h) (by decide +kernel)),
    meets_of (ready_of _ _ _ _ rfl (by decide) (by decide +kernel)) (by decide +kernel) (by decide +kernel)
      (rmw_of (a := 0x2000) (tg := .hbm 0x2000) (pa := 0x2000) (old := 0) (by decide +kernel) (by decide +kernel) (by decide +kernel)
        (fun _ _ h => nomatch h) (by decide +kernel))⟩


/-- The same with the page at 0x40000 mapped to device 3, to which port 2 leads. -/
def stR (lanes : Lanes) (f : Thread → Thread) : State :=
  let s := (st lanes f).placeBytes 0x50408 8 (2 ^ 51 + 3 * 2 ^ 39 + 0xBF)
  { s with link := { s.link with devValid := true, droute := [(3, 4)] } }

/-- The bounded loads. -/
theorem witness_bounded :
    let f : Fields := { fLd with b := .p 1, md := 2 }
    Meets (opBounded (.ldGEd f) f false) f (st 1 at2000) (gang16 at2000) (BoundedAccess (.ldGEd f) f false) ∧
      Meets (opBounded (.ldGEdRpt f) f true) f (st 1 at2000) (gang16 at2000) (BoundedAccess (.ldGEdRpt f) f true) := by
  intro f
  exact ⟨meets_of (ready_of _ _ _ _ rfl (by decide) (by decide +kernel)) (by decide +kernel) (by decide +kernel)
      ⟨_, _, by decide +kernel, by decide +kernel, _, 0x2010, .hbm 0x2010, 0x2010, _, 0, true, ok_of (by decide +kernel),
        pair_of (by decide +kernel), rfl, rfl⟩,
    meets_of (ready_of _ _ _ _ rfl (by decide) (by decide +kernel)) (by decide +kernel) (by decide +kernel)
      ⟨_, _, by decide +kernel, by decide +kernel, _, 0x2010, .hbm 0x2010, 0x2010, _, 0, true, ok_of (by decide +kernel),
        pair_of (by decide +kernel), rfl, rfl⟩⟩

/-- The state after the address of LANE 0 of a load, and its read. -/
def eaOf (i : Instr) (f : Fields) (o : State) : State := (o.ea i f 0 .glob .read f.ty.bytes).1
def readOf (i : Instr) (f : Fields) (acq : Option Scope) (o : State) (sp : Spot) : State × ReadEnd :=
  let s1 := eaOf i f o
  s1.readUnless (s1.fwdOf 0 sp f.ty.bytes) f.ty.bytes (s1.readSpot f.ty.bytes acq.isSome sp)

theorem remote_of {i : Instr} {f : Fields} {acq : Option Scope} {o : State} {sp : Spot} {dev off : Nat} (h0 : o.settledIn = true)
    (hp : o.acquirePending o.focus.key 0 = false) (he : (o.ea i f 0 .glob .read f.ty.bytes).2.toOption = some sp)
    (hr : (readOf i f acq o sp).2 = .remote dev off) (hn : (readOf i f acq o sp).1.askedFor dev off = none)
    (hs : let s2 := (readOf i f acq o sp).1
      let s3 : State := { s2 with seqCtr := s2.seqCtr + 1 }
      let va := eaSum .glob ((eaOf i f o).srcA i f 0) f.imm
      (s3.sendRemote (coreOf s2.focus.key) dev off (.read f.ty.bytes)
        (.load s2.focus.key 0 s2.seqCtr va (s3.leafLevel (coreOf s2.focus.key) s3.focusGang.asid va))).isSome = true) :
    ∃ t e, RemoteLoad i f acq o 0 t e := by
  obtain ⟨t, ht⟩ := some_of hs
  exact ⟨_, _, h0, hp, _, sp, _, dev, off, _, ok_of he, pair_of hr, rfl, Or.inr ⟨hn, rfl, t, ht, rfl⟩⟩

/-- RemoteLoadsComplete: the last dword of a page of device 3. -/
theorem witness_remote_load :
    let u := vs [(2, 0x7FFF8)]
    let f : Fields := { fLd with ty := .n64, imm := 0 }
    let op := (opLoad (.ldG f) f .glob fun s l sp => s.loadPlain (.ldG f) f .glob l sp).awaitFlush
    Meets op f (stR 1 u) (gang16 u) (RemoteLoad (.ldG f) f .none) := by
  intro u f op
  exact meets_of (ready_of _ _ _ _ rfl (by decide) (by decide +kernel)) (by decide +kernel) (by decide +kernel)
    (remote_of (sp := .glob 0x7FFF8 (.remote 3 0x3FFF8) (2 ^ 51 + 3 * 2 ^ 39 + 0x3FFF8)) (dev := 3) (off := 0x3FFF8) (by decide +kernel) (by decide +kernel) (by decide +kernel)
      (by decide +kernel) (by decide +kernel) (by decide +kernel))


/-! ## Witnesses: full granules, fences, barriers, mailboxes -/

/-- The gang of `gang16` with a wait of LANE 0 in it, and its wait. -/
def waiter (u : Thread → Thread) (i : Instr) (c : List (Nat × Nat × CopyUse) := []) : Gang :=
  { gang16 u with waits := [⟨1, 0x1000, i, 0, 9, 0, 0⟩], cpys := c }

/-- Slot 0 of core 0 holds it. -/
def stW (u : Thread → Thread) (i : Instr) (c : List (Nat × Nat × CopyUse) := []) : State := { st 0 u with gangs := [(0, waiter u i c)] }

/-- What `Wakes` asks of wait 9 of the gang in slot 0 of a state. -/
def WakeMeets (i : Instr) (op : Nat → Op) (a : Nat → State → Nat → State → Eff → Prop) (s : State) : Prop :=
  ∃ (g : Gang) (x : Wait), s.gang? 0 = some g ∧ g.threads.length = g.width ∧ (∀ l, l < g.width → l / 4 < g.slices.length) ∧ g.Quiet ∧
    s.waitOf 0 9 = some x ∧ x.instr = i ∧ (op x.seq).ready (s.retried 0 g x) (g.woken x) = true ∧
    CanAccess (a x.seq) (((op x.seq).groups (g.woken x)).map (·.1)) (s.retried 0 g x)

theorem wake_of {i : Instr} {op : Nat → Op} {a : Nat → State → Nat → State → Eff → Prop} {u : Thread → Thread} {s : State}
    {c : List (Nat × Nat × CopyUse)} (hs : s.gang? 0 = some (waiter u i c)) (hl : ((gang16 u).thread 0).tstate ≠ .ended)
    (hw : (op 9).ready (s.retried 0 (waiter u i c) ⟨1, 0x1000, i, 0, 9, 0, 0⟩) ((waiter u i c).woken ⟨1, 0x1000, i, 0, 9, 0, 0⟩) = true)
    (hg : ((op 9).groups ((waiter u i c).woken ⟨1, 0x1000, i, 0, 9, 0, 0⟩)).map (·.1) = [0])
    (h : ∃ t e, a 9 (s.retried 0 (waiter u i c) ⟨1, 0x1000, i, 0, 9, 0, 0⟩) 0 t e) : WakeMeets i op a s := by
  refine ⟨_, ⟨1, 0x1000, i, 0, 9, 0, 0⟩, hs, rfl, gang16_slices u, ⟨rfl, rfl, 0, Nat.zero_lt_succ _, hl⟩, ?_, rfl, hw, ?_⟩
  · rw [State.waitOf, hs]; rfl
  · rw [hg]; exact ⟨h, fun _ _ _ => trivial⟩

/-- Granules 0 and 1 of the block's even half full. -/
def full (s : State) : State := s.modScratch 0 false fun h => { h with full := NatSet.add (NatSet.add h.full 0) 1 }

def fFw : Fields := { plainFields with d := .v 8, a := .v 4, ty := .n32, imm := 7 }

theorem full_of {i : Instr} {f : Fields} {c : Bool} {o : State} {off x : Nat}
    (hp : o.settledIn = true ∧ o.acquirePending o.focus.key 0 = false)
    (he : (o.ea i f 0 .scratch .read f.ty.bytes).2.toOption = some (.scratch false off))
    (hr : let s1 := (o.ea i f 0 .scratch .read f.ty.bytes).1
      (s1.readUnless (s1.fwdOf 0 (.scratch false off) f.ty.bytes) f.ty.bytes (s1.readSpot f.ty.bytes true (.scratch false off))).2 =
        .data x) :
    ∃ t e, FullAccess i f c o 0 t e :=
  ⟨_, _, _, _, _, ⟨fun _ => hp.1, hp.2, _, _, _, x, ok_of he, pair_of hr, rfl, rfl⟩, ok_of he, rfl⟩

/-- FullGranuleLoadsComplete: at once, a plain one and a consuming one. -/
theorem witness_full :
    Meets (opFull (.ldSFw fFw) fFw false 0) fFw (full (st 1 at2000)) (gang16 at2000) (FullAccess (.ldSFw fFw) fFw false) ∧
      Meets (opFull (.ldSFc fFw) fFw true 0) fFw (full (st 1 at2000)) (gang16 at2000) (FullAccess (.ldSFc fFw) fFw true) :=
  ⟨meets_of (ready_of _ _ _ _ rfl (by decide) (by decide +kernel)) (by decide +kernel) (by decide +kernel)
      (full_of (off := 12) (x := 0) (by decide +kernel) (by decide +kernel) (by decide +kernel)),
    meets_of (ready_of _ _ _ _ rfl (by decide) (by decide +kernel)) (by decide +kernel) (by decide +kernel)
      (full_of (off := 12) (x := 0) (by decide +kernel) (by decide +kernel) (by decide +kernel))⟩

/-- The same through FULL_LOAD_PERFORM. -/
theorem witness_full_wakes :
    WakeMeets (.ldSFw fFw) (opFull (.ldSFw fFw) fFw false) (fun _ => FullAccess (.ldSFw fFw) fFw false)
        (full (stW at2000 (.ldSFw fFw))) ∧
      WakeMeets (.ldSFc fFw) (opFull (.ldSFc fFw) fFw true) (fun _ => FullAccess (.ldSFc fFw) fFw true)
        (full (stW at2000 (.ldSFc fFw))) :=
  ⟨wake_of (u := at2000) rfl (by decide) (by decide +kernel) (by decide +kernel)
      (full_of (off := 12) (x := 0) (by decide +kernel) (by decide +kernel) (by decide +kernel)),
    wake_of (u := at2000) rfl (by decide) (by decide +kernel) (by decide +kernel)
      (full_of (off := 12) (x := 0) (by decide +kernel) (by decide +kernel) (by decide +kernel))⟩

theorem prefetch_of {f : Fields} {o : State} {a pa pa' d : Nat} (hm : f.md = 0)
    (he : (o.ea (.prf f) f 0 .glob .read 1).2.toOption = some (.glob a (.hbm pa) pa'))
    (hr : ((o.ea (.prf f) f 0 .glob .read 1).1.homeRead (coreOf o.focus.key) pa 1 o.focusGang.asid).map (·.2) = some (.data d)) :
    ∃ t e, PrefetchAccess f o 0 t e := by
  obtain ⟨u, h⟩ := found_of hr
  exact ⟨_, _, hm, rfl, _, a, pa, pa', u, d, ok_of he, h, rfl⟩

theorem nothing_of {f : Fields} {o : State} (he : (o.ea (.prf f) f 0 .glob .read 1).2.toOption = .none) :
    ∃ t e, PrefetchNothing f o 0 t e := by
  match hx : o.ea (.prf f) f 0 .glob .read 1, he with
  | (s1, .error x), _ => exact ⟨_, _, rfl, rfl, s1, x, hx⟩
  | (_, .ok _), h => simp [Except.toOption] at h

/-- FencesComplete: PRF of a line and of an address outside the map. -/
theorem witness_prefetch :
    let f : Fields := { plainFields with a := .v 2 }
    let v := vs [(3, 1)]
    Meets (frameOf (.prf f) f) f (st 1 at2000) (gang16 at2000) (PrefetchAccess f) ∧
      Meets (frameOf (.prf f) f) f (st 1 v) (gang16 v) (PrefetchNothing f) := by
  intro f v
  exact ⟨meets_of (ready_of _ _ _ _ rfl (by decide) (by decide +kernel)) (by decide +kernel) (by decide +kernel)
      (prefetch_of (a := 0x2000) (pa := 0x2000) (pa' := 0x2000) (d := 0) rfl (by decide +kernel) (by decide +kernel)),
    meets_of (ready_of _ _ _ _ rfl (by decide) (by decide +kernel)) (by decide +kernel) (by decide +kernel)
      (nothing_of (by decide +kernel))⟩

theorem feclr_of {f : Fields} {o : State} {odd : Bool} {gs : List Nat}
    (hc : o.clearRange (o.feclrAddr f 0) (o.srcB (.feclr f) f 0) = .ok (some (odd, gs)))
    (hd : (o.drain fun x => x.inGranules (coreOf o.focus.key) o.focusGang.blk odd gs).isSome = true) : ∃ t e, FeclrAccess f o 0 t e := by
  obtain ⟨u, h⟩ := some_of hd
  exact ⟨_, _, rfl, .inr ⟨odd, gs, u, hc, h, rfl⟩⟩

theorem fenceAr_of {f : Fields} {o : State} (h : o.settledIn = true ∧ o.loadsOut 0 = false ∧ o.focusGang.failedStores = 0)
    (hd : (o.drainThread o.focusGang.tag 0).isSome = true) : ∃ t e, FenceArAccess f o 0 t e := by
  obtain ⟨u, hu⟩ := some_of hd
  exact ⟨_, _, h.1, h.2.1, fun _ => h.2.2, u, hu, rfl, rfl⟩

/-- FECLR of an empty range and of sixteen bytes, and the fences. -/
theorem witness_fences :
    let f : Fields := { plainFields with a := .v 4, b := .v 5, imm := 11 }
    let g : Fields := { plainFields with a := .v 4, b := .v 6, imm := 11 }
    let u := vs [(4, 5), (6, 16)]
    let n : Fields := { plainFields with md := 1 }
    Meets (endFrame (.feclr f) f) f (st 1 u) (gang16 u) (FeclrAccess f) ∧
      Meets (endFrame (.feclr g) g) g (st 1 u) (gang16 u) (FeclrAccess g) ∧
      Meets (frameOf (.fenceAcq n) n) n (st 1 id) (gang16 id) (FenceAcqAccess n) ∧
      Meets (frameOf (.fenceRel n) n) n (st 1 id) (gang16 id) (FenceRelAccess n) ∧
      Meets (endFrame (.fenceAr n) n) n (st 1 id) (gang16 id) (FenceArAccess n) := by
  intro f g u n
  exact ⟨meets_of (ready_of _ _ _ _ rfl (by decide) (by decide +kernel)) (by decide +kernel) (by decide +kernel)
      ⟨_, _, rfl, .inl ⟨by decide +kernel, rfl⟩⟩,
    meets_of (ready_of _ _ _ _ rfl (by decide) (by decide +kernel)) (by decide +kernel) (by decide +kernel)
      (feclr_of (odd := false) (gs := [1]) (by decide +kernel) (by decide +kernel)),
    meets_of (ready_of _ _ _ _ rfl (by decide) (by decide +kernel)) (by decide +kernel) (by decide +kernel)
      ⟨_, _, by decide +kernel, by decide +kernel, rfl, rfl⟩,
    meets_of (ready_of _ _ _ _ rfl (by decide) (by decide +kernel)) (by decide +kernel) (by decide +kernel)
      ⟨_, _, fun _ => by decide +kernel, rfl, rfl⟩,
    meets_of (ready_of _ _ _ _ rfl (by decide) (by decide +kernel)) (by decide +kernel) (by decide +kernel)
      (fenceAr_of (by decide +kernel) (by decide +kernel))⟩


/-- A barrier at offset 0 that expects four arrivals, in phase 0. -/
def withBarrier (s : State) : State := s.scratchWrite 0 false 0 8 0x0000004000040000 false
def fBar : Fields := { plainFields with d := .v 8, a := .v 4, b := .v 6, ty := .n64 }
/-- v4 holds 0, v6 and v7 a phase and a count. -/
def barArgs (v : W32) : Thread → Thread := vs [(6, v)]
def eachOp (i : Instr) (f : Fields) : Op := { endFrame i f with each := true }

theorem init_of {f : Fields} {o : State} {x : Bool × Nat} (ha : (o.barrierAt 0 (o.srcA (.barInit f) f (o.barLane (.barInit f) f 0)) .write).toOption = some x)
    (hd : (o.drainThread o.focusGang.tag 0).isSome = true) : ∃ t e, BarInitAccess f o 0 t e := by
  obtain ⟨u, h⟩ := some_of hd
  have ha' : o.barrierAt 0 (o.srcA (.barInit f) f (o.barLane (.barInit f) f 0)) .write = .ok x := by
    cases hb : o.barrierAt 0 (o.srcA (.barInit f) f (o.barLane (.barInit f) f 0)) .write with
    | error e => rw [hb] at ha; cases ha
    | ok y => rw [hb] at ha; simpa [Except.toOption] using ha
  exact ⟨_, _, rfl, x.1, x.2, u, ha', h, rfl⟩

theorem okE {ε β : Type} {x : Except ε β} {b : β} (h : x.toOption = some b) : x = .ok b := by
  cases x with
  | error e => cases h
  | ok c => simpa [Except.toOption] using h

theorem arrive_of {i : Instr} {f : Fields} {d : Nat → Int} {o u : State} {odd ph : Bool} {off : Nat}
    (ha : (o.barrierAt 0 (o.srcA i f (o.barLane i f 0)) .rmw).toOption = some (odd, off)) (hd : o.drainThread o.focusGang.tag 0 = some u)
    (hr : (u.arrive u.focusGang.blk odd off (bits (o.srcB i f (o.barLane i f 0)) 0 12) (bits (o.srcB i f (o.barLane i f 0)) 12 20) (d (o.srcB i f (o.barLane i f 0)))).2.2 =
      .accepted ph) : ∃ t e, ArriveAccess i f d o 0 t e :=
  ⟨_, _, odd, off, u, _, ph, okE ha, hd, by rw [← hr], rfl⟩

theorem barWait_of {f : Fields} {o : State} {odd : Bool} {off w : Nat} (h0 : o.settledIn = true)
    (ha : (o.barrierAt 0 (o.srcA (.barWait f) f (o.barLane (.barWait f) f 0)) .read).toOption = some (odd, off))
    (hr : (o.readWord0 o.focusGang.blk odd off).2 = w) (hp : bits w 12 1 = 1 → f.md ≠ 0)
    (hq : bits w 0 12 ≠ bits (o.srcB (.barWait f) f (o.barLane (.barWait f) f 0)) 0 12 ∨
      bits w 12 1 = 1) : ∃ t e, BarWaitAccess f o 0 t e :=
  ⟨_, _, h0, odd, off, _, w, okE ha, pair_of hr, hp, hq, rfl, rfl⟩

theorem barTest_of {f : Fields} {o : State} {odd : Bool} {off w : Nat} (h0 : o.settledIn = true)
    (ha : (o.barrierAt 0 (o.srcA (.barTest f) f (o.barLane (.barTest f) f 0)) .read).toOption = some (odd, off))
    (hr : (o.readWord0 o.focusGang.blk odd off).2 = w) (hp : bits w 12 1 = 1 → f.md ≠ 0) : ∃ t e, BarTestAccess f o 0 t e :=
  ⟨_, _, h0, odd, off, _, w, okE ha, pair_of hr, hp, rfl, rfl⟩

theorem arrive_now {i : Instr} {f : Fields} {d : Nat → Int} {o : State} {odd ph : Bool} {off : Nat}
    (ha : (o.barrierAt 0 (o.srcA i f (o.barLane i f 0)) .rmw).toOption = some (odd, off))
    (hr : (o.drainThread o.focusGang.tag 0).map (fun u =>
      (u.arrive u.focusGang.blk odd off (bits (o.srcB i f (o.barLane i f 0)) 0 12) (bits (o.srcB i f (o.barLane i f 0)) 12 20) (d (o.srcB i f (o.barLane i f 0)))).2.2) =
      some (.accepted ph)) : ∃ t e, ArriveAccess i f d o 0 t e := by
  obtain ⟨u, h1, h2⟩ := Option.map_eq_some_iff.mp hr
  exact arrive_of ha h1 h2

/-- BarriersComplete: the five instructions on a barrier in phase 0 that expects four arrivals. -/
theorem witness_barriers :
    let op (i : Instr) : Op := eachOp i fBar
    Meets (op (.barInit fBar)) fBar (st 1 (barArgs 4)) (gang16 (barArgs 4)) (BarInitAccess fBar) ∧
      Meets (op (.barArr fBar)) fBar (withBarrier (st 1 (barArgs 0x1000))) (gang16 (barArgs 0x1000))
        (ArriveAccess (.barArr fBar) fBar fun _ => 0) ∧
      Meets (op (.barExp fBar)) fBar (withBarrier (st 1 (barArgs 0x1000))) (gang16 (barArgs 0x1000))
        (ArriveAccess (.barExp fBar) fBar fun v => (bits v 32 32 : Int)) ∧
      Meets (op (.barWait fBar)) fBar (withBarrier (st 1 (barArgs 0xFFF))) (gang16 (barArgs 0xFFF)) (BarWaitAccess fBar) ∧
      Meets (op (.barTest { fBar with d := .p 2 })) { fBar with d := .p 2 } (withBarrier (st 1 (barArgs 0))) (gang16 (barArgs 0))
        (BarTestAccess { fBar with d := .p 2 }) := by
  exact ⟨meets_of (ready_of _ _ _ _ rfl (by decide) (by decide +kernel)) (by decide +kernel) (by decide +kernel)
      (init_of (x := (false, 0)) (by decide +kernel) (by decide +kernel)),
    meets_of (ready_of _ _ _ _ rfl (by decide) (by decide +kernel)) (by decide +kernel) (by decide +kernel)
      (arrive_now (odd := false) (off := 0) (ph := false) (by decide +kernel) (by decide +kernel)),
    meets_of (ready_of _ _ _ _ rfl (by decide) (by decide +kernel)) (by decide +kernel) (by decide +kernel)
      (arrive_now (odd := false) (off := 0) (ph := false) (by decide +kernel) (by decide +kernel)),
    meets_of (ready_of _ _ _ _ rfl (by decide) (by decide +kernel)) (by decide +kernel) (by decide +kernel)
      (barWait_of (odd := false) (off := 0) (w := 0x0000004000040000) (by decide +kernel) (by decide +kernel) (by decide +kernel)
        (by decide) (by decide +kernel)),
    meets_of (ready_of _ _ _ _ rfl (by decide) (by decide +kernel)) (by decide +kernel) (by decide +kernel)
      (barTest_of (odd := false) (off := 0) (w := 0x0000004000040000) (by decide +kernel) (by decide +kernel) (by decide +kernel)
        (by decide))⟩

/-- A BAR.WAIT for the phase before. -/
theorem witness_barrier_wakes : WakeMeets (.barWait fBar) (fun _ => eachOp (.barWait fBar) fBar) (fun _ => BarWaitAccess fBar)
    (withBarrier (stW (barArgs 0xFFF) (.barWait fBar))) :=
  wake_of (u := barArgs 0xFFF) rfl (by decide) (by decide +kernel) (by decide +kernel)
    (barWait_of (odd := false) (off := 0) (w := 0x0000004000040000) (by decide +kernel) (by decide +kernel) (by decide +kernel)
        (by decide) (by decide +kernel))

/-- Sixteen entries in mailbox 0 of the block, or one. -/
def pushed (n : Nat) (s : State) : State := (List.range n).foldl (fun s i => (s.push 0 0 i false).1) s
def fMbx : Fields := { plainFields with d := .v 8, a := .v 4, ty := .b128 }
def orderOp (i : Instr) (f : Fields) : Op := { endFrame i f with inOrder := true }

theorem push_of {i : Instr} {f : Fields} {eff : Eff} {o : State} {x : Nat} (hm : o.hasMailbox f = true)
    (hr : (o.drainThread o.focusGang.tag 0).map (fun u => (u.push u.focusGang.blk f.md.toNat (u.srcA i f 0) false).2) =
      some (.done x)) : ∃ t e, PushAccess i f eff o 0 t e := by
  obtain ⟨u, h1, h2⟩ := Option.map_eq_some_iff.mp hr
  exact ⟨_, _, rfl, hm, u, x, h1, pair_of h2⟩

theorem fullMbx_of {f : Fields} {o : State} (hm : o.hasMailbox f = true)
    (hr : (o.drainThread o.focusGang.tag 0).map (fun u => (u.push u.focusGang.blk f.md.toNat (u.srcA (.mbxPushTry f) f 0) false).2) =
      some .full) : ∃ t e, FullMailbox f o 0 t e := by
  obtain ⟨u, h1, h2⟩ := Option.map_eq_some_iff.mp hr
  exact ⟨_, _, rfl, hm, u, h1, pair_of h2⟩

theorem pop_of {f : Fields} {n : Nat} {o : State} {x : Nat} (h : o.settledIn = true ∧ o.hasMailbox f = true ∧
    o.earlierPop o.focusGang.blk f.md.toNat n = false) (hr : (o.pop o.focusGang.blk f.md.toNat).2 = .done x) :
    ∃ t e, PopAccess f n o 0 t e := ⟨_, _, h.1, h.2.1, h.2.2, _, x, pair_of hr, rfl, rfl⟩

/-- MailboxesComplete. -/
theorem witness_mailboxes :
    let u := barArgs 0
    let q : Fields := { fMbx with d := .p 1 }
    Meets (orderOp (.mbxPush fMbx) fMbx) fMbx (st 1 u) (gang16 u) (PushAccess (.mbxPush fMbx) fMbx Eff.none) ∧
      Meets (orderOp (.mbxPushTry q) q) q (st 1 u) (gang16 u) (PushAccess (.mbxPushTry q) q (Eff.pred q true flagNone)) ∧
      Meets (orderOp (.mbxPushTry q) q) q (pushed 16 (st 1 u)) (gang16 u) (FullMailbox q) ∧
      Meets (orderOp (.mbxPop fMbx) fMbx) fMbx (pushed 1 (st 1 u)) (gang16 u) (PopAccess fMbx 0) := by
  intro u q
  exact ⟨meets_of (ready_of _ _ _ _ rfl (by decide) (by decide +kernel)) (by decide +kernel) (by decide +kernel)
      (push_of (x := 0) (by decide +kernel) (by decide +kernel)),
    meets_of (ready_of _ _ _ _ rfl (by decide) (by decide +kernel)) (by decide +kernel) (by decide +kernel)
      (push_of (x := 0) (by decide +kernel) (by decide +kernel)),
    meets_of (ready_of _ _ _ _ (by decide +kernel) (by decide) (by decide +kernel)) (by decide +kernel) (by decide +kernel)
      (fullMbx_of (by decide +kernel) (by decide +kernel)),
    meets_of (ready_of _ _ _ _ (by decide +kernel) (by decide) (by decide +kernel)) (by decide +kernel) (by decide +kernel)
      (pop_of (x := 0) (by decide +kernel) (by decide +kernel))⟩

theorem witness_mailbox_wakes :
    WakeMeets (.mbxPush fMbx) (fun _ => orderOp (.mbxPush fMbx) fMbx) (fun _ => PushAccess (.mbxPush fMbx) fMbx Eff.none)
        (stW (barArgs 0) (.mbxPush fMbx)) ∧
      WakeMeets (.mbxPop fMbx) (fun _ => orderOp (.mbxPop fMbx) fMbx) (PopAccess fMbx)
        (pushed 1 (stW (barArgs 0) (.mbxPop fMbx))) :=
  ⟨wake_of (u := barArgs 0) (c := []) rfl (by decide) (by decide +kernel) (by decide +kernel)
      (push_of (x := 0) (by decide +kernel) (by decide +kernel)),
    wake_of (u := barArgs 0) (c := []) (by decide +kernel) (by decide) (by decide +kernel) (by decide +kernel)
      (pop_of (x := 0) (by decide +kernel) (by decide +kernel))⟩


/-! ## Witnesses: editions, special registers, calls, events -/

/-- Edition region 1 of address space 0, at a counter. -/
def withRegion (n : W32) (s : State) : State := { s with regions := [⟨0, 1, 0x10000, 0x1000, n⟩] }
/-- v4 holds 1. -/
def oneIn4 : Thread → Thread := vs [(4, 1)]
def fEd : Fields := { plainFields with d := .v 8, a := .v 4, ty := .n32 }

theorem ednext_of {f : Fields} {o : State} {r : Region} (hr : o.namedRegion (.ednext f) f 0 = some r)
    (hd : (o.drainThread o.focusGang.tag 0).isSome = true) : ∃ t e, EdnextAccess f o 0 t e := by
  obtain ⟨u, h⟩ := some_of hd
  by_cases hc : r.counter = 0xFFFFFFFF
  · exact ⟨_, _, r, u, hr, h, by rw [if_pos hc]; exact ⟨rfl, rfl⟩⟩
  · exact ⟨_, _, r, u, hr, h, by rw [if_neg hc]; exact ⟨rfl, rfl⟩⟩

theorem edsync_of {f : Fields} {o : State} {r : Region} (h0 : o.settledIn = true) (hr : o.namedRegion (.edsync f) f 0 = some r)
    (hb : (o.block? o.focusGang.blk).isSome = true) : ∃ t e, EdsyncAccess f o 0 t e := by
  obtain ⟨b, h⟩ := some_of hb
  exact ⟨_, _, h0, r, b, hr, h, rfl, rfl⟩

/-- EditionsComplete: EDNEXT of a counter, and of an exhausted one, and EDSYNC. -/
theorem witness_editions :
    Meets (endFrame (.ednext fEd) fEd) fEd (withRegion 7 (st 1 oneIn4)) (gang16 oneIn4) (EdnextAccess fEd) ∧
      Meets (endFrame (.ednext fEd) fEd) fEd (withRegion 0xFFFFFFFF (st 1 oneIn4)) (gang16 oneIn4) (EdnextAccess fEd) ∧
      Meets (endFrame (.edsync fEd) fEd) fEd (withRegion 7 (st 1 oneIn4)) (gang16 oneIn4) (EdsyncAccess fEd) :=
  ⟨meets_of (ready_of _ _ _ _ rfl (by decide) (by decide +kernel)) (by decide +kernel) (by decide +kernel)
      (ednext_of (r := ⟨0, 1, 0x10000, 0x1000, 7⟩) (by decide +kernel) (by decide +kernel)),
    meets_of (ready_of _ _ _ _ rfl (by decide) (by decide +kernel)) (by decide +kernel) (by decide +kernel)
      (ednext_of (r := ⟨0, 1, 0x10000, 0x1000, 0xFFFFFFFF⟩) (by decide +kernel) (by decide +kernel)),
    meets_of (ready_of _ _ _ _ rfl (by decide) (by decide +kernel)) (by decide +kernel) (by decide +kernel)
      (edsync_of (r := ⟨0, 1, 0x10000, 0x1000, 7⟩) (by decide +kernel) (by decide +kernel) (by decide +kernel))⟩

/-- An address space with a region and no launch. -/
theorem witness_release : let s := withRegion 7 State.reset
    (∀ x ∈ s.dist.launches, x.2.asid = 0 → x.2.status ≠ .none) ∧ ∃ r ∈ s.regions, r.asid = 0 := by
  decide +kernel

/-- SpecialRegisterInstructionsComplete: CLOCKL read, DRL, DEADLINE and a range guard written. -/
theorem witness_special_registers :
    let r : Fields := { plainFields with d := .v 8, a := .sr .clockL, ty := .n32 }
    let w (x : SReg) : Fields := { plainFields with d := .sr x, a := .v 4, ty := .n32 }
    let gop (f : Fields) : Op := { endFrame (.swrite f) f with gang := true }
    (frameOf (.sread r) r).Ready r (st 0xFFFF id) (gang16 id) ∧
      (endFrame (.swrite (w .drl)) (w .drl)).Ready (w .drl) (st 0xFFFF id) (gang16 id) ∧
      Meets (gop (w .deadH)) (w .deadH) (st 1 oneIn4) (gang16 oneIn4) (GangWrite (w .deadH)) ∧
      Meets (gop (w (.gstat 1))) (w (.gstat 1)) (st 1 oneIn4) (gang16 oneIn4) (GangWrite (w (.gstat 1))) := by
  exact ⟨ready_of _ _ _ id rfl (by decide) (by decide +kernel), ready_of _ _ _ id rfl (by decide) (by decide +kernel),
    meets_of (ready_of _ _ _ _ rfl (by decide) (by decide +kernel)) (by decide +kernel) (by decide +kernel)
      ⟨_, _, rfl, _, rfl, rfl, rfl⟩,
    meets_of (ready_of _ _ _ _ rfl (by decide) (by decide +kernel)) (by decide +kernel) (by decide +kernel)
      ⟨_, _, rfl, _, rfl, rfl, rfl⟩⟩

def fCall : Fields := { plainFields with a := .v 4, b := .v 10 }

/-- PorterCallsComplete: SYSC and SYSC.A of mailbox 0. -/
theorem witness_calls : ∀ async : Bool, let i : Instr := if async then .syscA fCall else .sysc fCall
    let s := st 1 oneIn4
    (opCall i fCall async).Ready fCall s (gang16 oneIn4) ∧ s.goLanes fCall (gang16 oneIn4) ≠ [] ∧
      CanAccess (CallAccess fCall async) (s.goLanes fCall (gang16 oneIn4)) (s.opened fCall (opCall i fCall async) (gang16 oneIn4)) := by
  have one {async : Bool} {o : State} (hm : o.mayEnter (clusterOf o.focus.key) (some o.focus.key) = true)
      (hf : o.focusGang.failedStores = 0 ∧ o.hasMailbox fCall = true) (h : (o.drainThread o.focusGang.tag 0).isSome = true) :
      CanAccess (CallAccess fCall async) [0] o := by
    obtain ⟨u, h⟩ := some_of h
    exact ⟨⟨u, _, hm, hf.1, fun _ => hf.2, h, rfl⟩, fun _ _ _ => trivial⟩
  have hg : (st 1 oneIn4).goLanes fCall (gang16 oneIn4) = [0] := by decide +kernel
  intro async
  refine ⟨?_, by decide +kernel, ?_⟩
  · cases async <;> exact ready_of _ _ _ _ rfl (by decide) (by decide +kernel)
  · rw [hg]
    cases async <;> exact one (by decide +kernel) (by decide +kernel) (by decide +kernel)

/-- A source held for the delivery queue of cluster 0. -/
def holding (h : HeldSrc) : State := (st 1 id).modCluster 0 fun c => { c with held := [h] }
def callEntry : DqEntry := ⟨.call, 0, 0, 9, 0, 0, 0⟩

/-- HeldSourcesEnter: an entry of the distributor, and a trap of LANE 15. -/
theorem witness_held_sources : let h := HeldSrc.dist callEntry
    let faults := [15].map fun l => LaneFault.plain l .zeroWord
    (((holding h).cluster 0).held[0]? = some h ∧ (holding h).heldTurn 0 0 h = true) ∧
      (holding (.trap 0 0x1000 0 faults)).gang? 0 = some (gang16 id) ∧ (holding (.trap 0 0x1000 0 faults)).mem.inflight = [] ∧
      (holding (.trap 0 0x1000 0 faults)).remoteStores (gang16 id).tag .none = false ∧ ((gang16 id).thread 15).tstate = .live ∧
      (∀ l, l < 16 → ((gang16 id).thread l).buf = []) ∧
        ((holding (.trap 0 0x1000 0 faults)).cluster 0).held[0]? = some (.trap 0 0x1000 0 faults) ∧
      (holding (.trap 0 0x1000 0 faults)).heldTurn 0 0 (.trap 0 0x1000 0 faults) = true := by
  decide +kernel

def fMon : Fields := { plainFields with d := .slot 3, a := .v 2, b := .v 4, ty := .n32, md := 1 }
def fArm (md : BitVec 4) : Fields := { plainFields with d := .slot 3, a := .v 4, b := .v 6, md := md, imm := 4 }
def evOp (i : Instr) (f : Fields) : Op := { endFrame i f with gang := true }

theorem mon_of {f : Fields} {o : State} {a pa pa' : Nat}
    (he : (o.eaAt o.focus.key 0 .glob (o.srcA (.mon f) f 0) f.ty.bytes .read).2.toOption = some (.glob a (.hbm pa) pa')) :
    ∃ t e, MonAccess f o 0 t e := ⟨_, _, rfl, _, a, pa, pa', ok_of he, rfl⟩

/-- EventSlotInstructionsComplete: EVARM of a batch level and of the timer. -/
theorem witness_event_slots :
    let u := vs [(2, 0x2000), (4, 5)]
    let d : Fields := { plainFields with d := .slot 3 }
    let c : Fields := { plainFields with a := .v 4 }
    Meets (evOp (.mon fMon) fMon) fMon (st 1 u) (gang16 u) (MonAccess fMon) ∧
      Meets (evOp (.evarm (fArm 1)) (fArm 1)) (fArm 1) (st 1 u) (gang16 u) (EvarmAccess (fArm 1)) ∧
      Meets (evOp (.evarm (fArm 4)) (fArm 4)) (fArm 4) (st 1 u) (gang16 u) (EvarmAccess (fArm 4)) ∧
      Meets (evOp (.evdis d) d) d (st 1 u) (gang16 u) (EvdisAccess d) ∧
      Meets (evOp (.evclr c) c) c (st 1 u) (gang16 u) (EvclrAccess c) := by
  exact ⟨meets_of (ready_of _ _ _ _ rfl (by decide) (by decide +kernel)) (by decide +kernel) (by decide +kernel)
      (mon_of (a := 0x2000) (pa := 0x2000) (pa' := 0x2000) (by decide +kernel)),
    meets_of (ready_of _ _ _ _ rfl (by decide) (by decide +kernel)) (by decide +kernel) (by decide +kernel)
      ⟨_, _, rfl, .batch 5, by decide +kernel, rfl⟩,
    meets_of (ready_of _ _ _ _ rfl (by decide) (by decide +kernel)) (by decide +kernel) (by decide +kernel)
      ⟨_, _, rfl, .timer, by decide +kernel, rfl⟩,
    meets_of (ready_of _ _ _ _ rfl (by decide) (by decide +kernel)) (by decide +kernel) (by decide +kernel) ⟨_, _, rfl, rfl⟩,
    meets_of (ready_of _ _ _ _ rfl (by decide) (by decide +kernel)) (by decide +kernel) (by decide +kernel) ⟨_, _, rfl, rfl⟩⟩

/-- A gang whose slot 3 is armed for the timer with a handler at 0x1800, and is pending. -/
def armedGang : Gang := { gang16 id with slots := [(3, ⟨some (.timer, 0x1800), .none⟩)], epend := 8, emask := 8, deadline := 1 }
def stG (lanes : Lanes) (g : Gang) : State := { st lanes id with gangs := [(0, g)], clock := 5 }
def fWait : Fields := { plainFields with a := .lit, imm := 8 }

/-- WAITANY, with every thread at it. -/
theorem witness_waitany : let s := stG 0xFFFF armedGang
    let op := endFrame (.waitany fWait) fWait
    s.gang? s.focus.key = some armedGang ∧ readyNow op fWait s armedGang = true ∧ armedGang.Quiet ∧
      armedGang.parked = .none ∧ armedGang.heldResumes = 0 ∧ armedGang.stalled = 0 ∧ s.goLanes fWait armedGang ≠ [] ∧
      (∀ l ∈ s.focusLanes armedGang, (armedGang.thread l).tstate = .live) ∧
      (∀ l, l < armedGang.width → l ∈ s.focusLanes armedGang) ∧
      armedGang.maskOf fWait ((s.goLanes fWait armedGang).headD 0) = BitVec.twoPow 16 3 ∧
      (Tab.getD armedGang.slots 3 .fresh).armed = some (.timer, 0x1800) ∧ armedGang.epend.getLsbD 3 = true ∧
      armedGang.holdsToken 3 = false := by
  refine ⟨rfl, by decide +kernel, ⟨rfl, rfl, 0, by decide, by decide⟩, rfl, rfl, rfl, by decide +kernel, by decide +kernel,
    by decide +kernel, by decide +kernel, by decide +kernel, by decide +kernel, by decide +kernel⟩

/-- A parked group of all threads. -/
theorem witness_parked : let r : Gather := ⟨0x1000, .waitany fWait, 0, 0xFFFF, 0⟩
    let g := { armedGang with parked := some r }
    let s := stG 0 g
    ∃ gu : Gang, s.gang? 0 = some g ∧ g.parked = some r ∧ g.gstate = .running ∧ g.epend &&& g.emask &&& g.armed ≠ 0 ∧
      g.heldResumes = 0 ∧ g.gathers = [] ∧ g.collects = [] ∧ (s.evaluateSlots 0).gang? 0 = some gu ∧
      (gu.epend &&& gu.emask &&& gu.armed).getLsbD 3 = true ∧
      (∀ i, i < 3 → (gu.epend &&& gu.emask &&& gu.armed).getLsbD i = false) ∧ g.handler 3 = some 0x1800 ∧ g.holdsToken 3 = false := by
  intro r g s
  exact ⟨g, rfl, rfl, rfl, by decide +kernel, rfl, rfl, rfl, by decide +kernel, by decide +kernel, by decide +kernel, by decide +kernel, by decide +kernel⟩

/-- A DEADLINE that has passed. -/
theorem witness_deadline : (stG 0 armedGang).gang? 0 = some armedGang ∧ armedGang.deadline ≠ 0 ∧
    armedGang.deadline.toNat ≤ (stG 0 armedGang).clock ∧ armedGang.parked = .none := by decide +kernel


/-! ## Witnesses: sleep, producers, drafts, homes, scheduling -/

/-- SleepCompletes: SLEEP of a register in ten LANEs, and of no cycles. -/
theorem witness_sleep :
    let f : Fields := { plainFields with a := .v 4 }
    (frameOf (.sleep f) f).Ready f (st 0x3FF (vs [(4, 9)])) (gang16 (vs [(4, 9)])) ∧
      (frameOf (.sleep f) f).Ready f (st 0x3FF id) (gang16 id) ∧ ∀ r, f.a ≠ .sr r :=
  ⟨ready_of _ _ _ _ rfl (by decide) (by decide +kernel), ready_of _ _ _ _ rfl (by decide) (by decide +kernel),
    fun _ h => by simp at h⟩

/-- SleepsEnd: a sleep of five cycles, the second of two waits. -/
theorem witness_sleep_ends :
    let a : Wait := ⟨1, 0x1000, .cwait plainFields, 0, 3, 0, 0⟩
    let w : Wait := ⟨2, 0x1000, .sleep plainFields, 0, 4, 0, 5⟩
    let g := { gang16 id with waits := [a] ++ w :: [] }
    (stG 0 g).gang? 0 = some g ∧ (∀ x ∈ [a] ++ [], x.seq ≠ w.seq) ∧ w.n ≠ 0 ∧ w.since + w.n ≤ (stG 0 g).clock := by
  decide +kernel

def aProducer : Producer := ⟨7, 8, 2, 0x123456789, 1, some (2, true), true, true, 0x1000, 0, 0xF, .n64, [], .none⟩

/-- ProducersWriteBack: of a thread, and of a slice. -/
theorem witness_producers :
    let g := gang16 fun t => { t with pend := [aProducer] }
    let h := { gang16 id with slices := [{ SliceState.fresh with pend := [aProducer] }] }
    ((stG 0 g).gang? 0 = some g ∧ 15 < g.threads.length ∧ aProducer.ready = true ∧
      (g.thread 15).pend.find? (fun y => y.id = aProducer.id && y.ready) = some aProducer) ∧
    (stG 0 h).gang? 0 = some h ∧ (h.thread 3).pend.find? (fun y => y.id = aProducer.id && y.ready) = .none ∧
      3 / 4 < h.slices.length ∧ (h.slice (3 / 4)).pend.find? (fun y => y.id = aProducer.id && y.ready) = some aProducer := by
  decide +kernel

def aStore (op : StoreOp) (pl : Place) : StoreEntry := ⟨op, pl, 0x2000, 0, 4, 0x11223344, true, .none, 0, 0, 0, 0, (0, 0, 0), 0, 0⟩

/-- HeldDraftsCommit: a draft with a store in its buffer. -/
theorem witness_drafts : let g := gang16 fun t => { t with drain := true, buf := [aStore .write (.phys 0x2000)], drc := 5 }
    (stG 0 g).gang? 0 = some g ∧ 15 < g.threads.length ∧ (g.thread 15).drain = true ∧ g.busy 15 = false := by decide +kernel

/-- A state with one committed store, over a map with device 3. -/
def withStore (op : StoreOp) (pl : Place) : State :=
  let s := stR 0 id
  { s with mem := { s.mem with inflight := [aStore op pl] }, host := { s.host with hwbase := 0x10000, hwsize := 0x10000 } }

/-- CommittedStoresArePerformed, clause by clause: a scratchpad half, HBM, host memory, a reduction, another device. -/
theorem witness_committed_stores :
    (∀ s ∈ [withStore .write (.scratch 0 true 0xFFFC), withStore .write (.phys 0x2000),
        withStore .write (.phys (2 ^ 50 + 0x1FFFC)), withStore (.red 0 .n32) (.phys 0x2000), withStore .write (.phys (2 ^ 51 + 3 * 2 ^ 39))],
      ∀ e ∈ s.mem.inflight, s.mem.inflight = [] ++ e :: [] ∧ s.remoteStores e.tag (some e.lane) = false ∧
        ∀ j, j < e.size → s.mem.passedOver e j = false) ∧
    ((withStore .write (.scratch 0 true 0xFFFC)).block? 0).isSome = true ∧
    ((withStore .write (.phys 0x2000)).target 0x2000 = .hbm 0x2000 ∧ (withStore .write (.phys 0x2000)).mem.redq = []) ∧
    (withStore .write (.phys (2 ^ 50 + 0x1FFFC))).target (2 ^ 50 + 0x1FFFC) = .host (2 ^ 50 + 0x1FFFC) ∧
    (withStore (.red 0 .n32) (.phys 0x2000)).target 0x2000 = .hbm 0x2000 ∧
    (withStore .write (.phys (2 ^ 51 + 3 * 2 ^ 39))).target (2 ^ 51 + 3 * 2 ^ 39) = .remote 3 0 ∧
    ((withStore .write (.phys (2 ^ 51 + 3 * 2 ^ 39))).link.requests.filter fun r => r.dev = 3).length < 4096 ∧
    (withStore .write (.phys (2 ^ 51 + 3 * 2 ^ 39))).keySpent 3 = false := by
  decide +kernel

/-- The clauses on a store whose bytes a higher LANE has written, and on one that reaches its place no longer. -/
theorem witness_committed_stores_end :
    let s := { withStore .write (.phys 0x2000) with mem := { (withStore .write (.phys 0x2000)).mem with
      topped := [{ aStore .write (.phys 0x2000) with lane := 1 }] } }
    let u := withStore .write (.phys (2 ^ 51 + 5 * 2 ^ 39))
    (∀ e ∈ s.mem.inflight, e.op = .write ∧ e.size ≠ 0 ∧ ∀ j, j < e.size → s.mem.passedOver e j = true) ∧
      u.target (2 ^ 51 + 5 * 2 ^ 39) = .fail .remoteUnreachable ∧ (∃ g, u.gang? 0 = some g ∧ g.tag = (0, 0, 0) ∧ g.gstate ≠ .ended) ∧
      ∀ e ∈ u.mem.inflight, ∀ j, j < e.size → u.mem.passedOver e j = false := by
  exact ⟨by decide +kernel, by decide +kernel, ⟨_, rfl, by decide +kernel, by decide +kernel⟩, by decide +kernel⟩

/-- QueuedReductionsAreApplied: two reductions of two lines. -/
theorem witness_reductions :
    let e := aStore (.red 0 .n32) (.phys 0x2000)
    let x := aStore (.red 1 .i32) (.phys 0x2080)
    let s := { st 0 id with mem := { (st 0 id).mem with redq := [x] ++ e :: [] } }
    s.mem.redq = [x] ++ e :: [] ∧ (∀ y ∈ [x] ++ [], y.place.line ≠ .phys (lineOf 0x2000)) ∧
      NatSet.has s.mem.poison (atomOf 0x2000) = false ∧ NatSet.has s.mem.latent (atomOf 0x2000) = false ∧
      s.injects 0x2000 Ty.n32.bytes = false := by decide +kernel

/-- Two paths in slice 0, at 0x1000 and at 0x100C. -/
def forked (x : SliceState) : Gang := { gang16 id with
  threads := [Thread.fresh 0x1000, Thread.fresh 0x1000, Thread.fresh 0x100C, Thread.fresh 0x1018] ++ List.replicate 12 (Thread.fresh 0x1000)
  slices := x :: List.replicate 3 SliceState.fresh }

/-- SlicesEnterRotation, SlicesLeaveRotation. -/
theorem witness_rotation :
    let g := forked { SliceState.fresh with rotCount := 64 }
    let h := forked { SliceState.fresh with rot := some ⟨4, 0⟩ }
    let e := forked { SliceState.fresh with rot := some ⟨0x10, 3⟩ }
    ((stG 0 g).gang? 0 = some g ∧ 0 < g.slices.length ∧ (g.slice 0).rotCount = 64 ∧ (g.slice 0).rot = .none ∧
      minPc ((g.chooseFrom ((stG 0 g).skipped 0 g) 0).map fun i => (g.thread i).pc) = some 0x1000 ∧
      0x100C ∈ (g.liveOf 0).map (fun i => (g.thread i).pc) ∧
      ∀ i ∈ g.liveOf 0, (0x1000 : Pc) < (g.thread i).pc → (0x100C : Pc) ≤ (g.thread i).pc) ∧
    (h.slice 0).rot = some ⟨4, 0⟩ ∧ (e.slice 0).rot = some ⟨0x10, 3⟩ ∧ ∀ i ∈ e.liveOf 0, (0x10 : Lanes).getLsbD i = false := by
  decide +kernel

/-- Two gangs of core 0, in keys 0 and 1, one with slice 0 active and one with none. -/
def swapping (y b : Bool) (clock : Nat) : State :=
  let x (a y b : Bool) : SliceState := { SliceState.fresh with active := a, yielded := y, blocked := b }
  { st 0 id with
    gangs := [(0, { gang16 id with slices := x true y b :: List.replicate 3 (x false false false) }),
      (1, { gang16 id with slices := List.replicate 4 (x false false false) })]
    clock := clock }

/-- SwapsChangeTheActiveSet: into a free entry; for one that has yielded, for one that waits, and for an old one. -/
theorem witness_swaps :
    (swapping false false 0).swapFits 0 0 1 0xF = true ∧
    (∀ s ∈ [swapping true false 0, swapping false true 0, swapping false false 1024], s.swapFits 0 1 1 0xF = true ∧
      s.oldestReady 1 0xF (s.entryQuads 0 1) = true ∧ 0 ∈ (s.entryQuads 0 1).filter (s.entryQuads 1 0xF).contains) ∧
    (∃ a, (swapping true false 0).gang? 0 = some a ∧ (a.slice 0).yielded = true ∧ slicesOf 1 = [0]) ∧
    (swapping false true 0).waitingSlices 0 1 = true ∧
    ∃ a, (swapping false false 1024).gang? 0 = some a ∧ (a.slice 0).keepUntil ≤ (swapping false false 1024).clock ∧
      (∀ e ∈ (swapping false false 1024).entriesIn 0 0 true,
        (swapping false false 1024).enteredAt (0, 1) ≤ (swapping false false 1024).enteredAt e) ∧
      (swapping false false 1024).enteredAt (1, 0xF) + 1024 ≤ (swapping false false 1024).clock :=
  ⟨by decide +kernel, by decide +kernel, ⟨_, rfl, by decide +kernel, by decide +kernel⟩, by decide +kernel, _, rfl, by decide +kernel,
    by decide +kernel, by decide +kernel⟩


/-! ## Witnesses: copies -/

/-- LINEAR, 64 bytes in words, from offset 0x100 to offset 0x200 of the scratchpad, with given other bits. -/
def copyRec (more : Nat) : BitVec 512 :=
  BitVec.ofNat 512 (2 ^ 7 + 2 ^ 15 + 2 ^ 16 + 2 ^ 18 + 0x100 * 2 ^ 64 + 0x200 * 2 ^ 128 + 64 * 2 ^ 192 + more)

/-- The record stored at offset 64 of the block. -/
def withRecord (more : Nat) (s : State) : State := s.scratchWrite 0 false 64 64 (copyRec more).toNat false
def fCpy (md : BitVec 4) : Fields := { plainFields with a := .v 4, md := md }
/-- v4 holds 64. -/
def at64 : Thread → Thread := vs [(4, 64)]

/-- What `CopyAccess` asks for a record `r` of one part or more, the first CPY of its use, as one computation. -/
def beginsUse (f : Fields) (o : State) (odd : Bool) (off n : Nat) (r : BitVec 512) : Bool :=
  match o.block? o.focusGang.blk, o.drain fun x => x.tag == o.focusGang.tag with
  | some b, some u =>
    b.placeOf (coreOf o.focus.key) (o.srcA (.cpy f) f 0) 64 == some (odd, off) && !u.remoteStores o.focusGang.tag .none &&
      ((u.core (b.coreOfHalf odd)).uses.find? fun y => y.2.off = off && y.2.state == .gathering).isNone &&
      (u.readRecord o.focusGang.blk odd off).2.toOption == some r && recordValid b (b.coreOfHalf odd) r &&
      Tab.freeKey ((u.readRecord o.focusGang.blk odd off).1.core (b.coreOfHalf odd)).uses 0 64 == some n
  | _, _ => false

theorem cpy_new {f : Fields} {o : State} {odd : Bool} {off n : Nat} {r : BitVec 512} (h : beginsUse f o odd off n r = true)
    (ha : o.srcA (.cpy f) f 0 % 64 = 0) (hj : f.md.toNat % 4 < rParts r) (hrow : rRows r = false ∧ f.md.toNat / 4 % 2 = 0)
    (hl : (o.focusGang.level o.focusGang.openLevel).recs.length < 255) : ∃ t e, CopyAccess f o 0 t e := by
  unfold beginsUse at h
  split at h
  · rename_i b u hb hu
    simp only [Bool.and_eq_true, beq_iff_eq, Option.isNone_iff_eq_none, Bool.not_eq_true'] at h
    refine ⟨_, _, rfl, b, odd, off, u, hb, ha, h.1.1.1.1.1, hu, h.1.1.1.1.2, .inr ⟨_, r, n, h.1.1.1.2, ok_of h.1.1.2, h.1.2,
      ⟨hj, ?_, ?_, fun _ => hl⟩, h.2, rfl⟩⟩
    · simp [hrow]
    · simp [hrow]
  · simp at h

/-- What it asks of a CPY that joins a use, as one computation. -/
def joinsUse (f : Fields) (o : State) (odd : Bool) (off n : Nat) (x : CopyUse) : Bool :=
  match o.block? o.focusGang.blk, o.drain fun x => x.tag == o.focusGang.tag with
  | some b, some u =>
    b.placeOf (coreOf o.focus.key) (o.srcA (.cpy f) f 0) 64 == some (odd, off) && !u.remoteStores o.focusGang.tag .none &&
      ((u.core (b.coreOfHalf odd)).uses.find? fun y => y.2.off = off && y.2.state == .gathering) == some (n, x) &&
      x.blk == o.focusGang.blk && x.parts.all fun p => p.j != f.md.toNat % 4
  | _, _ => false

theorem cpy_join {f : Fields} {o : State} {odd : Bool} {off n : Nat} {x : CopyUse} (h : joinsUse f o odd off n x = true)
    (ha : o.srcA (.cpy f) f 0 % 64 = 0) (hj : f.md.toNat % 4 < rParts x.record)
    (hrow : rRows x.record = false ∧ f.md.toNat / 4 % 2 = 0)
    (hl : (o.focusGang.level o.focusGang.openLevel).recs.length < 255) : ∃ t e, CopyAccess f o 0 t e := by
  unfold joinsUse at h
  split at h
  · rename_i b u hb hu
    simp only [Bool.and_eq_true, beq_iff_eq, Bool.not_eq_true', List.all_eq_true, bne_iff_ne] at h
    refine ⟨_, _, rfl, b, odd, off, u, hb, ha, h.1.1.1.1, hu, h.1.1.1.2, .inl ⟨n, x, h.1.1.2, ⟨hj, ?_, ?_, fun _ => hl⟩, h.1.2,
      h.2, rfl⟩⟩
    · simp [hrow]
    · simp [hrow]
  · simp at h

/-- The use of the record with one part of two gathered. -/
def gatheringUse : CopyUse := ⟨5, 64, copyRec 16, 0, .gathering, [⟨0, 0, 0, 0, 0, 0⟩], [], [], [], false, false, false⟩
def runningUse (more : Nat) (bufs : List ChunkBuf) (acked : NatSet) : CopyUse :=
  ⟨5, 64, copyRec more, 0, .running, [⟨0, 0, 0, 0, 0, 0⟩], bufs, acked, [], false, false, false⟩

def cpyOp (md : BitVec 4) : Op := { endFrame (.cpy (fCpy md)) (fCpy md) with gang := true }

/-- CopyInstructionsComplete: CPY that begins a use of one part, and of two, and one that joins a use. -/
theorem witness_copies :
    Meets (cpyOp 0) (fCpy 0) (withRecord 0 (st 1 at64)) (gang16 at64) (CopyAccess (fCpy 0)) ∧
      Meets (cpyOp 1) (fCpy 1) (withRecord 16 (st 1 at64)) (gang16 at64) (CopyAccess (fCpy 1)) ∧
      Meets (cpyOp 1) (fCpy 1) ((st 1 at64).setUse 0 3 gatheringUse) (gang16 at64) (CopyAccess (fCpy 1)) :=
  ⟨meets_of (ready_of _ _ _ _ rfl (by decide) (by decide +kernel)) (by decide +kernel) (by decide +kernel)
      (cpy_new (odd := false) (off := 64) (n := 0) (r := copyRec 0) (by decide +kernel) (by decide +kernel) (by decide +kernel)
        (by decide +kernel) (by decide +kernel)),
    meets_of (ready_of _ _ _ _ rfl (by decide) (by decide +kernel)) (by decide +kernel) (by decide +kernel)
      (cpy_new (odd := false) (off := 64) (n := 0) (r := copyRec 16) (by decide +kernel) (by decide +kernel) (by decide +kernel)
        (by decide +kernel) (by decide +kernel)),
    meets_of (ready_of _ _ _ _ rfl (by decide) (by decide +kernel)) (by decide +kernel) (by decide +kernel)
      (cpy_join (odd := false) (off := 64) (n := 3) (x := gatheringUse) (by decide +kernel) (by decide +kernel) (by decide +kernel)
        (by decide +kernel) (by decide +kernel))⟩

/-- CBATCH of an empty level and of one with a record, CWAIT, CSTAT. -/
theorem witness_batches :
    let w : Fields := { plainFields with a := .v 4 }
    let c : Fields := { plainFields with d := .v 8, a := .v 4, ty := .n32 }
    let g (r : List BatchRec) : Gang := { gang16 id with levels := [(0, ⟨.opened, r⟩)] }
    Meets (opBatch plainFields) plainFields (st 1 id) (gang16 id) (BatchAccess plainFields) ∧
      (readyNow (opBatch plainFields) plainFields (stG 1 (g [⟨5, .none⟩])) (g [⟨5, .none⟩]) = true ∧
        ∃ t e, BatchAccess plainFields ((stG 1 (g [⟨5, .none⟩])).opened plainFields (opBatch plainFields) (g [⟨5, .none⟩])) 0 t e) ∧
      Meets (opCwait w) w (st 1 id) (gang16 id) (CwaitAccess w) ∧
      Meets { endFrame (.cstat c) c with gang := true } c (st 1 id) (gang16 id) (CstatAccess c) :=
  ⟨meets_of (ready_of _ _ _ id rfl (by decide) (by decide +kernel)) (by decide +kernel) (by decide +kernel)
      ⟨_, _, rfl, .inl ⟨by decide +kernel, rfl⟩⟩,
    ⟨by decide +kernel, _, _, rfl, .inr ⟨by decide +kernel, by decide +kernel, rfl⟩⟩,
    meets_of (ready_of _ _ _ id rfl (by decide) (by decide +kernel)) (by decide +kernel) (by decide +kernel)
      ⟨_, _, by decide +kernel, by decide +kernel, rfl, rfl⟩,
    meets_of (ready_of _ _ _ id rfl (by decide) (by decide +kernel)) (by decide +kernel) (by decide +kernel)
      ⟨_, _, by decide +kernel, rfl, rfl⟩⟩

/-- The same through their wakes. -/
theorem witness_copy_wakes :
    WakeMeets (.cpy (fCpy 0)) (fun _ => cpyOp 0) CopyStart (stW at64 (.cpy (fCpy 0)) [(9, 0, runningUse 0 [] [])]) ∧
      WakeMeets (.cbatch plainFields) (fun _ => opBatch plainFields) (fun _ => BatchAccess plainFields) (stW id (.cbatch plainFields)) ∧
      WakeMeets (.cwait plainFields) (fun _ => opCwait plainFields) (fun _ => CwaitAccess plainFields) (stW id (.cwait plainFields)) :=
  ⟨wake_of (u := at64) rfl (by decide) (by decide +kernel) (by decide +kernel)
      ⟨_, _, rfl, 9, 0, runningUse 0 [] [], 0, by decide +kernel, by decide +kernel, by decide +kernel, rfl⟩,
    wake_of (u := id) rfl (by decide) (by decide +kernel) (by decide +kernel) ⟨_, _, rfl, .inl ⟨by decide +kernel, rfl⟩⟩,
    wake_of (u := id) rfl (by decide) (by decide +kernel) (by decide +kernel) ⟨_, _, by decide +kernel, by decide +kernel, rfl, rfl⟩⟩

/-- CopyChunksMove: the one chunk of a LINEAR use, whose addresses translate and whose reads and writes are of this block, as one
computation. -/
def chunkNow (s : State) (c u n : Nat) (x : CopyUse) : Bool :=
  match x.chunks[n]? with
  | .none => false
  | some (lo, hi) =>
    match s.chunkSpots c x ((List.range (hi - lo)).map (lo + ·)) with
    | (_, .error _) => false
    | (s1, .ok l) =>
      match s1.chunkRead c u n x l with
      | (_, .none) => false
      | (s2, some cr) =>
        let y := x.setBuf ⟨n, cr.elems, [], [], false, false⟩
        match (s2.setUse c u y).chunkTargets c y cr.elems with
        | (_, .error _) => false
        | (s3, .ok ws) => cr.pending == [] &&
            (s3.chunkWrites c u n y (if rBytes x.record || rMode x.record == 6 then mergeAtoms ws else ws)).isSome

theorem movesChunk_of {s : State} {c u n : Nat} {x : CopyUse} (h : chunkNow s c u n x = true) : ∃ elems v, s.MovesChunk c u n x elems v := by
  unfold chunkNow at h
  split at h
  · simp at h
  rename_i lo hi hc
  split at h
  · simp at h
  rename_i s1 l hl
  split at h
  · simp at h
  rename_i s2 cr hr
  dsimp only at h
  split at h
  · simp at h
  rename_i s3 ws ht
  rw [Bool.and_eq_true, beq_iff_eq] at h
  obtain ⟨v, hv⟩ := some_of h.2
  refine ⟨cr.elems, v, lo, hi, s1, l, s2, s3, ws, _, hc, hl, ?_, rfl, ht, hv⟩
  rw [hr, ← h.1]

theorem witness_copy_chunks : let x := runningUse 0 [] []
    let s := (st 0 id).setUse 0 3 x
    (Tab.get? (s.core 0).uses 3 = some x ∧ x.state ≠ .gathering ∧ NatSet.has x.acked 0 = false ∧ NatSet.has x.stopped 0 = false ∧
      s.contextGone x.blk = false ∧ (∀ b ∈ x.bufs, b.n ≠ 0) ∧ rMode x.record ≠ 5) ∧ ∃ elems v, s.MovesChunk 0 3 0 x elems v :=
  ⟨by decide +kernel, movesChunk_of (by decide +kernel)⟩

/-- SRC_DONE on the barrier at offset 0, and VISIBLE there, in phase 0. -/
def signals : Nat := 2 ^ 21 + 2 ^ 22

/-- CopySourcesSignal. -/
theorem witness_copy_sources : let x := runningUse signals [⟨0, [], [], [], false, false⟩] []
    let s := withBarrier ((st 0 id).setUse 0 3 x)
    Tab.get? (s.core 0).uses 3 = some x ∧ x.state ≠ .gathering ∧ rSrcDone x.record = true ∧ x.srcDone = false ∧ x.chunks.length = 1 ∧
      (s.block? 0).map (fun b => b.placeOf 0 (16 * rField x.record 384 16) 16) = some (some (false, 0)) ∧
      (((s.setUse 0 3 { x with srcDone := true }).arrive 0 false 0 (rField x.record 32 12) 0 (-(x.bytes : Int))).2.2 = .accepted false) :=
  by decide +kernel

/-- CopiesBecomeVisible: on the barrier, and in the batch. -/
theorem witness_copies_visible :
    let x := { runningUse signals [⟨0, [], [], [], true, true⟩] [0] with srcDone := true }
    let s := withBarrier ((st 0 id).setUse 0 3 x)
    let y := runningUse 0 [⟨0, [], [], [], true, true⟩] [0]
    let s' := (st 0 id).setUse 0 3 y
    (Tab.get? (s.core 0).uses 3 = some x ∧ x.acked.length = x.chunks.length ∧ rOnBarrier x.record = true ∧
      (s.block? 0).map (fun b => b.placeOf 0 (16 * rField x.record 400 16) 16) = some (some (false, 0)) ∧
      (s.arrive 0 false 0 (rField x.record 44 12) 0 (-(x.bytes : Int))).2.2 = .accepted false) ∧
    Tab.get? (s'.core 0).uses 3 = some y ∧ y.acked.length = y.chunks.length ∧ rSrcDone y.record = false ∧
      rOnBarrier y.record = false ∧ y.parts = [⟨0, 0, 0, 0, 0, 0⟩] ∧ s'.gang? 0 = some (gang16 id) ∧ (gang16 id).blk = y.blk ∧
      (gang16 id).gidx = 0 ∧ (gang16 id).gstate ≠ .free ∧ (gang16 id).restoring = false := by
  decide +kernel


/-! ## Witnesses: the matrix engine -/

def lit (n : BitVec 32) : Fields := { plainFields with a := .lit, imm := n }

/-- BindingGangsWait: MBIND of set 3, of an unclaimed core and of one that the block has claimed. -/
theorem witness_mbind : let f := lit 3
    let op : Op := { endFrame (.mbind f) f with gang := true }
    let ok (s : State) : Prop := readyNow op f s (gang16 id) = true ∧ s.goLanes f (gang16 id) ≠ [] ∧
      (s.opened f op (gang16 id)).srcA (.mbind f) f ((s.goLanes f (gang16 id)).headD 0) = 3 ∧ (gang16 id).binding = .none ∧
      s.wishAt 0 (gang16 id).quad 3 0 0 = false ∧ Tab.get? (s.core 0).sets 3 = .none
    op.Ready f (st 0xFF id) (gang16 id) ∧ ok (st 0xFF id) ∧ ((st 0xFF id).core 0).owner = .none ∧
      ok ((st 0xFF id).modCore 0 fun c => { c with owner := some 0 }) := by
  exact ⟨ready_of _ _ _ id rfl (by decide) (by decide +kernel), by decide +kernel, by decide +kernel, by decide +kernel⟩

/-- The member of quadrant q. -/
def member (q : Nat) (x : List Issued) (w : List Wait) (wish : Option Nat) : Gang :=
  { gang16 id with quad := q, gidx := q, issued := x, waits := w, wish := wish, binding := if wish.isSome then .none else some (1, q) }

/-- Four gangs of one block on core 0. -/
def four (x : Nat → List Issued) (w : List Wait) (wish : Option Nat) : State :=
  { st 0 id with
    gangs := (List.range 4).map fun q => (q, member q (x q) w wish)
    cores := if wish.isSome then [] else [(0, { CoreState.fresh with sets := [(1, [0, 1, 2, 3])], owner := some 0 })] }

def bindWait : Wait := ⟨0xFF, 0x1000, .mbind (lit 1), 0, 9, 0, 0⟩

/-- MatrixSetsForm. -/
theorem witness_matrix_sets : let s := four (fun _ => []) [bindWait] (some 1)
    s.formingBlock 0 1 = 0 ∧ (∀ q, q < 4 → s.wisher 0 1 0 q = some (q, member q [] [bindWait] (some 1)) ∧
      s.gang? q = some (member q [] [bindWait] (some 1))) ∧
    (member 3 [] [bindWait] (some 1)).Quiet := by
  exact ⟨by decide +kernel, by decide +kernel, ⟨rfl, rfl, 0, by decide, by decide⟩⟩

/-- MatrixGangInstructionsComplete. -/
theorem witness_matrix_gang : let u : Gang := member 0 [] [] .none
    let s := { four (fun _ => []) [] .none with focus := ⟨0, 1, 0x1000, 0, 0⟩ }
    let m : Fields := { plainFields with d := .guard 2, a := .v 4, md := 1 }
    (readyNow { endFrame (.mbindU plainFields) plainFields with gang := true } plainFields s u = true ∧
      ∃ t e, UnbindAccess plainFields (s.opened plainFields { endFrame (.mbindU plainFields) plainFields with gang := true } u) 0 t e) ∧
    Meets { endFrame (.mrgd m) m with gang := true } m (st 1 id) (gang16 id) (RangeAccess m) :=
  ⟨⟨by decide +kernel, _, _, rfl, 1, 0, by decide +kernel, by decide +kernel, rfl⟩,
    meets_of (ready_of _ _ _ id rfl (by decide) (by decide +kernel)) (by decide +kernel) (by decide +kernel) ⟨_, _, rfl, 2, rfl, rfl⟩⟩

def fMma (md : BitVec 4) (ty : Ty) : Fields :=
  { plainFields with d := .tile 2, a := .v 4, b := .v 6, ty := ty, md := md, imm := 5 }
def fImg : Fields := { plainFields with d := .tile 2, a := .v 4, ty := .f16 }
def fMsta : Fields := { plainFields with d := .guard 2, a := .v 4, b := .tile 2, ty := .bf16 }

/-- CollectivesIssue: every thread of a bound gang at MLDA. -/
theorem witness_collective_issue : let u : Gang := member 0 [] [] .none
    let s := { four (fun _ => []) [] .none with focus := ⟨0, 0xFFFF, 0x1000, 0, 0⟩ }
    (readyNow (opCollective (.mlda fImg) fImg) fImg s u = true ∧
      readyNow (opCollective (.mma (fMma 0 .n8)) (fMma 0 .n8)) (fMma 0 .n8) s u = true) ∧
      u.binding.isSome = true ∧ u.stalled = 0 ∧ s.goLanes fImg u ≠ [] ∧
      (∀ l ∈ s.focusLanes u, (u.thread l).tstate = .live) ∧ ∀ l, l < u.width → l ∈ s.focusLanes u := by
  decide +kernel

/-- Four issued collectives of one instruction, with A at 0x400 and C at 0x200. -/
def issuedAll (i : Instr) : State :=
  four (fun _ => [⟨0x1000, i, 0, 0xFFFF, 0x400, 0x20 + 0x20 * 2 ^ 16, List.replicate 16 [0, 0, 0, 0, 0, 0, 0, 0], .fresh, false⟩]) [] .none

theorem set_ready (i : Instr) : SetReady (issuedAll i) 0 1 0 [0, 1, 2, 3]
    (List.replicate 4 ⟨0x1000, i, 0, 0xFFFF, 0x400, 0x20 + 0x20 * 2 ^ 16, List.replicate 16 [0, 0, 0, 0, 0, 0, 0, 0], .fresh, false⟩) := by
  have h : ∀ q, q < 4 → Heads (issuedAll i) 0 q
      ⟨0x1000, i, 0, 0xFFFF, 0x400, 0x20 + 0x20 * 2 ^ 16, List.replicate 16 [0, 0, 0, 0, 0, 0, 0, 0], .fresh, false⟩ := by
    intro q hq
    refine ⟨member q [_] [] .none, [], ?_, rfl, ⟨rfl, rfl, 0, Nat.zero_lt_succ _, by simp [member, gang16, Gang.thread, Thread.fresh]⟩, rfl,
      show 16 ≤ 64 by omega, rfl⟩
    match q, hq with
    | 0, _ | 1, _ | 2, _ | 3, _ => rfl
  refine ⟨rfl, rfl, by decide, ?_, ?_⟩
  · exact .cons (h 0 (by omega)) (.cons (h 1 (by omega)) (.cons (h 2 (by omega)) (.cons (h 3 (by omega)) .nil)))
  · simp [agree]

theorem scratchRead_sound {s : State} {blk : Nat} {b : Block} (hb : s.block? blk = some b) (hj : s.rel.inj.armed = false) {odd : Bool}
    (hp : (b.half odd).poison = []) (hl : (b.half odd).latent = []) (off n : Nat) :
    s.scratchRead blk odd off n = (s, .data (s.scratchBytes blk odd off n)) := by
  have hn (i : Nat) : NatSet.has [] i = false := rfl
  simp [State.scratchRead, State.scratchScan, hb, hj, hp, hl, hn]

/-- An image of sound granules reads without an error. -/
theorem readImage_sound {s : State} {blk : Nat} {b : Block} (hb : s.block? blk = some b) (hj : s.rel.inj.armed = false)
    (h : ∀ odd, (b.half odd).poison = [] ∧ (b.half odd).latent = []) (l : List (Bool × Nat)) : (s.readImage blk l).2.2 = 0 := by
  have go (l : List ((Bool × Nat) × Nat)) (x : Nat) : (l.foldl (fun (x : State × Nat × Nat) y =>
      match x.1.scratchRead blk y.1.1 y.1.2 16 with
      | (s, .data v) => (s, x.2.1 + 2 ^ (128 * y.2) * v, x.2.2)
      | (s, .bad k) => (s, x.2.1, if x.2.2 = 0 then k else x.2.2)) (s, x, 0)).2.2 = 0 := by
    induction l generalizing x with
    | nil => rfl
    | cons y l ih =>
      rw [List.foldl_cons]
      simp only [scratchRead_sound hb hj (h y.1.1).1 (h y.1.1).2]
      exact ih _
  exact go _ 0

theorem issuedAll_sound (i : Instr) (l : List (Bool × Nat)) : ((issuedAll i).readImage 0 l).2.2 = 0 :=
  readImage_sound (b := { placedBlock with width := 16 }) rfl rfl (fun odd => by cases odd <;> exact ⟨rfl, rfl⟩) l

/-- CollectivesStart: what each collective asks besides. -/
theorem witness_collective_start :
    (∀ i ∈ [Instr.mzero fImg, .mlda fImg, .msta fMsta, .mma (fMma 0 .n8), .mma (fMma 6 .f16)],
      ((issuedAll i).drain fun e => (e.core == 0) && (match e.place with | .scratch b _ _ => b == 0 | _ => false)).isSome = true ∧
      (((issuedAll i).core 0).tile (tileNamed i)).busy = 0) ∧
    ((issuedAll (.mlda fImg)).imageAt 0 0 0x400 (4096 * imageElem fImg.ty) 128).toOption = some (false, 0x400) ∧
    (((issuedAll (.msta fMsta)).core 0).tile 2).poison = false ∧ RangeGuard.fresh.act ≠ 2 ∧
    ((issuedAll (.mma (fMma 0 .n8))).imageAt 0 0 0x400 (64 * aRowBytes 0) 128).toOption = some (false, 0x400) ∧
    ((issuedAll (.mma (fMma 6 .f16))).imageAt 0 0 0x400 (64 * aRowBytes 6) 128).toOption = some (false, 0x400) ∧
    ((issuedAll (.mma (fMma 0 .n8))).scaleAt 0 0 0x200).toOption = some (halfGranules false 0x200 128) := by
  decide +kernel


/-! ## Witnesses: the distributor -/

/-- MmasAccumulate. -/
theorem witness_mma : let p : PendingMma := ⟨2, 6, 8, [], [], [], [], false, some 3⟩
    (((st 0 id).modCore 0 fun c => { c with mmas := [p] }).core 0).mmas = [p] := by decide +kernel

/-- A descriptor of one 16-wide gang and a record of one block, at 0x3000, for queue 17. -/
def aDesc : Nat := 16 * 2 ^ 64 + 2 ^ 73 + 16 * 2 ^ 80 + 64 * 2 ^ 96 + 32 * 2 ^ 105 + 0x1000 * 2 ^ 128 + 2 ^ 160 + 0x1000 * 2 ^ 192
def aRecord : Nat := 0x3000 + 2 ^ 128 + 2 ^ 160 + 2 ^ 192 + 0x40 * 2 ^ 256
def aLaunch : Launch := ⟨17, BitVec.ofNat 512 aRecord, BitVec.ofNat 512 aDesc, [], true, 0, 0, .none, false, false, .none⟩
def winReg : Nat := 0x3000000010000 + 0x1000 * 17
def ofValue (n x : Nat) : List W64 := (List.range n).map fun i => BitVec.ofNat 64 (x / 2 ^ (64 * i))

/-- A device up to the distributor, with one core enabled, to which a record has been written. -/
def posted (rec : Nat) : State :=
  let s := State.reset.placeTables.placeBytes 0x3000 64 aDesc
  { s with commits := [⟨.host, winReg, 0, ofValue 8 rec⟩], host := { s.host with ready := 0x1F }, dist := { s.dist with encore := 1 } }

/-- LaunchesArePosted: accepted, malformed, and to a full queue. -/
theorem witness_launch_post :
    (lwinQueue winReg = some 17 ∧ (posted aRecord).host.ready.getLsbD 4 = true ∧
      ((posted aRecord).dist.queues.length < Config.queueDepth) ∧
      (∀ x ∈ (posted aRecord).dist.launches, x.2.checked = true ∨ x.2.status ≠ .none) ∧
      (let l := { aLaunch with desc := 0, checked := false }
       (State.validate { posted aRecord with commits := [], dist := { (posted aRecord).dist with
         nextId := 1, launches := [(0, l)], queues := [(17, [0])] } } l).2.2 = .good)) ∧
    ({ aLaunch with record := BitVec.ofNat 512 (aRecord + 1) }).recordOk = false ∧
    Config.queueDepth ≤ (List.range Config.queueDepth).length := by
  decide +kernel

/-- The launch waiting in its queue. -/
def queued : State :=
  let s := posted aRecord
  { s with commits := [], dist := { s.dist with queues := [(17, [0])], launches := [(0, aLaunch)], nextId := 1 } }

/-- BlocksAreAdmitted. -/
theorem witness_admit : queued.noteStuck.heads = [(0, aLaunch)] ∧ aLaunch.progress ≠ 0 ∧ queued.noteStuck.heldBack 0 aLaunch = false ∧
    queued.noteStuck.restoreFirst aLaunch.prio = false ∧
      queued.noteStuck.placeFor 0 aLaunch aLaunch.nextBlock = some (0, [(0, 0, [0, 1, 2, 3])]) := by decide +kernel

/-- StarvedLaunchesSetGuards: the one core's slots are all in use. -/
def starving : State :=
  let s := queued
  { s with clock := 10 ^ 9, dist := { s.dist with launches := [(0, { aLaunch with stuck := some 0 })] }, gangs := (List.range 64).map fun i => (i, { Gang.blank with gstate := .running }) }

theorem witness_starved : let u := starving.noteStuck
    u.heads.find? u.starved = some (0, { aLaunch with stuck := some 0 }) ∧ u.candidate { aLaunch with stuck := some 0 } = some 0 := by
  decide +kernel

/-- RequestsAreAnswered: an answer to PREEMPT, to PLACE, and to nothing. -/
theorem witness_distack :
    let c : Commit := ⟨.porter 0, regSpace + 0x80, 0, ofValue 3 (8 + 0x60000 * 2 ^ 64)⟩
    let r (p : Bool) : DistRequest := ⟨8, p, 0, 0, true⟩
    let s (l : List DistRequest) : State := { st 0 id with commits := [c], dist := { (st 0 id).dist with requests := l } }
    (s []).commits = [c] ∧ c.reg = regSpace + 0x80 ∧
      (s [r true]).dist.requests.find? (fun x => x.tag = c.dword 0) = some (r true) ∧
      (s [r false]).dist.requests.find? (fun x => x.tag = c.dword 0) = some (r false) := by decide +kernel

/-- The gang of `gang16`, saved, with its block resident and no gang left on the core. -/
def savedOut : State :=
  let s := queued
  { s with
    blocks := [(0, { placedBlock with width := 16, gangs := [] })], commits := []
    dist := { s.dist with saved := [⟨gang16 id, 0x60000, 0, true, []⟩] } }

/-- SavedGangsArePlaced. -/
theorem witness_gang_place : savedOut.dist.saved[0]? = some ⟨gang16 id, 0x60000, 0, true, []⟩ ∧
    savedOut.placeable ⟨gang16 id, 0x60000, 0, true, []⟩ = some (0, 0, [0, 1, 2, 3]) ∧ savedOut.dqRoom 0 = true ∧
      (savedOut.cluster 0).held = [] ∧
    savedOut.gang? (savedOut.freeSlotOf 0) = .none := by decide +kernel

/-- A block with its one gang ended, resident or under eviction. -/
def endBlock (x : BlockState) : Block := { placedBlock with width := 16, endedGangs := [0], state := x }
def ending (x : BlockState) : State :=
  { queued with
    gangs := [(0, { gang16 id with gstate := .ended })], blocks := [(0, endBlock x)], clock := 10 ^ 9 }

/-- BlocksRetire, EvictionsCancelUses, BlockImagesAreSaved. -/
theorem witness_block_ends : ∀ x ∈ [BlockState.resident, .evicting],
    (ending x).block? 0 = some (endBlock x) ∧ (endBlock x).ngang ≤ (endBlock x).endedGangs.length ∧ (ending x).usesOf 0 = false ∧
      ((ending x).drainBlock 0 0).isSome = true ∧ (endBlock x).since + 50 * Config.cyclesPerUs ≤ (ending x).clock ∧
      (∀ kg ∈ (ending x).gangsOf 0, kg.2.gstate = .ended) ∧ (ending x).dist.requests = [] ∧ (ending x).cores = [] ∧
      (ending x).launch? 0 = some aLaunch := by decide +kernel

/-- BlocksAreRestored: a saved block with a claim on its tiles. -/
theorem witness_block_restore : let x := { endBlock .saved with endedGangs := [], gangs := [], claims := 1 }
    let s := { ending .resident with blocks := [(0, x)], gangs := [] }
    s.block? 0 = some x ∧ x.state = .saved ∧ s.restoreCore x = some 0 := by decide +kernel

/-- PushesAreJournalled: no block, a resident one, a saved one. -/
theorem witness_jpush : let c : Commit := ⟨.porter 0, regSpace + 0x100, 0, ofValue 4 0⟩
    let s (x : BlockState) : State := { ending x with commits := [c] }
    c.reg = regSpace + 0x100 ∧ (queued.block? 0 = .none) ∧
      ∀ x ∈ [BlockState.resident, .saved], (s x).block? 0 = some (endBlock x) ∧ (s x).launch? 0 = some aLaunch ∧
        aLaunch.status = .none ∧ 0 < (endBlock x).mailboxes ∧ (s x).coreDown 0 = false ∧
        ((ending x).push 0 0 0 true).2 = .done 0 ∧
        mbxOcc (Mem.readN (endBlock x).even.mem (mbxOff 0) 16) + journalled (endBlock x).journal 0 < 16 := by decide +kernel

/-- HeldWritesAreJournalled, FlushesAreAcknowledged, CoresArePowered. -/
theorem witness_cores :
    let s (p : Power) (l : List ((Nat × Nat × Nat) × Nat)) : State :=
      (ending .resident).modCore 3 fun c => { c with power := p, flushes := l }
    (s .gated []).coreDown 3 = true ∧ ((s .up [((0, 0, 0), 2)]).core 3).flushes[0]? = some ((0, 0, 0), 2) ∧
      (s .up [((0, 0, 0), 2)]).mem.inflight = [] ∧ (s .up [((0, 0, 0), 2)]).link.requests = [] ∧
      ((s .up []).core 3).power = .up ∧ (s .up []).coreEmpty 3 = true ∧ ((s .rising []).core 3).power = .rising := by decide +kernel

/-- The clauses on a push that the router holds: for a core that powers up, and after 4 µs. -/
theorem witness_router_holds :
    let h : HeldPush := ⟨0, 0, 0, 7, 0⟩
    let s (since : Nat) : State := { (ending .resident).modCore 0 fun c => { c with power := .rising, powerSince := since } with
      routerHold := [h] }
    (s (10 ^ 9)).routerWaits 0 = true ∧ (s 0).coreDown 0 = true ∧ (s 0).routerWaits 0 = false ∧
      (s 0).routerHold.filter (fun y => y.core = 0) = [h] ∧ (s 0).block? 0 = some (endBlock .resident) ∧ (s 0).launch? 0 = some aLaunch ∧
      0 < (endBlock .resident).mailboxes ∧
      mbxOcc (Mem.readN (endBlock .resident).even.mem (mbxOff 0) 16) + journalled (endBlock .resident).journal 0 < 16 := by decide +kernel


/-! ## Witnesses: the state port -/

theorem read_written (m : Mem) (a n x j : Nat) (h : j < n) : Mem.read (Mem.writeN m a n x) (a + j) = BitVec.ofNat 8 (x / 256 ^ j) := by
  induction n with
  | zero => omega
  | succ n ih =>
    rw [Mem.writeN, List.range_succ, List.foldl_append, List.foldl_cons, List.foldl_nil, mem_read_write]
    by_cases e : j = n
    · simp [e]
    · have hn : a + j ≠ a + n := by omega
      rw [if_neg hn]
      exact ih (by omega)

theorem nat_of_written (n x : Nat) : natOfBytes ((List.range n).map fun j => BitVec.ofNat 8 (x / 256 ^ j)) = x % 256 ^ n := by
  induction n generalizing x with
  | zero => simp [natOfBytes, Nat.mod_one]
  | succ n ih =>
    have h : (List.range (n + 1)).map (fun j => BitVec.ofNat 8 (x / 256 ^ j)) =
        BitVec.ofNat 8 x :: (List.range n).map fun j => BitVec.ofNat 8 (x / 256 / 256 ^ j) := by
      rw [List.range_succ_eq_map, List.map_cons, List.map_map]
      simp [Function.comp_def, Nat.div_div_eq_div_mul, Nat.pow_succ, Nat.mul_comm]
    rw [h]
    simp only [natOfBytes, List.foldr_cons] at ih ⊢
    rw [ih, Nat.pow_succ, Nat.mul_comm (256 ^ n), Nat.mod_mul]
    simp

/-- A memory with a header at an address and zeros after it. -/
def headed (a x : Nat) : Mem := Mem.writeN [] a 64 x

theorem headed_bytes (a x n : Nat) (h : 64 ≤ n) :
    (Mem.readBytes (headed a x) a n).drop 0x40 = List.replicate (n - 64) 0 ∧
      natOfBytes ((Mem.readBytes (headed a x) a n).take 64) = x % 256 ^ 64 := by
  constructor
  · apply List.ext_getElem
    · simp [Mem.readBytes]
    · intro i h1 h2
      simp only [Mem.readBytes, List.getElem_drop, List.getElem_map, List.getElem_range, List.getElem_replicate]
      rw [headed, mem_read_writeN_outside _ _ _ _ _ (by omega)]
      rfl
  · rw [← nat_of_written 64 x]
    congr 1
    apply List.ext_getElem
    · simp [Mem.readBytes]; omega
    · intro i h1 h2
      simp only [Mem.readBytes, List.getElem_take, List.getElem_map, List.getElem_range]
      exact read_written _ _ _ _ _ (by simp at h2; omega)

/-- The image of a gang of no registers but zeros. -/
def imageAtZero (g : Gang) (a : Nat) : Mem := headed a (g.imageHeader (crc32 (List.replicate (imageSize g.width - 64) 0)))

/-- A state in which porter 0 holds a handle and a selector, and the gang in slot 0 is given. -/
def port (g : Gang) (sel : W64) : State :=
  (stG 0 g).modPorter 0 fun p => { p with x := [(10, 0), (11, sel), (12, 0xFFFF)] }

/-- A gang of 16 threads that stand in a state. -/
def standing (x : TState) (y : GState) : Gang := { gang16 fun t => { t with tstate := x } with gstate := y }

/-- CustomInstructionsArePrivileged, PortReads: a stale handle, a selector of nothing, and v registers of a parked and of a live thread. -/
theorem witness_port_reads :
    let s := port (standing .trapped .running) 8
    let u := s.modPorter 0 fun p => { p with mode := .user }
    (u.porter 0).mode = .user ∧ s.mayRun 0 = true ∧ s.named 0 0x100 = .none ∧
      s.named 0 (((s.porter 0).rd 10).setWidth 16) = some (0, standing .trapped .running) ∧ selector (2 ^ 20) = .none ∧
      selector ((s.porter 0).rd 11).toNat = some (8, 0, 0) ∧
      ((standing .trapped .running).portRead 0 0 8 0).map (fun x => x.1.met (standing .trapped .running) 0) = some true ∧
      ((standing .live .running).portRead 0 0 8 0).map (fun x => x.1.met (standing .live .running) 0) = some false ∧
      ((standing .live .running).portRead 15 0 8 0).isNone = true := by decide +kernel

/-- PortWrites: a register of a parked thread, and a gang command. -/
theorem witness_port_writes :
    let g := standing .trapped .running
    selector 8 = some (8, 0, 0) ∧ (port g 8).named 0 0 = some (0, g) ∧
      ((g.portWrite 0 0 8 5).map fun x => x.1.met g 0) = some true ∧ selector 0x50001 = some (1, 0, 5) ∧
      (∀ c ∈ [0, 1, 2, 3], (g.portWrite c 15 5 0xFFFF).isSome = true ∨ (g.portWrite c 15 0 0xFFFF).isSome = true) := by decide +kernel

/-- GangsStop, GangsHalt, GangsAreReleased, GangImagesAreSaved, GangsAreCleared, GangsAreKilled. -/
theorem witness_gang_commands :
    (∀ g ∈ [standing .live .running, standing .live .halted, standing .ended .ended, standing .live .placed],
      (port g 0).named 0 0 = some (0, g) ∧ g.threads.length = g.width ∧ g.width ≤ 64 ∧ g.slices.length ≤ 16) ∧
    (standing .live .stopping).canHalt = true ∧
    (port (standing .live .halted) 0).areaAt 0x60000 (imageSize 16) = some 0x60000 ∧ (port (standing .live .halted) 0).mem.redq = [] := by
  decide +kernel

/-- GangsAreRestored: from an image of zeros. -/
def restorable : State :=
  let s := port (standing .live .placed) 0
  { s with
    mem := { s.mem with bytes := imageAtZero (standing .stopped .halted) 0x60000 }
    dist := { s.dist with saved := [⟨standing .stopped .halted, 0x60000, 0, true, []⟩] } }

theorem fits_of {s : State} {g : Gang} {a : Nat} (hm : s.mem.bytes = imageAtZero g a) (hh : ∀ c, g.imageHeader c < 2 ^ 192) :
    s.imageFits g a = true := by
  have hw : 64 ≤ imageSize g.width := by simp only [imageSize]; omega
  rw [State.imageFits, hm, imageAtZero]
  simp only [(headed_bytes a _ _ hw).1, (headed_bytes a _ _ hw).2, beq_iff_eq]
  exact Nat.mod_eq_of_lt (Nat.lt_trans (hh _) (by decide))

theorem restorable_bytes : restorable.mem.bytes = imageAtZero (standing .stopped .halted) 0x60000 := by
  simp only [restorable]

theorem witness_restore : restorable.named 0 0 = some (0, standing .live .placed) ∧
    (restorable.dist.saved.find? fun y => y.gang.blk = (standing .live .placed).blk ∧ y.gang.gidx = (standing .live .placed).gidx) =
      some ⟨standing .stopped .halted, 0x60000, 0, true, []⟩ ∧
    restorable.areaAt 0x60000 (imageSize 16) = some 0x60000 ∧ restorable.imageFits (standing .stopped .halted) 0x60000 = true := by
  refine ⟨rfl, rfl, rfl, fits_of restorable_bytes fun c => ?_⟩
  have hc := c.isLt
  simp only [Gang.imageHeader, standing, gang16, placedGang, Gang.blank]
  omega

/-- GangsResume: threads that are trapped, called, and stopped. -/
theorem witness_presume :
    ∀ g ∈ [standing .trapped .running, standing .caller .running, standing .stopped .halted],
      let s := port g 0
      s.mayRun 0 = true ∧ s.named 0 (((s.porter 0).rd 10).setWidth 16) = some (0, g) ∧ g.parked = .none ∧
        g.resumable ((s.porter 0).rd 12) = 0xFFFF ∧ g.gathers = [] ∧ g.collects = [] ∧ (g.thread 0).tstate ≠ .ended := by
  decide +kernel


/-! ## Witnesses: messages, invalidation, porters' accesses, registers -/

/-- The state of `port` with given x10 and x11. -/
def regs2 (a b : W64) (s : State) : State := s.modPorter 0 fun p => { p with x := [(10, a), (11, b)] }
def dataOf : Transfer → Option Nat
  | .data x => some x
  | _ => .none

/-- PortersSend: to channel 3 of porter 47, empty and full, and to mailbox 0 of the gang in slot 0. -/
theorem witness_pmsend :
    let s := regs2 (47 + 3 * 64) 0x3000 (stG 0 (standing .live .running))
    let u := regs2 (2 ^ 31) 0x3000 (stG 0 (standing .live .running))
    s.mayRun 0 = true ∧ dataOf (s.operandRead 0 0x3000 64).2 = some 0 ∧ bits (47 + 3 * 64) 0 6 < Config.numClusters ∧
      bits (47 + 3 * 64) 6 2 = 3 ∧ (Tab.getD (s.cluster 47).channels 3 []).length < Config.channelDepth ∧
      Config.channelDepth ≤ (List.range Config.channelDepth).length ∧
      u.mayRun 0 = true ∧ dataOf (u.operandRead 0 0x3000 16).2 = some 0 ∧ bits (2 ^ 31) 20 6 < Config.numClusters ∧
      u.named 0 (BitVec.ofNat 16 (2 ^ 31)) = some (0, standing .live .running) ∧
      (u.block? 0).map (fun b => (decide (0 < b.mailboxes), u.coreDown b.core)) = some (true, false) ∧
      (match (u.push 0 0 0 true).2 with | .done _ => true | _ => false) = true := by decide +kernel

def aCall : CallRec := ⟨7, 0, 0, false, 0, 0, 0x1000, [⟨3, [], 1⟩], 1⟩

/-- PortersReceive: the delivery queue, a channel, neither, a call record, none. -/
theorem witness_pmrecv :
    let s (a : W64) := (regs2 a 0x3000 (stG 0 (standing .caller .running))).modCluster 0 fun c =>
      { c with dq := [callEntry], channels := [(2, [⟨5, 0x1234⟩])] }
    let u := (s 7).modCore 0 fun c => { c with calls := [aCall] }
    ((s 0).mayRun 0 = true ∧ (s 2).mayRun 0 = true ∧ (s 7).mayRun 0 = true) ∧ ((s 7).cluster 0).dq = [callEntry] ∧
      ((s 0).cluster 0).head? 0 = .none ∧
      (dataOf ((s 7).operandWrite 0 0x3000 1 callEntry.bytes).2).isSome = true ∧
      Tab.getD ((s 2).cluster 0).channels 2 [] = [⟨5, 0x1234⟩] ∧ (dataOf ((s 2).operandWrite 0 0x3000 1 0x1234).2).isSome = true ∧
      (s 2).drives = [] ∧ (s 7).callRec 0 7 = .none ∧ u.callRec 0 7 = some aCall ∧
      (dataOf (u.operandWrite 0 0x3000 2 (u.recordOf aCall)).2).isSome = true := by decide +kernel

/-- TranslationsAreKept: a walk of the placed tables, and a timer whose time has come. -/
theorem witness_walk :
    let s := (stG 0 (gang16 id)).modPorter 0 fun p => { p with menvcfg := BitVec.twoPow 64 63, stimecmp := 5 }
    (s.cluster 0).tlb = [] ∧ (s.walk 0 0 0x40 0x1000).2 = .leaf 0xBF 0 ∧ (s.porter 0).menvcfg.getLsbD 63 = true ∧
      (s.porter 0).stimecmp.toNat ≤ s.clock % 2 ^ 64 := by decide +kernel

/-- InvalidationsComplete: both scopes, and one that nothing keeps. -/
theorem witness_tlbi :
    let t : Tlbi := ⟨1, true, 0, false, false, 0, 1⟩
    let s := (stG 0 (gang16 id)).modPorter 0 fun p => { p with tlbis := [t], ticket := 1 }
    ((⟨.porter 0, 0x9C3, 0, [0]⟩ : Commit).dword 0 = 0 ∧ (⟨.porter 0, 0x9C3, 0, [1]⟩ : Commit).dword 0 = 1) ∧
      ((stG 0 (gang16 id)).porter 0).tlbis.length < 16 ∧
      (s.porter 0).tlbis = [t] ∧ s.draftCovered 0 t = false ∧ s.chunkCovered 0 t = false ∧
      ((s.drain fun e => t.inScope 0 (e.core / 4) && t.coversEntry e).map fun u => (u.link.requests, (u.porter 0).tlbis)) =
        some ([], [t]) := by decide +kernel

/-- EnginesResume: use 3 of core 2, with and without ABORT. -/
theorem witness_engine_resume : let x : CopyUse := { runningUse 0 [] [] with state := .paused }
    let s := (st 0 id).setUse 2 3 x
    (∀ d ∈ [0x83, 0x183], let c : Commit := ⟨.porter 0, 0x9C5, 0, [BitVec.ofNat 64 d]⟩
      2 = 4 * writerCluster c.writer + bits (c.dword 0) 6 2 ∧ 3 = bits (c.dword 0) 0 6) ∧ s.pausedUse 2 3 = some x := by decide +kernel

/-- PorterAccessesComplete: the last dword of a line, read, written and updated; a misaligned address. -/
theorem witness_porter_accesses :
    let s := regs2 0x2018 0x2001 (stG 0 (gang16 id))
    s.porterWaits 0 = false ∧ (s.porter 0).ea 10 0x20 = 0x2038 ∧ (s.porter 0).ea 11 0 % 2 = 1 ∧
      (∀ a ∈ [Access.read, .write, .rmw], (s.porterTarget 0 0x2038 a).2.toOption = some (.hbm 0x2038, 0x2038)) ∧
      (match (s.agentRead 0x2038 8 (s.porterAsid 0 .read)).2 with | .data x => x == 0 | _ => false) = true ∧
      (s.porterTarget 0 0x2018 .rmw).2.toOption = some (.hbm 0x2018, 0x2018) ∧ (s.porter 0).fpOff = true ∧
      ((s.modPorter 0 fun p => { p with mstatus := 0x2000 }).porter 0).fpOff = false := by decide +kernel

/-- RegistersAreWritten: CSRs that the porter may write in machine mode, one that it may not, a register that the host does not
write, and the window of a device that waits for its image. -/
theorem witness_register_writes :
    let s := stG 0 (gang16 id)
    (∀ n ∈ [0x5C0, 0x5C1, 0x5C2, 0x5C3, 0x9C0, 0x9C1, 0x9C2], s.csrIllegal 0 n true = false) ∧ s.csrIllegal 0 0x9C4 true = true ∧
      s.accepts .host (0x40 / 8 * 8) = false ∧
      (let u := { s with trust := { s.trust with phase := .step 1, recovery := true, imageLen := .none } }
       u.takesImage = true ∧ u.host.busy = false) := by decide +kernel


/-! ## Witnesses: the host, the link, the complex -/

/-- A device with tables placed and every function usable. -/
def up : State := { st 0 id with host := { (st 0 id).host with ready := 0x1FF }, clock := 10 ^ 9 }

/-- HostAccessesComplete: usable and not, inside HBM and past its end. -/
theorem witness_host_access : let s := { up with host := { up.host with hdmBase := 0x1000 } }
    (st 0 id).cxlOpen = false ∧ s.rel.hbmSize < (s.rel.hbmSize + 0xFFF - s.host.hdmBase) + 2 ∧ s.cxlOpen = true ∧ 0xFFF < s.host.hdmBase ∧
      s.host.hdmBase ≤ 0x3000 ∧ 0x3000 - s.host.hdmBase + 64 ≤ s.rel.hbmSize ∧ s.mem.redq = [] ∧
      (s.hostReads 0x2000 64 true).2 = some 0 := by decide +kernel

def withPort (lanes : Nat) : State := { up with link := { up.link with ports := [(3, ⟨lanes, true, 0⟩)], droute := [(5, 0xC)] } }
def withStream (i : Nat) (x : Stream) : State := { withPort 8 with trust := { up.trust with streams := [(i, x)] } }
def aStream (st : StreamState) (used : Nat) : Stream := ⟨st, 7, 1, some (9, 2), used, true, 0, 0, false⟩

/-- FlitsAreReceived, PortsLoseLanes. -/
theorem witness_flits : (∀ l ∈ [8, 4, 2], (Tab.getD (withPort l).link.ports 3 .fresh).up = true ∧
      Tab.getD (withPort l).link.ports 3 .fresh = ⟨l, true, 0⟩) ∧ Tab.wf (withPort 2).link.droute = true ∧
    ((withPort 8).stream (rxStream 5)).state = .off ∧ (withPort 8).trust.conf = false ∧
    ((withStream (rxStream 5) (aStream .run 3)).stream (rxStream 5)).state = .run ∧
    ((withStream (rxStream 5) (aStream .run 3)).stream (rxStream 5)).next = some (9, 2) := by decide +kernel

/-- A request received from device 5 for this device, 1, whose window is the first 64 KiB. -/
def receiving (off : Nat) (applied : NatSet) : State :=
  { up with link := { up.link with
    devValid := true, devNum := 1, rwsize := 0x10000, incoming := [⟨5, 1, 7, .write 8 0x1234, off⟩], applied := [(4096 + 5, applied)] } }

/-- RequestsAreServedOnce: new, outside the window, and seen before. -/
theorem witness_requests :
    let x (off : Nat) : Incoming := ⟨5, 1, 7, .write 8 0x1234, off⟩
    (∀ off ∈ [0xFFF8, 0x10000], (receiving off []).link.incoming[0]? = some (x off) ∧ (x off).behind [] = false ∧
      (receiving off []).named? 1 = true ∧ (receiving off []).refusesUse (x off) = false ∧
      (receiving off []).muted 5 = false ∧ (receiving off []).streamDown 5 = false ∧
      ((receiving off []).setStream 5 (aStream .stopped 0)).muted 5 = true) ∧
    NatSet.has (Tab.getD (receiving 0 []).link.applied (x 0).stream []) 7 = false ∧
    NatSet.has (Tab.getD (receiving 0 [7]).link.applied (x 0).stream []) 7 = true ∧
    (receiving 0xFFF8 []).exports 0xFFF8 8 = true ∧ (receiving 0x10000 []).exports 0x10000 8 = false ∧ (receiving 0 []).mem.redq = [] := by
  decide +kernel

/-- A request outstanding toward device 5. -/
def requesting (src : RemoteSource) (g : Gang) : State :=
  { withPort 8 with
    gangs := [(0, g)], link := { (withPort 8).link with requests := [⟨5, 7, 0x40, .read 4, src, 3, 0, 0, []⟩] } }

/-- RequestsAreAnsweredOrFail: of a store, and of a load whose producer waits. -/
theorem witness_remote_answers :
    let q : Producer := { aProducer with ready := false, members := 0x8000 }
    let g := gang16 fun t => { t with pend := [q] }
    let a := requesting (.store (0, 0, 0) 0 0) g
    let b := requesting (.load 0 15 7 0x2000 0) g
    a.request? 5 7 = some ⟨5, 7, 0x40, .read 4, .store (0, 0, 0) 0 0, 3, 0, 0, []⟩ ∧
      a.unsent ⟨5, 7, 0x40, .read 4, .store (0, 0, 0) 0 0, 3, 0, 0, []⟩ = false ∧
      b.request? 5 7 = some ⟨5, 7, 0x40, .read 4, .load 0 15 7 0x2000 0, 3, 0, 0, []⟩ ∧ b.gang? 0 = some g ∧ g.producer 15 7 = some q ∧
      (g.thread 15).pend.find? (fun y => y.id = 7) = some q ∧ q.members.getLsbD 15 = true ∧
      q.isLoad = true ∧ (∀ y ∈ g.awaiting 7, y.2.acq = .none) ∧ a.dist.dones = [] ∧ a.timersRun 5 = true ∧
        2000 * Config.cyclesPerUs ≤ a.clock ∧ portsOf (a.routeMask 5) = [2, 3] ∧ a.keySpent 5 = false ∧
      g.gstate ≠ .ended := by decide +kernel

/-- The clauses on a group: one member of two has acknowledged, and then the last. -/
theorem witness_group_answers :
    let r (l : List Nat) : RemoteReq := ⟨0xF02, 7, 0x40, .write 4 1, .store (0, 0, 0) 0 0, 3, 0, 0, l⟩
    let s (l : List Nat) : State := { withPort 8 with link := { (withPort 8).link with requests := [r l] } }
    (∀ l ∈ [[1, 2], [2]], (s l).request? 0xF02 7 = some (r l) ∧ (s l).unsent (r l) = false) ∧
      (∃ m ∈ (r [1, 2]).left, m ≠ 2) ∧ ∀ m ∈ (r [2]).left, m = 2 := by decide +kernel

/-- A key written to PSKEY for stream 5. -/
def keyed (x : Stream) (next sw : Bool) : State :=
  { withStream 5 x with
    commits := [⟨.porter 0, pskeyReg, 0, [BitVec.ofNat 64 (5 + 2 ^ 13 * next.toNat + 2 ^ 14 * sw.toNat + 2 ^ 32 * 3), 1, 2, 3, 4]⟩] }

/-- KeysAreLoaded. -/
theorem witness_keys : ∀ st ∈ [StreamState.run, .stopped], ∀ n ∈ [true, false], ∀ w ∈ [true, false],
    let s := keyed (aStream st 0) n w
    (∀ c ∈ s.commits, HeadCommit s pskeyReg c { s with commits := [] } ∧ c.streamOf = 5 ∧ c.pskNext = n ∧ c.pskSwitch = w) ∧
      (s.stream 5).state = st ∧ (s.stream 5).next.map (·.1) = some 9 := by
  intro st hs n hn w hw s
  refine ⟨fun c hc => ⟨⟨?_, ?_, rfl⟩, ?_, ?_, ?_⟩, rfl, rfl⟩
  all_goals
    simp only [s, keyed, List.mem_singleton] at hc
    subst hc
    simp only [List.mem_cons, List.not_mem_nil, or_false] at hn hw
    rcases hn with rfl | rfl <;> rcases hw with rfl | rfl <;> rfl

/-- StreamsWearOut. -/
theorem witness_stream_wear :
    (∀ n ∈ [2 ^ 35, 2 ^ 36], ((withStream 5 (aStream .run n)).stream 5).state = .run ∧
      ((withStream 5 (aStream .run n)).stream 5).used = n) ∧
    ((withStream 5 (aStream .stopped 0)).stream 5).since + 100000 * Config.cyclesPerUs ≤ (withStream 5 (aStream .stopped 0)).clock ∧
    (withStream 5 (aStream .stopped 0)).link.requests = [] ∧
    ((withStream (rxStream 5) { aStream .run 0 with tagFails := 16 }).stream (rxStream 5)).tagFails = 16 := by decide +kernel

def aDrive (held : List Message) : Drive := ⟨4, true, 0x2000, 0x1000, 3 + 64 * 2, held, .none⟩

/-- DrivesAreServed. -/
theorem witness_drives : let s (h : List Message) : State := { up with drives := [(1, aDrive h)] }
    ((s []).drive 1).held = [] ∧ (Tab.getD ((s []).cluster 3).channels 2 []).length < Config.channelDepth ∧
      ((s [⟨0, 0⟩]).drive 1).held ≠ [] ∧ ((s []).drive 1).dmaBase ≤ 0x2FF0 ∧
      0x2FF0 + 16 ≤ ((s []).drive 1).dmaBase + ((s []).drive 1).dmaSize ∧ (s []).plainRange 0x2FF0 16 = true ∧
      ¬ 0x2FF1 + 16 ≤ ((s []).drive 1).dmaBase + ((s []).drive 1).dmaSize ∧ ((s []).readBytes 0x2FF0 16 0).1.drives = (s []).drives := by
  decide +kernel

/-- The clause on a DMA of another device's memory. -/
theorem witness_far_dma : let s := { stR 0 id with drives := [(1, { aDrive [] with dmaBase := 2 ^ 51, dmaSize := 2 ^ 50 })] }
    (s.drive 1).dmaBase ≤ 2 ^ 51 + 3 * 2 ^ 39 ∧ 2 ^ 51 + 3 * 2 ^ 39 + 16 ≤ (s.drive 1).dmaBase + (s.drive 1).dmaSize ∧
      s.farRange true (2 ^ 51 + 3 * 2 ^ 39) 16 = some (3, 0) ∧ s.link.requests = [] ∧ s.keySpent 3 = false := by decide +kernel

/-- A queue pair with one transmit descriptor of a whole frame and one receive descriptor; queue 2 of port 0. -/
def ringing (desc : Nat) : State :=
  ({ up with pairs := [(2, ⟨0x3000, 0x3800, 2 ^ 13, 1, 0, 1, 0, 0, false, [], false, []⟩), (0, ⟨0x3000, 0x3800, 2 ^ 13, 1, 0, 1, 0, 0, false, [], false, []⟩)] }.placeBytes
    0x3000 32 desc).placeBytes 0x3800 32 (0x4000 + 64 * 2 ^ 64)
def txDesc : Nat := 0x4000 + 64 * 2 ^ 64 + 2 ^ 80

/-- RingsAreServed: a frame sent, a malformed descriptor, a frame of 60 bytes received, and one with no ring. -/
theorem witness_rings :
    let x := (ringing txDesc).pair 2
    let frame : List (BitVec 8) := List.replicate 60 1
    x.enabled = true ∧ x.span x.txHead x.txTail ≠ 0 ∧ ((ringing txDesc).readDesc (x.descAt x.txBase x.txHead)).2 = some txDesc ∧
      (ringing txDesc).descOk txDesc = true ∧ (ringing txDesc).hasEop x (x.span x.txHead x.txTail) x.txHead = true ∧
      (ringing 0).descOk 0 = false ∧ frame.length ≤ maxFrame ∧ (ringing txDesc).steer 0 frame = 0 ∧
      (let y := (ringing txDesc).pair 0
       y.enabled = true ∧ y.span y.rxHead y.rxTail ≠ 0 ∧
         ((ringing txDesc).readDesc (y.descAt y.rxBase y.rxHead)).2 = some (0x4000 + 64 * 2 ^ 64) ∧
        ((ringing txDesc).readDesc (y.descAt y.rxBase y.rxHead)).1.descOk (0x4000 + 64 * 2 ^ 64) = true ∧
        frame.length ≤ bits (0x4000 + 64 * 2 ^ 64) 64 16) ∧
      (up.pair 0).enabled = false := by
  decide +kernel


/-! ## Witnesses: the bring-up, trust, reliability -/

/-- A device in a phase of its bring-up. -/
def booting (p : BootPhase) (f : Trust → Trust) : State :=
  { State.reset with trust := f { Trust.fresh with phase := p }, clock := 10 ^ 12 }

/-- The same with one committed write. -/
def writing (s : State) (reg : Nat) (data : List W64) : State := { s with commits := [⟨.porter 0, reg, 0, data⟩] }

theorem head_of (s : State) (reg : Nat) (data : List W64) :
    HeadCommit (writing s reg data) reg ⟨.porter 0, reg, 0, data⟩ { s with commits := [] } := ⟨rfl, rfl, rfl⟩

/-- BlocksAreWritten, ReleasesBegin. -/
theorem witness_release_begins :
    (∀ n ∈ [64, 16], let s := booting .held fun k => { k with inbox := [List.replicate n 5] }
      s.trust.phase = .held ∧ s.trust.inbox = List.replicate n 5 :: [] ∧ (List.replicate n (5 : Byte)).length = n) ∧
    (booting .held fun k => { k with pinScrub := true }).trust.pinScrub = true ∧
    (let k := (booting .held id).trust
     k.phase = .held ∧ k.pinScrub = false ∧ k.pinConf = k.prevConf ∧ k.pinRecovery = false) ∧
    (booting .scrub id).trust.scrubFail = 0 ∧ (booting .scrub fun k => { k with scrubFail := 1 }).trust.scrubFail ≠ 0 := by decide +kernel

/-- BootStepsComplete, BootsEnd. -/
theorem witness_boot_steps :
    (booting (.step 1) fun k => { k with imageLen := some 8192 }).trust.imageLen ≠ .none ∧ (booting (.step 2) id).trust.phase = .step 2 ∧
    (booting (.step 3) id).trust.phase = .step 3 ∧
      (booting (.step 4) fun k => { k with imageLen := some 8192 }).trust.imageLen = some 8192 ∧
    (let s := writing (booting (.step 5) fun k => { k with runSvn := [(1, 3)] }) (regSpace + 0x100018) [1]
     (∀ c ∈ s.commits, bits (c.dword 0) 0 1 = 1) ∧ s.trust.phase = .step 5 ∧ Tab.wf s.trust.runSvn = true) ∧
    (booting (.step 5) id).trust.phaseSince + 60000000 * Config.cyclesPerUs ≤ (booting (.step 5) id).clock ∧
    (booting (.step 1) id).trust.imageLen = .none ∧
    (booting (.step 1) id).trust.phaseSince + 10000000 * Config.cyclesPerUs ≤ (booting (.step 1) id).clock := by decide +kernel

/-- ImagesAreStaged: a recovery boot takes chunks and a total, whole and malformed. -/
theorem witness_staging :
    let s := booting (.step 1) fun k => { k with recovery := true }
    s.takesImage = true ∧ s.host.busy = false ∧ ({ s with host := { s.host with busy := true } }).host.busy = true ∧
      (∀ n ∈ [4096, 4095], let c : Commit := ⟨.host, windowSpace + 0x1FF010, 0, [BitVec.ofNat 64 n]⟩
        c.dword 0 % 2 ^ 32 = n) ∧ s.host.chunkOff.toNat % 4096 = 0 := by decide +kernel

/-- A request of the responder in a state of its connection. -/
def asking (op : Byte) (x : SpdmState) (ready : Bool) (p : List Byte) : State :=
  { booting .minimal fun k => { k with inbox := [[0x13, op] ++ List.replicate 9 0 ++ p], spdm := x } with
    host := { HostRegs.fresh with ready := if ready then 0x203 else 0x1 } }

/-- RespondersAnswerInOrder, VendorRequestsComplete: before READY.SPDM, out of order, in order; keys; slot commands. -/
theorem witness_responder :
    (asking 0x84 .idle false []).spdmReady = false ∧ (asking 0xE1 .idle true []).spdmReady = true ∧
      (asking 0xE1 .idle true []).trust.spdm ∉ [SpdmState.version] ∧ (asking 0xE1 .version true []).trust.spdm ∈ [SpdmState.version] ∧
      ((asking 0xE1 .idle true []).trust.inbox.headD []).getD 1 0 = SpdmCode.getCapabilities.request ∧
      (∀ o ∈ [0, 1, 2, 3, 9], let s := asking 0xFE .session true [BitVec.ofNat 8 o, 2, 0, 0, 4]
        s.spdmReady = true ∧ s.trust.spdm = .session ∧ s.trust.phase = .minimal ∧
          (payload (s.trust.inbox.headD [])).head? = some (BitVec.ofNat 8 o) ∧
          ((payload (s.trust.inbox.headD [])).getD 4 0).toNat < 5 ∧ (payload (s.trust.inbox.headD [])).getD 1 0 = 2) := by decide +kernel

/-- MeasurementsExtend: MEAS3 and MEAS4. -/
theorem witness_measurements : ∀ i ∈ [3, 4],
    bits ((⟨.porter 0, regSpace + 0x120200, 0, [1, 2, 3, 4, BitVec.ofNat 64 i]⟩ : Commit).dword 4) 0 3 = i := by decide +kernel

/-- ErrorsAreRecorded: storage that exists, a unit's first and second correctable error, a latent error. -/
theorem witness_errors :
    let s := { booting .booted id with gangs := [(0, gang16 id)], blocks := [(0, placedBlock)], cores := [] }
    let m := { s.mem with latent := [0x100], monitors := [⟨0, 0, 3, ⟨0x2000, 0x2000, .n32, 0, 5⟩, false⟩] }
    let u := { s with mem := m }
    s.trust.phase ≠ .scrub ∧ s.inHbm 0x2000 = true ∧ (s.block? 0).isSome = true ∧ s.gang? 0 = some (gang16 id) ∧ s.rel.ceLast = [] ∧
      (m.monitors[0]?).isSome = true ∧ NatSet.has u.mem.poison (atomOf 0x2000) = false ∧ u.injects (32 * atomOf 0x2000) 32 = false ∧
      NatSet.has u.mem.latent (atomOf 0x2000) = true := by decide +kernel

/-- ReliabilityRegistersAct: operands of ROWSPARE, ERRINJ. -/
theorem witness_reliability : (booting .booted id).inHbm (bits 0x2000 5 47 * 32) = true ∧ bits 0x2000 5 47 * 32 = 0x2000 ∧
    ∀ n ∈ [0, 1, 2, 3], bits ((⟨.porter 0, regSpace + 0x1230C0, 0, [BitVec.ofNat 64 n, 8]⟩ : Commit).dword 0) 0 2 = n := by decide +kernel

/-- CoresAreSparedAndRetired. -/
theorem witness_sparing :
    let s := { booting .booted id with dist := { Dist.fresh with encore := 0xF } }
    let busy := { s with rel := { s.rel with spareReq := some (2, 1, 4), usedSpares := [9] } }
    s.rel.spareReq = .none ∧ busy.rel.spareReq ≠ .none ∧ s.coreOpen 9 = false ∧ s.coreOpen 2 = true ∧
      NatSet.has s.rel.usedSpares (4 * 2 + 1) = false ∧ s.blocks = [] ∧ busy.rel.spareReq = some (2, 1, 4) ∧ busy.coreEmpty 2 = true ∧
      2 < Config.numCores ∧ NatSet.has s.rel.retiredCores 2 = false ∧
      ({ s with rel := { s.rel with retiring := [2] } }).retirable = some 2 := by decide +kernel

/-- R381, R383: an owner boot takes its image from the tree alone, whatever ORDER says; a host image is no image of it. -/
theorem test_owner_boots_from_the_tree :
    let s : State := { State.reset with
      trust := { Trust.fresh with phase := .step 1 }, host := { HostRegs.fresh with bootcfg := 0x901 } }
    s.sourceNow = 2 ∧ s.takesImage = false ∧ (s.deliverImage [1, 2]).trust.imageLen = some 2 := by decide +kernel

/-- R383: the porters of an XIP boot run in the region, where the kernel's payload stands. -/
theorem test_xip_kernel_base :
    let s : State := { State.reset with
      trust := { Trust.fresh with phase := .step 4 }, host := { HostRegs.fresh with bootcfg := 0x103, xipbase := 0x5000 } }
    s.sourceNow = 3 ∧ s.kernelBase = 2 ^ 50 + 0x5000 + 4096 * Config.xipKernelPage.val + 4096 := by
  exact ⟨by decide +kernel, rfl⟩


/-! ## Witnesses: words, steps, interrupts -/

/-- WordsRoundTrip: a store with every field in use. -/
theorem witness_round_trip :
    let f : Fields := { plainFields with neg := true, pred := 3, yld := true, keep := true, a := .s 10, b := .v 62, ty := .n64, md := 2, imm := 0xFFFFFFF8 }
    (Instr.stGRel f).wellFormed 64 32 = true ∧ (encode (.stGRel f)).isSome = true ∧
      ((encode (.stGRel f)).map fun w => (decode96 64 32 w).toOption) = some (some (.stGRel f)) ∧
      (encodeCustom (.presume 3 10 11 12)).isSome = true := by decide +kernel

/-- StepsRunTheDecodedInstruction: a commit, an event, a compute instruction, a porter's. -/
theorem witness_steps :
    (commitRow ⟨.host, regSpace + 0x123018, 0, [5]⟩).isSome = true ∧
    (let s := State.reset.withFetchWord 96 (word 0x1001C00A 0x02B00701 0xFFFFFFF8).toNat
     let u : State := { s with walked := [], agenda := s.agenda.drop 1 }
     let g := (u.gang? 0).getD .blank
     s.commits = [] ∧ s.fullDue = .none ∧ u.excess (coreOf 0) = .none ∧ g.heldResumes = 0 ∧ s.agenda.map (·.2) = [.issue 0 0] ∧
       (u.gang? 0).isSome = true ∧ u.mayIssue g = true ∧ (g.slice 0).active = true ∧
       (∀ i, i < g.slices.length → g.rotationDue 0 i = .none) ∧ g.slicePc (u.skipped 0 g) 0 = some 0x1000 ∧
       g.execMask (u.skipped 0 g) (g.inWait ||| u.callHeld 0) 0x1000 = 0xFFFFFFFF ∧
       ((u.fetchWords (coreOf 0) g.asid g.root 0x1000 3).2.toOption).isSome = true) ∧
    (let s := State.reset.withFetchWord 32 0x00C5850B
     s.commits = [] ∧ s.fullDue = .none ∧ s.agenda.map (·.2) = [.porter 0] ∧ s.portersRun = true ∧ s.porterWaits 0 = false ∧
       s.porterInterrupt 0 = .none ∧
       (s.porterFetch 0).2 = some (some 0x00C5850B, 4)) := by decide +kernel

/-- ExternalInterruptsPend: an entry in the queue whose bit of PIEN stands. -/
theorem witness_external_interrupt :
    let s := ((stG 0 (gang16 id)).modCluster 0 fun c => { c with dq := [callEntry] }).modPorter 0 fun p =>
      { p with pien := BitVec.allOnes 64, mie := 0x200, mstatus := 0x8 }
    (s.mipNow 0).testBit 9 = true ∧ s.porterInterrupt 0 = some (9, true) := by decide +kernel

/-- StepsKeepTheCanonicalForm, for the memory that an instruction was placed in. -/
theorem witness_canonical : Memory.wf (State.reset.withFetchWord 96 1) = true ∧ State.reset.host.window = [] ∧
    Mem.wf (placedBlock.even.mem) = true := by decide +kernel

end Sys2Proof.Tests
end

