-- ==== Sys2Proof/Proofs/FactoryCores.lean ====
section
/-! PROOFS. The cores that the factory left enabled (R2): twelve clusters are taken from the list of all, each once, and one core of each
is fused off. -/

namespace Sys2Proof.Config

/-- Taking clusters from a list without repetitions takes that many of its members, none twice. -/
theorem factoryClusters_taken (n : Nat) {l : List Nat} (hl : l.Nodup) (hn : n ≤ l.length) :
    (factoryClusters n l).Nodup ∧ (factoryClusters n l).length = n ∧ ∀ c ∈ factoryClusters n l, c ∈ l := by
  induction n generalizing l with
  | zero => simp [factoryClusters]
  | succ n ih =>
    have hlt : factoryPick n % l.length < l.length := Nat.mod_lt _ (by omega)
    have hmem : l.getD (factoryPick n % l.length) 0 ∈ l := by
      rw [List.getD_eq_getElem _ _ hlt]
      exact List.getElem_mem hlt
    obtain ⟨hnd, hlen, hsub⟩ := ih (hl.erase (l.getD (factoryPick n % l.length) 0))
      (by rw [List.length_erase_of_mem hmem]; omega)
    refine ⟨List.nodup_cons.2 ⟨fun h => ?_, hnd⟩, congrArg (· + 1) hlen, fun c hc => ?_⟩
    · exact (hl.mem_erase_iff.1 (hsub _ h)).1 rfl
    · rcases List.mem_cons.1 hc with rfl | hc
      · exact hmem
      · exact List.mem_of_mem_erase (hsub c hc)

/-- The clusters that lose a core. -/
theorem factoryClusters_of_device :
    (factoryClusters 12 (List.range numClusters)).Nodup ∧ (factoryClusters 12 (List.range numClusters)).length = 12 ∧
      ∀ c ∈ factoryClusters 12 (List.range numClusters), c < numClusters := by
  obtain ⟨hnd, hlen, hsub⟩ := factoryClusters_taken 12 (List.nodup_range (n := numClusters)) (by simp [numClusters])
  exact ⟨hnd, hlen, fun c hc => List.mem_range.1 (hsub c hc)⟩

theorem mem_disabledCores (c : Nat) :
    c ∈ disabledCores ↔ ∃ cl ∈ factoryClusters 12 (List.range numClusters), 4 * cl + (factoryCore cl).val = c := by
  simp [disabledCores]

theorem disabledCores_nodup : disabledCores.Nodup := by
  refine List.Nodup.map (fun a b h => ?_) factoryClusters_of_device.1
  have ha := (factoryCore a).isLt
  have hb := (factoryCore b).isLt
  omega

/-- Bits cleared one after the other are those of the list. -/
theorem getLsbD_foldl_clear (l : List Nat) (m : BitVec 192) (c : Nat) :
    (l.foldl (fun m c => m &&& ~~~BitVec.twoPow 192 c) m).getLsbD c = (m.getLsbD c && !l.contains c) := by
  induction l generalizing m with
  | nil => simp
  | cons d l ih =>
    rw [List.foldl_cons, ih, List.contains_cons]
    by_cases hc : c < 192
    · simp [hc, Bool.and_assoc, Bool.beq_eq_decide_eq]
    · simp [BitVec.getLsbD_of_ge _ _ (Nat.le_of_not_lt hc)]

theorem enabledCores_getLsbD (c : Nat) : enabledCores.getLsbD c = decide (c < 192 ∧ c ∉ disabledCores) := by
  rw [enabledCores, getLsbD_foldl_clear, BitVec.getLsbD_allOnes, Bool.decide_and]
  simp

/-- A list without repetitions, of numbers below n, leaves the others of them. -/
theorem length_filter_notMem {l : List Nat} (hl : l.Nodup) (n : Nat) (h : ∀ c ∈ l, c < n) :
    ((List.range n).filter fun c => decide (c ∉ l)).length = n - l.length := by
  have hp : ((List.range n).filter fun c => decide (c ∈ l)).Perm l := by
    refine (List.perm_ext_iff_of_nodup (List.nodup_range.filter _) hl).2 fun c => ?_
    simpa using h c
  have hs := List.length_eq_length_filter_add (l := List.range n) fun c => decide (c ∈ l)
  rw [hp.length_eq, List.length_range] at hs
  simp only [decide_not]
  omega

end Sys2Proof.Config

namespace Sys2Proof.Machine

/-- Settles O55: the enabled cores are all but twelve, and two disabled cores of a cluster would be two takings of it. -/
theorem factoryCoresAreEnabled : Obligations.FactoryCoresAreEnabled := by
  unfold Obligations.FactoryCoresAreEnabled
  obtain ⟨-, hlen, hlt⟩ := Config.factoryClusters_of_device
  refine ⟨?_, fun cl i j hi hj hci hcj hcl => ?_⟩
  · have hbound : ∀ c ∈ Config.disabledCores, c < 192 := by
      intro c hc
      obtain ⟨cl, hcl, rfl⟩ := (Config.mem_disabledCores c).1 hc
      have := (Config.factoryCore cl).isLt
      have : cl < 48 := hlt cl hcl
      omega
    have hcount := Config.length_filter_notMem Config.disabledCores_nodup 192 hbound
    have hall : (List.range 192).filter (fun c => Config.enabledCores.getLsbD c) =
        (List.range 192).filter fun c => decide (c ∉ Config.disabledCores) :=
      List.filter_congr fun c hc => by
        rw [Config.enabledCores_getLsbD]
        simp [List.mem_range.1 hc]
    rw [hall, hcount, Config.disabledCores, List.length_map, hlen]
  · have hone : ∀ k, k < 4 → Config.enabledCores.getLsbD (4 * cl + k) = false → k = (Config.factoryCore cl).val := by
      intro k hk hd
      have : 4 * cl + k < 192 := by simp only [Config.numClusters] at hcl; omega
      have hmem : 4 * cl + k ∈ Config.disabledCores := by
        rw [Config.enabledCores_getLsbD] at hd
        simpa [this] using hd
      obtain ⟨cl', -, he⟩ := (Config.mem_disabledCores _).1 hmem
      have := (Config.factoryCore cl').isLt
      obtain rfl : cl' = cl := by omega
      omega
    rw [hone i hi hci, hone j hj hcj]

end Sys2Proof.Machine
end

