-- ==== Sys2Proof/Proofs/Bytes.lean ====
section
/-! PROOFS. What bytes written little-endian read as (R8, R82). -/

namespace Sys2Proof

/-- Each byte after n bytes of a number have been written. -/
theorem mem_read_writeN (m : Mem) (a n x j : Nat) :
    Mem.read (Mem.writeN m a n x) j = if a ≤ j ∧ j < a + n then BitVec.ofNat 8 (x / 256 ^ (j - a)) else Mem.read m j := by
  induction n with
  | zero =>
    rw [if_neg (by omega)]
    rfl
  | succ n ih =>
    have hstep : Mem.writeN m a (n + 1) x = Mem.write (Mem.writeN m a n x) (a + n) (BitVec.ofNat 8 (x / 256 ^ n)) := by
      simp [Mem.writeN, List.range_succ]
    rw [hstep, mem_read_write, ih]
    by_cases hj : j = a + n
    · subst hj
      rw [if_pos rfl, if_pos (by omega), Nat.add_sub_cancel_left]
    · rw [if_neg hj]
      exact if_congr (by omega) rfl rfl

/-- Bytes read: the first, and the others above it. -/
theorem mem_readN_succ (m : Mem) (a n : Nat) : Mem.readN m a (n + 1) = (Mem.read m a).toNat + 256 * Mem.readN m (a + 1) n := by
  simp only [Mem.readN, List.range_succ_eq_map, List.foldr_cons, List.foldr_map]
  simp only [Nat.add_zero, Nat.succ_eq_add_one, Nat.add_assoc, Nat.add_comm 1]

/-- Bytes that are a number's, little-endian, read as it. -/
theorem mem_readN_of_bytes (m : Mem) (a n x : Nat) (h : ∀ i, i < n → Mem.read m (a + i) = BitVec.ofNat 8 (x / 256 ^ i)) :
    Mem.readN m a n = x % 256 ^ n := by
  induction n generalizing a x with
  | zero => simp [Mem.readN, Nat.mod_one]
  | succ n ih =>
    have hrest : Mem.readN m (a + 1) n = x / 256 % 256 ^ n := by
      refine ih (a + 1) (x / 256) fun i hi => ?_
      have hb := h (i + 1) (by omega)
      rwa [Nat.pow_succ', ← Nat.div_div_eq_div_mul, show a + (i + 1) = a + 1 + i by omega] at hb
    have hfirst : (Mem.read m a).toNat = x % 256 := by simpa using congrArg BitVec.toNat (h 0 (by omega))
    rw [mem_readN_succ, hrest, hfirst, Nat.pow_succ', Nat.mod_mul]

/-- Memories that agree on the bytes read read the same. -/
theorem mem_readN_congr (m m' : Mem) (a n : Nat) (h : ∀ i, i < n → Mem.read m (a + i) = Mem.read m' (a + i)) :
    Mem.readN m a n = Mem.readN m' a n := by
  induction n generalizing a with
  | zero => rfl
  | succ n ih =>
    rw [mem_readN_succ, mem_readN_succ, show Mem.read m a = Mem.read m' a from h 0 (by omega), ih (a + 1) fun i hi => ?_]
    have hi' := h (i + 1) (by omega)
    rwa [show a + (i + 1) = a + 1 + i by omega] at hi'

end Sys2Proof

namespace Sys2Proof.Machine

theorem bytesWritten_writeN (m : Mem) (a n x : Nat) : BytesWritten m (Mem.writeN m a n x) a n x :=
  fun b => mem_read_writeN m a n x b

/-- Settles O10: every byte of the write is the number's, and no other byte is written. -/
theorem memoryReadsBack : Obligations.MemoryReadsBack := by
  intro m a n x
  refine ⟨bytesWritten_writeN m a n x, mem_readN_of_bytes _ a n x fun i hi => ?_, fun b k hbk => ?_⟩
  · rw [mem_read_writeN, if_pos (by omega), Nat.add_sub_cancel_left]
  · exact mem_readN_congr _ _ b k fun i hi => mem_read_writeN_outside m a n x (b + i) (by omega)

end Sys2Proof.Machine
end

