-- ==== Sys2Proof/Proofs/BitFields.lean ====
section
/-! PROOFS. Bit fields of numbers: the bits of a number after one of its fields has been replaced. -/

namespace Sys2Proof.Machine

/-- A number by its bits below a field, the field, and the bits above. -/
theorem setBits_eq (x lo n v : Nat) :
    setBits x lo n v = 2 ^ lo * (2 ^ n * (x / 2 ^ lo / 2 ^ n) + v % 2 ^ n) + x % 2 ^ lo := by
  have hx : x = 2 ^ lo * (2 ^ n * (x / 2 ^ lo / 2 ^ n)) + bits x lo n * 2 ^ lo + x % 2 ^ lo := by
    conv_lhs => rw [← Nat.div_add_mod x (2 ^ lo), ← Nat.div_add_mod (x / 2 ^ lo) (2 ^ n), Nat.mul_add]
    rw [bits, Nat.mul_comm (_ % _)]
  rw [setBits, Nat.mul_add, Nat.mul_comm (2 ^ lo) (v % 2 ^ n)]
  omega

theorem testBit_setBits (x lo n v i : Nat) :
    (setBits x lo n v).testBit i = if lo ≤ i ∧ i < lo + n then v.testBit (i - lo) else x.testBit i := by
  have hlow : x % 2 ^ lo < 2 ^ lo := Nat.mod_lt _ (Nat.two_pow_pos lo)
  have hfield : v % 2 ^ n < 2 ^ n := Nat.mod_lt _ (Nat.two_pow_pos n)
  rw [setBits_eq, Nat.testBit_two_pow_mul_add _ hlow, Nat.testBit_two_pow_mul_add _ hfield]
  by_cases h1 : i < lo
  · rw [if_pos h1, if_neg (by omega), Nat.testBit_mod_two_pow]
    simp [h1]
  · rw [if_neg h1]
    by_cases h2 : i - lo < n
    · rw [if_pos h2, if_pos (by omega), Nat.testBit_mod_two_pow]
      simp [h2]
    · rw [if_neg h2, if_neg (by omega), Nat.testBit_div_two_pow, Nat.testBit_div_two_pow]
      congr 1
      omega

theorem bits_setBits_same (x lo n v : Nat) : bits (setBits x lo n v) lo n = v % 2 ^ n := by
  have hlow : x % 2 ^ lo < 2 ^ lo := Nat.mod_lt _ (Nat.two_pow_pos lo)
  rw [setBits_eq, bits, Nat.mul_add_div (Nat.two_pow_pos lo), Nat.div_eq_of_lt hlow, Nat.add_zero, Nat.mul_add_mod, Nat.mod_mod]

/-- A field of one bit. -/
theorem bits_one (x lo : Nat) : bits x lo 1 = (x.testBit lo).toNat := by
  rw [bits, Nat.pow_one, Nat.testBit_eq_decide_div_mod_eq]
  rcases Nat.mod_two_eq_zero_or_one (x / 2 ^ lo) with h | h <;> simp [h]

theorem testBit_bits_one (x lo : Nat) : (bits x lo 1).testBit 0 = x.testBit lo := by
  rw [bits_one]
  cases x.testBit lo <;> rfl

/-- A bit of a word made of a number. -/
theorem getLsbD_ofNat64 (x i : Nat) (h : i < 64) : (BitVec.ofNat 64 x).getLsbD i = x.testBit i := by
  rw [BitVec.getLsbD_ofNat, decide_eq_true h, Bool.true_and]

end Sys2Proof.Machine
end

