-- ==== Sys2Proof/Proofs/PorterExceptions.lean ====
section
/-! PROOFS. What a change of one porter leaves of the others, and what the taking of an exception by a porter makes of it
(R309, R344). -/

namespace Sys2Proof.Machine

@[simp] theorem State.porter_modPorter (s : State) (cl : Nat) (f : Porter → Porter) :
    (s.modPorter cl f).porter cl = f (s.porter cl) := by
  simp [State.porter, State.modPorter]

/-- A porter changed is the only one that changes. -/
theorem onlyPorter_modPorter (s : State) (cl : Nat) (f : Porter → Porter) : OnlyPorter s (s.modPorter cl f) cl (f (s.porter cl)) where
  cluster := by simp [State.modPorter, State.porter]
  others j hj := by simp [State.modPorter, hj]
  rest := rfl

/-- An exception goes to machine mode, or to supervisor mode where medeleg delegates it from a lower mode. -/
theorem porter_except_eq (p : Porter) (c : PorterCause) (tval : Nat) :
    p.except c tval = if p.exceptsToMachine c then p.enterM c.code tval false else p.enterS c.code tval false := by
  unfold Porter.except Porter.exceptsToMachine
  by_cases h1 : p.mode = .machine <;> by_cases h2 : p.medeleg.getLsbD c.code = true <;> simp [h1, h2]

theorem pmode_code_lt (m : PMode) : m.code < 4 := by cases m <;> decide

/-- The mode is stacked in MPP, the interrupt enable MIE in MPIE, and MIE is cleared. -/
theorem porter_enterM_mstatus (p : Porter) (cause tval : Nat) (intr : Bool) :
    let q := p.enterM cause tval intr
    q.mstatus.getLsbD 3 = false ∧ q.mstatus.getLsbD 7 = p.mstatus.getLsbD 3 ∧ bits q.mstatus.toNat 11 2 = p.mode.code := by
  have hmode := pmode_code_lt p.mode
  dsimp only [Porter.enterM]
  refine ⟨?_, ?_, ?_⟩
  · rw [getLsbD_ofNat64 _ _ (by omega), testBit_setBits, if_neg (by omega), testBit_setBits, if_pos (by omega), Nat.zero_testBit]
  · rw [getLsbD_ofNat64 _ _ (by omega), testBit_setBits, if_neg (by omega), testBit_setBits, if_neg (by omega), testBit_setBits,
      if_pos (by omega), testBit_bits_one]
    rfl
  · have h64 : ∀ x : Nat, bits (x % 2 ^ 64) 11 2 = bits x 11 2 := fun x => by simp only [bits]; omega
    rw [BitVec.toNat_ofNat, h64, bits_setBits_same]
    exact Nat.mod_eq_of_lt hmode

/-- The mode is stacked in SPP, the interrupt enable SIE in SPIE, and SIE is cleared. -/
theorem porter_enterS_mstatus (p : Porter) (cause tval : Nat) (intr : Bool) :
    let q := p.enterS cause tval intr
    q.mstatus.getLsbD 1 = false ∧ q.mstatus.getLsbD 5 = p.mstatus.getLsbD 1 ∧ q.mstatus.getLsbD 8 = (p.mode != .user) := by
  dsimp only [Porter.enterS]
  refine ⟨?_, ?_, ?_⟩
  · rw [getLsbD_ofNat64 _ _ (by omega), testBit_setBits, if_neg (by omega), testBit_setBits, if_pos (by omega), Nat.zero_testBit]
  · rw [getLsbD_ofNat64 _ _ (by omega), testBit_setBits, if_neg (by omega), testBit_setBits, if_neg (by omega), testBit_setBits,
      if_pos (by omega), testBit_bits_one]
    rfl
  · rw [getLsbD_ofNat64 _ _ (by omega), testBit_setBits, if_pos (by omega)]
    cases p.mode <;> rfl

/-- An exception of a porter is taken by it, and by nothing else of the device. -/
theorem porterTaken_porterExcept (s : State) (cl : Nat) (c : PorterCause) (tval : Nat) :
    PorterTaken s (s.porterExcept cl c tval) cl c.code tval false ((s.porter cl).exceptsToMachine c) := by
  refine ⟨_, onlyPorter_modPorter s cl _, ?_⟩
  rw [porter_except_eq]
  dsimp only
  split
  · obtain ⟨h1, h2, h3⟩ := porter_enterM_mstatus (s.porter cl) c.code tval false
    exact ⟨rfl, rfl, rfl, rfl, rfl, h1, h2, h3, rfl, rfl⟩
  · obtain ⟨h1, h2, h3⟩ := porter_enterS_mstatus (s.porter cl) c.code tval false
    exact ⟨rfl, rfl, rfl, rfl, rfl, h1, h2, h3, rfl, rfl⟩

end Sys2Proof.Machine
end

