-- ==== Sys2Proof/Proofs/RegisterWrites.lean ====
section
/-! PROOFS. What a register write does, by the register's kind (R12, R310, R345, R381, R385, R414). -/

namespace Sys2Proof.Machine

theorem exec_registerWrite (w : Writer) (r : RegTarget) (x : W64) (s : State) :
    exec (.registerWrite w r x) s = execRegisterWrite w r x s := rfl

/-- A write inside the register space is one of the dword that holds its address. -/
theorem execRegisterWrite_mmio (s : State) (w : Writer) (o : Nat) (x : W64) (ho : o < 2 ^ 32) :
    execRegisterWrite w (.mmio (regSpace + o)) x s = .next (s.regWrite w (o / 8 * 8) x) := by
  dsimp only [execRegisterWrite]
  rw [if_pos ⟨Nat.le_add_right _ _, Nat.add_lt_add_left ho _⟩, Nat.add_sub_cancel_left]

/-- A porter's write is accepted, but for the injection registers in confidential mode (R414, R415). -/
theorem accepts_porter (s : State) (cl o : Nat) (ho : ¬ (0x1230C0 ≤ o ∧ o < 0x1230D0)) : s.accepts (.porter cl) o = true := by
  simp [State.accepts, ho]

theorem regWrite_refused (s : State) (w : Writer) (o : Nat) (x : W64) (h : s.accepts w o = false) : s.regWrite w o x = s := by
  simp [State.regWrite, h]

/-- A register of one dword with a step of its own commits. -/
theorem regWrite_trigger (s : State) (w : Writer) (o : Nat) (x : W64) (ha : s.accepts w o = true) (hs : stagedReg o = none)
    (ht : triggerReg o = true) (ho : ¬ (0x200000 ≤ o ∧ o < 0x204000)) :
    s.regWrite w o x = s.commitReg ⟨w, regSpace + o, (o - 0x200000) / 64, [x]⟩ := by
  simp only [State.regWrite, ha, hs, ht, if_neg ho, Bool.not_true, Bool.false_eq_true, if_false, if_true]

/-- A register of one dword with no step of its own stores its fields. -/
theorem regWrite_plain (s : State) (w : Writer) (o : Nat) (x : W64) (ha : s.accepts w o = true) (hs : stagedReg o = none)
    (ht : triggerReg o = false) : s.regWrite w o x = s.writePlain o x.toNat := by
  simp only [State.regWrite, ha, hs, ht, Bool.not_true, Bool.false_eq_true, if_false]

/-- The plain registers that porters write. -/
theorem writePlain_regValue (s : State) (w : Writer) (x : Nat) (r : Nat × Nat × Nat)
    (hr : r ∈ [(0x40, 0, 16), (0x100040, 12, 38), (0x100048, 12, 38), (0x100050, 12, 27), (0x100058, 12, 27), (0x122040, 0, 13),
      (0x123008, 0, 8), (0x123040, 0, 8)]) :
    (s.writePlain r.1 x).regValue w r.1 = some (bits x r.2.1 r.2.2 * 2 ^ r.2.1) ∧ (s.writePlain r.1 x).gangs = s.gangs ∧
      (s.writePlain r.1 x).mem = s.mem := by
  simp only [List.mem_cons, List.not_mem_nil, or_false] at hr
  rcases hr with rfl | rfl | rfl | rfl | rfl | rfl | rfl | rfl <;>
    simp [State.writePlain, State.writeLink, State.writeTrust, State.regValue, State.linkReg, State.trustReg, bits]

/-- The fields of a device CSR that the porter writes. -/
theorem deviceCsr_csrWrite (s : State) (cl : Nat) (x : W64) (r : Nat × W64)
    (hr : r ∈ [(0x5C0, 0xFFFFFFFFFF001), (0x5C1, 0xFFFF), (0x5C2, 0x1F), (0x5C3, 0xFFFFFFFFFFFFF), (0x9C0, 0x3FFFF),
      (0x9C1, 0xFFFFFFFFFC0000), (0x9C2, 0x7FFFFFFFFF)]) :
    (s.csrWrite cl r.1 x).deviceCsr cl r.1 = some (x &&& r.2).toNat ∧ (s.csrWrite cl r.1 x).gangs = s.gangs ∧
      (s.csrWrite cl r.1 x).mem = s.mem := by
  simp only [List.mem_cons, List.not_mem_nil, or_false] at hr
  rcases hr with rfl | rfl | rfl | rfl | rfl | rfl | rfl <;>
    simp [State.csrWrite, State.deviceCsr, Porter.writeDevice, State.modPorter]

/-- A dword of the staging window's bytes, written while the ROM takes an image and is not busy. -/
theorem windowWrite_bytes (s : State) (o : Nat) (x : W64) (ht : s.takesImage = true) (hb : s.host.busy = false) (ho : o < 0x1FF000) :
    s.windowWrite o x = { s with host := { s.host with window := Mem.writeN s.host.window o 8 x.toNat } } := by
  have hge : ¬ 0x200000 ≤ o := by omega
  rw [State.windowWrite, if_neg (by simp [ht, hb, hge]), if_neg (by omega), if_neg (by omega), if_pos ho]

/-- Settles O49: each kind of register write by its own lemma; a porter writes the registers of one dword, so each offset named is a
dword's. -/
theorem registersAreWritten : Obligations.RegistersAreWritten := by
  intro s x cl
  refine ⟨fun r hr => ?_, fun o ho => ?_, fun r hr hlegal => ?_, fun n hn => ?_, fun o ho hna => ?_, fun off ht hb ho => ?_⟩
  · have hplain : r.1 < 2 ^ 32 ∧ r.1 / 8 * 8 = r.1 ∧ ¬ (0x1230C0 ≤ r.1 ∧ r.1 < 0x1230D0) ∧ stagedReg r.1 = none ∧
        triggerReg r.1 = false := by
      revert r
      decide
    obtain ⟨hlt, hdw, hinj, hst, htr⟩ := hplain
    obtain ⟨hval, hg, hm⟩ := writePlain_regValue s (.porter cl) x.toNat r hr
    refine ⟨s.writePlain r.1 x.toNat, ?_, hval, hg, hm⟩
    rw [exec_registerWrite, execRegisterWrite_mmio _ _ _ _ hlt, hdw, regWrite_plain _ _ _ _ (accepts_porter _ _ _ hinj) hst htr]
  · have htrigger : o < 2 ^ 32 ∧ o / 8 * 8 = o ∧ ¬ (0x1230C0 ≤ o ∧ o < 0x1230D0) ∧ stagedReg o = none ∧ triggerReg o = true ∧
        ¬ (0x200000 ≤ o ∧ o < 0x204000) := by
      revert o
      decide
    obtain ⟨hlt, hdw, hinj, hst, htr, hpair⟩ := htrigger
    rw [exec_registerWrite, execRegisterWrite_mmio _ _ _ _ hlt, hdw,
      regWrite_trigger _ _ _ _ (accepts_porter _ _ _ hinj) hst htr hpair, State.commitReg]
  · obtain ⟨hval, hg, hm⟩ := deviceCsr_csrWrite s cl x r hr
    exact ⟨s.csrWrite cl r.1 x, by simp [exec_registerWrite, execRegisterWrite, hlegal], hval, hg, hm⟩
  · exact ⟨s.porterExcept cl .illegal 0, by simp [exec_registerWrite, execRegisterWrite, hn], porterTaken_porterExcept s cl .illegal 0⟩
  · rw [exec_registerWrite, execRegisterWrite_mmio _ _ _ _ ho, regWrite_refused _ _ _ _ hna]
  · refine ⟨s.windowWrite (off / 8 * 8) x, by simp [exec_registerWrite, execRegisterWrite], ?_, ?_⟩
    · rw [windowWrite_bytes _ _ _ ht hb ho]
      exact bytesWritten_writeN _ _ _ _
    · rw [windowWrite_bytes _ _ _ ht hb ho]

end Sys2Proof.Machine
end

