-- ==== Sys2Proof/Proofs/Canonical.lean ====
section
/-! PROOFS. The canonical form of the memories (log 2) through the shapes in which the model writes its steps: an update that leaves the
memories alone, a result that may be missing, a pair of a state and a value, a fold, an outcome. Each operation of the model then has one
lemma, named after it under what it says (`State.Canonical.f`, `OptCanonical.f`, `AnswerCanonical.f`, `Op.Canonical.f`), and the proof for
an operation follows its branches and names the operations that it calls, so that `.f (.g h)` proves the claim for `(s.g).f`. -/

namespace Sys2Proof.Machine

/-- Both halves of a block's scratchpad are in canonical form. -/
structure Block.Canonical (b : Block) : Prop where
  even : Mem.wf b.even.mem = true
  odd : Mem.wf b.odd.mem = true

/-- Every state that an optional result holds is in canonical form. -/
def OptCanonical (o : Option State) : Prop := ∀ t, o = some t → t.Canonical

/-- Every next state that an outcome holds is in canonical form. -/
def AnswerCanonical (o : Host.Outcome State Fault Refusal) : Prop := ∀ t, o = .next t → t.Canonical

/-- The parts of the state that the canonical form speaks of. -/
def State.memories (s : State) : Mem × Tab Block × Mem × Mem := (s.mem.bytes, s.blocks, s.host.window, s.trust.image)

/-- The bytes of a block's scratchpad. -/
def Block.memories (b : Block) : Mem × Mem := (b.even.mem, b.odd.mem)

section
variable {α β : Type} {s t : State}

/-- An update that leaves every memory as it is. -/
theorem State.Canonical.same (h : s.Canonical) (e : t.memories = s.memories) : t.Canonical := by
  simp only [State.memories, Prod.mk.injEq] at e
  obtain ⟨hm, hb, hw, hi⟩ := e
  exact ⟨by rw [Memory.wf, hm]; exact h.bytes, by rw [hb]; exact h.halves, by rw [hw]; exact h.window, by rw [hi]; exact h.image⟩

/-- An update of the bytes of HBM and host memory. -/
theorem State.Canonical.withBytes (h : s.Canonical) (hm : Mem.wf t.mem.bytes = true) (e : t.memories.2 = s.memories.2) :
    t.Canonical := by
  simp only [State.memories, Prod.mk.injEq] at e
  obtain ⟨hb, hw, hi⟩ := e
  exact ⟨hm, by rw [hb]; exact h.halves, by rw [hw]; exact h.window, by rw [hi]; exact h.image⟩

theorem Block.Canonical.same {b c : Block} (h : b.Canonical) (e : c.memories = b.memories) : c.Canonical := by
  simp only [Block.memories, Prod.mk.injEq] at e
  obtain ⟨he, ho⟩ := e
  exact ⟨by rw [he]; exact h.even, by rw [ho]; exact h.odd⟩

theorem State.Canonical.fst {p : State × α} {r : α} (h : p.1.Canonical) (e : p = (t, r)) : t.Canonical := by
  subst e
  exact h

theorem State.Canonical.pair {r : α} (h : t.Canonical) : (t, r).1.Canonical := h

theorem State.Canonical.of_eq_some {o : Option State} (h : OptCanonical o) (e : o = some t) : t.Canonical := h t e

theorem State.Canonical.branch {p : Prop} [Decidable p] (hs : s.Canonical) (ht : t.Canonical) : (if p then s else t).Canonical :=
  iteInduction (motive := State.Canonical) (fun _ => hs) fun _ => ht

theorem OptCanonical.of_none : OptCanonical none := fun _ e => absurd e (Option.some_ne_none _).symm

theorem OptCanonical.of_some (h : s.Canonical) : OptCanonical (some s) := by
  rintro _ ⟨⟩
  exact h

theorem OptCanonical.map {o : Option State} {f : State → State} (hf : ∀ s, s.Canonical → (f s).Canonical) (h : OptCanonical o) :
    OptCanonical (o.map f) := by
  intro t ht
  obtain ⟨u, hu, rfl⟩ := Option.map_eq_some_iff.1 ht
  exact hf u (h u hu)

theorem OptCanonical.bind {o : Option State} {f : State → Option State} (hf : ∀ s, s.Canonical → OptCanonical (f s))
    (h : OptCanonical o) : OptCanonical (o.bind f) := by
  intro t ht
  obtain ⟨u, hu, hut⟩ := Option.bind_eq_some_iff.1 ht
  exact hf u (h u hu) t hut

theorem State.Canonical.getD {o : Option State} (ho : OptCanonical o) (h : s.Canonical) : (o.getD s).Canonical := by
  cases o with
  | none => exact h
  | some t => exact .of_eq_some ho rfl

theorem AnswerCanonical.next (h : s.Canonical) : AnswerCanonical (.next s) := by
  rintro _ ⟨⟩
  exact h

/-- What each step of a fold keeps, the fold keeps. -/
theorem keeps_foldl {P : β → Prop} {f : β → α → β} (hf : ∀ b a, P b → P (f b a)) {l : List α} {b : β} (h : P b) : P (l.foldl f b) := by
  induction l generalizing b with
  | nil => exact h
  | cons a l ih => exact ih (hf b a h)

theorem State.Canonical.foldl {f : State → α → State} {l : List α} (hf : ∀ s a, s.Canonical → (f s a).Canonical)
    (h : s.Canonical) : (l.foldl f s).Canonical :=
  keeps_foldl hf h

theorem State.Canonical.foldl_fst {f : State × β → α → State × β} {l : List α} {p : State × β}
    (hf : ∀ p a, p.1.Canonical → (f p a).1.Canonical) (h : p.1.Canonical) : (l.foldl f p).1.Canonical :=
  keeps_foldl (P := fun p : State × β => p.1.Canonical) hf h

theorem OptCanonical.foldl {f : Option State → α → Option State} {l : List α} {o : Option State}
    (hf : ∀ o a, OptCanonical o → OptCanonical (f o a)) (h : OptCanonical o) : OptCanonical (l.foldl f o) :=
  keeps_foldl hf h

end

/-! ## Instructions as the frame runs them -/

/-- What an instruction brings to the frame of R182 keeps the canonical form: the states in which its addresses wait for walks, its
bodies, and what follows its completions. -/
structure Op.Canonical (op : Op) : Prop where
  walks : ∀ s l, s.Canonical → OptCanonical (op.walks s l)
  body : ∀ s l, s.Canonical → (op.body s l).1.Canonical
  post : ∀ s ds st gf, s.Canonical → (op.post s ds st gf).Canonical

section
variable {s : State} {op : Op}

theorem OptCanonical.walks {l : Nat} (hop : op.Canonical) (h : s.Canonical) : OptCanonical (op.walks s l) := hop.walks s l h

theorem State.Canonical.body {l : Nat} (hop : op.Canonical) (h : s.Canonical) : (op.body s l).1.Canonical := hop.body s l h

theorem State.Canonical.post {ds st gf : List Nat} (hop : op.Canonical) (h : s.Canonical) : (op.post s ds st gf).Canonical :=
  hop.post s ds st gf h

theorem Op.Canonical.base {i : Instr} {f : Fields} {body : State → Nat → State × Res}
    (hb : ∀ s l, s.Canonical → (body s l).1.Canonical) : (Op.base i f body).Canonical :=
  ⟨fun _ _ _ => .of_none, hb, fun _ _ _ _ h => h⟩

end

/-! ## Blocks and their scratchpads -/

theorem Block.Canonical.of_block? {s : State} (h : s.Canonical) {k : Nat} {b : Block} (e : s.block? k = some b) : b.Canonical := by
  obtain ⟨c, hc, rfl⟩ := Option.map_eq_some_iff.1 e
  exact ⟨(h.halves c (List.mem_of_find?_eq_some hc)).1, (h.halves c (List.mem_of_find?_eq_some hc)).2⟩

theorem Block.Canonical.half {b : Block} (h : b.Canonical) {odd : Bool} : Mem.wf (b.half odd).mem = true := by
  cases odd
  · exact h.even
  · exact h.odd

theorem Block.Canonical.setHalf {b : Block} (h : b.Canonical) {odd : Bool} {x : Scratch} (hx : Mem.wf x.mem = true) :
    (b.setHalf odd x).Canonical := by
  cases odd
  · exact ⟨hx, h.odd⟩
  · exact ⟨h.even, hx⟩

theorem State.Canonical.modBlock {s : State} (h : s.Canonical) {b : Nat} {f : Block → Block}
    (hf : ∀ b, b.Canonical → (f b).Canonical) : (s.modBlock b f).Canonical := by
  refine ⟨h.bytes, fun b hb => ?_, h.window, h.image⟩
  obtain ⟨c, hc, rfl⟩ := List.mem_map.1 hb
  obtain ⟨he, ho⟩ := h.halves c hc
  split
  · exact ⟨(hf c.2 ⟨he, ho⟩).even, (hf c.2 ⟨he, ho⟩).odd⟩
  · exact ⟨he, ho⟩

/-- A table of blocks with one set. -/
theorem State.Canonical.withBlock {s t : State} (h : s.Canonical) {k : Nat} {b : Block} (hb : b.Canonical)
    (e : t.memories = (s.mem.bytes, Tab.set s.blocks k b, s.host.window, s.trust.image)) : t.Canonical := by
  simp only [State.memories, Prod.mk.injEq] at e
  obtain ⟨hm, ht, hw, hi⟩ := e
  refine ⟨by rw [Memory.wf, hm]; exact h.bytes, fun c hc => ?_, by rw [hw]; exact h.window, by rw [hi]; exact h.image⟩
  rw [ht] at hc
  rcases List.mem_append.1 hc with hc | hc
  · exact h.halves c (List.mem_filter.1 hc).1
  · rcases List.mem_cons.1 hc with rfl | hc
    · exact ⟨hb.even, hb.odd⟩
    · exact h.halves c (List.mem_filter.1 hc).1

theorem State.Canonical.setBlock {s : State} (h : s.Canonical) {b : Nat} {x : Block} (hx : x.Canonical) : (s.setBlock b x).Canonical :=
  h.withBlock hx rfl

theorem State.Canonical.modScratch {s : State} (h : s.Canonical) {blk : Nat} {odd : Bool} {f : Scratch → Scratch}
    (hf : ∀ x, Mem.wf x.mem = true → Mem.wf (f x).mem = true) : (s.modScratch blk odd f).Canonical :=
  h.modBlock fun _ hb => hb.setHalf (hf _ hb.half)

theorem State.Canonical.modMem {s : State} (h : s.Canonical) {f : MemState → MemState}
    (hf : ∀ m, Mem.wf m.bytes = true → Mem.wf (f m).bytes = true) : (s.modMem f).Canonical :=
  h.withBytes (hf s.mem h.bytes) rfl

/-! ## Writes of bytes -/

theorem State.Canonical.monitorsAfter {s : State} (h : s.Canonical) {pa : Nat} : (s.monitorsAfter pa).Canonical := by
  refine .foldl (fun u m hu => ?_) h
  split
  · exact .same hu rfl
  · exact hu

theorem State.Canonical.homeWrite {s : State} (h : s.Canonical) {pa n x : Nat} : (s.homeWrite pa n x).Canonical := by
  unfold State.homeWrite
  refine .monitorsAfter ?_
  exact h.withBytes (mem_wf_writeN h.bytes pa n x) rfl

theorem State.Canonical.scratchWrite {s : State} (h : s.Canonical) {blk : Nat} {odd : Bool} {off n x : Nat} {fill : Bool} :
    (s.scratchWrite blk odd off n x fill).Canonical :=
  h.modScratch fun _ hx => mem_wf_writeN hx off n x

theorem State.Canonical.scratchSound {s : State} (h : s.Canonical) {blk : Nat} {odd : Bool} {off n : Nat} :
    (s.scratchSound blk odd off n).Canonical :=
  h.modScratch fun _ hx => hx

end Sys2Proof.Machine
end

