-- ==== Sys2Proof/Proofs/CanonicalHomes.lean ====
section
/-! PROOFS. The operations on the state, on memory at its homes, on scratchpads, barrier objects, mailboxes and the L1 caches keep the
canonical form (log 2). -/

namespace Sys2Proof.Machine

variable {s : State}

theorem State.Canonical.setGang (h : s.Canonical) {k : Nat} {g : Gang} : (s.setGang k g).Canonical :=
  .same h rfl

theorem State.Canonical.modGang (h : s.Canonical) {k : Nat} {f : Gang → Gang} : (s.modGang k f).Canonical :=
  .same h rfl

theorem State.Canonical.setCore (h : s.Canonical) {c : Nat} {x : CoreState} : (s.setCore c x).Canonical :=
  .same h rfl

theorem State.Canonical.modCore (h : s.Canonical) {c : Nat} {f : CoreState → CoreState} : (s.modCore c f).Canonical :=
  .setCore h

theorem State.Canonical.setCluster (h : s.Canonical) {cl : Nat} {x : Cluster} : (s.setCluster cl x).Canonical :=
  .same h rfl

theorem State.Canonical.modCluster (h : s.Canonical) {cl : Nat} {f : Cluster → Cluster} : (s.modCluster cl f).Canonical :=
  .setCluster h

theorem State.Canonical.modLaunch (h : s.Canonical) {l : Nat} {f : Launch → Launch} : (s.modLaunch l f).Canonical :=
  .same h rfl

theorem State.Canonical.mapContexts (h : s.Canonical) {f : Gang → Gang} : (s.mapContexts f).Canonical :=
  .same h rfl

theorem State.Canonical.fireMonitor (h : s.Canonical) {m : Monitor} : (s.fireMonitor m).Canonical :=
  .modGang (.same h (by rfl))

theorem State.Canonical.markAtom (h : s.Canonical) {pa : Nat} : (s.markAtom pa).Canonical :=
  .same h rfl

theorem State.Canonical.poisonAtom (h : s.Canonical) {pa : Nat} : (s.poisonAtom pa).Canonical :=
  .markAtom (.homeWrite h)

theorem State.Canonical.clearPoison (h : s.Canonical) {pa : Nat} : (s.clearPoison pa).Canonical :=
  .same h rfl

theorem State.Canonical.sendChannel (h : s.Canonical) {cl ch : Nat} {m : Message} : (s.sendChannel cl ch m).1.Canonical := by
  unfold State.sendChannel
  dsimp only
  split
  · exact h
  · exact .pair (.setCluster h)

theorem State.Canonical.logError (h : s.Canonical) {kind : LogKind} {unit index addr count asid : Nat} :
    (s.logError kind unit index addr count asid).Canonical := by
  unfold State.logError
  dsimp only
  split
  · exact .same h rfl
  · split
    · exact .same (.homeWrite (.homeWrite h)) rfl
    · exact .sendChannel (.same (.homeWrite (.homeWrite h)) (by rfl))

theorem State.Canonical.spareRow (h : s.Canonical) {pa : Nat} : (s.spareRow pa).Canonical := by
  unfold State.spareRow
  dsimp only
  split
  · exact .logError (.same h (by rfl))
  · exact .logError h

theorem State.Canonical.poisonCounted (h : s.Canonical) {pa n : Nat} : (s.poisonCounted pa n).Canonical :=
  .same h rfl

theorem State.Canonical.markPoison (h : s.Canonical) {pa asid : Nat} : (s.markPoison pa asid).Canonical := by
  unfold State.markPoison
  dsimp only
  split
  · exact .spareRow (.logError (.poisonCounted h))
  · exact .logError (.poisonCounted h)

theorem State.Canonical.logFresh (h : s.Canonical) {pa asid : Nat} : (s.logFresh pa asid).Canonical := by
  unfold State.logFresh
  dsimp only
  exact .logError (.same h (by rfl))

theorem State.Canonical.injectionFired (h : s.Canonical) {core : Nat} : (s.injectionFired core).Canonical :=
  .same h rfl

theorem State.Canonical.errorFound (h : s.Canonical) {pa : Nat} : (s.errorFound pa).Canonical :=
  .same h rfl

theorem State.Canonical.checkAtom (h : s.Canonical) {pa n asid : Nat} : (s.checkAtom pa n asid).1.Canonical := by
  unfold State.checkAtom
  dsimp only
  split
  · exact .pair (.logFresh (.injectionFired h))
  · split
    · exact h
    · split
      · split
        · exact .pair (.markPoison (.errorFound h))
        · exact .pair (.logFresh (.errorFound h))
      · exact h

theorem State.Canonical.applyRed (h : s.Canonical) {pa op : Nat} {t : Ty} {b asid : Nat} :
    (s.applyRed pa op t b asid).1.Canonical := by
  unfold State.applyRed
  dsimp only
  split
  · split
    · exact .pair (.homeWrite (.checkAtom (.checkAtom h)))
    · refine .pair ?_
      split
      · exact .markPoison (.checkAtom (.checkAtom h))
      · exact .checkAtom (.checkAtom h)
  · dsimp only
    split
    · exact .pair (.homeWrite (.checkAtom h))
    · exact .pair (.checkAtom h)

theorem State.Canonical.applyQueued (h : s.Canonical) {e : StoreEntry} : (s.applyQueued e).Canonical := by
  unfold State.applyQueued
  dsimp only
  split
  · split
    · exact .logError (.applyRed h)
    · exact .applyRed h
  · exact h

theorem State.Canonical.drainRed (h : s.Canonical) {line : Place} : (s.drainRed line).Canonical := by
  unfold State.drainRed
  dsimp only
  exact .foldl (fun _ _ h1 => .applyQueued h1) (.same h (by rfl))

theorem State.Canonical.scratchScan (h : s.Canonical) {blk : Nat} {odd : Bool} {off n : Nat} {atom : Bool} :
    (s.scratchScan blk odd off n atom).1.Canonical := by
  unfold State.scratchScan
  dsimp only
  split
  · exact .pair h
  next b e =>
    have hb : b.Canonical := .of_block? h e
    split
    · exact .pair (.logError (.injectionFired h))
    · split
      · exact .pair h
      · split
        · exact .pair h
        · refine .pair (.logError (.setBlock h (.setHalf hb ?_)))
          exact hb.half

theorem State.Canonical.scratchRead (h : s.Canonical) {blk : Nat} {odd : Bool} {off n : Nat} :
    (s.scratchRead blk odd off n).1.Canonical := by
  unfold State.scratchRead
  split
  next _ s1 e1 =>
    exact .fst (.scratchScan h) e1
  next _ s2 _ _ e2 =>
    exact .fst (.scratchScan h) e2

theorem State.Canonical.countFlit (h : s.Canonical) {dev : Nat} : (s.countFlit dev).Canonical := by
  unfold State.countFlit
  dsimp only
  split
  · exact .same h rfl
  · exact h

theorem OptCanonical.sendRemote (h : s.Canonical) {core dev off : Nat} {op : RemoteOp} {src : RemoteSource} :
    OptCanonical (s.sendRemote core dev off op src) := by
  unfold State.sendRemote
  dsimp only
  split
  · exact .of_none
  · exact .of_some (.countFlit (.same h (by rfl)))

theorem State.Canonical.storeFailed (h : s.Canonical) {pa : Nat} {tag : Nat × Nat × Nat} : (s.storeFailed pa tag).Canonical := by
  unfold State.storeFailed
  dsimp only
  split
  · exact .mapContexts (.logError h)
  · exact .modLaunch (.mapContexts (.logError h))

theorem OptCanonical.applyPart (h : s.Canonical) {e : StoreEntry} : OptCanonical (s.applyPart e) := by
  unfold State.applyPart
  dsimp only
  split
  · exact .of_none
  · split
    · exact .of_some (.scratchWrite h)
    · exact .of_some h
    · split
      · exact .sendRemote h
      · split
        · exact .of_some (.homeWrite (.drainRed h))
        · exact .of_some (.same h (by rfl))
      · exact .of_some (.storeFailed h)
      · split
        · exact .of_some (.homeWrite h)
        · exact .of_some (.applyRed h)

theorem OptCanonical.applyEntry (h : s.Canonical) {e : StoreEntry} : OptCanonical (s.applyEntry e) :=
  .foldl (fun _ _ h1 => .bind (fun _ h2 => .applyPart h2) h1) (.of_some h)

theorem OptCanonical.drain (h : s.Canonical) {want : StoreEntry → Bool} : OptCanonical (s.drain want) := by
  unfold State.drain
  dsimp only
  split
  · exact .of_some h
  · exact .foldl (fun _ _ h1 => .bind (fun _ h2 => .applyEntry h2) h1) (.of_some (.same h (by rfl)))

theorem OptCanonical.drainLine (h : s.Canonical) {core : Nat} {line : Place} : OptCanonical (s.drainLine core line) :=
  .map (fun _ h1 => .drainRed h1) (.drain h)

theorem OptCanonical.drainThread (h : s.Canonical) {tag : Nat × Nat × Nat} {lane : Nat} :
    OptCanonical (s.drainThread tag lane) := by
  unfold State.drainThread
  refine .bind (fun _ h1 => ?_) (.drain h)
  split
  · exact .of_none
  · exact .of_some h1

theorem OptCanonical.drainAll (h : s.Canonical) {tag : Nat × Nat × Nat} {lanes : List Nat} :
    OptCanonical (s.drainAll tag lanes) :=
  .foldl (fun _ _ h1 => .bind (fun _ h2 => .drainThread h2) h1) (.of_some h)

theorem OptCanonical.drainFenced (h : s.Canonical) {tag : Nat × Nat × Nat} {lane fences : Nat} :
    OptCanonical (s.drainFenced tag lane fences) := by
  unfold State.drainFenced
  refine .bind (fun _ h1 => ?_) (.drain h)
  split
  · exact .of_none
  · exact .of_some h1

theorem State.Canonical.dropFills (h : s.Canonical) {core : Nat} {f : Nat → Bool} : (s.dropFills core f).Canonical :=
  .same h rfl

theorem State.Canonical.dropL1 (h : s.Canonical) {core line : Nat} : (s.dropL1 core line).Canonical := by
  unfold State.dropL1
  split
  · exact .setCore (.dropFills h)
  · exact h

theorem State.Canonical.acquireL1 (h : s.Canonical) {core : Nat} {sc : Scope} : (s.acquireL1 core sc).Canonical := by
  unfold State.acquireL1
  split
  · exact h
  · split
    · exact .setCore (.dropFills h)
    · exact h

theorem State.Canonical.dropAllL1 (h : s.Canonical) : s.dropAllL1.Canonical :=
  .same h rfl

theorem State.Canonical.autoRelease (h : s.Canonical) {asid : Nat} : (s.autoRelease asid).Canonical := by
  unfold State.autoRelease
  split
  · exact h
  · split
    · exact .same (.dropAllL1 h) rfl
    · exact .same h rfl

theorem State.Canonical.putL1 (h : s.Canonical) {core asid va pa data : Nat} : (s.putL1 core asid va pa data).Canonical := by
  unfold State.putL1
  dsimp only
  exact .modCore h

theorem State.Canonical.fillL1 (h : s.Canonical) {core asid va pa : Nat} : (s.fillL1 core asid va pa).Canonical := by
  unfold State.fillL1
  dsimp only
  split
  · exact h
  · split
    · exact h
    · exact .putL1 h

theorem State.Canonical.homeRead (h : s.Canonical) {core pa n asid : Nat} {t : State} {r : Found}
    (e : s.homeRead core pa n asid = some (t, r)) : t.Canonical := by
  obtain ⟨u, hu, hr⟩ := Option.map_eq_some_iff.1 e
  have hc : (u.checkAtom pa n asid).1.Canonical := .checkAtom (.of_eq_some (.drainLine h) hu)
  have ht : (u.checkAtom pa n asid).1 = t := congrArg Prod.fst hr
  exact ht ▸ hc

theorem State.Canonical.agentRead (h : s.Canonical) {pa n asid : Nat} : (s.agentRead pa n asid).1.Canonical := by
  unfold State.agentRead
  dsimp only
  exact .checkAtom (.drainRed h)

theorem State.Canonical.agentWrite (h : s.Canonical) {pa n x : Nat} : (s.agentWrite pa n x).Canonical :=
  .homeWrite (.drainRed h)

theorem State.Canonical.writeRecord (h : s.Canonical) {pa n x : Nat} : (s.writeRecord pa n x).Canonical := by
  unfold State.writeRecord
  refine .foldl (fun _ _ h1 => ?_) h
  dsimp only
  exact .agentWrite h1

theorem State.Canonical.signalBarrier (h : s.Canonical) {blk : Nat} {odd : Bool} {off phase : Nat} :
    (s.signalBarrier blk odd off phase).Canonical := by
  unfold State.signalBarrier
  split
  · exact h
  · exact .foldl (fun _ _ h2 => .modGang h2) h

theorem State.Canonical.arrive (h : s.Canonical) {blk : Nat} {odd : Bool} {off e n : Nat} {delta : Int} :
    (s.arrive blk odd off e n delta).1.Canonical := by
  unfold State.arrive
  dsimp only
  split
  · exact .pair (.scratchSound (.scratchWrite (.scratchScan h)))
  · refine .pair ?_
    split
    · exact .signalBarrier (.scratchWrite (.scratchWrite (.scratchScan h)))
    · exact .scratchWrite (.scratchWrite (.scratchScan h))

theorem State.Canonical.readWord0 (h : s.Canonical) {blk : Nat} {odd : Bool} {off : Nat} :
    (s.readWord0 blk odd off).1.Canonical := by
  unfold State.readWord0
  dsimp only
  split
  · exact .pair (.scratchSound (.scratchWrite (.scratchScan h)))
  · exact .pair (.scratchScan h)

theorem State.Canonical.mbxHeader (h : s.Canonical) {blk n : Nat} : (s.mbxHeader blk n).1.Canonical := by
  unfold State.mbxHeader
  dsimp only
  split
  · refine .pair ?_
    split
    · exact .scratchSound (.scratchWrite (.scratchScan h))
    · exact .scratchWrite (.scratchScan h)
  · exact .pair (.scratchScan h)

theorem State.Canonical.signalMailbox (h : s.Canonical) {blk n : Nat} : (s.signalMailbox blk n).Canonical :=
  .foldl (fun _ _ h1 => .modGang h1) h

theorem State.Canonical.push (h : s.Canonical) {blk n entry : Nat} {refuse : Bool} : (s.push blk n entry refuse).1.Canonical := by
  unfold State.push
  dsimp only
  split
  · exact .pair (.mbxHeader h)
  · split
    · refine .pair ?_
      split
      · exact .scratchWrite (.mbxHeader h)
      · exact .mbxHeader h
    · exact .pair (.signalMailbox (.scratchWrite (.scratchSound (.scratchWrite (.mbxHeader h)))))

theorem State.Canonical.pop (h : s.Canonical) {blk n : Nat} : (s.pop blk n).1.Canonical := by
  unfold State.pop
  dsimp only
  split
  · exact .pair (.mbxHeader h)
  · split
    · exact .pair (.mbxHeader h)
    · exact .pair (.scratchWrite (.scratchScan (.mbxHeader h)))

end Sys2Proof.Machine
end

