-- ==== Sys2Proof/Proofs/CanonicalTraps.lean ====
section
/-! PROOFS. Translation, commits, deliveries, traps, ends and collective waits keep the canonical form (log 2). -/

namespace Sys2Proof.Machine

variable {s : State}

theorem State.Canonical.readEntry (h : s.Canonical) {pa asid level : Nat} : (s.readEntry pa asid level).1.Canonical := by
  unfold State.readEntry
  split
  · split
    next _ s1 _ e1 =>
      exact .fst (.agentRead h) e1
    next _ s2 _ e2 =>
      exact .fst (.agentRead h) e2
  · split
    next _ s3 _ e3 =>
      exact .fst (.agentRead h) e3
    next _ s4 _ e4 =>
      exact .fst (.agentRead h) e4
  · split
    · exact h
    · exact h
  · exact h
  · exact h

theorem State.Canonical.walkFrom (h : s.Canonical) {asid va l t : Nat} : (s.walkFrom asid va l t).1.Canonical := by
  induction l generalizing s t with
  | zero =>
    unfold State.walkFrom
    split
    next e => exact .pair (.fst (.readEntry h) e)
    next e => exact .pair (.fst (.readEntry h) e)
    next e => exact .pair (.fst (.readEntry h) e)
  | succ l ih =>
    unfold State.walkFrom
    split
    next e => exact .pair (.fst (.readEntry h) e)
    next e => exact .pair (.fst (.readEntry h) e)
    next e =>
      split
      · exact .pair (.fst (.readEntry h) e)
      · exact .pair (ih (.fst (.readEntry h) e))

theorem State.Canonical.endWalk (h : s.Canonical) {cl asid root va : Nat} {w : WalkEnd} {ts : List (Nat × Nat)} :
    (s.endWalk cl asid root va w ts).1.Canonical := by
  unfold State.endWalk
  dsimp only
  split
  · split
    · exact .pair (.same h (by rfl))
    · exact .pair (.modCluster (.same h (by rfl)))
  · exact .pair (.same h (by rfl))

theorem State.Canonical.walkOn (h : s.Canonical) {cl asid root va l t : Nat} {path : List (Nat × Nat)} :
    (s.walkOn cl asid root va l t path).1.Canonical := by
  unfold State.walkOn
  split
  next _ s1 _ _ e1 =>
    have h1 : s1.Canonical := .fst (.walkFrom h) e1
    exact .endWalk h1
  next _ s2 _ _ _ _ e2 =>
    have h2 : s2.Canonical := .fst (.walkFrom h) e2
    split
    next _ s3 e3 =>
      have h3 : s3.Canonical := .of_eq_some (.sendRemote (.same h2 (by rfl))) e3
      exact .pair (.same h3 (by rfl))
    · exact h2

theorem State.Canonical.walkAnswered (h : s.Canonical) {p : PendingWalk} {va status pte : Nat} :
    (s.walkAnswered p va status pte).1.Canonical := by
  unfold State.walkAnswered
  dsimp only
  split
  · split
    · exact .endWalk (.same h (by rfl))
    · exact .walkOn (.same h (by rfl))
  · exact .endWalk (.same h (by rfl))

theorem State.Canonical.walk (h : s.Canonical) {cl asid root va : Nat} : (s.walk cl asid root va).1.Canonical := by
  unfold State.walk
  dsimp only
  split
  · exact h
  · split
    · exact h
    · split
      · split
        · exact h
        · exact .walkAnswered h
      · split
        · exact h
        · exact .walkOn h

theorem State.Canonical.installCore (h : s.Canonical) {core : Nat} {e : TlbEntry} : (s.installCore core e).Canonical :=
  .modCore h

theorem State.Canonical.installCluster (h : s.Canonical) {cl : Nat} {e : TlbEntry} : (s.installCluster cl e).Canonical :=
  .modCluster h

theorem State.Canonical.findLeaf (h : s.Canonical) {core asid root va : Nat} {again : Bool} :
    (s.findLeaf core asid root va again).1.Canonical := by
  unfold State.findLeaf
  dsimp only
  split
  · exact h
  · split
    · exact .pair (.installCore h)
    · split
      next _ s1 _ _ e1 =>
        have h1 : s1.Canonical := .fst (.walk h) e1
        exact .pair (.installCore (.installCluster h1))
      next _ s2 _ _ e2 =>
        exact .fst (.walk h) e2

theorem State.Canonical.translate (h : s.Canonical) {core asid root va : Nat} {acc : Access} :
    (s.translate core asid root va acc).1.Canonical := by
  unfold State.translate
  split
  next s1 w e1 =>
    have h1 : s1.Canonical := .fst (.findLeaf h) e1
    split
    next s2 w2 e2 =>
      have h2 : s2.Canonical := by
        refine .fst ?_ e2
        split
        · split
          · exact .findLeaf h1
          · exact h1
        · exact h1
      split <;> exact .pair h2

theorem State.Canonical.invalidateFor (h : s.Canonical) {core : Nat} {buf : List StoreEntry} :
    (s.invalidateFor core buf).Canonical := by
  unfold State.invalidateFor
  refine .foldl (fun _ _ h1 => ?_) h
  split
  · exact .dropL1 h1
  · exact h1

theorem State.Canonical.commitThread (h : s.Canonical) {k lane : Nat} {next : Pc} : (s.commitThread k lane next).Canonical := by
  unfold State.commitThread
  dsimp only
  split
  · exact h
  · exact .setGang (.same (.invalidateFor h) (by rfl))

theorem State.Canonical.enter (h : s.Canonical) {cl : Nat} {e : DqEntry} : (s.enter cl e).Canonical :=
  .modCluster h

theorem State.Canonical.hold (h : s.Canonical) {cl : Nat} {x : HeldSrc} : (s.hold cl x).Canonical :=
  .modCluster h

theorem State.Canonical.dropLoads (h : s.Canonical) {k : Nat} {m : Lanes} : (s.dropLoads k m).Canonical :=
  .same h rfl

theorem State.Canonical.commitFaults (h : s.Canonical) {k : Nat} {pc : Pc} {faults : List LaneFault} :
    (s.commitFaults k pc faults).Canonical := by
  unfold State.commitFaults
  refine .foldl (fun _ _ h1 => ?_) h
  split
  · exact h1
  · exact .commitThread h1

theorem State.Canonical.takeTraps (h : s.Canonical) {k : Nat} {pc : Pc} {insn : Insn} {faults : List LaneFault} :
    (s.takeTraps k pc insn faults).Canonical := by
  unfold State.takeTraps
  dsimp only
  split
  · exact h
  · exact .enter (.writeRecord (.dropLoads (.setGang h)))

theorem OptCanonical.tryTrap (h : s.Canonical) {k : Nat} {pc : Pc} {insn : Insn} {faults : List LaneFault} :
    OptCanonical (s.tryTrap k pc insn faults) := by
  unfold State.tryTrap
  split
  · exact .of_some h
  · exact .map (fun _ h1 => .takeTraps h1) (.drainAll h)

theorem State.Canonical.trapLanes (h : s.Canonical) {k : Nat} {pc : Pc} {insn : Insn} {faults : List LaneFault} :
    (s.trapLanes k pc insn faults).Canonical := by
  unfold State.trapLanes
  dsimp only
  split
  · exact h
  · split
    · exact h
    · refine .getD ?_ (.hold (.commitFaults h))
      split
      · exact .tryTrap (.commitFaults h)
      · exact .of_none

theorem State.Canonical.modPorter (h : s.Canonical) {cl : Nat} {f : Porter → Porter} : (s.modPorter cl f).Canonical :=
  .modCluster h

theorem State.Canonical.porterExcept (h : s.Canonical) {cl : Nat} {c : PorterCause} {tval : Nat} :
    (s.porterExcept cl c tval).Canonical :=
  .modPorter h

theorem State.Canonical.dissolveSet (h : s.Canonical) {core set : Nat} : (s.dissolveSet core set).Canonical := by
  unfold State.dissolveSet
  dsimp only
  exact .foldl (fun _ _ h1 => .modGang h1) (.modCore h)

theorem State.Canonical.cancelGathering (h : s.Canonical) {blk : Nat} : (s.cancelGathering blk).Canonical := by
  unfold State.cancelGathering
  split
  · exact h
  · split
    · exact h
    · refine .foldl (fun _ _ h2 => ?_) h
      split
      · exact .setCore h2
      · exact h2

theorem State.Canonical.endGang (h : s.Canonical) {k : Nat} : (s.endGang k).Canonical := by
  unfold State.endGang
  split
  · exact h
  next g _ =>
    split
    · extract_lets _ s1 s2 s3 s4 s5
      have h1 : s1.Canonical := .same h rfl
      have h2 : s2.Canonical := by
        dsimp only [s2]
        split
        · exact .dissolveSet h1
        · exact h1
      have h5 : s5.Canonical := .cancelGathering (.modBlock (.modGang h2) fun _ hb => .same hb (by rfl))
      exact .branch h5 (.modLaunch h5)
    · exact h

theorem State.Canonical.tokenHolds (h : s.Canonical) {k slot : Nat} {g : Gang} {x : Token} :
    (s.tokenHolds k slot g x).1.Canonical := by
  unfold State.tokenHolds
  dsimp only
  split
  · split
    · exact .pair (.readWord0 h)
    · exact h
  · exact h
  · exact .pair (.mbxHeader h)
  · split
    · exact h
    · exact h
  · exact h

theorem State.Canonical.evaluateSlot (h : s.Canonical) {k n : Nat} : (s.evaluateSlot k n).Canonical := by
  unfold State.evaluateSlot
  dsimp only
  split
  · exact h
  · split
    · exact h
    · split
      · exact .modGang (.tokenHolds h)
      · exact .tokenHolds h

theorem State.Canonical.evaluateSlots (h : s.Canonical) {k : Nat} : (s.evaluateSlots k).Canonical :=
  .foldl (fun _ _ h1 => .evaluateSlot h1) h

theorem State.Canonical.deliverSlot (h : s.Canonical) {k n : Nat} {group : Lanes} {pc : Pc} :
    (s.deliverSlot k n group pc).Canonical := by
  unfold State.deliverSlot
  dsimp only
  split
  · exact h
  · split
    · exact h
    · split
      · exact .acquireL1 (.setGang h)
      · exact .setGang h

theorem State.Canonical.evalGroup (h : s.Canonical) {k : Nat} {r : Gather} : (s.evalGroup k r).Canonical := by
  unfold State.evalGroup
  dsimp only
  split
  · exact .evaluateSlots h
  · split
    · split
      · split
        · exact .setGang (.evaluateSlots h)
        · exact .deliverSlot (.evaluateSlots h)
      · exact .evaluateSlots h
    · split
      · exact .trapLanes (.setGang (.evaluateSlots h))
      · exact .setGang (.evaluateSlots h)

theorem State.Canonical.settleWaitany (h : s.Canonical) {k : Nat} : (s.settleWaitany k).Canonical := by
  unfold State.settleWaitany
  dsimp only
  split
  · exact h
  · split
    · exact h
    · split
      · exact h
      · split
        · exact .evalGroup (.setGang h)
        · exact .setGang h

theorem State.Canonical.settleCollective (h : s.Canonical) {k : Nat} : (s.settleCollective k).Canonical := by
  unfold State.settleCollective
  dsimp only
  split
  · exact h
  · split
    · exact h
    · split
      · exact .setGang h
      · exact .setGang h

theorem State.Canonical.settle (h : s.Canonical) {k : Nat} : (s.settle k).Canonical :=
  .modGang (.settleCollective (.settleWaitany (.settleWaitany (.endGang h))))

end Sys2Proof.Machine
end

