-- ==== Sys2Proof/Proofs/CanonicalFrame.lean ====
section
/-! PROOFS. The frame around the instructions of a compute thread (R182) keeps the canonical form (log 2), where what an instruction
brings to it does: its walks, its bodies and what follows its completions. -/

namespace Sys2Proof.Machine

variable {s : State}

theorem State.Canonical.runGroups (h : s.Canonical) {op : Op} (hop : op.Canonical) {gs : List (Nat × List Nat)} {behind : Bool}
    {t : State} {rs : List (Nat × List Nat × Res)} (e : op.runGroups gs s behind = some (t, rs)) : t.Canonical := by
  induction gs generalizing s behind rs with
  | nil =>
    cases e
    exact h
  | cons x gs ih =>
    have hx : (if (behind && op.inOrder) = true then (s, Res.wait) else op.body s x.1).1.Canonical := by
      split
      · exact h
      · exact .body hop h
    unfold Op.runGroups at e
    generalize (if (behind && op.inOrder) = true then (s, Res.wait) else op.body s x.1) = p at hx e
    obtain ⟨s1, r⟩ := p
    dsimp only at e
    split at e
    · cases e
    · obtain ⟨⟨u, us⟩, hu, he⟩ := Option.map_eq_some_iff.1 e
      cases he
      exact ih hx hu

theorem State.Canonical.commitOrDrain (h : s.Canonical) {k : Nat} {ls : List Nat} : (s.commitOrDrain k ls).Canonical := by
  unfold State.commitOrDrain
  refine .foldl (fun _ _ h1 => ?_) h
  dsimp only
  split
  · exact h1
  · split
    · exact .setGang h1
    · exact .commitThread h1

theorem State.Canonical.keepFaults (h : s.Canonical) {k : Nat} {fs : List LaneFault} : (s.keepFaults k fs).Canonical :=
  .modGang h

theorem State.Canonical.drainLanes (h : s.Canonical) {k : Nat} {ls : List Nat} : (s.drainLanes k ls).Canonical :=
  .modGang h

theorem State.Canonical.addWait (h : s.Canonical) {k : Nat} {ls : List Nat} {i : Instr} {seq since n : Nat} :
    (s.addWait k ls i seq since n).Canonical := by
  unfold State.addWait
  split
  · exact h
  · exact .modGang h

theorem State.Canonical.logSpoilt (h : s.Canonical) {k : Nat} {fs : List LaneFault} : (s.logSpoilt k fs).Canonical := by
  unfold State.logSpoilt
  refine .foldl (fun _ _ h1 => ?_) h
  split
  · exact .logError h1
  · exact h1

theorem OptCanonical.perform (h : s.Canonical) {f : Fields} {op : Op} {go gf mask : List Nat} {emp : List LaneFault}
    {seq since : Nat} (hop : op.Canonical) : OptCanonical (s.perform f op go gf mask emp seq since) := by
  intro t e
  obtain ⟨⟨s1, rs⟩, hrun, rfl⟩ := Option.map_eq_some_iff.1 e
  have h1 : s1.Canonical := by
    split at hrun
    · exact .runGroups h hop hrun
    · cases hrun
      exact h
  dsimp only
  split
  · split
    · exact .keepFaults h
    · exact .settle (.trapLanes (.logSpoilt (.post hop (.addWait (.modGang (.commitOrDrain (.setGang h1)))))))
  · exact h1

theorem State.Canonical.narrowed (h : s.Canonical) {out : List Nat} : (s.narrowed out).Canonical :=
  .same h rfl

theorem State.Canonical.commitLanes (h : s.Canonical) {k : Nat} {g : Gang} {ls : List Nat} : (s.commitLanes k g ls).Canonical :=
  .foldl (fun _ _ h1 => .commitThread h1) h

theorem State.Canonical.runOp (h : s.Canonical) {f : Fields} {op : Op} (hop : op.Canonical) : (s.runOp f op).Canonical := by
  unfold State.runOp
  dsimp only
  split
  · exact h
  · split
    · exact .setGang h
    · split
      · exact .drainLanes (.keepFaults h)
      · split
        next e =>
          obtain ⟨l, -, hl⟩ := List.exists_of_findSome?_eq_some e
          exact .of_eq_some (.walks hop (.narrowed h)) hl
        · exact .getD (.perform (.same (.commitLanes (.narrowed h)) (by rfl)) hop) (.commitLanes (.narrowed h))

theorem State.Canonical.wakeOp (h : s.Canonical) {k : Nat} {w : Wait} {f : Fields} {op : Op} (hop : op.Canonical) :
    (s.wakeOp k w f op).Canonical := by
  unfold State.wakeOp
  dsimp only
  split
  · exact h
  · exact .getD (.map (fun _ h1 => .same h1 (by rfl)) (.perform (.same h (by rfl)) hop)) h

theorem State.Canonical.takeId (h : s.Canonical) : s.takeId.1.Canonical :=
  .pair (.same h (by rfl))

theorem State.Canonical.takeFree (h : s.Canonical) : s.takeFree.1.Canonical :=
  .pair (.same h (by rfl))

end Sys2Proof.Machine
end

