-- ==== Sys2Proof/Proofs/CanonicalMemory.lean ====
section
/-! PROOFS. The shapes of the compute instructions, addresses, loads, stores, read-modify-writes, barriers and mailboxes keep the canonical
form (log 2). -/

namespace Sys2Proof.Machine

variable {s : State}

theorem AnswerCanonical.runInstr (h : s.Canonical) {f : Fields} {op : Op} (hop : op.Canonical) :
    AnswerCanonical (runInstr f op s) :=
  .next (.runOp h hop)

theorem Op.Canonical.opValue {i : Instr} {f : Fields} {v : State → Nat → Flagged Nat} : (opValue i f v).Canonical :=
  .base (fun _ _ h1 => h1)

theorem Op.Canonical.opPred {i : Instr} {f : Fields} {v : State → Nat → Bool × Flags} : (opPred i f v).Canonical :=
  .base (fun _ _ h1 => h1)

theorem Op.Canonical.opAlu1 {i : Instr} {f : Fields} {v : Nat → Flagged Nat} : (opAlu1 i f v).Canonical :=
  .opValue

theorem Op.Canonical.opAlu2 {i : Instr} {f : Fields} {v : Nat → Nat → Flagged Nat} : (opAlu2 i f v).Canonical :=
  .opValue

theorem Op.Canonical.opAlu3 {i : Instr} {f : Fields} {v : Nat → Nat → Nat → Flagged Nat} : (opAlu3 i f v).Canonical :=
  .opValue

theorem Op.Canonical.opLate {i : Instr} {f : Fields} {v : State → Nat → Flagged Nat} : (opLate i f v).Canonical := by
  unfold Machine.opLate
  refine .base (fun _ _ h1 => ?_)
  dsimp only
  exact .takeId h1

theorem Op.Canonical.awaitFlush {op : Op} (hop : op.Canonical) : op.awaitFlush.Canonical := by
  refine ⟨hop.walks, fun s l h => ?_, hop.post⟩
  unfold Op.awaitFlush
  dsimp only
  split
  · exact h
  · exact hop.body s l h

theorem State.Canonical.eaAt (h : s.Canonical) {k l : Nat} {space : Space} {x n : Nat} {acc : Access} :
    (s.eaAt k l space x n acc).1.Canonical := by
  unfold State.eaAt
  dsimp only
  split
  · exact h
  · split
    · split
      · exact h
      · split
        next _ s1 e1 =>
          exact .fst (.translate h) e1
        next _ s2 _ _ e2 =>
          exact .fst (.translate h) e2
        next _ s3 _ _ e3 =>
          exact .fst (.translate h) e3
    · split
      · exact h
      · exact h
    · split
      · exact h
      · exact h

theorem State.Canonical.ea (h : s.Canonical) {i : Instr} {f : Fields} {l : Nat} {space : Space} {acc : Access} {n : Nat} :
    (s.ea i f l space acc n).1.Canonical :=
  .eaAt h

/-- A state in which an address waits for a walk is the state after its checks. -/
theorem OptCanonical.eaWaits {p : State × Except Res Spot} (hp : p.1.Canonical) : OptCanonical (eaWaits p) := by
  unfold Machine.eaWaits
  split
  · exact .of_some hp
  · exact .of_none

theorem State.Canonical.readHome (h : s.Canonical) {core : Nat} {t : Target} {pa n asid : Nat} :
    (s.readHome core t pa n asid).1.Canonical := by
  unfold State.readHome
  split
  · split
    · exact h
    · split
      next _ s1 e1 =>
        exact .of_eq_some (.drainLine h) e1
      · exact h
  · split
    next _ s2 _ e2 =>
      exact .homeRead h e2
    next _ s3 _ e3 =>
      exact .homeRead h e3
    · exact h

theorem State.Canonical.readPlain (h : s.Canonical) {core : Nat} {t : Target} {va pa n asid : Nat} :
    (s.readPlain core t va pa n asid).1.Canonical := by
  unfold State.readPlain
  split
  · split
    · exact h
    · split
      next _ s1 _ e1 =>
        have h1 : s1.Canonical := .fst (.readHome h) e1
        exact .pair (.fillL1 h1)
      · exact .readHome h
  · split
    · exact h
    · exact .readHome h
  · exact .readHome h

theorem State.Canonical.askLine (h : s.Canonical) {core asid va dev off : Nat} : (s.askLine core asid va dev off).Canonical := by
  unfold State.askLine
  dsimp only
  split
  · exact h
  · exact .getD (.sendRemote h) h

theorem State.Canonical.finishLoad (h : s.Canonical) {f : Fields} {l x : Nat} {fwd : List (Nat × Nat)}
    {pr : Option (Nat × Bool)} {acq : Option Scope} {y : ReadEnd} :
    (s.finishLoad f l x fwd pr acq y).1.Canonical := by
  unfold State.finishLoad
  dsimp only
  split
  · exact h
  · exact h
  · exact h
  · exact .pair (.takeId h)
  · split
    · exact h
    · split
      next _ s1 e1 =>
        have h1 : s1.Canonical := .of_eq_some (.sendRemote (.takeId h)) e1
        refine .pair ?_
        split
        · exact .askLine h1
        · exact h1
      · exact h

theorem Op.Canonical.opLoad {i : Instr} {f : Fields} {space : Space}
    {read : State → Nat → Spot → State × Res} (hread : ∀ t y1 y2, t.Canonical → (read t y1 y2).1.Canonical) :
    (opLoad i f space read).Canonical := by
  unfold Machine.opLoad
  extract_lets b
  have hb : b.Canonical := by
    refine .base fun _ _ h => ?_
    split
    · exact h
    · split
      next _ s1 _ e1 => exact .fst (.ea h) e1
      next _ s1 _ e1 => exact hread _ _ _ (.fst (.ea h) e1)
  exact ⟨fun _ _ h => .eaWaits (.ea h), hb.body, hb.post⟩

theorem Op.Canonical.publishes {op : Op} {on : Bool} {n : Nat} (hop : op.Canonical) : (op.publishes on n).Canonical := by
  unfold Op.publishes
  split
  · exact hop
  · refine ⟨hop.walks, fun s l h => ?_, fun s _ _ _ h => ?_⟩
    · dsimp only
      split
      · exact h
      · exact hop.body s l h
    · dsimp only
      split
      · exact .modGang (.post hop h)
      · exact .post hop h

theorem State.Canonical.rmw (h : s.Canonical) {f : Fields} {l : Nat} {o : Order} {sc : Scope} {x pa : Nat}
    {new : Nat → Option Nat} : (s.rmw f l o sc x pa new).1.Canonical := by
  unfold State.rmw
  extract_lets g core n sc'
  split
  · exact h
  next s1 e1 =>
    have h1 : s1.Canonical := by
      refine .of_eq_some ?_ e1
      split
      · exact .drainThread h
      · exact .drainFenced h
    split
    · exact h1
    next s2 _ e2 => exact .homeRead h1 e2
    next s2 old e2 =>
      have h2 : s2.Canonical := .homeRead h1 e2
      extract_lets s3 s4 s5
      have h3 : s3.Canonical := by
        dsimp only [s3]
        split
        · exact .homeWrite h2
        · exact h2
      exact .branch (.acquireL1 (.dropL1 h3)) (.dropL1 h3)

theorem State.Canonical.rmwRemote (h : s.Canonical) {f : Fields} {l : Nat} {o : Order} {sc : Scope} {x dev off pa : Nat}
    {op : RemoteOp} :
    (s.rmwRemote f l o sc x dev off pa op).1.Canonical := by
  unfold State.rmwRemote
  dsimp only
  split
  · exact h
  · split
    · exact h
    next _ s1 e1 =>
      have h1 : s1.Canonical := by
        refine .of_eq_some ?_ e1
        refine .bind (fun _ h2 => .drainLine h2) ?_
        split
        · exact .drainThread h
        · exact .drainFenced h
      split
      · exact .pair (.dropL1 h1)
      next _ s3 e2 =>
        exact .of_eq_some (.sendRemote (.takeId (.dropL1 h1))) e2

theorem Op.Canonical.opRmw {i : Instr} {f : Fields} {o : Order} {new : State → Nat → Nat → Option Nat}
    {req : State → Nat → RemoteOp} : (opRmw i f o new req).Canonical := by
  unfold Machine.opRmw
  extract_lets sc b
  have hb : b.Canonical := by
    refine .base fun _ _ h => ?_
    split
    next _ s1 _ e1 => exact .fst (.ea h) e1
    next _ s1 _ _ _ _ e1 => exact .rmwRemote (.fst (.ea h) e1)
    next _ s1 _ _ _ _ e1 => exact .rmw (.fst (.ea h) e1)
    next _ s1 _ _ _ e1 => exact .fst (.ea h) e1
  exact .awaitFlush (.publishes ⟨fun _ _ h => .eaWaits (.ea h), hb.body, hb.post⟩)

theorem Op.Canonical.opAtom {i : Instr} {f : Fields} {o : Order} {op : Nat} : (opAtom i f o op).Canonical :=
  .opRmw

theorem Op.Canonical.opRed {i : Instr} {f : Fields} {rel : Bool} {op : Nat} : (opRed i f rel op).Canonical := by
  unfold Machine.opRed
  extract_lets sc _ b
  have hb : b.Canonical := by
    refine .base fun _ _ h => ?_
    split
    next _ s1 _ e1 => exact .fst (.ea h) e1
    next _ s1 _ e1 => exact .fst (.ea h) e1
  exact .publishes ⟨fun _ _ h => .eaWaits (.ea h), hb.body, hb.post⟩

theorem Op.Canonical.opStore {i : Instr} {f : Fields} {space : Space} {fill : Bool} {rel : Option Scope} :
    (opStore i f space fill rel).Canonical := by
  unfold Machine.opStore
  extract_lets _ b
  have hb : b.Canonical := by
    refine .base fun _ _ h => ?_
    split
    next _ s1 _ e1 => exact .fst (.ea h) e1
    next _ s1 _ e1 => exact .fst (.ea h) e1
  exact .publishes ⟨fun _ _ h => .eaWaits (.ea h), hb.body, hb.post⟩

theorem AnswerCanonical.execAtomAdd (h : s.Canonical) {o : Order} {f : Fields} : AnswerCanonical (execAtomAdd o f s) :=
  .runInstr h .opAtom

theorem AnswerCanonical.execAtomMin (h : s.Canonical) {o : Order} {f : Fields} : AnswerCanonical (execAtomMin o f s) :=
  .runInstr h .opAtom

theorem AnswerCanonical.execAtomMax (h : s.Canonical) {o : Order} {f : Fields} : AnswerCanonical (execAtomMax o f s) :=
  .runInstr h .opAtom

theorem AnswerCanonical.execAtomAnd (h : s.Canonical) {o : Order} {f : Fields} : AnswerCanonical (execAtomAnd o f s) :=
  .runInstr h .opAtom

theorem AnswerCanonical.execAtomOr (h : s.Canonical) {o : Order} {f : Fields} : AnswerCanonical (execAtomOr o f s) :=
  .runInstr h .opAtom

theorem AnswerCanonical.execAtomXor (h : s.Canonical) {o : Order} {f : Fields} : AnswerCanonical (execAtomXor o f s) :=
  .runInstr h .opAtom

theorem AnswerCanonical.execAtomExch (h : s.Canonical) {o : Order} {f : Fields} : AnswerCanonical (execAtomExch o f s) :=
  .runInstr h .opAtom

theorem AnswerCanonical.execAtomFadd (h : s.Canonical) {o : Order} {f : Fields} : AnswerCanonical (execAtomFadd o f s) :=
  .runInstr h .opAtom

theorem AnswerCanonical.execCas (h : s.Canonical) {o : Order} {f : Fields} : AnswerCanonical (execCas o f s) :=
  .runInstr h .opRmw

theorem AnswerCanonical.execRedAdd (h : s.Canonical) {rel : Bool} {f : Fields} : AnswerCanonical (execRedAdd rel f s) :=
  .runInstr h .opRed

theorem AnswerCanonical.execRedMin (h : s.Canonical) {rel : Bool} {f : Fields} : AnswerCanonical (execRedMin rel f s) :=
  .runInstr h .opRed

theorem AnswerCanonical.execRedMax (h : s.Canonical) {rel : Bool} {f : Fields} : AnswerCanonical (execRedMax rel f s) :=
  .runInstr h .opRed

theorem AnswerCanonical.execRedAnd (h : s.Canonical) {rel : Bool} {f : Fields} : AnswerCanonical (execRedAnd rel f s) :=
  .runInstr h .opRed

theorem AnswerCanonical.execRedOr (h : s.Canonical) {rel : Bool} {f : Fields} : AnswerCanonical (execRedOr rel f s) :=
  .runInstr h .opRed

theorem AnswerCanonical.execRedXor (h : s.Canonical) {rel : Bool} {f : Fields} : AnswerCanonical (execRedXor rel f s) :=
  .runInstr h .opRed

theorem AnswerCanonical.execRedFadd (h : s.Canonical) {rel : Bool} {f : Fields} : AnswerCanonical (execRedFadd rel f s) :=
  .runInstr h .opRed

theorem State.Canonical.readScratch (h : s.Canonical) {core blk : Nat} {odd : Bool} {off n : Nat} :
    (s.readScratch core blk odd off n).1.Canonical := by
  unfold State.readScratch
  split
  · exact h
  next _ s1 e1 =>
    have h1 : s1.Canonical := .of_eq_some (.drainLine h) e1
    split
    next _ s2 _ e2 =>
      exact .fst (.scratchRead h1) e2
    next _ s3 _ e3 =>
      exact .fst (.scratchRead h1) e3

theorem State.Canonical.readUnless (h : s.Canonical) {fwd : List (Nat × Nat)} {n : Nat} {read : State × ReadEnd}
    (hread : read.1.Canonical) : (s.readUnless fwd n read).1.Canonical := by
  unfold State.readUnless
  split
  · exact .pair h
  · exact hread

theorem State.Canonical.loadPlain (h : s.Canonical) {i : Instr} {f : Fields} {space : Space} {l : Nat} {sp : Spot} :
    (s.loadPlain i f space l sp).1.Canonical := by
  unfold State.loadPlain
  dsimp only
  refine .finishLoad (.readUnless h ?_)
  split
  · exact .readPlain h
  · exact .readScratch h
  · exact h

theorem State.Canonical.loadAcquire (h : s.Canonical) {i : Instr} {f : Fields} {space : Space} {sc : Scope} {l : Nat}
    {sp : Spot} : (s.loadAcquire i f space sc l sp).1.Canonical := by
  unfold State.loadAcquire
  extract_lets g n core fwd
  split
  next s1 r e1 =>
    have h1 : s1.Canonical := by
      refine .fst (.readUnless h ?_) e1
      split
      · exact .readHome (.dropL1 h)
      · exact .readScratch h
      · exact h
    refine .finishLoad ?_
    split
    · exact .acquireL1 h1
    · exact h1

theorem AnswerCanonical.execLdG (h : s.Canonical) {f : Fields} : AnswerCanonical (execLdG f s) :=
  .runInstr h (.awaitFlush (.opLoad (fun _ _ _ h1 => .loadPlain h1)))

theorem AnswerCanonical.execLdGAcq (h : s.Canonical) {f : Fields} : AnswerCanonical (execLdGAcq f s) :=
  .runInstr h (.awaitFlush (.opLoad (fun _ _ _ h1 => .loadAcquire h1)))

theorem State.Canonical.readBounded (h : s.Canonical) {core blk asid k : Nat} {t : Target} {va pa n : Nat} {rpt : Bool}
    {fwd : List (Nat × Nat)} : (s.readBounded core blk asid k t va pa n rpt fwd).1.Canonical := by
  unfold State.readBounded
  extract_lets home
  have hhome {a : Nat} : (home s a).1.Canonical := by
    dsimp only [home]
    split
    · exact h
    · split
      next s1 _ e1 =>
        have h1 : s1.Canonical := .fst (.readHome h) e1
        split
        · exact .fillL1 h1
        · exact h1
      next s1 _ _ e1 => exact .fst (.readHome h) e1
  split
  · exact .readUnless h (.readPlain h)
  · extract_lets v
    split
    · exact hhome
    · extract_lets fits
      split
      · exact h
      · split
        · exact h
        · exact hhome

theorem Op.Canonical.opBounded {i : Instr} {f : Fields} {rpt : Bool} : (opBounded i f rpt).Canonical := by
  unfold Machine.opBounded
  extract_lets b
  have hb : b.Canonical := by
    refine .opLoad fun _ _ _ h => ?_
    dsimp only
    split
    · exact .finishLoad (.readBounded h)
    · exact h
  exact .awaitFlush ⟨hb.walks, hb.body, hb.post⟩

theorem AnswerCanonical.execLdGEd (h : s.Canonical) {f : Fields} : AnswerCanonical (execLdGEd f s) :=
  .runInstr h .opBounded

theorem AnswerCanonical.execLdGEdRpt (h : s.Canonical) {f : Fields} : AnswerCanonical (execLdGEdRpt f s) :=
  .runInstr h .opBounded

theorem AnswerCanonical.execLdS (h : s.Canonical) {f : Fields} : AnswerCanonical (execLdS f s) :=
  .runInstr h (.opLoad (fun _ _ _ h1 => .loadPlain h1))

theorem AnswerCanonical.execLdSAcq (h : s.Canonical) {f : Fields} : AnswerCanonical (execLdSAcq f s) :=
  .runInstr h (.awaitFlush (.opLoad (fun _ _ _ h1 => .loadAcquire h1)))

theorem AnswerCanonical.execLdK (h : s.Canonical) {f : Fields} : AnswerCanonical (execLdK f s) :=
  .runInstr h (.opLoad (fun _ _ _ h1 => .loadPlain h1))

theorem State.Canonical.consumeGranule (h : s.Canonical) {x : Spot} : (s.consumeGranule x).Canonical := by
  unfold State.consumeGranule
  split
  · exact .modScratch h (fun _ h1 => h1)
  · exact h

theorem State.Canonical.loadFull (h : s.Canonical) {i : Instr} {f : Fields} {consume : Bool} {l : Nat} {sp : Spot} :
    (s.loadFull i f consume l sp).1.Canonical := by
  unfold State.loadFull
  split
  next _ s1 _ e1 =>
    have h1 : s1.Canonical := .fst (.loadAcquire h) e1
    refine .pair ?_
    split
    · exact .consumeGranule h1
    · exact h1
  · exact .loadAcquire h

theorem Op.Canonical.opFull {i : Instr} {f : Fields} {consume : Bool} {seq : Nat} : (opFull i f consume seq).Canonical := by
  unfold Machine.opFull
  extract_lets b
  have hb : b.Canonical := .opLoad fun _ _ _ h => .loadFull h
  exact .awaitFlush ⟨hb.walks, hb.body, hb.post⟩

theorem AnswerCanonical.execLdSFw (h : s.Canonical) {f : Fields} : AnswerCanonical (execLdSFw f s) :=
  .runInstr h .opFull

theorem AnswerCanonical.execLdSFc (h : s.Canonical) {f : Fields} : AnswerCanonical (execLdSFc f s) :=
  .runInstr h .opFull

theorem AnswerCanonical.execFullLoadPerform (h : s.Canonical) {k w : Nat} : AnswerCanonical (execFullLoadPerform k w s) := by
  unfold Machine.execFullLoadPerform
  refine .next ?_
  split
  · split
    · exact .wakeOp h .opFull
    · exact .wakeOp h .opFull
    · exact h
  · exact h

theorem Op.Canonical.opBarrier {i : Instr} {f : Fields} {acc : Access}
    {act : State → Nat → Bool → Nat → State × Res} (hact : ∀ t y1 y2 y3, t.Canonical → (act t y1 y2 y3).1.Canonical) :
    (opBarrier i f acc act).Canonical := by
  unfold Machine.opBarrier
  extract_lets b
  have hb : b.Canonical := by
    refine .base fun _ _ h => ?_
    split
    · exact h
    · exact hact _ _ _ _ h
  exact ⟨hb.walks, hb.body, hb.post⟩

theorem State.Canonical.releasing (h : s.Canonical) {l : Nat}
    {act : State → State × Res} (hact : ∀ t, t.Canonical → (act t).1.Canonical) :
    (s.releasing l act).1.Canonical := by
  unfold State.releasing
  split
  · exact h
  next _ s1 e1 =>
    have h1 : s1.Canonical := .of_eq_some (.drainThread h) e1
    exact hact _ h1

theorem AnswerCanonical.execBarInit (h : s.Canonical) {f : Fields} : AnswerCanonical (execBarInit f s) := by
  unfold Machine.execBarInit
  refine .runInstr h (.opBarrier (fun _ _ _ _ h1 => ?_))
  dsimp only
  exact .releasing h1 (fun _ h2 => .pair (.scratchSound (.scratchWrite (.scratchWrite h2))))

theorem Op.Canonical.opArrive {i : Instr} {f : Fields} {delta : Nat → Int} : (opArrive i f delta).Canonical := by
  unfold Machine.opArrive
  refine .opBarrier (fun _ _ _ _ h1 => ?_)
  dsimp only
  refine .releasing h1 (fun _ h2 => ?_)
  split
  next _ s3 _ _ e1 =>
    exact .fst (.arrive h2) e1
  next _ s4 _ e2 =>
    exact .fst (.arrive h2) e2
  next _ s5 _ e3 =>
    exact .fst (.arrive h2) e3

theorem AnswerCanonical.execBarArr (h : s.Canonical) {f : Fields} : AnswerCanonical (execBarArr f s) :=
  .runInstr h .opArrive

theorem AnswerCanonical.execBarExp (h : s.Canonical) {f : Fields} : AnswerCanonical (execBarExp f s) :=
  .runInstr h .opArrive

theorem Op.Canonical.opBarWait {f : Fields} : (opBarWait f).Canonical := by
  unfold Machine.opBarWait
  refine .awaitFlush (.opBarrier (fun _ _ _ _ h1 => ?_))
  dsimp only
  split
  · exact .pair (.readWord0 h1)
  · split
    · exact .pair (.acquireL1 (.readWord0 h1))
    · exact .pair (.readWord0 h1)

theorem AnswerCanonical.execBarWait (h : s.Canonical) {f : Fields} : AnswerCanonical (execBarWait f s) :=
  .runInstr h .opBarWait

theorem AnswerCanonical.execBarrierWaitWake (h : s.Canonical) {k w : Nat} : AnswerCanonical (execBarrierWaitWake k w s) := by
  unfold Machine.execBarrierWaitWake
  refine .next ?_
  split
  · split
    · exact .wakeOp h .opBarWait
    · exact h
  · exact h

theorem AnswerCanonical.execBarTest (h : s.Canonical) {f : Fields} : AnswerCanonical (execBarTest f s) := by
  unfold Machine.execBarTest
  refine .runInstr h (.awaitFlush ?_)
  refine .opBarrier (fun _ _ _ _ h1 => ?_)
  dsimp only
  split
  · exact .pair (.readWord0 h1)
  · exact .pair (.acquireL1 (.readWord0 h1))

theorem Op.Canonical.opMailbox {i : Instr} {f : Fields}
    {act : State → Nat → Nat → State × Res} (hact : ∀ t y1 y2, t.Canonical → (act t y1 y2).1.Canonical) :
    (opMailbox i f act).Canonical := by
  unfold Machine.opMailbox
  extract_lets b
  have hb : b.Canonical := by
    refine .base fun _ _ h => ?_
    split
    · exact h
    · exact hact _ _ _ h
  exact ⟨hb.walks, hb.body, hb.post⟩

theorem Op.Canonical.opPush {f : Fields} : (opPush f).Canonical := by
  unfold Machine.opPush
  refine .opMailbox (fun _ _ _ h1 => ?_)
  refine .releasing h1 (fun _ h2 => ?_)
  split
  next _ s3 e1 =>
    exact .fst (.push h2) e1
  next _ s4 _ e2 =>
    exact .fst (.push h2) e2
  next _ s5 _ _ _ e3 =>
    exact .fst (.push h2) e3

theorem AnswerCanonical.execMbxPush (h : s.Canonical) {f : Fields} : AnswerCanonical (execMbxPush f s) :=
  .runInstr h .opPush

theorem AnswerCanonical.execMbxPushTry (h : s.Canonical) {f : Fields} : AnswerCanonical (execMbxPushTry f s) := by
  unfold Machine.execMbxPushTry
  refine .runInstr h (.opMailbox (fun _ _ _ h1 => ?_))
  refine .releasing h1 (fun _ h2 => ?_)
  split
  next _ s3 e1 =>
    exact .fst (.push h2) e1
  next _ s4 _ e2 =>
    exact .fst (.push h2) e2
  next _ s5 _ _ _ e3 =>
    exact .fst (.push h2) e3

theorem Op.Canonical.opPop {f : Fields} {seq : Nat} : (opPop f seq).Canonical := by
  unfold Machine.opPop
  refine .awaitFlush (.opMailbox (fun _ _ _ h1 => ?_))
  dsimp only
  split
  · exact h1
  · split
    next _ s2 e1 =>
      exact .fst (.pop h1) e1
    next _ s3 _ e2 =>
      exact .fst (.pop h1) e2
    next _ s4 _ e3 =>
      have h4 : s4.Canonical := .fst (.pop h1) e3
      exact .pair (.takeId (.acquireL1 h4))
    next _ s5 _ _ _ _ e4 =>
      exact .fst (.pop h1) e4

theorem AnswerCanonical.execMbxPop (h : s.Canonical) {f : Fields} : AnswerCanonical (execMbxPop f s) :=
  .runInstr h .opPop

theorem AnswerCanonical.execMailboxPushWake (h : s.Canonical) {k w : Nat} : AnswerCanonical (execMailboxPushWake k w s) := by
  unfold Machine.execMailboxPushWake
  refine .next ?_
  split
  · split
    · exact .wakeOp h .opPush
    · exact h
  · exact h

theorem AnswerCanonical.execMailboxPopWake (h : s.Canonical) {k w : Nat} : AnswerCanonical (execMailboxPopWake k w s) := by
  unfold Machine.execMailboxPopWake
  refine .next ?_
  split
  · split
    · exact .wakeOp h .opPop
    · exact h
  · exact h

end Sys2Proof.Machine
end

