-- ==== Sys2Proof/Proofs/CanonicalControl.lean ====
section
/-! PROOFS. Control, rotation, producers, drafts, monitors and event slots keep the canonical form (log 2). -/

namespace Sys2Proof.Machine

variable {s : State}

theorem Op.Canonical.opBranch {i : Instr} {f : Fields} {target : State → Nat → Option Pc} {link : Bool} :
    (opBranch i f target link).Canonical := by
  refine ⟨fun _ _ _ => .of_none, fun _ _ h => ?_, fun _ _ _ _ h => h⟩
  unfold Machine.opBranch
  dsimp only
  split
  · exact h
  · exact h

theorem AnswerCanonical.execBra (h : s.Canonical) {f : Fields} : AnswerCanonical (execBra f s) :=
  .runInstr h .opBranch

theorem AnswerCanonical.execBrx (h : s.Canonical) {f : Fields} : AnswerCanonical (execBrx f s) :=
  .runInstr h .opBranch

theorem AnswerCanonical.execCall (h : s.Canonical) {f : Fields} : AnswerCanonical (execCall f s) :=
  .runInstr h .opBranch

theorem AnswerCanonical.execCallInd (h : s.Canonical) {f : Fields} : AnswerCanonical (execCallInd f s) :=
  .runInstr h .opBranch

theorem AnswerCanonical.execRet (h : s.Canonical) {f : Fields} : AnswerCanonical (execRet f s) :=
  .runInstr h .opBranch

theorem AnswerCanonical.execLoop (h : s.Canonical) {f : Fields} : AnswerCanonical (execLoop f s) := by
  unfold Machine.execLoop
  extract_lets _ b
  have hb : b.Canonical := by
    refine .base fun _ _ hs => ?_
    split
    · exact hs
    · exact hs
  exact .runInstr h ⟨hb.walks, hb.body, hb.post⟩

theorem AnswerCanonical.execExit (h : s.Canonical) {f : Fields} : AnswerCanonical (execExit f s) :=
  .runInstr h ⟨fun _ _ _ => .of_none, fun _ _ hs => hs, fun _ _ _ _ hs => hs⟩

theorem AnswerCanonical.execNop (h : s.Canonical) {f : Fields} : AnswerCanonical (execNop f s) :=
  .runInstr h (.base (fun _ _ h1 => h1))

theorem AnswerCanonical.execYield (h : s.Canonical) {f : Fields} : AnswerCanonical (execYield f s) :=
  .runInstr h (.base (fun _ _ h1 => h1))

theorem AnswerCanonical.execSleep (h : s.Canonical) {f : Fields} : AnswerCanonical (execSleep f s) := by
  unfold Machine.execSleep
  refine .runInstr h ⟨fun _ _ _ => .of_none, fun _ _ hs => hs, fun _ _ _ _ hs => ?_⟩
  dsimp only
  split
  · exact hs
  · exact .addWait hs

theorem AnswerCanonical.execSleepEnd (h : s.Canonical) {k w : Nat} : AnswerCanonical (execSleepEnd k w s) :=
  .next (.modGang h)

theorem AnswerCanonical.execBpt (h : s.Canonical) {f : Fields} : AnswerCanonical (execBpt f s) :=
  .runInstr h ⟨fun _ _ _ => .of_none, fun _ _ hs => hs, fun _ _ _ _ hs => hs⟩

theorem AnswerCanonical.execTrap (h : s.Canonical) {f : Fields} : AnswerCanonical (execTrap f s) :=
  .runInstr h ⟨fun _ _ _ => .of_none, fun _ _ hs => hs, fun _ _ _ _ hs => hs⟩

theorem AnswerCanonical.execDraft (h : s.Canonical) {f : Fields} : AnswerCanonical (execDraft f s) :=
  .runInstr h ⟨fun _ _ _ => .of_none, fun _ _ hs => hs, fun _ _ _ _ hs => hs⟩

theorem State.Canonical.trapFocus (h : s.Canonical) {fault : Nat → LaneFault} : (s.trapFocus fault).Canonical := by
  unfold State.trapFocus
  dsimp only
  split
  · exact h
  · split
    · exact .keepFaults h
    · exact .settle (.trapLanes h)

theorem AnswerCanonical.execIllegalWord (h : s.Canonical) {c : Cause} : AnswerCanonical (execIllegalWord c s) :=
  .next (.trapFocus h)

theorem AnswerCanonical.execInstructionFetchFault (h : s.Canonical) {c : Cause} {va : BitVec 56} {level errkind : Nat} :
    AnswerCanonical (execInstructionFetchFault c va level errkind s) :=
  .next (.trapFocus h)

theorem AnswerCanonical.execRotationEnter (h : s.Canonical) {k sl : Nat} : AnswerCanonical (execRotationEnter k sl s) :=
  .next (.modGang h)

theorem AnswerCanonical.execRotationLeave (h : s.Canonical) {k sl : Nat} : AnswerCanonical (execRotationLeave k sl s) :=
  .next (.modGang h)

theorem State.Canonical.swapSlices (h : s.Canonical) {kOut : Nat} {out : BitVec 16} {kIn : Nat} {inn : BitVec 16} :
    (s.swapSlices kOut out kIn inn).Canonical :=
  .modGang (.modGang h)

theorem AnswerCanonical.execSubgangSwap (h : s.Canonical) {kOut : Nat} {out : BitVec 16} {kIn : Nat} {inn : BitVec 16} :
    AnswerCanonical (execSubgangSwap kOut out kIn inn s) := by
  unfold Machine.execSubgangSwap
  dsimp only
  refine .next ?_
  split
  · exact .swapSlices h
  · exact h

theorem AnswerCanonical.execAgedSwap (h : s.Canonical) {kOut : Nat} {out : BitVec 16} {kIn : Nat} {inn : BitVec 16} :
    AnswerCanonical (execAgedSwap kOut out kIn inn s) := by
  unfold Machine.execAgedSwap
  dsimp only
  refine .next ?_
  split
  · exact .swapSlices h
  · exact h

theorem AnswerCanonical.execProducerWriteback (h : s.Canonical) {k lane id : Nat} :
    AnswerCanonical (execProducerWriteback k lane id s) :=
  .next (.modGang h)

theorem AnswerCanonical.execDraftCommit (h : s.Canonical) {k lane : Nat} : AnswerCanonical (execDraftCommit k lane s) := by
  unfold Machine.execDraftCommit
  refine .next ?_
  split
  · exact h
  · split
    · exact .commitThread h
    · exact h

theorem Op.Canonical.opGang {i : Instr} {f : Fields}
    {body : State → Nat → State × Res} (hbody : ∀ t y1, t.Canonical → (body t y1).1.Canonical) :
    (opGang i f body).Canonical :=
  ⟨fun _ _ _ => .of_none, hbody, fun _ _ _ _ h => h⟩

theorem State.Canonical.setSlot (h : s.Canonical) {k n : Nat} {x : EventSlot} : (s.setSlot k n x).Canonical :=
  .modGang h

theorem AnswerCanonical.execMon (h : s.Canonical) {f : Fields} : AnswerCanonical (execMon f s) := by
  unfold Machine.execMon
  extract_lets b
  have hb : b.Canonical := by
    refine .opGang fun _ _ hs => ?_
    dsimp only
    split
    next _ s1 _ e1 => exact .fst (.eaAt hs) e1
    next _ s1 _ _ _ e1 => exact .pair (.setSlot (.fst (.eaAt hs) e1))
    next _ s1 _ _ e1 => exact .fst (.eaAt hs) e1
  exact .runInstr h ⟨fun _ _ hs => .eaWaits (.eaAt hs), hb.body, hb.post⟩

theorem State.Canonical.unplace (h : s.Canonical) {k n : Nat} : (s.unplace k n).Canonical :=
  .modMem h (fun _ h1 => h1)

theorem State.Canonical.place (h : s.Canonical) {k n : Nat} {d : MonDesc} : (s.place k n d).Canonical := by
  unfold State.place
  dsimp only
  split
  · exact .modMem (.drainRed h) (fun _ h1 => h1)
  · exact h

theorem AnswerCanonical.execEvarm (h : s.Canonical) {f : Fields} : AnswerCanonical (execEvarm f s) := by
  unfold Machine.execEvarm
  refine .runInstr h (.opGang (fun _ _ h1 => ?_))
  dsimp only
  split
  · exact h1
  · refine .pair (.evaluateSlot ?_)
    split
    · exact .place (.modGang (.setSlot (.unplace h1)))
    · exact .modGang (.setSlot (.unplace h1))

theorem AnswerCanonical.execEvdis (h : s.Canonical) {f : Fields} : AnswerCanonical (execEvdis f s) := by
  unfold Machine.execEvdis
  refine .runInstr h (.opGang (fun _ _ h1 => ?_))
  dsimp only
  exact .modGang (.setSlot (.unplace h1))

theorem AnswerCanonical.execEvclr (h : s.Canonical) {f : Fields} : AnswerCanonical (execEvclr f s) := by
  unfold Machine.execEvclr
  refine .runInstr h (.opGang (fun _ _ h1 => ?_))
  dsimp only
  exact .modGang h1

theorem AnswerCanonical.execWaitany (h : s.Canonical) {f : Fields} : AnswerCanonical (execWaitany f s) :=
  .runInstr h ⟨fun _ _ _ => .of_none, fun _ _ hs => hs, fun _ _ _ _ hs => .modGang hs⟩

theorem AnswerCanonical.execWaitanyDelivery (h : s.Canonical) {k : Nat} : AnswerCanonical (execWaitanyDelivery k s) := by
  unfold Machine.execWaitanyDelivery
  refine .next ?_
  split
  · split
    · split
      · exact .settle (.evalGroup h)
      · exact h
    · exact h
  · exact h

theorem AnswerCanonical.execDeadlineExpire (h : s.Canonical) {k : Nat} : AnswerCanonical (execDeadlineExpire k s) := by
  unfold Machine.execDeadlineExpire
  refine .next ?_
  dsimp only
  split
  · split
    · split
      · split
        · exact .modGang h
        · exact .settle (.evalGroup (.modGang h))
      · exact .modGang h
    · exact h
  · exact h

end Sys2Proof.Machine
end

