-- ==== Sys2Proof/Proofs/CanonicalCopies.lean ====
section
/-! PROOFS. The copy engine keeps the canonical form (log 2). -/

namespace Sys2Proof.Machine

variable {s : State}

theorem State.Canonical.readRecord (h : s.Canonical) {blk : Nat} {odd : Bool} {off : Nat} :
    (s.readRecord blk odd off).1.Canonical := by
  unfold State.readRecord
  refine .foldl_fst (fun _ _ h1 => ?_) h
  split
  · exact h1
  · split
    next _ s1 _ e1 =>
      exact .fst (.scratchRead h1) e1
    next _ s2 _ e2 =>
      exact .fst (.scratchRead h1) e2

theorem State.Canonical.setUse (h : s.Canonical) {core u : Nat} {x : CopyUse} : (s.setUse core u x).Canonical :=
  .modCore h

theorem State.Canonical.copyIssue (h : s.Canonical) {f : Fields} {seq l : Nat} : (s.copyIssue f seq l).1.Canonical := by
  unfold State.copyIssue
  extract_lets k g o j row w trap full join
  have hjoin {t : State} {r : BitVec 512} {n : Nat} (ht : t.Canonical) : (join t r n).Canonical := .branch ht (.modGang ht)
  split
  · exact h
  · split
    · exact h
    next odd off _ =>
      extract_lets e _
      split
      · exact h
      next s1 e1 =>
        have h1 : s1.Canonical := .of_eq_some (.drain h) e1
        split
        · exact h1
        · split
          · split
            · exact h
            · split
              · exact h
              · split
                · exact h
                · exact hjoin (.setUse h1)
          · split
            next s2 _ e2 => exact .fst (.readRecord h1) e2
            next s2 r e2 =>
              have h2 : s2.Canonical := .fst (.readRecord h1) e2
              split
              · exact h
              · split
                · exact h
                · split
                  next s3 stamp e3 =>
                    have h3 : s3.Canonical := .fst (.takeId h2) e3
                    extract_lets x x'
                    split
                    · exact .pair (.modGang (hjoin h3))
                    · exact hjoin (.setUse h3)

theorem State.Canonical.copyAccept (h : s.Canonical) {seq l : Nat} : (s.copyAccept seq l).1.Canonical := by
  unfold State.copyAccept
  extract_lets k
  split
  · exact h
  · extract_lets trap
    have htrap {c : Cause} : (trap c).1.Canonical := .pair (.modGang h)
    split
    · extract_lets row
      split
      · exact htrap
      · split
        · exact htrap
        · exact .pair (.modGang (.setUse h))
    · split
      · exact h
      · exact .pair (.modGang (.setUse h))

theorem Op.Canonical.opCopy {f : Fields} {seq : Nat} : (opCopy f seq).Canonical :=
  .opGang (fun _ _ h1 => .copyIssue h1)

theorem AnswerCanonical.execCpy (h : s.Canonical) {f : Fields} : AnswerCanonical (execCpy f s) :=
  .runInstr h .opCopy

theorem AnswerCanonical.execCpyAcceptDeferred (h : s.Canonical) {k w : Nat} : AnswerCanonical (execCpyAcceptDeferred k w s) := by
  unfold Machine.execCpyAcceptDeferred
  refine .next ?_
  split
  · split
    · exact .wakeOp h (.opGang (fun _ _ h1 => .copyAccept h1))
    · exact h
  · exact h

theorem State.Canonical.elemAddr (h : s.Canonical) {core : Nat} {x : CopyUse} {e : Nat} : (s.elemAddr core x e).1.Canonical := by
  unfold State.elemAddr
  dsimp only
  split
  · exact h
  · split
    · split
      · split
        next _ s1 _ e2 =>
          have h2 : s1.Canonical := .fst (.scratchRead h) e2
          split
          · split
            · exact h2
            · exact h2
          · split
            · exact h2
            · exact h2
        next _ s2 _ e3 =>
          exact .fst (.scratchRead h) e3
      · exact h
    · exact h

theorem State.Canonical.engineSpot (h : s.Canonical) {core : Nat} {x : CopyUse} {scr : Bool} {y : Int} {acc : Access} :
    (s.engineSpot core x scr y acc).1.Canonical := by
  unfold State.engineSpot
  dsimp only
  split
  · split
    · exact h
    · exact h
  · split
    · exact h
    · split
      next _ s1 _ e1 =>
        exact .fst (.translate h) e1
      next _ s2 _ _ _ e2 =>
        have h2 : s2.Canonical := .fst (.translate h) e2
        split
        · exact h2
        · exact h2
      next _ s3 _ _ _ e3 =>
        exact .fst (.translate h) e3

theorem State.Canonical.journalBatch (h : s.Canonical) {blk stamp status : Nat} {p : UsePart} :
    (s.journalBatch blk stamp status p).Canonical :=
  .same h rfl

theorem State.Canonical.completePart (h : s.Canonical) {blk stamp status : Nat} {p : UsePart} :
    (s.completePart blk stamp status p).Canonical := by
  unfold State.completePart
  split
  · split
    · exact .same h rfl
    · exact .journalBatch h
  · exact .journalBatch h

theorem State.Canonical.endUse (h : s.Canonical) {core u status : Nat} : (s.endUse core u status).Canonical := by
  unfold State.endUse
  dsimp only
  split
  · exact h
  · split
    · exact .modCore (.same h (by rfl))
    · exact .foldl (fun _ _ h1 => .completePart h1) (.modCore (.same h (by rfl)))

theorem State.Canonical.enterEngine (h : s.Canonical) {core u : Nat} {handle : BitVec 16} :
    (s.enterEngine core u handle).Canonical := by
  unfold State.enterEngine
  dsimp only
  exact .enter (.agentWrite h)

theorem State.Canonical.pauseUse (h : s.Canonical) {core u n : Nat} {c : Cause} {acc level : Nat} {va : Int} :
    (s.pauseUse core u n c acc level va).Canonical := by
  unfold State.pauseUse
  dsimp only
  split
  · exact h
  · split
    · exact .setUse h
    · split
      · exact .enterEngine (.writeRecord (.setUse h))
      · exact .hold (.writeRecord (.setUse h))

theorem State.Canonical.chunkSpots (h : s.Canonical) {core : Nat} {x : CopyUse} {es : List Nat} :
    (s.chunkSpots core x es).1.Canonical := by
  induction es generalizing s with
  | nil => exact .pair h
  | cons e es ih =>
    unfold State.chunkSpots
    dsimp only
    split
    next _ s1 e1 => exact .fst (.elemAddr h) e1
    next _ s2 a d e2 =>
      have h2 : s2.Canonical := .fst (.elemAddr h) e2
      generalize hp : (ite (rMode x.record = 6) _ _ : State × Except Miss (Option Spot)) = p
      have h3 : p.1.Canonical := by
        rw [← hp]
        split
        · exact h2
        · split
          next e4 => exact .fst (.engineSpot h2) e4
          next e5 => exact .fst (.engineSpot h2) e5
      split
      · exact h3
      · exact h3
      next s4 _ =>
        have h4 : s4.Canonical := h3
        split
        next e6 => exact .fst (.engineSpot h4) e6
        next e7 => exact .fst (.engineSpot h4) e7
        next s5 _ e8 =>
          have h5 : s5.Canonical := .fst (.engineSpot h4) e8
          split
          next e9 => exact .fst (ih h5) e9
          next e10 => exact .fst (ih h5) e10

theorem State.Canonical.chunkRead (h : s.Canonical) {core u n : Nat} {x : CopyUse} {l : List (Option Spot × Int)} :
    (s.chunkRead core u n x l).1.Canonical := by
  unfold State.chunkRead
  dsimp only
  refine .foldl_fst (fun _ _ h1 => ?_) h
  split
  · exact h1
  · split
    · exact h1
    · split
      next _ s1 _ e1 =>
        exact .fst (.scratchRead h1) e1
      next _ s2 _ e2 =>
        exact .fst (.scratchRead h1) e2
    · split
      next _ s3 e3 =>
        exact .of_eq_some (.sendRemote h1) e3
      · exact h1
    · split
      next _ s4 _ e4 =>
        exact .fst (.agentRead h1) e4
      next _ s5 _ e5 =>
        exact .fst (.agentRead h1) e5
    · exact h1

theorem State.Canonical.dropChunkL1 (h : s.Canonical) {core : Nat} {x : CopyUse} {y : Spot} :
    (s.dropChunkL1 core x y).Canonical := by
  unfold State.dropChunkL1
  split
  · split
    · exact .dropL1 (.dropL1 (.dropL1 h))
    · exact .dropL1 h
  · exact h

theorem OptCanonical.chunkPut (h : s.Canonical) {core u n : Nat} {x : CopyUse} {w : ChunkWrite} :
    OptCanonical (s.chunkPut core u n x w) := by
  unfold State.chunkPut
  dsimp only
  split
  · split
    · exact .of_some (.modScratch (.scratchWrite (.dropChunkL1 h)) (fun _ h1 => h1))
    · refine .of_some ?_
      split
      · exact .scratchSound (.scratchWrite (.dropChunkL1 h))
      · exact .scratchWrite (.dropChunkL1 h)
  · exact .sendRemote (.dropChunkL1 h)
  · split
    · exact .of_some (.poisonAtom (.drainRed (.dropChunkL1 h)))
    · refine .of_some ?_
      split
      · exact .clearPoison (.agentWrite (.dropChunkL1 h))
      · exact .agentWrite (.dropChunkL1 h)
  · exact .of_some (.dropChunkL1 h)

theorem State.Canonical.chunkReduce (h : s.Canonical) {x : CopyUse} {refused : List Nat} {pa v : Nat} :
    (s.chunkReduce x refused pa v).1.Canonical := by
  unfold State.chunkReduce
  dsimp only
  exact .applyRed (.drainRed h)

theorem OptCanonical.chunkWrites (h : s.Canonical) {core u n : Nat} {x : CopyUse} {ws : List ChunkWrite} :
    OptCanonical (s.chunkWrites core u n x ws) := by
  have hput : ∀ (t : State) (w : ChunkWrite) (l : List Nat), t.Canonical →
      ∀ r : State × List Nat, ((t.chunkPut core u n x w).map fun v => (v, l)) = some r → r.1.Canonical := by
    intro t w l ht r e
    obtain ⟨v, hv, rfl⟩ := Option.map_eq_some_iff.1 e
    exact .of_eq_some (.chunkPut ht) hv
  intro t e
  obtain ⟨⟨u1, no⟩, hu, rfl⟩ := Option.map_eq_some_iff.1 e
  have hu1 : (u1, no).1.Canonical := by
    refine keeps_foldl (P := fun o : Option (State × List Nat) => ∀ r, o = some r → r.1.Canonical) (fun o w ho r hr => ?_)
      (fun r hr => ?_) (u1, no) hu
    · obtain ⟨⟨v, l⟩, hv, hr⟩ := Option.bind_eq_some_iff.1 hr
      have h1 : v.Canonical := ho (v, l) hv
      dsimp only at hr
      split at hr
      · exact hput v w l h1 r hr
      · split at hr
        · cases hr
          exact .chunkReduce (.dropChunkL1 h1)
        · exact hput v w l h1 r hr
      · exact hput v w l h1 r hr
    · cases hr
      exact h
  exact .foldl (fun _ _ hs => .logError hs) hu1

theorem State.Canonical.chunkTargets (h : s.Canonical) {core : Nat} {x : CopyUse} {es : List (Int × Nat × Bool)} :
    (s.chunkTargets core x es).1.Canonical := by
  induction es generalizing s with
  | nil => exact .pair h
  | cons e es ih =>
    unfold State.chunkTargets
    split
    next e1 => exact .fst (.engineSpot h) e1
    next e2 => exact .fst (.engineSpot h) e2
    next s1 _ e3 =>
      have h1 : s1.Canonical := .fst (.engineSpot h) e3
      split
      next e4 => exact .fst (ih h1) e4
      next e5 => exact .fst (ih h1) e5

theorem State.Canonical.ackChunk (h : s.Canonical) {core u n : Nat} : (s.ackChunk core u n).Canonical := by
  unfold State.ackChunk
  split
  · exact h
  · split
    · exact .setUse h
    · exact h

theorem State.Canonical.writeChunk (h : s.Canonical) {core u : Nat} {x : CopyUse} {b : ChunkBuf} :
    (s.writeChunk core u x b).Canonical := by
  unfold State.writeChunk
  dsimp only
  split
  next _ s1 _ _ _ _ e1 =>
    have h1 : s1.Canonical := .fst (.chunkTargets h) e1
    exact .pauseUse h1
  next _ s2 _ _ e2 =>
    exact .fst (.chunkTargets h) e2
  next _ s3 _ e3 =>
    have h3 : s3.Canonical := .fst (.chunkTargets h) e3
    split
    · exact h
    next _ s4 e4 =>
      have h4 : s4.Canonical := .of_eq_some (.chunkWrites h3) e4
      exact .ackChunk (.setUse h4)

theorem State.Canonical.rereadChunk (h : s.Canonical) {core u : Nat} {x : CopyUse} {b : ChunkBuf} :
    (s.rereadChunk core u x b).Canonical := by
  unfold State.rereadChunk
  dsimp only
  split
  · exact h
  · split
    next _ s1 _ _ e1 =>
      have h1 : s1.Canonical := .fst (.engineSpot h) e1
      exact .pauseUse h1
    next _ s2 e2 =>
      exact .fst (.engineSpot h) e2
    next _ s3 _ e3 =>
      have h3 : s3.Canonical := .fst (.engineSpot h) e3
      split
      · exact h
      next _ s5 _ e5 =>
        have h5 : s5.Canonical := .fst (.chunkRead h3) e5
        exact .setUse h5

theorem State.Canonical.runChunk (h : s.Canonical) {c u n : Nat} {x : CopyUse} : (s.runChunk c u n x).Canonical := by
  unfold State.runChunk
  dsimp only
  split
  · split
    · exact .rereadChunk h
    · split
      · exact .writeChunk h
      · exact h
  · split
    · exact h
    · split
      · exact h
      · split
        next _ s1 e1 =>
          have h1 : s1.Canonical := .fst (.chunkSpots h) e1
          exact .endUse h1
        next _ s2 _ _ _ _ e2 =>
          have h2 : s2.Canonical := .fst (.chunkSpots h) e2
          exact .pauseUse h2
        next _ s3 e3 =>
          exact .fst (.chunkSpots h) e3
        next _ s4 _ e4 =>
          have h4 : s4.Canonical := .fst (.chunkSpots h) e4
          split
          · exact h
          next _ s6 _ e6 =>
            have h6 : s6.Canonical := .fst (.chunkRead h4) e6
            split
            · exact .writeChunk (.setUse h6)
            · exact .setUse h6

theorem AnswerCanonical.execCopyChunk (h : s.Canonical) {c u n : Nat} : AnswerCanonical (execCopyChunk c u n s) := by
  unfold Machine.execCopyChunk
  refine .next ?_
  split
  · exact h
  · split
    · exact h
    · split
      · exact .endUse h
      · exact .runChunk h

theorem State.Canonical.engineArrive (h : s.Canonical) {core u : Nat} {x : CopyUse} {lo phase delta : Nat} :
    (s.engineArrive core u x lo phase delta).1.Canonical := by
  unfold State.engineArrive
  dsimp only
  split
  · exact .pair (.endUse (.same h (by rfl)))
  · split
    · exact .pair h
    next b odd off e =>
      have hb : b.Canonical := by
        obtain ⟨c, hc, hcb⟩ := Option.bind_eq_some_iff.1 e
        obtain ⟨y, -, hy⟩ := Option.map_eq_some_iff.1 hcb
        cases hy
        exact .of_block? h hc
      split
      · exact .pair h
      · split
        · split
          · exact .pair (.setBlock h (.same hb (by rfl)))
          · exact .pair h
        · split
          next e1 => exact .fst (.arrive h) e1
          next e2 => exact .fst (.arrive h) e2

theorem AnswerCanonical.execCopySrcDone (h : s.Canonical) {c u : Nat} : AnswerCanonical (execCopySrcDone c u s) := by
  unfold Machine.execCopySrcDone
  refine .next ?_
  split
  · exact h
  · split
    · split
      · exact h
      next _ s2 _ e2 =>
        have h2 : s2.Canonical := .fst (.engineArrive (.setUse h)) e2
        split
        · exact .setUse h2
        · exact h2
    · exact h

theorem AnswerCanonical.execCopyVisible (h : s.Canonical) {c u : Nat} : AnswerCanonical (execCopyVisible c u s) := by
  unfold Machine.execCopyVisible
  refine .next ?_
  split
  · exact h
  · split
    · split
      · split
        · exact h
        next _ s2 _ e2 =>
          have h2 : s2.Canonical := .fst (.engineArrive h) e2
          exact .endUse h2
      · exact .endUse h
    · exact h

theorem Op.Canonical.opBatch {f : Fields} : (opBatch f).Canonical := by
  unfold Machine.opBatch
  refine .opGang (fun _ _ h1 => ?_)
  dsimp only
  split
  · exact h1
  · split
    · exact h1
    · exact .pair (.setGang h1)

theorem AnswerCanonical.execCbatch (h : s.Canonical) {f : Fields} : AnswerCanonical (execCbatch f s) :=
  .runInstr h .opBatch

theorem AnswerCanonical.execCbatchDeferredSeal (h : s.Canonical) {k w : Nat} :
    AnswerCanonical (execCbatchDeferredSeal k w s) := by
  unfold Machine.execCbatchDeferredSeal
  refine .next ?_
  split
  · split
    · exact .wakeOp h .opBatch
    · exact h
  · exact h

theorem Op.Canonical.opCwait {f : Fields} : (opCwait f).Canonical := by
  unfold Machine.opCwait
  refine .awaitFlush (.opGang (fun _ _ h1 => ?_))
  split
  · exact h1
  · exact h1

theorem AnswerCanonical.execCwait (h : s.Canonical) {f : Fields} : AnswerCanonical (execCwait f s) :=
  .runInstr h .opCwait

theorem AnswerCanonical.execCwaitRelease (h : s.Canonical) {k w : Nat} : AnswerCanonical (execCwaitRelease k w s) := by
  unfold Machine.execCwaitRelease
  refine .next ?_
  split
  · split
    · exact .wakeOp h .opCwait
    · exact h
  · exact h

theorem AnswerCanonical.execCstat (h : s.Canonical) {f : Fields} : AnswerCanonical (execCstat f s) := by
  unfold Machine.execCstat
  refine .runInstr h (.opGang (fun _ _ h1 => ?_))
  dsimp only
  split
  · exact h1
  · exact h1

end Sys2Proof.Machine
end

