-- ==== Sys2Proof/Proofs/CanonicalMatrix.lean ====
section
/-! PROOFS. Requests to the porters, the matrix engine and porter calls keep the canonical form (log 2). -/

namespace Sys2Proof.Machine

variable {s : State}

theorem State.Canonical.offer (h : s.Canonical) {cl : Nat} {e : DqEntry} : (s.offer cl e).Canonical := by
  unfold State.offer
  split
  · exact .enter h
  · exact .hold h

theorem State.Canonical.preempt (h : s.Canonical) {k : Nat} {whole : Bool} : (s.preempt k whole).Canonical := by
  unfold State.preempt
  dsimp only
  split
  · exact h
  · exact .offer (.same h (by rfl))

theorem State.Canonical.cancelUses (h : s.Canonical) {blk : Nat} {f : CopyUse → Bool} : (s.cancelUses blk f).Canonical :=
  .foldl (fun _ _ h1 => .endUse h1) h

theorem State.Canonical.evictWhole (h : s.Canonical) {blk : Nat} : (s.evictWhole blk).Canonical := by
  unfold State.evictWhole
  dsimp only
  split
  · exact h
  next _ b1 e1 =>
    have h1 : b1.Canonical := .of_block? h e1
    split
    · exact h
    · exact .cancelUses (.foldl (fun _ _ h2 => .preempt h2) (.setBlock h (.same h1 (by rfl))))

theorem AnswerCanonical.execMbind (h : s.Canonical) {f : Fields} : AnswerCanonical (execMbind f s) := by
  unfold Machine.execMbind
  refine .runInstr h (.opGang (fun _ _ h1 => ?_))
  dsimp only
  split
  · exact h1
  · refine .pair ?_
    split
    · exact .evictWhole (.modBlock (.modGang h1) (fun _ h2 => .same h2 (by rfl)))
    · exact .modCore (.modGang h1)

theorem State.Canonical.completeBind (h : s.Canonical) {k set q : Nat} : (s.completeBind k set q).Canonical := by
  unfold State.completeBind
  dsimp only
  split
  · exact h
  · refine .foldl (fun _ _ h1 => ?_) (.setGang h)
    split
    · exact .wakeOp h1 (.opGang (fun _ _ h2 => h2))
    · exact h1

theorem AnswerCanonical.execMatrixSetForm (h : s.Canonical) {c set : Nat} : AnswerCanonical (execMatrixSetForm c set s) := by
  unfold Machine.execMatrixSetForm
  dsimp only
  refine .next ?_
  split
  · exact .completeBind (.completeBind (.completeBind (.completeBind (.modCore h))))
  · exact h

theorem AnswerCanonical.execMbindU (h : s.Canonical) {f : Fields} : AnswerCanonical (execMbindU f s) := by
  unfold Machine.execMbindU
  refine .runInstr h (.opGang (fun _ _ h1 => ?_))
  dsimp only
  split
  · exact h1
  · split
    · exact h1
    · exact .pair (.dissolveSet h1)

theorem Op.Canonical.opCollective {i : Instr} {f : Fields} : (opCollective i f).Canonical := by
  refine ⟨fun _ _ _ => .of_none, fun _ _ h => ?_, fun _ _ _ _ h => ?_⟩
  · unfold Machine.opCollective Op.base
    dsimp only
    split
    · exact h
    · exact h
  · unfold Machine.opCollective
    dsimp only
    split
    · exact h
    · exact .modGang h

theorem AnswerCanonical.execMma (h : s.Canonical) {f : Fields} : AnswerCanonical (execMma f s) :=
  .runInstr h .opCollective

theorem AnswerCanonical.execMzero (h : s.Canonical) {f : Fields} : AnswerCanonical (execMzero f s) :=
  .runInstr h .opCollective

theorem AnswerCanonical.execMlda (h : s.Canonical) {f : Fields} : AnswerCanonical (execMlda f s) :=
  .runInstr h .opCollective

theorem AnswerCanonical.execMsta (h : s.Canonical) {f : Fields} : AnswerCanonical (execMsta f s) :=
  .runInstr h .opCollective

theorem AnswerCanonical.execMrgd (h : s.Canonical) {f : Fields} : AnswerCanonical (execMrgd f s) := by
  unfold Machine.execMrgd
  refine .runInstr h (.opGang (fun _ _ h1 => ?_))
  dsimp only
  exact .modGang h1

theorem State.Canonical.setTile (h : s.Canonical) {core i : Nat} {t : Tile} : (s.setTile core i t).Canonical :=
  .modCore h

theorem State.Canonical.readImage (h : s.Canonical) {blk : Nat} {l : List (Bool × Nat)} : (s.readImage blk l).1.Canonical := by
  unfold State.readImage
  refine .foldl_fst (fun _ _ h1 => ?_) h
  split
  next _ s1 _ e1 =>
    exact .fst (.scratchRead h1) e1
  next _ s2 _ e2 =>
    exact .fst (.scratchRead h1) e2

theorem AnswerCanonical.execMmaComplete (h : s.Canonical) {c : Nat} : AnswerCanonical (execMmaComplete c s) := by
  unfold Machine.execMmaComplete
  refine .next ?_
  dsimp only
  split
  · exact h
  · refine .modCore (.setTile ?_)
    split
    · exact .logError (.same h (by rfl))
    · exact .same h rfl

theorem State.Canonical.finishCollective (h : s.Canonical) {k : Nat} : (s.finishCollective k).Canonical :=
  .settle (.modGang h)

theorem State.Canonical.trapCollective (h : s.Canonical) {k : Nat} {fault : Nat → LaneFault} :
    (s.trapCollective k fault).Canonical := by
  unfold State.trapCollective
  split
  · exact h
  · split
    · exact h
    · exact .settle (.trapLanes (.setGang h))

theorem State.Canonical.trapSet (h : s.Canonical) {ks : List Nat} {fault : Nat → LaneFault} : (s.trapSet ks fault).Canonical :=
  .foldl (fun _ _ h1 => .trapCollective h1) h

theorem State.Canonical.finishSet (h : s.Canonical) {ks : List Nat} : (s.finishSet ks).Canonical :=
  .foldl (fun _ _ h1 => .finishCollective h1) h

theorem State.Canonical.startMma (h : s.Canonical) {c blk : Nat} {ks : List Nat} {f : Fields} {l : List Issued} :
    (s.startMma c blk ks f l).Canonical := by
  unfold State.startMma
  dsimp only
  split
  · exact .trapSet h
  · split
    · exact .trapSet h
    · exact .trapSet h
    · exact .finishSet (.modCore (.setTile (.readImage (.readImage (.readImage h)))))

theorem State.Canonical.startMlda (h : s.Canonical) {c blk : Nat} {ks : List Nat} {f : Fields} {x : Issued} :
    (s.startMlda c blk ks f x).Canonical := by
  unfold State.startMlda
  dsimp only
  split
  · exact .trapSet h
  · split
    · exact h
    · split
      next _ s1 _ e1 =>
        have h1 : s1.Canonical := .fst (.readImage h) e1
        exact .finishSet (.setTile h1)
      next _ s2 _ _ _ e2 =>
        have h2 : s2.Canonical := .fst (.readImage h) e2
        exact .trapSet h2

theorem State.Canonical.countHits (h : s.Canonical) {k : Nat} {x : Issued} {hits : Nat} : (s.countHits k x hits).Canonical := by
  unfold State.countHits
  dsimp only
  split
  · split
    · split
      · exact h
      · exact .modGang h
    · exact h
  · exact h

theorem State.Canonical.startMsta (h : s.Canonical) {c blk : Nat} {ks : List Nat} {f : Fields} {l : List Issued} :
    (s.startMsta c blk ks f l).Canonical := by
  unfold State.startMsta
  dsimp only
  split
  · exact .trapSet h
  · split
    · exact h
    · split
      · exact .trapSet h
      · split
        · exact .trapSet (.foldl (fun _ _ h1 => .countHits h1) h)
        · exact .finishSet (.scratchWrite (.foldl (fun _ _ h2 => .countHits h2) h))

theorem State.Canonical.nameTile (h : s.Canonical) {core set tile : Nat} : (s.nameTile core set tile).Canonical :=
  .modCore h

theorem AnswerCanonical.execMatrixCollectiveStart (h : s.Canonical) {c set : Nat} :
    AnswerCanonical (execMatrixCollectiveStart c set s) := by
  unfold Machine.execMatrixCollectiveStart
  dsimp only
  refine .next ?_
  split
  · exact h
  · split
    · split
      · exact .trapSet h
      · split
        · exact .finishSet h
        · split
          · exact h
          next _ s1 e1 =>
            have h1 : s1.Canonical := .of_eq_some (.drain h) e1
            split
            · exact .nameTile (.startMma h1)
            · split
              · exact h1
              · exact .nameTile (.finishSet (.setTile h1))
            · exact .nameTile (.startMlda h1)
            · exact .nameTile (.startMsta h1)
            · exact h1
    · exact h

theorem State.Canonical.makeCall (h : s.Canonical) {k : Nat} {lanes : List Nat} {pc : Pc} {f : Fields} {async : Bool} :
    (s.makeCall k lanes pc f async).Canonical := by
  unfold State.makeCall
  dsimp only
  split
  · exact h
  · exact .enter (.modCluster (.modCore h))

theorem Op.Canonical.opCall {i : Instr} {f : Fields} {async : Bool} : (opCall i f async).Canonical := by
  unfold Machine.opCall
  extract_lets _ b
  have hb : b.Canonical := by
    refine .base fun _ _ h => ?_
    dsimp only
    split
    · exact h
    · split
      · exact h
      · split
        · exact h
        next _ s1 e1 => exact .of_eq_some (.drainThread h) e1
  refine .publishes ⟨hb.walks, hb.body, fun t done standing _ h => ?_⟩
  dsimp -zeta only
  extract_lets k t1
  have h1 : t1.Canonical := .branch h (.hold h)
  exact .branch h1 (.makeCall h1)

theorem AnswerCanonical.execSysc (h : s.Canonical) {f : Fields} : AnswerCanonical (execSysc f s) :=
  .runInstr h .opCall

theorem AnswerCanonical.execSyscA (h : s.Canonical) {f : Fields} : AnswerCanonical (execSyscA f s) :=
  .runInstr h .opCall

theorem OptCanonical.enterCall (h : s.Canonical) {k : Nat} {lanes : Lanes} {pc : Pc} {i : Instr} {insn : Insn} :
    OptCanonical (s.enterCall k lanes pc i insn) := by
  unfold State.enterCall
  dsimp only
  split
  · split
    · exact .of_some h
    · split
      · exact .of_some (.settle (.trapLanes (.setGang h)))
      · exact .map (fun _ h1 => .settle (.modGang (.makeCall h1))) (.drainAll h)
  · exact .of_some h

theorem OptCanonical.enterTrap (h : s.Canonical) {k : Nat} {pc : Pc} {insn : Insn} {faults : List LaneFault} :
    OptCanonical (s.enterTrap k pc insn faults) := by
  unfold State.enterTrap
  dsimp only
  split
  · split
    · exact .of_some h
    · exact .map (fun _ h1 => .settle h1) (.tryTrap h)
  · exact .of_some h

theorem AnswerCanonical.execHeldSourceEnter (h : s.Canonical) {cl i : Nat} : AnswerCanonical (execHeldSourceEnter cl i s) := by
  unfold Machine.execHeldSourceEnter
  refine .next ?_
  dsimp only
  split
  · exact h
  · split
    · split
      · exact .getD (.enterTrap (.modCluster h)) h
      · exact .getD (.enterCall (.modCluster h)) h
      · exact .enterEngine (.modCluster h)
      · exact .enter (.modCluster h)
    · exact h

theorem State.Canonical.dropHeld (h : s.Canonical) {k : Nat} : (s.dropHeld k).Canonical :=
  .modCluster h

end Sys2Proof.Machine
end

