-- ==== Sys2Proof/Proofs/CanonicalStatePort.lean ====
section
/-! PROOFS. The accesses of the porters, the state port, the gang commands, evictions and resumptions keep the canonical form (log 2). -/

namespace Sys2Proof.Machine

variable {s : State}

theorem State.Canonical.porterLeaf (h : s.Canonical) {cl va : Nat} {again : Bool} : (s.porterLeaf cl va again).1.Canonical := by
  unfold State.porterLeaf
  dsimp only
  split
  · exact h
  · split
    · exact .pair (.modPorter h)
    · split
      next _ s1 _ _ e1 =>
        have h1 : s1.Canonical := .fst (.walk h) e1
        exact .pair (.modPorter (.installCluster h1))
      next _ s2 _ _ e2 =>
        exact .fst (.walk h) e2

theorem State.Canonical.porterMiss (h : s.Canonical) {cl va : Nat} {x : PorterMiss} : (s.porterMiss cl va x).Canonical := by
  unfold State.porterMiss
  split
  · exact .porterExcept h
  · exact h

theorem State.Canonical.porterPa (h : s.Canonical) {cl va : Nat} {acc : Access} : (s.porterPa cl va acc).1.Canonical := by
  unfold State.porterPa
  extract_lets p m
  split
  · exact h
  · split
    · exact h
    · split
      next s1 w e1 =>
        have h1 : s1.Canonical := .fst (.porterLeaf h) e1
        split
        next s2 w2 e2 =>
          have h2 : s2.Canonical := by
            refine .fst ?_ e2
            split
            · split
              · exact .porterLeaf h1
              · exact h1
            · exact h1
          split <;> exact .pair h2

theorem State.Canonical.porterTarget (h : s.Canonical) {cl va : Nat} {acc : Access} : (s.porterTarget cl va acc).1.Canonical := by
  unfold State.porterTarget
  split
  next _ s1 _ e1 =>
    exact .fst (.porterPa h) e1
  next _ s2 _ e2 =>
    have h2 : s2.Canonical := .fst (.porterPa h) e2
    split
    · exact h2
    · exact h2
    · exact h2

theorem State.Canonical.readBytes (h : s.Canonical) {pa n asid : Nat} : (s.readBytes pa n asid).1.Canonical := by
  unfold State.readBytes
  refine .foldl_fst (fun _ _ h1 => ?_) h
  dsimp only
  split
  · exact h1
  · split
    next _ s1 _ e1 =>
      exact .fst (.agentRead h1) e1
    next _ s2 _ e2 =>
      exact .fst (.agentRead h1) e2

theorem State.Canonical.operandRead (h : s.Canonical) {cl va n : Nat} : (s.operandRead cl va n).1.Canonical := by
  unfold State.operandRead
  split
  · exact h
  · split
    next _ s1 e1 =>
      exact .fst (.porterTarget h) e1
    next _ s2 _ e2 =>
      exact .fst (.porterTarget h) e2
    next _ s3 _ _ e3 =>
      exact .fst (.porterTarget h) e3
    next _ s4 _ _ _ e4 =>
      have h4 : s4.Canonical := .fst (.porterTarget h) e4
      split
      · exact h4
      · split
        · exact h4
        · exact .pair (.getD (.sendRemote h4) h4)
    next _ s5 _ _ _ _ e5 =>
      have h5 : s5.Canonical := .fst (.porterTarget h) e5
      split
      next _ s6 _ e6 =>
        exact .fst (.readBytes h5) e6
      next _ s7 e7 =>
        exact .fst (.readBytes h5) e7

theorem State.Canonical.operandLines (h : s.Canonical) {cl va n : Nat} : (s.operandLines cl va n).1.Canonical := by
  induction n with
  | zero => exact .pair h
  | succ n ih =>
    unfold State.operandLines
    split
    next e1 => exact .fst ih e1
    next s1 _ e1 =>
      have h1 : s1.Canonical := .fst ih e1
      split
      next e2 => exact .fst (.porterTarget h1) e2
      next e2 => exact .fst (.porterTarget h1) e2
      next e2 => exact .fst (.porterTarget h1) e2

theorem State.Canonical.operandWrite (h : s.Canonical) {cl va n x : Nat} : (s.operandWrite cl va n x).1.Canonical := by
  unfold State.operandWrite
  dsimp only
  split
  · exact h
  · split
    next _ s1 _ e1 =>
      exact .fst (.operandLines h) e1
    next _ s2 _ _ e2 =>
      exact .fst (.operandLines h) e2
    next _ s3 _ e3 =>
      have h3 : s3.Canonical := .fst (.operandLines h) e3
      split
      · exact .pair (.getD (.sendRemote h3) h3)
      · refine .pair (.foldl (fun _ _ h4 => ?_) h3)
        split
        · exact h4
        · exact .writeRecord h4

theorem State.Canonical.custom (h : s.Canonical) {cl : Nat} {d : BitVec 5}
    {act : State → State × PEnd} (hact : ∀ t, t.Canonical → (act t).1.Canonical) :
    (s.custom cl d act).Canonical := by
  unfold State.custom
  dsimp only
  split
  · exact .porterExcept h
  · split
    · exact h
    · split
      next _ s1 _ _ e1 =>
        have h1 : s1.Canonical := .fst (hact _ h) e1
        exact .modPorter h1
      next _ s2 _ _ e2 =>
        have h2 : s2.Canonical := .fst (hact _ h) e2
        exact .porterExcept h2
      next _ s3 e3 =>
        exact .fst (hact _ h) e3

theorem State.Canonical.evictThread (h : s.Canonical) {k lane : Nat} : (s.evictThread k lane).Canonical := by
  unfold State.evictThread
  dsimp only
  split
  · exact h
  · split
    · exact .commitThread (.setGang h)
    · exact .dropLoads (.setGang h)

theorem State.Canonical.stopGang (h : s.Canonical) {k : Nat} : (s.stopGang k).Canonical := by
  unfold State.stopGang
  dsimp only
  split
  · exact h
  · refine .foldl (fun _ _ h1 => ?_) (.dropHeld (.setGang h))
    split
    · exact h1
    · exact .evictThread h1

theorem State.Canonical.haltGang (h : s.Canonical) {k : Nat} : (s.haltGang k).Canonical := by
  unfold State.haltGang
  dsimp only
  split
  · exact h
  · exact .modGang (.foldl (fun _ _ h1 => .evictThread h1) h)

theorem State.Canonical.writeBytes (h : s.Canonical) {pa : Nat} {l : List Byte} : (s.writeBytes pa l).Canonical := by
  unfold State.writeBytes
  refine .foldl (fun _ _ h1 => ?_) h
  dsimp only
  exact .agentWrite h1

theorem State.Canonical.saveImage (h : s.Canonical) {g : Gang} {area : Nat} : (s.saveImage g area).Canonical := by
  unfold State.saveImage
  dsimp only
  exact .writeBytes (.writeBytes (.same h (by rfl)))

theorem State.Canonical.rekeyMonitors (h : s.Canonical) {k k' : Nat} : (s.rekeyMonitors k k').Canonical :=
  .modMem h (fun _ h1 => h1)

theorem State.Canonical.rekeySet (h : s.Canonical) {core core' set k k' : Nat} : (s.rekeySet core core' set k k').Canonical := by
  unfold State.rekeySet
  dsimp only
  split
  · exact .modCore h
  · split
    · exact .modCore (.modCore h)
    · exact h

theorem State.Canonical.rekeyUses (h : s.Canonical) {blk gidx k : Nat} : (s.rekeyUses blk gidx k).Canonical :=
  .same h rfl

theorem State.Canonical.freeCalls (h : s.Canonical) {k : Nat} : (s.freeCalls k).Canonical := by
  unfold State.freeCalls
  split
  · exact .setCore h
  · exact h

theorem State.Canonical.freeSlot (h : s.Canonical) {k : Nat} : (s.freeSlot k).Canonical := by
  unfold State.freeSlot
  dsimp only
  exact .same (.freeCalls (.dropHeld h)) rfl

theorem State.Canonical.keepGang (h : s.Canonical) {k : Nat} {now : Gang} : (s.keepGang k now).Canonical := by
  unfold State.keepGang
  dsimp only
  split
  · exact .same (.rekeySet (.rekeyMonitors h)) rfl
  · exact .same h rfl

theorem State.Canonical.restoreGang (h : s.Canonical) {k : Nat} {here : Gang} {x : SavedGang} {area : Nat} :
    (s.restoreGang k here x area).Canonical := by
  unfold State.restoreGang
  dsimp only
  refine .evaluateSlots ?_
  split
  · refine .modCore ?_
    split
    · exact .same (.rekeySet (.rekeyMonitors (.setGang h))) rfl
    · exact .same h rfl
  · split
    · exact .same (.rekeySet (.rekeyMonitors (.setGang h))) rfl
    · exact .same h rfl

theorem State.Canonical.cmdStop (h : s.Canonical) {k : Nat} {g : Gang} : (s.cmdStop k g).1.Canonical := by
  unfold State.cmdStop
  split
  · exact .pair (.stopGang h)
  · exact h
  · exact h
  · exact h

theorem State.Canonical.cmdRelease (h : s.Canonical) {k : Nat} {g : Gang} : (s.cmdRelease k g).1.Canonical := by
  unfold State.cmdRelease
  dsimp only
  split
  · exact .pair (.freeSlot h)
  · exact .pair (.freeSlot (.keepGang h))
  · exact .pair (.freeSlot (.same h (by rfl)))
  · exact h

theorem State.Canonical.cmdSave (h : s.Canonical) {k : Nat} {g : Gang} {area : Nat} : (s.cmdSave k g area).1.Canonical := by
  unfold State.cmdSave
  dsimp only
  split
  · exact h
  · split
    · exact h
    · exact .pair (.same (.saveImage (.setGang h)) (by rfl))

theorem State.Canonical.cmdRestore (h : s.Canonical) {k : Nat} {g : Gang} {area : Nat} : (s.cmdRestore k g area).1.Canonical := by
  unfold State.cmdRestore
  split
  · exact h
  · split
    · exact h
    · split
      · exact h
      · split
        · exact .pair (.restoreGang h)
        · exact h

theorem State.Canonical.cmdClear (h : s.Canonical) {k : Nat} {g : Gang} : (s.cmdClear k g).1.Canonical := by
  unfold State.cmdClear
  dsimp only
  split
  · exact h
  · refine .pair (.setGang ?_)
    refine .modMem ?_ (fun _ h1 => h1)
    split
    · exact .dissolveSet h
    · exact h

theorem State.Canonical.cmdKill (h : s.Canonical) {k : Nat} {g : Gang} : (s.cmdKill k g).1.Canonical := by
  unfold State.cmdKill
  dsimp only
  split
  · exact h
  · exact .pair (.endGang (.modGang (.foldl (fun _ _ h1 => .evictThread h1) (.freeCalls (.dropHeld (.setGang h))))))

theorem State.Canonical.clearFree (h : s.Canonical) {core : Nat} : (s.clearFree core).Canonical :=
  .modCore h

theorem State.Canonical.gangCommand (h : s.Canonical) {cl idx : Nat} {x : BitVec 16} {y : Nat} :
    (s.gangCommand cl idx x y).1.Canonical := by
  unfold State.gangCommand
  split
  · exact .pair (.clearFree h)
  · split
    · exact h
    · split
      · exact .cmdStop h
      · exact .cmdRelease h
      · exact .cmdSave h
      · exact .cmdRestore h
      · exact .cmdClear h
      · exact .cmdKill h
      · exact h

theorem State.Canonical.commandStep (h : s.Canonical) {cl idx : Nat} {x : BitVec 16} {y : Nat} :
    (s.commandStep cl idx x y).Canonical := by
  unfold State.commandStep
  dsimp only
  exact .modPorter (.gangCommand h)

theorem AnswerCanonical.execPgread (h : s.Canonical) {cl : Nat} {d x b : BitVec 5} : AnswerCanonical (execPgread cl d x b s) := by
  unfold Machine.execPgread
  refine .next (.custom h (fun _ h1 => ?_))
  dsimp only
  split
  · exact h1
  · split
    · exact h1
    · split
      · exact h1
      · split
        · exact .pair (.same h1 (by rfl))
        · exact h1

theorem State.Canonical.portStore (h : s.Canonical) {cl : Nat} {x : BitVec 16} {sel y : Nat} :
    (s.portStore cl x sel y).1.Canonical := by
  unfold State.portStore
  split
  · exact .gangCommand h
  · split
    · exact h
    · exact h
    · split
      · exact h
      · split
        · exact .pair (.setGang h)
        · exact h

theorem AnswerCanonical.execPgwrite (h : s.Canonical) {cl : Nat} {d x b c : BitVec 5} :
    AnswerCanonical (execPgwrite cl d x b c s) := by
  unfold Machine.execPgwrite
  refine .next (.custom h (fun _ h1 => ?_))
  dsimp only
  exact .portStore h1

theorem AnswerCanonical.execGangStop (h : s.Canonical) {cl : Nat} {x : BitVec 16} : AnswerCanonical (execGangStop cl x s) :=
  .next (.commandStep h)

theorem AnswerCanonical.execGangRelease (h : s.Canonical) {cl : Nat} {x : BitVec 16} : AnswerCanonical (execGangRelease cl x s) :=
  .next (.commandStep h)

theorem AnswerCanonical.execGangSave (h : s.Canonical) {cl : Nat} {x : BitVec 16} {area : Nat} :
    AnswerCanonical (execGangSave cl x area s) :=
  .next (.commandStep h)

theorem AnswerCanonical.execGangRestore (h : s.Canonical) {cl : Nat} {x : BitVec 16} {area : Nat} :
    AnswerCanonical (execGangRestore cl x area s) :=
  .next (.commandStep h)

theorem AnswerCanonical.execGangClear (h : s.Canonical) {cl : Nat} {x : BitVec 16} : AnswerCanonical (execGangClear cl x s) :=
  .next (.commandStep h)

theorem AnswerCanonical.execGangKill (h : s.Canonical) {cl : Nat} {x : BitVec 16} : AnswerCanonical (execGangKill cl x s) :=
  .next (.commandStep h)

theorem AnswerCanonical.execGangClearfree (h : s.Canonical) {cl : Nat} {x : BitVec 16} :
    AnswerCanonical (execGangClearfree cl x s) :=
  .next (.commandStep h)

theorem AnswerCanonical.execGangHalt (h : s.Canonical) {k : Nat} : AnswerCanonical (execGangHalt k s) := by
  unfold Machine.execGangHalt
  refine .next ?_
  split
  · split
    · exact .haltGang h
    · exact h
  · exact h

theorem State.Canonical.answerCalls (h : s.Canonical) {k : Nat} {m : Lanes} : (s.answerCalls k m).Canonical := by
  unfold State.answerCalls
  split
  · exact h
  · exact .setCore h

theorem State.Canonical.resumeGang (h : s.Canonical) {k : Nat} {g : Gang} {m : Lanes} : (s.resumeGang k g m).1.Canonical := by
  unfold State.resumeGang
  extract_lets r held waits heldSet wake g1 s1 s2
  have h1 : s1.Canonical := .acquireL1 (.answerCalls (.setGang h))
  have h2 : s2.Canonical := by
    dsimp only [s2]
    split
    · exact .branch (.evalGroup h1) h1
    · exact h1
  exact .branch (.settle h2) h2

theorem AnswerCanonical.execPresume (h : s.Canonical) {cl : Nat} {d x b : BitVec 5} :
    AnswerCanonical (execPresume cl d x b s) := by
  unfold Machine.execPresume
  refine .next (.custom h (fun _ h1 => ?_))
  dsimp only
  split
  · exact h1
  · exact .pair (.resumeGang h1)

end Sys2Proof.Machine
end

