-- ==== Sys2Proof/Proofs/CanonicalMessages.lean ====
section
/-! PROOFS. Message channels, journals, call records, page walks and invalidations keep the canonical form (log 2). -/

namespace Sys2Proof.Machine

variable {s : State}

theorem State.Canonical.pushedClass (h : s.Canonical) {blk mbx entry : Nat} : (s.pushedClass blk mbx entry).Canonical := by
  unfold State.pushedClass
  dsimp only
  split
  · exact h
  · exact .modCore h

theorem State.Canonical.amendImage (h : s.Canonical) {b : Block}
    {f : State → Nat → State} (hf : ∀ t y1, t.Canonical → (f t y1).Canonical) :
    (s.amendImage b f).Canonical := by
  unfold State.amendImage
  dsimp only
  split
  · exact .writeBytes (hf _ _ h)
  · exact h

theorem State.Canonical.appendJournal (h : s.Canonical) {blk : Nat} {b : Block} (hb : b.Canonical) {e : JEntry} :
    (s.appendJournal blk b e).Canonical := by
  unfold State.appendJournal
  have hs := h.setBlock (b := blk) (hb.same (c := { b with journal := b.journal ++ [e] }) (by rfl))
  dsimp only
  split
  · exact .amendImage (.same hs (by rfl)) fun _ _ hu => .writeBytes hu
  · exact hs

theorem State.Canonical.refusePush (h : s.Canonical) {blk : Nat} {b : Block} {n : Nat} : (s.refusePush blk b n).Canonical := by
  unfold State.refusePush
  dsimp only
  split
  · exact .amendImage (.modScratch h fun _ hx => mem_wf_writeN hx _ _ _) fun _ _ hu => .agentWrite hu
  · exact .modScratch h fun _ hx => mem_wf_writeN hx _ _ _

theorem State.Canonical.journalPush (h : s.Canonical) {blk : Nat} {b : Block} (hb : b.Canonical) {n : Nat} {entry : W128} :
    (s.journalPush blk b n entry).1.Canonical := by
  unfold State.journalPush
  split
  · exact .appendJournal h hb
  · exact .refusePush h

theorem State.Canonical.pushTo (h : s.Canonical) {blk n : Nat} {entry : W128} : (s.pushTo blk n entry).1.Canonical := by
  unfold State.pushTo
  split
  · exact h
  next _ b1 e1 =>
    have h1 : b1.Canonical := .of_block? h e1
    split
    · split
      · exact h
      · split
        · exact .journalPush h h1
        · split
          next _ s1 _ e2 =>
            exact .fst (.push h) e2
          next _ s2 e3 =>
            exact .fst (.push h) e3
          next _ s3 _ _ _ e4 =>
            exact .fst (.push h) e4
    · exact .journalPush h h1

theorem State.Canonical.sendMailbox (h : s.Canonical) {dest entry : Nat} : (s.sendMailbox dest entry).1.Canonical := by
  unfold State.sendMailbox
  dsimp only
  split
  · exact h
  · split
    · exact h
    · split
      · exact h
      · split
        next _ s1 e1 =>
          exact .fst (.pushTo h) e1
        next _ s2 e2 =>
          exact .fst (.pushTo h) e2
        next _ s3 e3 =>
          exact .fst (.pushTo h) e3
        next _ s4 _ _ _ _ e4 =>
          have h4 : s4.Canonical := .fst (.pushTo h) e4
          exact .pair (.pushedClass h4)

theorem State.Canonical.pmsend (h : s.Canonical) {cl : Nat} {d x b : BitVec 5} : (s.pmsend cl d x b).Canonical := by
  unfold State.pmsend
  refine .custom h (fun _ h1 => ?_)
  dsimp only
  split
  next _ s2 e1 =>
    exact .fst (.operandRead h1) e1
  next _ s3 _ _ e2 =>
    exact .fst (.operandRead h1) e2
  next _ s4 _ e3 =>
    have h4 : s4.Canonical := .fst (.operandRead h1) e3
    split
    · split
      · exact h4
      next _ s6 _ e5 =>
        exact .fst (.sendMailbox h4) e5
    · split
      · exact h4
      · split
        next _ s7 e6 =>
          exact .fst (.sendChannel h4) e6
        next _ s8 e7 =>
          exact .fst (.sendChannel h4) e7

theorem AnswerCanonical.execPmsendChannel (h : s.Canonical) {cl : Nat} {d x b : BitVec 5} :
    AnswerCanonical (execPmsendChannel cl d x b s) :=
  .next (.pmsend h)

theorem AnswerCanonical.execPmsendMailbox (h : s.Canonical) {cl : Nat} {d x b : BitVec 5} :
    AnswerCanonical (execPmsendMailbox cl d x b s) :=
  .next (.pmsend h)

theorem State.Canonical.enterHeld (h : s.Canonical) {cl ch : Nat} : (s.enterHeld cl ch).Canonical := by
  unfold State.enterHeld
  split
  · split
    · split
      next _ s1 e1 =>
        have h1 : s1.Canonical := .fst (.sendChannel h) e1
        exact .same h1 rfl
      next _ s2 e2 =>
        exact .fst (.sendChannel h) e2
    · exact h
  · exact h

theorem AnswerCanonical.execPmrecv (h : s.Canonical) {cl : Nat} {d x b : BitVec 5} : AnswerCanonical (execPmrecv cl d x b s) := by
  unfold Machine.execPmrecv
  refine .next (.custom h (fun _ h1 => ?_))
  dsimp only
  split
  · exact h1
  · split
    · exact h1
    · split
      next _ s2 e1 =>
        exact .fst (.operandWrite h1) e1
      next _ s3 _ _ e2 =>
        exact .fst (.operandWrite h1) e2
      next _ s4 _ e3 =>
        have h4 : s4.Canonical := .fst (.operandWrite h1) e3
        exact .pair (.enterHeld (.modCluster h4))

theorem AnswerCanonical.execPcallrec (h : s.Canonical) {cl : Nat} {d x b : BitVec 5} :
    AnswerCanonical (execPcallrec cl d x b s) := by
  unfold Machine.execPcallrec
  refine .next (.custom h (fun _ h1 => ?_))
  dsimp only
  split
  · exact h1
  · split
    next _ s2 e1 =>
      exact .fst (.operandWrite h1) e1
    next _ s3 _ _ e2 =>
      exact .fst (.operandWrite h1) e2
    next _ s4 _ e3 =>
      exact .fst (.operandWrite h1) e3

theorem State.Canonical.takeCommit (h : s.Canonical) {ok : Nat → Bool} {c : Commit} {t : State} (e : s.takeCommit ok = some (c, t)) :
    t.Canonical := by
  unfold State.takeCommit at e
  split at e
  · split at e
    · cases e
      exact .same h rfl
    · cases e
  · cases e

theorem AnswerCanonical.execPageWalk (h : s.Canonical) {cl asid root va : Nat} :
    AnswerCanonical (execPageWalk cl asid root va s) := by
  unfold Machine.execPageWalk
  refine .next ?_
  split
  · exact h
  · split
    next _ s1 _ _ e1 =>
      have h1 : s1.Canonical := .fst (.walk h) e1
      exact .installCluster h1
    next _ s2 _ _ e2 =>
      exact .fst (.walk h) e2

theorem AnswerCanonical.execSfenceVma (h : s.Canonical) {cl : Nat} {rs1 rs2 : BitVec 5} :
    AnswerCanonical (execSfenceVma cl rs1 rs2 s) := by
  unfold Machine.execSfenceVma
  refine .next ?_
  dsimp only
  split
  · exact .porterExcept h
  · exact .modPorter h

theorem State.Canonical.dropCovered (h : s.Canonical) {cl : Nat} {t : Tlbi} : (s.dropCovered cl t).Canonical :=
  .same h rfl

theorem AnswerCanonical.execTlbiComplete (h : s.Canonical) {cl : Nat} : AnswerCanonical (execTlbiComplete cl s) := by
  unfold Machine.execTlbiComplete
  refine .next ?_
  dsimp only
  split
  · exact h
  · split
    · exact h
    · split
      · exact h
      next _ s1 e1 =>
        have h1 : s1.Canonical := .of_eq_some (.drain h) e1
        split
        · exact h
        · exact .modPorter (.foldl (fun _ _ h2 => .fireMonitor h2) (.dropCovered h1))

theorem State.Canonical.startTlbi (h : s.Canonical) {dev : Bool} : (s.startTlbi dev).Canonical := by
  unfold State.startTlbi
  dsimp only
  split
  · exact h
  next _ _ s1 e1 =>
    have h1 : s1.Canonical := .takeCommit h e1
    split
    · exact h
    · exact .modPorter h1

theorem AnswerCanonical.execTlbiCluster (h : s.Canonical) : AnswerCanonical (execTlbiCluster s) :=
  .next (.startTlbi h)

theorem AnswerCanonical.execTlbiDevice (h : s.Canonical) : AnswerCanonical (execTlbiDevice s) :=
  .next (.startTlbi h)

theorem AnswerCanonical.execEngineResume (h : s.Canonical) : AnswerCanonical (execEngineResume s) := by
  unfold Machine.execEngineResume
  refine .next ?_
  split
  · exact h
  next _ _ s1 e1 =>
    have h1 : s1.Canonical := .takeCommit h e1
    split
    · exact h
    · split
      · exact h1
      · exact .setUse h1

theorem AnswerCanonical.execEngineAbort (h : s.Canonical) : AnswerCanonical (execEngineAbort s) := by
  unfold Machine.execEngineAbort
  refine .next ?_
  split
  · exact h
  next _ _ s1 e1 =>
    have h1 : s1.Canonical := .takeCommit h e1
    split
    · exact h
    · split
      · exact h1
      · exact .endUse h1

theorem AnswerCanonical.execPorterTimerInterrupt (h : s.Canonical) {cl : Nat} :
    AnswerCanonical (execPorterTimerInterrupt cl s) := by
  unfold Machine.execPorterTimerInterrupt
  refine .next ?_
  dsimp only
  split
  · exact .modPorter h
  · exact h

end Sys2Proof.Machine
end

