-- ==== Sys2Proof/Proofs/CanonicalDistributor.lean ====
section
/-! PROOFS. Launches, admission, pre-emption, whole-block evictions and restorations keep the canonical form (log 2). -/

namespace Sys2Proof.Machine

variable {s : State}

theorem State.Canonical.distTranslate (h : s.Canonical) {asid root va : Nat} {acc : Access} :
    (s.distTranslate asid root va acc).1.Canonical := by
  unfold State.distTranslate
  split
  next _ s1 e1 =>
    exact .fst (.walk h) e1
  next _ s2 _ _ e2 =>
    exact .fst (.walk h) e2
  next _ s3 _ _ e3 =>
    exact .fst (.walk h) e3

theorem State.Canonical.distPiece (h : s.Canonical) {dev off pa : Nat} : (s.distPiece dev off pa).1.Canonical := by
  unfold State.distPiece
  split
  · exact h
  · split
    · exact h
    · exact .pair (.getD (.sendRemote h) h)

theorem State.Canonical.distRead (h : s.Canonical) {asid root va : Nat} : (s.distRead asid root va).1.Canonical := by
  unfold State.distRead
  split
  next _ s1 e1 =>
    exact .fst (.distTranslate h) e1
  next _ s2 _ _ e2 =>
    exact .fst (.distTranslate h) e2
  next _ s3 _ _ _ e3 =>
    have h3 : s3.Canonical := .fst (.distTranslate h) e3
    split
    · exact h3
    · exact .distPiece h3
  next _ s4 _ _ _ e4 =>
    have h4 : s4.Canonical := .fst (.distTranslate h) e4
    split
    next _ s5 _ e5 =>
      exact .fst (.readBytes h4) e5
    next _ s6 e6 =>
      exact .fst (.readBytes h4) e6

theorem State.Canonical.distReads (h : s.Canonical) {asid root va n : Nat} : (s.distReads asid root va n).1.Canonical := by
  unfold State.distReads
  dsimp only
  refine .foldl_fst (fun _ _ h1 => ?_) h
  split
  · split
    next _ s1 e1 =>
      exact .fst (.distRead h1) e1
    next _ s2 e2 =>
      exact .fst (.distRead h1) e2
    next _ s3 _ e3 =>
      exact .fst (.distRead h1) e3
  · exact h1

theorem State.Canonical.wakeCore (h : s.Canonical) {core : Nat} : (s.wakeCore core).Canonical := by
  unfold State.wakeCore
  split
  · exact .modCore h
  · exact h

theorem State.Canonical.clearFor (h : s.Canonical) {core asid : Nat} : (s.clearFor core asid).Canonical := by
  unfold State.clearFor
  split
  · exact .modCore h
  · exact h

theorem Block.Canonical.ofFresh {b : Block} (e : b.memories = ([], [])) : b.Canonical := by
  simp only [Block.memories, Prod.mk.injEq] at e
  obtain ⟨he, ho⟩ := e
  exact ⟨he ▸ mem_wf_nil, ho ▸ mem_wf_nil⟩

/-- An update that keeps some of the blocks and leaves every memory as it is. -/
theorem State.Canonical.fewerBlocks {s t : State} (h : s.Canonical) (hb : ∀ b ∈ t.blocks, b ∈ s.blocks)
    (e : (t.mem.bytes, t.host.window, t.trust.image) = (s.mem.bytes, s.host.window, s.trust.image)) : t.Canonical := by
  simp only [Prod.mk.injEq] at e
  obtain ⟨hm, hw, hi⟩ := e
  exact ⟨by rw [Memory.wf, hm]; exact h.bytes, fun b hx => h.halves b (hb b hx), by rw [hw]; exact h.window, by rw [hi]; exact h.image⟩

theorem State.Canonical.admitBlock (h : s.Canonical) {lid : Nat} {l : Launch} {bidx core : Nat}
    {places : List (Nat × Nat × List Nat)} : (s.admitBlock lid l bidx core places).Canonical := by
  unfold State.admitBlock
  extract_lets blk b s1 s2 s3
  have hb : b.Canonical := .ofFresh rfl
  have h1 : s1.Canonical := .wakeCore (.clearFor h)
  have h2 : s2.Canonical := by
    dsimp only [s2]
    split
    · exact .wakeCore (.clearFor h1)
    · exact h1
  exact .foldl (fun _ _ hu => .modBlock (.setGang hu) fun _ hb => .same hb (by rfl)) (h2.withBlock hb (by rfl))

theorem State.Canonical.countDropped (h : s.Canonical) {q : Nat} : (s.countDropped q).Canonical :=
  .same h rfl

theorem State.Canonical.doneHere (h : s.Canonical) {c : Completion} {asid pa : Nat} : (s.doneHere c asid pa).Canonical := by
  unfold State.doneHere
  split
  next _ s1 e1 =>
    have h1 : s1.Canonical := .fst (.applyRed (.drainRed h)) e1
    exact .countDropped h1
  next _ s2 e2 =>
    have h2 : s2.Canonical := .fst (.applyRed (.drainRed h)) e2
    exact .applyRed (.agentWrite h2)

theorem State.Canonical.stepDone (h : s.Canonical) {c : Completion} : (s.stepDone c).1.Canonical := by
  unfold State.stepDone
  split
  · exact h
  · split
    · split
      next _ s1 e1 =>
        exact .fst (.distTranslate h) e1
      next _ s2 _ _ e2 =>
        have h2 : s2.Canonical := .fst (.distTranslate h) e2
        exact .pair (.countDropped h2)
      next _ s3 _ _ _ e3 =>
        have h3 : s3.Canonical := .fst (.distTranslate h) e3
        split
        · exact .pair (.countDropped h3)
        · split
          next _ s4 e4 =>
            exact .of_eq_some (.sendRemote h3) e4
          · exact h3
      next _ s5 _ _ _ e5 =>
        have h5 : s5.Canonical := .fst (.distTranslate h) e5
        exact .pair (.doneHere h5)
    · split
      next _ s6 e6 =>
        exact .of_eq_some (.sendRemote h) e6
      · exact h
    · exact h

theorem State.Canonical.pushDones (h : s.Canonical) : s.pushDones.Canonical := by
  unfold State.pushDones
  refine .foldl (fun _ _ h1 => ?_) (.same h (by rfl))
  dsimp only
  split
  next _ s2 _ e1 =>
    have h2 : s2.Canonical := .fst (.stepDone h1) e1
    exact .same h2 rfl
  next _ s3 e2 =>
    exact .fst (.stepDone h1) e2

theorem State.Canonical.doneAnswered (h : s.Canonical) {lid status : Nat} : (s.doneAnswered lid status).Canonical := by
  unfold State.doneAnswered
  dsimp only
  split
  · exact h
  · split
    · exact .countDropped (.same h (by rfl))
    · split
      · exact .same h rfl
      · exact .same h rfl

theorem State.Canonical.startDone (h : s.Canonical) {lid : Nat} {l : Launch} {status : Nat} :
    (s.startDone lid l status).Canonical := by
  unfold State.startDone
  dsimp only
  split
  · exact h
  · exact .pushDones (.same h (by rfl))

theorem State.Canonical.endLaunch (h : s.Canonical) {lid : Nat} {st : LaunchStatus} : (s.endLaunch lid st).Canonical := by
  unfold State.endLaunch
  dsimp only
  split
  · exact h
  · exact .startDone (.modLaunch (.same h (by rfl)))

theorem State.Canonical.freeBlockCore (h : s.Canonical) {blk core : Nat} : (s.freeBlockCore blk core).Canonical := by
  unfold State.freeBlockCore
  split
  · split
    · exact .setCore h
    · exact h
  · exact h

theorem State.Canonical.retireBlock (h : s.Canonical) {blk : Nat} {b : Block} {st : BlockState} :
    (s.retireBlock blk b st).Canonical := by
  unfold State.retireBlock
  extract_lets s1 s2 s3 s4
  have h1 : s1.Canonical := .foldl (fun _ _ hu => .freeSlot hu) h
  have h4 : s4.Canonical := .modLaunch (.setBlock (.freeBlockCore (.freeBlockCore h1)) (.ofFresh (by rfl)))
  split
  · split
    · exact .endLaunch h4
    · exact h4
  · exact h4

theorem OptCanonical.drainBlock (h : s.Canonical) {lid bidx : Nat} : OptCanonical (s.drainBlock lid bidx) := by
  unfold State.drainBlock
  refine .bind (fun _ h1 => ?_) (.drain h)
  split
  · exact .of_none
  · exact .of_some h1

theorem AnswerCanonical.execBlockRetire (h : s.Canonical) {b : Nat} : AnswerCanonical (execBlockRetire b s) := by
  unfold Machine.execBlockRetire
  refine .next ?_
  split
  · exact h
  · split
    · split
      · exact h
      next _ s1 e2 =>
        have h2 : s1.Canonical := .of_eq_some (.drainBlock h) e2
        exact .retireBlock h2
    · exact h

theorem State.Canonical.vacant (h : s.Canonical) : s.vacant.Canonical :=
  h.fewerBlocks (fun _ hb => absurd hb List.not_mem_nil) rfl

theorem State.Canonical.validateKernel (h : s.Canonical) {l : Launch} : (s.validateKernel l).1.Canonical := by
  have hread : (if l.paramBytes = 0 then (s, .data []) else s.distReads l.asid l.root l.param l.paramBytes).1.Canonical := by
    split
    · exact h
    · exact .distReads h
  unfold State.validateKernel
  dsimp only
  split
  · exact h
  · split
    next s1 e1 => exact .fst hread e1
    next s1 e1 => exact .fst hread e1
    next s1 _ e1 =>
      have h1 : s1.Canonical := .fst hread e1
      split
      · exact h1
      · split
        · exact h1
        · split
          · exact h1
          · split <;> exact h1

theorem State.Canonical.validate (h : s.Canonical) {l : Launch} : (s.validate l).1.Canonical := by
  unfold State.validate
  split
  · exact h
  · split
    next _ s1 e1 =>
      exact .fst (.distReads h) e1
    next _ s2 e2 =>
      exact .fst (.distReads h) e2
    next _ s3 _ e3 =>
      have h3 : s3.Canonical := .fst (.distReads h) e3
      exact .validateKernel h3

theorem State.Canonical.checkLaunch (h : s.Canonical) : s.checkLaunch.Canonical := by
  unfold State.checkLaunch
  dsimp only
  split
  · exact h
  · split
    next _ s1 _ e1 =>
      exact .fst (.validate h) e1
    next _ s2 _ _ _ e2 =>
      have h2 : s2.Canonical := .fst (.validate h) e2
      split
      · exact .endLaunch (.same h2 (by rfl))
      · exact .same h2 rfl

theorem State.Canonical.postLaunch (h : s.Canonical) {q rec : Nat} : (s.postLaunch q rec).Canonical := by
  unfold State.postLaunch
  dsimp only
  split
  · exact .countDropped h
  · exact .checkLaunch (.same (.autoRelease h) (by rfl))

theorem AnswerCanonical.execLaunchPost (h : s.Canonical) : AnswerCanonical (execLaunchPost s) := by
  unfold Machine.execLaunchPost
  refine .next ?_
  split
  · exact .checkLaunch h
  next _ _ s1 e1 =>
    have h1 : s1.Canonical := .takeCommit h e1
    exact .postLaunch h1

theorem State.Canonical.dropGuards (h : s.Canonical) {lid bidx : Nat} : (s.dropGuards lid bidx).Canonical :=
  .same h rfl

theorem State.Canonical.admitNext (h : s.Canonical) {lid : Nat} {l : Launch} {core : Nat} {p : List (Nat × Nat × List Nat)} :
    (s.admitNext lid l core p).Canonical := by
  unfold State.admitNext
  dsimp only
  exact .same (.admitBlock h) rfl

theorem OptCanonical.admitAll {lid n : Nat} (h : s.Canonical) : OptCanonical (State.admitAll lid n s) := by
  induction n generalizing s with
  | zero => exact .of_some h
  | succ n ih =>
    unfold State.admitAll
    split
    · exact .of_none
    · split
      · exact .of_none
      · exact ih (.admitNext h)

theorem OptCanonical.map_of {α : Type} {o : Option α} {f : α → State} (hf : ∀ a, (f a).Canonical) : OptCanonical (o.map f) := by
  rintro _ e
  obtain ⟨a, _, rfl⟩ := Option.map_eq_some_iff.1 e
  exact hf a

theorem AnswerCanonical.execGangPlace (h : s.Canonical) {i : Nat} : AnswerCanonical (execGangPlace i s) := by
  unfold Machine.execGangPlace
  refine .next ?_
  split
  · exact h
  · split
    · exact h
    next core p _ =>
      extract_lets k tag g _ _ s1
      have h1 : s1.Canonical := .modBlock (.setGang (.wakeCore h)) fun _ hb => .same hb (by rfl)
      exact .offer (.same h1 (by rfl))

theorem State.Canonical.without (h : s.Canonical) {ks bs : List Nat} : (s.without ks bs).Canonical :=
  h.fewerBlocks (fun _ hb => (List.mem_filter.1 hb).1) rfl

theorem State.Canonical.evicted (h : s.Canonical) : s.evicted.Canonical := by
  unfold State.evicted
  dsimp only
  exact .without (.same h (by rfl))

theorem State.Canonical.makeRoom (h : s.Canonical) {lid : Nat} {pair : Bool} {bidx : Nat} {p : RoomPlan} :
    (s.makeRoom lid pair bidx p).Canonical := by
  unfold State.makeRoom
  dsimp only
  exact .same (.foldl (fun _ _ h1 => .evictWhole h1) (.foldl (fun _ _ h2 => .preempt h2) h)) rfl

theorem OptCanonical.admitHead (h : s.Canonical) {lid : Nat} {l : Launch} : OptCanonical (s.admitHead lid l) := by
  unfold State.admitHead
  split
  · exact .admitAll h
  · exact .map_of fun _ => .admitNext h

theorem OptCanonical.serve (h : s.Canonical) {lid : Nat} {l : Launch} : OptCanonical (s.serve lid l) := by
  unfold State.serve
  dsimp only
  split
  · exact .of_none
  · split
    next _ s1 e1 =>
      have h1 : s1.Canonical := .of_eq_some (.admitHead h) e1
      exact .of_some h1
    · split
      · exact .of_none
      · split
        · exact .of_none
        · exact .of_some (.foldl (fun _ _ h2 => .makeRoom h2) h)

theorem State.Canonical.serveHeads (h : s.Canonical) {x : List (Nat × Launch)} : (s.serveHeads x).Canonical := by
  induction x with
  | nil => exact h
  | cons l rest ih =>
    unfold State.serveHeads
    split
    next e => exact .of_eq_some (.serve h) e
    next => exact ih

theorem State.Canonical.noteStuck (h : s.Canonical) : s.noteStuck.Canonical := by
  unfold State.noteStuck
  refine .foldl (fun _ _ h1 => ?_) h
  dsimp only
  exact .modLaunch h1

theorem AnswerCanonical.execDistributorAdmit (h : s.Canonical) : AnswerCanonical (execDistributorAdmit s) :=
  .next (.serveHeads (.noteStuck h))

theorem AnswerCanonical.execFragmentationGuard (h : s.Canonical) : AnswerCanonical (execFragmentationGuard s) := by
  unfold Machine.execFragmentationGuard
  dsimp only
  refine .next ?_
  split
  · exact .noteStuck h
  · split
    · exact .noteStuck h
    · exact .same (.noteStuck h) rfl

theorem AnswerCanonical.execDistack (h : s.Canonical) : AnswerCanonical (execDistack s) := by
  unfold Machine.execDistack
  refine .next ?_
  dsimp only
  split
  · exact h
  next _ _ s1 e1 =>
    have h1 : s1.Canonical := .takeCommit h e1
    split
    · exact h1
    · split
      · exact .same h1 rfl
      · split
        · exact .modBlock (.same h1 (by rfl)) (fun _ h2 => .same h2 (by rfl))
        · exact .same h1 rfl

theorem AnswerCanonical.execEvictionUseDeadline (h : s.Canonical) {b : Nat} : AnswerCanonical (execEvictionUseDeadline b s) := by
  unfold Machine.execEvictionUseDeadline
  refine .next ?_
  split
  · split
    · exact .cancelUses h
    · exact h
  · exact h

theorem State.Canonical.saveHalf (h : s.Canonical) {b : Block} {odd : Bool} : (s.saveHalf b odd).Canonical := by
  unfold State.saveHalf
  dsimp only
  split
  · exact .writeBytes (.writeBytes (.same h (by rfl)))
  · exact .same h rfl

theorem AnswerCanonical.execBlockImageSave (h : s.Canonical) {b : Nat} : AnswerCanonical (execBlockImageSave b s) := by
  unfold Machine.execBlockImageSave
  refine .next ?_
  dsimp only
  split
  · exact h
  · split
    · split
      · exact h
      next _ s1 e2 =>
        have h2 : s1.Canonical := .of_eq_some (.drainBlock h) e2
        split
        · exact h2
        next _ b2 e3 =>
          have h3 : b2.Canonical := .of_block? h2 e3
          refine .setBlock ?_ (.same h3 (by rfl))
          refine .freeBlockCore (.freeBlockCore ?_)
          split
          · exact .saveHalf (.saveHalf (.foldl (fun _ _ h4 => .freeSlot h4) h2))
          · exact .saveHalf (.foldl (fun _ _ h5 => .freeSlot h5) h2)
    · exact h

theorem State.Canonical.replay (h : s.Canonical) {blk : Nat} {e : JEntry} : (s.replay blk e).Canonical := by
  unfold State.replay
  split
  · exact .arrive h
  · exact .push h
  · exact h

theorem State.Canonical.replayJournal (h : s.Canonical) {blk : Nat} : (s.replayJournal blk).Canonical := by
  unfold State.replayJournal
  split
  · exact h
  · exact .modBlock (.foldl (fun _ _ h2 => .replay h2) h) (fun _ h3 => .same h3 (by rfl))

theorem State.Canonical.giveTiles (h : s.Canonical) {blk core side : Nat} {b : Block} :
    (s.giveTiles blk core side b).Canonical := by
  unfold State.giveTiles
  split
  · exact .modCore h
  · exact h

theorem Block.Canonical.loadHalf {b : Block} (h : b.Canonical) {odd : Bool} {m : Mem} {a : Nat} : (b.loadHalf odd m a).Canonical :=
  .same (h.setHalf (mem_wf_writeBytes (mem_wf_writeBytes mem_wf_nil _ _) _ _)) rfl

theorem Block.Canonical.loadBlock {b : Block} (h : b.Canonical) : (s.loadBlock b).Canonical := by
  unfold State.loadBlock
  extract_lets side
  have hs (odd : Bool) {x : Block} (hx : x.Canonical) : (side odd x).Canonical := by
    dsimp only [side]
    split
    · exact hx.loadHalf
    · exact hx
  refine hs false ?_
  split
  · exact hs true (x := b) h
  · exact h

theorem AnswerCanonical.execBlockRestore (h : s.Canonical) {b : Nat} : AnswerCanonical (execBlockRestore b s) := by
  unfold Machine.execBlockRestore
  refine .next ?_
  split
  · exact h
  next x e1 =>
    have hx : x.Canonical := .of_block? h e1
    split
    · exact h
    · split
      · exact h
      next c _ =>
        extract_lets s1 s2 s3
        have h2 : s2.Canonical := by
          dsimp only [s1, s2]
          split
          · exact .wakeCore (.wakeCore h)
          · exact .wakeCore h
        have hl : (s3.loadBlock x).Canonical := .loadBlock hx
        exact .replayJournal (.setBlock (.giveTiles (.giveTiles h2)) (.same hl (by rfl)))

theorem State.Canonical.jpushTo (h : s.Canonical) {blk n : Nat} {entry : W128} : (s.jpushTo blk n entry).1.Canonical := by
  unfold State.jpushTo
  dsimp only
  split
  · exact h
  · split
    · refine .pair ?_
      split
      · exact .same h rfl
      · exact h
    · split
      · exact h
      · split
        next _ s1 e2 =>
          exact .fst (.pushTo h) e2
        next _ s2 e3 =>
          exact .fst (.pushTo h) e3
        next _ s3 e4 =>
          exact .fst (.pushTo h) e4
        next _ s4 e5 =>
          exact .fst (.pushTo h) e5
        next _ s5 e6 =>
          exact .fst (.pushTo h) e6

theorem State.Canonical.settlePush (h : s.Canonical) {x : HeldPush} : (s.settlePush x).Canonical := by
  unfold State.settlePush
  dsimp only
  split
  next _ s1 _ e1 =>
    have h1 : s1.Canonical := .fst (.jpushTo h) e1
    exact .same h1 rfl
  next _ s2 e2 =>
    have h2 : s2.Canonical := .fst (.jpushTo h) e2
    exact .same h2 rfl

theorem AnswerCanonical.execJpush (h : s.Canonical) : AnswerCanonical (execJpush s) := by
  unfold Machine.execJpush
  refine .next ?_
  split
  · exact h
  next _ _ s1 e1 =>
    have h1 : s1.Canonical := .takeCommit h e1
    exact .settlePush h1

theorem State.Canonical.settleHolds (h : s.Canonical) {c : Nat} : (s.settleHolds c).Canonical :=
  .foldl (fun _ _ h1 => .settlePush h1) (.same h (by rfl))

theorem AnswerCanonical.execRouterHoldExpire (h : s.Canonical) {c : Nat} : AnswerCanonical (execRouterHoldExpire c s) := by
  unfold Machine.execRouterHoldExpire
  refine .next ?_
  split
  · exact h
  · exact .settleHolds h

theorem AnswerCanonical.execFlushAck (h : s.Canonical) {c i : Nat} : AnswerCanonical (execFlushAck c i s) := by
  unfold Machine.execFlushAck
  refine .next ?_
  dsimp only
  split
  · exact h
  · split
    · exact .mapContexts (.foldl (fun _ _ h1 => .same h1 (by rfl)) (.modCore h))
    · exact h

theorem AnswerCanonical.execCorePowerGate (h : s.Canonical) {c : Nat} : AnswerCanonical (execCorePowerGate c s) := by
  unfold Machine.execCorePowerGate
  refine .next ?_
  split
  · exact .modCore h
  · exact h

theorem AnswerCanonical.execCorePowerUpComplete (h : s.Canonical) {c : Nat} : AnswerCanonical (execCorePowerUpComplete c s) := by
  unfold Machine.execCorePowerUpComplete
  refine .next ?_
  dsimp only
  split
  · exact h
  · exact .settleHolds (.foldl (fun _ _ h1 => .replayJournal h1) (.modCore h))

theorem State.Canonical.destroyBlock (h : s.Canonical) {blk : Nat} {b : Block} : (s.destroyBlock blk b).Canonical := by
  unfold State.destroyBlock
  dsimp only
  exact .retireBlock (.modLaunch (.same h (by rfl)))

theorem State.Canonical.resetCore (h : s.Canonical) {c : Nat} : (s.resetCore c).Canonical := by
  unfold State.resetCore
  dsimp only
  split
  · exact h
  · exact .same (.foldl (fun _ _ h1 => .destroyBlock h1) h) rfl

end Sys2Proof.Machine
end

