-- ==== Sys2Proof/Proofs/CanonicalRegisters.lean ====
section
/-! PROOFS. Register and window writes and writes of CSRs keep the canonical form (log 2). -/

namespace Sys2Proof.Machine

variable {s : State}

theorem State.Canonical.regRead (h : s.Canonical) {w : Sys2Proof.Writer} {o : Nat} : (s.regRead w o).1.Canonical := by
  unfold State.regRead
  split
  · exact h
  · exact .pair (.same h (by rfl))

theorem State.Canonical.commitReg (h : s.Canonical) {c : Commit} : (s.commitReg c).Canonical :=
  .same h rfl

theorem State.Canonical.setStaged (h : s.Canonical) {w : Sys2Proof.Writer} {t : Tab W64} : (s.setStaged w t).Canonical :=
  .same h rfl

theorem State.Canonical.stageWrite (h : s.Canonical) {w : Sys2Proof.Writer} {base n o : Nat} {x : W64} :
    (s.stageWrite w base n o x).Canonical := by
  unfold State.stageWrite
  dsimp only
  split
  · exact .setStaged h
  · split
    · exact .commitReg (.setStaged h)
    · split
      · exact .countDropped (.setStaged h)
      · exact .setStaged h

theorem State.Canonical.linksReady (h : s.Canonical) : s.linksReady.Canonical := by
  unfold State.linksReady
  dsimp only
  split
  · exact .same h rfl
  · exact h

theorem State.Canonical.writeLink (h : s.Canonical) {o x : Nat} : (s.writeLink o x).Canonical := by
  unfold State.writeLink
  extract_lets page
  split
  · exact .same h rfl
  · split
    · exact .same h rfl
    · split
      · exact .same h rfl
      · split
        · exact .same h rfl
        · split
          · exact .linksReady (.same h (by rfl))
          · split
            · exact .same h rfl
            · split
              · exact .same h rfl
              · split
                · exact .same h (by dsimp only [State.memories])
                · exact h

theorem State.Canonical.writeTrust (h : s.Canonical) {o x : Nat} : (s.writeTrust o x).Canonical := by
  unfold State.writeTrust
  dsimp only
  split
  · exact .same h rfl
  · split
    · exact .same h rfl
    · split
      · exact .same h rfl
      · split
        · exact .same h rfl
        · exact h

/-- An update of the window's bytes. -/
theorem State.Canonical.withWindow {s t : State} (h : s.Canonical) (hw : Mem.wf t.host.window = true)
    (e : (t.mem.bytes, t.blocks, t.trust.image) = (s.mem.bytes, s.blocks, s.trust.image)) : t.Canonical := by
  simp only [Prod.mk.injEq] at e
  obtain ⟨hm, hb, hi⟩ := e
  exact ⟨by rw [Memory.wf, hm]; exact h.bytes, by rw [hb]; exact h.halves, hw, by rw [hi]; exact h.image⟩

theorem State.Canonical.writePlain (h : s.Canonical) {o x : Nat} : (s.writePlain o x).Canonical := by
  unfold State.writePlain
  dsimp only
  split
  · exact .same h rfl
  · split
    · exact .writeLink h
    · split
      · exact .writeTrust h
      · split
        · exact .same h rfl
        · split
          · exact .same h rfl
          · exact h

theorem State.Canonical.regWrite (h : s.Canonical) {w : Sys2Proof.Writer} {o : Nat} {x : W64} : (s.regWrite w o x).Canonical := by
  unfold State.regWrite
  split
  · exact h
  · split
    · exact .stageWrite h
    · split
      · exact .commitReg h
      · exact .writePlain h

theorem State.Canonical.windowWrite (h : s.Canonical) {o : Nat} {x : W64} : (s.windowWrite o x).Canonical := by
  unfold State.windowWrite
  split
  · exact h
  · split
    · exact .same h rfl
    · split
      · exact .commitReg h
      · split
        · exact h.withWindow (mem_wf_writeN h.window o 8 x.toNat) rfl
        · exact h

theorem State.Canonical.csrWrite (h : s.Canonical) {cl n : Nat} {x : W64} : (s.csrWrite cl n x).Canonical := by
  unfold State.csrWrite
  split
  · split
    · exact h
    · exact .commitReg h
  · split
    · exact .commitReg h
    · split
      · exact .modPorter h
      · exact .modPorter h

theorem AnswerCanonical.execRegisterWrite (h : s.Canonical) {w : Sys2Proof.Writer} {r : RegTarget} {x : BitVec 64} :
    AnswerCanonical (execRegisterWrite w r x s) := by
  unfold Machine.execRegisterWrite
  refine .next ?_
  split
  · split
    · exact .regWrite h
    · exact h
  · split
    · exact .windowWrite h
    · exact h
  · split
    · exact h
    · split
      · exact .porterExcept h
      · exact .csrWrite h

end Sys2Proof.Machine
end

