-- ==== Sys2Proof/Proofs/CanonicalLink.lean ====
section
/-! PROOFS. The memory accesses of porters and of the host, Pamon Link and its streams keep the canonical form (log 2). -/

namespace Sys2Proof.Machine

variable {s : State}

theorem State.Canonical.orWait (h : s.Canonical) {r : Option State} (hr : OptCanonical r) : (s.orWait r).Canonical :=
  .getD hr h

theorem State.Canonical.porterLoad (h : s.Canonical) {cl va : Nat} {rd : BitVec 5} {fp : Bool} {w : Nat} {unsigned keep : Bool} :
    (s.porterLoad cl va rd fp w unsigned keep).Canonical := by
  unfold State.porterLoad
  extract_lets n fin
  have hfin {t : State} {x : Nat} {res : Option Nat} (ht : t.Canonical) : (fin t x res).Canonical := .modPorter ht
  split
  · exact .porterExcept h
  · split
    next _ s1 _ e1 => exact .porterMiss (.fst (.porterTarget h) e1)
    next _ s1 _ _ e1 =>
      have h1 : s1.Canonical := .fst (.porterTarget h) e1
      split
      · exact .porterExcept h1
      · split
        · exact h1
        · split
          next _ s2 _ e2 => exact hfin (.fst (.regRead h1) e2)
    next _ s1 _ _ _ e1 =>
      have h1 : s1.Canonical := .fst (.porterTarget h) e1
      split
      · exact .porterExcept h1
      · exact .orWait h1 (.sendRemote h1)
    next _ s1 _ _ _ _ e1 =>
      have h1 : s1.Canonical := .fst (.porterTarget h) e1
      split
      next _ s2 _ e2 => exact hfin (.fst (.agentRead h1) e2)
      next _ s2 _ e2 => exact .porterExcept (.fst (.agentRead h1) e2)

theorem State.Canonical.porterStore (h : s.Canonical) {cl va w x : Nat} : (s.porterStore cl va w x).Canonical := by
  unfold State.porterStore
  dsimp only
  split
  · exact .porterExcept h
  · split
    next _ s1 _ e1 =>
      have h1 : s1.Canonical := .fst (.porterTarget h) e1
      exact .porterMiss h1
    next _ s2 _ _ e2 =>
      have h2 : s2.Canonical := .fst (.porterTarget h) e2
      exact .modPorter (.regWrite h2)
    next _ s3 _ _ _ e3 =>
      have h3 : s3.Canonical := .fst (.porterTarget h) e3
      exact .orWait h3 (.sendRemote h3)
    next _ s4 _ _ _ _ e4 =>
      have h4 : s4.Canonical := .fst (.porterTarget h) e4
      exact .modPorter (.agentWrite h4)

theorem State.Canonical.porterSc (h : s.Canonical) {cl va w x : Nat} {rd : BitVec 5} : (s.porterSc cl va w x rd).Canonical := by
  unfold State.porterSc
  dsimp only
  split
  · exact .porterExcept h
  · split
    next _ s1 _ e1 =>
      have h1 : s1.Canonical := .fst (.porterTarget h) e1
      exact .porterMiss h1
    next _ s2 _ _ e2 =>
      have h2 : s2.Canonical := .fst (.porterTarget h) e2
      exact .porterExcept h2
    next _ s3 _ _ _ e3 =>
      have h3 : s3.Canonical := .fst (.porterTarget h) e3
      exact .modPorter h3
    next _ s4 _ _ _ _ e4 =>
      have h4 : s4.Canonical := .fst (.porterTarget h) e4
      split
      · exact .modPorter (.agentWrite h4)
      · exact .modPorter h4

theorem State.Canonical.porterAmo (h : s.Canonical) {cl va w x op : Nat} {t : Ty} {rd : BitVec 5} :
    (s.porterAmo cl va w x op t rd).Canonical := by
  unfold State.porterAmo
  dsimp only
  split
  · exact .porterExcept h
  · split
    next _ s1 _ e1 =>
      have h1 : s1.Canonical := .fst (.porterTarget h) e1
      exact .porterMiss h1
    next _ s2 _ _ e2 =>
      have h2 : s2.Canonical := .fst (.porterTarget h) e2
      exact .porterExcept h2
    next _ s3 _ _ _ e3 =>
      have h3 : s3.Canonical := .fst (.porterTarget h) e3
      split
      · exact .porterExcept h3
      · exact .orWait h3 (.sendRemote h3)
    next _ s4 _ _ _ _ e4 =>
      have h4 : s4.Canonical := .fst (.porterTarget h) e4
      split
      next _ s5 _ e5 =>
        have h5 : s5.Canonical := .fst (.agentRead h4) e5
        exact .porterExcept h5
      next _ s6 _ e6 =>
        have h6 : s6.Canonical := .fst (.agentRead h4) e6
        exact .modPorter (.homeWrite h6)

theorem AnswerCanonical.execPorterLoadStoreAmo (h : s.Canonical) {cl : Nat} {acc : PorterAccess} :
    AnswerCanonical (execPorterLoadStoreAmo cl acc s) := by
  unfold Machine.execPorterLoadStoreAmo
  refine .next ?_
  dsimp only
  split
  · exact h
  · split
    · exact .porterLoad h
    · exact .porterStore h
    · split
      · exact .porterExcept h
      · exact .porterLoad h
    · split
      · exact .porterExcept h
      · exact .porterStore h
    · exact .porterLoad h
    · exact .porterSc h
    · exact .porterAmo h

theorem AnswerCanonical.execPorterFence (h : s.Canonical) {cl : Nat} {_pred _succ : BitVec 4} :
    AnswerCanonical (execPorterFence cl _pred _succ s) := by
  unfold Machine.execPorterFence
  refine .next ?_
  split
  · exact h
  · exact .modPorter h

theorem State.Canonical.hostWriteBytes (h : s.Canonical) {pa n x : Nat} : (s.hostWriteBytes pa n x).Canonical := by
  unfold State.hostWriteBytes
  refine .foldl (fun _ _ h1 => ?_) h
  dsimp only
  split
  · exact .clearPoison (.agentWrite h1)
  · exact .agentWrite h1

theorem State.Canonical.hostReply (h : s.Canonical) {r : HostReply} : (s.hostReply r).Canonical :=
  .same h rfl

theorem State.Canonical.hostReads (h : s.Canonical) {pa n : Nat} {own : Bool} : (s.hostReads pa n own).1.Canonical := by
  unfold State.hostReads
  dsimp only
  split
  · exact .modMem (.readBytes h) (fun _ h1 => h1)
  · exact .readBytes h

theorem AnswerCanonical.execHostCxlMemAccess (h : s.Canonical) {op : HostOp} {pa n : Nat} :
    AnswerCanonical (execHostCxlMemAccess op pa n s) := by
  unfold Machine.execHostCxlMemAccess
  dsimp only
  refine .next ?_
  split
  · exact .hostReply h
  · split
    · exact .hostReply (.hostReads h)
    · exact .hostReply (.hostWriteBytes h)
    · split
      next _ s1 e1 =>
        have h1 : s1.Canonical := .fst (.hostReads h) e1
        exact .hostReply h1
      next _ s2 _ e2 =>
        have h2 : s2.Canonical := .fst (.hostReads h) e2
        refine .hostReply ?_
        split
        · exact .hostWriteBytes h2
        · exact h2

theorem State.Canonical.countReplay (h : s.Canonical) {p : Nat} : (s.countReplay p).Canonical :=
  .same h rfl

theorem State.Canonical.portDown (h : s.Canonical) {p : Nat} : (s.portDown p).Canonical := by
  unfold State.portDown
  dsimp only
  exact .logError (.same h (by rfl))

theorem AnswerCanonical.execLaneDrop (h : s.Canonical) {p : Nat} : AnswerCanonical (execLaneDrop p s) := by
  unfold Machine.execLaneDrop
  extract_lets x
  refine .next ?_
  split
  · exact h
  · have hl : (s.logError .laneDrop 4 p 0 1 0).Canonical := .logError h
    split
    · exact .portDown hl
    · exact .same hl (by dsimp only [State.memories])

theorem State.Canonical.setStream (h : s.Canonical) {i : Nat} {x : Machine.Stream} : (s.setStream i x).Canonical :=
  .same h rfl

theorem AnswerCanonical.execFlitReceive (h : s.Canonical) {port src : Nat} {phase crcOk tagOk plain : Bool}
    {req : Option (Nat × Nat × RemoteOp × Nat)} :
    AnswerCanonical (execFlitReceive port src phase crcOk tagOk plain req s) := by
  unfold Machine.execFlitReceive
  refine .next ?_
  dsimp only
  split
  · exact h
  · split
    · exact .countReplay h
    · split
      · refine .countReplay ?_
        split
        · exact h
        · exact .setStream h
      · split
        · split
          · split
            · exact .same h rfl
            · exact .same h rfl
          · split
            · exact h
            · exact .setStream h
        · split
          · exact h
          · exact .setStream h

theorem State.Canonical.remoteRed (h : s.Canonical) {pa op : Nat} {t : Ty} {b : Nat} : (s.remoteRed pa op t b).Canonical := by
  unfold State.remoteRed
  dsimp only
  split
  next _ s1 e1 =>
    have h1 : s1.Canonical := .fst (.applyRed (.drainRed h)) e1
    exact .logError h1
  next _ s2 e2 =>
    exact .fst (.applyRed (.drainRed h)) e2

theorem State.Canonical.remoteRmw (h : s.Canonical) {pa n : Nat} {new : Nat → Option Nat} :
    (s.remoteRmw pa n new).1.Canonical := by
  unfold State.remoteRmw
  split
  next _ s1 _ e1 =>
    exact .fst (.agentRead h) e1
  next _ s2 _ e2 =>
    have h2 : s2.Canonical := .fst (.agentRead h) e2
    refine .pair ?_
    split
    · exact .homeWrite h2
    · exact h2

theorem State.Canonical.applyRemote (h : s.Canonical) {src pa : Nat} {op : RemoteOp} : (s.applyRemote src pa op).1.Canonical := by
  unfold State.applyRemote
  dsimp only
  split
  · split
    next _ s1 _ e1 =>
      exact .fst (.readBytes h) e1
    next _ s2 e2 =>
      exact .fst (.readBytes h) e2
  · refine .pair ?_
    split
    · exact .clearPoison (.writeRecord h)
    · exact .writeRecord h
  · exact .remoteRmw h
  · exact .remoteRmw h
  · exact .pair (.remoteRed h)
  · split
    · exact h
    · exact .pair (.remoteRed (.same h (by rfl)))
  · exact .pair (.poisonAtom (.drainRed h))

theorem State.Canonical.endRemoteUse (h : s.Canonical) {dev core use : Nat} : (s.endRemoteUse dev core use).Canonical :=
  .same h rfl

theorem State.Canonical.answer (h : s.Canonical) {x : Incoming} {y : Answer} : (s.answer x y).Canonical := by
  unfold State.answer
  dsimp only
  split
  · exact h
  · exact .countFlit (.same h (by rfl))

theorem AnswerCanonical.execRemoteRequest (h : s.Canonical) {i : Nat} : AnswerCanonical (execRemoteRequest i s) := by
  unfold Machine.execRemoteRequest
  refine .next ?_
  split
  · exact h
  · split
    · exact h
    · extract_lets _ s1
      have h1 : s1.Canonical := .same h rfl
      split
      · exact h1
      · split
        · exact .countFlit h1
        · split
          · exact .answer h1
          · exact .answer (.same (.applyRemote h1) (by rfl))

theorem State.Canonical.loadAnswered (h : s.Canonical) {k id va lv : Nat} {write : Bool} {status data : Nat} :
    (s.loadAnswered k id va lv write status data).Canonical := by
  unfold State.loadAnswered
  dsimp only
  split
  · exact h
  · split
    · exact h
    · split
      · split
        · exact .acquireL1 (.modGang h)
        · exact .modGang h
      · exact .settle (.trapLanes h)

theorem State.Canonical.chunkAnswered (h : s.Canonical) {r : RemoteReq} {core u n : Nat} {va : Int} {lv status data : Nat} :
    (s.chunkAnswered r core u n va lv status data).Canonical := by
  unfold State.chunkAnswered
  dsimp only
  split
  · exact h
  · split
    · exact h
    · split
      · split
        · exact .ackChunk (.dropChunkL1 h)
        · exact .pauseUse (.setUse h)
      · split
        · exact .pauseUse (.setUse h)
        · exact .setUse h

theorem State.Canonical.driveAnswered (h : s.Canonical) {d : Nat} {op : RemoteOp} {status data : Nat} :
    (s.driveAnswered d op status data).Canonical :=
  .same h rfl

theorem State.Canonical.answerTo (h : s.Canonical) {r : RemoteReq} {status data : Nat} :
    (s.answerTo r status data).Canonical := by
  unfold State.answerTo
  dsimp only
  split
  · split
    · exact .porterExcept h
    · exact .modPorter h
  · split
    · exact .porterExcept (.modPorter h)
    · exact .modPorter h
  · exact .loadAnswered h
  · split
    · exact h
    · exact .storeFailed h
  · split
    · exact .putL1 h
    · exact h
  · exact .modPorter h
  · exact .chunkAnswered h
  · exact .doneAnswered h
  · exact .same h rfl
  · exact .same h rfl
  · exact .driveAnswered h
  · exact .modCore h

theorem State.Canonical.answered (h : s.Canonical) {r : RemoteReq} {status data : Nat} : (s.answered r status data).Canonical :=
  .pushDones (.answerTo (.same h (by rfl)))

theorem AnswerCanonical.execRemoteAck (h : s.Canonical) {dev seq status data : Nat} :
    AnswerCanonical (execRemoteAck dev seq status data s) := by
  unfold Machine.execRemoteAck
  refine .next ?_
  dsimp only
  split
  · exact h
  · split
    · exact h
    · split
      · exact .same h rfl
      · exact .answered h

theorem AnswerCanonical.execRemoteRetransmit (h : s.Canonical) {dev seq : Nat} :
    AnswerCanonical (execRemoteRetransmit dev seq s) := by
  unfold Machine.execRemoteRetransmit
  refine .next ?_
  dsimp only
  split
  · exact h
  · split
    · exact .countFlit (.same h (by rfl))
    · exact h

theorem AnswerCanonical.execRemoteRequestFail (h : s.Canonical) {dev seq : Nat} :
    AnswerCanonical (execRemoteRequestFail dev seq s) := by
  unfold Machine.execRemoteRequestFail
  refine .next ?_
  split
  · exact h
  · split
    · exact .answered h
    · exact h

theorem State.Canonical.resumeStream (h : s.Canonical) {i : Nat} {x : Machine.Stream} : (s.resumeStream i x).Canonical := by
  unfold State.resumeStream
  dsimp only
  split
  · exact .same h rfl
  · exact .setStream h

theorem State.Canonical.loadKey (h : s.Canonical) {c : Commit} : (s.loadKey c).Canonical := by
  unfold State.loadKey
  dsimp only
  split
  · split
    · exact .resumeStream h
    · exact .setStream h
  · exact .resumeStream h

theorem AnswerCanonical.execPskeyCommit (h : s.Canonical) : AnswerCanonical (execPskeyCommit s) := by
  unfold Machine.execPskeyCommit
  refine .next ?_
  split
  · exact h
  next _ _ s1 e1 =>
    have h1 : s1.Canonical := .takeCommit h e1
    split
    · exact h
    · exact .loadKey h1

theorem AnswerCanonical.execPskeySwitch (h : s.Canonical) {dev : Nat} : AnswerCanonical (execPskeySwitch dev s) := by
  unfold Machine.execPskeySwitch
  refine .next ?_
  dsimp only
  split
  · exact h
  next _ _ s1 e1 =>
    have h1 : s1.Canonical := .takeCommit h e1
    split
    · split
      · exact .resumeStream (.loadKey h1)
      · exact .loadKey h1
    · exact h

theorem AnswerCanonical.execKeylow (h : s.Canonical) {dev : Nat} : AnswerCanonical (execKeylow dev s) := by
  unfold Machine.execKeylow
  refine .next ?_
  dsimp only
  split
  · exact .logError (.setStream h)
  · exact h

theorem AnswerCanonical.execKeyLimit (h : s.Canonical) {dev : Nat} : AnswerCanonical (execKeyLimit dev s) := by
  unfold Machine.execKeyLimit
  refine .next ?_
  dsimp only
  split
  · exact .setStream h
  · exact h

theorem State.Canonical.downStream (h : s.Canonical) {i : Nat} : (s.downStream i).Canonical := by
  unfold State.downStream
  dsimp only
  exact .foldl (fun _ _ h1 => .answered h1) (.logError (.setStream h))

theorem AnswerCanonical.execStreamDown (h : s.Canonical) {dev : Nat} : AnswerCanonical (execStreamDown dev s) := by
  unfold Machine.execStreamDown
  refine .next ?_
  dsimp only
  split
  · exact .downStream h
  · exact h

theorem AnswerCanonical.execStreamTagFailures (h : s.Canonical) {dev : Nat} : AnswerCanonical (execStreamTagFailures dev s) := by
  unfold Machine.execStreamTagFailures
  refine .next ?_
  dsimp only
  split
  · exact .downStream h
  · exact h

end Sys2Proof.Machine
end

