-- ==== Sys2Proof/Proofs/CanonicalBoot.lean ====
section
/-! PROOFS. The NVMe and Ethernet complex, the scrub and the bring-up keep the canonical form (log 2). -/

namespace Sys2Proof.Machine

variable {s : State}

theorem State.Canonical.setDrive (h : s.Canonical) {d : Nat} {x : Drive} : (s.setDrive d x).Canonical :=
  .same h rfl

theorem AnswerCanonical.execNvmeMsix (h : s.Canonical) {d vec : Nat} : AnswerCanonical (execNvmeMsix d vec s) := by
  unfold Machine.execNvmeMsix
  refine .next ?_
  dsimp only
  split
  · exact .setDrive (.same h (by rfl))
  · split
    next _ s1 e1 =>
      exact .fst (.sendChannel (.same h (by rfl))) e1
    next _ s2 e2 =>
      have h2 : s2.Canonical := .fst (.sendChannel (.same h (by rfl))) e2
      exact .setDrive h2

theorem AnswerCanonical.execNvmeDma (h : s.Canonical) {d : Nat} {wr : Bool} {pa : Nat} {data : List (BitVec 8)} :
    AnswerCanonical (execNvmeDma d wr pa data s) := by
  unfold Machine.execNvmeDma
  refine .next ?_
  dsimp only
  split
  · exact .setDrive h
  · split
    · split
      next _ s1 e1 =>
        have h1 : s1.Canonical := .of_eq_some (.sendRemote h) e1
        exact .setDrive h1
      · exact h
    · split
      · exact .setDrive h
      · split
        · exact .setDrive (.writeRecord h)
        · split
          next _ s2 _ e2 =>
            have h2 : s2.Canonical := .fst (.readBytes h) e2
            exact .setDrive h2
          next _ s3 e3 =>
            have h3 : s3.Canonical := .fst (.readBytes h) e3
            exact .setDrive h3

theorem State.Canonical.setPair (h : s.Canonical) {q : Nat} {x : QueuePair} : (s.setPair q x).Canonical :=
  .same h rfl

theorem State.Canonical.readDesc (h : s.Canonical) {pa : Nat} : (s.readDesc pa).1.Canonical := by
  unfold State.readDesc
  split
  · exact .readBytes h
  · exact h

theorem State.Canonical.doneDesc (h : s.Canonical) {pa d len : Nat} {eop err : Bool} :
    (s.doneDesc pa d len eop err).Canonical := by
  unfold State.doneDesc
  split
  · exact .writeRecord h
  · exact h

theorem State.Canonical.notify (h : s.Canonical) {q : Nat} : (s.notify q).Canonical := by
  unfold State.notify
  dsimp only
  split
  · split
    next _ s1 e1 =>
      have h1 : s1.Canonical := .fst (.sendChannel (.same h (by rfl))) e1
      exact .setPair h1
    next _ s2 e2 =>
      exact .fst (.sendChannel (.same h (by rfl))) e2
  · exact h

theorem State.Canonical.takeTail (h : s.Canonical) {o i x : Nat} {t : State} (e : s.takeTail o = some (i, x, t)) : t.Canonical := by
  obtain ⟨⟨c, u⟩, hc, hu⟩ := Option.map_eq_some_iff.1 e
  cases hu
  exact .takeCommit h hc

theorem AnswerCanonical.execEthTxTail (h : s.Canonical) : AnswerCanonical (execEthTxTail s) := by
  unfold Machine.execEthTxTail
  refine .next ?_
  dsimp only
  split
  · exact h
  next _ _ _ s1 e1 =>
    have h1 : s1.Canonical := .takeTail h e1
    exact .setPair h1

theorem AnswerCanonical.execEthRxTail (h : s.Canonical) : AnswerCanonical (execEthRxTail s) := by
  unfold Machine.execEthRxTail
  refine .next ?_
  dsimp only
  split
  · exact h
  next _ _ _ s1 e1 =>
    have h1 : s1.Canonical := .takeTail h e1
    exact .setPair h1

theorem AnswerCanonical.execEthTxComplete (h : s.Canonical) {q : Nat} : AnswerCanonical (execEthTxComplete q s) := by
  unfold Machine.execEthTxComplete
  refine .next ?_
  extract_lets x n
  split
  · exact h
  · split
    next s1 d e1 =>
      have h1 : s1.Canonical := .fst (.readDesc h) e1
      extract_lets wrong d' len
      split
      · exact h
      · split
        next s2 y e2 =>
          have h2 : s2.Canonical := by
            refine .fst ?_ e2
            split
            · exact h1
            · exact .readBytes h1
          exact .notify (.setPair (.doneDesc h2))

theorem State.Canonical.fillRing {x : QueuePair} {n i : Nat} {l : List Byte} (h : s.Canonical) :
    (State.fillRing x n i l s).1.Canonical := by
  induction n generalizing s i l with
  | zero => exact h
  | succ n ih =>
    unfold State.fillRing
    split
    · exact h
    · extract_lets pa
      split
      next s1 d e1 =>
        have h1 : s1.Canonical := .fst (.readDesc h) e1
        extract_lets d'
        split
        · exact ih (.doneDesc h1)
        · exact ih (.writeRecord h1)

theorem State.Canonical.closeFrame (h : s.Canonical) {l : List (Nat × Nat × Nat)} {err : Bool} : (s.closeFrame l err).Canonical :=
  .foldl (fun _ _ h1 => .doneDesc h1) h

/-- An update of the image in management SRAM. -/
theorem State.Canonical.withImage {s t : State} (h : s.Canonical) (hi : Mem.wf t.trust.image = true)
    (e : (t.mem.bytes, t.blocks, t.host.window) = (s.mem.bytes, s.blocks, s.host.window)) : t.Canonical := by
  simp only [Prod.mk.injEq] at e
  obtain ⟨hm, hb, hw⟩ := e
  exact ⟨by rw [Memory.wf, hm]; exact h.bytes, by rw [hb]; exact h.halves, by rw [hw]; exact h.window, hi⟩

/-- A state without blocks, without bytes in the window and without an image, as a reset leaves it. -/
theorem State.Canonical.ofBytes {t : State} (hm : Mem.wf t.mem.bytes = true)
    (e : (t.blocks, t.host.window, t.trust.image) = ([], [], [])) : t.Canonical := by
  simp only [Prod.mk.injEq] at e
  obtain ⟨hb, hw, hi⟩ := e
  exact ⟨hm, by rw [hb]; exact fun _ hc => absurd hc List.not_mem_nil, hw ▸ mem_wf_nil, hi ▸ mem_wf_nil⟩

theorem AnswerCanonical.execEthRxFrame (h : s.Canonical) {p : Nat} {frame : List (BitVec 8)} {bad : Bool} :
    AnswerCanonical (execEthRxFrame p frame bad s) := by
  unfold Machine.execEthRxFrame
  refine .next ?_
  extract_lets q x drop n
  split
  · exact h
  · split
    · exact .setPair h
    · split
      next s1 l left k e1 =>
        have h1 : s1.Canonical := .fst (.fillRing h) e1
        exact .notify (.setPair (.closeFrame h1))

theorem State.Canonical.modImage (h : s.Canonical) {f : Trust → Trust}
    (hf : ∀ t : Trust, Mem.wf t.image = true → Mem.wf (f t).image = true) : (s.modTrust f).Canonical :=
  h.withImage (hf s.trust h.image) rfl

theorem State.Canonical.modTrust (h : s.Canonical) {f : Trust → Trust} (hf : ∀ t, (f t).image = t.image) :
    (s.modTrust f).Canonical :=
  .modImage h fun t ht => by rwa [hf t]

theorem State.Canonical.modHost (h : s.Canonical) {f : HostRegs → HostRegs} (hf : ∀ x, (f x).window = x.window) :
    (s.modHost f).Canonical := by
  refine h.withWindow ?_ rfl
  have e : (s.modHost f).host.window = s.host.window := hf s.host
  rw [e]
  exact h.window

theorem State.Canonical.volatileReset (h : s.Canonical) : s.volatileReset.Canonical :=
  .ofBytes (mem_wf_filter h.bytes _) rfl

theorem AnswerCanonical.execDeviceReset (h : s.Canonical) : AnswerCanonical (execDeviceReset s) :=
  .next (.modTrust (.volatileReset h) fun _ => by rfl)

theorem AnswerCanonical.execStandbyPowerLoss (h : s.Canonical) : AnswerCanonical (execStandbyPowerLoss s) := by
  unfold Machine.execStandbyPowerLoss
  refine .next ?_
  extract_lets r
  have hr : r.Canonical := .modHost (.modTrust (.volatileReset h) fun _ => by rfl) fun _ => by rfl
  exact hr.withBytes (mem_wf_filter hr.bytes _) rfl

theorem State.Canonical.heldBlock (h : s.Canonical) {n : Nat} {m : List Byte} {t : State} (e : s.heldBlock n = some (m, t)) :
    t.Canonical := by
  unfold State.heldBlock at e
  split at e
  · split at e
    · cases e
      exact .modTrust h fun _ => by rfl
    · cases e
  · cases e

theorem AnswerCanonical.execLeaseBlockWrite (h : s.Canonical) : AnswerCanonical (execLeaseBlockWrite s) := by
  unfold Machine.execLeaseBlockWrite
  refine .next ?_
  split
  next _ _ s1 e1 =>
    have h1 : s1.Canonical := .heldBlock h e1
    exact .modTrust h1 fun _ => by rfl
  · exact h

theorem AnswerCanonical.execBootBlockWrite (h : s.Canonical) : AnswerCanonical (execBootBlockWrite s) := by
  unfold Machine.execBootBlockWrite
  refine .next ?_
  split
  next _ _ s1 e1 =>
    have h1 : s1.Canonical := .heldBlock h e1
    exact .modTrust h1 fun _ => by rfl
  · exact h

theorem State.Canonical.setReady (h : s.Canonical) {m : BitVec 10} : (s.setReady m).Canonical :=
  .modHost h fun _ => by rfl

theorem State.Canonical.beginBoot (h : s.Canonical) : s.beginBoot.Canonical := by
  unfold State.beginBoot
  split
  · exact .setReady (.modHost (.modTrust h fun _ => by rfl) fun _ => by rfl)
  · exact .modTrust h fun _ => by rfl

theorem State.Canonical.enterMode (h : s.Canonical) : s.enterMode.Canonical :=
  .modTrust h fun _ => by rfl

theorem State.Canonical.scrubbed (h : s.Canonical) : s.scrubbed.Canonical :=
  h.withBytes (mem_wf_filter h.bytes _) rfl

theorem AnswerCanonical.execDeviceRelease (h : s.Canonical) : AnswerCanonical (execDeviceRelease s) := by
  unfold Machine.execDeviceRelease
  refine .next ?_
  dsimp only
  split
  · exact h
  · split
    · exact .modTrust (.scrubbed (.same h (by rfl))) fun _ => by rfl
    · exact .beginBoot (.enterMode (.same h (by rfl)))

theorem AnswerCanonical.execScrubComplete (h : s.Canonical) : AnswerCanonical (execScrubComplete s) := by
  unfold Machine.execScrubComplete
  refine .next ?_
  split
  · exact h
  · extract_lets s1 gone _ _ s2
    have h1 : s1.Canonical := .modTrust h fun _ => by rfl
    have h2 : s2.Canonical := .same h1 (by dsimp only [State.memories, s2])
    split
    · exact .beginBoot (.enterMode h2)
    · exact .modTrust h2 fun _ => by rfl

theorem State.Canonical.failBoot (h : s.Canonical) {reason : Byte} : (s.failBoot reason).Canonical := by
  unfold State.failBoot
  dsimp only
  exact .beginBoot (.modTrust (.same (.volatileReset h) (by rfl)) fun _ => by rfl)

theorem State.Canonical.dropImage (h : s.Canonical) : s.dropImage.Canonical :=
  .modHost (.modImage h fun _ _ => mem_wf_nil) fun _ => by rfl

theorem State.Canonical.nextSource (h : s.Canonical) : s.nextSource.Canonical :=
  .branch (.modTrust (.dropImage h) fun _ => by rfl) (.failBoot h)

theorem State.Canonical.verifyStage1 (h : s.Canonical) {n : Nat} : (s.verifyStage1 n).Canonical := by
  unfold State.verifyStage1
  extract_lets v
  refine .branch ?_ (.failBoot h)
  exact .setReady (.dropImage (.modHost (.modTrust h fun _ => by rfl) fun _ => by rfl))

theorem State.Canonical.trainLinks (h : s.Canonical) : s.trainLinks.Canonical := by
  unfold State.trainLinks
  dsimp only
  split
  · exact .linksReady (.setReady (.modTrust (.same h (by rfl)) fun _ => by rfl))
  · exact .failBoot (.same h (by rfl))

theorem State.Canonical.startPorters (h : s.Canonical) {n : Nat} : (s.startPorters n).Canonical := by
  unfold State.startPorters
  extract_lets v
  split
  next base payload s1 s2 _ go _ =>
    have h1 : s1.Canonical := .branch h (.modMem h fun _ hm => mem_wf_writeBytes hm _ _)
    have h2 : s2.Canonical := .modTrust h1 fun _ => by rfl
    exact .setReady (.dropImage (.foldl (fun _ _ hu => .modPorter hu) h2))
  · exact .failBoot h

theorem AnswerCanonical.execBootStep (h : s.Canonical) : AnswerCanonical (execBootStep s) := by
  unfold Machine.execBootStep
  refine .next ?_
  split
  · split
    · exact .setReady (.modTrust h fun _ => by rfl)
    · exact h
  · exact .verifyStage1 h
  · exact .trainLinks h
  · split
    · exact .startPorters h
    · exact h
  · exact h

theorem AnswerCanonical.execImageSourceTimeout (h : s.Canonical) : AnswerCanonical (execImageSourceTimeout s) := by
  unfold Machine.execImageSourceTimeout
  refine .next ?_
  split
  · exact .nextSource h
  · exact h

theorem AnswerCanonical.execPorterBootTimeout (h : s.Canonical) : AnswerCanonical (execPorterBootTimeout s) := by
  unfold Machine.execPorterBootTimeout
  refine .next ?_
  split
  · exact .failBoot h
  · exact h

theorem AnswerCanonical.execWatchdog (h : s.Canonical) : AnswerCanonical (execWatchdog s) := by
  unfold Machine.execWatchdog
  refine .next ?_
  split
  · exact .failBoot h
  · exact h

theorem AnswerCanonical.execBootok (h : s.Canonical) : AnswerCanonical (execBootok s) := by
  unfold Machine.execBootok
  refine .next ?_
  dsimp only
  split
  · exact h
  next _ _ s1 e1 =>
    have h1 : s1.Canonical := .takeCommit h e1
    split
    · exact .setReady (.modHost (.modTrust h1 fun _ => by rfl) fun _ => by rfl)
    · exact h1

theorem AnswerCanonical.execStagingChunklen (h : s.Canonical) : AnswerCanonical (execStagingChunklen s) := by
  unfold Machine.execStagingChunklen
  refine .next ?_
  dsimp only
  split
  · exact h
  next _ _ s1 e1 =>
    have h1 : s1.Canonical := .takeCommit h e1
    split
    · exact h1
    · split
      · exact .modHost h1 fun _ => by rfl
      · exact .modHost h1 fun _ => by rfl

theorem AnswerCanonical.execStagingChunkTaken (h : s.Canonical) : AnswerCanonical (execStagingChunkTaken s) := by
  unfold Machine.execStagingChunkTaken
  refine .next ?_
  split
  · exact .modHost (.modImage h fun _ ht => mem_wf_writeBytes ht _ _) fun _ => by rfl
  · exact h

theorem AnswerCanonical.execStagingTotal (h : s.Canonical) : AnswerCanonical (execStagingTotal s) := by
  unfold Machine.execStagingTotal
  refine .next ?_
  dsimp only
  split
  · exact h
  next _ _ s1 e1 =>
    have h1 : s1.Canonical := .takeCommit h e1
    split
    · exact h1
    · split
      · exact .modTrust (.modHost h1 fun _ => by rfl) fun _ => by rfl
      · exact .nextSource (.modHost h1 fun _ => by rfl)

end Sys2Proof.Machine
end

