-- ==== Sys2Proof/Proofs/CanonicalCompute.lean ====
section
/-! PROOFS. The compute instructions, the responder, errors and sparing keep the canonical form (log 2). -/

namespace Sys2Proof.Machine

variable {s : State}

theorem AnswerCanonical.execCvt (h : s.Canonical) {f : Fields} : AnswerCanonical (execCvt f s) :=
  .runInstr h .opAlu1

theorem AnswerCanonical.execPack (h : s.Canonical) {f : Fields} : AnswerCanonical (execPack f s) :=
  .runInstr h .opAlu2

theorem AnswerCanonical.execUnpack (h : s.Canonical) {f : Fields} : AnswerCanonical (execUnpack f s) :=
  .runInstr h .opAlu1

theorem AnswerCanonical.execCvt8 (h : s.Canonical) {f : Fields} : AnswerCanonical (execCvt8 f s) :=
  .runInstr h .opAlu1

theorem AnswerCanonical.execCvt4 (h : s.Canonical) {f : Fields} : AnswerCanonical (execCvt4 f s) :=
  .runInstr h .opAlu2

theorem AnswerCanonical.execQmx (h : s.Canonical) {f : Fields} : AnswerCanonical (execQmx f s) :=
  .runInstr h .opLate

theorem Op.Canonical.opEdition {i : Instr} {f : Fields}
    {act : State → Nat → Region → State × Res} (hact : ∀ t y1 y2, t.Canonical → (act t y1 y2).1.Canonical) :
    (opEdition i f act).Canonical := by
  unfold Machine.opEdition
  extract_lets b
  have hb : b.Canonical := by
    refine .base fun _ _ h => ?_
    dsimp only
    split
    · exact h
    · exact hact _ _ _ h
  exact ⟨hb.walks, hb.body, hb.post⟩

theorem AnswerCanonical.execEdnext (h : s.Canonical) {f : Fields} : AnswerCanonical (execEdnext f s) := by
  unfold Machine.execEdnext
  refine .runInstr h (.opEdition (fun _ _ _ h1 => ?_))
  dsimp only
  split
  · exact h1
  next _ s2 e1 =>
    have h2 : s2.Canonical := .of_eq_some (.drainThread h1) e1
    split
    · exact h2
    · exact .pair (.same h2 (by rfl))

theorem AnswerCanonical.execEdsync (h : s.Canonical) {f : Fields} : AnswerCanonical (execEdsync f s) := by
  unfold Machine.execEdsync
  refine .runInstr h (.awaitFlush ?_)
  refine .opEdition (fun _ _ _ h1 => ?_)
  dsimp only
  split
  · exact h1
  next _ b1 e1 =>
    have h2 : b1.Canonical := .of_block? h1 e1
    refine .pair ?_
    split
    · exact .acquireL1 (.acquireL1 (.setBlock h1 (.same h2 (by rfl))))
    · exact .acquireL1 (.setBlock h1 (.same h2 (by rfl)))

theorem State.Canonical.declareRegion (h : s.Canonical) {asid slot first lines : Nat} :
    (s.declareRegion asid slot first lines).Canonical := by
  unfold State.declareRegion
  dsimp only
  split
  · exact h
  · exact .same h rfl

theorem State.Canonical.releaseRegion (h : s.Canonical) {asid slot : Nat} : (s.releaseRegion asid slot).Canonical := by
  unfold State.releaseRegion
  dsimp only
  split
  · exact h
  · exact .same h rfl

theorem AnswerCanonical.execEditionAutoRelease (h : s.Canonical) {asid : Nat} : AnswerCanonical (execEditionAutoRelease asid s) :=
  .next (.autoRelease h)

theorem AnswerCanonical.execSread (h : s.Canonical) {f : Fields} : AnswerCanonical (execSread f s) :=
  .runInstr h (.base (fun _ _ h1 => h1))

theorem AnswerCanonical.execSwrite (h : s.Canonical) {f : Fields} : AnswerCanonical (execSwrite f s) := by
  unfold Machine.execSwrite
  extract_lets _ b
  have hb : b.Canonical := by
    refine .base fun _ _ hs => ?_
    dsimp only
    split
    · split
      · exact .pair (.modGang hs)
      · exact hs
    · exact hs
  exact .runInstr h ⟨hb.walks, hb.body, hb.post⟩

theorem AnswerCanonical.execFadd (h : s.Canonical) {f : Fields} : AnswerCanonical (execFadd f s) :=
  .runInstr h .opAlu2

theorem AnswerCanonical.execFsub (h : s.Canonical) {f : Fields} : AnswerCanonical (execFsub f s) :=
  .runInstr h .opAlu2

theorem AnswerCanonical.execFmul (h : s.Canonical) {f : Fields} : AnswerCanonical (execFmul f s) :=
  .runInstr h .opAlu2

theorem AnswerCanonical.execFfma (h : s.Canonical) {f : Fields} : AnswerCanonical (execFfma f s) :=
  .runInstr h .opAlu3

theorem AnswerCanonical.execFmin (h : s.Canonical) {f : Fields} : AnswerCanonical (execFmin f s) :=
  .runInstr h .opAlu2

theorem AnswerCanonical.execFmax (h : s.Canonical) {f : Fields} : AnswerCanonical (execFmax f s) :=
  .runInstr h .opAlu2

theorem AnswerCanonical.execFabs (h : s.Canonical) {f : Fields} : AnswerCanonical (execFabs f s) :=
  .runInstr h .opAlu1

theorem AnswerCanonical.execFneg (h : s.Canonical) {f : Fields} : AnswerCanonical (execFneg f s) :=
  .runInstr h .opAlu1

theorem AnswerCanonical.execFcmp (h : s.Canonical) {f : Fields} : AnswerCanonical (execFcmp f s) :=
  .runInstr h .opPred

theorem AnswerCanonical.execFset (h : s.Canonical) {f : Fields} : AnswerCanonical (execFset f s) :=
  .runInstr h .opAlu2

theorem AnswerCanonical.execFclass (h : s.Canonical) {f : Fields} : AnswerCanonical (execFclass f s) :=
  .runInstr h .opAlu1

theorem AnswerCanonical.execFrnd (h : s.Canonical) {f : Fields} : AnswerCanonical (execFrnd f s) :=
  .runInstr h .opAlu1

theorem AnswerCanonical.execFscale (h : s.Canonical) {f : Fields} : AnswerCanonical (execFscale f s) :=
  .runInstr h .opAlu2

theorem AnswerCanonical.execFaddF64 (h : s.Canonical) {f : Fields} : AnswerCanonical (execFaddF64 f s) :=
  .runInstr h .opAlu2

theorem AnswerCanonical.execFsubF64 (h : s.Canonical) {f : Fields} : AnswerCanonical (execFsubF64 f s) :=
  .runInstr h .opAlu2

theorem AnswerCanonical.execFmulF64 (h : s.Canonical) {f : Fields} : AnswerCanonical (execFmulF64 f s) :=
  .runInstr h .opAlu2

theorem AnswerCanonical.execFfmaF64 (h : s.Canonical) {f : Fields} : AnswerCanonical (execFfmaF64 f s) :=
  .runInstr h .opAlu3

theorem AnswerCanonical.execFminF64 (h : s.Canonical) {f : Fields} : AnswerCanonical (execFminF64 f s) :=
  .runInstr h .opAlu2

theorem AnswerCanonical.execFmaxF64 (h : s.Canonical) {f : Fields} : AnswerCanonical (execFmaxF64 f s) :=
  .runInstr h .opAlu2

theorem AnswerCanonical.execFabsF64 (h : s.Canonical) {f : Fields} : AnswerCanonical (execFabsF64 f s) :=
  .runInstr h .opAlu1

theorem AnswerCanonical.execFnegF64 (h : s.Canonical) {f : Fields} : AnswerCanonical (execFnegF64 f s) :=
  .runInstr h .opAlu1

theorem AnswerCanonical.execFcmpF64 (h : s.Canonical) {f : Fields} : AnswerCanonical (execFcmpF64 f s) :=
  .runInstr h .opPred

theorem AnswerCanonical.execFsetF64 (h : s.Canonical) {f : Fields} : AnswerCanonical (execFsetF64 f s) :=
  .runInstr h .opAlu2

theorem AnswerCanonical.execFclassF64 (h : s.Canonical) {f : Fields} : AnswerCanonical (execFclassF64 f s) :=
  .runInstr h .opAlu1

theorem AnswerCanonical.execFrndF64 (h : s.Canonical) {f : Fields} : AnswerCanonical (execFrndF64 f s) :=
  .runInstr h .opAlu1

theorem AnswerCanonical.execFscaleF64 (h : s.Canonical) {f : Fields} : AnswerCanonical (execFscaleF64 f s) :=
  .runInstr h .opAlu2

theorem Op.Canonical.opCarry {i : Instr} {f : Fields} {v : Nat → Nat → Bool → Nat × Bool} : (opCarry i f v).Canonical :=
  ⟨fun _ _ _ => .of_none, fun _ _ h => h, fun _ _ _ _ h => h⟩

theorem Op.Canonical.opMove {i : Instr} {f : Fields} : (opMove i f).Canonical :=
  .base (fun _ _ h1 => h1)

theorem AnswerCanonical.execIadd (h : s.Canonical) {f : Fields} : AnswerCanonical (execIadd f s) :=
  .runInstr h .opAlu2

theorem AnswerCanonical.execIsub (h : s.Canonical) {f : Fields} : AnswerCanonical (execIsub f s) :=
  .runInstr h .opAlu2

theorem AnswerCanonical.execImul (h : s.Canonical) {f : Fields} : AnswerCanonical (execImul f s) :=
  .runInstr h .opAlu2

theorem AnswerCanonical.execIaddc (h : s.Canonical) {f : Fields} : AnswerCanonical (execIaddc f s) :=
  .runInstr h .opCarry

theorem AnswerCanonical.execIsubb (h : s.Canonical) {f : Fields} : AnswerCanonical (execIsubb f s) :=
  .runInstr h .opCarry

theorem AnswerCanonical.execImulh (h : s.Canonical) {f : Fields} : AnswerCanonical (execImulh f s) :=
  .runInstr h .opAlu2

theorem AnswerCanonical.execImad (h : s.Canonical) {f : Fields} : AnswerCanonical (execImad f s) :=
  .runInstr h .opAlu3

theorem AnswerCanonical.execImadw (h : s.Canonical) {f : Fields} : AnswerCanonical (execImadw f s) :=
  .runInstr h .opAlu3

theorem AnswerCanonical.execImin (h : s.Canonical) {f : Fields} : AnswerCanonical (execImin f s) :=
  .runInstr h .opAlu2

theorem AnswerCanonical.execImax (h : s.Canonical) {f : Fields} : AnswerCanonical (execImax f s) :=
  .runInstr h .opAlu2

theorem AnswerCanonical.execIabs (h : s.Canonical) {f : Fields} : AnswerCanonical (execIabs f s) :=
  .runInstr h .opAlu1

theorem AnswerCanonical.execIneg (h : s.Canonical) {f : Fields} : AnswerCanonical (execIneg f s) :=
  .runInstr h .opAlu1

theorem AnswerCanonical.execIcmp (h : s.Canonical) {f : Fields} : AnswerCanonical (execIcmp f s) :=
  .runInstr h .opPred

theorem AnswerCanonical.execIset (h : s.Canonical) {f : Fields} : AnswerCanonical (execIset f s) :=
  .runInstr h .opAlu2

theorem AnswerCanonical.execSel (h : s.Canonical) {f : Fields} : AnswerCanonical (execSel f s) :=
  .runInstr h .opAlu3

theorem AnswerCanonical.execMov (h : s.Canonical) {f : Fields} : AnswerCanonical (execMov f s) :=
  .runInstr h .opMove

theorem AnswerCanonical.execLea (h : s.Canonical) {f : Fields} : AnswerCanonical (execLea f s) :=
  .runInstr h .opAlu2

theorem Op.Canonical.opLane {i : Instr} {f : Fields} {v : State → List Nat → Nat → Flagged Nat} : (opLane i f v).Canonical := by
  refine ⟨fun _ _ _ => .of_none, fun _ _ h => ?_, fun _ _ _ _ h => h⟩
  unfold Machine.opLane
  dsimp only
  split
  · exact h
  · exact .pair (.takeId h)

theorem Op.Canonical.opLanePred {i : Instr} {f : Fields} {v : State → List Nat → Nat → Bool} : (opLanePred i f v).Canonical :=
  ⟨fun _ _ _ => .of_none, fun _ _ h => h, fun _ _ _ _ h => h⟩

theorem AnswerCanonical.execShfl (h : s.Canonical) {f : Fields} : AnswerCanonical (execShfl f s) :=
  .runInstr h .opLane

theorem AnswerCanonical.execBallot (h : s.Canonical) {f : Fields} : AnswerCanonical (execBallot f s) :=
  .runInstr h .opLane

theorem AnswerCanonical.execVote (h : s.Canonical) {f : Fields} : AnswerCanonical (execVote f s) :=
  .runInstr h .opLanePred

theorem AnswerCanonical.execMatchAny (h : s.Canonical) {f : Fields} : AnswerCanonical (execMatchAny f s) :=
  .runInstr h .opLane

theorem AnswerCanonical.execRedux (h : s.Canonical) {f : Fields} : AnswerCanonical (execRedux f s) :=
  .runInstr h .opLane

theorem AnswerCanonical.execScanx (h : s.Canonical) {f : Fields} : AnswerCanonical (execScanx f s) :=
  .runInstr h .opLane

theorem AnswerCanonical.execElect (h : s.Canonical) {f : Fields} : AnswerCanonical (execElect f s) :=
  .runInstr h .opLanePred

theorem Op.Canonical.opLogic {i : Instr} {f : Fields} {v : Bool → Bool → Bool} : (opLogic i f v).Canonical :=
  .opPred

theorem AnswerCanonical.execAnd (h : s.Canonical) {f : Fields} : AnswerCanonical (execAnd f s) :=
  .runInstr h .opAlu2

theorem AnswerCanonical.execOr (h : s.Canonical) {f : Fields} : AnswerCanonical (execOr f s) :=
  .runInstr h .opAlu2

theorem AnswerCanonical.execXor (h : s.Canonical) {f : Fields} : AnswerCanonical (execXor f s) :=
  .runInstr h .opAlu2

theorem AnswerCanonical.execAndn (h : s.Canonical) {f : Fields} : AnswerCanonical (execAndn f s) :=
  .runInstr h .opAlu2

theorem AnswerCanonical.execNot (h : s.Canonical) {f : Fields} : AnswerCanonical (execNot f s) :=
  .runInstr h .opAlu1

theorem AnswerCanonical.execShl (h : s.Canonical) {f : Fields} : AnswerCanonical (execShl f s) :=
  .runInstr h .opAlu2

theorem AnswerCanonical.execShr (h : s.Canonical) {f : Fields} : AnswerCanonical (execShr f s) :=
  .runInstr h .opAlu2

theorem AnswerCanonical.execSar (h : s.Canonical) {f : Fields} : AnswerCanonical (execSar f s) :=
  .runInstr h .opAlu2

theorem AnswerCanonical.execRot (h : s.Canonical) {f : Fields} : AnswerCanonical (execRot f s) :=
  .runInstr h .opAlu2

theorem AnswerCanonical.execShf (h : s.Canonical) {f : Fields} : AnswerCanonical (execShf f s) :=
  .runInstr h .opAlu3

theorem AnswerCanonical.execBfe (h : s.Canonical) {f : Fields} : AnswerCanonical (execBfe f s) :=
  .runInstr h .opAlu2

theorem AnswerCanonical.execBfi (h : s.Canonical) {f : Fields} : AnswerCanonical (execBfi f s) :=
  .runInstr h .opAlu3

theorem AnswerCanonical.execPopc (h : s.Canonical) {f : Fields} : AnswerCanonical (execPopc f s) :=
  .runInstr h .opAlu1

theorem AnswerCanonical.execClz (h : s.Canonical) {f : Fields} : AnswerCanonical (execClz f s) :=
  .runInstr h .opAlu1

theorem AnswerCanonical.execCtz (h : s.Canonical) {f : Fields} : AnswerCanonical (execCtz f s) :=
  .runInstr h .opAlu1

theorem AnswerCanonical.execBrev (h : s.Canonical) {f : Fields} : AnswerCanonical (execBrev f s) :=
  .runInstr h .opAlu1

theorem AnswerCanonical.execPrmt (h : s.Canonical) {f : Fields} : AnswerCanonical (execPrmt f s) :=
  .runInstr h .opAlu3

theorem AnswerCanonical.execPand (h : s.Canonical) {f : Fields} : AnswerCanonical (execPand f s) :=
  .runInstr h .opLogic

theorem AnswerCanonical.execPor (h : s.Canonical) {f : Fields} : AnswerCanonical (execPor f s) :=
  .runInstr h .opLogic

theorem AnswerCanonical.execPxor (h : s.Canonical) {f : Fields} : AnswerCanonical (execPxor f s) :=
  .runInstr h .opLogic

theorem AnswerCanonical.execPmov (h : s.Canonical) {f : Fields} : AnswerCanonical (execPmov f s) :=
  .runInstr h .opLogic

theorem State.Canonical.respond (h : s.Canonical) {c : SpdmCode} {data : List Byte} : (s.respond c data).Canonical :=
  .modTrust (.same h (by rfl)) fun _ => by rfl

theorem State.Canonical.unexpected (h : s.Canonical) : s.unexpected.Canonical :=
  .modTrust h fun _ => by rfl

theorem State.Canonical.spdm (h : s.Canonical) {c : SpdmCode} {allowed : SpdmState → Bool}
    {act : State → List Byte → State} (hact : ∀ t y1, t.Canonical → (act t y1).Canonical) :
    (s.spdm c allowed act).Canonical := by
  unfold State.spdm
  dsimp only
  split
  · split
    · split
      · exact .modTrust h fun _ => by rfl
      · split
        · exact hact _ _ (.modTrust h fun _ => by rfl)
        · exact .unexpected (.modTrust h fun _ => by rfl)
    · exact h
  · exact h

theorem State.Canonical.spdmTo (h : s.Canonical) {x : SpdmState} : (s.spdmTo x).Canonical :=
  .modTrust h fun _ => by rfl

theorem AnswerCanonical.execGetVersion (h : s.Canonical) : AnswerCanonical (execGetVersion s) :=
  .next (.spdm h (fun _ _ h1 => .respond (.spdmTo h1)))

theorem AnswerCanonical.execGetCapabilities (h : s.Canonical) : AnswerCanonical (execGetCapabilities s) :=
  .next (.spdm h (fun _ _ h1 => .respond (.spdmTo h1)))

theorem AnswerCanonical.execNegotiateAlgorithms (h : s.Canonical) : AnswerCanonical (execNegotiateAlgorithms s) :=
  .next (.spdm h (fun _ _ h1 => .respond (.spdmTo h1)))

theorem AnswerCanonical.execGetDigests (h : s.Canonical) : AnswerCanonical (execGetDigests s) :=
  .next (.spdm h (fun _ _ h1 => .respond h1))

theorem AnswerCanonical.execGetCertificate (h : s.Canonical) : AnswerCanonical (execGetCertificate s) :=
  .next (.spdm h (fun _ _ h1 => .respond h1))

theorem AnswerCanonical.execChallenge (h : s.Canonical) : AnswerCanonical (execChallenge s) :=
  .next (.spdm h (fun _ _ h1 => .respond h1))

theorem AnswerCanonical.execGetMeasurements (h : s.Canonical) : AnswerCanonical (execGetMeasurements s) :=
  .next (.spdm h (fun _ _ h1 => .respond h1))

theorem AnswerCanonical.execKeyExchange (h : s.Canonical) : AnswerCanonical (execKeyExchange s) :=
  .next (.spdm h (fun _ _ h1 => .respond (.spdmTo h1)))

theorem AnswerCanonical.execFinish (h : s.Canonical) : AnswerCanonical (execFinish s) :=
  .next (.spdm h (fun _ _ h1 => .respond (.spdmTo h1)))

theorem AnswerCanonical.execEndSession (h : s.Canonical) : AnswerCanonical (execEndSession s) :=
  .next (.spdm h (fun _ _ h1 => .respond (.spdmTo h1)))

theorem AnswerCanonical.execIdeKm (h : s.Canonical) : AnswerCanonical (execIdeKm s) := by
  unfold Machine.execIdeKm
  refine .next ?_
  dsimp only
  split
  · exact h
  · refine .spdm h (fun _ _ h1 => ?_)
    refine .respond ?_
    split
    · exact h1
    · split
      · exact .modTrust h1 fun _ => by rfl
      · split
        · exact .modTrust h1 fun _ => by rfl
        · exact h1

theorem State.Canonical.slotCommand (h : s.Canonical) {ops : Byte → Bool} {check : Trust → List Byte → SlotStatus}
    {act : State → List Byte → State × SlotStatus} (hact : ∀ t y1, t.Canonical → (act t y1).1.Canonical) :
    (s.slotCommand ops check act).Canonical := by
  unfold State.slotCommand
  dsimp only
  split
  · exact h
  · split
    · exact h
    · refine .spdm h (fun _ _ h1 => ?_)
      refine .respond ?_
      split
      · exact hact _ _ h1
      · exact h1

theorem State.Canonical.fuse (h : s.Canonical) {ok bad : Trust → Trust}
    (hok : ∀ t, (ok t).image = t.image) (hbad : ∀ t, (bad t).image = t.image) : (s.fuse ok bad).1.Canonical := by
  have hs : ({ s with freeCtr := s.freeCtr + 1 } : State).Canonical := .same h rfl
  unfold State.fuse
  dsimp only
  split
  · exact .modTrust hs hok
  · exact .modTrust hs hbad

theorem AnswerCanonical.execEnrol (h : s.Canonical) : AnswerCanonical (execEnrol s) := by
  unfold Machine.execEnrol
  refine .next (.slotCommand h (fun _ _ h1 => ?_))
  dsimp only
  exact .fuse h1 (fun _ => by rfl) fun _ => by rfl

theorem AnswerCanonical.execRevoke (h : s.Canonical) : AnswerCanonical (execRevoke s) :=
  .next (.slotCommand h (fun _ _ h1 => .fuse h1 (fun _ => by rfl) fun _ => by rfl))

theorem AnswerCanonical.execQuery (h : s.Canonical) : AnswerCanonical (execQuery s) :=
  .next (.slotCommand h (fun _ _ h1 => h1))

theorem AnswerCanonical.execMeasurementExtend (h : s.Canonical) : AnswerCanonical (execMeasurementExtend s) := by
  unfold Machine.execMeasurementExtend
  refine .next ?_
  dsimp only
  split
  · exact h
  next _ _ s1 e1 =>
    have h1 : s1.Canonical := .takeCommit h e1
    split
    · exact h1
    · exact .modTrust h1 fun _ => by rfl

theorem State.Canonical.correctable (h : s.Canonical) {unit index addr asid : Nat} :
    (s.correctable unit index addr asid).Canonical := by
  unfold State.correctable
  dsimp only
  split
  · split
    · exact .same h rfl
    · exact .logError (.same h (by rfl))
  · exact .logError (.same h (by rfl))

theorem State.Canonical.scrubRetires (h : s.Canonical) {c : Nat} : (s.scrubRetires c).Canonical := by
  unfold State.scrubRetires
  split
  · exact .modTrust h fun _ => by rfl
  · exact h

theorem State.Canonical.scrubError (h : s.Canonical) {p : ErrPlace} : (s.scrubError p).Canonical := by
  unfold State.scrubError
  dsimp only
  split
  · split
    · exact .modTrust (.spareRow h) fun _ => by rfl
    · exact .modTrust (.spareRow h) fun _ => by rfl
  · exact .scrubRetires h
  · exact .scrubRetires h
  · exact .scrubRetires h
  · exact .scrubRetires h
  · exact .scrubRetires h
  · exact .scrubRetires h
  · exact .scrubRetires h
  · exact .same h rfl
  · exact h
  · exact .modTrust h fun _ => by rfl

theorem State.Canonical.uncorrectable (h : s.Canonical) {p : ErrPlace} : (s.uncorrectable p).Canonical := by
  unfold State.uncorrectable
  dsimp only
  split
  · split
    · exact .modMem h (fun _ h1 => h1)
    · exact h
  · exact .logError (.markAtom h)
  · exact .modScratch h (fun _ h2 => h2)
  · exact .modGang h
  · exact .modGang h
  · exact .modGang h
  · exact .logError (.modCore h)
  · split
    · exact .modMem (.fireMonitor h) (fun _ h3 => h3)
    · exact h
  · exact .modCore h
  · exact .porterExcept (.logError h)
  · exact .logError h
  · split
    · exact .logError (.setUse h)
    · exact h
  · exact .modCore h
  · exact .setCluster h
  · exact h

theorem AnswerCanonical.execStorageError (h : s.Canonical) {p : ErrPlace} {fatal : Bool} :
    AnswerCanonical (execStorageError p fatal s) := by
  unfold Machine.execStorageError
  extract_lets cached
  exact .next (.branch (.branch (.scrubError h) (.uncorrectable h)) (.correctable h))

theorem AnswerCanonical.execPatrolRead (h : s.Canonical) {pa : Nat} : AnswerCanonical (execPatrolRead pa s) := by
  unfold Machine.execPatrolRead
  refine .next ?_
  split
  · exact h
  · split
    · exact .logFresh (.injectionFired h)
    · split
      · exact h
      · split
        · exact .logFresh (.errorFound h)
        · exact h

theorem AnswerCanonical.execErrinjArm (h : s.Canonical) : AnswerCanonical (execErrinjArm s) := by
  unfold Machine.execErrinjArm
  refine .next ?_
  dsimp only
  split
  · exact h
  next _ _ s1 e1 =>
    have h1 : s1.Canonical := .takeCommit h e1
    split
    · exact h
    · exact .same h1 rfl

theorem AnswerCanonical.execErrinjDisarm (h : s.Canonical) : AnswerCanonical (execErrinjDisarm s) := by
  unfold Machine.execErrinjDisarm
  refine .next ?_
  dsimp only
  split
  · exact h
  next _ _ s1 e1 =>
    have h1 : s1.Canonical := .takeCommit h e1
    split
    · exact h1
    · split
      · exact .same h1 rfl
      · exact h

theorem AnswerCanonical.execErrtail (h : s.Canonical) : AnswerCanonical (execErrtail s) := by
  unfold Machine.execErrtail
  refine .next ?_
  dsimp only
  split
  · exact h
  next _ _ s1 e1 =>
    have h1 : s1.Canonical := .takeCommit h e1
    exact .same h1 rfl

theorem State.Canonical.emptyCore (h : s.Canonical) {c : Nat} : (s.emptyCore c).Canonical :=
  .foldl (fun _ _ h1 => .evictWhole h1) (.same h (by rfl))

theorem AnswerCanonical.execSpare (h : s.Canonical) : AnswerCanonical (execSpare s) := by
  unfold Machine.execSpare
  refine .next ?_
  dsimp only
  split
  · exact h
  next _ _ s1 e1 =>
    have h1 : s1.Canonical := .takeCommit h e1
    split
    · exact h1
    · split
      · exact .same h1 rfl
      · exact .emptyCore (.same h1 (by rfl))

theorem AnswerCanonical.execSpareSteerComplete (h : s.Canonical) : AnswerCanonical (execSpareSteerComplete s) := by
  unfold Machine.execSpareSteerComplete
  refine .next ?_
  dsimp only
  split
  · exact h
  · split
    · exact h
    · exact .logError (.same h (by rfl))

theorem State.Canonical.retireCore (h : s.Canonical) {c : Nat} : (s.retireCore c).Canonical := by
  unfold State.retireCore
  dsimp only
  exact .logError (.same h (by rfl))

theorem AnswerCanonical.execCoreretire (h : s.Canonical) : AnswerCanonical (execCoreretire s) := by
  unfold Machine.execCoreretire
  refine .next ?_
  dsimp only
  split
  next _ _ s1 e1 =>
    have h1 : s1.Canonical := .takeCommit h e1
    split
    · exact .emptyCore h1
    · exact h1
  · split
    · exact .retireCore h
    · exact h

theorem AnswerCanonical.execRowspare (h : s.Canonical) : AnswerCanonical (execRowspare s) := by
  unfold Machine.execRowspare
  refine .next ?_
  dsimp only
  split
  · exact h
  next _ _ s1 e1 =>
    have h1 : s1.Canonical := .takeCommit h e1
    split
    · exact .spareRow h1
    · exact h1

theorem AnswerCanonical.execChretire (h : s.Canonical) : AnswerCanonical (execChretire s) := by
  unfold Machine.execChretire
  refine .next ?_
  dsimp only
  split
  · exact h
  next _ _ s1 e1 =>
    have h1 : s1.Canonical := .takeCommit h e1
    exact .same h1 rfl

theorem Op.Canonical.opSpecial {i : Instr} {f : Fields} {fn : SpecialFn} : (opSpecial i f fn).Canonical :=
  .opLate

theorem AnswerCanonical.execRcp (h : s.Canonical) {f : Fields} : AnswerCanonical (execRcp f s) :=
  .runInstr h .opSpecial

theorem AnswerCanonical.execRsq (h : s.Canonical) {f : Fields} : AnswerCanonical (execRsq f s) :=
  .runInstr h .opSpecial

theorem AnswerCanonical.execSqrt (h : s.Canonical) {f : Fields} : AnswerCanonical (execSqrt f s) :=
  .runInstr h .opSpecial

theorem AnswerCanonical.execEx2 (h : s.Canonical) {f : Fields} : AnswerCanonical (execEx2 f s) :=
  .runInstr h .opSpecial

theorem AnswerCanonical.execLg2 (h : s.Canonical) {f : Fields} : AnswerCanonical (execLg2 f s) :=
  .runInstr h .opSpecial

theorem AnswerCanonical.execSinpi (h : s.Canonical) {f : Fields} : AnswerCanonical (execSinpi f s) :=
  .runInstr h .opSpecial

theorem AnswerCanonical.execCospi (h : s.Canonical) {f : Fields} : AnswerCanonical (execCospi f s) :=
  .runInstr h .opSpecial

theorem AnswerCanonical.execTanh (h : s.Canonical) {f : Fields} : AnswerCanonical (execTanh f s) :=
  .runInstr h .opSpecial

end Sys2Proof.Machine
end

