-- ==== Sys2Proof/Proofs/CanonicalSteps.lean ====
section
/-! PROOFS. Stores, fetch, issue, the porters' instructions and the choice of the next step keep the canonical form (log 2). -/

namespace Sys2Proof.Machine

variable {s : State}

theorem AnswerCanonical.execStG (h : s.Canonical) {f : Fields} : AnswerCanonical (execStG f s) :=
  .runInstr h .opStore

theorem AnswerCanonical.execStGRel (h : s.Canonical) {f : Fields} : AnswerCanonical (execStGRel f s) :=
  .runInstr h .opStore

theorem AnswerCanonical.execStS (h : s.Canonical) {f : Fields} : AnswerCanonical (execStS f s) :=
  .runInstr h .opStore

theorem AnswerCanonical.execStSRel (h : s.Canonical) {f : Fields} : AnswerCanonical (execStSRel f s) :=
  .runInstr h .opStore

theorem AnswerCanonical.execStSFs (h : s.Canonical) {f : Fields} : AnswerCanonical (execStSFs f s) :=
  .runInstr h .opStore

theorem AnswerCanonical.execPrf (h : s.Canonical) {f : Fields} : AnswerCanonical (execPrf f s) := by
  unfold Machine.execPrf
  refine .runInstr h (.base (fun _ _ h1 => ?_))
  refine .pair ?_
  split
  next _ s2 _ _ _ e1 =>
    have h2 : s2.Canonical := .fst (.ea h1) e1
    split
    · split
      next _ s3 _ e2 =>
        have h3 : s3.Canonical := .homeRead h2 e2
        exact .fillL1 h3
      · exact h1
    · exact h2
  · exact h1

theorem AnswerCanonical.execFeclr (h : s.Canonical) {f : Fields} : AnswerCanonical (execFeclr f s) := by
  unfold Machine.execFeclr
  extract_lets b
  have hb : b.Canonical := by
    refine .base fun _ _ hs => ?_
    dsimp only
    split
    · exact hs
    · exact hs
    · split
      · exact hs
      next _ s1 e1 => exact .pair (.modScratch (.of_eq_some (.drain hs) e1) fun _ hx => hx)
  exact .runInstr h ⟨hb.walks, hb.body, hb.post⟩

theorem AnswerCanonical.execFenceAcq (h : s.Canonical) {f : Fields} : AnswerCanonical (execFenceAcq f s) := by
  unfold Machine.execFenceAcq
  refine .runInstr h (.awaitFlush ?_)
  refine .base (fun _ _ h1 => ?_)
  split
  · exact h1
  · exact .pair (.acquireL1 h1)

theorem AnswerCanonical.execFenceRel (h : s.Canonical) {f : Fields} : AnswerCanonical (execFenceRel f s) :=
  .runInstr h (.publishes (.base (fun _ _ h1 => h1)))

theorem AnswerCanonical.execFenceAr (h : s.Canonical) {f : Fields} : AnswerCanonical (execFenceAr f s) := by
  unfold Machine.execFenceAr
  extract_lets _ b
  have hb : b.Canonical := by
    refine .base fun _ _ hs => ?_
    split
    · exact hs
    · split
      · exact hs
      next _ s1 e1 => exact .pair (.acquireL1 (.of_eq_some (.drainThread hs) e1))
  exact .runInstr h (.awaitFlush (.publishes ⟨hb.walks, hb.body, hb.post⟩))

theorem AnswerCanonical.execStoreApplyAtHome (h : s.Canonical) {i : Nat} : AnswerCanonical (execStoreApplyAtHome i s) := by
  unfold Machine.execStoreApplyAtHome
  refine .next ?_
  split
  · exact .getD (.drain h) h
  · exact h

theorem AnswerCanonical.execRedApply (h : s.Canonical) {i : Nat} : AnswerCanonical (execRedApply i s) := by
  unfold Machine.execRedApply
  refine .next ?_
  split
  · exact .drainRed h
  · exact h

theorem AnswerCanonical.exec (h : s.Canonical) {i : Instr} : AnswerCanonical (exec i s) := by
  unfold Machine.exec
  split
  · exact .execBra h
  · exact .execBrx h
  · exact .execCall h
  · exact .execCallInd h
  · exact .execRet h
  · exact .execLoop h
  · exact .execExit h
  · exact .execNop h
  · exact .execYield h
  · exact .execSleep h
  · exact .execSleepEnd h
  · exact .execBpt h
  · exact .execTrap h
  · exact .execIllegalWord h
  · exact .execIadd h
  · exact .execIsub h
  · exact .execIaddc h
  · exact .execIsubb h
  · exact .execImul h
  · exact .execImulh h
  · exact .execImad h
  · exact .execImadw h
  · exact .execImin h
  · exact .execImax h
  · exact .execIabs h
  · exact .execIneg h
  · exact .execIcmp h
  · exact .execIset h
  · exact .execSel h
  · exact .execMov h
  · exact .execLea h
  · exact .execAnd h
  · exact .execOr h
  · exact .execXor h
  · exact .execAndn h
  · exact .execNot h
  · exact .execShl h
  · exact .execShr h
  · exact .execSar h
  · exact .execRot h
  · exact .execShf h
  · exact .execBfe h
  · exact .execBfi h
  · exact .execPopc h
  · exact .execClz h
  · exact .execCtz h
  · exact .execBrev h
  · exact .execPrmt h
  · exact .execPand h
  · exact .execPor h
  · exact .execPxor h
  · exact .execPmov h
  · exact .execFadd h
  · exact .execFsub h
  · exact .execFmul h
  · exact .execFfma h
  · exact .execFmin h
  · exact .execFmax h
  · exact .execFabs h
  · exact .execFneg h
  · exact .execFcmp h
  · exact .execFset h
  · exact .execFclass h
  · exact .execFrnd h
  · exact .execFscale h
  · exact .execFaddF64 h
  · exact .execFsubF64 h
  · exact .execFmulF64 h
  · exact .execFfmaF64 h
  · exact .execFminF64 h
  · exact .execFmaxF64 h
  · exact .execFabsF64 h
  · exact .execFnegF64 h
  · exact .execFcmpF64 h
  · exact .execFsetF64 h
  · exact .execFclassF64 h
  · exact .execFrndF64 h
  · exact .execFscaleF64 h
  · exact .execCvt h
  · exact .execPack h
  · exact .execUnpack h
  · exact .execCvt8 h
  · exact .execCvt4 h
  · exact .execQmx h
  · exact .execRcp h
  · exact .execRsq h
  · exact .execSqrt h
  · exact .execEx2 h
  · exact .execLg2 h
  · exact .execSinpi h
  · exact .execCospi h
  · exact .execTanh h
  · exact .execShfl h
  · exact .execBallot h
  · exact .execVote h
  · exact .execMatchAny h
  · exact .execRedux h
  · exact .execScanx h
  · exact .execElect h
  · exact .execProducerWriteback h
  · exact .execLdG h
  · exact .execLdGAcq h
  · exact .execLdGEd h
  · exact .execLdGEdRpt h
  · exact .execLdS h
  · exact .execLdSAcq h
  · exact .execLdSFw h
  · exact .execLdSFc h
  · exact .execFullLoadPerform h
  · exact .execLdK h
  · exact .execStG h
  · exact .execStGRel h
  · exact .execStS h
  · exact .execStSRel h
  · exact .execStSFs h
  · exact .execDraftCommit h
  · exact .execStoreApplyAtHome h
  · exact .execRedApply h
  · exact .execPrf h
  · exact .execFeclr h
  · exact .execFenceAcq h
  · exact .execFenceRel h
  · exact .execFenceAr h
  · exact .execAtomAdd h
  · exact .execAtomMin h
  · exact .execAtomMax h
  · exact .execAtomAnd h
  · exact .execAtomOr h
  · exact .execAtomXor h
  · exact .execAtomExch h
  · exact .execAtomFadd h
  · exact .execCas h
  · exact .execRedAdd h
  · exact .execRedMin h
  · exact .execRedMax h
  · exact .execRedAnd h
  · exact .execRedOr h
  · exact .execRedXor h
  · exact .execRedFadd h
  · exact .execEdnext h
  · exact .execEdsync h
  · exact .execEditionAutoRelease h
  · exact .execSread h
  · exact .execSwrite h
  · exact .execSysc h
  · exact .execSyscA h
  · exact .execDraft h
  · exact .execBarInit h
  · exact .execBarArr h
  · exact .execBarExp h
  · exact .execBarWait h
  · exact .execBarrierWaitWake h
  · exact .execBarTest h
  · exact .execMbxPush h
  · exact .execMbxPushTry h
  · exact .execMbxPop h
  · exact .execMailboxPushWake h
  · exact .execMailboxPopWake h
  · exact .execMon h
  · exact .execEvarm h
  · exact .execEvdis h
  · exact .execEvclr h
  · exact .execWaitany h
  · exact .execWaitanyDelivery h
  · exact .execDeadlineExpire h
  · exact .execCpy h
  · exact .execCpyAcceptDeferred h
  · exact .execCopyChunk h
  · exact .execCopySrcDone h
  · exact .execCopyVisible h
  · exact .execCbatch h
  · exact .execCbatchDeferredSeal h
  · exact .execCwait h
  · exact .execCwaitRelease h
  · exact .execCstat h
  · exact .execMbind h
  · exact .execMatrixSetForm h
  · exact .execMbindU h
  · exact .execMatrixCollectiveStart h
  · exact .execMma h
  · exact .execMmaComplete h
  · exact .execMzero h
  · exact .execMlda h
  · exact .execMsta h
  · exact .execMrgd h
  · exact .execRotationEnter h
  · exact .execRotationLeave h
  · exact .execSubgangSwap h
  · exact .execAgedSwap h
  · exact .execBlockRetire h
  · exact .execHeldSourceEnter h
  · exact .execPgread h
  · exact .execPgwrite h
  · exact .execGangStop h
  · exact .execGangHalt h
  · exact .execGangRelease h
  · exact .execGangSave h
  · exact .execGangRestore h
  · exact .execGangClear h
  · exact .execGangKill h
  · exact .execGangClearfree h
  · exact .execPresume h
  · exact .execPmsendChannel h
  · exact .execPmsendMailbox h
  · exact .execPmrecv h
  · exact .execPcallrec h
  · exact .execSfenceVma h
  · exact .execTlbiComplete h
  · exact .execPageWalk h
  · exact .execRegisterWrite h
  · exact .execGangPlace h
  · exact .execEvictionUseDeadline h
  · exact .execBlockImageSave h
  · exact .execBlockRestore h
  · exact .execRouterHoldExpire h
  · exact .execFlushAck h
  · exact .execHostCxlMemAccess h
  · exact .execFlitReceive h
  · exact .execLaneDrop h
  · exact .execRemoteRequest h
  · exact .execRemoteAck h
  · exact .execRemoteRetransmit h
  · exact .execRemoteRequestFail h
  · exact .execPskeySwitch h
  · exact .execKeylow h
  · exact .execKeyLimit h
  · exact .execStreamDown h
  · exact .execStreamTagFailures h
  · exact .execNvmeMsix h
  · exact .execNvmeDma h
  · exact .execEthTxComplete h
  · exact .execEthRxFrame h
  · exact .execPatrolRead h
  · exact .execCorePowerGate h
  · exact .execCorePowerUpComplete h
  · exact .execPorterLoadStoreAmo h
  · exact .execPorterFence h
  · exact .execPorterTimerInterrupt h
  · exact .execStorageError h
  · exact .execInstructionFetchFault h
  · exact .execTlbiCluster h
  · exact .execTlbiDevice h
  · exact .execEngineResume h
  · exact .execEngineAbort h
  · exact .execLaunchPost h
  · exact .execDistributorAdmit h
  · exact .execFragmentationGuard h
  · exact .execDistack h
  · exact .execJpush h
  · exact .execPskeyCommit h
  · exact .execEthTxTail h
  · exact .execDeviceRelease h
  · exact .execLeaseBlockWrite h
  · exact .execBootBlockWrite h
  · exact .execScrubComplete h
  · exact .execBootStep h
  · exact .execImageSourceTimeout h
  · exact .execPorterBootTimeout h
  · exact .execWatchdog h
  · exact .execBootok h
  · exact .execStagingChunklen h
  · exact .execStagingChunkTaken h
  · exact .execStagingTotal h
  · exact .execGetVersion h
  · exact .execGetCapabilities h
  · exact .execNegotiateAlgorithms h
  · exact .execGetDigests h
  · exact .execGetCertificate h
  · exact .execChallenge h
  · exact .execGetMeasurements h
  · exact .execKeyExchange h
  · exact .execFinish h
  · exact .execEndSession h
  · exact .execIdeKm h
  · exact .execEnrol h
  · exact .execRevoke h
  · exact .execQuery h
  · exact .execMeasurementExtend h
  · exact .execSpare h
  · exact .execSpareSteerComplete h
  · exact .execCoreretire h
  · exact .execRowspare h
  · exact .execChretire h
  · exact .execErrtail h
  · exact .execErrinjArm h
  · exact .execErrinjDisarm h
  · exact .execDeviceReset h
  · exact .execStandbyPowerLoss h
  · exact .execEthRxTail h

theorem State.Canonical.fillText (h : s.Canonical) {core asid pa lv : Nat} {t : Target} :
    (s.fillText core asid pa lv t).1.Canonical := by
  unfold State.fillText
  split
  · split
    · exact .pair (.modCore h)
    · split
      · exact h
      · split
        · exact h
        · exact .pair (.getD (.sendRemote h) h)
  · split
    next _ s1 _ e1 =>
      have h1 : s1.Canonical := .fst (.agentRead h) e1
      exact .pair (.modCore h1)
    next _ s2 _ e2 =>
      exact .fst (.agentRead h) e2

theorem State.Canonical.staleText (h : s.Canonical) {core asid pa lv : Nat} {t : Target} {old : W32} :
    (s.staleText core asid pa lv t old).1.Canonical := by
  unfold State.staleText
  dsimp only
  split
  · exact h
  · split
    · exact h
    · split
      · exact .pair (.same h (by rfl))
      · exact .fillText (.same h (by rfl))

theorem State.Canonical.fetchWord (h : s.Canonical) {core asid root va : Nat} : (s.fetchWord core asid root va).1.Canonical := by
  unfold State.fetchWord
  dsimp only
  split
  next _ s1 e1 =>
    exact .fst (.translate h) e1
  next _ s2 _ _ e2 =>
    exact .fst (.translate h) e2
  next _ s3 _ _ e3 =>
    have h3 : s3.Canonical := .fst (.translate h) e3
    split
    · exact .staleText h3
    · exact .fillText h3

theorem State.Canonical.fetchWords (h : s.Canonical) {core asid root : Nat} {pc : Pc} {x : Nat} :
    (s.fetchWords core asid root pc x).1.Canonical := by
  induction x generalizing s pc with
  | zero => exact h
  | succ n ih =>
    unfold State.fetchWords
    split
    next _ s1 _ e1 =>
      have h1 : s1.Canonical := .fst (.fetchWord h) e1
      split
      next _ s2 _ e2 => exact .fst (ih h1) e2
      next _ s2 _ e2 => exact .fst (ih h1) e2
    next _ s1 _ _ e1 => exact .fst (.fetchWord h) e1

theorem State.Canonical.issueAt (h : s.Canonical) {k : Nat} {g : Gang} {m : Lanes} {pc : Pc} :
    (s.issueAt k g m pc).1.Canonical := by
  unfold State.issueAt
  dsimp only
  split
  next _ s1 _ e1 =>
    have h1 : s1.Canonical := .fst (.fetchWords h) e1
    split
    · exact .pair (.same h1 (by rfl))
    · exact .pair (.same h1 (by rfl))
  next _ s2 _ _ _ e2 =>
    have h2 : s2.Canonical := .fst (.fetchWords h) e2
    exact .pair (.same h2 (by rfl))
  next _ s3 _ _ e3 =>
    exact .fst (.fetchWords h) e3

theorem State.Canonical.issueNext (h : s.Canonical) {k sl : Nat} : (s.issueNext k sl).1.Canonical := by
  unfold State.issueNext
  dsimp only
  split
  · exact h
  · split
    · exact h
    · split
      · exact .pair (.modGang h)
      · split
        · exact h
        · split
          · exact h
          · split
            · exact h
            · split
              · exact .pair (.setGang h)
              · exact .issueAt h

theorem State.Canonical.porterParcel (h : s.Canonical) {cl va : Nat} : (s.porterParcel cl va).1.Canonical := by
  unfold State.porterParcel
  split
  next _ s1 _ e1 =>
    exact .fst (.porterTarget h) e1
  next _ s2 _ _ _ e2 =>
    have h2 : s2.Canonical := .fst (.porterTarget h) e2
    split
    · exact h2
    · split
      · exact h2
      · exact .pair (.getD (.sendRemote h2) h2)
  next _ s3 _ _ e3 =>
    have h3 : s3.Canonical := .fst (.porterTarget h) e3
    split
    next _ s4 _ e4 =>
      exact .fst (.agentRead h3) e4
    next _ s5 _ e5 =>
      exact .fst (.agentRead h3) e5
  next _ s6 _ _ e6 =>
    have h6 : s6.Canonical := .fst (.porterTarget h) e6
    split
    next _ s7 _ e7 =>
      exact .fst (.agentRead h6) e7
    next _ s8 _ e8 =>
      exact .fst (.agentRead h6) e8
  next _ s9 _ _ _ _ e9 =>
    exact .fst (.porterTarget h) e9

theorem State.Canonical.porterFetch (h : s.Canonical) {cl : Nat} : (s.porterFetch cl).1.Canonical := by
  unfold State.porterFetch
  dsimp only
  split
  next _ s1 _ e1 =>
    have h1 : s1.Canonical := .fst (.porterParcel h) e1
    exact .pair (.porterMiss h1)
  next _ s2 _ e2 =>
    have h2 : s2.Canonical := .fst (.porterParcel h) e2
    split
    · exact h2
    · split
      next _ s3 _ e3 =>
        have h3 : s3.Canonical := .fst (.porterParcel h2) e3
        exact .pair (.porterMiss h3)
      next _ s4 _ e4 =>
        exact .fst (.porterParcel h2) e4

/-- The state after a base instruction, where there is one, is in canonical form. -/
def BaseEnd.Canonical (e : BaseEnd) : Prop := ∀ t, e = .next t → t.Canonical

theorem BaseEnd.Canonical.next (h : s.Canonical) : (BaseEnd.next s).Canonical := by
  rintro _ ⟨⟩
  exact h

theorem BaseEnd.Canonical.illegal : BaseEnd.illegal.Canonical := fun _ e => nomatch e

theorem BaseEnd.Canonical.branch {p : Prop} [Decidable p] {x y : BaseEnd} (hx : x.Canonical) (hy : y.Canonical) :
    (if p then x else y).Canonical :=
  iteInduction (motive := BaseEnd.Canonical) (fun _ => hx) fun _ => hy

theorem BaseEnd.Canonical.csrInsn (h : s.Canonical) {cl f3 n rs : Nat} {d : BitVec 5} : (s.csrInsn cl f3 n rs d).Canonical := by
  unfold State.csrInsn
  extract_lets p x write old base new s1 s2
  refine .branch .illegal (.branch (.next h) (.next (.modPorter ?_)))
  have h1 : s1.Canonical := .branch (.same h (by rfl)) h
  exact .branch (.csrWrite h1) h1

theorem BaseEnd.Canonical.systemInsn (h : s.Canonical) {cl w : Nat} : (s.systemInsn cl w).Canonical := by
  unfold State.systemInsn
  extract_lets p
  split
  · exact .next (.porterExcept h)
  · exact .next (.porterExcept h)
  · exact .branch (.next (.modPorter h)) .illegal
  · exact .branch .illegal (.next (.modPorter h))
  · exact .branch .illegal (.next (.modPorter h))
  · exact .illegal

theorem BaseEnd.Canonical.baseInsn (h : s.Canonical) {cl w : Nat} : (s.baseInsn cl w).Canonical := by
  unfold State.baseInsn
  extract_lets p d f3 f7 a b imm upper link put go
  have hput {x : W64} : (put x).Canonical := .next (.modPorter h)
  have hgo {t : W64} {q : Porter} : (go t q).Canonical := .next (.modPorter h)
  clear_value f3
  split
  case h_1 | h_2 => exact hput
  case h_3 => exact hgo
  case h_4 => exact .branch hgo .illegal
  case h_5 =>
    split
    · exact hgo
    · exact .illegal
  case h_6 => exact .branch .illegal (.branch .illegal hput)
  case h_7 =>
    split
    · exact hput
    · exact .branch hput .illegal
    · exact .branch hput .illegal
    · exact .illegal
  case h_8 | h_9 => exact .branch hput (.branch hput .illegal)
  case h_10 => exact .branch (.next (.modPorter h)) .illegal
  case h_11 => exact .branch (.systemInsn h) (.branch .illegal (.csrInsn h))
  case h_12 | h_13 | h_14 | h_15 | h_16 =>
    split
    · exact .next (.modPorter h)
    · exact .illegal
  case h_17 => exact .illegal

theorem State.Canonical.porterNext (h : s.Canonical) {cl : Nat} : (s.porterNext cl).1.Canonical := by
  unfold State.porterNext
  split
  · exact h
  · split
    · exact .pair (.modPorter h)
    · split
      next _ s1 e1 => exact .fst (.porterFetch h) e1
      next _ s1 _ e1 => exact .porterExcept (.modPorter (.fst (.porterFetch h) e1))
      next _ s1 w n e1 =>
        extract_lets s2
        have h2 : s2.Canonical := .modPorter (.fst (.porterFetch h) e1)
        split
        · exact h2
        · split
          · exact .porterExcept h2
          · split
            next s3 e3 => exact BaseEnd.Canonical.baseInsn h2 s3 e3
            next => exact .porterExcept h2

theorem State.Canonical.receive (h : s.Canonical) {m : List Byte} : (s.receive m).Canonical := by
  unfold State.receive
  dsimp only
  split
  · exact .modTrust h fun _ => by rfl
  · split
    · exact .unexpected h
    · exact h

theorem State.Canonical.deliverImage (h : s.Canonical) {data : List Byte} : (s.deliverImage data).Canonical := by
  unfold State.deliverImage
  split
  · exact .modImage h fun _ _ => mem_wf_writeBytes mem_wf_nil _ _
  · exact h

theorem State.Canonical.porterTurn (h : s.Canonical) {cl : Nat} : (s.porterTurn cl).1.Canonical := by
  unfold State.porterTurn
  split
  · split
    next _ s1 e1 =>
      exact .fst (.porterNext h) e1
    next _ s2 _ e2 =>
      exact .fst (.porterNext h) e2
  · exact h

theorem State.Canonical.hostFails (h : s.Canonical) {pa : Nat} {poison : Bool} : (s.hostFails pa poison).Canonical := by
  unfold State.hostFails
  split
  · split
    · exact .markAtom h
    · exact .modMem h (fun _ h1 => h1)
  · exact h

theorem State.Canonical.dropCached (h : s.Canonical) {core line : Nat} : (s.dropCached core line).Canonical :=
  .modCore (.dropL1 h)

theorem State.Canonical.setMember (h : s.Canonical) {group dev : Nat} {joins : Bool} :
    (s.setMember group dev joins).Canonical := by
  unfold State.setMember
  dsimp only
  exact .same h rfl

theorem State.Canonical.actNext (h : s.Canonical) {x : Act} : (s.actNext x).1.Canonical := by
  unfold State.actNext
  dsimp only
  split
  · split
    next _ s1 e1 =>
      exact .fst (.issueNext h) e1
    next _ s2 _ e2 =>
      exact .fst (.issueNext h) e2
  · exact .porterTurn h
  · exact h
  · exact .pair (.dropCached h)
  · exact .pair (.declareRegion h)
  · exact .pair (.releaseRegion h)
  · exact .pair (.receive h)
  · exact .pair (.receive h)
  · exact .pair (.deliverImage h)
  · exact .pair (.modCore h)
  · exact .pair (.modTrust h fun _ => by rfl)
  · exact .pair (.hostFails h)
  · exact .pair (.hostReply h)
  · exact .pair (.same h (by rfl))
  · exact .pair (.modMem h (fun _ h3 => h3))
  · exact .pair (.setMember h)
  · exact .pair (.endRemoteUse h)
  · exact .pair (.resetCore h)

theorem State.Canonical.choose (h : s.Canonical) : s.choose.1.Canonical := by
  unfold State.choose
  dsimp only
  split
  · exact .pair (.same h (by rfl))
  · split
    · exact .pair (.same h (by rfl))
    · exact .pair (.same h (by rfl))

theorem State.Canonical.next (h : s.Canonical) : s.next.1.Canonical := by
  unfold State.next
  dsimp only
  split
  · split
    · exact h
    · exact .pair (.same h (by rfl))
  · split
    · exact h
    · exact .actNext (.choose h)

theorem AnswerCanonical.step (h : s.Canonical) : AnswerCanonical (step s) := by
  unfold Machine.step
  split
  next s1 e1 => exact .next (.fst (.next h) e1)
  next s1 _ e1 => exact .exec (.fst (.next h) e1)

/-- Settles O8: what a step runs first (fetch, issue, a porter's base instruction, an act of the agenda) and every row of the table keep
the canonical form, each through the operations that it is made of. -/
theorem stepsKeepTheCanonicalForm : Obligations.StepsKeepTheCanonicalForm := by
  unfold Obligations.StepsKeepTheCanonicalForm
  intro s t h e
  exact AnswerCanonical.step h t e

end Sys2Proof.Machine
end

