-- ==== Sys2Proof/Proofs/StepRows.lean ====
section
/-! PROOFS. Which row of the table a step runs: that of a register write that has committed, else what the agenda names (log 3). -/

namespace Sys2Proof.Machine

/-- A register write that has committed comes before all else. -/
theorem step_of_commit {s : State} {c : Commit} {cs : List Commit} {i : Instr} (hs : s.commits = c :: cs)
    (hr : commitRow c = some i) : step s = exec i s := by
  simp only [step, State.next, hs, hr]

/-- What an act of the agenda starts from: it is off the agenda, and its cycles have passed. -/
theorem choose_of_agenda {s : State} {dt : Nat} {act : Act} {rest : List (Nat × Act)} (ha : s.agenda = (dt, act) :: rest) :
    s.choose = ({ s with walked := [], agenda := rest, clock := s.clock + dt }, act) := by
  simp only [State.choose, ha]

theorem next_of_agenda {s : State} {dt : Nat} {act : Act} {rest : List (Nat × Act)} (hc : s.commits = [])
    (ha : s.agenda = (dt, act) :: rest) (hf : s.fullDue = .none) :
    s.next = State.actNext { s with walked := [], agenda := rest, clock := s.clock + dt } act := by
  simp only [State.next, hc, hf, choose_of_agenda ha]

theorem step_of_next {s t : State} {i : Instr} (h : s.next = (t, .run i)) : step s = exec i t := by
  simp only [step, h]

/-- No slice of the gang has a rotation to enter or to leave. -/
theorem findSome_rotationDue_none {g : Gang} {k : Nat} (h : ∀ i, i < g.slices.length → g.rotationDue k i = .none) :
    (List.range g.slices.length).findSome? (g.rotationDue k) = none :=
  List.findSome?_eq_none_iff.2 fun i hi => h i (List.mem_range.1 hi)

/-- An issue that nothing comes before is one of the word at the slice PC for its execution mask (R21, R22, R30, R364). -/
theorem issueNext_eq_issueAt {s : State} {k sl : Nat} {g : Gang} {pc : Pc} (hg : s.gang? k = some g) (hm : s.mayIssue g = true)
    (ha : (g.slice sl).active = true) (he : s.excess (coreOf k) = .none) (hh : g.heldResumes = 0)
    (hr : ∀ i, i < g.slices.length → g.rotationDue k i = .none) (hp : g.slicePc (s.skipped k g) sl = some pc)
    (hx : g.execMask (s.skipped k g) (g.inWait ||| s.callHeld k) pc ≠ 0) :
    s.issueNext k sl = s.issueAt k g (g.execMask (s.skipped k g) (g.inWait ||| s.callHeld k) pc) pc := by
  simp only [State.issueNext, hg, hm, ha, he, findSome_rotationDue_none hr, hp, Bool.not_true, Bool.or_self, Bool.false_eq_true,
    if_false]
  rw [if_neg hx, if_neg (not_not_intro hh)]

/-- The row that a word runs: its instruction's, or that of the cause which it fails R170 with. -/
def wordRow (vregs gw : Nat) (w : Insn) : Instr :=
  match decode96 vregs gw w with
  | .ok i => i
  | .error c => .illegalWord c

theorem issueAt_of_fetched {s s1 : State} {k w : Nat} {g : Gang} {m : Lanes} {pc : Pc}
    (hf : s.fetchWords (coreOf k) g.asid g.root pc 3 = (s1, .ok w)) :
    s.issueAt k g m pc = ({ s1 with focus := ⟨k, m, pc, BitVec.ofNat 96 w, s1.seqCtr⟩ },
      .run (wordRow g.vregs g.width (BitVec.ofNat 96 w))) := by
  simp only [State.issueAt, hf, wordRow]
  cases decode96 g.vregs g.width (BitVec.ofNat 96 w) <;> rfl

theorem actNext_of_issue {s t : State} {k sl : Nat} {i : Instr} (h : s.issueNext k sl = (t, .run i)) :
    s.actNext (.issue k sl) = (t, .run i) := by
  simp only [State.actNext, h]

/-- A porter that neither waits nor takes an interrupt runs the row of the word that it fetches (R309, R315). -/
theorem porterNext_of_fetched {s s1 : State} {cl w n : Nat} {i : Instr} (hw : s.porterWaits cl = false)
    (hi : (s.porter cl).buffer.isSome = true ∨ s.porterInterrupt cl = .none) (hf : s.porterFetch cl = (s1, some (some w, n)))
    (hd : decode32 cl (BitVec.ofNat 32 w) = some i) :
    s.porterNext cl = (s1.modPorter cl fun p => { p with len := n, parcels := [] }, .run i) := by
  have hnone : (if (s.porter cl).buffer.isNone then s.porterInterrupt cl else none) = none := by
    rcases hi with hb | hb
    · rw [if_neg (by simp [Option.isSome_iff_ne_none.1 hb])]
    · rw [hb, ite_self]
  simp only [State.porterNext, hw, hnone, hf, hd, Bool.false_eq_true, if_false]

theorem actNext_of_porter {s t : State} {cl : Nat} {i : Instr} (hr : s.portersRun = true) (hc : cl < Config.numClusters)
    (h : s.porterNext cl = (t, .run i)) : s.actNext (.porter cl) = (t, .run i) := by
  simp [State.actNext, State.porterTurn, hr, hc, h]

/-- Settles O6: each act of the agenda comes to the row that it names or that its word decodes to. -/
theorem stepsRunTheDecodedInstruction : Obligations.StepsRunTheDecodedInstruction := by
  unfold Obligations.StepsRunTheDecodedInstruction
  refine ⟨fun s c cs i hs hr => step_of_commit hs hr, fun s dt act rest hc ha hf => ?_⟩
  intro u
  have hn : s.next = u.actNext act := next_of_agenda hc ha hf
  refine ⟨?event, ?issue, ?porter⟩
  case event =>
    rintro i rfl
    exact step_of_next hn
  case issue =>
    intro k sl g pc s1 w hact hg hm hsl he hh hr hp hx hw s2
    subst hact
    have hrow : step s = exec (wordRow g.vregs g.width (BitVec.ofNat 96 w)) s2 :=
      step_of_next (hn.trans (actNext_of_issue ((issueNext_eq_issueAt hg hm hsl he hh hr hp hx).trans (issueAt_of_fetched hw))))
    exact ⟨fun i hd => by simpa only [wordRow, hd] using hrow, fun c hd => by simpa only [wordRow, hd] using hrow⟩
  case porter =>
    intro cl w n s1 i hact hr hlt hwait hi hw hd
    subst hact
    exact step_of_next (hn.trans (actNext_of_porter hr hlt (porterNext_of_fetched hwait hi hw hd)))

end Sys2Proof.Machine
end

