-- ==== Sys2Proof/Proofs/LaneSets.lean ====
section
/-! PROOFS. The LANEs of a set made of a list or of a predicate, and the live LANEs of a gang (R20). -/

namespace Sys2Proof.Machine

theorem getLsbD_foldl_twoPow (l : List Nat) (m : Lanes) (j : Nat) :
    (l.foldl (fun m i => m ||| BitVec.twoPow 64 i) m).getLsbD j = (m.getLsbD j || (decide (j < 64) && decide (j ∈ l))) := by
  induction l generalizing m with
  | nil => simp
  | cons i l ih =>
    rw [List.foldl_cons, ih, BitVec.getLsbD_or, BitVec.getLsbD_twoPow, Bool.or_assoc]
    by_cases hi : i = j
    · subst hi
      by_cases hj : i < 64 <;> simp [hj]
    · simp [hi, show ¬ j = i from fun e => hi e.symm]

@[simp] theorem getLsbD_laneSet (l : List Nat) (j : Nat) : (laneSet l).getLsbD j = (decide (j < 64) && decide (j ∈ l)) := by
  rw [laneSet, getLsbD_foldl_twoPow]
  simp

@[simp] theorem getLsbD_lanesWhere (w : Nat) (f : Nat → Bool) (j : Nat) :
    (lanesWhere w f).getLsbD j = (decide (j < 64) && (decide (j < w) && f j)) := by
  rw [lanesWhere, getLsbD_laneSet]
  simp [List.mem_filter]

theorem lanesWhere_false (w : Nat) : lanesWhere w (fun _ => false) = 0#64 := by
  simp [lanesWhere, laneSet]

@[simp] theorem mem_lanesOf {m : Lanes} {w l : Nat} : l ∈ lanesOf m w ↔ l < w ∧ m.getLsbD l = true := by
  simp [lanesOf, List.mem_filter]

/-- A thread of a gang is one of its live ones where its state says so. -/
theorem getLsbD_live {g : Gang} {l : Nat} (hw : g.width ≤ 64) (hl : l < g.width) :
    g.live.getLsbD l = ((g.thread l).tstate == .live) := by
  rw [Gang.live, getLsbD_lanesWhere, decide_eq_true (show l < 64 by omega), decide_eq_true hl, Bool.true_and, Bool.true_and]

theorem mem_lanesOf_live {g : Gang} {l : Nat} (hw : g.width ≤ 64) :
    l ∈ lanesOf g.live g.width ↔ l < g.width ∧ (g.thread l).tstate = .live := by
  rw [mem_lanesOf]
  exact and_congr_right fun hl => by rw [getLsbD_live hw hl, beq_iff_eq]

end Sys2Proof.Machine
end

