-- ==== Sys2Proof/Proofs/Resume.lean ====
section
/-! PROOFS. PRESUME: what a resumed thread holds, and what the resumption of a gang leaves of the others (R30, R224, R318). -/

namespace Sys2Proof.Machine

/-! ## The frame of a porter's custom instruction (R315) -/

theorem rd_wr_same (p : Porter) {d : BitVec 5} (x : W64) (hd : d ≠ 0) : (p.wr d x).rd d = x := by
  rw [Porter.rd, if_neg hd, Porter.wr, if_neg hd]
  exact (tab_getD_put _ _ _ _ _).trans (if_pos rfl)

/-- A custom instruction that a porter may run, and whose act is done: rd, PSTAT and the next instruction (R315). -/
theorem custom_done {s s1 : State} {cl v : Nat} {d : BitVec 5} {st : PStatus} {act : State → State × PEnd}
    (hm : s.mayRun cl = true) (ha : act s = (s1, .done v st)) :
    s.custom cl d act = s1.modPorter cl fun p =>
      { ((p.wr d (BitVec.ofNat 64 v)).next) with pstat := BitVec.ofNat 4 st.code, buffer := none } := by
  obtain ⟨hmode, hwait⟩ : (s.porter cl).mode ≠ .user ∧ s.porterWaits cl = false := by
    simpa [State.mayRun] using hm
  simp only [State.custom, if_neg hmode, hwait, ha, Bool.false_eq_true, if_false]

theorem gang?_modPorter (s : State) (cl k : Nat) (f : Porter → Porter) : (s.modPorter cl f).gang? k = s.gang? k := rfl

/-! ## A thread that resumes -/

/-- Where a loop's end step leads depends on the loop stack alone (R224). -/
theorem completeLoop_pc_congr (e : Pc) (n : Nat) {t u : Thread} (he : u.entries = t.entries) (hd : u.loopd = t.loopd) :
    (completeLoop e n u).pc = (completeLoop e n t).pc := by
  induction n generalizing t u with
  | zero => rfl
  | succ n ih =>
    unfold completeLoop
    dsimp only [Thread.top]
    rw [he, hd]
    split_ifs
    · rfl
    · rfl
    · rfl
    · exact ih rfl rfl

theorem resumeNow_false (t : Thread) : t.resumeNow false = t.resume (if t.tstate = .caller then some t.dstart else none) := by
  simp [Thread.resumeNow]

/-- A resumed thread is live, with its registers, and its new draft begins at its PC (R30, R318). -/
theorem resume_live (t : Thread) (callPc : Option Pc) :
    (t.resume callPc).tstate = .live ∧ (t.resume callPc).dstart = (t.resume callPc).pc ∧ (t.resume callPc).v = t.v ∧
      (t.resume callPc).p = t.p := by
  cases callPc with
  | none => exact ⟨rfl, rfl, rfl, rfl⟩
  | some pc =>
    simp only [Thread.resume, Thread.beginDraft]
    split_ifs <;> simp [Thread.complete]

theorem resume_none_pc (t : Thread) : (t.resume none).pc = t.pc := rfl

/-- A caller whose PC still names its SYSC completes it (R224). -/
theorem resume_some_pc {t : Thread} {pc : Pc} (hp : t.pc = pc) : (t.resume (some pc)).pc = (t.control .fall).pc := by
  subst hp
  simp only [Thread.resume, Thread.beginDraft, if_true, Thread.complete, Thread.control]
  exact completeLoop_pc_congr t.pc 4 rfl rfl

/-! ## The gang that resumes -/

/-- The gang after its resumption, where no group is parked: the threads of the mask resume, it runs, and its record is free. -/
def Gang.resumed (g : Gang) (m : Lanes) : Gang :=
  { g with
    threads := g.threads.mapIdx fun i (t : Thread) => if (g.resumable m).getLsbD i then t.resumeNow false else t
    recordOut := false, gstate := .running }

theorem thread_resumed {g : Gang} {m : Lanes} {l : Nat} (hl : l < g.threads.length) :
    (g.resumed m).thread l = if (g.resumable m).getLsbD l then (g.thread l).resumeNow false else g.thread l := by
  unfold Gang.resumed Gang.thread
  simp only [List.getD_eq_getElem?_getD, List.getElem?_mapIdx, List.getElem?_eq_getElem hl, Option.map_some, Option.getD_some]

/-- No thread ends by a resumption, and none stands at a rendezvous after it that did not before. -/
theorem quiet_resumed {g : Gang} (m : Lanes) (q : g.Quiet) : (g.resumed m).Quiet where
  gathers := q.gathers
  collects := q.collects
  live := by
    obtain ⟨l, hl, hst⟩ := q.live
    refine ⟨l, by simpa [Gang.resumed] using hl, ?_⟩
    rw [thread_resumed hl]
    split
    · rw [resumeNow_false, (resume_live _ _).1]
      decide
    · exact hst

theorem gang?_answerCalls (s : State) (k j : Nat) (m : Lanes) : (s.answerCalls k m).gang? j = s.gang? j := by
  unfold State.answerCalls
  split <;> rfl

theorem gang?_acquireL1 (s : State) (c j : Nat) (sc : Scope) : (s.acquireL1 c sc).gang? j = s.gang? j := by
  unfold State.acquireL1
  split
  · rfl
  · split <;> rfl

/-- Settling a gang of which no thread waits moves rotation counts alone (R22). -/
theorem gang?_settle_quiet {s : State} {k : Nat} {g : Gang} (h : s.gang? k = some g) (q : g.Quiet) (j : Nat) :
    (s.settle k).gang? j = if j = k then some g.settleCounts else s.gang? j := by
  rw [settle_quiet h q, State.gang?_modGang]
  split
  · next e => rw [e, h, Option.map_some]
  · rfl

/-- The resumption of a running or halted gang with no group parked (R30, R318). -/
theorem resumeGang_eq {s : State} {k : Nat} {g : Gang} {m : Lanes} (hst : g.gstate = .running ∨ g.gstate = .halted)
    (hp : g.parked = .none) (hr : g.resumable m ≠ 0) :
    s.resumeGang k g m =
      ((((s.setGang k (g.resumed m)).answerCalls k (g.resumable m)).acquireL1 (coreOf k) .system).settle k, g.resumable m) := by
  have hall : g.resumable m &&& ~~~0#64 = g.resumable m := BitVec.and_allOnes
  have hne : (g.resumable m != 0) = true := by simpa using hr
  have hruns : (if (g.gstate == .halted) = true then GState.running else g.gstate) = .running := by
    rcases hst with e | e <;> simp [e]
  simp only [State.resumeGang, hp, Option.isSome_none, Bool.false_and, Bool.and_false, lanesWhere_false, BitVec.or_zero,
    hall, hne, Bool.true_or, Bool.and_true, hruns, if_true, Gang.resumed]

theorem gang?_resumeGang {s : State} {k : Nat} {g : Gang} {m : Lanes} (hst : g.gstate = .running ∨ g.gstate = .halted)
    (hp : g.parked = .none) (hr : g.resumable m ≠ 0) (q : g.Quiet) (j : Nat) :
    (s.resumeGang k g m).1.gang? j = if j = k then some (g.resumed m).settleCounts else s.gang? j := by
  have hs : ∀ i, (((s.setGang k (g.resumed m)).answerCalls k (g.resumable m)).acquireL1 (coreOf k) .system).gang? i =
      if i = k then some (g.resumed m) else s.gang? i := fun i => by
    rw [gang?_acquireL1, gang?_answerCalls, State.gang?_setGang]
  rw [resumeGang_eq hst hp hr, gang?_settle_quiet (by rw [hs, if_pos rfl]) (quiet_resumed m q)]
  split
  · rfl
  · next hj => rw [hs, if_neg hj]

/-- PRESUME of a gang that its handle names (R318). -/
theorem exec_presume_named {s : State} {cl k : Nat} {d a b : BitVec 5} {g : Gang} (hm : s.mayRun cl = true)
    (hn : s.named cl (((s.porter cl).rd a).setWidth 16) = some (k, g)) :
    exec (.presume cl d a b) s = .next ((s.resumeGang k g ((s.porter cl).rd b)).1.modPorter cl fun p =>
      { ((p.wr d (BitVec.ofNat 64 (s.resumeGang k g ((s.porter cl).rd b)).2.toNat)).next) with
        pstat := BitVec.ofNat 4 PStatus.ok.code, buffer := none }) := by
  change execPresume cl d a b s = _
  unfold execPresume
  rw [custom_done hm]
  simp only [hn]

/-- Settles O45: each thread of the gang by what a resumption makes of it. -/
theorem gangsResume : Obligations.GangsResume := by
  unfold Obligations.GangsResume
  intro s cl k d a b g hm hn m r hst hp q hr hlen hw
  have hg : ∀ j, (s.resumeGang k g m).1.gang? j = _ := gang?_resumeGang hst hp hr q
  have hthread : ∀ l, l < g.width → (g.resumed m).settleCounts.thread l =
      if (g.resumable m).getLsbD l then (g.thread l).resumeNow false else g.thread l := fun l hl => by
    rw [Gang.thread_congr (Gang.settleCounts_threads _), thread_resumed (by rw [hlen]; exact hl)]
  refine ⟨_, (g.resumed m).settleCounts, exec_presume_named hm hn, ?pstat, ?rd, ?gang, rfl, rfl, ?others, ?resumed, ?rest⟩
  case pstat => rw [State.porter_modPorter]; rfl
  case rd =>
    intro hd
    rw [State.porter_modPorter, resumeGang_eq hst hp hr, BitVec.ofNat_toNat, BitVec.setWidth_eq]
    exact rd_wr_same _ _ hd
  case gang => rw [gang?_modPorter, hg, if_pos rfl]
  case others =>
    intro l hl hoff
    rw [hthread l hl, if_neg (ne_true_of_eq_false hoff)]
  case resumed =>
    intro l hl hon
    rw [hthread l hl, if_pos hon, resumeNow_false]
    obtain ⟨h1, h2, h3, h4⟩ := resume_live (g.thread l) (if (g.thread l).tstate = .caller then some (g.thread l).dstart else none)
    refine ⟨h1, h2, h3, h4, fun hc => ?_, fun hc hpc => ?_⟩
    · rw [if_neg hc, resume_none_pc]
    · rw [if_pos hc, resume_some_pc hpc]
  case rest =>
    intro j hj
    rw [gang?_modPorter, hg, if_neg hj]

end Sys2Proof.Machine
end

