-- ==== Sys2Proof/Proofs/Scheduling.lean ====
section
/-! PROOFS. Rotation and the swaps of sub-gangs: which slices issue (R22, R365). -/

namespace Sys2Proof.Machine

/-- The least of a list of PCs, as a running minimum from a first one gives it. -/
theorem foldl_min_spec (l : List Pc) (a : Pc) :
    let m := l.foldl (fun a b => if b < a then b else a) a
    (m = a ∨ m ∈ l) ∧ m ≤ a ∧ ∀ x ∈ l, m ≤ x := by
  induction l generalizing a with
  | nil => simp
  | cons b l ih =>
    obtain ⟨hmem, hle, hall⟩ := ih (if b < a then b else a)
    rw [List.foldl_cons]
    split at hle
    · next hb =>
      simp only [hb, if_true] at hmem hall ⊢
      exact ⟨.inr (by simpa [List.mem_cons] using hmem), by bv_omega, by simpa [List.forall_mem_cons] using ⟨hle, hall⟩⟩
    · next hb =>
      simp only [hb, if_false] at hmem hall ⊢
      exact ⟨hmem.imp_right (List.mem_cons_of_mem _), hle, by simpa [List.forall_mem_cons] using ⟨by bv_omega, hall⟩⟩

/-- A PC of the list that is not above any other is its least. -/
theorem minPc_eq_some {l : List Pc} {q : Pc} (hq : q ∈ l) (hall : ∀ x ∈ l, q ≤ x) : minPc l = some q := by
  cases l with
  | nil => exact absurd hq List.not_mem_nil
  | cons a l =>
    obtain ⟨hmem, hle, hmin⟩ := foldl_min_spec l a
    have hin : minPc (a :: l) = some (l.foldl (fun a b => if b < a then b else a) a) := rfl
    rw [hin]
    generalize l.foldl (fun a b => if b < a then b else a) a = m at hmem hle hmin
    have h1 : q ≤ m := by
      rcases hmem with rfl | hm
      · exact hall _ List.mem_cons_self
      · exact hall _ (List.mem_cons_of_mem _ hm)
    have h2 : m ≤ q := by
      rcases List.mem_cons.1 hq with rfl | hm
      · exact hle
      · exact hmin _ hm
    rw [BitVec.le_antisymm h2 h1]

/-- A change of one gang that the table holds. -/
theorem onlyGang_modGang {s : State} {k : Nat} {g : Gang} (f : Gang → Gang) (hg : s.gang? k = some g) :
    OnlyGang s (s.modGang k f) k (f g) where
  gang := by simp [hg]
  others j hj := by simp [hj]
  rest := rfl

/-! ## Slices moved between the sets of a quadrant -/

theorem mem_slicesOf {m : BitVec 16} {i : Nat} : i ∈ slicesOf m ↔ i < 16 ∧ m.getLsbD i = true := by
  simp [slicesOf, List.mem_filter]

theorem foldl_modSlice_slice (l : List Nat) (f : SliceState → SliceState) (g : Gang) (j : Nat) (hn : l.Nodup) :
    (l.foldl (fun g i => g.modSlice i f) g).slice j = if j ∈ l ∧ j < g.slices.length then f (g.slice j) else g.slice j := by
  induction l generalizing g with
  | nil => simp
  | cons i l ih =>
    obtain ⟨hi, hl⟩ := List.nodup_cons.1 hn
    rw [List.foldl_cons, ih _ hl, Gang.slice_modSlice, Gang.slices_modSlice_length]
    by_cases hji : j = i
    · subst hji
      simp [hi]
    · simp [hji]

theorem slice_setActive (g : Gang) (m : BitVec 16) (b : Bool) (clock : Nat) {i : Nat} (hi : i < g.slices.length) (h16 : i < 16) :
    (g.setActive m b clock).slice i =
      if m.getLsbD i = true then { g.slice i with active := b, entered := clock, yielded := b && (g.slice i).yielded }
      else g.slice i := by
  rw [Gang.setActive, foldl_modSlice_slice _ _ _ _ (show (slicesOf m).Nodup from List.nodup_range.filter _)]
  simp [mem_slicesOf, hi, h16]

theorem slices_setActive_length (g : Gang) (m : BitVec 16) (b : Bool) (clock : Nat) :
    (g.setActive m b clock).slices.length = g.slices.length := by
  unfold Gang.setActive
  exact foldl_keeps _ (fun x : Gang => x.slices.length) (fun _ _ => Gang.slices_modSlice_length _ _ _) _ _

theorem foldl_modSlice_eq (l : List Nat) (f : SliceState → SliceState) (g : Gang) :
    l.foldl (fun g i => g.modSlice i f) g = { g with slices := (l.foldl (fun g i => g.modSlice i f) g).slices } := by
  induction l generalizing g with
  | nil => rfl
  | cons i l ih => exact ih (g.modSlice i f)

/-- Moving slices changes nothing else of their gang. -/
theorem setActive_rest (g : Gang) (m : BitVec 16) (b : Bool) (clock : Nat) (l : List SliceState) :
    { g.setActive m b clock with slices := l } = { g with slices := l } := by
  rw [Gang.setActive, foldl_modSlice_eq]

/-! ## Entries -/

theorem getLsbD_foldl_slices (l : List Nat) (m : BitVec 16) {i : Nat}
    (h : (l.foldl (fun m i => m ||| BitVec.twoPow 16 i) m).getLsbD i = true) : m.getLsbD i = true ∨ i ∈ l := by
  induction l generalizing m with
  | nil => exact .inl h
  | cons j l ih =>
    rcases ih _ h with h1 | h1
    · rw [BitVec.getLsbD_or, Bool.or_eq_true, BitVec.getLsbD_twoPow] at h1
      rcases h1 with h2 | h2
      · exact .inl h2
      · simp only [Bool.and_eq_true, decide_eq_true_eq] at h2
        exact .inr (List.mem_cons.2 (.inl h2.2.symm))
    · exact .inr (List.mem_cons_of_mem _ h1)

/-- A slice of an entry stands in the entry's set (R364). -/
theorem active_of_isEntry {s : State} {k : Nat} {g : Gang} {m : BitVec 16} {b : Bool} (hg : s.gang? k = some g)
    (h : s.isEntry k m b = true) {i : Nat} (hi : m.getLsbD i = true) : (g.slice i).active = b := by
  simp only [State.isEntry, hg, List.contains_eq_mem, decide_eq_true_eq, Gang.entries, List.mem_map] at h
  obtain ⟨pc, -, rfl⟩ := h
  rcases getLsbD_foldl_slices _ _ hi with h0 | hmem
  · simp at h0
  · have := (List.mem_filter.1 (List.mem_filter.1 hmem).1).2
    simp only [Bool.and_eq_true, beq_iff_eq] at this
    exact this.1

/-- What makes a swap fit of the two entries: they are entries of the active and of the pending set (R364). -/
theorem isEntry_of_swapFits {s : State} {kOut kIn : Nat} {out inn : BitVec 16} (h : s.swapFits kOut out kIn inn = true) :
    (out = 0 ∨ s.isEntry kOut out true = true) ∧ s.isEntry kIn inn false = true := by
  simp only [State.swapFits, Bool.and_eq_true, Bool.or_eq_true, beq_iff_eq] at h
  obtain ⟨⟨⟨⟨-, hout⟩, hin⟩, -⟩, -⟩ := h
  exact ⟨hout.imp_right And.left, hin⟩

/-- No slice leaves the active set and enters it in one swap. -/
theorem disjoint_of_swapFits {s : State} {k : Nat} {g : Gang} {out inn : BitVec 16} (hg : s.gang? k = some g)
    (h : s.swapFits k out k inn = true) {i : Nat} (hi : inn.getLsbD i = true) : out.getLsbD i = false := by
  obtain ⟨hout, hin⟩ := isEntry_of_swapFits h
  rcases hout with rfl | hout
  · simp
  · by_contra hne
    have h1 := active_of_isEntry hg hout (by simpa using hne)
    rw [active_of_isEntry hg hin hi] at h1
    exact absurd h1 (by decide)

/-- The slices of a swap that fits, moved (R365). -/
theorem swapped_swapSlices {s : State} {kOut kIn : Nat} {out inn : BitVec 16} (h : s.swapFits kOut out kIn inn = true) :
    Swapped s (s.swapSlices kOut out kIn inn) kOut out kIn inn where
  rest := rfl
  gang := by
    intro k g hg
    have hleft : (s.modGang kOut fun g => g.setActive out false s.clock).gang? k =
        some (if k = kOut then g.setActive out false s.clock else g) := by
      rw [State.gang?_modGang, hg]
      split <;> rfl
    refine ⟨if k = kIn then (if k = kOut then g.setActive out false s.clock else g).setActive inn true s.clock
      else if k = kOut then g.setActive out false s.clock else g, ?_, ?_, fun i hi h16 => ?_⟩
    · rw [State.swapSlices, State.gang?_modGang, hleft]
      split <;> rfl
    · split_ifs <;> simp [setActive_rest]
    · by_cases hin : k = kIn <;> by_cases hout : k = kOut
      · subst hin hout
        have hdis := fun hb => disjoint_of_swapFits hg h (i := i) hb
        simp only [if_true, true_and]
        rw [slice_setActive _ _ _ _ (by rwa [slices_setActive_length]) h16, slice_setActive _ _ _ _ hi h16]
        by_cases hb : inn.getLsbD i = true
        · simp [hb, hdis hb]
        · simp [hb]
      · subst hin
        rw [if_pos rfl, if_neg hout, slice_setActive _ _ _ _ hi h16]
        simp [hout]
      · subst hout
        rw [if_neg hin, if_pos rfl, slice_setActive _ _ _ _ hi h16]
        simp [hin]
      · simp [hin, hout]

theorem swap_of_able {s : State} {kOut kIn : Nat} {out inn : BitVec 16} {able : Bool}
    (hf : s.swapFits kOut out kIn inn = true) (ha : able = true) :
    (if s.swapFits kOut out kIn inn && able then s.swapSlices kOut out kIn inn else s) = s.swapSlices kOut out kIn inn := by
  rw [hf, ha]
  rfl

/-- An entry of which no slice stands in its KEEP window is outside it (R365). -/
theorem keepOver_of_slices {s : State} {k : Nat} {g : Gang} {m : BitVec 16} (hg : s.gang? k = some g)
    (h : ∀ i ∈ slicesOf m, (g.slice i).keepUntil ≤ s.clock) : s.keepOver k m = true := by
  simpa [State.keepOver, hg] using h

/-- ROTATION_ENTER of a slice with a PC above the one it selects (R22). -/
theorem exec_rotationEnter {s : State} {k sl : Nat} {g : Gang} {p q : Pc} (hg : s.gang? k = some g)
    (hc : (g.slice sl).rotCount = 64) (hr : (g.slice sl).rot = .none)
    (hp : minPc ((g.chooseFrom (s.skipped k g) sl).map fun i => (g.thread i).pc) = some p)
    (hq : q ∈ (g.chooseFrom (s.skipped k g) sl).map fun i => (g.thread i).pc) (hlt : p < q)
    (hmin : ∀ i ∈ g.chooseFrom (s.skipped k g) sl, p < (g.thread i).pc → q ≤ (g.thread i).pc) :
    ∃ t, exec (.rotationEnter k sl) s = .next t ∧ OnlyGang s t k (g.setSlice sl { g.slice sl with
      rot := some ⟨laneSet ((g.chooseFrom (s.skipped k g) sl).filter fun i => (g.thread i).pc == q), 64⟩ }) := by
  have hnext : minPc (((g.chooseFrom (s.skipped k g) sl).map fun i => (g.thread i).pc).filter fun x => p < x) = some q := by
    refine minPc_eq_some (List.mem_filter.2 ⟨hq, by simpa using hlt⟩) fun x hx => ?_
    obtain ⟨hx, hpx⟩ := List.mem_filter.1 hx
    obtain ⟨i, hi, rfl⟩ := List.mem_map.1 hx
    exact hmin i hi (by simpa using hpx)
  refine ⟨_, rfl, ?_⟩
  convert onlyGang_modGang _ hg using 1
  simp [hc, hr, hp, hnext]

/-- ROTATION_LEAVE of a slice whose rotation is over (R22). -/
theorem exec_rotationLeave {s : State} {k sl : Nat} {g : Gang} {r : Rotation} (hg : s.gang? k = some g)
    (hr : (g.slice sl).rot = some r) (h : r.left = 0 ∨ ∀ i ∈ g.liveOf sl, r.path.getLsbD i = false) :
    ∃ t, exec (.rotationLeave k sl) s = .next t ∧ OnlyGang s t k (g.setSlice sl { g.slice sl with rot := .none, rotCount := 0 }) := by
  refine ⟨_, rfl, ?_⟩
  have hover : r.left = 0 ∨ ((g.liveOf sl).all fun i => !r.path.getLsbD i) = true :=
    h.imp_right fun h => by simpa [List.all_eq_true] using h
  convert onlyGang_modGang _ hg using 1
  simp only [hr]
  rw [if_pos hover]

/-- Settles O32: rotation by the least PC above the one selected, swaps by the entries that fit. -/
theorem slicesAreScheduled : Obligations.SlicesAreScheduled := by
  unfold Obligations.SlicesAreScheduled
  refine ⟨?enter, ?leave, ?swap⟩
  case enter =>
    intro s k sl g p q hg _ hc hr c hp hq hlt hmin
    exact exec_rotationEnter hg hc hr hp hq hlt hmin
  case leave =>
    intro s k sl g r hg _ hr h
    exact exec_rotationLeave hg hr h
  case swap =>
    intro s kOut kIn out inn hf
    refine ⟨?empty, ?waiting, ?aged⟩
    case empty =>
      intro ho
      refine ⟨_, congrArg Host.Outcome.next (swap_of_able hf ?_), swapped_swapSlices hf⟩
      simp [ho]
    case waiting =>
      intro a hg hgive hold
      refine ⟨_, congrArg Host.Outcome.next (swap_of_able hf ?_), swapped_swapSlices hf⟩
      rcases hgive with hy | ⟨hw, hk⟩
      · have hy' : ((slicesOf out).all fun i => (a.slice i).yielded) = true := List.all_eq_true.2 hy
        simp [hg, hy', hold]
      · simp [hw, keepOver_of_slices hg hk, hold]
    case aged =>
      intro a q ho hg hk qs hq hfirst hage hold
      refine ⟨_, congrArg Host.Outcome.next (if_pos ?_), swapped_swapSlices hf⟩
      have hfirst' : (qs.any fun q => (s.entriesIn (coreOf kOut) q true).all fun e =>
          decide (s.enteredAt (kOut, out) ≤ s.enteredAt e)) = true :=
        List.any_eq_true.2 ⟨q, hq, by simpa [List.all_eq_true] using hfirst⟩
      simp only [bne_iff_ne.2 ho, hf, keepOver_of_slices hg hk, decide_eq_true hage, Bool.true_and, Bool.and_true]
      exact Bool.and_eq_true_iff.2 ⟨hfirst', hold⟩

end Sys2Proof.Machine
end

