-- ==== Sys2Proof/Proofs/Eviction.lean ====
section
/-! PROOFS. The eviction of threads, of slices and of a gang's waits: what it makes of a thread, and what it leaves of the gang, of
the other gangs and of a core's call records (R46, R49, R143, R150). -/

namespace Sys2Proof.Machine

/-! ## One thread -/

/-- A thread after the eviction of its draft (R49, R143). -/
def Thread.evicted (t : Thread) : Thread :=
  if t.settleProducers.solo then t.settleProducers.committed t.settleProducers.pc else t.settleProducers.discarded

theorem settleProducers_of_no_pend {t : Thread} (h : t.pend = []) : t.settleProducers = t := by
  rw [Thread.settleProducers, h, List.foldl_nil]

theorem cancel_of_no_pend {t : Thread} (h : t.pend = []) : t.cancel = t := by
  rw [Thread.cancel, h, List.foldl_nil, ← h]

/-- With nothing in flight and no ending instruction done, eviction discards the draft (R49). -/
theorem evicted_of_no_pend {t : Thread} (hp : t.pend = []) (hs : t.solo = false) : t.evicted = t.discarded := by
  rw [Thread.evicted, settleProducers_of_no_pend hp, hs, if_neg (by decide)]

theorem setThread_setThread (g : Gang) (l : Nat) (x y : Thread) : (g.setThread l x).setThread l y = g.setThread l y := by
  simp [Gang.setThread]

theorem gang?_evictThread {s : State} {k l : Nat} {g : Gang} (h : s.gang? k = some g) (hl : l < g.threads.length) :
    (s.evictThread k l).gang? k = some (g.setThread l (g.thread l).evicted) := by
  have hset : ∀ t, (s.setGang k (g.setThread l t)).gang? k = some (g.setThread l t) := fun t => by
    rw [State.gang?_setGang, if_pos rfl]
  simp only [State.evictThread, h, Thread.evicted]
  split
  · rw [(commitThread_sim _ (hset _)).after, Gang.thread_setThread, if_pos ⟨rfl, hl⟩, setThread_setThread]
  · exact hset _

theorem gang?_evictThread_other (s : State) {k j : Nat} (l : Nat) (hj : j ≠ k) : (s.evictThread k l).gang? j = s.gang? j := by
  cases h : s.gang? k with
  | none => simp only [State.evictThread, h]
  | some g =>
    have hset : ∀ t, (s.setGang k (g.setThread l t)).gang? j = s.gang? j := fun t => by rw [State.gang?_setGang, if_neg hj]
    simp only [State.evictThread, h]
    split
    · rw [(commitThread_sim _ (by rw [State.gang?_setGang, if_pos rfl])).others j hj, hset]
    · exact hset _

theorem isSome_evictThread (s : State) (k l : Nat) : ((s.evictThread k l).gang? k).isSome = (s.gang? k).isSome := by
  cases h : s.gang? k with
  | none => simp only [State.evictThread, h]
  | some g =>
    have hset : ∀ t, (s.setGang k (g.setThread l t)).gang? k = some (g.setThread l t) := fun t => by
      rw [State.gang?_setGang, if_pos rfl]
    simp only [State.evictThread, h]
    split
    · rw [(commitThread_sim _ (hset _)).after, Option.isSome_some, Option.isSome_some]
    · exact (congrArg Option.isSome (hset _)).trans (by rfl)

/-! ## Several threads -/

/-- Two gangs that differ in their threads at most. -/
structure SameButThreads (g g' : Gang) : Prop where
  eq : g' = { g with threads := g'.threads }
  threads : g'.threads.length = g.threads.length

theorem sameButThreads_setThread (g : Gang) (l : Nat) (t : Thread) : SameButThreads g (g.setThread l t) :=
  ⟨rfl, Gang.threads_setThread_length _ _ _⟩

theorem SameButThreads.trans {a b c : Gang} (h : SameButThreads a b) (i : SameButThreads b c) : SameButThreads a c :=
  ⟨i.eq.trans (by rw [h.eq]), i.threads.trans h.threads⟩

/-- The eviction of some threads of a gang, less those that a test holds back: each of them, and no other (R49, R143). -/
theorem gang?_evictLanes (held : Nat → Bool) (ls : List Nat) {s : State} {k : Nat} {g : Gang} (hn : ls.Nodup)
    (hl : ∀ l ∈ ls, l < g.threads.length) (h : s.gang? k = some g) :
    ∃ g', (ls.foldl (fun s l => if held l then s else s.evictThread k l) s).gang? k = some g' ∧ SameButThreads g g' ∧
      ∀ j, g'.thread j = if j ∈ ls ∧ held j = false then (g.thread j).evicted else g.thread j := by
  induction ls generalizing s g with
  | nil => exact ⟨g, h, ⟨rfl, rfl⟩, fun j => by simp⟩
  | cons l ls ih =>
    obtain ⟨hnl, hn⟩ := List.nodup_cons.1 hn
    have hls : ∀ j ∈ ls, j < g.threads.length := fun j hj => hl j (List.mem_cons_of_mem _ hj)
    have hll := hl l List.mem_cons_self
    rw [List.foldl_cons]
    by_cases hh : held l = true
    · obtain ⟨g', h1, h2, h3⟩ := ih hn hls h
      refine ⟨g', by rwa [if_pos hh], h2, fun j => ?_⟩
      rw [h3]
      by_cases hj : j = l
      · subst hj; simp [hh]
      · simp [hj]
    · obtain ⟨g', h1, h2, h3⟩ := ih hn (by simpa using hls) (gang?_evictThread h hll)
      refine ⟨g', by rwa [if_neg hh], (sameButThreads_setThread _ _ _).trans h2, fun j => ?_⟩
      rw [h3, Gang.thread_setThread]
      by_cases hj : j = l
      · subst hj; simp [hnl, hh, hll]
      · simp [hj]

theorem gang?_evictLanes_other (held : Nat → Bool) (ls : List Nat) (s : State) {k j : Nat} (hj : j ≠ k) :
    (ls.foldl (fun s l => if held l then s else s.evictThread k l) s).gang? j = s.gang? j :=
  foldl_keeps _ (fun s : State => s.gang? j) (fun s l => by
    split
    · rfl
    · exact gang?_evictThread_other s l hj) _ _

/-- The same where no thread is held back. -/
theorem gang?_evictAll (ls : List Nat) {s : State} {k : Nat} {g : Gang} (hn : ls.Nodup) (hl : ∀ l ∈ ls, l < g.threads.length)
    (h : s.gang? k = some g) :
    ∃ g', (ls.foldl (fun s l => s.evictThread k l) s).gang? k = some g' ∧ SameButThreads g g' ∧
      ∀ j, j ∉ ls → g'.thread j = g.thread j := by
  obtain ⟨g', h1, h2, h3⟩ := gang?_evictLanes (fun _ => false) ls hn hl h
  exact ⟨g', h1, h2, fun j hj => by rw [h3, if_neg fun hc => hj hc.1]⟩

/-! ## Call records -/

theorem core_of_get? {s : State} {c : Nat} {x : CoreState} (h : Tab.get? s.cores c = some x) : s.core c = x := by
  simp only [State.core, Tab.getD, h, Option.getD_some]

/-- The call records of a core, after one of its fields that is not theirs has changed. -/
theorem calls_setCore {s : State} {c : Nat} {x : CoreState} (h : x.calls = (s.core c).calls) (j : Nat) :
    ((s.setCore c x).core j).calls = (s.core j).calls := by
  rw [State.core_setCore]
  split
  · next e => rw [e, h]
  · rfl

theorem calls_dropL1 (s : State) (c line j : Nat) : ((s.dropL1 c line).core j).calls = (s.core j).calls := by
  unfold State.dropL1
  split
  · next x hx => exact calls_setCore (s := s.dropFills c _) (by rw [core_of_get? (s := s.dropFills c _) hx]) j
  · rfl

theorem calls_commitThread (s : State) (k l : Nat) (next : Pc) (j : Nat) :
    ((s.commitThread k l next).core j).calls = (s.core j).calls := by
  unfold State.commitThread
  split
  · rfl
  · exact foldl_keeps _ (fun s : State => (s.core j).calls) (fun s e => by
      split
      · exact calls_dropL1 _ _ _ _
      · rfl) _ _

theorem calls_evictThread (s : State) (k l j : Nat) : ((s.evictThread k l).core j).calls = (s.core j).calls := by
  unfold State.evictThread
  split
  · rfl
  · dsimp only
    split
    · exact calls_commitThread _ _ _ _ _
    · rfl

/-! ## Slices and waits -/

theorem settleSlices_rest (g : Gang) : g.settleSlices.rest = g.rest := by
  unfold Gang.settleSlices
  refine foldl_keeps _ Gang.rest (fun g i => ?_) _ _
  exact foldl_keeps _ Gang.rest (by intro g q; rfl) _ _

theorem settleSlices_threads_length (g : Gang) : g.settleSlices.threads.length = g.threads.length := by
  unfold Gang.settleSlices
  refine foldl_keeps _ (fun g : Gang => g.threads.length) (fun g i => ?_) _ _
  exact foldl_keeps _ (fun g : Gang => g.threads.length) (fun g q => by simp) _ _

/-- With nothing in flight into an s register no thread is touched. -/
theorem settleSlices_threads {g : Gang} (h : ∀ x ∈ g.slices, x.pend = []) : g.settleSlices.threads = g.threads := by
  have hpend : ∀ i, (g.slice i).pend = [] := fun i => by
    rw [Gang.slice, List.getD_eq_getElem?_getD]
    cases e : g.slices[i]? with
    | none => rfl
    | some x => exact h x (List.mem_of_getElem? e)
  unfold Gang.settleSlices
  generalize List.range g.slices.length = ls
  clear h
  induction ls generalizing g with
  | nil => rfl
  | cons i ls ih =>
    rw [List.foldl_cons, hpend i, List.filter_nil, List.foldl_nil]
    refine (ih fun j => ?_).trans (Gang.threads_modSlice _ _ _)
    rw [Gang.slice_modSlice]
    split
    · rfl
    · exact hpend j

theorem leaveWaits_waits (g : Gang) (m : Lanes) :
    (g.leaveWaits m).waits = (g.waits.map fun w => { w with lanes := w.lanes &&& ~~~m }).filter fun w => w.lanes != 0 := by
  unfold Gang.leaveWaits Gang.dropCpys
  exact foldl_keeps _ Gang.waits (by intro g x; rfl) _ _

end Sys2Proof.Machine
end

