-- ==== Sys2Proof/Proofs/GangCommands.lean ====
section
/-! PROOFS. The gang commands STOP, RELEASE, CLEAR, KILL and CLEARFREE, and the halt of a stopping gang (R32, R43, R46, R317, R353). -/

namespace Sys2Proof.Machine

/-! ## Commands and handles -/

theorem gang?_of_named {s : State} {cl k : Nat} {h : BitVec 16} {g : Gang} (hn : s.named cl h = some (k, g)) : s.gang? k = some g := by
  unfold State.named at hn
  dsimp only at hn
  split at hn
  · next x hx =>
    split at hn
    · cases hn
      exact hx
    · cases hn
  · cases hn

/-- A gang command that leaves its status OK, as a step (R317). -/
theorem commandStep_ok {s t : State} {cl idx x : Nat} {h : BitVec 16} (e : s.gangCommand cl idx h x = (t, .ok)) :
    ((s.commandStep cl idx h x).porter cl).pstat = 0 ∧ (∀ j, (s.commandStep cl idx h x).gang? j = t.gang? j) ∧
      (s.commandStep cl idx h x).dist = t.dist ∧ (s.commandStep cl idx h x).gens = t.gens ∧
      (s.commandStep cl idx h x).cores = t.cores := by
  rw [State.commandStep, e]
  refine ⟨?_, fun _ => rfl, rfl, rfl, rfl⟩
  dsimp only
  rw [State.porter_modPorter]
  rfl

/-! ## STOP and the halt that follows it -/

theorem live_lt {g : Gang} (hlen : g.threads.length = g.width) : ∀ l ∈ lanesOf g.live g.width, l < g.threads.length :=
  fun _ hl => by rw [hlen]; exact lanesOf_lt hl

/-- No wait and no rendezvous of a gang holds a thread that was live when it left its waits (R150). -/
theorem leaveWaits_away (g : Gang) (m : Lanes) :
    (∀ w ∈ (g.leaveWaits m).waits, w.lanes &&& m = 0) ∧
      ∀ r ∈ (g.leaveWaits m).gathers ++ (g.leaveWaits m).collects, r.waiting &&& m = 0 := by
  obtain ⟨-, hgathers, hcollects⟩ := leaveWaits_fields g m
  have hoff : ∀ x : Lanes, x &&& ~~~m &&& m = 0 := fun x => by ext i; simp
  refine ⟨fun w hw => ?_, fun r hr => ?_⟩
  · rw [leaveWaits_waits] at hw
    obtain ⟨v, -, rfl⟩ := List.mem_map.1 (List.mem_filter.1 hw).1
    exact hoff _
  · rw [hgathers, hcollects, ← List.map_append] at hr
    obtain ⟨q, -, rfl⟩ := List.mem_map.1 hr
    exact hoff _

/-- The gang of a STOP before the drafts of its threads are evicted: its live threads have left every wait (R150, R231, R317). -/
def Gang.stopWaits (g : Gang) : Gang :=
  { ({ g with issued := g.issued.filter fun x => x.waiting == 0, wish := none }.leaveWaits g.live).settleSlices with gstate := .stopping }

/-- STOP of a running gang (R46, R49, R143, R150, R317). -/
theorem gang?_stopGang {s : State} {k : Nat} {g : Gang} (h : s.gang? k = some g) (hlen : g.threads.length = g.width) :
    ∃ g', (s.stopGang k).gang? k = some g' ∧ SameButThreads g.stopWaits g' ∧
      ∀ j, g'.thread j = if j ∈ lanesOf g.live g.width ∧ (g.stopWaits.thread j).soloOut = false then (g.stopWaits.thread j).evicted
        else g.stopWaits.thread j := by
  have hthreads : g.stopWaits.threads.length = g.threads.length :=
    (settleSlices_threads_length _).trans (congrArg List.length (leaveWaits_fields _ _).1)
  have hgang : ((s.setGang k g.stopWaits).dropHeld k).gang? k = some g.stopWaits := by
    rw [State.dropHeld, State.gang?_modCluster, State.gang?_setGang, if_pos rfl]
  have hstop : s.stopGang k = (lanesOf g.live g.width).foldl
      (fun s l => if (g.stopWaits.thread l).soloOut then s else s.evictThread k l) ((s.setGang k g.stopWaits).dropHeld k) := by
    simp only [State.stopGang, h]
    rfl
  rw [hstop]
  exact gang?_evictLanes (fun l => (g.stopWaits.thread l).soloOut) _ (lanesOf_nodup _ _)
    (fun l hl => hthreads ▸ live_lt hlen l hl) hgang

theorem gang?_stopGang_other (s : State) {k j : Nat} (hj : j ≠ k) : (s.stopGang k).gang? j = s.gang? j := by
  unfold State.stopGang
  split
  · rfl
  · next g h =>
    dsimp only
    rw [gang?_evictLanes_other _ _ _ hj, State.dropHeld, State.gang?_modCluster, State.gang?_setGang, if_neg hj]

/-- The threads of a gang that leaves its waits stay as they are where nothing is in flight into an s register. -/
theorem stopWaits_thread {g : Gang} (h : ∀ x ∈ g.slices, x.pend = []) (j : Nat) : g.stopWaits.thread j = g.thread j := by
  have hslices : ({ g with issued := g.issued.filter fun x => x.waiting == 0, wish := none }.leaveWaits g.live).slices = g.slices := by
    unfold Gang.leaveWaits Gang.dropCpys
    exact foldl_keeps _ Gang.slices (by intro g x; rfl) _ _
  exact Gang.thread_congr ((settleSlices_threads (by rw [hslices]; exact h)).trans (leaveWaits_fields _ _).1) j

theorem rest_waits {g h : Gang} (hr : g.rest = h.rest) : g.waits = h.waits ∧ g.wish = h.wish := by
  have h1 : g.rest.waits = h.rest.waits := by rw [hr]
  have h2 : g.rest.wish = h.rest.wish := by rw [hr]
  exact ⟨h1, h2⟩

theorem stopWaits_fields (g : Gang) : g.stopWaits.gstate = .stopping ∧ g.stopWaits.wish = .none ∧
    (∀ w ∈ g.stopWaits.waits, w.lanes &&& g.live = 0) ∧ ∀ r ∈ g.stopWaits.gathers ++ g.stopWaits.collects, r.waiting &&& g.live = 0 := by
  let g0 : Gang := { g with issued := g.issued.filter fun x => x.waiting == 0, wish := none }
  obtain ⟨hwaits, hrend⟩ := leaveWaits_away g0 g.live
  have hrest := settleSlices_rest (g0.leaveWaits g.live)
  obtain ⟨hgathers, hcollects, -⟩ := rest_fields hrest
  obtain ⟨hw, hwishes⟩ := rest_waits hrest
  have hwish : (g0.leaveWaits g.live).wish = .none := by
    unfold Gang.leaveWaits Gang.dropCpys
    exact foldl_keeps _ Gang.wish (by intro g x; rfl) _ _
  refine ⟨rfl, hwishes.trans hwish, fun w h => hwaits w (hw ▸ h), fun r h => hrend r ?_⟩
  rw [← hgathers, ← hcollects]
  exact h

/-- The halt of a stopping gang (R317). -/
theorem gang?_haltGang {s : State} {k : Nat} {g : Gang} (h : s.gang? k = some g) (hlen : g.threads.length = g.width) (hw : g.width ≤ 64) :
    ∃ g', (s.haltGang k).gang? k = some g' ∧ g'.gstate = .halted ∧
      ∀ l, l < g.width → (g'.thread l).tstate = if (g.thread l).tstate = .live then .stopped else (g.thread l).tstate := by
  obtain ⟨g1, h1, hsame, hother⟩ := gang?_evictAll _ (lanesOf_nodup g.live g.width) (live_lt hlen) h
  refine ⟨{ g1.modLanes g.live fun t => { t with tstate := .stopped } with gstate := .halted }, ?_, rfl, fun l hl => ?_⟩
  · simp only [State.haltGang, h]
    rw [State.gang?_modGang, if_pos rfl, h1]
    rfl
  · have hthread := Gang.thread_modLanes g1 g.live (fun t => { t with tstate := .stopped }) l (by rw [hsame.threads, hlen]; exact hl)
    change ((g1.modLanes g.live fun t => { t with tstate := .stopped }).thread l).tstate = _
    rw [hthread, getLsbD_live hw hl]
    by_cases hlive : (g.thread l).tstate = .live
    · simp [hlive]
    · have hmem : l ∉ lanesOf g.live g.width := fun hm => hlive ((mem_lanesOf_live hw).1 hm).2
      simp [hlive, hother l hmem]

/-! ## RELEASE -/

theorem dist_freeCalls (s : State) (k : Nat) : (s.freeCalls k).dist = s.dist := by
  unfold State.freeCalls
  split <;> rfl

theorem dist_freeSlot (s : State) (k : Nat) : (s.freeSlot k).dist = s.dist := (dist_freeCalls _ _).trans rfl

theorem gang?_freeSlot (s : State) (k j : Nat) : (s.freeSlot k).gang? j = if j = k then none else s.gang? j := tab_get?_erase _ _ _

theorem gen_freeSlot (s : State) (k : Nat) : (s.freeSlot k).gen k = s.gen k + 1 := (tab_getD_put _ _ _ _ _).trans (if_pos rfl)

theorem gangs_rekeySet (s : State) (core core' set k k' : Nat) :
    (s.rekeySet core core' set k k').gangs = s.gangs ∧ (s.rekeySet core core' set k k').gens = s.gens := by
  unfold State.rekeySet
  dsimp only
  split
  · exact ⟨rfl, rfl⟩
  · split <;> exact ⟨rfl, rfl⟩

/-- The distributor keeps a gang as its latest SAVE wrote it, and every slot stays as it is (R317, R353). -/
theorem keepGang_spec (s : State) (k : Nat) (g : Gang) :
    (s.keepGang k g).gangs = s.gangs ∧ (s.keepGang k g).gens = s.gens ∧
      ∃ x ∈ (s.keepGang k g).dist.saved, x.gang = { (Tab.get? s.snaps k).getD g with recordOut := false, restoring := true } ∧
        x.core = coreOf k := by
  unfold State.keepGang
  dsimp only
  refine ⟨?_, ?_, _, List.mem_append_right _ (List.mem_singleton_self _), rfl, rfl⟩
  · split
    · exact (gangs_rekeySet _ _ _ _ _ _).1
    · rfl
  · split
    · exact (gangs_rekeySet _ _ _ _ _ _).2
    · rfl

/-- RELEASE of a gang that has ended, is halted or is only placed (R314, R317, R353). -/
theorem cmdRelease_eq {s : State} {k : Nat} {g : Gang} (hst : g.gstate = .ended ∨ g.gstate = .halted ∨ g.gstate = .placed) :
    ∃ u : State, s.cmdRelease k g = (u.freeSlot k, .ok) ∧ u.gangs = s.gangs ∧ u.gens = s.gens ∧
      (g.gstate = .halted → u = s.keepGang k g) := by
  rcases hst with e | e | e <;> simp only [State.cmdRelease, e]
  · exact ⟨s, rfl, rfl, rfl, fun h => nomatch h⟩
  · exact ⟨_, rfl, (keepGang_spec s k g).1, (keepGang_spec s k g).2.1, fun _ => rfl⟩
  · exact ⟨_, rfl, rfl, rfl, fun h => nomatch h⟩

/-! ## CLEAR -/

theorem readV_fresh (entry : Pc) (st : TState) (tr : TrapState) (i : Nat) :
    ({ Thread.fresh entry with tstate := st, trap := tr } : Thread).readV i = 0 := by
  unfold Thread.readV
  split <;> rfl

theorem readS_cleared (x : SliceState) (i : Nat) (h : x.s = []) : x.readS i = 0 := by
  unfold SliceState.readS
  rw [h]
  split <;> rfl

theorem readP_fresh (entry : Pc) (st : TState) (tr : TrapState) {i : Nat} (hi : i < 7) :
    ({ Thread.fresh entry with tstate := st, trap := tr } : Thread).readP i = false := by
  have h : ∀ i : Fin 7, (0x80#8).getLsbD i = false := by decide
  simp only [Thread.readP, Thread.fresh, Bool.or_eq_false_iff, decide_eq_false_iff_not]
  exact ⟨by omega, h ⟨i, hi⟩⟩

/-- A gang after CLEAR: its registers and its other state at their values at admission, its threads' states and traps kept (R43, R317). -/
def Gang.cleared (g : Gang) (entry : Pc) : Gang :=
  { g with
    threads := g.threads.map fun (t : Thread) => { Thread.fresh entry with tstate := t.tstate, trap := t.trap }
    slices := g.slices.map fun (x : SliceState) => { x with s := [], bad := 0, pend := [], rotCount := 0, rot := none }
    slots := [], epend := 0, emask := 0, evslot := 0x1F, deadline := 0, deadStage := 0
    levels := [(0, ⟨.opened, []⟩)], openLevel := 0, guards := [], binding := none, wish := none
    gathers := [], parked := none, collects := [], issued := [], stalled := 0, heldResumes := 0 }

theorem cmdClear_cleared {s : State} {k : Nat} {g : Gang} (hst : g.gstate = .halted ∨ g.gstate = .ended) :
    ∃ t entry, s.cmdClear k g = (t, .ok) ∧ t.gang? k = some (g.cleared entry) := by
  have hok : ¬ (g.gstate ≠ .halted ∧ g.gstate ≠ .ended) := fun h => hst.elim h.1 h.2
  rw [State.cmdClear, if_neg hok]
  exact ⟨_, _, rfl, (State.gang?_setGang _ _ _ _).trans (if_pos rfl)⟩

theorem thread_cleared {g : Gang} {l : Nat} (entry : Pc) (hl : l < g.threads.length) :
    (g.cleared entry).thread l = { Thread.fresh entry with tstate := (g.thread l).tstate, trap := (g.thread l).trap } := by
  simp only [Gang.cleared, Gang.thread, List.getD_eq_getElem?_getD, List.getElem?_map, List.getElem?_eq_getElem hl, Option.map_some,
    Option.getD_some]

theorem slice_cleared {g : Gang} {j : Nat} (entry : Pc) (hj : j < g.slices.length) : ((g.cleared entry).slice j).s = [] := by
  simp only [Gang.cleared, Gang.slice, List.getD_eq_getElem?_getD, List.getElem?_map, List.getElem?_eq_getElem hj, Option.map_some,
    Option.getD_some]

/-! ## KILL -/

theorem calls_freeCalls (s : State) (k : Nat) : ∀ c ∈ ((s.freeCalls k).core (coreOf k)).calls, c.key ≠ k := by
  unfold State.freeCalls
  split
  · next x hx =>
    rw [State.core_setCore, if_pos rfl]
    intro c hc
    simpa using (List.mem_filter.1 hc).2
  · next hx =>
    have : s.core (coreOf k) = .fresh := by simp only [State.core, Tab.getD, hx, Option.getD_none]
    rw [this]
    exact fun c hc => nomatch hc

theorem gang?_freeCalls (s : State) (k j : Nat) : (s.freeCalls k).gang? j = s.gang? j := by
  unfold State.freeCalls
  split <;> rfl

/-- What the dissolution of a matrix set leaves of a gang (R286). -/
theorem dissolveSet_keeps (s : State) (core set k : Nat) :
    ((s.dissolveSet core set).gang? k).map (fun g => (g.threads, g.recordOut)) = (s.gang? k).map fun g => (g.threads, g.recordOut) := by
  unfold State.dissolveSet
  dsimp only
  refine (foldl_keeps _ (fun s : State => (s.gang? k).map fun g => (g.threads, g.recordOut)) ?_ _ _).trans rfl
  intro s j
  rw [State.gang?_modGang]
  split
  · rw [Option.map_map]
    rfl
  · rfl

theorem gang?_modLaunch (s : State) (l k : Nat) (f : Launch → Launch) : (s.modLaunch l f).gang? k = s.gang? k := rfl

theorem gang?_cancelGathering (s : State) (b k : Nat) : (s.cancelGathering b).gang? k = s.gang? k := by
  unfold State.cancelGathering
  split
  · rfl
  · split
    · rfl
    · refine foldl_keeps _ (fun s : State => s.gang? k) (fun s c => ?_) _ _
      split <;> rfl

theorem calls_dissolveSet (s : State) (core set j : Nat) : ((s.dissolveSet core set).core j).calls = (s.core j).calls := by
  unfold State.dissolveSet
  dsimp only
  refine (foldl_keeps _ (fun s : State => (s.core j).calls) (by intro s k; rfl) _ _).trans ?_
  exact calls_setCore (by rfl) j

theorem calls_cancelGathering (s : State) (b j : Nat) : ((s.cancelGathering b).core j).calls = (s.core j).calls := by
  unfold State.cancelGathering
  split
  · rfl
  · split
    · rfl
    · refine foldl_keeps _ (fun s : State => (s.core j).calls) (fun s c => ?_) _ _
      split
      · next x hx => exact calls_setCore (by rw [core_of_get? hx]) j
      · rfl

/-- A gang whose threads have all ended is ENDED (R32, R317). -/
theorem gang?_endGang {s : State} {k : Nat} {g : Gang} (h : s.gang? k = some g) (he : g.allEnded = true) :
    ∃ g', (s.endGang k).gang? k = some g' ∧ g'.gstate = .ended ∧ g'.threads = g.threads ∧ g'.recordOut = g.recordOut := by
  by_cases hst : g.gstate = .ended
  · refine ⟨g, ?_, hst, rfl, rfl⟩
    simp [State.endGang, h, hst]
  · have hkept : ∀ u : State, u.gang? k = some g → ∀ b : Option (Nat × Nat),
        ∃ g2 : Gang, State.gang? (match b with | some b => u.dissolveSet (coreOf k) b.1 | none => u) k = some g2 ∧ g2.threads = g.threads ∧
          g2.recordOut = g.recordOut := by
      intro u hu b
      cases b with
      | none => exact ⟨g, hu, rfl, rfl⟩
      | some b =>
        have hd := dissolveSet_keeps u (coreOf k) b.1 k
        rw [hu, Option.map_some, Option.map_eq_some_iff] at hd
        obtain ⟨g2, h2, heq⟩ := hd
        exact ⟨g2, h2, congrArg Prod.fst heq, congrArg Prod.snd heq⟩
    obtain ⟨g2, h2, hthr, hrec⟩ := hkept { s with mem := { s.mem with monitors := s.mem.monitors.filter fun m => m.key ≠ k } } h g.binding
    have hne : (g.gstate != .ended) = true := by simpa using hst
    refine ⟨{ g2 with
      gstate := .ended, waits := [], cpys := [], gathers := [], parked := none, collects := [], issued := [], stalled := 0
      heldResumes := 0 }, ?_, rfl, hthr, hrec⟩
    simp only [State.endGang, h, he, hne, Bool.and_self, if_true]
    have hended := congrArg (Option.map fun g : Gang => { g with
      gstate := .ended, waits := [], cpys := [], gathers := [], parked := none, collects := [], issued := [], stalled := 0
      heldResumes := 0 }) h2
    split
    · rw [gang?_cancelGathering, State.gang?_modBlock, State.gang?_modGang, if_pos rfl]
      exact hended
    · rw [gang?_modLaunch, gang?_cancelGathering, State.gang?_modBlock, State.gang?_modGang, if_pos rfl]
      exact hended

theorem calls_endGang (s : State) (k j : Nat) : ((s.endGang k).core j).calls = (s.core j).calls := by
  unfold State.endGang
  split
  · rfl
  · next g _ =>
    split
    · have hset : ∀ (u : State) (b : Option (Nat × Nat)),
          (State.core (match b with | some b => u.dissolveSet (coreOf k) b.1 | none => u) j).calls = (u.core j).calls := by
        intro u b
        cases b with
        | none => rfl
        | some b => exact calls_dissolveSet _ _ _ _
      have hgone := hset { s with mem := { s.mem with monitors := s.mem.monitors.filter fun m => m.key ≠ k } } g.binding
      dsimp only
      split
      · exact (calls_cancelGathering _ _ _).trans hgone
      · exact (calls_cancelGathering _ _ _).trans hgone
    · rfl

/-- A gang after KILL, before it ends: every thread has ended (R32). -/
def Gang.killed (g : Gang) : Gang :=
  { g with recordOut := false, threads := g.threads.map fun (t : Thread) => { t with tstate := .ended, pend := [] } }

theorem killed_threads (g : Gang) : ∀ x ∈ g.killed.threads, x.tstate = .ended := by
  intro x hx
  obtain ⟨t, -, rfl⟩ := List.mem_map.1 hx
  rfl

theorem killed_allEnded (g : Gang) : g.killed.allEnded = true :=
  List.all_eq_true.2 fun x hx => beq_iff_eq.2 (killed_threads g x hx)

/-- KILL of a gang that is not only placed: every thread has ended, and no call record is its (R32, R317, R320). -/
theorem cmdKill_spec {s : State} {k : Nat} {g : Gang} (hst : g.gstate ≠ .placed) :
    ∃ t g', s.cmdKill k g = (t, .ok) ∧ t.gang? k = some g' ∧ g'.gstate = .ended ∧ g'.recordOut = false ∧
      (∀ x ∈ g'.threads, x.tstate = .ended) ∧ ∀ c ∈ (t.core (coreOf k)).calls, c.key ≠ k := by
  let s1 := ((s.setGang k g.settleSlices).dropHeld k).freeCalls k
  let s2 := (lanesOf g.live g.width).foldl (fun s l => s.evictThread k l) s1
  have h1 : s1.gang? k = some g.settleSlices := by
    rw [gang?_freeCalls, State.dropHeld, State.gang?_modCluster, State.gang?_setGang, if_pos rfl]
  have hsome : (s2.gang? k).isSome = (s1.gang? k).isSome :=
    foldl_keeps _ (fun s : State => (s.gang? k).isSome) (fun s l => isSome_evictThread s k l) _ _
  obtain ⟨g2, h2⟩ := Option.isSome_iff_exists.1 (hsome.trans (by rw [h1]; rfl))
  have h3 : (s2.modGang k Gang.killed).gang? k = some g2.killed := by
    rw [State.gang?_modGang, if_pos rfl, h2, Option.map_some]
  obtain ⟨g', hg', hend, hthr, hrec⟩ := gang?_endGang h3 (killed_allEnded g2)
  refine ⟨_, g', if_neg hst, hg', hend, hrec, hthr ▸ killed_threads g2, ?_⟩
  have hcalls : (s2.core (coreOf k)).calls = (s1.core (coreOf k)).calls :=
    foldl_keeps _ (fun s : State => (s.core (coreOf k)).calls) (fun s l => calls_evictThread s k l _) _ _
  rw [calls_endGang]
  exact hcalls ▸ calls_freeCalls ((s.setGang k g.settleSlices).dropHeld k) k

/-- Settles O43: each command by what it makes of the gang that its handle names. -/
theorem gangCommandsComplete : Obligations.GangCommandsComplete := by
  unfold Obligations.GangCommandsComplete
  refine ⟨?stop, ?halt, ?release, ?clear, ?kill, ?clearfree⟩
  case stop =>
    intro s cl k h g hn hrun hlen hw
    have hg := gang?_of_named hn
    obtain ⟨g', hg', hsame, hthread⟩ := gang?_stopGang hg hlen
    obtain ⟨hst, hwish, hwaits, hrend⟩ := stopWaits_fields g
    have hcmd : s.gangCommand cl 0 h 0 = (s.stopGang k, .ok) := by
      simp [State.gangCommand, hn, State.cmdStop, hrun]
    obtain ⟨hp, hgangs, -⟩ := commandStep_ok hcmd
    refine ⟨_, g', rfl, hp, (hgangs k).trans hg', ?_, ?_, ?_, ?_, ?_, fun j hj => (hgangs j).trans (gang?_stopGang_other s hj)⟩
    · rw [hsame.eq]; exact hst
    · rw [hsame.eq]; exact hwish
    · rw [hsame.eq]; exact hwaits
    · rw [hsame.eq]; exact hrend
    · intro l hl hlive hpend hsolo hslices
      rw [hthread, stopWaits_thread hslices, if_pos ⟨(mem_lanesOf_live hw).2 ⟨hl, hlive⟩, by rw [Thread.soloOut, hsolo, Bool.false_and]⟩,
        evicted_of_no_pend hpend hsolo, Thread.discarded, cancel_of_no_pend hpend]
      exact ⟨rfl, rfl, rfl, rfl, hlive⟩
  case halt =>
    intro s k g hg hcan hlen hw
    obtain ⟨g', h1, h2, h3⟩ := gang?_haltGang hg hlen hw
    refine ⟨s.haltGang k, g', ?_, h1, h2, h3⟩
    change execGangHalt k s = _
    simp only [execGangHalt, hg, hcan, if_true]
  case release =>
    intro s cl k h g hn hst
    obtain ⟨u, hu, hgangs, hgens, hkept⟩ := cmdRelease_eq (s := s) (k := k) hst
    have hcmd : s.gangCommand cl 1 h 0 = (u.freeSlot k, .ok) := by
      simp [State.gangCommand, hn, hu]
    obtain ⟨hp, hg, hd, hge, -⟩ := commandStep_ok hcmd
    refine ⟨_, rfl, hp, ?_, ?_, fun j hj => ?_, fun hh => ?_⟩
    · rw [hg, gang?_freeSlot, if_pos rfl]
    · rw [State.gen, hge]
      exact (gen_freeSlot u k).trans (by rw [State.gen, State.gen, hgens])
    · rw [hg, gang?_freeSlot, if_neg hj, State.gang?, State.gang?, hgangs]
    · rw [hd, dist_freeSlot, hkept hh]
      exact (keepGang_spec s k g).2.2
  case clear =>
    intro s cl k h g hn hst
    obtain ⟨t, entry, ht, hg'⟩ := cmdClear_cleared (s := s) (k := k) hst
    have hcmd : s.gangCommand cl 4 h 0 = (t, .ok) := by
      simp [State.gangCommand, hn, ht]
    obtain ⟨hp, hg, -⟩ := commandStep_ok hcmd
    refine ⟨_, g.cleared entry, rfl, hp, (hg k).trans hg', rfl, rfl, rfl, rfl, rfl, rfl, rfl, rfl, fun l i hl => ?_, fun j i hj => ?_⟩
    · rw [thread_cleared entry hl]
      exact ⟨readV_fresh _ _ _ i, rfl, rfl, rfl, fun hi => readP_fresh _ _ _ hi⟩
    · exact readS_cleared _ i (slice_cleared entry hj)
  case kill =>
    intro s cl k h g hn hst
    obtain ⟨t, g', ht, hg', h1, h2, h3, h4⟩ := cmdKill_spec (s := s) (k := k) hst
    have hcmd : s.gangCommand cl 5 h 0 = (t, .ok) := by
      simp [State.gangCommand, hn, ht]
    obtain ⟨hp, hg, -, -, hc⟩ := commandStep_ok hcmd
    refine ⟨_, g', rfl, hp, (hg k).trans hg', h1, h2, h3, ?_⟩
    rw [State.core, hc]
    exact h4
  case clearfree =>
    intro s cl h c
    have hcmd : s.gangCommand cl 6 h 0 = (s.clearFree c, .ok) := if_pos rfl
    obtain ⟨hp, -⟩ := commandStep_ok hcmd
    have hcore : ∀ j, (s.commandStep cl 6 h 0).core j = (s.clearFree c).core j := fun j => by rw [State.commandStep, hcmd]; rfl
    refine ⟨_, rfl, hp, ?_, fun j hj => ?_, ?_, ?_, ?_⟩
    · rw [hcore, State.clearFree, State.core_modCore, if_pos rfl]
    · rw [hcore, State.clearFree, State.core_modCore, if_neg hj]
    all_goals rw [State.commandStep, hcmd]; rfl

end Sys2Proof.Machine
end

