-- ==== Sys2Proof/Proofs/Seat.lean ====
section
/-! PROOFS. What no access at memory's homes, no walk and no request to another device changes: the cores, the blocks, the distributor
and the register writes that wait; and what performing stores leaves of them. -/

namespace Sys2Proof.Machine

/-- The cores, the blocks, the distributor and the register writes that wait. -/
def State.seat (s : State) : Tab CoreState × Tab Block × Dist × List Commit := (s.cores, s.blocks, s.dist, s.commits)

/-! ## Accesses at the homes -/

theorem seat_monitorsAfter (s : State) (pa : Nat) : (s.monitorsAfter pa).seat = s.seat :=
  foldl_keeps _ State.seat (fun s m => by split <;> rfl) _ _

theorem seat_homeWrite (s : State) (pa n x : Nat) : (s.homeWrite pa n x).seat = s.seat :=
  (seat_monitorsAfter _ pa).trans rfl

theorem seat_sendChannel (s : State) (cl ch : Nat) (m : Message) : (s.sendChannel cl ch m).1.seat = s.seat := by
  unfold State.sendChannel
  dsimp only
  split <;> rfl

theorem seat_logError (s : State) (k : LogKind) (a b c d e : Nat) : (s.logError k a b c d e).seat = s.seat := by
  have hw (x y m n : Nat) : ((s.homeWrite x 32 m).homeWrite y 32 n).seat = s.seat :=
    (seat_homeWrite _ _ _ _).trans (seat_homeWrite _ _ _ _)
  unfold State.logError
  dsimp only
  split
  · rfl
  · split
    · exact hw _ _ _ _
    · exact (seat_sendChannel _ _ _ _).trans (hw _ _ _ _)

theorem seat_spareRow (s : State) (pa : Nat) : (s.spareRow pa).seat = s.seat := by
  unfold State.spareRow
  dsimp only
  split <;> exact seat_logError _ _ _ _ _ _ _

theorem seat_markPoison (s : State) (pa asid : Nat) : (s.markPoison pa asid).seat = s.seat := by
  unfold State.markPoison
  dsimp only
  split
  · exact (seat_spareRow _ _).trans (seat_logError _ _ _ _ _ _ _)
  · exact seat_logError _ _ _ _ _ _ _

theorem seat_logFresh (s : State) (pa asid : Nat) : (s.logFresh pa asid).seat = s.seat := seat_logError _ _ _ _ _ _ _

theorem seat_checkAtom (s : State) (pa n asid : Nat) : (s.checkAtom pa n asid).1.seat = s.seat := by
  have hi : (s.injectionFired s.rel.inj.fcore).seat = s.seat := rfl
  have he : (s.errorFound pa).seat = s.seat := rfl
  unfold State.checkAtom
  simp only
  split_ifs <;> simp only
  · exact (seat_logFresh _ _ _).trans hi
  · exact (seat_markPoison _ _ _).trans he
  · exact (seat_logFresh _ _ _).trans he

theorem seat_applyRed (s : State) (pa op : Nat) (t : Ty) (b asid : Nat) : (s.applyRed pa op t b asid).1.seat = s.seat := by
  have h1 := seat_checkAtom s pa t.bytes asid
  unfold State.applyRed
  generalize s.checkAtom pa t.bytes asid = r1 at h1 ⊢
  obtain ⟨s1, k1⟩ := r1
  have h2 : (if k1 = 1 then s1.checkAtom pa t.bytes asid else (s1, k1)).1.seat = s.seat := by
    split
    · exact (seat_checkAtom _ _ _ _).trans h1
    · exact h1
  simp only
  generalize (if k1 = 1 then s1.checkAtom pa t.bytes asid else (s1, k1)) = r2 at h2 ⊢
  obtain ⟨s2, k2⟩ := r2
  simp only at h2 ⊢
  by_cases hk : k2 = 0
  · simp only [if_pos hk]
    exact (seat_homeWrite _ _ _ _).trans h2
  · by_cases hk1 : k2 = 1
    · simp only [if_neg hk, if_pos hk1]
      exact (seat_markPoison _ _ _).trans h2
    · simp only [if_neg hk, if_neg hk1]
      exact h2

theorem seat_applyQueued (s : State) (e : StoreEntry) : (s.applyQueued e).seat = s.seat := by
  unfold State.applyQueued
  split
  · dsimp only
    split
    · exact (seat_logError _ _ _ _ _ _ _).trans (seat_applyRed _ _ _ _ _ _)
    · exact seat_applyRed _ _ _ _ _ _
  · rfl

theorem seat_drainRed (s : State) (line : Place) : (s.drainRed line).seat = s.seat :=
  (foldl_keeps _ State.seat seat_applyQueued _ _).trans rfl

theorem seat_agentWrite (s : State) (pa n x : Nat) : (s.agentWrite pa n x).seat = s.seat :=
  (seat_homeWrite _ _ _ _).trans (seat_drainRed _ _)

theorem seat_writeBytes (s : State) (pa : Nat) (l : List Byte) : (s.writeBytes pa l).seat = s.seat :=
  foldl_keeps _ State.seat (fun s _ => seat_agentWrite s _ _ _) _ _

theorem seat_agentRead (s : State) (pa n asid : Nat) : (s.agentRead pa n asid).1.seat = s.seat :=
  (seat_checkAtom _ _ _ _).trans (seat_drainRed _ _)

/-! ## Requests to other devices, and walks -/

theorem seat_sendRemote {s t : State} {core dev off : Nat} {op : RemoteOp} {src : RemoteSource}
    (h : s.sendRemote core dev off op src = some t) : t.seat = s.seat := by
  have hf (u : State) : (u.countFlit dev).seat = u.seat := by
    unfold State.countFlit
    dsimp only
    split <;> rfl
  unfold State.sendRemote at h
  dsimp only at h
  split at h
  · cases h
  · rw [← Option.some.inj h]
    exact hf _

theorem seat_readEntry (s : State) (pa asid l : Nat) : (s.readEntry pa asid l).1.seat = s.seat := by
  have h (a : Nat) := seat_agentRead s a 8 asid
  unfold State.readEntry
  split
  · next a _ => have := h a; split <;> next e => rw [e] at this; exact this
  · next a _ => have := h a; split <;> next e => rw [e] at this; exact this
  · split <;> rfl
  · rfl
  · rfl

theorem seat_walkFrom (asid va l : Nat) (s : State) (t : Nat) : (s.walkFrom asid va l t).1.seat = s.seat := by
  induction l generalizing s t with
  | zero =>
    have h := seat_readEntry s (t + 8 * tableIndex va 0) asid 0
    unfold State.walkFrom
    split <;> next e => rw [e] at h; exact h
  | succ l ih =>
    have h := seat_readEntry s (t + 8 * tableIndex va (l + 1)) asid (l + 1)
    unfold State.walkFrom
    split
    · next e => rw [e] at h; exact h
    · next e => rw [e] at h; exact h
    · next e =>
      rw [e] at h
      split
      · exact h
      · exact (ih _ _).trans h

theorem seat_endWalk (s : State) (cl asid root va : Nat) (w : WalkEnd) (ts : List (Nat × Nat)) :
    (s.endWalk cl asid root va w ts).1.seat = s.seat := by
  unfold State.endWalk
  dsimp only
  split
  · split <;> rfl
  · rfl

theorem seat_walkOn (s : State) (cl asid root va l t : Nat) (path : List (Nat × Nat)) :
    (s.walkOn cl asid root va l t path).1.seat = s.seat := by
  have h := seat_walkFrom asid va l s t
  unfold State.walkOn
  split
  · next e => rw [e] at h; exact (seat_endWalk _ _ _ _ _ _ _).trans h
  · next e =>
    rw [e] at h
    split
    · next hs => exact (seat_sendRemote hs).trans h
    · exact h

theorem seat_walkAnswered (s : State) (p : PendingWalk) (va st pte : Nat) : (s.walkAnswered p va st pte).1.seat = s.seat := by
  unfold State.walkAnswered
  dsimp only
  split
  · split
    · exact seat_endWalk _ _ _ _ _ _ _
    · exact seat_walkOn _ _ _ _ _ _ _ _
  · exact seat_endWalk _ _ _ _ _ _ _

theorem seat_walk (s : State) (cl asid root va : Nat) : (s.walk cl asid root va).1.seat = s.seat := by
  unfold State.walk
  split
  · rfl
  · split
    · rfl
    · split
      · split
        · rfl
        · exact seat_walkAnswered _ _ _ _ _
      · split
        · rfl
        · exact seat_walkOn _ _ _ _ _ _ _ _

theorem seat_distTranslate (s : State) (asid root va : Nat) (acc : Access) : (s.distTranslate asid root va acc).1.seat = s.seat := by
  have h := seat_walk s Config.numClusters asid root va
  unfold State.distTranslate
  split <;> next e => rw [e] at h; exact h

theorem still_distTranslate (s : State) (asid root va : Nat) (acc : Access) : s.Still (s.distTranslate asid root va acc).1 := by
  have h := still_walk s Config.numClusters asid root va
  unfold State.distTranslate
  split <;> next e => rw [e] at h; exact h

/-! ## Stores performed -/

/-- A block but for the contents of its scratchpads. -/
def Block.frame (b : Block) : Block := { b with even := .fresh, odd := .fresh }

/-- The cores, and the blocks but for the contents of their scratchpads. -/
def State.floor (s : State) : Tab CoreState × Tab Block := (s.cores, s.blocks.map fun b => (b.1, b.2.frame))

theorem floor_of_seat {s t : State} (h : t.seat = s.seat) : t.floor = s.floor :=
  congrArg (fun x : Tab CoreState × Tab Block × Dist × List Commit => (x.1, x.2.1.map fun b => (b.1, b.2.frame))) h

theorem frame_setHalf (b : Block) (odd : Bool) (h : Scratch) : (b.setHalf odd h).frame = b.frame := by
  cases odd <;> rfl

theorem floor_scratchWrite (s : State) (b : Nat) (o : Bool) (off n x : Nat) (f : Bool) :
    (s.scratchWrite b o off n x f).floor = s.floor := by
  refine congrArg (Prod.mk s.cores) ?_
  simp only [State.scratchWrite, State.modScratch, State.modBlock, Tab.update, List.map_map]
  refine List.map_congr_left fun c _ => ?_
  dsimp only [Function.comp]
  split
  · rw [frame_setHalf]
  · rfl

theorem floor_storeFailed (s : State) (pa : Nat) (tag : Nat × Nat × Nat) : (s.storeFailed pa tag).floor = s.floor := by
  have hm (u : State) (f : Gang → Gang) : (u.mapContexts f).floor = u.floor := rfl
  have hl (u : State) (f : Launch → Launch) : (u.modLaunch tag.1 f).floor = u.floor := rfl
  have he (k : LogKind) (a b c d e : Nat) := floor_of_seat (seat_logError s k a b c d e)
  unfold State.storeFailed
  dsimp only
  split
  · exact (hm _ _).trans (he _ _ _ _ _ _)
  · exact (hl _ _).trans ((hm _ _).trans (he _ _ _ _ _ _))

theorem floor_applyPart {s t : State} {e : StoreEntry} (h : s.applyPart e = some t) : t.floor = s.floor := by
  unfold State.applyPart at h
  split at h
  · cases h
  · split at h
    · rw [← Option.some.inj h]; exact floor_scratchWrite _ _ _ _ _ _ _
    · rw [← Option.some.inj h]
    · split at h
      · exact floor_of_seat (seat_sendRemote h)
      · split at h <;> rw [← Option.some.inj h]
        · exact floor_of_seat ((seat_homeWrite _ _ _ _).trans (seat_drainRed _ _))
        · rfl
      · rw [← Option.some.inj h]; exact floor_storeFailed _ _ _
      · split at h <;> rw [← Option.some.inj h]
        · exact floor_of_seat (seat_homeWrite _ _ _ _)
        · exact floor_of_seat (seat_applyRed _ _ _ _ _ _)

theorem foldl?_none {α β : Type} (f : β → α → Option β) (l : List α) :
    l.foldl (fun b? a => b?.bind fun b => f b a) none = none := by
  induction l with
  | nil => rfl
  | cons a l ih => exact ih

/-- Steps that may have to wait, one after another, keep what each of them keeps. -/
theorem foldl?_keeps {α β γ : Type} {f : β → α → Option β} (v : β → γ) (hf : ∀ {b c : β} {a : α}, f b a = some c → v c = v b)
    (l : List α) {b c : β} (h : l.foldl (fun b? a => b?.bind fun b => f b a) (some b) = some c) : v c = v b := by
  induction l generalizing b with
  | nil => rw [Option.some.inj h]
  | cons a l ih =>
    rw [List.foldl_cons, Option.bind_some] at h
    cases hb : f b a with
    | none =>
      have hn : l.foldl (fun b? a => b?.bind fun b => f b a) none = none := foldl?_none f l
      rw [hb, hn] at h
      cases h
    | some d => rw [hb] at h; exact (ih h).trans (hf hb)

theorem floor_applyEntry {s t : State} {e : StoreEntry} (h : s.applyEntry e = some t) : t.floor = s.floor :=
  foldl?_keeps State.floor floor_applyPart _ h

theorem floor_drain {s t : State} {w : StoreEntry → Bool} (h : s.drain w = some t) : t.floor = s.floor := by
  unfold State.drain at h
  simp only at h
  split at h
  · rw [← Option.some.inj h]
  · have hk := foldl?_keeps (f := fun s (x : StoreEntry × Bool) => s.applyEntry x.1) State.floor floor_applyEntry _ h
    exact hk.trans rfl

theorem drainBlock_drain {s t : State} {lid bidx : Nat} (h : s.drainBlock lid bidx = some t) :
    s.drain (fun e => e.tag.1 == lid && e.tag.2.1 == bidx) = some t := by
  obtain ⟨a, ha, hb⟩ := Option.bind_eq_some_iff.1 h
  split at hb
  · cases hb
  · rw [ha, hb]

theorem floor_drainBlock {s t : State} {lid bidx : Nat} (h : s.drainBlock lid bidx = some t) : t.floor = s.floor :=
  floor_drain (drainBlock_drain h)

theorem still_drainBlock {s t : State} {lid bidx : Nat} (h : s.drainBlock lid bidx = some t) : s.Still t :=
  still_drain (drainBlock_drain h)

theorem get?_map_frame (t : Tab Block) (b : Nat) : Tab.get? (t.map fun b => (b.1, b.2.frame)) b = (Tab.get? t b).map Block.frame := by
  simp only [Tab.get?, List.find?_map, Option.map_map]
  rfl

theorem cores_of_floor {s t : State} (h : t.floor = s.floor) : t.cores = s.cores := congrArg Prod.fst h

theorem block?_of_floor {s t : State} (h : t.floor = s.floor) (b : Nat) : (t.block? b).map Block.frame = (s.block? b).map Block.frame := by
  rw [State.block?, State.block?, ← get?_map_frame, ← get?_map_frame]
  exact congrArg (Tab.get? · b) (congrArg Prod.snd h)

end Sys2Proof.Machine
end

