-- ==== Sys2Proof/Proofs/BlockEnds.lean ====
section
/-! PROOFS. Completion blocks, the end of a launch, the slots and the tiles of a block freed, and the uses of a block cancelled: what
each leaves of the gangs, the blocks, the launches and the cores (R32, R43, R349, R357). -/

namespace Sys2Proof.Machine

/-! ## Completion blocks -/

/-- The cores, the blocks and the launches. -/
def State.rolls (s : State) : Tab CoreState × Tab Block × Tab Launch := (s.cores, s.blocks, s.dist.launches)

theorem rolls_of_seat {s t : State} (h : t.seat = s.seat) : t.rolls = s.rolls :=
  congrArg (fun x : Tab CoreState × Tab Block × Dist × List Commit => (x.1, x.2.1, x.2.2.1.launches)) h

/-- What is on a core is as before, for all that its gangs, its blocks and their launches can tell. -/
structure State.Unmoved (s t : State) : Prop where
  still : s.Still t
  rolls : t.rolls = s.rolls

theorem State.Unmoved.refl (s : State) : s.Unmoved s := ⟨.refl s, rfl⟩

theorem State.Unmoved.trans {a b c : State} (h : a.Unmoved b) (i : b.Unmoved c) : a.Unmoved c :=
  ⟨h.still.trans i.still, i.rolls.trans h.rolls⟩

theorem unmoved_of_seat {s t : State} (h : s.Still t) (i : t.seat = s.seat) : s.Unmoved t := ⟨h, rolls_of_seat i⟩

theorem unmoved_dones (s : State) (l : List Completion) : s.Unmoved { s with dist := { s.dist with dones := l } } :=
  ⟨still_same rfl rfl rfl, rfl⟩

theorem unmoved_countDropped (s : State) (q : Nat) : s.Unmoved (s.countDropped q) := ⟨still_same rfl rfl rfl, rfl⟩

theorem unmoved_applyRed (s : State) (pa op : Nat) (t : Ty) (b asid : Nat) : s.Unmoved (s.applyRed pa op t b asid).1 :=
  unmoved_of_seat (still_applyRed _ _ _ _ _ _) (seat_applyRed _ _ _ _ _ _)

theorem unmoved_distTranslate (s : State) (asid root va : Nat) (acc : Access) : s.Unmoved (s.distTranslate asid root va acc).1 :=
  unmoved_of_seat (still_distTranslate _ _ _ _ _) (seat_distTranslate _ _ _ _ _)

theorem unmoved_sendRemote {s t : State} {core dev off : Nat} {op : RemoteOp} {src : RemoteSource}
    (h : s.sendRemote core dev off op src = some t) : s.Unmoved t := unmoved_of_seat (still_sendRemote h) (seat_sendRemote h)

theorem unmoved_doneHere (s : State) (c : Completion) (asid pa : Nat) : s.Unmoved (s.doneHere c asid pa) := by
  have h := (unmoved_of_seat (still_drainRed s _) (seat_drainRed s _)).trans
    (unmoved_applyRed (s.drainRed (.phys (lineOf pa))) pa 0 .n64 0 asid)
  unfold State.doneHere
  split
  · next e => rw [e] at h; exact h.trans (unmoved_countDropped _ _)
  · next e =>
    rw [e] at h
    exact (h.trans (unmoved_of_seat (still_agentWrite _ _ _ _) (seat_agentWrite _ _ _ _))).trans (unmoved_applyRed _ _ _ _ _ _)

theorem unmoved_stepDone (s : State) (c : Completion) : s.Unmoved (s.stepDone c).1 := by
  unfold State.stepDone
  split
  · exact .refl s
  · next l _ =>
    split
    · have h := unmoved_distTranslate s l.asid l.root l.done .rmw
      split
      · next e => rw [e] at h; exact h
      · next e => rw [e] at h; exact h.trans (unmoved_countDropped _ _)
      · next e =>
        rw [e] at h
        split
        · exact h.trans (unmoved_countDropped _ _)
        · split
          · next e => exact h.trans (unmoved_sendRemote e)
          · exact h
      · next e => rw [e] at h; exact h.trans (unmoved_doneHere _ _ _ _)
    · split
      · next e => exact unmoved_sendRemote e
      · exact .refl s
    · exact .refl s

theorem unmoved_foldl {α : Type} {f : State → α → State} (h : ∀ (s : State) (a : α), s.Unmoved (f s a)) (l : List α) (s : State) :
    s.Unmoved (l.foldl f s) := by
  induction l generalizing s with
  | nil => exact .refl s
  | cons a l ih => exact (h s a).trans (ih _)

theorem unmoved_pushDones (s : State) : s.Unmoved s.pushDones := by
  refine (unmoved_dones s []).trans (unmoved_foldl (fun s c => ?_) _ _)
  have h := unmoved_stepDone s c
  split
  · next e => rw [e] at h; exact h.trans (unmoved_dones _ _)
  · next e => rw [e] at h; exact h

theorem unmoved_startDone (s : State) (lid : Nat) (l : Launch) (status : Nat) : s.Unmoved (s.startDone lid l status) := by
  unfold State.startDone
  split
  · exact .refl s
  · exact (unmoved_dones s _).trans (unmoved_pushDones _)

theorem State.Unmoved.block? {s t : State} (h : s.Unmoved t) (b : Nat) : t.block? b = s.block? b :=
  congrArg (fun x : Tab CoreState × Tab Block × Tab Launch => Tab.get? x.2.1 b) h.rolls

theorem State.Unmoved.launch? {s t : State} (h : s.Unmoved t) (l : Nat) : t.launch? l = s.launch? l :=
  congrArg (fun x : Tab CoreState × Tab Block × Tab Launch => Tab.get? x.2.2 l) h.rolls

/-- A slot that is free stays free, and one in use in use. -/
theorem gang?_none_of_still {s t : State} (h : s.Still t) {k : Nat} (hk : s.gang? k = none) : t.gang? k = none := by
  simpa [hk] using h.gangs k

/-! ## The end of a launch -/

theorem launch?_modLaunch (s : State) (l j : Nat) (f : Launch → Launch) :
    (s.modLaunch l f).launch? j = if j = l then (s.launch? j).map f else s.launch? j := tab_get?_update _ _ _ _

/-- A launch's end changes no gang and no block, and of the launches only its own, which gets its status (R348, R349). -/
theorem endLaunch_spec {s : State} {lid : Nat} {l : Launch} (st : LaunchStatus) (h : s.launch? lid = some l) :
    (s.endLaunch lid st).launch? lid = some { l with status := some st.code } ∧
      (∀ b, (s.endLaunch lid st).block? b = s.block? b) ∧ s.Still (s.endLaunch lid st) := by
  unfold State.endLaunch
  simp only [h]
  refine ⟨?_, fun b => ?_, ?_⟩
  · rw [(unmoved_startDone _ _ _ _).launch?, launch?_modLaunch, if_pos rfl]
    exact congrArg (Option.map _) h
  · exact ((unmoved_startDone _ _ _ _).block? b).trans rfl
  · exact still_pre (unmoved_startDone _ _ _ _).still rfl rfl rfl

/-! ## Slots and tiles freed -/

/-- A core's tiles, with the block that has claimed them. -/
def State.claim (s : State) (c : Nat) : Option Nat × Tab Tile := ((s.core c).owner, (s.core c).tiles)

theorem claim_freeSlot (s : State) (k c : Nat) : (s.freeSlot k).claim c = s.claim c := by
  have h : ((s.dropHeld k).freeCalls k).claim c = s.claim c := by
    unfold State.freeCalls
    split
    · next x hx =>
      have hx' : s.core (coreOf k) = x := core_of_get? hx
      unfold State.claim
      rw [State.core_setCore]
      split
      · next e => rw [e, hx']
      · rfl
    · rfl
  exact h

/-- The slots of some gangs freed. -/
def State.freeSlots (s : State) (l : List (Nat × Gang)) : State := l.foldl (fun s kg => s.freeSlot kg.1) s

theorem gang?_freeSlots (l : List (Nat × Gang)) (s : State) (k : Nat) :
    (s.freeSlots l).gang? k = if k ∈ l.map Prod.fst then none else s.gang? k := by
  unfold State.freeSlots
  induction l generalizing s with
  | nil => simp
  | cons x l ih =>
    rw [List.foldl_cons, ih, gang?_freeSlot]
    simp only [List.map_cons, List.mem_cons]
    by_cases hk : k = x.1 <;> simp only [hk, true_or, false_or, if_true, if_false, ite_self]

theorem dist_freeSlots (l : List (Nat × Gang)) (s : State) : (s.freeSlots l).dist = s.dist :=
  foldl_keeps _ State.dist (fun s _ => dist_freeSlot s _) _ _

theorem claim_freeSlots (l : List (Nat × Gang)) (s : State) (c : Nat) : (s.freeSlots l).claim c = s.claim c :=
  foldl_keeps _ (fun s : State => s.claim c) (fun s _ => claim_freeSlot s _ _) _ _

/-- With the slots of a block's gangs freed, none of its gangs is left. -/
theorem gang?_freeBlockSlots {s t : State} (h : s.Still t) {b k : Nat} {g : Gang} (hg : s.gang? k = some g) (hb : g.blk = b) :
    (t.freeSlots (t.gangsOf b)).gang? k = none := by
  have hd : (t.gang? k).map Gang.deaf = some g.deaf := by rw [h.gangs k, hg, Option.map_some]
  obtain ⟨g', hg', hd'⟩ := Option.map_eq_some_iff.1 hd
  have hb' : g'.blk = b := (congrArg Gang.blk hd').trans hb
  obtain ⟨kg, hf, hkg⟩ := Option.map_eq_some_iff.1 hg'
  have hk : kg.1 = k := by simpa using List.find?_some hf
  rw [gang?_freeSlots, if_pos]
  refine List.mem_map.2 ⟨kg, List.mem_filter.2 ⟨List.mem_of_find?_eq_some hf, ?_⟩, hk⟩
  simpa [hkg] using hb'

theorem freeBlockCore_rest (s : State) (b c : Nat) :
    (s.freeBlockCore b c).gangs = s.gangs ∧ (s.freeBlockCore b c).blocks = s.blocks ∧ (s.freeBlockCore b c).dist = s.dist := by
  unfold State.freeBlockCore
  split
  · split <;> exact ⟨rfl, rfl, rfl⟩
  · exact ⟨rfl, rfl, rfl⟩

/-- A core whose tiles a block gives back is not its own (R43). -/
theorem owner_freeBlockCore_same (s : State) (b c : Nat) : ((s.freeBlockCore b c).core c).owner ≠ some b := by
  unfold State.freeBlockCore
  split
  · next x hx =>
    split
    · rw [State.core_setCore, if_pos rfl]; simp
    · next hn => rwa [core_of_get? hx]
  · next hx =>
    have hc : s.core c = .fresh := by rw [State.core, Tab.getD, hx, Option.getD_none]
    rw [hc]
    simp [CoreState.fresh]

theorem owner_freeBlockCore {s : State} {b c j : Nat} (h : (s.core j).owner ≠ some b) :
    ((s.freeBlockCore b c).core j).owner ≠ some b := by
  by_cases hj : j = c
  · rw [hj]; exact owner_freeBlockCore_same s b c
  · unfold State.freeBlockCore
    split
    · split
      · rwa [State.core_setCore, if_neg hj]
      · exact h
    · exact h

theorem owner_freeBlockCores (s : State) (b c j : Nat) (hj : j = c ∨ j = c + 1) :
    ((((s.freeBlockCore b c).freeBlockCore b (c + 1)).core j).owner) ≠ some b := by
  rcases hj with rfl | rfl
  · exact owner_freeBlockCore (owner_freeBlockCore_same s b _)
  · exact owner_freeBlockCore_same _ b _

/-! ## Uses -/

/-- The copy uses of a core. -/
def State.usesAt (s : State) (c : Nat) : Tab CopyUse := (s.core c).uses

theorem cores_completePart (s : State) (b stamp st : Nat) (p : UsePart) : (s.completePart b stamp st p).cores = s.cores := by
  unfold State.completePart
  split
  · split <;> rfl
  · rfl

theorem usesAt_endUse (s : State) (c u st j v : Nat) :
    Tab.get? ((s.endUse c u st).usesAt j) v = if (j, v) = (c, u) then none else Tab.get? (s.usesAt j) v := by
  have hmod (t : State) (ht : t.cores = s.cores) : Tab.get? ((t.modCore c fun x => { x with uses := Tab.erase x.uses u }).usesAt j) v =
      if (j, v) = (c, u) then none else Tab.get? (s.usesAt j) v := by
    have hcore (i : Nat) : t.core i = s.core i := by rw [State.core, State.core, ht]
    rw [State.usesAt, State.core_modCore, hcore, hcore]
    by_cases hj : j = c
    · subst hj
      simp [tab_get?_erase, State.usesAt]
    · simp [hj, State.usesAt]
  unfold State.endUse
  split
  · next hn =>
    split
    · next e =>
      obtain ⟨rfl, rfl⟩ := Prod.mk.inj e
      exact hn
    · rfl
  · dsimp only
    split
    · exact hmod _ rfl
    · next x _ _ =>
      have hf (t : State) : (x.parts.foldl (fun s p => s.completePart x.blk x.stamp st p) t).usesAt j = t.usesAt j := by
        have := foldl_keeps _ State.cores (fun s p => cores_completePart s x.blk x.stamp st p) x.parts t
        rw [State.usesAt, State.core, this]
        rfl
      rw [hf]
      exact hmod _ rfl

theorem usesAt_endUses (l : List (Nat × Nat)) (s : State) (st j v : Nat) :
    Tab.get? ((l.foldl (fun s x => s.endUse x.1 x.2 st) s).usesAt j) v = if (j, v) ∈ l then none else Tab.get? (s.usesAt j) v := by
  induction l generalizing s with
  | nil => simp
  | cons x l ih =>
    rw [List.foldl_cons, ih, usesAt_endUse]
    by_cases hx : (j, v) = x <;> simp [hx]

theorem mem_of_tab_get? {α : Type} {t : Tab α} {k : Nat} {v : α} (h : Tab.get? t k = some v) : (k, v) ∈ t := by
  obtain ⟨c, hf, hc⟩ := Option.map_eq_some_iff.1 h
  have hk : c.1 = k := by simpa using List.find?_some hf
  rw [← hk, ← hc]
  exact List.mem_of_find?_eq_some hf

/-- With every use of a block cancelled, none is left (R279, R357). -/
theorem usesAt_cancelUses (s : State) (b : Nat) {c u : Nat} {y : CopyUse}
    (h : Tab.get? ((s.cancelUses b fun _ => true).usesAt c) u = some y) : y.blk ≠ b := by
  intro hb
  unfold State.cancelUses at h
  rw [usesAt_endUses] at h
  split at h
  · cases h
  · next hn =>
    apply hn
    have hu : (u, y) ∈ (s.core c).uses := mem_of_tab_get? h
    cases hc : Tab.get? s.cores c with
    | none =>
      have : s.core c = .fresh := by rw [State.core, Tab.getD, hc, Option.getD_none]
      rw [this] at hu
      cases hu
    | some x =>
      rw [core_of_get? hc] at hu
      refine List.mem_flatMap.2 ⟨(c, x), mem_of_tab_get? hc, List.mem_map.2 ⟨(u, y), List.mem_filter.2 ⟨hu, ?_⟩, rfl⟩⟩
      simp [hb]

end Sys2Proof.Machine
end

