-- ==== Sys2Proof/Proofs/BlockMoves.lean ====
section
/-! PROOFS. A block retires, is saved to its area and comes back to a core (R32, R349, R357, R358, R361). -/

namespace Sys2Proof.Machine

/-! ## Retirement -/

/-- The state of a block's retirement before its launch can end (R32). -/
def State.retiring (s : State) (b : Nat) (x : Block) (st : BlockState) : State :=
  ((((s.freeSlots (s.gangsOf b)).freeBlockCore b x.core).freeBlockCore b (x.core + 1)).setBlock b
    { x with state := st, even := .fresh, odd := .fresh, gangs := [], journal := [], tiles := [] }).modLaunch x.lid
      fun l => { l with retired := l.retired + 1 }

theorem retireBlock_eq (s : State) (b : Nat) (x : Block) (st : BlockState) :
    s.retireBlock b x st = match (s.retiring b x st).launch? x.lid with
      | some l => if l.retired = l.total then
          (s.retiring b x st).endLaunch x.lid (if l.lost then .lost else if l.remote then .remote else .complete)
        else s.retiring b x st
      | none => s.retiring b x st := rfl

theorem gang?_retiring (s : State) (b k : Nat) (x : Block) (st : BlockState) :
    (s.retiring b x st).gang? k = (s.freeSlots (s.gangsOf b)).gang? k := by
  obtain ⟨h1, -, -⟩ := freeBlockCore_rest (s.freeSlots (s.gangsOf b)) b x.core
  obtain ⟨h2, -, -⟩ := freeBlockCore_rest ((s.freeSlots (s.gangsOf b)).freeBlockCore b x.core) b (x.core + 1)
  exact congrArg (Tab.get? · k) (h2.trans h1)

theorem block?_retiring (s : State) (b : Nat) (x : Block) (st : BlockState) : (s.retiring b x st).block? b =
    some { x with state := st, even := .fresh, odd := .fresh, gangs := [], journal := [], tiles := [] } := by
  exact (State.block?_setBlock _ _ _ _).trans (if_pos rfl)

theorem launch?_retiring {s : State} {b : Nat} {x : Block} {l : Launch} (st : BlockState) (h : s.launch? x.lid = some l) :
    (s.retiring b x st).launch? x.lid = some { l with retired := l.retired + 1 } := by
  obtain ⟨-, -, h1⟩ := freeBlockCore_rest (s.freeSlots (s.gangsOf b)) b x.core
  obtain ⟨-, -, h2⟩ := freeBlockCore_rest ((s.freeSlots (s.gangsOf b)).freeBlockCore b x.core) b (x.core + 1)
  have hd := (h2.trans h1).trans (dist_freeSlots _ _)
  rw [State.retiring, launch?_modLaunch, if_pos rfl]
  refine congrArg (Option.map _) ((?_ : _ = s.launch? x.lid).trans h)
  exact congrArg (fun d : Dist => Tab.get? d.launches x.lid) hd

/-- Retirement: the block as it is then, no gang of the block, and its launch with one retired block more (R32, R349). -/
theorem retireBlock_spec (s : State) (b : Nat) (x : Block) (st : BlockState) :
    (s.retireBlock b x st).block? b = (s.retiring b x st).block? b ∧ (s.retiring b x st).Still (s.retireBlock b x st) ∧
      ∀ l, s.launch? x.lid = some l → ∃ l', (s.retireBlock b x st).launch? x.lid = some l' ∧ l'.retired = l.retired + 1 ∧
        l'.status = if l.retired + 1 = l.total then
          some (if l.lost then LaunchStatus.lost else if l.remote then .remote else .complete).code else l.status := by
  rw [retireBlock_eq]
  cases hl : (s.retiring b x st).launch? x.lid with
  | none =>
    refine ⟨rfl, .refl _, fun l h => ?_⟩
    rw [launch?_retiring st h] at hl
    cases hl
  | some l' =>
    have hl' (l : Launch) (h : s.launch? x.lid = some l) : l' = { l with retired := l.retired + 1 } := by
      rw [launch?_retiring st h] at hl
      exact (Option.some.inj hl).symm
    dsimp only
    by_cases ht : l'.retired = l'.total
    · rw [if_pos ht]
      obtain ⟨h1, h2, h3⟩ := endLaunch_spec (if l'.lost then .lost else if l'.remote then .remote else .complete) hl
      refine ⟨h2 b, h3, fun l h => ⟨_, h1, ?_⟩⟩
      rw [hl' l h] at ht ⊢
      exact ⟨rfl, (if_pos ht).symm⟩
    · rw [if_neg ht]
      refine ⟨rfl, .refl _, fun l h => ⟨_, hl, ?_⟩⟩
      rw [hl' l h] at ht ⊢
      exact ⟨rfl, (if_neg ht).symm⟩

theorem exec_blockRetire {s s1 : State} {b : Nat} {x : Block} (hb : s.block? b = some x)
    (hst : x.state = .resident ∨ x.state = .evicting) (hn : x.ngang ≤ x.endedGangs.length) (hu : s.usesOf b = false)
    (hd : s.drainBlock x.lid x.bidx = some s1) : exec (.blockRetire b) s = .next (s1.retireBlock b x .retired) := by
  have hc : ((x.state == .resident || x.state == .evicting) && decide (x.ngang ≤ x.endedGangs.length) && !s.usesOf b) = true := by
    rcases hst with h | h <;> simp [h, hn, hu]
  change execBlockRetire b s = _
  rw [execBlockRetire]
  simp only [hb, hc, if_true, hd]

/-! ## Save -/

theorem unmoved_saveHalf (s : State) (x : Block) (odd : Bool) : s.Unmoved (s.saveHalf x odd) := by
  have hw (t : State) (a : Nat) (l : List Byte) : t.Unmoved (t.writeBytes a l) :=
    unmoved_of_seat (still_foldl _ (fun s _ => still_agentWrite s _ _ _) _ _) (seat_writeBytes _ _ _)
  have hc : s.Unmoved { s with freeCtr := s.freeCtr + 1 } := ⟨still_same rfl rfl rfl, rfl⟩
  unfold State.saveHalf
  dsimp only
  split
  · exact (hc.trans (hw _ _ _)).trans (hw _ _ _)
  · exact hc

/-- A block as it is saved, with its slots freed (R358). -/
def State.savedBlock (s : State) (b : Nat) (x : Block) (claims : BitVec 2) : Block :=
  { x with
    state := .saved, gangs := []
    tiles := s.savedTiles b x.core 0 ++ (if x.pair then s.savedTiles b (x.core + 1) 1 else [])
    claims := claims }

/-- The state of a save once the images are written: the tiles' claims go, and the record of the block is the saved one. -/
def State.recordSaved (s : State) (b : Nat) (x : Block) : State :=
  (((if x.pair then (s.saveHalf x false).saveHalf x true else s.saveHalf x false).freeBlockCore b x.core).freeBlockCore b
    (x.core + 1)).setBlock b x

/-- The sides of a block's claim on tiles (R43). -/
def State.claimsOf (s : State) (b : Nat) (x : Block) : BitVec 2 :=
  BitVec.ofNat 2 (((s.core x.core).owner == some b).toNat + 2 * (x.pair && (s.core (x.core + 1)).owner == some b).toNat)

theorem claimsOf_zero (s : State) (b : Nat) (x : Block) : (s.claimsOf b x).getLsbD 0 = decide ((s.core x.core).owner = some b) := by
  have h (p q : Bool) : (BitVec.ofNat 2 (p.toNat + 2 * q.toNat)).getLsbD 0 = p := by revert p q; decide
  rw [State.claimsOf, h]
  by_cases e : (s.core x.core).owner = some b <;> simp [e]

theorem gang?_recordSaved {s : State} {k : Nat} (b : Nat) (x : Block) (h : s.gang? k = none) :
    (s.recordSaved b x).gang? k = none := by
  have hs : s.Unmoved (if x.pair then (s.saveHalf x false).saveHalf x true else s.saveHalf x false) := by
    split
    · exact (unmoved_saveHalf _ _ _).trans (unmoved_saveHalf _ _ _)
    · exact unmoved_saveHalf _ _ _
  unfold State.recordSaved
  generalize (if x.pair then (s.saveHalf x false).saveHalf x true else s.saveHalf x false) = u at hs ⊢
  obtain ⟨h1, -, -⟩ := freeBlockCore_rest u b x.core
  obtain ⟨h2, -, -⟩ := freeBlockCore_rest (u.freeBlockCore b x.core) b (x.core + 1)
  exact (congrArg (Tab.get? · k) (h2.trans h1)).trans (gang?_none_of_still hs.still h)

theorem block?_recordSaved (s : State) (b : Nat) (x : Block) : (s.recordSaved b x).block? b = some x :=
  (State.block?_setBlock _ _ _ _).trans (if_pos rfl)

theorem owner_recordSaved (s : State) (b : Nat) (x : Block) {c : Nat} (hc : c = x.core ∨ c = x.core + 1) :
    ((s.recordSaved b x).core c).owner ≠ some b := owner_freeBlockCores _ b x.core c hc

theorem tab_get?_shift {α : Type} (t : Tab α) (n k : Nat) :
    Tab.get? (t.map fun x => (n + x.1, x.2)) k = if n ≤ k then Tab.get? t (k - n) else none := by
  induction t with
  | nil => simp [Tab.get?]
  | cons c t ih =>
    rw [List.map_cons, tab_get?_cons, ih, tab_get?_cons]
    by_cases hk : n ≤ k
    · have : n + c.1 = k ↔ c.1 = k - n := by omega
      simp only [hk, if_true, this]
    · have : ¬n + c.1 = k := by omega
      simp only [hk, if_false, this]

/-- The tiles of a block's first core stand in its record under their own numbers (R358). -/
theorem tiles_savedBlock {s : State} {b : Nat} {x : Block} {i : Nat} (claims : BitVec 2) (hi : i < 16)
    (ho : (s.core x.core).owner = some b) : Tab.get? (s.savedBlock b x claims).tiles i = Tab.get? (s.core x.core).tiles i := by
  have h0 : Tab.get? (s.savedTiles b x.core 0) i = Tab.get? (s.core x.core).tiles i := by
    rw [State.savedTiles, if_pos ho]
    exact (tab_get?_shift _ _ _).trans (if_pos (Nat.zero_le i))
  have h1 : Tab.get? (if x.pair then s.savedTiles b (x.core + 1) 1 else []) i = none := by
    split
    · rw [State.savedTiles]
      split
      · exact (tab_get?_shift _ _ _).trans (if_neg (by omega))
      · rfl
    · rfl
  refine (tab_get?_append _ _ _).trans ?_
  rw [h0, h1, Option.or_none]

theorem exec_blockImageSave {s s1 : State} {b : Nat} {x x1 : Block} (hb : s.block? b = some x) (hst : x.state = .evicting)
    (hg : ∀ kg ∈ s.gangsOf b, kg.2.gstate = .ended) (hr : ∀ r ∈ s.dist.requests, r.blk ≠ b) (hu : s.usesOf b = false)
    (ht : ∀ c, c = x.core ∨ x.pair = true ∧ c = x.core + 1 → (s.core c).owner = some b → ∀ t ∈ (s.core c).tiles, t.2.busy = 0)
    (hd : s.drainBlock x.lid x.bidx = some s1) (hb1 : s1.block? b = some x1) :
    exec (.blockImageSave b) s = .next ((s1.freeSlots (s1.gangsOf b)).recordSaved b
      ((s1.freeSlots (s1.gangsOf b)).savedBlock b x1 (s.claimsOf b x1))) := by
  have hidle : ((s.gangsOf b).all fun kg => kg.2.gstate == .ended) = true :=
    List.all_eq_true.2 fun kg hk => by simp [hg kg hk]
  have hreq : (s.dist.requests.any fun r => r.blk == b) = false := List.any_eq_false.2 fun r h => by simp [hr r h]
  have hbusy (c : Nat) (hc : c = x.core ∨ x.pair = true ∧ c = x.core + 1) :
      ((s.core c).owner == some b && (s.core c).tiles.any fun t => t.2.busy != 0) = false := by
    by_cases ho : (s.core c).owner = some b
    · have : ((s.core c).tiles.any fun t => t.2.busy != 0) = false := List.any_eq_false.2 fun t h => by simp [ht c hc ho t h]
      rw [this, Bool.and_false]
    · simp [ho]
  have hpair : (x.pair && ((s.core (x.core + 1)).owner == some b && (s.core (x.core + 1)).tiles.any fun t => t.2.busy != 0)) = false := by
    cases hp : x.pair with
    | false => rfl
    | true => rw [hbusy _ (.inr ⟨hp, rfl⟩), Bool.and_false]
  change execBlockImageSave b s = _
  rw [execBlockImageSave]
  simp only [hb, hst, hidle, hreq, hu, hbusy _ (.inl rfl), hpair, beq_self_eq_true, Bool.not_false, Bool.and_self, if_true, hd, hb1]
  rfl

/-! ## Restoration -/

/-- Two states alike but for their cores. -/
def State.ButCores (s t : State) : Prop := t = { s with cores := t.cores }

theorem State.ButCores.trans {a b c : State} (h : a.ButCores b) (i : b.ButCores c) : a.ButCores c := by
  unfold State.ButCores at h i ⊢
  rw [i, h]

theorem butCores_wakeCore (s : State) (c : Nat) : s.ButCores (s.wakeCore c) := by
  unfold State.wakeCore
  split <;> exact rfl

theorem butCores_giveTiles (s : State) (b c side : Nat) (x : Block) : s.ButCores (s.giveTiles b c side x) := by
  unfold State.giveTiles
  split <;> exact rfl

theorem core_giveTiles (s : State) (b c side j : Nat) (x : Block) : (s.giveTiles b c side x).core j =
    if j = c ∧ x.claims.getLsbD side = true then { s.core c with
      owner := some b, tiles := (x.tiles.filter fun t => t.1 / 16 == side).map fun t => (t.1 % 16, t.2) } else s.core j := by
  unfold State.giveTiles
  by_cases hx : x.claims.getLsbD side = true
  · rw [if_pos hx, State.core_modCore]
    by_cases hj : j = c <;> simp [hj, hx]
  · rw [if_neg hx, if_neg fun h => hx h.2]

/-- A saved block's core up, and its tiles back (R361, R362). -/
def State.reopened (s : State) (b c : Nat) (x : Block) : State :=
  ((if x.pair then (s.wakeCore c).wakeCore (c + 1) else s.wakeCore c).giveTiles b c 0 x).giveTiles b (c + 1) 1 x

theorem butCores_reopened (s : State) (b c : Nat) (x : Block) : s.ButCores (s.reopened b c x) := by
  have h : s.ButCores (if x.pair then (s.wakeCore c).wakeCore (c + 1) else s.wakeCore c) := by
    split
    · exact (butCores_wakeCore _ _).trans (butCores_wakeCore _ _)
    · exact butCores_wakeCore _ _
  exact (h.trans (butCores_giveTiles _ _ _ _ _)).trans (butCores_giveTiles _ _ _ _ _)

theorem core_reopened {s : State} {b c side : Nat} {x : Block} (hs : side = 0 ∨ side = 1) (hx : x.claims.getLsbD side = true) :
    ((s.reopened b c x).core (c + side)).owner = some b ∧ ((s.reopened b c x).core (c + side)).tiles =
      (x.tiles.filter fun t => t.1 / 16 == side).map fun t => (t.1 % 16, t.2) := by
  unfold State.reopened
  rw [core_giveTiles]
  rcases hs with rfl | rfl
  · rw [if_neg (by omega), core_giveTiles, if_pos ⟨rfl, hx⟩]
    exact ⟨rfl, rfl⟩
  · rw [if_pos ⟨rfl, hx⟩]
    exact ⟨rfl, rfl⟩

theorem loadBlock_butCores {s t : State} (h : s.ButCores t) (x : Block) : t.loadBlock x = s.loadBlock x := by
  unfold State.ButCores at h
  have ha (n m : Nat) : t.areaAt n m = s.areaAt n m := by rw [h]; rfl
  have hm : t.mem = s.mem := by rw [h]
  rw [State.loadBlock, State.loadBlock, hm]
  simp only [ha]

/-- The record of a block that is back on a core (R361). -/
def State.restoredBlock (s : State) (c : Nat) (x : Block) : Block :=
  { s.loadBlock x with state := .resident, core := c, tiles := [], claims := 0, moved := false }

theorem exec_blockRestore {s : State} {b c : Nat} {x : Block} (hb : s.block? b = some x) (hst : x.state = .saved)
    (hc : s.restoreCore x = some c) :
    exec (.blockRestore b) s = .next (((s.reopened b c x).setBlock b (s.restoredBlock c x)).replayJournal b) := by
  have hl : s.restoredBlock c x = { (s.reopened b c x).loadBlock x with
      state := .resident, core := c, tiles := [], claims := 0, moved := false } := by
    rw [loadBlock_butCores (butCores_reopened s b c x), State.restoredBlock]
  rw [hl]
  change execBlockRestore b s = _
  rw [execBlockRestore]
  simp only [hb, hst, ne_eq, not_true_eq_false, if_false, hc]
  rfl

/-! ## The obligation -/

/-- Settles O40: a block's gangs, its tiles and its record, through retirement, save and restoration. -/
theorem blocksEndAndMove : Obligations.BlocksEndAndMove := by
  unfold Obligations.BlocksEndAndMove
  refine ⟨?_, ?_, ?_, ?_⟩
  · intro s s1 b x hb hst hn hu hd
    obtain ⟨h1, h2, h3⟩ := retireBlock_spec s1 b x .retired
    refine ⟨_, _, exec_blockRetire hb hst hn hu hd, h1.trans (block?_retiring s1 b x _), rfl, rfl, fun k g hg hgb => ?_, h3⟩
    exact gang?_none_of_still h2 ((gang?_retiring _ _ _ _ _).trans (gang?_freeBlockSlots (still_drainBlock hd) hg hgb))
  · intro s b x hb hst hc
    refine ⟨s.cancelUses b fun _ => true, ?_, fun c u y h => usesAt_cancelUses s b h⟩
    change execEvictionUseDeadline b s = _
    rw [execEvictionUseDeadline]
    simp only [hb, hst, beq_self_eq_true, hc, decide_true, Bool.and_self, if_true]
  · intro s s1 b x hb hst hg hr hu ht hd
    have hf := floor_drainBlock hd
    have hcore (c : Nat) : s1.core c = s.core c := by rw [State.core, State.core, cores_of_floor hf]
    obtain ⟨x1, hb1, hx1⟩ := Option.map_eq_some_iff.1 ((block?_of_floor hf b).trans (congrArg (Option.map Block.frame) hb))
    have hxc : x1.core = x.core := (congrArg Block.core hx1 : x1.frame.core = x.frame.core)
    have hcl (c : Nat) := claim_freeSlots (s1.gangsOf b) s1 c
    have how (c : Nat) : ((s1.freeSlots (s1.gangsOf b)).core c).owner = (s.core c).owner :=
      (congrArg Prod.fst (hcl c)).trans (by rw [State.claim, hcore])
    have hti (c : Nat) : ((s1.freeSlots (s1.gangsOf b)).core c).tiles = (s.core c).tiles :=
      (congrArg Prod.snd (hcl c)).trans (by rw [State.claim, hcore])
    refine ⟨_, _, exec_blockImageSave hb hst hg hr hu ht hd hb1, block?_recordSaved _ _ _, rfl, rfl,
      (congrArg Block.edview hx1 : x1.frame.edview = x.frame.edview),
      fun k g hk hkb => gang?_recordSaved _ _ (gang?_freeBlockSlots (still_drainBlock hd) hk hkb), ?_, fun i hi ho => ?_,
      fun c hc => owner_recordSaved _ _ _ ?_⟩
    · exact (claimsOf_zero s b x1).trans (by rw [hxc])
    · rw [tiles_savedBlock _ hi (by rw [how, hxc, ho]), hti, hxc]
    · rw [← hxc] at hc
      exact hc
  · intro s b c x hb hst hc
    have hg : (s.reopened b c x).gangs = s.gangs := by rw [butCores_reopened s b c x]
    have hm : (s.reopened b c x).mem = s.mem := by rw [butCores_reopened s b c x]
    refine ⟨_, _, exec_blockRestore hb hst hc, rfl, (State.block?_setBlock _ _ _ _).trans (if_pos rfl), hg,
      hm, core_reopened (.inl rfl), core_reopened (.inr rfl)⟩

end Sys2Proof.Machine
end

