-- ==== Sys2Proof/Proofs/LaunchReads.lean ====
section
/-! PROOFS. The distributor's reads and the validation of a launch leave the cores, the blocks, the distributor and the register writes
that wait as they are (R346, R348). -/

namespace Sys2Proof.Machine

theorem seat_readBytes (s : State) (pa n asid : Nat) : (s.readBytes pa n asid).1.seat = s.seat := by
  refine (foldl_keeps _ (fun x : State × Option Nat => x.1.seat) (fun x i => ?_) _ _).trans rfl
  split
  · rfl
  · dsimp only
    have h (lo n : Nat) := seat_agentRead x.1 lo n asid
    split <;> next e => exact (congrArg (fun r => State.seat (Prod.fst r)) e).symm.trans (h _ _)

theorem seat_distPiece (s : State) (dev off pa : Nat) : (s.distPiece dev off pa).1.seat = s.seat := by
  unfold State.distPiece
  split
  · rfl
  · split
    · rfl
    · cases h : s.sendRemote (4 * Config.numClusters) dev off (.read 32) (.piece pa) with
      | none => rfl
      | some t => exact seat_sendRemote h

theorem seat_distRead (s : State) (asid root va : Nat) : (s.distRead asid root va).1.seat = s.seat := by
  have h := seat_distTranslate s asid root va .read
  unfold State.distRead
  split
  · next e => rw [e] at h; exact h
  · next e => rw [e] at h; exact h
  · next e =>
    rw [e] at h
    split
    · exact h
    · exact (seat_distPiece _ _ _ _).trans h
  · next t _ pa _ e =>
    rw [e] at h
    have hr := seat_readBytes t pa 32 asid
    split <;> next e => rw [e] at hr; exact hr.trans h

theorem seat_distReads (s : State) (asid root va n : Nat) : (s.distReads asid root va n).1.seat = s.seat := by
  refine (foldl_keeps _ (fun x : State × DistRead (List Byte) => x.1.seat) (fun x i => ?_) _ _).trans rfl
  split
  · dsimp only
    have h (a : Nat) := seat_distRead x.1 asid root a
    split <;> next e => exact (congrArg (fun r => State.seat (Prod.fst r)) e).symm.trans (h _)
  · rfl

theorem seat_validateKernel (s : State) (l : Launch) : (s.validateKernel l).1.seat = s.seat := by
  have h : (if l.paramBytes = 0 then (s, .data []) else s.distReads l.asid l.root l.param l.paramBytes).1.seat = s.seat := by
    split
    · rfl
    · exact seat_distReads _ _ _ _ _
  unfold State.validateKernel
  split
  · rfl
  · split
    · next e => rw [e] at h; exact h
    · next e => rw [e] at h; exact h
    · next e =>
      rw [e] at h
      dsimp only
      split_ifs <;> exact h

theorem seat_validate (s : State) (l : Launch) : (s.validate l).1.seat = s.seat := by
  have h := seat_distReads s l.asid l.root l.kdesc 64
  unfold State.validate
  split
  · rfl
  · split
    · next e => rw [e] at h; exact h
    · next e => rw [e] at h; exact h
    · next e => rw [e] at h; exact (seat_validateKernel _ _).trans h

end Sys2Proof.Machine
end

