-- ==== Sys2Proof/Proofs/Admission.lean ====
section
/-! PROOFS. A launch is posted, a block is admitted, and a starved launch sets a guard (R38, R43, R345 to R348, R350 to R354). -/

namespace Sys2Proof.Machine

/-! ## Launches posted -/

theorem dist_autoRelease (s : State) (asid : Nat) : (s.autoRelease asid).dist = s.dist := by
  unfold State.autoRelease
  split
  · rfl
  · split <;> rfl

theorem commits_autoRelease (s : State) (asid : Nat) : (s.autoRelease asid).commits = s.commits := by
  unfold State.autoRelease
  split
  · rfl
  · split <;> rfl

theorem dist_of_seat {s t : State} (h : t.seat = s.seat) : t.dist = s.dist :=
  congrArg (fun x : Tab CoreState × Tab Block × Dist × List Commit => x.2.2.1) h

theorem commits_of_seat {s t : State} (h : t.seat = s.seat) : t.commits = s.commits :=
  congrArg (fun x : Tab CoreState × Tab Block × Dist × List Commit => x.2.2.2) h

/-- A launch with a record as it comes to a window (R346). -/
def Launch.posted (q rec : Nat) : Launch := {
  queue := q, record := BitVec.ofNat 512 rec, desc := 0, params := [], checked := false, nextBlock := 0, retired := 0
  status := none, lost := false, remote := false, stuck := none }

/-- The state in which a launch has joined its queue under the next identifier, with the one that comes after it (R346). -/
def State.queued (s : State) (q : Nat) (l : Launch) (next : W32) : State :=
  { s.autoRelease l.asid with dist := { (s.autoRelease l.asid).dist with
    nextId := next, launches := Tab.set (s.autoRelease l.asid).dist.launches s.dist.nextId.toNat l
    queues := Tab.set (s.autoRelease l.asid).dist.queues q (Tab.getD s.dist.queues q [] ++ [s.dist.nextId.toNat]) } }

theorem exec_launchPost {s : State} {c : Commit} {cs : List Commit} {q : Nat} (hc : s.commits = c :: cs)
    (hq : lwinQueue c.reg = some q) : exec .launchPost s = .next (State.postLaunch { s with commits := cs } q c.value) := by
  change execLaunchPost s = _
  rw [execLaunchPost]
  simp only [State.takeCommit, hc, hq, Option.isSome_some, if_true, Option.getD_some]

theorem postLaunch_eq (s : State) (q rec : Nat) : s.postLaunch q rec =
    if !s.host.ready.getLsbD 4 ∨ Config.queueDepth ≤ (Tab.getD s.dist.queues q []).length then s.countDropped q
    else (s.queued q (.posted q rec) ((s.autoRelease (Launch.posted q rec).asid).dist.nextId + 1)).checkLaunch := rfl

theorem postLaunch_queued {s : State} {q rec : Nat} (hr : s.host.ready.getLsbD 4 = true)
    (hw : (Tab.getD s.dist.queues q []).length < Config.queueDepth) :
    s.postLaunch q rec = (s.queued q (.posted q rec) (s.dist.nextId + 1)).checkLaunch := by
  have h : ¬((!s.host.ready.getLsbD 4) = true ∨ Config.queueDepth ≤ (Tab.getD s.dist.queues q []).length) := by
    rw [hr]
    rintro (h | h)
    · cases h
    · exact absurd hw (Nat.not_lt.2 h)
  rw [postLaunch_eq, if_neg h, dist_autoRelease]

theorem postLaunch_dropped {s : State} {q rec : Nat}
    (h : s.host.ready.getLsbD 4 = false ∨ Config.queueDepth ≤ (Tab.getD s.dist.queues q []).length) :
    s.postLaunch q rec = s.countDropped q := by
  rw [postLaunch_eq]
  exact if_pos (h.imp_left fun h => by rw [h]; rfl)

/-- Where the validation of every other launch is over, the one that has just been set is next (R348). -/
theorem find?_unchecked_set {t : Tab Launch} {k : Nat} {l : Launch} (ht : ∀ x ∈ t, x.2.checked = true ∨ x.2.status ≠ none)
    (hc : l.checked = false) (hs : l.status = none) :
    (Tab.set t k l).find? (fun x => !x.2.checked && x.2.status.isNone) = some (k, l) := by
  have hn : ∀ (p : Nat × Launch → Bool), (t.filter p).find? (fun x => !x.2.checked && x.2.status.isNone) = none := by
    intro p
    refine List.find?_eq_none.2 fun x hx => ?_
    rcases ht x (List.mem_filter.1 hx).1 with h | h
    · simp [h]
    · simp [h]
  rw [Tab.set, List.find?_append, hn, Option.none_or, List.find?_cons_of_pos (by simp [hc, hs])]

theorem unchecked_queued {s : State} {q rec : Nat} {next : W32}
    (h : ∀ x ∈ s.dist.launches, x.2.checked = true ∨ x.2.status ≠ none) :
    (s.queued q (.posted q rec) next).unchecked = some (s.dist.nextId.toNat, .posted q rec) := by
  refine find?_unchecked_set (t := (s.autoRelease _).dist.launches) ?_ rfl rfl
  rw [dist_autoRelease]
  exact h

/-- The state once the validation of a launch is over, before its end where it has failed. -/
def State.validated (s : State) (lid : Nat) (l : Launch) : State :=
  { s with dist := { s.dist with launches := Tab.set s.dist.launches lid { l with checked := true }, pieces := [] } }

theorem checkLaunch_good {s t : State} {lid : Nat} {l0 l : Launch} (hu : s.unchecked = some (lid, l0))
    (hv : s.validate l0 = (t, l, .good)) : s.checkLaunch = t.validated lid l := by
  rw [State.checkLaunch]
  simp only [hu, hv]
  rfl

theorem checkLaunch_later {s t : State} {lid : Nat} {l0 l : Launch} (hu : s.unchecked = some (lid, l0))
    (hv : s.validate l0 = (t, l, .later)) : s.checkLaunch = t := by
  rw [State.checkLaunch]
  simp only [hu, hv]

theorem checkLaunch_ends {s t : State} {lid : Nat} {l0 l : Launch} {st : LaunchStatus} (hu : s.unchecked = some (lid, l0))
    (hv : s.validate l0 = (t, l, .ends st)) : s.checkLaunch = (t.validated lid l).endLaunch lid st := by
  rw [State.checkLaunch]
  simp only [hu, hv]
  rfl

theorem launch?_validated (s : State) (lid : Nat) (l : Launch) : (s.validated lid l).launch? lid = some { l with checked := true } :=
  (tab_get?_set _ _ _ _).trans (if_pos rfl)

/-! ## Launches at the heads of their queues -/

theorem gangs_noteStuck (s : State) : s.noteStuck.gangs = s.gangs :=
  foldl_keeps _ State.gangs (by intro _ _; rfl) _ _

theorem launch?_of_head {s : State} {lid : Nat} {l : Launch} (h : (lid, l) ∈ s.heads) : s.launch? lid = some l := by
  obtain ⟨q, -, hq⟩ := List.mem_filterMap.1 h
  obtain ⟨k, -, hk⟩ := Option.bind_eq_some_iff.1 hq
  obtain ⟨l', hl', he⟩ := Option.map_eq_some_iff.1 hk
  obtain ⟨hl, -⟩ := Option.filter_eq_some_iff.1 hl'
  obtain ⟨rfl, rfl⟩ := Prod.mk.inj he
  exact hl

/-! ## Admission -/

/-- The record of a block as it is admitted (R38, R83, R84). -/
def Launch.block (l : Launch) (lid bidx core : Nat) (since : Nat) : Block := {
  lid := lid, bidx := bidx, ngang := l.gangCount, width := l.gwidth, vregs := l.vregs, pair := l.pair
  scratchSize := l.scratch, mailboxes := l.mailboxes, core := core, even := .fresh, odd := .fresh, edview := [], gangs := []
  endedGangs := [], state := .resident, since := since, barea := 0, tiles := [], claims := 0, moved := false, journal := [] }

/-- One gang of a block put into the lowest free slot of a core (R43). -/
def State.placeNew (s : State) (lid : Nat) (l : Launch) (blk i core : Nat) (p : Nat × List Nat) : State :=
  (s.setGang (s.freeSlotOf core) (s.newGang lid l blk i core p)).modBlock blk fun b =>
    { b with gangs := Tab.set b.gangs i (s.freeSlotOf core) }

/-- A block is put on a core, before its gangs are. -/
def State.broughtUp (s : State) (lid : Nat) (l : Launch) (bidx core : Nat) : State :=
  let u := (s.clearFor core l.asid).wakeCore core
  let v := if l.pair then (u.clearFor (core + 1) l.asid).wakeCore (core + 1) else u
  { v with blocks := Tab.set v.blocks (blockKey lid bidx) (l.block lid bidx core s.clock) }

theorem admitBlock_eq (s : State) (lid : Nat) (l : Launch) (bidx core : Nat) (p : List (Nat × Nat × List Nat)) :
    s.admitBlock lid l bidx core p = (p.mapIdx fun i x => (i, x)).foldl
      (fun s x => s.placeNew lid l (blockKey lid bidx) x.1 x.2.1 x.2.2) (s.broughtUp lid l bidx core) := rfl

theorem ready_keeps (s : State) (core asid : Nat) : ((s.clearFor core asid).wakeCore core).gangs = s.gangs ∧
    ((s.clearFor core asid).wakeCore core).dist = s.dist := by
  unfold State.wakeCore State.clearFor
  split <;> split <;> exact ⟨rfl, rfl⟩

theorem broughtUp_keeps (s : State) (lid : Nat) (l : Launch) (bidx core : Nat) :
    (s.broughtUp lid l bidx core).gangs = s.gangs ∧ (s.broughtUp lid l bidx core).dist = s.dist := by
  obtain ⟨hg, hd⟩ := ready_keeps s core l.asid
  obtain ⟨hg', hd'⟩ := ready_keeps ((s.clearFor core l.asid).wakeCore core) (core + 1) l.asid
  unfold State.broughtUp
  dsimp only
  split
  · exact ⟨hg'.trans hg, hd'.trans hd⟩
  · exact ⟨hg, hd⟩

theorem block?_broughtUp (s : State) (lid : Nat) (l : Launch) (bidx core : Nat) :
    (s.broughtUp lid l bidx core).block? (blockKey lid bidx) = some (l.block lid bidx core s.clock) :=
  (tab_get?_set _ _ _ _).trans (if_pos rfl)

theorem block?_placeNew (s : State) (lid : Nat) (l : Launch) (b i c : Nat) (p : Nat × List Nat) :
    (s.placeNew lid l b i c p).block? b = (s.block? b).map fun x => { x with gangs := Tab.set x.gangs i (s.freeSlotOf c) } := by
  rw [State.placeNew, State.block?_modBlock, if_pos rfl, State.block?_setGang]

/-- The gangs of a block placed change of its record only where they are. -/
theorem block?_placeNews (lid : Nat) (l : Launch) (b : Nat) (ps : List (Nat × Nat × Nat × List Nat)) {s : State} {x : Block}
    (h : s.block? b = some x) :
    ∃ gs, (ps.foldl (fun s x => s.placeNew lid l b x.1 x.2.1 x.2.2) s).block? b = some { x with gangs := gs } := by
  induction ps generalizing s x with
  | nil => exact ⟨x.gangs, h⟩
  | cons p ps ih =>
    have hp := (block?_placeNew s lid l b p.1 p.2.1 p.2.2).trans (congrArg (Option.map _) h)
    obtain ⟨gs, hg⟩ := ih hp
    exact ⟨gs, hg⟩

theorem dist_placeNews (lid : Nat) (l : Launch) (b : Nat) (ps : List (Nat × Nat × Nat × List Nat)) (s : State) :
    (ps.foldl (fun s x => s.placeNew lid l b x.1 x.2.1 x.2.2) s).dist = s.dist :=
  foldl_keeps _ State.dist (by intro _ _; rfl) _ _

theorem admitBlock_spec (s : State) (lid : Nat) (l : Launch) (bidx core : Nat) (p : List (Nat × Nat × List Nat)) :
    (s.admitBlock lid l bidx core p).dist = s.dist ∧
      ∃ gs, (s.admitBlock lid l bidx core p).block? (blockKey lid bidx) = some { l.block lid bidx core s.clock with gangs := gs } := by
  rw [admitBlock_eq]
  obtain ⟨-, hd⟩ := broughtUp_keeps s lid l bidx core
  obtain ⟨gs, hg⟩ := block?_placeNews lid l _ (p.mapIdx fun i x => (i, x)) (block?_broughtUp s lid l bidx core)
  exact ⟨(dist_placeNews _ _ _ _ _).trans hd, gs, hg⟩

/-- A block of one gang: the gang is in the lowest free slot of its core (R43). -/
theorem gang?_admitBlock_single (s : State) (lid : Nat) (l : Launch) (bidx core c : Nat) (x : Nat × List Nat) :
    ∃ u : State, (s.admitBlock lid l bidx core [(c, x)]).gang? (s.freeSlotOf c) = some (u.newGang lid l (blockKey lid bidx) 0 c x) := by
  obtain ⟨hg, -⟩ := broughtUp_keeps s lid l bidx core
  have hf : (s.broughtUp lid l bidx core).freeSlotOf c = s.freeSlotOf c := by rw [State.freeSlotOf, State.freeSlotOf, hg]
  refine ⟨s.broughtUp lid l bidx core, ?_⟩
  rw [admitBlock_eq, ← hf]
  exact (tab_get?_set _ _ _ _).trans (if_pos rfl)

theorem admitNext_spec {s : State} {lid : Nat} {l : Launch} (core : Nat) (p : List (Nat × Nat × List Nat)) (hl : s.launch? lid = some l) :
    (s.admitNext lid l core p).blocks = (s.admitBlock lid l l.nextBlock core p).blocks ∧
      (s.admitNext lid l core p).gangs = (s.admitBlock lid l l.nextBlock core p).gangs ∧
      ((s.admitNext lid l core p).launch? lid).map Launch.nextBlock = some (l.nextBlock + 1) := by
  obtain ⟨hd, -⟩ := admitBlock_spec s lid l l.nextBlock core p
  refine ⟨rfl, rfl, ?_⟩
  have h : (s.admitBlock lid l l.nextBlock core p).launch? lid = some l := (congrArg (fun d : Dist => Tab.get? d.launches lid) hd).trans hl
  have hm : (s.admitNext lid l core p).launch? lid =
      (((s.admitBlock lid l l.nextBlock core p).dropGuards lid l.nextBlock).modLaunch lid fun l' =>
        { l' with nextBlock := l.nextBlock + 1, stuck := none }).launch? lid := rfl
  rw [hm, launch?_modLaunch, if_pos rfl]
  exact congrArg (Option.map Launch.nextBlock) (congrArg (Option.map _) h)

/-- The launch first in turn is served where nothing goes before it and its next block fits (R350, R351). -/
theorem exec_distributorAdmit {s : State} {lid core : Nat} {l : Launch} {rest : List (Nat × Launch)} {p : List (Nat × Nat × List Nat)}
    (hh : s.noteStuck.heads = (lid, l) :: rest) (hp : l.progress ≠ 0) (hb : s.noteStuck.heldBack lid l = false)
    (hr : s.noteStuck.restoreFirst l.prio = false) (hf : s.noteStuck.placeFor lid l l.nextBlock = some (core, p)) :
    exec .distributorAdmit s = .next (s.noteStuck.admitNext lid l core p) := by
  have ha : s.noteStuck.admitHead lid l = some (s.noteStuck.admitNext lid l core p) := by
    rw [State.admitHead, if_neg hp, hf, Option.map_some]
  have hs : s.noteStuck.serve lid l = some (s.noteStuck.admitNext lid l core p) := by
    rw [State.serve]
    simp only [hb, hr, ha, Bool.and_false, Bool.or_false, Bool.false_eq_true, if_false]
  change execDistributorAdmit s = _
  rw [execDistributorAdmit, hh, State.serveHeads]
  simp only [hs]

/-! ## Guards -/

/-- The first starved launch sets a guard on its candidate core, or on the pair that begins with it (R354). -/
theorem exec_fragmentationGuard {s : State} {lid c : Nat} {l : Launch} (hh : s.noteStuck.heads.find? s.noteStuck.starved = some (lid, l))
    (hc : s.noteStuck.candidate l = some c) :
    exec .fragmentationGuard s = .next { s.noteStuck with dist := { s.noteStuck.dist with
      guards := s.noteStuck.dist.guards ++ (if l.pair then [c, c + 1] else [c]).map fun c => (lid, l.nextBlock, c) } } := by
  change execFragmentationGuard s = _
  rw [execFragmentationGuard]
  simp only [hh, hc]

/-! ## The obligation -/

/-- Settles O38: a launch through its queue, its validation and the admission of its next block, and the guard of a starved one. -/
theorem launchesAreAdmitted : Obligations.LaunchesAreAdmitted := by
  unfold Obligations.LaunchesAreAdmitted
  refine ⟨?_, ?_, ?_⟩
  · intro s c cs q hc hq n waiting l0 u s1
    have hx := exec_launchPost hc hq
    have hs1 : State.queued { s with commits := cs } q (.posted q c.value) (n + 1) = s1 := rfl
    have hs1d : s1.dist.nextId = n + 1 ∧ Tab.getD s1.dist.queues q [] = waiting ++ [n.toNat] ∧ s1.commits = cs :=
      ⟨rfl, by rw [Tab.getD]; exact congrArg (Option.getD · []) ((tab_get?_set _ _ _ _).trans (if_pos rfl)), commits_autoRelease _ _⟩
    obtain ⟨hid, hqs, hcs⟩ := hs1d
    refine ⟨fun hr hw hall => ?_, fun h => ?_⟩
    · have hp : exec .launchPost s = .next s1.checkLaunch := by
        rw [hx, postLaunch_queued (s := { s with commits := cs }) hr hw, hs1]
      have hu : s1.unchecked = some (n.toNat, l0) := unchecked_queued (s := { s with commits := cs }) hall
      refine ⟨fun s2 l hv => ?_, fun s2 l hv => ?_, fun hrec => ?_⟩
      · have hseat : s2.seat = s1.seat := by
          have := seat_validate s1 l0
          rwa [hv] at this
        refine ⟨s2.validated n.toNat l, by rw [hp, checkLaunch_good hu hv], (commits_of_seat hseat).trans hcs,
          launch?_validated _ _ _, ?_, ?_, rfl, rfl⟩
        · exact (congrArg Dist.nextId (dist_of_seat hseat)).trans hid
        · exact (congrArg (fun d : Dist => Tab.getD d.queues q []) (dist_of_seat hseat)).trans hqs
      · rw [hp, checkLaunch_later hu hv]
      · have hv : s1.validate l0 = (s1, l0, .ends .badRecord) := by
          rw [State.validate, hrec]
          rfl
        obtain ⟨he, -, -⟩ := endLaunch_spec .badRecord (launch?_validated s1 n.toNat l0)
        exact ⟨_, _, by rw [hp, checkLaunch_ends hu hv], he, rfl⟩
    · rw [hx, postLaunch_dropped (s := { s with commits := cs }) h]
      rfl
  · intro s lid core l rest p u hh hp hb hr hf
    have hl : u.launch? lid = some l := launch?_of_head (by rw [hh]; exact List.mem_cons_self)
    obtain ⟨hbs, hgs, hn⟩ := admitNext_spec core p hl
    obtain ⟨-, gs, hblk⟩ := admitBlock_spec u lid l l.nextBlock core p
    refine ⟨_, _, exec_distributorAdmit hh hp hb hr hf, (congrArg (Tab.get? · _) hbs).trans hblk, rfl, rfl, rfl, rfl, rfl, rfl, rfl, rfl,
      hn, fun c x hpc => ?_⟩
    subst hpc
    obtain ⟨v, hv⟩ := gang?_admitBlock_single u lid l l.nextBlock core c x
    have hf : u.freeSlotOf c = s.freeSlotOf c := by rw [State.freeSlotOf, State.freeSlotOf, gangs_noteStuck]
    rw [hf] at hv
    exact ⟨_, (congrArg (Tab.get? · _) hgs).trans hv, rfl, rfl, rfl, rfl, rfl, rfl⟩
  · intro s lid c l u hh hc
    rw [exec_fragmentationGuard hh hc]
    cases l.pair <;> rfl

end Sys2Proof.Machine
end

