-- ==== Sys2Proof/Proofs/RegisterReads.lean ====
section
/-! PROOFS. Registers read what was last written to them, but for v255, s63 and p7 (R45). -/

namespace Sys2Proof.Machine

/-- Nothing waits for v255 or a word above it (R45). -/
theorem emptyAt_from_v255 (t : Thread) (n : Nat) : t.emptyAt 255 n = false := by
  simp [Thread.emptyAt]

/-- Settles O1: each kind of register by its read after a write, the three that are fixed by what they read and are waited for as. -/
theorem registersReadBack : Obligations.RegistersReadBack := by
  unfold Obligations.RegistersReadBack
  refine ⟨readV_writeV, readS_writeS, readP_writeP, fun t x => ⟨rfl, rfl, rfl⟩, fun g l => ⟨emptyAt_from_v255 _ 1, ?_, rfl⟩, rfl, rfl, rfl⟩
  simp [Gang.notReady]

end Sys2Proof.Machine
end

