-- ==== Sys2Proof/Proofs/Reset.lean ====
section
/-! PROOFS. The state right after reset (R43, R310, R381, R387, R388, R406). -/

namespace Sys2Proof.Machine

/-- Every memory is empty at reset (log 2). -/
theorem canonical_reset : State.reset.Canonical where
  bytes := memory_wf_reset
  halves := List.forall_mem_nil _
  window := mem_wf_nil
  image := mem_wf_nil

/-- Settles O9: no cluster and no queue pair is listed at reset, so each stands at its fresh value; the other registers by the tables of
their records. -/
theorem resetIsAsStated : Obligations.ResetIsAsStated := by
  unfold Obligations.ResetIsAsStated
  have hporter : ∀ cl, State.reset.porter cl = .fresh := fun _ => rfl
  have hpair : ∀ q, State.reset.pair q = .fresh := fun _ => rfl
  refine ⟨⟨rfl, rfl, rfl, rfl, rfl, rfl, rfl, rfl, rfl, rfl, fun cl => ?_, fun q => ?_⟩, canonical_reset⟩
  · rw [hporter]
    exact ⟨rfl, rfl, rfl, rfl⟩
  · rw [hpair]
    exact ⟨rfl, rfl⟩

end Sys2Proof.Machine
end

