-- ==== Sys2Proof/Proofs/SpecialRegisters.lean ====
section
/-! PROOFS. SREAD and SWRITE (R50 to R57, R254): a special register read, one of a thread written, and one that the gang holds. -/

namespace Sys2Proof.Machine

/-- `CompletesOnGang` speaks of what an instruction reads, writes and waits for, not of its body. -/
theorem CompletesOnGang.ofBody {i : Instr} {f : Fields} {op : Op} {a : State → Nat → State → Eff → Prop}
    {body : State → Nat → State × Res} (h : CompletesOnGang i f { op with body := body } a) : CompletesOnGang i f op a := by
  intro s g hr hready ha
  obtain ⟨t, s1, E, he, hacc, hD⟩ := h s g (hr.cast rfl rfl rfl rfl rfl rfl rfl rfl) hready ha
  exact ⟨t, s1, E, he, hacc, hD.outer, hD.others, hD.gang, hD.entries⟩

/-- A change of one gang that leaves its threads, slices, width and rendezvous alone. -/
theorem keeps_modGang (s : State) (k : Nat) {f : Gang → Gang} (h : ∀ g, (f g).threads = g.threads ∧ (f g).slices = g.slices ∧
    (f g).width = g.width ∧ (f g).gathers = g.gathers ∧ (f g).collects = g.collects) : s.Keeps (s.modGang k f) := by
  refine ⟨rfl, fun j g hg => ?_⟩
  rw [State.gang?_modGang, hg, Option.map_some]
  split
  · exact ⟨f g, rfl, h g⟩
  · exact ⟨g, rfl, rfl, rfl, rfl, rfl, rfl⟩

/-- SWRITE as the frame runs it. -/
def opSwrite (f : Fields) : Op :=
  { Op.base (.swrite f) f fun s l =>
      let x := s.srcA (.swrite f) f l
      match f.d with
      | .sr r =>
        if gangHeld f.d then (s.modGang s.focus.key fun g =>
            g.swrite r s.clock (((lanesOf s.focus.lanes g.width).getLast?).getD 0) x, .ok Eff.none)
        else (s, .ok { Eff.none with dst := [(f.d, 1, x)] })
      | _ => (s, .ok Eff.none) with
    cls := .ending, gang := gangHeld f.d }

theorem exec_swrite (f : Fields) (s : State) : exec (.swrite f) s = runInstr f (opSwrite f) s := rfl

/-- A register of the thread: D takes the source (R51, R53). -/
theorem opSwrite_body_thread {f : Fields} {r : SReg} (hd : f.d = .sr r) (hh : gangHeld f.d = false) (s : State) (l : Nat) :
    (opSwrite f).body s l = (s, .ok { Eff.none with dst := [(f.d, 1, s.srcA (.swrite f) f l)] }) := by
  simp only [opSwrite, Op.base, hd] at hh ⊢
  rw [hh]
  rfl

/-- A register that the gang holds: the gang changes, no thread does (R52). -/
theorem opSwrite_body_gang {f : Fields} {r : SReg} (hd : f.d = .sr r) (hh : gangHeld f.d = true) (s : State) (l : Nat) :
    (opSwrite f).body s l = (s.modGang s.focus.key fun g =>
      g.swrite r s.clock (((lanesOf s.focus.lanes g.width).getLast?).getD 0) (s.srcA (.swrite f) f l), .ok Eff.none) := by
  simp only [opSwrite, Op.base, hd] at hh ⊢
  rw [if_pos hh]

theorem writeSR_keeps (g : Gang) (r : SReg) (x : Nat) : (g.writeSR r x).threads = g.threads ∧ (g.writeSR r x).slices = g.slices ∧
    (g.writeSR r x).width = g.width ∧ (g.writeSR r x).gathers = g.gathers ∧ (g.writeSR r x).collects = g.collects := by
  cases r <;> exact ⟨rfl, rfl, rfl, rfl, rfl⟩

theorem swrite_keeps (g : Gang) (r : SReg) (c top x : Nat) : (g.swrite r c top x).threads = g.threads ∧
    (g.swrite r c top x).slices = g.slices ∧ (g.swrite r c top x).width = g.width ∧ (g.swrite r c top x).gathers = g.gathers ∧
    (g.swrite r c top x).collects = g.collects := by
  unfold Gang.swrite
  split
  · exact ⟨rfl, rfl, rfl, rfl, rfl⟩
  · exact writeSR_keeps g r x

/-- The gang that `GangWrite` names is the one that SWRITE makes. -/
theorem gangWrite_eq {f : Fields} {o t : State} {l : Nat} {e : Eff} (h : GangWrite f o l t e) :
    e = Eff.none ∧ ∃ r, f.d = .sr r ∧ gangHeld f.d = true ∧ t = o.modGang o.focus.key fun g =>
      g.swrite r o.clock (((lanesOf o.focus.lanes g.width).getLast?).getD 0) (o.srcA (.swrite f) f l) := by
  obtain ⟨he, r, hd, hh, ht⟩ := h
  refine ⟨he, r, hd, hh, ht.trans (congrArg _ (funext fun g => ?_))⟩
  have hcond (top : Nat) : (g.width == 64 && g.swrites.any fun w => w.1 == r && w.2.1 == o.clock && decide (top < w.2.2)) = true ↔
      (g.width = 64 ∧ ∃ w ∈ g.swrites, w.1 = r ∧ w.2.1 = o.clock ∧ top < w.2.2) := by
    simp [and_assoc]
  unfold Gang.swrite
  refine if_congr (hcond _).symm rfl ?_
  cases r <;> rfl

theorem gangWrite_keeps {f : Fields} {o t : State} {l : Nat} {e : Eff} (h : GangWrite f o l t e) : o.Keeps t := by
  obtain ⟨-, r, -, -, rfl⟩ := gangWrite_eq h
  exact keeps_modGang _ _ fun g => swrite_keeps g r _ _ _

/-- Settles O26: SREAD by its body, SWRITE of a thread's register by the delivery of a pattern, and of a gang's by its body, which is
what `GangWrite` says. -/
theorem specialRegisterInstructionsComplete : Obligations.SpecialRegisterInstructionsComplete := by
  unfold Obligations.SpecialRegisterInstructionsComplete
  intro f
  refine ⟨?sread, fun hd s g h => ?thread, fun hh => ?gang⟩
  case sread =>
    exact completes_base _ (fun _ => rfl) (fun _ _ => rfl)
      (fun s l => dst_general (.sread f) f (dstWords (.sread f) f) (s.srcA (.sread f) f l) (List.cons_ne_nil _ _)) (fun _ _ => rfl) fun _ _ => rfl
  case thread =>
    obtain ⟨r, hr, hg⟩ : ∃ r, f.d = .sr r ∧ gangHeld f.d = false := by
      rcases hd with hd | hd
      · exact ⟨_, hd, by rw [hd]; rfl⟩
      · exact ⟨_, hd, by rw [hd]; rfl⟩
    have h' : (opSwrite f).Ready f s g := h.cast rfl rfl rfl rfl rfl hg rfl rfl
    have hD := delivers_pure h' (fun l => { Eff.none with dst := [(f.d, 1, (s.opened f (opSwrite f) g).srcA (.swrite f) f l)] })
      (fun l _ => opSwrite_body_thread hr hg _ l) rfl (fun _ _ _ _ => rfl) hg (fun _ => rfl)
      (fun l _ d hd' _ x => by
        rw [List.mem_singleton] at hd'
        subst hd'
        simp only [hr]
        rfl) (fun _ => rfl) fun _ _ => rfl
    have hleader : (opSwrite f).leader (s.goLanes f g) = (endFrame (.swrite f) f).leader (s.goLanes f g) := by
      funext l
      simp only [Op.leader, show (opSwrite f).gang = false from hg]
      rfl
    rw [hleader] at hD
    exact ⟨_, exec_swrite f s, hD.outer, hD.others, hD.gang⟩
  case gang =>
    refine CompletesOnGang.ofBody (body := (opSwrite f).body) ?_
    have hop : { { endFrame (.swrite f) f with gang := true } with body := (opSwrite f).body } = opSwrite f := by
      rw [← hh]
      rfl
    rw [hop]
    refine completes_on_gang (exec_swrite f) (fun o l t e h => ?_) (fun _ _ _ _ => gangWrite_keeps) (fun _ _ _ _ _ _ _ _ _ => rfl)
      fun _ _ _ e h => ?_
    · obtain ⟨rfl, r, hd, -, rfl⟩ := gangWrite_eq h
      exact opSwrite_body_gang hd hh o l
    · rw [(gangWrite_eq h).1]
      exact nofun

end Sys2Proof.Machine
end

