-- ==== Sys2Proof/Proofs/Latches.lean ====
section
/-! PROOFS. What an evaluation of event slots can do to gangs: EPEND bits are set, and nothing else of a gang changes (R144, R145,
R268). The writes at memory's homes that it may make do no more. -/

namespace Sys2Proof.Machine

/-! ## One gang -/

/-- The second gang is the first with more EPEND bits set, at most. -/
structure Gang.Latched (g h : Gang) : Prop where
  rest : { h with epend := g.epend } = g
  bits : ∀ i, g.epend.getLsbD i = true → h.epend.getLsbD i = true

theorem Gang.Latched.refl (g : Gang) : g.Latched g := ⟨rfl, fun _ h => h⟩

theorem Gang.Latched.trans {a b c : Gang} (h : a.Latched b) (i : b.Latched c) : a.Latched c :=
  ⟨(congrArg (fun g : Gang => { g with epend := a.epend }) i.rest).trans h.rest, fun j hj => i.bits j (h.bits j hj)⟩

/-- What a latch leaves alone is read off at once. -/
theorem Gang.Latched.eq {g h : Gang} (l : g.Latched h) : h = { g with epend := h.epend } :=
  (congrArg (fun x : Gang => { x with epend := h.epend }) l.rest)

theorem epend_latch (g : Gang) (n i : Nat) : (g.latch n).epend.getLsbD i =
    (g.epend.getLsbD i || (((Tab.getD g.slots n .fresh).armed).isSome && decide (n = i ∧ n < 16))) := by
  unfold Gang.latch
  split
  · next h => simp [h, BitVec.getLsbD_or, BitVec.getLsbD_twoPow, Bool.and_comm]
  · next h => simp [h]

theorem slots_latch (g : Gang) (n : Nat) : (g.latch n).slots = g.slots := by
  unfold Gang.latch
  split <;> rfl

theorem latched_latch (g : Gang) (n : Nat) : g.Latched (g.latch n) where
  rest := by unfold Gang.latch; split <;> rfl
  bits i hi := by rw [epend_latch, hi, Bool.true_or]

/-- The armed slots whose token satisfies a test are the ones latched (R145). -/
theorem epend_latchWhere (g : Gang) (f : Token → Bool) {i : Nat} (hi : i < 16) : (g.latchWhere f).epend.getLsbD i =
    (g.epend.getLsbD i || (((Tab.getD g.slots i .fresh).armed).any fun x => f x.1)) := by
  have hfold : ∀ (l : List Nat) (g : Gang), ((l.foldl (fun g n =>
      match (Tab.getD g.slots n .fresh).armed with
      | some (tk, _) => if f tk then g.latch n else g
      | none => g) g).epend.getLsbD i) =
      (g.epend.getLsbD i || (decide (i ∈ l) && (((Tab.getD g.slots i .fresh).armed).any fun x => f x.1))) := by
    intro l
    induction l with
    | nil => simp
    | cons n l ih =>
      intro g
      rw [List.foldl_cons, ih]
      cases ha : (Tab.getD g.slots n .fresh).armed with
      | none =>
        by_cases hn : i = n
        · subst hn; simp [ha]
        · simp [hn]
      | some x =>
        obtain ⟨tk, h⟩ := x
        by_cases hf : f tk = true
        · simp only [hf, if_true, epend_latch, slots_latch, ha]
          by_cases hn : i = n
          · subst hn; simp [hi, ha, hf]
          · simp [hn, show ¬ n = i from fun e => hn e.symm]
        · simp only [hf]
          by_cases hn : i = n
          · subst hn; simp [ha, hf]
          · simp [hn]
  exact (hfold (List.range 16) g).trans (by simp [hi])

/-! ## States -/

/-- Every gang of the first state is in the second, with more EPEND bits set at most. -/
def State.Latches (s t : State) : Prop := ∀ k g, s.gang? k = some g → ∃ h, t.gang? k = some h ∧ g.Latched h

theorem latches_same {s t : State} (h : t.gangs = s.gangs) : s.Latches t := fun k g hg =>
  ⟨g, by rw [State.gang?, h]; exact hg, .refl g⟩

theorem State.Latches.refl (s : State) : s.Latches s := latches_same rfl

theorem State.Latches.trans {a b c : State} (h : a.Latches b) (i : b.Latches c) : a.Latches c := fun k g hg => by
  obtain ⟨g1, h1, l1⟩ := h k g hg
  obtain ⟨g2, h2, l2⟩ := i k g1 h1
  exact ⟨g2, h2, l1.trans l2⟩

/-- A step after one that leaves gangs alone. -/
theorem latches_pre {s b t : State} (i : b.Latches t) (h : b.gangs = s.gangs) : s.Latches t := (latches_same h).trans i

theorem latches_foldl {α : Type} (f : State → α → State) (h : ∀ (s : State) (a : α), s.Latches (f s a)) (l : List α) (s : State) :
    s.Latches (l.foldl f s) := by
  induction l generalizing s with
  | nil => exact .refl s
  | cons a l ih => exact (h s a).trans (ih _)

theorem latches_modGang (s : State) (k : Nat) {f : Gang → Gang} (h : ∀ g : Gang, g.Latched (f g)) : s.Latches (s.modGang k f) := by
  intro j g hg
  rw [State.gang?_modGang, hg, Option.map_some]
  split
  · exact ⟨f g, rfl, h g⟩
  · exact ⟨g, rfl, .refl g⟩

/-! ## Writes at memory's homes, and the error log -/

theorem latches_fireMonitor (s : State) (m : Monitor) : s.Latches (s.fireMonitor m) :=
  latches_pre (latches_modGang _ _ fun g => latched_latch g _) rfl

theorem latches_monitorsAfter (s : State) (pa : Nat) : s.Latches (s.monitorsAfter pa) :=
  latches_foldl _ (fun s m => by
    split
    · exact latches_fireMonitor s m
    · exact .refl s) _ _

theorem latches_homeWrite (s : State) (pa n x : Nat) : s.Latches (s.homeWrite pa n x) :=
  latches_pre (latches_monitorsAfter _ pa) rfl

theorem gangs_sendChannel (s : State) (cl ch : Nat) (m : Message) : (s.sendChannel cl ch m).1.gangs = s.gangs := by
  unfold State.sendChannel
  dsimp only
  split <;> rfl

theorem latches_logError (s : State) (k : LogKind) (a b c d e : Nat) : s.Latches (s.logError k a b c d e) := by
  have hw (x y x' y' : Nat) : s.Latches ((s.homeWrite x 32 y).homeWrite x' 32 y') :=
    (latches_homeWrite s _ _ _).trans (latches_homeWrite _ _ _ _)
  unfold State.logError
  dsimp only
  split
  · exact latches_same rfl
  · split
    · exact (hw _ _ _ _).trans (latches_same rfl)
    · exact (hw _ _ _ _).trans (latches_same (gangs_sendChannel _ _ _ _))

/-! ## Scratchpads -/

theorem latches_scratchScan (s : State) (b : Nat) (o : Bool) (off n : Nat) (w : Bool) : s.Latches (s.scratchScan b o off n w).1 := by
  have hblock (x : Block) (k : LogKind) (a b' c d e : Nat) : s.Latches ((s.setBlock b x).logError k a b' c d e) :=
    latches_pre (latches_logError _ k _ _ _ _ _) rfl
  have hfired (c : Nat) (k : LogKind) (a b' d e f : Nat) : s.Latches ((s.injectionFired c).logError k a b' d e f) :=
    latches_pre (latches_logError _ k _ _ _ _ _) rfl
  unfold State.scratchScan
  split
  · exact .refl s
  · dsimp only
    split
    · exact hfired _ _ _ _ _ _ _
    · split
      · exact .refl s
      · split
        · exact .refl s
        · exact hblock _ _ _ _ _ _ _

theorem latches_readWord0 (s : State) (b : Nat) (o : Bool) (off : Nat) : s.Latches (s.readWord0 b o off).1 := by
  have h := latches_scratchScan s b o off 8 false
  unfold State.readWord0
  dsimp only
  split
  · exact h.trans (latches_same rfl)
  · exact h

theorem latches_mbxHeader (s : State) (b n : Nat) : s.Latches (s.mbxHeader b n).1 := by
  have h := latches_scratchScan s b false (mbxOff n) 16 false
  unfold State.mbxHeader
  dsimp only
  split
  · split <;> exact h.trans (latches_same rfl)
  · exact h

/-! ## Event slots -/

theorem latches_tokenHolds (s : State) (k n : Nat) (g : Gang) (tk : Token) : s.Latches (s.tokenHolds k n g tk).1 := by
  cases tk with
  | barrier o p =>
    unfold State.tokenHolds
    dsimp only
    split
    · exact latches_readWord0 _ _ _ _
    · exact .refl s
  | batch n => exact .refl s
  | mailbox n => exact latches_mbxHeader _ _ _
  | monitor =>
    unfold State.tokenHolds
    dsimp only
    split <;> exact .refl s
  | timer => exact .refl s

theorem latches_evaluateSlot (s : State) (k n : Nat) : s.Latches (s.evaluateSlot k n) := by
  unfold State.evaluateSlot
  split
  · exact .refl s
  · next g _ =>
    split
    · exact .refl s
    · next tk _ _ =>
      have h := latches_tokenHolds s k n g tk
      dsimp only
      split
      · exact h.trans (latches_modGang _ _ fun g => latched_latch g n)
      · exact h

/-- An evaluation of every armed slot of a gang sets EPEND bits at most (R145). -/
theorem latches_evaluateSlots (s : State) (k : Nat) : s.Latches (s.evaluateSlots k) :=
  latches_foldl _ (fun s n => latches_evaluateSlot s k n) _ _

end Sys2Proof.Machine
end

