-- ==== Sys2Proof/Proofs/Standing.lean ====
section
/-! PROOFS. The spec lemma of an issue whose bodies all stand at a rendezvous (R148, R287): what holds before the instruction's own
bookkeeping of arrivals. -/

namespace Sys2Proof.Machine

theorem runGroups_stand (op : Op) (s : State) (L : List (Nat × List Nat)) (h : ∀ l, op.body s l = (s, .stand)) :
    op.runGroups L s false = some (s, L.map fun x => (x.1, x.2, .stand)) := by
  induction L with
  | nil => rfl
  | cons x L ih =>
    obtain ⟨l, ms⟩ := x
    have hr : (Res.stand == Res.wait) = false := by decide
    simp only [Op.runGroups, Bool.false_and, Bool.false_eq_true, if_false, h, reduceCtorEq, hr, Bool.or_self, ih, Option.map_some,
      List.map_cons]

theorem faultsOf_stand (L : List (Nat × List Nat)) : faultsOf (L.map fun x => (x.1, x.2, .stand)) = [] := by
  simp [faultsOf, List.flatMap_map]

theorem completions_stand (L : List (Nat × List Nat)) : completions (L.map fun x => (x.1, x.2, .stand)) = [] := by
  simp [completions, List.flatMap_map]

theorem lanesWith_stand (L : List (Nat × List Nat)) :
    lanesWith (L.map fun x => (x.1, x.2, .stand)) .stand = L.flatMap (·.2) ∧
      lanesWith (L.map fun x => (x.1, x.2, .stand)) .wait = [] := by
  simp [lanesWith, List.flatMap_map]

/-- Bodies that all stand: no thread completes but those with a false guard. -/
theorem perform_stands {op : Op} {f : Fields} {s : State} {g : Gang} {go gf mask : List Nat} (seq since : Nat)
    (hg : s.gang? s.focus.key = some g) (hready : op.ready s go = true) (hbody : ∀ l, op.body s l = (s, .stand)) :
    s.perform f op go gf mask [] seq since = some ((op.post
      ((((s.setGang s.focus.key (op.gangAfter f s g g [] gf mask)).commitOrDrain s.focus.key
        (op.finishAll f s g g [] gf).2).modGang s.focus.key fun g =>
          if op.cls == .ending then g.modLanes (laneSet []) fun t => { t with solo := t.drain } else g))
      [] ((op.groups go).flatMap (·.2)) gf).settle s.focus.key) := by
  obtain ⟨hstand, hwait⟩ := lanesWith_stand (op.groups go)
  simp only [State.perform, hready, if_true, runGroups_stand op s _ hbody, Option.map_some, hg, faultsOf_stand, List.append_nil,
    List.filter_nil, ne_eq, not_true_eq_false, if_false, completions_stand, hwait, hstand, State.addWait, State.trapLanes,
    State.logSpoilt, List.foldl_nil, List.map_nil]

/-- What an issue whose bodies all stand leaves before its arrivals are counted: the threads of `gf`, whose guard is false, have
fallen through, and the others are as they were but for their drafts. -/
structure Stood (gf : List Nat) (s u : State) (g g' : Gang) : Prop where
  outer : u.outer = s.outer
  others : ∀ j, j ≠ s.focus.key → u.gang? j = s.gang? j
  gang : u.gang? s.focus.key = some g'
  quiet : g'.Quiet
  rest : g'.rest = g.rest
  threads : g'.threads.length = g.threads.length
  stay : ∀ l, l ∉ gf → (g'.thread l).regs = (g.thread l).regs
  fall : ∀ l ∈ gf, (g'.thread l).regs = ((g.thread l).control .fall).regs
  slices : ∀ i, (g'.slice i).regs = (g.slice i).regs

theorem Stood.focus {gf : List Nat} {s u : State} {g g' : Gang} (h : Stood gf s u g g') : u.focus = s.focus :=
  congrArg (fun o => o.2.2.2.1) h.outer

/-- No thread changes its state by standing, or by falling through (R26, R148). -/
theorem Stood.tstate {gf : List Nat} {s u : State} {g g' : Gang} (h : Stood gf s u g g') (l : Nat) :
    (g'.thread l).tstate = (g.thread l).tstate := by
  by_cases hl : l ∈ gf
  · have e : (g'.thread l).regs.tstate = ((g.thread l).control .fall).regs.tstate := by rw [h.fall l hl]
    exact e.trans (Thread.control_tstate _ _)
  · have e : (g'.thread l).regs.tstate = (g.thread l).regs.tstate := by rw [h.stay l hl]
    exact e

/-- Threads with a false guard fall through, and no other thread completes. -/
theorem gangAfter_stands (op : Op) (f : Fields) (s : State) (g : Gang) (gf mask : List Nat) (hgf : gf.Nodup)
    (hlt : ∀ l ∈ gf, l < g.threads.length) (hq : g.Quiet) :
    let a := op.gangAfter f s g g [] gf mask
    a.Quiet ∧ a.rest = g.rest ∧ a.threads.length = g.threads.length ∧
      (∀ l ∈ gf, (a.thread l).regs = ((g.thread l).control .fall).regs) ∧ (∀ l, l ∉ gf → a.thread l = g.thread l) ∧
      ∀ i, (a.slice i).regs = (g.slice i).regs := by
  intro a
  have hnone : ∀ x ∈ ([] : List (Nat × Bool × Eff)), False := fun x hx => List.not_mem_nil hx
  obtain ⟨hlen, -, hfall, hstay, hslice⟩ := gangAfter_holds (op := op) (f := f) (s := s) (g0 := g) (g1 := g) (oks := [])
    (gf := gf) (mask := mask) List.nodup_nil (fun x hx => (hnone x hx).elim) (fun x hx => (hnone x hx).elim) hgf hlt
    (fun x hx => (hnone x hx).elim)
  have hrest : a.rest = g.rest := rest_gangAfter op f s g g [] gf mask
  have hstay' : ∀ l, l ∉ gf → a.thread l = g.thread l := fun l hl => hstay l (fun x hx => (hnone x hx).elim) hl
  have htstate : ∀ l, (a.thread l).tstate = (g.thread l).tstate := fun l => by
    by_cases hl : l ∈ gf
    · exact (congrArg Thread.tstate (hfall l hl)).trans (falseThread_tstate _ _)
    · exact congrArg Thread.tstate (hstay' l hl)
  refine ⟨?_, hrest, hlen, fun l hl => ?_, hstay', hslice⟩
  · obtain ⟨hga, hco, l, hl, hne⟩ := hq
    exact ⟨(congrArg Gang.gathers hrest).trans hga, (congrArg Gang.collects hrest).trans hco, l, lt_of_lt_of_eq hl hlen.symm,
      fun e => hne ((htstate l).symm.trans e)⟩
  · exact (congrArg Thread.regs (hfall l hl)).trans (regs_falseThread f _ _ rfl)

theorem perform_stood {op : Op} {f : Fields} {s : State} {g : Gang} {go gf mask : List Nat} (seq since : Nat)
    (hg : s.gang? s.focus.key = some g) (hgf : gf.Nodup) (hlt : ∀ l ∈ gf, l < g.threads.length) (hq : g.Quiet)
    (hready : op.ready s go = true) (hbody : ∀ l, op.body s l = (s, .stand)) :
    ∃ u g', s.perform f op go gf mask [] seq since = some ((op.post u [] ((op.groups go).flatMap (·.2)) gf).settle s.focus.key) ∧
      Stood gf s u g g' := by
  obtain ⟨q, hrest, hlen, hfall, hstay, hslice⟩ := gangAfter_stands op f s g gf mask hgf hlt hq
  have hp := perform_stands (f := f) (gf := gf) (mask := mask) seq since hg hready hbody
  generalize op.gangAfter f s g g [] gf mask = a at q hrest hlen hfall hstay hslice hp
  obtain ⟨g', fin, q'⟩ := closing_before (k := s.focus.key) (s := s) op (op.finishAll f s g g [] gf).2 [] q
  refine ⟨_, g', hp, ?_⟩
  exact {
    outer := fin.outer
    others := fun j hj => by rw [fin.others j hj, State.gang?_setGang, if_neg hj]
    gang := fin.after
    quiet := q'
    rest := fin.gang.restEq.trans hrest
    threads := fin.gang.threads.trans hlen
    stay := fun l hl => (fin.gang.regs l).trans (congrArg Thread.regs (hstay l hl))
    fall := fun l hl => (fin.gang.regs l).trans (hfall l hl)
    slices := fun i => (fin.gang.sregs i).trans (hslice i) }

/-- What stands in the state of an instruction that has been fetched stands in the state before. -/
theorem Stood.opened {op : Op} {f : Fields} {gf : List Nat} {s u : State} {g g2 g' : Gang} (h : Stood gf (s.opened f op g) u g2 g')
    (sim : StateSim s.focus.key s (s.opened f op g) g g2) : Stood gf s u g g' := by
  have hfocus : (s.opened f op g).focus = s.focus := congrArg (fun o => o.2.2.2.1) sim.outer
  obtain ⟨houter, hothers, hgang, hquiet, hrest, hlen, hstay, hfall, hslices⟩ := h
  rw [hfocus] at hothers hgang
  exact {
    outer := houter.trans sim.outer
    others := fun j hj => (hothers j hj).trans (sim.others j hj)
    gang := hgang
    quiet := hquiet
    rest := hrest.trans sim.gang.restEq
    threads := hlen.trans sim.gang.threads
    stay := fun l hl => (hstay l hl).trans (sim.gang.regs l)
    fall := fun l hl => by rw [hfall l hl, regs_control, regs_control, sim.gang.regs l]
    slices := fun i => (hslices i).trans (sim.gang.sregs i) }

theorem runOp_stands {op : Op} {f : Fields} {s : State} {g : Gang} (h : op.Ready f s g)
    (hready : op.ready (s.opened f op g) (s.goLanes f g) = true) (hbody : ∀ o l, op.body o l = (o, .stand)) :
    ∃ u g', s.runOp f op = (op.post u [] ((op.groups (s.goLanes f g)).flatMap (·.2)) (s.gfLanes f g)).settle s.focus.key ∧
      Stood (s.gfLanes f g) s u g g' := by
  obtain ⟨g2, sim⟩ := opened_sim (op := op) (f := f) h.gang
  have hfocus : (s.opened f op g).focus = s.focus := congrArg (fun o => o.2.2.2.1) sim.outer
  have hgf : ∀ l ∈ s.gfLanes f g, l < g2.threads.length := fun l hl => by
    rw [sim.gang.threads, h.threads]
    exact lanesOf_lt (List.mem_filter.1 hl).1
  obtain ⟨u, g', hp, stood⟩ := perform_stood (op := op) (f := f) (gf := s.gfLanes f g) (mask := s.focusLanes g) s.seqCtr s.clock
    ((congrArg (fun x : Focus => (s.opened f op g).gang? x.key) hfocus).trans sim.after)
    ((lanesOf_nodup _ _).filter fun l => !(g.thread l).guard f) hgf (sim.gang.quiet h.quiet) hready (hbody _)
  exact ⟨u, g', by rw [runOp_ready h, hp, Option.getD_some, hfocus], stood.opened sim⟩

end Sys2Proof.Machine
end

