-- ==== Sys2Proof/Proofs/Delivery.lean ====
section
/-! PROOFS. The delivery of an event slot to the threads that wait at a WAITANY, and the deadline that latches TIMER slots (R145,
R148 to R150, R271). -/

namespace Sys2Proof.Machine

/-! ## Lane sets and masks -/

theorem lanesOf_laneSet (m : Lanes) (p : Nat → Bool) (w : Nat) (hw : w ≤ 64) :
    lanesOf (laneSet ((lanesOf m w).filter p)) w = (lanesOf m w).filter p := by
  unfold lanesOf
  rw [List.filter_filter]
  refine List.filter_congr fun l hl => ?_
  have hl' : l < w := List.mem_range.1 hl
  have h64 : l < 64 := by omega
  rw [getLsbD_laneSet, decide_eq_true h64, Bool.true_and]
  simp [hl']

theorem laneSet_congr {a b : List Nat} (h : ∀ l, l ∈ a ↔ l ∈ b) : laneSet a = laneSet b :=
  BitVec.eq_of_getLsbD_eq fun l _ => by rw [getLsbD_laneSet, getLsbD_laneSet, decide_eq_decide.2 (h l)]

/-- The groups of an instruction's bodies hold the executing LANEs and no others. -/
theorem laneSet_groups (op : Op) (go : List Nat) : laneSet ((op.groups go).flatMap (·.2)) = laneSet go :=
  laneSet_congr fun l => by
    refine ⟨fun h => ?_, fun h => ?_⟩
    · obtain ⟨x, hx, hl⟩ := List.mem_flatMap.1 h
      exact ((groups_mem op go x hx).2 l hl).1
    · obtain ⟨x, hx, hl⟩ := mem_groups op go l h
      exact List.mem_flatMap.2 ⟨x, hx, hl⟩

@[simp] theorem getLsbD_armed (g : Gang) (n : Nat) :
    g.armed.getLsbD n = (decide (n < 16) && ((Tab.getD g.slots n .fresh).armed).isSome) := by
  have hfold : ∀ (l : List Nat) (m : BitVec 16), (l.foldl (fun m n =>
      if ((Tab.getD g.slots n .fresh).armed).isSome then m ||| BitVec.twoPow 16 n else m) m).getLsbD n =
      (m.getLsbD n || (decide (n < 16 ∧ n ∈ l) && ((Tab.getD g.slots n .fresh).armed).isSome)) := by
    intro l
    induction l with
    | nil => simp
    | cons i l ih =>
      intro m
      rw [List.foldl_cons, ih]
      by_cases hi : i = n
      · subst hi
        split
        · next ha => by_cases h16 : i < 16 <;> simp [ha, h16]
        · next ha => simp [ha]
      · have hne : ¬ n = i := fun e => hi e.symm
        split <;> simp [BitVec.getLsbD_twoPow, hi, hne]
  unfold Gang.armed
  rw [hfold]
  by_cases h16 : n < 16 <;> simp [h16]

/-- The lowest bit of a mask of slots. -/
theorem lowest_slot {p : BitVec 16} {n : Nat} (h : p.getLsbD n = true) (hlow : ∀ i, i < n → p.getLsbD i = false) :
    p ≠ 0 ∧ (List.range 16).find? (fun i => p.getLsbD i) = some n := by
  refine ⟨fun e => ?_, ?_⟩
  · rw [e, BitVec.ofNat_eq_ofNat, BitVec.getLsbD_zero] at h
    exact Bool.false_ne_true h
  · rw [List.find?_range_eq_some]
    exact ⟨h, List.mem_range.2 (BitVec.lt_of_getLsbD h), fun i hi => by rw [hlow i hi]; rfl⟩

/-! ## A delivery -/

/-- The second gang is the first once slot `n` has been delivered to a group: evidence for `SlotDelivered`. -/
structure Gang.MovedTo (g g' : Gang) (n : Nat) (h : Pc) (group : Lanes) : Prop where
  evslot : g'.evslot = BitVec.ofNat 5 n
  epend : g'.epend = g.epend &&& ~~~(BitVec.twoPow 16 n)
  parked : g'.parked = none
  gathers : g'.gathers = g.gathers
  collects : g'.collects = g.collects
  threads : g'.threads.length = g.threads.length
  group : ∀ l, l < g.threads.length → group.getLsbD l = true →
    g'.thread l = { ((g.thread l).control (.jump h)).committed h with tstate := .live }

/-- A delivery where no resume is held (R149). -/
theorem deliverSlot_moves {s : State} {k n : Nat} {g : Gang} {tk : Token} {h : Pc} (group : Lanes) (pc : Pc)
    (hg : s.gang? k = some g) (ha : (Tab.getD g.slots n .fresh).armed = some (tk, h)) (hr : g.heldResumes = 0) :
    ∃ g', (s.deliverSlot k n group pc).gang? k = some g' ∧ g.MovedTo g' n h group := by
  let g1 := ({ g with heldResumes := g.heldResumes &&& ~~~(group ||| g.joiners) }.releaseResumes).modLanes (group ||| g.joiners)
    fun t => { (t.control (.jump h)).committed h with tstate := .live }
  let g2 := if h ≤ pc then
      ((List.range g.slices.length).filter fun i => group.extractLsb' (4 * i) 4 != 0 && 2 ≤ g.distinctPcs i).foldl
        Gang.countBackward g1
    else g1
  have h2 : ∀ {α : Type} (v : Gang → α), (∀ (x : Gang) y, v { x with slices := y } = v x) → v g2 = v g1 := fun v hv => by
    simp only [g2]
    split
    · exact foldl_keeps Gang.countBackward v (fun b a => hv b _) _ _
    · rfl
  let g3 : Gang := ({ g2 with
    epend := g.epend &&& ~~~(BitVec.twoPow 16 n), evslot := BitVec.ofNat 5 n, heldResumes := 0, parked := none
    stalled := 0 } : Gang).settleCounts
  have hthreads : g3.threads = g1.threads := h2 Gang.threads fun _ _ => rfl
  refine ⟨g3, ?_, ?_⟩
  · have hset : (s.setGang k g3).gang? k = some g3 := by simp
    unfold State.deliverSlot
    simp only [hg, ha]
    split
    · exact (gang?_acquireL1 _ _ _ _).trans hset
    · exact hset
  · exact {
      evslot := rfl
      epend := rfl
      parked := rfl
      gathers := h2 Gang.gathers fun _ _ => rfl
      collects := h2 Gang.collects fun _ _ => rfl
      threads := by rw [hthreads]; simp [g1, Gang.releaseResumes]
      group := fun l hl hm => by
        rw [Gang.thread_congr hthreads, Gang.thread_modLanes _ _ _ _ (by simpa [Gang.releaseResumes] using hl), BitVec.getLsbD_or, hm,
          Bool.true_or, if_pos rfl]
        have hkeep : ({ g with heldResumes := g.heldResumes &&& ~~~(group ||| g.joiners) }.releaseResumes).thread l = g.thread l := by
          unfold Gang.releaseResumes
          refine (Gang.thread_modLanes _ _ _ _ hl).trans ?_
          simp only [hr, BitVec.ofNat_eq_ofNat, BitVec.zero_and, BitVec.getLsbD_zero, Bool.false_eq_true, if_false]
        rw [hkeep] }

/-- Registers of a thread that has been delivered a slot. -/
theorem regs_delivered (t u : Thread) (h : Pc) (hr : t.regs = u.regs) :
    ({ (t.control (.jump h)).committed h with tstate := .live } : Thread).regs =
      { (u.control (.jump h)).regs with tstate := .live } := by
  have e : (t.control (.jump h)).regs = (u.control (.jump h)).regs := by rw [regs_control, regs_control, hr]
  rw [← e]
  rfl

/-- The evaluation of a group whose lowest pending slot may be delivered (R149). -/
theorem evalGroup_delivers {s : State} {k n : Nat} {g : Gang} {r : Gather} {h : Pc}
    (hg : (s.evaluateSlots k).gang? k = some g) (hn : (g.epend &&& g.emask &&& g.armed).getLsbD n = true)
    (hlow : ∀ i, i < n → (g.epend &&& g.emask &&& g.armed).getLsbD i = false) (hh : g.handler n = some h)
    (hhold : g.holdsToken n = false) (hr : g.heldResumes = 0) :
    ∃ g', (s.evalGroup k r).gang? k = some g' ∧ g.MovedTo g' n h r.waiting := by
  obtain ⟨hne, hfind⟩ := lowest_slot hn hlow
  obtain ⟨⟨tk, h'⟩, ha, rfl⟩ := Option.map_eq_some_iff.1 hh
  have he : s.evalGroup k r = (s.evaluateSlots k).deliverSlot k n r.waiting r.pc := by
    unfold State.evalGroup
    generalize s.evaluateSlots k = u at hg
    simp only [hg]
    rw [if_pos hne, hfind]
    simp only [hhold, Bool.false_eq_true, if_false]
  rw [he]
  exact deliverSlot_moves _ _ hg ha hr

/-! ## Settling a gang that nobody waits in -/

/-- What the dissolution of a matrix set leaves of a gang's slots (R286). -/
theorem dissolveSet_events (s : State) (core set k : Nat) :
    ((s.dissolveSet core set).gang? k).map (fun g => (g.threads, g.evslot, g.epend)) =
      (s.gang? k).map fun g => (g.threads, g.evslot, g.epend) := by
  unfold State.dissolveSet
  dsimp only
  refine (foldl_keeps _ (fun s : State => (s.gang? k).map fun g => (g.threads, g.evslot, g.epend)) (fun s j => ?_) _ _).trans rfl
  rw [State.gang?_modGang]
  split
  · rw [Option.map_map]
    rfl
  · rfl

/-- The end of a gang, if it ends, leaves its event registers. -/
theorem endGang_events {s : State} {k : Nat} {g : Gang} (hg : s.gang? k = some g) (hga : g.gathers = []) (hco : g.collects = [])
    (hpa : g.parked = none) :
    ∃ g', (s.endGang k).gang? k = some g' ∧ g'.gathers = [] ∧ g'.collects = [] ∧ g'.parked = none ∧
      (g'.threads, g'.evslot, g'.epend) = (g.threads, g.evslot, g.epend) := by
  unfold State.endGang
  simp only [hg]
  split
  · have hset : ∀ (u : State) (b : Option (Nat × Nat)), u.gang? k = some g →
        ∃ g2 : Gang, State.gang? (match b with | some b => u.dissolveSet (coreOf k) b.1 | none => u) k = some g2 ∧
          (g2.threads, g2.evslot, g2.epend) = (g.threads, g.evslot, g.epend) := by
      intro u b hu
      cases b with
      | none => exact ⟨g, hu, rfl⟩
      | some b =>
        have hd := dissolveSet_events u (coreOf k) b.1 k
        rw [hu, Option.map_some, Option.map_eq_some_iff] at hd
        exact hd
    obtain ⟨g2, h2, hev⟩ := hset { s with mem := { s.mem with monitors := s.mem.monitors.filter fun m => m.key ≠ k } } g.binding hg
    refine ⟨{ g2 with
      gstate := .ended, waits := [], cpys := [], gathers := [], parked := none, collects := [], issued := [], stalled := 0
      heldResumes := 0 }, ?_, rfl, rfl, rfl, hev⟩
    have hended := congrArg (Option.map fun g : Gang => { g with
      gstate := .ended, waits := [], cpys := [], gathers := [], parked := none, collects := [], issued := [], stalled := 0
      heldResumes := 0 }) h2
    split
    · rw [gang?_cancelGathering, State.gang?_modBlock, State.gang?_modGang, if_pos rfl]
      exact hended
    · rw [gang?_modLaunch, gang?_cancelGathering, State.gang?_modBlock, State.gang?_modGang, if_pos rfl]
      exact hended
  · exact ⟨g, hg, hga, hco, hpa, rfl⟩

theorem settleWaitany_idle {s : State} {k : Nat} {g : Gang} (hg : s.gang? k = some g) (h : g.gathers = []) : s.settleWaitany k = s := by
  simp only [State.settleWaitany, hg, h, List.find?_nil]
  split <;> rfl

theorem settleCollective_idle {s : State} {k : Nat} {g : Gang} (hg : s.gang? k = some g) (h : g.collects = []) :
    s.settleCollective k = s := by
  simp [State.settleCollective, hg, h]

/-- Settling a gang at no rendezvous leaves its threads and its event registers. -/
theorem settle_events {s : State} {k : Nat} {g : Gang} (hg : s.gang? k = some g) (hga : g.gathers = []) (hco : g.collects = [])
    (hpa : g.parked = none) :
    ∃ g', (s.settle k).gang? k = some g' ∧ g'.parked = none ∧
      (g'.threads, g'.evslot, g'.epend) = (g.threads, g.evslot, g.epend) := by
  obtain ⟨g1, h1, hga1, hco1, hpa1, hev⟩ := endGang_events hg hga hco hpa
  refine ⟨g1.settleCounts, ?_, hpa1, hev⟩
  simp only [State.settle, settleWaitany_idle h1 hga1, settleCollective_idle h1 hco1, State.gang?_modGang, h1, if_true,
    Option.map_some]

/-- What has been delivered is so for any state whose gang has the delivered gang's threads and event registers. -/
theorem SlotDelivered.ofMoved {t : State} {k n : Nat} {h : Pc} {g gu g1 g' : Gang} {group : Lanes} {ls : List Nat}
    (m : gu.MovedTo g1 n h group) (ht : t.gang? k = some g') (hpa : g'.parked = none)
    (hev : (g'.threads, g'.evslot, g'.epend) = (g1.threads, g1.evslot, g1.epend)) (hn : n < 16)
    (hls : ∀ l ∈ ls, l < gu.threads.length ∧ group.getLsbD l = true) (hregs : ∀ l ∈ ls, (gu.thread l).regs = (g.thread l).regs) :
    SlotDelivered t k n h g ls := by
  simp only [Prod.mk.injEq] at hev
  obtain ⟨hth, hevs, hep⟩ := hev
  refine ⟨g', ht, hevs.trans m.evslot, ?_, hpa, fun l hl => ?_⟩
  · rw [hep, m.epend]
    simp [hn]
  · have hthread : g'.thread l = _ := (Gang.thread_congr hth l).trans (m.group l (hls l hl).1 (hls l hl).2)
    rw [hthread]
    exact ⟨regs_delivered _ _ _ (hregs l hl), rfl⟩

/-! ## WAITANY -/

/-- WAITANY as the frame runs it (R148, R271). -/
def opWaitany (f : Fields) : Op :=
  { Op.base (.waitany f) f fun s _ => (s, .stand) with
    cls := .ending
    post := fun s _ standing gf =>
      s.modGang s.focus.key fun g =>
        let w := laneSet standing
        if g.parked.isSome then
          { g with
            stalled := g.stalled ||| w
            gathers := if gf = [] then g.gathers
              else arriveAt g.gathers ⟨s.focus.pc, .waitany f, s.focus.insn, 0, laneSet gf⟩ }
        else { g with gathers := arriveAt g.gathers ⟨s.focus.pc, .waitany f, s.focus.insn, w, laneSet gf⟩ } }

theorem exec_waitany (f : Fields) (s : State) : exec (.waitany f) s = .next (s.runOp f (opWaitany f)) := rfl

/-- The threads of the sub-gang as they arrive at a WAITANY (R148). -/
def State.arrival (s : State) (f : Fields) (g : Gang) : Gather :=
  ⟨s.focus.pc, .waitany f, s.focus.insn, laneSet (s.goLanes f g), laneSet (s.gfLanes f g)⟩

/-- The first threads to arrive at a WAITANY gather there. -/
theorem opWaitany_post {f : Fields} {s u : State} {g g' : Gang} (hu : Stood (s.gfLanes f g) s u g g') (hp : g.parked = none) :
    ((opWaitany f).post u [] (((opWaitany f).groups (s.goLanes f g)).flatMap (·.2)) (s.gfLanes f g)).gang? s.focus.key =
      some { g' with gathers := [s.arrival f g] } := by
  have hpark : g'.parked = none := (congrArg (fun x : Gang => x.parked) hu.rest).trans hp
  simp only [opWaitany, State.gang?_modGang, hu.focus, hu.gang, if_true, Option.map_some, hpark, Option.isSome_none,
    Bool.false_eq_true, if_false, hu.quiet.gathers, arriveAt, List.any_nil, List.nil_append]
  rw [laneSet_groups]
  rfl

/-- A rendezvous is complete once every live thread has arrived with a true or with a false guard. -/
theorem arrival_complete {f : Fields} {s : State} {g g' : Gang} (hw : g'.width = g.width) (hw64 : g.width ≤ 64)
    (hlive : ∀ l, l < g.width → (g'.thread l).tstate = .live → l ∈ s.focusLanes g) : g'.complete (s.arrival f g) = true := by
  rw [Gang.complete, beq_iff_eq]
  refine BitVec.eq_of_getLsbD_eq fun l h64 => ?_
  by_cases hl : l < g.width
  · by_cases hst : (g'.thread l).tstate = .live
    · have hm := hlive l hl hst
      have hseen : l ∈ s.goLanes f g ∨ l ∈ s.gfLanes f g := by
        cases hgd : (g.thread l).guard f with
        | true => exact .inl (List.mem_filter.2 ⟨hm, hgd⟩)
        | false => exact .inr (List.mem_filter.2 ⟨hm, by rw [hgd]; rfl⟩)
      have hbit : ((s.arrival f g).waiting ||| (s.arrival f g).passed).getLsbD l = true := by
        rw [BitVec.getLsbD_or, State.arrival, getLsbD_laneSet, getLsbD_laneSet]
        rcases hseen with h | h <;> simp [h64, h]
      rw [BitVec.getLsbD_and, BitVec.getLsbD_not, hbit]
      simp
    · rw [BitVec.getLsbD_and, getLsbD_live (hw ▸ hw64) (hw ▸ hl), beq_eq_false_iff_ne.2 hst]
      simp
  · have hnot : g'.live.getLsbD l = false := by rw [Gang.live, getLsbD_lanesWhere, hw]; simp [hl]
    rw [BitVec.getLsbD_and, hnot]
    simp

theorem maskOf_congr {g g' : Gang} (f : Fields) {l : Nat} (ht : (g'.thread l).regs = (g.thread l).regs)
    (hs : (g'.slice (l / 4)).regs = (g.slice (l / 4)).regs) : g'.maskOf f l = g.maskOf f l := by
  have hv : (g'.thread l).regs.v = (g.thread l).regs.v := by rw [ht]
  have hsl : (g'.slice (l / 4)).s = (g.slice (l / 4)).s := congrArg (·.1) hs
  have hread (i : Nat) : (g'.thread l).readV i = (g.thread l).readV i := by
    unfold Thread.readV
    rw [show (g'.thread l).v = (g.thread l).v from hv]
  unfold Gang.maskOf SliceState.readS
  simp only [hread, hsl]

/-- A gang whose rendezvous has met, with the mask that its lowest LANE gives. -/
def Gang.met (g : Gang) (f : Fields) (l : Nat) : Gang := { g with gathers := [], emask := g.maskOf f l }

/-- A complete rendezvous is evaluated (R148). -/
theorem settleWaitany_complete {s : State} {k l : Nat} {ls : List Nat} {g : Gang} {r : Gather} {f : Fields}
    (hg : s.gang? k = some g) (hp : g.parked = none) (hga : g.gathers = [r]) (hc : g.complete r = true)
    (hls : lanesOf r.waiting g.width = l :: ls) (hf : r.fields = some f) :
    s.settleWaitany k = (s.setGang k (g.met f l)).evalGroup k r := by
  have hfind : g.gathers.find? (fun r => g.complete r) = some r := by rw [hga, List.find?_cons, hc]
  have hfilter : (g.gathers.filter fun x => decide (x.pc ≠ r.pc)) = [] := by rw [hga]; simp
  unfold State.settleWaitany
  simp only [hg, hfind, hls, hf, hfilter]
  rw [if_neg (by rw [hp]; exact Bool.false_ne_true)]
  rfl

/-- Where the mask names one slot, which is armed and pending, an evaluation finds it and no other (R145, R149). -/
theorem met_latched {g gu : Gang} {f : Fields} {n l : Nat} (lat : (g.met f l).Latched gu) (hm : g.maskOf f l = BitVec.twoPow 16 n)
    (ha : ((Tab.getD g.slots n .fresh).armed).isSome = true) (hep : g.epend.getLsbD n = true) (i : Nat) :
    (gu.epend &&& gu.emask &&& gu.armed).getLsbD i = true ↔ i = n := by
  have hn : n < 16 := BitVec.lt_of_getLsbD hep
  have hmask : gu.emask = BitVec.twoPow 16 n := (congrArg Gang.emask lat.eq).trans hm
  have hslots : gu.slots = g.slots := (congrArg Gang.slots lat.eq).trans rfl
  rw [BitVec.getLsbD_and, BitVec.getLsbD_and, hmask, BitVec.getLsbD_twoPow, getLsbD_armed, hslots]
  refine ⟨fun hi => ?_, fun hi => ?_⟩
  · simp only [Bool.and_eq_true, decide_eq_true_eq] at hi
    exact hi.1.2.2.symm
  · subst hi
    rw [lat.bits i hep, ha]
    simp [hn]

/-- A complete rendezvous whose mask names one slot, which is armed and pending, is delivered it (R149). -/
theorem settleWaitany_delivers {s : State} {k n l : Nat} {ls : List Nat} {g : Gang} {r : Gather} {f : Fields} {h : Pc}
    (hg : s.gang? k = some g) (hp : g.parked = none) (hga : g.gathers = [r]) (hc : g.complete r = true)
    (hls : lanesOf r.waiting g.width = l :: ls) (hf : r.fields = some f) (hm : g.maskOf f l = BitVec.twoPow 16 n)
    (hh : g.handler n = some h) (hep : g.epend.getLsbD n = true) (hhold : g.holdsToken n = false) (hr : g.heldResumes = 0) :
    ∃ gu g' : Gang, (s.settleWaitany k).gang? k = some g' ∧ gu.MovedTo g' n h r.waiting ∧ gu.threads = g.threads ∧
      gu.gathers = [] ∧ gu.collects = g.collects := by
  obtain ⟨gu, hu, lat⟩ := latches_evaluateSlots (s.setGang k (g.met f l)) k k (g.met f l) (by simp)
  obtain ⟨x, hx, -⟩ := Option.map_eq_some_iff.1 hh
  have hbit := met_latched lat hm (Option.isSome_of_mem hx) hep
  have hh' : gu.handler n = some h := (congrArg (fun x : Gang => x.handler n) lat.eq).trans hh
  have hhold' : gu.holdsToken n = false := (congrArg (fun x : Gang => x.holdsToken n) lat.eq).trans hhold
  have hr' : gu.heldResumes = 0 := (congrArg Gang.heldResumes lat.eq).trans hr
  obtain ⟨g', h', moved⟩ := evalGroup_delivers (r := r) hu ((hbit n).2 rfl)
    (fun i hi => Bool.eq_false_iff.2 fun e => hi.ne ((hbit i).1 e)) hh' hhold' hr'
  refine ⟨gu, g', ?_, moved, (congrArg Gang.threads lat.eq).trans rfl, (congrArg Gang.gathers lat.eq).trans rfl,
    (congrArg Gang.collects lat.eq).trans rfl⟩
  rw [settleWaitany_complete hg hp hga hc hls hf]
  exact h'

/-- Settling a gang whose rendezvous is complete and delivered. -/
theorem settle_delivers {s : State} {k : Nat} {g g1 : Gang} (hg : s.gang? k = some g) (hne : g.allEnded = false)
    (h1 : (s.settleWaitany k).gang? k = some g1) (hga : g1.gathers = []) (hco : g1.collects = []) :
    (s.settle k).gang? k = some g1.settleCounts := by
  have hend : s.endGang k = s := by simp [State.endGang, hg, hne]
  simp only [State.settle, hend, settleWaitany_idle h1 hga, settleCollective_idle h1 hco, State.gang?_modGang, h1, if_true,
    Option.map_some]

/-- Every live thread arrives at a WAITANY, and the group is delivered the slot that its mask names (R148, R149, R271). -/
theorem waitany_delivers {f : Fields} {s : State} {g : Gang} {n : Nat} {h : Pc} (hr : (opWaitany f).Ready f s g)
    (hp : g.parked = none) (hheld : g.heldResumes = 0) (hgo : s.goLanes f g ≠ [])
    (hall : ∀ l, l < g.width → (g.thread l).tstate = .live → l ∈ s.focusLanes g) (hw : g.width ≤ 64)
    (hm : g.maskOf f ((s.goLanes f g).headD 0) = BitVec.twoPow 16 n) (hh : g.handler n = some h)
    (hep : g.epend.getLsbD n = true) (hhold : g.holdsToken n = false) :
    SlotDelivered (s.runOp f (opWaitany f)) s.focus.key n h g (s.goLanes f g) := by
  obtain ⟨u, g', hrun, st⟩ := runOp_stands hr rfl fun _ _ => rfl
  have hrest {α : Type} (v : Gang → α) (hv : ∀ x : Gang, v x.rest = v x) : v g' = v g := by rw [← hv, st.rest, hv]
  have hwidth : g'.width = g.width := hrest Gang.width fun _ => rfl
  have hlane : ∀ l ∈ s.goLanes f g, l < g.width ∧ l ∉ s.gfLanes f g := fun l hl => by
    obtain ⟨hl1, hl2⟩ := List.mem_filter.1 hl
    exact ⟨lanesOf_lt hl1, fun hf => by simpa [hl2] using (List.mem_filter.1 hf).2⟩
  obtain ⟨l, ls, hls⟩ := List.exists_cons_of_ne_nil hgo
  have hl := hlane l (by rw [hls]; exact List.mem_cons_self)
  let g1 : Gang := { g' with gathers := [s.arrival f g] }
  have hwait : lanesOf (s.arrival f g).waiting g1.width = l :: ls := by
    rw [← hls]
    exact (congrArg (lanesOf _) hwidth).trans (lanesOf_laneSet s.focus.lanes (fun l => (g.thread l).guard f) g.width hw)
  have hmask : g1.maskOf f l = BitVec.twoPow 16 n := by
    rw [hls] at hm
    exact (maskOf_congr f (st.stay l hl.2) (st.slices (l / 4))).trans hm
  have hcomplete : g1.complete (s.arrival f g) = true :=
    arrival_complete (g' := g1) hwidth hw fun j hj hst => hall j hj ((st.tstate j).symm.trans hst)
  have hpost := opWaitany_post st hp
  obtain ⟨gu, g2, h2, moved, hth, hga, hco⟩ := settleWaitany_delivers (f := f) hpost ((hrest Gang.parked fun _ => rfl).trans hp) rfl
    hcomplete hwait rfl hmask ((hrest (Gang.handler · n) fun _ => rfl).trans hh)
    ((hrest (fun x => x.epend.getLsbD n) fun _ => rfl).trans hep) ((hrest (Gang.holdsToken · n) fun _ => rfl).trans hhold)
    ((hrest Gang.heldResumes fun _ => rfl).trans hheld)
  have hlen : gu.threads.length = g.width := by rw [hth]; exact st.threads.trans hr.threads
  have hset := settle_delivers hpost st.quiet.notEnded h2 (moved.gathers.trans hga) (moved.collects.trans (hco.trans st.quiet.collects))
  rw [hrun]
  refine SlotDelivered.ofMoved moved hset moved.parked rfl (BitVec.lt_of_getLsbD hep) (fun j hj => ⟨hlen ▸ (hlane j hj).1, ?_⟩)
    fun j hj => (congrArg Thread.regs (Gang.thread_congr hth j)).trans (st.stay j (hlane j hj).2)
  have hj64 : j < 64 := lt_of_lt_of_le (hlane j hj).1 hw
  simp [State.arrival, hj64, hj]

/-! ## A parked group, and the deadline -/

/-- A parked group is delivered the lowest of its slots that pend (R149, R150). -/
theorem waitanyDelivery_delivers {s : State} {k n : Nat} {g gu : Gang} {r : Gather} {h : Pc} (hg : s.gang? k = some g)
    (hlen : g.threads.length = g.width) (hp : g.parked = some r) (hst : g.gstate = .running)
    (hpend : g.epend &&& g.emask &&& g.armed ≠ 0) (hheld : g.heldResumes = 0) (hga : g.gathers = []) (hco : g.collects = [])
    (hu : (s.evaluateSlots k).gang? k = some gu) (hn : (gu.epend &&& gu.emask &&& gu.armed).getLsbD n = true)
    (hlow : ∀ i, i < n → (gu.epend &&& gu.emask &&& gu.armed).getLsbD i = false) (hh : g.handler n = some h)
    (hhold : g.holdsToken n = false) :
    ∃ t, exec (.waitanyDelivery k) s = .next t ∧ SlotDelivered t k n h g (lanesOf r.waiting g.width) := by
  have hexec : exec (.waitanyDelivery k) s = .next ((s.evalGroup k r).settle k) := by
    change execWaitanyDelivery k s = _
    simp only [execWaitanyDelivery, hg, hp]
    rw [if_pos ⟨hst, hpend⟩]
  obtain ⟨gx, hx, lat⟩ := latches_evaluateSlots s k k g hg
  obtain rfl : gu = gx := Option.some.inj (hu.symm.trans hx)
  obtain ⟨g1, h1, moved⟩ := evalGroup_delivers (r := r) hu hn hlow ((congrArg (Gang.handler · n) lat.eq).trans hh)
    ((congrArg (Gang.holdsToken · n) lat.eq).trans hhold) ((congrArg Gang.heldResumes lat.eq).trans hheld)
  have hth : gu.threads = g.threads := (congrArg Gang.threads lat.eq).trans rfl
  obtain ⟨g2, h2, hpa, hev⟩ := settle_events h1 (moved.gathers.trans ((congrArg Gang.gathers lat.eq).trans hga))
    (moved.collects.trans ((congrArg Gang.collects lat.eq).trans hco)) moved.parked
  refine ⟨_, hexec, .ofMoved moved h2 hpa hev ?_ (fun l hl => ?_) fun l _ => congrArg Thread.regs (Gang.thread_congr hth l)⟩
  · exact BitVec.lt_of_getLsbD hn
  · obtain ⟨hw, hb⟩ := mem_lanesOf.1 hl
    exact ⟨by rw [hth, hlen]; exact hw, hb⟩

/-- TIMER slots latch at the deadline, and nothing else of the gang changes (R55, R145). -/
theorem deadlineExpire_latches {s : State} {k : Nat} {g : Gang} (hg : s.gang? k = some g) (hd : g.deadline ≠ 0)
    (hc : g.deadline.toNat ≤ s.clock) (hp : g.parked = none) :
    exec (.deadlineExpire k) s = .next (s.modGang k fun g => g.latchWhere fun tk => tk == .timer) := by
  have hexp : s.expired g = true := by rw [State.expired, bne_iff_ne.2 hd, decide_eq_true hc, Bool.and_self]
  change execDeadlineExpire k s = _
  simp only [execDeadlineExpire, hg, hexp, if_true, hp]

/-- Settles O29: a rendezvous and a parked group by the evaluation that delivers the one lowest slot, a deadline by the slots that it
latches. -/
theorem groupsAreDelivered : Obligations.GroupsAreDelivered := by
  unfold Obligations.GroupsAreDelivered
  refine ⟨?waitany, ?parked, ?deadline⟩
  case waitany =>
    intro f s g m tk h hr hp hheld _ hgo _ hall hw _ hm ha hep hhold
    exact ⟨_, exec_waitany f s, waitany_delivers (hr.cast rfl rfl rfl rfl rfl rfl rfl rfl) hp hheld hgo hall hw hm
      (by rw [Gang.handler, ha]; rfl) hep hhold⟩
  case parked =>
    intro s k n g gu r h hg hlen _ hp hst hpend hheld hga hco hu hn hlow hh hhold
    exact waitanyDelivery_delivers hg hlen hp hst hpend hheld hga hco hu hn hlow hh hhold
  case deadline =>
    intro s k g hg hd hc hp
    refine ⟨_, g.latchWhere fun tk => tk == .timer, deadlineExpire_latches hg hd hc hp, by simp [hg], deaf_latchWhere _ _, ?_, ?_, ?_⟩
    · rintro n hn ⟨h, ha⟩
      rw [epend_latchWhere _ _ hn, ha]
      simp
    · intro n hn hnot
      rw [epend_latchWhere _ _ hn]
      cases ha : (Tab.getD g.slots n .fresh).armed with
      | none => simp
      | some x =>
        obtain ⟨tk, h⟩ := x
        have htk : tk ≠ .timer := fun e => hnot ⟨h, by rw [ha, e]⟩
        simp [htk]
    · intro j hj
      rw [State.gang?_modGang, if_neg hj]

end Sys2Proof.Machine
end

