-- ==== Sys2Proof/Proofs/Producers.lean ====
section
/-! PROOFS. Producers that write back, and held drafts that commit (R46, R102, R119, R139, R143, R189, R241). -/

namespace Sys2Proof.Machine

/-! ## Registers written -/

/-- A fold of steps each of which commutes with a map. -/
theorem foldl_commutes {α β : Type} (f : β → α → β) (m : β → β) (h : ∀ b a, f (m b) a = m (f b a)) (l : List α) (b : β) :
    l.foldl f (m b) = m (l.foldl f b) := by
  induction l generalizing b with
  | nil => rfl
  | cons a l ih => rw [List.foldl_cons, List.foldl_cons, h, ih]

/-- A write of v registers reads neither the full/empty bits nor the producers. -/
theorem writeVs_interlock (t : Thread) (i n x : Nat) (p : List Producer) (e : BitVec 256) :
    ({ t with pend := p, empty := e } : Thread).writeVs i n x = { t.writeVs i n x with pend := p, empty := e } :=
  foldl_commutes _ (fun t : Thread => { t with pend := p, empty := e }) (fun t j => by unfold Thread.writeV; split <;> rfl) _ _

/-- A write of v registers changes them and their error marks (R404). -/
theorem writeVs_rest (t : Thread) (i n x : Nat) :
    t.writeVs i n x = { t with v := (t.writeVs i n x).v, bad := (t.writeVs i n x).bad } := by
  have h : { t.writeVs i n x with v := t.v, bad := t.bad } = t :=
    foldl_keeps _ (fun u : Thread => { u with v := t.v, bad := t.bad }) (fun u j => by unfold Thread.writeV; split <;> rfl) _ _
  exact congrArg (fun u : Thread => { u with v := (t.writeVs i n x).v, bad := (t.writeVs i n x).bad }) h

theorem writeP_rest (t u : Thread) (i : Nat) (b : Bool) (hp : t.p = u.p) (hb : t.badP = u.badP) :
    t.writeP i b = { t with p := (u.writeP i b).p, badP := (u.writeP i b).badP } := by
  unfold Thread.writeP
  split
  · rw [← hp, ← hb]
  · rw [hp, hb]

/-- A write of s registers reads neither the producers nor whether the slice waits. -/
theorem writeSs_interlock (x : SliceState) (i n v : Nat) (p : List Producer) (b : Bool) :
    ({ x with blocked := b, pend := p } : SliceState).writeSs i n v = { x.writeSs i n v with blocked := b, pend := p } :=
  foldl_commutes _ (fun x : SliceState => { x with blocked := b, pend := p }) (fun x j => by unfold SliceState.writeS; split <;> rfl) _ _

/-! ## PRODUCER_WRITEBACK -/

/-- A thread once its producer `q` has written back (R46, R241). -/
def Thread.wroteBack (x : Thread) (q : Producer) : Thread :=
  { x with
    v := (x.writeVs q.reg q.words q.value).v, bad := (x.writeVs q.reg q.words q.value).bad
    empty := (x.setFull q.reg q.words).empty, pend := x.pend.filter fun y => y.id ≠ q.id
    p := ((q.pred.map fun y => x.writeP y.1 y.2).getD x).p, badP := ((q.pred.map fun y => x.writeP y.1 y.2).getD x).badP
    fstat := x.fstat ||| q.flags }

/-- The order in which the step marks, writes and joins does not matter. -/
theorem wroteBack_eq (x : Thread) (q : Producer) :
    let t1 := ({ x with pend := x.pend.filter fun y => y.id ≠ q.id }.setFull q.reg q.words).writeVs q.reg q.words q.value
    let t2 := match q.pred with | some (p, b) => t1.writeP p b | none => t1
    { t2 with fstat := t2.fstat ||| q.flags } = x.wroteBack q := by
  intro t1 t2
  have h1 : t1 = { x with
      v := (x.writeVs q.reg q.words q.value).v, bad := (x.writeVs q.reg q.words q.value).bad
      empty := (x.setFull q.reg q.words).empty, pend := x.pend.filter fun y => y.id ≠ q.id } :=
    (writeVs_interlock x q.reg q.words q.value _ _).trans
      (congrArg (fun t : Thread => { t with pend := x.pend.filter fun y => y.id ≠ q.id, empty := (x.setFull q.reg q.words).empty })
        (writeVs_rest x q.reg q.words q.value))
  have h2 : t2 = { t1 with
      p := ((q.pred.map fun y => x.writeP y.1 y.2).getD x).p, badP := ((q.pred.map fun y => x.writeP y.1 y.2).getD x).badP } := by
    simp only [t2]
    cases q.pred with
    | none => rw [h1]; rfl
    | some y => exact writeP_rest t1 x y.1 y.2 (by rw [h1]) (by rw [h1])
  rw [h2, h1]
  rfl

/-- What the step makes of a gang. -/
def Gang.writeback (g : Gang) (lane id : Nat) : Gang :=
  let t := g.thread lane
  match t.pend.find? fun q => q.id = id && q.ready with
  | some q =>
    let t1 := ({ t with pend := t.pend.filter fun x => x.id ≠ id }.setFull q.reg q.words).writeVs q.reg q.words q.value
    let t2 := match q.pred with | some (p, b) => t1.writeP p b | none => t1
    (g.setThread lane { t2 with fstat := t2.fstat ||| q.flags }).modSlice (lane / 4) fun x => { x with blocked := false }
  | none =>
    let x := g.slice (lane / 4)
    match x.pend.find? fun q => q.id = id && q.ready with
    | some q =>
      let x1 := { x with blocked := false, pend := x.pend.filter fun y => y.id ≠ id }.writeSs q.reg q.words q.value
      (g.setSlice (lane / 4) x1).modLanes q.members fun t => { t with fstat := t.fstat ||| q.flags }
    | none => g

theorem exec_producerWriteback (k lane id : Nat) (s : State) :
    exec (.producerWriteback k lane id) s = .next (s.modGang k fun g => g.writeback lane id) := rfl

theorem writeback_thread {g : Gang} {l : Nat} {q : Producer}
    (hq : (g.thread l).pend.find? (fun y => y.id = q.id && y.ready) = some q) :
    g.writeback l q.id = (g.setThread l ((g.thread l).wroteBack q)).modSlice (l / 4) fun x => { x with blocked := false } := by
  unfold Gang.writeback
  simp only [hq]
  exact congrArg (fun t => (g.setThread l t).modSlice (l / 4) fun x => { x with blocked := false }) (wroteBack_eq _ _)

theorem writeback_slice {g : Gang} {l : Nat} {q : Producer}
    (hn : (g.thread l).pend.find? (fun y => y.id = q.id && y.ready) = none)
    (hq : (g.slice (l / 4)).pend.find? (fun y => y.id = q.id && y.ready) = some q) :
    g.writeback l q.id = (g.setSlice (l / 4) { (g.slice (l / 4)).writeSs q.reg q.words q.value with
      blocked := false, pend := (g.slice (l / 4)).pend.filter fun y => y.id ≠ q.id }).modLanes q.members
        fun t => { t with fstat := t.fstat ||| q.flags } := by
  unfold Gang.writeback
  simp only [hn, hq]
  rw [writeSs_interlock]

/-- A slice that waits waits no longer; one that the gang does not have never did. -/
theorem slice_unblocked (g : Gang) (n i : Nat) : (g.modSlice n fun x => { x with blocked := false }).slice i =
    if i = n then { g.slice i with blocked := false } else g.slice i := by
  rw [Gang.slice_modSlice]
  by_cases hi : i = n
  · subst hi
    by_cases hlen : i < g.slices.length
    · simp [hlen]
    · have hnone : g.slice i = .fresh := by
        rw [Gang.slice, List.getD_eq_getElem?_getD, List.getElem?_eq_none (Nat.le_of_not_lt hlen), Option.getD_none]
      simp [hlen, hnone, SliceState.fresh]
  · simp [hi]

/-- A producer of a thread writes back (R46, R241). -/
theorem writes_back_thread {s : State} {k l : Nat} {g : Gang} {q : Producer} (hg : s.gang? k = some g) (hl : l < g.threads.length)
    (hq : (g.thread l).pend.find? (fun y => y.id = q.id && y.ready) = some q) :
    ∃ t g', exec (.producerWriteback k l q.id) s = .next t ∧ OnlyGang s t k g' ∧
      { g' with threads := g.threads, slices := g.slices } = g ∧ (∀ j, j ≠ l → g'.thread j = g.thread j) ∧
      (∀ i, g'.slice i = if i = l / 4 then { g.slice i with blocked := false } else g.slice i) ∧
      g'.thread l = (g.thread l).wroteBack q := by
  refine ⟨_, g.writeback l q.id, exec_producerWriteback k l q.id s, onlyGang_modGang (Gang.writeback · l q.id) hg, ?_⟩
  rw [writeback_thread hq]
  refine ⟨rfl, fun j hj => ?_, fun i => ?_, ?_⟩
  · simp [hj]
  · exact slice_unblocked (g.setThread l ((g.thread l).wroteBack q)) (l / 4) i
  · simp [hl]

/-- A producer of a slice writes back, and its flags join those of its members (R189). -/
theorem writes_back_slice {s : State} {k l : Nat} {g : Gang} {q : Producer} (hg : s.gang? k = some g)
    (hn : (g.thread l).pend.find? (fun y => y.id = q.id && y.ready) = none) (hl : l / 4 < g.slices.length)
    (hq : (g.slice (l / 4)).pend.find? (fun y => y.id = q.id && y.ready) = some q) :
    ∃ t g', exec (.producerWriteback k l q.id) s = .next t ∧ OnlyGang s t k g' ∧
      { g' with threads := g.threads, slices := g.slices } = g ∧ (∀ i, i ≠ l / 4 → g'.slice i = g.slice i) ∧
      g'.slice (l / 4) = { (g.slice (l / 4)).writeSs q.reg q.words q.value with
        blocked := false, pend := (g.slice (l / 4)).pend.filter fun y => y.id ≠ q.id } ∧
      ∀ j, j < g.threads.length →
        g'.thread j = if q.members.getLsbD j then { g.thread j with fstat := (g.thread j).fstat ||| q.flags } else g.thread j := by
  refine ⟨_, g.writeback l q.id, exec_producerWriteback k l q.id s, onlyGang_modGang (Gang.writeback · l q.id) hg, ?_⟩
  rw [writeback_slice hn hq]
  refine ⟨rfl, fun i hi => ?_, ?_, fun j hj => Gang.thread_modLanes _ _ _ _ hj⟩
  · exact (Gang.slice_setSlice _ _ _ _).trans (if_neg fun h => hi h.1)
  · exact (Gang.slice_setSlice _ _ _ _).trans (if_pos ⟨rfl, hl⟩)

/-! ## DRAFT_COMMIT -/

theorem invalidateFor_steady (s : State) (c : Nat) (b : List StoreEntry) : (s.invalidateFor c b).link.steady = s.link.steady :=
  foldl_keeps _ (fun s : State => s.link.steady) (fun s e => by
    split
    · next pa _ =>
      unfold State.dropL1
      split
      · exact dropFills_steady s c (· == lineOf pa)
      · rfl
    · rfl) _ _

theorem invalidateFor_rest (s : State) (c : Nat) (b : List StoreEntry) :
    { s.invalidateFor c b with cores := s.cores, link := s.link } = s :=
  foldl_keeps _ (fun u : State => { u with cores := s.cores, link := s.link }) (fun u e => by
    split
    · unfold State.dropL1
      split <;> rfl
    · rfl) _ _

/-- A dropped line leaves the core's L1, and no other line does (R102). -/
theorem dropL1_line (s : State) (c l j : Nat) :
    Tab.get? ((s.dropL1 c l).core c).l1 j = if j = l then none else Tab.get? (s.core c).l1 j := by
  unfold State.dropL1
  split
  · next x hx =>
    rw [State.core_setCore, if_pos rfl, core_of_get? hx]
    exact tab_get?_erase _ _ _
  · next hx =>
    have hfresh : s.core c = .fresh := by rw [State.core, Tab.getD, hx, Option.getD_none]
    rw [hfresh]
    split <;> rfl

/-- The lines of a draft's entries leave the core's L1 (R102). -/
theorem invalidateFor_lines (c : Nat) (b : List StoreEntry) (s : State) (j : Nat)
    (h : Tab.get? (s.core c).l1 j = none ∨ ∃ e ∈ b, ∃ pa, e.place = .phys pa ∧ lineOf pa = j) :
    Tab.get? ((s.invalidateFor c b).core c).l1 j = none := by
  induction b generalizing s with
  | nil =>
    rcases h with h | ⟨e, he, -⟩
    · exact h
    · exact absurd he List.not_mem_nil
  | cons e b ih =>
    refine ih _ ?_
    dsimp only
    rcases h with h | ⟨x, hx, pa, hp, hj⟩
    · left
      split
      · rw [dropL1_line, h, ite_self]
      · exact h
    · rcases List.mem_cons.1 hx with rfl | hx
      · left
        simp only [hp, hj]
        rw [dropL1_line, if_pos rfl]
      · exact .inr ⟨x, hx, pa, hp, hj⟩

/-- A held draft commits once no producer is out (R139, R143). -/
theorem exec_draftCommit {s : State} {k l : Nat} {g : Gang} (hg : s.gang? k = some g) (hd : (g.thread l).drain = true)
    (hb : g.busy l = false) : exec (.draftCommit k l) s = .next (s.commitThread k l (g.thread l).pc) := by
  change execDraftCommit k l s = _
  simp only [execDraftCommit, hg, hd, hb, Bool.not_false, Bool.and_self, if_true]

theorem commitThread_eq {s : State} {k l : Nat} {g : Gang} (next : Pc) (hg : s.gang? k = some g) :
    s.commitThread k l next = { s.invalidateFor (coreOf k) (g.thread l).buf with
      mem := { s.mem with inflight := s.mem.inflight ++ (g.thread l).buf, topped := s.mem.toppedAfter g l } }.setGang k
        (g.setThread l ((g.thread l).committed next)) := by
  simp only [State.commitThread, hg, invalidateFor_mem]

/-- A held draft commits: its entries are on their way, and the core's copies of their lines are gone (R102, R119, R139). -/
theorem held_draft_commits {s : State} {k l : Nat} {g : Gang} (hg : s.gang? k = some g) (hl : l < g.threads.length)
    (hd : (g.thread l).drain = true) (hb : g.busy l = false) :
    ∃ t g', exec (.draftCommit k l) s = .next t ∧ t.gang? k = some g' ∧ g'.rest = g.rest ∧ g'.slices = g.slices ∧
      (∀ j, j ≠ l → g'.thread j = g.thread j) ∧ (∀ j, j ≠ k → t.gang? j = s.gang? j) ∧
      g'.thread l = (g.thread l).committed (g.thread l).pc ∧
      { t.mem with topped := s.mem.topped } = { s.mem with inflight := s.mem.inflight ++ (g.thread l).buf } ∧
      (∀ e ∈ (g.thread l).buf, ∀ pa, e.place = .phys pa → Tab.get? (t.core (coreOf k)).l1 (lineOf pa) = .none) ∧
      t.link.steady = s.link.steady ∧ { t with gangs := s.gangs, mem := s.mem, cores := s.cores, link := s.link } = s := by
  have sim := commitThread_sim (l := l) (g.thread l).pc hg
  have heq := commitThread_eq (l := l) (g.thread l).pc hg
  refine ⟨_, _, exec_draftCommit hg hd hb, sim.after, rfl, rfl, fun j hj => by simp [hj], sim.others, by simp [hl], ?_⟩
  rw [heq]
  refine ⟨rfl, fun e he pa hp => ?_, invalidateFor_steady _ _ _, ?_⟩
  · exact invalidateFor_lines _ _ s _ (.inr ⟨e, he, pa, hp, rfl⟩)
  · have h := invalidateFor_rest s (coreOf k) (g.thread l).buf
    exact congrArg (fun u : State => { u with gangs := s.gangs, mem := s.mem }) h

end Sys2Proof.Machine
end

