-- ==== Sys2Proof/Proofs/HomeEffects.lean ====
section
/-! PROOFS. Committed stores and queued reductions performed at their homes (R81, R82, R86, R101, R106, R118, R251, R374, R377). -/

namespace Sys2Proof.Machine

/-! ## Scratchpads -/

theorem half_setHalf (b : Block) (odd : Bool) (x : Scratch) : (b.setHalf odd x).half odd = x := by
  cases odd <;> rfl

theorem half_setHalf_other (b : Block) (odd : Bool) (x : Scratch) : (b.setHalf odd x).half (!odd) = b.half (!odd) := by
  cases odd <;> rfl

theorem natSet_has_foldl_add (l : List Nat) (n : NatSet) (i : Nat) :
    NatSet.has (l.foldl NatSet.add n) i = (NatSet.has n i || l.contains i) := by
  induction l generalizing n with
  | nil => simp
  | cons a l ih => rw [List.foldl_cons, ih, natSet_has_add, List.contains_cons, Bool.or_assoc]

/-- A store in a scratchpad half (R86). -/
theorem scratchWrite_written {s : State} {blk : Nat} {b : Block} (odd : Bool) (off n x : Nat) (fill : Bool)
    (hb : s.block? blk = some b) :
    ∃ b', (s.scratchWrite blk odd off n x fill).block? blk = some b' ∧ WrittenHalf (b.half odd) (b'.half odd) off n x fill ∧
      b'.half (!odd) = b.half (!odd) := by
  refine ⟨_, (State.block?_modBlock _ _ _ _).trans (by rw [if_pos rfl, hb]; rfl), ?_, half_setHalf_other _ _ _⟩
  rw [half_setHalf]
  refine ⟨bytesWritten_writeN _ _ _ _, fun i => ?_, rfl, rfl⟩
  cases fill with
  | false => simp
  | true => exact natSet_has_foldl_add _ _ _

/-! ## Writes at a home -/

/-- What a write at a home leaves alone but for bytes, monitors and reservations. -/
theorem homeWrite_keeps (s : State) (pa n x : Nat) :
    let t := s.homeWrite pa n x
    (t.mem.poison, t.mem.latent, t.mem.redq, t.mem.inflight, t.link, t.rel) =
      (s.mem.poison, s.mem.latent, s.mem.redq, s.mem.inflight, s.link, s.rel) :=
  (foldl_keeps _ (fun t : State => (t.mem.poison, t.mem.latent, t.mem.redq, t.mem.inflight, t.link, t.rel))
    (fun s m => by split <;> rfl) _ _).trans rfl

/-- A monitor that has fired stays so when others fire, and one that has not keeps its description. -/
theorem fireMonitor_mem {s : State} {m x : Monitor} (h : m ∈ s.mem.monitors) :
    m ∈ (s.fireMonitor x).mem.monitors ∨ { m with fired := true } ∈ (s.fireMonitor x).mem.monitors := by
  have hmap := List.mem_map_of_mem (f := fun y : Monitor => if y.key = x.key ∧ y.slot = x.slot then { y with fired := true } else y) h
  by_cases hx : m.key = x.key ∧ m.slot = x.slot
  · right
    rw [if_pos hx] at hmap
    exact hmap
  · left
    rw [if_neg hx] at hmap
    exact hmap

theorem fireMonitor_fired {s : State} {m x : Monitor} (h : { m with fired := true } ∈ s.mem.monitors) :
    { m with fired := true } ∈ (s.fireMonitor x).mem.monitors := (fireMonitor_mem h).elim id id

theorem fireMonitor_self {s : State} {m : Monitor} (h : m ∈ s.mem.monitors ∨ { m with fired := true } ∈ s.mem.monitors) :
    { m with fired := true } ∈ (s.fireMonitor m).mem.monitors := by
  rcases h with h | h
  · exact List.mem_map.2 ⟨m, h, if_pos ⟨rfl, rfl⟩⟩
  · exact fireMonitor_fired h

/-- Every monitor of the atom whose relation holds fires (R268). -/
theorem monitorsAfter_fires {s : State} {pa : Nat} {m : Monitor} (hm : m ∈ s.mem.monitors) (ha : atomOf m.desc.pa = atomOf pa)
    (hh : m.desc.holds (Mem.readN s.mem.bytes m.desc.pa m.desc.ty.bytes) = true) :
    { m with fired := true } ∈ (s.monitorsAfter pa).mem.monitors := by
  have hstep : ∀ (l : List Monitor) (u : State), u.mem.bytes = s.mem.bytes →
      (m ∈ l ∧ (m ∈ u.mem.monitors ∨ { m with fired := true } ∈ u.mem.monitors)) ∨ { m with fired := true } ∈ u.mem.monitors →
      { m with fired := true } ∈ (l.foldl (fun s m =>
        if atomOf m.desc.pa = atomOf pa ∧ m.desc.holds (Mem.readN s.mem.bytes m.desc.pa m.desc.ty.bytes) then s.fireMonitor m
        else s) u).mem.monitors := by
    intro l
    induction l with
    | nil => exact fun u _ h => h.elim (fun h => absurd h.1 List.not_mem_nil) id
    | cons x l ih =>
      intro u hb h
      rw [List.foldl_cons]
      split
      · refine ih _ hb ?_
        rcases h with ⟨hx, h⟩ | h
        · rcases List.mem_cons.1 hx with rfl | hx
          · exact .inr (fireMonitor_self h)
          · exact .inl ⟨hx, h.elim fireMonitor_mem fun h => .inr (fireMonitor_fired h)⟩
        · exact .inr (fireMonitor_fired h)
      · next hno =>
        refine ih _ hb ?_
        rcases h with ⟨hx, h⟩ | h
        · rcases List.mem_cons.1 hx with rfl | hx
          · exact absurd ⟨ha, by rw [hb]; exact hh⟩ hno
          · exact .inl ⟨hx, h⟩
        · exact .inr h
  exact hstep _ s rfl (.inl ⟨hm, .inl hm⟩)

/-- A write at memory's home (R82, R268). -/
theorem homeWrite_written (s : State) (pa n x : Nat) : WrittenHome s (s.homeWrite pa n x) pa n x := by
  have hbytes : (s.homeWrite pa n x).mem.bytes = Mem.writeN s.mem.bytes pa n x := monitorsAfter_bytes _ _
  have hkeeps := homeWrite_keeps s pa n x
  have hseat := seat_homeWrite s pa n x
  simp only [Prod.mk.injEq] at hkeeps
  simp only [State.seat, Prod.mk.injEq] at hseat
  obtain ⟨hpoison, hlatent, hredq, hinflight, hlink, hrel⟩ := hkeeps
  obtain ⟨hcores, hblocks, hdist, -⟩ := hseat
  exact {
    bytes := by rw [hbytes]; exact bytesWritten_writeN _ _ _ _
    marks := ⟨hpoison, hlatent, hredq, hinflight⟩
    monitors := fun m hm ha hh => by
      rw [hbytes] at hh
      exact ⟨_, monitorsAfter_fires hm ha hh, rfl⟩
    still := still_homeWrite _ _ _ _
    rest := ⟨hblocks, hcores, hdist, hlink, hrel⟩ }

/-! ## Queued reductions -/

/-- No reduction of the line is queued. -/
theorem drainRed_none {s : State} {line : Place} (h : ∀ x ∈ s.mem.redq, x.place.line ≠ line) : s.drainRed line = s := by
  have hnow : (s.mem.redq.filter fun e => e.place.line == line) = [] :=
    List.filter_eq_nil_iff.2 fun x hx => by simpa using h x hx
  have hlater : (s.mem.redq.filter fun e => e.place.line != line) = s.mem.redq :=
    List.filter_eq_self.2 fun x hx => by simpa using h x hx
  simp only [State.drainRed, hnow, hlater, List.foldl_nil]

/-- One reduction of the line is queued. -/
theorem drainRed_one {s : State} {e : StoreEntry} {pre post : List StoreEntry} (hq : s.mem.redq = pre ++ e :: post)
    (h : ∀ x ∈ pre ++ post, x.place.line ≠ e.place.line) :
    s.drainRed e.place.line = State.applyQueued { s with mem := { s.mem with redq := pre ++ post } } e := by
  have hnone : ∀ l : List StoreEntry, (∀ x ∈ l, x ∈ pre ++ post) →
      (l.filter fun x => x.place.line == e.place.line) = [] ∧ (l.filter fun x => x.place.line != e.place.line) = l := fun l hl =>
    ⟨List.filter_eq_nil_iff.2 fun x hx => by simpa using h x (hl x hx),
      List.filter_eq_self.2 fun x hx => by simpa using h x (hl x hx)⟩
  obtain ⟨hpre, hpre'⟩ := hnone pre fun x hx => List.mem_append_left _ hx
  obtain ⟨hpost, hpost'⟩ := hnone post fun x hx => List.mem_append_right _ hx
  simp only [State.drainRed, hq, List.filter_append, List.filter_cons, hpre, hpre', hpost, hpost', beq_self_eq_true, bne_self_eq_false,
    if_true, Bool.false_eq_true, if_false, List.nil_append, List.foldl_cons, List.foldl_nil]

/-- A reduction of a sound atom is applied (R118, R251). -/
theorem applyRed_sound {s : State} {pa : Nat} {ty : Ty} (op b asid : Nat) (hp : NatSet.has s.mem.poison (atomOf pa) = false)
    (hl : NatSet.has s.mem.latent (atomOf pa) = false) (hi : s.injects pa ty.bytes = false) :
    s.applyRed pa op ty b asid = (s.homeWrite pa ty.bytes (newValue op ty (Mem.readN s.mem.bytes pa ty.bytes) b), false) := by
  have hcheck : s.checkAtom pa ty.bytes asid = (s, 0) := by
    simp only [State.checkAtom, hi, hp, hl, Bool.false_eq_true, if_false]
  simp only [State.applyRed, hcheck, Nat.zero_ne_one, if_false, if_true]

/-- RED_APPLY of the one queued reduction of a line (R118, R251). -/
theorem exec_redApply {s : State} {e : StoreEntry} {pre post : List StoreEntry} {pa op : Nat} {ty : Ty}
    (hq : s.mem.redq = pre ++ e :: post) (hplace : e.place = .phys pa) (hop : e.op = .red op ty)
    (h : ∀ x ∈ pre ++ post, x.place.line ≠ .phys (lineOf pa)) (hp : NatSet.has s.mem.poison (atomOf pa) = false)
    (hl : NatSet.has s.mem.latent (atomOf pa) = false) (hi : s.injects pa ty.bytes = false) :
    exec (.redApply pre.length) s = .next (State.homeWrite { s with mem := { s.mem with redq := pre ++ post } } pa ty.bytes
      (newValue op ty (Mem.readN s.mem.bytes pa ty.bytes) e.data)) := by
  have hat : s.mem.redq[pre.length]? = some e := by rw [hq]; simp
  have hline : e.place.line = .phys (lineOf pa) := by rw [hplace]; rfl
  have hred := applyRed_sound (s := { s with mem := { s.mem with redq := pre ++ post } }) op e.data e.asid hp hl hi
  change execRedApply pre.length s = _
  simp only [execRedApply, hat]
  rw [drainRed_one hq (by rw [hline]; exact h)]
  simp only [State.applyQueued, hplace, hop, hred, Bool.false_eq_true, if_false]

end Sys2Proof.Machine
end

