-- ==== Sys2Proof/Proofs/StoresAtHome.lean ====
section
/-! PROOFS. The step that performs one committed store: which entries it takes with it, what each kind of place makes of it, and the
obligation on pending effects (R81, R82, R101, R106, R118, R374, R377). -/

namespace Sys2Proof.Machine

/-! ## One entry taken -/

/-- Entries nobody wants, and that nothing wanted follows. -/
theorem needed_unwanted (want : StoreEntry → Bool) (l : List StoreEntry) (h : ∀ e ∈ l, want e = false) :
    needed want l = l.map fun e => (e, false) := by
  induction l with
  | nil => rfl
  | cons e l ih =>
    have ih' := ih fun x hx => h x (List.mem_cons_of_mem _ hx)
    have hnone : ((l.map fun e => (e, false)).any fun x => x.2 && mustPrecede e x.1) = false := by simp
    rw [needed, List.map_cons, ih', h e List.mem_cons_self, hnone, Bool.false_or]

/-- An entry that no earlier one has to precede is taken alone (R106). -/
theorem needed_one {e : StoreEntry} {pre post : List StoreEntry} (hpre : e ∉ pre) (hpost : e ∉ post)
    (hfirst : ∀ x ∈ pre, mustPrecede x e = false) :
    needed (fun x => x == e) (pre ++ e :: post) = pre.map (·, false) ++ (e, true) :: post.map (·, false) := by
  induction pre with
  | nil =>
    have h : ∀ x ∈ post, (x == e) = false := fun x hx => beq_false_of_ne fun h => hpost (h ▸ hx)
    rw [List.nil_append, needed, needed_unwanted _ _ h, beq_self_eq_true, Bool.true_or]
    rfl
  | cons x pre ih =>
    have hx : (x == e) = false := beq_false_of_ne fun h => hpre (h ▸ List.mem_cons_self)
    have hnone : ((pre.map (·, false) ++ (e, true) :: post.map (·, false)).any fun y => y.2 && mustPrecede x y.1) = false := by
      simp [hfirst x List.mem_cons_self]
    rw [List.cons_append, needed, ih (fun h => hpre (List.mem_cons_of_mem _ h)) fun y hy => hfirst y (List.mem_cons_of_mem _ hy),
      hx, hnone, Bool.false_or, List.map_cons, List.cons_append]

/-- The state without an entry that has been taken. -/
def State.taken (s : State) (l : List StoreEntry) : State := { s with mem := { s.mem with inflight := l } }

/-- A committed store that may be performed: nothing on its way has to precede it, and no store of its thread toward another device
is outstanding (R106). -/
structure MayPerform (s : State) (e : StoreEntry) (pre post : List StoreEntry) : Prop where
  inflight : s.mem.inflight = pre ++ e :: post
  before : e ∉ pre
  after : e ∉ post
  first : ∀ x ∈ pre, mustPrecede x e = false
  acked : s.remoteStores e.tag (some e.lane) = false

theorem MayPerform.drain {s : State} {e : StoreEntry} {pre post : List StoreEntry} (h : MayPerform s e pre post) :
    s.drain (fun x => x == e) = (s.taken (pre ++ post)).applyEntry e := by
  have hn := needed_one h.before h.after h.first
  have hunwanted (l : List StoreEntry) : ((l.map fun x => (x, false)).filter fun x : StoreEntry × Bool => x.2) = [] ∧
      (l.map fun x => (x, false)).filter (fun x : StoreEntry × Bool => !x.2) = l.map fun x => (x, false) :=
    ⟨by simp, by simp⟩
  have hmap (l : List StoreEntry) : (l.map fun x => (x, false)).map (fun x : StoreEntry × Bool => x.1) = l :=
    (List.map_map ..).trans (List.map_id l)
  have hsome : ((pre.map fun x => (x, false)) ++ (e, true) :: post.map fun x => (x, false)).all
      (fun x : StoreEntry × Bool => !x.2) = false := by simp
  simp only [State.drain, h.inflight, hn, hsome, Bool.false_eq_true, if_false, List.filter_append, List.filter_cons, if_true,
    (hunwanted pre).1, (hunwanted pre).2, (hunwanted post).1, (hunwanted post).2, Bool.not_true, List.nil_append, List.foldl_cons,
    List.foldl_nil, Option.bind_some, List.map_append, hmap, State.taken]

theorem MayPerform.exec {s : State} {e : StoreEntry} {pre post : List StoreEntry} (h : MayPerform s e pre post) :
    exec (.storeApplyAtHome pre.length) s = .next (((s.taken (pre ++ post)).applyEntry e).getD s) := by
  have hat : s.mem.inflight[pre.length]? = some e := by rw [h.inflight]; simp
  change execStoreApplyAtHome pre.length s = _
  simp only [execStoreApplyAtHome, hat]
  rw [h.drain]

/-! ## Its parts -/

/-- A store of which no higher LANE has written a byte is applied whole (R81). -/
theorem parts_whole {m : MemState} {e : StoreEntry} (h : ∀ j, j < e.size → m.passedOver e j = false) : m.parts e = [e] := by
  have hany : (List.range e.size).any (m.passedOver e) = false :=
    List.any_eq_false.2 fun j hj => by rw [h j (List.mem_range.1 hj)]; exact Bool.false_ne_true
  rw [MemState.parts, if_neg fun c => by rw [hany] at c; exact Bool.false_ne_true c.2]

/-- A reduction is applied whole. -/
theorem parts_red {m : MemState} {e : StoreEntry} (h : e.op ≠ .write) : m.parts e = [e] := by
  rw [MemState.parts, if_neg fun c => h c.1]

/-- Of a store whose every byte a higher LANE has written nothing is applied (R81). -/
theorem parts_none {m : MemState} {e : StoreEntry} (hw : e.op = .write) (hs : e.size ≠ 0)
    (h : ∀ j, j < e.size → m.passedOver e j = true) : m.parts e = [] := by
  have hany : (List.range e.size).any (m.passedOver e) = true :=
    List.any_eq_true.2 ⟨0, List.mem_range.2 (Nat.pos_of_ne_zero hs), h 0 (Nat.pos_of_ne_zero hs)⟩
  have hnone : ((List.range e.size).filter fun j => !m.passedOver e j) = [] :=
    List.filter_eq_nil_iff.2 fun j hj => by rw [h j (List.mem_range.1 hj)]; exact Bool.false_ne_true
  rw [MemState.parts, if_pos ⟨hw, hany⟩, hnone]
  rfl

/-- An entry applied whole. -/
theorem MayPerform.exec_whole {s t : State} {e : StoreEntry} {pre post : List StoreEntry} (h : MayPerform s e pre post)
    (hp : s.mem.parts e = [e]) (ht : (s.taken (pre ++ post)).applyPart e = some t) :
    Machine.exec (.storeApplyAtHome pre.length) s = .next t := by
  have hp' : (s.taken (pre ++ post)).mem.parts e = [e] := hp
  rw [h.exec, State.applyEntry, hp', List.foldl_cons, List.foldl_nil, Option.bind_some, ht, Option.getD_some]

/-- An entry of which nothing is left. -/
theorem MayPerform.exec_none {s : State} {e : StoreEntry} {pre post : List StoreEntry} (h : MayPerform s e pre post)
    (hp : s.mem.parts e = []) : Machine.exec (.storeApplyAtHome pre.length) s = .next (s.taken (pre ++ post)) := by
  have hp' : (s.taken (pre ++ post)).mem.parts e = [] := hp
  rw [h.exec, State.applyEntry, hp', List.foldl_nil, Option.getD_some]

/-! ## What a place makes of an entry -/

section
variable {s : State} {e : StoreEntry} {pa : Nat} (ha : s.remoteStores e.tag (some e.lane) = false)
include ha

theorem applyPart_scratch {blk off : Nat} {odd : Bool} (hp : e.place = .scratch blk odd off) :
    s.applyPart e = some (s.scratchWrite blk odd off e.size e.data e.fill) := by
  simp only [State.applyPart, ha, Bool.and_false, Bool.false_eq_true, if_false, hp]

theorem applyPart_hbm {a : Nat} (hp : e.place = .phys pa) (hw : e.op = .write) (ht : s.target pa = .hbm a) :
    s.applyPart e = some ((s.drainRed (.phys (lineOf a))).homeWrite a e.size e.data) := by
  simp only [State.applyPart, ha, Bool.and_false, Bool.false_eq_true, if_false, hp, ht, hw]

theorem applyPart_host {a : Nat} (hp : e.place = .phys pa) (hw : e.op = .write) (ht : s.target pa = .host a) :
    s.applyPart e = some (s.homeWrite pa e.size e.data) := by
  simp only [State.applyPart, ha, Bool.and_false, Bool.false_eq_true, if_false, hp, ht, hw]

theorem applyPart_red {a op : Nat} {ty : Ty} (hp : e.place = .phys pa) (hr : e.op = .red op ty) (ht : s.target pa = .hbm a) :
    s.applyPart e = some { s with mem := { s.mem with redq := s.mem.redq ++ [{ e with place := .phys a }] } } := by
  simp only [State.applyPart, ha, Bool.and_false, Bool.false_eq_true, if_false, hp, ht, hr]

theorem applyPart_fail {c : Cause} (hp : e.place = .phys pa) (ht : s.target pa = .fail c) :
    s.applyPart e = some (s.storeFailed pa e.tag) := by
  simp only [State.applyPart, ha, Bool.and_false, Bool.false_eq_true, if_false, hp, ht]

theorem applyPart_remote {dev off : Nat} (hp : e.place = .phys pa) (ht : s.target pa = .remote dev off) :
    s.applyPart e = s.sendRemote e.core dev off (match e.op with | .write => .write e.size e.data | .red op t => .red op t e.data)
      (.store e.tag e.lane e.epoch) := by
  simp only [State.applyPart, ha, Bool.and_false, Bool.false_eq_true, if_false, hp, ht] <;> rfl

end

theorem gang?_mapContexts (s : State) (f : Gang → Gang) (k : Nat) : (s.mapContexts f).gang? k = (s.gang? k).map f :=
  tab_get?_map _ _ _

/-- A failed store counts against its gang (R377). -/
theorem storeFailed_counts {s : State} {k : Nat} {g : Gang} (pa : Nat) (hg : s.gang? k = some g) (hst : g.gstate ≠ .ended) :
    ∃ g', (s.storeFailed pa g.tag).gang? k = some g' ∧ g'.failedStores = g.failedStores + 1 := by
  have hcount (core asid : Nat) : ∃ g', ((s.logError .remoteStore 2 core pa 1 asid).mapContexts fun h =>
      if h.tag == g.tag && h.gstate != .ended then { h with failedStores := h.failedStores + 1 } else h).gang? k = some g' ∧
        g'.failedStores = g.failedStores + 1 := by
    obtain ⟨h, hh, lat⟩ := latches_logError s .remoteStore 2 core pa 1 asid k g hg
    have htag : h.tag = g.tag := (congrArg Gang.tag lat.eq).trans rfl
    have hstate : h.gstate = g.gstate := (congrArg Gang.gstate lat.eq).trans rfl
    have hfailed : h.failedStores = g.failedStores := (congrArg Gang.failedStores lat.eq).trans rfl
    refine ⟨{ h with failedStores := h.failedStores + 1 }, ?_, congrArg (· + 1) hfailed⟩
    rw [gang?_mapContexts, hh, Option.map_some, if_pos (by rw [htag, hstate, beq_self_eq_true, Bool.true_and, bne_iff_ne]; exact hst)]
  unfold State.storeFailed
  dsimp only
  split
  · exact hcount _ _
  · simp only [gang?_modLaunch]
    exact hcount _ _

/-- A flit that is counted leaves memory, blocks and the link's requests (R401). -/
theorem countFlit_keeps (s : State) (dev : Nat) :
    (s.countFlit dev).mem = s.mem ∧ (s.countFlit dev).blocks = s.blocks ∧ (s.countFlit dev).link = s.link := by
  unfold State.countFlit
  dsimp only
  split <;> exact ⟨rfl, rfl, rfl⟩

/-- A request as `sendRemote` makes it. -/
def State.requestTo (s : State) (core dev off : Nat) (op : RemoteOp) (src : RemoteSource) : RemoteReq :=
  let ports := portsOf (s.routeMask dev)
  ⟨dev, Tab.getD s.link.nextSeq dev 0, off, op, src, ports.getD (Config.portHash core (lineOf off) % max 1 ports.length) 0, s.clock,
    s.clock, Tab.getD s.link.members dev []⟩

/-- A request is sent where the window and the key allow it (R374 to R376, R401). -/
theorem sendRemote_sends {s : State} {dev : Nat} (core off : Nat) (op : RemoteOp) (src : RemoteSource)
    (hw : (s.link.requests.filter fun r => r.dev = dev).length < 4096) (hk : s.keySpent dev = false) :
    s.sendRemote core dev off op src = some (State.countFlit { s with link := { s.link with
      requests := s.link.requests ++ [s.requestTo core dev off op src]
      nextSeq := Tab.put s.link.nextSeq 0 dev ((Tab.getD s.link.nextSeq dev 0 + 1) % 2 ^ 32) } } dev) := by
  have hgo : ¬ (4096 ≤ (s.link.requests.filter fun r => r.dev = dev).length ∨ s.keySpent dev = true) := by
    rw [hk, not_or]
    exact ⟨Nat.not_le.2 hw, Bool.false_ne_true⟩
  exact if_neg hgo

/-! ## The obligation -/

/-- A committed store in a scratchpad half. -/
theorem MayPerform.scratch {s : State} {e : StoreEntry} {pre post : List StoreEntry} {blk off : Nat} {odd : Bool} {b : Block}
    (h : MayPerform s e pre post) (hp : s.mem.parts e = [e]) (hplace : e.place = .scratch blk odd off) (hb : s.block? blk = some b) :
    ∃ t b', Machine.exec (.storeApplyAtHome pre.length) s = .next t ∧ t.block? blk = some b' ∧
      WrittenHalf (b.half odd) (b'.half odd) off e.size e.data e.fill ∧ b'.half (!odd) = b.half (!odd) ∧
      (∀ j, j ≠ blk → t.block? j = s.block? j) ∧ { t with blocks := s.blocks } = s.taken (pre ++ post) := by
  obtain ⟨b', hb', hwritten, hother⟩ :=
    scratchWrite_written (s := s.taken (pre ++ post)) odd off e.size e.data e.fill hb
  refine ⟨_, b', h.exec_whole hp (applyPart_scratch (s := s.taken (pre ++ post)) h.acked hplace), hb', hwritten, hother,
    fun j hj => ?_, rfl⟩
  exact (State.block?_modBlock _ _ _ _).trans (if_neg hj)

/-- A committed store in HBM of a line with no reduction queued, or in host memory. -/
theorem MayPerform.home {s : State} {e : StoreEntry} {pre post : List StoreEntry} {pa a : Nat} (h : MayPerform s e pre post)
    (hp : s.mem.parts e = [e]) (hplace : e.place = .phys pa) (hw : e.op = .write)
    (ht : (s.target pa = .hbm a ∧ ∀ x ∈ s.mem.redq, x.place.line ≠ .phys (lineOf a)) ∨ (∃ h, s.target pa = .host h ∧ a = pa)) :
    ∃ t, Machine.exec (.storeApplyAtHome pre.length) s = .next t ∧ WrittenHome (s.taken (pre ++ post)) t a e.size e.data := by
  refine ⟨_, h.exec_whole hp ?_, homeWrite_written _ _ _ _⟩
  rcases ht with ⟨ht, hq⟩ | ⟨x, ht, rfl⟩
  · rw [applyPart_hbm (s := s.taken (pre ++ post)) h.acked hplace hw ht, drainRed_none (s := s.taken (pre ++ post)) hq]
  · exact applyPart_host (s := s.taken (pre ++ post)) h.acked hplace hw ht

/-- A committed store for another device becomes a request (R374). -/
theorem MayPerform.remote {s : State} {e : StoreEntry} {pre post : List StoreEntry} {pa dev off : Nat} (h : MayPerform s e pre post)
    (hp : s.mem.parts e = [e]) (hplace : e.place = .phys pa) (ht : s.target pa = .remote dev off)
    (hw : (s.link.requests.filter fun r => r.dev = dev).length < 4096) (hk : s.keySpent dev = false) :
    ∃ t r, Machine.exec (.storeApplyAtHome pre.length) s = .next t ∧ t.mem = (s.taken (pre ++ post)).mem ∧
      t.link.requests = s.link.requests ++ [r] ∧ r.dev = dev ∧ r.off = off ∧ r.seq = Tab.getD s.link.nextSeq dev 0 ∧
      r.src = .store e.tag e.lane e.epoch ∧ r.sent = s.clock ∧
      (r.op = match e.op with | .write => .write e.size e.data | .red op t => .red op t e.data) ∧
      Tab.getD t.link.nextSeq dev 0 = (Tab.getD s.link.nextSeq dev 0 + 1) % 2 ^ 32 ∧ s.Still t ∧ t.blocks = s.blocks := by
  have hsend := (applyPart_remote (s := s.taken (pre ++ post)) h.acked hplace ht).trans (sendRemote_sends _ off _ _ hw hk)
  obtain ⟨hmem, hblocks, hlink⟩ := countFlit_keeps { s.taken (pre ++ post) with link := { s.link with
    requests := s.link.requests ++ [(s.taken (pre ++ post)).requestTo e.core dev off
      (match e.op with | .write => .write e.size e.data | .red op t => .red op t e.data) (.store e.tag e.lane e.epoch)]
    nextSeq := Tab.put s.link.nextSeq 0 dev ((Tab.getD s.link.nextSeq dev 0 + 1) % 2 ^ 32) } } dev
  have hseq := tab_getD_put s.link.nextSeq 0 dev dev ((Tab.getD s.link.nextSeq dev 0 + 1) % 2 ^ 32)
  rw [if_pos rfl] at hseq
  exact ⟨_, _, h.exec_whole hp hsend, hmem, congrArg Link.requests hlink, rfl, rfl, rfl, rfl, rfl, rfl,
    (congrArg (fun l : Link => Tab.getD l.nextSeq dev 0) hlink).trans hseq,
    still_pre (still_countFlit _ _) rfl rfl rfl, hblocks⟩

/-- Settles O31: a producer and a held draft by what the step makes of their gang, a committed store by the place it is for, once it is
known to be taken alone, and the one queued reduction of a line by a write at its home. -/
theorem pendingEffectsArePerformed : Obligations.PendingEffectsArePerformed := by
  unfold Obligations.PendingEffectsArePerformed
  refine ⟨?producers, ?drafts, ?stores, ?reductions⟩
  case producers =>
    intro s k l g q hg hl _
    exact ⟨fun hq => writes_back_thread hg hl hq, fun hn hs hq => writes_back_slice hg hn hs hq⟩
  case drafts =>
    intro s k l g hg hl hd hb
    exact held_draft_commits hg hl hd hb
  case stores =>
    intro s e pre post hin hpre hpost hfirst hacked s0 whole
    have h : MayPerform s e pre post := ⟨hin, hpre, hpost, hfirst, hacked⟩
    refine ⟨?none, ?scratch, ?home, ?red, ?fail, ?remote⟩
    case none => exact fun hw hs hall => h.exec_none (parts_none hw hs hall)
    case scratch => exact fun blk odd off b hwhole hplace hb => h.scratch (parts_whole hwhole) hplace hb
    case home => exact fun pa a hwhole hplace hw ht => h.home (parts_whole hwhole) hplace hw ht
    case red =>
      intro pa a op ty hplace hop ht
      exact h.exec_whole (parts_red (by rw [hop]; nofun)) (applyPart_red (s := s0) hacked hplace hop ht)
    case fail =>
      intro pa c k g hwhole hplace ht hg htag hst
      obtain ⟨g', hg', hfailed⟩ := storeFailed_counts (s := s0) pa hg hst
      rw [htag] at hg'
      exact ⟨_, g', h.exec_whole (parts_whole hwhole) (applyPart_fail (s := s0) hacked hplace ht), hg', hfailed⟩
    case remote => exact fun pa dev off hwhole hplace ht hw hk => h.remote (parts_whole hwhole) hplace ht hw hk
  case reductions =>
    intro s e pre post pa op ty hq hplace hop hlines hp hl hi
    exact ⟨_, exec_redApply hq hplace hop hlines hp hl hi, homeWrite_written _ _ _ _⟩

end Sys2Proof.Machine
end

