-- ==== Sys2Proof/Proofs/CollectiveIssue.lean ====
section
/-! PROOFS. The issue of a collective matrix instruction at which every live thread of its gang has arrived (R257, R287, R288). -/

namespace Sys2Proof.Machine

/-! ## What a gang brings to its collective -/

theorem uniform32_congr {g g' : Gang} (f : Fields) (o : Operand) {l : Nat} (ht : (g'.thread l).v = (g.thread l).v)
    (hs : (g'.slice (l / 4)).s = (g.slice (l / 4)).s) : g'.uniform32 f o l = g.uniform32 f o l := by
  unfold Gang.uniform32 Thread.readV SliceState.readS
  rw [ht, hs]

theorem quarterOf_congr {g g' : Gang} (f : Fields) {m : Lanes} (hw : g'.width = g.width)
    (ht : ∀ l, l < g.width → m.getLsbD l = true → (g'.thread l).v = (g.thread l).v) : g'.quarterOf f m = g.quarterOf f m := by
  unfold Gang.quarterOf
  rw [hw]
  refine List.map_congr_left fun l hl => ?_
  split
  · next hm =>
    have hv := ht l (List.mem_range.1 hl) hm
    unfold Thread.readV
    rw [hv]
  · rfl

/-- A collective's operands are read from waiting threads, s registers and guards alone (R257, R288). -/
theorem issueOf_congr {g g' : Gang} (r : Gather) (f : Fields) (hw : g'.width = g.width) (hg : g'.guards = g.guards)
    (ht : ∀ l, l < g.width → r.waiting.getLsbD l = true → (g'.thread l).v = (g.thread l).v)
    (hs : ∀ i, (g'.slice i).s = (g.slice i).s) : g'.issueOf r f = g.issueOf r f := by
  have hlane (o : Operand) : (lanesOf r.waiting g.width).head?.map (fun l => g'.uniform32 f o l) =
      (lanesOf r.waiting g.width).head?.map fun l => g.uniform32 f o l := by
    refine Option.map_congr fun l hl => ?_
    obtain ⟨hlt, hm⟩ := mem_lanesOf.1 (List.mem_of_head? hl)
    exact uniform32_congr f o (ht l hlt hm) (hs _)
  have hguard : g'.guardOf f = g.guardOf f := by
    unfold Gang.guardOf
    rw [hg]
  unfold Gang.issueOf
  simp only [hw, hlane, hguard, quarterOf_congr f hw ht]

/-! ## Arrival and issue -/

/-- The first threads of a gang to reach a collective gather there. -/
theorem arriveCollective_first {g : Gang} (r : Gather) (h : g.collects = []) : g.arriveCollective r = { g with collects := [r] } := by
  have hw : r.waiting &&& ~~~(0 : Lanes) = r.waiting := by
    rw [BitVec.ofNat_eq_ofNat, BitVec.not_zero, BitVec.and_allOnes]
  simp only [Gang.arriveCollective, h, List.head?_nil, Option.map_none, Option.getD_none, Bool.false_eq_true, if_false, List.filter_nil,
    List.foldl_nil, BitVec.ofNat_eq_ofNat, BitVec.and_zero, BitVec.or_zero, arriveAt, List.any_nil, List.nil_append] at hw ⊢
  rw [hw]

/-- A gang after its first gather has issued as its next collective (R287). -/
def Gang.withIssue (g : Gang) (r : Gather) (f : Fields) : Gang :=
  { g with collects := g.collects.tail, stalled := 0, issued := g.issued ++ [g.issueOf r f] }

theorem settleCollective_issues {s : State} {k : Nat} {g : Gang} {r : Gather} {f : Fields} (hg : s.gang? k = some g)
    (hco : g.collects = [r]) (hc : g.complete r = true) (hf : r.fields = some f) :
    s.settleCollective k = s.setGang k (g.withIssue r f) := by
  have hfilter : g.collects.head?.filter (fun r => g.complete r) = some r := by
    rw [hco, List.head?_cons, Option.filter_some, if_pos hc]
  simp only [State.settleCollective, hg, hfilter, hf]
  rfl

/-- A gang whose one gather has all its live threads issues the collective (R287). -/
theorem settle_issues {s : State} {k : Nat} {g : Gang} {r : Gather} {f : Fields} (hg : s.gang? k = some g) (hne : g.allEnded = false)
    (hga : g.gathers = []) (hco : g.collects = [r]) (hc : g.complete r = true) (hf : r.fields = some f) :
    (s.settle k).gang? k = some (g.withIssue r f).settleCounts := by
  have hend : s.endGang k = s := by simp [State.endGang, hg, hne]
  simp only [State.settle, hend, settleWaitany_idle hg hga, settleCollective_issues hg hco hc hf, State.gang?_modGang,
    State.gang?_setGang, if_true, Option.map_some]

/-! ## The issue -/

/-- An issue of which the bodies stand in the state that they run in. -/
theorem runOp_stands_opened {op : Op} {f : Fields} {s : State} {g : Gang} (h : op.Ready f s g)
    (hready : op.ready (s.opened f op g) (s.goLanes f g) = true)
    (hbody : ∀ l, op.body (s.opened f op g) l = (s.opened f op g, .stand)) :
    ∃ u g', s.runOp f op = (op.post u [] ((op.groups (s.goLanes f g)).flatMap (·.2)) (s.gfLanes f g)).settle s.focus.key ∧
      Stood (s.gfLanes f g) s u g g' := by
  obtain ⟨g2, sim⟩ := opened_sim (op := op) (f := f) h.gang
  have hfocus : (s.opened f op g).focus = s.focus := congrArg (fun o => o.2.2.2.1) sim.outer
  have hgf : ∀ l ∈ s.gfLanes f g, l < g2.threads.length := fun l hl => by
    rw [sim.gang.threads, h.threads]
    exact lanesOf_lt (List.mem_filter.1 hl).1
  obtain ⟨u, g', hp, stood⟩ := perform_stood (op := op) (f := f) (gf := s.gfLanes f g) (mask := s.focusLanes g) s.seqCtr s.clock
    ((congrArg (fun x : Focus => (s.opened f op g).gang? x.key) hfocus).trans sim.after)
    ((lanesOf_nodup _ _).filter fun l => !(g.thread l).guard f) hgf (sim.gang.quiet h.quiet) hready hbody
  exact ⟨u, g', by rw [runOp_ready h, hp, Option.getD_some, hfocus], stood.opened sim⟩

theorem focusGang_eq {s : State} {k : Nat} {g : Gang} (hk : s.focus.key = k) (hg : s.gang? k = some g) : s.focusGang = g := by
  rw [State.focusGang, hk, hg, Option.getD_some]

/-- A bound gang's threads stand at a collective (R287). -/
theorem opCollective_stands {i : Instr} {f : Fields} {s : State} {g : Gang} (h : (opCollective i f).Ready f s g)
    (hb : g.binding.isSome = true) (l : Nat) :
    (opCollective i f).body (s.opened f (opCollective i f) g) l = (s.opened f (opCollective i f) g, .stand) := by
  obtain ⟨g2, sim⟩ := opened_sim (op := opCollective i f) (f := f) h.gang
  have hfocus : (s.opened f (opCollective i f) g).focus.key = s.focus.key := congrArg (fun o => o.2.2.2.1.key) sim.outer
  have hbind : g2.rest.binding = g.rest.binding := congrArg Gang.binding sim.gang.restEq
  have hnone : (s.opened f (opCollective i f) g).focusGang.binding.isNone = false := by
    rw [focusGang_eq hfocus sim.after, Option.isNone_eq_false_iff]
    exact hbind ▸ hb
  exact if_neg (by rw [hnone]; exact Bool.false_ne_true)

/-- The threads of the sub-gang as they arrive at a collective (R287). -/
def State.gather (s : State) (i : Instr) (f : Fields) (g : Gang) : Gather :=
  ⟨s.focus.pc, i, s.focus.insn, laneSet (s.goLanes f g), laneSet (s.gfLanes f g)⟩

/-- The first threads to arrive at a collective gather there. -/
theorem opCollective_post {i : Instr} {f : Fields} {s u : State} {g g' : Gang} (hu : Stood (s.gfLanes f g) s u g g')
    (hb : g.binding.isSome = true) :
    ((opCollective i f).post u [] (((opCollective i f).groups (s.goLanes f g)).flatMap (·.2)) (s.gfLanes f g)).gang? s.focus.key =
      some { g' with collects := [s.gather i f g] } := by
  have hbind : g'.rest.binding = g.rest.binding := congrArg Gang.binding hu.rest
  have hnone : u.focusGang.binding.isNone = false := by
    rw [focusGang_eq (congrArg Focus.key hu.focus) hu.gang, Option.isNone_eq_false_iff]
    exact hbind ▸ hb
  have hpost : (opCollective i f).post u [] (((opCollective i f).groups (s.goLanes f g)).flatMap (·.2)) (s.gfLanes f g) =
      u.modGang s.focus.key fun g' => g'.arriveCollective (s.gather i f g) := by
    simp only [opCollective, hnone, Bool.false_eq_true, if_false, hu.focus]
    rw [laneSet_groups]
    rfl
  rw [hpost, State.gang?_modGang, if_pos rfl, hu.gang, Option.map_some, arriveCollective_first _ hu.quiet.collects]

/-- A waiting thread of a gather is one whose guard is true. -/
theorem gather_waiting {s : State} {i : Instr} {f : Fields} {g : Gang} {l : Nat} (h : (s.gather i f g).waiting.getLsbD l = true) :
    l ∈ s.goLanes f g := by
  rw [State.gather, getLsbD_laneSet, Bool.and_eq_true, decide_eq_true_eq, decide_eq_true_eq] at h
  exact h.2

theorem goLanes_notMem_gfLanes {s : State} {f : Fields} {g : Gang} {l : Nat} (h : l ∈ s.goLanes f g) : l ∉ s.gfLanes f g := fun hf => by
  have h1 := (List.mem_filter.1 h).2
  have h2 := (List.mem_filter.1 hf).2
  rw [h1] at h2
  exact Bool.false_ne_true h2

/-- Every live thread of a bound gang arrives at a collective, and it issues as the gang's next (R257, R287, R288). -/
theorem collective_issues {i : Instr} {f : Fields} {s : State} {g : Gang} (hr : (opCollective i f).Ready f s g)
    (hi : ∀ pc insn m n, Gather.fields ⟨pc, i, insn, m, n⟩ = some f) (hb : g.binding.isSome = true) (hw : g.width ≤ 64)
    (hall : ∀ l, l < g.width → (g.thread l).tstate = .live → l ∈ s.focusLanes g) :
    ∃ g', (s.runOp f (opCollective i f)).gang? s.focus.key = some g' ∧ g'.issued = g.issued ++ [g.issueOf (s.gather i f g) f] ∧
      (∀ l ∈ s.goLanes f g, (g'.thread l).regs = (g.thread l).regs) ∧
      ∀ l ∈ s.gfLanes f g, (g'.thread l).regs = ((g.thread l).control .fall).regs := by
  obtain ⟨u, g1, hrun, st⟩ := runOp_stands_opened hr rfl (opCollective_stands hr hb)
  have hrest {α : Type} (v : Gang → α) (hv : ∀ x : Gang, v x.rest = v x) : v g1 = v g := by rw [← hv, st.rest, hv]
  have hwidth : g1.width = g.width := hrest Gang.width fun _ => rfl
  have hissue : g1.issueOf (s.gather i f g) f = g.issueOf (s.gather i f g) f :=
    issueOf_congr _ f hwidth (hrest Gang.guards fun _ => rfl)
      (fun l _ hm => (regs_fields (st.stay l (goLanes_notMem_gfLanes (gather_waiting hm)))).1)
      fun j => congrArg (fun x => x.1) (st.slices j)
  have hcomplete : g1.complete (s.gather i f g) = true :=
    arrival_complete hwidth hw fun l hl hst => hall l hl ((st.tstate l).symm.trans hst)
  have hset := settle_issues (opCollective_post (i := i) st hb) st.quiet.notEnded st.quiet.gathers rfl hcomplete (hi _ _ _ _)
  rw [← hrun] at hset
  refine ⟨_, hset, ?_, fun l hl => st.stay l (goLanes_notMem_gfLanes hl), fun l hl => st.fall l hl⟩
  rw [← hissue]
  exact congrArg (· ++ _) (hrest Gang.issued fun _ => rfl)

end Sys2Proof.Machine
end

