-- ==== Sys2Proof/Proofs/CollectiveFinish.lean ====
section
/-! PROOFS. The end of a collective in its four members (R287, R289): each member's threads complete it, and its next collective is
its next. -/

namespace Sys2Proof.Machine

/-! ## One member -/

/-- What a collective reads of a member: its threads, its collectives, and whether threads of it stand at a rendezvous. -/
def Gang.lineup (g : Gang) : List Thread × Nat × List Issued × List Gather × List Gather :=
  (g.threads, g.width, g.issued, g.gathers, g.collects)

theorem lineup_fields {g u : Gang} (h : u.lineup = g.lineup) :
    u.threads = g.threads ∧ u.width = g.width ∧ u.issued = g.issued ∧ u.gathers = g.gathers ∧ u.collects = g.collects := by
  simpa only [Gang.lineup, Prod.mk.injEq] using h

theorem quiet_of_lineup {g u : Gang} (h : u.lineup = g.lineup) (q : g.Quiet) : u.Quiet := by
  obtain ⟨hth, -, -, hga, hco⟩ := lineup_fields h
  obtain ⟨l, hl, hne⟩ := q.live
  exact ⟨hga.trans q.gathers, hco.trans q.collects, l, hth ▸ hl, by rwa [Gang.thread_congr hth]⟩

theorem live_of_lineup {g u : Gang} (h : u.lineup = g.lineup) : u.live = g.live := by
  obtain ⟨hth, hw, -⟩ := lineup_fields h
  unfold Gang.live
  rw [hw, funext (Gang.thread_congr hth)]

/-- The LANEs that complete a collective: its waiting ones that are live. -/
def Gang.finishers (g : Gang) (x : Issued) : List Nat := lanesOf (x.waiting &&& g.live) g.width

/-- A gang whose next collective has been dropped, but for the settling of its counts (R289). -/
def Gang.dropNext (g : Gang) : Gang :=
  match g.issued with
  | [] => g
  | x :: rest =>
    ((((g.finishers x).filter fun l => (g.thread l).backward .fall).map (· / 4)).dedup.filter fun sl => 2 ≤ g.distinctPcs sl).foldl
      Gang.countBackward (({ g with issued := rest } : Gang).modLanes (laneSet (g.finishers x)) fun t =>
        (t.control .fall).committed (t.control .fall).pc)

theorem finishCollective_eq (s : State) (k : Nat) : s.finishCollective k = (s.modGang k Gang.dropNext).settle k := rfl

/-- The second gang is the first once it has completed its next collective, which is `x`. -/
structure Gang.Finishes (g g' : Gang) (x : Issued) : Prop where
  issued : g'.issued = g.issued.tail
  quiet : g'.Quiet
  passed : ∀ l, l < g.width → (x.waiting &&& g.live).getLsbD l = true → (g'.thread l).regs = ((g.thread l).control .fall).regs
  stay : ∀ l, l < g.width → (x.waiting &&& g.live).getLsbD l = false → (g'.thread l).regs = (g.thread l).regs

theorem getLsbD_finishers {g : Gang} {x : Issued} (hw : g.width ≤ 64) {l : Nat} (hl : l < g.width) :
    (laneSet (g.finishers x)).getLsbD l = (x.waiting &&& g.live).getLsbD l := by
  rw [getLsbD_laneSet, decide_eq_true (show l < 64 by omega), Bool.true_and, Gang.finishers]
  simp only [mem_lanesOf, hl, true_and, Bool.decide_eq_true]

theorem dropNext_finishes {g : Gang} {x : Issued} {rest : List Issued} (hi : g.issued = x :: rest) (hq : g.Quiet)
    (hlen : g.threads.length = g.width) (hw : g.width ≤ 64) : g.Finishes g.dropNext x := by
  let g1 : Gang := ({ g with issued := rest } : Gang).modLanes (laneSet (g.finishers x)) fun t =>
    (t.control .fall).committed (t.control .fall).pc
  have hkeep {α : Type} (v : Gang → α) (hv : ∀ (y : Gang) z, v { y with slices := z } = v y) : v g.dropNext = v g1 := by
    unfold Gang.dropNext
    simp only [hi]
    exact foldl_keeps Gang.countBackward v (fun b a => hv b _) _ _
  have hthreads : g.dropNext.threads = g1.threads := hkeep Gang.threads fun _ _ => rfl
  have hthread (l : Nat) (hl : l < g.width) : g.dropNext.thread l =
      if (x.waiting &&& g.live).getLsbD l = true then ((g.thread l).control .fall).committed ((g.thread l).control .fall).pc
      else g.thread l := by
    rw [Gang.thread_congr hthreads, ← getLsbD_finishers hw hl]
    exact Gang.thread_modLanes _ _ _ _ (hlen ▸ hl)
  have hstate (l : Nat) (hl : l < g.width) : (g.dropNext.thread l).tstate = (g.thread l).tstate := by
    rw [hthread l hl]
    split
    · exact Thread.control_tstate _ _
    · rfl
  refine ⟨(hkeep Gang.issued fun _ _ => rfl).trans (by rw [hi]; rfl), ⟨?_, ?_, ?_⟩, fun l hl hb => ?_, fun l hl hb => ?_⟩
  · exact (hkeep Gang.gathers fun _ _ => rfl).trans hq.gathers
  · exact (hkeep Gang.collects fun _ _ => rfl).trans hq.collects
  · obtain ⟨l, hl, hne⟩ := hq.live
    refine ⟨l, ?_, by rwa [hstate l (hlen ▸ hl)]⟩
    rw [hthreads]
    exact lt_of_lt_of_eq hl (Gang.threads_modLanes_length _ _ _).symm
  · rw [hthread l hl, if_pos hb]
    rfl
  · rw [hthread l hl, if_neg (by rw [hb]; exact Bool.false_ne_true)]

/-- One member completes its collective, and nothing else changes (R289). -/
theorem finishCollective_finishes {s : State} {k : Nat} {g : Gang} {x : Issued} {rest : List Issued} (hg : s.gang? k = some g)
    (hi : g.issued = x :: rest) (hq : g.Quiet) (hlen : g.threads.length = g.width) (hw : g.width ≤ 64) :
    ∃ g', OnlyGang s (s.finishCollective k) k g' ∧ g.Finishes g' x := by
  have fin := dropNext_finishes hi hq hlen hw
  have hmod : (s.modGang k Gang.dropNext).gang? k = some g.dropNext := by simp [hg]
  have hset := gang?_settle_quiet hmod fin.quiet
  refine ⟨g.dropNext.settleCounts, ⟨?_, fun j hj => ?_, ?_⟩, fin.issued, ?_, fin.passed, fin.stay⟩
  · rw [finishCollective_eq, hset, if_pos rfl]
  · rw [finishCollective_eq, hset, if_neg hj, State.gang?_modGang, if_neg hj]
  · rw [finishCollective_eq, settle_quiet hmod fin.quiet]
    rfl
  · exact ⟨fin.quiet.gathers, fin.quiet.collects, fin.quiet.live⟩

/-! ## Four members -/

/-- Members whose gangs are as a set's heads find them. -/
def State.LinesUp (s u : State) (ks : List Nat) : Prop :=
  ∀ k ∈ ks, (u.gang? k).map Gang.lineup = (s.gang? k).map Gang.lineup

/-- A member that has completed its collective, by what has become of its gang. -/
theorem Gang.Finishes.finished {s t : State} {k : Nat} {g u g' : Gang} {x : Issued} (h : u.Finishes g' x) (hg : s.gang? k = some g)
    (ht : t.gang? k = some g') (hu : u.lineup = g.lineup) : Finished s t k x := by
  obtain ⟨hth, hw, hi, -, -⟩ := lineup_fields hu
  have hlive := live_of_lineup hu
  obtain ⟨hissued, -, hpassed, hstay⟩ := h
  rw [hw, hlive] at hpassed hstay
  refine ⟨g, g', hg, ht, hissued.trans (congrArg List.tail hi), fun l hl hb => ?_, fun l hl hb => ?_⟩
  · rw [hpassed l hl hb, Gang.thread_congr hth]
  · rw [hstay l hl hb, Gang.thread_congr hth]

/-- Every member completes its collective, and nothing but the members changes (R287, R289). -/
theorem finishSet_finished {s : State} {blk : Nat} {ks : List Nat} {xs : List Issued} (hh : List.Forall₂ (Heads s blk) ks xs)
    (hn : ks.Nodup) (u : State) (hl : s.LinesUp u ks) :
    List.Forall₂ (Finished s (u.finishSet ks)) ks xs ∧ (∀ j, j ∉ ks → (u.finishSet ks).gang? j = u.gang? j) ∧
      { u.finishSet ks with gangs := u.gangs } = u := by
  induction hh generalizing u with
  | nil => exact ⟨.nil, fun _ _ => rfl, rfl⟩
  | @cons k x ks xs hk hks ih =>
    obtain ⟨hkn, hn⟩ := List.nodup_cons.1 hn
    obtain ⟨g, rest, hg, -, hq, hlen, hw, hi⟩ := hk
    have hmap := hl k List.mem_cons_self
    rw [hg, Option.map_some] at hmap
    obtain ⟨gu, hgu, hlu⟩ := Option.map_eq_some_iff.1 hmap
    obtain ⟨hth, hwu, hiu, -, -⟩ := lineup_fields hlu
    obtain ⟨g', only, fin⟩ := finishCollective_finishes hgu (hiu.trans hi) (quiet_of_lineup hlu hq)
      (by rw [hth, hwu, hlen]) (hwu ▸ hw)
    obtain ⟨hothers, hkeep, hrest⟩ := ih hn (u.finishCollective k) fun j hj => by
      rw [only.others j fun e => hkn (e ▸ hj)]
      exact hl j (List.mem_cons_of_mem _ hj)
    have hstep : u.finishSet (k :: ks) = (u.finishCollective k).finishSet ks := rfl
    rw [hstep]
    refine ⟨.cons (fin.finished hg ((hkeep k hkn).trans only.gang) hlu) hothers, fun j hj => ?_, ?_⟩
    · rw [hkeep j fun h => hj (List.mem_cons_of_mem _ h), only.others j fun e => hj (e ▸ List.mem_cons_self)]
    · exact (congrArg (fun t : State => { t with gangs := u.gangs }) hrest).trans only.rest

end Sys2Proof.Machine
end

