-- ==== Sys2Proof/Proofs/Tiles.lean ====
section
/-! PROOFS. Accumulator tiles, and the images that collectives read and write (R97, R98, R284, R288). -/

namespace Sys2Proof.Machine

/-! ## Tiles -/

/-- A table of a function's values lists those that are not the default, and reads as the function. -/
theorem getD_tabulate {n : Nat} (f : Nat → W32) {i : Nat} (hi : i < n) :
    Tab.getD (((List.range n).map fun i => (i, f i)).filter fun c => c.2 != 0) i 0 = f i := by
  unfold Tab.getD Tab.get?
  rw [List.find?_filter]
  by_cases h : f i = 0
  · rw [List.find?_eq_none.2 fun c hc => ?_, h]
    · rfl
    · obtain ⟨j, -, rfl⟩ := List.mem_map.1 hc
      by_cases hj : j = i
      · simp [hj, h]
      · simp [hj]
  · have hfind : (List.range n).find? ((fun c : Nat × W32 => decide ((c.2 != 0) = true ∧ (c.1 == i) = true)) ∘ fun i => (i, f i)) =
        some i := by
      rw [List.find?_range_eq_some]
      refine ⟨by simpa using h, List.mem_range.2 hi, fun j hj => by simp [hj.ne]⟩
    rw [List.find?_map, hfind]
    rfl

/-- The elements of a tile made of a function of row and column. -/
theorem elem_tileOf (v : Nat → Nat → Nat) (busy : Nat) (poison : Bool) {m n : Nat} (hm : m < 64) (hn : n < 64) :
    Tile.elem ⟨tileOf v, busy, poison⟩ m n = v m n % 2 ^ 32 := by
  have hread : Tab.getD (tileOf v) (64 * m + n) 0 = BitVec.ofNat 32 (v ((64 * m + n) / 64) ((64 * m + n) % 64)) :=
    getD_tabulate (fun i => BitVec.ofNat 32 (v (i / 64) (i % 64))) (show 64 * m + n < 4096 by omega)
  rw [Tile.elem, hread, BitVec.toNat_ofNat, show (64 * m + n) / 64 = m by omega, show (64 * m + n) % 64 = n by omega]

theorem tile_setTile (s : State) (c i j : Nat) (t : Tile) :
    ((s.setTile c i t).core c).tile j = if j = i then t else (s.core c).tile j := by
  rw [State.setTile, State.core_modCore, if_pos rfl, CoreState.tile, Tab.getD, tab_get?_set]
  split <;> rfl

/-! ## Images read -/

/-- A read of one granule that finds no error leaves the state; an error has a kind (R340, R404). -/
theorem scratchRead_cases (s : State) (blk : Nat) (odd : Bool) (off n : Nat) :
    (∃ v, s.scratchRead blk odd off n = (s, .data v)) ∨ ∃ t k, s.scratchRead blk odd off n = (t, .bad (k + 1)) := by
  have hscan : s.scratchScan blk odd off n true = (s, 0) ∨ ∃ t k, s.scratchScan blk odd off n true = (t, k + 1) := by
    unfold State.scratchScan
    split
    · exact .inl rfl
    · dsimp only
      split
      · exact .inr ⟨_, 0, rfl⟩
      · split
        · exact .inr ⟨_, 1, rfl⟩
        · split
          · exact .inl rfl
          · exact .inr ⟨_, 0, rfl⟩
  unfold State.scratchRead
  rcases hscan with h | ⟨t, k, h⟩
  · exact .inl ⟨s.scratchBytes blk odd off n, by simp only [h]⟩
  · exact .inr ⟨t, k, by simp only [h]⟩

/-- Steps of which each that finds no error leaves the state, and none takes an earlier error back. -/
theorem foldl_found {α β : Type} (f : State × α × Nat → β → State × α × Nat)
    (hf : ∀ x y, (f x y).2.2 = 0 → x.2.2 = 0 ∧ (f x y).1 = x.1) (l : List β) (x : State × α × Nat) (h : (l.foldl f x).2.2 = 0) :
    x.2.2 = 0 ∧ (l.foldl f x).1 = x.1 := by
  induction l generalizing x with
  | nil => exact ⟨h, rfl⟩
  | cons y l ih =>
    obtain ⟨h1, h2⟩ := ih _ h
    obtain ⟨h3, h4⟩ := hf x y h1
    exact ⟨h3, h2.trans h4⟩

/-- An image without an error is read without a change of the state. -/
theorem readImage_found {s t : State} {blk v : Nat} {l : List (Bool × Nat)} (h : s.readImage blk l = (t, v, 0)) : t = s := by
  unfold State.readImage at h
  refine (congrArg Prod.fst h).symm.trans (foldl_found _ (fun x y hxy => ?_) _ (s, 0, 0) (congrArg (fun x => x.2.2) h)).2
  rcases scratchRead_cases x.1 blk y.1.1 y.1.2 16 with ⟨v, hv⟩ | ⟨t, k, hk⟩
  · rw [hv] at hxy ⊢
    exact ⟨hxy, rfl⟩
  · rw [hk] at hxy
    dsimp only at hxy
    split at hxy
    · exact absurd hxy (Nat.succ_ne_zero k)
    · next hne => exact absurd hxy hne

/-! ## Lists of a function's values -/

theorem getD_map_range {α : Type} (f : Nat → α) (d : α) {n i : Nat} (hi : i < n) : ((List.range n).map f).getD i d = f i := by
  rw [List.getD_eq_getElem?_getD, List.getElem?_map, List.getElem?_range hi]
  rfl

end Sys2Proof.Machine
end

