-- ==== Sys2Proof/Proofs/CollectiveOperations.lean ====
section
/-! PROOFS. What MLDA, MSTA and MMA do at their start, where their images and their tile let them (R97, R98, R284, R288 to R291). -/

namespace Sys2Proof.Machine

section
variable {s : State} {c blk : Nat} {ks : List Nat} {x : Issued} {xs : List Issued}

/-! ## MLDA -/

/-- The element that MLDA makes of a pattern in its image (R98, R290). -/
def widened (f : Fields) (v : Nat) : Nat :=
  if f.ty = .f32 then v else (roundFP fp32 (decodeFP (fmtOf f.ty) v false) 0 false).1

/-- The tile that MLDA makes of its image. -/
def loadedTile (f : Fields) (img : Nat) : Tile :=
  ⟨tileOf fun m n => widened f (bits img (8 * imageElem f.ty * (64 * m + n)) (8 * imageElem f.ty)), 0, false⟩

/-- MLDA of a tile that is not busy, from an image without an error (R290). -/
theorem startMlda_loads {f : Fields} {odd : Bool} {off img : Nat} {t : State}
    (ha : s.imageAt c blk x.a (4096 * imageElem f.ty) 128 = .ok (odd, off))
    (hb : ((s.core c).tile (tileNamed x.instr)).busy = 0)
    (hr : s.readImage blk (halfGranules odd off (4096 * imageElem f.ty)) = (t, img, 0)) :
    s.startMlda c blk ks f x = (s.setTile c (tileNamed x.instr) (loadedTile f img)).finishSet ks := by
  obtain rfl := readImage_found hr
  simp only [State.startMlda, ha, hb, hr, ne_eq, not_true_eq_false, if_false]
  rfl

/-! ## MSTA -/

/-- What a collective reads of every gang, with the cores and the blocks. -/
def State.ranks (s : State) := (fun j => (s.gang? j).map Gang.lineup, s.cores, s.blocks)

/-- Hits counted change a member's guards, and nothing else (R57, R291). -/
theorem ranks_countHits (s : State) (k : Nat) (x : Issued) (n : Nat) : (s.countHits k x n).ranks = s.ranks := by
  have hmod (F : Gang → Gang) (hF : ∀ g, (F g).lineup = g.lineup) : (s.modGang k F).ranks = s.ranks := by
    refine Prod.ext (funext fun j => ?_) rfl
    dsimp only [State.ranks]
    rw [State.gang?_modGang]
    split
    · rw [Option.map_map, show Gang.lineup ∘ F = Gang.lineup from funext hF]
    · rfl
  unfold State.countHits
  split
  · split
    · split
      · rfl
      · exact hmod _ fun _ => rfl
    · rfl
  · rfl

/-- The guard of the member in whose rows row `m` of a tile lies (R291). -/
def guardAt (l : List Issued) (m : Nat) : RangeGuard := ((l[m / 16]?).map Issued.guard).getD .fresh

/-- The fields of the member in whose rows row `m` of a tile lies (R291). -/
def fieldsAt (l : List Issued) (f : Fields) (m : Nat) : Fields :=
  match (l[m / 16]?).map Issued.instr with | some (.msta g) => g | _ => f

/-- The hits of a member's guard in its rows (R291). -/
def hitsAt (l : List Issued) (t : Tile) (q : Nat) : Nat :=
  ((List.range 1024).filter fun i => (guardAt l (16 * q)).hit (t.elem (16 * q + i / 64) (i % 64))).length

/-- The members' guards with their hits counted. -/
def State.hitsCounted (s : State) (ks : List Nat) (l : List Issued) (t : Tile) : State :=
  ((ks.zip l).zipIdx).foldl (fun s y => s.countHits y.1.1 y.1.2 (hitsAt l t y.2)) s

/-- Element `i` of the image that MSTA stores. -/
def storedElem (l : List Issued) (f : Fields) (t : Tile) (i : Nat) : Nat :=
  storeElem (fieldsAt l f (i / 64)) ((guardAt l (i / 64)).clamp (t.elem (i / 64) (i % 64)))

/-- The image that MSTA stores (R98, R291). -/
def storedImage (l : List Issued) (f : Fields) (t : Tile) : Nat :=
  packElems (8 * imageElem f.ty) ((List.range 4096).map (storedElem l f t))

/-- The state after MSTA has counted its hits and stored its image, full granules and all where it fills. -/
def State.stored (s : State) (blk : Nat) (odd : Bool) (off : Nat) (fill : Bool) (ks : List Nat) (l : List Issued) (f : Fields)
    (t : Tile) : State :=
  (s.hitsCounted ks l t).scratchWrite blk odd off (4096 * imageElem f.ty) (storedImage l f t) fill

theorem ranks_hitsCounted (s : State) (ks : List Nat) (l : List Issued) (t : Tile) : (s.hitsCounted ks l t).ranks = s.ranks := by
  unfold State.hitsCounted
  exact foldl_keeps _ State.ranks (fun s _ => ranks_countHits s _ _ _) _ _

theorem storedElem_member {l : List Issued} {f d : Fields} {t : Tile} {i : Nat} {y : Issued} (hy : l[i / 1024]? = some y)
    (hd : y.instr = .msta d) : storedElem l f t i = storeElem d (y.guard.clamp (t.elem (i / 64) (i % 64))) := by
  rw [show i / 1024 = i / 64 / 16 by omega] at hy
  rw [storedElem, fieldsAt, guardAt, hy, Option.map_some, Option.map_some, hd, Option.getD_some]

theorem storedImage_eq {l : List Issued} {f : Fields} {t : Tile} {v : Nat → Nat} (h : ∀ i, i < 4096 → storedElem l f t i = v i) :
    storedImage l f t = packElems (8 * imageElem f.ty) ((List.range 4096).map v) :=
  congrArg (packElems _) (List.map_congr_left fun i hi => h i (List.mem_range.1 hi))

/-- A stored image changes no member but in its guards, no core, and of the blocks the bytes that it writes. -/
theorem stored_keeps {b : Block} (odd : Bool) (off : Nat) (fill : Bool) (ks : List Nat) (l : List Issued) (f : Fields) (t : Tile)
    (hblk : s.block? blk = some b) :
    let u := s.stored blk odd off fill ks l f t
    (∀ k, (u.gang? k).map Gang.lineup = (s.gang? k).map Gang.lineup) ∧ u.cores = s.cores ∧ ∃ b', u.block? blk = some b' ∧
      WrittenHalf (b.half odd) (b'.half odd) off (4096 * imageElem f.ty) (storedImage l f t) fill := by
  have hranks := ranks_hitsCounted s ks l t
  have hblocks : (s.hitsCounted ks l t).blocks = s.blocks := congrArg (fun v => v.2.2) hranks
  obtain ⟨b', hb', hwritten, -⟩ := scratchWrite_written (s := s.hitsCounted ks l t) odd off (4096 * imageElem f.ty) (storedImage l f t)
    fill ((congrArg (Tab.get? · blk) hblocks).trans hblk)
  exact ⟨fun k => congrFun (congrArg Prod.fst hranks) k, congrArg (fun v => v.2.1) hranks, b', hb', hwritten⟩

/-- MSTA of a tile that may be stored, under guards that let it (R290, R291). -/
theorem startMsta_stores {f : Fields} {odd : Bool} {off : Nat} {b : Block}
    (ha : s.imageAt c blk x.a (4096 * imageElem f.ty) 128 = .ok (odd, off))
    (hb : ((s.core c).tile (tileNamed x.instr)).busy = 0) (hp : ((s.core c).tile (tileNamed x.instr)).poison = false)
    (hg : ∀ q, q < 4 → ∃ y, (x :: xs)[q]? = some y ∧ y.guard.act ≠ 2) (hblk : s.block? blk = some b) :
    let old := (s.core c).tile (tileNamed x.instr)
    s.startMsta c blk ks f (x :: xs) = (s.stored blk odd off (b.coreOfHalf odd != c) ks (x :: xs) f old).finishSet ks := by
  intro old
  have hany : ((List.range 4).any fun q => (guardAt (x :: xs) (16 * q)).act == 2 && hitsAt (x :: xs) old q != 0) = false := by
    refine List.any_eq_false.2 fun q hq => ?_
    obtain ⟨y, hy, hact⟩ := hg q (List.mem_range.1 hq)
    rw [guardAt, Nat.mul_div_cancel_left q (by omega), hy, Option.map_some, Option.getD_some, beq_eq_false_iff_ne.2 hact]
    simp
  have hcounted : (s.hitsCounted ks (x :: xs) old).block? blk = some b := by
    have hblocks := congrArg (fun v => Tab.get? v.2.2 blk) (ranks_hitsCounted s ks (x :: xs) old)
    exact hblocks.trans hblk
  have hown : (match (s.hitsCounted ks (x :: xs) old).block? blk with | some b => b.coreOfHalf odd == c | none => true) =
      (b.coreOfHalf odd == c) := by simp only [hcounted]
  simp only [State.startMsta, List.headD_cons, ha]
  refine (if_neg (show ¬ old.busy ≠ 0 from fun e => e hb)).trans ?_
  refine (if_neg (show ¬ old.poison = true by rw [hp]; exact Bool.false_ne_true)).trans ?_
  refine (if_neg (c := _ = true) (by rw [Bool.not_eq_true]; exact hany)).trans ?_
  exact congrArg (fun own => (s.stored blk odd off (!own) ks (x :: xs) f old).finishSet ks) hown

/-! ## MMA -/

/-- An MMA that has started on sound operands: its A image, its two scale images and the members' quarters of B (R284, R288, R289). -/
def startedMma (f : Fields) (x : Issued) (l : List Issued) (img ia ib : Nat) : PendingMma where
  tile := tileNamed x.instr
  ta := f.md.toNat
  tb := f.ty.code
  a := (List.range 64).map fun m => (List.range (kRows f.md.toNat)).map fun k =>
    bits img (8 * (m * aRowBytes f.md.toNat) + aBits f.md.toNat * k) (aBits f.md.toNat)
  scaleA := if f.md.toNat ≤ 5 then (List.range 128).map fun i => elem 8 ia i else []
  scaleB := if f.md.toNat ≤ 5 then (List.range 128).map fun i => elem 8 ib i else []
  b := l.map Issued.quarter
  bad := false
  residue := none

theorem startedMma_a (f : Fields) (x : Issued) (l : List Issued) (img ia ib : Nat) {m k : Nat} (hm : m < 64)
    (hk : k < kRows f.md.toNat) : ((startedMma f x l img ia ib).a.getD m []).getD k 0 =
      bits img (8 * (m * aRowBytes f.md.toNat) + aBits f.md.toNat * k) (aBits f.md.toNat) := by
  rw [startedMma, getD_map_range _ _ hm, getD_map_range _ _ hk]

theorem startedMma_scales {f : Fields} (hn : f.md.toNat ≤ 5) (x : Issued) (l : List Issued) (img ia ib : Nat) {j : Nat} (hj : j < 128) :
    (startedMma f x l img ia ib).scaleA.getD j 0 = elem 8 ia j ∧ (startedMma f x l img ia ib).scaleB.getD j 0 = elem 8 ib j := by
  rw [startedMma, if_pos hn, if_pos hn]
  exact ⟨getD_map_range _ _ hj, getD_map_range _ _ hj⟩

/-- A state with an MMA more for the core's accumulation. -/
def State.withMma (s : State) (c : Nat) (p : PendingMma) : State :=
  (s.setTile c p.tile { (s.core c).tile p.tile with busy := ((s.core c).tile p.tile).busy + 1 }).modCore c fun y =>
    { y with mmas := y.mmas ++ [p] }

@[simp] theorem tile_withMma (s : State) (c : Nat) (p : PendingMma) : ((s.withMma c p).core c).tile p.tile =
    { (s.core c).tile p.tile with busy := ((s.core c).tile p.tile).busy + 1 } := by
  rw [State.withMma, State.core_modCore, if_pos rfl]
  exact (tile_setTile _ _ _ _ _).trans (if_pos rfl)

@[simp] theorem mmas_withMma (s : State) (c : Nat) (p : PendingMma) : ((s.withMma c p).core c).mmas = (s.core c).mmas ++ [p] := by
  rw [State.withMma, State.core_modCore, if_pos rfl, State.setTile, State.core_modCore, if_pos rfl]

/-- MMA with operands that are read without an error (R289). -/
theorem startMma_accepts {f : Fields} {odd : Bool} {off img ia ib : Nat} {sa sb : List (Bool × Nat)}
    (ha : s.imageAt c blk x.a (64 * aRowBytes f.md.toNat) 128 = .ok (odd, off))
    (hsa : (if f.md.toNat ≤ 5 then s.scaleAt c blk (16 * (x.c % 2 ^ 16)) else .ok []) = .ok sa)
    (hsb : (if f.md.toNat ≤ 5 then s.scaleAt c blk (16 * (x.c / 2 ^ 16 % 2 ^ 16)) else .ok []) = .ok sb)
    (hr : s.readImage blk (halfGranules odd off (64 * aRowBytes f.md.toNat)) = (s, img, 0))
    (hra : s.readImage blk sa = (s, ia, 0)) (hrb : s.readImage blk sb = (s, ib, 0)) :
    s.startMma c blk ks f (x :: xs) = (s.withMma c (startedMma f x (x :: xs) img ia ib)).finishSet ks := by
  simp only [State.startMma, List.headD_cons, ha, hsa, hsb, hr, hra, hrb, bne_self_eq_false, Bool.or_false]
  rfl

end

end Sys2Proof.Machine
end

