-- ==== Sys2Proof/Proofs/CollectiveStart.lean ====
section
/-! PROOFS. The start of a collective that all four members of a set have issued (R97, R98, R287 to R291). -/

namespace Sys2Proof.Machine

/-! ## A set whose collective starts -/

/-- A core's store in a block's scratchpads. -/
def StoreEntry.inBlock (e : StoreEntry) (c blk : Nat) : Bool :=
  (e.core == c) && (match e.place with | .scratch b _ _ => b == blk | _ => false)

/-- Four members agree on a collective in which threads take part, and the core's stores to their block have been performed in the
second state (R287). -/
structure SetStarts (s s1 : State) (c set blk : Nat) (ks : List Nat) (x : Issued) (xs : List Issued) : Prop where
  ready : SetReady s c set blk ks (x :: xs)
  waiting : x.waiting ≠ 0
  drained : (s.drain fun e => e.inBlock c blk) = some s1

/-- The collective by its kind, in the state in which the core's stores have been performed. -/
def State.startNext (s : State) (c set blk : Nat) (ks : List Nat) (x : Issued) (l : List Issued) : State :=
  let tile := tileNamed x.instr
  match x.instr with
  | .mma f => (s.startMma c blk ks f l).nameTile c set tile
  | .mzero _ => if ((s.core c).tile tile).busy ≠ 0 then s else ((s.setTile c tile .fresh).finishSet ks).nameTile c set tile
  | .mlda f => (s.startMlda c blk ks f x).nameTile c set tile
  | .msta f => (s.startMsta c blk ks f l).nameTile c set tile
  | _ => s

theorem heads_issued {s : State} {blk : Nat} {ks : List Nat} {xs : List Issued} (h : List.Forall₂ (Heads s blk) ks xs) :
    (ks.filterMap fun k => (s.gang? k).bind fun g => g.issued.head?) = xs := by
  induction h with
  | nil => rfl
  | cons hk _ ih =>
    obtain ⟨g, rest, hg, -, -, -, -, hi⟩ := hk
    rw [List.filterMap_cons_some (by rw [hg, Option.bind_some, hi, List.head?_cons]), ih]

theorem heads_block {s : State} {blk : Nat} {ks : List Nat} {x : Issued} {xs : List Issued}
    (h : List.Forall₂ (Heads s blk) ks (x :: xs)) : (s.gang? (ks.headD 0)).map Gang.blk = some blk := by
  cases h with
  | cons hk _ =>
    obtain ⟨g, rest, hg, hb, -⟩ := hk
    rw [List.headD_cons, hg, Option.map_some, hb]

section
variable {s s1 : State} {c set blk : Nat} {ks : List Nat} {x : Issued} {xs : List Issued} (h : SetStarts s s1 c set blk ks x xs)
include h

theorem SetStarts.exec : Machine.exec (.matrixCollectiveStart c set) s = .next (s1.startNext c set blk ks x (x :: xs)) := by
  obtain ⟨⟨hks, hfour, -, hh, hagree⟩, hw, hd⟩ := h
  have hlen : ¬ (ks.length ≠ 4 ∨ (x :: xs).length ≠ 4) := by rw [← hh.length_eq]; simp [hfour]
  change execMatrixCollectiveStart c set s = _
  simp only [execMatrixCollectiveStart, hks, heads_issued hh, heads_block hh, hagree, hw, if_neg hlen, Bool.not_true, Bool.false_eq_true,
    if_false]
  split
  · next hn => exact absurd (hn.symm.trans hd) (Option.some_ne_none s1).symm
  · next hs => rw [Option.some.inj (hs.symm.trans hd)]; rfl

theorem SetStarts.core : s1.core c = s.core c := by
  rw [State.core, State.core, cores_of_floor (floor_drain h.drained)]

/-- Performing stores leaves what a collective reads of its members. -/
theorem SetStarts.linesUp : s.LinesUp s1 ks := fun k _ => by
  have hdeaf := congrArg (Option.map Gang.lineup) ((still_drain h.drained).gangs k)
  rwa [Option.map_map, Option.map_map] at hdeaf

/-- Every member completes, and tiles, accumulations and blocks are as the start has left them (R289). -/
theorem SetStarts.completes {u : State} (hu : s.LinesUp u ks) (tile : Nat) :
    let t := (u.finishSet ks).nameTile c set tile
    List.Forall₂ (Finished s t) ks (x :: xs) ∧ (∀ i, (t.core c).tile i = (u.core c).tile i) ∧ (t.core c).mmas = (u.core c).mmas ∧
      t.blocks = u.blocks := by
  obtain ⟨hfin, -, hrest⟩ := finishSet_finished h.ready.heads h.ready.distinct u hu
  have hcore : (u.finishSet ks).core c = u.core c := by
    change State.core { u.finishSet ks with gangs := u.gangs } c = _
    rw [hrest]
  have hblocks : (u.finishSet ks).blocks = u.blocks := by
    change State.blocks { u.finishSet ks with gangs := u.gangs } = _
    rw [hrest]
  have hname : ((u.finishSet ks).nameTile c set tile).core c =
      { u.core c with named := Tab.set (u.core c).named set (NatSet.add (Tab.getD (u.core c).named set []) tile) } := by
    rw [State.nameTile, State.core_modCore, if_pos rfl, hcore]
  exact ⟨hfin.imp fun k y hk => hk, fun i => by rw [hname]; rfl, by rw [hname], hblocks⟩

/-! ## MZERO -/

theorem SetStarts.mzero {f : Fields} (hi : x.instr = .mzero f) (hb : ((s.core c).tile (tileNamed x.instr)).busy = 0) :
    ∃ t, Machine.exec (.matrixCollectiveStart c set) s = .next t ∧ (t.core c).tile (tileNamed x.instr) = .fresh ∧
      List.Forall₂ (Finished s t) ks (x :: xs) := by
  have hrun : s1.startNext c set blk ks x (x :: xs) =
      ((s1.setTile c (tileNamed x.instr) .fresh).finishSet ks).nameTile c set (tileNamed x.instr) := by
    rw [State.startNext, h.core]
    simp only [hi] at hb ⊢
    rw [if_neg (by rw [hb]; exact fun e => e rfl)]
  obtain ⟨hfin, htiles, -, -⟩ := h.completes (u := s1.setTile c (tileNamed x.instr) .fresh) h.linesUp (tileNamed x.instr)
  exact ⟨_, h.exec.trans (congrArg _ hrun), (htiles _).trans ((tile_setTile _ _ _ _ _).trans (if_pos rfl)), hfin⟩

/-! ## MLDA -/

theorem SetStarts.mlda {f : Fields} (hi : x.instr = .mlda f) (hb : ((s.core c).tile (tileNamed x.instr)).busy = 0) {odd : Bool}
    {off img : Nat} {s2 : State} (ha : s1.imageAt c blk x.a (4096 * imageElem f.ty) 128 = .ok (odd, off))
    (hr : s1.readImage blk (halfGranules odd off (4096 * imageElem f.ty)) = (s2, img, 0)) :
    ∃ t, Machine.exec (.matrixCollectiveStart c set) s = .next t ∧ (t.core c).tile (tileNamed x.instr) = loadedTile f img ∧
      List.Forall₂ (Finished s t) ks (x :: xs) := by
  have hload := startMlda_loads (ks := ks) ha (by rw [h.core]; exact hb) hr
  have hrun : s1.startNext c set blk ks x (x :: xs) = (s1.startMlda c blk ks f x).nameTile c set (tileNamed x.instr) := by
    simp only [State.startNext, hi]
  rw [hload] at hrun
  obtain ⟨hfin, htiles, -, -⟩ := h.completes (u := s1.setTile c (tileNamed x.instr) (loadedTile f img)) h.linesUp (tileNamed x.instr)
  exact ⟨_, h.exec.trans (congrArg _ hrun), (htiles _).trans ((tile_setTile _ _ _ _ _).trans (if_pos rfl)), hfin⟩

/-! ## MSTA -/

theorem SetStarts.msta {f : Fields} (hi : x.instr = .msta f) (hb : ((s.core c).tile (tileNamed x.instr)).busy = 0)
    (hp : ((s.core c).tile (tileNamed x.instr)).poison = false)
    (hg : ∀ q, q < 4 → ∃ y, (x :: xs)[q]? = some y ∧ y.guard.act ≠ 2) {odd : Bool} {off : Nat} {b : Block}
    (ha : s1.imageAt c blk x.a (4096 * imageElem f.ty) 128 = .ok (odd, off)) (hblk : s1.block? blk = some b) :
    let old := (s.core c).tile (tileNamed x.instr)
    ∃ t b', Machine.exec (.matrixCollectiveStart c set) s = .next t ∧ t.block? blk = some b' ∧
      (t.core c).tile (tileNamed x.instr) = old ∧ List.Forall₂ (Finished s t) ks (x :: xs) ∧
      WrittenHalf (b.half odd) (b'.half odd) off (4096 * imageElem f.ty) (storedImage (x :: xs) f old) (b.coreOfHalf odd != c) := by
  intro old
  have hold : (s1.core c).tile (tileNamed x.instr) = old := by rw [h.core]
  have hstore := startMsta_stores (ks := ks) ha (hold ▸ hb) (hold ▸ hp) hg hblk
  have hrun : s1.startNext c set blk ks x (x :: xs) = (s1.startMsta c blk ks f (x :: xs)).nameTile c set (tileNamed x.instr) := by
    simp only [State.startNext, hi]
  rw [hold] at hstore
  rw [hstore] at hrun
  obtain ⟨hlines, hcores, b', hb', hwritten⟩ := stored_keeps odd off (b.coreOfHalf odd != c) ks (x :: xs) f old hblk
  obtain ⟨hfin, htiles, -, hblocks⟩ := h.completes (fun k hk => (hlines k).trans (h.linesUp k hk)) (tileNamed x.instr)
  refine ⟨_, b', h.exec.trans (congrArg _ hrun), (congrArg (Tab.get? · blk) hblocks).trans hb', (htiles _).trans ?_, hfin, hwritten⟩
  rw [State.core, hcores]
  exact hold

/-! ## MMA -/

theorem SetStarts.mma {f : Fields} (hi : x.instr = .mma f) {odd : Bool} {off img ia ib : Nat} {sa sb : List (Bool × Nat)}
    {s2 s3 s4 : State} (ha : s1.imageAt c blk x.a (64 * aRowBytes f.md.toNat) 128 = .ok (odd, off))
    (hsa : (if f.md.toNat ≤ 5 then s1.scaleAt c blk (16 * (x.c % 2 ^ 16)) else .ok []) = .ok sa)
    (hsb : (if f.md.toNat ≤ 5 then s1.scaleAt c blk (16 * (x.c / 2 ^ 16 % 2 ^ 16)) else .ok []) = .ok sb)
    (hr : s1.readImage blk (halfGranules odd off (64 * aRowBytes f.md.toNat)) = (s2, img, 0))
    (hra : s2.readImage blk sa = (s3, ia, 0)) (hrb : s3.readImage blk sb = (s4, ib, 0)) :
    let old := (s.core c).tile (tileNamed x.instr)
    let p := startedMma f x (x :: xs) img ia ib
    ∃ t, Machine.exec (.matrixCollectiveStart c set) s = .next t ∧ (t.core c).mmas = (s.core c).mmas ++ [p] ∧
      (t.core c).tile (tileNamed x.instr) = { old with busy := old.busy + 1 } ∧ List.Forall₂ (Finished s t) ks (x :: xs) := by
  intro old p
  obtain rfl := readImage_found hr
  obtain rfl := readImage_found hra
  obtain rfl := readImage_found hrb
  obtain ⟨hfin, htiles, hmmas, -⟩ := h.completes (u := s4.withMma c p) h.linesUp (tileNamed x.instr)
  have hrun : s4.startNext c set blk ks x (x :: xs) = (s4.startMma c blk ks f (x :: xs)).nameTile c set (tileNamed x.instr) := by
    simp only [State.startNext, hi]
  rw [startMma_accepts ha hsa hsb hr hra hrb] at hrun
  refine ⟨_, h.exec.trans (congrArg _ hrun), by rw [hmmas, mmas_withMma, h.core], (htiles _).trans ?_, hfin⟩
  exact (tile_withMma s4 c p).trans (by rw [h.core]; rfl)

end

end Sys2Proof.Machine
end

