-- ==== Sys2Proof/Proofs/MmaComplete.lean ====
section
/-! PROOFS. MMA_COMPLETE: the earliest MMA of a core accumulates, and a residue that has not matched makes an entry in the error log
(R73, R74, R289, R406, R407). -/

namespace Sys2Proof.Machine

/-! ## Entries in the error log -/

/-- Two writes one behind the other are one write. -/
theorem bytesWritten_append {m m1 m2 : Mem} {a n k x : Nat} (h1 : BytesWritten m m1 a n x)
    (h2 : BytesWritten m1 m2 (a + n) k (x / 256 ^ n)) : BytesWritten m m2 a (n + k) x := by
  intro b
  rw [h2 b]
  by_cases hb : a + n ≤ b ∧ b < a + n + k
  · rw [if_pos hb, if_pos (by omega), Nat.div_div_eq_div_mul, ← pow_add, show n + (b - (a + n)) = b - a by omega]
  · rw [if_neg hb, h1 b]
    by_cases hb1 : a ≤ b ∧ b < a + n
    · rw [if_pos hb1, if_pos (by omega)]
    · rw [if_neg hb1, if_neg (by omega)]

theorem sendChannel_keeps (s : State) (cl ch : Nat) (m : Message) :
    (s.sendChannel cl ch m).1.mem = s.mem ∧ (s.sendChannel cl ch m).1.rel = s.rel := by
  unfold State.sendChannel
  dsimp only
  split <;> exact ⟨rfl, rfl⟩

/-- An event of the error log is entered, or counted where the ring is full (R406, R425). -/
theorem logError_logged (s : State) (kind : LogKind) (unit index addr count asid : Nat) :
    Logged s (s.logError kind unit index addr count asid) kind unit index addr count asid := by
  unfold Logged State.logError
  dsimp only
  split
  · exact ⟨rfl, rfl, rfl⟩
  · have hbytes : BytesWritten s.mem.bytes
        ((s.homeWrite (s.rel.errBase + 64 * s.rel.errHead) 32 (logEntry kind unit index s.rel.errSeq s.clock addr count asid)).homeWrite
          (s.rel.errBase + 64 * s.rel.errHead + 32) 32
          (logEntry kind unit index s.rel.errSeq s.clock addr count asid / 2 ^ 256)).mem.bytes
        (s.rel.errBase + 64 * s.rel.errHead) 64 (logEntry kind unit index s.rel.errSeq s.clock addr count asid) :=
      bytesWritten_append (homeWrite_written _ _ _ _).bytes (homeWrite_written _ _ _ _).bytes
    split
    · exact ⟨rfl, rfl, hbytes⟩
    · obtain ⟨hmem, hrel⟩ := sendChannel_keeps _ _ _ _
      rw [hmem, hrel]
      exact ⟨rfl, rfl, hbytes⟩

/-- An entry starts from the log, the clock and memory alone. -/
theorem Logged.before {s u t : State} {kind : LogKind} {unit index addr count asid : Nat}
    (h : Logged u t kind unit index addr count asid) (hrel : u.rel = s.rel) (hclock : u.clock = s.clock) (hmem : u.mem = s.mem) :
    Logged s t kind unit index addr count asid := by
  unfold Logged at h ⊢
  rw [hrel, hclock, hmem] at h
  exact h

/-- An entry changes the log and memory alone. -/
theorem Logged.after {s t u : State} {kind : LogKind} {unit index addr count asid : Nat}
    (h : Logged s t kind unit index addr count asid) (hrel : u.rel = t.rel) (hmem : u.mem = t.mem) :
    Logged s u kind unit index addr count asid := by
  unfold Logged at h ⊢
  rw [hrel, hmem]
  exact h

/-! ## The accumulation -/

/-- The tile after an accumulation (R73, R74, R289). -/
def State.accumulated (s : State) (c : Nat) (p : PendingMma) : Tile :=
  let t := (s.core c).tile p.tile
  let spoilt := t.poison || p.bad || p.residue.isSome
  { data := if spoilt then tileOf fun m n => (Config.tileValue s.freeCtr (64 * m + n)).toNat
      else tileOf fun m n => mmaElem p (t.elem m n) m n
    busy := t.busy - 1, poison := spoilt }

/-- The state after a poisoned tile has taken free values (log 10). -/
def State.freed (s : State) (spoilt : Bool) : State := { s with freeCtr := s.freeCtr + spoilt.toNat }

/-- The state with the entry that a residue makes, if it has not matched (R407). -/
def State.residueLogged (s : State) (c : Nat) (p : PendingMma) : State :=
  let u := s.freed (((s.core c).tile p.tile).poison || p.bad || p.residue.isSome)
  match p.residue with
  | some q => u.logError .residue 2 (c + 256 * q) 0 1 ((((s.core c).owner).map fun b => (s.spaceOf b).1).getD 0)
  | none => u

/-- A tile replaced, and the MMAs that are left. -/
def State.withTile (s : State) (c i : Nat) (t : Tile) (rest : List PendingMma) : State :=
  (s.setTile c i t).modCore c fun x => { x with mmas := rest }

theorem exec_mmaComplete {s : State} {c : Nat} {p : PendingMma} {rest : List PendingMma} (h : (s.core c).mmas = p :: rest) :
    exec (.mmaComplete c) s = .next ((s.residueLogged c p).withTile c p.tile (s.accumulated c p) rest) := by
  change execMmaComplete c s = _
  simp only [execMmaComplete, h]
  rfl

@[simp] theorem mmas_withTile (s : State) (c i : Nat) (t : Tile) (rest : List PendingMma) :
    ((s.withTile c i t rest).core c).mmas = rest := by
  rw [State.withTile, State.core_modCore, if_pos rfl]

@[simp] theorem tile_withTile (s : State) (c i j : Nat) (t : Tile) (rest : List PendingMma) :
    ((s.withTile c i t rest).core c).tile j = if j = i then t else (s.core c).tile j := by
  rw [State.withTile, State.core_modCore, if_pos rfl]
  exact tile_setTile _ _ _ _ _

theorem cores_logError (s : State) (kind : LogKind) (unit index addr count asid : Nat) :
    (s.logError kind unit index addr count asid).cores = s.cores := by
  have hseat := seat_logError s kind unit index addr count asid
  simp only [State.seat, Prod.mk.injEq] at hseat
  exact hseat.1

theorem cores_residueLogged (s : State) (c : Nat) (p : PendingMma) : (s.residueLogged c p).cores = s.cores := by
  unfold State.residueLogged
  dsimp only
  split
  · exact cores_logError _ _ _ _ _ _ _
  · rfl

/-- A residue that has not matched is logged with its core and its quadrant (R407). -/
theorem residueLogged_logged {s : State} {c q : Nat} {p : PendingMma} (h : p.residue = some q) :
    Logged s (s.residueLogged c p) .residue 2 (c + 256 * q) 0 1 ((((s.core c).owner).map fun b => (s.spaceOf b).1).getD 0) := by
  unfold State.residueLogged
  simp only [h]
  exact (logError_logged (s.freed _) .residue 2 (c + 256 * q) 0 1 _).before rfl rfl rfl

theorem residueLogged_none {s : State} {c : Nat} {p : PendingMma} (h : p.residue = none) :
    ∃ b, s.residueLogged c p = s.freed b := by
  unfold State.residueLogged
  simp only [h]
  exact ⟨_, rfl⟩

/-- A sound tile takes the sums of a sound MMA (R73, R74). -/
theorem elem_accumulated {s : State} {c : Nat} {p : PendingMma} (ht : ((s.core c).tile p.tile).poison = false) (hb : p.bad = false)
    (hr : p.residue = none) {m n : Nat} (hm : m < 64) (hn : n < 64) :
    (s.accumulated c p).elem m n = mmaElem p (((s.core c).tile p.tile).elem m n) m n % 2 ^ 32 := by
  simp only [State.accumulated, ht, hb, hr, Option.isSome_none, Bool.or_self, Bool.false_eq_true, if_false]
  exact elem_tileOf _ _ _ hm hn

end Sys2Proof.Machine
end

