-- ==== Sys2Proof/Proofs/Collectives.lean ====
section
/-! PROOFS. Collectives issue, start and accumulate (R73, R74, R97, R98, R257, R287 to R291, R407). -/

namespace Sys2Proof.Machine

theorem exec_collective {i : Instr} {f : Fields} (hi : i = .mma f ∨ i = .mzero f ∨ i = .mlda f ∨ i = .msta f) (s : State) :
    exec i s = .next (s.runOp f (opCollective i f)) ∧ ∀ pc insn m n, Gather.fields ⟨pc, i, insn, m, n⟩ = some f := by
  rcases hi with rfl | rfl | rfl | rfl <;> exact ⟨rfl, fun _ _ _ _ => rfl⟩

/-- Settles O37: an issue by the gather that its threads complete, a start by what each operation makes of the tile and of the images
before its four members complete, an accumulation by the tile that it leaves and the entry that it makes. -/
theorem collectivesComplete : Obligations.CollectivesComplete := by
  unfold Obligations.CollectivesComplete
  refine ⟨?issue, ?start, ?accumulate⟩
  case issue =>
    intro f i hi s g hr hb _ hw _ _ hall
    obtain ⟨hexec, hfields⟩ := exec_collective hi s
    obtain ⟨g', hg', hissued, hgo, hgf⟩ := collective_issues hr hfields hb hw hall
    exact ⟨_, g', hexec, hg', hissued, hgo, hgf⟩
  case start =>
    intro s s1 c set blk ks x xs f hready hwait hdrain tile old done row sz
    have h : SetStarts s s1 c set blk ks x xs := ⟨hready, hwait, hdrain⟩
    refine ⟨fun hi hb => h.mzero hi hb, ?mlda, ?msta, ?mma⟩
    case mlda =>
      intro hi hb odd off s2 img ha hr
      obtain ⟨t, hexec, htile, hfin⟩ := h.mlda hi hb ha hr
      refine ⟨t, hexec, congrArg Tile.poison htile, congrArg Tile.busy htile, hfin, fun m n hm hn => ?_⟩
      rw [htile]
      exact elem_tileOf _ _ _ hm hn
    case msta =>
      intro hi hb hp hg odd off b ha hblk
      obtain ⟨t, b', hexec, hb', htile, hfin, hwritten⟩ := h.msta hi hb hp
        (fun q hq => (hg q hq).imp fun y hy => ⟨hy.1, hy.2.1⟩) ha hblk
      refine ⟨t, b', hexec, hb', htile, hfin, Eq.subst (motive := fun v =>
        WrittenHalf (b.half odd) (b'.half odd) off (4096 * sz) v (b.coreOfHalf odd != c)) (storedImage_eq fun i hi => ?_) hwritten⟩
      obtain ⟨y, hy, -, d, hd⟩ := hg (i / 1024) (by omega)
      rw [storedElem_member hy hd]
      simp only [List.getD_eq_getElem?_getD, hy, Option.getD_some, hd, old, tile]
    case mma =>
      intro hi odd off s2 img ta accepted ha hr
      refine ⟨fun hwide => ?_, fun sa sb s3 s4 ia ib hnarrow hsa hsb hra hrb => ?_⟩
      · have hno : ¬ f.md.toNat ≤ 5 := Nat.not_le.2 hwide
        obtain ⟨t, hexec, hmmas, htile, hfin⟩ := h.mma hi ha (if_neg hno) (if_neg hno) hr (s3 := s2) (s4 := s2) rfl rfl
        exact ⟨_, t, hexec, hmmas, rfl, rfl, rfl, rfl, rfl, rfl, htile, hfin, fun m k => startedMma_a f x (x :: xs) _ _ _⟩
      · obtain ⟨t, hexec, hmmas, htile, hfin⟩ := h.mma hi ha ((if_pos hnarrow).trans hsa) ((if_pos hnarrow).trans hsb) hr hra hrb
        exact ⟨_, ⟨t, hexec, hmmas, rfl, rfl, rfl, rfl, rfl, rfl, htile, hfin, fun m k => startedMma_a f x (x :: xs) _ _ _⟩,
          fun j => startedMma_scales hnarrow x (x :: xs) _ _ _⟩
  case accumulate =>
    intro s c p rest hm old
    have htile (j : Nat) := tile_withTile (s.residueLogged c p) c p.tile j (s.accumulated c p) rest
    have hown := (htile p.tile).trans (if_pos rfl)
    refine ⟨_, exec_mmaComplete hm, mmas_withTile _ _ _ _ _, by rw [hown]; rfl, by rw [hown]; rfl, fun i hi => ?_,
      fun hp hb hr m n hm hn => ?_, fun hr => ?_, fun q hq => (residueLogged_logged hq).after rfl rfl⟩
    · rw [htile, if_neg hi, State.core, State.core, cores_residueLogged]
    · rw [hown]
      exact elem_accumulated hp hb hr hm hn
    · obtain ⟨b, hfreed⟩ := residueLogged_none (s := s) (c := c) hr
      rw [hfreed]
      exact ⟨rfl, rfl, rfl⟩

end Sys2Proof.Machine
end

