-- ==== Sys2Proof/Proofs/Arrivals.lean ====
section
/-! PROOFS. The arrival step on the two words of a barrier object (R90). -/

namespace Sys2Proof.Machine

/-! ## Fields of a word -/

theorem testBit_bits (x lo n i : Nat) : (bits x lo n).testBit i = (decide (i < n) && x.testBit (lo + i)) := by
  rw [bits, Nat.testBit_mod_two_pow, Nat.testBit_div_two_pow, Nat.add_comm]

/-- A field replaced leaves a field beside it alone. -/
theorem bits_setBits_other (x lo n v : Nat) {l m : Nat} (h : l + m ≤ lo ∨ lo + n ≤ l) : bits (setBits x lo n v) l m = bits x l m := by
  refine Nat.eq_of_testBit_eq fun i => ?_
  rw [testBit_bits, testBit_bits, testBit_setBits]
  by_cases hi : i < m
  · rw [if_neg (by omega)]
  · rw [decide_eq_false hi, Bool.false_and, Bool.false_and]

/-- A flag set. -/
theorem setBits_flag (x lo : Nat) : setBits x lo 1 1 = x ||| 2 ^ lo := by
  refine Nat.eq_of_testBit_eq fun i => ?_
  rw [testBit_setBits, Nat.testBit_or, Nat.testBit_two_pow]
  by_cases hi : lo = i
  · subst hi
    simp
  · rw [if_neg (by omega), decide_eq_false hi, Bool.or_false]

/-- A flag that stands is set already. -/
theorem or_flag_of_set {x lo : Nat} (h : bits x lo 1 = 1) : x ||| 2 ^ lo = x := by
  refine Nat.eq_of_testBit_eq fun i => ?_
  rw [Nat.testBit_or, Nat.testBit_two_pow]
  by_cases hi : lo = i
  · subst hi
    rw [bits_one] at h
    simp [Bool.toNat_eq_one.1 h]
  · rw [decide_eq_false hi, Bool.or_false]

/-! ## Integers of 64 bits -/

/-- A pattern of 64 bits as an integer (R183). -/
theorem sExt_toInt (x : Nat) : sExt 64 x = (BitVec.ofNat 64 x).toInt := by
  simp only [sExt, BitVec.toInt_eq_toNat_cond, BitVec.toNat_ofNat]

theorem wrapBits_ofInt (b : Int) : wrapBits 64 b = (BitVec.ofInt 64 b).toNat := by
  rw [wrapBits, BitVec.toNat_ofInt]

/-! ## The step -/

/-- A word 0 that no arrival can be made on: POISON, a reserved flag or a reserved byte set (R89, R90). -/
def barrierBad (w0 : Nat) : Prop := bits w0 12 1 = 1 ∨ bits w0 14 2 ≠ 0 ∨ bits w0 56 8 ≠ 0

theorem arriveStep_bad {w0 : Nat} (w1 e n : Nat) (delta : Int) (h : barrierBad w0) :
    arriveStep w0 w1 e n delta = (w0 ||| 2 ^ 12, w1, .poisoned) := by
  unfold arriveStep
  by_cases hr : bits w0 14 2 ≠ 0 ∨ bits w0 56 8 ≠ 0
  · rw [if_pos hr]
    have hset : bits (setBits w0 12 1 1) 12 1 = 1 := bits_setBits_same w0 12 1 1
    dsimp only
    rw [if_pos hset, setBits_flag]
  · have hp : bits w0 12 1 = 1 := h.resolve_right hr
    rw [if_neg hr]
    dsimp only
    rw [if_pos hp, or_flag_of_set hp]

/-- On any other word the phase is compared, then the counts are taken (R90). -/
theorem arriveStep_good {w0 : Nat} (w1 e n : Nat) (delta : Int) (h : ¬ barrierBad w0) :
    let b : Int := (BitVec.ofNat 64 w1).toInt + delta
    arriveStep w0 w1 e n delta =
      if bits w0 0 12 ≠ e then (w0 ||| 2 ^ 13, w1, .rejected)
      else if bits w0 16 20 < n ∨ b < -(2 ^ 63) ∨ 2 ^ 63 - 1 < b then (w0 ||| 2 ^ 12, w1, .poisoned)
      else if bits w0 16 20 = n ∧ b = 0 then
        (setBits (setBits w0 0 12 (bits w0 0 12 + 1)) 16 20 (bits w0 36 20), 0, .accepted true)
      else (setBits w0 16 20 (bits w0 16 20 - n), (BitVec.ofInt 64 b).toNat, .accepted false) := by
  obtain ⟨hpoison, hreserved⟩ := not_or.1 h
  intro b
  have hsub : ((bits w0 16 20 : Int) - n).toNat = bits w0 16 20 - n := by omega
  have hneg : ((bits w0 16 20 : Int) - n < 0) ↔ bits w0 16 20 < n := by omega
  have hzero : ((bits w0 16 20 : Int) - n = 0) ↔ bits w0 16 20 = n := by omega
  simp only [arriveStep, if_neg hreserved, if_neg hpoison, sExt_toInt, wrapBits_ofInt, setBits_flag, hsub, hneg, hzero]
  rfl

/-- Settles O11: a bad word first, then the comparison of the phase, the overflows and the counts in the order of the step. -/
theorem barriersArrive : Obligations.BarriersArrive := by
  unfold Obligations.BarriersArrive
  intro w0 w1 e n delta _ _ _ b pend bad excess
  refine ⟨arriveStep_bad w1 e n delta, fun hb he => ?_, fun hb he hx => ?_, fun hb he hx => ?_⟩ <;>
    rw [show arriveStep w0 w1 e n delta = _ from arriveStep_good w1 e n delta hb]
  · rw [if_pos he]
  · rw [if_neg (not_not.2 he), if_pos hx]
  · have hpend : pend < 2 ^ 20 := Nat.mod_lt _ (Nat.two_pow_pos 20)
    rw [if_neg (not_not.2 he), if_neg hx]
    by_cases hdone : pend = n ∧ b = 0
    · rw [if_pos hdone, if_pos hdone]
      refine ⟨_, rfl, ?_, ?_, ?_, ?_⟩
      · rw [bits_setBits_other _ _ _ _ (by omega), bits_setBits_same, he]
      · rw [bits_setBits_same]
        exact Nat.mod_eq_of_lt (Nat.mod_lt _ (Nat.two_pow_pos 20))
      · rw [bits_setBits_other _ _ _ _ (by omega), bits_setBits_other _ _ _ _ (by omega)]
      · rw [bits_setBits_other _ _ _ _ (by omega), bits_setBits_other _ _ _ _ (by omega)]
    · rw [if_neg hdone, if_neg hdone]
      refine ⟨_, rfl, ?_, ?_, ?_⟩
      · rw [bits_setBits_same]
        exact Nat.mod_eq_of_lt (lt_of_le_of_lt (Nat.sub_le _ _) hpend)
      · exact bits_setBits_other _ _ _ _ (by omega)
      · exact bits_setBits_other _ _ _ _ (by omega)

end Sys2Proof.Machine
end

