-- ==== Sys2Proof/Proofs/BarrierObjects.lean ====
section
/-! PROOFS. The steps on barrier objects and mailboxes leave gangs alone but for their EPEND bits and their counts of failed stores
(R90, R91, R94, R145). -/

namespace Sys2Proof.Machine

theorem still_signalBarrier (s : State) (blk : Nat) (odd : Bool) (off phase : Nat) : s.Still (s.signalBarrier blk odd off phase) := by
  unfold State.signalBarrier
  split
  · exact .refl s
  · exact still_foldl _ (fun s _ => still_modGang s _ _ fun g => deaf_latchWhere g _) _ _

theorem still_arrive (s : State) (blk : Nat) (odd : Bool) (off e n : Nat) (delta : Int) : s.Still (s.arrive blk odd off e n delta).1 := by
  have h := still_scratchScan s blk odd off 16 false
  unfold State.arrive
  dsimp only
  split
  · exact (h.trans (still_scratchWrite _ _ _ _ _ _ _)).trans (still_scratchSound _ _ _ _ _)
  · have hw (a b : Nat) := (h.trans (still_scratchWrite _ blk odd off 8 a false)).trans (still_scratchWrite _ blk odd (off + 8) 8 b false)
    split
    · exact (hw _ _).trans (still_signalBarrier _ _ _ _ _)
    · exact hw _ _

theorem still_readWord0 (s : State) (blk : Nat) (odd : Bool) (off : Nat) : s.Still (s.readWord0 blk odd off).1 := by
  have h := still_scratchScan s blk odd off 8 false
  unfold State.readWord0
  dsimp only
  split
  · exact (h.trans (still_scratchWrite _ _ _ _ _ _ _)).trans (still_scratchSound _ _ _ _ _)
  · exact h

theorem still_mbxHeader (s : State) (blk n : Nat) : s.Still (s.mbxHeader blk n).1 := by
  have h := still_scratchScan s blk false (mbxOff n) 16 false
  unfold State.mbxHeader
  dsimp only
  split
  · have hw (x : Nat) := h.trans (still_scratchWrite _ blk false (mbxOff n) 16 x false)
    split
    · exact (hw _).trans (still_scratchSound _ _ _ _ _)
    · exact hw _
  · exact h

theorem still_signalMailbox (s : State) (blk n : Nat) : s.Still (s.signalMailbox blk n) :=
  still_foldl _ (fun s _ => still_modGang s _ _ fun g => deaf_latchWhere g _) _ _

theorem still_push (s : State) (blk n entry : Nat) (refuse : Bool) : s.Still (s.push blk n entry refuse).1 := by
  have h := still_mbxHeader s blk n
  unfold State.push
  dsimp only
  split
  · exact h
  · split
    · split
      · exact h.trans (still_scratchWrite _ _ _ _ _ _ _)
      · exact h
    · exact (((h.trans (still_scratchWrite _ _ _ _ _ _ _)).trans (still_scratchSound _ _ _ _ _)).trans
        (still_scratchWrite _ _ _ _ _ _ _)).trans (still_signalMailbox _ _ _)

theorem still_pop (s : State) (blk n : Nat) : s.Still (s.pop blk n).1 := by
  have h := still_mbxHeader s blk n
  unfold State.pop
  dsimp only
  split
  · exact h
  · split
    · exact h
    · exact (h.trans (still_scratchScan _ _ _ _ _ _)).trans (still_scratchWrite _ _ _ _ _ _ _)

end Sys2Proof.Machine
end

