-- ==== Sys2Proof/Proofs/Bodies.lean ====
section
/-! PROOFS. Completion speaks of what an instruction reads, writes and waits for, not of its body. -/

namespace Sys2Proof.Machine

theorem CompletesAt.ofBody {s : State} {i : Instr} {f : Fields} {op : Op} {a : State → Nat → State → Eff → Prop}
    {body : State → Nat → State × Res} (h : CompletesAt s i f { op with body := body } a) : CompletesAt s i f op a :=
  h.cast rfl rfl rfl rfl rfl rfl rfl rfl rfl

theorem CompletesVia.ofBody {i : Instr} {f : Fields} {op : Op} {a : State → Nat → State → Eff → Prop}
    {body : State → Nat → State × Res} (h : CompletesVia i f { op with body := body } a) : CompletesVia i f op a :=
  fun s => (h s).ofBody

/-- Nor does it speak of what holds an acquire after a migration (R131). -/
theorem CompletesAt.ofAwait {s : State} {i : Instr} {f : Fields} {op : Op} {a : State → Nat → State → Eff → Prop}
    (h : CompletesAt s i f op.awaitFlush a) : CompletesAt s i f op a := h.ofBody

/-- Nor does it speak of what the instruction does where its gang holds a count of failed stores (R377). -/
theorem CompletesAt.ofPublishes {s : State} {i : Instr} {f : Fields} {op : Op} {a : State → Nat → State → Eff → Prop} {on : Bool} {n : Nat}
    (h : CompletesAt s i f (op.publishes on n) a) : CompletesAt s i f op a :=
  h.cast (pubsrcs op on n).symm (pubdsts op on n).symm (pubcls op on n).symm (pubpre op on n).symm (pubctl op on n).symm
    (pubgang op on n).symm (pubeach op on n).symm (pubready op on n).symm (pubwalks op on n).symm

theorem Wakes.ofBody {row : Nat → Nat → Instr} {i : Instr} {op : Nat → Op} {a : Nat → State → Nat → State → Eff → Prop}
    {body : Nat → State → Nat → State × Res} (h : Wakes row i (fun n => { op n with body := body n }) a) : Wakes row i op a := by
  intro s k w g x hg hlen hsl q hw hx hready ha
  obtain ⟨t, s1, E, he, hacc, hW⟩ := h s k w g x hg hlen hsl q hw hx hready ha
  exact ⟨t, s1, E, he, hacc, hW.outer, hW.others, hW.gang, hW.entries⟩

end Sys2Proof.Machine
end

