-- ==== Sys2Proof/Proofs/FencesAndGranules.lean ====
section
/-! PROOFS. Loads that wait for full granules, the prefetch, FECLR and the fences complete (R87, R88, R240, R244 to R246). -/

namespace Sys2Proof.Machine

/-! ## Loads that wait for full granules -/

/-- LD.S.FW or LD.S.FC at its issue. -/
theorem full_completes {s : State} {i : Instr} {f : Fields} {consume : Bool} {n : Nat}
    (hi : exec i s = runInstr f (opFull i f consume n) s) :
    CompletesAt s i f (opFull i f consume n) (FullAccess i f consume) :=
  completes_at hi (fun _ _ _ _ => full_body i f consume n) (fun _ _ _ _ => still_full) (fun _ _ _ _ _ _ _ _ _ => rfl)
    fun _ _ _ _ h => (full_dst h).2

/-- The same through FULL_LOAD_PERFORM. -/
theorem full_wakes {i : Instr} {f : Fields} {consume : Bool}
    (hi : ∀ (s : State) (k w : Nat) (x : Wait), s.waitOf k w = some x → x.instr = i →
      exec (.fullLoadPerform k w) s = .next (s.wakeOp k x f (opFull i f consume x.seq))) :
    Wakes .fullLoadPerform i (opFull i f consume) (fun _ => FullAccess i f consume) :=
  wakes_via hi (fun n _ _ _ _ => full_body i f consume n) (fun _ _ _ _ _ h => (still_full h).keeps) (fun _ _ _ => rfl)
    fun _ _ _ _ _ h => (full_dst h).2

/-! ## The prefetch -/

/-- What PRF does to the state in a thread (R244). -/
def State.prefetch (s : State) (f : Fields) (l : Nat) : State :=
  match s.ea (.prf f) f l .glob .read 1 with
  | (s1, .ok (.glob a (.hbm pa) _)) =>
    if f.md = 0 then
      match s1.homeRead (coreOf s.focus.key) pa 1 s.focusGang.asid with
      | some (s2, .data _) => s2.fillL1 (coreOf s.focus.key) s.focusGang.asid a pa
      | _ => s
    else s1
  | _ => s

theorem exec_prf (f : Fields) (s : State) :
    exec (.prf f) s = runInstr f { frameOf (.prf f) f with body := fun s l => (s.prefetch f l, .ok Eff.none) } s := rfl

theorem prefetch_line {f : Fields} {o : State} {l : Nat} {t : State} {e : Eff} (h : PrefetchAccess f o l t e) :
    e = Eff.none ∧ o.prefetch f l = t ∧ o.Still t := by
  obtain ⟨hmd, he, s1, a, pa, pa', s2, x, hea, hread, rfl⟩ := h
  have hs := still_ea o (.prf f) f l .glob .read 1
  rw [hea] at hs
  refine ⟨he, ?_, (hs.trans (still_homeRead hread)).trans (still_fillL1 _ _ _ _ _)⟩
  simp only [State.prefetch, hea, if_pos hmd, hread]

theorem prefetch_nothing {f : Fields} {o : State} {l : Nat} {t : State} {e : Eff} (h : PrefetchNothing f o l t e) :
    e = Eff.none ∧ o.prefetch f l = t ∧ o.Still t := by
  obtain ⟨he, rfl, s1, x, hea⟩ := h
  refine ⟨he, ?_, .refl _⟩
  simp only [State.prefetch, hea]

/-- PRF completes in every way in which it succeeds or does nothing. -/
theorem prf_completes {f : Fields} {a : State → Nat → State → Eff → Prop}
    (h : ∀ {o l t e}, a o l t e → e = Eff.none ∧ o.prefetch f l = t ∧ o.Still t) :
    CompletesVia (.prf f) f (frameOf (.prf f) f) a := by
  refine .ofBody (completes_via (exec_prf f) (fun o l t e ha => ?_) (fun _ _ _ _ ha => (h ha).2.2) (fun _ _ _ _ _ _ _ _ _ => rfl)
    fun o l t e ha => ?_)
  · obtain ⟨rfl, rfl, -⟩ := h ha
    rfl
  · rw [(h ha).1]
    exact nofun

/-! ## FECLR -/

/-- FECLR's body in a thread (R245). -/
def State.feclr (f : Fields) (s : State) (l : Nat) : State × Res :=
  match s.clearRange (s.feclrAddr f l) (s.srcB (.feclr f) f l) with
  | .error c => (s, .trap ⟨l, c, Access.write.code, 0, 0, 16, 0, BitVec.ofNat 64 (s.feclrAddr f l)⟩)
  | .ok none => (s, .ok Eff.none)
  | .ok (some (odd, gs)) =>
    match s.drain fun e => e.inGranules (coreOf s.focus.key) s.focusGang.blk odd gs with
    | none => (s, .hold)
    | some t => (t.modScratch s.focusGang.blk odd fun h => { h with full := gs.foldl NatSet.del h.full }, .ok Eff.none)

theorem exec_feclr (f : Fields) (s : State) :
    exec (.feclr f) s = runInstr f { endFrame (.feclr f) f with body := State.feclr f } s := rfl

theorem feclr_access {f : Fields} {o : State} {l : Nat} {t : State} {e : Eff} (h : FeclrAccess f o l t e) :
    e = Eff.none ∧ o.feclr f l = (t, .ok Eff.none) ∧ o.Still t := by
  obtain ⟨he, ⟨hr, rfl⟩ | ⟨odd, gs, u, hr, hd, rfl⟩⟩ := h
  · refine ⟨he, ?_, .refl _⟩
    simp only [State.feclr, hr]
  · refine ⟨he, ?_, (still_drain hd).trans (still_modScratch _ _ _ _)⟩
    simp only [State.feclr, hr, hd]

theorem feclr_completes (f : Fields) : CompletesVia (.feclr f) f (endFrame (.feclr f) f) (FeclrAccess f) := by
  refine .ofBody (completes_via (exec_feclr f) (fun o l t e h => ?_) (fun _ _ _ _ h => (feclr_access h).2.2)
    (fun _ _ _ _ _ _ _ _ _ => rfl) fun o l t e h => ?_)
  · rw [(feclr_access h).1]
    exact (feclr_access h).2.1
  · rw [(feclr_access h).1]
    exact nofun

/-! ## Fences -/

/-- FENCE.ACQ as the frame runs it, before what it awaits. -/
def opFenceAcq (f : Fields) : Op :=
  Op.base (.fenceAcq f) f fun s l =>
    if s.loadsOut l then (s, .hold) else (s.acquireL1 (coreOf s.focus.key) (scopeOf f.md.toNat), .ok Eff.none)

theorem fenceAcq_completes (f : Fields) : CompletesVia (.fenceAcq f) f (frameOf (.fenceAcq f) f) (FenceAcqAccess f) := by
  intro s
  suffices h : CompletesAt s (.fenceAcq f) f (opFenceAcq f).awaitFlush (FenceAcqAccess f) from h.ofAwait.ofBody
  refine completes_at rfl ?_ ?_ (fun _ _ _ _ _ _ _ _ _ => rfl) ?_
  · rintro o l t e ⟨hs, hl, rfl, rfl⟩
    rw [await_body _ _ _ hs]
    exact if_neg (by simp [hl])
  · rintro o l t e ⟨-, -, rfl, -⟩
    exact still_acquireL1 _ _ _
  · rintro o l t e ⟨-, -, -, rfl⟩
    exact nofun

/-- FENCE.REL as the frame runs it, before what it publishes. -/
def opFenceRel (f : Fields) : Op := Op.base (.fenceRel f) f fun s _ => (s, .ok { Eff.none with fence := true })

theorem fenceRel_completes (f : Fields) : CompletesVia (.fenceRel f) f (frameOf (.fenceRel f) f) (FenceRelAccess f) := by
  intro s
  suffices h : CompletesAt s (.fenceRel f) f ((opFenceRel f).publishes (scopeOf f.md.toNat).wide 0) (FenceRelAccess f) from
    h.ofPublishes.ofBody
  refine completes_at rfl ?_ ?_ (pub_post _ _ _ _ fun _ _ _ _ => rfl) ?_
  · rintro o l t e ⟨hp, rfl, rfl⟩
    rw [pub_body _ _ _ _ _ hp]
    rfl
  · rintro o l t e ⟨-, rfl, -⟩
    exact .refl _
  · rintro o l t e ⟨-, -, rfl⟩
    exact nofun

/-- FENCE.AR as the frame runs it, before what it publishes and awaits. -/
def opFenceAr (f : Fields) : Op :=
  { endFrame (.fenceAr f) f with
    body := fun s l =>
      if s.loadsOut l then (s, .hold)
      else
        match s.drainThread s.focusGang.tag l with
        | none => (s, .hold)
        | some s => (s.acquireL1 (coreOf s.focus.key) (scopeOf f.md.toNat), .ok { Eff.none with fence := true }) }

theorem fenceAr_completes (f : Fields) : CompletesVia (.fenceAr f) f (endFrame (.fenceAr f) f) (FenceArAccess f) := by
  intro s
  suffices h : CompletesAt s (.fenceAr f) f ((opFenceAr f).publishes (scopeOf f.md.toNat).wide 0).awaitFlush (FenceArAccess f) from
    h.ofAwait.ofPublishes.ofBody
  refine completes_at rfl ?_ ?_ (pub_post (opFenceAr f) _ _ _ fun _ _ _ _ => rfl) ?_
  · rintro o l t e ⟨hs, hl, hp, u, hd, rfl, rfl⟩
    rw [await_body _ _ _ hs, pub_body _ _ _ _ _ hp]
    simp only [opFenceAr, hl, hd, Bool.false_eq_true, if_false]
  · rintro o l t e ⟨-, -, -, u, hd, rfl, -⟩
    exact (still_drainThread hd).trans (still_acquireL1 _ _ _)
  · rintro o l t e ⟨-, -, -, u, -, -, rfl⟩
    exact nofun

/-- Settles O22: the loads by the body that `FullAccess` describes, at the issue and at the wake; the others each by its body. -/
theorem fencesAndFullGranulesComplete : Obligations.FencesAndFullGranulesComplete := by
  unfold Obligations.FencesAndFullGranulesComplete
  refine ⟨fun f => ⟨fun s => full_completes rfl, fun s => full_completes rfl, full_wakes ?fw, full_wakes ?fc⟩,
    fun f => ⟨prf_completes prefetch_line, prf_completes prefetch_nothing, feclr_completes f, fenceAcq_completes f,
      fenceRel_completes f, fenceAr_completes f⟩⟩
  all_goals
    intro s k w x hw hx
    change execFullLoadPerform k w s = _
    simp only [execFullLoadPerform, hw, hx]

end Sys2Proof.Machine
end

