-- ==== Sys2Proof/Proofs/Barriers.lean ====
section
/-! PROOFS. The barrier instructions complete (R90, R259 to R264). -/

namespace Sys2Proof.Machine

/-! ## What they share -/

/-- A barrier instruction whose thread names an object does its act on it (R260). -/
theorem opBarrier_body {i : Instr} {f : Fields} {acc : Access} {act : State → Nat → Bool → Nat → State × Res} {s : State} {l off : Nat}
    {odd : Bool} (h : s.barrierAt l (s.srcA i f (s.barLane i f l)) acc = .ok (odd, off)) :
    (opBarrier i f acc act).body s l = act s l odd off := by
  simp only [opBarrier, Op.base, h]

/-- A release whose thread's earlier stores can be performed (R107, R108). -/
theorem releasing_drained {s u : State} {l : Nat} (act : State → State × Res) (h : s.drainThread s.focusGang.tag l = some u) :
    s.releasing l act = act u := by
  simp only [State.releasing, h]

theorem barrier_park (i : Instr) (f : Fields) (l r w : Nat) : (Eff.barrier i f l r w).park ≠ some .ended := by
  unfold Eff.barrier
  split <;> exact nofun

/-! ## BAR.INIT and the arrivals -/

/-- BAR.INIT as the frame runs it. -/
def opBarInit (f : Fields) : Op :=
  opBarrier (.barInit f) f .write fun s l odd off =>
    let v := s.srcB (.barInit f) f (s.barLane (.barInit f) f l)
    s.releasing l fun s =>
      let blk := s.focusGang.blk
      let w0 := bits v 20 12 + 2 ^ 16 * bits v 0 20 + 2 ^ 36 * bits v 0 20
      (((s.scratchWrite blk odd off 8 w0 false).scratchWrite blk odd (off + 8) 8 0 false).scratchSound blk odd off 16, .ok Eff.none)

theorem barInit_completes (f : Fields) :
    CompletesVia (.barInit f) f { endFrame (.barInit f) f with each := true } (BarInitAccess f) := by
  suffices h : CompletesVia (.barInit f) f (opBarInit f) (BarInitAccess f) from h.ofBody
  refine completes_via (fun _ => rfl) ?_ ?_ (fun _ _ _ _ _ _ _ _ _ => rfl) ?_
  · rintro o l t e ⟨rfl, odd, off, u, hat, hd, rfl⟩
    rw [opBarInit, opBarrier_body hat, releasing_drained _ hd]
  · rintro o l t e ⟨-, odd, off, u, -, hd, rfl⟩
    exact (((still_drainThread hd).trans (still_scratchWrite _ _ _ _ _ _ _)).trans (still_scratchWrite _ _ _ _ _ _ _)).trans
      (still_scratchSound _ _ _ _ _)
  · rintro o l t e ⟨rfl, -⟩
    exact nofun

/-- BAR.ARR and BAR.EXP. -/
theorem arrive_completes {i : Instr} {f : Fields} {delta : Nat → Int} (hi : ∀ s, exec i s = runInstr f (opArrive i f delta) s) :
    CompletesVia i f { endFrame i f with each := true } (ArriveAccess i f delta) := by
  suffices h : CompletesVia i f (opArrive i f delta) (ArriveAccess i f delta) from h.ofBody
  refine completes_via hi ?_ ?_ (fun _ _ _ _ _ _ _ _ _ => rfl) ?_
  · rintro o l t e ⟨odd, off, u, w, ph, hat, hd, ha, rfl⟩
    rw [opArrive, opBarrier_body hat]
    dsimp only
    rw [releasing_drained _ hd, ha]
  · rintro o l t e ⟨odd, off, u, w, ph, -, hd, ha, -⟩
    have hs := still_arrive u u.focusGang.blk odd off (bits (o.srcB i f (o.barLane i f l)) 0 12) (bits (o.srcB i f (o.barLane i f l)) 12 20)
      (delta (o.srcB i f (o.barLane i f l)))
    rw [ha] at hs
    exact (still_drainThread hd).trans hs
  · rintro o l t e ⟨odd, off, u, w, ph, -, -, -, rfl⟩
    exact barrier_park _ _ _ _ _

/-! ## BAR.WAIT and BAR.TEST -/

theorem still_word0 {o u : State} {blk off w : Nat} {odd : Bool} (h : o.readWord0 blk odd off = (u, w)) (c : Nat) :
    o.Still (u.acquireL1 c .block) := by
  have hs := still_readWord0 o blk odd off
  rw [h] at hs
  exact hs.trans (still_acquireL1 _ _ _)

theorem barWait_body {f : Fields} {o : State} {l : Nat} {t : State} {e : Eff} (h : BarWaitAccess f o l t e) :
    (opBarWait f).body o l = (t, .ok e) := by
  obtain ⟨hs, odd, off, u, w, hat, hr, hp, hm, rfl, rfl⟩ := h
  have hno : ¬ (bits w 12 1 = 1 ∧ f.md = 0) := fun hx => hp hx.1 hx.2
  rw [opBarWait, await_body _ _ _ hs, opBarrier_body hat]
  simp only [hr, if_neg hno, if_pos hm]

theorem barWaitAccess_still_park {f : Fields} {o : State} {l : Nat} {t : State} {e : Eff} (h : BarWaitAccess f o l t e) :
    o.Still t ∧ e.park ≠ some .ended := by
  obtain ⟨-, odd, off, u, w, -, hr, -, -, rfl, rfl⟩ := h
  exact ⟨still_word0 hr _, barrier_park _ _ _ _ _⟩

theorem barWait_completes (f : Fields) :
    CompletesVia (.barWait f) f { endFrame (.barWait f) f with each := true } (BarWaitAccess f) := by
  suffices h : CompletesVia (.barWait f) f (opBarWait f) (BarWaitAccess f) from
    h.ofBody (body := (opBarWait f).body)
  exact completes_via (fun _ => rfl) (fun _ _ _ _ => barWait_body) (fun _ _ _ _ h => (barWaitAccess_still_park h).1)
    (fun _ _ _ _ _ _ _ _ _ => rfl) fun _ _ _ _ h => (barWaitAccess_still_park h).2

theorem barWait_wakes (f : Fields) :
    Wakes .barrierWaitWake (.barWait f) (fun _ => { endFrame (.barWait f) f with each := true }) (fun _ => BarWaitAccess f) := by
  suffices h : Wakes .barrierWaitWake (.barWait f) (fun _ => opBarWait f) (fun _ => BarWaitAccess f) from
    h.ofBody (body := fun _ => (opBarWait f).body)
  refine wakes_via (f := f) (fun s k w x hw hx => ?_) (fun _ _ _ _ _ => barWait_body)
    (fun _ _ _ _ _ h => (barWaitAccess_still_park h).1.keeps) (fun _ _ _ => rfl) fun _ _ _ _ _ h => (barWaitAccess_still_park h).2
  change execBarrierWaitWake k w s = _
  simp only [execBarrierWaitWake, hw, hx]

/-- BAR.TEST as the frame runs it, before what it awaits. -/
def opBarTest (f : Fields) : Op :=
  opBarrier (.barTest f) f .read fun s l odd off =>
    let p := bits (s.srcB (.barTest f) f (s.barLane (.barTest f) f l)) 0 12
    let (s, w) := s.readWord0 s.focusGang.blk odd off
    if bits w 12 1 = 1 ∧ f.md = 0 then (s, .trap (LaneFault.plain l .barrierPoison))
    else
      (s.acquireL1 (coreOf s.focus.key) .block, .ok (Eff.pred f (bits w 0 12 != p || bits w 12 1 == 1) flagNone))

theorem barTest_completes (f : Fields) :
    CompletesVia (.barTest f) f { endFrame (.barTest f) f with each := true } (BarTestAccess f) := by
  intro s
  suffices h : CompletesAt s (.barTest f) f (opBarTest f).awaitFlush (BarTestAccess f) from h.ofAwait.ofBody
  refine completes_at rfl ?_ ?_ (fun _ _ _ _ _ _ _ _ _ => rfl) ?_
  · rintro o l t e ⟨hs, odd, off, u, w, hat, hr, hp, rfl, rfl⟩
    have hno : ¬ (bits w 12 1 = 1 ∧ f.md = 0) := fun hx => hp hx.1 hx.2
    rw [await_body _ _ _ hs, opBarTest, opBarrier_body hat]
    simp only [hr, if_neg hno]
  · rintro o l t e ⟨-, odd, off, u, w, -, hr, -, rfl, -⟩
    exact still_word0 hr _
  · rintro o l t e ⟨-, odd, off, u, w, -, -, -, -, rfl⟩
    exact nofun

/-- Settles O23: each instruction by what its act does with the object that its thread names. -/
theorem barriersComplete : Obligations.BarriersComplete := by
  unfold Obligations.BarriersComplete
  exact fun f => ⟨barInit_completes f, arrive_completes fun _ => rfl, arrive_completes fun _ => rfl, barWait_completes f,
    barTest_completes f, barWait_wakes f⟩

end Sys2Proof.Machine
end

