-- ==== Sys2Proof/Proofs/Mailboxes.lean ====
section
/-! PROOFS. The mailbox instructions complete (R93 to R95, R265, R266). -/

namespace Sys2Proof.Machine

/-- A mailbox instruction that names a mailbox of its block does its act on it (R266). -/
theorem opMailbox_body {i : Instr} {f : Fields} {act : State → Nat → Nat → State × Res} {s : State} {l : Nat} (h : s.hasMailbox f = true) :
    (opMailbox i f act).body s l = act s l f.md.toNat :=
  if_neg (Nat.not_le.2 (of_decide_eq_true h))

/-! ## Pushes -/

theorem still_pushed {o u t : State} {tag : Nat × Nat × Nat} {l blk n x : Nat} {r : MbxResult} (hd : o.drainThread tag l = some u)
    (hp : u.push blk n x false = (t, r)) : o.Still t := by
  have hs := still_push u blk n x false
  rw [hp] at hs
  exact (still_drainThread hd).trans hs

theorem pushAccess_still {i : Instr} {f : Fields} {eff : Eff} {o : State} {l : Nat} {t : State} {e : Eff} (h : PushAccess i f eff o l t e) :
    o.Still t := by
  obtain ⟨-, -, u, x, hd, hp⟩ := h
  exact still_pushed hd hp

theorem mbxPush_body {f : Fields} {o : State} {l : Nat} {t : State} {e : Eff} (h : PushAccess (.mbxPush f) f Eff.none o l t e) :
    (opPush f).body o l = (t, .ok e) := by
  obtain ⟨rfl, hm, u, x, hd, hp⟩ := h
  rw [opPush, opMailbox_body hm, releasing_drained _ hd]
  simp only [hp]

theorem push_park {i : Instr} {f : Fields} {o : State} {l : Nat} {t : State} {e : Eff} (h : PushAccess i f Eff.none o l t e) :
    e.park ≠ some .ended := by
  rw [h.1]
  exact nofun

theorem mbxPush_completes (f : Fields) :
    CompletesVia (.mbxPush f) f { endFrame (.mbxPush f) f with inOrder := true } (PushAccess (.mbxPush f) f Eff.none) := by
  suffices h : CompletesVia (.mbxPush f) f (opPush f) (PushAccess (.mbxPush f) f Eff.none) from h.ofBody
  exact completes_via (fun _ => rfl) (fun _ _ _ _ => mbxPush_body) (fun _ _ _ _ => pushAccess_still) (fun _ _ _ _ _ _ _ _ _ => rfl)
    fun _ _ _ _ => push_park

theorem mbxPush_wakes (f : Fields) :
    Wakes .mailboxPushWake (.mbxPush f) (fun _ => { endFrame (.mbxPush f) f with inOrder := true })
      (fun _ => PushAccess (.mbxPush f) f Eff.none) := by
  suffices h : Wakes .mailboxPushWake (.mbxPush f) (fun _ => opPush f) (fun _ => PushAccess (.mbxPush f) f Eff.none) from h.ofBody
  refine wakes_via (f := f) (fun s k w x hw hx => ?_) (fun _ _ _ _ _ => mbxPush_body) (fun _ _ _ _ _ h => (pushAccess_still h).keeps)
    (fun _ _ _ => rfl) fun _ _ _ _ _ => push_park
  change execMailboxPushWake k w s = _
  simp only [execMailboxPushWake, hw, hx]

/-- MBX.PUSH.TRY as the frame runs it. -/
def opPushTry (f : Fields) : Op :=
  opMailbox (.mbxPushTry f) f fun s l n =>
    s.releasing l fun s =>
      match s.push s.focusGang.blk n (s.srcA (.mbxPushTry f) f l) false with
      | (s, .corrupt) => (s, .trap (LaneFault.plain l .mailboxCorrupt))
      | (s, .done _) => (s, .ok (Eff.pred f true flagNone))
      | (s, _) => (s, .ok (Eff.pred f false flagNone))

theorem pushTry_body {f : Fields} {o u t : State} {l : Nat} {r : MbxResult} {b : Bool} (hm : o.hasMailbox f = true)
    (hd : o.drainThread o.focusGang.tag l = some u)
    (hp : u.push u.focusGang.blk f.md.toNat (u.srcA (.mbxPushTry f) f l) false = (t, r))
    (hr : (∃ x, r = .done x ∧ b = true) ∨ r = .full ∧ b = false) : (opPushTry f).body o l = (t, .ok (Eff.pred f b flagNone)) := by
  rw [opPushTry, opMailbox_body hm, releasing_drained _ hd]
  rcases hr with ⟨x, rfl, rfl⟩ | ⟨rfl, rfl⟩ <;> simp only [hp]

/-- MBX.PUSH.TRY of a mailbox that takes the entry. -/
theorem pushTry_completes (f : Fields) : CompletesVia (.mbxPushTry f) f { endFrame (.mbxPushTry f) f with inOrder := true }
    (PushAccess (.mbxPushTry f) f (Eff.pred f true flagNone)) := by
  suffices h : CompletesVia (.mbxPushTry f) f (opPushTry f) (PushAccess (.mbxPushTry f) f (Eff.pred f true flagNone)) from h.ofBody
  refine completes_via (fun _ => rfl) ?_ (fun _ _ _ _ => pushAccess_still) (fun _ _ _ _ _ _ _ _ _ => rfl) ?_
  · rintro o l t e ⟨rfl, hm, u, x, hd, hp⟩
    exact pushTry_body hm hd hp (.inl ⟨x, rfl, rfl⟩)
  · rintro o l t e ⟨rfl, -⟩
    exact nofun

/-- MBX.PUSH.TRY of a full mailbox. -/
theorem pushTry_full_completes (f : Fields) :
    CompletesVia (.mbxPushTry f) f { endFrame (.mbxPushTry f) f with inOrder := true } (FullMailbox f) := by
  suffices h : CompletesVia (.mbxPushTry f) f (opPushTry f) (FullMailbox f) from h.ofBody
  refine completes_via (fun _ => rfl) ?_ ?_ (fun _ _ _ _ _ _ _ _ _ => rfl) ?_
  · rintro o l t e ⟨rfl, hm, u, hd, hp⟩
    exact pushTry_body hm hd hp (.inr ⟨rfl, rfl⟩)
  · rintro o l t e ⟨-, -, u, hd, hp⟩
    exact still_pushed hd hp
  · rintro o l t e ⟨rfl, -⟩
    exact nofun

/-! ## Pops -/

theorem mbxPop_body {f : Fields} {n : Nat} {o : State} {l : Nat} {t : State} {e : Eff} (h : PopAccess f n o l t e) :
    (opPop f n).body o l = (t, .ok e) := by
  obtain ⟨hs, hm, he, u, x, hp, rfl, rfl⟩ := h
  rw [opPop, await_body _ _ _ hs, opMailbox_body hm]
  simp only [he, hp, Bool.false_eq_true, if_false]
  rfl

theorem popAccess_still_park {f : Fields} {n : Nat} {o : State} {l : Nat} {t : State} {e : Eff} (h : PopAccess f n o l t e) :
    o.Still t ∧ e.park ≠ some .ended := by
  obtain ⟨-, -, -, u, x, hp, rfl, rfl⟩ := h
  have hs := still_pop o o.focusGang.blk f.md.toNat
  rw [hp] at hs
  exact ⟨(hs.trans (still_acquireL1 _ _ _)).trans (still_seq _ _), nofun⟩

theorem mbxPop_completes (f : Fields) (s : State) :
    CompletesAt s (.mbxPop f) f { endFrame (.mbxPop f) f with inOrder := true } (PopAccess f s.seqCtr) := by
  suffices h : CompletesAt s (.mbxPop f) f (opPop f s.seqCtr) (PopAccess f s.seqCtr) from
    h.ofBody (body := (opPop f s.seqCtr).body)
  exact completes_at rfl (fun _ _ _ _ => mbxPop_body) (fun _ _ _ _ h => (popAccess_still_park h).1) (fun _ _ _ _ _ _ _ _ _ => rfl)
    fun _ _ _ _ h => (popAccess_still_park h).2

theorem mbxPop_wakes (f : Fields) :
    Wakes .mailboxPopWake (.mbxPop f) (fun _ => { endFrame (.mbxPop f) f with inOrder := true }) (PopAccess f) := by
  suffices h : Wakes .mailboxPopWake (.mbxPop f) (opPop f) (PopAccess f) from
    h.ofBody (body := fun n => (opPop f n).body)
  refine wakes_via (f := f) (fun s k w x hw hx => ?_) (fun _ _ _ _ _ => mbxPop_body) (fun _ _ _ _ _ h => (popAccess_still_park h).1.keeps)
    (fun _ _ _ => rfl) fun _ _ _ _ _ h => (popAccess_still_park h).2
  change execMailboxPopWake k w s = _
  simp only [execMailboxPopWake, hw, hx]

/-- Settles O24: each instruction by what its act does with the mailbox that it names. -/
theorem mailboxesComplete : Obligations.MailboxesComplete := by
  unfold Obligations.MailboxesComplete
  exact fun f => ⟨mbxPush_completes f, pushTry_completes f, pushTry_full_completes f, mbxPop_completes f, mbxPush_wakes f, mbxPop_wakes f⟩

end Sys2Proof.Machine
end

