-- ==== Sys2Proof/Proofs/PorterMessages.lean ====
section
/-! PROOFS. PMSEND, PMRECV and PCALLREC complete (R94, R95, R311, R315, R319, R320). -/

namespace Sys2Proof.Machine

/-- A custom instruction that a porter may run, and whose act is done, changes nothing more than that porter (R315). -/
theorem custom_porterDone {s s1 : State} {cl v : Nat} {d : BitVec 5} {st : PStatus} {act : State → State × PEnd}
    (hm : s.mayRun cl = true) (ha : act s = (s1, .done v st)) : PorterDone s1 (s.custom cl d act) cl d v st := by
  rw [custom_done hm ha]
  exact onlyPorter_modPorter s1 cl _

/-! ## PMSEND -/

/-- A channel with room takes a message at its end (R319). -/
theorem sendChannel_room {s : State} {cl ch : Nat} (m : Message)
    (h : (Tab.getD (s.cluster cl).channels ch []).length < Config.channelDepth) :
    ∃ t, s.sendChannel cl ch m = (t, true) ∧
      Tab.getD (t.cluster cl).channels ch [] = Tab.getD (s.cluster cl).channels ch [] ++ [m] ∧
      { t with clusters := s.clusters } = s := by
  refine ⟨_, if_neg (Nat.not_le.2 h), ?_, rfl⟩
  rw [State.cluster_setCluster, if_pos rfl, tab_getD_put, if_pos rfl]

theorem sendChannel_full {s : State} {cl ch : Nat} (m : Message)
    (h : Config.channelDepth ≤ (Tab.getD (s.cluster cl).channels ch []).length) : s.sendChannel cl ch m = (s, false) :=
  if_pos h

/-- PMSEND to a channel, whose message has been read (R319). -/
theorem pmsend_channel {s s1 t : State} {cl x dest : Nat} {d a b : BitVec 5} {sent : Bool} (hm : s.mayRun cl = true)
    (hdest : ((s.porter cl).rd a).toNat = dest) (hbit : bits dest 31 1 = 0)
    (hr : s.operandRead cl ((s.porter cl).rd b).toNat 64 = (s1, .data x)) (hcl : bits dest 0 6 < Config.numClusters)
    (hsend : s1.sendChannel (bits dest 0 6) (bits dest 6 2) ⟨cl, BitVec.ofNat 512 x⟩ = (t, sent)) :
    PorterDone t (s.pmsend cl d a b) cl d (if sent then 0 else 4) (if sent then .ok else .full) := by
  refine custom_porterDone hm ?_
  have hno : ¬ bits dest 31 1 = 1 := by omega
  simp only [hdest, if_neg hno, hr, if_neg (Nat.not_le.2 hcl), hsend]
  cases sent <;> rfl

/-- A push for a resident block whose core is up is the mailbox's own (R94, R359). -/
theorem pushTo_done {s : State} {blk n x y : Nat} {e : W128} {b : Block} (hb : s.block? blk = some b) (hres : b.state = .resident)
    (hup : s.coreDown b.core = false) (hx : e.toNat = x) (hy : (s.push blk n x true).2 = .done y) :
    s.pushTo blk n e = ((s.push blk n x true).1, .applied) := by
  have hwait : s.routerWaits b.core = false := by rw [State.routerWaits, hup, Bool.false_and]
  have hpush : s.push blk n x true = ((s.push blk n x true).1, .done y) := by rw [← hy]
  rw [State.pushTo, hb]
  simp only [hres, hwait, hup, hx, beq_self_eq_true, Bool.true_or, Bool.false_eq_true, if_true, if_false]
  rw [hpush]

/-- PMSEND to a mailbox that takes the entry, which has been read (R94, R319). -/
theorem pmsend_mailbox {s s1 : State} {cl x y k dest : Nat} {d a b : BitVec 5} {g : Gang} {blk : Block} (hm : s.mayRun cl = true)
    (hdest : ((s.porter cl).rd a).toNat = dest) (hbit : bits dest 31 1 = 1)
    (hr : s.operandRead cl ((s.porter cl).rd b).toNat 16 = (s1, .data x)) (hcl : bits dest 20 6 < Config.numClusters)
    (hn : s1.named (bits dest 20 6) (BitVec.ofNat 16 dest) = some (k, g)) (hb : s1.block? g.blk = some blk)
    (hmbx : bits dest 16 4 < blk.mailboxes) (hres : blk.state = .resident) (hup : s1.coreDown blk.core = false)
    (hy : (s1.push g.blk (bits dest 16 4) (x % 2 ^ 128) true).2 = .done y) :
    PorterDone ((s1.push g.blk (bits dest 16 4) (x % 2 ^ 128) true).1.pushedClass g.blk (bits dest 16 4) x) (s.pmsend cl d a b) cl d 0
      .ok := by
  refine custom_porterDone hm ?_
  have hpush := pushTo_done hb hres hup (e := BitVec.ofNat 128 x) (BitVec.toNat_ofNat x 128) hy
  simp only [hdest, hbit, if_true, hr, State.sendMailbox, if_neg (Nat.not_le.2 hcl), hn, hb, Option.map_some, Option.getD_some,
    if_neg (Nat.not_le.2 hmbx), hpush]
  rfl

/-! ## PMRECV -/

theorem pmrecv_empty {s : State} {cl ch : Nat} {d a b : BitVec 5} (hm : s.mayRun cl = true)
    (he : ((s.porter cl).rd a).toNat % 8 = ch) (hch : ch < 4 ∨ ch = 7) (hh : (s.cluster cl).head? ch = .none) :
    ∃ t, exec (.pmrecv cl d a b) s = .next t ∧ PorterDone s t cl d 0 .empty := by
  refine ⟨_, rfl, custom_porterDone hm ?_⟩
  have hno : ¬ (4 ≤ ch ∧ ch ≤ 6) := by omega
  simp only [he, if_neg hno, hh]

/-- PMRECV of a queue with a head, which has been written to memory: the head goes, and a message that a drive holds enters (R311,
R319, R378). -/
theorem pmrecv_head {s s1 : State} {cl ch v x y : Nat} {d a b : BitVec 5} (hm : s.mayRun cl = true)
    (he : ((s.porter cl).rd a).toNat % 8 = ch) (hch : ch < 4 ∨ ch = 7) (hh : (s.cluster cl).head? ch = some (v, x))
    (hw : s.operandWrite cl ((s.porter cl).rd b).toNat 1 x = (s1, .data y)) :
    ∃ t, exec (.pmrecv cl d a b) s = .next t ∧
      PorterDone ((s1.modCluster cl fun c => c.take ch).enterHeld cl ch) t cl d v .ok := by
  refine ⟨_, rfl, custom_porterDone hm ?_⟩
  have hno : ¬ (4 ≤ ch ∧ ch ≤ 6) := by omega
  simp only [he, if_neg hno, hh, hw]

theorem dq_sendChannel (s : State) (cl ch j : Nat) (m : Message) : ((s.sendChannel cl ch m).1.cluster j).dq = (s.cluster j).dq := by
  unfold State.sendChannel
  dsimp only
  split
  · rfl
  · rw [State.cluster_setCluster]
    split
    · next h => rw [h]
    · rfl

/-- A drive's held message enters a channel, and nothing but drives and channels changes (R378). -/
theorem enterHeld_keeps (s : State) (cl ch : Nat) :
    (s.enterHeld cl ch).mem = s.mem ∧ (s.enterHeld cl ch).gangs = s.gangs ∧ ((s.enterHeld cl ch).cluster cl).dq = (s.cluster cl).dq := by
  have hsent (m : Message) : (s.sendChannel cl ch m).1.mem = s.mem ∧ (s.sendChannel cl ch m).1.gangs = s.gangs ∧
      ((s.sendChannel cl ch m).1.cluster cl).dq = (s.cluster cl).dq :=
    ⟨(sendChannel_keeps s cl ch m).1, gangs_sendChannel s cl ch m, dq_sendChannel s cl ch cl m⟩
  unfold State.enterHeld
  split
  · split
    · next m _ _ =>
      have hm := hsent m
      split <;> next he =>
        rw [he] at hm
        exact hm
    · exact ⟨rfl, rfl, rfl⟩
  · exact ⟨rfl, rfl, rfl⟩

/-- No message enters where no drive holds one. -/
theorem enterHeld_none {s : State} (cl ch : Nat) (h : ∀ x ∈ s.drives, x.2.held = []) : s.enterHeld cl ch = s := by
  have hfind : (s.drives.find? fun d => d.2.irqChan = cl + 64 * ch ∧ d.2.held ≠ []) = .none :=
    List.find?_eq_none.2 fun d hd => by simp [h d hd]
  rw [State.enterHeld, hfind]

/-! ## PCALLREC -/

theorem pcallrec_stale {s : State} {cl : Nat} {d a b : BitVec 5} (hm : s.mayRun cl = true)
    (hr : s.callRec cl ((s.porter cl).rd a).toNat = .none) :
    ∃ t, exec (.pcallrec cl d a b) s = .next t ∧ PorterDone s t cl d 0 .stale := by
  refine ⟨_, rfl, custom_porterDone hm ?_⟩
  simp only [hr]

theorem pcallrec_written {s s1 : State} {cl y : Nat} {d a b : BitVec 5} {r : CallRec} (hm : s.mayRun cl = true)
    (hr : s.callRec cl ((s.porter cl).rd a).toNat = some r)
    (hw : s.operandWrite cl ((s.porter cl).rd b).toNat (r.classes.length + 1) (s.recordOf r) = (s1, .data y)) :
    ∃ t, exec (.pcallrec cl d a b) s = .next t ∧ PorterDone s1 t cl d r.classes.length .ok := by
  refine ⟨_, rfl, custom_porterDone hm ?_⟩
  simp only [hr, hw]

/-- Settles O46: each instruction by how its act ends, and the queue by what its end makes of it. -/
theorem porterMessagesComplete : Obligations.PorterMessagesComplete := by
  unfold Obligations.PorterMessagesComplete
  refine ⟨fun s s1 cl x d a b hm => ⟨fun hbit hr hcl => ⟨fun hroom => ?sent, fun hfull => ?full⟩,
      fun hbit hr hcl k g blk hn hb hmbx hres hup hy => ?mailbox⟩,
    fun s cl d a b hm => ⟨pmrecv_empty hm rfl, fun e rest s1 y hch hq hw => ?entry, fun m rest s1 y hch hq hw hdrives => ?message,
      pcallrec_stale hm, fun r s1 y => pcallrec_written hm⟩⟩
  case sent =>
    obtain ⟨t, hsend, hq, hrest⟩ := sendChannel_room ⟨cl, BitVec.ofNat 512 x⟩ hroom
    exact ⟨_, t, rfl, pmsend_channel hm rfl hbit hr hcl hsend, hq, hrest⟩
  case full => exact ⟨_, rfl, pmsend_channel hm rfl hbit hr hcl (sendChannel_full _ hfull)⟩
  case mailbox =>
    obtain ⟨y, hy⟩ := hy
    exact ⟨_, rfl, pmsend_mailbox hm rfl hbit hr hcl hn hb hmbx hres hup hy⟩
  case entry =>
    have hhead : (s.cluster cl).head? (((s.porter cl).rd a).toNat % 8) = some (0x100, e.bytes) := by
      rw [Cluster.head?, if_pos hch, hq]
      rfl
    obtain ⟨t, ht, hdone⟩ := pmrecv_head (d := d) hm rfl (.inr hch) hhead hw
    obtain ⟨hmem, hgangs, hdq⟩ := enterHeld_keeps (s1.modCluster cl fun c => c.take (((s.porter cl).rd a).toNat % 8)) cl
      (((s.porter cl).rd a).toNat % 8)
    refine ⟨t, _, ht, hdone, hdq.trans ?_, hmem, hgangs⟩
    rw [State.cluster_modCluster, if_pos rfl, Cluster.take, if_pos hch]
  case message =>
    have hne : ((s.porter cl).rd a).toNat % 8 ≠ 7 := by omega
    have hhead : (s.cluster cl).head? (((s.porter cl).rd a).toNat % 8) = some (0x100 + m.sender, m.data.toNat) := by
      rw [Cluster.head?, if_neg hne, hq]
      rfl
    obtain ⟨t, ht, hdone⟩ := pmrecv_head (d := d) hm rfl (.inl hch) hhead hw
    refine ⟨t, _, ht, hdone, ?_⟩
    rw [enterHeld_none _ _ (by exact hdrives), State.cluster_modCluster, if_pos rfl, Cluster.take, if_neg hne]
    exact ⟨(tab_getD_put _ _ _ _ _).trans (if_pos rfl), rfl⟩

end Sys2Proof.Machine
end

