-- ==== Sys2Proof/Proofs/Atomics.lean ====
section
/-! PROOFS. The atomic read-modify-writes complete (R114, R247 to R250). -/

namespace Sys2Proof.Machine

/-- ATOM of one operation: the new value is the operation's of the old one and Src(B) (R248). -/
theorem atom_completes {i : Instr} {f : Fields} {o : Order} {op : Nat} (hi : ∀ s, exec i s = runInstr f (opAtom i f o op) s) :
    CompletesVia i f (opAtom i f o op) (RmwAccess i f o fun s l old => some (newValue op f.ty old (s.srcB i f l))) :=
  rmw_via i f o _ _ hi

/-- Settles O21: every operation of ATOM is a read-modify-write with that operation's new value, and CAS one with Src(C) where the old
value compares equal. -/
theorem atomicsComplete : Obligations.AtomicsComplete := by
  unfold Obligations.AtomicsComplete
  exact fun f o => ⟨atom_completes fun _ => rfl, atom_completes fun _ => rfl, atom_completes fun _ => rfl, atom_completes fun _ => rfl,
    atom_completes fun _ => rfl, atom_completes fun _ => rfl, atom_completes fun _ => rfl, atom_completes fun _ => rfl,
    rmw_via (.cas o f) f o _ _ fun _ => rfl⟩

end Sys2Proof.Machine
end

