-- ==== Sys2Proof/Proofs/Editions.lean ====
section
/-! PROOFS. Editions: EDNEXT and EDSYNC complete, and an address space with no launch loses its regions (R124, R125, R127, R253). -/

namespace Sys2Proof.Machine

/-! ## EDNEXT and EDSYNC -/

/-- An edition instruction whose thread names a region does its act on it (R253). -/
theorem opEdition_body {i : Instr} {f : Fields} {act : State → Nat → Region → State × Res} {s : State} {l : Nat} {r : Region}
    (h : s.namedRegion i f l = some r) : (opEdition i f act).body s l = act s l r := by
  unfold State.namedRegion at h
  simp only [opEdition, Op.base, h]

/-- EDNEXT as the frame runs it. -/
def opEdnext (f : Fields) : Op :=
  opEdition (.ednext f) f fun s l r =>
    match s.drainThread s.focusGang.tag l with
    | none => (s, .hold)
    | some s =>
      if r.counter = 0xFFFFFFFF then (s, .ok { Eff.none with dst := [(f.d, 1, 0)] })
      else
        ({ s with regions := s.regions.map fun x =>
            if x.asid = r.asid ∧ x.slot = r.slot then { x with counter := r.counter + 1 } else x },
          .ok { Eff.none with dst := [(f.d, 1, (r.counter + 1).toNat)] })

theorem ednext_completes (f : Fields) : CompletesVia (.ednext f) f (endFrame (.ednext f) f) (EdnextAccess f) := by
  suffices h : CompletesVia (.ednext f) f (opEdnext f) (EdnextAccess f) from h.ofBody
  refine completes_via (fun _ => rfl) ?_ ?_ (fun _ _ _ _ _ _ _ _ _ => rfl) ?_
  all_goals
    rintro o l t e ⟨r, u, hr, hd, h⟩
    split at h
    all_goals obtain ⟨rfl, rfl⟩ := h
  case refine_1.isTrue hc => simp only [opEdnext, opEdition_body hr, hd, if_pos hc]
  case refine_1.isFalse hc => simp only [opEdnext, opEdition_body hr, hd, if_neg hc]
  case refine_2.isTrue => exact still_drainThread hd
  case refine_2.isFalse => exact (still_drainThread hd).trans (still_same rfl rfl rfl)
  all_goals exact nofun

/-- EDSYNC as the frame runs it, before what it awaits. -/
def opEdsync (f : Fields) : Op :=
  opEdition (.edsync f) f fun s _ r =>
    let blk := s.focusGang.blk
    match s.block? blk with
    | none => (s, .ok Eff.none)
    | some b =>
      let old := Tab.getD b.edview r.slot 0
      let v := if old < r.counter then r.counter else old
      let s := s.setBlock blk { b with edview := Tab.put b.edview 0 r.slot v }
      let s := s.acquireL1 b.core .block
      let s := if b.pair then s.acquireL1 (b.core + 1) .block else s
      (s, .ok { Eff.none with dst := [(f.d, 1, v.toNat)] })

theorem edsync_completes (f : Fields) : CompletesVia (.edsync f) f (endFrame (.edsync f) f) (EdsyncAccess f) := by
  intro s
  suffices h : CompletesAt s (.edsync f) f (opEdsync f).awaitFlush (EdsyncAccess f) from h.ofAwait.ofBody
  refine completes_at rfl ?_ ?_ (fun _ _ _ _ _ _ _ _ _ => rfl) ?_
  · rintro o l t e ⟨hs, r, b, hr, hb, rfl, rfl⟩
    rw [await_body _ _ _ hs, opEdsync, opEdition_body hr]
    simp only [hb]
  · rintro o l t e ⟨-, r, b, -, -, rfl, -⟩
    have hfirst := fun blk x => (still_setBlock o blk x).trans (still_acquireL1 _ b.core .block)
    split
    · exact (hfirst _ _).trans (still_acquireL1 _ _ _)
    · exact hfirst _ _
  · rintro o l t e ⟨-, r, b, -, -, -, rfl⟩
    exact nofun

/-! ## EDITION_AUTO_RELEASE -/

/-- No launch of an address space is queued or running (R124). -/
theorem no_user {s : State} {asid : Nat} (h : ∀ x ∈ s.dist.launches, x.2.asid = asid → x.2.status ≠ .none) :
    (s.dist.launches.any fun x => x.2.asid == asid && x.2.status.isNone) = false := by
  simpa [Option.isNone_iff_eq_none] using h

/-- With no user left, an address space loses its regions and kept counters, and where it had a region every L1 copy goes. -/
theorem exec_autoRelease {s : State} {asid : Nat} (h : ∀ x ∈ s.dist.launches, x.2.asid = asid → x.2.status ≠ .none) :
    exec (.editionAutoRelease asid) s = .next { (if ∃ r ∈ s.regions, r.asid = asid then s.dropAllL1 else s) with
      regions := s.regions.filter fun r => r.asid ≠ asid, kept := s.kept.filter fun x => x.1 ≠ asid } := by
  change Host.Outcome.next (s.autoRelease asid) = _
  rw [State.autoRelease, no_user h]
  simp

/-- The fills given up are the requests of which the steady link does not speak. -/
theorem steady_dropAllL1 (s : State) : s.dropAllL1.link.steady = s.link.steady := by
  simp only [State.dropAllL1, Link.steady, List.filter_filter, Bool.and_self]

/-- Settles O25: the two instructions each by its body, the release by whether the address space has a region. -/
theorem editionsComplete : Obligations.EditionsComplete := by
  unfold Obligations.EditionsComplete
  refine ⟨fun f => ⟨ednext_completes f, edsync_completes f⟩, fun asid s h => ⟨_, exec_autoRelease h, rfl, rfl, ?_⟩⟩
  by_cases hr : ∃ r ∈ s.regions, r.asid = asid
  · rw [if_pos hr]
    obtain ⟨r, hmem, has⟩ := hr
    exact ⟨fun hno => absurd has (hno r hmem), fun _ => rfl, steady_dropAllL1 s, rfl⟩
  · rw [if_neg hr]
    exact ⟨fun _ => ⟨rfl, rfl⟩, fun hex => absurd hex hr, rfl, rfl⟩

end Sys2Proof.Machine
end

