-- ==== Sys2Proof/Proofs/PorterAccesses.lean ====
section
/-! PROOFS. A porter's loads, stores, LR, SC and AMOs of this device's memory or the host's, its misaligned accesses and its fence
(R120, R309, R344). -/

namespace Sys2Proof.Machine

/-! ## The registers of a porter -/

theorem reservation_wr (p : Porter) (d : BitVec 5) (x : W64) : (p.wr d x).reservation = p.reservation := by
  unfold Porter.wr
  split <;> rfl

theorem reservation_loaded (p : Porter) (d : BitVec 5) (fp : Bool) (w : Nat) (u : Bool) (x : Nat) :
    (p.loaded d fp w u x).reservation = p.reservation := by
  unfold Porter.loaded
  dsimp only
  split
  · rfl
  · exact reservation_wr _ _ _

/-- A signed value loaded into an integer register. -/
theorem rd_loaded (p : Porter) {d : BitVec 5} (w x : Nat) (hd : d ≠ 0) :
    (p.loaded d false w false x).rd d = BitVec.ofInt 64 (sExt (8 * 2 ^ w) x) := rd_wr_same p _ hd

/-! ## Accesses that reach this device's memory or the host's -/

/-- A target that the porter's cluster reaches without a request: HBM or host memory. -/
def Target.near (t : Target) : Prop := (∃ a, t = .hbm a) ∨ ∃ a, t = .host a

section
variable {s s1 : State} {cl va pa : Nat} {tg : Target}

/-- The load of an integer or a float register, LR among them: the register, the next instruction and the reservation. -/
theorem porterLoad_near {s2 : State} {w x : Nat} {rd : BitVec 5} {fp u keep : Bool} (hva : va % 2 ^ w = 0)
    (ht : s.porterTarget cl va .read = (s1, .ok (tg, pa))) (hn : tg.near)
    (hr : s1.agentRead pa (2 ^ w) (s.porterAsid cl .read) = (s2, .data x)) :
    s.porterLoad cl va rd fp w u keep = s2.modPorter cl fun p =>
      { (p.loaded rd fp w u x).next with reservation := if keep then some pa else p.reservation } := by
  rw [State.porterLoad]
  obtain ⟨a, rfl⟩ | ⟨a, rfl⟩ := hn <;> simp only [ne_eq, hva, not_true_eq_false, if_false, ht, hr]

/-- A load that makes no reservation leaves the one that stands. -/
theorem porterLoad_only {s2 : State} {w x : Nat} {rd : BitVec 5} {fp u : Bool} (hva : va % 2 ^ w = 0)
    (ht : s.porterTarget cl va .read = (s1, .ok (tg, pa))) (hn : tg.near)
    (hr : s1.agentRead pa (2 ^ w) (s.porterAsid cl .read) = (s2, .data x)) :
    OnlyPorter s2 (s.porterLoad cl va rd fp w u false) cl ((s2.porter cl).loaded rd fp w u x).next := by
  rw [porterLoad_near hva ht hn hr]
  have hres : (s2.porter cl).reservation = ((s2.porter cl).loaded rd fp w u x).next.reservation := (reservation_loaded _ _ _ _ _ _).symm
  have h := onlyPorter_modPorter s2 cl fun p => { (p.loaded rd fp w u x).next with reservation := p.reservation }
  dsimp only at h
  rw [hres] at h
  exact h

theorem porterStore_near {w x : Nat} (hva : va % 2 ^ w = 0) (ht : s.porterTarget cl va .write = (s1, .ok (tg, pa))) (hn : tg.near) :
    s.porterStore cl va w x = (s1.agentWrite pa (2 ^ w) (x % 256 ^ 2 ^ w)).modPorter cl Porter.next := by
  rw [State.porterStore]
  obtain ⟨a, rfl⟩ | ⟨a, rfl⟩ := hn <;> simp only [ne_eq, hva, not_true_eq_false, if_false, ht]

/-- SC: what it writes and tells in rd where the reservation stands at the atom, and where it does not. -/
theorem porterSc_near {w x : Nat} {rd : BitVec 5} (hva : va % 2 ^ w = 0) (ht : s.porterTarget cl va .write = (s1, .ok (tg, pa)))
    (hn : tg.near) :
    s.porterSc cl va w x rd =
      if (s1.porter cl).reservation.map atomOf = some (atomOf pa) then
        (s1.agentWrite pa (2 ^ w) (x % 256 ^ 2 ^ w)).modPorter cl fun p => { (p.wr rd 0).next with reservation := none }
      else s1.modPorter cl fun p => { (p.wr rd 1).next with reservation := none } := by
  rw [State.porterSc]
  obtain ⟨a, rfl⟩ | ⟨a, rfl⟩ := hn <;> simp only [ne_eq, hva, not_true_eq_false, if_false, ht]

theorem porterAmo_near {s2 : State} {w x op old : Nat} {t : Ty} {rd : BitVec 5} (hva : va % 2 ^ w = 0)
    (ht : s.porterTarget cl va .rmw = (s1, .ok (tg, pa))) (hn : tg.near)
    (hr : s1.agentRead pa (2 ^ w) (s.porterAsid cl .rmw) = (s2, .data old)) :
    s.porterAmo cl va w x op t rd =
      (s2.homeWrite pa (2 ^ w) (newValue op t old (x % 256 ^ 2 ^ w))).modPorter cl fun p => (p.loaded rd false w false old).next := by
  rw [State.porterAmo]
  obtain ⟨a, rfl⟩ | ⟨a, rfl⟩ := hn <;> simp only [ne_eq, hva, not_true_eq_false, if_false, ht, hr]

end

/-! ## The row -/

/-- The row of an access whose porter waits for no other device. -/
theorem exec_porterAccess {s t : State} {cl : Nat} {a : PorterAccess} (hw : s.porterWaits cl = false)
    (ha : execPorterLoadStoreAmo cl a s = .next (if s.porterWaits cl then s else t)) : exec (.porterLoadStoreAmo cl a) s = .next t := by
  rw [hw, if_neg Bool.false_ne_true] at ha
  exact ha

/-- Settles O48: each access that reaches memory by what it makes of the porter, a misaligned one by its exception. -/
theorem porterAccessesComplete : Obligations.PorterAccessesComplete := by
  unfold Obligations.PorterAccessesComplete
  intro s s1 cl rd r1 r2 off w u dbl aq rl op tg pa hw
  dsimp only
  refine ⟨fun hva ht hn s2 x hr => ⟨_, exec_porterAccess hw rfl, porterLoad_only hva ht hn hr⟩,
    fun hva ht hn => ⟨_, exec_porterAccess hw rfl, ?store⟩, fun hva ht hn s2 x hr => ⟨_, exec_porterAccess hw rfl, ?lr⟩,
    fun hva ht hn => ⟨_, exec_porterAccess hw rfl, ?sc⟩, fun hva ht hn s2 old hr => ⟨_, exec_porterAccess hw rfl, ?amo⟩,
    fun hon hva => ⟨fun ht hn s2 x hr => ⟨_, exec_porterAccess hw rfl, ?fload⟩, fun ht hn => ⟨_, exec_porterAccess hw rfl, ?fstore⟩⟩,
    fun hoff => ⟨_, exec_porterAccess hw rfl, ?off⟩,
    fun hva => ⟨⟨_, exec_porterAccess hw rfl, ?loadMisaligned⟩, ⟨_, exec_porterAccess hw rfl, ?storeMisaligned⟩⟩,
    fun pr su => ⟨s.modPorter cl Porter.next, ?fence⟩⟩
  case store =>
    dsimp only
    rw [porterStore_near hva ht hn]
    exact onlyPorter_modPorter _ cl _
  case lr =>
    dsimp only
    rw [porterLoad_near hva ht hn hr, State.porter_modPorter]
    exact ⟨rfl, rd_loaded _ _ _, rfl⟩
  case sc =>
    dsimp only
    rw [porterSc_near hva ht hn]
    split
    · rw [State.porter_modPorter]
      exact ⟨rfl, rd_wr_same _ _, rfl⟩
    · rw [State.porter_modPorter]
      exact ⟨rfl, rd_wr_same _ _, rfl⟩
  case amo =>
    dsimp only
    rw [porterAmo_near hva ht hn hr, State.porter_modPorter]
    exact ⟨rd_loaded _ _ _, rfl⟩
  case fload =>
    dsimp only
    rw [if_neg (by simp [hon])]
    exact porterLoad_only hva ht hn hr
  case fstore =>
    dsimp only
    rw [if_neg (by simp [hon]), porterStore_near hva ht hn]
    exact onlyPorter_modPorter _ cl _
  case off =>
    dsimp only
    rw [if_pos hoff]
    exact porterTaken_porterExcept s cl .illegal 0
  case loadMisaligned =>
    dsimp only
    rw [State.porterLoad, if_pos hva]
    exact porterTaken_porterExcept s cl .loadMisaligned _
  case storeMisaligned =>
    dsimp only
    rw [State.porterStore, if_pos hva]
    exact porterTaken_porterExcept s cl .storeMisaligned _
  case fence =>
    refine ⟨?_, onlyPorter_modPorter s cl Porter.next⟩
    change execPorterFence cl pr su s = _
    rw [execPorterFence, hw, if_neg Bool.false_ne_true]

end Sys2Proof.Machine
end

