-- ==== Sys2Proof/Proofs/Pushes.lean ====
section
/-! PROOFS. Pushes through JPUSH: applied, held by the router, journalled, or refused for want of a block (R359, R362, R363). -/

namespace Sys2Proof.Machine

/-! ## Register writes that wait -/

theorem block?_of_seat {s t : State} (h : t.seat = s.seat) (b : Nat) : t.block? b = s.block? b :=
  congrArg (fun x : Tab CoreState × Tab Block × Dist × List Commit => Tab.get? x.2.1 b) h

theorem commits_scratchScan (s : State) (blk : Nat) (odd : Bool) (off n : Nat) (atom : Bool) :
    (s.scratchScan blk odd off n atom).1.commits = s.commits := by
  have hl (u : State) (a b c d e : Nat) : (u.logError .ueFresh a b c d e).commits = u.commits :=
    commits_of_seat (seat_logError u _ _ _ _ _ _)
  unfold State.scratchScan
  split
  · rfl
  · dsimp only
    split
    · exact hl _ _ _ _ _ _
    · split
      · rfl
      · split
        · rfl
        · exact hl _ _ _ _ _ _

theorem commits_mbxHeader (s : State) (blk n : Nat) : (s.mbxHeader blk n).1.commits = s.commits := by
  have h := commits_scratchScan s blk false (mbxOff n) 16 false
  unfold State.mbxHeader
  dsimp only
  split
  · split <;> exact h
  · exact h

/-- A push to a mailbox leaves the register writes that wait. -/
theorem commits_push (s : State) (blk n entry : Nat) (refuse : Bool) : (s.push blk n entry refuse).1.commits = s.commits := by
  have h := commits_mbxHeader s blk n
  have hsig (u : State) : (u.signalMailbox blk n).commits = u.commits := foldl_keeps _ State.commits (fun _ _ => by rfl) _ _
  unfold State.push
  dsimp only
  split
  · exact h
  · split
    · split <;> exact h
    · exact (hsig _).trans h

/-! ## Journals -/

theorem seat_amendImage (s : State) (b : Block) {f : State → Nat → State} (hf : ∀ u a, (f u a).seat = u.seat) :
    (s.amendImage b f).seat = s.seat := by
  unfold State.amendImage
  split
  · exact (seat_writeBytes _ _ _).trans (hf _ _)
  · rfl

/-- The journal takes the entry; what becomes of the block's image in memory leaves the device's record (R359). -/
theorem seat_appendJournal (s : State) (blk : Nat) (b : Block) (e : JEntry) :
    (s.appendJournal blk b e).seat = (s.setBlock blk { b with journal := b.journal ++ [e] }).seat := by
  unfold State.appendJournal
  dsimp only
  split
  · exact seat_amendImage _ _ fun u a => seat_writeBytes _ _ _
  · rfl

theorem appendJournal_unsaved (s : State) (blk : Nat) {b : Block} (e : JEntry) (h : b.state ≠ .saved) :
    s.appendJournal blk b e = s.setBlock blk { b with journal := b.journal ++ [e] } := if_neg h

/-! ## A push tried -/

/-- What JSTAT tells of a push (R363); nothing while the router holds it. -/
def PushEnd.told : PushEnd → Option Nat
  | .journalled => some 0
  | .applied => some 1
  | .full => some 2
  | .corrupt => some 4
  | .later => none

/-- A result in the JSTAT of a writer (R363). -/
def State.tell (s : State) (w r : Nat) : State := { s with dist := { s.dist with jstat := Tab.set s.dist.jstat w r } }

theorem jstat_tell (s : State) (w r d : Nat) : Tab.getD (s.tell w r).dist.jstat w d = r := by
  rw [Tab.getD, State.tell, tab_get?_set, if_pos rfl, Option.getD_some]

theorem settlePush_told {s t : State} {h : HeldPush} {r : Nat} (hp : s.jpushTo h.blk h.mbx h.entry = (t, some r)) :
    s.settlePush h = t.tell h.writer r := by
  rw [State.settlePush, hp]
  rfl

/-- No block: 3 (R363). -/
theorem settlePush_noBlock {s : State} {h : HeldPush} (hb : s.block? h.blk = .none) : s.settlePush h = s.tell h.writer 3 := by
  refine settlePush_told ?_
  rw [State.jpushTo, hb]

/-- A push names a mailbox of a block whose launch runs (R363). -/
structure State.MayPush (s : State) (h : HeldPush) (x : Block) : Prop where
  block : s.block? h.blk = some x
  launch : ∃ l, s.launch? x.lid = some l ∧ l.status = .none
  mailbox : h.mbx < x.mailboxes

section
variable {s : State} {h : HeldPush} {x : Block}

/-- For a block that is resident or saved the push is tried, and told as it ends. -/
theorem State.MayPush.jpushTo (hm : s.MayPush h x) (hst : x.state = .resident ∨ x.state = .saved) :
    s.jpushTo h.blk h.mbx h.entry = ((s.pushTo h.blk h.mbx h.entry).1, (s.pushTo h.blk h.mbx h.entry).2.told) := by
  obtain ⟨hb, ⟨l, hl, hls⟩, hn⟩ := hm
  have hlive : (((s.launch? x.lid).map fun l => l.status.isSome).getD true || x.state == .retired || x.state == .destroyed ||
      x.state == .waiting) = false := by
    rcases hst with hst | hst <;> rw [hl, hst] <;> simp [hls]
  rw [State.jpushTo, hb]
  simp only [hlive, Bool.false_eq_true, if_false, if_neg (Nat.not_le.2 hn)]
  obtain ⟨u, r⟩ := s.pushTo h.blk h.mbx h.entry
  cases r <;> rfl

/-- The mailbox takes the entry: 1. -/
theorem State.MayPush.applied {v : Nat} (hm : s.MayPush h x) (hst : x.state = .resident) (hup : s.coreDown x.core = false)
    (hv : (s.push h.blk h.mbx h.entry.toNat true).2 = .done v) :
    s.settlePush h = (s.push h.blk h.mbx h.entry.toNat true).1.tell h.writer 1 := by
  refine settlePush_told ?_
  rw [hm.jpushTo (.inl hst), pushTo_done hm.block hst hup rfl hv]
  rfl

/-- The router holds a push for a core that powers up (R362). -/
theorem State.MayPush.held (hm : s.MayPush h x) (hst : x.state = .resident) (hw : s.routerWaits x.core = true) :
    s.settlePush h = { s with routerHold := s.routerHold ++ [{ h with core := x.core }] } := by
  have hp : s.pushTo h.blk h.mbx h.entry = (s, .later) := by
    rw [State.pushTo, hm.block]
    simp only [hst, hw, beq_self_eq_true, Bool.true_or, if_true]
  rw [State.settlePush, hm.jpushTo (.inl hst), hp]
  simp only [PushEnd.told, hm.block, Option.map_some, Option.getD_some]

/-- Nothing can reach the mailbox now, and the journal takes the entry: 0 (R359). -/
theorem State.MayPush.journalled (hm : s.MayPush h x)
    (hst : x.state = .saved ∨ x.state = .resident ∧ s.coreDown x.core = true ∧ s.routerWaits x.core = false)
    (hroom : mbxOcc (Mem.readN x.even.mem (mbxOff h.mbx) 16) + Machine.journalled x.journal h.mbx < 16) (hlen : x.journal.length < 4096) :
    s.settlePush h = (s.appendJournal h.blk x (.push h.mbx h.entry)).tell h.writer 0 := by
  have hj : s.journalPush h.blk x h.mbx h.entry = (s.appendJournal h.blk x (.push h.mbx h.entry), .journalled) := if_pos ⟨hroom, hlen⟩
  have hp : s.pushTo h.blk h.mbx h.entry = (s.appendJournal h.blk x (.push h.mbx h.entry), .journalled) := by
    rw [State.pushTo, hm.block]
    rcases hst with hst | ⟨hst, hd, hw⟩
    · simpa [hst] using hj
    · simpa [hst, hd, hw] using hj
  refine settlePush_told ?_
  rw [hm.jpushTo (hst.symm.imp_left And.left), hp]
  rfl

end

/-! ## JPUSH and ROUTER_HOLD_EXPIRE -/

/-- The push that a write of JPUSH asks for (R363). -/
def Commit.push (c : Commit) : HeldPush :=
  ⟨0, blockKey (bits (c.dword 0) 0 32) (bits (c.dword 0) 32 32), bits (c.dword 1) 0 4, BitVec.ofNat 128 (c.dword 2 + 2 ^ 64 * c.dword 3),
    writerKey c.writer⟩

theorem exec_jpush {s : State} {c : Commit} {cs : List Commit} (hc : s.commits = c :: cs) (hr : c.reg = regSpace + 0x100) :
    exec .jpush s = .next ({ s with commits := cs }.settlePush c.push) := by
  have ht : s.takeCommit (· == 0x3000000000100) = some (c, { s with commits := cs }) := by
    simp only [State.takeCommit, hc, hr]
    rfl
  change execJpush s = _
  rw [execJpush, ht]
  rfl

/-- What the router holds for one core is one push, which is tried (R362). -/
theorem exec_routerHoldExpire {s : State} {c : Nat} {h : HeldPush} (hw : s.routerWaits c = false)
    (hh : s.routerHold.filter (fun y => y.core = c) = [h]) :
    exec (.routerHoldExpire c) s = .next ({ s with routerHold := s.routerHold.filter fun y => y.core ≠ c }.settlePush h) := by
  change execRouterHoldExpire c s = _
  rw [execRouterHoldExpire, hw, if_neg Bool.false_ne_true, State.settleHolds, hh]
  rfl

end Sys2Proof.Machine
end

