-- ==== Sys2Proof/Proofs/FlushesAndPower.lean ====
section
/-! PROOFS. Flushes acknowledged, and the power of cores (R131, R351, R362, R366, R399). -/

namespace Sys2Proof.Machine

/-! ## FLUSH_ACK -/

/-- A core without L1 lines, and without the fills that it has asked for. -/
def State.emptyL1 (s : State) (n : Nat) : State :=
  { s.dropFills n (fun _ => true) with cores := Tab.update s.cores n fun x => { x with l1 := [] } }

theorem core_emptyL1 (s : State) (n j : Nat) :
    (s.emptyL1 n).core j = if j = n then { s.core j with l1 := [] } else s.core j := by
  have h : Tab.get? (s.emptyL1 n).cores j = _ := tab_get?_update s.cores n j fun x => { x with l1 := [] }
  rw [State.core, Tab.getD, h, State.core, Tab.getD]
  split
  · cases Tab.get? s.cores j <;> rfl
  · rfl

theorem core_foldl_emptyL1 (ks : List Nat) (s : State) (j : Nat) :
    (ks.foldl State.emptyL1 s).core j = if j ∈ ks then { s.core j with l1 := [] } else s.core j := by
  induction ks generalizing s with
  | nil => rfl
  | cons k ks ih =>
    rw [List.foldl_cons, ih, core_emptyL1]
    by_cases hj : j = k <;> by_cases hk : j ∈ ks <;> simp [hj, hk]

/-- The cores on which gangs of a tag stand. -/
def State.tagCores (s : State) (tag : Nat × Nat × Nat) : List Nat := (s.gangs.filter fun g => g.2.tag = tag).map fun g => coreOf g.1

theorem mem_tagCores {s : State} {k : Nat} {g : Gang} (h : s.gang? k = some g) : coreOf k ∈ s.tagCores g.tag := by
  obtain ⟨c, hc, rfl⟩ := Option.map_eq_some_iff.1 h
  have hk : c.1 = k := by simpa using List.find?_some hc
  exact List.mem_map.2 ⟨c, List.mem_filter.2 ⟨List.mem_of_find?_eq_some hc, by simp⟩, by rw [hk]⟩

/-- A gang that waits for one flush less. -/
def Gang.acked (g : Gang) (tag : Nat × Nat × Nat) (x : Nat × Nat) : Gang :=
  if g.tag = tag then { g with flushFrom := g.flushFrom.erase x } else g

/-- The state after an acknowledgement (R131, R366). -/
def State.flushAcked (s : State) (c i epoch : Nat) (tag : Nat × Nat × Nat) : State :=
  ((s.tagCores tag).foldl State.emptyL1 (s.modCore c fun x => { x with flushes := x.flushes.eraseIdx i })).mapContexts
    fun g => g.acked tag (c, epoch)

theorem exec_flushAck {s : State} {c i epoch : Nat} {tag : Nat × Nat × Nat} (hf : (s.core c).flushes[i]? = some (tag, epoch))
    (hs : ∀ e ∈ s.mem.inflight, e.core = c → e.tag = tag → epoch ≤ e.epoch)
    (hr : ∀ r ∈ s.link.requests, ∀ l e, r.src = .store tag l e → epoch ≤ e) :
    exec (.flushAck c i) s = .next (s.flushAcked c i epoch tag) := by
  have hfl : s.flushed c tag epoch = true := by
    simp only [State.flushed, Bool.and_eq_true, Bool.not_eq_true', List.any_eq_false]
    refine ⟨fun e he => ?_, fun r hr' => ?_⟩
    · simp only [beq_iff_eq, decide_eq_true_eq, not_and, Nat.not_lt]
      exact fun h => hs e he h.1 h.2
    · split
      · next t l e hsrc =>
        simp only [Bool.and_eq_true, beq_iff_eq, decide_eq_true_eq, not_and, Nat.not_lt]
        rintro rfl
        exact hr r hr' l e hsrc
      · exact Bool.false_ne_true
  change execFlushAck c i s = _
  simp only [execFlushAck, hf, hfl, if_true]
  rfl

theorem flushes_flushAcked (s : State) (c i epoch : Nat) (tag : Nat × Nat × Nat) :
    ((s.flushAcked c i epoch tag).core c).flushes = (s.core c).flushes.eraseIdx i := by
  have h := core_foldl_emptyL1 (s.tagCores tag) (s.modCore c fun x => { x with flushes := x.flushes.eraseIdx i }) c
  refine (congrArg CoreState.flushes h).trans ?_
  split <;> simp

theorem gang?_flushAcked {s : State} {c i epoch k : Nat} {tag : Nat × Nat × Nat} {g : Gang} (hg : s.gang? k = some g) :
    (s.flushAcked c i epoch tag).gang? k = some (g.acked tag (c, epoch)) := by
  have h : ((s.tagCores tag).foldl State.emptyL1 (s.modCore c fun x => { x with flushes := x.flushes.eraseIdx i })).gangs = s.gangs :=
    foldl_keeps State.emptyL1 State.gangs (fun _ _ => rfl) _ _
  rw [State.flushAcked, gang?_mapContexts, State.gang?, h]
  exact congrArg (Option.map _) hg

theorem l1_flushAcked {s : State} {c i epoch k : Nat} {g : Gang} (hg : s.gang? k = some g) :
    ((s.flushAcked c i epoch g.tag).core (coreOf k)).l1 = [] := by
  have h := core_foldl_emptyL1 (s.tagCores g.tag) (s.modCore c fun x => { x with flushes := x.flushes.eraseIdx i }) (coreOf k)
  rw [if_pos (mem_tagCores hg)] at h
  exact congrArg CoreState.l1 h

/-! ## CORE_POWER_GATE -/

theorem exec_corePowerGate {s : State} {c : Nat} (hp : (s.core c).power = .up) (he : s.coreEmpty c = true) :
    exec (.corePowerGate c) s = .next (s.modCore c fun x => { x with power := .gated, powerSince := s.clock }) := by
  change execCorePowerGate c s = _
  rw [execCorePowerGate, hp, he]
  rfl

/-! ## CORE_POWER_UP_COMPLETE -/

/-- A core that has risen, before what waited for it is delivered (R399). -/
def State.risen (s : State) (c : Nat) : State :=
  s.modCore c fun x => { x with power := .up, l1 := [], icache := [], tlb := [], tiles := if x.owner = none then [] else x.tiles }

/-- The keys of the blocks whose journals are replayed then (R361, R362). -/
def State.risenBlocks (s : State) (c : Nat) : List Nat :=
  (s.blocks.filter fun b => b.2.state == .resident && b.2.holds c && b.2.coresOf.all fun x => !s.coreDown x).map Prod.fst

theorem exec_corePowerUpComplete {s : State} {c : Nat} (hp : (s.core c).power = .rising) :
    exec (.corePowerUpComplete c) s = .next ((((s.risen c).risenBlocks c).foldl State.replayJournal (s.risen c)).settleHolds c) := by
  change execCorePowerUpComplete c s = _
  rw [execCorePowerUpComplete, if_neg (by simp [hp])]
  rfl

theorem settleHolds_none {s : State} {c : Nat} (h : ∀ x ∈ s.routerHold, x.core ≠ c) : s.settleHolds c = s := by
  have h1 : s.routerHold.filter (fun x => x.core = c) = [] := List.filter_eq_nil_iff.2 fun x hx => by simp [h x hx]
  have h2 : s.routerHold.filter (fun x => x.core ≠ c) = s.routerHold := List.filter_eq_self.2 fun x hx => by simp [h x hx]
  rw [State.settleHolds, h1, h2]
  rfl

/-- Where keys rise, what a table lists at a key is what is read there. -/
theorem tab_get?_of_mem {α : Type} {t : Tab α} (hw : Tab.wf t = true) {c : Nat × α} (hc : c ∈ t) : Tab.get? t c.1 = some c.2 := by
  induction t with
  | nil => cases hc
  | cons d t ih =>
    obtain ⟨hd, ht⟩ := List.pairwise_cons.1 ((tab_wf_iff _).1 hw)
    rw [tab_get?_cons]
    rcases List.mem_cons.1 hc with rfl | hc
    · exact if_pos rfl
    · rw [if_neg (Nat.ne_of_lt (hd c hc))]
      exact ih ((tab_wf_iff _).2 ht) hc

/-- Where keys rise, the replay of an empty journal changes nothing. -/
theorem replayJournal_empty {s : State} (hw : Tab.wf s.blocks = true) {b : Nat × Block} (hb : b ∈ s.blocks) (hj : b.2.journal = []) :
    s.replayJournal b.1 = s := by
  have hg : s.block? b.1 = some b.2 := tab_get?_of_mem hw hb
  have hsame (c : Nat × Block) (hc : c ∈ s.blocks) (hk : c.1 = b.1) : c.2.journal = [] := by
    have h := tab_get?_of_mem hw hc
    rw [hk] at h
    rw [Option.some.inj (h.symm.trans hg), hj]
  have hu : Tab.update s.blocks b.1 (fun x => { x with journal := [] }) = s.blocks := by
    refine (List.map_congr_left fun c hc => ?_).trans (List.map_id _)
    split
    · next hk =>
      have h := hsame c hc hk
      obtain ⟨k, x⟩ := c
      dsimp only at h ⊢
      rw [← h]
      rfl
    · rfl
  rw [State.replayJournal, hg]
  dsimp only
  rw [hj, List.foldl_nil, State.modBlock, hu]

/-- CORE_POWER_UP_COMPLETE with no push and no journal waiting for the core (R362, R399): the last clause of the obligation. -/
def PowersUp (s : State) (c : Nat) : Prop :=
  (s.core c).power = .rising → (∀ b ∈ s.blocks, b.2.holds c = false ∨ b.2.journal = []) → (∀ h ∈ s.routerHold, h.core ≠ c) →
    ∃ t, exec (.corePowerUpComplete c) s = .next t ∧
      t.core c = { s.core c with
        power := .up, l1 := [], icache := [], tlb := [], tiles := if (s.core c).owner = .none then [] else (s.core c).tiles } ∧
      (∀ j, j ≠ c → t.core j = s.core j) ∧ t.routerHold = s.routerHold ∧ t.gangs = s.gangs ∧ t.mem = s.mem

/-- It holds where the keys of the table of blocks rise. -/
theorem powersUp_of_wf {s : State} (hw : Tab.wf s.blocks = true) (c : Nat) : PowersUp s c := by
  intro hp hj hh
  have hfold : ((s.risen c).risenBlocks c).foldl State.replayJournal (s.risen c) = s.risen c := by
    refine List.foldlRecOn (motive := fun u => u = s.risen c) _ _ rfl fun u hu k hk => ?_
    obtain ⟨b, hb, rfl⟩ := List.mem_map.1 hk
    obtain ⟨hmem, hcond⟩ := List.mem_filter.1 hb
    have hholds : b.2.holds c = true := by
      simp only [Bool.and_eq_true] at hcond
      exact hcond.1.2
    rw [hu]
    exact replayJournal_empty (s := s.risen c) hw hmem ((hj b hmem).resolve_left (by simp [hholds]))
  refine ⟨s.risen c, ?_, ?_, fun j hne => ?_, rfl, rfl, rfl⟩
  · rw [exec_corePowerUpComplete hp, hfold, settleHolds_none (s := s.risen c) hh]
  · simp [State.risen]
  · simp [State.risen, hne]

end Sys2Proof.Machine
end

