-- ==== Sys2Proof/Proofs/JournalsAndPower.lean ====
section
/-! PROOFS. Journals, flushes and power: which clause fails, in which state, and that the others hold (R131, R351, R359, R362, R363,
R366, R399). -/

namespace Sys2Proof.Machine

/-- All but the clause on a core that has risen hold in every state. -/
theorem journalsAndPower_iff : Obligations.JournalsAndPower ↔ ∀ s c, PowersUp s c := by
  unfold Obligations.JournalsAndPower
  refine ⟨fun h s c => (h.2.2.2 s c).2, fun hup => ⟨?jpush, ?expire, ?flush, fun s c => ⟨fun hp he => ?gate, hup s c⟩⟩⟩
  case jpush =>
    intro s c cs hc hr
    have run := exec_jpush hc hr
    dsimp only
    refine ⟨fun hb => ⟨_, ⟨run.trans (congrArg _ (settlePush_noBlock hb)), rfl, jstat_tell _ _ _ _⟩, rfl⟩,
      fun x l hb hl hls hn => ?_⟩
    have hm : State.MayPush { s with commits := cs } c.push x := ⟨hb, ⟨l, hl, hls⟩, hn⟩
    refine ⟨fun hst hup ⟨v, hv⟩ => ?_, fun hst hw => ?_, fun hst hroom hlen => ?_⟩
    · exact ⟨_, ⟨run.trans (congrArg _ (hm.applied hst hup hv)), commits_push _ _ _ _ _, jstat_tell _ _ _ _⟩, rfl, rfl⟩
    · exact ⟨_, run.trans (congrArg _ (hm.held hst hw)), rfl, rfl⟩
    · have hseat := seat_appendJournal { s with commits := cs } c.push.blk x (.push c.push.mbx c.push.entry)
      refine ⟨_, ⟨run.trans (congrArg _ (hm.journalled (.inl hst) hroom hlen)), commits_of_seat hseat, jstat_tell _ _ _ _⟩,
        (block?_of_seat hseat _).trans ((State.block?_setBlock _ _ _ _).trans (if_pos rfl))⟩
  case expire =>
    intro s c h x l hd hw hh hb hxc hst hl hls hn hroom hlen
    have hm : State.MayPush { s with routerHold := s.routerHold.filter fun y => y.core ≠ c } h x := ⟨hb, ⟨l, hl, hls⟩, hn⟩
    have he := hm.journalled (.inr ⟨hst, hxc ▸ hd, hxc ▸ hw⟩) hroom hlen
    rw [appendJournal_unsaved _ _ _ (by simp [hst])] at he
    exact ⟨_, (exec_routerHoldExpire hw hh).trans (congrArg _ he), (State.block?_setBlock _ _ _ _).trans (if_pos rfl), rfl,
      jstat_tell _ _ _ _, rfl⟩
  case flush =>
    intro s c i epoch tag hf hs hr
    refine ⟨_, exec_flushAck hf hs hr, flushes_flushAcked s c i epoch tag, fun k g hg => ⟨gang?_flushAcked hg, ?_⟩⟩
    rintro rfl
    exact l1_flushAcked hg
  case gate =>
    refine ⟨_, exec_corePowerGate hp he, ?_, fun j hne => ?_, rfl⟩
    · simp
    · simp [hne]

/-! ## The clause that fails -/

/-- A table of blocks that lists block 0 twice, which no step makes: what is read at the key is a resident block of core 1 with a push in
its journal; the second entry is a resident block of core 0, which rises. A gang of the block waits for the mailbox. -/
def State.twiceListed : State :=
  { State.reset with
    cores := [(0, { CoreState.fresh with power := .rising })]
    gangs := [(64, { Gang.blank with slots := [(0, ⟨some (.mailbox 0, 0), none⟩)] })]
    blocks := [(0, { placedBlock with core := 1, journal := [.push 0 7] }), (0, placedBlock)] }

/-- The second entry's key comes to the first, whose journal is replayed: the push signals the gang. -/
theorem gangs_twiceListed : ((((State.twiceListed.risen 0).risenBlocks 0).foldl State.replayJournal (State.twiceListed.risen 0)).settleHolds
    0).gangs ≠ State.twiceListed.gangs := by
  decide +kernel

theorem not_powersUp : ¬ PowersUp State.twiceListed 0 := by
  intro h
  obtain ⟨t, he, -, -, -, hg, -⟩ := h (by decide) (by decide) (by decide)
  cases (exec_corePowerUpComplete (by decide)).symm.trans he
  exact gangs_twiceListed hg

/-- Refutes O41: the clause on a core that has risen does not ask that the table of blocks list a key once. The key of a block of the
core can then name another core's block, whose journal is replayed. Where keys rise the clause holds (`powersUp_of_wf`), and the other
clauses hold in every state (`journalsAndPower_iff`). -/
theorem not_journalsAndPower : ¬ Obligations.JournalsAndPower := fun h => not_powersUp (journalsAndPower_iff.1 h _ _)

end Sys2Proof.Machine
end

