-- ==== Sys2Proof/Proofs/EventSlots.lean ====
section
/-! PROOFS. MON, EVARM, EVDIS and EVCLR complete, once for the sub-gang (R144, R145, R267 to R270). -/

namespace Sys2Proof.Machine

/-! ## Steps that keep gangs but for their slots -/

theorem keeps_setSlot (s : State) (k n : Nat) (x : EventSlot) : s.Keeps (s.setSlot k n x) :=
  keeps_modGang s k fun _ => ⟨rfl, rfl, rfl, rfl, rfl⟩

theorem keeps_clearEpend (s : State) (k : Nat) (m : BitVec 16) :
    s.Keeps (s.modGang k fun g => { g with epend := g.epend &&& m }) :=
  keeps_modGang s k fun _ => ⟨rfl, rfl, rfl, rfl, rfl⟩

theorem still_unplace (s : State) (k n : Nat) : s.Still (s.unplace k n) := still_same rfl rfl rfl

theorem still_place (s : State) (k n : Nat) (d : MonDesc) : s.Still (s.place k n d) := by
  unfold State.place
  dsimp only
  split
  · exact (still_drainRed s _).trans (still_same rfl rfl rfl)
  · exact .refl s

theorem still_tokenHolds (s : State) (k n : Nat) (g : Gang) (tk : Token) : s.Still (s.tokenHolds k n g tk).1 := by
  cases tk with
  | barrier o p =>
    simp only [State.tokenHolds]
    split
    · exact still_readWord0 _ _ _ _
    · exact .refl s
  | batch m => exact .refl s
  | mailbox m => exact still_mbxHeader _ _ _
  | monitor =>
    simp only [State.tokenHolds]
    split <;> exact .refl s
  | timer => exact .refl s

theorem still_evaluateSlot (s : State) (k n : Nat) : s.Still (s.evaluateSlot k n) := by
  unfold State.evaluateSlot
  split
  · exact .refl s
  · split
    · exact .refl s
    · next g _ _ tk _ _ =>
      have h := still_tokenHolds s k n g tk
      dsimp only
      split
      · exact h.trans (still_modGang _ _ _ fun g => deaf_latch g n)
      · exact h

/-! ## The instructions -/

/-- An instruction that runs once for its sub-gang completes where its body does what the access says, and the access keeps every
gang's threads. -/
theorem event_completes {i : Instr} {f : Fields} {body : State → Nat → State × Res} {walks : State → Nat → Option State}
    {a : State → Nat → State → Eff → Prop}
    (hi : ∀ s, exec i s = runInstr f { opGang i f body with walks := walks } s)
    (hbody : ∀ o l t e, a o l t e → body o l = (t, .ok e)) (hk : ∀ o l t e, a o l t e → o.Keeps t)
    (he : ∀ o l t e, a o l t e → e = Eff.none) :
    CompletesOnGang i f { endFrame i f with gang := true, walks := walks } a := by
  suffices h : CompletesOnGang i f { opGang i f body with walks := walks } a from h.ofBody (body := body)
  refine completes_on_gang hi hbody hk (fun _ _ _ _ _ _ _ _ _ => rfl) fun o l t e h => ?_
  rw [he o l t e h]
  exact nofun

theorem mon_completes (f : Fields) : CompletesOnGang (.mon f) f
    { endFrame (.mon f) f with
      gang := true, walks := fun s l => eaWaits (s.eaAt s.focus.key l .glob (s.srcA (.mon f) f l) f.ty.bytes .read) } (MonAccess f) := by
  refine event_completes (fun _ => rfl) ?_ ?_ fun _ _ _ _ h => h.1
  · rintro o l t e ⟨rfl, s1, a, pa, pa', hea, rfl⟩
    simp only [hea]
  · rintro o l t e ⟨-, s1, a, pa, pa', hea, rfl⟩
    have hs := still_eaAt o o.focus.key l .glob (o.srcA (.mon f) f l) f.ty.bytes .read
    rw [hea] at hs
    exact hs.keeps.trans (keeps_setSlot _ _ _ _)

theorem evarm_completes (f : Fields) : CompletesOnGang (.evarm f) f { endFrame (.evarm f) f with gang := true } (EvarmAccess f) := by
  refine event_completes (fun _ => rfl) ?_ ?_ fun _ _ _ _ h => h.1
  · rintro o l t e ⟨rfl, tk, htk, rfl⟩
    simp only [htk] <;> rfl
  · rintro o l t e ⟨-, tk, -, rfl⟩
    refine State.Keeps.trans ?_ (still_evaluateSlot _ _ _).keeps
    have hu := ((still_unplace o o.focus.key (slotOf f)).keeps.trans (keeps_setSlot _ o.focus.key (slotOf f)
      { Tab.getD o.focusGang.slots (slotOf f) .fresh with armed := some (tk, relTarget o.focus.pc f.imm.toInt) })).trans
      (keeps_clearEpend _ o.focus.key (~~~(BitVec.twoPow 16 (slotOf f))))
    split
    · exact hu.trans (still_place _ _ _ _).keeps
    · exact hu

theorem evdis_completes (f : Fields) : CompletesOnGang (.evdis f) f { endFrame (.evdis f) f with gang := true } (EvdisAccess f) := by
  refine event_completes (fun _ => rfl) ?_ ?_ fun _ _ _ _ h => h.1
  · rintro o l t e ⟨rfl, rfl⟩
    rfl
  · rintro o l t e ⟨-, rfl⟩
    exact ((still_unplace _ _ _).keeps.trans (keeps_setSlot _ _ _ _)).trans (keeps_clearEpend _ _ _)

theorem evclr_completes (f : Fields) : CompletesOnGang (.evclr f) f { endFrame (.evclr f) f with gang := true } (EvclrAccess f) := by
  refine event_completes (fun _ => rfl) ?_ ?_ fun _ _ _ _ h => h.1
  · rintro o l t e ⟨rfl, rfl⟩
    rfl
  · rintro o l t e ⟨-, rfl⟩
    exact keeps_clearEpend _ _ _

/-- Settles O28: each instruction by what its body does to the gang's slots. -/
theorem eventSlotInstructionsComplete : Obligations.EventSlotInstructionsComplete := by
  unfold Obligations.EventSlotInstructionsComplete
  exact fun f => ⟨mon_completes f, evarm_completes f, evdis_completes f, evclr_completes f⟩

end Sys2Proof.Machine
end

