-- ==== Sys2Proof/Proofs/HeldSources.lean ====
section
/-! PROOFS. A held source whose turn it is enters the delivery queue: one of the distributor, and a trap (R311, R312). -/

namespace Sys2Proof.Machine

/-! ## A trap taken with no draft to commit first -/

/-- Threads of a gang that take a trap as it stands: `TrapTaken`. -/
theorem takeTraps_taken {s : State} {k : Nat} {g : Gang} {pc : Pc} {insn : Insn} {c : Cause} {faults : List LaneFault}
    (h : s.gang? k = some g) (hq : g.Quiet) (hc : ∀ x ∈ faults, x.cause = c) (hne : faults ≠ [])
    (hn : (faults.map (·.lane)).Nodup) (hl : ∀ x ∈ faults, x.lane < g.threads.length) :
    TrapTaken s ((s.takeTraps k pc insn faults).settle k) k g pc c faults := by
  obtain ⟨g', hg', hout, hga, hco, hlen, hth, hoth⟩ := takeTraps_gang s k g pc insn faults h hn hl
  obtain ⟨-, hgathers, hcollects⟩ := leaveWaits_fields g (laneSet (faults.map (·.lane)))
  have quiet : g'.Quiet := by
    refine ⟨?_, ?_, ?_⟩
    · rw [hga, hgathers, hq.gathers, List.map_nil]
    · rw [hco, hcollects, hq.collects, List.map_nil]
    · obtain ⟨x, hx⟩ := List.exists_mem_of_ne_nil _ hne
      refine ⟨x.lane, hlen ▸ hl x hx, ?_⟩
      rw [hth x hx, (takeTrap_fields _ _ _).1]
      exact nofun
  rw [settle_quiet hg' quiet]
  refine ⟨⟨g'.settleCounts, by simp [hg'], hout, fun x hx => ?_, fun j hj => congrArg Thread.regs (hoth j hj)⟩,
    takeTraps_entry s k g pc insn c faults h hc hne⟩
  have hx' : g'.settleCounts.thread x.lane = ((g.thread x.lane).takeTrap pc x).1 := hth x hx
  have hfields := takeTrap_fields (g.thread x.lane) pc x
  rw [hc x hx] at hfields
  simp only [hx']
  exact hfields

/-! ## Held sources -/

/-- A cluster's state without the held source at an index. -/
def State.unhold (s : State) (cl i : Nat) : State := s.modCluster cl fun c => { c with held := c.held.eraseIdx i }

theorem exec_heldDist {cl i : Nat} {s : State} {e : DqEntry} (hh : (s.cluster cl).held[i]? = some (.dist e))
    (ht : s.heldTurn cl i (.dist e) = true) : exec (.heldSourceEnter cl i) s = .next ((s.unhold cl i).enter cl e) := by
  change execHeldSourceEnter cl i s = _
  simp only [execHeldSourceEnter, hh, ht, if_true, State.unhold]

theorem exec_heldTrap {cl i k : Nat} {s : State} {pc : Pc} {insn : Insn} {fs : List LaneFault}
    (hh : (s.cluster cl).held[i]? = some (.trap k pc insn fs)) (ht : s.heldTurn cl i (.trap k pc insn fs) = true) :
    exec (.heldSourceEnter cl i) s = .next (((s.unhold cl i).enterTrap k pc insn fs).getD s) := by
  change execHeldSourceEnter cl i s = _
  simp only [execHeldSourceEnter, hh, ht, if_true, State.unhold]

theorem heldDist_enters {cl i : Nat} {s : State} {e : DqEntry} (hh : (s.cluster cl).held[i]? = some (.dist e))
    (ht : s.heldTurn cl i (.dist e) = true) : ∃ t, exec (.heldSourceEnter cl i) s = .next t ∧
      (t.cluster cl).dq = (s.cluster cl).dq ++ [{ e with seq := (s.cluster cl).nextSeq }] ∧
      (t.cluster cl).nextSeq = (s.cluster cl).nextSeq + 1 ∧ (t.cluster cl).held = (s.cluster cl).held.eraseIdx i ∧
      t.gangs = s.gangs := by
  refine ⟨_, exec_heldDist hh ht, ?_⟩
  simp [State.enter, State.unhold]

/-- A held trap of live threads with no store on its way is taken (R108, R312). -/
theorem enterTrap_taken {s : State} {k : Nat} {g : Gang} {pc : Pc} {insn : Insn} {c : Cause} {lanes : List Nat}
    (hst : ∀ e ∈ s.mem.inflight, e.tag ≠ g.tag) (hack : s.remoteStores g.tag .none = false) (hg : s.gang? k = some g) (hq : g.Quiet)
    (hn : lanes.Nodup) (hne : lanes ≠ [])
    (hl : ∀ l ∈ lanes, l < g.threads.length ∧ l < g.width ∧ l < 64 ∧ (g.thread l).tstate = .live) :
    ∃ t, s.enterTrap k pc insn (lanes.map fun l => LaneFault.plain l c) = some t ∧
      TrapTaken s t k g pc c (lanes.map fun l => LaneFault.plain l c) := by
  have hlive : (lanes.map fun l => LaneFault.plain l c).filter (fun f => g.live.getLsbD f.lane) =
      lanes.map fun l => LaneFault.plain l c := by
    refine List.filter_eq_self.2 fun x hx => ?_
    obtain ⟨l, hm, rfl⟩ := List.mem_map.1 hx
    obtain ⟨-, hw, h64, hts⟩ := hl l hm
    simp [Gang.live, LaneFault.plain, h64, hw, hts]
  have hlanes : (lanes.map fun l => LaneFault.plain l c).map (·.lane) = lanes := by
    rw [List.map_map]
    exact List.map_id lanes
  have hne' : (lanes.map fun l => LaneFault.plain l c) ≠ [] := by simpa using hne
  refine ⟨(s.takeTraps k pc insn (lanes.map fun l => LaneFault.plain l c)).settle k, ?_, ?_⟩
  · simp only [State.enterTrap, hg, hlive, if_neg hne', State.tryTrap, drainAll_none hst hack, Option.map_some]
  · refine takeTraps_taken hg hq (fun x hx => ?_) hne' (hlanes.symm ▸ hn) fun x hx => ?_
    · obtain ⟨l, -, rfl⟩ := List.mem_map.1 hx
      rfl
    · obtain ⟨l, hm, rfl⟩ := List.mem_map.1 hx
      exact (hl l hm).1

/-- A held trap whose turn it is is taken. -/
theorem heldTrap_enters {i k : Nat} {s : State} {g : Gang} {pc : Pc} {insn : Insn} {c : Cause} {lanes : List Nat}
    (hst : ∀ e ∈ s.mem.inflight, e.tag ≠ g.tag) (hack : s.remoteStores g.tag .none = false) (hg : s.gang? k = some g) (hq : g.Quiet)
    (hn : lanes.Nodup) (hne : lanes ≠ [])
    (hl : ∀ l ∈ lanes, l < g.threads.length ∧ l < g.width ∧ l < 64 ∧ (g.thread l).tstate = .live)
    (hh : (s.cluster (clusterOf k)).held[i]? = some (.trap k pc insn (lanes.map fun l => LaneFault.plain l c)))
    (ht : s.heldTurn (clusterOf k) i (.trap k pc insn (lanes.map fun l => LaneFault.plain l c)) = true) :
    ∃ t, exec (.heldSourceEnter (clusterOf k) i) s = .next t ∧
      TrapTaken s t k g pc c (lanes.map fun l => LaneFault.plain l c) := by
  obtain ⟨t, he, htaken⟩ := enterTrap_taken (s := s.unhold (clusterOf k) i) (pc := pc) (insn := insn) (c := c) hst hack hg hq hn hne hl
  exact ⟨t, by rw [exec_heldTrap hh ht, he, Option.getD_some], htaken.gang, htaken.entry⟩

end Sys2Proof.Machine
end

