-- ==== Sys2Proof/Proofs/Calls.lean ====
section
/-! PROOFS. SYSC and SYSC.A complete where their bodies run once for each thread (R151 to R154, R231, R320). -/

namespace Sys2Proof.Machine

/-! ## An issue whose bodies complete, before what follows them -/

/-- What the threads of an issue hold before its `post`, each executing one having completed with the same effect, and the bodies having
taken the state to `s1`. -/
structure Completed (op : Op) (f : Fields) (s s1 u : State) (g g' : Gang) (e : Eff) : Prop where
  outer : u.outer = s1.outer
  gang : u.gang? s.focus.key = some g'
  quiet : g'.Quiet
  go : ∀ l ∈ s.goLanes f g, (g'.thread l).regs = (e.thread (isUniform op.dsts) (.none, .none) (g.thread l)).regs
  gf : ∀ l ∈ s.gfLanes f g, (g'.thread l).regs = ((g.thread l).control .fall).regs
  stay : ∀ l, l ∉ s.focusLanes g → (g'.thread l).regs = (g.thread l).regs
  slices : ∀ i, (g'.slice i).regs = (g.slice i).regs

theorem groups_each {op : Op} (hg : op.gang = false) (hu : isUniform op.dsts = false) (go : List Nat) :
    op.groups go = go.map fun l => (l, [l]) := by
  simp only [Op.groups, hg, hu, Bool.false_and, Bool.false_eq_true, if_false]

/-- The spec lemma of an issue that runs once for each thread, whose bodies leave gangs alone and complete with one effect. -/
theorem runOp_completed {op : Op} {f : Fields} {s s1 : State} {g : Gang} {e : Eff} (h : op.Ready f s g)
    (hgang : op.gang = false) (hu : isUniform op.dsts = false) (hready : op.ready (s.opened f op g) (s.goLanes f g) = true)
    (hacc : Accesses (fun o l t e => op.body o l = (t, .ok e)) (fun _ => e) (s.goLanes f g) (s.opened f op g) s1)
    (hs : (s.opened f op g).Still s1) (hdst : e.dst = []) (hprod : e.prod = .none) (hpark : e.park ≠ some .ended) :
    ∃ u g', s.runOp f op = (op.post u (s.goLanes f g) [] (s.gfLanes f g)).settle s.focus.key ∧ Completed op f s s1 u g g' e := by
  obtain ⟨g2, sim⟩ := opened_sim (op := op) (f := f) h.gang
  obtain ⟨-, -, hfocus, -⟩ := outer_fields sim.outer
  obtain ⟨g1, h1, hsame⟩ := hs.keeps.gangs _ _ sim.after
  have hgo : ∀ l ∈ s.goLanes f g, l < g.width := fun l hl => lanesOf_lt (List.mem_filter.1 hl).1
  have hgf : ∀ l ∈ s.gfLanes f g, l < g.width := fun l hl => lanesOf_lt (List.mem_filter.1 hl).1
  have hrun := runGroups_via op (fun _ => e) (op.groups (s.goLanes f g)) (s.opened f op g) s1
    (by rw [groups_each hgang hu, List.map_map]; exact (List.map_id (s.goLanes f g)).symm ▸ hacc)
  obtain ⟨u, g', done, hp, hdone, hq, houter, -, hg', -, hok, hfalse, hrest, hslice, -⟩ :=
    perform_before (f := f) (s := s.opened f op g) (go := s.goLanes f g) (gf := s.gfLanes f g) (mask := s.focusLanes g) (fun _ => e)
      s.seqCtr s.clock (hfocus ▸ sim.after) (goLanes_nodup s f g) ((lanesOf_nodup _ _).filter _) (fun _ => goLanes_notMem_gfLanes)
      (fun l hl => ⟨by rw [sim.gang.threads, h.threads]; exact hgo l hl, by rw [sim.gang.slices]; exact h.slices l (hgo l hl)⟩)
      (fun l hl => by rw [sim.gang.threads, h.threads]; exact hgf l hl) hready hrun (hfocus ▸ h1) hsame (sim.gang.quiet h.quiet)
      fun _ _ => hpark
  have hdone' : done = s.goLanes f g := by
    rw [hdone, groups_each hgang hu, List.flatMap_map]
    exact List.flatMap_singleton' _
  rw [hfocus] at hp hg'
  refine ⟨u, g', by rw [runOp_ready h, hp, hdone', Option.getD_some], houter, hg', hq, fun l hl => ?_, fun l hl => ?_, fun l hl => ?_,
    fun i => ?_⟩
  · rw [hok l hl, forMembers_none e _ hprod]
    exact regs_thread _ _ _ _ _ (sim.gang.regs l)
  · rw [hfalse l hl]
    exact (regs_control _ _).trans ((congrArg (Thread.control · .fall) (sim.gang.regs l)).trans (regs_control _ _).symm)
  · rw [hrest l (fun hl' => hl (List.mem_filter.1 hl').1) fun hl' => hl (List.mem_filter.1 hl').1]
    exact sim.gang.regs l
  · have hid : ∀ (b c : Bool) (x : SliceState), e.slice b c x = x := fun b c x => by
      simp only [Eff.slice, Eff.interlock, hdst, hprod, List.foldl_nil]
    rw [hslice i]
    simp only [forMembers_none e _ hprod, hid]
    rw [List.foldl_fixed]
    exact sim.gang.sregs i

/-! ## What a call does to its threads -/

/-- SYSC, or SYSC.A. -/
def callInstr (f : Fields) (async : Bool) : Instr := if async then .syscA f else .sysc f

/-- What a call does to its thread (R151, R154). -/
def callEff (async : Bool) : Eff := { Eff.none with park := if async then .none else some .caller }

theorem exec_call (f : Fields) (async : Bool) (s : State) :
    exec (callInstr f async) s = .next (s.runOp f (opCall (callInstr f async) f async)) := by
  cases async <;> rfl

/-- The clause on the calls of one instruction's fields. -/
def CallCompletes (f : Fields) (async : Bool) : Prop :=
  ∀ (s : State) (g : Gang),
    let op := opCall (callInstr f async) f async
    op.Ready f s g → s.goLanes f g ≠ [] → CanAccess (CallAccess f async) (s.goLanes f g) (s.opened f op g) →
    ∃ t g', exec (callInstr f async) s = .next t ∧ CallMade s t s.focus.key g f async (s.goLanes f g) ∧
      t.gang? s.focus.key = some g' ∧
      (∀ l ∈ s.goLanes f g, (g'.thread l).regs =
        if async then ((g.thread l).control .fall).regs else { (g.thread l).regs with tstate := .caller }) ∧
      (∀ l ∈ s.gfLanes f g, (g'.thread l).regs = ((g.thread l).control .fall).regs) ∧
      ∀ l, l ∉ s.focusLanes g → (g'.thread l).regs = (g.thread l).regs

/-- A thread whose gang has no failed store, whose queue has room and whose earlier stores can be performed makes its call. -/
theorem opCall_body {f : Fields} {async : Bool} {o t : State} {l : Nat} {e : Eff} (h : CallAccess f async o l t e) :
    (opCall (callInstr f async) f async).body o l = (t, .ok e) := by
  obtain ⟨hroom, hfailed, hmbx, hd, rfl⟩ := h
  have hbox : (async && decide (((o.block? o.focusGang.blk).map Block.mailboxes).getD 0 ≤ f.md.toNat)) = false := by
    cases async with
    | false => rfl
    | true => exact decide_eq_false (Nat.not_le.2 (of_decide_eq_true (hmbx rfl)))
  simp only [opCall, Op.publishes, Op.base, hfailed, hbox, hroom, hd, Bool.not_true, Bool.false_eq_true, if_false, ne_eq,
    not_true_eq_false]

theorem opCall_post {f : Fields} {async : Bool} {u : State} {go gf : List Nat} (hne : go ≠ []) :
    (opCall (callInstr f async) f async).post u go [] gf = u.makeCall u.focus.key go u.focus.pc f async := by
  simp only [opCall, Op.publishes, Bool.not_true, Bool.false_eq_true, if_false, if_true, hne, false_and, and_false]

/-- The registers of a thread that has made its call. -/
theorem callEff_regs (async b : Bool) (t : Thread) : ((callEff async).thread b (.none, .none) t).regs =
    if async then (t.control .fall).regs else { t.regs with tstate := .caller } := by
  have hclose (st : TState) : ({ t.track Units.none Units.none with
      fstat := t.fstat ||| 0, clockH := t.clockH, buf := t.buf ++ [], fences := t.fences + 0, tstate := st } : Thread).regs =
      { t.regs with tstate := st } := by
    simp [Thread.regs, Thread.track, Thread.setUnits]
  cases async with
  | false => exact hclose .caller
  | true => exact (regs_control _ _).trans ((congrArg (Thread.control · .fall) (hclose t.tstate)).trans (regs_control t .fall).symm)

/-! ## What a call reads of its threads -/

theorem callNumber_congr {g g' : Gang} (f : Fields) {l : Nat} (hv : (g'.thread l).v = (g.thread l).v)
    (hp : (g'.thread l).p = (g.thread l).p) (hs : (g'.slice (l / 4)).s = (g.slice (l / 4)).s) : g'.callNumber f l = g.callNumber f l := by
  unfold Gang.callNumber Gang.src Thread.readVs Thread.readV SliceState.readSs SliceState.readS Thread.readP
  rw [hv, hp, hs]

theorem callArgs_congr {g g' : Gang} (f : Fields) {l : Nat} (hv : (g'.thread l).v = (g.thread l).v) : g'.callArgs f l = g.callArgs f l := by
  unfold Gang.callArgs Thread.readV
  rw [hv]

/-- The classes of the threads of a call (R152). -/
def Gang.callClasses (g : Gang) (f : Fields) (lanes : List Nat) : List CallClass :=
  lanes.foldl (fun c l => joinClass c l (g.callNumber f l) (g.callArgs f l)) []

theorem callClasses_congr {g g' : Gang} (f : Fields) {lanes : List Nat} (ht : ∀ l ∈ lanes, (g'.thread l).v = (g.thread l).v ∧
    (g'.thread l).p = (g.thread l).p) (hs : ∀ i, (g'.slice i).s = (g.slice i).s) : g'.callClasses f lanes = g.callClasses f lanes :=
  List.foldl_ext _ _ _ fun c l hl => by
    obtain ⟨hv, hp⟩ := ht l hl
    rw [callNumber_congr f hv hp (hs _), callArgs_congr f hv]

theorem makeCall_gang? (s : State) (k j : Nat) (lanes : List Nat) (pc : Pc) (f : Fields) (async : Bool) :
    (s.makeCall k lanes pc f async).gang? j = s.gang? j := by
  unfold State.makeCall
  split <;> rfl

theorem core_modCluster (s : State) (cl j : Nat) (h : Cluster → Cluster) : (s.modCluster cl h).core j = s.core j := rfl

/-- A call made by threads that hold what they held before the issue. -/
theorem makeCall_made {s u : State} {k : Nat} {g g' : Gang} {f : Fields} {lanes : List Nat} (async : Bool) (hg : u.gang? k = some g')
    (hgens : u.gens = s.gens) (hc : g'.callClasses f lanes = g.callClasses f lanes) :
    CallMade s (u.makeCall k lanes s.focus.pc f async) k g f async lanes := by
  have hgen : u.gen k = s.gen k := by rw [State.gen, hgens, State.gen]
  have hhandle : u.handle k = s.handle k := by rw [State.handle, hgen, State.handle]
  simp only [CallMade, State.makeCall, hg, State.enter, core_modCluster, State.core_modCore, State.cluster_modCluster, if_true]
  exact ⟨_, List.mem_append_right _ (List.mem_singleton.2 rfl), rfl, hgen, rfl, rfl, rfl, rfl, hc, _,
    List.mem_append_right _ (List.mem_singleton.2 rfl), rfl, hhandle, rfl, rfl, rfl⟩

/-! ## Calls complete -/

/-- A call whose bodies run once for each thread completes. -/
theorem callCompletes_of_each {f : Fields} {async : Bool} (hu : isUniform (opCall (callInstr f async) f async).dsts = false) :
    CallCompletes f async := by
  intro s g op h hne hacc
  obtain ⟨s1, E, ha⟩ := canAccess_accesses _ (goLanes_nodup s f g) _ hacc
  have hs : (s.opened f op g).Still s1 := accesses_still (fun _ _ _ _ ⟨_, _, _, hd, _⟩ => still_drainThread hd) _ _ _ ha
  have hrun : Accesses (fun o l t e => op.body o l = (t, .ok e)) (fun _ => callEff async) (s.goLanes f g) (s.opened f op g) s1 :=
    accesses_congr _ _ _ (accesses_all (· = callEff async) (fun _ _ _ _ ⟨_, _, _, _, he⟩ => he) _ _ _ ha)
      (accesses_mono (fun _ => True) (fun _ _ _ _ _ h => ⟨opCall_body h, trivial⟩) _ _ _ trivial ha)
  obtain ⟨u, g', hu', C⟩ := runOp_completed h rfl hu rfl hrun hs rfl rfl (by cases async <;> exact nofun)
  obtain ⟨-, hgensU, hfocusU, -⟩ := outer_fields C.outer
  obtain ⟨g2, sim⟩ := opened_sim (op := op) (f := f) h.gang
  obtain ⟨-, hgensO, hfocusO, -⟩ := outer_fields sim.outer
  have hfocus : u.focus = s.focus := hfocusU.trans (hs.focus.trans hfocusO)
  have hgens : u.gens = s.gens := hgensU.trans (hs.gens.trans hgensO)
  rw [opCall_post hne, hfocus] at hu'
  have hclasses : g'.callClasses f (s.goLanes f g) = g.callClasses f (s.goLanes f g) := by
    refine callClasses_congr f (fun l hl => ?_) fun i => congrArg (·.1) (C.slices i)
    obtain ⟨hv, hp, -⟩ := regs_fields (C.go l hl)
    exact ⟨hv.trans (Eff.thread_v _ _ _ _), hp.trans (Eff.thread_p _ _ _ _)⟩
  have hmade : CallMade s (u.makeCall s.focus.key (s.goLanes f g) s.focus.pc f async) s.focus.key g f async (s.goLanes f g) :=
    makeCall_made async C.gang hgens hclasses
  have hg' := (makeCall_gang? u s.focus.key s.focus.key (s.goLanes f g) s.focus.pc f async).trans C.gang
  rw [settle_quiet hg' C.quiet] at hu'
  refine ⟨_, g'.settleCounts, exec_call f async s, ?_, ?_, fun l hl => (C.go l hl).trans (callEff_regs _ _ _), C.gf, C.stay⟩
  · rw [hu']
    exact hmade
  · rw [hu', State.gang?_modGang, if_pos rfl, hg', Option.map_some]

end Sys2Proof.Machine
end

