-- ==== Sys2Proof/Proofs/PorterCalls.lean ====
section
/-! PROOFS. Porter calls: which clause fails, in which state, and that the others hold (R27, R151 to R154, R231, R311, R312, R320). -/

namespace Sys2Proof.Machine

/-! ## The clauses that hold -/

/-- Only SYSC with an s register for D runs its body once for a slice (R27). -/
theorem call_uniform {f : Fields} {async : Bool} (h : isUniform (opCall (callInstr f async) f async).dsts = true) :
    async = false ∧ ∃ i, f.d = .s i := by
  cases async with
  | true => cases h
  | false =>
    obtain ⟨n, hd⟩ : ∃ n, (opCall (callInstr f false) f false).dsts = [(f.d, n)] := ⟨_, rfl⟩
    rw [hd, isUniform, List.any_cons, List.any_nil, Bool.or_false] at h
    refine ⟨rfl, ?_⟩
    split at h
    · exact ⟨_, ‹_›⟩
    · exact absurd h Bool.false_ne_true

/-- The D of a SYSC whose word passes R170 is no s register. -/
theorem sysc_d_of_wellFormed {f : Fields} {vregs gw : Nat} (h : (Instr.sysc f).wellFormed vregs gw = true) (i : BitVec 6) :
    f.d ≠ .s i := by
  intro hd
  have hclass : (rowOf (.sysc f)).d.classOk ((rowOf (.sysc f)).d.width (rowOf (.sysc f)) f) f.d = false := by
    rw [hd]
    rfl
  have hcheck : (fieldCheck (rowOf (.sysc f)) vregs gw f).isNone = true := (Bool.and_eq_true_iff.1 h).1
  simp only [fieldCheck, step4Ok, hclass, Bool.and_false, Bool.false_and, Bool.not_false, if_true] at hcheck
  split at hcheck <;> cases hcheck

/-- The calls of every word that passes R170 complete. -/
theorem callCompletes_of_wellFormed {f : Fields} {async : Bool} {vregs gw : Nat} (h : (callInstr f async).wellFormed vregs gw = true) :
    CallCompletes f async := by
  refine callCompletes_of_each (Bool.eq_false_iff.2 fun hu => ?_)
  obtain ⟨rfl, i, hd⟩ := call_uniform hu
  exact sysc_d_of_wellFormed h i hd

/-- All but SYSC with an s register for D holds in every state. -/
theorem porterCallsComplete_iff : Obligations.PorterCallsComplete ↔ ∀ f i, f.d = .s i → CallCompletes f false := by
  unfold Obligations.PorterCallsComplete
  refine ⟨fun h f _ _ s g => h.1 f s g false, fun h => ⟨fun f s g async => ?_, fun _ _ _ _ => heldDist_enters, ?_⟩⟩
  · suffices hc : CallCompletes f async from hc s g
    cases hu : isUniform (opCall (callInstr f async) f async).dsts with
    | false => exact callCompletes_of_each hu
    | true =>
      obtain ⟨rfl, i, hd⟩ := call_uniform hu
      exact h f i hd
  · exact fun i s k g pc insn c lanes _ hst hack hg hq hn hne hl => heldTrap_enters hst hack hg hq hn hne hl

/-! ## The clause that fails -/

/-- The threads of a call can make it one after another, each with the stores of those before it performed. -/
def callsInTurn (f : Fields) : List Nat → State → Bool
  | [], _ => true
  | l :: ls, o =>
    o.mayEnter (clusterOf o.focus.key) (some o.focus.key) && o.focusGang.failedStores == 0 &&
      ((o.drainThread o.focusGang.tag l).map (callsInTurn f ls)).getD false

theorem canAccess_of_inTurn {f : Fields} (ls : List Nat) (o : State) (h : callsInTurn f ls o = true) :
    CanAccess (CallAccess f false) ls o := by
  induction ls generalizing o with
  | nil => trivial
  | cons l ls ih =>
    simp only [callsInTurn, Bool.and_eq_true, beq_iff_eq] at h
    obtain ⟨⟨hroom, hfailed⟩, hrest⟩ := h
    cases hd : o.drainThread o.focusGang.tag l with
    | none => simp [hd] at hrest
    | some u =>
      refine ⟨⟨u, _, hroom, hfailed, nofun, hd, rfl⟩, fun t e ht => ?_⟩
      obtain ⟨-, -, -, ht, -⟩ := ht
      cases hd.symm.trans ht
      exact ih u (by simpa [hd] using hrest)

/-- SYSC with an s register for D: its body runs once for each slice. -/
def slicedCall : Fields := { plainFields with d := .s 0, a := .v 4, b := .v 10 }

/-- A store of four bytes by a LANE of gang 0. -/
def laneStore (lane issue : Nat) (place : Place) (rel : Option Scope) (fences : Nat) : StoreEntry where
  op := .write
  place := place
  va := 0
  asid := 0
  size := 4
  data := 0
  fill := false
  rel := rel
  fences := fences
  key := 0
  lane := lane
  core := 0
  tag := (0, 0, 0)
  epoch := 0
  issue := issue

/-- LANEs 0, 1 and 4 are at a SYSC. LANE 8 has stored, past a release fence, to device 1, to offset 0 and, with a release, to offset 64,
where a higher LANE of the same instruction has written its bytes already (R81). LANE 1 has stored to offset 0, and LANE 4 to offset 64. -/
def State.straggling : State :=
  { State.reset with
    gangs := [(0, placedGang)]
    blocks := [(0, placedBlock)]
    focus := ⟨0, 0x13, placedPc, 0, 0⟩
    link := { State.reset.link with devNum := 0, devValid := true, droute := [(1, 1)] }
    mem := { State.reset.mem with
      topped := [laneStore 9 3 (.scratch 0 false 64) .none 1]
      inflight := [laneStore 8 1 (.phys 0x8008000000000) .none 1, laneStore 8 2 (.scratch 0 false 0) .none 1,
        laneStore 8 3 (.scratch 0 false 64) (some .gang) 1, laneStore 1 4 (.scratch 0 false 0) .none 0,
        laneStore 4 5 (.scratch 0 false 64) .none 0] } }

theorem goLanes_straggling : State.straggling.goLanes slicedCall placedGang = [0, 1, 4] := by
  decide +kernel

theorem ready_straggling : (opCall (callInstr slicedCall false) slicedCall false).Ready slicedCall State.straggling placedGang where
  gang := rfl
  threads := rfl
  slices := fun l hl => Nat.div_lt_of_lt_mul hl
  quiet := ⟨rfl, rfl, 0, by decide, by decide⟩
  seen := by decide +kernel
  full := by decide +kernel
  mapped := fun _ _ => rfl
  free := by decide +kernel

/-- With LANE 1's stores performed, LANE 8's store to offset 0 is performed before its store to device 1, and LANE 4's can be performed. -/
theorem inTurn_straggling : callsInTurn slicedCall [0, 1, 4]
    (State.straggling.opened slicedCall (opCall (callInstr slicedCall false) slicedCall false) placedGang) = true := by
  decide +kernel

/-- The body does not run for LANE 1, and the store to offset 0 stands behind the one to device 1: the issue is held. -/
theorem calls_straggling :
    ((State.straggling.runOp slicedCall (opCall (callInstr slicedCall false) slicedCall false)).core 0).calls = [] := by
  decide +kernel

theorem not_callCompletes : ¬ CallCompletes slicedCall false := by
  intro h
  obtain ⟨t, -, he, ⟨r, hr, -⟩, -⟩ := h State.straggling placedGang ready_straggling
    (by rw [goLanes_straggling]; exact List.cons_ne_nil _ _)
    (by rw [goLanes_straggling]; exact canAccess_of_inTurn _ _ inTurn_straggling)
  cases (exec_call slicedCall false State.straggling).symm.trans he
  rw [show coreOf State.straggling.focus.key = 0 from rfl, calls_straggling] at hr
  cases hr

/-- Refutes O27: the clause on calls asks that every calling thread's stores can be performed, one thread after another. SYSC with an s
register for D runs its body once for a slice (R27), so that the stores of the slice's other threads are not performed, and those of
the next slice, which stand behind them, can be held. Such a word fails R170: the calls of every word that passes it complete
(`callCompletes_of_wellFormed`), and the clauses on held sources hold in every state (`porterCallsComplete_iff`). -/
theorem not_porterCallsComplete : ¬ Obligations.PorterCallsComplete := fun h =>
  not_callCompletes (porterCallsComplete_iff.1 h slicedCall 0 rfl)

end Sys2Proof.Machine
end

