-- ==== Sys2Proof/Proofs/WordFields.lean ====
section
/-! PROOFS. The fields of a compute word (R157, R159, R163): what a field's bits stand for, and that the fields lie side by side and
cover every bit of the word. -/

namespace Sys2Proof

/-! ## Type codes -/

theorem Ty.ofCode_code (t : Ty) : Ty.ofCode t.code = some t := by
  cases t <;> rfl

theorem Ty.code_lt (t : Ty) : t.code < 16 := by
  cases t <;> decide

theorem Ty.ofCode_eq_some_iff {n : Nat} {t : Ty} : Ty.ofCode n = some t ↔ t.code = n := by
  refine ⟨fun h => ?_, fun h => h ▸ t.ofCode_code⟩
  unfold Ty.ofCode at h
  split at h <;> cases h <;> rfl

/-- The TY field of a word, four bits, holds a type's code (R163). -/
theorem Ty.ofCode_toNat_eq_some_iff {x : BitVec 4} {t : Ty} : Ty.ofCode x.toNat = some t ↔ BitVec.ofNat 4 t.code = x := by
  have := t.code_lt
  rw [ofCode_eq_some_iff, ← BitVec.toNat_inj, BitVec.toNat_ofNat, Nat.mod_eq_of_lt (by omega)]

/-! ## Special registers -/

theorem SReg.index_bounds (r : SReg) : 0x40 ≤ r.index ∧ r.index < 0x100 := by
  cases r <;> simp only [SReg.index] <;> omega

theorem SReg.ofIndex_index (r : SReg) : SReg.ofIndex r.index = some r := by
  cases r
  case edview n => fin_cases n <;> rfl
  case gstat n => fin_cases n <;> rfl
  case glim n => fin_cases n <;> rfl
  all_goals rfl

theorem SReg.index_of_ofIndex {i : Nat} {r : SReg} (h : SReg.ofIndex i = some r) : r.index = i := by
  unfold SReg.ofIndex at h
  split at h <;> cases h <;> rfl

/-! ## Operands: a class and an index (R159) -/

theorem Operand.ofBits_class0 {i : Nat} (hi : i < 0x100) : Operand.ofBits (BitVec.ofNat 10 i) = some (.v (BitVec.ofNat 8 i)) := by
  have hx : i % 2 ^ 10 = i := by omega
  have hc : i / 256 = 0 := by omega
  have hr : i % 256 = i := by omega
  simp only [Operand.ofBits, BitVec.toNat_ofNat, hx, hc, hr]

theorem Operand.ofBits_class1 {i : Nat} (hi : i < 0x40) :
    Operand.ofBits (BitVec.ofNat 10 (0x100 + i)) = some (.s (BitVec.ofNat 6 i)) := by
  have hx : (0x100 + i) % 2 ^ 10 = 0x100 + i := by omega
  have hc : (0x100 + i) / 256 = 1 := by omega
  have hr : (0x100 + i) % 256 = i := by omega
  simp only [Operand.ofBits, BitVec.toNat_ofNat, hx, hc, hr, if_pos hi]

theorem Operand.ofBits_class2 {i : Nat} (hi : i < 0x100) : Operand.ofBits (BitVec.ofNat 10 (0x200 + i)) =
    if i < 0x08 then some (.p (BitVec.ofNat 3 i))
    else if 0x10 ≤ i ∧ i < 0x20 then some (.tile (BitVec.ofNat 4 i))
    else if 0x20 ≤ i ∧ i < 0x30 then some (.slot (BitVec.ofNat 4 i))
    else if 0x30 ≤ i ∧ i < 0x38 then some (.guard (BitVec.ofNat 3 i))
    else (SReg.ofIndex i).map .sr := by
  have hx : (0x200 + i) % 2 ^ 10 = 0x200 + i := by omega
  have hc : (0x200 + i) / 256 = 2 := by omega
  have hr : (0x200 + i) % 256 = i := by omega
  simp only [Operand.ofBits, BitVec.toNat_ofNat, hx, hc, hr]

/-- The bits of an operand name it. -/
theorem Operand.ofBits_bits (o : Operand) : Operand.ofBits o.bits = some o := by
  cases o with
  | v i => rw [bits, ofBits_class0 i.isLt, BitVec.ofNat_toNat, BitVec.setWidth_eq]
  | s i => rw [bits, ofBits_class1 i.isLt, BitVec.ofNat_toNat, BitVec.setWidth_eq]
  | p i => rw [bits, ofBits_class2 (by omega), if_pos i.isLt, BitVec.ofNat_toNat, BitVec.setWidth_eq]
  | tile i =>
    have hi : BitVec.ofNat 4 (0x10 + i.toNat) = i := by bv_omega
    rw [bits, Nat.add_assoc 0x200 0x10 i.toNat, ofBits_class2 (by omega), if_neg (by omega), if_pos (by omega), hi]
  | slot i =>
    have hi : BitVec.ofNat 4 (0x20 + i.toNat) = i := by bv_omega
    rw [bits, Nat.add_assoc 0x200 0x20 i.toNat, ofBits_class2 (by omega), if_neg (by omega), if_neg (by omega), if_pos (by omega), hi]
  | guard i =>
    have hi : BitVec.ofNat 3 (0x30 + i.toNat) = i := by bv_omega
    rw [bits, Nat.add_assoc 0x200 0x30 i.toNat, ofBits_class2 (by omega), if_neg (by omega), if_neg (by omega), if_neg (by omega),
      if_pos (by omega), hi]
  | sr r =>
    obtain ⟨hlo, hhi⟩ := r.index_bounds
    rw [bits, ofBits_class2 hhi, if_neg (by omega), if_neg (by omega), if_neg (by omega), if_neg (by omega), SReg.ofIndex_index,
      Option.map_some]
  | lit => rfl

theorem Operand.bits_of_ofBits {x : BitVec 10} {o : Operand} (h : Operand.ofBits x = some o) : o.bits = x := by
  apply BitVec.eq_of_toNat_eq
  simp only [Operand.ofBits] at h
  split at h
  case h_1 hc =>
    cases h
    simp only [Operand.bits, BitVec.toNat_ofNat]
    omega
  case h_2 hc =>
    obtain ⟨hi, ho⟩ := Option.ite_none_right_eq_some.1 h
    cases ho
    simp only [Operand.bits, BitVec.toNat_ofNat]
    omega
  case h_3 hc =>
    split_ifs at h
    case neg =>
      obtain ⟨r, hr, rfl⟩ := Option.map_eq_some_iff.1 h
      simp only [Operand.bits, SReg.index_of_ofIndex hr, BitVec.toNat_ofNat]
      omega
    all_goals
      cases h
      simp only [Operand.bits, BitVec.toNat_ofNat]
      omega
  case h_4 h0 h1 h2 =>
    obtain ⟨hi, ho⟩ := Option.ite_none_right_eq_some.1 h
    cases ho
    change ¬_ at h0 h1 h2
    change 0x300 = x.toNat
    omega

theorem Operand.ofBits_eq_some_iff {x : BitVec 10} {o : Operand} : Operand.ofBits x = some o ↔ o.bits = x :=
  ⟨bits_of_ofBits, fun h => h ▸ o.ofBits_bits⟩

/-! ## Words as their fields in a row -/

theorem bits_append_inj {v w : Nat} {a c : BitVec v} {b d : BitVec w} : a ++ b = c ++ d ↔ a = c ∧ b = d := by
  refine ⟨fun h => ⟨?_, ?_⟩, fun ⟨h1, h2⟩ => by rw [h1, h2]⟩
  · rw [← BitVec.extractLsb'_append_eq_left (a := a) (b := b), h, BitVec.extractLsb'_append_eq_left]
  · rw [← BitVec.extractLsb'_append_eq_right (a := a) (b := b), h, BitVec.extractLsb'_append_eq_right]

theorem extractLsb'_append_low {v : Nat} (w : BitVec v) (s n : Nat) :
    w.extractLsb' s n ++ w.extractLsb' 0 s = w.extractLsb' 0 (n + s) :=
  BitVec.extractLsb'_append_extractLsb'_eq_extractLsb' (by omega)

theorem ofBool_eq_extractLsb' {v : Nat} (w : BitVec v) (i : Nat) (b : Bool) :
    BitVec.ofBool b = w.extractLsb' i 1 ↔ w.getLsbD i = b := by
  rw [BitVec.getLsbD_eq_extractLsb']
  generalize w.extractLsb' i 1 = x
  decide +revert

/-- The fields of R157 side by side are the word. -/
theorem insn_eq_append (w : Insn) : w.extractLsb' 88 8 ++ (w.extractLsb' 82 6 ++ (w.extractLsb' 81 1 ++ (w.extractLsb' 78 3 ++
    (w.extractLsb' 77 1 ++ (w.extractLsb' 76 1 ++ (w.extractLsb' 75 1 ++ (w.extractLsb' 74 1 ++ (w.extractLsb' 64 10 ++
    (w.extractLsb' 54 10 ++ (w.extractLsb' 44 10 ++ (w.extractLsb' 40 4 ++ (w.extractLsb' 36 4 ++ (w.extractLsb' 35 1 ++
    (w.extractLsb' 34 1 ++ (w.extractLsb' 33 1 ++ (w.extractLsb' 32 1 ++ w.extractLsb' 0 32)))))))))))))))) = w := by
  have h (s n : Nat) := extractLsb'_append_low w s n
  rw [h, h, h, h, h, h, h, h, h, h, h, h, h, h, h, h]
  exact (h 88 8).trans BitVec.extractLsb'_eq_self

/-- A word is its OP, its FN and the fields that it parses to: no bit of it lies outside them. -/
theorem packFields_eq_iff {op : BitVec 8} {fn : BitVec 6} {f : Fields} {w : Insn} :
    packFields op fn f = w ↔ op = w.extractLsb' 88 8 ∧ fn = w.extractLsb' 82 6 ∧ parseFields w = some f := by
  conv_lhs => rw [← insn_eq_append w, packFields, bits_append_inj]
  simp only [bits_append_inj, ofBool_eq_extractLsb', ← Operand.ofBits_eq_some_iff, ← Ty.ofCode_toNat_eq_some_iff]
  cases f
  simp only [parseFields, Option.bind_eq_bind, Option.bind_eq_some_iff, Option.pure_def, Option.some.injEq, Fields.mk.injEq]
  constructor
  · rintro ⟨hop, hfn, hn, hp, hy, hk, hra, hrb, hd, ha, hb, ht, hm, hs, hfa, hfb, hx, hi⟩
    exact ⟨hop, hfn, _, hd, _, ha, _, hb, _, ht, hn, hp.symm, hy, hk, hra, hrb, rfl, rfl, rfl, rfl, hm.symm, hs, hfa, hfb, hx, hi.symm⟩
  · rintro ⟨hop, hfn, _, hd, _, ha, _, hb, _, ht, hn, hp, hy, hk, hra, hrb, rfl, rfl, rfl, rfl, hm, hs, hfa, hfb, hx, hi⟩
    exact ⟨hop, hfn, hn, hp.symm, hy, hk, hra, hrb, hd, ha, hb, ht, hm.symm, hs, hfa, hfb, hx, hi.symm⟩

end Sys2Proof
end

