-- ==== Sys2Proof/Proofs/OpcodeTable.lean ====
section
/-! PROOFS. The opcode table (R169) and the codes of the instructions name one another. -/

namespace Sys2Proof

/-! ## A row's instruction has the row's OP and FN -/

/-- The instruction that a row of the opcode table builds has the row's OP and FN, whatever its fields. -/
structure RowOk (op fn : Nat) (r : Option (Fields → Instr)) : Prop where
  code : ∀ mk, r = some mk → ∀ f, (mk f).code = some (BitVec.ofNat 8 op, BitVec.ofNat 6 fn, f)

theorem rowOk_none (op fn : Nat) : RowOk op fn none := ⟨nofun⟩

theorem rowOk_some {op fn : Nat} {mk : Fields → Instr} (h : ∀ f, (mk f).code = some (BitVec.ofNat 8 op, BitVec.ofNat 6 fn, f)) :
    RowOk op fn (some mk) := ⟨fun _ hmk => Option.some.inj hmk ▸ h⟩

theorem rowOk_op {op fn k : Nat} {r e : Option (Fields → Instr)} (h : RowOk k fn r) (he : RowOk op fn e) :
    RowOk op fn (if op = k then r else e) := by
  split
  case isTrue hk => exact hk ▸ h
  case isFalse => exact he

theorem rowOk_fn {op fn k : Nat} {r e : Option (Fields → Instr)} (h : RowOk op k r) (he : RowOk op fn e) :
    RowOk op fn (if fn = k then r else e) := by
  split
  case isTrue hk => exact hk ▸ h
  case isFalse => exact he

theorem rowOk_md {op fn : Nat} {c : Prop} [Decidable c] {mk₁ mk₂ : Fields → Instr} (h₁ : RowOk op fn (some mk₁))
    (h₂ : RowOk op fn (some mk₂)) : RowOk op fn (some (if c then mk₁ else mk₂)) := by
  split
  case isTrue => exact h₁
  case isFalse => exact h₂

/-- The table is a chain of tests of OP, and under each of them one of tests of FN. -/
theorem opTable_rowOk (op fn : Nat) (md : BitVec 4) : RowOk op fn (opTable op fn md) := by
  unfold opTable opTable.match_1
  simp only [eq_rec_constant, dite_eq_ite]
  repeat' first | apply rowOk_op | apply rowOk_fn | apply rowOk_md | exact rowOk_none _ _
  all_goals exact rowOk_some fun _ => rfl

theorem opTable_code {op fn : Nat} {md : BitVec 4} {mk : Fields → Instr} (h : opTable op fn md = some mk) (f : Fields) :
    (mk f).code = some (BitVec.ofNat 8 op, BitVec.ofNat 6 fn, f) := (opTable_rowOk op fn md).code mk h f

theorem subjectOk_of_code {i : Instr} {x : BitVec 8 × BitVec 6 × Fields} (h : i.code = some x) : i.subjectOk = true := by
  cases i <;> first | rfl | cases h

theorem Fields.md_eq_of_mdIs {f : Fields} {n : Nat} (h : f.mdIs n = true) : f.md = BitVec.ofNat 4 n := by
  rw [← beq_iff_eq.1 h, BitVec.ofNat_toNat, BitVec.setWidth_eq]

theorem code_op_ne_zero {i : Instr} {op : BitVec 8} {fn : BitVec 6} {f : Fields} (hc : i.code = some (op, fn, f)) : op ≠ 0 := by
  cases i <;> cases hc <;> decide

/-- OP, FN and MD of an instruction whose MD its entry accepts name the instruction: MD tells the two forms of CALL apart, and those of
MBIND (R219, R284). -/
theorem opTable_of_code {i : Instr} {op : BitVec 8} {fn : BitVec 6} {f : Fields} {m : Member} (hc : i.code = some (op, fn, f))
    (hm : memberOf i = some m) (hmd : m.md = true) : ∃ mk, opTable op.toNat fn.toNat f.md = some mk ∧ mk f = i := by
  cases i <;> cases hc
  case call | callInd | mbind | mbindU =>
    cases hm
    exact ⟨_, rfl, by simp [Fields.md_eq_of_mdIs hmd]⟩
  case' atomAdd o | atomMin o | atomMax o | atomAnd o | atomOr o | atomXor o | atomExch o | atomFadd o | cas o => cases o
  case' redAdd r | redMin r | redMax r | redAnd r | redOr r | redXor r | redFadd r => cases r
  all_goals exact ⟨_, rfl, rfl⟩

end Sys2Proof
end

