-- ==== Sys2Proof/Proofs/CustomWords.lean ====
section
/-! PROOFS. The porter's custom-0 words (R315): the fields of a word, and that its decoder and encoder agree. -/

namespace Sys2Proof

/-- The fields of the R format side by side are the word. -/
theorem customWord_eq_append (w : W32) : w.extractLsb' 20 12 ++ (rvRs1 w ++ (w.extractLsb' 12 3 ++ (rvRd w ++ w.extractLsb' 0 7))) =
    w := by
  have h (s n : Nat) := extractLsb'_append_low w s n
  rw [rvRs1, rvRd, h, h, h]
  exact (h 20 12).trans BitVec.extractLsb'_eq_self

theorem packCustom_eq_iff {hi : BitVec 12} {a : BitVec 5} {f3 : BitVec 3} {d : BitVec 5} {w : W32} :
    packCustom hi a f3 d = w ↔
      w.extractLsb' 0 7 = 0x0B ∧ w.extractLsb' 12 3 = f3 ∧ rvRd w = d ∧ rvRs1 w = a ∧ w.extractLsb' 20 12 = hi := by
  conv_lhs => rw [← customWord_eq_append w, packCustom, eq_comm, bits_append_inj]
  simp only [bits_append_inj]
  constructor
  · rintro ⟨hhi, ha, h3, hd, h⟩
    exact ⟨h, h3, hd, ha, hhi⟩
  · rintro ⟨h, h3, hd, ha, hhi⟩
    exact ⟨hhi, ha, h3, hd, h⟩

/-- Bits [31:20] of a word of the R format: funct7 and rs2. -/
theorem hi_eq_append_iff {x : BitVec 7} {b : BitVec 5} {w : W32} :
    w.extractLsb' 20 12 = x ++ b ↔ w.extractLsb' 25 7 = x ∧ rvRs2 w = b := by
  have h : w.extractLsb' 25 7 ++ rvRs2 w = w.extractLsb' 20 12 := BitVec.extractLsb'_append_extractLsb'_eq_extractLsb' (by rfl)
  rw [← h, bits_append_inj]

/-- Bits [31:20] of PGWRITE: rs3, two zeros and rs2. -/
theorem hi_eq_append_append_iff {c : BitVec 5} {z : BitVec 2} {b : BitVec 5} {w : W32} :
    w.extractLsb' 20 12 = c ++ (z ++ b) ↔ w.extractLsb' 27 5 = c ∧ w.extractLsb' 25 2 = z ∧ rvRs2 w = b := by
  have h2 : w.extractLsb' 25 2 ++ rvRs2 w = w.extractLsb' 20 (2 + 5) := BitVec.extractLsb'_append_extractLsb'_eq_extractLsb' (by rfl)
  have h5 : w.extractLsb' 27 5 ++ w.extractLsb' 20 (2 + 5) = w.extractLsb' 20 12 :=
    BitVec.extractLsb'_append_extractLsb'_eq_extractLsb' (by rfl)
  rw [← h5, ← h2, bits_append_inj, bits_append_inj]

theorem decode32_custom {w : W32} (h : w.extractLsb' 0 7 = 0x0B) (cl : Nat) : decode32 cl w = decodeCustom cl w := by
  rw [decode32, h]
  rfl

theorem encodeCustom_of_decodeCustom {cl : Nat} {w : W32} {i : Instr} (h : w.extractLsb' 0 7 = 0x0B)
    (hi : decodeCustom cl w = some i) : encodeCustom i = some w := by
  unfold decodeCustom at hi
  split_ifs at hi with h3 h2 h7
  · cases hi
    exact congrArg some (packCustom_eq_iff.2 ⟨h, BitVec.eq_of_toNat_eq h3, rfl, rfl,
      hi_eq_append_append_iff.2 ⟨rfl, BitVec.eq_of_toNat_eq h2, rfl⟩⟩)
  · have h7' : (w.extractLsb' 25 7).toNat = (0#7).toNat := of_not_not h7
    have hhi := hi_eq_append_iff.2 ⟨BitVec.eq_of_toNat_eq h7', rfl⟩
    split at hi
    case h_6 => cases hi
    all_goals
      cases hi
      exact congrArg some (packCustom_eq_iff.2 ⟨h, BitVec.eq_of_toNat_eq ‹_›, rfl, rfl, hhi⟩)

theorem decode32_of_encodeCustom {cl : Nat} {d a b c : BitVec 5} {w : W32} {i : Instr}
    (hi : i ∈ [Instr.pgread cl d a b, .pgwrite cl d a b c, .presume cl d a b, .pmsendChannel cl d a b, .pmrecv cl d a b,
      .pcallrec cl d a b]) (he : encodeCustom i = some w) : decode32 cl w = some i := by
  simp only [List.mem_cons, List.not_mem_nil, or_false] at hi
  obtain rfl | rfl | hi := hi
  case inr.inl =>
    obtain ⟨h, h3, rfl, rfl, hhi⟩ := packCustom_eq_iff.1 (Option.some.inj he)
    obtain ⟨rfl, h2, rfl⟩ := hi_eq_append_append_iff.1 hhi
    simp [decode32_custom h, decodeCustom, h3, h2]
  case' inr.inr => obtain rfl | rfl | rfl | rfl := hi
  all_goals
    obtain ⟨h, h3, rfl, rfl, hhi⟩ := packCustom_eq_iff.1 (Option.some.inj he)
    obtain ⟨h7, rfl⟩ := hi_eq_append_iff.1 hhi
    simp [decode32_custom h, decodeCustom, h3, h7]

end Sys2Proof
end

