-- ==== Sys2Proof/Proofs/Words.lean ====
section
/-! PROOFS. Words and instructions: decoding and encoding agree for every well-formed instruction (R157, R170, R315), and the worked
encodings. -/

namespace Sys2Proof

/-! ## The checks of R170 -/

theorem md_of_fieldCheck {m : Member} {vregs gw : Nat} {f : Fields} (h : fieldCheck m vregs gw f = none) : m.md = true := by
  have h3 : step3Ok m f = true := by
    by_contra h3
    simp [fieldCheck, eq_false_of_ne_true h3] at h
  simp only [step3Ok, Bool.and_eq_true] at h3
  tauto

theorem fieldsOk_iff {i : Instr} {x : BitVec 8 × BitVec 6 × Fields} (hc : i.code = some x) {vregs gw : Nat} :
    i.fieldsOk vregs gw = true ↔ ∃ m, memberOf i = some m ∧ fieldCheck m vregs gw x.2.2 = none := by
  unfold Instr.fieldsOk
  cases hm : memberOf i <;> simp [hc]

/-- A word decodes to an instruction when it is not zero, its OP and FN name the instruction, its fields are the instruction's and pass
the checks of the instruction's entry. -/
theorem decode96_eq_ok_iff {vregs gw : Nat} {w : Insn} {i : Instr} : decode96 vregs gw w = .ok i ↔
    w ≠ 0 ∧ ∃ mk f m, opTable (w.extractLsb' 88 8).toNat (w.extractLsb' 82 6).toNat (w.extractLsb' 36 4) = some mk ∧
      parseFields w = some f ∧ memberOf (mk f) = some m ∧ fieldCheck m vregs gw f = none ∧ mk f = i := by
  constructor
  · intro h
    unfold decode96 at h
    split_ifs at h with hw
    split at h
    · cases h
    next mk hmk =>
    split at h
    · cases h
    next f hf =>
    split at h
    · cases h
    next m hm =>
    split at h
    · cases h
    next hc =>
    cases h
    exact ⟨hw, mk, f, m, hmk, hf, hm, hc, rfl⟩
  · rintro ⟨hw, mk, f, m, hmk, hf, hm, hc, rfl⟩
    simp only [decode96, if_neg hw, hmk, hf, hm, hc]

theorem encode_eq_some_iff {i : Instr} {w : Insn} :
    encode i = some w ↔ ∃ op fn f, i.code = some (op, fn, f) ∧ packFields op fn f = w := by
  simp [encode]

/-! ## The round trip of a compute word -/

theorem md_of_parseFields {w : Insn} {f : Fields} (h : parseFields w = some f) : w.extractLsb' 36 4 = f.md := by
  simp only [parseFields, Option.bind_eq_bind, Option.bind_eq_some_iff, Option.pure_def, Option.some.injEq] at h
  obtain ⟨_, -, _, -, _, -, _, -, rfl⟩ := h
  rfl

theorem decode96_of_encode {vregs gw : Nat} {i : Instr} {w : Insn} (hi : i.wellFormed vregs gw = true) (he : encode i = some w) :
    decode96 vregs gw w = .ok i := by
  obtain ⟨op, fn, f, hcode, hpack⟩ := encode_eq_some_iff.1 he
  obtain ⟨m, hm, hcheck⟩ := (fieldsOk_iff hcode).1 (Bool.and_eq_true_iff.1 hi).1
  obtain ⟨mk, hmk, rfl⟩ := opTable_of_code hcode hm (md_of_fieldCheck hcheck)
  obtain ⟨rfl, rfl, hparse⟩ := packFields_eq_iff.1 hpack
  refine decode96_eq_ok_iff.2 ⟨?_, mk, f, m, ?_, hparse, hm, hcheck, rfl⟩
  · rintro rfl
    exact code_op_ne_zero hcode rfl
  · rwa [md_of_parseFields hparse]

theorem encode_of_decode96 {vregs gw : Nat} {i : Instr} {w : Insn} (h : decode96 vregs gw w = .ok i) :
    encode i = some w ∧ i.wellFormed vregs gw = true := by
  obtain ⟨-, mk, f, m, hmk, hparse, hm, hcheck, rfl⟩ := decode96_eq_ok_iff.1 h
  have hcode := opTable_code hmk f
  simp only [BitVec.ofNat_toNat, BitVec.setWidth_eq] at hcode
  exact ⟨encode_eq_some_iff.2 ⟨_, _, f, hcode, packFields_eq_iff.2 ⟨rfl, rfl, hparse⟩⟩,
    Bool.and_eq_true_iff.2 ⟨(fieldsOk_iff hcode).2 ⟨m, hm, hcheck⟩, subjectOk_of_code hcode⟩⟩

/-- Settles O5: a word is its OP, its FN and its fields in a row, the opcode table and the codes of the instructions name one another,
and the checks of R170 are those of a well-formed instruction. -/
theorem wordsRoundTrip : Obligations.WordsRoundTrip :=
  ⟨fun _ _ _ _ hi he => decode96_of_encode hi he, fun _ _ _ _ h => encode_of_decode96 h, fun cl _ _ _ _ _ =>
    ⟨fun _ hi he => decode32_of_encodeCustom hi he,
      fun h _ hi => encodeCustom_of_decodeCustom h ((decode32_custom h cl).symm.trans hi)⟩⟩

/-- Settles O4, each word decoded. -/
theorem wordsDecode : Obligations.WordsDecode := by
  unfold Obligations.WordsDecode
  decide +kernel

end Sys2Proof
end

