-- ==== Sys2Proof/Proofs/Traps.lean ====
section
/-! PROOFS. BPT, TRAP, a word that fails R170 and a failed fetch take their cause (R171, R229, R311, R325, R336 to R340). -/

namespace Sys2Proof.Machine

/-- An instruction that stands at a draft boundary and whose executing threads all trap (R229). -/
def edgeTrap (i : Instr) (f : Fields) (F : State → Nat → LaneFault) : Op :=
  { Op.base i f fun s l => (s, .trap (F s l)) with cls := .edge }

theorem edgeTrap_ready {i : Instr} {f : Fields} {s : State} {g : Gang} (F : State → Nat → LaneFault)
    (h : ({ frameOf i f with cls := .edge } : Op).Ready f s g) : (edgeTrap i f F).Ready f s g :=
  ⟨h.gang, h.threads, h.slices, h.quiet, h.seen, h.full, h.mapped, h.free⟩

/-- At a draft boundary every executing thread's draft commits first, so each holds no producer when the issue is ready (R134, R142). -/
theorem busy_of_edge {op : Op} {f : Fields} {s : State} {g : Gang} (h : op.Ready f s g) (he : op.cls = .edge) :
    ∀ l ∈ s.goLanes f g, g.busy l = false := fun l hl =>
  h.free l (List.mem_append_left _ (List.mem_append_left _ (List.mem_filter.2 ⟨hl, by simp [Op.meets, he]⟩)))

/-- Every executing thread of an edge instruction without a destination takes its trap at the instruction. -/
theorem edgeTrap_taken {i : Instr} {f : Fields} {s : State} {g : Gang} (F : State → Nat → LaneFault) (c : Cause)
    (h : ({ frameOf i f with cls := .edge } : Op).Ready f s g) (hdst : isUniform (frameOf i f).dsts = false)
    (hlane : ∀ o l, (F o l).lane = l) (hcause : ∀ o l, (F o l).cause = c) (hne : s.goLanes f g ≠ [])
    (hroom : s.MayTrap s.focus.key g) :
    ∃ gX, (∀ l, l ∉ s.gfLanes f g → (gX.thread l).regs = (g.thread l).regs) ∧
      TrapTaken s (s.runOp f (edgeTrap i f F)) s.focus.key gX s.focus.pc c
        ((s.goLanes f g).map (F (s.opened f { frameOf i f with cls := .edge } g))) := by
  have hr := edgeTrap_ready F h
  obtain ⟨gX, -, hrest, htaken⟩ := runOp_traps hr c (F (s.opened f { frameOf i f with cls := .edge } g))
    (groups_each rfl hdst _) rfl (fun _ _ => rfl) (hlane _) (hcause _) (busy_of_edge hr rfl) (fun _ _ _ _ => rfl) hne hroom
  exact ⟨gX, hrest, htaken⟩

/-- The fault of BPT in a LANE. -/
def bptFault (_ : State) (l : Nat) : LaneFault := LaneFault.plain l .breakpoint

/-- The fault of TRAP in a LANE, Src(A) its trap code. -/
def trapFault (f : Fields) (s : State) (l : Nat) : LaneFault :=
  { LaneFault.plain l .softwareTrap with code := BitVec.ofNat 32 (s.srcA (.trap f) f l) }

theorem exec_bpt (f : Fields) (s : State) : exec (.bpt f) s = .next (s.runOp f (edgeTrap (.bpt f) f bptFault)) := rfl

theorem exec_trap (f : Fields) (s : State) : exec (.trap f) s = .next (s.runOp f (edgeTrap (.trap f) f (trapFault f))) := rfl

theorem exec_illegalWord (c : Cause) (s : State) :
    exec (.illegalWord c) s = .next (s.trapFocus fun l => LaneFault.plain l c) := rfl

theorem exec_instructionFetchFault (c : Cause) (va : BitVec 56) (level errkind : Nat) (s : State) :
    exec (.instructionFetchFault c va level errkind) s =
      .next (s.trapFocus fun l => ⟨l, c, Access.fetch.code, level, errkind, 12, 0, va.setWidth 64⟩) := rfl

/-- Settles O18: BPT and TRAP are issues whose executing threads all trap, and the other two are the trap of every thread in focus. -/
theorem trapsAreTaken : Obligations.TrapsAreTaken := by
  refine ⟨⟨fun f s g h hne hroom => ?_, fun f s g h hne hroom => ?_⟩, fun s g c hg hth hq hbusy hne hdue hroom => ?_⟩
  · obtain ⟨gX, hrest, htaken⟩ := edgeTrap_taken bptFault .breakpoint h rfl (fun _ _ => rfl) (fun _ _ => rfl) hne hroom
    exact ⟨_, gX, exec_bpt f s, hrest, htaken⟩
  · obtain ⟨gX, hrest, htaken⟩ := edgeTrap_taken (trapFault f) .softwareTrap h rfl (fun _ _ => rfl) (fun _ _ => rfl) hne hroom
    exact ⟨_, gX, exec_trap f s, hrest, htaken⟩
  · have htaken (F : Nat → LaneFault) (hlane : ∀ l, (F l).lane = l) (hcause : ∀ l, (F l).cause = c) :=
      trapFocus_taken hg hth hq c F hlane hcause hdue hbusy hne hroom
    exact ⟨⟨_, exec_illegalWord c s, htaken _ (fun _ => rfl) fun _ => rfl⟩, fun va level errkind =>
      ⟨_, exec_instructionFetchFault c va level errkind s, htaken _ (fun _ => rfl) fun _ => rfl⟩⟩

end Sys2Proof.Machine
end

