-- ==== Sys2Proof/Proofs/ComputeInstructions.lean ====
section
/-! PROOFS. The compute instructions (R190 to R217): each is one of the shapes of Machine/Compute.lean, for which Laws/Complete.lean
proves once that an issue completes. What is left for an instruction is that `exec` runs it in its shape, with the value named in the
statement, and that its member row gives D a class. -/

namespace Sys2Proof.Machine

/-- MOV, with the CLOCKH latch of a read of CLOCKL (R54, R194). -/
theorem completes_mov (f : Fields) : Completes (.mov f) f (frameOf (.mov f) f) fun o l =>
    { Eff.value (.mov f) f (noFlag (o.srcA (.mov f) f l)) with latch := o.clockLatch f.a } :=
  completes_base _ (fun _ => rfl) (fun _ _ => rfl) (fun _ _ => dst_general (.mov f) f _ _ (List.cons_ne_nil _ _)) (fun _ _ => rfl)
    fun _ _ => rfl

/-- Settles O12. IADDC and ISUBB write D and p[MD] together and MOV latches CLOCKH; the others deliver one value. -/
theorem integerInstructionsComplete : Obligations.IntegerInstructionsComplete := by
  unfold Obligations.IntegerInstructionsComplete
  refine ⟨?iadd, ?isub, ?imul, ?imulh, ?imad, ?imadw, ?imin, ?imax, ?iabs, ?ineg, ?icmp, ?iset, ?sel, ?lea, completes_mov, ?iaddc, ?isubb⟩
  case iabs | ineg => exact gives1 (fun _ _ => rfl) fun _ => List.cons_ne_nil _ _
  case iadd | isub | imul | imulh | imin | imax | iset | lea => exact gives2 (fun _ _ => rfl) fun _ => List.cons_ne_nil _ _
  case imad | imadw | sel => exact gives3 (fun _ _ => rfl) fun _ => List.cons_ne_nil _ _
  case icmp => exact givesPred (fun _ _ => rfl) fun _ => List.cons_ne_nil _ _
  case iaddc | isubb => exact completes_carry (fun _ _ => rfl) fun _ => List.cons_ne_nil _ _

/-- Settles O13: each delivers a pattern of one to three sources, or, for the predicate instructions, a predicate of two. -/
theorem logicInstructionsComplete : Obligations.LogicInstructionsComplete := by
  unfold Obligations.LogicInstructionsComplete
  refine ⟨?and, ?or, ?xor, ?andn, ?not, ?shl, ?shr, ?sar, ?rot, ?shf, ?bfe, ?bfi, ?popc, ?clz, ?ctz, ?brev, ?prmt, ?pand, ?por, ?pxor,
    ?pmov⟩
  case not | popc | clz | ctz | brev => exact gives1 (fun _ _ => rfl) fun _ => List.cons_ne_nil _ _
  case and | or | xor | andn | shl | shr | sar | rot | bfe => exact gives2 (fun _ _ => rfl) fun _ => List.cons_ne_nil _ _
  case shf | bfi | prmt => exact gives3 (fun _ _ => rfl) fun _ => List.cons_ne_nil _ _
  case pand | por | pxor | pmov => exact givesPred (fun _ _ => rfl) fun _ => List.cons_ne_nil _ _

/-- Settles O14: OP 0x30 first, then the same shapes under OP 0x40. -/
theorem floatInstructionsComplete : Obligations.FloatInstructionsComplete := by
  unfold Obligations.FloatInstructionsComplete
  refine ⟨⟨?fadd, ?fsub, ?fmul, ?ffma, ?fmin, ?fmax, ?fabs, ?fneg, ?fcmp, ?fset, ?fclass, ?frnd, ?fscale⟩, ?faddF64, ?fsubF64, ?fmulF64,
    ?ffmaF64, ?fminF64, ?fmaxF64, ?fabsF64, ?fnegF64, ?fcmpF64, ?fsetF64, ?fclassF64, ?frndF64, ?fscaleF64⟩
  case fabs | fneg | fclass | frnd | fabsF64 | fnegF64 | fclassF64 | frndF64 =>
    exact gives1 (fun _ _ => rfl) fun _ => List.cons_ne_nil _ _
  case fadd | fsub | fmul | fmin | fmax | fset | fscale | faddF64 | fsubF64 | fmulF64 | fminF64 | fmaxF64 | fsetF64 | fscaleF64 =>
    exact gives2 (fun _ _ => rfl) fun _ => List.cons_ne_nil _ _
  case ffma | ffmaF64 => exact gives3 (fun _ _ => rfl) fun _ => List.cons_ne_nil _ _
  case fcmp | fcmpF64 => exact givesPred (fun _ _ => rfl) fun _ => List.cons_ne_nil _ _

/-- Settles O15. QMX and the special functions leave a producer (R189); the sequence counter that numbers it is not among what their
values read. -/
theorem conversionsAndSpecialFunctionsComplete : Obligations.ConversionsAndSpecialFunctionsComplete := by
  unfold Obligations.ConversionsAndSpecialFunctionsComplete
  refine ⟨?cvt, ?pack, ?unpack, ?cvt8, ?cvt4, ?qmx, ?rcp, ?rsq, ?sqrt, ?ex2, ?lg2, ?sinpi, ?cospi, ?tanh⟩
  case cvt | unpack | cvt8 => exact gives1 (fun _ _ => rfl) fun _ => List.cons_ne_nil _ _
  case pack | cvt4 => exact gives2 (fun _ _ => rfl) fun _ => List.cons_ne_nil _ _
  case qmx | rcp | rsq | sqrt | ex2 | lg2 | sinpi | cospi | tanh => exact givesLate (fun _ _ => rfl) fun _ _ _ _ => rfl

/-- Settles O16: VOTE and ELECT deliver a predicate at issue; the others deliver a pattern, at issue or, over several slices, as a
producer, whose number their values do not read. -/
theorem laneOperationsComplete : Obligations.LaneOperationsComplete := by
  unfold Obligations.LaneOperationsComplete
  refine ⟨?shfl, ?ballot, ?matchAny, ?redux, ?scanx, ?vote, ?elect⟩
  case shfl | ballot | matchAny | redux | scanx =>
    exact givesLane (fun _ _ => rfl) (fun _ => List.cons_ne_nil _ _) fun _ _ _ _ _ => rfl
  case vote | elect => exact givesLanePred (fun _ _ => rfl) fun _ => List.cons_ne_nil _ _

end Sys2Proof.Machine
end

