-- ==== Sys2Proof/Proofs/AccessSizes.lean ====
section
/-! PROOFS. The access size of each type (R235). -/

namespace Sys2Proof

/-- Settles O2: thirteen types, each by its row of the table. -/
theorem accessSizes : Obligations.AccessSizes := by
  unfold Obligations.AccessSizes
  decide

end Sys2Proof
end

