-- ==== Sys2Proof/Proofs/Loads.lean ====
section
/-! PROOFS. Loads complete: of what this device and host memory hold, bounded, and of another device's memory (R128, R237, R239, R241,
R242, R375). -/

namespace Sys2Proof.Machine

/-! ## Loads that find data -/

/-- A load whose body does what `LoadAccess` says completes. -/
theorem load_completes {i : Instr} {f : Fields} {space : Space} {acq : Option Scope} {waits : Bool} {op : Op}
    (hi : ∀ s, exec i s = runInstr f op s) (hpost : ∀ s a b c, op.post s a b c = s)
    (hbody : ∀ o l t e, LoadAccess i f space acq waits o l t e → op.body o l = (t, .ok e)) :
    CompletesVia i f op (LoadAccess i f space acq waits) :=
  completes_via hi hbody (fun _ _ _ _ => still_load) (post_id hpost) fun _ _ _ _ h => (noDst h).2

/-- A plain load of this device's memory that no migration holds back (R237, R242). -/
theorem plain_completes {i : Instr} {f : Fields} {space : Space}
    (hi : ∀ s, exec i s = runInstr f (opLoad i f space fun s l sp => s.loadPlain i f space l sp) s) :
    CompletesVia i f (opLoad i f space fun s l sp => s.loadPlain i f space l sp) (LoadAccess i f space .none false) :=
  load_completes hi (fun _ _ _ _ => rfl) fun _ _ _ _ => plain_body i f space false

/-- A plain load of global memory, which waits for a migration's flush (R131, R237). -/
theorem plainAwait_completes {i : Instr} {f : Fields} {space : Space}
    (hi : ∀ s, exec i s = runInstr f (opLoad i f space fun s l sp => s.loadPlain i f space l sp).awaitFlush s) :
    CompletesVia i f (opLoad i f space fun s l sp => s.loadPlain i f space l sp).awaitFlush (LoadAccess i f space .none true) :=
  load_completes hi (fun _ _ _ _ => rfl) fun o _ _ _ h => (await_body _ o _ (h.1 rfl)).trans (plain_body i f space true h)

/-- An acquire, which waits for a migration's flush too (R131, R239). -/
theorem acquire_completes {i : Instr} {f : Fields} {space : Space} {sc : Scope}
    (hi : ∀ s, exec i s = runInstr f (opLoad i f space fun s l sp => s.loadAcquire i f space sc l sp).awaitFlush s) :
    CompletesVia i f (opLoad i f space fun s l sp => s.loadAcquire i f space sc l sp).awaitFlush
      (LoadAccess i f space (some sc) true) :=
  load_completes hi (fun _ _ _ _ => rfl) fun o _ _ _ h => (await_body _ o _ (h.1 rfl)).trans (acq_body i f space true sc h)

theorem bounded_park {i : Instr} {f : Fields} {rpt : Bool} {o : State} {l : Nat} {t : State} {e : Eff}
    (h : BoundedAccess i f rpt o l t e) : e.park ≠ some .ended := by
  obtain ⟨-, -, s1, a, tg, pa, s2, x, p, -, -, -, rfl⟩ := h
  exact nofun

/-- A bounded load, with the predicate of its bound (R128, R241). -/
theorem bounded_completes {i : Instr} {f : Fields} {rpt : Bool} (hi : ∀ s, exec i s = runInstr f (opBounded i f rpt) s) :
    CompletesVia i f (opBounded i f rpt) (BoundedAccess i f rpt) :=
  completes_via hi (fun _ _ _ _ => bounded_body) (fun _ _ _ _ => still_bounded) (post_id fun _ _ _ _ => rfl)
    fun _ _ _ _ => bounded_park

/-! ## Loads of another device's memory -/

theorem still_askLine (s : State) (core asid va dev off : Nat) : s.Still (s.askLine core asid va dev off) := by
  unfold State.askLine
  dsimp only
  split
  · exact .refl s
  · cases hs : s.sendRemote core dev (128 * lineOf off) (.read 128) (.fill core asid va (2 ^ 51 + dev * 2 ^ 39 + 128 * lineOf off)) with
    | none => exact .refl s
    | some u => exact still_sendRemote hs

/-- What a load of another device's bytes makes of the state, and the number of the producer that waits for them: that of an earlier
LANE's request for the same bytes, or that of a request of its own, and a plain load asks for the line too (R81, R102, R375). -/
def State.Asks (s : State) (f : Fields) (l a : Nat) (acq : Option Scope) (dev off id : Nat) (t : State) : Prop :=
  let s1 := { s with seqCtr := s.seqCtr + 1 }
  let core := coreOf s.focus.key
  (s.askedFor dev off = some id ∧ t = s) ∨
    (s.askedFor dev off = .none ∧ id = s.seqCtr ∧ ∃ u,
      s1.sendRemote core dev off (.read f.ty.bytes) (.load s.focus.key l id a (s1.leafLevel core s1.focusGang.asid a)) = some u ∧
      t = if acq.isNone then u.askLine core s.focusGang.asid a dev off else u)

theorem still_asks {s t : State} {f : Fields} {l a dev off id : Nat} {acq : Option Scope} (h : s.Asks f l a acq dev off id t) :
    s.Still t := by
  obtain ⟨-, rfl⟩ | ⟨-, -, u, hsend, rfl⟩ := h
  · exact .refl _
  · have hu : s.Still u := (still_seq s _).trans (still_sendRemote hsend)
    split
    · exact hu.trans (still_askLine _ _ _ _ _ _)
    · exact hu

/-- A load that reads another device's memory ends in a producer that waits for the answer. -/
theorem finishLoad_remote {s t : State} {f : Fields} {l a dev off id : Nat} {acq : Option Scope} (fwd : List (Nat × Nat))
    (h : s.Asks f l a acq dev off id t) :
    s.finishLoad f l a fwd .none acq (.remote dev off) =
      (t, .ok (Eff.late { producerOf s id f (f.ty.regWidth / 32) 0 flagNone .none true with
        ready := false, fwd := fwd, acq := acq })) := by
  obtain ⟨hasked, rfl⟩ | ⟨hnew, rfl, u, hsend, rfl⟩ := h
  · simp only [State.finishLoad, hasked]
  · have hsend' : s.takeId.1.sendRemote (coreOf s.focus.key) dev off (.read f.ty.bytes)
        (.load s.focus.key l s.takeId.2 a (s.leafLevel (coreOf s.focus.key) s.focusGang.asid a)) = some u := hsend
    simp only [State.finishLoad, hnew, hsend']
    rfl

theorem remote_still {i : Instr} {f : Fields} {acq : Option Scope} {o : State} {l : Nat} {t : State} {e : Eff}
    (h : RemoteLoad i f acq o l t e) : o.Still t := by
  obtain ⟨-, -, s1, sp, s2, dev, off, id, hea, hread, -, hask⟩ := h
  have h1 := still_ea o i f l .glob .read f.ty.bytes
  have h2 := still_readUnless s1 (s1.fwdOf l sp f.ty.bytes) f.ty.bytes _ (still_readSpot s1 f.ty.bytes acq.isSome sp)
  rw [hea] at h1
  rw [hread] at h2
  exact (h1.trans h2).trans (still_asks hask)

theorem remote_park {i : Instr} {f : Fields} {acq : Option Scope} {o : State} {l : Nat} {t : State} {e : Eff}
    (h : RemoteLoad i f acq o l t e) : e.park ≠ some .ended := by
  obtain ⟨-, -, s1, sp, s2, dev, off, id, -, -, rfl, -⟩ := h
  exact nofun

/-- A plain load whose read ends at another device. -/
theorem loadPlain_remote {s s2 : State} {i : Instr} {f : Fields} {space : Space} {l dev off : Nat} {sp : Spot}
    (h : s.readUnless (s.fwdOf l sp f.ty.bytes) f.ty.bytes (s.readSpot f.ty.bytes false sp) = (s2, .remote dev off)) :
    s.loadPlain i f space l sp =
      s2.finishLoad f l (s.eaOf i f l space) (s.fwdOf l sp f.ty.bytes) .none .none (.remote dev off) := by
  have hread : s.loadPlain i f space l sp =
      let r := s.readUnless (s.fwdOf l sp f.ty.bytes) f.ty.bytes (s.readSpot f.ty.bytes false sp)
      r.1.finishLoad f l (s.eaOf i f l space) (s.fwdOf l sp f.ty.bytes) .none .none r.2 := by
    cases sp <;> rfl
  rw [hread, h]

/-- An acquire whose read ends at another device: it drops no line of the L1 before the answer comes (R375). -/
theorem loadAcquire_remote {s s2 : State} {i : Instr} {f : Fields} {space : Space} {sc : Scope} {l dev off : Nat} {sp : Spot}
    (h : s.readUnless (s.fwdOf l sp f.ty.bytes) f.ty.bytes (s.readSpot f.ty.bytes true sp) = (s2, .remote dev off)) :
    s.loadAcquire i f space sc l sp =
      s2.finishLoad f l (s.eaOf i f l space) (s.fwdOf l sp f.ty.bytes) .none (some sc) (.remote dev off) := by
  have hread : s.loadAcquire i f space sc l sp =
      let r := s.readUnless (s.fwdOf l sp f.ty.bytes) f.ty.bytes (s.readSpot f.ty.bytes true sp)
      State.finishLoad (match r.2 with | .data _ => r.1.acquireL1 (coreOf s.focus.key) sc | _ => r.1) f l (s.eaOf i f l space)
        (s.fwdOf l sp f.ty.bytes) .none (some sc) r.2 := by
    cases sp <;> rfl
  rw [hread, h]

/-- A load of another device's memory whose read, where it ends there, goes on as `finishLoad` says. -/
theorem remote_completes {i : Instr} {f : Fields} {acq : Option Scope} {read : State → Nat → Spot → State × Res}
    (hi : ∀ s, exec i s = runInstr f (opLoad i f .glob read).awaitFlush s)
    (hread : ∀ (s s2 : State) (l : Nat) (sp : Spot) (dev off : Nat),
      s.readUnless (s.fwdOf l sp f.ty.bytes) f.ty.bytes (s.readSpot f.ty.bytes acq.isSome sp) = (s2, .remote dev off) →
      read s l sp = s2.finishLoad f l (s.eaOf i f l .glob) (s.fwdOf l sp f.ty.bytes) .none acq (.remote dev off)) :
    CompletesVia i f (opLoad i f .glob read).awaitFlush (RemoteLoad i f acq) := by
  refine completes_via hi (fun o l t e h => ?_) (fun _ _ _ _ => remote_still) (post_id fun _ _ _ _ => rfl) fun _ _ _ _ => remote_park
  obtain ⟨hsettled, hpending, s1, sp, s2, dev, off, id, hea, hr, rfl, hask⟩ := h
  rw [await_body _ _ _ hsettled, opLoad_body _ _ _ _ _ _ hpending hea, hread _ _ _ _ _ _ hr]
  exact finishLoad_remote _ hask

/-- Settles O19: each load by the body that its access describes, of this device or of another. -/
theorem loadsComplete : Obligations.LoadsComplete := by
  unfold Obligations.LoadsComplete
  refine ⟨fun f => ⟨plainAwait_completes fun _ => rfl, acquire_completes fun _ => rfl, plain_completes fun _ => rfl,
      acquire_completes fun _ => rfl, plain_completes fun _ => rfl, bounded_completes fun _ => rfl, bounded_completes fun _ => rfl⟩,
    fun f => ⟨remote_completes (fun _ => rfl) fun _ _ _ _ _ _ => loadPlain_remote,
      remote_completes (fun _ => rfl) fun _ _ _ _ _ _ => loadAcquire_remote⟩⟩

end Sys2Proof.Machine
end

