-- ==== Sys2Proof/Proofs/Stores.lean ====
section
/-! PROOFS. Stores and reductions complete (R238, R239, R251). -/

namespace Sys2Proof.Machine

/-- Settles O20: a store is an entry of the space, the fill and the release of its form, a reduction one of its operation. -/
theorem storesAndReductionsComplete : Obligations.StoresAndReductionsComplete := by
  unfold Obligations.StoresAndReductionsComplete
  refine fun f => ⟨?stG, ?stGRel, ?stS, ?stSRel, ?stSFs, fun rel => ⟨?add, ?min, ?max, ?and, ?or, ?xor, ?fadd⟩⟩
  case stG | stGRel | stS | stSRel | stSFs => exact store_via _ _ _ _ _ fun _ => rfl
  case add | min | max | and | or | xor | fadd => exact red_via _ _ _ _ fun _ => rfl

end Sys2Proof.Machine
end

