-- ==== Sys2Proof/Proofs/Sleep.lean ====
section
/-! PROOFS. SLEEP completes and ends (R228). -/

namespace Sys2Proof.Machine

/-! ## An issue that only moves its threads on -/

/-- The spec lemma of an issue that runs once for each thread and only moves it on, before what follows its bodies: beside `Completed`,
the gang apart from its threads and slices, and every other gang, are as they were. -/
theorem runOp_moved {op : Op} {f : Fields} {s : State} {g : Gang} (h : op.Ready f s g) (hgang : op.gang = false)
    (hu : isUniform op.dsts = false) (hready : op.ready (s.opened f op g) (s.goLanes f g) = true)
    (hbody : ∀ o l, op.body o l = (o, .ok Eff.none)) :
    ∃ u gu, s.runOp f op = (op.post u (s.goLanes f g) [] (s.gfLanes f g)).settle s.focus.key ∧
      Completed op f s s u g gu Eff.none ∧ gu.rest = g.rest ∧ ∀ j, j ≠ s.focus.key → u.gang? j = s.gang? j := by
  obtain ⟨g2, sim⟩ := opened_sim (op := op) (f := f) h.gang
  obtain ⟨-, -, hfocus, -⟩ := outer_fields sim.outer
  have hgo : ∀ l ∈ s.goLanes f g, l < g2.threads.length ∧ l / 4 < g2.slices.length := fun l hl => by
    have hl := lanesOf_lt (List.mem_filter.1 hl).1
    rw [sim.gang.threads, h.threads, sim.gang.slices]
    exact ⟨hl, h.slices l hl⟩
  have hgf : ∀ l ∈ s.gfLanes f g, l < g2.threads.length := fun l hl => by
    rw [sim.gang.threads, h.threads]
    exact lanesOf_lt (List.mem_filter.1 hl).1
  obtain ⟨u, gu, done, hp, hdone, hq, houter, hothers, hg, hrest, hok, hfalse, hstay, hslice, -⟩ :=
    perform_before (f := f) (s := s.opened f op g) (go := s.goLanes f g) (gf := s.gfLanes f g) (mask := s.focusLanes g)
      (fun _ => Eff.none) s.seqCtr s.clock (hfocus ▸ sim.after) (goLanes_nodup s f g) ((lanesOf_nodup _ _).filter _)
      (fun _ => goLanes_notMem_gfLanes) hgo hgf hready (runGroups_pure op _ (fun _ => Eff.none) _ fun _ _ => hbody _ _)
      (hfocus ▸ sim.after) ⟨rfl, rfl, rfl, rfl, rfl⟩ (sim.gang.quiet h.quiet) fun _ _ => nofun
  have hdone' : done = s.goLanes f g := by
    rw [hdone, groups_each hgang hu, List.flatMap_map]
    exact List.flatMap_singleton' _
  rw [hfocus] at hp hg hothers
  refine ⟨u, gu, by rw [runOp_ready h, hp, hdone', Option.getD_some], ⟨houter.trans sim.outer, hg, hq, fun l hl => ?go,
    fun l hl => ?gf, fun l hl => ?stay, fun i => ?slices⟩, hrest.trans sim.gang.restEq,
    fun j hj => (hothers j hj).trans (sim.others j hj)⟩
  case go => exact (hok l hl).trans (regs_thread _ _ _ _ _ (sim.gang.regs l))
  case gf =>
    rw [hfalse l hl, regs_control, sim.gang.regs l, ← regs_control]
  case stay =>
    exact (hstay l (fun hm => hl (List.mem_filter.1 hm).1) fun hm => hl (List.mem_filter.1 hm).1).trans (sim.gang.regs l)
  case slices =>
    refine (hslice i).trans (Eq.trans ?_ (sim.gang.sregs i))
    exact congrArg SliceState.regs (List.foldl_fixed _)

/-- Such an issue, settled, has delivered nothing. -/
theorem Completed.delivered_settle {op : Op} {f : Fields} {s u : State} {g gu : Gang} (C : Completed op f s s u g gu Eff.none)
    (hrest : gu.rest = g.rest) (hothers : ∀ j, j ≠ s.focus.key → u.gang? j = s.gang? j) :
    Delivered op f s (u.settle s.focus.key) g fun _ => Eff.none := by
  obtain ⟨gs, sim⟩ := settle_sim C.gang C.quiet
  refine ⟨sim.outer.trans C.outer, fun j hj => (sim.others j hj).trans (hothers j hj), gs, sim.after,
    sim.gang.restEq.trans hrest, fun l hl => (sim.gang.regs l).trans (C.go l hl), fun l hl => (sim.gang.regs l).trans (C.gf l hl),
    fun l hl => (sim.gang.regs l).trans (C.stay l hl), fun i => ?_⟩
  have hregs : (gs.slice i).regs = (g.slice i).regs := (sim.gang.sregs i).trans (C.slices i)
  split
  · exact ⟨fun j => congrArg (fun x => if 63 ≤ j then 0 else Tab.getD x j 0) (congrArg (·.1) hregs), congrArg (·.2.2) hregs⟩
  · exact hregs

/-! ## What a thread reads -/

/-- What a thread reads from an operand that is no special register depends on its v and predicate registers and on its slice's s
registers. -/
theorem src_congr {s u : State} {k l : Nat} {f : Fields} {o : Operand} {w : Nat} {g gu : Gang} (ho : ∀ r, o ≠ .sr r)
    (hg : s.gang? k = some g) (hgu : u.gang? k = some gu) (hv : (gu.thread l).v = (g.thread l).v)
    (hp : (gu.thread l).p = (g.thread l).p) (hs : (gu.slice (l / 4)).s = (g.slice (l / 4)).s) :
    u.src k l f o w = s.src k l f o w := by
  have hsrc : gu.src l f o w = g.src l f o w := by
    unfold Gang.src Thread.readVs Thread.readV SliceState.readSs SliceState.readS Thread.readP
    rw [hv, hp, hs]
  cases o with
  | sr r => exact absurd rfl (ho r)
  | _ => simp only [State.src, hg, hgu, Option.map_some, Option.getD_some, hsrc]

/-! ## SLEEP -/

/-- The cycles for which threads of SLEEP are to sleep: the largest of their n (R228). -/
def State.sleepOf (s : State) (f : Fields) (lanes : List Nat) : Nat := (lanes.map fun l => s.srcA (.sleep f) f l).foldl max 0

/-- What SLEEP does once its threads have moved on (R228). -/
def sleepPost (f : Fields) (s : State) (lanes _ _ : List Nat) : State :=
  if s.sleepOf f lanes = 0 then s else s.addWait s.focus.key lanes (.sleep f) (s.seqCtr - 1) s.clock (s.sleepOf f lanes)

/-- SLEEP as the frame runs it. -/
def opSleep (f : Fields) : Op := { frameOf (.sleep f) f with body := fun s _ => (s, .ok Eff.none), post := sleepPost f }

theorem exec_sleep (f : Fields) (s : State) : exec (.sleep f) s = .next (s.runOp f (opSleep f)) := rfl

/-- Threads that have moved on read the n that they read before. -/
theorem sleepOf_completed {f : Fields} {s u : State} {g gu : Gang} (hg : s.gang? s.focus.key = some g)
    (C : Completed (opSleep f) f s s u g gu Eff.none) (ha : ∀ r, f.a ≠ .sr r) :
    u.sleepOf f (s.goLanes f g) = (s.opened f (opSleep f) g).sleepOf f (s.goLanes f g) := by
  obtain ⟨g2, sim⟩ := opened_sim (op := opSleep f) (f := f) hg
  obtain ⟨-, -, hfocusO, -⟩ := outer_fields sim.outer
  obtain ⟨-, -, hfocusU, -⟩ := outer_fields C.outer
  refine congrArg (List.foldl max 0) (List.map_congr_left fun l hl => ?_)
  obtain ⟨hv, hp, -⟩ := regs_fields (C.go l hl)
  obtain ⟨hv2, hp2, -⟩ := regs_fields (sim.gang.regs l)
  unfold State.srcA
  rw [hfocusU, hfocusO]
  exact src_congr ha sim.after C.gang ((hv.trans (Eff.thread_v _ _ _ _)).trans hv2.symm)
    ((hp.trans (Eff.thread_p _ _ _ _)).trans hp2.symm)
    (congrArg (·.1) ((C.slices (l / 4)).trans (sim.gang.sregs (l / 4)).symm))

/-- A wait added to a gang with nobody at a rendezvous is all that its settling then differs in. -/
theorem addWait_settled {u : State} {k : Nat} {gu : Gang} {lanes : List Nat} (hgu : u.gang? k = some gu) (hq : gu.Quiet)
    (hne : lanes ≠ []) (i : Instr) (seq since n : Nat) :
    ∃ gs, (u.settle k).gang? k = some gs ∧ OnlyGang (u.settle k) ((u.addWait k lanes i seq since n).settle k) k
      { gs with waits := gs.waits ++ [⟨laneSet lanes, u.focus.pc, i, u.focus.insn, seq, since, n⟩] } := by
  have hadd : (u.addWait k lanes i seq since n).gang? k =
      some { gu with waits := gu.waits ++ [⟨laneSet lanes, u.focus.pc, i, u.focus.insn, seq, since, n⟩] } := by
    simp only [State.addWait, if_neg hne, State.gang?_modGang, if_true, hgu, Option.map_some]
  rw [settle_quiet hgu hq, settle_quiet hadd ⟨hq.gathers, hq.collects, hq.live⟩]
  refine ⟨gu.settleCounts, by rw [State.gang?_modGang, if_pos rfl, hgu, Option.map_some], ?_, fun j hj => ?_, ?_⟩
  · rw [State.gang?_modGang, if_pos rfl, hadd]
    rfl
  · simp only [State.addWait, if_neg hne, State.gang?_modGang, if_neg hj]
  · simp only [State.addWait, if_neg hne]
    rfl

/-- SLEEP: its threads move on, and sleep where one of their n is not zero. -/
theorem sleep_completes {f : Fields} {s : State} {g : Gang} (h : (frameOf (.sleep f) f).Ready f s g) (ha : ∀ r, f.a ≠ .sr r) :
    let op := frameOf (.sleep f) f
    let n := (s.opened f op g).sleepOf f (s.goLanes f g)
    ∃ t u, exec (.sleep f) s = .next t ∧ Delivered op f s u g (fun _ => Eff.none) ∧
      if n = 0 then t = u
      else ∃ gu q, u.gang? s.focus.key = some gu ∧ OnlyGang u t s.focus.key { gu with
        waits := gu.waits ++ [⟨laneSet (s.goLanes f g), s.focus.pc, .sleep f, s.focus.insn, q, s.clock, n⟩] } := by
  intro op n
  have hop : (opSleep f).Ready f s g := h.cast rfl rfl rfl rfl rfl rfl rfl rfl
  obtain ⟨u, gu, hrun, C, hrest, hothers⟩ := runOp_moved hop rfl rfl rfl fun _ _ => rfl
  have hn : u.sleepOf f (s.goLanes f g) = n := sleepOf_completed h.gang C ha
  obtain ⟨-, -, hfocus, -, hclock, -⟩ := outer_fields C.outer
  obtain ⟨houter, hsame, hgang⟩ := C.delivered_settle hrest hothers
  refine ⟨_, u.settle s.focus.key, (exec_sleep f s).trans (congrArg _ hrun), ⟨houter, hsame, hgang⟩, ?_⟩
  have hpost : (opSleep f).post u (s.goLanes f g) [] (s.gfLanes f g) =
      if n = 0 then u else u.addWait s.focus.key (s.goLanes f g) (.sleep f) (u.seqCtr - 1) s.clock n := by
    rw [← hn, ← hfocus, ← hclock]
    rfl
  rw [hpost]
  split
  · rfl
  · next hpos =>
    have hne : s.goLanes f g ≠ [] := fun he => hpos (by rw [← hn, he]; rfl)
    obtain ⟨gs, hgs, honly⟩ := addWait_settled C.gang C.quiet hne (.sleep f) (u.seqCtr - 1) s.clock n
    rw [hfocus] at honly
    exact ⟨gs, u.seqCtr - 1, hgs, honly⟩

/-! ## SLEEP_END -/

/-- The waits of a gang without a sleep whose time has passed. -/
theorem filter_sleepEnd {pre post : List Wait} {w : Wait} {now : Nat} (hseq : ∀ x ∈ pre ++ post, x.seq ≠ w.seq) (hn : w.n ≠ 0)
    (hpast : w.since + w.n ≤ now) :
    ((pre ++ w :: post).filter fun x => !(x.seq == w.seq && x.n != 0 && decide (x.since + x.n ≤ now))) = pre ++ post := by
  have hkeep : ∀ x ∈ pre ++ post, (!(x.seq == w.seq && x.n != 0 && decide (x.since + x.n ≤ now))) = true := fun x hx => by
    simp [hseq x hx]
  rw [List.filter_append, List.filter_cons_of_neg (by simp [hn, hpast]), ← List.filter_append, List.filter_eq_self.2 hkeep]

theorem exec_sleepEnd (k q : Nat) (s : State) : exec (.sleepEnd k q) s = .next (s.modGang k fun g => { g with
    waits := g.waits.filter fun x => !(x.seq == q && x.n != 0 && decide (x.since + x.n ≤ s.clock)) }) := rfl

/-- Settles O30: SLEEP moves its threads on, to sleep for the largest n; SLEEP_END takes one wait out of its gang. -/
theorem sleepersWake : Obligations.SleepersWake := by
  unfold Obligations.SleepersWake
  refine ⟨fun f s g h ha => sleep_completes h ha, fun s k g pre post w hg hwaits hseq hn hpast => ⟨_, exec_sleepEnd k w.seq s, ?_⟩⟩
  have hend := onlyGang_modGang (fun g => { g with
    waits := g.waits.filter fun x => !(x.seq == w.seq && x.n != 0 && decide (x.since + x.n ≤ s.clock)) }) hg
  simp only [hwaits, filter_sleepEnd hseq hn hpast] at hend
  exact hend

end Sys2Proof.Machine
end

