-- ==== Sys2Proof/Proofs/GangBodies.lean ====
section
/-! PROOFS. Instructions that run once for their sub-gang and change its gang, or the cores, but no thread and no slice (R257). -/

namespace Sys2Proof.Machine

/-- A step keeps the focus, and the threads, slices, width and rendezvous of the gang in focus where nobody stands at a rendezvous
of it. -/
structure State.KeepsFocus (s t : State) : Prop where
  focus : t.focus = s.focus
  gang : ∀ g, s.gang? s.focus.key = some g → g.Quiet → ∃ h, t.gang? s.focus.key = some h ∧ h.threads = g.threads ∧
    h.slices = g.slices ∧ h.width = g.width ∧ h.gathers = g.gathers ∧ h.collects = g.collects

theorem State.Keeps.keepsFocus {s t : State} (h : s.Keeps t) : s.KeepsFocus t := ⟨h.focus, fun g hg _ => h.gangs _ g hg⟩

theorem State.KeepsFocus.refl (s : State) : s.KeepsFocus s := (State.Keeps.refl s).keepsFocus

theorem quiet_of_same {g h : Gang} (q : g.Quiet) (hth : h.threads = g.threads) (hga : h.gathers = g.gathers)
    (hco : h.collects = g.collects) : h.Quiet := by
  obtain ⟨l, hl, hne⟩ := q.live
  exact ⟨hga.trans q.gathers, hco.trans q.collects, l, hth ▸ hl, by rwa [Gang.thread_congr hth]⟩

theorem State.KeepsFocus.trans {a b c : State} (h : a.KeepsFocus b) (i : b.KeepsFocus c) : a.KeepsFocus c where
  focus := i.focus.trans h.focus
  gang g hg q := by
    obtain ⟨u, hu, a1, a2, a3, a4, a5⟩ := h.gang g hg q
    obtain ⟨v, hv, b1, b2, b3, b4, b5⟩ := i.gang u (by rw [h.focus]; exact hu) (quiet_of_same q a1 a4 a5)
    exact ⟨v, by rwa [h.focus] at hv, b1.trans a1, b2.trans a2, b3.trans a3, b4.trans a4, b5.trans a5⟩

theorem accesses_keepsFocus {a : State → Nat → State → Eff → Prop} {E : Nat → Eff} (h : ∀ o l t e, a o l t e → o.KeepsFocus t) :
    ∀ (L : List Nat) (o t : State), Accesses a E L o t → o.KeepsFocus t := by
  intro L
  induction L with
  | nil => intro o t e; subst e; exact .refl _
  | cons l L ih => intro o t e; obtain ⟨u, h1, h2⟩ := e; exact (h _ _ _ _ h1).trans (ih _ _ h2)

/-- An instruction of the sub-gang completes where its body, which may know the state of the issue, does what the access says, and the
access keeps the gang in focus. -/
theorem gang_completes {i : Instr} {f : Fields} {body : State → State → Nat → State × Res} {a : State → Nat → State → Eff → Prop}
    (hi : ∀ s, exec i s = runInstr f (opGang i f (body s)) s)
    (hbody : ∀ s o l t e, a o l t e → body s o l = (t, .ok e)) (hk : ∀ o l t e, a o l t e → o.KeepsFocus t)
    (he : ∀ o l t e, a o l t e → e = Eff.none) :
    CompletesOnGang i f { endFrame i f with gang := true } a := by
  intro s g hr hready hc
  have hr' : (opGang i f (body s)).Ready f s g := hr.cast rfl rfl rfl rfl rfl rfl rfl rfl
  obtain ⟨s1, E, hacc⟩ := canAccess_accesses _ (groups_leaders_nodup (opGang i f (body s)) _ (goLanes_nodup s f g)) _ hc
  obtain ⟨g2, sim⟩ := opened_sim (op := opGang i f (body s)) (f := f) hr'.gang
  have hfocus : (s.opened f (opGang i f (body s)) g).focus = s.focus := congrArg (fun o => o.2.2.2.1) sim.outer
  have hK := accesses_keepsFocus hk _ _ _ hacc
  obtain ⟨g1, h1, hsame⟩ := hK.gang g2 (hfocus ▸ sim.after) (sim.gang.quiet hr'.quiet)
  have hD := runOp_via hr' E rfl
    (runGroups_via _ E _ _ _ (accesses_mono (fun _ => True) (fun o l t e _ h => ⟨hbody s _ _ _ _ h, trivial⟩) _ _ _ trivial hacc))
    hK.focus (hfocus ▸ h1) (fun g3 h3 => Option.some.inj (sim.after.symm.trans h3) ▸ hsame) (fun _ _ _ _ _ _ _ => rfl)
    fun l hl => by
      rw [accesses_all (fun e => e = Eff.none) he _ _ _ hacc _ (groups_leaders_mem _ _ l hl)]
      exact nofun
  exact ⟨_, s1, E, hi s, hacc, hD.outer, hD.others, hD.gang, hD.entries⟩

end Sys2Proof.Machine
end

