-- ==== Sys2Proof/Proofs/MatrixGangs.lean ====
section
/-! PROOFS. MBIND.U and MRGD complete (R286, R292). -/

namespace Sys2Proof.Machine

/-- A gang that its matrix set has let go (R286). -/
def Gang.unbound (g : Gang) : Gang := { g with binding := none, wish := none, collects := [], issued := [], stalled := 0 }

theorem gang?_unboundAll (ks : List Nat) (s : State) (k : Nat) :
    (ks.foldl (fun s j => s.modGang j Gang.unbound) s).gang? k = if k ∈ ks then (s.gang? k).map Gang.unbound else s.gang? k := by
  induction ks generalizing s with
  | nil => simp
  | cons j ks ih =>
    rw [List.foldl_cons, ih, State.gang?_modGang]
    by_cases hj : k = j
    · subst hj
      cases s.gang? k <;> simp [Gang.unbound]
    · simp [hj]

/-- The dissolution of a matrix set lets its gangs go, and changes no other (R286). -/
theorem gang?_dissolveSet (s : State) (core set k : Nat) : (s.dissolveSet core set).gang? k =
    if k ∈ Tab.getD (s.core core).sets set [] then (s.gang? k).map Gang.unbound else s.gang? k :=
  (gang?_unboundAll _ _ k).trans rfl

theorem focus_dissolveSet (s : State) (core set : Nat) : (s.dissolveSet core set).focus = s.focus :=
  (foldl_keeps (fun (s : State) j => s.modGang j Gang.unbound) State.focus (fun _ _ => rfl) _ _).trans rfl

/-- With nobody at a collective, no thread is to meet one again. -/
theorem keepsFocus_dissolveSet (s : State) (core set : Nat) : s.KeepsFocus (s.dissolveSet core set) where
  focus := focus_dissolveSet s core set
  gang g hg q := by
    rw [gang?_dissolveSet, hg, Option.map_some]
    split
    · exact ⟨g.unbound, rfl, rfl, rfl, rfl, rfl, q.collects.symm⟩
    · exact ⟨g, rfl, rfl, rfl, rfl, rfl, rfl⟩

/-- MBIND.U of a set whose tiles are at rest dissolves it. -/
theorem mbindU_completes (f : Fields) : CompletesOnGang (.mbindU f) f { endFrame (.mbindU f) f with gang := true } (UnbindAccess f) := by
  refine gang_completes (fun _ => rfl) ?_ ?_ fun _ _ _ _ h => h.1
  · rintro s o l t e ⟨rfl, set, q, hb, hbusy, rfl⟩
    have hrest : ((o.core (coreOf o.focus.key)).tiles.any fun x =>
        NatSet.has (Tab.getD (o.core (coreOf o.focus.key)).named set []) x.1 && x.2.busy != 0) = false := by
      refine List.any_eq_false.2 fun x hx hn => ?_
      obtain ⟨hnamed, hne⟩ := Bool.and_eq_true_iff.1 hn
      exact bne_iff_ne.1 hne (hbusy x hx hnamed)
    simp only [hb, hrest, Bool.false_eq_true, if_false]
  · rintro o l t e ⟨-, set, q, -, -, rfl⟩
    exact keepsFocus_dissolveSet _ _ _

/-- The limit of a guard: a magnitude of F32, infinity at most (R292). -/
theorem guardLimit_eq (x : Nat) : (if 0x7F800000 < x then 0x7F800000 else x) = min x 0x7F800000 := by
  split <;> omega

/-- MRGD sets a guard of its gang. -/
theorem mrgd_completes (f : Fields) : CompletesOnGang (.mrgd f) f { endFrame (.mrgd f) f with gang := true } (RangeAccess f) := by
  refine gang_completes (fun _ => rfl) ?_ ?_ fun _ _ _ _ h => h.1
  · rintro s o l t e ⟨rfl, n, hd, rfl⟩
    simp only [hd, guardLimit_eq]
  · rintro o l t e ⟨-, n, -, rfl⟩
    refine State.Keeps.keepsFocus ?_
    exact keeps_modGang _ _ fun _ => ⟨rfl, rfl, rfl, rfl, rfl⟩

/-- Settles O36: each instruction by what its body does to the gangs of its set, or to the guards of its gang. -/
theorem matrixGangInstructionsComplete : Obligations.MatrixGangInstructionsComplete := by
  unfold Obligations.MatrixGangInstructionsComplete
  exact fun f => ⟨mbindU_completes f, mrgd_completes f⟩

end Sys2Proof.Machine
end

