-- ==== Sys2Proof/Proofs/CopyInstructions.lean ====
section
/-! PROOFS. The copy instructions complete, at their issue and through their wakes (R272 to R276, R280 to R283). -/

namespace Sys2Proof.Machine

/-! ## What they do to gangs -/

theorem keeps_setUse (s : State) (c u : Nat) (x : CopyUse) : s.Keeps (s.setUse c u x) := (still_modCore _ _ _).keeps

theorem keeps_joinBatch (s : State) (k stamp : Nat) : s.Keeps (s.modGang k fun g => g.joinBatch stamp) :=
  keeps_modGang s k fun _ => ⟨rfl, rfl, rfl, rfl, rfl⟩

theorem keeps_dropCpy (s : State) (k seq : Nat) : s.Keeps (s.modGang k fun g => { g with cpys := g.cpys.filter fun y => y.1 ≠ seq }) :=
  keeps_modGang s k fun _ => ⟨rfl, rfl, rfl, rfl, rfl⟩

theorem still_readRecord (s : State) (blk : Nat) (odd : Bool) (off : Nat) : s.Still (s.readRecord blk odd off).1 := by
  unfold State.readRecord
  refine List.foldlRecOn (motive := fun x : State × Except Nat (BitVec 512) => s.Still x.1) _ _ (.refl s) fun x h i _ => ?_
  have hread := h.trans (still_scratchRead x.1 blk odd (off + 16 * i) 16)
  split
  · exact h
  · split <;> next e => rw [e] at hread; exact hread

/-- The settling of levels changes levels and EPEND bits alone (R145, R280). -/
theorem settleLevels_deaf (g : Gang) : ∃ l, g.settleLevels.deaf = { g with levels := l }.deaf := by
  unfold Gang.settleLevels
  dsimp only
  have hfold : ∀ order : List Nat, ∃ l, (order.foldl (fun (x : Gang × Bool) i =>
      let lv := x.1.level i
      if lv.state == .outstanding then
        if x.2 && lv.recs.all fun c => c.status.isSome then (x.1.setLevel i { lv with state := .complete }, true)
        else (x.1, false)
      else x) (g, true)).1 = { g with levels := l } := fun order => by
    refine List.foldlRecOn (motive := fun x : Gang × Bool => ∃ l, x.1 = { g with levels := l }) _ _ ⟨g.levels, rfl⟩
      fun x ⟨l, hl⟩ i _ => ?_
    dsimp only
    split
    · split
      · exact ⟨_, by rw [hl]; rfl⟩
      · exact ⟨l, hl⟩
    · exact ⟨l, hl⟩
  obtain ⟨l, hl⟩ := hfold ((List.range 7).map fun i => (g.openLevel + 1 + i) % 8)
  refine ⟨l, ?_⟩
  split
  · exact (deaf_latchWhere _ _).trans (congrArg Gang.deaf hl)
  · exact congrArg Gang.deaf hl

theorem settleLevels_keeps (g : Gang) : g.settleLevels.threads = g.threads ∧ g.settleLevels.slices = g.slices ∧
    g.settleLevels.width = g.width ∧ g.settleLevels.gathers = g.gathers ∧ g.settleLevels.collects = g.collects := by
  obtain ⟨l, h⟩ := settleLevels_deaf g
  exact ⟨(congrArg Gang.threads h :), (congrArg Gang.slices h :), (congrArg Gang.width h :), (congrArg Gang.gathers h :),
    (congrArg Gang.collects h :)⟩

/-! ## CPY -/

theorem withPart_eq (x : CopyUse) (p : UsePart) : x.withPart p = x.addPart p := by
  simp only [CopyUse.withPart, CopyUse.addPart, List.length_append, List.length_singleton]

/-- A part that fits a record fails none of the checks of R275. -/
theorem part_fits {j n : Nat} {row rows valid onBarrier : Bool} {recs : List BatchRec} (hj : j < n) (hrow : row = rows)
    (hvalid : rows = true → valid = true) (hrecs : onBarrier = false → recs.length < 255) :
    (n ≤ j || row != rows || (rows && !valid)) = false ∧ (!onBarrier && decide (255 ≤ recs.length)) = false := by
  subst hrow
  refine ⟨?_, ?_⟩
  · cases row <;> simp_all
  · cases onBarrier <;> simp_all

/-- An accepted CPY does what its body does, whatever its number (R275, R276). -/
theorem copyIssue_accepts {f : Fields} {o : State} {l : Nat} {t : State} {e : Eff} (seq : Nat) (h : CopyAccess f o l t e) :
    o.copyIssue f seq l = (t, .ok e) := by
  obtain ⟨rfl, b, odd, off, u, hb, hal, hat, hd, hr, hcase⟩ := h
  unfold State.copyIssue
  simp only [hb, hal, if_true, hat, hd, hr, Bool.false_eq_true, if_false]
  rcases hcase with ⟨n, x, hfind, ⟨hj, hrow, hvalid, hrecs⟩, hblk, hpart, rfl⟩ |
    ⟨u1, r, n, hfind, hread, hrec, ⟨hj, hrow, hvalid, hrecs⟩, hfree, rfl⟩
  · obtain ⟨hbad, hfull⟩ := part_fits hj hrow hvalid hrecs
    have hnew : ¬ (x.blk ≠ o.focusGang.blk ∨ (x.parts.any fun p => decide (p.j = f.md.toNat % 4)) = true) := by
      simpa [hblk] using hpart
    simp only [hfind, hbad, hfull, if_neg hnew, Bool.false_eq_true, if_false, withPart_eq]
  · obtain ⟨hbad, hfull⟩ := part_fits hj hrow hvalid hrecs
    have hfree' : Tab.freeKey (State.core { u1 with seqCtr := u1.seqCtr + 1 } (b.coreOfHalf odd)).uses 0 64 = some n := hfree
    simp only [hfind, hread, hrec, hbad, hfull, hfree', Bool.not_true, Bool.or_self, Bool.false_eq_true, if_false, State.takeId, withPart_eq]

theorem copyAccess_keeps {f : Fields} {o : State} {l : Nat} {t : State} {e : Eff} (h : CopyAccess f o l t e) : o.Keeps t := by
  obtain ⟨-, b, odd, off, u, -, -, -, hd, -, hcase⟩ := h
  have hu := (still_drain hd).keeps
  have hjoin (s : State) (r : BitVec 512) (stamp : Nat) :
      s.Keeps (if rOnBarrier r then s else s.modGang o.focus.key fun g => g.joinBatch stamp) := by
    split
    · exact .refl s
    · exact keeps_joinBatch s _ _
  rcases hcase with ⟨n, x, -, -, -, -, rfl⟩ | ⟨u1, r, n, -, hread, -, -, -, rfl⟩
  · exact (hu.trans (keeps_setUse _ _ _ _)).trans (hjoin _ _ _)
  · have hs := still_readRecord u o.focusGang.blk odd off
    rw [hread] at hs
    exact (((hu.trans hs.keeps).trans (still_seq _ _).keeps).trans (keeps_setUse _ _ _ _)).trans (hjoin _ _ _)

theorem cpy_completes (f : Fields) : CompletesOnGang (.cpy f) f { endFrame (.cpy f) f with gang := true } (CopyAccess f) :=
  gang_completes (body := fun s o l => o.copyIssue f s.seqCtr l) (fun _ => rfl) (fun _ _ _ _ _ => copyIssue_accepts _)
    (fun _ _ _ _ h => (copyAccess_keeps h).keepsFocus) fun _ _ _ _ h => h.1

/-- A CPY that waited as a 65th use begins its use (R276). -/
theorem copyAccept_starts {seq : Nat} {o : State} {l : Nat} {t : State} {e : Eff} (h : CopyStart seq o l t e) :
    o.copyAccept seq l = (t, .ok e) := by
  obtain ⟨rfl, y, c, x, n, hcpy, hfind, hfree, rfl⟩ := h
  unfold State.copyAccept
  simp only [hcpy, hfind, hfree]
  cases x.parts <;> rfl

theorem copyStart_keeps {seq : Nat} {o : State} {l : Nat} {t : State} {e : Eff} (h : CopyStart seq o l t e) : o.Keeps t := by
  obtain ⟨-, y, c, x, n, -, -, -, rfl⟩ := h
  exact (keeps_setUse o c n x).trans (keeps_dropCpy _ _ _)

theorem cpy_wakes (f : Fields) :
    Wakes .cpyAcceptDeferred (.cpy f) (fun _ => { endFrame (.cpy f) f with gang := true }) CopyStart := by
  suffices h : Wakes .cpyAcceptDeferred (.cpy f) (fun seq => opGang (.cpy f) f fun s l => s.copyAccept seq l) CopyStart from
    h.ofBody (body := fun seq s l => s.copyAccept seq l)
  refine wakes_via (f := f) (fun s k w x hw hx => ?_) (fun _ _ _ _ _ => copyAccept_starts) (fun _ _ _ _ _ => copyStart_keeps)
    (fun _ _ _ => rfl) fun _ _ _ _ _ h => ?_
  · change execCpyAcceptDeferred k w s = _
    simp only [execCpyAcceptDeferred, hw, hx]
  · rw [h.1]
    exact nofun

/-! ## CBATCH -/

theorem opBatch_body {f : Fields} {o : State} {l : Nat} {t : State} {e : Eff} (h : BatchAccess f o l t e) :
    (opBatch f).body o l = (t, .ok e) := by
  obtain ⟨rfl, ⟨hrecs, rfl⟩ | ⟨hrecs, hsealed, rfl⟩⟩ := h
  · exact if_pos hrecs
  · exact (if_neg hrecs).trans (if_neg hsealed)

theorem batchAccess_keeps {f : Fields} {o : State} {l : Nat} {t : State} {e : Eff} (h : BatchAccess f o l t e) : o.Keeps t := by
  obtain ⟨-, ⟨-, rfl⟩ | ⟨-, -, rfl⟩⟩ := h
  · exact .refl _
  · refine ⟨rfl, fun k g hg => ?_⟩
    rw [State.gang?_setGang]
    split
    · next hk =>
      refine ⟨_, rfl, ?_⟩
      have hfg : o.focusGang = g := focusGang_eq hk.symm hg
      rw [hfg]
      exact settleLevels_keeps _
    · exact ⟨g, hg, rfl, rfl, rfl, rfl, rfl⟩

theorem cbatch_completes (f : Fields) : CompletesOnGang (.cbatch f) f (opBatch f) (BatchAccess f) :=
  (gang_completes (body := fun _ => (opBatch f).body) (fun _ => rfl) (fun _ _ _ _ _ => opBatch_body)
    (fun _ _ _ _ h => (batchAccess_keeps h).keepsFocus) fun _ _ _ _ h => h.1).ofBody

theorem cbatch_wakes (f : Fields) : Wakes .cbatchDeferredSeal (.cbatch f) (fun _ => opBatch f) (fun _ => BatchAccess f) := by
  refine wakes_via (f := f) (fun s k w x hw hx => ?_) (fun _ _ _ _ _ => opBatch_body) (fun _ _ _ _ _ => batchAccess_keeps)
    (fun _ _ _ => rfl) fun _ _ _ _ _ h => ?_
  · change execCbatchDeferredSeal k w s = _
    simp only [execCbatchDeferredSeal, hw, hx]
  · rw [h.1]
    exact nofun

/-! ## CWAIT and CSTAT -/

theorem opCwait_body {f : Fields} {o : State} {l : Nat} {t : State} {e : Eff} (h : CwaitAccess f o l t e) :
    (opCwait f).body o l = (t, .ok e) := by
  obtain ⟨hs, hn, rfl, rfl⟩ := h
  rw [opCwait, await_body _ _ _ hs]
  exact if_pos hn

theorem cwaitAccess_same {f : Fields} {o : State} {l : Nat} {t : State} {e : Eff} (h : CwaitAccess f o l t e) :
    o.Still t ∧ e.park ≠ some .ended := by
  obtain ⟨-, -, rfl, rfl⟩ := h
  exact ⟨.refl _, nofun⟩

theorem cwait_completes (f : Fields) : CompletesVia (.cwait f) f (opCwait f) (CwaitAccess f) :=
  completes_via (fun _ => rfl) (fun _ _ _ _ => opCwait_body) (fun _ _ _ _ h => (cwaitAccess_same h).1) (fun _ _ _ _ _ _ _ _ _ => rfl)
    fun _ _ _ _ h => (cwaitAccess_same h).2

theorem cwait_wakes (f : Fields) : Wakes .cwaitRelease (.cwait f) (fun _ => opCwait f) (fun _ => CwaitAccess f) := by
  refine wakes_via (f := f) (fun s k w x hw hx => ?_) (fun _ _ _ _ _ => opCwait_body) (fun _ _ _ _ _ h => (cwaitAccess_same h).1.keeps)
    (fun _ _ _ => rfl) fun _ _ _ _ _ h => (cwaitAccess_same h).2
  change execCwaitRelease k w s = _
  simp only [execCwaitRelease, hw, hx]

/-- CSTAT as the frame runs it (R283). -/
def opCstat (f : Fields) : Op :=
  opGang (.cstat f) f fun s l =>
    let n := s.srcA (.cstat f) f l
    if 7 < n then (s, .trap (LaneFault.plain l .operandClass))
    else (s, .ok (Eff.value (.cstat f) f (noFlag (s.focusGang.level n).stat)))

theorem cstat_completes (f : Fields) : CompletesVia (.cstat f) f { endFrame (.cstat f) f with gang := true } (CstatAccess f) := by
  suffices h : CompletesVia (.cstat f) f (opCstat f) (CstatAccess f) from h.ofBody (body := (opCstat f).body)
  refine completes_via (fun _ => rfl) ?_ ?_ (fun _ _ _ _ _ _ _ _ _ => rfl) ?_
  · rintro o l t e ⟨hn, rfl, rfl⟩
    exact if_neg (Nat.not_lt.2 hn)
  · rintro o l t e ⟨-, rfl, -⟩
    exact .refl _
  · rintro o l t e ⟨-, -, rfl⟩
    exact nofun

/-- Settles O33: each instruction by what its body does where it need not wait, and the waiting ones by the same at their wakes. -/
theorem copyInstructionsComplete : Obligations.CopyInstructionsComplete := by
  unfold Obligations.CopyInstructionsComplete
  exact fun f => ⟨cpy_completes f, cpy_wakes f, cbatch_completes f, cbatch_wakes f, cwait_completes f, cwait_wakes f, cstat_completes f⟩

end Sys2Proof.Machine
end

