-- ==== Sys2Proof/Proofs/CopyUses.lean ====
section
/-! PROOFS. A use of the copy engine moves its chunks, signals its sources read and becomes visible (R277 to R280, R341, R343). -/

namespace Sys2Proof.Machine

@[simp] theorem use_setUse (s : State) (c u : Nat) (x : CopyUse) : Tab.get? ((s.setUse c u x).core c).uses u = some x := by
  simp only [State.setUse, State.core_modCore, if_true, tab_get?_set]

theorem coreDown_setUse (s : State) (c u : Nat) (x : CopyUse) (j : Nat) : (s.setUse c u x).coreDown j = s.coreDown j := by
  unfold State.coreDown State.setUse
  rw [State.core_modCore]
  split
  · next h => rw [h]
  · rfl

/-! ## Chunks -/

/-- A use once the writes of one of its chunks have been performed or sent (R277, R341). -/
def CopyUse.wrote (x : CopyUse) (b : ChunkBuf) : CopyUse :=
  { x.setBuf { b with written := true, applied := rMode x.record == 5 } with poison := x.poison || b.elems.any fun e => e.2.2 }

theorem mem_wrote (x : CopyUse) (b : ChunkBuf) : { b with written := true, applied := rMode x.record == 5 } ∈ (x.wrote b).bufs :=
  List.mem_append_right _ (List.mem_singleton.2 rfl)

/-- A chunk whose writes have been made is acknowledged where none of them is on its way to another device (R341). -/
theorem ackChunk_wrote (s : State) (c u : Nat) (x : CopyUse) (b : ChunkBuf) : (s.setUse c u (x.wrote b)).ackChunk c u b.n =
    if s.chunkOut c u b.n then s.setUse c u (x.wrote b)
    else (s.setUse c u (x.wrote b)).setUse c u { x.wrote b with acked := NatSet.add x.acked b.n } := by
  have hwritten : ((x.wrote b).bufs.any fun d => d.n = b.n && d.written) = true :=
    List.any_eq_true.2 ⟨_, mem_wrote x b, by simp⟩
  have hout : (s.setUse c u (x.wrote b)).chunkOut c u b.n = s.chunkOut c u b.n := rfl
  unfold State.ackChunk
  simp only [use_setUse, hwritten, hout, Bool.true_and]
  cases s.chunkOut c u b.n <;> rfl

/-- A chunk whose targets translate and whose writes can be made is written. -/
theorem writeChunk_writes {s s1 v : State} {c u : Nat} {x : CopyUse} {b : ChunkBuf} {ws : List ChunkWrite} (hb : b.applied = false)
    (ht : s.chunkTargets c x b.elems = (s1, .ok ws))
    (hw : s1.chunkWrites c u b.n x (if rBytes x.record || rMode x.record == 6 then mergeAtoms ws else ws) = some v) :
    s.writeChunk c u x b = (v.setUse c u (x.wrote b)).ackChunk c u b.n := by
  unfold State.writeChunk
  simp only [ht, hb, Bool.false_eq_true, if_false, hw]
  rfl

/-- A chunk that has not been read, and that can be read and written at once, is (R341). -/
theorem runChunk_moves {s v : State} {c u n : Nat} {x : CopyUse} {elems : List (Int × Nat × Bool)} (hnew : ∀ b ∈ x.bufs, b.n ≠ n)
    (hmode : rMode x.record = 5 → n < x.ackedTo + 64) (h : s.MovesChunk c u n x elems v) :
    s.runChunk c u n x = (v.setUse c u ((x.setBuf ⟨n, elems, [], [], false, false⟩).wrote ⟨n, elems, [], [], false, false⟩)).ackChunk c u n := by
  obtain ⟨lo, hi, s1, l, s2, s3, ws, y, hchunk, hspots, hread, rfl, htargets, hwrites⟩ := h
  have hfind : x.bufs.find? (fun b => b.n = n) = none := List.find?_eq_none.2 fun b hb => by simpa using hnew b hb
  have hgo : ¬ (rMode x.record = 5 ∧ x.ackedTo + 64 ≤ n) := fun h => absurd (hmode h.1) (Nat.not_lt.2 h.2)
  unfold State.runChunk
  simp only [hfind, if_neg hgo, hchunk, hspots, hread, if_true]
  exact writeChunk_writes rfl htargets hwrites

theorem copyChunk_moves {s v : State} {c u n : Nat} {x : CopyUse} {elems : List (Int × Nat × Bool)}
    (hx : Tab.get? (s.core c).uses u = some x) (hstate : x.state ≠ .gathering) (hacked : NatSet.has x.acked n = false)
    (hstopped : NatSet.has x.stopped n = false) (hblock : s.contextGone x.blk = false) (hnew : ∀ b ∈ x.bufs, b.n ≠ n)
    (hmode : rMode x.record = 5 → n < x.ackedTo + 64) (h : s.MovesChunk c u n x elems v) :
    ∃ t z, exec (.copyChunk c u n) s = .next t ∧ t.mem = v.mem ∧ t.blocks = v.blocks ∧ t.link = v.link ∧ t.gangs = v.gangs ∧
      Tab.get? (t.core c).uses u = some z ∧ (∃ d ∈ z.bufs, d.n = n ∧ d.elems = elems ∧ d.written = true) ∧
      z.acked = (if v.chunkOut c u n then x.acked else NatSet.add x.acked n) ∧
      z.poison = (x.poison || elems.any fun e => e.2.2) := by
  have hexec : exec (.copyChunk c u n) s = .next (s.runChunk c u n x) := by
    change execCopyChunk c u n s = _
    have hs : (x.state == .gathering) = false := beq_false_of_ne hstate
    simp only [execCopyChunk, hx, hs, hacked, hstopped, hblock, Bool.or_self, Bool.false_and, Bool.false_eq_true, if_false]
  rw [hexec, runChunk_moves hnew hmode h, ackChunk_wrote]
  have hmem := mem_wrote (x.setBuf ⟨n, elems, [], [], false, false⟩) ⟨n, elems, [], [], false, false⟩
  dsimp only
  split
  · exact ⟨_, _, rfl, rfl, rfl, rfl, rfl, use_setUse _ _ _ _, ⟨_, hmem, rfl, rfl, rfl⟩, rfl, rfl⟩
  · exact ⟨_, _, rfl, rfl, rfl, rfl, rfl, use_setUse _ _ _ _, ⟨_, hmem, rfl, rfl, rfl⟩, rfl, rfl⟩

/-! ## Signals on a barrier -/

theorem cores_scratchScan (s : State) (b : Nat) (o : Bool) (off n : Nat) (w : Bool) : (s.scratchScan b o off n w).1.cores = s.cores := by
  unfold State.scratchScan
  split
  · rfl
  · dsimp only
    split
    · exact cores_logError _ _ _ _ _ _ _
    · split
      · rfl
      · split
        · rfl
        · exact cores_logError _ _ _ _ _ _ _

theorem cores_signalBarrier (s : State) (blk : Nat) (odd : Bool) (off phase : Nat) : (s.signalBarrier blk odd off phase).cores = s.cores := by
  unfold State.signalBarrier
  split
  · rfl
  · refine foldl_keeps _ State.cores (fun s _ => ?_) _ _
    exact State.modGang_cores s _ _

/-- An arrival changes no core (R90). -/
theorem cores_arrive (s : State) (blk : Nat) (odd : Bool) (off e n : Nat) (delta : Int) : (s.arrive blk odd off e n delta).1.cores = s.cores := by
  have h := cores_scratchScan s blk odd off 16 false
  unfold State.arrive
  dsimp only
  split
  · exact h
  · split
    · exact (cores_signalBarrier _ _ _ _ _).trans h
    · exact h

/-- An engine's arrival at an object of a core that is up, accepted (R278). -/
theorem engineArrive_accepted {s : State} {c u lo phase delta off : Nat} {x : CopyUse} {b : Block} {odd ph : Bool}
    (hb : s.block? x.blk = some b) (hd : b.state ≠ .destroyed) (hat : b.placeOf c (16 * rField x.record lo 16) 16 = some (odd, off))
    (hup : s.coreDown (b.coreOfHalf odd) = false) (ha : (s.arrive x.blk odd off phase 0 (-(delta : Int))).2.2 = .accepted ph) :
    s.engineArrive c u x lo phase delta = ((s.arrive x.blk odd off phase 0 (-(delta : Int))).1, some false) := by
  have hgone : s.contextGone x.blk = false := by
    rw [State.contextGone, hb]
    exact beq_false_of_ne hd
  have hwaits : s.routerWaits (b.coreOfHalf odd) = false := by rw [State.routerWaits, hup, Bool.false_and]
  unfold State.engineArrive
  simp only [hgone, hb, hat, hwaits, hup, Option.bind_some, Option.map_some, Bool.false_eq_true, if_false]
  generalize s.arrive x.blk odd off phase 0 (-(delta : Int)) = a at ha ⊢
  obtain ⟨t, w, r⟩ := a
  simp only at ha
  subst ha
  rfl

/-- A use whose sources have all been read signals so (R278). -/
theorem copySrcDone_signals {s : State} {c u off : Nat} {x : CopyUse} {b : Block} {odd ph : Bool}
    (hx : Tab.get? (s.core c).uses u = some x) (hstate : x.state ≠ .gathering) (hwants : rSrcDone x.record = true)
    (hnot : x.srcDone = false) (hread : ∀ n, n < x.chunks.length → ∃ d ∈ x.bufs, d.n = n ∧ d.pending = [] ∧ d.unread = [])
    (hb : s.block? x.blk = some b) (hd : b.state ≠ .destroyed) (hat : b.placeOf c (16 * rField x.record 384 16) 16 = some (odd, off))
    (hup : s.coreDown (b.coreOfHalf odd) = false)
    (ha : ((s.setUse c u { x with srcDone := true }).arrive x.blk odd off (rField x.record 32 12) 0 (-(x.bytes : Int))).2.2 = .accepted ph) :
    exec (.copySrcDone c u) s =
      .next ((s.setUse c u { x with srcDone := true }).arrive x.blk odd off (rField x.record 32 12) 0 (-(x.bytes : Int))).1 := by
  have hs : (x.state != .gathering) = true := bne_iff_ne.2 hstate
  have hall : ((List.range x.chunks.length).all fun n => x.bufs.any fun b => b.n = n && b.pending == [] && b.unread == []) = true := by
    refine List.all_eq_true.2 fun n hn => ?_
    obtain ⟨d, hd, rfl, hp, hun⟩ := hread n (List.mem_range.1 hn)
    exact List.any_eq_true.2 ⟨d, hd, by simp [hp, hun]⟩
  have harrive := engineArrive_accepted (s := s.setUse c u { x with srcDone := true }) (u := u) (x := x) (lo := 384) hb hd hat
    ((coreDown_setUse _ _ _ _ _).trans hup) ha
  change execCopySrcDone c u s = _
  simp only [execCopySrcDone, hx, hs, hwants, hnot, hall, harrive, Bool.not_false, Bool.and_self, if_true, Bool.false_eq_true, if_false]

/-! ## Visibility -/

section
variable {s : State} {c u : Nat} {x : CopyUse} (hx : Tab.get? (s.core c).uses u = some x) (hstate : x.state = .running)
  (hall : x.acked.length = x.chunks.length) (hsrc : rSrcDone x.record = true → x.srcDone = true)
include hx hstate hall hsrc

/-- A use that has moved everything, and has signalled its sources where it is to, ends with its arrival (R278). -/
theorem copyVisible_onBarrier {t : State} {lost : Bool} (hon : rOnBarrier x.record = true)
    (ha : s.engineArrive c u x 400 (rField x.record 44 12) x.bytes = (t, some lost)) :
    exec (.copyVisible c u) s = .next (t.endUse c u 0) := by
  have hgo : (x.srcDone || !rSrcDone x.record) = true := by
    cases hr : rSrcDone x.record <;> simp_all
  change execCopyVisible c u s = _
  simp only [execCopyVisible, hx, hstate, beq_self_eq_true, hall, decide_true, hgo, Bool.and_self, if_true, hon, ha]

/-- In the batch it ends with the status that it has met (R278, R279). -/
theorem copyVisible_inBatch (hon : rOnBarrier x.record = false) :
    exec (.copyVisible c u) s = .next (s.endUse c u (if x.lost then 3 else if x.poison then 1 else 0)) := by
  have hgo : (x.srcDone || !rSrcDone x.record) = true := by
    cases hr : rSrcDone x.record <;> simp_all
  change execCopyVisible c u s = _
  simp only [execCopyVisible, hx, hstate, beq_self_eq_true, hall, decide_true, hgo, Bool.and_self, if_true, hon, Bool.false_eq_true,
    if_false]

end

/-- The end of a use that signals on a barrier changes no gang and no block (R278). -/
theorem endUse_onBarrier {s : State} {c u : Nat} {x : CopyUse} (st : Nat) (hx : Tab.get? (s.core c).uses u = some x)
    (hb : rOnBarrier x.record = true) : (s.endUse c u st).blocks = s.blocks ∧ (s.endUse c u st).gangs = s.gangs := by
  unfold State.endUse
  simp only [hx, hb, if_true]
  exact ⟨rfl, rfl⟩

/-- A record completed in the batch of a resident gang (R278, R280). -/
theorem completePart_resident {s : State} {blk : Nat} {p : UsePart} {g : Gang} (stamp st : Nat) (hg : s.gang? p.key = some g)
    (hblk : g.blk = blk) (hidx : g.gidx = p.gang) (hfree : g.gstate ≠ .free) (hr : g.restoring = false) :
    s.completePart blk stamp st p = { s with
      gangs := Tab.set s.gangs p.key (g.endRecs p.level stamp st).settleLevels
      snaps := Tab.update s.snaps p.key fun x => (x.endRecs p.level stamp st).settleLevels } := by
  unfold State.completePart
  simp only [hg]
  rw [if_pos ⟨hblk, hidx, bne_iff_ne.2 hfree, by rw [hr]; rfl⟩]

/-- The end of a use of one part that signals in the batch (R278, R279). -/
theorem endUse_onePart {s : State} {c u : Nat} {x : CopyUse} {p : UsePart} (st : Nat) (hx : Tab.get? (s.core c).uses u = some x)
    (hb : rOnBarrier x.record = false) (hp : x.parts = [p]) :
    ∃ t : State, s.endUse c u st = t.completePart x.blk x.stamp st p ∧ t.gangs = s.gangs ∧ t.mem = s.mem ∧ t.blocks = s.blocks := by
  unfold State.endUse
  simp only [hx, hb, hp, List.foldl_cons, List.foldl_nil, Bool.false_eq_true, if_false]
  exact ⟨_, rfl, rfl, rfl, rfl⟩

/-- It completes its record in the batch of the part's gang, and changes nothing else of gangs, blocks and memory (R278, R280). -/
theorem endUse_inBatch {s : State} {c u : Nat} {x : CopyUse} {p : UsePart} {g : Gang} (st : Nat) (hx : Tab.get? (s.core c).uses u = some x)
    (hb : rOnBarrier x.record = false) (hp : x.parts = [p]) (hg : s.gang? p.key = some g) (hblk : g.blk = x.blk) (hidx : g.gidx = p.gang)
    (hfree : g.gstate ≠ .free) (hr : g.restoring = false) :
    (s.endUse c u st).gang? p.key = some (g.endRecs p.level x.stamp st).settleLevels ∧
      (∀ j, j ≠ p.key → (s.endUse c u st).gang? j = s.gang? j) ∧ (s.endUse c u st).mem = s.mem ∧ (s.endUse c u st).blocks = s.blocks := by
  obtain ⟨t, ht, hgangs, hmem, hblocks⟩ := endUse_onePart st hx hb hp
  have hgt (j : Nat) : t.gang? j = s.gang? j := by rw [State.gang?, hgangs, State.gang?]
  rw [ht, completePart_resident x.stamp st ((hgt _).trans hg) hblk hidx hfree hr]
  exact ⟨(tab_get?_set _ _ _ _).trans (if_pos rfl), fun j hj => ((tab_get?_set _ _ _ _).trans (if_neg hj)).trans (hgt j), hmem, hblocks⟩

theorem uses_endUse (s : State) (c u st : Nat) : Tab.get? ((s.endUse c u st).core c).uses u = none :=
  (usesAt_endUse s c u st c u).trans (if_pos rfl)

/-- Settles O34: a chunk by its reads and its writes, the signals by the arrivals that they are, and the end of a use by what it leaves of
the gang that waits for it. -/
theorem copiesMoveAndComplete : Obligations.CopiesMoveAndComplete := by
  unfold Obligations.CopiesMoveAndComplete
  refine ⟨?chunk, ?srcDone, ?visible⟩
  case chunk =>
    rintro s c u n x hx hstate hacked hstopped hblock hnew hmode ⟨elems, v, h⟩
    obtain ⟨t, z, hz⟩ := copyChunk_moves hx hstate hacked hstopped hblock hnew hmode h
    exact ⟨t, elems, v, z, h, hz⟩
  case srcDone =>
    rintro s c u x b odd off hx hstate hwants hnot hread hb hd hat hup a ⟨ph, ha⟩
    exact copySrcDone_signals hx hstate hwants hnot hread hb hd hat hup ha
  case visible =>
    intro s c u x hx hstate hall hsrc
    refine ⟨?barrier, ?batch⟩
    case barrier =>
      rintro b odd off hon hb hd hat hup a ⟨ph, ha⟩
      have hcores : a.1.cores = s.cores := cores_arrive _ _ _ _ _ _ _
      have hx' : Tab.get? (a.1.core c).uses u = some x := by rw [State.core, hcores]; exact hx
      obtain ⟨hblocks, hgangs⟩ := endUse_onBarrier 0 hx' hon
      exact ⟨_, copyVisible_onBarrier hx hstate hall hsrc hon (engineArrive_accepted hb hd hat hup ha), hblocks, hgangs, uses_endUse _ _ _ _⟩
    case batch =>
      intro p g hon hp hg hblk hidx hfree hr
      obtain ⟨hgang, hothers, hmem, hblocks⟩ := endUse_inBatch (if x.lost then 3 else if x.poison then 1 else 0) hx hon hp hg hblk hidx hfree hr
      exact ⟨_, copyVisible_inBatch hx hstate hall hsrc hon, uses_endUse _ _ _ _, hgang, hothers, hmem, hblocks⟩

end Sys2Proof.Machine
end

