-- ==== Sys2Proof/Proofs/MatrixSets.lean ====
section
/-! PROOFS. MBIND waits for its set, and the fourth member forms it (R285, R286). -/

namespace Sys2Proof.Machine

/-! ## What the commit of drafts leaves of the sets and of those that wait for one -/

/-- The block that has claimed a core's tiles, and the sets formed there (R285, R286). -/
def State.bound (s : State) (c : Nat) : Option Nat × Tab (List Nat) := ((s.core c).owner, (s.core c).sets)

theorem bound_dropL1 (s : State) (c line : Nat) : (s.dropL1 c line).bound = s.bound := by
  unfold State.dropL1
  split
  · next x hx =>
    funext j
    simp only [State.bound, State.core_setCore]
    split
    · next e => rw [e, ← core_of_get? hx]
    · rfl
  · rfl

theorem bound_commitThread (s : State) (k l : Nat) (next : Pc) : (s.commitThread k l next).bound = s.bound := by
  unfold State.commitThread
  split
  · rfl
  · refine foldl_keeps _ State.bound (fun s e => ?_) _ _
    split
    · exact bound_dropL1 _ _ _
    · rfl

theorem bound_commitLanes (s : State) (k : Nat) (g : Gang) (ls : List Nat) : (s.commitLanes k g ls).bound = s.bound :=
  foldl_keeps _ State.bound (fun _ _ => bound_commitThread _ _ _ _) _ _

theorem bound_commitOrDrain (s : State) (k : Nat) (ls : List Nat) : (s.commitOrDrain k ls).bound = s.bound := by
  refine foldl_keeps _ State.bound (fun s l => ?_) _ _
  split
  · rfl
  · split
    · rfl
    · exact bound_commitThread _ _ _ _

/-- A test that no entry of a table meets, and none under a key could, is met by none once that key's entry is set. -/
theorem any_set_eq_false {α : Type} {t : Tab α} {k : Nat} {p : Nat × α → Bool} (hk : ∀ v, p (k, v) = false)
    (h : t.any p = false) (v : α) : (Tab.set t k v).any p = false := by
  refine List.any_eq_false.2 fun x hx => ?_
  rcases List.mem_append.1 hx with hx | hx
  · exact List.any_eq_false.1 h x (List.mem_filter.1 hx).1
  · rcases List.mem_cons.1 hx with rfl | hx
    · simp [hk v]
    · exact List.any_eq_false.1 h x (List.mem_filter.1 hx).1

theorem wishAt_commitThread {s : State} {c q set b k : Nat} (h : s.wishAt c q set b k = false) (l : Nat) (next : Pc) :
    (s.commitThread k l next).wishAt c q set b k = false := by
  unfold State.commitThread
  split
  · exact h
  · exact any_set_eq_false (t := (s.invalidateFor _ _).gangs) (fun _ => by simp) (by rw [invalidateFor_gangs]; exact h) _

theorem wishAt_commitLanes {c q set b k : Nat} (g : Gang) (ls : List Nat) {s : State} (h : s.wishAt c q set b k = false) :
    (s.commitLanes k g ls).wishAt c q set b k = false := by
  induction ls generalizing s with
  | nil => exact h
  | cons l ls ih => exact ih (wishAt_commitThread h l _)

/-! ## Threads that move on without an effect -/

theorem thread_none_regs (b : Bool) (u : Units × Units) (t : Thread) : (Eff.none.thread b u t).regs = (t.control .fall).regs := by
  rw [regs_thread _ _ _ t t rfl, regs_control]
  refine (regs_control _ _).trans ?_
  exact congrArg (fun x => Thread.control { t.regs with fstat := x } .fall) (BitVec.or_zero (x := t.fstat))

/-- Completions without an effect, and false guards, move their threads on. -/
theorem gangAfter_moves (op : Op) (f : Fields) (s : State) (g0 g1 : Gang) {go gf : List Nat} (mask : List Nat) (hgo : go.Nodup)
    (hgf : gf.Nodup) (hdj : ∀ l ∈ go, l ∉ gf) (hlg : ∀ l ∈ go, l < g1.threads.length ∧ l / 4 < g1.slices.length)
    (hlf : ∀ l ∈ gf, l < g1.threads.length) (q : g1.Quiet) :
    let a := op.gangAfter f s g0 g1 (oksOf (op.groups go) fun _ => Eff.none) gf mask
    a.Quiet ∧ a.rest = g1.rest ∧ (∀ l ∈ go ++ gf, (a.thread l).regs = ((g1.thread l).control .fall).regs) ∧
      ∀ l, l ∉ go ++ gf → a.thread l = g1.thread l := by
  intro a
  obtain ⟨hn, hspec, hall⟩ := oksOf_spec op go (fun _ => Eff.none) hgo
  obtain ⟨hlen, hok, hfall, hstay, -⟩ := gangAfter_holds (op := op) (f := f) (s := s) (g0 := g0) (g1 := g1) (gf := gf) (mask := mask) hn
    (fun x hx => (hlg _ (hspec x hx).1).1) (fun x hx => (hlg _ (hspec x hx).1).2) hgf hlf fun x hx => hdj _ (hspec x hx).1
  have hrest : a.rest = g1.rest := rest_gangAfter op f s g0 g1 _ gf mask
  have hmoved : ∀ l ∈ go ++ gf, (a.thread l).regs = ((g1.thread l).control .fall).regs := fun l hl => by
    rcases List.mem_append.1 hl with hl | hl
    · obtain ⟨x, hx, rfl⟩ := hall l hl
      rw [hok x hx, (hspec x hx).2.2]
      exact thread_none_regs _ _ _
    · rw [hfall l hl]
      exact regs_falseThread f _ _ rfl
  have hsame : ∀ l, l ∉ go ++ gf → a.thread l = g1.thread l := fun l hl =>
    hstay l (fun x hx e => hl (List.mem_append_left _ (e ▸ (hspec x hx).1))) fun hm => hl (List.mem_append_right _ hm)
  have htstate : ∀ l, (a.thread l).tstate = (g1.thread l).tstate := fun l => by
    by_cases hl : l ∈ go ++ gf
    · exact (regs_fields (hmoved l hl)).2.2.2.1.trans (Thread.control_tstate _ _)
    · rw [hsame l hl]
  obtain ⟨l, hl, hne⟩ := q.live
  exact ⟨⟨(congrArg Gang.gathers hrest).trans q.gathers, (congrArg Gang.collects hrest).trans q.collects, l,
    lt_of_lt_of_eq hl hlen.symm, fun e => hne ((htstate l).symm.trans e)⟩, hrest, hmoved, hsame⟩

/-- What is left where threads `ls` of gang `k` have moved on: it was `g` and is `h`, and nobody stands at a rendezvous of it. -/
structure MovedOn (k : Nat) (ls : List Nat) (s t : State) (g h : Gang) : Prop where
  gang : t.gang? k = some h
  others : ∀ j, j ≠ k → t.gang? j = s.gang? j
  bound : t.bound = s.bound
  focus : t.focus = s.focus
  quiet : h.Quiet
  rest : h.rest = g.rest
  moved : ∀ l ∈ ls, (h.thread l).regs = ((g.thread l).control .fall).regs
  stay : ∀ l, l ∉ ls → (h.thread l).regs = (g.thread l).regs

/-- The drafts that the completions of an issue end, of a gang that they have left as `a` (R134, R139). -/
def Op.closed (op : Op) (k : Nat) (s : State) (a : Gang) (ends done : List Nat) : State :=
  ((s.setGang k a).commitOrDrain k ends).modGang k fun g =>
    if op.cls == .ending then g.modLanes (laneSet done) fun t => { t with solo := t.drain } else g

theorem movedOn_closed {k : Nat} {ls : List Nat} {s : State} {g a : Gang} (op : Op) (ends done : List Nat) (q : a.Quiet)
    (hrest : a.rest = g.rest) (hmoved : ∀ l ∈ ls, (a.thread l).regs = ((g.thread l).control .fall).regs)
    (hstay : ∀ l, l ∉ ls → a.thread l = g.thread l) : ∃ h, MovedOn k ls s (op.closed k s a ends done) g h := by
  obtain ⟨h, sim, q'⟩ := closing_before (k := k) (s := s) op ends done q
  obtain ⟨-, -, hfocus, -⟩ := outer_fields sim.outer
  exact ⟨h, {
    gang := sim.after
    others := fun j hj => by rw [Op.closed, sim.others j hj, State.gang?_setGang, if_neg hj]
    bound := bound_commitOrDrain _ _ _
    focus := hfocus
    quiet := q'
    rest := sim.gang.restEq.trans hrest
    moved := fun l hl => (sim.gang.regs l).trans (hmoved l hl)
    stay := fun l hl => (sim.gang.regs l).trans (congrArg Thread.regs (hstay l hl)) }⟩

/-- A change of the gang that leaves its threads alone. -/
theorem MovedOn.modGang {k : Nat} {ls : List Nat} {s t : State} {g g' h : Gang} (m : MovedOn k ls s t g h) (c : Gang → Gang)
    (hquiet : (c h).Quiet) (hrest : (c h).rest = g'.rest) (hc : ∀ l, (c h).thread l = h.thread l)
    (hg : ∀ l, g'.thread l = g.thread l) : MovedOn k ls s (t.modGang k c) g' (c h) where
  gang := by rw [State.gang?_modGang, if_pos rfl, m.gang, Option.map_some]
  others j hj := by rw [State.gang?_modGang, if_neg hj, m.others j hj]
  bound := m.bound
  focus := m.focus
  quiet := hquiet
  rest := hrest
  moved l hl := by rw [hc, hg, m.moved l hl]
  stay l hl := by rw [hc, hg, m.stay l hl]

theorem MovedOn.settle {k : Nat} {ls : List Nat} {s t : State} {g h : Gang} (m : MovedOn k ls s t g h) :
    MovedOn k ls s (t.settle k) g h.settleCounts := by
  have sim := settleCounts_sim h
  rw [settle_quiet m.gang m.quiet]
  exact m.modGang _ (sim.quiet m.quiet) (sim.restEq.trans m.rest) (fun _ => rfl) fun _ => rfl

/-! ## MBIND waits -/

/-- Bodies of which one, for the whole sub-gang, has to wait: the bookkeeping that follows. -/
theorem perform_waits {op : Op} {f : Fields} {s s1 : State} {g0 g1 : Gang} {go gf mask : List Nat} {l : Nat} (seq since : Nat)
    (h0 : s.gang? s.focus.key = some g0) (hready : op.ready s go = true)
    (hrun : op.runGroups (op.groups go) s false = some (s1, [(l, go, .wait)])) (h1 : s1.gang? s.focus.key = some g1)
    (hpost : ∀ t done standing gf, op.post t done standing gf = t) :
    s.perform f op go gf mask [] seq since =
      some (((op.closed s.focus.key s1 (op.gangAfter f s g0 g1 [] gf mask) (op.finishAll f s g0 g1 [] gf).2 []).addWait s.focus.key go
        op.instr seq since 0).settle s.focus.key) := by
  have hfaults : faultsOf [(l, go, Res.wait)] = [] := rfl
  have hoks : completions [(l, go, Res.wait)] = [] := rfl
  have hwait : lanesWith [(l, go, Res.wait)] .wait = go := by simp [lanesWith]
  simp only [State.perform, hready, if_true, hrun, Option.map_some, h0, h1, hfaults, hoks, hwait, List.append_nil, List.filter_nil, ne_eq,
    not_true_eq_false, if_false, State.trapLanes, State.logSpoilt, List.foldl_nil, List.map_nil, hpost]
  rfl

/-- An instruction of the sub-gang whose body waits: its threads with a false guard fall through, and the others wait. -/
theorem gang_waits {i : Instr} {f : Fields} {body : State → Nat → State × Res} {s o s1 : State} {g g1 : Gang}
    (hi : exec i s = runInstr f (opGang i f body) s) (h : Op.Ready { endFrame i f with gang := true } f s g)
    (ho : s.opened f { endFrame i f with gang := true } g = o) (hne : s.goLanes f g ≠ [])
    (hbody : body o ((s.goLanes f g).headD 0) = (s1, .wait))
    (h1 : s1.gang? s.focus.key = some g1) (hlen : g1.threads.length = g.threads.length) (q : g1.Quiet) :
    ∃ u h, exec i s = .next ((u.addWait s.focus.key (s.goLanes f g) i s.seqCtr s.clock 0).settle s.focus.key) ∧
      MovedOn s.focus.key (s.gfLanes f g) s1 u g1 h := by
  have hr : (opGang i f body).Ready f s g := h.cast rfl rfl rfl rfl rfl rfl rfl rfl
  replace ho : s.opened f (opGang i f body) g = o := ho
  obtain ⟨g2, sim⟩ := opened_sim (op := opGang i f body) (f := f) hr.gang
  rw [ho] at sim
  obtain ⟨-, -, hfocus, -⟩ := outer_fields sim.outer
  have hrun : (opGang i f body).runGroups ((opGang i f body).groups (s.goLanes f g)) o false =
      some (s1, [((s.goLanes f g).headD 0, s.goLanes f g, .wait)]) := by
    obtain ⟨l, ls, hls⟩ := List.exists_cons_of_ne_nil hne
    rw [hls] at hbody ⊢
    have hb : (opGang i f body).body o l = (s1, .wait) := hbody
    have hgroups : (opGang i f body).groups (l :: ls) = [(l, l :: ls)] := rfl
    simp only [hgroups, Op.runGroups, Bool.false_and, Bool.false_eq_true, if_false, hb, reduceCtorEq, Option.map_some, List.headD_cons]
  have hp := perform_waits (f := f) (gf := s.gfLanes f g) (mask := s.focusLanes g) s.seqCtr s.clock (hfocus ▸ sim.after) rfl hrun
    (hfocus ▸ h1) fun _ _ _ _ => rfl
  obtain ⟨qa, hrest, hmoved, hstay⟩ := gangAfter_moves (opGang i f body) f o g2 g1 (go := [])
    (gf := s.gfLanes f g) (s.focusLanes g) List.nodup_nil ((lanesOf_nodup _ _).filter _) (fun _ hl => absurd hl List.not_mem_nil)
    (fun _ hl => absurd hl List.not_mem_nil) (fun l hl => by rw [hlen, h.threads]; exact lanesOf_lt (List.mem_filter.1 hl).1) q
  obtain ⟨a, m⟩ := movedOn_closed (k := s.focus.key) (s := s1) (opGang i f body)
    ((opGang i f body).finishAll f o g2 g1 [] (s.gfLanes f g)).2 [] qa hrest hmoved hstay
  refine ⟨_, a, ?_, m⟩
  rw [hfocus] at hp
  rw [hi, runInstr, runOp_ready hr, ho, hp, Option.getD_some]
  rfl

/-- A gang with a wait more. -/
def Gang.withWait (g : Gang) (w : Wait) : Gang := { g with waits := g.waits ++ [w] }

/-- The record of the threads of an instruction that waits, added to their gang. -/
theorem MovedOn.waiting {k : Nat} {ls lanes : List Nat} {s t : State} {g h : Gang} (m : MovedOn k ls s t g h) (hne : lanes ≠ [])
    (i : Instr) (seq since n : Nat) :
    MovedOn k ls s (t.addWait k lanes i seq since n) (g.withWait ⟨laneSet lanes, s.focus.pc, i, s.focus.insn, seq, since, n⟩)
      (h.withWait ⟨laneSet lanes, s.focus.pc, i, s.focus.insn, seq, since, n⟩) := by
  rw [State.addWait, if_neg hne, m.focus]
  exact m.modGang (Gang.withWait · _) ⟨m.quiet.gathers, m.quiet.collects, m.quiet.live⟩ (congrArg (Gang.withWait · _) m.rest)
    (fun _ => rfl) fun _ => rfl

/-- The tiles of a core claimed for the block of a gang, which waits for a set (R285, R286). -/
def State.claimed (s : State) (k set : Nat) (g : Gang) : State :=
  (s.modCore (coreOf k) fun x => { x with owner := some g.blk }).modGang k fun x => { x with wish := some set }

theorem gang?_claimed {s : State} {k : Nat} {x : Gang} (h : s.gang? k = some x) (set : Nat) (g : Gang) :
    (s.claimed k set g).gang? k = some { x with wish := some set } := by
  rw [State.claimed, State.gang?_modGang, if_pos rfl]
  exact congrArg (Option.map _) h

theorem owner_claimed (s : State) (k set : Nat) (g : Gang) : ((s.claimed k set g).core (coreOf k)).owner = some g.blk := by
  have h := State.core_modCore s (coreOf k) (coreOf k) fun x => { x with owner := some g.blk }
  rw [if_pos rfl] at h
  exact congrArg CoreState.owner h

/-- MBIND waits where its set may still form: its block claims the core's tiles. -/
theorem mbind_waits {f : Fields} {s : State} {g : Gang} (h : Op.Ready { endFrame (.mbind f) f with gang := true } f s g) {set : Nat}
    (hset : (s.opened f { endFrame (.mbind f) f with gang := true } g).srcA (.mbind f) f ((s.goLanes f g).headD 0) = set)
    (hne : s.goLanes f g ≠ []) (hle : set ≤ 3) (hfree : g.binding = none)
    (hwish : s.wishAt (coreOf s.focus.key) g.quad set g.blk s.focus.key = false)
    (hsets : Tab.get? (s.core (coreOf s.focus.key)).sets set = none)
    (howner : (s.core (coreOf s.focus.key)).owner = none ∨ (s.core (coreOf s.focus.key)).owner = some g.blk) :
    ∃ t g', exec (.mbind f) s = .next t ∧ (t.core (coreOf s.focus.key)).owner = some g.blk ∧ t.gang? s.focus.key = some g' ∧
      g'.wish = some set ∧ (∃ w ∈ g'.waits, w.instr = .mbind f ∧ w.lanes = laneSet (s.goLanes f g) ∧ w.pc = s.focus.pc) ∧
      (∀ l ∈ s.goLanes f g, (g'.thread l).regs = (g.thread l).regs) ∧
      ∀ l ∈ s.gfLanes f g, (g'.thread l).regs = ((g.thread l).control .fall).regs := by
  obtain ⟨g2, sim⟩ := opened_sim (op := { endFrame (.mbind f) f with gang := true }) (f := f) h.gang
  have hbound : (s.opened f { endFrame (.mbind f) f with gang := true } g).bound = s.bound := bound_commitLanes _ _ _ _
  have hwishO : (s.opened f { endFrame (.mbind f) f with gang := true } g).wishAt (coreOf s.focus.key) g.quad set g.blk s.focus.key =
      false := wishAt_commitLanes _ _ hwish
  obtain ⟨-, -, hfocus, -⟩ := outer_fields sim.outer
  generalize ho : s.opened f { endFrame (.mbind f) f with gang := true } g = o at hset hbound hwishO hfocus sim
  have hblk : g2.blk = g.blk := by have := congrArg Gang.blk sim.gang.restEq; exact this
  have hquad : g2.quad = g.quad := by have := congrArg Gang.quad sim.gang.restEq; exact this
  have hbinding : g2.binding = none := by have := congrArg Gang.binding sim.gang.restEq; exact this.trans hfree
  have hg2 : o.focusGang = g2 := focusGang_eq (congrArg Focus.key hfocus) sim.after
  obtain ⟨hownerO, hsetsO⟩ := Prod.ext_iff.1 (congrFun hbound (coreOf s.focus.key))
  simp only [State.bound] at hownerO hsetsO
  have hheld : (s.core (coreOf s.focus.key)).owner.any (· != g.blk) = false := by
    rcases howner with e | e <;> simp [e]
  have q2 := sim.gang.quiet h.quiet
  obtain ⟨u, x, hexec, m⟩ := gang_waits (i := .mbind f) (f := f) (s := s) (g := g) (s1 := o.claimed s.focus.key set g) rfl h ho hne
    (by
      simp only [hset, hfocus, hg2, hblk, hquad, hbinding, hownerO, hsetsO, hheld, hwishO, hsets, Option.isSome_none, Bool.false_eq_true,
        not_lt.2 hle, or_self, and_false, if_false]
      rfl)
    (gang?_claimed sim.after set g) sim.gang.threads ⟨q2.gathers, q2.collects, q2.live⟩
  have M := (m.waiting hne (.mbind f) s.seqCtr s.clock 0).settle
  refine ⟨_, _, hexec, ?owner, M.gang, ?wish, ⟨_, List.mem_append_right _ (List.mem_singleton_self _), rfl, rfl, ?pc⟩,
    fun l hl => ?go, fun l hl => ?gf⟩
  case owner => exact (congrArg Prod.fst (congrFun M.bound _)).trans (owner_claimed o s.focus.key set g)
  case wish => exact congrArg Gang.wish M.rest
  case pc => exact congrArg Focus.pc hfocus
  case go => exact (M.stay l (goLanes_notMem_gfLanes hl)).trans (sim.gang.regs l)
  case gf =>
    rw [M.moved l hl, regs_control, regs_control]
    exact congrArg (fun t : Thread => t.control .fall) (sim.gang.regs l)

/-! ## The fourth member forms the set -/

/-- Bodies that complete without an effect, and change nothing, move their threads on. -/
theorem perform_moves {op : Op} {f : Fields} {s : State} {g : Gang} {go : List Nat} (seq since : Nat) (hg : s.gang? s.focus.key = some g)
    (hgo : go.Nodup) (hlg : ∀ l ∈ go, l < g.threads.length ∧ l / 4 < g.slices.length) (q : g.Quiet) (hready : op.ready s go = true)
    (hbody : ∀ l, op.body s l = (s, .ok Eff.none)) (hpost : ∀ t done standing gf, op.post t done standing gf = t) :
    ∃ t h, s.perform f op go [] [] [] seq since = some t ∧ MovedOn s.focus.key go s t g h := by
  have hp := perform_oks (f := f) (gf := []) (mask := []) (fun _ => Eff.none) seq since hg hready
    (runGroups_pure op s (fun _ => Eff.none) _ fun _ _ => hbody _) hg
  obtain ⟨qa, hrest, hmoved, hstay⟩ := gangAfter_moves op f s g g (gf := []) [] hgo List.nodup_nil (fun _ _ => List.not_mem_nil) hlg
    (fun _ hl => absurd hl List.not_mem_nil) q
  rw [List.append_nil] at hmoved hstay
  obtain ⟨h, m⟩ := movedOn_closed (k := s.focus.key) (s := s) op
    (op.finishAll f s g g (oksOf (op.groups go) fun _ => Eff.none) []).2
    ((oksOf (op.groups go) fun _ => Eff.none).map (·.1)) qa hrest hmoved hstay
  rw [hpost] at hp
  exact ⟨_, h.settleCounts, hp, m.settle⟩

/-- A gang without the waits of one number. -/
def Gang.withoutWait (g : Gang) (w : Wait) : Gang := { g with waits := g.waits.filter fun x => x.seq ≠ w.seq }

/-- A wait whose instruction, tried again, completes without an effect: its threads move on. -/
theorem wakeOp_moves {op : Op} {f : Fields} {s : State} {k : Nat} {g : Gang} {w : Wait} (hg : s.gang? k = some g)
    (hlen : g.threads.length = g.width) (hslices : ∀ l, l < g.width → l / 4 < g.slices.length) (q : g.Quiet)
    (hready : ∀ s ls, op.ready s ls = true) (hbody : ∀ s l, op.body s l = (s, .ok Eff.none))
    (hpost : ∀ t done standing gf, op.post t done standing gf = t) :
    ∃ h, MovedOn k (g.woken w) s (s.wakeOp k w f op) (g.withoutWait w) h := by
  have hr : (s.retried k g w).gang? k = some (g.withoutWait w) := (State.gang?_setGang s k k _).trans (if_pos rfl)
  have hlg : ∀ l ∈ g.woken w, l < g.threads.length ∧ l / 4 < g.slices.length := fun l hl => by
    rw [hlen]
    exact ⟨lanesOf_lt hl, hslices l (lanesOf_lt hl)⟩
  obtain ⟨t, h, hp, m⟩ := perform_moves (f := f) (op := op) w.seq w.since hr (lanesOf_nodup _ _) hlg
    ⟨q.gathers, q.collects, q.live⟩ (hready _ _) (hbody _) hpost
  have hw : s.wakeOp k w f op = { t with focus := s.focus } := by
    simp only [State.wakeOp, hg]
    exact congrArg (fun x : Option State => (x.map fun t => { t with focus := s.focus }).getD s) hp
  rw [hw]
  exact ⟨h, {
    gang := m.gang
    others := fun j hj => (m.others j hj).trans ((State.gang?_setGang s k j _).trans (if_neg hj))
    bound := m.bound
    focus := rfl
    quiet := m.quiet
    rest := m.rest
    moved := m.moved
    stay := m.stay }⟩

/-- A gang that waits in MBIND with one wait record, with nobody at a rendezvous (R286). -/
structure Gang.Binding (g : Gang) (w : Wait) : Prop where
  waits : g.waits = [w]
  instr : ∃ f, w.instr = .mbind f
  quiet : g.Quiet
  threads : g.threads.length = g.width
  slices : ∀ l, l < g.width → l / 4 < g.slices.length

/-- What such a gang is once it has been bound: a member of the set, whose waiting threads have completed MBIND (R286). -/
structure BoundAs (set q : Nat) (g : Gang) (w : Wait) (h : Gang) : Prop where
  binding : h.binding = some (set, q)
  wish : h.wish = none
  waits : h.waits = []
  moved : ∀ l ∈ g.woken w, (h.thread l).regs = ((g.thread l).control .fall).regs
  stay : ∀ l, l ∉ g.woken w → (h.thread l).regs = (g.thread l).regs

theorem completeBind_binds {s : State} {k : Nat} {g : Gang} {w : Wait} (hg : s.gang? k = some g) (b : g.Binding w) (set q : Nat) :
    (∃ h, (s.completeBind k set q).gang? k = some h ∧ BoundAs set q g w h) ∧
      (∀ j, j ≠ k → (s.completeBind k set q).gang? j = s.gang? j) ∧ (s.completeBind k set q).bound = s.bound := by
  obtain ⟨hwaits, ⟨f, hi⟩, quiet, hlen, hslices⟩ := b
  obtain ⟨h, m⟩ := wakeOp_moves (op := opGang (.mbind f) f fun s _ => (s, .ok Eff.none)) (f := f) (w := w)
    (s := s.setGang k { g with binding := some (set, q), wish := none }) (k := k) ((State.gang?_setGang _ _ _ _).trans (if_pos rfl))
    hlen hslices ⟨quiet.gathers, quiet.collects, quiet.live⟩ (fun _ _ => rfl) (fun _ _ => rfl) fun _ _ _ _ => rfl
  have heq : s.completeBind k set q = (s.setGang k { g with binding := some (set, q), wish := none }).wakeOp k w f
      (opGang (.mbind f) f fun s _ => (s, .ok Eff.none)) := by
    simp only [State.completeBind, hg, hwaits, List.foldl_cons, List.foldl_nil, hi]
  rw [heq]
  refine ⟨⟨h, m.gang, ?binding, ?wish, ?waits, m.moved, m.stay⟩, fun j hj => ?others, m.bound⟩
  case binding => have e := congrArg Gang.binding m.rest; exact e
  case wish => have e := congrArg Gang.wish m.rest; exact e
  case waits =>
    have e := congrArg Gang.waits m.rest
    refine Eq.trans e ?_
    show (g.waits.filter fun x => x.seq ≠ w.seq) = []
    rw [hwaits]
    simp
  case others => rw [m.others j hj, State.gang?_setGang, if_neg hj]

/-- The first `n` members of a set bound, one after another. -/
def State.bindMembers (s : State) (k : Nat → Nat) (set : Nat) : Nat → State
  | 0 => s
  | n + 1 => (s.bindMembers k set n).completeBind (k n) set n

theorem bindMembers_binds {s : State} {k : Nat → Nat} {g : Nat → Gang} {w : Nat → Wait} (set n : Nat)
    (hg : ∀ q, q < n → s.gang? (k q) = some (g q)) (hb : ∀ q, q < n → (g q).Binding (w q))
    (hinj : ∀ p q, p < n → q < n → k p = k q → p = q) :
    (∀ q, q < n → ∃ h, (s.bindMembers k set n).gang? (k q) = some h ∧ BoundAs set q (g q) (w q) h) ∧
      (∀ j, (∀ q, q < n → j ≠ k q) → (s.bindMembers k set n).gang? j = s.gang? j) ∧ (s.bindMembers k set n).bound = s.bound := by
  induction n with
  | zero => exact ⟨fun q hq => absurd hq (Nat.not_lt_zero q), fun _ _ => rfl, rfl⟩
  | succ n ih =>
    obtain ⟨hbound, hothers, hcore⟩ := ih (fun q hq => hg q (hq.trans n.lt_succ_self)) (fun q hq => hb q (hq.trans n.lt_succ_self))
      fun p q hp hq => hinj p q (hp.trans n.lt_succ_self) (hq.trans n.lt_succ_self)
    have hne : ∀ q, q < n → k n ≠ k q := fun q hq e => hq.ne (hinj n q n.lt_succ_self (hq.trans n.lt_succ_self) e).symm
    obtain ⟨hlast, hrest, hcore'⟩ := completeBind_binds ((hothers (k n) hne).trans (hg n n.lt_succ_self)) (hb n n.lt_succ_self) set n
    refine ⟨fun q hq => ?_, fun j hj => ?_, hcore'.trans hcore⟩
    · rcases Nat.lt_succ_iff_lt_or_eq.1 hq with hq | rfl
      · obtain ⟨h, hh, hbq⟩ := hbound q hq
        exact ⟨h, (hrest (k q) (hne q hq).symm).trans hh, hbq⟩
      · exact hlast
    · exact (hrest j (hj n n.lt_succ_self)).trans (hothers j fun q hq => hj q (hq.trans n.lt_succ_self))

/-- A set recorded on a core, whose tiles a block has (R285, R286). -/
def State.withSet (s : State) (c set blk : Nat) (ks : List Nat) : State :=
  s.modCore c fun x => { x with sets := Tab.set x.sets set ks, owner := some blk }

theorem bound_withSet (s : State) (c set blk : Nat) (ks : List Nat) :
    (s.withSet c set blk ks).bound c = (some blk, Tab.set (s.core c).sets set ks) := by
  simp only [State.bound, State.withSet, State.core_modCore, if_true]

theorem exec_matrixSetForm {s : State} {c set : Nat} {k : Nat → Nat} {g : Nat → Gang}
    (hw : ∀ q, q < 4 → s.wisher c set (s.formingBlock c set) q = some (k q, g q)) :
    exec (.matrixSetForm c set) s =
      .next ((s.withSet c set (s.formingBlock c set) [k 0, k 1, k 2, k 3]).bindMembers k set 4) := by
  show execMatrixSetForm c set s = _
  simp only [execMatrixSetForm, hw 0 (by decide), hw 1 (by decide), hw 2 (by decide), hw 3 (by decide)]
  rfl

/-- The gang that is found for a quadrant is a gang of that quadrant. -/
theorem wisher_quad {s : State} {c set blk q k : Nat} {g : Gang} (h : s.wisher c set blk q = some (k, g)) : g.quad = q := by
  have hp := List.find?_some h
  simp only [Bool.and_eq_true, beq_iff_eq] at hp
  exact hp.1.2

/-- Four waiting gangs, one in each quadrant, form the set and complete MBIND. -/
theorem matrixSetForm_binds {s : State} {c set blk : Nat} {k : Nat → Nat} {g : Nat → Gang} {w : Nat → Wait}
    (hblk : s.formingBlock c set = blk) (hw : ∀ q, q < 4 → s.wisher c set blk q = some (k q, g q))
    (hg : ∀ q, q < 4 → s.gang? (k q) = some (g q)) (hb : ∀ q, q < 4 → (g q).Binding (w q)) :
    ∃ t, exec (.matrixSetForm c set) s = .next t ∧ t.bound c = (some blk, Tab.set (s.core c).sets set [k 0, k 1, k 2, k 3]) ∧
      ∀ q, q < 4 → ∃ h, t.gang? (k q) = some h ∧ BoundAs set q (g q) (w q) h := by
  subst hblk
  have hinj : ∀ p q, p < 4 → q < 4 → k p = k q → p = q := fun p q hp hq e => by
    have hgpq : g p = g q := Option.some.inj ((hg p hp).symm.trans (e ▸ hg q hq))
    rw [← wisher_quad (hw p hp), ← wisher_quad (hw q hq), hgpq]
  obtain ⟨hbound, -, hcore⟩ := bindMembers_binds (s := s.withSet c set (s.formingBlock c set) [k 0, k 1, k 2, k 3]) set 4 hg hb hinj
  exact ⟨_, exec_matrixSetForm hw, by rw [hcore, bound_withSet], hbound⟩

/-- Settles O35: MBIND waits with its core's tiles claimed, and the four members of a set are bound one after another. -/
theorem matrixSetsForm : Obligations.MatrixSetsForm := by
  unfold Obligations.MatrixSetsForm
  refine ⟨fun f s g h hne hle hfree hwish hsets howner => mbind_waits h rfl hne hle hfree hwish hsets howner,
    fun s c set blk k g w f hblk h => ?_⟩
  obtain ⟨t, hexec, hcore, hbound⟩ := matrixSetForm_binds hblk (fun q hq => (h q hq).1) (fun q hq => (h q hq).2.1) fun q hq => by
    obtain ⟨-, -, -, hwaits, hi, quiet, hlen, hslices⟩ := h q hq
    exact ⟨hwaits, ⟨f q, hi⟩, quiet, hlen, hslices⟩
  obtain ⟨howner, hsets⟩ := Prod.ext_iff.1 hcore
  refine ⟨t, hexec, ?_, howner, fun q hq => ?_⟩
  · rw [show (t.core c).sets = _ from hsets, tab_get?_set, if_pos rfl]
  · obtain ⟨h', hh, hb⟩ := hbound q hq
    exact ⟨h', hh, hb.binding, hb.wish, hb.waits, hb.moved, hb.stay⟩

end Sys2Proof.Machine
end

