-- ==== Sys2Proof/Proofs/ExternalInterrupts.lean ====
section
/-! PROOFS. The supervisor external interrupt in mip, and the mode that takes it (R309, R310, R313). -/

namespace Sys2Proof.Machine

/-- Two numbers have a common bit. -/
theorem and_ne_zero_iff_testBit (x y : Nat) : x &&& y ≠ 0 ↔ ∃ i, x.testBit i = true ∧ y.testBit i = true := by
  constructor
  · intro h
    obtain ⟨i, hi⟩ := Nat.exists_testBit_of_ne_zero h
    exact ⟨i, by simpa using hi⟩
  · rintro ⟨i, hx, hy⟩ h
    have hi : (x &&& y).testBit i = true := by rw [Nat.testBit_and, hx, hy]; rfl
    rw [h, Nat.zero_testBit] at hi
    cases hi

/-- The signal of the supervisor external interrupt (R313). -/
theorem extPending_iff (s : State) (cl : Nat) :
    s.extPending cl = true ↔ ∃ i, i < 64 ∧ (s.pipend cl).testBit i = true ∧ (s.porter cl).pien.getLsbD i = true := by
  rw [State.extPending, bne_iff_ne, and_ne_zero_iff_testBit]
  refine exists_congr fun i => ⟨fun ⟨hp, hn⟩ => ⟨?_, hp, hn⟩, fun ⟨_, hp, hn⟩ => ⟨hp, hn⟩⟩
  exact BitVec.lt_of_getLsbD hn

/-- The timer of Sstc stands in bit 5 alone (R309). -/
theorem testBit_mipStored (s : State) (cl i : Nat) (h : i ≠ 5) : (s.mipStored cl).testBit i = (s.porter cl).mip.getLsbD i := by
  unfold State.mipStored
  dsimp only
  split
  · rw [testBit_setBits, if_neg (by omega)]; rfl
  · rfl

theorem testBit_mipNow (s : State) (cl : Nat) :
    (s.mipNow cl).testBit 9 = ((s.porter cl).mip.getLsbD 9 || s.extPending cl) := by
  rw [State.mipNow, Nat.testBit_or, testBit_mipStored s cl 9 (by decide)]
  cases s.extPending cl <;> rfl

/-- An interrupt is taken by machine mode or under delegation (R309). -/
theorem porterInterrupt_mode {s : State} {cl i : Nat} {m : Bool} (h : s.porterInterrupt cl = some (i, m)) :
    m = !(s.porter cl).mideleg.getLsbD i := by
  unfold State.porterInterrupt at h
  dsimp only at h
  split at h
  · next j hj =>
    obtain ⟨rfl, rfl⟩ := Prod.mk.inj (Option.some.inj h)
    have hd := List.find?_some hj
    simp only [Bool.and_eq_true] at hd
    exact hd.1.2.symm
  · obtain ⟨j, hj, e⟩ := Option.map_eq_some_iff.1 h
    obtain ⟨rfl, rfl⟩ := Prod.mk.inj e
    have hd := List.find?_some hj
    simp only [Bool.and_eq_true] at hd
    rw [hd.1.2]; rfl

/-- Settles O3: bit 9 of mip is the stored bit or the signal; an interrupt is found among those not delegated or among those that are. -/
theorem externalInterruptsPend : Obligations.ExternalInterruptsPend := by
  unfold Obligations.ExternalInterruptsPend
  intro s cl
  refine ⟨?_, fun m h => porterInterrupt_mode h⟩
  rw [testBit_mipNow, Bool.or_eq_true, extPending_iff]

end Sys2Proof.Machine
end

