-- ==== Sys2Proof/Proofs/Answers.lean ====
section
/-! PROOFS. No step ends in a stop (R334, R344; log 55). -/

namespace Sys2Proof.Machine

/-- Every row of the table ends in a next state: its body is one. -/
theorem exec_answers (i : Instr) (s : State) : answers (exec i s) := by
  cases i <;> exact ⟨_, rfl⟩

/-- Settles O7: a step is a state that the choice of the next row gives, or a row. -/
theorem stepsAnswer : Obligations.StepsAnswer := by
  unfold Obligations.StepsAnswer
  intro s
  unfold step
  split
  · exact ⟨_, rfl⟩
  · exact exec_answers _ _

end Sys2Proof.Machine
end

