-- ==== Sys2Proof/Proofs/StatePort.lean ====
section
/-! PROOFS. PGREAD and PGWRITE by how their acts end, and what a write through the port leaves in a thread or slice (R315 to R317). -/

namespace Sys2Proof.Machine

/-- A custom instruction in U-mode is illegal (R315). -/
theorem custom_user {s : State} {cl : Nat} {d : BitVec 5} {act : State → State × PEnd} (h : (s.porter cl).mode = .user) :
    PorterTaken s (s.custom cl d act) cl 2 0 false ((s.porter cl).exceptsToMachine .illegal) := by
  rw [State.custom, if_pos h]
  exact porterTaken_porterExcept s cl .illegal 0

theorem custom_rows_user {s : State} {cl : Nat} {d a b c : BitVec 5} {i : Instr} (h : (s.porter cl).mode = .user)
    (hi : i ∈ [.pgread cl d a b, .pgwrite cl d a b c, .presume cl d a b, .pmsendChannel cl d a b, .pmsendMailbox cl d a b,
      .pmrecv cl d a b, .pcallrec cl d a b]) :
    ∃ t, exec i s = .next t ∧ PorterTaken s t cl 2 0 false ((s.porter cl).exceptsToMachine .illegal) := by
  simp only [List.mem_cons, List.not_mem_nil, or_false] at hi
  rcases hi with rfl | rfl | rfl | rfl | rfl | rfl | rfl <;> exact ⟨_, rfl, custom_user h⟩

/-! ## PGREAD -/

section
variable {s : State} {cl k : Nat} {d a b : BitVec 5} {g : Gang} (hm : s.mayRun cl = true)
include hm

theorem pgread_stale (hn : s.named cl (((s.porter cl).rd a).setWidth 16) = .none) :
    ∃ t, exec (.pgread cl d a b) s = .next t ∧ PorterDone s t cl d 0 .stale := by
  refine ⟨_, rfl, custom_porterDone hm ?_⟩
  simp only [hn]

theorem pgread_noSelector (hn : s.named cl (((s.porter cl).rd a).setWidth 16) = some (k, g))
    (hs : selector ((s.porter cl).rd b).toNat = .none) :
    ∃ t, exec (.pgread cl d a b) s = .next t ∧ PorterDone s t cl d 0 .badsel := by
  refine ⟨_, rfl, custom_porterDone hm ?_⟩
  simp only [hn, hs]

variable {idx l cls : Nat}

theorem pgread_noState (hn : s.named cl (((s.porter cl).rd a).setWidth 16) = some (k, g))
    (hs : selector ((s.porter cl).rd b).toNat = some (idx, l, cls))
    (hr : g.portRead cls l idx (Config.slotResidue s.freeCtr) = .none) :
    ∃ t, exec (.pgread cl d a b) s = .next t ∧ PorterDone s t cl d 0 .badsel := by
  refine ⟨_, rfl, custom_porterDone hm ?_⟩
  simp only [hn, hs, hr]

theorem pgread_state {c : PortCond} {v : Nat} (hn : s.named cl (((s.porter cl).rd a).setWidth 16) = some (k, g))
    (hs : selector ((s.porter cl).rd b).toNat = some (idx, l, cls))
    (hr : g.portRead cls l idx (Config.slotResidue s.freeCtr) = some (c, v)) :
    ∃ t, exec (.pgread cl d a b) s = .next t ∧
      if c.met g l then PorterDone { s with freeCtr := s.freeCtr + 1 } t cl d v .ok else PorterDone s t cl d 0 .busy := by
  refine ⟨_, rfl, ?_⟩
  split
  · next hc =>
    refine custom_porterDone hm ?_
    simp only [hn, hs, hr, hc, if_true]
  · next hc =>
    refine custom_porterDone hm ?_
    simp only [hn, hs, hr, hc, Bool.false_eq_true, if_false]

end

/-! ## PGWRITE -/

theorem portStore_command {s : State} {cl sel x idx l : Nat} {h : BitVec 16} (hs : selector sel = some (idx, l, 5)) :
    s.portStore cl h sel x = s.gangCommand cl idx h x := by
  simp only [State.portStore, hs]

theorem portStore_state {s : State} {cl sel x idx l cls k : Nat} {h : BitVec 16} {g g' : Gang} {c : PortCond}
    (hs : selector sel = some (idx, l, cls)) (hcls : cls ≠ 5) (hn : s.named cl h = some (k, g))
    (hw : g.portWrite cls l idx x = some (c, g')) (hc : c.met g l = true) : s.portStore cl h sel x = (s.setGang k g', .ok) := by
  unfold State.portStore
  split
  · next hs' =>
    rw [hs'] at hs
    cases hs
    exact absurd rfl hcls
  · simp only [hn, hs, hw, hc, if_true]

/-- PGWRITE ends with the state and the status of its act, which rd takes (R315). -/
theorem pgwrite_done {s u : State} {cl : Nat} {d a b c : BitVec 5} {st : PStatus} (hm : s.mayRun cl = true)
    (h : s.portStore cl (((s.porter cl).rd a).setWidth 16) ((s.porter cl).rd b).toNat ((s.porter cl).rd c).toNat = (u, st)) :
    ∃ t, exec (.pgwrite cl d a b c) s = .next t ∧ PorterDone u t cl d st.code st := by
  refine ⟨_, rfl, custom_porterDone hm ?_⟩
  simp only [h]

/-! ## What a write through the port leaves -/

/-- A register set full and written is full, and another full register stays so; v255 is never empty (R45). -/
theorem emptyAt_setFull_writeV (t : Thread) (i : Nat) (x : W32) : ((t.setFull i 1).writeV i x).emptyAt i 1 = false := by
  have hempty : ((t.setFull i 1).writeV i x).empty = t.empty &&& ~~~(BitVec.twoPow 256 i) := by
    unfold Thread.writeV
    split <;> rfl
  simp only [Thread.emptyAt, hempty, List.range_one, List.any_cons, List.any_nil, Nat.add_zero, Bool.or_false,
    BitVec.getLsbD_and, BitVec.getLsbD_not, BitVec.getLsbD_twoPow]
  by_cases hi : i < 256 <;> simp [hi]

theorem portWrite_v {g g' : Gang} {l idx x : Nat} {c : PortCond} (hl : l < g.threads.length)
    (h : g.portWrite 0 l idx x = some (c, g')) :
    g'.thread l = if idx = 255 then g.thread l else ((g.thread l).setFull idx 1).writeV idx (BitVec.ofNat 32 x) := by
  simp only [Gang.portWrite, Nat.not_le.2 hl, and_false, if_false] at h
  split at h
  · next e => cases h; rw [if_pos e]
  · next e =>
    split at h
    · cases h
    · cases h
      rw [if_neg e, Gang.thread_modThread, if_pos ⟨rfl, hl⟩]

/-- What the port has written to a v register, its thread reads, and finds full; the other registers read as before (R45, R316). -/
theorem portWrite_v_reads {g g' : Gang} {l idx x : Nat} {c : PortCond} (hl : l < g.threads.length)
    (h : g.portWrite 0 l idx x = some (c, g')) {j : Nat} (hj : j < 255) :
    (g'.thread l).readV j = (if j = idx then BitVec.ofNat 32 x else (g.thread l).readV j) ∧ (g'.thread l).emptyAt idx 1 = false := by
  rw [portWrite_v hl h]
  by_cases e : idx = 255
  · subst e
    rw [if_pos rfl, if_neg (by omega)]
    exact ⟨rfl, emptyAt_from_v255 _ 1⟩
  · rw [if_neg e, readV_writeV]
    refine ⟨?_, emptyAt_setFull_writeV _ _ _⟩
    exact if_congr ⟨And.left, fun hji => ⟨hji, by omega⟩⟩ rfl rfl

theorem portWrite_s_reads {g g' : Gang} {l idx x : Nat} {c : PortCond} (hl : l < g.threads.length)
    (h : g.portWrite 1 l idx x = some (c, g')) (hs : l / 4 < g.slices.length) (hi : idx < 63) :
    (g'.slice (l / 4)).readS idx = BitVec.ofNat 32 x := by
  simp only [Gang.portWrite, Nat.not_le.2 hl, and_false, if_false, if_pos (show idx < 64 by omega)] at h
  cases h
  rw [Gang.slice_modSlice, if_pos ⟨rfl, hs⟩, readS_writeS, if_pos ⟨rfl, hi⟩]

/-- The predicates are the low seven bits of the dword; p7 reads true (R45, R316). -/
theorem portWrite_p_reads {g g' : Gang} {l x : Nat} {c : PortCond} (hl : l < g.threads.length)
    (h : g.portWrite 2 l 0 x = some (c, g')) {j : Nat} (hj : j < 7) : (g'.thread l).readP j = x.testBit j := by
  simp only [Gang.portWrite, Nat.not_le.2 hl, and_false, if_false, if_true] at h
  cases h
  rw [Gang.thread_modThread, if_pos ⟨rfl, hl⟩]
  have h128 : (x % 2 ^ 7 + 2 ^ 7).testBit j = x.testBit j := by
    rw [Nat.add_comm, Nat.testBit_two_pow_add_gt hj, Nat.testBit_mod_two_pow, decide_eq_true hj, Bool.true_and]
  rw [Thread.readP, decide_eq_false (by omega), Bool.false_or, BitVec.getLsbD_ofNat, decide_eq_true (by omega), Bool.true_and]
  exact h128

theorem portWrite_pc_reads {g g' : Gang} {l x : Nat} {c : PortCond} (hl : l < g.threads.length)
    (h : g.portWrite 3 l 0 x = some (c, g')) : (g'.thread l).pc = BitVec.ofNat 56 (x / 4 * 4) := by
  simp only [Gang.portWrite, Nat.not_le.2 hl, and_false, if_false, Gang.writeThread] at h
  cases h
  rw [Gang.thread_modThread, if_pos ⟨rfl, hl⟩]

/-- Settles O42: each row by how its act ends, and each class of state by what the port's write makes of it. -/
theorem statePortIsPrivileged : Obligations.StatePortIsPrivileged := by
  unfold Obligations.StatePortIsPrivileged
  refine ⟨fun s cl d a b c i hu hi => custom_rows_user hu hi, fun s cl d a b hm => ⟨pgread_stale hm, fun k g hn => ⟨fun hs =>
      pgread_noSelector hm hn hs, fun idx l cls hs => ⟨pgread_noState hm hn hs, fun c v hr => pgread_state hm hn hs hr⟩⟩⟩,
    fun s cl d a b c idx l cls hm hs => ⟨fun hcls => ?command, fun hcls k g cond g' hn hw hc => ?state⟩,
    fun g l idx x hl => ⟨fun c g' h j hj => portWrite_v_reads hl h hj, fun c g' h j hj => portWrite_p_reads hl h hj,
      fun c g' h => portWrite_pc_reads hl h, fun c g' h hsl hi => portWrite_s_reads hl h hsl hi⟩⟩
  case command =>
    subst hcls
    exact pgwrite_done hm (portStore_command hs)
  case state => exact pgwrite_done hm (portStore_state hs hcls hn hw hc)

end Sys2Proof.Machine
end

