-- ==== Sys2Proof/Proofs/AgentWrites.lean ====
section
/-! PROOFS. What an agent that has no stores on their way (an engine, a porter, the host, a boot step) has written after it has written
bytes piece by piece, where no reduction is queued (R82, R118, R405). -/

namespace Sys2Proof.Machine

/-! ## Bytes of a number and of a list -/

/-- A byte of a number depends on no byte above it. -/
theorem byte_mod (x : Nat) {n i : Nat} (hi : i < n) : BitVec.ofNat 8 (x % 256 ^ n / 256 ^ i) = BitVec.ofNat 8 (x / 256 ^ i) := by
  have hn : (256 : Nat) ^ n = 256 ^ i * (256 * 256 ^ (n - i - 1)) := by
    rw [← Nat.pow_succ', ← Nat.pow_add]
    congr 1
    omega
  refine BitVec.eq_of_toNat_eq ?_
  rw [hn, Nat.mod_mul_right_div_self, BitVec.toNat_ofNat, BitVec.toNat_ofNat]
  exact Nat.mod_mod_of_dvd _ (Dvd.intro _ rfl)

/-- Bytes written depend on the bytes of the number that are written. -/
theorem bytesWritten_congr {m m' : Mem} {a n x y : Nat} (hxy : x % 256 ^ n = y % 256 ^ n) (h : BytesWritten m m' a n x) :
    BytesWritten m m' a n y := by
  intro b
  rw [h b]
  refine if_ctx_congr Iff.rfl (fun hb => ?_) fun _ => rfl
  have hlt : b - a < n := by omega
  rw [← byte_mod x hlt, hxy, byte_mod y hlt]

/-- Nothing is written in no bytes. -/
theorem bytesWritten_none (m : Mem) (a x : Nat) : BytesWritten m m a 0 x := fun b => by rw [if_neg (by omega)]

theorem natOfBytes_cons (b : Byte) (l : List Byte) : natOfBytes (b :: l) = b.toNat + 256 * natOfBytes l := rfl

theorem natOfBytes_drop (l : List Byte) (k : Nat) : natOfBytes (l.drop k) = natOfBytes l / 256 ^ k := by
  induction k generalizing l with
  | zero => simp
  | succ k ih =>
    cases l with
    | nil => simp [natOfBytes]
    | cons b l =>
      have hb : b.toNat < 256 := b.isLt
      rw [List.drop_succ_cons, ih, natOfBytes_cons, Nat.pow_succ', ← Nat.div_div_eq_div_mul]
      congr 1
      omega

theorem natOfBytes_take (l : List Byte) (k : Nat) : natOfBytes (l.take k) = natOfBytes l % 256 ^ k := by
  induction k generalizing l with
  | zero => simp [natOfBytes, Nat.mod_one]
  | succ k ih =>
    cases l with
    | nil => simp [natOfBytes]
    | cons b l =>
      have hb : b.toNat < 256 := b.isLt
      have hdiv : (b.toNat + 256 * natOfBytes l) / 256 = natOfBytes l := by omega
      rw [List.take_succ_cons, natOfBytes_cons, natOfBytes_cons, ih, Nat.pow_succ', Nat.mod_mul, hdiv]
      omega

/-- The byte of a list's number at a place is the list's. -/
theorem byte_natOfBytes {l : List Byte} {i : Nat} (hi : i < l.length) : BitVec.ofNat 8 (natOfBytes l / 256 ^ i) = l[i] := by
  rw [← natOfBytes_drop, List.drop_eq_getElem_cons hi, natOfBytes_cons]
  refine BitVec.eq_of_toNat_eq ?_
  have hb : l[i].toNat < 256 := l[i].isLt
  rw [BitVec.toNat_ofNat]
  omega

/-- The bytes of a list read back where its number has been written. -/
theorem readBytes_of_written {m m' : Mem} {a : Nat} {l : List Byte} (h : BytesWritten m m' a l.length (natOfBytes l)) :
    Mem.readBytes m' a l.length = l := by
  refine List.ext_getElem (by simp [Mem.readBytes]) fun i hi hi' => ?_
  simp only [Mem.readBytes, List.getElem_map, List.getElem_range]
  rw [h, if_pos (by omega), Nat.add_sub_cancel_left, byte_natOfBytes hi']

/-! ## Writes of an agent -/

/-- No reduction is queued at a line of some bytes from an address on. -/
def State.NoReds (s : State) (pa n : Nat) : Prop :=
  ∀ e ∈ s.mem.redq, ∀ b, pa ≤ b → b ≤ pa + (n - 1) → e.place.line ≠ .phys (lineOf b)

theorem noReds_nil {s : State} (h : s.mem.redq = []) (pa n : Nat) : s.NoReds pa n := fun e he => by simp [h] at he

/-- Bytes of a number stand from an address, no other byte has changed, and the reduction queues stand as they were. -/
structure AgentWritten (s t : State) (a n x : Nat) : Prop where
  bytes : BytesWritten s.mem.bytes t.mem.bytes a n x
  redq : t.mem.redq = s.mem.redq

theorem agentWritten_none (s : State) (a x : Nat) : AgentWritten s s a 0 x := ⟨bytesWritten_none _ _ _, rfl⟩

theorem agentWrite_of_noReds {s : State} {pa n : Nat} (h : s.NoReds pa n) (x : Nat) : s.agentWrite pa n x = s.homeWrite pa n x := by
  rw [State.agentWrite, drainRed_none fun e he => h e he pa (Nat.le_refl _) (Nat.le_add_right _ _)]

theorem redq_homeWrite (s : State) (pa n x : Nat) : (s.homeWrite pa n x).mem.redq = s.mem.redq :=
  (homeWrite_written s pa n x).marks.2.2.1

/-- A piece written behind the bytes that stand. -/
theorem AgentWritten.append {s t : State} {a n x : Nat} (h : AgentWritten s t a n x) (k y : Nat)
    (hy : y % 256 ^ k = x / 256 ^ n % 256 ^ k) (hr : s.NoReds (a + n) k) : AgentWritten s (t.agentWrite (a + n) k y) a (n + k) x := by
  rw [agentWrite_of_noReds (s := t) (fun e he => hr e (h.redq ▸ he))]
  exact ⟨bytesWritten_append h.bytes (bytesWritten_congr hy (homeWrite_written _ _ _ _).bytes),
    (redq_homeWrite _ _ _ _).trans h.redq⟩

/-- A step of a write by atoms: piece i lies in the i-th atom of the range. -/
def atomPiece (pa n x : Nat) (s : State) (i : Nat) : State :=
  let lo := max pa (32 * (pa / 32 + i))
  let hi := min (pa + n) (32 * (pa / 32 + i + 1))
  s.agentWrite lo (hi - lo) (x / 256 ^ (lo - pa))

/-- A range written atom by atom, by steps that leave the bytes and the queue that a piece leaves. -/
theorem agentWritten_atoms {s : State} {pa n : Nat} (h : s.NoReds pa n) (x : Nat) {f : State → Nat → State}
    (hf : ∀ t i, (f t i).mem.bytes = (atomPiece pa n x t i).mem.bytes ∧ (f t i).mem.redq = (atomPiece pa n x t i).mem.redq) :
    AgentWritten s ((List.range ((pa + n + 31) / 32 - pa / 32)).foldl f s) pa n x := by
  have hpieces : ∀ m, m ≤ (pa + n + 31) / 32 - pa / 32 →
      AgentWritten s ((List.range m).foldl f s) pa (min n (32 * (pa / 32 + m) - pa)) x := by
    intro m
    induction m with
    | zero =>
      intro _
      rw [show min n (32 * (pa / 32 + 0) - pa) = 0 by omega]
      exact agentWritten_none _ _ _
    | succ m ih =>
      intro hm
      have hlast := ih (by omega)
      rw [List.range_succ, List.foldl_append, List.foldl_cons, List.foldl_nil]
      generalize (List.range m).foldl f s = t at hlast ⊢
      obtain ⟨hb, hr⟩ := hf t m
      have hpiece := hlast.append
        (min (pa + n) (32 * (pa / 32 + m + 1)) - max pa (32 * (pa / 32 + m))) (x / 256 ^ (max pa (32 * (pa / 32 + m)) - pa))
        (by rw [show max pa (32 * (pa / 32 + m)) - pa = min n (32 * (pa / 32 + m) - pa) by omega])
        (fun e he b hb hb' => h e he b (by omega) (by omega))
      rw [show pa + min n (32 * (pa / 32 + m) - pa) = max pa (32 * (pa / 32 + m)) by omega,
        show min n (32 * (pa / 32 + m) - pa) + (min (pa + n) (32 * (pa / 32 + m + 1)) - max pa (32 * (pa / 32 + m))) =
          min n (32 * (pa / 32 + (m + 1)) - pa) by omega] at hpiece
      exact ⟨hb ▸ hpiece.bytes, hr.trans hpiece.redq⟩
  have hall := hpieces _ (Nat.le_refl _)
  rwa [show min n (32 * (pa / 32 + ((pa + n + 31) / 32 - pa / 32)) - pa) = n by omega] at hall

/-- A record written by a device agent. -/
theorem writeRecord_written {s : State} {pa n : Nat} (h : s.NoReds pa n) (x : Nat) : AgentWritten s (s.writeRecord pa n x) pa n x :=
  agentWritten_atoms h x fun _ _ => ⟨rfl, rfl⟩

/-- Bytes written by the host. -/
theorem hostWriteBytes_written {s : State} {pa n : Nat} (h : s.NoReds pa n) (x : Nat) :
    AgentWritten s (s.hostWriteBytes pa n x) pa n x :=
  agentWritten_atoms h x fun _ _ => by dsimp only; split <;> exact ⟨rfl, rfl⟩

/-- A list of bytes written, line by line. -/
theorem writeBytes_written {s : State} (h : s.mem.redq = []) (pa : Nat) (l : List Byte) :
    AgentWritten s (s.writeBytes pa l) pa l.length (natOfBytes l) := by
  have hlines : ∀ m, m ≤ (l.length + 31) / 32 → AgentWritten s ((List.range m).foldl (fun s i =>
      s.agentWrite (pa + 32 * i) ((l.drop (32 * i)).take 32).length (natOfBytes ((l.drop (32 * i)).take 32))) s)
      pa (min l.length (32 * m)) (natOfBytes l) := by
    intro m
    induction m with
    | zero =>
      intro _
      rw [Nat.mul_zero, Nat.min_zero]
      exact agentWritten_none _ _ _
    | succ m ih =>
      intro hm
      have hlast := ih (by omega)
      have hlen : ((l.drop (32 * m)).take 32).length = min 32 (l.length - 32 * m) := by simp
      have hline := hlast.append ((l.drop (32 * m)).take 32).length (natOfBytes ((l.drop (32 * m)).take 32)) (by
        have hfirst : (l.drop (32 * m)).take 32 = (l.drop (32 * m)).take ((l.drop (32 * m)).take 32).length := by
          rw [hlen, List.take_eq_take_iff, List.length_drop]; omega
        rw [hfirst, natOfBytes_take, natOfBytes_drop, ← hfirst, Nat.mod_mod, show min l.length (32 * m) = 32 * m by omega]) (noReds_nil h _ _)
      rw [List.range_succ, List.foldl_append, List.foldl_cons, List.foldl_nil]
      rw [show min l.length (32 * m) = 32 * m by omega, hlen,
        show 32 * m + min 32 (l.length - 32 * m) = min l.length (32 * (m + 1)) by omega, ← hlen] at hline
      exact hline
  have hall := hlines _ (Nat.le_refl _)
  rwa [show min l.length (32 * ((l.length + 31) / 32)) = l.length by omega] at hall

end Sys2Proof.Machine
end

