-- ==== Sys2Proof/Proofs/Apart.lean ====
section
/-! PROOFS. What an agent's accesses to memory leave of the state: all but memory's bytes, marks and reduction queues, the monitors and
the gangs that they wake, the porters' reservations and channels, and the error log with the spared rows (R82, R118, R268, R405, R406). -/

namespace Sys2Proof.Machine

/-- The state without what an access at memory's homes may change. -/
def State.apart (s : State) : State := { s with
  freeCtr := 0, gangs := [], clusters := []
  mem := { s.mem with bytes := [], hostHalves := [], poison := [], latent := [], logged := [], monitors := [] }
  rel := { s.rel with
    errHead := 0, errOvf := 0, errSeq := 0, errQuiet := false, inj := Reliability.fresh.inj, spareRows := [], spared := []
    rowEvents := [] } }

theorem apart_monitorsAfter (s : State) (pa : Nat) : (s.monitorsAfter pa).apart = s.apart :=
  foldl_keeps _ State.apart (fun s m => by split <;> rfl) _ _

theorem apart_homeWrite (s : State) (pa n x : Nat) : (s.homeWrite pa n x).apart = s.apart :=
  (apart_monitorsAfter _ pa).trans rfl

theorem apart_sendChannel (s : State) (cl ch : Nat) (m : Message) : (s.sendChannel cl ch m).1.apart = s.apart := by
  unfold State.sendChannel
  dsimp only
  split <;> rfl

theorem apart_logError (s : State) (k : LogKind) (a b c d e : Nat) : (s.logError k a b c d e).apart = s.apart := by
  have hw (u : State) (x y m n h q : Nat) (hr : ∀ z : State, State.apart { z with rel := { s.rel with
      errHead := h, errSeq := q, errQuiet := true } } = { z.apart with rel := s.apart.rel }) :
      State.apart { (u.homeWrite x 32 m).homeWrite y 32 n with rel := { s.rel with errHead := h, errSeq := q, errQuiet := true } } =
        { u.apart with rel := s.apart.rel } := by
    rw [hr, apart_homeWrite, apart_homeWrite]
  unfold State.logError
  dsimp only
  split
  · rfl
  · split
    · exact hw s _ _ _ _ _ _ fun _ => rfl
    · exact (apart_sendChannel _ _ _ _).trans (hw s _ _ _ _ _ _ fun _ => rfl)

theorem apart_spareRow (s : State) (pa : Nat) : (s.spareRow pa).apart = s.apart := by
  unfold State.spareRow
  dsimp only
  split <;> exact apart_logError _ _ _ _ _ _ _

theorem apart_markPoison (s : State) (pa asid : Nat) : (s.markPoison pa asid).apart = s.apart := by
  unfold State.markPoison
  dsimp only
  split
  · exact (apart_spareRow _ _).trans (apart_logError _ _ _ _ _ _ _)
  · exact apart_logError _ _ _ _ _ _ _

theorem apart_logFresh (s : State) (pa asid : Nat) : (s.logFresh pa asid).apart = s.apart := apart_logError _ _ _ _ _ _ _

theorem apart_checkAtom (s : State) (pa n asid : Nat) : (s.checkAtom pa n asid).1.apart = s.apart := by
  have hi : (s.injectionFired s.rel.inj.fcore).apart = s.apart := rfl
  have he : (s.errorFound pa).apart = s.apart := rfl
  unfold State.checkAtom
  simp only
  split_ifs <;> simp only
  · exact (apart_logFresh _ _ _).trans hi
  · exact (apart_markPoison _ _ _).trans he
  · exact (apart_logFresh _ _ _).trans he

theorem apart_applyRed (s : State) (pa op : Nat) (t : Ty) (b asid : Nat) : (s.applyRed pa op t b asid).1.apart = s.apart := by
  have h1 := apart_checkAtom s pa t.bytes asid
  unfold State.applyRed
  generalize s.checkAtom pa t.bytes asid = x at h1 ⊢
  obtain ⟨u, k⟩ := x
  have h2 : (if k = 1 then u.checkAtom pa t.bytes asid else (u, k)).1.apart = s.apart := by
    split
    · exact (apart_checkAtom _ _ _ _).trans h1
    · exact h1
  simp only
  generalize (if k = 1 then u.checkAtom pa t.bytes asid else (u, k)) = y at h2 ⊢
  obtain ⟨v, m⟩ := y
  by_cases hm : m = 0
  · simp only [if_pos hm]
    exact (apart_homeWrite _ _ _ _).trans h2
  · simp only [if_neg hm]
    split
    · exact (apart_markPoison _ _ _).trans h2
    · exact h2

theorem apart_applyQueued (s : State) (e : StoreEntry) : (s.applyQueued e).apart = s.apart := by
  unfold State.applyQueued
  split
  · dsimp only
    split
    · exact (apart_logError _ _ _ _ _ _ _).trans (apart_applyRed _ _ _ _ _ _)
    · exact apart_applyRed _ _ _ _ _ _
  · rfl

/-! ## Accesses that empty a reduction queue -/

/-- The second state differs from the first in what an agent's accesses may change. -/
structure State.Aside (s t : State) : Prop where
  rest : State.apart { t with mem := { t.mem with redq := [] } } = State.apart { s with mem := { s.mem with redq := [] } }
  redq : ∀ e ∈ t.mem.redq, e ∈ s.mem.redq

theorem aside_refl (s : State) : s.Aside s := ⟨rfl, fun _ h => h⟩

theorem State.Aside.trans {a b c : State} (h : a.Aside b) (i : b.Aside c) : a.Aside c :=
  ⟨i.rest.trans h.rest, fun e he => h.redq e (i.redq e he)⟩

theorem aside_of_apart {s t : State} (h : t.apart = s.apart) : s.Aside t :=
  ⟨(congrArg (fun u : State => { u with mem := { u.mem with redq := [] } }) h :),
    fun e he => by rwa [show t.mem.redq = s.mem.redq from (congrArg (fun u : State => u.mem.redq) h :)] at he⟩

theorem aside_foldl {α : Type} {f : State → α → State} (hf : ∀ s x, State.Aside s (f s x)) (l : List α) (s : State) :
    s.Aside (l.foldl f s) := by
  induction l generalizing s with
  | nil => exact aside_refl s
  | cons x l ih => exact (hf s x).trans (ih _)

theorem apart_drainRed (s : State) (line : Place) : (s.drainRed line).apart =
    State.apart { s with mem := { s.mem with redq := s.mem.redq.filter fun e => e.place.line != line } } :=
  foldl_keeps _ State.apart apart_applyQueued _ _

theorem redq_drainRed (s : State) (line : Place) : (s.drainRed line).mem.redq = s.mem.redq.filter fun e => e.place.line != line :=
  (congrArg (fun u : State => u.mem.redq) (apart_drainRed s line) :)

theorem aside_drainRed (s : State) (line : Place) : s.Aside (s.drainRed line) := by
  have hdrop : s.Aside { s with mem := { s.mem with redq := s.mem.redq.filter fun e => e.place.line != line } } :=
    ⟨rfl, fun _ h => (List.mem_filter.1 h).1⟩
  exact hdrop.trans (aside_of_apart (apart_drainRed s line))

theorem aside_homeWrite (s : State) (pa n x : Nat) : s.Aside (s.homeWrite pa n x) := aside_of_apart (apart_homeWrite s pa n x)

theorem aside_agentWrite (s : State) (pa n x : Nat) : s.Aside (s.agentWrite pa n x) :=
  (aside_drainRed _ _).trans (aside_homeWrite _ _ _ _)

theorem aside_agentRead (s : State) (pa n asid : Nat) : s.Aside (s.agentRead pa n asid).1 :=
  (aside_drainRed _ _).trans (aside_of_apart (apart_checkAtom _ _ _ _))

theorem aside_writeRecord (s : State) (pa n x : Nat) : s.Aside (s.writeRecord pa n x) :=
  aside_foldl (fun s _ => aside_agentWrite s _ _ _) _ _

/-- One step of a read by atoms. -/
def atomRead (pa n asid : Nat) (x : State × Option Nat) (i : Nat) : State × Option Nat :=
  match x.2 with
  | none => x
  | some v =>
    let lo := max pa (32 * (pa / 32 + i))
    let hi := min (pa + n) (32 * (pa / 32 + i + 1))
    match x.1.agentRead lo (hi - lo) asid with
    | (s, .data y) => (s, some (v + y * 256 ^ (lo - pa)))
    | (s, .bad _) => (s, none)

theorem atomRead_state (pa n asid : Nat) (s : State) (v i : Nat) : (atomRead pa n asid (s, some v) i).1 =
    (s.agentRead (max pa (32 * (pa / 32 + i)))
      (min (pa + n) (32 * (pa / 32 + i + 1)) - max pa (32 * (pa / 32 + i))) asid).1 := by
  unfold atomRead
  dsimp only
  split <;> next e => rw [e]

theorem readBytes_eq (s : State) (pa n asid : Nat) : s.readBytes pa n asid =
    (List.range ((pa + n + 31) / 32 - pa / 32)).foldl (atomRead pa n asid) (s, some 0) := rfl

theorem aside_atomRead (pa n asid : Nat) (x : State × Option Nat) (i : Nat) : x.1.Aside (atomRead pa n asid x i).1 := by
  obtain ⟨s, v⟩ := x
  cases v with
  | none => exact aside_refl s
  | some v => rw [atomRead_state]; exact aside_agentRead _ _ _ _

theorem aside_foldl_atomRead (pa n asid : Nat) (l : List Nat) (x : State × Option Nat) :
    x.1.Aside (l.foldl (atomRead pa n asid) x).1 := by
  induction l generalizing x with
  | nil => exact aside_refl _
  | cons i l ih => exact (aside_atomRead pa n asid x i).trans (ih _)

theorem aside_readBytes (s : State) (pa n asid : Nat) : s.Aside (s.readBytes pa n asid).1 := by
  rw [readBytes_eq]
  exact aside_foldl_atomRead pa n asid _ (s, some 0)

/-! ## What stays -/

theorem State.Aside.fields {s t : State} (h : s.Aside t) : t.link = s.link ∧ t.host = s.host ∧ t.pairs = s.pairs ∧
    t.drives = s.drives ∧ t.trust = s.trust ∧ t.blocks = s.blocks ∧ t.cores = s.cores ∧ t.dist = s.dist :=
  ⟨(congrArg State.link h.rest :), (congrArg State.host h.rest :), (congrArg State.pairs h.rest :), (congrArg State.drives h.rest :),
    (congrArg State.trust h.rest :), (congrArg State.blocks h.rest :), (congrArg State.cores h.rest :), (congrArg State.dist h.rest :)⟩

theorem State.Aside.target {s t : State} (h : s.Aside t) (pa : Nat) : t.target pa = s.target pa := by
  obtain ⟨hl, hh, -, -, ht, -⟩ := h.fields
  have hb : t.rel.hbmSize = s.rel.hbmSize := (congrArg (fun u : State => u.rel.hbmSize) h.rest :)
  have he : t.mem.hostErrs = s.mem.hostErrs := (congrArg (fun u : State => u.mem.hostErrs) h.rest :)
  simp only [State.target, State.inHbm, State.routeMask, State.streamDown, hl, hh, ht, hb, he]
  rfl

theorem State.Aside.plainRange {s t : State} (h : s.Aside t) (pa n : Nat) : t.plainRange pa n = s.plainRange pa n := by
  unfold State.plainRange
  simp only [h.target]

theorem State.Aside.noReds {s t : State} (h : s.Aside t) (hq : s.mem.redq = []) : t.mem.redq = [] :=
  List.eq_nil_iff_forall_not_mem.2 fun e he => by simpa [hq] using h.redq e he

end Sys2Proof.Machine
end

