-- ==== Sys2Proof/Proofs/GangImages.lean ====
section
/-! PROOFS. SAVE writes a gang's registers to their places in the image, and RESTORE reads them from there (R317, R358, R366). -/

namespace Sys2Proof.Machine

/-! ## The image that SAVE writes -/

theorem still_writeBytes (s : State) (pa : Nat) (l : List Byte) : s.Still (s.writeBytes pa l) :=
  still_foldl _ (fun s _ => still_agentWrite s _ _ _) _ _

theorem imageBody_length (g : Gang) (free : Nat) : (g.imageBody free).length = imageSize g.width - 0x40 := by
  simp [Gang.imageBody]

/-- Where the image holds the v registers (R358). -/
theorem imageBody_v (g : Gang) (free : Nat) {l i b : Nat} (hi : i < g.vregs) (hi' : i < 256) (hb : b < 4)
    (h : 0x3FC0 + 1024 * l + 4 * i + b < (g.imageBody free).length) :
    (g.imageBody free)[0x3FC0 + 1024 * l + 4 * i + b] = BitVec.ofNat 8 (((g.thread l).readV i).toNat / 256 ^ b) := by
  simp only [Gang.imageBody, List.getElem_map, List.getElem_range]
  rw [if_pos (by omega), show (0x3FC0 + 1024 * l + 4 * i + b + 0x40 - 0x4000) / 1024 = l by omega,
    show (0x3FC0 + 1024 * l + 4 * i + b + 0x40 - 0x4000) % 1024 / 4 = i by omega,
    show (0x3FC0 + 1024 * l + 4 * i + b + 0x40) % 4 = b by omega]

/-- Where the image holds the s registers (R358). -/
theorem imageBody_s (g : Gang) (free : Nat) {j i b : Nat} (hj : j < g.slices.length) (hj' : j < 16) (hi : i < 64) (hb : b < 4)
    (h : 0x23C0 + 256 * j + 4 * i + b < (g.imageBody free).length) :
    (g.imageBody free)[0x23C0 + 256 * j + 4 * i + b] = BitVec.ofNat 8 (((g.slice j).readS i).toNat / 256 ^ b) := by
  simp only [Gang.imageBody, List.getElem_map, List.getElem_range]
  rw [if_neg (by omega), if_pos (by omega), show (0x23C0 + 256 * j + 4 * i + b + 0x40 - 0x2400) / 256 = j by omega,
    show (0x23C0 + 256 * j + 4 * i + b + 0x40 - 0x2400) % 256 / 4 = i by omega,
    show (0x23C0 + 256 * j + 4 * i + b + 0x40) % 4 = b by omega]

/-- A word that stands byte by byte reads as itself. -/
theorem readN_word {m : Mem} {a : Nat} (x : W32) (h : ∀ b, b < 4 → Mem.read m (a + b) = BitVec.ofNat 8 (x.toNat / 256 ^ b)) :
    Mem.readN m a 4 = x.toNat := by
  rw [mem_readN_of_bytes m a 4 x.toNat h]
  exact Nat.mod_eq_of_lt x.isLt

/-- The image of a gang in memory, after a SAVE (R358). -/
theorem saveImage_body {s : State} {free : Nat} (hq : s.mem.redq = []) (hfree : s.freeCtr = free) (g : Gang) (a : Nat) {i : Nat}
    (hi : i < (g.imageBody free).length) : Mem.read (s.saveImage g a).mem.bytes (a + 0x40 + i) = (g.imageBody free)[i] := by
  subst hfree
  have hheader := writeBytes_written (s := { s with freeCtr := s.freeCtr + 1 }) hq a
    (bytesOfNat 64 (g.imageHeader (crc32 (g.imageBody s.freeCtr))))
  have hbody := (writeBytes_written (hheader.redq.trans hq) (a + 0x40) (g.imageBody s.freeCtr)).bytes (a + 0x40 + i)
  rw [if_pos (by omega), Nat.add_sub_cancel_left, byte_natOfBytes hi] at hbody
  exact hbody

/-- SAVE of a halted gang: its flush epoch has risen, and its registers stand in the image (R317, R358, R366). -/
theorem gangSave_saves {s : State} {cl k area a : Nat} {h : BitVec 16} {g : Gang} (hn : s.named cl h = some (k, g))
    (hst : g.gstate = .halted) (ha : s.areaAt area (imageSize g.width) = some a) (hq : s.mem.redq = []) (hw : g.width ≤ 64)
    (hs : g.slices.length ≤ 16) :
    ∃ t g', exec (.gangSave cl h area) s = .next t ∧ (t.porter cl).pstat = 0 ∧ t.gang? k = some g' ∧
      g'.deaf = Gang.deaf { g with epoch := g.epoch + 1 } ∧
      (∀ l i, l < g.width → i < g.vregs → i < 256 →
        Mem.readN t.mem.bytes (a + 0x4000 + 1024 * l + 4 * i) 4 = ((g.thread l).readV i).toNat) ∧
      ∀ j i, j < g.slices.length → i < 64 →
        Mem.readN t.mem.bytes (a + 0x2400 + 256 * j + 4 * i) 4 = ((g.slice j).readS i).toNat := by
  let g1 : Gang := { g with epoch := g.epoch + 1 }
  have hcmd : s.gangCommand cl 2 h area =
      ({ (s.setGang k g1).saveImage g1 a with snaps := Tab.set s.snaps k g1 }, .ok) := by
    simp [State.gangCommand, hn, State.cmdSave, hst, ha, g1]
  have hmem : (s.commandStep cl 2 h area).mem = ((s.setGang k g1).saveImage g1 a).mem := by rw [State.commandStep, hcmd]; rfl
  obtain ⟨hp, hgangs, -⟩ := commandStep_ok hcmd
  have hstill : (s.setGang k g1).Still ((s.setGang k g1).saveImage g1 a) :=
    still_pre ((still_writeBytes _ _ _).trans (still_writeBytes _ _ _)) rfl rfl rfl rfl
  have hdeaf := hstill.gangs k
  rw [State.gang?_setGang, if_pos rfl, Option.map_some] at hdeaf
  obtain ⟨g', hg', hd⟩ := Option.map_eq_some_iff.1 hdeaf
  have hbyte := fun i => saveImage_body (s := s.setGang k g1) (free := s.freeCtr) (by exact hq) rfl g1 a (i := i)
  have hlen : (g1.imageBody s.freeCtr).length = imageSize g.width - 0x40 := imageBody_length g1 s.freeCtr
  refine ⟨_, g', rfl, hp, (hgangs k).trans hg', hd, fun l i hl hi hi' => ?_, fun j i hj hi => ?_⟩
  · refine readN_word _ fun b hb => ?_
    have hin : 0x3FC0 + 1024 * l + 4 * i + b < (g1.imageBody s.freeCtr).length := by rw [hlen, imageSize]; omega
    rw [hmem, show a + 0x4000 + 1024 * l + 4 * i + b = a + 0x40 + (0x3FC0 + 1024 * l + 4 * i + b) by omega]
    exact (hbyte _ hin).trans (imageBody_v g1 s.freeCtr hi hi' hb hin)
  · refine readN_word _ fun b hb => ?_
    have hin : 0x23C0 + 256 * j + 4 * i + b < (g1.imageBody s.freeCtr).length := by rw [hlen, imageSize]; omega
    rw [hmem, show a + 0x2400 + 256 * j + 4 * i + b = a + 0x40 + (0x23C0 + 256 * j + 4 * i + b) by omega]
    exact (hbyte _ hin).trans (imageBody_s g1 s.freeCtr hj (by omega) hi hb hin)

/-! ## The registers that RESTORE loads -/

/-- Registers written in order from a function of their index. -/
theorem readV_foldl_writeV (f : Nat → W32) (n : Nat) (t : Thread) (i : Nat) :
    ((List.range n).foldl (fun (t : Thread) i => t.writeV i (f i)) t).readV i = if i < n ∧ i < 255 then f i else t.readV i := by
  induction n with
  | zero => rw [if_neg (by omega)]; rfl
  | succ n ih =>
    rw [List.range_succ, List.foldl_append, List.foldl_cons, List.foldl_nil, readV_writeV, ih]
    by_cases hi : i = n
    · subst hi
      by_cases h255 : i < 255 <;> simp [h255]
    · rw [if_neg (by omega)]
      exact if_congr (by omega) rfl rfl

theorem readS_foldl_writeS (f : Nat → W32) (n : Nat) (x : SliceState) (i : Nat) :
    ((List.range n).foldl (fun (x : SliceState) i => x.writeS i (f i)) x).readS i = if i < n ∧ i < 63 then f i else x.readS i := by
  induction n with
  | zero => rw [if_neg (by omega)]; rfl
  | succ n ih =>
    rw [List.range_succ, List.foldl_append, List.foldl_cons, List.foldl_nil, readS_writeS, ih]
    by_cases hi : i = n
    · subst hi
      by_cases h63 : i < 63 <;> simp [h63]
    · rw [if_neg (by omega)]
      exact if_congr (by omega) rfl rfl

/-- Register writes leave the rest of a thread. -/
theorem foldl_writeV_rest (f : Nat → W32) (l : List Nat) (t : Thread) :
    let u := l.foldl (fun (t : Thread) i => t.writeV i (f i)) t
    (u.pc, u.p, u.tstate) = (t.pc, t.p, t.tstate) :=
  foldl_keeps _ (fun t : Thread => (t.pc, t.p, t.tstate)) (fun t i => by unfold Thread.writeV; split <;> rfl) _ _

theorem list_getD_mapIdx {α : Type} {l : List α} (f : Nat → α → α) {i : Nat} (d : α) (hi : i < l.length) :
    (l.mapIdx f).getD i d = f i (l.getD i d) := by
  simp [List.getD_eq_getElem?_getD, List.getElem?_mapIdx, List.getElem?_eq_getElem hi]

/-- The word of an image at the place of v register i of thread t, and of s register i of slice j (R358). -/
def imageV (m : Mem) (area t i : Nat) : W32 := BitVec.ofNat 32 (Mem.readN m (area + 0x4000 + 1024 * t + 4 * i) 4)
def imageS (m : Mem) (area j i : Nat) : W32 := BitVec.ofNat 32 (Mem.readN m (area + 0x2400 + 256 * j + 4 * i) 4)

/-- A thread of a gang loaded from an image: its v registers from there, its PC, predicates and state as they were (R358). -/
theorem loadImage_thread {g : Gang} (m : Mem) (area : Nat) {l : Nat} (hl : l < g.threads.length) :
    (∀ i, i < g.vregs → i < 255 → ((g.loadImage m area).thread l).readV i = imageV m area l i) ∧
      ((g.loadImage m area).thread l).pc = (g.thread l).pc ∧ ((g.loadImage m area).thread l).p = (g.thread l).p ∧
      ((g.loadImage m area).thread l).tstate = (g.thread l).tstate := by
  have hregs := readV_foldl_writeV (imageV m area l) (min g.vregs 255) (g.thread l)
  have hrest := foldl_writeV_rest (imageV m area l) (List.range (min g.vregs 255)) (g.thread l)
  have hload : (g.loadImage m area).thread l = _ := list_getD_mapIdx _ (Thread.fresh 0) hl
  simp only [Prod.mk.injEq] at hrest
  simp only [imageV] at hregs hrest ⊢
  rw [hload]
  change ∀ i, Thread.readV (List.foldl _ _ _) i = _ at hregs
  unfold Gang.thread at hregs hrest ⊢
  generalize List.foldl _ _ _ = u at hregs hrest ⊢
  exact ⟨fun i hi hi' => (hregs i).trans (if_pos ⟨by omega, hi'⟩), hrest⟩

theorem loadImage_slice {g : Gang} (m : Mem) (area : Nat) {j i : Nat} (hj : j < g.slices.length) (hi : i < 63) :
    ((g.loadImage m area).slice j).readS i = imageS m area j i := by
  have hload : (g.loadImage m area).slice j = _ := list_getD_mapIdx _ SliceState.fresh hj
  rw [hload]
  exact (readS_foldl_writeS (imageS m area j) 63 .fresh i).trans (if_pos ⟨hi, hi⟩)

/-- Batch completions replayed change no thread and no slice (R360). -/
theorem replayBatches_keeps (g : Gang) (l : List JEntry) :
    (g.replayBatches l).threads = g.threads ∧ (g.replayBatches l).slices = g.slices := by
  have hkeeps : ((g.replayBatches l).threads, (g.replayBatches l).slices) = (g.threads, g.slices) := by
    refine foldl_keeps _ (fun g : Gang => (g.threads, g.slices)) (fun g e => ?_) l g
    cases e with
    | batch _ level use status =>
      obtain ⟨hth, hsl, -⟩ := settleLevels_keeps (g.endRecs level use status)
      exact Prod.ext hth hsl
    | arrive off e n delta => rfl
    | push mbx entry => rfl
  exact Prod.ext_iff.1 hkeeps

/-! ## The distributor under an evaluation of slots -/

theorem dist_logError (s : State) (kind : LogKind) (unit index addr count asid : Nat) :
    (s.logError kind unit index addr count asid).dist = s.dist := dist_of_seat (seat_logError _ _ _ _ _ _ _)

theorem dist_scratchScan (s : State) (b : Nat) (o : Bool) (off n : Nat) (w : Bool) : (s.scratchScan b o off n w).1.dist = s.dist := by
  unfold State.scratchScan
  split
  · rfl
  · dsimp only
    split
    · rw [dist_logError]; rfl
    · split
      · rfl
      · split
        · rfl
        · rw [dist_logError]; rfl

theorem dist_readWord0 (s : State) (b : Nat) (o : Bool) (off : Nat) : (s.readWord0 b o off).1.dist = s.dist := by
  have h := dist_scratchScan s b o off 8 false
  unfold State.readWord0
  dsimp only
  split <;> exact h

theorem dist_mbxHeader (s : State) (b n : Nat) : (s.mbxHeader b n).1.dist = s.dist := by
  have h := dist_scratchScan s b false (mbxOff n) 16 false
  unfold State.mbxHeader
  dsimp only
  split
  · split <;> exact h
  · exact h

theorem dist_tokenHolds (s : State) (k n : Nat) (g : Gang) (tk : Token) : (s.tokenHolds k n g tk).1.dist = s.dist := by
  cases tk with
  | barrier o p =>
    unfold State.tokenHolds
    dsimp only
    split
    · exact dist_readWord0 _ _ _ _
    · rfl
  | mailbox n => exact dist_mbxHeader _ _ _
  | monitor =>
    unfold State.tokenHolds
    dsimp only
    split <;> rfl
  | batch n => rfl
  | timer => rfl

theorem dist_evaluateSlots (s : State) (k : Nat) : (s.evaluateSlots k).dist = s.dist :=
  foldl_keeps _ State.dist (fun s n => by
    unfold State.evaluateSlot
    split
    · rfl
    · split
      · rfl
      · have h := dist_tokenHolds s k n
        dsimp only
        split <;> exact h _ _) _ _

/-! ## RESTORE -/

/-- The gang of a RESTORE, before the evaluation of its slots (R317, R358, R360). -/
def SavedGang.restored (x : SavedGang) (m : Mem) (area k : Nat) (here : Gang) : Gang :=
  { (x.gang.loadImage m area).replayBatches x.batch with
    gstate := .halted, quad := here.quad, phys := here.phys, restoring := false, recordOut := false
    flushFrom := if x.core != coreOf k then x.gang.flushFrom ++ [(x.core, x.gang.epoch)] else x.gang.flushFrom }

theorem dist_rekeySet (s : State) (core core' set k k' : Nat) : (s.rekeySet core core' set k k').dist = s.dist := by
  unfold State.rekeySet
  dsimp only
  split
  · rfl
  · split <;> rfl

/-- A gang restored: its slot holds it, with EPEND bits set at most, and the distributor keeps it no more (R145, R317, R353). -/
theorem restoreGang_spec (s : State) (k : Nat) (here : Gang) (x : SavedGang) (area : Nat) :
    (∃ g', (s.restoreGang k here x area).gang? k = some g' ∧ (x.restored s.mem.bytes area k here).Latched g') ∧
      (s.restoreGang k here x area).dist.saved =
        s.dist.saved.filter fun y => !(y.gang.blk == x.gang.blk && y.gang.gidx == x.gang.gidx) := by
  let u : State := (s.setGang k (x.restored s.mem.bytes area k here)).rekeyMonitors (savedKey x.gang.blk x.gang.gidx) k
  let v : State := match x.gang.binding with
    | some b => u.rekeySet x.core (coreOf k) b.1 (savedKey x.gang.blk x.gang.gidx) k
    | none => u
  have hv : v.gangs = u.gangs ∧ v.dist = u.dist := by
    dsimp only [v]
    split
    · exact ⟨(gangs_rekeySet _ _ _ _ _ _).1, dist_rekeySet _ _ _ _ _ _⟩
    · exact ⟨rfl, rfl⟩
  let w : State := { v.rekeyUses x.gang.blk x.gang.gidx k with dist := { v.dist with
    saved := v.dist.saved.filter fun y => !(y.gang.blk == x.gang.blk && y.gang.gidx == x.gang.gidx) } }
  let z : State := if x.core != coreOf k then
    w.modCore x.core fun c => { c with flushes := c.flushes ++ [(x.gang.tag, x.gang.epoch)] } else w
  have hz : z.gangs = w.gangs ∧ z.dist = w.dist := by
    dsimp only [z]
    split <;> exact ⟨rfl, rfl⟩
  have hgang : z.gang? k = some (x.restored s.mem.bytes area k here) := by
    have : z.gangs = Tab.set s.gangs k (x.restored s.mem.bytes area k here) := hz.1.trans hv.1
    rw [State.gang?, this, tab_get?_set, if_pos rfl]
  have hrestore : s.restoreGang k here x area = z.evaluateSlots k := rfl
  rw [hrestore]
  refine ⟨latches_evaluateSlots z k k _ hgang, ?_⟩
  rw [dist_evaluateSlots, hz.2]
  show v.dist.saved.filter _ = _
  rw [hv.2]
  rfl

/-- RESTORE of a placed gang from an image of its own (R317, R358). -/
theorem gangRestore_restores {s : State} {cl k area a : Nat} {h : BitVec 16} {g : Gang} {x : SavedGang}
    (hn : s.named cl h = some (k, g)) (hst : g.gstate = .placed)
    (hx : s.dist.saved.find? (fun y => y.gang.blk = g.blk ∧ y.gang.gidx = g.gidx) = some x)
    (ha : s.areaAt area (imageSize x.gang.width) = some a) (hf : s.imageFits x.gang a = true) :
    ∃ t g', exec (.gangRestore cl h area) s = .next t ∧ (t.porter cl).pstat = 0 ∧ t.gang? k = some g' ∧
      (x.restored s.mem.bytes a k g).Latched g' ∧ ∀ y ∈ t.dist.saved, ¬ (y.gang.blk = g.blk ∧ y.gang.gidx = g.gidx) := by
  have hcmd : s.gangCommand cl 3 h area = (s.restoreGang k g x a, .ok) := by
    simp only [Bool.decide_and] at hx
    simp [State.gangCommand, hn, State.cmdRestore, hst, hx, ha, hf]
  obtain ⟨hp, hgangs, hdist, -⟩ := commandStep_ok hcmd
  obtain ⟨⟨g', hg', hl⟩, hsaved⟩ := restoreGang_spec s k g x a
  obtain ⟨hblk, hgidx⟩ : x.gang.blk = g.blk ∧ x.gang.gidx = g.gidx := by simpa using List.find?_some hx
  refine ⟨_, g', rfl, hp, (hgangs k).trans hg', hl, fun y hy => ?_⟩
  rw [hdist, hsaved, hblk, hgidx] at hy
  have hkept := (List.mem_filter.1 hy).2
  rintro ⟨hb, hi⟩
  simp [hb, hi] at hkept

/-- Settles O44: the bytes of the image by their places in it, and the restored gang by what the image's registers make of the saved
one. -/
theorem gangImagesAreSavedAndRestored : Obligations.GangImagesAreSavedAndRestored := by
  unfold Obligations.GangImagesAreSavedAndRestored
  refine ⟨fun s cl k area a h g hn hst ha hq hw hs => gangSave_saves hn hst ha hq hw hs,
    fun s cl k area a h g x hn hst hx ha hf => ?_⟩
  obtain ⟨t, g', hexec, hp, hg', hl, hsaved⟩ := gangRestore_restores hn hst hx ha hf
  obtain ⟨hth, hsl⟩ := replayBatches_keeps (x.gang.loadImage s.mem.bytes a) x.batch
  have hthread : ∀ l, g'.thread l = (x.gang.loadImage s.mem.bytes a).thread l := fun l => by
    rw [hl.eq]; exact Gang.thread_congr hth l
  have hslice : ∀ j, g'.slice j = (x.gang.loadImage s.mem.bytes a).slice j := fun j => by
    rw [hl.eq]; exact Gang.slice_congr hsl j
  refine ⟨t, g', hexec, hp, hg', by rw [hl.eq]; rfl, by rw [hl.eq]; rfl, by rw [hl.eq]; rfl, hsaved, fun l i hlt hi hi' => ?_,
    fun j i hj hi => ?_, fun l hlt => ?_⟩
  · rw [hthread]
    exact (loadImage_thread _ _ hlt).1 i hi hi'
  · rw [hslice]
    exact loadImage_slice _ _ hj hi
  · rw [hthread]
    exact (loadImage_thread _ _ hlt).2

end Sys2Proof.Machine
end

