-- ==== Sys2Proof/Proofs/Requests.lean ====
section
/-! PROOFS. A porter's answer to the distributor, and the placement of a saved gang (R353, R356). -/

namespace Sys2Proof.Machine

/-- The write that waits first is taken where its register passes the test. -/
theorem takeCommit_head {s : State} {c : Commit} {cs : List Commit} {ok : Nat → Bool} (hc : s.commits = c :: cs)
    (hr : ok c.reg = true) : s.takeCommit ok = some (c, { s with commits := cs }) := by
  simp only [State.takeCommit, hc, hr, if_true]

/-- The state without the write that waits first. -/
theorem HeadCommit.eq {s u : State} {reg : Nat} {c : Commit} (h : HeadCommit s reg c u) : u = { s with commits := u.commits } := by
  rw [← h.rest]

theorem HeadCommit.take {s u : State} {reg : Nat} {c : Commit} (h : HeadCommit s reg c u) :
    s.takeCommit (· == reg) = some (c, u) := by
  have ht : s.takeCommit (· == reg) = some (c, { s with commits := u.commits }) :=
    takeCommit_head h.head (by rw [h.reg, beq_self_eq_true])
  rw [ht, ← h.eq]

/-! ## DISTACK (R356) -/

/-- What an answer to PREEMPT does to the saved gangs. -/
def SavedGang.answer (r : DistRequest) (area : Nat) (x : SavedGang) : SavedGang :=
  if x.gang.blk = r.blk ∧ x.gang.gidx = r.gidx then { x with area := area, answered := true } else x

/-- The state after an answer to a request. -/
def State.distAcked (s : State) (c : Commit) (r : DistRequest) : State :=
  let s := { s with dist := { s.dist with requests := s.dist.requests.filter fun x => x.tag ≠ c.dword 0 } }
  if r.place then s
  else
    let s := { s with dist := { s.dist with saved := s.dist.saved.map (SavedGang.answer r (bits (c.dword 1) 0 56)) } }
    if r.whole then s.modBlock r.blk fun b => { b with barea := bits (c.dword 2) 0 56 } else s

theorem exec_distack {s : State} {c : Commit} {cs : List Commit} (hc : s.commits = c :: cs) (hr : c.reg = regSpace + 0x80) :
    exec .distack s = .next (match s.dist.requests.find? fun r => r.tag = c.dword 0 with
      | none => { s with commits := cs }
      | some r => State.distAcked { s with commits := cs } c r) := by
  change execDistack s = _
  have ht : s.takeCommit (· == 0x3000000000080) = some (c, { s with commits := cs }) := takeCommit_head hc (by rw [hr]; rfl)
  simp only [execDistack, ht]
  cases s.dist.requests.find? fun r => r.tag = c.dword 0 <;> rfl

theorem distAcked_keeps (s : State) (c : Commit) (r : DistRequest) :
    (s.distAcked c r).dist.requests = s.dist.requests.filter (fun x => x.tag ≠ c.dword 0) ∧
      (s.distAcked c r).gangs = s.gangs ∧ (s.distAcked c r).mem = s.mem := by
  unfold State.distAcked
  dsimp only
  split_ifs <;> exact ⟨rfl, rfl, rfl⟩

theorem distAcked_place {r : DistRequest} (h : r.place = true) (s : State) (c : Commit) :
    (s.distAcked c r).dist.saved = s.dist.saved ∧ (s.distAcked c r).blocks = s.blocks := by
  simp only [State.distAcked, h, if_true, and_self]

theorem saved_distAcked {r : DistRequest} (h : r.place = false) (s : State) (c : Commit) :
    (s.distAcked c r).dist.saved = s.dist.saved.map (SavedGang.answer r (bits (c.dword 1) 0 56)) := by
  simp only [State.distAcked, h, Bool.false_eq_true, if_false]
  split_ifs <;> rfl

theorem block?_distAcked {r : DistRequest} (h : r.place = false) {s : State} {b : Block} (hb : s.block? r.blk = some b) (c : Commit) :
    (s.distAcked c r).block? r.blk = some (if r.whole then { b with barea := bits (c.dword 2) 0 56 } else b) := by
  simp only [State.distAcked, h, Bool.false_eq_true, if_false]
  split_ifs
  · rw [State.block?_modBlock]
    exact (if_pos rfl).trans (congrArg _ hb)
  · exact hb

/-! ## GANG_PLACE (R353, R356) -/

/-- The request that a placement sends. -/
def State.placeRequest (s : State) (x : SavedGang) : DistRequest :=
  ⟨requestTag s.dist.nextTag false, true, x.gang.blk, x.gang.gidx, false⟩

/-- The gang that a placement puts into the slot of a saved gang. -/
def SavedGang.placed (x : SavedGang) (p : Nat × List Nat) : Gang := { Gang.blank with
  blk := x.gang.blk, gidx := x.gang.gidx, width := x.gang.width, vregs := x.gang.vregs, lid := x.gang.lid, asid := x.gang.asid
  root := x.gang.root, gstate := .placed, quad := p.1, phys := p.2, restoring := true }

/-- A saved gang's slot taken, and its request noted, before its entry is sent. -/
def State.placing (s : State) (x : SavedGang) (core : Nat) (p : Nat × List Nat) : State :=
  let k := s.freeSlotOf core
  let u := (s.wakeCore core).setGang k (x.placed p)
  let u := u.modBlock x.gang.blk fun b => { b with gangs := Tab.set b.gangs x.gang.gidx k }
  { u with dist := { u.dist with nextTag := u.dist.nextTag + 1, requests := u.dist.requests ++ [s.placeRequest x] } }

/-- The PLACE entry of a saved gang. -/
def State.placeEntry (s : State) (x : SavedGang) (core : Nat) : DqEntry where
  kind := .place
  handle := s.handle (s.freeSlotOf core)
  cause := 0
  seq := 0
  lanes := lanesAll x.gang.width
  arg0 := BitVec.ofNat 64 x.area
  arg1 := BitVec.ofNat 64 (requestTag s.dist.nextTag false)

theorem wakeCore_keeps (s : State) (c : Nat) : (s.wakeCore c).gangs = s.gangs ∧ (s.wakeCore c).clusters = s.clusters ∧
    (s.wakeCore c).gens = s.gens ∧ (s.wakeCore c).dist = s.dist := by
  rw [show s.wakeCore c = { s with cores := (s.wakeCore c).cores } from butCores_wakeCore s c]
  exact ⟨rfl, rfl, rfl, rfl⟩

theorem exec_gangPlace {s : State} {i core : Nat} {x : SavedGang} {p : Nat × List Nat} (hx : s.dist.saved[i]? = some x)
    (hp : s.placeable x = some (core, p)) :
    exec (.gangPlace i) s = .next ((s.placing x core p).offer (core / 4) (s.placeEntry x core)) := by
  obtain ⟨-, -, hgen, -⟩ := wakeCore_keeps s core
  have hh : (s.placing x core p).handle (s.freeSlotOf core) = s.handle (s.freeSlotOf core) := by
    have hg : (s.placing x core p).gens = s.gens := hgen
    simp only [State.handle, State.gen, hg]
  change execGangPlace i s = _
  rw [State.placeEntry, ← hh]
  simp only [execGangPlace, hx, hp]
  rfl

/-- An entry offered to a queue with room, and with no source before it, enters. -/
theorem offer_enters {s : State} {cl : Nat} (hr : s.dqRoom cl = true) (hh : (s.cluster cl).held = []) (e : DqEntry) :
    s.offer cl e = s.enter cl e := by
  rw [State.offer, if_pos]
  simp [State.mayEnter, hr, hh]

/-! ## The obligation -/

/-- Settles O39: the distributor's requests and their answers. -/
theorem requestsAreAnswered : Obligations.RequestsAreAnswered := by
  unfold Obligations.RequestsAreAnswered
  refine ⟨fun s c cs hc hr => ⟨fun hn => ?_, fun r hf => ?_⟩, fun s i core x p hx hp hroom hheld hk => ?_⟩
  · have hf : s.dist.requests.find? (fun r => r.tag = c.dword 0) = none :=
      List.find?_eq_none.2 fun r h => by simpa using hn r h
    rw [exec_distack hc hr, hf]
  · have htag : r.tag = c.dword 0 := by simpa using List.find?_some hf
    refine ⟨State.distAcked { s with commits := cs } c r, by rw [exec_distack hc hr, hf], ?_⟩
    obtain ⟨hq, hg, hm⟩ := distAcked_keeps { s with commits := cs } c r
    refine ⟨by rw [hq, htag], hg, hm, fun h => distAcked_place h _ c, fun h => ⟨fun y hy hb hi => ?_, fun b hb => ?_⟩⟩
    · rw [saved_distAcked h]
      exact List.mem_map.2 ⟨y, hy, if_pos ⟨hb, hi⟩⟩
    · exact block?_distAcked h (s := { s with commits := cs }) hb c
  · obtain ⟨hgangs, hcl, -, hd⟩ := wakeCore_keeps s core
    have hc : (s.placing x core p).cluster (core / 4) = s.cluster (core / 4) := by
      have h : (s.placing x core p).clusters = s.clusters := hcl
      rw [State.cluster, h, State.cluster]
    have hdq : (s.placing x core p).dqRoom (core / 4) = true := by rw [State.dqRoom, hc]; exact hroom
    have hreq : (s.placing x core p).dist.requests = s.dist.requests ++ [s.placeRequest x] :=
      congrArg (fun d : Dist => d.requests ++ [s.placeRequest x]) hd
    have hgang (j : Nat) : (s.placing x core p).gang? j = ((s.wakeCore core).setGang (s.freeSlotOf core) (x.placed p)).gang? j := rfl
    refine ⟨_, x.placed p, s.placeRequest x, exec_gangPlace hx hp, ?_⟩
    rw [offer_enters hdq (by rw [hc]; exact hheld)]
    refine ⟨(hgang _).trans ((State.gang?_setGang _ _ _ _).trans (if_pos rfl)), rfl, rfl, rfl, rfl, rfl, rfl, fun j hj => ?_, hreq, rfl, rfl,
      rfl, ?_⟩
    · refine (hgang j).trans ((State.gang?_setGang _ _ _ _).trans ?_)
      rw [if_neg hj, State.gang?, hgangs, State.gang?]
    · refine ⟨{ s.placeEntry x core with seq := ((s.placing x core p).cluster (core / 4)).nextSeq }, ?_, rfl, rfl, rfl, rfl⟩
      simp [State.enter]

end Sys2Proof.Machine
end

