-- ==== Sys2Proof/Proofs/Translation.lean ====
section
/-! PROOFS. Page walks, SFENCE.VMA and the timer of a porter (R309, R324, R329), invalidations (R331, R332) and what a porter does with a
paused engine use (R343). -/

namespace Sys2Proof.Machine

/-! ## Page walks -/

theorem installTlb_mem (l : List TlbEntry) {n : Nat} (hn : n ≠ 0) (e : TlbEntry) : e ∈ installTlb l n e := by
  obtain ⟨m, rfl⟩ := Nat.exists_eq_succ_of_ne_zero hn
  rw [installTlb, List.take_succ_cons]
  exact List.mem_cons_self

theorem exec_pageWalk {s s1 : State} {cl asid root va pte l : Nat} (hm : ∀ e ∈ (s.cluster cl).tlb, e.hits asid va = false)
    (hw : s.walk cl asid root va = (s1, .leaf pte l)) :
    exec (.pageWalk cl asid root va) s = .next (s1.installCluster cl (tlbOf asid va pte l)) := by
  have ha : ((s.cluster cl).tlb.any fun e => e.hits asid va) = false := List.any_eq_false.2 fun e h => by simp [hm e h]
  change execPageWalk cl asid root va s = _
  simp only [execPageWalk, ha, Bool.false_eq_true, if_false, hw]

/-! ## Invalidations -/

/-- A lookup in a table whose values have been mapped, each with its key. -/
theorem tab_get?_mapKeyed {α : Type} (t : Tab α) {f : Nat × α → Nat × α} (hf : ∀ c, (f c).1 = c.1) (k : Nat) :
    Tab.get? (t.map f) k = (Tab.get? t k).map fun v => (f (k, v)).2 := by
  unfold Tab.get?
  induction t with
  | nil => rfl
  | cons a t ih =>
    simp only [List.map_cons, List.find?_cons, hf]
    by_cases h : a.1 = k
    · subst h; simp
    · rw [beq_eq_false_iff_ne.2 h]; exact ih

/-- What an invalidation in a scope leaves of a cluster. -/
def Cluster.without (t : Tlbi) (c : Cluster) : Cluster := { c with
  tlb := c.tlb.filter fun e => !t.covers e, walks := c.walks.filter fun w => !t.coversWalk w
  porter := { c.porter with tlb := c.porter.tlb.filter fun e => !t.covers e } }

theorem core_dropCovered (s : State) (cl : Nat) (t : Tlbi) {c : Nat} (h : t.inScope cl (c / 4) = true) :
    ((s.dropCovered cl t).core c).tlb = (s.core c).tlb.filter fun e => !t.covers e := by
  rw [State.core, State.dropCovered, Tab.getD, tab_get?_mapKeyed _ (fun c => by split <;> rfl), State.core, Tab.getD]
  cases Tab.get? s.cores c with
  | none => rfl
  | some x => simp only [Option.map_some, h, if_true, Option.getD_some]

theorem cluster_dropCovered (s : State) (cl : Nat) (t : Tlbi) {j : Nat} (h : t.inScope cl j = true) :
    (s.dropCovered cl t).cluster j = (s.cluster j).without t := by
  rw [State.cluster, State.dropCovered, Tab.getD, tab_get?_mapKeyed _ (fun c => by split <;> rfl), State.cluster, Tab.getD]
  cases Tab.get? s.clusters j with
  | none => rfl
  | some x => simp only [Option.map_some, h, if_true, Option.getD_some]; rfl

theorem porter_dropCovered (s : State) (cl : Nat) (t : Tlbi) : ((s.dropCovered cl t).porter cl).tlbis = (s.porter cl).tlbis := by
  rw [State.porter, State.cluster, State.dropCovered, Tab.getD, tab_get?_mapKeyed _ (fun c => by split <;> rfl), State.porter,
    State.cluster, Tab.getD]
  cases Tab.get? s.clusters cl with
  | none => rfl
  | some x => dsimp only [Option.map_some, Option.getD_some]; split <;> rfl

/-- A change of a porter leaves every cluster's TLB and walk cache. -/
theorem cluster_modPorter (s : State) (cl j : Nat) (f : Porter → Porter) :
    ((s.modPorter cl f).cluster j).tlb = (s.cluster j).tlb ∧ ((s.modPorter cl f).cluster j).walks = (s.cluster j).walks := by
  rw [State.modPorter, State.cluster_modCluster]
  split
  · next h => rw [h]; exact ⟨rfl, rfl⟩
  · exact ⟨rfl, rfl⟩

theorem porter_modPorter_tlb {s : State} {cl : Nat} {f : Porter → Porter} (j : Nat) (hf : ∀ p, (f p).tlb = p.tlb) :
    ((s.modPorter cl f).porter j).tlb = (s.porter j).tlb := by
  rw [State.porter, State.modPorter, State.cluster_modCluster]
  split
  · next h => rw [h]; exact hf _
  · rfl

/-- A porter's oldest invalidation done. -/
def Porter.invalidated (t : Tlbi) (rest : List Tlbi) (p : Porter) : Porter :=
  { p with tlbis := rest, done := BitVec.ofNat 32 t.ticket }

/-- The monitors fire whose words an invalidation covers. -/
def State.invalidated (s : State) (cl : Nat) (t : Tlbi) : State :=
  (s.mem.monitors.filter fun m => t.coversVa (s.monitorAsid m) m.desc.va).foldl (fun s m => s.fireMonitor m) (s.dropCovered cl t)

theorem invalidated_keeps (s : State) (cl : Nat) (t : Tlbi) : (s.invalidated cl t).cores = (s.dropCovered cl t).cores ∧
    (s.invalidated cl t).clusters = (s.dropCovered cl t).clusters := by
  have h := foldl_keeps (fun (u : State) m => u.fireMonitor m) (fun u => (u.cores, u.clusters)) (fun _ _ => rfl)
    (s.mem.monitors.filter fun m => t.coversVa (s.monitorAsid m) m.desc.va) (s.dropCovered cl t)
  exact ⟨congrArg Prod.fst h, congrArg Prod.snd h⟩

theorem core_invalidated (s : State) (cl : Nat) (t : Tlbi) {c : Nat} (h : t.inScope cl (c / 4) = true) :
    ((s.invalidated cl t).core c).tlb = (s.core c).tlb.filter fun e => !t.covers e := by
  rw [State.core, (invalidated_keeps s cl t).1]
  exact core_dropCovered s cl t h

theorem cluster_invalidated (s : State) (cl : Nat) (t : Tlbi) {j : Nat} (h : t.inScope cl j = true) :
    (s.invalidated cl t).cluster j = (s.cluster j).without t := by
  rw [State.cluster, (invalidated_keeps s cl t).2]
  exact cluster_dropCovered s cl t h

theorem exec_startTlbi {s : State} {c : Commit} {cs : List Commit} {dev : Bool} (hc : s.commits = c :: cs) (hr : c.reg = 0x9C3)
    (hd : bits (c.dword 0) 0 1 = 1 ↔ dev = true) (hn : (s.porter (writerCluster c.writer)).tlbis.length < 16) :
    exec (if dev then .tlbiDevice else .tlbiCluster) s = .next ((State.modPorter { s with commits := cs } (writerCluster c.writer)) fun p =>
      let q := s.porter (writerCluster c.writer)
      { p with
        ticket := q.ticket + 1
        tlbis := q.tlbis ++ [{
          ticket := (q.ticket + 1).toNat, dev := dev, asid := bits q.tlbiasid.toNat 0 16, all := q.tlbiasid.getLsbD 16
          glob := q.tlbiasid.getLsbD 17, vpn := bits q.tlbiva.toNat 18 38, pages := bits q.tlbilen.toNat 0 39 }] }) := by
  have ht : s.takeCommit (· == 0x9C3) = some (c, { s with commits := cs }) := takeCommit_head hc (by rw [hr]; rfl)
  have hdev : ((bits (c.dword 0) 0 1 == 1) != dev) = false := by
    rw [bne_eq_false_iff_eq, Bool.eq_iff_iff, beq_iff_eq]
    exact hd
  have hlen : decide (16 ≤ (State.porter { s with commits := cs } (writerCluster c.writer)).tlbis.length) = false :=
    decide_eq_false (Nat.not_le.2 hn)
  have hx : exec (if dev then .tlbiDevice else .tlbiCluster) s = .next (s.startTlbi dev) := by cases dev <;> rfl
  rw [hx, State.startTlbi]
  simp only [ht, hdev, hlen, Bool.or_self, Bool.false_eq_true, if_false]
  rfl

theorem exec_tlbiComplete {s s1 : State} {cl : Nat} {t : Tlbi} {rest : List Tlbi} (ht : (s.porter cl).tlbis = t :: rest)
    (hd : s.draftCovered cl t = false) (hk : s.chunkCovered cl t = false)
    (hs : (s.drain fun e => t.inScope cl (e.core / 4) && t.coversEntry e) = some s1)
    (hr : ∀ r ∈ s1.link.requests, ∀ g l e, r.src ≠ .store g l e) :
    exec (.tlbiComplete cl) s = .next ((s1.invalidated cl t).modPorter cl (Porter.invalidated t rest)) := by
  change execTlbiComplete cl s = _
  rw [execTlbiComplete]
  simp only [ht, hd, hk, Bool.or_self, Bool.false_eq_true, if_false, hs]
  refine congrArg Host.Outcome.next (if_neg ?_)
  rw [Bool.not_eq_true]
  refine List.any_eq_false.2 fun r h => ?_
  split
  · next e => exact absurd e (hr r h _ _ _)
  · exact Bool.false_ne_true

theorem filter_not_covered {α : Type} {l : List α} {f : α → Bool} : ∀ e ∈ l.filter (fun e => !f e), f e = false := fun e h => by
  simpa using (List.mem_filter.1 h).2

/-! ## ENGRESUME -/

/-- A use that runs again: the chunks that have not been acknowledged write again. -/
def CopyUse.resumed (x : CopyUse) : CopyUse := { x with
  state := .running, stopped := [], bufs := x.bufs.map fun b => if NatSet.has x.acked b.n then b else { b with written := false } }

theorem resumed_bufs (x : CopyUse) {b : ChunkBuf} (hb : b ∈ x.resumed.bufs) (h : NatSet.has x.acked b.n = false) : b.written = false := by
  obtain ⟨d, -, rfl⟩ := List.mem_map.1 hb
  by_cases hd : NatSet.has x.acked d.n = true
  · rw [if_pos hd, hd] at h
    exact absurd h Bool.true_eq_false.mp
  · rw [if_neg hd]

theorem engTarget_paused {s : State} {c : Commit} {x : CopyUse}
    (h : s.pausedUse (4 * writerCluster c.writer + bits (c.dword 0) 6 2) (bits (c.dword 0) 0 6) = some x) :
    s.engTarget c = some (4 * writerCluster c.writer + bits (c.dword 0) 6 2, bits (c.dword 0) 0 6, x) := by
  rw [State.engTarget, h, Option.map_some]

section
variable {s : State} {c : Commit} {cs : List Commit} {x : CopyUse} (hc : s.commits = c :: cs) (hr : c.reg = 0x9C5)
  (hx : s.pausedUse (4 * writerCluster c.writer + bits (c.dword 0) 6 2) (bits (c.dword 0) 0 6) = some x)
include hc hr hx

theorem exec_engineResume (h : bits (c.dword 0) 8 1 = 0) : exec .engineResume s = .next (State.setUse { s with commits := cs }
    (4 * writerCluster c.writer + bits (c.dword 0) 6 2) (bits (c.dword 0) 0 6) x.resumed) := by
  have ht : s.takeCommit (· == 0x9C5) = some (c, { s with commits := cs }) := takeCommit_head hc (by rw [hr]; rfl)
  have he := engTarget_paused (s := { s with commits := cs }) hx
  change execEngineResume s = _
  rw [execEngineResume]
  simp only [ht, h, Nat.zero_ne_one, if_false, he]
  rfl

theorem exec_engineAbort (h : bits (c.dword 0) 8 1 = 1) : exec .engineAbort s = .next (State.endUse { s with commits := cs }
    (4 * writerCluster c.writer + bits (c.dword 0) 6 2) (bits (c.dword 0) 0 6) 2) := by
  have ht : s.takeCommit (· == 0x9C5) = some (c, { s with commits := cs }) := takeCommit_head hc (by rw [hr]; rfl)
  have he := engTarget_paused (s := { s with commits := cs }) hx
  change execEngineAbort s = _
  rw [execEngineAbort]
  simp only [ht, h, Nat.one_ne_zero, if_false, he]

end

theorem completePart_keeps (s : State) (b stamp st : Nat) (p : UsePart) :
    (s.completePart b stamp st p).commits = s.commits ∧ (s.completePart b stamp st p).mem = s.mem := by
  unfold State.completePart
  split
  · split <;> exact ⟨rfl, rfl⟩
  · exact ⟨rfl, rfl⟩

theorem endUse_keeps (s : State) (c u st : Nat) : (s.endUse c u st).commits = s.commits ∧ (s.endUse c u st).mem = s.mem := by
  unfold State.endUse
  split
  · exact ⟨rfl, rfl⟩
  · next x _ =>
    dsimp only
    split
    · exact ⟨rfl, rfl⟩
    · have h (t : State) := foldl_keeps (fun (s : State) p => s.completePart x.blk x.stamp st p) (fun s => (s.commits, s.mem))
        (fun s p => by obtain ⟨h1, h2⟩ := completePart_keeps s x.blk x.stamp st p; rw [h1, h2]) x.parts t
      exact ⟨congrArg Prod.fst (h _), congrArg Prod.snd (h _)⟩

/-! ## The obligation -/

/-- Settles O47: walks, SFENCE.VMA, the timer, invalidations and ENGRESUME. -/
theorem translationIsMaintained : Obligations.TranslationIsMaintained := by
  unfold Obligations.TranslationIsMaintained
  refine ⟨⟨fun s s1 cl asid root va pte l hm hw => ?_, fun s cl r1 r2 => ?_, fun s cl hm ht => ?_⟩,
    ⟨fun s c cs dev hc hr hd => ?_, fun s s1 cl t rest ht hd hk hs hr _ => ?_⟩, ?_⟩
  · refine ⟨_, exec_pageWalk hm hw, ?_, rfl, rfl, rfl⟩
    rw [State.installCluster, State.cluster_modCluster, if_pos rfl]
    exact installTlb_mem _ (by decide) _
  · dsimp only
    split
    · next h => exact ⟨_, congrArg Host.Outcome.next (if_pos h), porterTaken_porterExcept s cl .illegal 0⟩
    · next h => exact ⟨_, congrArg Host.Outcome.next (if_neg h), onlyPorter_modPorter s cl _⟩
  · refine ⟨_, congrArg Host.Outcome.next (if_pos ?_), onlyPorter_modPorter s cl _⟩
    rw [hm, decide_eq_true ht, Bool.and_self]
  · exact fun hn => ⟨_, exec_startTlbi hc hr hd hn, onlyPorter_modPorter { s with commits := cs } _ _⟩
  · refine ⟨_, exec_tlbiComplete ht hd hk hs hr, ?_, ?_, fun c h => ?_, fun j h => ?_⟩
    · exact congrArg Porter.tlbis (State.porter_modPorter _ _ _)
    · exact congrArg Porter.done (State.porter_modPorter _ _ _)
    · exact fun e he => filter_not_covered e (core_invalidated s1 cl t h ▸ he)
    · obtain ⟨htlb, hwalks⟩ := cluster_modPorter (s1.invalidated cl t) cl j (Porter.invalidated t rest)
      rw [htlb, hwalks, porter_modPorter_tlb (f := Porter.invalidated t rest) j fun _ => rfl, State.porter, cluster_invalidated s1 cl t h]
      exact ⟨filter_not_covered, filter_not_covered, filter_not_covered⟩
  · intro s c cs core u x hc hr hcore hu hx
    subst hcore hu
    refine ⟨fun h => ⟨_, x.resumed, exec_engineResume hc hr hx h, rfl, use_setUse _ _ _ _, rfl, rfl, rfl,
      fun b hb => resumed_bufs x hb, rfl, rfl⟩, fun h => ?_⟩
    obtain ⟨hk, hm⟩ := endUse_keeps { s with commits := cs } (4 * writerCluster c.writer + bits (c.dword 0) 6 2)
      (bits (c.dword 0) 0 6) 2
    exact ⟨_, exec_engineAbort hc hr hx h, hk, uses_endUse _ _ _ _, hm⟩

end Sys2Proof.Machine
end

