-- ==== Sys2Proof/Proofs/HostAndDrives.lean ====
section
/-! PROOFS. Host accesses over CXL.mem (R367 to R369, R405), and the messages and the DMA of drives (R326, R378). -/

namespace Sys2Proof.Machine

/-! ## Host accesses -/

/-- The host may reach n bytes at an address: CXL.mem is usable and the decoder maps them into HBM. -/
structure State.HostReaches (s : State) (pa n : Nat) : Prop where
  opened : s.cxlOpen = true
  base : s.host.hdmBase ≤ pa
  size : pa - s.host.hdmBase + n ≤ s.rel.hbmSize

theorem exec_hostAccess_error {s : State} {pa n : Nat} (op : HostOp)
    (h : s.cxlOpen = false ∨ pa < s.host.hdmBase ∨ s.rel.hbmSize < pa - s.host.hdmBase + n) :
    exec (.hostCxlMemAccess op pa n) s = .next (s.hostReply .error) := by
  refine congrArg Host.Outcome.next (if_pos ?_)
  rw [Bool.or_eq_true, Bool.not_eq_true', Bool.not_eq_true', decide_eq_false_iff_not]
  exact h.imp_right fun h => by omega

section
variable {s : State} {pa n : Nat} (h : s.HostReaches pa n)
include h

theorem exec_hostRead (own : Bool) : exec (.hostCxlMemAccess (.read own) pa n) s =
    .next ((s.hostReads (pa - s.host.hdmBase) n own).1.hostReply ((s.hostReads (pa - s.host.hdmBase) n own).2.elim .poison .data)) := by
  refine congrArg Host.Outcome.next ((if_neg (by simp [h.opened, h.base, h.size])).trans ?_)
  dsimp only
  cases (s.hostReads (pa - s.host.hdmBase) n own).2 <;> rfl

theorem exec_hostWrite (x : Nat) : exec (.hostCxlMemAccess (.write x) pa n) s =
    .next ((s.hostWriteBytes (pa - s.host.hdmBase) n x).hostReply .written) :=
  congrArg Host.Outcome.next (if_neg (by simp [h.opened, h.base, h.size]))

theorem exec_hostRmw {u : State} {y : Nat} (hr : s.hostReads (pa - s.host.hdmBase) n true = (u, some y)) (old new : Nat) :
    exec (.hostCxlMemAccess (.rmw old new) pa n) s =
      .next ((if y = old then u.hostWriteBytes (pa - s.host.hdmBase) n new else u).hostReply (.data y)) := by
  refine congrArg Host.Outcome.next ((if_neg (by simp [h.opened, h.base, h.size])).trans ?_)
  simp only [hr]

end

/-- Marks stay cleared, and an atom written whole has its mark cleared (R405). -/
theorem hostWriteBytes_clears {s : State} (h : s.mem.redq = []) (a n x : Nat) {i : Nat} (hlo : a ≤ 32 * i) (hhi : 32 * i + 32 ≤ a + n) :
    NatSet.has (s.hostWriteBytes a n x).mem.poison i = false := by
  have hpieces : ∀ m, ∃ t, t = (List.range m).foldl (fun (s : State) i =>
      let lo := max a (32 * (a / 32 + i))
      let hi := min (a + n) (32 * (a / 32 + i + 1))
      let s := s.agentWrite lo (hi - lo) (x / 256 ^ (lo - a))
      if hi - lo = 32 then s.clearPoison lo else s) s ∧ t.mem.redq = [] ∧
        (i < a / 32 + m → NatSet.has t.mem.poison i = false) := by
    intro m
    induction m with
    | zero => exact ⟨s, rfl, h, fun hi => by omega⟩
    | succ m ih =>
      obtain ⟨t, ht, hq, hp⟩ := ih
      refine ⟨_, rfl, ?_⟩
      rw [List.range_succ, List.foldl_append, List.foldl_cons, List.foldl_nil, ← ht]
      dsimp only
      rw [agentWrite_of_noReds (noReds_nil hq _ _)]
      have hk (lo k y : Nat) : (t.homeWrite lo k y).mem.redq = [] ∧ (t.homeWrite lo k y).mem.poison = t.mem.poison :=
        ⟨(redq_homeWrite t lo k y).trans hq, (homeWrite_written t lo k y).marks.1⟩
      split
      · refine ⟨(hk _ _ _).1, fun hi => ?_⟩
        rw [State.clearPoison]
        dsimp only
        rw [natSet_has_del, (hk _ _ _).2]
        by_cases hlast : i = a / 32 + m
        · subst hlast
          rw [show atomOf (max a (32 * (a / 32 + m))) = a / 32 + m by unfold atomOf; omega, bne_self_eq_false, Bool.and_false]
        · rw [hp (by omega), Bool.false_and]
      · next hpart =>
        refine ⟨(hk _ _ _).1, fun hi => ?_⟩
        rw [(hk _ _ _).2]
        exact hp (by omega)
  obtain ⟨t, ht, -, hp⟩ := hpieces ((a + n + 31) / 32 - a / 32)
  rw [State.hostWriteBytes, ← ht]
  exact hp (by omega)

/-! ## Drives -/

theorem drive_setDrive (s : State) (d : Nat) (x : Drive) : (s.setDrive d x).drive d = x := by
  unfold State.drive State.setDrive Tab.getD
  rw [tab_get?_set, if_pos rfl, Option.getD_some]

/-- The message of a drive's MSI-X write (R378). -/
def State.irqMessage (s : State) (d vec : Nat) : Message :=
  ⟨(Config.deviceSender s.freeCtr).val, BitVec.ofNat 512 (d + 2 ^ 16 * (vec % 2 ^ 16))⟩

theorem nvmeMsix_held {s : State} {d : Nat} (vec : Nat) (h : (s.drive d).held ≠ [] ∨
      Config.channelDepth ≤ (Tab.getD (s.cluster ((s.drive d).irqChan % 64)).channels ((s.drive d).irqChan / 64 % 4) []).length) :
    exec (.nvmeMsix d vec) s = .next (State.setDrive { s with freeCtr := s.freeCtr + 1 } d
      { s.drive d with held := (s.drive d).held ++ [s.irqMessage d vec] }) := by
  refine congrArg Host.Outcome.next ?_
  dsimp only
  by_cases hh : (s.drive d).held = []
  · rw [if_neg (not_not.2 hh), sendChannel_full (s := { s with freeCtr := s.freeCtr + 1 }) _ (h.resolve_left (not_not.2 hh)), hh]
    rfl
  · rw [if_pos hh]
    rfl

theorem nvmeMsix_sent {s : State} {d : Nat} (vec : Nat) (hh : (s.drive d).held = [])
    (hr : (Tab.getD (s.cluster ((s.drive d).irqChan % 64)).channels ((s.drive d).irqChan / 64 % 4) []).length < Config.channelDepth) :
    ∃ t, exec (.nvmeMsix d vec) s = .next t ∧
      Tab.getD (t.cluster ((s.drive d).irqChan % 64)).channels ((s.drive d).irqChan / 64 % 4) [] =
        Tab.getD (s.cluster ((s.drive d).irqChan % 64)).channels ((s.drive d).irqChan / 64 % 4) [] ++ [s.irqMessage d vec] ∧
      t.drives = s.drives ∧ t.mem = s.mem := by
  obtain ⟨t, ht, hq, hrest⟩ := sendChannel_room (s := { s with freeCtr := s.freeCtr + 1 }) (s.irqMessage d vec) hr
  refine ⟨t, ?_, hq, (congrArg State.drives hrest :), (congrArg State.mem hrest :)⟩
  refine congrArg Host.Outcome.next ?_
  dsimp only
  rw [if_neg (not_not.2 hh)]
  change (match State.sendChannel { s with freeCtr := s.freeCtr + 1 } _ _ (s.irqMessage d vec) with
    | (s, true) => s
    | (s, false) => s.setDrive d _) = t
  rw [ht]

/-- How a drive's DMA ends. -/
def State.dmaEnds (s : State) (d : Nat) (r : HostReply) : State := s.setDrive d { s.drive d with reply := r }

/-- A DMA's bytes lie in its drive's window. -/
def Drive.inWindow (x : Drive) (pa n : Nat) : Prop := x.dmaBase ≤ pa ∧ pa + n ≤ x.dmaBase + x.dmaSize

theorem farRange_plain {s : State} {pa n : Nat} (wr : Bool) (h : s.plainRange pa n = true) : s.farRange wr pa n = none := by
  unfold State.plainRange at h
  unfold State.farRange
  split
  · next e _ => simp [e] at h
  · rfl

theorem nvmeDma_refused {s : State} {d pa : Nat} {wr : Bool} {data : List (BitVec 8)}
    (h : ¬ (s.drive d).inWindow pa data.length ∨
      (s.farRange wr pa data.length = none ∧ s.plainRange pa data.length = false)) :
    exec (.nvmeDma d wr pa data) s = .next (s.dmaEnds d .error) := by
  refine congrArg Host.Outcome.next ?_
  by_cases hw : (s.drive d).inWindow pa data.length
  · obtain ⟨hf, hp⟩ := h.resolve_left (not_not.2 hw)
    rw [Drive.inWindow] at hw
    simp only [hw, hf, hp, Bool.not_false, if_true]
    rfl
  · rw [Drive.inWindow] at hw
    simp only [hw, decide_false, Bool.not_false, if_true]
    rfl

theorem exec_nvmeDma_far {s : State} {d pa dev off : Nat} {wr : Bool} {data : List (BitVec 8)}
    (hw : (s.drive d).inWindow pa data.length) (hf : s.farRange wr pa data.length = some (dev, off)) :
    exec (.nvmeDma d wr pa data) s = .next (match s.sendRemote (4 * Config.numClusters) dev off
        (if wr then .write data.length (natOfBytes data) else .read data.length) (.drive d) with
      | some t => t.dmaEnds d .none
      | none => s) := by
  refine congrArg Host.Outcome.next ?_
  rw [Drive.inWindow] at hw
  simp only [hw, hf]
  rfl

theorem exec_nvmeDma_near {s : State} {d pa : Nat} {data : List (BitVec 8)} (wr : Bool)
    (hw : (s.drive d).inWindow pa data.length) (hp : s.plainRange pa data.length = true) :
    exec (.nvmeDma d wr pa data) s = .next (if wr then (s.writeRecord pa data.length (natOfBytes data)).dmaEnds d .written
      else match s.readBytes pa data.length 0 with
        | (t, some v) => t.dmaEnds d (.data v)
        | (t, none) => t.dmaEnds d .poison) := by
  refine congrArg Host.Outcome.next ?_
  rw [Drive.inWindow] at hw
  simp only [hw, farRange_plain wr hp, hp]
  rfl

theorem drive_dmaEnds {s t : State} (h : t.drives = s.drives) (d : Nat) (r : HostReply) :
    (t.dmaEnds d r).drive d = { s.drive d with reply := r } := by
  rw [State.dmaEnds, drive_setDrive, State.drive, h, State.drive]

end Sys2Proof.Machine
end

