-- ==== Sys2Proof/Proofs/EthernetRings.lean ====
section
/-! PROOFS. The rings of the Ethernet complex: tails, frames sent and frames received (R379, R380). -/

namespace Sys2Proof.Machine

/-! ## Fields of a number -/

/-- A field of a number cut off above it. -/
theorem bits_mod (x : Nat) {lo n m : Nat} (h : lo + n ≤ m) : bits (x % 2 ^ m) lo n = bits x lo n := by
  refine Nat.eq_of_testBit_eq fun i => ?_
  rw [testBit_bits, testBit_bits, Nat.testBit_mod_two_pow]
  by_cases hi : i < n
  · rw [decide_eq_true (show lo + i < m by omega), Bool.true_and]
  · rw [decide_eq_false hi, Bool.false_and, Bool.false_and]

/-- A field replaced by itself. -/
theorem setBits_self (x lo n : Nat) : setBits x lo n (bits x lo n) = x := by
  refine Nat.eq_of_testBit_eq fun i => ?_
  rw [testBit_setBits]
  split
  · rw [testBit_bits, decide_eq_true (show i - lo < n by omega), Bool.true_and, show lo + (i - lo) = i by omega]
  · rfl

theorem bits_flag (x lo : Nat) : (bits x lo 1 == 1).toNat = bits x lo 1 := by
  rw [bits_one]
  cases x.testBit lo <;> rfl

/-- Three bits in a row are one field. -/
theorem bits_three (x lo : Nat) : bits x lo 3 = bits x lo 1 + 2 * bits x (lo + 1) 1 + 4 * bits x (lo + 2) 1 := by
  unfold bits
  rw [Nat.pow_add, Nat.pow_add, ← Nat.div_div_eq_div_mul, ← Nat.div_div_eq_div_mul]
  generalize x / 2 ^ lo = y
  omega

/-! ## Descriptors -/

theorem State.Aside.noRedsAt {s t : State} (h : s.Aside t) {pa n : Nat} (hq : s.NoReds pa n) : t.NoReds pa n :=
  fun e he => hq e (h.redq e he)

theorem redq_agentRead (s : State) (pa n asid : Nat) :
    (s.agentRead pa n asid).1.mem.redq = s.mem.redq.filter fun e => e.place.line != .phys (lineOf pa) :=
  (congrArg (fun u : State => u.mem.redq) (apart_checkAtom (s.drainRed (.phys (lineOf pa))) pa n asid) :).trans (redq_drainRed _ _)

/-- A read of bytes that finds them all sound has emptied the reduction queues of their lines (R118). -/
theorem noReds_readBytes {s t : State} {pa n asid d : Nat} (h : s.readBytes pa n asid = (t, some d)) (hn : 0 < n) : t.NoReds pa n := by
  have hpieces : ∀ m u v, (List.range m).foldl (atomRead pa n asid) (s, some 0) = (u, some v) →
      ∀ i, i < m → ∀ e ∈ u.mem.redq, e.place.line ≠ .phys (lineOf (max pa (32 * (pa / 32 + i)))) := by
    intro m
    induction m with
    | zero => intro u v _ i hi; omega
    | succ m ih =>
      intro u v hu i hi e he
      rw [List.range_succ, List.foldl_append, List.foldl_cons, List.foldl_nil] at hu
      obtain ⟨w, x, hw⟩ : ∃ w x, (List.range m).foldl (atomRead pa n asid) (s, some 0) = (w, some x) := by
        generalize (List.range m).foldl (atomRead pa n asid) (s, some 0) = y at hu
        obtain ⟨w, x⟩ := y
        cases x with
        | none => cases hu
        | some x => exact ⟨w, x, rfl⟩
      rw [hw] at hu
      have hstate := atomRead_state pa n asid w x m
      rw [hu] at hstate
      dsimp only at hstate
      rw [hstate, redq_agentRead, List.mem_filter] at he
      rcases Nat.lt_succ_iff_lt_or_eq.1 hi with hi | rfl
      · exact ih w x hw i hi e he.1
      · simpa using he.2
  rw [readBytes_eq] at h
  intro e he b hb hb'
  have hline := hpieces _ t d h (b / 32 - pa / 32) (by omega) e he
  rwa [show lineOf (max pa (32 * (pa / 32 + (b / 32 - pa / 32)))) = lineOf b by unfold lineOf; omega] at hline

theorem readDesc_some {s t : State} {pa d : Nat} (h : s.readDesc pa = (t, some d)) :
    s.plainRange pa 32 = true ∧ s.readBytes pa 32 0 = (t, some d) := by
  unfold State.readDesc at h
  split at h
  · next hp => exact ⟨hp, h⟩
  · cases h

theorem aside_readDesc {s t : State} {pa d : Nat} (h : s.readDesc pa = (t, some d)) : s.Aside t := by
  have ha := aside_readBytes s pa 32 0
  rwa [(readDesc_some h).2] at ha

/-- What is written back of a descriptor (R380). -/
def doneWord (d len : Nat) (eop err : Bool) : Nat :=
  setBits (setBits (setBits (setBits d 64 16 len) 80 1 eop.toNat) 81 1 1) 82 1 err.toNat

theorem doneDesc_written {s : State} {pa : Nat} (hp : s.plainRange pa 32 = true) (hq : s.NoReds pa 32) (d len : Nat) (eop err : Bool) :
    AgentWritten s (s.doneDesc pa d len eop err) pa 32 (doneWord d len eop err) := by
  rw [State.doneDesc, if_pos hp]
  exact writeRecord_written hq _

theorem bits_written {s t : State} {pa x lo n : Nat} (h : AgentWritten s t pa 32 x) (hb : lo + n ≤ 256) :
    bits (Mem.readN t.mem.bytes pa 32) lo n = bits x lo n := by
  rw [mem_readN_of_bytes _ _ _ x fun i hi => ?_]
  · rw [show (256 : Nat) ^ 32 = 2 ^ 256 by norm_num, bits_mod x hb]
  · rw [h.bytes, if_pos (by omega), Nat.add_sub_cancel_left]

theorem doneWord_flags (d len : Nat) (eop err : Bool) : bits (doneWord d len eop err) 80 1 = eop.toNat ∧
    bits (doneWord d len eop err) 81 1 = 1 ∧ bits (doneWord d len eop err) 82 1 = err.toNat := by
  refine ⟨?_, ?_, ?_⟩
  · rw [doneWord, bits_setBits_other _ _ _ _ (by omega), bits_setBits_other _ _ _ _ (by omega), bits_setBits_same]
    cases eop <;> rfl
  · rw [doneWord, bits_setBits_other _ _ _ _ (by omega), bits_setBits_same]
    rfl
  · rw [doneWord, bits_setBits_same]
    cases err <;> rfl

theorem doneWord_low (d len : Nat) (eop err : Bool) : bits (doneWord d len eop err) 0 64 = bits d 0 64 ∧
    bits (doneWord d len eop err) 64 16 = len % 2 ^ 16 := by
  unfold doneWord
  refine ⟨?_, ?_⟩
  · rw [bits_setBits_other _ _ _ _ (by omega), bits_setBits_other _ _ _ _ (by omega), bits_setBits_other _ _ _ _ (by omega),
      bits_setBits_other _ _ _ _ (by omega)]
  · rw [bits_setBits_other _ _ _ _ (by omega), bits_setBits_other _ _ _ _ (by omega), bits_setBits_other _ _ _ _ (by omega),
      bits_setBits_same]

/-- A descriptor written back with its own length and EOP. -/
theorem doneWord_own (d : Nat) (err : Bool) : bits (doneWord d (bits d 64 16) (bits d 80 1 == 1) err) 0 81 = bits d 0 81 := by
  rw [doneWord, bits_setBits_other _ _ _ _ (by omega), bits_setBits_other _ _ _ _ (by omega), setBits_self, bits_flag, setBits_self]

/-! ## Queue pairs -/

theorem pair_setPair (s : State) (q : Nat) (x : QueuePair) : (s.setPair q x).pair q = x := by
  unfold State.pair State.setPair Tab.getD
  rw [tab_get?_set, if_pos rfl, Option.getD_some]

/-- NOTIFY leaves memory, and of its queue pair all but that a message waits. -/
theorem notify_keeps (s : State) (q : Nat) : (s.notify q).mem = s.mem ∧ ∃ w, (s.notify q).pair q = { s.pair q with waiting := w } := by
  unfold State.notify
  dsimp only
  split
  · next h =>
    generalize hx : State.sendChannel { s with freeCtr := s.freeCtr + 1 } _ _ _ = x
    have hm := (sendChannel_keeps { s with freeCtr := s.freeCtr + 1 } (bits (s.pair q).cfg 4 8 % 64)
      (bits (s.pair q).cfg 4 8 / 64 % 4) ⟨(Config.deviceSender s.freeCtr).val, Config.deviceMessage s.freeCtr⟩).1
    have hp := apart_sendChannel { s with freeCtr := s.freeCtr + 1 } (bits (s.pair q).cfg 4 8 % 64)
      (bits (s.pair q).cfg 4 8 / 64 % 4) ⟨(Config.deviceSender s.freeCtr).val, Config.deviceMessage s.freeCtr⟩
    rw [hx] at hm hp
    obtain ⟨u, b⟩ := x
    have hpairs : u.pairs = s.pairs := (congrArg State.pairs hp :)
    cases b with
    | true => exact ⟨hm, true, pair_setPair _ _ _⟩
    | false => exact ⟨hm, (s.pair q).waiting, by dsimp only; rw [State.pair, hpairs, State.pair]⟩
  · exact ⟨rfl, (s.pair q).waiting, rfl⟩

/-- A descriptor written back, its queue pair advanced, and NOTIFY. -/
def State.ringDone (s : State) (q pa d len : Nat) (eop err : Bool) (x : QueuePair) : State :=
  ((s.doneDesc pa d len eop err).setPair q x).notify q

theorem ringDone_spec (s : State) (q pa d len : Nat) (eop err : Bool) (x : QueuePair) :
    (s.ringDone q pa d len eop err x).mem = (s.doneDesc pa d len eop err).mem ∧
      ∃ w, (s.ringDone q pa d len eop err x).pair q = { x with waiting := w } := by
  obtain ⟨hm, w, hw⟩ := notify_keeps ((s.doneDesc pa d len eop err).setPair q x) q
  exact ⟨hm, w, by rw [State.ringDone, hw, pair_setPair]⟩

/-! ## Frames sent -/

/-- A frame's bytes fed to a queue pair leave its ring and its head; the frame leaves with its FCS at EOP, unless it is refused. -/
theorem feed_spec (x : QueuePair) (l : List Byte) (eop bad : Bool) :
    (x.feed l eop bad).txHead = x.txHead ∧ (x.feed l eop bad).ring = x.ring ∧
      (x.feed l eop bad).sent = if eop = true ∧ (x.txBad || bad) = false then x.sent ++ [withFcs (x.txPart ++ l)] else x.sent := by
  unfold QueuePair.feed QueuePair.ring
  cases eop
  · exact ⟨rfl, rfl, rfl⟩
  · refine ⟨rfl, rfl, ?_⟩
    cases (x.txBad || bad) <;> rfl

/-- What a transmit descriptor's buffer holds, where the descriptor is sound. -/
def State.txRead (s s1 : State) (d : Nat) : State × Option Nat :=
  if s.descOk d then s1.readBytes (bits d 0 52) (bits d 64 16) 0 else (s1, none)

/-- The descriptor's bytes cannot be sent. -/
def QueuePair.txRefuses (x : QueuePair) (d : Nat) (y : Option Nat) : Bool :=
  y.isNone || decide (maxFrame < x.txPart.length + bits d 64 16)

theorem exec_ethTxComplete {s s1 : State} {q d : Nat} (hen : (s.pair q).enabled = true)
    (hsp : (s.pair q).span (s.pair q).txHead (s.pair q).txTail ≠ 0)
    (hd : s.readDesc ((s.pair q).descAt (s.pair q).txBase (s.pair q).txHead) = (s1, some d))
    (hgo : s.descOk d = false ∨ s.hasEop (s.pair q) ((s.pair q).span (s.pair q).txHead (s.pair q).txTail) (s.pair q).txHead = true) :
    let x := s.pair q
    let y := s.txRead s1 d
    let bad := x.txRefuses d y.2
    let z := x.feed (if bad then [] else bytesOfNat (bits d 64 16) (y.2.getD 0)) (bits d 80 1 == 1) bad
    exec (.ethTxComplete q) s = .next (y.1.ringDone q (x.descAt x.txBase x.txHead) d (bits d 64 16) (bits d 80 1 == 1) bad
      { z with txHead := (z.txHead + 1) % z.ring }) := by
  intro x y bad z
  have hgo' : ((!!s.descOk d) && !s.hasEop (s.pair q) ((s.pair q).span (s.pair q).txHead (s.pair q).txTail) (s.pair q).txHead) = false := by
    rcases hgo with h | h <;> simp [h]
  have hstart : (!(s.pair q).enabled || (s.pair q).span (s.pair q).txHead (s.pair q).txTail == 0) = false := by simp [hen, hsp]
  have hy : (if (!s.descOk d) = true then (s1, none) else s1.readBytes (bits d 0 52) (bits d 64 16) 0) = y := by
    simp only [y, State.txRead]
    cases s.descOk d <;> rfl
  change execEthTxComplete q s = _
  rw [execEthTxComplete]
  simp only [hstart, hd, hgo', Bool.false_eq_true, if_false, Option.getD_some, hy]
  rfl

/-! ## Frames received -/

theorem fillRing_nil (x : QueuePair) (n i : Nat) (s : State) : State.fillRing x n i [] s = (s, [], [], 0) := by
  cases n <;> rfl

/-- A frame that its first descriptor takes whole. -/
theorem fillRing_one {x : QueuePair} {n i d : Nat} {l : List Byte} {s s1 : State} (hn : n ≠ 0) (hl : l ≠ [])
    (hd : s.readDesc (x.descAt x.rxBase i) = (s1, some d)) (hok : s1.descOk d = true) (hlen : l.length ≤ bits d 64 16) :
    State.fillRing x n i l s = (s1.writeRecord (bits d 0 52) l.length (natOfBytes l),
      [(x.descAt x.rxBase i, d, l.length)], [], 1) := by
  obtain ⟨n, rfl⟩ := Nat.exists_eq_succ_of_ne_zero hn
  rw [State.fillRing]
  simp only [if_neg hl, hd, Option.getD_some, hok, Option.isNone_some, Bool.not_true, Bool.or_self, Bool.false_eq_true, if_false,
    Nat.min_eq_right hlen, List.take_length, List.drop_length, fillRing_nil]

theorem exec_ethRxFrame {s s1 : State} {p q d : Nat} {x : QueuePair} {frame : List (BitVec 8)} (bad : Bool)
    (hlen : frame.length ≤ maxFrame) (hne : frame ≠ []) (hq : s.steer p frame = q) (hx : s.pair q = x) (hen : x.enabled = true)
    (hsp : x.span x.rxHead x.rxTail ≠ 0) (hd : s.readDesc (x.descAt x.rxBase x.rxHead) = (s1, some d)) (hok : s1.descOk d = true)
    (hfit : frame.length ≤ bits d 64 16) :
    exec (.ethRxFrame p frame bad) s = .next ((s1.writeRecord (bits d 0 52) frame.length (natOfBytes frame)).ringDone q
      (x.descAt x.rxBase x.rxHead) d frame.length true bad { x with rxHead := (x.rxHead + 1) % x.ring }) := by
  have hstart : (!x.enabled || x.span x.rxHead x.rxTail == 0) = false := by simp [hen, hsp]
  have hfill := fillRing_one hsp hne hd hok hfit
  change execEthRxFrame p frame bad s = _
  rw [execEthRxFrame]
  simp only [hq, hx, if_neg (Nat.not_lt.2 hlen), hstart, hfill, Bool.false_eq_true, if_false, if_true, bne_self_eq_false, Bool.or_false]
  rfl

/-! ## The parts of the obligation -/

theorem hostRead_done {s s1 : State} {pa n : Nat} {r : Option Nat} (own : Bool) (h : s.HostReaches pa n)
    (hr : s.readBytes (pa - s.host.hdmBase) n 0 = (s1, r)) : ∃ t, exec (.hostCxlMemAccess (.read own) pa n) s = .next t ∧
      t.host.reply = r.elim .poison .data ∧ t.mem.bytes = s1.mem.bytes ∧ t.gangs = s1.gangs ∧
      (own = true → NatSet.has t.mem.hostHalves ((pa - s.host.hdmBase) / 64) = true) := by
  refine ⟨_, exec_hostRead h own, ?_⟩
  rw [State.hostReads, hr]
  cases own with
  | false => exact ⟨rfl, rfl, rfl, nofun⟩
  | true =>
    refine ⟨rfl, rfl, rfl, fun _ => ?_⟩
    exact (natSet_has_add _ _ _).trans (by rw [beq_self_eq_true, Bool.or_true])

/-- A drive's DMA to another device is sent (R378). -/
theorem nvmeDma_sent {s : State} {d pa dev off : Nat} {wr : Bool} {data : List (BitVec 8)} (hw : (s.drive d).inWindow pa data.length)
    (hf : s.farRange wr pa data.length = some (dev, off)) (hroom : (s.link.requests.filter fun r => r.dev = dev).length < 4096)
    (hk : s.keySpent dev = false) :
    ∃ t r, exec (.nvmeDma d wr pa data) s = .next t ∧ t.drive d = { s.drive d with reply := .none } ∧ t.mem = s.mem ∧
      t.link.requests = s.link.requests ++ [r] ∧ r.dev = dev ∧ r.off = off ∧ r.src = .drive d := by
  have he := exec_nvmeDma_far hw hf
  rw [sendRemote_sends _ _ _ _ hroom hk] at he
  have hdr (u : State) : (u.countFlit dev).drives = u.drives := by unfold State.countFlit; dsimp only; split <;> rfl
  obtain ⟨hm, -, hl⟩ := countFlit_keeps { s with link := { s.link with
    requests := s.link.requests ++ [s.requestTo (4 * Config.numClusters) dev off
      (if wr then .write data.length (natOfBytes data) else .read data.length) (.drive d)]
    nextSeq := Tab.put s.link.nextSeq 0 dev ((Tab.getD s.link.nextSeq dev 0 + 1) % 2 ^ 32) } } dev
  exact ⟨_, _, he, drive_dmaEnds (hdr _) d .none, hm, congrArg Link.requests hl, rfl, rfl, rfl⟩

theorem nvmeDma_written {s : State} {d pa : Nat} {data : List (BitVec 8)} (hw : (s.drive d).inWindow pa data.length)
    (hp : s.plainRange pa data.length = true) (hq : s.mem.redq = []) :
    ∃ t, exec (.nvmeDma d true pa data) s = .next t ∧ t.drive d = { s.drive d with reply := .written } ∧
      BytesWritten s.mem.bytes t.mem.bytes pa data.length (natOfBytes data) := by
  obtain ⟨-, -, -, hd, -⟩ := (aside_writeRecord s pa data.length (natOfBytes data)).fields
  exact ⟨_, exec_nvmeDma_near true hw hp, drive_dmaEnds hd d .written, (writeRecord_written (noReds_nil hq _ _) _).bytes⟩

theorem nvmeDma_read {s s1 : State} {d pa : Nat} {data : List (BitVec 8)} {r : Option Nat}
    (hw : (s.drive d).inWindow pa data.length) (hp : s.plainRange pa data.length = true)
    (hr : s.readBytes pa data.length 0 = (s1, r)) :
    ∃ t, exec (.nvmeDma d false pa data) s = .next t ∧ t.drive d = { s.drive d with reply := r.elim .poison .data } ∧ t.mem = s1.mem := by
  have he := exec_nvmeDma_near false hw hp
  have hd := aside_readBytes s pa data.length 0
  rw [hr] at he hd
  obtain ⟨-, -, -, hdrives, -⟩ := hd.fields
  cases r with
  | none => exact ⟨_, he, drive_dmaEnds hdrives d .poison, rfl⟩
  | some v => exact ⟨_, he, drive_dmaEnds hdrives d (.data v), rfl⟩

theorem exec_ethTail {s u : State} {c : Commit} {tx : Bool} (h : HeadCommit s (regSpace + 0x200000 + if tx then 24 else 40) c u) :
    exec (if tx then .ethTxTail else .ethRxTail) s = .next (u.setPair c.index
      (if tx then { s.pair c.index with txTail := bits (c.dword 0) 0 16, waiting := false }
       else { s.pair c.index with rxTail := bits (c.dword 0) 0 16, waiting := false })) := by
  have hp : u.pair c.index = s.pair c.index := by rw [h.eq]; rfl
  have htail : s.takeTail (if tx then 24 else 40) = some (c.index, bits (c.dword 0) 0 16, u) := by
    rw [State.takeTail, h.take, Option.map_some]
  rw [← hp]
  cases tx with
  | false => exact congrArg Host.Outcome.next (by rw [show s.takeTail 40 = _ from htail]; rfl)
  | true => exact congrArg Host.Outcome.next (by rw [show s.takeTail 24 = _ from htail]; rfl)

/-- A transmit descriptor written back (R379, R380). -/
theorem ethTx_done {s s1 : State} {q d : Nat} {x : QueuePair} (hx : s.pair q = x) (hen : x.enabled = true)
    (hsp : x.span x.txHead x.txTail ≠ 0) (hd : s.readDesc (x.descAt x.txBase x.txHead) = (s1, some d))
    (hgo : s.descOk d = false ∨ s.hasEop x (x.span x.txHead x.txTail) x.txHead = true) {bad : Bool} {y : Option Nat}
    (hy : y = (s.txRead s1 d).2) (hbad : bad = x.txRefuses d y) :
    ∃ t, exec (.ethTxComplete q) s = .next t ∧ (t.pair q).txHead = (x.txHead + 1) % x.ring ∧
      bits (Mem.readN t.mem.bytes (x.descAt x.txBase x.txHead) 32) 81 1 = 1 ∧
      bits (Mem.readN t.mem.bytes (x.descAt x.txBase x.txHead) 32) 82 1 = bad.toNat ∧
      bits (Mem.readN t.mem.bytes (x.descAt x.txBase x.txHead) 32) 0 81 = bits d 0 81 ∧
      (t.pair q).sent = if bits d 80 1 = 1 ∧ (x.txBad || bad) = false then
        x.sent ++ [withFcs (x.txPart ++ if bad then [] else bytesOfNat (bits d 64 16) (y.getD 0))] else x.sent := by
  subst hx hy hbad
  refine ⟨_, exec_ethTxComplete hen hsp hd hgo, ?_⟩
  have haside : s.Aside (s.txRead s1 d).1 := by
    unfold State.txRead
    split
    · exact (aside_readDesc hd).trans (aside_readBytes _ _ _ _)
    · exact aside_readDesc hd
  have hreds : (s.txRead s1 d).1.NoReds ((s.pair q).descAt (s.pair q).txBase (s.pair q).txHead) 32 := by
    have h1 := noReds_readBytes (readDesc_some hd).2 (by decide)
    unfold State.txRead
    split
    · exact (aside_readBytes _ _ _ _).noRedsAt h1
    · exact h1
  have hplain := (haside.plainRange _ _).trans (readDesc_some hd).1
  have hw := doneDesc_written hplain hreds d (bits d 64 16) (bits d 80 1 == 1) ((s.pair q).txRefuses d (s.txRead s1 d).2)
  obtain ⟨-, hdone, herr⟩ := doneWord_flags d (bits d 64 16) (bits d 80 1 == 1) ((s.pair q).txRefuses d (s.txRead s1 d).2)
  obtain ⟨hhead, hring, hsent⟩ := feed_spec (s.pair q) (if (s.pair q).txRefuses d (s.txRead s1 d).2 then []
    else bytesOfNat (bits d 64 16) ((s.txRead s1 d).2.getD 0)) (bits d 80 1 == 1) ((s.pair q).txRefuses d (s.txRead s1 d).2)
  obtain ⟨hm, w, hp⟩ := ringDone_spec (s.txRead s1 d).1 q ((s.pair q).descAt (s.pair q).txBase (s.pair q).txHead) d (bits d 64 16)
    (bits d 80 1 == 1) ((s.pair q).txRefuses d (s.txRead s1 d).2) _
  rw [hm, hp, bits_written hw (by decide), bits_written hw (by decide), bits_written hw (by decide)]
  refine ⟨?_, hdone, herr, doneWord_own d _, ?_⟩
  · dsimp only
    rw [hhead, hring]
  · simp only [beq_iff_eq] at hsent
    exact hsent

/-- A frame received into the buffer of one descriptor (R379, R380). -/
theorem ethRx_done {s s1 : State} {p q d : Nat} {x : QueuePair} {frame : List (BitVec 8)} (bad : Bool)
    (hlen : frame.length ≤ maxFrame) (hne : frame ≠ []) (hq : s.steer p frame = q) (hx : s.pair q = x) (hen : x.enabled = true)
    (hsp : x.span x.rxHead x.rxTail ≠ 0) (hd : s.readDesc (x.descAt x.rxBase x.rxHead) = (s1, some d)) (hok : s1.descOk d = true)
    (hfit : frame.length ≤ bits d 64 16) (hreds : s.mem.redq = [])
    (hapart : bits d 0 52 + frame.length ≤ x.descAt x.rxBase x.rxHead ∨ x.descAt x.rxBase x.rxHead + 32 ≤ bits d 0 52) :
    ∃ t, exec (.ethRxFrame p frame bad) s = .next t ∧ (t.pair q).rxHead = (x.rxHead + 1) % x.ring ∧ (t.pair q).rxDrop = x.rxDrop ∧
      Mem.readBytes t.mem.bytes (bits d 0 52) frame.length = frame ∧
      bits (Mem.readN t.mem.bytes (x.descAt x.rxBase x.rxHead) 32) 0 64 = bits d 0 64 ∧
      bits (Mem.readN t.mem.bytes (x.descAt x.rxBase x.rxHead) 32) 64 16 = frame.length ∧
      bits (Mem.readN t.mem.bytes (x.descAt x.rxBase x.rxHead) 32) 80 3 = 3 + 4 * bad.toNat := by
  refine ⟨_, exec_ethRxFrame bad hlen hne hq hx hen hsp hd hok hfit, ?_⟩
  have h1 := aside_readDesc hd
  have hbuf := writeRecord_written (s := s1) (noReds_nil (h1.noReds hreds) (bits d 0 52) frame.length) (natOfBytes frame)
  have haside := h1.trans (aside_writeRecord s1 (bits d 0 52) frame.length (natOfBytes frame))
  have hw := doneDesc_written ((haside.plainRange _ _).trans (readDesc_some hd).1) (noReds_nil (haside.noReds hreds) _ 32)
    d frame.length true bad
  obtain ⟨heop, hdone, herr⟩ := doneWord_flags d frame.length true bad
  obtain ⟨hlow, hlength⟩ := doneWord_low d frame.length true bad
  obtain ⟨hm, w, hp⟩ := ringDone_spec (s1.writeRecord (bits d 0 52) frame.length (natOfBytes frame)) q (x.descAt x.rxBase x.rxHead) d
    frame.length true bad { x with rxHead := (x.rxHead + 1) % x.ring }
  rw [hm, hp, bits_written hw (by decide), bits_written hw (by decide), bits_written hw (by decide)]
  refine ⟨rfl, rfl, ?_, hlow, ?_, ?_⟩
  · refine Eq.trans ?_ (readBytes_of_written hbuf.bytes)
    refine List.map_congr_left fun i hi => ?_
    rw [hw.bytes, if_neg (by have := List.mem_range.1 hi; omega)]
  · rw [hlength, Nat.mod_eq_of_lt]
    exact Nat.lt_of_le_of_lt hlen (by decide)
  · rw [bits_three, heop, hdone, herr]
    rfl

/-! ## The obligation -/

/-- Settles O50: host accesses, drives and Ethernet rings. -/
theorem hostAndComplexComplete : Obligations.HostAndComplexComplete := by
  unfold Obligations.HostAndComplexComplete
  refine ⟨fun s op pa n x old own => ⟨exec_hostAccess_error op, fun ho hb hs => ?_⟩, fun s d vec pa wr data => ?_,
    fun s u c tx hc => exec_ethTail hc, fun s s1 q d => ?_, fun s s1 p d frame bad => ?_⟩
  · have hreach : s.HostReaches pa n := ⟨ho, hb, hs⟩
    refine ⟨fun s1 r hr => hostRead_done own hreach hr, fun s1 y hr => ?_, fun hq => ?_⟩
    · exact ⟨_, exec_hostRmw hreach hr old x, rfl, rfl⟩
    · exact ⟨_, exec_hostWrite hreach x, rfl, (hostWriteBytes_written (noReds_nil hq _ _) x).bytes,
        fun i hlo hhi => hostWriteBytes_clears hq _ _ _ hlo hhi⟩
  · refine ⟨fun hh hr => ?_, fun h => ?_, fun h => ?_, fun hw dev off hf hroom hk => nvmeDma_sent hw hf hroom hk,
      fun ⟨hw, hp⟩ hq => nvmeDma_written hw hp hq, fun ⟨hw, hp⟩ s1 r hr _ => nvmeDma_read hw hp hr⟩
    · obtain ⟨t, ht, hq, hd, hm⟩ := nvmeMsix_sent vec hh hr
      exact ⟨t, _, ht, hq, hd, hm⟩
    · exact ⟨_, _, nvmeMsix_held vec h, drive_setDrive _ _ _, rfl, rfl⟩
    · exact ⟨_, nvmeDma_refused h, drive_dmaEnds rfl d .error, rfl⟩
  · intro x pa hen hsp hd hgo len y bad part
    exact ethTx_done rfl hen hsp hd hgo (by simp only [y, State.txRead]; split <;> rfl) rfl
  · intro q x pa buf
    refine ⟨fun h => congrArg Host.Outcome.next (if_pos h), fun hlen h => ?_, fun hlen hen hsp hne hd hok hfit hreds hapart =>
      ethRx_done bad hlen hne rfl rfl hen hsp hd hok hfit hreds hapart⟩
    refine congrArg Host.Outcome.next ((if_neg (Nat.not_lt.2 hlen)).trans (if_pos ?_))
    rcases h with h | h
    · rw [show (s.pair (s.steer p frame)).enabled = false from h]
      rfl
    · rw [show (s.pair (s.steer p frame)).span (s.pair (s.steer p frame)).rxHead (s.pair (s.steer p frame)).rxTail = 0 from h]
      exact Bool.or_true _

end Sys2Proof.Machine
end

