-- ==== Sys2Proof/Proofs/LinkPorts.lean ====
section
/-! PROOFS. Flits received, and ports that lose a lane (R373, R374, R401). -/

namespace Sys2Proof.Machine

theorem stream_setStream (s : State) (i : Nat) (x : Stream) : (s.setStream i x).stream i = x := by
  unfold State.stream State.setStream Tab.getD
  rw [tab_get?_set, if_pos rfl, Option.getD_some]

/-- The port of a number. -/
def State.port (s : State) (p : Nat) : Port := Tab.getD s.link.ports p .fresh

/-- A port that is up is listed. -/
theorem port_listed {s : State} {p : Nat} (h : (s.port p).up = true) : Tab.get? s.link.ports p = some (s.port p) := by
  unfold State.port Tab.getD at h ⊢
  cases hp : Tab.get? s.link.ports p with
  | none => rw [hp] at h; cases h
  | some y => rfl

theorem getD_update {α : Type} {t : Tab α} {p : Nat} {y : α} (h : Tab.get? t p = some y) (f : α → α) (d : α) :
    Tab.getD (Tab.update t p f) p d = f y := by
  rw [Tab.getD, tab_get?_update, h, Option.map_some, if_pos rfl, Option.getD_some]

/-! ## Flits -/

/-- A request that a flit delivers. -/
def State.delivered (s : State) (src : Nat) (req : Option (Nat × Nat × RemoteOp × Nat)) : State :=
  match req with
  | some (dest, seq, op, off) => { s with link := { s.link with incoming := s.link.incoming ++ [(⟨src, dest, seq, op, off⟩ : Incoming)] } }
  | none => s

theorem delivered_spec (s : State) (src : Nat) (req : Option (Nat × Nat × RemoteOp × Nat)) :
    (s.delivered src req).trust = s.trust ∧ (s.delivered src req).link.incoming =
      s.link.incoming ++ (req.map fun r => (⟨src, r.1, r.2.1, r.2.2.1, r.2.2.2⟩ : Incoming)).toList := by
  cases req with
  | none => exact ⟨rfl, (List.append_nil _).symm⟩
  | some r => exact ⟨rfl, rfl⟩

theorem countReplay_spec {s : State} {p : Nat} (h : (s.port p).up = true) :
    (s.countReplay p).link.incoming = s.link.incoming ∧ (s.countReplay p).trust = s.trust ∧
      Tab.getD (s.countReplay p).link.ports p .fresh = { s.port p with crcErr := min 0xFFFF ((s.port p).crcErr + 1) } :=
  ⟨rfl, rfl, getD_update (port_listed h) (fun x => { x with crcErr := min 0xFFFF (x.crcErr + 1) }) _⟩

section
variable {s : State} {port : Nat} (hup : (s.port port).up = true)
include hup

theorem exec_flit_badCrc (src : Nat) (phase tagOk plain : Bool) (req : Option (Nat × Nat × RemoteOp × Nat)) :
    exec (.flitReceive port src phase false tagOk plain req) s = .next (s.countReplay port) := by
  unfold State.port at hup
  change execFlitReceive port src phase false tagOk plain req s = _
  simp only [execFlitReceive, hup, Bool.not_true, Bool.not_false, Bool.false_eq_true, if_false, if_true]

theorem exec_flit (src : Nat) (phase tagOk plain : Bool) (req : Option (Nat × Nat × RemoteOp × Nat)) {x : Stream} {ok fail : Bool}
    (hx : (s.stream (rxStream src)).receive s.trust.conf phase tagOk plain = (x, ok, fail)) :
    exec (.flitReceive port src phase true tagOk plain req) s = .next (
      let u := if plain then s else s.setStream (rxStream src) x
      if fail then u.countReplay port else if ok then u.delivered src req else u) := by
  unfold State.port at hup
  change execFlitReceive port src phase true tagOk plain req s = _
  simp only [execFlitReceive, hup, Bool.not_true, Bool.false_eq_true, if_false, hx]
  cases fail <;> cases req <;> cases ok <;> rfl

theorem flit_badCrc (src : Nat) (phase tagOk plain : Bool) (req : Option (Nat × Nat × RemoteOp × Nat)) :
    ∃ t, exec (.flitReceive port src phase false tagOk plain req) s = .next t ∧ (t.link.incoming = s.link.incoming ∧
      Tab.getD t.link.ports port .fresh = { s.port port with crcErr := min 0xFFFF ((s.port port).crcErr + 1) }) ∧
      t.trust = s.trust := by
  obtain ⟨hi, ht, hp⟩ := countReplay_spec hup
  exact ⟨_, exec_flit_badCrc hup src phase tagOk plain req, ⟨hi, hp⟩, ht⟩

/-- A flit outside a stream, where none is needed. -/
theorem flit_plain (src : Nat) (phase tagOk : Bool) (req : Option (Nat × Nat × RemoteOp × Nat))
    (ho : (s.stream (rxStream src)).state = .off) (hc : s.trust.conf = false) :
    ∃ t, exec (.flitReceive port src phase true tagOk true req) s = .next t ∧ t.link.incoming =
      s.link.incoming ++ (req.map fun r => (⟨src, r.1, r.2.1, r.2.2.1, r.2.2.2⟩ : Incoming)).toList ∧ t.trust = s.trust := by
  have hx : (s.stream (rxStream src)).receive s.trust.conf phase tagOk true = (s.stream (rxStream src), true, false) := by
    rw [Stream.receive, if_pos rfl, ho, hc]
    rfl
  obtain ⟨ht, hl⟩ := delivered_spec s src req
  exact ⟨_, exec_flit hup src phase tagOk true req hx, hl, ht⟩

/-- A flit that its stream takes. -/
theorem flit_delivers (src : Nat) {phase tagOk : Bool} (req : Option (Nat × Nat × RemoteOp × Nat)) {x : Stream}
    (hx : (s.stream (rxStream src)).receive s.trust.conf phase tagOk false = (x, true, false)) :
    ∃ t, exec (.flitReceive port src phase true tagOk false req) s = .next t ∧ t.link.incoming =
      s.link.incoming ++ (req.map fun r => (⟨src, r.1, r.2.1, r.2.2.1, r.2.2.2⟩ : Incoming)).toList ∧
      t.stream (rxStream src) = x := by
  obtain ⟨ht, hl⟩ := delivered_spec (s.setStream (rxStream src) x) src req
  refine ⟨_, exec_flit hup src phase tagOk false req hx, hl, ?_⟩
  change ((s.setStream (rxStream src) x).delivered src req).stream (rxStream src) = x
  rw [State.stream, ht]
  exact stream_setStream s _ x

/-- A flit whose tag fails. -/
theorem flit_fails (src : Nat) {phase tagOk : Bool} (req : Option (Nat × Nat × RemoteOp × Nat)) {x : Stream}
    (hx : (s.stream (rxStream src)).receive s.trust.conf phase tagOk false = (x, false, true)) :
    ∃ t, exec (.flitReceive port src phase true tagOk false req) s = .next t ∧ (t.link.incoming = s.link.incoming ∧
      Tab.getD t.link.ports port .fresh = { s.port port with crcErr := min 0xFFFF ((s.port port).crcErr + 1) }) ∧
      t.stream (rxStream src) = x := by
  obtain ⟨hi, -, hp⟩ := countReplay_spec (s := s.setStream (rxStream src) x) hup
  exact ⟨_, exec_flit hup src phase tagOk false req hx, ⟨hi, hp⟩, stream_setStream s _ x⟩

end

/-! ## Streams that receive (R401) -/

section
variable {x : Stream} (hr : x.state = .run)
include hr

theorem receive_current (conf : Bool) :
    x.receive conf x.phase true false = ({ x with used := x.used + 1, tagFails := 0 }, true, false) := by
  rw [Stream.receive, hr, beq_self_eq_true]
  rfl

theorem receive_next {phase : Bool} (hp : phase ≠ x.phase) {k : BitVec 256} {salt : W32} (hn : x.next = some (k, salt))
    (conf : Bool) : x.receive conf phase true false = ({ x with
      state := .run, cur := k, salt := salt, next := none, used := 1, phase := !x.phase, tagFails := 0, low := false }, true, false) := by
  rw [Stream.receive, hr, beq_false_of_ne hp, Stream.switch, hn]
  rfl

theorem receive_badTag (conf phase : Bool) :
    x.receive conf phase false false = ({ x with tagFails := x.tagFails + 1 }, false, true) := by
  rw [Stream.receive, hr]
  rfl

end

/-! ## Ports -/

/-- No key of a table stands behind a smaller one's place. -/
theorem tab_getD_rest {α : Type} {k : Nat} {v : α} {t : Tab α} (hwf : Tab.wf ((k, v) :: t) = true) (d : α) : Tab.getD t k d = d := by
  have hlt := (List.pairwise_cons.1 (of_decide_eq_true hwf)).1
  rw [Tab.getD, Tab.get?, List.find?_eq_none.2 fun c hc => ?_]
  · rfl
  · have := hlt c hc
    rw [beq_iff_eq]
    omega

/-- A mask table without some bits, as a port going down leaves it. -/
theorem getD_masked {t : Tab (BitVec 16)} (hwf : Tab.wf t = true) (m : BitVec 16) (d : Nat) :
    Tab.getD ((t.map fun e => (e.1, e.2 &&& m)).filter fun e => e.2 != 0) d 0 = Tab.getD t d 0 &&& m := by
  induction t with
  | nil => simp [Tab.getD, Tab.get?]
  | cons e t ih =>
    obtain ⟨k, v⟩ := e
    have hrest : Tab.wf t = true := decide_eq_true (List.pairwise_cons.1 (of_decide_eq_true hwf)).2
    have hcons (u : Tab (BitVec 16)) (w : BitVec 16) : Tab.getD ((k, w) :: u) d 0 = if k = d then w else Tab.getD u d 0 := by
      unfold Tab.getD Tab.get?
      rw [List.find?_cons]
      by_cases hk : k = d
      · simp [hk]
      · rw [beq_false_of_ne hk, if_neg hk]
    rw [List.map_cons, List.filter_cons, hcons]
    by_cases hk : k = d
    · subst hk
      rw [if_pos rfl]
      by_cases hv : v &&& m = 0
      · rw [if_neg (by simp [hv]), ih hrest, tab_getD_rest hwf, hv]
        exact BitVec.zero_and
      · rw [if_pos (by simpa using hv), hcons, if_pos rfl]
    · rw [if_neg hk]
      split
      · rw [hcons, if_neg hk, ih hrest]
      · exact ih hrest

/-- A port that has lost a lane, after its entry. -/
def State.lanesLeft (s : State) (p : Nat) (x : Port) : State :=
  { s with link := { s.link with ports := Tab.set s.link.ports p x } }

theorem exec_laneDrop {s : State} {p : Nat} (hup : (s.port p).up = true) : exec (.laneDrop p) s = .next (
    let u := s.logError .laneDrop 4 p 0 1 0
    if (s.port p).lanes ≤ 2 then u.portDown p
    else u.lanesLeft p { s.port p with lanes := if 4 < (s.port p).lanes then 4 else 2 }) := by
  refine congrArg Host.Outcome.next (if_neg ?_)
  rw [show (Tab.getD s.link.ports p .fresh).up = true from hup]
  exact Bool.false_ne_true

/-- A port and its bit of every mask gone, before the entry. -/
def State.portCut (s : State) (p : Nat) : State :=
  let clear (t : Tab (BitVec 16)) : Tab (BitVec 16) :=
    (t.map fun e => (e.1, e.2 &&& ~~~(BitVec.twoPow 16 p))).filter fun e => e.2 != 0
  { s with link := { s.link with
      ports := Tab.update s.link.ports p fun x => { x with lanes := 0, up := false }
      droute := clear s.link.droute, mcroute := clear s.link.mcroute } }

theorem link_logError (s : State) (kind : LogKind) (unit index addr count asid : Nat) :
    (s.logError kind unit index addr count asid).link = s.link :=
  (congrArg State.link (apart_logError s kind unit index addr count asid) :)

theorem portDown_spec {s : State} {p : Nat} (hup : (s.port p).up = true) (hd : Tab.wf s.link.droute = true)
    (hm : Tab.wf s.link.mcroute = true) :
    Logged s (s.portDown p) .portDown 4 p 0 1 0 ∧
      Tab.getD (s.portDown p).link.ports p .fresh = { s.port p with lanes := 0, up := false } ∧
      (∀ d, Tab.getD (s.portDown p).link.droute d 0 = Tab.getD s.link.droute d 0 &&& ~~~(BitVec.twoPow 16 p)) ∧
      (∀ d, Tab.getD (s.portDown p).link.mcroute d 0 = Tab.getD s.link.mcroute d 0 &&& ~~~(BitVec.twoPow 16 p)) ∧
      s.Still (s.portDown p) := by
  have heq : s.portDown p = (s.portCut p).logError .portDown 4 p 0 1 0 := rfl
  rw [heq, link_logError]
  refine ⟨(logError_logged (s.portCut p) _ _ _ _ _ _).before rfl rfl rfl, getD_update (port_listed hup) (fun x => { x with lanes := 0, up := false }) _, fun d => getD_masked hd _ d,
    fun d => getD_masked hm _ d, ?_⟩
  exact still_pre (still_logError (s.portCut p) _ _ _ _ _ _) rfl rfl rfl rfl

theorem lanesLeft_keeps (s : State) (p : Nat) (x : Port) : Tab.getD (s.lanesLeft p x).link.ports p .fresh = x ∧
    (s.lanesLeft p x).link.droute = s.link.droute ∧ (s.lanesLeft p x).link.mcroute = s.link.mcroute ∧ s.Still (s.lanesLeft p x) := by
  refine ⟨?_, rfl, rfl, still_same rfl rfl rfl rfl⟩
  rw [State.lanesLeft, Tab.getD, tab_get?_set, if_pos rfl, Option.getD_some]

theorem lanesLeft_spec {s u : State} {p : Nat} (hl : u.link = s.link) (hlog : Logged s u .laneDrop 4 p 0 1 0) (hs : s.Still u)
    (x : Port) : Tab.getD (u.lanesLeft p x).link.ports p .fresh = x ∧ Logged s (u.lanesLeft p x) .laneDrop 4 p 0 1 0 ∧
      (u.lanesLeft p x).link.droute = s.link.droute ∧ (u.lanesLeft p x).link.mcroute = s.link.mcroute ∧ s.Still (u.lanesLeft p x) := by
  obtain ⟨hp, hd, hm, hstill⟩ := lanesLeft_keeps u p x
  exact ⟨hp, hlog.after rfl rfl, hd.trans (by rw [hl]), hm.trans (by rw [hl]), hs.trans hstill⟩

/-- A port that loses a lane and has more than two (R373). -/
theorem laneDrop_retrains {s : State} {p : Nat} (hup : (s.port p).up = true) (h2 : 2 < (s.port p).lanes) :
    ∃ t, exec (.laneDrop p) s = .next t ∧
      Tab.getD t.link.ports p .fresh = { s.port p with lanes := if 4 < (s.port p).lanes then 4 else 2 } ∧
      Logged s t .laneDrop 4 p 0 1 0 ∧ t.link.droute = s.link.droute ∧ t.link.mcroute = s.link.mcroute ∧ s.Still t :=
  ⟨_, (exec_laneDrop hup).trans (congrArg Host.Outcome.next (if_neg (Nat.not_le.2 h2))),
    lanesLeft_spec (link_logError _ _ _ _ _ _ _) (logError_logged _ _ _ _ _ _ _) (still_logError _ _ _ _ _ _ _) _⟩

/-- A port that loses one of two lanes (R374). -/
theorem laneDrop_downs {s : State} {p : Nat} (hup : (s.port p).up = true) (h2 : (s.port p).lanes ≤ 2)
    (hd : Tab.wf s.link.droute = true) (hm : Tab.wf s.link.mcroute = true) :
    ∃ (t u : State), exec (.laneDrop p) s = .next t ∧ Logged s u .laneDrop 4 p 0 1 0 ∧ Logged u t .portDown 4 p 0 1 0 ∧
      Tab.getD t.link.ports p .fresh = { s.port p with lanes := 0, up := false } ∧
      (∀ d, Tab.getD t.link.droute d 0 = Tab.getD s.link.droute d 0 &&& ~~~(BitVec.twoPow 16 p)) ∧
      (∀ d, Tab.getD t.link.mcroute d 0 = Tab.getD s.link.mcroute d 0 &&& ~~~(BitVec.twoPow 16 p)) ∧ s.Still t := by
  obtain ⟨u, hu⟩ : ∃ u, u = s.logError .laneDrop 4 p 0 1 0 := ⟨_, rfl⟩
  have hlink : u.link = s.link := by rw [hu, link_logError]
  have hport : u.port p = s.port p := by rw [State.port, hlink, State.port]
  obtain ⟨hlog, hp, hdr, hmr, hstill⟩ := portDown_spec (s := u) (p := p) (by rw [hport]; exact hup)
    (by rw [hlink]; exact hd) (by rw [hlink]; exact hm)
  rw [hlink] at hdr hmr
  rw [hport] at hp
  refine ⟨u.portDown p, u, (exec_laneDrop hup).trans (congrArg Host.Outcome.next ?_), ?_, hlog, hp, hdr, hmr, ?_⟩
  · rw [hu]; exact if_pos h2
  · rw [hu]; exact logError_logged s .laneDrop 4 p 0 1 0
  · rw [hu] at hstill ⊢; exact (still_logError s .laneDrop 4 p 0 1 0).trans hstill

end Sys2Proof.Machine
end

