-- ==== Sys2Proof/Proofs/RemoteRequests.lean ====
section
/-! PROOFS. Requests of other devices, served once (R374 to R376, R402), and the requests of this one: their answers, their
retransmission and their failure (R375 to R377). -/

namespace Sys2Proof.Machine

/-! ## Requests received -/

/-- A flit that is counted changes its stream alone (R401). -/
theorem countFlit_eq (s : State) (dev : Nat) : s.countFlit dev = { s with trust := (s.countFlit dev).trust } := by
  unfold State.countFlit
  dsimp only
  split <;> rfl

theorem trust_logError (s : State) (kind : LogKind) (unit index addr count asid : Nat) :
    (s.logError kind unit index addr count asid).trust = s.trust :=
  (congrArg State.trust (apart_logError s kind unit index addr count asid) :)

theorem trust_remoteRed (s : State) (pa op : Nat) (t : Ty) (b : Nat) : (s.remoteRed pa op t b).trust = s.trust := by
  obtain ⟨-, -, -, -, ht, -⟩ := (aside_drainRed s (.phys (lineOf pa))).fields
  have h : ((s.drainRed (.phys (lineOf pa))).applyRed pa op t b 0).1.trust = s.trust :=
    (congrArg State.trust (apart_applyRed (s.drainRed (.phys (lineOf pa))) pa op t b 0) :).trans ht
  unfold State.remoteRed
  dsimp only
  split
  · next e => rw [e] at h; rw [trust_logError]; exact h
  · next e => rw [e] at h; exact h

theorem trust_remoteRmw (s : State) (pa n : Nat) (new : Nat → Option Nat) : (s.remoteRmw pa n new).1.trust = s.trust := by
  obtain ⟨-, -, -, -, ht, -⟩ := (aside_agentRead s pa n 0).fields
  unfold State.remoteRmw
  split
  · next e => rw [e] at ht; exact ht
  · next e =>
    rw [e] at ht
    dsimp only
    split
    · exact (congrArg State.trust (apart_homeWrite _ _ _ _) :).trans ht
    · exact ht

/-- An operation applied for another device changes no stream. -/
theorem trust_applyRemote (s : State) (src pa : Nat) (op : RemoteOp) : (s.applyRemote src pa op).1.trust = s.trust := by
  unfold State.applyRemote
  cases op with
  | read n =>
    obtain ⟨-, -, -, -, ht, -⟩ := (aside_readBytes s pa n 0).fields
    dsimp only
    split <;> next e => rw [e] at ht; exact ht
  | write n x =>
    obtain ⟨-, -, -, -, ht, -⟩ := (aside_writeRecord s pa n x).fields
    dsimp only
    split <;> exact ht
  | atom o t b => exact trust_remoteRmw _ _ _ _
  | cas t b c => exact trust_remoteRmw _ _ _ _
  | red o t b => exact trust_remoteRed _ _ _ _ _
  | reduce o t b core u epoch chunk =>
    dsimp only
    split
    · rfl
    · exact trust_remoteRed _ _ _ _ _
  | poison n =>
    obtain ⟨-, -, -, -, ht, -⟩ := (aside_drainRed s (.phys (lineOf pa))).fields
    exact (congrArg State.trust (apart_homeWrite _ _ _ _) :).trans ht

theorem answer_spec {s : State} {x : Incoming} (h : s.streamDown x.src = false) (a : Answer) :
    (s.answer x a).link.incoming = s.link.incoming ∧ (s.answer x a).mem = s.mem ∧ (s.answer x a).gangs = s.gangs ∧
      (s.answer x a).link.applied = s.link.applied ∧ (x.dest, x.src, x.seq, a.code) ∈ (s.answer x a).link.answers := by
  rw [State.answer, if_neg (by rw [h]; exact Bool.false_ne_true), countFlit_eq]
  exact ⟨rfl, rfl, rfl, rfl, List.mem_append_right _ (List.mem_singleton_self _)⟩

theorem noteApplied_has (l : NatSet) (n : Nat) : NatSet.has (noteApplied l n) n = true := by
  have hadd : NatSet.has (NatSet.add l n) n = true := by rw [natSet_has_add, beq_self_eq_true, Bool.or_true]
  unfold NatSet.has at hadd ⊢
  rw [List.contains_eq_mem, decide_eq_true_eq] at hadd ⊢
  exact List.mem_filter.2 ⟨hadd, by rw [Nat.add_sub_cancel_left]; decide⟩

/-- The state without a request received. -/
def State.received (s : State) (i : Nat) : State := { s with link := { s.link with incoming := s.link.incoming.eraseIdx i } }

/-- A request served: its operation applied, and its number noted. -/
def State.applied (s : State) (x : Incoming) (i : Nat) : State :=
  let u := ((s.received i).applyRemote x.src x.off x.op).1
  { u with link := { u.link with
    applied := Tab.set u.link.applied x.stream (noteApplied (Tab.getD u.link.applied x.stream []) x.seq) } }

section
variable {s : State} {i : Nat} {x : Incoming} (hi : s.link.incoming[i]? = some x) (hb : x.behind (s.link.incoming.take i) = false)
  (hn : s.named? x.dest = true) (hr : s.refusesUse x = false)
include hi hb

theorem exec_remoteRequest_muted (hm : s.muted x.src = true) : exec (.remoteRequest i) s = .next s := by
  change execRemoteRequest i s = _
  rw [execRemoteRequest]
  simp only [hi, hb, hm, Bool.or_true, if_true]

include hn hr

theorem exec_remoteRequest (hm : s.muted x.src = false) : exec (.remoteRequest i) s = .next (
    if NatSet.has (Tab.getD s.link.applied x.stream []) x.seq then (s.received i).countFlit x.src
    else if s.exports x.off (remoteSize x.op) = false then (s.received i).answer x .error
    else (s.applied x i).answer x ((s.received i).applyRemote x.src x.off x.op).2) := by
  change execRemoteRequest i s = _
  rw [execRemoteRequest]
  simp only [hi, hb, hm, hn, hr, Bool.or_false, Bool.not_true, Bool.false_eq_true, if_false, Bool.not_eq_true']
  rfl

/-- A request served (R374, R376). -/
theorem remoteRequest_serves (hm : s.muted x.src = false) (hd : s.streamDown x.src = false)
    (ho : NatSet.has (Tab.getD s.link.applied x.stream []) x.seq = false) (he : s.exports x.off (remoteSize x.op) = true) {u : State}
    {a : Answer} (ha : (s.received i).applyRemote x.src x.off x.op = (u, a)) :
    ∃ t, exec (.remoteRequest i) s = .next t ∧ t.mem = u.mem ∧ t.gangs = u.gangs ∧ t.link.incoming = u.link.incoming ∧
      (x.dest, x.src, x.seq, a.code) ∈ t.link.answers ∧ NatSet.has (Tab.getD t.link.applied x.stream []) x.seq = true := by
  have hx := exec_remoteRequest hi hb hn hr hm
  rw [if_neg (by rw [ho]; exact Bool.false_ne_true), if_neg (by rw [he]; exact Bool.true_eq_false.mp), ha] at hx
  have hu : u.trust = s.trust := by
    have h := trust_applyRemote (s.received i) x.src x.off x.op
    rw [ha] at h
    exact h
  have hs : s.applied x i = { u with link := { u.link with
      applied := Tab.set u.link.applied x.stream (noteApplied (Tab.getD u.link.applied x.stream []) x.seq) } } := by
    rw [State.applied, ha]
  have hdown : (s.applied x i).streamDown x.src = false := by
    rw [hs, State.streamDown]
    dsimp only
    rw [hu]
    exact hd
  obtain ⟨h1, h2, h3, h4, h5⟩ := answer_spec hdown a
  refine ⟨_, hx, h2.trans (by rw [hs]), h3.trans (by rw [hs]), h1.trans (by rw [hs]), h5, ?_⟩
  rw [h4, hs, Tab.getD, tab_get?_set, if_pos rfl, Option.getD_some]
  exact noteApplied_has _ _

end

/-- A write applied for another device (R374, R405). -/
theorem applyRemote_write {s : State} (hq : s.mem.redq = []) (src pa n v : Nat) :
    (s.applyRemote src pa (.write n v)).2 = .ok 0 ∧ (s.applyRemote src pa (.write n v)).1.link = s.link ∧
      BytesWritten s.mem.bytes (s.applyRemote src pa (.write n v)).1.mem.bytes pa n v := by
  obtain ⟨hl, -⟩ := (aside_writeRecord s pa n v).fields
  have hw := (writeRecord_written (noReds_nil hq pa n) v).bytes
  unfold State.applyRemote
  dsimp only
  split <;> exact ⟨rfl, hl, hw⟩

/-! ## Requests of this device -/

theorem request?_some {s : State} {dev seq : Nat} {r : RemoteReq} (h : s.request? dev seq = some r) : r.dev = dev ∧ r.seq = seq := by
  simpa using List.find?_some h

/-- The requests with one changed in what names neither it nor its device. -/
theorem request?_map {s t : State} {dev seq : Nat} {r : RemoteReq} (h : s.request? dev seq = some r) {f : RemoteReq → RemoteReq}
    (hf : ∀ x, (f x).dev = x.dev ∧ (f x).seq = x.seq)
    (ht : t.link.requests = s.link.requests.map fun x => if x.dev = dev ∧ x.seq = seq then f x else x) :
    t.request? dev seq = some (f r) := by
  have hcomp : (fun r : RemoteReq => decide (r.dev = dev ∧ r.seq = seq)) ∘ (fun x => if x.dev = dev ∧ x.seq = seq then f x else x) =
      fun r => decide (r.dev = dev ∧ r.seq = seq) := by
    funext x
    obtain ⟨hd, hs⟩ := hf x
    rw [Function.comp]
    split
    · rw [hd, hs]
    · rfl
  rw [State.request?, ht, List.find?_map, hcomp]
  rw [State.request?] at h
  rw [h, Option.map_some, if_pos (request?_some (s := s) h)]

theorem pushDones_nil {s : State} (h : s.dist.dones = []) : s.pushDones = s := by
  rw [State.pushDones, h, List.foldl_nil, ← h]

/-- The state without a request of this device. -/
def State.unasked (s : State) (dev seq : Nat) : State :=
  { s with link := { s.link with requests := s.link.requests.filter fun x => !(x.dev == dev && x.seq == seq) } }

theorem answered_eq {s : State} {r : RemoteReq} {status data : Nat}
    (h : ((s.unasked r.dev r.seq).answerTo r status data).dist.dones = []) :
    s.answered r status data = (s.unasked r.dev r.seq).answerTo r status data := pushDones_nil h

theorem exec_remoteAck_last {s : State} {dev seq : Nat} {r : RemoteReq} (hr : s.request? dev seq = some r) (hu : s.unsent r = false)
    {data : Nat} (hl : dev < 0xF00 ∨ ∀ m ∈ r.left, m = data) :
    exec (.remoteAck dev seq 0 data) s = .next (s.answered r 0 data) := by
  have hgo : ¬ (0xF00 ≤ dev ∧ True ∧ r.left.filter (· ≠ data) ≠ []) := by
    rintro ⟨hd, -, hne⟩
    refine hne (List.filter_eq_nil_iff.2 fun m hm => ?_)
    simpa using hl.resolve_left (by omega) m hm
  change execRemoteAck dev seq 0 data s = _
  rw [execRemoteAck]
  simp only [hr, hu, Bool.false_eq_true, if_false]
  rw [if_neg hgo]

theorem exec_remoteAck_group {s : State} {dev seq : Nat} {r : RemoteReq} (hr : s.request? dev seq = some r) (hu : s.unsent r = false)
    {data : Nat} (hd : 0xF00 ≤ dev) (hl : ∃ m ∈ r.left, m ≠ data) :
    exec (.remoteAck dev seq 0 data) s = .next { s with link := { s.link with requests := s.link.requests.map fun (x : RemoteReq) =>
      if x.dev = dev ∧ x.seq = seq then { x with left := r.left.filter (· ≠ data) } else x } } := by
  have hgo : 0xF00 ≤ dev ∧ True ∧ r.left.filter (· ≠ data) ≠ [] := by
    obtain ⟨m, hm, hne⟩ := hl
    exact ⟨hd, trivial, List.ne_nil_of_mem (List.mem_filter.2 ⟨hm, by simpa using hne⟩)⟩
  change execRemoteAck dev seq 0 data s = _
  rw [execRemoteAck]
  simp only [hr, hu, Bool.false_eq_true, if_false]
  rw [if_pos hgo]

theorem answered_store {s : State} {r : RemoteReq} (hd : s.dist.dones = []) {tag : Nat × Nat × Nat} {l e : Nat} (data : Nat)
    (hs : r.src = .store tag l e) : s.answered r 0 data = s.unasked r.dev r.seq := by
  have ha : (s.unasked r.dev r.seq).answerTo r 0 data = s.unasked r.dev r.seq := by
    unfold State.answerTo
    rw [hs]
    rfl
  rw [answered_eq (by rw [ha]; exact hd), ha]

theorem storeFailed_dones (s : State) (pa : Nat) (tag : Nat × Nat × Nat) :
    (s.storeFailed pa tag).dist.dones = s.dist.dones ∧ (s.storeFailed pa tag).link = s.link := by
  have h (core asid : Nat) (f : Gang → Gang) :
      ((s.logError .remoteStore 2 core pa 1 asid).mapContexts f).dist.dones = s.dist.dones ∧
        ((s.logError .remoteStore 2 core pa 1 asid).mapContexts f).link = s.link := by
    have hd := dist_logError s .remoteStore 2 core pa 1 asid
    have hl := link_logError s .remoteStore 2 core pa 1 asid
    generalize s.logError .remoteStore 2 core pa 1 asid = u at hd hl
    exact ⟨(congrArg Dist.dones hd :), hl⟩
  have hlaunch (u : State) (f : Launch → Launch) :
      (u.modLaunch tag.1 f).dist.dones = u.dist.dones ∧ (u.modLaunch tag.1 f).link = u.link := ⟨rfl, rfl⟩
  unfold State.storeFailed
  dsimp only
  split
  · exact h _ _ _
  · rw [(hlaunch _ _).1, (hlaunch _ _).2]
    exact h _ _ _

theorem answered_storeFailed {s : State} {r : RemoteReq} (hd : s.dist.dones = []) {tag : Nat × Nat × Nat} {l e : Nat}
    (hs : r.src = .store tag l e) :
    s.answered r 1 0 = (s.unasked r.dev r.seq).storeFailed (2 ^ 51 + r.dev * 2 ^ 39 + r.off) tag := by
  have ha : (s.unasked r.dev r.seq).answerTo r 1 0 = (s.unasked r.dev r.seq).storeFailed (2 ^ 51 + r.dev * 2 ^ 39 + r.off) tag := by
    unfold State.answerTo
    rw [hs]
    rfl
  rw [answered_eq (by rw [ha, (storeFailed_dones _ _ _).1]; exact hd), ha]

/-- What a failed store leaves of every gang that has not ended (R377). -/
theorem storeFailed_gang {s : State} {k : Nat} {g : Gang} (pa : Nat) (tag : Nat × Nat × Nat) (hg : s.gang? k = some g)
    (hst : g.gstate ≠ .ended) : ∃ g', (s.storeFailed pa tag).gang? k = some g' ∧ g'.deaf = g.deaf ∧
      g'.failedStores = if g.tag = tag then g.failedStores + 1 else g.failedStores := by
  have hcount (core asid : Nat) : ∃ g', ((s.logError .remoteStore 2 core pa 1 asid).mapContexts fun h =>
      if h.tag == tag && h.gstate != .ended then { h with failedStores := h.failedStores + 1 } else h).gang? k = some g' ∧
        g'.deaf = g.deaf ∧ g'.failedStores = if g.tag = tag then g.failedStores + 1 else g.failedStores := by
    obtain ⟨h, hh, lat⟩ := latches_logError s .remoteStore 2 core pa 1 asid k g hg
    rw [gang?_mapContexts, hh, Option.map_some, lat.eq]
    refine ⟨_, rfl, ?_⟩
    have hcond : (({ g with epend := h.epend } : Gang).tag == tag && g.gstate != .ended) = true ↔ g.tag = tag := by
      rw [bne_iff_ne.2 hst, Bool.and_true, beq_iff_eq]
      rfl
    by_cases htag : g.tag = tag
    · rw [if_pos (hcond.2 htag), if_pos htag]
      exact ⟨rfl, rfl⟩
    · rw [if_neg (mt hcond.1 htag), if_neg htag]
      exact ⟨rfl, rfl⟩
  unfold State.storeFailed
  dsimp only
  split
  · exact hcount _ _
  · simp only [gang?_modLaunch]
    exact hcount _ _

theorem exec_remoteRetransmit {s : State} {dev seq : Nat} {r : RemoteReq} (hr : s.request? dev seq = some r)
    (ht : s.timersRun dev = true) (hc : r.sent + 20 * Config.cyclesPerUs ≤ s.clock) (hp : portsOf (s.routeMask dev) ≠ [])
    (hk : s.keySpent dev = false) :
    exec (.remoteRetransmit dev seq) s = .next (State.countFlit { s with link := { s.link with
      requests := s.link.requests.map fun (x : RemoteReq) =>
        if x.dev = dev ∧ x.seq = seq then { x with port := nextPort (s.routeMask dev) x.port, sent := s.clock } else x } } dev) := by
  have hgo : (s.timersRun dev && !s.keySpent dev && decide (r.sent + 20 * Config.cyclesPerUs ≤ s.clock) &&
      portsOf (s.routeMask dev) != []) = true := by
    rw [ht, hk, decide_eq_true hc, bne_iff_ne.2 hp]
    rfl
  change execRemoteRetransmit dev seq s = _
  rw [execRemoteRetransmit]
  simp only [hr, hgo, if_true]

theorem exec_remoteRequestFail {s : State} {dev seq : Nat} {r : RemoteReq} (hr : s.request? dev seq = some r)
    (ht : s.timersRun dev = true) (hc : r.first + 2000 * Config.cyclesPerUs ≤ s.clock) :
    exec (.remoteRequestFail dev seq) s = .next (s.answered r 1 0) := by
  change execRemoteRequestFail dev seq s = _
  rw [execRemoteRequestFail]
  simp only [hr, ht, decide_eq_true hc, Bool.and_self, if_true]

/-! ## The answer to a load -/

/-- The producers of a list given their values. -/
def Gang.giveAll (g : Gang) (l : List (Nat × Producer)) (data : Nat) : Gang :=
  l.foldl (fun (g : Gang) y => g.setProducer y.1 (y.2.answered data)) g

theorem pend_setProducer (g : Gang) (lane l : Nat) (q : Producer) : ((g.setProducer lane q).thread l).pend =
    if l = lane ∧ lane < g.threads.length then (g.thread l).pend.map fun x => if x.id = q.id then q else x else (g.thread l).pend := by
  rw [Gang.setProducer, Gang.thread_modSlice, Gang.thread_modThread]
  split
  · next h => rw [h.1]
  · rfl

theorem find?_put {l : List Producer} {id : Nat} {p q : Producer} (h : l.find? (fun x => x.id = id) = some p) (hq : q.id = id) :
    (l.map fun x => if x.id = q.id then q else x).find? (fun x => x.id = id) = some q := by
  have hcomp : (fun x : Producer => decide (x.id = id)) ∘ (fun x => if x.id = q.id then q else x) = fun x => decide (x.id = id) := by
    funext x
    rw [Function.comp]
    split
    · next hx => rw [hx]
    · rfl
  have hp : p.id = id := by simpa using List.find?_some h
  rw [List.find?_map, hcomp, h, Option.map_some, if_pos (hp.trans hq.symm)]

/-- The producer of a thread after a list has been answered, in which that thread's is always the same. -/
theorem giveAll_pend {g : Gang} {l id : Nat} {q p : Producer} {L : List (Nat × Producer)} (data : Nat) (hl : l < g.threads.length)
    (hL : ∀ y ∈ L, y.1 = l → y.2 = q) (hq : q.id = id) (hp : (g.thread l).pend.find? (fun x => x.id = id) = some p) :
    ((g.giveAll L data).thread l).pend.find? (fun x => x.id = id) = some (if L.any (fun y => y.1 == l) then q.answered data else p) := by
  induction L generalizing g p with
  | nil => exact hp
  | cons y L ih =>
    have hlen : l < (g.setProducer y.1 (y.2.answered data)).threads.length := by
      rw [Gang.setProducer, Gang.threads_modSlice, Gang.modThread, Gang.threads_setThread_length]
      exact hl
    have hrest := fun z hz => hL z (List.mem_cons_of_mem _ hz)
    have hstep := pend_setProducer g y.1 l (y.2.answered data)
    change (((g.setProducer y.1 (y.2.answered data)).giveAll L data).thread l).pend.find? _ = _
    by_cases hy : y.1 = l
    · rw [if_pos ⟨hy.symm, hy ▸ hl⟩] at hstep
      rw [ih hlen hrest (p := q.answered data) (by rw [hstep, hL y List.mem_cons_self hy]; exact find?_put hp hq)]
      simp [hy]
    · rw [if_neg fun h => hy h.1.symm] at hstep
      rw [ih hlen hrest (p := p) (by rw [hstep]; exact hp), List.any_cons, beq_false_of_ne hy, Bool.false_or]

section
variable {g : Gang} {l id : Nat} {q : Producer} (hw : l < g.width) (hp : (g.thread l).pend.find? (fun y => y.id = id) = some q)
  (hm : q.members.getLsbD l = true)
include hp

theorem producer_pend : g.producer l id = some q := by rw [Gang.producer, hp]

theorem pend_inRange : l < g.threads.length := by
  by_contra h
  rw [Gang.thread, List.getD_eq_default _ _ (Nat.not_lt.1 h)] at hp
  cases hp

theorem awaiting_same : ∀ y ∈ g.awaiting id, y.1 = l → y.2 = q := by
  intro y hy hyl
  obtain ⟨j, -, hj⟩ := List.mem_filterMap.1 hy
  obtain ⟨q', hq', rfl⟩ := Option.map_eq_some_iff.1 hj
  have hjl : j = l := hyl
  rw [hjl, producer_pend hp] at hq'
  exact (Option.some.inj (Option.filter_eq_some_iff.1 hq').1).symm

include hw hm

theorem awaiting_mem : (l, q) ∈ g.awaiting id :=
  List.mem_filterMap.2 ⟨l, List.mem_range.2 hw, by rw [producer_pend hp, Option.filter_some, if_pos hm, Option.map_some]⟩

end

theorem loadAnswered_ok {s : State} {k id va lv : Nat} {write : Bool} {g : Gang} (data : Nat) (hg : s.gang? k = some g)
    (hne : g.awaiting id ≠ []) (ha : ∀ y ∈ g.awaiting id, y.2.acq = none) :
    s.loadAnswered k id va lv write 0 data = s.modGang k fun g' => g'.giveAll (g.awaiting id) data := by
  unfold State.loadAnswered
  simp only [hg]
  generalize hL : g.awaiting id = L at hne ha ⊢
  cases L with
  | nil => exact absurd rfl hne
  | cons y L =>
    simp only [ha y List.mem_cons_self, if_true]
    rfl

/-- The answer to a load gives its producer the value (R375). -/
theorem answered_load {s : State} {r : RemoteReq} (hd : s.dist.dones = []) {k l j id : Nat} {va lv data : Nat} {g : Gang} {q : Producer}
    (hs : r.src = .load k j id va lv) (hg : s.gang? k = some g) (hw : l < g.width)
    (hp : (g.thread l).pend.find? (fun y => y.id = id) = some q) (hm : q.members.getLsbD l = true) (hload : q.isLoad = true)
    (ha : ∀ y ∈ g.awaiting id, y.2.acq = none) :
    ∃ g' q', (s.answered r 0 data).link.requests = (s.unasked r.dev r.seq).link.requests ∧ (s.answered r 0 data).mem = s.mem ∧
      (s.answered r 0 data).gang? k = some g' ∧ g'.producer l id = some q' ∧ q'.ready = true ∧
      q'.value = loadPattern q.ty (mergeBytes data q.fwd) := by
  have hmem := awaiting_mem hw hp hm
  have hans : (s.unasked r.dev r.seq).answerTo r 0 data = (s.unasked r.dev r.seq).modGang k fun g' =>
      g'.giveAll (g.awaiting id) data := by
    unfold State.answerTo
    rw [hs]
    exact loadAnswered_ok data hg (List.ne_nil_of_mem hmem) ha
  have hid : q.id = id := by simpa using List.find?_some hp
  have hpend := giveAll_pend data (pend_inRange hp) (awaiting_same hp) hid hp
  rw [if_pos (List.any_eq_true.2 ⟨_, hmem, beq_self_eq_true l⟩)] at hpend
  rw [answered_eq (by rw [hans]; exact hd), hans]
  refine ⟨g.giveAll (g.awaiting id) data, q.answered data, rfl, rfl, ?_, producer_pend hpend, rfl, if_pos hload⟩
  rw [State.gang?_modGang, if_pos rfl]
  exact congrArg (Option.map _) hg

/-! ## The obligation -/

/-- Settles O51: flits and ports, requests received and requests sent. -/
theorem linksCarryRequests : Obligations.LinksCarryRequests := by
  unfold Obligations.LinksCarryRequests
  refine ⟨fun s port src phase tagOk plain req hup => ⟨flit_badCrc hup _ _ _ _ _, fun hpl ho hc => ?_, fun hpl hr =>
      ⟨fun ht hp => ?_, fun ht hp k salt hn => ?_, fun ht => ?_⟩⟩,
    fun s p hup => ⟨fun h2 => laneDrop_retrains hup h2, fun h2 hd hm => laneDrop_downs hup h2 hd hm⟩,
    fun s i x hi hb hn hr => ⟨fun hm => exec_remoteRequest_muted hi hb hm, fun hm hd => ?_⟩,
    fun s dev seq data r hr hdones => ?_⟩
  · subst hpl
    exact flit_plain hup src phase tagOk req ho hc
  · subst hpl ht hp
    obtain ⟨t, he, hi, hs⟩ := flit_delivers hup src req (receive_current hr _)
    exact ⟨t, he, hi, hs⟩
  · subst hpl ht
    obtain ⟨t, he, hi, hs⟩ := flit_delivers hup src req (receive_next hr hp hn _)
    refine ⟨t, he, hi, ?_⟩
    rw [hs]
    exact ⟨rfl, rfl, rfl, (Bool.eq_not_of_ne hp).symm, rfl⟩
  · subst hpl ht
    exact flit_fails hup src req (receive_badTag hr _ _)
  · have hx := exec_remoteRequest hi hb hn hr hm
    refine ⟨fun ho => ?_, fun ho he => ?_, fun ho he => ⟨fun u a ha => ?_, fun n v hw hq => ?_⟩⟩
    · refine ⟨_, hx.trans (congrArg Host.Outcome.next (if_pos ho)), ?_⟩
      rw [countFlit_eq]
      exact ⟨rfl, rfl, rfl⟩
    · obtain ⟨h1, h2, h3, -, h5⟩ := answer_spec (s := s.received i) (x := x) hd .error
      exact ⟨_, hx.trans (congrArg Host.Outcome.next ((if_neg (by rw [ho]; exact Bool.false_ne_true)).trans (if_pos he))), h1, h2, h3, h5⟩
    · obtain ⟨t, ht, h1, h2, -, h3, h4⟩ := remoteRequest_serves hi hb hn hr hm hd ho he ha
      exact ⟨t, ht, h1, h2, h3, h4⟩
    · obtain ⟨ha, hl, hbytes⟩ := applyRemote_write (s := s.received i) hq x.src x.off n v
      obtain ⟨t, ht, h1, -, h2, h3, -⟩ := remoteRequest_serves (u := ((s.received i).applyRemote x.src x.off x.op).1) (a := .ok 0)
        hi hb hn hr hm hd ho he (Prod.ext rfl (by rw [hw]; exact ha))
      rw [hw] at h1 h2
      exact ⟨t, ht, h2.trans (congrArg Link.incoming hl), h1 ▸ hbytes, h3⟩
  · obtain ⟨rfl, rfl⟩ := request?_some hr
    refine ⟨fun hu hl tag l e hs => ?_, fun hu hd hl => ?_, fun hu hl k l j id va lv g q hs hg hw hp hm hload ha => ?_,
      fun ht hc hp hk => ?_, fun ht hc => exec_remoteRequestFail hr ht hc, fun tag l e hs => ?_⟩
    · rw [exec_remoteAck_last hr hu hl, answered_store hdones data hs]
      rfl
    · exact ⟨_, exec_remoteAck_group hr hu hd hl,
        request?_map hr (f := fun x => { x with left := r.left.filter (· ≠ data) }) (fun _ => ⟨rfl, rfl⟩) rfl, rfl, rfl⟩
    · obtain ⟨g', q', h1, h2, h3, h4, h5, h6⟩ := answered_load hdones (data := data) hs hg hw hp hm hload ha
      exact ⟨_, g', q', exec_remoteAck_last hr hu hl, h1, h2, h3, h4, h5, h6⟩
    · refine ⟨_, exec_remoteRetransmit hr ht hc hp hk, ?_⟩
      rw [countFlit_eq]
      exact ⟨rfl, rfl, request?_map hr (f := fun x => { x with port := nextPort (s.routeMask r.dev) x.port, sent := s.clock })
        (fun _ => ⟨rfl, rfl⟩) rfl⟩
    · rw [answered_storeFailed hdones hs]
      exact ⟨congrArg Link.requests (storeFailed_dones _ _ _).2, fun k g hg hst =>
        storeFailed_gang (s := s.unasked r.dev r.seq) _ tag hg hst⟩

end Sys2Proof.Machine
end

