-- ==== Sys2Proof/Proofs/Streams.lean ====
section
/-! PROOFS. The keys of streams: loaded, switched to, worn out and gone down (R401, R402, R414). -/

namespace Sys2Proof.Machine

/-! ## Keys loaded -/

/-- A stream that was not stopped resumes by itself. -/
theorem resumeStream_running {s : State} {i : Nat} (h : (s.stream i).state ≠ .stopped) (x : Stream) :
    s.resumeStream i x = s.setStream i x := if_neg fun hx => h hx.1

/-- The requests toward a device once its stream runs again (R402). -/
def RemoteReq.resumed (i since clock : Nat) (r : RemoteReq) : RemoteReq :=
  if r.dev = i then
    if since ≤ r.sent then { r with sent := clock, first := clock }
    else { r with sent := r.sent + (clock - since), first := r.first + (clock - since) }
  else r

/-- A stopped stream that resumes (R402). -/
theorem resumeStream_stopped {s : State} {i : Nat} (h : (s.stream i).state = .stopped) (hi : i < 4096) (x : Stream) :
    (s.resumeStream i x).stream i = { x with
        used := x.used + (s.link.requests.filter fun r => r.dev = i ∧ (s.stream i).since ≤ r.sent).length } ∧
      (s.resumeStream i x).link.requests = s.link.requests.map (RemoteReq.resumed i (s.stream i).since s.clock) := by
  rw [State.resumeStream]
  dsimp only
  rw [if_pos ⟨h, hi⟩]
  exact ⟨stream_setStream _ _ _, rfl⟩

/-- A stream that resumes takes its new state, with flits counted, and leaves gangs and memory. -/
theorem resumeStream_keeps (s : State) (i : Nat) (x : Stream) : (∃ n, (s.resumeStream i x).stream i = { x with used := n }) ∧
    (s.resumeStream i x).gangs = s.gangs ∧ (s.resumeStream i x).mem = s.mem := by
  unfold State.resumeStream
  dsimp only
  split
  · exact ⟨⟨_, stream_setStream _ _ _⟩, rfl, rfl⟩
  · exact ⟨⟨x.used, stream_setStream _ _ _⟩, rfl, rfl⟩

theorem switch_eq {x : Stream} {k : BitVec 256} {salt : W32} (h : x.next = some (k, salt)) : x.switch = { x with
    state := .run, cur := k, salt := salt, next := none, used := 0, phase := !x.phase, tagFails := 0, low := false } := by
  rw [Stream.switch, h]

section
variable {s : State} {c : Commit}

/-- A stream with the key of a commit as its NEXT. -/
def Commit.asNext (c : Commit) (x : Stream) : Stream := { x with next := some (c.key, c.salt) }

/-- A stream with the key of a commit as its CUR. -/
def Commit.asCur (c : Commit) (x : Stream) : Stream :=
  { x with state := .run, cur := c.key, salt := c.salt, used := 0, tagFails := 0, low := false }

theorem loadKey_next (hn : c.pskNext = true) : s.loadKey c =
    if (s.stream c.streamOf).state = .stopped ∨ (s.stream c.streamOf).state = .down then
      s.resumeStream c.streamOf (c.asNext (s.stream c.streamOf)).switch
    else s.setStream c.streamOf (c.asNext (s.stream c.streamOf)) := by
  rw [State.loadKey]
  exact if_pos hn

theorem loadKey_cur (hn : c.pskNext = false) : s.loadKey c = s.resumeStream c.streamOf (c.asCur (s.stream c.streamOf)) := by
  rw [State.loadKey]
  exact if_neg (by rw [hn]; exact Bool.false_ne_true)

end

theorem exec_pskeyCommit {s u : State} {c : Commit} (h : HeadCommit s pskeyReg c u) (hs : c.pskSwitch = false) :
    exec .pskeyCommit s = .next (u.loadKey c) := by
  change execPskeyCommit s = _
  rw [execPskeyCommit, h.take]
  simp only [hs, Bool.false_eq_true, if_false]

theorem exec_pskeySwitch {s u : State} {c : Commit} (h : HeadCommit s pskeyReg c u) (hs : c.pskSwitch = true) :
    exec (.pskeySwitch (c.streamOf % 4096)) s = .next (
      let v := u.loadKey c
      if (v.stream c.streamOf).next.isSome then v.resumeStream c.streamOf (v.stream c.streamOf).switch else v) := by
  change execPskeySwitch (c.streamOf % 4096) s = _
  rw [execPskeySwitch, h.take]
  simp only [hs, Bool.true_and, beq_self_eq_true, if_true]

/-- A stream has gone over to a key, its gangs and memory left alone (R401). -/
structure Switched (s t : State) (i : Nat) (k : BitVec 256) : Prop where
  cur : (t.stream i).cur = k
  state : (t.stream i).state = .run
  next : (t.stream i).next = none
  phase : (t.stream i).phase = !(s.stream i).phase
  gangs : t.gangs = s.gangs
  mem : t.mem = s.mem

theorem switched_resume {s v : State} {i : Nat} {k : BitVec 256} {salt : W32} {x : Stream} (hn : x.next = some (k, salt))
    (hp : x.phase = (s.stream i).phase) (hg : v.gangs = s.gangs) (hm : v.mem = s.mem) : Switched s (v.resumeStream i x.switch) i k := by
  obtain ⟨⟨n, hx⟩, hg', hm'⟩ := resumeStream_keeps v i x.switch
  rw [switch_eq hn] at hx hg' hm' ⊢
  exact ⟨by rw [hx], by rw [hx], by rw [hx], by rw [hx, hp], hg'.trans hg, hm'.trans hm⟩

/-- A key loaded: its stream has gone over to it, or will with the switch (R401). -/
theorem loadKey_switches (u : State) (c : Commit) {k : BitVec 256}
    (hk : (k = c.key ∧ c.pskNext = true) ∨ (c.pskNext = false ∧ (u.stream c.streamOf).next.map (·.1) = some k)) :
    Switched u (u.loadKey c) c.streamOf k ∨ (∃ salt, ((u.loadKey c).stream c.streamOf).next = some (k, salt)) ∧
      ((u.loadKey c).stream c.streamOf).phase = (u.stream c.streamOf).phase ∧ (u.loadKey c).gangs = u.gangs ∧
      (u.loadKey c).mem = u.mem := by
  rcases hk with ⟨rfl, hn⟩ | ⟨hn, hk⟩
  · rw [loadKey_next hn]
    split
    · exact .inl (switched_resume rfl rfl rfl rfl)
    · refine .inr ⟨⟨c.salt, ?_⟩, ?_, rfl, rfl⟩ <;> rw [stream_setStream] <;> rfl
  · obtain ⟨⟨k', salt⟩, hx, rfl⟩ := Option.map_eq_some_iff.1 hk
    obtain ⟨⟨n, hs⟩, hg, hm⟩ := resumeStream_keeps u c.streamOf (c.asCur (u.stream c.streamOf))
    rw [loadKey_cur hn]
    exact .inr ⟨⟨salt, by rw [hs]; exact hx⟩, by rw [hs]; rfl, hg, hm⟩

/-- A switch loads its key, and the stream goes over to NEXT (R401). -/
theorem pskeySwitch_switches {s u : State} {c : Commit} (h : HeadCommit s pskeyReg c u) (hs : c.pskSwitch = true) {k : BitVec 256}
    (hk : (k = c.key ∧ c.pskNext = true) ∨ (c.pskNext = false ∧ (s.stream c.streamOf).next.map (·.1) = some k)) :
    ∃ t, exec (.pskeySwitch (c.streamOf % 4096)) s = .next t ∧ Switched s t c.streamOf k := by
  have hu : u.stream c.streamOf = s.stream c.streamOf := by rw [h.eq]; rfl
  refine ⟨_, exec_pskeySwitch h hs, ?_⟩
  suffices hsw : Switched u (if ((u.loadKey c).stream c.streamOf).next.isSome then
      (u.loadKey c).resumeStream c.streamOf ((u.loadKey c).stream c.streamOf).switch else u.loadKey c) c.streamOf k from
    ⟨hsw.cur, hsw.state, hsw.next, hu ▸ hsw.phase, hsw.gangs.trans (by rw [h.eq]), hsw.mem.trans (by rw [h.eq])⟩
  rcases loadKey_switches u c (hu.symm ▸ hk) with hdone | ⟨⟨salt, hn⟩, hp, hg, hm⟩
  · rw [hdone.next, Option.isSome_none, if_neg Bool.false_ne_true]
    exact hdone
  · rw [hn, Option.isSome_some, if_pos rfl]
    exact switched_resume hn hp hg hm

/-- A key for a stopped stream starts it (R401, R402). -/
theorem pskeyCommit_restarts {s u : State} {c : Commit} (h : HeadCommit s pskeyReg c u) (hs : c.pskSwitch = false)
    (hst : (s.stream c.streamOf).state = .stopped) (hi : c.streamOf < 4096) :
    ∃ t, exec .pskeyCommit s = .next t ∧ (t.stream c.streamOf).state = .run ∧ (t.stream c.streamOf).cur = c.key ∧
      (t.stream c.streamOf).salt = c.salt ∧ (t.stream c.streamOf).used =
        (s.link.requests.filter fun r => r.dev = c.streamOf ∧ (s.stream c.streamOf).since ≤ r.sent).length ∧
      t.link.requests = s.link.requests.map (RemoteReq.resumed c.streamOf (s.stream c.streamOf).since s.clock) := by
  have hu : u.stream c.streamOf = s.stream c.streamOf := by rw [h.eq]; rfl
  have hl : u.link = s.link := by rw [h.eq]
  have hclock : u.clock = s.clock := by rw [h.eq]
  have hr (x : Stream) := resumeStream_stopped (s := u) (by rw [hu]; exact hst) hi x
  rw [hu, hl, hclock] at hr
  refine ⟨_, exec_pskeyCommit h hs, ?_⟩
  cases hn : c.pskNext with
  | true =>
    rw [loadKey_next hn, hu, if_pos (.inl hst)]
    obtain ⟨hx, hreq⟩ := hr (c.asNext (s.stream c.streamOf)).switch
    rw [hx, switch_eq (x := c.asNext (s.stream c.streamOf)) rfl]
    exact ⟨rfl, rfl, rfl, Nat.zero_add _, hreq⟩
  | false =>
    rw [loadKey_cur hn, hu]
    obtain ⟨hx, hreq⟩ := hr (c.asCur (s.stream c.streamOf))
    rw [hx]
    exact ⟨rfl, rfl, rfl, Nat.zero_add _, hreq⟩

/-! ## Keys worn out, streams down -/

theorem exec_keylow {s : State} {dev : Nat} (hr : (s.stream dev).state = .run) (hl : (s.stream dev).low = false)
    (hu : 2 ^ 35 ≤ (s.stream dev).used) :
    exec (.keylow dev) s = .next ((s.setStream dev { s.stream dev with low := true }).logError .keylow 4 dev 0 1 0) := by
  refine congrArg Host.Outcome.next (if_pos ?_)
  rw [hr, hl, decide_eq_true hu]
  rfl

theorem exec_keyLimit {s : State} {dev : Nat} (hr : (s.stream dev).state = .run) (hu : 2 ^ 36 ≤ (s.stream dev).used) :
    exec (.keyLimit dev) s = .next (s.setStream dev (if (s.stream dev).next.isSome then (s.stream dev).switch
      else { s.stream dev with state := .stopped, since := s.clock })) := by
  refine congrArg Host.Outcome.next (if_pos ?_)
  rw [hr, decide_eq_true hu]
  rfl

/-- The entry of a stream that goes down. -/
theorem logError_stream {s : State} {i j : Nat} (x : Stream) (kind : LogKind) :
    ((s.setStream i x).logError kind 4 j 0 1 0).stream i = x ∧ ((s.setStream i x).logError kind 4 j 0 1 0).link = s.link ∧
      ((s.setStream i x).logError kind 4 j 0 1 0).dist = s.dist ∧ Logged s ((s.setStream i x).logError kind 4 j 0 1 0) kind 4 j 0 1 0 := by
  refine ⟨?_, link_logError _ _ _ _ _ _ _, dist_logError _ _ _ _ _ _ _,
    (logError_logged (s.setStream i x) kind 4 j 0 1 0).before rfl rfl rfl⟩
  rw [State.stream, trust_logError]
  exact stream_setStream s i x

theorem trust_storeFailed (s : State) (pa : Nat) (tag : Nat × Nat × Nat) : (s.storeFailed pa tag).trust = s.trust := by
  have h (core asid : Nat) (f : Gang → Gang) :
      ((s.logError .remoteStore 2 core pa 1 asid).mapContexts f).trust = s.trust := by
    have ht := trust_logError s .remoteStore 2 core pa 1 asid
    generalize s.logError .remoteStore 2 core pa 1 asid = u at ht
    exact ht
  have hlaunch (u : State) (f : Launch → Launch) : (u.modLaunch tag.1 f).trust = u.trust := rfl
  unfold State.storeFailed
  dsimp only
  split
  · exact h _ _ _
  · rw [hlaunch]
    exact h _ _ _

/-- Every request toward a device whose stream goes down fails, where all are stores (R402). -/
theorem foldl_answered {l : List RemoteReq} {s : State} (hd : s.dist.dones = []) (hl : ∀ r ∈ l, ∃ tag a e, r.src = .store tag a e) :
    let t := l.foldl (fun (s : State) r => s.answered r 1 0) s
    t.trust = s.trust ∧ ∀ r ∈ t.link.requests, r ∈ s.link.requests ∧ ∀ x ∈ l, r.dev = x.dev → r.seq ≠ x.seq := by
  induction l generalizing s with
  | nil => exact ⟨rfl, fun r hr => ⟨hr, fun x hx => absurd hx List.not_mem_nil⟩⟩
  | cons y l ih =>
    obtain ⟨tag, a, e, hy⟩ := hl y List.mem_cons_self
    have hans := answered_storeFailed hd hy
    obtain ⟨hdones, hlink⟩ := storeFailed_dones (s.unasked y.dev y.seq) (2 ^ 51 + y.dev * 2 ^ 39 + y.off) tag
    have htrust := trust_storeFailed (s.unasked y.dev y.seq) (2 ^ 51 + y.dev * 2 ^ 39 + y.off) tag
    rw [List.foldl_cons, hans]
    generalize (s.unasked y.dev y.seq).storeFailed (2 ^ 51 + y.dev * 2 ^ 39 + y.off) tag = u at hdones hlink htrust ⊢
    obtain ⟨ht, hr⟩ := ih (s := u) (hdones.trans hd) fun r hr => hl r (List.mem_cons_of_mem _ hr)
    refine ⟨ht.trans htrust, fun r hm => ?_⟩
    obtain ⟨hin, hout⟩ := hr r hm
    rw [hlink] at hin
    obtain ⟨hs, hne⟩ := List.mem_filter.1 hin
    refine ⟨hs, fun x hx => ?_⟩
    rcases List.mem_cons.1 hx with rfl | hx
    · exact fun hdev hseq => by simp [hdev, hseq] at hne
    · exact hout x hx

theorem exec_streamDown {s : State} {dev : Nat} (hst : (s.stream dev).state = .stopped)
    (hc : (s.stream dev).since + 100000 * Config.cyclesPerUs ≤ s.clock) : exec (.streamDown dev) s = .next (s.downStream dev) := by
  refine congrArg Host.Outcome.next (if_pos ?_)
  rw [hst, decide_eq_true hc]
  rfl

theorem exec_streamTagFailures {s : State} {dev : Nat} (hr : (s.stream (rxStream dev)).state = .run)
    (hf : 16 ≤ (s.stream (rxStream dev)).tagFails) : exec (.streamTagFailures dev) s = .next (s.downStream (rxStream dev)) := by
  refine congrArg Host.Outcome.next (if_pos ?_)
  rw [hr, decide_eq_true hf]
  rfl

/-- A stream down, before its requests fail. -/
def State.streamGone (s : State) (i : Nat) : State :=
  (s.setStream i { s.stream i with state := .down }).logError .streamDown 4 (i % 4096) 0 1 0

theorem downStream_eq (s : State) (i : Nat) : s.downStream i =
    (s.link.requests.filter fun r => r.dev = i).foldl (fun (s : State) r => s.answered r 1 0) (s.streamGone i) := by
  rw [State.downStream]
  dsimp only
  rw [link_logError]
  rfl

/-- A transmitting stream down, its requests gone (R402). -/
theorem downStream_fails {s : State} {dev : Nat} (hr : ∀ r ∈ s.link.requests, r.dev = dev → ∃ tag l e, r.src = .store tag l e)
    (hd : s.dist.dones = []) : (s.downStream dev).stream dev = { s.stream dev with state := .down } ∧
      ∀ r ∈ (s.downStream dev).link.requests, r.dev ≠ dev := by
  obtain ⟨hx, hl, hdist, -⟩ := logError_stream (s := s) (i := dev) (j := dev % 4096) { s.stream dev with state := .down } .streamDown
  change (s.streamGone dev).stream dev = _ at hx
  change (s.streamGone dev).link = _ at hl
  change (s.streamGone dev).dist = _ at hdist
  rw [downStream_eq]
  generalize s.streamGone dev = u at hx hl hdist
  obtain ⟨ht, hreq⟩ := foldl_answered (s := u) (l := s.link.requests.filter fun r => r.dev = dev) (by rw [hdist]; exact hd) fun r hm => by
    obtain ⟨hm, hdev⟩ := List.mem_filter.1 hm
    exact hr r hm (by simpa using hdev)
  refine ⟨by rw [State.stream, ht]; exact hx, fun r hm hdev => ?_⟩
  obtain ⟨hin, hout⟩ := hreq r hm
  exact hout r (List.mem_filter.2 ⟨hl ▸ hin, by simpa using hdev⟩) rfl rfl

/-! ## The obligation -/

/-- Settles O52: the keys of streams. -/
theorem streamsAreKeyed : Obligations.StreamsAreKeyed := by
  unfold Obligations.StreamsAreKeyed
  refine ⟨fun s u c h => ⟨fun hs hn hst => ?_, fun hs hn hst => ?_, fun hs hst hi => pskeyCommit_restarts h hs hst hi, fun hs k hk => ?_⟩,
    fun s dev => ⟨fun hr hl hu => ?_, fun hr hu => ⟨fun hn => ?_, fun k salt hn => ?_⟩, fun hst hc hr hd => ?_, fun hr hf hq => ?_⟩⟩
  · have hu : u.stream c.streamOf = s.stream c.streamOf := by rw [h.eq]; rfl
    rw [exec_pskeyCommit h hs, loadKey_next hn, hu, if_neg (by rcases hst with hst | hst <;> rw [hst] <;> decide)]
    rfl
  · have hu : u.stream c.streamOf = s.stream c.streamOf := by rw [h.eq]; rfl
    rw [exec_pskeyCommit h hs, loadKey_cur hn, resumeStream_running (by rw [hu]; exact hst), hu]
    rfl
  · obtain ⟨t, ht, hsw⟩ := pskeySwitch_switches h hs hk
    exact ⟨t, ht, hsw.cur, hsw.state, hsw.next, hsw.phase, hsw.gangs, hsw.mem⟩
  · obtain ⟨hx, -, -, hlog⟩ := logError_stream (s := s) (i := dev) (j := dev) { s.stream dev with low := true } .keylow
    exact ⟨_, exec_keylow hr hl hu, hx, hlog⟩
  · rw [exec_keyLimit hr hu, if_neg (by rw [hn]; exact Bool.false_ne_true)]
  · rw [exec_keyLimit hr hu, if_pos (by rw [hn]; rfl), switch_eq hn, hr]
  · exact ⟨_, exec_streamDown hst hc, downStream_fails hr hd⟩
  · refine ⟨_, exec_streamTagFailures hr hf, ?_⟩
    rw [downStream_eq, List.filter_eq_nil_iff.2 fun r hm => by simpa using hq r hm, List.foldl_nil]
    obtain ⟨hx, -, -, hlog⟩ := logError_stream (s := s) (i := rxStream dev) (j := rxStream dev % 4096)
      { s.stream (rxStream dev) with state := .down } .streamDown
    exact ⟨hx, hlog⟩

end Sys2Proof.Machine
end

