-- ==== Sys2Proof/Proofs/BringUp.lean ====
section
/-! PROOFS. Resets, the blocks of the platform root of trust, the release and the scrub (R386 to R388, R394 to R396, R400, R403). -/

namespace Sys2Proof.Machine

/-- A memory of which some addresses are kept. -/
theorem mem_read_filter (m : Mem) (p : Nat → Bool) (a : Nat) :
    Mem.read (m.filter fun c => p c.1) a = if p a then Mem.read m a else Mem.unlisted := by
  unfold Mem.read Tab.getD
  rw [tab_get?_filter]
  split <;> rfl

/-! ## Resets -/

theorem mem_deviceReset (s : State) (a : Nat) : Mem.read s.memAfterReset.bytes a =
    if Config.hbmBytes ≤ a ∨ s.trust.conf = false then Mem.read s.mem.bytes a else Mem.unlisted := by
  refine (mem_read_filter s.mem.bytes (fun a => decide (Config.hbmBytes ≤ a) || !s.trust.conf) a).trans ?_
  simp only [Bool.or_eq_true, decide_eq_true_eq, Bool.not_eq_true']

/-- The state of a device that is held again. -/
def State.heldAgain (s : State) : State := s.volatileReset.modTrust fun t => { t with lease := 0, recovery := false, slots := [], revoked := [] }

theorem exec_deviceReset (s : State) : exec .deviceReset s = .next s.heldAgain := rfl

/-- What a loss of standby power leaves (R387). -/
def State.unpowered (s : State) : State :=
  let r := s.heldAgain.modHost fun h => { h with fails := 0, reason := 0, bootcfg := 0, xipbase := 0 }
  let host (a : Nat) : Bool := decide (Config.hbmBytes ≤ 32 * a)
  { r with mem := { r.mem with
    bytes := r.mem.bytes.filter fun c => decide (Config.hbmBytes ≤ c.1)
    poison := r.mem.poison.filter host, latent := r.mem.latent.filter host } }

theorem exec_standbyPowerLoss (s : State) : exec .standbyPowerLoss s = .next s.unpowered := rfl

theorem mem_unpowered (s : State) (a : Nat) :
    Mem.read s.unpowered.mem.bytes a = if Config.hbmBytes ≤ a then Mem.read s.mem.bytes a else Mem.unlisted := by
  refine (mem_read_filter s.memAfterReset.bytes (fun a => decide (Config.hbmBytes ≤ a)) a).trans ?_
  rw [mem_deviceReset]
  by_cases h : Config.hbmBytes ≤ a <;> simp [h]

/-! ## Blocks of the platform root of trust -/

theorem heldBlock_head {s : State} {m : List Byte} {rest : List (List Byte)} (hp : s.trust.phase = .held) (hi : s.trust.inbox = m :: rest)
    {n : Nat} (hn : m.length = n) : s.heldBlock n = some (m, { s with trust := { s.trust with inbox := rest } }) := by
  rw [State.heldBlock, hi]
  dsimp only
  rw [if_pos (by rw [hp, hn, beq_self_eq_true, beq_self_eq_true]; rfl)]
  rfl

/-! ## The release and the scrub -/

/-- The state of a device released, its pins sampled. -/
def State.released (s : State) : State :=
  let t := s.trust
  let fused := Tab.set (Tab.set t.fuses 0 (t.fused 0)) 1 (t.fused 1)
  let slots := if t.tenant = 0 then fused else Tab.set fused 6 t.tenant
  let u := (s.modHost fun h => { h with bootcfg := (t.bootRegs t.pinRecovery).1, xipbase := (t.bootRegs t.pinRecovery).2 }).modTrust fun t =>
    { t with nextConf := t.pinConf, recovery := t.pinRecovery, slots := slots, revoked := t.fuseRevoked }.extend 0
      (Config.romVersion ++ hashBytes Config.fuseDigest)
  { u with dist := { u.dist with encore := Config.enabledCores } }

theorem exec_deviceRelease {s : State} (h : s.trust.phase = .held) : exec .deviceRelease s = .next (
    if s.trust.pinScrub || s.trust.pinConf != s.trust.prevConf || s.trust.pinRecovery then
      s.released.scrubbed.modTrust fun t => { t with phase := .scrub, phaseSince := s.clock, scrubbed := true }
    else s.released.enterMode.beginBoot) := by
  refine congrArg Host.Outcome.next ((if_neg (not_not.2 h)).trans ?_)
  rfl

/-- A new mode taken up changes the mode, the HBM key and the measurements alone (R398). -/
theorem enterMode_eq (u : State) : ∃ meas, u.enterMode = u.modTrust fun t =>
    { t with conf := t.nextConf, prevConf := t.nextConf, hbmKeyed := t.nextConf, meas := meas } := ⟨_, rfl⟩

/-- The first boot step begins, or minimal mode (R387). -/
theorem beginBoot_begun {s w : State} {recovery sealed : Bool} (hf : w.host.fails = s.host.fails) (hr : w.trust.recovery = recovery)
    (hc : w.trust.conf = sealed) (hk : w.trust.hbmKeyed = sealed) :
    BootBegun s w.beginBoot recovery sealed ∧ w.beginBoot.dist = w.dist ∧ w.beginBoot.mem = w.mem ∧
      w.beginBoot.host.bootcfg = w.host.bootcfg := by
  have hphase : 3 ≤ w.host.fails ∧ (!w.trust.recovery) = true ↔ 3 ≤ s.host.fails ∧ recovery = false := by
    rw [hf, hr, Bool.not_eq_true']
  by_cases h : 3 ≤ s.host.fails ∧ recovery = false
  · rw [State.beginBoot, if_pos (hphase.2 h)]
    exact ⟨⟨(if_pos h).symm, hc, hk⟩, rfl, rfl, rfl⟩
  · rw [State.beginBoot, if_neg (mt hphase.1 h)]
    exact ⟨⟨(if_neg h).symm, hc, hk⟩, rfl, rfl, rfl⟩

/-- The boot begins in the mode that the pin named (R387, R403). -/
theorem enterMode_begun {s u : State} {recovery : Bool} (hf : u.host.fails = s.host.fails) (hr : u.trust.recovery = recovery) :
    BootBegun s u.enterMode.beginBoot recovery u.trust.nextConf ∧ u.enterMode.beginBoot.dist = u.dist ∧
      u.enterMode.beginBoot.mem = u.mem ∧ u.enterMode.beginBoot.host.bootcfg = u.host.bootcfg := by
  obtain ⟨meas, hm⟩ := enterMode_eq u
  obtain ⟨w, hw⟩ : ∃ w, w = u.enterMode := ⟨_, rfl⟩
  rw [← hw] at hm ⊢
  have hdist : w.dist = u.dist := (congrArg State.dist hm :)
  have hmem : w.mem = u.mem := (congrArg State.mem hm :)
  have hhost : w.host = u.host := (congrArg State.host hm :)
  rw [← hdist, ← hmem, ← hhost]
  exact beginBoot_begun ((congrArg HostRegs.fails hhost).trans hf)
    ((congrArg (fun x => x.trust.recovery) hm).trans hr) (congrArg (fun x => x.trust.conf) hm)
    (congrArg (fun x => x.trust.hbmKeyed) hm)

/-- The scrub's record kept, and the cores that it retired gone. -/
def State.scrubRecorded (s : State) (record : Mem) (retired : NatSet) : State := { s with
  trust := { s.trust with scrubRecord := record }
  dist := { s.dist with encore := s.dist.encore &&& ~~~s.trust.scrubRetired }
  rel := { s.rel with retiredCores := retired } }

/-- The cores that the scrub retires. -/
def Trust.coresGone (t : Trust) : List Nat := (List.range Config.numCores).filter fun c => t.scrubRetired.getLsbD c

/-- What follows a scrub (R395, R396), for any record and list of retired cores. -/
def State.afterScrub (s : State) (record : Mem) (gone : List Nat) : State :=
  let s := s.modTrust fun t => { t with scrubRecord := record }
  let s := { s with
    dist := { s.dist with encore := s.dist.encore &&& ~~~s.trust.scrubRetired }
    rel := { s.rel with retiredCores := gone.foldl NatSet.add s.rel.retiredCores } }
  if s.trust.scrubFail = 0 then s.enterMode.beginBoot
  else s.modTrust fun t => { t with phase := .alert, alert := true }

theorem exec_scrubComplete {s : State} (h : s.trust.phase = .scrub) :
    ∃ record gone, exec .scrubComplete s = .next (s.afterScrub record gone) := by
  refine ⟨s.scrubRecordOf, (s.modTrust fun t => { t with scrubRecord := s.scrubRecordOf }).trust.coresGone, ?_⟩
  change execScrubComplete s = _
  unfold execScrubComplete
  rw [if_neg (not_not.2 h)]
  unfold State.afterScrub Trust.coresGone
  rfl

theorem afterScrub_boots (s : State) (record : Mem) (gone : List Nat) (h : s.trust.scrubFail = 0) :
    s.afterScrub record gone = (s.scrubRecorded record (gone.foldl NatSet.add s.rel.retiredCores)).enterMode.beginBoot :=
  if_pos h

theorem afterScrub_alerts (s : State) (record : Mem) (gone : List Nat) (h : s.trust.scrubFail ≠ 0) :
    s.afterScrub record gone = (s.scrubRecorded record (gone.foldl NatSet.add s.rel.retiredCores)).modTrust
      fun t => { t with phase := .alert, alert := true } := if_neg h

theorem scrubbed_poison (s : State) {i : Nat} (h : 32 * i < Config.hbmBytes) : NatSet.has s.scrubbed.mem.poison i = false := by
  unfold NatSet.has State.scrubbed
  rw [List.contains_eq_mem, decide_eq_false_iff_not]
  intro hm
  have := (List.mem_filter.1 hm).2
  rw [decide_eq_true_eq] at this
  omega

/-! ## The obligation -/

/-- Settles O53: resets, the blocks of the root of trust, the release and the scrub. -/
theorem bringUpBegins : Obligations.BringUpBegins := by
  unfold Obligations.BringUpBegins
  refine ⟨fun s loss => ?_, fun s m rest hp hi => ⟨fun hn => ?_, fun hn => ?_⟩, fun s =>
    ⟨fun hp hs => ?_, fun hp hs hc hr => ?_, fun hp hf => ?_, fun hp hf => ?_⟩⟩
  · cases loss with
    | false =>
      refine ⟨_, exec_deviceReset s, rfl, rfl, rfl, rfl, rfl, rfl, rfl, rfl, rfl, rfl, rfl, fun a ha => ?_, fun a ha => ?_⟩
      · exact (mem_deviceReset s a).trans (if_pos (.inl ha))
      · refine (mem_deviceReset s a).trans ?_
        cases s.trust.conf <;> simp [Nat.not_le.2 ha]
    | true =>
      refine ⟨_, exec_standbyPowerLoss s, rfl, rfl, rfl, rfl, rfl, rfl, rfl, rfl, rfl, rfl, rfl, fun a ha => ?_, fun a ha => ?_⟩
      · exact (mem_unpowered s a).trans (if_pos ha)
      · rw [mem_unpowered, if_neg (Nat.not_le.2 ha), if_pos (.inl rfl)]
  · refine congrArg Host.Outcome.next ?_
    rw [heldBlock_head hp hi hn]
    rfl
  · refine congrArg Host.Outcome.next ?_
    rw [heldBlock_head hp hi hn]
    rfl
  · have hgo : (s.trust.pinScrub || s.trust.pinConf != s.trust.prevConf || s.trust.pinRecovery) = true := by
      rw [Bool.or_eq_true, Bool.or_eq_true, bne_iff_ne, or_assoc]
      exact hs
    refine ⟨_, (exec_deviceRelease hp).trans (congrArg Host.Outcome.next (if_pos hgo)), rfl, rfl, rfl, rfl,
      fun i hi => scrubbed_poison s.released hi, fun a => ?_⟩
    refine (mem_read_filter s.mem.bytes (fun a => decide (Config.hbmBytes ≤ a)) a).trans ?_
    by_cases ha : Config.hbmBytes ≤ a
    · rw [if_pos (decide_eq_true ha), if_neg (Nat.not_lt.2 ha)]
    · rw [if_neg (by simpa using ha), if_pos (Nat.not_le.1 ha)]
  · have hgo : (s.trust.pinScrub || s.trust.pinConf != s.trust.prevConf || s.trust.pinRecovery) = false := by
      rw [hs, hc, hr, bne_self_eq_false]
      rfl
    obtain ⟨hb, hd, hm, hcfg⟩ := enterMode_begun (s := s) (u := s.released) rfl hr
    refine ⟨_, (exec_deviceRelease hp).trans (congrArg Host.Outcome.next (if_neg (by rw [hgo]; exact Bool.false_ne_true))), hb,
      congrArg Dist.encore hd, hm, fun hk => hcfg.trans ?_⟩
    exact congrArg Prod.fst (show s.trust.bootRegs s.trust.pinRecovery = (0x100, 0) by unfold Trust.bootRegs; rw [hk])
  · obtain ⟨record, gone, hgo⟩ := exec_scrubComplete hp
    obtain ⟨hb, hd, hm, -⟩ := enterMode_begun (s := s)
      (u := s.scrubRecorded record (gone.foldl NatSet.add s.rel.retiredCores)) rfl rfl
    exact ⟨_, hgo.trans (congrArg Host.Outcome.next (afterScrub_boots s record gone hf)), hb, (congrArg Dist.encore hd :), hm⟩
  · obtain ⟨record, gone, hgo⟩ := exec_scrubComplete hp
    exact ⟨_, hgo.trans (congrArg Host.Outcome.next (afterScrub_alerts s record gone hf)), rfl, rfl, rfl⟩

end Sys2Proof.Machine
end

