-- ==== Sys2Proof/Proofs/BootParts.lean ====
section
/-! PROOFS. What the boot steps are made of: bytes placed in a memory, counters raised, porters started, a failed boot and the next
image source (R382, R383, R385, R387). -/

namespace Sys2Proof.Machine

/-! ## Bytes placed in a memory -/

/-- The table that a run of bytes makes, the unlisted value left out. -/
theorem tab_get?_bytes (bs : List Byte) (a j : Nat) :
    (Tab.get? ((bs.mapIdx fun i b => (a + i, b)).filter fun c => c.2 != Mem.unlisted) j).getD Mem.unlisted =
      if a ≤ j ∧ j < a + bs.length then bs.getD (j - a) Mem.unlisted else Mem.unlisted := by
  induction bs generalizing a with
  | nil =>
    rw [if_neg (by rw [List.length_nil]; omega)]
    rfl
  | cons b bs ih =>
    have hrest : (bs.mapIdx fun i b => (a + (i + 1), b)) = bs.mapIdx fun i b => (a + 1 + i, b) := by
      congr 1; funext i b; rw [Nat.add_comm i, Nat.add_assoc]
    have hstep : (Tab.get? (((b :: bs).mapIdx fun i b => (a + i, b)).filter fun c => c.2 != Mem.unlisted) j).getD Mem.unlisted =
        if a = j then b else if a + 1 ≤ j ∧ j < a + 1 + bs.length then bs.getD (j - (a + 1)) Mem.unlisted else Mem.unlisted := by
      rw [List.mapIdx_cons, hrest, ← ih (a + 1), List.filter_cons]
      split
      · rw [tab_get?_cons, Nat.add_zero, apply_ite (fun o : Option Byte => o.getD Mem.unlisted)]
        rfl
      · next hb =>
        have hu : b = Mem.unlisted := by simpa using hb
        split
        · next haj =>
          rw [ih (a + 1), if_neg (by omega), hu]
        · rfl
    rw [hstep, List.length_cons]
    by_cases haj : a = j
    · rw [if_pos haj, if_pos (by omega), haj, Nat.sub_self, List.getD_cons_zero]
    · rw [if_neg haj]
      by_cases hin : a + 1 ≤ j ∧ j < a + 1 + bs.length
      · rw [if_pos hin, if_pos (by omega), show j - a = j - (a + 1) + 1 by omega, List.getD_cons_succ]
      · rw [if_neg hin, if_neg (by omega)]

theorem tab_get?_bytes_outside {bs : List Byte} {a j : Nat} (h : ¬ (a ≤ j ∧ j < a + bs.length)) :
    Tab.get? ((bs.mapIdx fun i b => (a + i, b)).filter fun c => c.2 != Mem.unlisted) j = none := by
  unfold Tab.get?
  rw [Option.map_eq_none_iff]
  refine List.find?_eq_none.2 fun c hc hj => h ?_
  obtain ⟨i, hi, rfl⟩ := List.mem_mapIdx.1 (List.mem_filter.1 hc).1
  rw [← eq_of_beq hj]
  exact ⟨Nat.le_add_right a i, Nat.add_lt_add_left hi a⟩

theorem mem_read_writeBytes (m : Mem) (a : Nat) (bs : List Byte) (j : Nat) : Mem.read (Mem.writeBytes m a bs) j =
    if a ≤ j ∧ j < a + bs.length then bs.getD (j - a) Mem.unlisted else Mem.read m j := by
  have hlow := tab_get?_filter m (fun n => decide (n < a)) j
  have hhigh := tab_get?_filter m (fun n => decide (a + bs.length ≤ n)) j
  have hmid := tab_get?_bytes bs a j
  unfold Mem.read Tab.getD Mem.writeBytes
  rw [tab_get?_append, tab_get?_append, hlow, hhigh]
  by_cases hin : a ≤ j ∧ j < a + bs.length
  · rw [if_pos hin] at hmid ⊢
    rw [if_neg (by simpa using hin.1), if_neg (by simpa using hin.2), Option.none_or, Option.or_none, hmid]
  · rw [if_neg hin, tab_get?_bytes_outside hin]
    by_cases hj : j < a
    · rw [if_pos (decide_eq_true hj), if_neg (by simp; omega), Option.or_none, Option.or_none]
    · rw [if_neg (by simpa using hj), if_pos (by simp; omega), Option.none_or, Option.none_or]

theorem mem_read_writeBytes_readBytes (m src : Mem) (a b n j : Nat) : Mem.read (Mem.writeBytes m a (Mem.readBytes src b n)) j =
    if a ≤ j ∧ j < a + n then Mem.read src (b + (j - a)) else Mem.read m j := by
  have hlen : (Mem.readBytes src b n).length = n := by rw [Mem.readBytes, List.length_map, List.length_range]
  rw [mem_read_writeBytes, hlen]
  by_cases hin : a ≤ j ∧ j < a + n
  · rw [if_pos hin, if_pos hin, Mem.readBytes, List.getD_eq_getElem _ _ (by simp; omega), List.getElem_map, List.getElem_range]
  · rw [if_neg hin, if_neg hin]

/-! ## The SVN counters (R392) -/

/-- A counter raised to an image's SVN, if that is higher. -/
def svnRaise (t : Tab Nat) (e : Nat × Nat) : Tab Nat := Tab.set t e.1 (max (Tab.getD t e.1 0) e.2)

theorem tab_getD_svnRaise (t : Tab Nat) (e : Nat × Nat) (k : Nat) :
    Tab.getD (svnRaise t e) k 0 = if k = e.1 then max (Tab.getD t k 0) e.2 else Tab.getD t k 0 := by
  unfold svnRaise
  rw [Tab.getD, tab_get?_set]
  by_cases h : k = e.1
  · rw [if_pos h, if_pos h, h]; rfl
  · rw [if_neg h, if_neg h]; rfl

theorem tab_getD_raised_other {l : Tab Nat} {k : Nat} (h : ∀ e ∈ l, e.1 ≠ k) (t : Tab Nat) :
    Tab.getD (l.foldl svnRaise t) k 0 = Tab.getD t k 0 := by
  induction l generalizing t with
  | nil => rfl
  | cons e l ih =>
    rw [List.foldl_cons, ih fun e' he' => h e' (List.mem_cons_of_mem _ he'), tab_getD_svnRaise,
      if_neg (Ne.symm (h e List.mem_cons_self))]

theorem tab_getD_raised {l : Tab Nat} (hw : Tab.wf l = true) {k v : Nat} (hk : Tab.get? l k = some v) (t : Tab Nat) :
    Tab.getD (l.foldl svnRaise t) k 0 = max (Tab.getD t k 0) v := by
  induction l generalizing t with
  | nil => cases hk
  | cons e l ih =>
    obtain ⟨hfirst, hrest⟩ := List.pairwise_cons.1 (of_decide_eq_true hw)
    rw [List.foldl_cons]
    rw [tab_get?_cons] at hk
    by_cases he : e.1 = k
    · rw [if_pos he] at hk
      rw [tab_getD_raised_other (fun e' he' => by have := hfirst e' he'; omega), tab_getD_svnRaise, if_pos he.symm,
        Option.some.inj hk]
    · rw [if_neg he] at hk
      rw [ih (decide_eq_true hrest) hk, tab_getD_svnRaise, if_neg (Ne.symm he)]

/-! ## The porters started (R382) -/

/-- Every cluster's porter set to one state. -/
def State.portersSet (s : State) (p : Porter) (n : Nat) : State := (List.range n).foldl (fun s cl => s.modPorter cl fun _ => p) s

theorem portersSet_succ (s : State) (p : Porter) (n : Nat) :
    s.portersSet p (n + 1) = (s.portersSet p n).modPorter n fun _ => p := by
  unfold State.portersSet
  rw [List.range_succ, List.foldl_append]
  rfl

theorem portersSet_clusters (s : State) (p : Porter) (n : Nat) :
    { s.portersSet p n with clusters := s.clusters } = s := by
  induction n with
  | zero => rfl
  | succ n ih => rw [portersSet_succ]; exact ih

theorem porter_portersSet (s : State) (p : Porter) {n cl : Nat} (h : cl < n) : (s.portersSet p n).porter cl = p := by
  induction n with
  | zero => exact absurd h (Nat.not_lt_zero _)
  | succ n ih =>
    rw [portersSet_succ]
    by_cases hcl : cl = n
    · rw [hcl, State.porter_modPorter]
    · exact (congrArg Cluster.porter ((onlyPorter_modPorter _ n _).others cl hcl)).trans (ih (by omega))

/-! ## A failed boot (R387) -/

/-- The state of a device that failed to boot, before it boots again. -/
def State.failed (s : State) (reason : Byte) : State :=
  let r := s.volatileReset.modHost fun h => { h with
    fails := min 3 (h.fails + 1), reason := if s.trust.recovery then 7 else reason }
  { r with
    dist := { r.dist with encore := Config.enabledCores }
    trust := { r.trust with
      conf := s.trust.conf, hbmKeyed := s.trust.conf, recovery := s.trust.recovery && decide (r.host.fails < 3) } }

theorem failBoot_eq (s : State) (reason : Byte) : s.failBoot reason = (s.failed reason).beginBoot := rfl

/-- A failed boot begins anew, and the third one ends in minimal mode. -/
theorem failBoot_failed (s : State) (reason : Byte) : BootFailed s (s.failBoot reason) reason := by
  have hfails : (s.failed reason).host.fails = min 3 (s.host.fails + 1) := rfl
  have hrec : (s.failed reason).trust.recovery = (s.trust.recovery && decide (min 3 (s.host.fails + 1) < 3)) := rfl
  rw [failBoot_eq]
  unfold State.beginBoot
  by_cases h : 2 ≤ s.host.fails
  · rw [if_pos ⟨by rw [hfails]; omega, by rw [hrec, decide_eq_false (by omega), Bool.and_false]; rfl⟩]
    exact ⟨hfails, rfl, (if_pos h).symm, (decide_eq_true h).symm, rfl, rfl, rfl, rfl⟩
  · rw [if_neg (by rw [hfails]; omega)]
    exact ⟨hfails, rfl, (if_neg h).symm, (decide_eq_false h).symm, rfl, rfl, rfl, rfl⟩

theorem BootFailed.congr {s u t : State} {reason : Byte} (h : BootFailed u t reason) (hf : u.host.fails = s.host.fails)
    (hr : u.trust.recovery = s.trust.recovery) : BootFailed s t reason := by
  obtain ⟨hfails, hreason, hphase, hminimal, hempty⟩ := h
  rw [hf] at hfails hphase hminimal
  rw [hr] at hreason
  exact ⟨hfails, hreason, hphase, hminimal, hempty⟩

/-! ## The next image source (R382, R403) -/

/-- Another source stands in BOOTCFG after the one being tried. -/
def State.SourceLeft (s : State) : Prop :=
  s.trust.phase = .step 1 ∧ s.trust.recovery = false ∧ s.host.bootcfg.getLsbD 11 = false ∧
    s.trust.sourceTry + 1 < bits s.host.bootcfg.toNat 8 3

theorem sourceLeft_iff (s : State) : s.SourceLeft ↔ s.trust.phase = .step 1 ∧ (!s.trust.recovery) = true ∧
    s.trust.sourceTry + 1 < if s.host.bootcfg.getLsbD 11 then 1 else bits s.host.bootcfg.toNat 8 3 := by
  unfold State.SourceLeft
  rw [Bool.not_eq_true']
  cases s.host.bootcfg.getLsbD 11 <;> simp

theorem nextSource_next {s : State} (h : s.SourceLeft) : s.nextSource =
    s.dropImage.modTrust fun t => { t with sourceTry := t.sourceTry + 1, phaseSince := s.clock } := by
  rw [State.nextSource]
  exact if_pos ((sourceLeft_iff s).1 h)

theorem nextSource_failed {s : State} (h : ¬ s.SourceLeft) : s.nextSource = s.failBoot 3 := by
  rw [State.nextSource]
  exact if_neg (mt (sourceLeft_iff s).2 h)

end Sys2Proof.Machine
end

