-- ==== Sys2Proof/Proofs/BootSteps.lean ====
section
/-! PROOFS. The boot steps, BOOTOK, their deadlines and the staging window (R382, R385, R387, R392, R393). -/

namespace Sys2Proof.Machine

/-! ## The steps in progress (R382) -/

theorem exec_bootStep_imageTaken {s : State} (hp : s.trust.phase = .step 1) (hi : s.trust.imageLen ≠ none) :
    exec .bootStep s = .next ((s.modTrust fun t => { t with phase := .step 2, phaseSince := s.clock }).setReady 0x1) := by
  change execBootStep s = _
  rw [execBootStep, hp]
  exact congrArg Host.Outcome.next (if_pos (Option.isSome_iff_ne_none.2 hi))

theorem exec_bootStep_stage1 {s : State} (hp : s.trust.phase = .step 2) :
    exec .bootStep s = .next (s.verifyStage1 (s.trust.imageLen.getD 0)) := by
  change execBootStep s = _
  rw [execBootStep, hp]
  rfl

theorem exec_bootStep_training {s : State} (hp : s.trust.phase = .step 3) : exec .bootStep s = .next s.trainLinks := by
  change execBootStep s = _
  rw [execBootStep, hp]
  rfl

theorem exec_bootStep_kernel {s : State} {n : Nat} (hp : s.trust.phase = .step 4) (hi : s.trust.imageLen = some n) :
    exec .bootStep s = .next (s.startPorters n) := by
  change execBootStep s = _
  rw [execBootStep, hp]
  refine congrArg Host.Outcome.next ?_
  rw [hi]
  rfl

/-- Stage 1 verified: the slot of its key, its measurement, and its place free for the next image (R392, R393). -/
theorem verifyStage1_verified {s : State} {n : Nat}
    (h : s.trust.verify (viewImage s.trust.image n) (if s.trust.recovery then 3 else 1) s.sourceNow = true) :
    let v := viewImage s.trust.image n
    let t := s.verifyStage1 n
    t.trust.phase = .step 3 ∧ t.host.ready = s.host.ready ||| 0x2 ∧ t.trust.stageSlot = v.slot ∧ t.trust.imageLen = none ∧
      Tab.getD t.trust.meas 1 0 = Config.sha3_256
        (hashBytes (Tab.getD s.trust.meas 1 0) ++ (hashBytes v.digest ++ [BitVec.ofNat 8 v.slot])) := by
  intro v t
  have ht : t = _ := if_pos h
  clear_value t
  subst ht
  refine ⟨rfl, rfl, rfl, rfl, ?_⟩
  refine (congrArg (fun o : Option (BitVec 256) => o.getD 0) (tab_get?_set s.trust.meas 1 1 _)).trans ?_
  rw [if_pos rfl]
  rfl

theorem verifyStage1_failed {s : State} {n : Nat}
    (h : ¬ s.trust.verify (viewImage s.trust.image n) (if s.trust.recovery then 3 else 1) s.sourceNow = true) :
    s.verifyStage1 n = s.failBoot 1 := if_neg h

/-- The state of a device whose HBM and link have trained, before READY.LINKS. -/
def State.trained (s : State) : State :=
  let ports := (List.range 16).filterMap fun p => if Config.portTrains s.freeCtr p then some (p, (⟨8, true, 0⟩ : Port)) else none
  (({ s with freeCtr := s.freeCtr + 1, link := { s.link with ports := ports } }).modTrust fun t =>
    { t with phase := .step 4, phaseSince := s.clock }).setReady 0xC

theorem trainLinks_trained {s : State} (h : Config.hbmTrains s.freeCtr = true) : s.trainLinks = s.trained.linksReady := if_pos h

theorem trainLinks_failed {s : State} (h : ¬ Config.hbmTrains s.freeCtr = true) :
    s.trainLinks = State.failBoot { s with freeCtr := s.freeCtr + 1 } 2 := if_neg h

/-- READY.LINKS rises once DEVID is valid, where the link is trained. -/
theorem ready_linksReady {s : State} (h : s.host.ready.getLsbD 2 = true) :
    s.linksReady.trust = s.trust ∧ s.linksReady.host.ready = s.host.ready ||| (if s.link.devValid then 0x40 else 0) := by
  unfold State.linksReady
  rw [h, Bool.and_true]
  cases s.link.devValid
  · exact ⟨rfl, (BitVec.or_zero).symm⟩
  · exact ⟨rfl, rfl⟩

/-- The state of a device whose porters run the kernel from its first byte. -/
def State.kernelStarted (s : State) (n : Nat) : State :=
  let v := viewImage s.trust.image n
  let payload := Mem.readBytes s.trust.image 4096 v.length
  let u := if s.sourceNow = 3 then s else s.modMem fun m => { m with bytes := Mem.writeBytes m.bytes s.kernelBase payload }
  let u := u.modTrust fun t => { t with phase := .step 5, phaseSince := u.clock, runSvn := Tab.set t.runSvn 2 v.svn }.extend 2
    (hashBytes v.digest ++ [BitVec.ofNat 8 v.slot])
  (u.portersSet { Porter.fresh with pc := BitVec.ofNat 64 s.kernelBase } Config.numClusters).dropImage.setReady 0x190

theorem startPorters_verified {s : State} {n : Nat}
    (h : s.trust.verify (viewImage s.trust.image n) 2 s.sourceNow = true) : s.startPorters n = s.kernelStarted n := if_pos h

theorem startPorters_failed {s : State} {n : Nat}
    (h : ¬ s.trust.verify (viewImage s.trust.image n) 2 s.sourceNow = true) : s.startPorters n = s.failBoot 4 := if_neg h

theorem kernelStarted_started {s : State} {n : Nat} :
    let v := viewImage s.trust.image n
    let t := s.kernelStarted n
    t.trust.phase = .step 5 ∧ t.host.ready = s.host.ready ||| 0x190 ∧
      (s.sourceNow ≠ 3 → ∀ i, i < v.length → Mem.read t.mem.bytes (s.kernelBase + i) = Mem.read s.trust.image (4096 + i)) ∧
      (s.sourceNow = 3 → t.mem = s.mem) ∧
      ∀ cl, cl < Config.numClusters → (t.porter cl).pc = BitVec.ofNat 64 s.kernelBase ∧ (t.porter cl).mode = .machine := by
  intro v t
  obtain ⟨p, hp⟩ : ∃ p, p = { Porter.fresh with pc := BitVec.ofNat 64 s.kernelBase } := ⟨_, rfl⟩
  obtain ⟨u, hu⟩ : ∃ u, u = (if s.sourceNow = 3 then s else s.modMem fun m =>
    { m with bytes := Mem.writeBytes m.bytes s.kernelBase (Mem.readBytes s.trust.image 4096 v.length) }) := ⟨_, rfl⟩
  obtain ⟨w, hw⟩ : ∃ w, w = u.modTrust fun t => { t with
    phase := .step 5, phaseSince := u.clock, runSvn := Tab.set t.runSvn 2 v.svn }.extend 2
      (hashBytes v.digest ++ [BitVec.ofNat 8 v.slot]) := ⟨_, rfl⟩
  have ht : t = (w.portersSet p Config.numClusters).dropImage.setReady 0x190 := by rw [hw, hp, hu]; rfl
  clear_value t
  have hrest := portersSet_clusters w p Config.numClusters
  have hporters : ∀ cl, cl < Config.numClusters → (w.portersSet p Config.numClusters).porter cl = p :=
    fun cl hcl => porter_portersSet w p hcl
  generalize w.portersSet p Config.numClusters = x at ht hrest hporters
  have hhost : u.host = s.host := by rw [hu]; split <;> rfl
  have hphase : w.trust.phase = .step 5 := by rw [hw]; rfl
  have hwhost : w.host = u.host := by rw [hw]; rfl
  have hwmem : w.mem = u.mem := by rw [hw]; rfl
  have hmem : t.mem = u.mem := by
    rw [ht, ← hwmem]
    exact (congrArg State.mem hrest :)
  refine ⟨?_, ?_, fun h i hi => ?_, fun h => ?_, fun cl hcl => ?_⟩
  · rw [ht, ← hphase]
    exact (congrArg (fun x => x.trust.phase) hrest :)
  · rw [ht, ← hhost, ← hwhost]
    exact (congrArg (fun x => x.host.ready ||| 0x190) hrest :)
  · rw [hmem, hu, if_neg h]
    refine (mem_read_writeBytes_readBytes s.mem.bytes s.trust.image s.kernelBase 4096 v.length _).trans ?_
    rw [if_pos ⟨Nat.le_add_right _ _, Nat.add_lt_add_left hi _⟩, Nat.add_sub_cancel_left]
  · rw [hmem, hu, if_pos h]
  · have hporter : t.porter cl = p := by
      rw [ht]
      exact hporters cl hcl
    rw [hporter, hp]
    exact ⟨rfl, rfl⟩

/-! ## BOOTOK (R382, R387, R392) -/

theorem exec_bootok {s u : State} {c : Commit} (h : HeadCommit s (regSpace + 0x100018) c u) (hc : bits (c.dword 0) 0 1 = 1)
    (hp : s.trust.phase = .step 5) : exec .bootok s = .next (((u.modTrust fun t =>
      { t with phase := .booted, svn := s.trust.runSvn.foldl svnRaise t.svn }).modHost fun h => { h with fails := 0 }).setReady 0x20) := by
  have htrust : u.trust = s.trust := (congrArg State.trust h.eq :)
  change execBootok s = _
  rw [execBootok, h.take]
  refine congrArg Host.Outcome.next ((if_pos ⟨hc, htrust ▸ hp⟩).trans ?_)
  rw [← htrust]
  rfl

/-! ## Deadlines (R382) -/

theorem exec_porterBootTimeout {s : State} (hp : s.trust.phase = .step 5)
    (hc : s.trust.phaseSince + 60000000 * Config.cyclesPerUs ≤ s.clock) : exec .porterBootTimeout s = .next (s.failBoot 5) :=
  congrArg Host.Outcome.next (if_pos ⟨hp, hc⟩)

theorem exec_watchdog {s : State} {n : Nat} (hp : s.trust.phase = .step n) : exec .watchdog s = .next (s.failBoot 6) := by
  change execWatchdog s = _
  rw [execWatchdog, hp]

theorem exec_imageSourceTimeout {s : State} (hp : s.trust.phase = .step 1 ∨ s.trust.phase = .step 4) (hi : s.trust.imageLen = none)
    (hc : s.trust.phaseSince + 10000000 * Config.cyclesPerUs ≤ s.clock) : exec .imageSourceTimeout s = .next s.nextSource :=
  congrArg Host.Outcome.next (if_pos ⟨hp, hi, hc⟩)

/-! ## The staging window (R385) -/

/-- A state in which only the commits differ takes an image where the other does. -/
theorem takes_iff {s u : State} {reg : Nat} {c : Commit} (h : HeadCommit s reg c u) (ht : s.takesImage = true) (hb : s.host.busy = false) :
    ¬ (!u.takesImage || u.host.busy) = true := by
  have htakes : u.takesImage = s.takesImage := (congrArg State.takesImage h.eq).trans rfl
  have hbusy : u.host.busy = s.host.busy := (congrArg (fun x => x.host.busy) h.eq :)
  rw [htakes, hbusy, ht, hb]
  exact Bool.false_ne_true

theorem exec_stagingTotal {s u : State} {c : Commit} (h : HeadCommit s (windowSpace + 0x1FF010) c u) (ht : s.takesImage = true)
    (hb : s.host.busy = false) : exec .stagingTotal s = .next (
      if 4096 ≤ c.dword 0 % 2 ^ 32 ∧ c.dword 0 % 2 ^ 32 ≤ 2 ^ 22 then
        (u.modHost fun h => { h with total := BitVec.ofNat 32 (c.dword 0 % 2 ^ 32) }).modTrust fun t =>
          { t with imageLen := some (c.dword 0 % 2 ^ 32) }
      else (u.modHost fun h => { h with refused := true }).nextSource) := by
  change execStagingTotal s = _
  rw [execStagingTotal, h.take]
  exact congrArg Host.Outcome.next (if_neg (takes_iff h ht hb))

/-- A chunk announced that lies in the image memory as R385 asks. -/
def chunkOk (off n : Nat) : Prop := off % 4096 = 0 ∧ n ≠ 0 ∧ n % 4 = 0 ∧ n ≤ 0x1FF000 ∧ off + n ≤ 2 ^ 22

theorem exec_stagingChunklen {s u : State} {c : Commit} (h : HeadCommit s (windowSpace + 0x1FF008) c u) (ht : s.takesImage = true)
    (hb : s.host.busy = false) :
    (chunkOk s.host.chunkOff.toNat (c.dword 0 % 2 ^ 32) → exec .stagingChunklen s = .next { u with host :=
      { s.host with chunkLen := BitVec.ofNat 32 (c.dword 0 % 2 ^ 32), busy := true, taken := false, refused := false } }) ∧
    (¬ chunkOk s.host.chunkOff.toNat (c.dword 0 % 2 ^ 32) → exec .stagingChunklen s = .next { u with host :=
      { s.host with refused := true, taken := false } }) := by
  have hhost : u.host = s.host := (congrArg State.host h.eq :)
  change (_ → execStagingChunklen s = _) ∧ (_ → execStagingChunklen s = _)
  rw [execStagingChunklen, h.take, ← hhost]
  exact ⟨fun hok => congrArg Host.Outcome.next ((if_neg (takes_iff h ht hb)).trans (if_pos hok)),
    fun hok => congrArg Host.Outcome.next ((if_neg (takes_iff h ht hb)).trans (if_neg hok))⟩

theorem exec_stagingChunkTaken {s : State} (hb : s.host.busy = true) : exec .stagingChunkTaken s = .next ((s.modTrust fun t =>
    { t with image := Mem.writeBytes t.image s.host.chunkOff.toNat (Mem.readBytes s.host.window 0 s.host.chunkLen.toNat) }).modHost
      fun h => { h with busy := false, taken := true }) :=
  congrArg Host.Outcome.next (if_pos hb)

/-! ## The obligation -/

/-- Settles O54: the boot steps, BOOTOK and its deadlines, and the staging window. -/
theorem bootStepsComplete : Obligations.BootStepsComplete := by
  unfold Obligations.BootStepsComplete
  refine ⟨fun s => ⟨fun hp hi => ⟨_, exec_bootStep_imageTaken hp hi, rfl, rfl⟩, fun hp => ?_, fun hp => ?_, fun n hp hi => ?_⟩,
    ⟨fun s u c h hc hp => ?_, fun s => ⟨fun hp hc => ⟨_, exec_porterBootTimeout hp hc, failBoot_failed s 5⟩,
      fun n hp => ⟨_, exec_watchdog hp, failBoot_failed s 6⟩, fun hp hi hc => ?_⟩⟩,
    fun s u c h ht hb => ?_, fun s hb => ?_, fun s u c h ht hb => ⟨fun hn => ?_, fun hn => ?_⟩⟩
  case refine_1 =>
    by_cases hv : s.trust.verify (viewImage s.trust.image (s.trust.imageLen.getD 0)) (if s.trust.recovery then 3 else 1) s.sourceNow = true
    · rw [if_pos hv]
      exact ⟨_, exec_bootStep_stage1 hp, verifyStage1_verified hv⟩
    · rw [if_neg hv]
      exact ⟨_, (exec_bootStep_stage1 hp).trans (congrArg Host.Outcome.next (verifyStage1_failed hv)), failBoot_failed s 1⟩
  case refine_2 =>
    split
    · next hv =>
      have htwo : s.trained.host.ready.getLsbD 2 = true := by
        rw [show s.trained.host.ready = s.host.ready ||| 0xC from rfl, BitVec.getLsbD_or]
        exact Bool.or_true _
      obtain ⟨htrust, hready⟩ := ready_linksReady htwo
      refine ⟨_, (exec_bootStep_training hp).trans (congrArg Host.Outcome.next (trainLinks_trained hv)), ?_, ?_, ?_, ?_⟩
      · rw [htrust]; rfl
      · rw [hready, BitVec.getLsbD_or, htwo, Bool.true_or]
      · rw [hready, show s.trained.host.ready = s.host.ready ||| 0xC from rfl, BitVec.getLsbD_or, BitVec.getLsbD_or,
          show (0xC : BitVec 10).getLsbD 3 = true from rfl, Bool.or_true, Bool.true_or]
      · rw [hready, show s.trained.host.ready = s.host.ready ||| 0xC from rfl, show s.trained.link.devValid = s.link.devValid from rfl,
          BitVec.getLsbD_or, BitVec.getLsbD_or, show (0xC : BitVec 10).getLsbD 6 = false from rfl, Bool.or_false]
        cases s.link.devValid <;> rfl
    · next hv =>
      exact ⟨_, (exec_bootStep_training hp).trans (congrArg Host.Outcome.next (trainLinks_failed hv)),
        (failBoot_failed { s with freeCtr := s.freeCtr + 1 } 2).congr rfl rfl⟩
  case refine_3 =>
    dsimp only
    split
    · next hv =>
      exact ⟨_, (exec_bootStep_kernel hp hi).trans (congrArg Host.Outcome.next (startPorters_verified hv)), kernelStarted_started⟩
    · next hv =>
      exact ⟨_, (exec_bootStep_kernel hp hi).trans (congrArg Host.Outcome.next (startPorters_failed hv)), failBoot_failed s 4⟩
  case refine_4 =>
    have htrust : u.trust = s.trust := (congrArg State.trust h.eq :)
    refine ⟨_, exec_bootok h hc hp, rfl, rfl, ?_, fun hw k v hk => ?_, (congrArg State.mem h.eq :), (congrArg State.clusters h.eq :)⟩
    · exact (congrArg (fun x => x.host.ready ||| 0x20) h.eq :)
    · rw [← htrust] at hw hk ⊢
      exact tab_getD_raised hw hk u.trust.svn
  case refine_5 =>
    split
    · next hl =>
      exact ⟨_, (exec_imageSourceTimeout hp hi hc).trans (congrArg Host.Outcome.next (nextSource_next hl)), hl.1, rfl, rfl, rfl⟩
    · next hl =>
      exact ⟨_, (exec_imageSourceTimeout hp hi hc).trans (congrArg Host.Outcome.next (nextSource_failed hl)), failBoot_failed s 3⟩
  case refine_6 =>
    intro n off
    obtain ⟨htaken, hrefused⟩ := exec_stagingChunklen h ht hb
    split
    · next hok => exact htaken hok
    · next hok => exact hrefused hok
  case refine_7 =>
    refine ⟨_, exec_stagingChunkTaken hb, rfl, fun a => ?_⟩
    refine (mem_read_writeBytes_readBytes s.trust.image s.host.window s.host.chunkOff.toNat 0 s.host.chunkLen.toNat a).trans ?_
    rw [Nat.zero_add]
  case refine_8 =>
    refine (exec_stagingTotal h ht hb).trans (congrArg Host.Outcome.next ((if_pos hn).trans ?_))
    have hhost : u.host = s.host := (congrArg State.host h.eq :)
    have htrust : u.trust = s.trust := (congrArg State.trust h.eq :)
    rw [← hhost, ← htrust]
    rfl
  case refine_9 =>
    have hgo := (exec_stagingTotal h ht hb).trans (congrArg Host.Outcome.next (if_neg hn))
    have hhost : u.host = s.host := (congrArg State.host h.eq :)
    have htrust : u.trust = s.trust := (congrArg State.trust h.eq :)
    have hleft : (u.modHost fun h => { h with refused := true }).SourceLeft ↔ s.SourceLeft := by
      rw [State.SourceLeft, State.SourceLeft, ← hhost, ← htrust]
      rfl
    split
    · next hl =>
      refine ⟨_, hgo.trans (congrArg Host.Outcome.next (nextSource_next (hleft.2 hl))), ?_, ?_, rfl⟩
      · exact (congrArg Trust.phase htrust).trans hl.1
      · exact congrArg (fun t => t.sourceTry + 1) htrust
    · next hl =>
      exact ⟨_, hgo.trans (congrArg Host.Outcome.next (nextSource_failed (mt hleft.1 hl))),
        (failBoot_failed _ 3).congr (congrArg HostRegs.fails hhost :) (congrArg Trust.recovery htrust :)⟩

end Sys2Proof.Machine
end

