-- ==== Sys2Proof/Proofs/Responder.lean ====
section
/-! PROOFS. The SPDM responder, IDE_KM, the key-slot commands and MEXT (R389, R391, R393, R401). -/

namespace Sys2Proof.Machine

/-! ## A request at the head (R389) -/

/-- The state after the request at the head has been taken. -/
def State.popped (s : State) (rest : List (List Byte)) : State := s.modTrust fun t => { t with inbox := rest }

section
variable {s : State} {m : List Byte} {rest : List (List Byte)} (hi : s.trust.inbox = m :: rest)
include hi

theorem spdm_head {c : SpdmCode} (hm : m.getD 1 0 = c.request) (allowed : SpdmState → Bool) (act : State → List Byte → State) :
    s.spdm c allowed act = if !s.spdmReady then s.popped rest else
      if allowed s.trust.spdm then act (s.popped rest) m else (s.popped rest).unexpected := by
  rw [State.spdm, hi]
  exact if_pos hm

theorem spdm_lost {c : SpdmCode} (hm : m.getD 1 0 = c.request) (hr : s.spdmReady = false) (allowed : SpdmState → Bool)
    (act : State → List Byte → State) : s.spdm c allowed act = s.popped rest := by
  rw [spdm_head hi hm, hr]
  rfl

theorem spdm_unexpected {c : SpdmCode} (hm : m.getD 1 0 = c.request) (hr : s.spdmReady = true) {allowed : SpdmState → Bool}
    (ha : allowed s.trust.spdm = false) (act : State → List Byte → State) :
    s.spdm c allowed act = (s.popped rest).unexpected := by
  rw [spdm_head hi hm, hr, ha]
  rfl

theorem spdm_answered {c : SpdmCode} (hm : m.getD 1 0 = c.request) (hr : s.spdmReady = true) {allowed : SpdmState → Bool}
    (ha : allowed s.trust.spdm = true) (act : State → List Byte → State) : s.spdm c allowed act = act (s.popped rest) m := by
  rw [spdm_head hi hm, hr, ha]
  rfl

end

/-- The connection taken on, where the request does that. -/
def State.spdmOn (s : State) (next : Option SpdmState) : State :=
  match next with
  | some x => s.spdmTo x
  | none => s

/-- An instruction that answers one request of the responder where the connection allows it. -/
structure Responds (i : Instr) (c : SpdmCode) (states : List SpdmState) (next : Option SpdmState) (allowed : SpdmState → Bool)
    (data : State → List Byte) : Prop where
  exec : ∀ s, Machine.exec i s = .next (s.spdm c allowed fun s _ => (s.spdmOn next).respond c (data s))
  allows : ∀ x, allowed x = true ↔ x ∈ states

/-- What the responder makes of one request, by how far the connection has come. -/
theorem Responds.answers {i : Instr} {c : SpdmCode} {states : List SpdmState} {next : Option SpdmState} {allowed : SpdmState → Bool}
    {data : State → List Byte} (h : Responds i c states next allowed data) {s : State} {m : List Byte} {rest : List (List Byte)}
    (hi : s.trust.inbox = m :: rest)
    (hdata : i = .getMeasurements → data (s.popped rest) = (List.range 8).flatMap fun j => hashBytes (Tab.getD s.trust.meas j 0))
    (hm : m.getD 1 0 = c.request) :
    let left (out : List (List Byte)) : State := { s with trust := { s.trust with inbox := rest, outbox := s.trust.outbox ++ out } }
    (s.spdmReady = false → Machine.exec i s = .next (left [])) ∧
    (s.spdmReady = true → s.trust.spdm ∉ states → Machine.exec i s = .next (left [[0x13, 0x7F, 0x04, 0]])) ∧
    (s.spdmReady = true → s.trust.spdm ∈ states → ∃ (t : State) (x y : Byte) (data : List Byte), Machine.exec i s = .next t ∧
      t.trust = { s.trust with
        inbox := rest, spdm := next.getD s.trust.spdm, outbox := s.trust.outbox ++ [[0x13, c.response, x, y] ++ data] } ∧
      (i = .getMeasurements → data = (List.range 8).flatMap fun j => hashBytes (Tab.getD s.trust.meas j 0))) := by
  intro left
  refine ⟨fun hr => ?_, fun hr hs => ?_, fun hr hs => ?_⟩
  · rw [h.exec, spdm_lost hi hm hr, show left [] = s.popped rest by simp only [left, List.append_nil]; rfl]
  · have ha : allowed s.trust.spdm = false := Bool.eq_false_iff.2 (mt (h.allows _).1 hs)
    rw [h.exec, spdm_unexpected hi hm hr ha]
    rfl
  · refine ⟨_, Config.spdmBytes s.freeCtr 0, Config.spdmBytes s.freeCtr 1, data (s.popped rest),
      (h.exec s).trans (congrArg Host.Outcome.next (spdm_answered hi hm hr ((h.allows _).2 hs) _)), ?_, hdata⟩
    cases next <;> rfl

theorem responds_getVersion : Responds .getVersion .getVersion [.idle, .version, .capabilities, .algorithms, .exchanging, .session]
    (some .version) (fun _ => true) (fun _ => []) := ⟨fun _ => rfl, fun x => by cases x <;> decide⟩

/-- A request that one state of the connection alone allows, and that takes it on. -/
theorem responds_from {i : Instr} {c : SpdmCode} {next : SpdmState} (state : SpdmState)
    (h : ∀ s, exec i s = .next (s.spdm c (fun x => x == state) fun s _ => (s.spdmTo next).respond c [])) :
    Responds i c [state] (some next) (fun x => x == state) (fun _ => []) :=
  ⟨h, fun x => by rw [beq_iff_eq, List.mem_singleton]⟩

/-- A request that any connection with its algorithms negotiated allows. -/
theorem responds_late {i : Instr} {c : SpdmCode} {data : State → List Byte}
    (h : ∀ s, exec i s = .next (s.spdm c negotiated fun s _ => s.respond c (data s))) :
    Responds i c [.algorithms, .exchanging, .session] none negotiated data :=
  ⟨h, fun x => by cases x <;> decide⟩

theorem responds_getMeasurements : Responds .getMeasurements .getMeasurements [.algorithms, .exchanging, .session] none negotiated
    (fun s => (List.range 8).flatMap fun j => hashBytes (Tab.getD s.trust.meas j 0)) := responds_late fun _ => rfl

/-! ## IDE_KM (R401) -/

section
variable {s : State} {m : List Byte} {rest : List (List Byte)} (hi : s.trust.inbox = m :: rest) (hr : s.spdmReady = true)
  (hs : s.trust.spdm = .session) (hm : m.getD 1 0 = 0xFE)
include hi hm

theorem vendorOp_head : s.vendorOp = (payload m).head? := by
  rw [State.vendorOp, hi]
  exact if_pos hm

include hr hs

/-- The keys of the streams that an IDE_KM message leaves. -/
theorem exec_ideKm (ho : (payload m).head? = some 0) {i : Nat} (hidx : ((payload m).getD 4 0).toNat = i) (h5 : i < 5) :
    ((payload m).getD 1 0 = 2 → exec .ideKm s = .next (((s.popped rest).modTrust fun t =>
      { t with ideKeys := Tab.set t.ideKeys i (BitVec.ofNat 256 (natOfBytes (((payload m).drop 8).take 32))) }).respond .vendor [])) ∧
    ((payload m).getD 1 0 = 5 → exec .ideKm s = .next (((s.popped rest).modTrust fun t =>
      { t with ideKeys := Tab.erase t.ideKeys i }).respond .vendor [])) := by
  subst hidx
  have hgo := spdm_answered hi (c := .vendor) hm hr (allowed := fun x => x == .session) (by rw [hs]; rfl)
  change (_ → execIdeKm s = _) ∧ (_ → execIdeKm s = _)
  rw [execIdeKm, if_neg (not_not.2 ((vendorOp_head hi hm).trans ho)), hgo]
  refine ⟨fun hprog => ?_, fun hclear => ?_⟩
  · refine congrArg (fun u : State => Host.Outcome.next (u.respond .vendor [])) ((if_neg (Nat.not_le.2 h5)).trans (if_pos hprog))
  · refine congrArg (fun u : State => Host.Outcome.next (u.respond .vendor []))
      ((if_neg (Nat.not_le.2 h5)).trans ((if_neg ?_).trans (if_pos hclear)))
    rw [hclear]
    decide

/-! ## Key-slot commands (R391) -/

theorem slotCommand_head (hp : s.trust.phase = .minimal) {o : Byte} (ho : (payload m).head? = some o) (h0 : o ≠ 0)
    {ops : Byte → Bool} (hops : ops o = true) (check : Trust → List Byte → SlotStatus) (act : State → List Byte → State × SlotStatus) :
    (check (s.popped rest).trust (payload m) ≠ .ok → s.slotCommand ops check act =
      (s.popped rest).respond .vendor ((s.popped rest).trust.slotResponse (check (s.popped rest).trust (payload m)))) ∧
    (check (s.popped rest).trust (payload m) = .ok → ∀ {u st}, act (s.popped rest) (payload m) = (u, st) →
      s.slotCommand ops check act = u.respond .vendor (u.trust.slotResponse st)) := by
  have hgo := spdm_answered hi (c := .vendor) hm hr (allowed := fun x => x == .session && s.trust.phase == .minimal)
    (by rw [hs, hp]; rfl)
  rw [State.slotCommand, vendorOp_head hi hm, ho]
  dsimp only
  rw [if_neg (by rw [hops]; exact not_or.2 ⟨h0, Bool.false_ne_true⟩), hgo]
  refine ⟨fun hst => ?_, fun hst u st hact => ?_⟩
  · cases h : check (s.popped rest).trust (payload m) with
    | ok => exact absurd h hst
    | _ => rfl
  · rw [hst]
    dsimp only
    rw [hact]

end

/-! ### Fuses (R391; log 44) -/

theorem fuse_reads {s : State} (h : Config.fuseReads s.freeCtr = true) (ok bad : Trust → Trust) :
    s.fuse ok bad = ({ s with freeCtr := s.freeCtr + 1 }.modTrust ok, .ok) := if_pos h

theorem fuse_fails {s : State} (h : ¬ Config.fuseReads s.freeCtr = true) (ok bad : Trust → Trust) :
    s.fuse ok bad = ({ s with freeCtr := s.freeCtr + 1 }.modTrust bad, .fuseFail) := if_neg h

/-- The answer to a key-slot command has gone out with its status. -/
def SlotTold (s t : State) (rest : List (List Byte)) (st : SlotStatus) : Prop :=
  t.trust.inbox = rest ∧ ∃ x y, t.trust.outbox = s.trust.outbox ++ [[0x13, 0x7E, x, y] ++ t.trust.slotResponse st]

/-- The status of a command whose conditions gave one: its fuses may not read back. -/
def State.slotRan (s : State) (st : SlotStatus) : SlotStatus :=
  if st = .ok then (if Config.fuseReads s.freeCtr then .ok else .fuseFail) else st

theorem slotRan_reads {s : State} {st : SlotStatus} (h : st = .ok) (hf : Config.fuseReads s.freeCtr = true) : s.slotRan st = .ok :=
  (if_pos h).trans (if_pos hf)

theorem slotRan_fails {s : State} {st : SlotStatus} (h : st = .ok) (hf : ¬ Config.fuseReads s.freeCtr = true) :
    s.slotRan st = .fuseFail := (if_pos h).trans (if_neg hf)

theorem slotRan_refused {s : State} {st : SlotStatus} (h : st ≠ .ok) : s.slotRan st = st := if_neg h

theorem slotTold_respond {s u : State} {rest : List (List Byte)} (hi : u.trust.inbox = rest) (ho : u.trust.outbox = s.trust.outbox)
    (st : SlotStatus) : SlotTold s (u.respond .vendor (u.trust.slotResponse st)) rest st :=
  ⟨hi, _, _, congrArg (· ++ _) ho⟩

section
variable {s : State} {m : List Byte} {rest : List (List Byte)} (hi : s.trust.inbox = m :: rest) (hr : s.spdmReady = true)
  (hs : s.trust.spdm = .session) (hm : m.getD 1 0 = 0xFE) (hp : s.trust.phase = .minimal)
include hi hr hs hm hp

/-- ENROL: the slot's fuses take the hash, where its conditions hold and they read back. -/
theorem enrol_answers (ho : (payload m).head? = some 1) :
    let p := payload m
    let slot := (p.getD 1 0).toNat
    ∃ t, exec .enrol s = .next t ∧ SlotTold s t rest (s.slotRan (s.trust.enrolStatus p)) ∧ t.trust.slots = s.trust.slots ∧
      (∀ j, j ≠ slot → Tab.get? t.trust.fuses j = Tab.get? s.trust.fuses j) ∧
      if s.trust.enrolStatus p = .ok then
        (Config.fuseReads s.freeCtr = true → Tab.getD t.trust.fuses slot 0 = BitVec.ofNat 256 (natOfBytes ((p.drop 4).take 32)))
      else t.trust.fuses = s.trust.fuses := by
  intro p slot
  obtain ⟨hrefused, hacts⟩ := slotCommand_head hi hr hs hm hp ho (by decide) (ops := (· == 1)) rfl Trust.enrolStatus fun s p =>
    s.fuse (fun t => { t with fuses := Tab.set t.fuses (p.getD 1 0).toNat (BitVec.ofNat 256 (natOfBytes ((p.drop 4).take 32))) })
      fun t => { t with fuses := Tab.set t.fuses (p.getD 1 0).toNat (Config.fuseLeft s.freeCtr) }
  have hsame : (s.popped rest).trust.enrolStatus p = s.trust.enrolStatus p := rfl
  rw [hsame] at hrefused hacts
  have hother : ∀ (x : BitVec 256) (j : Nat), j ≠ slot → Tab.get? (Tab.set s.trust.fuses slot x) j = Tab.get? s.trust.fuses j :=
    fun x j hj => (tab_get?_set _ _ _ _).trans (if_neg hj)
  by_cases hok : s.trust.enrolStatus p = .ok
  · by_cases hf : Config.fuseReads s.freeCtr = true
    · rw [slotRan_reads hok hf]
      refine ⟨_, congrArg Host.Outcome.next (hacts hok (fuse_reads (s := s.popped rest) hf _ _)), slotTold_respond rfl rfl _, rfl,
        hother _, (if_pos hok).mpr fun _ => ?_⟩
      exact (congrArg (fun o : Option (BitVec 256) => o.getD 0) ((tab_get?_set s.trust.fuses slot slot _).trans (if_pos rfl)) :)
    · rw [slotRan_fails hok hf]
      exact ⟨_, congrArg Host.Outcome.next (hacts hok (fuse_fails (s := s.popped rest) hf _ _)), slotTold_respond rfl rfl _, rfl,
        hother _, (if_pos hok).mpr fun h => absurd h hf⟩
  · rw [slotRan_refused hok]
    exact ⟨_, congrArg Host.Outcome.next (hrefused hok), slotTold_respond rfl rfl _, rfl, fun _ _ => rfl, (if_neg hok).mpr rfl⟩

/-- REVOKE: the slot's revocation fuse is blown, where its conditions hold and it reads back. -/
theorem revoke_answers (ho : (payload m).head? = some 2) :
    let p := payload m
    let slot := (p.getD 1 0).toNat
    ∃ t, exec .revoke s = .next t ∧ SlotTold s t rest (s.slotRan (s.trust.revokeStatus p)) ∧ t.trust.fuses = s.trust.fuses ∧
      if s.trust.revokeStatus p = .ok ∧ Config.fuseReads s.freeCtr = true then t.trust.isRevoked slot = true
      else t.trust.fuseRevoked = s.trust.fuseRevoked := by
  intro p slot
  obtain ⟨hrefused, hacts⟩ := slotCommand_head hi hr hs hm hp ho (by decide) (ops := (· == 2)) rfl Trust.revokeStatus fun s p =>
    s.fuse (fun t => { t with fuseRevoked := NatSet.add t.fuseRevoked (p.getD 1 0).toNat }) id
  have hsame : (s.popped rest).trust.revokeStatus p = s.trust.revokeStatus p := rfl
  rw [hsame] at hrefused hacts
  by_cases hok : s.trust.revokeStatus p = .ok
  · by_cases hf : Config.fuseReads s.freeCtr = true
    · rw [slotRan_reads hok hf]
      refine ⟨_, congrArg Host.Outcome.next (hacts hok (fuse_reads (s := s.popped rest) hf _ _)), slotTold_respond rfl rfl _, rfl,
        (if_pos ⟨hok, hf⟩).mpr ?_⟩
      refine (natSet_has_add s.trust.fuseRevoked slot slot).trans ?_
      rw [beq_self_eq_true, Bool.or_true]
    · rw [slotRan_fails hok hf]
      exact ⟨_, congrArg Host.Outcome.next (hacts hok (fuse_fails (s := s.popped rest) hf _ _)), slotTold_respond rfl rfl _, rfl,
        (if_neg fun h => hf h.2).mpr rfl⟩
  · rw [slotRan_refused hok]
    exact ⟨_, congrArg Host.Outcome.next (hrefused hok), slotTold_respond rfl rfl _, rfl, (if_neg fun h => hok h.1).mpr rfl⟩

/-- QUERY, and the refusal of any other opcode. -/
theorem query_answers {o : Byte} (ho : (payload m).head? = some o) (h0 : o ≠ 0) (h1 : o ≠ 1) (h2 : o ≠ 2) :
    ∃ t, exec .query s = .next t ∧ SlotTold s t rest (if o = 3 then .ok else .badOp) ∧ t.trust.fuses = s.trust.fuses ∧
      t.trust.fuseRevoked = s.trust.fuseRevoked := by
  have hops : (o != 1 && o != 2) = true := by rw [bne_iff_ne.2 h1, bne_iff_ne.2 h2]; rfl
  have hcode : (payload m).getD 0 0 = o := by rw [List.getD_eq_getElem?_getD, ← List.head?_eq_getElem?, ho]; rfl
  obtain ⟨hrefused, hacts⟩ := slotCommand_head hi hr hs hm hp ho h0 (ops := fun o => o != 1 && o != 2) hops
    (fun _ p => if p.getD 0 0 = 3 then .ok else .badOp) fun s _ => (s, .ok)
  rw [hcode] at hrefused hacts
  by_cases h3 : o = 3
  · rw [if_pos h3] at hacts ⊢
    exact ⟨_, congrArg Host.Outcome.next (hacts rfl rfl), slotTold_respond rfl rfl _, rfl, rfl⟩
  · rw [if_neg h3] at hrefused ⊢
    exact ⟨_, congrArg Host.Outcome.next (hrefused nofun), slotTold_respond rfl rfl _, rfl, rfl⟩

end

/-! ## MEXT (R393) -/

theorem exec_measurementExtend {s u : State} {c : Commit} (h : HeadCommit s (regSpace + 0x120200) c u) :
    exec .measurementExtend s = .next (if bits (c.dword 4) 0 3 < 4 then u
      else u.modTrust fun t => t.extend (bits (c.dword 4) 0 3) (bytesOfNat 32 (c.value % 2 ^ 256))) := by
  change execMeasurementExtend s = _
  rw [execMeasurementExtend, h.take]

/-! ## The obligation -/

/-- Settles O56: the responder, IDE_KM, the key-slot commands and MEXT. -/
theorem respondersAnswer : Obligations.RespondersAnswer := by
  unfold Obligations.RespondersAnswer
  refine ⟨fun s m rest hi => ?_, fun s m rest hi hr hs hm => ⟨fun ho h5 => ?_, fun hp => ?_⟩, fun s u c h => ⟨fun h4 => ?_, fun h4 => ?_⟩⟩
  case refine_1 =>
    intro late r hrow
    simp only [List.mem_cons, List.not_mem_nil, or_false] at hrow
    rcases hrow with rfl | rfl | rfl | rfl | rfl | rfl | rfl | rfl | rfl | rfl
    · exact responds_getVersion.answers hi nofun
    · exact (responds_from (i := .getCapabilities) .version fun _ => rfl).answers hi nofun
    · exact (responds_from (i := .negotiateAlgorithms) .capabilities fun _ => rfl).answers hi nofun
    · exact (responds_late (i := .getDigests) fun _ => rfl).answers hi nofun
    · exact (responds_late (i := .getCertificate) fun _ => rfl).answers hi nofun
    · exact (responds_late (i := .challenge) fun _ => rfl).answers hi nofun
    · exact responds_getMeasurements.answers hi fun _ => rfl
    · exact (responds_from (i := .keyExchange) .algorithms fun _ => rfl).answers hi nofun
    · exact (responds_from (i := .finish) .exchanging fun _ => rfl).answers hi nofun
    · exact (responds_from (i := .endSession) .session fun _ => rfl).answers hi nofun
  case refine_2 =>
    obtain ⟨hprog, hclear⟩ := exec_ideKm hi hr hs hm ho rfl h5
    refine ⟨fun hk => ⟨_, hprog hk, rfl, ?_⟩, fun hk => ⟨_, hclear hk, rfl, ?_⟩⟩
    · exact (tab_get?_set s.trust.ideKeys _ _ _).trans (if_pos rfl)
    · exact (tab_get?_erase s.trust.ideKeys _ _).trans (if_pos rfl)
  case refine_3 =>
    exact ⟨enrol_answers hi hr hs hm hp, revoke_answers hi hr hs hm hp, fun o ho h0 h1 h2 => query_answers hi hr hs hm hp ho h0 h1 h2⟩
  case refine_4 => exact (exec_measurementExtend h).trans (congrArg Host.Outcome.next (if_pos h4))
  case refine_5 =>
    have htrust : u.trust = s.trust := (congrArg State.trust h.eq :)
    refine (exec_measurementExtend h).trans (congrArg Host.Outcome.next ((if_neg (Nat.not_lt.2 h4)).trans ?_))
    rw [← htrust]
    rfl

end Sys2Proof.Machine
end

