-- ==== Sys2Proof/Proofs/StorageErrors.lean ====
section
/-! PROOFS. What an entry of the error log leaves of the marks and counters, and the errors of storage (R404 to R406). -/

namespace Sys2Proof.Machine

/-! ## What an entry of the log leaves alone (R406) -/

/-- The record of errors with another head, overflow count and quiet flag. -/
def Reliability.logMoved (r : Reliability) (ovf head seq : Nat) (quiet : Bool) : Reliability :=
  { r with errOvf := ovf, errHead := head, errSeq := seq, errQuiet := quiet }

theorem homeWrite_marks (s : State) (pa n x : Nat) :
    (s.homeWrite pa n x).mem.poison = s.mem.poison ∧ (s.homeWrite pa n x).mem.latent = s.mem.latent := by
  have h := homeWrite_keeps s pa n x
  simp only [Prod.mk.injEq] at h
  obtain ⟨hpoison, hlatent, -⟩ := h
  exact ⟨hpoison, hlatent⟩

/-- An entry changes the log's own fields of the record, and no mark. -/
theorem logError_leaves (s : State) (kind : LogKind) (unit index addr count asid : Nat) :
    let t := s.logError kind unit index addr count asid
    (∃ ovf head seq quiet, t.rel = s.rel.logMoved ovf head seq quiet) ∧ t.mem.poison = s.mem.poison ∧ t.mem.latent = s.mem.latent := by
  intro t
  have hwrites (x y a b : Nat) : ((s.homeWrite x 32 a).homeWrite y 32 b).mem.poison = s.mem.poison ∧
      ((s.homeWrite x 32 a).homeWrite y 32 b).mem.latent = s.mem.latent := by
    obtain ⟨hp, hl⟩ := homeWrite_marks s x 32 a
    obtain ⟨hp', hl'⟩ := homeWrite_marks (s.homeWrite x 32 a) y 32 b
    exact ⟨hp'.trans hp, hl'.trans hl⟩
  have ht : t = s.logError kind unit index addr count asid := rfl
  clear_value t
  unfold State.logError at ht
  dsimp only at ht
  split at ht
  · subst ht
    exact ⟨⟨_, s.rel.errHead, s.rel.errSeq, s.rel.errQuiet, rfl⟩, rfl, rfl⟩
  · split at ht
    · subst ht
      exact ⟨⟨s.rel.errOvf, _, _, _, rfl⟩, hwrites _ _ _ _⟩
    · subst ht
      exact ⟨⟨s.rel.errOvf, _, _, _, (sendChannel_keeps _ _ _ _).2⟩,
        (congrArg MemState.poison (sendChannel_keeps _ _ _ _).1 :).trans (hwrites _ _ _ _).1,
        (congrArg MemState.latent (sendChannel_keeps _ _ _ _).1 :).trans (hwrites _ _ _ _).2⟩

theorem poison_logError (s : State) (kind : LogKind) (unit index addr count asid : Nat) :
    (s.logError kind unit index addr count asid).mem.poison = s.mem.poison := (logError_leaves s kind unit index addr count asid).2.1

theorem latent_logError (s : State) (kind : LogKind) (unit index addr count asid : Nat) :
    (s.logError kind unit index addr count asid).mem.latent = s.mem.latent := (logError_leaves s kind unit index addr count asid).2.2

/-! ## Errors where they stand (R404) -/

theorem exec_storageError {s : State} (h : s.trust.phase ≠ .scrub) (p : ErrPlace) :
    exec (.storageError p true) s = .next (s.uncorrectable p) :=
  congrArg Host.Outcome.next ((if_pos (Bool.true_or _)).trans (if_neg h))

/-- A parity error of a cache or a TLB is never corrected in place. -/
theorem exec_storageError_cache {s : State} (h : s.trust.phase ≠ .scrub) (c line : Nat) (fatal : Bool) :
    exec (.storageError (.cache c line) fatal) s = .next (s.uncorrectable (.cache c line)) :=
  congrArg Host.Outcome.next ((if_pos (Bool.or_true _)).trans (if_neg h))

theorem exec_storageError_tlb {s : State} (h : s.trust.phase ≠ .scrub) (c j : Nat) (fatal : Bool) :
    exec (.storageError (.tlb c j) fatal) s = .next (s.uncorrectable (.tlb c j)) :=
  congrArg Host.Outcome.next ((if_pos (Bool.or_true _)).trans (if_neg h))

theorem exec_storageError_correctable (s : State) (pa : Nat) : exec (.storageError (.hbm pa) false) s =
    .next (s.correctable 0 (Config.homeSlice (lineOf pa)).val (32 * atomOf pa) 0) := rfl

theorem uncorrectable_l2 (s : State) (pa : Nat) : s.uncorrectable (.l2 pa) =
    (s.markAtom pa).logError .poisoned 1 (Config.homeSlice (lineOf pa)).val (32 * atomOf pa) 1 0 := rfl

theorem bit_set {w : Nat} (x : BitVec w) {r : Nat} (h : r < w) : (x ||| BitVec.twoPow w r).getLsbD r = true := by
  rw [BitVec.getLsbD_or, BitVec.getLsbD_twoPow, decide_eq_true h, decide_eq_true rfl, Bool.and_self, Bool.or_true]

theorem natSet_has_add_self (l : NatSet) (n : Nat) : NatSet.has (NatSet.add l n) n = true := by
  rw [natSet_has_add, beq_self_eq_true, Bool.or_true]

/-- One gang's element changed, as the gang is found after. -/
theorem gang?_modGang_same {s : State} {k : Nat} {g : Gang} (h : s.gang? k = some g) (f : Gang → Gang) :
    (s.modGang k f).gang? k = some (f g) := by
  rw [State.gang?_modGang, if_pos rfl, h]
  rfl

theorem thread_modThread_same {g : Gang} {l : Nat} (h : l < g.threads.length) (f : Thread → Thread) :
    (g.modThread l f).thread l = f (g.thread l) := (Gang.thread_modThread g l l f).trans (if_pos ⟨rfl, h⟩)

theorem slice_modSlice_same {g : Gang} {i : Nat} (h : i < g.slices.length) (f : SliceState → SliceState) :
    (g.modSlice i f).slice i = f (g.slice i) := (Gang.slice_modSlice g i i f).trans (if_pos ⟨rfl, h⟩)

/-- A tile's poison mark, and its entry. -/
theorem uncorrectable_tile (s : State) (c i : Nat) :
    (Tab.getD ((s.uncorrectable (.tile c i)).core c).tiles i .fresh).poison = true ∧ s.Still (s.uncorrectable (.tile c i)) := by
  obtain ⟨u, hu⟩ : ∃ u, u = s.modCore c fun x => { x with tiles := Tab.set x.tiles i { Tab.getD x.tiles i .fresh with poison := true } } :=
    ⟨_, rfl⟩
  obtain ⟨asid, ht⟩ : ∃ asid, s.uncorrectable (.tile c i) = u.logError .poisoned 2 c 0 1 asid := ⟨_, by rw [hu]; rfl⟩
  have hcore : (u.logError .poisoned 2 c 0 1 asid).core c = u.core c := by
    rw [State.core, cores_logError, State.core]
  rw [ht, hcore]
  refine ⟨?_, still_pre (still_logError u _ _ _ _ _ _) ?_ ?_ ?_ ?_⟩
  · rw [hu, State.core_modCore, if_pos rfl]
    refine (congrArg (fun o : Option Tile => (o.getD .fresh).poison) ((tab_get?_set _ _ _ _).trans (if_pos rfl)) :)
  all_goals rw [hu]; rfl

/-- A monitor lost fires once more. -/
theorem uncorrectable_monitor {s : State} {n : Nat} {m : Monitor} (h : s.mem.monitors[n]? = some m) :
    (s.uncorrectable (.monitor n)).mem.monitors.length + 1 = s.mem.monitors.length ∧
      ∀ g, s.gang? m.key = some g → (s.uncorrectable (.monitor n)).gang? m.key = some (g.latch m.slot) := by
  have ht : s.uncorrectable (.monitor n) = (s.fireMonitor m).modMem fun x => { x with monitors := x.monitors.eraseIdx n } := by
    unfold State.uncorrectable
    dsimp only
    rw [h]
  have hn : n < s.mem.monitors.length := (List.getElem?_eq_some_iff.1 h).1
  have hlen : (s.fireMonitor m).mem.monitors.length = s.mem.monitors.length := List.length_map ..
  rw [ht]
  refine ⟨?_, fun g hg => ?_⟩
  · have herase := List.length_eraseIdx_add_one (l := (s.fireMonitor m).mem.monitors) (i := n) (by rw [hlen]; exact hn)
    exact herase.trans hlen
  · change (s.fireMonitor m).gang? m.key = _
    rw [State.fireMonitor, State.gang?_modGang, if_pos rfl]
    exact congrArg (Option.map fun g => g.latch m.slot) hg

/-! ## Correctable errors (R406) -/

/-- The first correctable error of a slice is entered, and starts its millisecond. -/
theorem correctable_first {s : State} {i addr : Nat} (h : Tab.get? s.rel.ceLast i = none) :
    let t := s.correctable 0 i addr 0
    s.Still t ∧ Tab.get? t.rel.ceLast i = some s.clock ∧ Logged s t .ce 0 i addr (Tab.getD s.rel.ceCount i 0 + 1) 0 := by
  intro t
  obtain ⟨u, hu⟩ : ∃ u, u = { s with rel := { s.rel with ceLast := Tab.set s.rel.ceLast i s.clock } } := ⟨_, rfl⟩
  have ht : t = u.logError .ce 0 i addr (Tab.getD s.rel.ceCount i 0 + 1) 0 := by
    simp only [t, State.correctable, Nat.mul_zero, Nat.zero_add, h]
    rw [hu]
  clear_value t
  have hlogged := logError_logged u .ce 0 i addr (Tab.getD s.rel.ceCount i 0 + 1) 0
  obtain ⟨⟨ovf, head, seq, quiet, hrel⟩, -⟩ := logError_leaves u .ce 0 i addr (Tab.getD s.rel.ceCount i 0 + 1) 0
  rw [← ht] at hlogged hrel
  refine ⟨?_, ?_, ?_⟩
  · rw [ht]
    refine still_pre (still_logError u _ _ _ _ _ _) ?_ ?_ ?_ ?_
    all_goals rw [hu]
  · rw [hrel, hu]
    exact (tab_get?_set s.rel.ceLast i i s.clock).trans (if_pos rfl)
  · rw [hu] at hlogged
    exact hlogged

/-- Within the millisecond a correctable error is counted alone. -/
theorem correctable_again {s : State} {i addr c : Nat} (h : Tab.get? s.rel.ceLast i = some c)
    (hc : s.clock < c + 1000 * Config.cyclesPerUs) : s.correctable 0 i addr 0 =
      { s with rel := { s.rel with ceCount := Tab.set s.rel.ceCount i (Tab.getD s.rel.ceCount i 0 + 1) } } := by
  simp only [State.correctable, Nat.mul_zero, Nat.zero_add, h]
  exact if_pos hc

/-! ## The patrol (R405) -/

theorem exec_patrolRead {s : State} {pa : Nat} (hb : s.inHbm pa = true) (hp : NatSet.has s.mem.poison (atomOf pa) = false)
    (hj : s.injects (32 * atomOf pa) 32 = false) (hl : NatSet.has s.mem.latent (atomOf pa) = true) :
    exec (.patrolRead pa) s = .next ((s.errorFound pa).logFresh pa 0) := by
  refine congrArg Host.Outcome.next ((if_neg ?_).trans ((if_neg ?_).trans ((if_neg ?_).trans (if_pos hl))))
  · rw [hb]; exact Bool.false_ne_true
  · rw [hj]; exact Bool.false_ne_true
  · rw [hp]; exact Bool.false_ne_true

/-- A latent error that the patrol finds is entered as FRESH; whether it stays is left open (log 43). -/
theorem patrolRead_enters {s : State} {pa : Nat} (hl : NatSet.has s.mem.latent (atomOf pa) = true) :
    let t := (s.errorFound pa).logFresh pa 0
    NatSet.has t.mem.latent (atomOf pa) = Config.errorStays s.freeCtr ∧ t.mem.poison = s.mem.poison ∧
      Logged s t .ueFresh 0 (Config.homeSlice (lineOf pa)).val (32 * atomOf pa) 1 0 ∧ s.Still t := by
  intro t
  obtain ⟨sl, hsl⟩ : ∃ sl, sl = (Config.homeSlice (lineOf pa)).val := ⟨_, rfl⟩
  obtain ⟨logged, ht⟩ : ∃ logged, t = State.logError { s.errorFound pa with mem := { (s.errorFound pa).mem with logged := logged } }
      .ueFresh 0 sl (32 * atomOf pa) 1 0 := ⟨_, by rw [hsl]; rfl⟩
  clear_value t
  rw [← hsl]
  obtain ⟨u, hu⟩ : ∃ u, u = { s.errorFound pa with mem := { (s.errorFound pa).mem with logged := logged } } := ⟨_, rfl⟩
  rw [← hu] at ht
  have hlogged := logError_logged u .ueFresh 0 sl (32 * atomOf pa) 1 0
  have hstill := still_logError u .ueFresh 0 sl (32 * atomOf pa) 1 0
  have hpoison := poison_logError u .ueFresh 0 sl (32 * atomOf pa) 1 0
  have hlatent := latent_logError u .ueFresh 0 sl (32 * atomOf pa) 1 0
  rw [← ht] at hlogged hstill hpoison hlatent
  refine ⟨?_, ?_, ?_, still_pre hstill ?_ ?_ ?_ ?_⟩
  · rw [hlatent, hu]
    change NatSet.has (if Config.errorStays s.freeCtr then s.mem.latent else NatSet.del s.mem.latent (atomOf pa)) (atomOf pa) = _
    cases Config.errorStays s.freeCtr
    · exact (natSet_has_del _ _ _).trans (by rw [bne_self_eq_false, Bool.and_false])
    · exact hl
  · rw [hpoison, hu]; rfl
  · rw [hu] at hlogged
    exact hlogged
  all_goals rw [hu]; rfl

/-! ## The obligation -/

/-- Settles O57: an error of storage is recorded where it stands, and the patrol enters what it finds. -/
theorem errorsAreRecorded : Obligations.ErrorsAreRecorded := by
  unfold Obligations.ErrorsAreRecorded
  refine ⟨fun s hphase => ⟨fun pa hb => ?_, fun pa => ?_, fun blk odd off b hblk => ?_, fun k l r g hg hl hr => ?_,
    fun k i r g hg hi hr => ?_, fun k l r g hg hl hr => ?_, fun c i => ?_, fun n m hm => ?_, fun c line fatal => ?_, fun c j fatal => ?_,
    ?_, fun pa => ⟨fun h => ?_, fun c h hc => ?_⟩⟩, fun s pa hb hp hj hl => ?_⟩
  case refine_1 =>
    refine ⟨_, (exec_storageError hphase _).trans (congrArg Host.Outcome.next (if_pos hb)), natSet_has_add_self _ _, rfl, rfl⟩
  case refine_2 =>
    refine ⟨_, (exec_storageError hphase _).trans (congrArg Host.Outcome.next (uncorrectable_l2 s pa)), ?_, ?_, ?_⟩
    · rw [poison_logError]
      exact natSet_has_add_self _ _
    · exact still_pre (still_logError (s.markAtom pa) _ _ _ _ _ _) rfl rfl rfl
    · exact logError_logged (s.markAtom pa) .poisoned 1 _ _ 1 0
  case refine_3 =>
    refine ⟨_, b.setHalf odd { b.half odd with latent := NatSet.add (b.half odd).latent (off / 8) }, exec_storageError hphase _, ?_, ?_, ?_⟩
    · refine (State.block?_modBlock s blk blk _).trans ((if_pos rfl).trans ?_)
      exact congrArg (Option.map _) hblk
    · rw [half_setHalf]
      exact natSet_has_add_self _ _
    · rw [half_setHalf]
  case refine_4 =>
    refine ⟨_, _, exec_storageError hphase _, gang?_modGang_same hg _, ?_, ?_⟩
    · rw [thread_modThread_same hl]
      exact bit_set _ hr
    · rw [thread_modThread_same hl]
  case refine_5 =>
    refine ⟨_, _, exec_storageError hphase _, gang?_modGang_same hg _, ?_, ?_⟩
    · rw [slice_modSlice_same hi]
      exact bit_set _ hr
    · rw [slice_modSlice_same hi]
  case refine_6 =>
    refine ⟨_, _, exec_storageError hphase _, gang?_modGang_same hg _, ?_, ?_⟩
    · rw [thread_modThread_same hl]
      exact bit_set _ hr
    · rw [thread_modThread_same hl]
  case refine_7 => exact ⟨_, exec_storageError hphase _, uncorrectable_tile s c i⟩
  case refine_8 => exact ⟨_, exec_storageError hphase _, uncorrectable_monitor hm⟩
  case refine_9 =>
    have hcore : (s.uncorrectable (.cache c line)).core c = { s.core c with
        l1 := Tab.erase (s.core c).l1 line
        icache := (s.core c).icache.filter fun w => !decide (lineOf w.1 = line) } := by
      refine (State.core_modCore s c c _).trans (if_pos rfl)
    refine ⟨_, exec_storageError_cache hphase c line fatal, ?_, fun w hw => ?_, rfl, rfl⟩
    · rw [hcore]
      exact (tab_get?_erase _ _ _).trans (if_pos rfl)
    · rw [hcore] at hw
      simpa using (List.mem_filter.1 hw).2
  case refine_10 =>
    refine ⟨_, exec_storageError_tlb hphase c j fatal, ?_, rfl⟩
    exact (congrArg CoreState.tlb ((State.core_modCore s c c _).trans (if_pos rfl)) :)
  case refine_11 => exact ⟨_, exec_storageError hphase _, logError_logged s .ueFresh 5 0 0 1 0, still_logError s .ueFresh 5 0 0 1 0⟩
  case refine_12 =>
    obtain ⟨hstill, hlast, hlogged⟩ := correctable_first (addr := 32 * atomOf pa) h
    exact ⟨_, exec_storageError_correctable s pa, hstill, hlast, hlogged⟩
  case refine_13 => exact (exec_storageError_correctable s pa).trans (congrArg Host.Outcome.next (correctable_again h hc))
  case refine_14 => exact ⟨_, exec_patrolRead hb hp hj hl, patrolRead_enters hl⟩

end Sys2Proof.Machine
end

