-- ==== Sys2Proof/Proofs/SparingRules.lean ====
section
/-! PROOFS. ERRTAIL, ERRINJ, rows spared, channels, cores steered and retired (R357, R406, R408, R409, R411, R412, R415, R416). -/

namespace Sys2Proof.Machine

/-! ## Rows (R411) -/

/-- A row spared, or the refusal of one, is entered; a spare row taken is counted, and the row's events are gone. -/
theorem spareRow_spares (s : State) (pa : Nat) :
    let ch := (Config.hbmChannel (atomOf pa)).val
    let n := Tab.getD s.rel.spareRows ch 0
    let t := s.spareRow pa
    Logged s t .rowSpared 0 (Config.homeSlice (lineOf pa)).val pa (if n < 64 then 1 else 0) 0 ∧
      (n < 64 → Tab.getD t.rel.spareRows ch 0 = n + 1 ∧ Tab.get? t.rel.rowEvents (Config.rowOfAddress pa) = none) := by
  intro ch n t
  by_cases hn : n < 64
  · obtain ⟨u, hu⟩ : ∃ u, u = { s with rel := { s.rel with
        spareRows := Tab.put s.rel.spareRows 0 ch (n + 1), spared := Tab.set s.rel.spared (Config.rowOfAddress pa) ch
        rowEvents := Tab.erase s.rel.rowEvents (Config.rowOfAddress pa) } } := ⟨_, rfl⟩
    have ht : t = u.logError .rowSpared 0 (Config.homeSlice (lineOf pa)).val pa 1 0 := by rw [hu]; exact if_pos hn
    clear_value t
    have hlogged := logError_logged u .rowSpared 0 (Config.homeSlice (lineOf pa)).val pa 1 0
    obtain ⟨⟨ovf, head, seq, quiet, hrel⟩, -⟩ := logError_leaves u .rowSpared 0 (Config.homeSlice (lineOf pa)).val pa 1 0
    rw [← ht] at hlogged hrel
    rw [if_pos hn]
    refine ⟨?_, fun _ => ⟨?_, ?_⟩⟩
    · rw [hu] at hlogged
      exact hlogged
    · rw [hrel, hu]
      exact (tab_getD_put s.rel.spareRows 0 ch ch (n + 1)).trans (if_pos rfl)
    · rw [hrel, hu]
      exact (tab_get?_erase s.rel.rowEvents _ _).trans (if_pos rfl)
  · have ht : t = s.logError .rowSpared 0 (Config.homeSlice (lineOf pa)).val pa 0 0 := if_neg hn
    clear_value t
    rw [if_neg hn, ht]
    exact ⟨logError_logged s .rowSpared 0 _ pa 0 0, fun h => absurd h hn⟩

theorem commits_spareRow (s : State) (pa : Nat) : (s.spareRow pa).commits = s.commits := by
  have h := seat_spareRow s pa
  simp only [State.seat, Prod.mk.injEq] at h
  exact h.2.2.2

theorem exec_rowspare {s u : State} {c : Commit} (h : HeadCommit s (regSpace + 0x123098) c u)
    (hb : s.inHbm (bits (c.dword 0) 5 47 * 32) = true) : exec .rowspare s = .next (u.spareRow (bits (c.dword 0) 5 47 * 32)) := by
  have hrel : u.rel = s.rel := (congrArg State.rel h.eq :)
  change execRowspare s = _
  rw [execRowspare, h.take]
  exact congrArg Host.Outcome.next (if_pos ((congrArg (fun r : Reliability => decide (bits (c.dword 0) 5 47 * 32 < r.hbmSize)) hrel).trans hb))

/-! ## The log's tail, channels and injection (R406, R412, R415, R416) -/

theorem exec_errtail {s u : State} {c : Commit} (h : HeadCommit s (regSpace + 0x123018) c u) :
    exec .errtail s = .next { u with rel := { u.rel with errTail := bits (c.dword 0) 0 16, errQuiet := false } } := by
  change execErrtail s = _
  rw [execErrtail, h.take]

theorem exec_chretire {s u : State} {c : Commit} (h : HeadCommit s (regSpace + 0x1230A0) c u) :
    exec .chretire s = .next { u with rel := { u.rel with nextRetired := NatSet.add u.rel.nextRetired (bits (c.dword 0) 0 8) } } := by
  change execChretire s = _
  rw [execChretire, h.take]

/-- The injection that a write of ERRINJ arms. -/
def Commit.injection (c : Commit) (old : Injection) : Injection where
  space := bits (c.dword 0) 0 2
  any := bits (c.dword 0) 2 1 == 1
  core := bits (c.dword 0) 8 8
  addr := (if bits (c.dword 0) 0 2 = 2 then bits (c.dword 1) 3 17 else bits (c.dword 1) 3 49) * 8
  armed := true
  fired := false
  fcore := old.fcore

theorem exec_errinjArm {s u : State} {c : Commit} (h : HeadCommit s errinjReg c u)
    (hsp : bits (c.dword 0) 0 2 = 1 ∨ bits (c.dword 0) 0 2 = 2) :
    exec .errinjArm s = .next { u with rel := { u.rel with inj := c.injection u.rel.inj } } := by
  change execErrinjArm s = _
  rw [execErrinjArm, h.take]
  exact congrArg Host.Outcome.next (if_neg (by omega))

theorem exec_errinjDisarm {s u : State} {c : Commit} (h : HeadCommit s errinjReg c u) :
    (bits (c.dword 0) 0 2 = 0 → exec .errinjDisarm s =
      .next { u with rel := { u.rel with inj := { u.rel.inj with armed := false, fired := false } } }) ∧
    (bits (c.dword 0) 0 2 = 3 → exec .errinjDisarm s = .next u) := by
  change (_ → execErrinjDisarm s = _) ∧ (_ → execErrinjDisarm s = _)
  rw [execErrinjDisarm, h.take]
  exact ⟨fun h0 => congrArg Host.Outcome.next ((if_neg (by omega)).trans (if_pos h0)),
    fun h3 => congrArg Host.Outcome.next (if_pos h3)⟩

/-! ## Cores emptied (R357, R408, R409) -/

theorem emptyCore_vacant {s : State} {c : Nat} (h : ∀ b ∈ s.blocks, b.2.holds c = false) :
    s.emptyCore c = { s with rel := { s.rel with retiring := NatSet.add s.rel.retiring c } } := by
  have hnone : s.blocks.filter (fun b => b.2.holds c) = [] :=
    List.filter_eq_nil_iff.2 fun b hb => by rw [h b hb]; exact Bool.false_ne_true
  rw [State.emptyCore, hnone]
  rfl

theorem exec_spare {s u : State} {c : Commit} (h : HeadCommit s (regSpace + 0x123080) c u) : exec .spare s = .next (
    let core := bits (c.dword 0) 0 8
    let quad := bits (c.dword 0) 8 2
    if u.rel.spareReq.isSome then u
    else if !u.coreOpen core || NatSet.has u.rel.usedSpares (4 * core + quad) then { u with rel := { u.rel with spareStat := 3 } }
    else { u with rel := { u.rel with spareStat := 1, spareReq := some (core, quad, bits (c.dword 0) 10 3) } }.emptyCore core) := by
  change execSpare s = _
  rw [execSpare, h.take]

theorem exec_coreretire {s u : State} {c : Commit} (h : HeadCommit s (regSpace + 0x123090) c u)
    (hc : bits (c.dword 0) 0 8 < Config.numCores) (hr : NatSet.has u.rel.retiredCores (bits (c.dword 0) 0 8) = false) :
    exec .coreretire s = .next (u.emptyCore (bits (c.dword 0) 0 8)) := by
  change execCoreretire s = _
  rw [execCoreretire, h.take]
  exact congrArg Host.Outcome.next (if_pos ⟨hc, by rw [hr]; rfl⟩)

/-- The steering of a slice ends: the core returns to service, and the entry is made. -/
theorem spareSteerComplete_steers {s : State} {core quad i : Nat} (hreq : s.rel.spareReq = some (core, quad, i))
    (he : s.coreEmpty core = true) :
    ∃ t, exec .spareSteerComplete s = .next t ∧ t.rel.spareReq = none ∧ t.rel.spareStat = 2 ∧
      NatSet.has t.rel.usedSpares (4 * core + quad) = true ∧ NatSet.has t.rel.retiring core = false ∧
      Logged s t .spareSteered 2 core 0 1 0 ∧ s.Still t := by
  obtain ⟨u, hu⟩ : ∃ u, u = { s with rel := { s.rel with
      spareReq := none, spareStat := 2, usedSpares := NatSet.add s.rel.usedSpares (4 * core + quad)
      retiring := NatSet.del s.rel.retiring core } } := ⟨_, rfl⟩
  have hgo : exec .spareSteerComplete s = .next (u.logError .spareSteered 2 core 0 1 0) := by
    change execSpareSteerComplete s = _
    rw [execSpareSteerComplete, hu, hreq]
    exact congrArg Host.Outcome.next (if_neg (by rw [he]; exact Bool.false_ne_true))
  have hlogged := logError_logged u .spareSteered 2 core 0 1 0
  have hstill := still_logError u .spareSteered 2 core 0 1 0
  obtain ⟨⟨ovf, head, seq, quiet, hrel⟩, -⟩ := logError_leaves u .spareSteered 2 core 0 1 0
  refine ⟨_, hgo, ?_, ?_, ?_, ?_, ?_, still_pre hstill ?_ ?_ ?_ ?_⟩
  · rw [hrel, hu]; rfl
  · rw [hrel, hu]; rfl
  · rw [hrel, hu]
    exact natSet_has_add_self _ _
  · rw [hrel, hu]
    exact (natSet_has_del _ _ _).trans (by rw [bne_self_eq_false, Bool.and_false])
  · generalize u.logError .spareSteered 2 core 0 1 0 = t at hlogged
    rw [hu] at hlogged
    exact hlogged
  all_goals rw [hu]

theorem exec_coreretire_retires {s : State} {core : Nat} (hc : s.commits = []) (hr : s.retirable = some core) :
    exec .coreretire s = .next (s.retireCore core) := by
  have htake : s.takeCommit (· == regSpace + 0x123090) = none := by rw [State.takeCommit, hc]
  change execCoreretire s = _
  rw [execCoreretire, htake, hr]

/-- A core retired: its storage is cleared, its ENCORE bit is gone, and the entry is made. -/
theorem retireCore_retires (s : State) (core : Nat) :
    let t := s.retireCore core
    t.core core = .fresh ∧ t.dist.encore = s.dist.encore &&& ~~~(BitVec.twoPow 192 core) ∧
      NatSet.has t.rel.retiredCores core = true ∧ NatSet.has t.rel.retiring core = false ∧ Logged s t .coreRetired 2 core 0 1 0 ∧
      s.Still t := by
  intro t
  obtain ⟨u, hu⟩ : ∃ u, u = { s.setCore core .fresh with
      dist := { s.dist with encore := s.dist.encore &&& ~~~(BitVec.twoPow 192 core) }
      rel := { s.rel with retiring := NatSet.del s.rel.retiring core, retiredCores := NatSet.add s.rel.retiredCores core } } := ⟨_, rfl⟩
  have ht : t = u.logError .coreRetired 2 core 0 1 0 := by rw [hu]; rfl
  clear_value t
  have hlogged := logError_logged u .coreRetired 2 core 0 1 0
  have hstill := still_logError u .coreRetired 2 core 0 1 0
  have hcores := cores_logError u .coreRetired 2 core 0 1 0
  have hdist := dist_logError u .coreRetired 2 core 0 1 0
  obtain ⟨⟨ovf, head, seq, quiet, hrel⟩, -⟩ := logError_leaves u .coreRetired 2 core 0 1 0
  rw [← ht] at hlogged hstill hcores hdist hrel
  refine ⟨?_, ?_, ?_, ?_, ?_, still_pre hstill ?_ ?_ ?_ ?_⟩
  · rw [State.core, hcores, hu]
    exact (State.core_setCore s core core .fresh).trans (if_pos rfl)
  · rw [hdist, hu]
  · rw [hrel, hu]
    exact natSet_has_add_self _ _
  · rw [hrel, hu]
    exact (natSet_has_del _ _ _).trans (by rw [bne_self_eq_false, Bool.and_false])
  · rw [hu] at hlogged
    exact hlogged
  all_goals rw [hu]; rfl

/-! ## The obligation -/

/-- Settles O58: ERRTAIL, ERRINJ, rows, channels and cores spared and retired. -/
theorem sparingAndRetirement : Obligations.SparingAndRetirement := by
  unfold Obligations.SparingAndRetirement
  refine ⟨fun s u c reg h => ?_, fun s u c h => ?_, fun s u c h => ?_, fun s core quad i hreq he => spareSteerComplete_steers hreq he,
    fun s core hc hr => ⟨_, exec_coreretire_retires hc hr, retireCore_retires s core⟩⟩
  · have hrel : u.rel = s.rel := (congrArg State.rel h.eq :)
    have hback : { u with rel := s.rel } = u := by rw [← hrel]
    refine ⟨fun hreg => ?_, fun hreg hb => ?_, fun hreg => ?_, fun hreg hsp => ?_, fun hreg hsp => ?_, fun hreg hsp => ?_⟩ <;> subst hreg
    · rw [exec_errtail h, hrel]
    · obtain ⟨hlogged, hspared⟩ := spareRow_spares u (bits (c.dword 0) 5 47 * 32)
      rw [hrel] at hlogged hspared
      refine ⟨_, exec_rowspare h hb, commits_spareRow u _, still_pre (still_spareRow u _) ?_ ?_ ?_ ?_, ?_, hspared⟩
      · rw [h.eq]
      · rw [h.eq]
      · rw [h.eq]
      · rw [h.eq]
      · generalize u.spareRow (bits (c.dword 0) 5 47 * 32) = t at hlogged
        rw [h.eq] at hlogged
        exact hlogged
    · exact ⟨_, exec_chretire h, natSet_has_add_self _ _, hback⟩
    · refine ⟨_, exec_errinjArm h hsp, hback, rfl, rfl, rfl, rfl, ?_⟩
      change (if bits (c.dword 0) 0 2 = 2 then bits (c.dword 1) 3 17 else bits (c.dword 1) 3 49) * 8 = _
      rw [Nat.mul_comm, apply_ite (bits (c.dword 1) 3)]
    · rw [(exec_errinjDisarm h).1 hsp, hrel]
    · exact (exec_errinjDisarm h).2 hsp
  · intro core quad
    have hrel : u.rel = s.rel := (congrArg State.rel h.eq :)
    have hopen : u.coreOpen core = s.coreOpen core := (congrArg (fun x => x.coreOpen core) h.eq).trans rfl
    have hblocks : u.blocks = s.blocks := (congrArg State.blocks h.eq :)
    have hgo := exec_spare h
    refine ⟨fun hreq => ?_, fun hreq hbad => ?_, fun hreq hok hunused hempty => ?_⟩
    · refine hgo.trans (congrArg Host.Outcome.next (if_pos ?_))
      rw [hrel]
      exact Option.isSome_iff_ne_none.2 hreq
    · refine hgo.trans (congrArg Host.Outcome.next ((if_neg ?_).trans ((if_pos ?_).trans ?_)))
      · rw [hrel, hreq]; exact Bool.false_ne_true
      · rw [hopen, hrel]
        obtain hclosed | hused := hbad
        · rw [hclosed]; rfl
        · rw [hused, Bool.or_true]
      · rw [hrel]
    · refine hgo.trans (congrArg Host.Outcome.next ((if_neg ?_).trans ((if_neg ?_).trans ((emptyCore_vacant ?_).trans ?_))))
      · rw [hrel, hreq]; exact Bool.false_ne_true
      · rw [hopen, hrel, hok, hunused]; exact Bool.false_ne_true
      · rw [← hblocks] at hempty
        exact hempty
      · rw [← hrel]
  · intro core hc hr hempty
    have hrel : u.rel = s.rel := (congrArg State.rel h.eq :)
    have hblocks : u.blocks = s.blocks := (congrArg State.blocks h.eq :)
    rw [← hrel] at hr ⊢
    rw [← hblocks] at hempty
    exact (exec_coreretire h hc hr).trans (congrArg Host.Outcome.next (emptyCore_vacant hempty))

end Sys2Proof.Machine
end
